-- ==== Sys2Proof/Word.lean ====
section
/-! DEFINITION. Words of the Sofaot N12 and sparse tables of plain data.
A `Sparse` table is a list of (key, value) pairs with rising keys; an unlisted key reads as a default. -/

namespace Sys2Proof

abbrev Byte := BitVec 8
abbrev Word := BitVec 32
abbrev DWord := BitVec 64

/-- A sparse table: keys rising, no entry equal to the default that an unlisted key reads as. -/
abbrev Sparse (α : Type) := List (Nat × α)

end Sys2Proof
end

