-- ==== Sys2Proof/Config.lean ====
section
/-! DEFINITION. What the manual leaves open: free values. Each is an opaque constant, applied to the counter
`State.freeN`, so no proof can see its value. -/

namespace Sys2Proof.Config

/-- Free choice between two permitted results (R6): an old or a new translation before an invalidation
completes (R244), stale or current instruction bytes before IFEN (R19), old or new operands in flight (R325). DESIGN CHOICE (log 6). -/
opaque freeBool : Nat → Bool

/-- Free advance of a counter whose cycle-exact value the model does not fix (`%clk` R120, counters R491). -/
opaque freeCount : Nat → Nat

/-- Free byte where the manual gives none. -/
opaque freeByte : Nat → Byte

/-- The device's identity key (R487), which no rule gives and nothing outside this function sees. -/
opaque identityKey : List Byte

/-- The length of an attestation report, and a byte of it: of the measurement log, the requester's nonce, the partition's first slice and
the identity key, and, as a signature may differ from one report to the next, of a draw; the manual gives no layout (R487). -/
opaque reportLen : List (List Byte) → Nat
opaque reportByte : List (List Byte) → List Byte → Nat → List Byte → Nat → Nat → Byte

/-- The set of a registry's entries, and of a memory-side cache's lines, that a line belongs to: the manual gives the number of
sets and ways, and not which lines share one (R246, R249). -/
opaque registrySet : Nat → Nat
opaque mscSet : Nat → Nat

/-- What a word of a 128-byte line reads as under a key other than the one the line stands under: the two keys, the line, its words,
and the word's place (R241, R434). -/
opaque recrypt : Nat → Nat → Nat → List Word → Nat → Word

/-- A byte of an event entry of the host's mailbox: what the entry reports, as numbers, and the byte's own number; the manual gives no
layout (R488). -/
opaque eventByte : List Nat → Nat → Byte

/-- The 64 KiB page of device addresses, none of them memory, at which a context may map the partition's queue-notify page: the manual
does not say where it stands (R231). -/
opaque notifyPage : Nat

end Sys2Proof.Config
end

