-- ==== Sys2Proof/Syntax.lean ====
section
/-! DEFINITION. The instructions and steps of the Sofaot N12: one constructor for each row of the opcode table.
Rows 0 to 155 are instructions (fields as R73 to R76, R80, R85, R355 lay them out); rows 156 to 249 are steps of
other agents, whose operands carry what the outside decides (arrival order, Denuf's decisions, host data). -/

namespace Sys2Proof

/-- Instruction forms (R73): one, two, three or five words. -/
inductive Form where
  | s | m | l | lx
deriving DecidableEq, Repr

/-- The fields of a fibre or access-program instruction (R74, R75, R79, R80). A form that lacks a word holds the
values R76 gives (S form) or 0. -/
structure Fields where
  form : Form
  d : BitVec 8
  a : BitVec 8
  b6 : BitVec 6
  b : BitVec 8 := 0xF8
  c : BitVec 8 := 0xF8
  pg : BitVec 3 := 7
  pn : Bool := false
  sp : BitVec 3 := 0
  md : BitVec 5 := 0
  sub : BitVec 4 := 0
  w2 : BitVec 32 := 0
  lit : BitVec 64 := 0
deriving DecidableEq, Repr

/-- The fields of a matrix-stream instruction (R355, R356): word 0, then word 1 and word 2 where the form has them. -/
structure SFields where
  form : Form
  d : BitVec 8
  a : BitVec 8
  b6 : BitVec 6
  w1 : BitVec 32 := 0
  w2 : BitVec 32 := 0
deriving DecidableEq, Repr

/-- The word before an instruction (R85). -/
structure Pfx where
  sw : Bool
  rep : BitVec 6
  std : Bool
  sta : Bool
  stb : Bool
  ppg : BitVec 3
  ppn : Bool
  psp : BitVec 3
deriving DecidableEq, Repr

/-- An agent named by a step: a fibre, a sequencer or an access processor of a placed group. -/
inductive Who where
  | fibre (g w f : Nat)
  | seq (g : Nat)
  | ap (g n : Nat)
deriving DecidableEq, Repr

/-- An error that cannot be corrected, by where it strikes (R235, R238, R245, R405): control state, a word of a group's scratchpad, of device
memory (`found` says that a scrub finds it) or of an L1, an atlas entry, or a tile of a sequencer's B-store slot; or one that has been
corrected, with the UNIT, UNUM and DPA of its log entry (R452, R495). -/
inductive Flaw where
  | control (who : Who)
  | spad (g word : Nat)
  | mem (word : Nat) (found : Bool)
  | l1 (core word : Nat)
  | atlas (slice group : Nat)
  | bstore (g slot tile : Nat)
  | corrected (unit unum dpa : Nat)
deriving DecidableEq, Repr

/-- What happens to a congruence group (R238, R239): the hub swaps a member into the fast location, Denuf pins or unpins it, or Denuf rewrites
an entry that cannot be used. -/
inductive Swap where
  | member (n : Nat)
  | pin (on : Bool)
  | rewrite (entry : Nat)
deriving DecidableEq, Repr

/-- A page that Denuf provides in a fault service (R255, R400): the address it serves and the device page; for a page mapped on demand its level,
permissions and the tables that the walk still lacks; and its data. -/
structure PageIn where
  va : DWord
  dpa : DWord
  level : Nat := 0
  w : Bool := true
  x : Bool := false
  uc : Bool := false
  tables : List DWord := []
  data : List (Nat × Byte) := []
deriving DecidableEq, Repr

/-- Memory-mapped register pages (R229, R231, R437, R494). -/
inductive RegPage where
  | launch | notify | scrub | ras
deriving DecidableEq, Repr

/-- What Denuf pre-empts (R419). -/
inductive PreTarget where
  | ctx (c : BitVec 8)
  | launch (lsn : Nat)
deriving DecidableEq, Repr

/-- Kinds of transport packet (R465, R469, R477). -/
inductive PacketKind where
  | write (key : Word) (off : DWord)
  | send (queue : Nat) (off : Nat)
  | readReply
deriving DecidableEq, Repr

/-- A transport packet as it reaches the receiving engine (R465, R469): words are (value, poison). -/
structure Packet where
  msg : Nat
  job : Byte
  kind : PacketKind
  idx : Nat
  count : Nat
  msgLen : Nat
  words : List (Word × Bool)
  rne : Bool
  rslot : Nat
  fromPeer : Bool
deriving DecidableEq, Repr

/-- A peer-table entry (R464). -/
structure Peer where
  valid : Bool
  addr : Nat
  job : Byte
  self : Bool
deriving DecidableEq, Repr

/-- A region-table entry (R464). -/
structure Region where
  key : Word
  base : DWord
  len : DWord
  rd : Bool
  wr : Bool
deriving DecidableEq, Repr

/-- What Denuf sets when it binds a context (R240, R253, R419, R428, R434, R464, R477). -/
structure CtxCfg where
  num : Byte
  cls : BitVec 2
  root : Option DWord
  permR : BitVec 12
  permW : BitVec 12
  slice : Nat
  saveArea : Option (DWord × Nat)
  isProtected : Bool
  peers : List Peer
  regions : List Region
  nobuf : Nat
  /-- the device address at which Denuf keeps the context's congestion table (R479) -/
  table : Option DWord := none
deriving DecidableEq, Repr

/-- The instructions and steps of the part, one constructor for each row of spec/opcode_table.json. -/
inductive Instr where
  /-- NOP (R98): Changes nothing but the PC. -/
  | nop (f : Fields)
  /-- BRA (R99): Branches each lane whose guard is true to PC0 plus the offset. -/
  | bra (f : Fields)
  /-- BRU (R100): Branches every lane of the path on one uniform condition, freezing the fibre on a poisoned condition. -/
  | bru (f : Fields)
  /-- JMX (R99): Jumps each lane to a checked 64-bit target held in a pair. -/
  | jmx (f : Fields)
  /-- CALL (R99): Writes the return address to a link pair and branches. -/
  | call (f : Fields)
  /-- RET (R99): Jumps to a checked 64-bit target as JMX does, hinting the return predictor. -/
  | ret (f : Fields)
  /-- EXIT (R102): Ends the participating lanes, dropping them from barriers and ending the fibre when the last live lane exits. -/
  | exit (f : Fields)
  /-- FYLD (R188): Passes the slot to the next ready fibre or to a named fibre. -/
  | fyld (f : Fields)
  /-- FSTART (R189): Starts a startable fibre of the same slot at its entry and reports whether it started. -/
  | fstart (f : Fields)
  /-- LOOP (R101): Decrements a uniform count and branches while it is nonzero. -/
  | loop (f : Fields)
  /-- IPF (R275): Prefetches a code range into the instruction cache or the memory-side cache. -/
  | ipf (f : Fields)
  /-- IPIN (R275): Records, fetches and pins a code range for the group and returns the lines pinned. -/
  | ipin (f : Fields)
  /-- IUNP (R275): Removes a recorded code range and unpins its lines. -/
  | iunp (f : Fields)
  /-- IADD (R103): Integer addition with wrapping and predicted residue. -/
  | iadd (f : Fields)
  /-- ISUB (R103): Integer subtraction with wrapping. -/
  | isub (f : Fields)
  /-- IMUL (R103): Low half of an integer product. -/
  | imul (f : Fields)
  /-- IMULH (R103): High half of an integer product. -/
  | imulh (f : Fields)
  /-- IMAD (R103): Integer multiply-add, optionally into a 64-bit accumulator. -/
  | imad (f : Fields)
  /-- IADD3 (R103): Three-input integer addition. -/
  | iadd3 (f : Fields)
  /-- IDIV (R104): Truncating integer division with defined results and DZ on division by zero. -/
  | idiv (f : Fields)
  /-- IREM (R104): Truncating integer remainder with defined results on division by zero. -/
  | irem (f : Fields)
  /-- IMIN (R103): Integer minimum. -/
  | imin (f : Fields)
  /-- IMAX (R103): Integer maximum. -/
  | imax (f : Fields)
  /-- IABS (R103): Integer absolute value, optionally saturating. -/
  | iabs (f : Fields)
  /-- ISADD (R103): Saturating integer addition or subtraction. -/
  | isadd (f : Fields)
  /-- LEA (R105): Forms a 64-bit address from a base and a shifted index. -/
  | lea (f : Fields)
  /-- IDOT4 (R106): Four-way byte dot product added to a word. -/
  | idot4 (f : Fields)
  /-- IADDC (R107): Adds with a carry held in a predicate and writes the carry out. -/
  | iaddc (f : Fields)
  /-- AND (R108): Bitwise and, optionally with B negated. -/
  | and (f : Fields)
  /-- OR (R108): Bitwise or, optionally with B negated. -/
  | or (f : Fields)
  /-- XOR (R108): Bitwise exclusive or, optionally with B negated. -/
  | xor (f : Fields)
  /-- BITF (R110): Computes each bit from two two-input tables chosen by C. -/
  | bitf (f : Fields)
  /-- SHL (R109): Shift left by a count. -/
  | shl (f : Fields)
  /-- SHR (R109): Logical shift right by a count. -/
  | shr (f : Fields)
  /-- SAR (R109): Arithmetic shift right by a count. -/
  | sar (f : Fields)
  /-- FSH (R111): Funnel shift of a 64-bit pair of words. -/
  | fsh (f : Fields)
  /-- BFX (R112): Extracts a bit field with sign or zero extension. -/
  | bfx (f : Fields)
  /-- BFI (R112): Inserts a bit field into C. -/
  | bfi (f : Fields)
  /-- POPC (R108): Counts the one bits. -/
  | popc (f : Fields)
  /-- CLZ (R108): Counts leading zero bits. -/
  | clz (f : Fields)
  /-- BREV (R108): Reverses the bit order. -/
  | brev (f : Fields)
  /-- BYTX (R113): Builds a word from selected, zeroed or sign-filled bytes of a pair. -/
  | bytx (f : Fields)
  /-- ICMP (R114): Integer compare writing a predicate. -/
  | icmp (f : Fields)
  /-- FCMP (R156): Floating compare writing a predicate. -/
  | fcmp (f : Fields)
  /-- SEL (R115): Selects one of two sources by a predicate, reading only the one selected. -/
  | sel (f : Fields)
  /-- PLOG (R116): Computes a predicate from three predicates by two tables. -/
  | plog (f : Fields)
  /-- PMOV (R117): Writes a predicate from the zero test of a word. -/
  | pmov (f : Fields)
  /-- ISET (R114): Integer compare writing an all-ones or zero mask. -/
  | iset (f : Fields)
  /-- FSET (R157): Floating compare writing a mask word. -/
  | fset (f : Fields)
  /-- FCLS (R158): Classifies a floating value against a class mask into a predicate. -/
  | fcls (f : Fields)
  /-- MOV (R118): Copies a word or pair whole with its tags. -/
  | mov (f : Fields)
  /-- MOVI (R119): Writes a sign-extended 14-bit immediate. -/
  | movi (f : Fields)
  /-- MOVS (R120): Copies a special register to a register. -/
  | movs (f : Fields)
  /-- MOVW (R121): Writes the writable flag bits of FSTAT. -/
  | movw (f : Fields)
  /-- VTOS (R192): Copies one lane's word to a uniform register. -/
  | vtos (f : Fields)
  /-- VIEW (R190): Writes one of the fibre's view or window registers. -/
  | view (f : Fields)
  /-- XVSET (R350): Writes a group extra-value register. -/
  | xvset (f : Fields)
  /-- FADD (R146): Correctly rounded floating addition. -/
  | fadd (f : Fields)
  /-- FMUL (R146): Correctly rounded floating multiplication. -/
  | fmul (f : Fields)
  /-- FFMA (R146): Fused floating multiply-add with one rounding. -/
  | ffma (f : Fields)
  /-- FMIN (R152): Floating minimum with defined NaN handling. -/
  | fmin (f : Fields)
  /-- FMAX (R152): Floating maximum with defined NaN handling. -/
  | fmax (f : Fields)
  /-- FDIV (R146): Correctly rounded floating division. -/
  | fdiv (f : Fields)
  /-- FSQRT (R146): Correctly rounded square root. -/
  | fsqrt (f : Fields)
  /-- FRCP (R146): Correctly rounded reciprocal. -/
  | frcp (f : Fields)
  /-- FRSQ (R146): Correctly rounded reciprocal square root. -/
  | frsq (f : Fields)
  /-- FEX2 (R146): Correctly rounded base-two exponential. -/
  | fex2 (f : Fields)
  /-- FLG2 (R146): Correctly rounded base-two logarithm. -/
  | flg2 (f : Fields)
  /-- FRND (R151): Rounds to an integral value in the same format. -/
  | frnd (f : Fields)
  /-- FSCL (R150): Scales by a power of two with one rounding. -/
  | fscl (f : Fields)
  /-- FDOT2 (R149): Two-term 16-bit dot product added to FP32 with one rounding. -/
  | fdot2 (f : Fields)
  /-- FCVT (R154): Converts into a floating-point or narrow format. -/
  | fcvt (f : Fields)
  /-- ICVT (R154): Converts into an integer type, saturating. -/
  | icvt (f : Fields)
  /-- CVTQ (R345): Quantises accumulator tiles into tiles with their existing scale records. -/
  | cvtq (f : Fields)
  /-- DQ (R347): Decodes tiles into FP32 accumulators. -/
  | dq (f : Fields)
  /-- SCQ (R346): Chooses scale records and quantises accumulator tiles with saturation. -/
  | scq (f : Fields)
  /-- SACC (R348): Adds scaled accumulators with per-tensor scales and one rounding. -/
  | sacc (f : Fields)
  /-- TTR (R349): Transposes tiles or accumulators. -/
  | ttr (f : Fields)
  /-- NBR (R193): Reads a word k positions along the neighbour chain as a long-latency producer. -/
  | nbr (f : Fields)
  /-- CXS (R193): Cross-lane read by index, xor or ring offset. -/
  | cxs (f : Fields)
  /-- VOTE (R195): Computes all, any, equal or ballot of a predicate over participants. -/
  | vote (f : Fields)
  /-- LRED (R197): Reduces a value across participants in a fixed tree. -/
  | lred (f : Fields)
  /-- LSCAN (R197): Scans a value across participants in lane order. -/
  | lscan (f : Fields)
  /-- BCST (R192): Broadcasts one lane's word to the participants. -/
  | bcst (f : Fields)
  /-- LD (R123): Flat load, marking the destination empty until data returns. -/
  | ld (f : Fields)
  /-- ST (R124): Flat store of checked data to a checked address. -/
  | st (f : Fields)
  /-- LDS (R258): Scratchpad load ignoring full/empty tags. -/
  | lds (f : Fields)
  /-- STS (R259): Scratchpad store leaving tags unchanged. -/
  | sts (f : Fields)
  /-- LDU (R125): Uniform load made once for the fibre. -/
  | ldu (f : Fields)
  /-- STU (R125): Uniform store made once for the fibre. -/
  | stu (f : Fields)
  /-- LDFE (R260): Full/empty scratchpad read that may wait, take or probe. -/
  | ldfe (f : Fields)
  /-- STFE (R261): Full/empty scratchpad write that waits for empty unless forced. -/
  | stfe (f : Fields)
  /-- LDT (R352): Loads whole scaled tiles, checking generations. -/
  | ldt (f : Fields)
  /-- STT (R353): Stores tiles with a new generation, serialised at the record's home. -/
  | stt (f : Fields)
  /-- LDAC (R354): Loads FP32 accumulators. -/
  | ldac (f : Fields)
  /-- STAC (R354): Stores FP32 accumulators. -/
  | stac (f : Fields)
  /-- PFT (R272): Asks the hub to swap a range into the fast tier, optionally arriving at a barrier. -/
  | pft (f : Fields)
  /-- PFC (R270): Prefetches a line into L1 or the memory-side cache. -/
  | pfc (f : Fields)
  /-- CCTL (R270): Invalidates or writes back a cache line. -/
  | cctl (f : Fields)
  /-- ATOM (R267): Indivisible read-modify-write on memory returning the old value. -/
  | atom (f : Fields)
  /-- ACAS (R267): Indivisible compare-and-swap on memory. -/
  | acas (f : Fields)
  /-- ATOMS (R268): Indivisible read-modify-write on a scratchpad word. -/
  | atoms (f : Fields)
  /-- RED (R268): Indivisible reduction on memory with no returned value. -/
  | red (f : Fields)
  /-- ACQ (R269): Acquire fence that invalidates Valid L1 words. -/
  | acq (f : Fields)
  /-- REL (R269): Release fence that waits for earlier accesses and registrations. -/
  | rel (f : Fields)
  /-- FENCE (R269): Full release and acquire fence. -/
  | fence (f : Fields)
  /-- BARI (R200): Sets a barrier's expected count, optionally clearing it. -/
  | bari (f : Fields)
  /-- BARA (R200): Arrives at a barrier and returns its phase. -/
  | bara (f : Fields)
  /-- BARW (R200): Waits until a barrier's phase differs from a token, optionally arriving first. -/
  | barw (f : Fields)
  /-- BARD (R200): Arrives at a barrier and drops membership. -/
  | bard (f : Fields)
  /-- BART (R200): Tests whether a barrier's phase differs from a token. -/
  | bart (f : Fields)
  /-- FBAR (R203): Waits at the fibre or slot barrier. -/
  | fbar (f : Fields)
  /-- FEST (R204): Sets the full tags of a register range to empty or full. -/
  | fest (f : Fields)
  /-- FEQ (R205): Tests or waits for a register range to be all full or all empty. -/
  | feq (f : Fields)
  /-- WAITC (R373): Waits until a completion object reaches a value, then acquires. -/
  | waitc (f : Fields)
  /-- SIGC (R374): Releases and adds to a completion object. -/
  | sigc (f : Fields)
  /-- MMA (R334): Sequencer matrix multiply-accumulate from tile registers and B-store slots. -/
  | mma (f : SFields)
  /-- MMS (R357): Sequencer matrix multiply-accumulate with A tiles from scratchpad. -/
  | mms (f : SFields)
  /-- BLD (R358): Fills a B-store slot from a scaled tensor described in scratchpad. -/
  | bld (f : SFields)
  /-- ACZ (R359): Zeroes accumulators as a matrix writer. -/
  | acz (f : SFields)
  /-- SQW (R323): Holds the stream until a barrier's phase differs from the sequencer's token. -/
  | sqw (f : SFields)
  /-- SQA (R324): Arrives at a barrier once earlier matrix work has completed. -/
  | sqa (f : SFields)
  /-- SQLP (R359): Steps a sequencer loop counter and branches. -/
  | sqlp (f : SFields)
  /-- SQE (R322): Ends the stream and frees the sequencer's slots. -/
  | sqe (f : SFields)
  /-- MSEQ (R360): Starts the group's matrix sequencer and grants B-store slots. -/
  | mseq (f : Fields)
  /-- OPRF (R361): Waits until earlier matrix instructions have read, or completed, their operands. -/
  | oprf (f : Fields)
  /-- MSTQ (R362): Reads the sequencer status and merges its flags into FSTAT. -/
  | mstq (f : Fields)
  /-- COPY (R364): Accepts a copy command from a scratchpad descriptor and returns its tag. -/
  | copy (f : Fields)
  /-- COPY_U (R364): Accepts a copy command built from uniform registers and a 64-bit literal. -/
  | copyU (f : Fields)
  /-- CCHN (R365): Accepts a successor command chained to a predecessor tag. -/
  | cchn (f : Fields)
  /-- APST (R369): Writes a register of an access processor. -/
  | apst (f : Fields)
  /-- APST_GO (R369): Starts an access processor at a program address. -/
  | apstGo (f : Fields)
  /-- APSP (R369): Stops a running access processor. -/
  | apsp (f : Fields)
  /-- QMAP (R370): Maps a queue head register to a hardware queue. -/
  | qmap (f : Fields)
  /-- LDQ (R371): Access-program load that reserves and fills a queue entry. -/
  | ldq (f : Fields)
  /-- AEND (R371): Ends the access processor. -/
  | aend (f : Fields)
  /-- ECMD (R366): Hands an engine descriptor to the partition's dispatcher. -/
  | ecmd (f : Fields)
  /-- SBQ (R368): Reports a command's state or the free scoreboard entries. -/
  | sbq (f : Fields)
  /-- XWR (R474): Writes a local range into a peer's region. -/
  | xwr (f : Fields)
  /-- XRD (R475): Reads a peer's region into a local range. -/
  | xrd (f : Fields)
  /-- XRD_V (R476): Reads one remote word for each participant as a long-latency producer. -/
  | xrdV (f : Fields)
  /-- XSND (R477): Sends a message to a peer's posted queue. -/
  | xsnd (f : Fields)
  /-- XPST_BUF (R477): Posts a receive buffer to a posted queue. -/
  | xpstBuf (f : Fields)
  /-- XPST_NTF (R477): Binds a notify slot to an action. -/
  | xpstNtf (f : Fields)
  /-- XPST_UNB (R477): Unbinds a notify slot. -/
  | xpstUnb (f : Fields)
  /-- XCNG (R478): Reads a word of a peer's congestion entry. -/
  | xcng (f : Fields)
  /-- XFEN (R480): Orders the fibre's later transport commands after earlier ones, optionally waiting and acquiring. -/
  | xfen (f : Fields)
  /-- RGNO (R409): Opens a region, or does nothing when one is open. -/
  | rgno (f : Fields)
  /-- CMT (R411): Tests live poison and releases, branches or replays the region. -/
  | cmt (f : Fields)
  /-- PCHK (R414): Tests poison of a word or of the quarantine without settling it. -/
  | pchk (f : Fields)
  /-- PSET (R415): Creates a poison word of a chosen cause with a record. -/
  | pset (f : Fields)
  /-- CART (R416): Reads cartouche ring records into lanes, or clears the ring. -/
  | cart (f : Fields)
  /-- SYSC (R490): Sends a request block to Denuf and waits for its status. -/
  | sysc (f : Fields)
  /-- PERF (R492): Reads a performance counter. -/
  | perf (f : Fields)
  /-- IFEN (R276): Orders stores before instruction fetch, invalidating unpinned instruction lines. -/
  | ifen (f : Fields)
  /-- PFX (R85): Prefix word giving the next instruction a guard, repeat, steps, policies and switch-on-stall. -/
  | pfx (p : Pfx)
  /-- FETCH_NONRES_MIGRATE (R28): A fetch from a non-resident page waits for Denuf's migration and is retried or freezes with NONRES. -/
  | fetchNonresMigrate (who : Who) (ok : Bool) (dpa : DWord) (data : List (Nat × Byte))
  /-- LOAD_DATA_RETURN (R123): Data of a long-latency producer arrives and writes its destination full, or is discarded. -/
  | loadDataReturn (id : Nat) (lanes : Word)
  /-- PARKED_ACCESS_PERFORM (R263): A parked full/empty access performs once the word's tag allows. -/
  | parkedAccessPerform (n : Nat)
  /-- SLOT_SWITCH (R178): The slot passes to the next ready fibre when the current fibre waits on an instruction with SW. -/
  | slotSwitch (g w : Nat)
  /-- FORCED_SWITCH (R178): After 256 waiting cycles without SW the slot passes to a ready sibling. -/
  | forcedSwitch (g w : Nat)
  /-- SIBLING_HANDOVER (R178): A sibling ready for 32 cycles takes the slot after the current fibre's next issue. -/
  | siblingHandover (g w : Nat)
  /-- QNOTIFY (R215): A queue number written to the notify register binds, raises or records the queue. -/
  | qnotify (v : Word)
  /-- SLOT_SERVE (R218): The launch engine serves the eligible slot of highest effective priority. -/
  | slotServe
  /-- RECORD_ACCEPT (R219): A head record is accepted, numbered and checked, or rejected. -/
  | recordAccept (slot : Nat)
  /-- AGEPER_EXPIRY (R218): An aging period passes and raises a waiting slot's effective priority. -/
  | ageperExpiry
  /-- PLACEMENT_PASS (R221): Places a launch's cluster sets on the rectangle in passes. -/
  | placementPass (lsn : Nat)
  /-- GROUP_RETIRE (R223): A group whose fibres, engines and writes are all done retires and frees its resources. -/
  | groupRetire (g : Nat)
  /-- LAUNCH_END (R224): Drains registrations and writes status, signal and completion action for a finished launch. -/
  | launchEnd (lsn : Nat)
  /-- REBAL_EXPIRY (R227): Every rebalance period the engine moves a core between pipeline stages. -/
  | rebalExpiry
  /-- LECTL_EN (R230): Write of LECTL.EN enabling or disabling the launch engine. -/
  | lectlEn (b : Bool)
  /-- LECTL_PAUSE (R230): Write of LECTL.PAUSE stopping or resuming acceptance of records. -/
  | lectlPause (b : Bool)
  /-- REGISTER_WRITE (R229): Write to a memory-mapped register that has no behaviour of its own. -/
  | registerWrite (pg : RegPage) (off : Nat) (v : DWord)
  /-- TRANSLATION_WALK (R242): A page walk completes with a translation or a poison cause. -/
  | translationWalk (core : Nat) (ctx : Byte) (va : DWord)
  /-- TLB_INVALIDATION (R244): Denuf completes a translation invalidation for a context and range. -/
  | tlbInvalidation (ctx : Byte) (va len : DWord)
  /-- PAGE_SWAP (R239): The hub swaps a hot capacity member into the fast location and rewrites the atlas. -/
  | pageSwap (slice group : Nat) (what : Swap)
  /-- PAGE_MIGRATION (R255): Denuf copies a managed page into device memory and rewrites its leaf. -/
  | pageMigration (ctx : Byte) (va dpa : DWord) (toHost : Bool) (data : List (Nat × Byte))
  /-- REG (R448): A registration arrives at the home and enters or revokes an owner. -/
  | reg (n : Nat)
  /-- RD (R448): A read request arrives at the home. -/
  | rd (n : Nat)
  /-- UCW (R448): A UC store or atomic arrives at the home bank. -/
  | ucw (n : Nat)
  /-- ACK (R448): Acknowledgement arrives and makes Pending words Owned. -/
  | ack (n : Nat)
  /-- FWD (R448): A forward request arrives at an owner. -/
  | fwd (n : Nat)
  /-- REV (R448): A revocation arrives and invalidates the previous owner's copy. -/
  | rev (n : Nat)
  /-- BINV (R448): A back-invalidation arrives and makes the owner write back. -/
  | binv (n : Nat)
  /-- REVA (R453): A registry-error revocation of one line arrives at every core. -/
  | reva (n : Nat)
  /-- REVS (R453): A registry-error revocation of one set arrives at every core. -/
  | revs (n : Nat)
  /-- DATA (R448): Data arrives at a reader. -/
  | data (n : Nat)
  /-- WB (R448): A write-back arrives at the home. -/
  | wb (n : Nat)
  /-- NOOWN (R450): A core reports at the home that it no longer owns words. -/
  | noown (n : Nat)
  /-- CLAIM (R453): A core's claim of words arrives at the home rebuilding an entry. -/
  | claim (n : Nat)
  /-- REGISTRY_ERROR (R453): An uncorrectable error is found in a registry entry. -/
  | registryError (line : Nat) (tagLost : Bool)
  /-- CLAIM_TIMEOUT (R453): A core that has not answered within 10 µs is treated as lost. -/
  | claimTimeout (core : Nat)
  /-- MSC_TAG_PARITY (R454): A memory-side cache tag fails its parity. -/
  | mscTagParity (line : Nat) (ctxField dataOk : Bool)
  /-- FLIT_RESEND_LIMIT (R455): A flit undeliverable after 16 resends is poisoned, rerouted or loses its die. -/
  | flitResendLimit (n boundary : Nat) (otherWay : Bool)
  /-- PFT_COMPLETE (R273): A tier prefetch finishes its last frame and arrives at its bound barrier. -/
  | pftComplete (n : Nat)
  /-- COMMAND_START (R312): An accepted engine command starts once conflicting earlier commands or its predecessor retire. -/
  | commandStart (id : Nat)
  /-- COMMAND_COMPLETE (R309): All writes of a command are acknowledged; the completion action is performed and it retires. -/
  | commandComplete (id : Nat)
  /-- QUEUE_ENTRY_FILL (R315): Data of a reserved hardware queue entry arrives. -/
  | queueEntryFill (id : Nat) (lanes : Word)
  /-- ENGINE_DISPATCH (R318): An owned pooled engine becomes free and starts a dispatched command. -/
  | engineDispatch (id : Nat)
  /-- DISPATCH_DEADLINE (R318): A pooled command not started by its deadline is rewritten as a kernel. -/
  | dispatchDeadline (id : Nat)
  /-- MATRIX_COMPLETE (R321): A matrix instruction writes its last accumulator word and its tiles become full. -/
  | matrixComplete (g : Nat)
  /-- TOKEN_GRANT (R341): The die grants a burst token in request order. -/
  | tokenGrant (die : Nat)
  /-- TOKEN_ARRIVE (R341): A granted burst token reaches its core. -/
  | tokenArrive (core : Nat)
  /-- TOKEN_IDLE_RETURN (R341): A core returns its token after 8 cycles with no k-step. -/
  | tokenIdleReturn (core : Nat)
  /-- TOKEN_HOLD_LIMIT (R341): A core returns its token after holding it 4,096 cycles. -/
  | tokenHoldLimit (core : Nat)
  /-- FAULT_SERVICE_DONE (R400): The fault unit finishes servicing a parked commit and the region replays or takes the .rel outcome. -/
  | faultServiceDone (g w f : Nat) (answer : Option (List PageIn))
  /-- TIMING_REPLAY (R406): A late transition replays a cycle at half clock, poisoning on a second flag. -/
  | timingReplay (core unit : Nat) (second : Bool)
  /-- PARITY_ERROR (R405): A parity error in control state freezes a fibre or halts a sequencer. -/
  | parityError (flaw : Flaw)
  /-- TIME_SLICE_EXPIRY (R419): A context's time slice expires while another context waits and its groups are pre-empted. -/
  | timeSliceExpiry (ctx : Byte)
  /-- DENUF_PREEMPT (R419): Denuf requests pre-emption of a named context or launch. -/
  | denufPreempt (t : PreTarget)
  /-- FORCED_SAVE (R421): A group not halted 10 µs after the request is stopped for a full save. -/
  | forcedSave (g : Nat)
  /-- PFT_CANCEL (R424): A bound tier prefetch still running 2 µs after the request is cancelled. -/
  | pftCancel (n : Nat)
  /-- SAVE_START (R430): A halted group with no work in flight begins writing its image. -/
  | saveStart (g : Nat)
  /-- SAVE_COMPLETE (R430): The group image is written and the core's space is freed. -/
  | saveComplete (g : Nat)
  /-- RESTORE_START (R431): A saved group's allocation is taken and its image, slots, commands and deferred deliveries are written back. -/
  | restoreStart (g : Nat)
  /-- RESTORE_COMPLETE (R440): The last byte of the image is written and the group's fibres become ready. -/
  | restoreComplete (g : Nat)
  /-- SLOT_RECLAIM (R432): Denuf pre-empts a lower-priority slot's launches and unbinds it for a pending queue. -/
  | slotReclaim (slot : Nat)
  /-- TEARDOWN (R435): A context is revoked, drained, keyed off, scrubbed and released in order. -/
  | teardown (ctx : Byte)
  /-- SCRCTL_GO (R437): Writing GO starts the scrub from frame 0. -/
  | scrctlGo
  /-- SCRCTL_BLOCK (R437): Writing BLOCK blocks reassignment of the partition's resources. -/
  | scrctlBlock
  /-- SCRUB_DONE (R436): The scrub completes, setting DONE and clearing BLOCK. -/
  | scrubDone (badFrames : List Nat)
  /-- PARTITION_RESET (R438): A partition reset during the scrub restarts it. -/
  | partitionReset
  /-- PARTITION_CUT (R446): Denuf drains and re-cuts a partition's slices. -/
  | partitionCut (f n : Nat)
  /-- DIE_REPLACE (R456): A failing compute die is replaced with the spare. -/
  | dieReplace (slice : Nat)
  /-- DIE_LOST (R458): A compute die stops answering and its fibres count as frozen. -/
  | dieLost (slice : Nat)
  /-- LAYER_MAP_OUT (R459): A DRAM layer is removed and its range addresses nothing. -/
  | layerMapOut (slice layer : Nat)
  /-- PACKET_ARRIVE (R469): A packet reaches the receiving engine and is checked and placed. -/
  | packetArrive (p : Packet)
  /-- PACKET_RESEND (R468): A trimmed, lost or refused packet is resent, failing the message after 7 resends. -/
  | packetResend (id i : Nat)
  /-- MESSAGE_TIMEOUT (R468): A message unfinished 10 ms after its start fails with LINK. -/
  | messageTimeout (id : Nat)
  /-- NOBUF_DEADLINE (R477): A message with no posted buffer fails with NOBUF when its deadline passes. -/
  | nobufDeadline (id : Nat)
  /-- FINAL_ACK (R470): The final acknowledgement arrives and the command completes locally with its action. -/
  | finalAck (id : Nat) (st : Nat)
  /-- CONGESTION_UPDATE (R479): Every 1 µs the engine rewrites each peer's congestion entry. -/
  | congestionUpdate (ctx : Byte) (peer : Nat) (ws : List Word)
  /-- SYSC_ANSWER (R490): Denuf's answer to a request arrives and the fibre acquires and receives the status. -/
  | syscAnswer (id : Nat) (status : Word)
  /-- MAILBOX_REQUEST (R488): A host request arrives on a partition's request ring. -/
  | mailboxRequest (req : List Byte)
  /-- RASTAIL (R496): Write of the entries consumed, clamped to RASHEAD. -/
  | rastail (v : Word)
  /-- POWER_UP (R484): Units start in order and the boot ROM checks and starts the firmware. -/
  | powerUp (imageOk : Bool) (digest : List Byte)
  /-- PARTITION_START (R485): Denuf starts a partition, resetting its counters and launch numbers. -/
  | partitionStart
  /-- CORE_UP (R485): A partition core comes up and becomes placeable. -/
  | coreUp (core : Nat)
  /-- MGMT_CORE_FAIL (R486): A management core fails and a spare takes its work. -/
  | mgmtCoreFail (n : Nat)
  /-- CLOCK_THROTTLE (R493): Denuf lowers a die's clock for power or temperature. -/
  | clockThrottle (die : Nat) (low : Bool)
  /-- BARRIER_REPEAT_COMPLETION (R201): A barrier whose CNT is still at least EXP after a completion completes again in the next cycle with no further arrival. -/
  | barrierRepeatCompletion (g n : Nat)
  /-- BLD_FINISH (R321): A BLD finishes reading memory and filling its B-store slot, releasing matrix instructions and SQA that wait on it. -/
  | bldFinish (g : Nat)
  /-- UCW_ACKNOWLEDGE (R280): The home acknowledges a UC store or home atomic, which then counts as performed for REL and ordering. -/
  | ucwAcknowledge (n : Nat)
  /-- CONTEXT_BIND (R240): Denuf binds a context to the partition, setting its page-table root, time slice, save area, peer, region and notify tables, and NOBUF deadline. -/
  | contextBind (c : CtxCfg)
  /-- POWER_LOSS (R438): Power is lost and the package retains nothing, key slots included. -/
  | powerLoss
  /-- FIRMWARE_REFLASH (R484): The firmware image is reflashed through the board management port after a failed boot. -/
  | firmwareReflash (imageOk : Bool)
  /-- LESTAT (R230): A write-one-to-clear of the QERR and PEND bits of LESTAT. -/
  | lestat (v : Word)
  /-- SCRSTAT (R437): A write-one-to-clear of the DONE and ERR bits of SCRSTAT. -/
  | scrstat (v : Word)
  /-- RASSTAT (R494): A write-one-to-clear of OVF and UE in RASSTAT; clearing OVF also clears LOST. -/
  | rasstat (v : Word)
  /-- EVENT_RING_CONSUME (R488): The host consumes entries of a partition's event ring, freeing room for events that were counted while it was full. -/
  | eventRingConsume (n : Nat)
deriving DecidableEq, Repr

end Sys2Proof
end

