-- ==== Sys2Proof/WellFormed.lean ====
section
/-! DEFINITION. Which fields make a legal instruction: the operand classes of R81 and R82, the groups of R91, the
narrowings of each description, the rules for the word before an instruction (R85 to R88), streams (R355, R356) and
access programs (R90, R371, R372). -/

namespace Sys2Proof

/-- Type codes (R83). -/
inductive Ty where
  | s32 | z32 | s16 | z16 | s8 | z8 | s64 | z64 | b32 | b64 | f32 | f16 | bf16 | e4m3 | e5m2 | e2m1x | q4n
deriving DecidableEq, Repr

/-- The type a code of R83 names. -/
def Ty.ofCode (n : Nat) : Option Ty :=
  match n with
  | 0 => some .s32 | 1 => some .z32 | 2 => some .s16 | 3 => some .z16 | 4 => some .s8 | 5 => some .z8
  | 6 => some .s64 | 7 => some .z64 | 8 => some .b32 | 9 => some .b64 | 10 => some .f32 | 11 => some .f16
  | 12 => some .bf16 | 13 => some .e4m3 | 14 => some .e5m2 | 15 => some .e2m1x | 16 => some .q4n
  | _ => none

/-- Whether a type code names a 64-bit type, whose operands are pairs (R95). -/
def wideCode (n : Nat) : Bool := n = 6 || n = 7 || n = 9

/-- Operand classes of R81 and R82 that a position accepts. `regs` lists, in order: vector, uniform, queue, zero,
lane index, literal. `num` is the number of a queue or an xv register, `raw` bits that name no register. -/
inductive Cls where
  | no
  | regs (v u q z l t pair : Bool)
  | pred
  | six
  | num (bound : Nat)
  | raw (bound : Nat)
deriving DecidableEq, Repr

/-- Any source word; any source pair; any destination word; any destination pair (R82, R95). -/
def Cls.src : Cls := .regs true true true true true true false
def Cls.srcP : Cls := .regs true true false true false true true
def Cls.dst : Cls := .regs true true false true false false false
def Cls.dstP : Cls := .regs true true false true false false true
def Cls.srcW (w : Bool) : Cls := if w then .srcP else .src
def Cls.dstW (w : Bool) : Cls := if w then .dstP else .dst
/-- Vector only; uniform only; uniform or 0xF8; each single or paired. DESIGN CHOICE (log 139): a position whose description lists
vector or uniform codes and not 0xF8 refuses 0xF8 under a pair type too. -/
def Cls.vec (pair : Bool) : Cls := .regs true false false false false false pair
def Cls.uni (pair : Bool) : Cls := .regs false true false false false false pair
def Cls.uniZ (pair : Bool) : Cls := .regs false true false true false false pair
def Cls.vecZ (pair : Bool) : Cls := .regs true false false true false false pair
def Cls.vu (pair : Bool) : Cls := .regs true true false false false false pair
def Cls.vut : Cls := .regs true true false false false true false
def Cls.ut (pair : Bool) : Cls := .regs false true false false false true pair
def Cls.utz (pair : Bool) : Cls := .regs false true false true false true pair
/-- Any field value: bits that are not an operand code. -/
def Cls.bits : Cls := .raw 256
/-- Base pair of flat addresses (R82, R122). DESIGN CHOICE (log 18): it refuses the literal, as the index does. -/
def Cls.srcA : Cls := .regs true true false true false false true
/-- Index word of flat addresses. DESIGN CHOICE (log 18): R122 says 'a 32-bit word, or 0xF8 for none' and lists no classes; the
model takes vector, uniform and queue codes, as R256 has it for scratchpad addresses, and refuses 0xF9 and, since the literal words
hold the displacement, 0xFF. -/
def Cls.idx : Cls := .regs true true true true false false false

/-- Whether code `x` may stand in a position of this class; a literal needs the L or LX form (R79). -/
def Cls.ok (k : Cls) (lit : Bool) (x : BitVec 8) : Bool :=
  let n := x.toNat
  match k with
  | .no => n == 0xF8
  | .regs v u q z l t p =>
    if n < 0xC0 then v && (!p || n % 2 == 0)
    else if n < 0xF0 then u && (!p || n % 2 == 0)
    else if n < 0xF8 then q && !p
    else if n == 0xF8 then z
    else if n == 0xF9 then l && !p
    else if n == 0xFF then t && lit
    else false
  | .pred => n < 8
  | .six => n < 64
  | .num b => n < b
  | .raw b => n < b

/-- Whether a step mark (R87) may stand on this position, with the code it holds, when the last execution is `k`. DEDUCED (log 38): no
mark stands on a field that names no register, such as MOVS's special register or VIEW's view. -/
def Cls.stepOk (k : Cls) (x : BitVec 8) (last : Nat) : Bool :=
  let n := x.toNat
  match k with
  | .regs _ _ _ _ _ _ p =>
    let m := n + (if p then 2 * last else last)
    if n < 0xC0 then m < 0xC0
    else if n < 0xF0 then m < 0xF0
    else if n < 0xF8 then m < 0xF8
    else false
  | .pred => n + last < 8
  | .six => n + last < 64
  | .num b => n + last < b
  | _ => false

/-- B6 classes (R77): an immediate for B, no immediate, a displacement, a number below a bound, bits free to the
instruction, or part of a branch offset (R78). -/
inductive B6Cls where
  | imm | zero | disp | below (n : Nat) | free | off
deriving DecidableEq, Repr

/-- What word 2 of L form may hold besides a literal that some source reads (R79). -/
inductive W2Cls where
  | lit | field | offset
deriving DecidableEq, Repr

/-- The legal shapes of one opcode's fields. -/
structure OpSpec where
  forms : List Form
  d : Cls := .no
  a : Cls := .no
  b : Cls := .no
  c : Cls := .no
  b6 : B6Cls := .zero
  tyOk : Bool := true
  subOk : Bool := true
  w2 : W2Cls := .lit
  lxField : Bool := false
  /-- whether word 1 may hold a guard (R97) -/
  guardOk : Bool := true
  extra : Bool := true

def sml : List Form := [.s, .m, .l]
def mlx : List Form := [.m, .l, .lx]
def smlx : List Form := [.s, .m, .l, .lx]
def sm : List Form := [.s, .m]
def ml : List Form := [.m, .l]
def onlyM : List Form := [.m]

/-- `.x2` is legal only with a 16-bit type (R84). -/
def x2Ok (f : Fields) (tys : List Nat) : Bool := !f.sub.getLsbD 3 || tys.contains f.md.toNat

/-- SUB bits outside `mask` are 0. -/
def subIn (f : Fields) (mask : BitVec 4) : Bool := f.sub &&& ~~~mask == 0

/-- Integer group (R103): any of the eight integer types; `.x2` with 16 bits. -/
def intSpec (f : Fields) (readsC : Bool) (mask : BitVec 4) (tys : List Nat) : OpSpec :=
  let w := wideCode f.md.toNat
  { forms := if readsC then mlx else smlx, d := .dstW w, a := .srcW w, b := .srcW w,
    c := if readsC then .srcW w else .no, b6 := .imm, tyOk := tys.contains f.md.toNat,
    subOk := subIn f (mask ||| 8) && x2Ok f [2, 3] }

def ints : List Nat := [0, 1, 2, 3, 4, 5, 6, 7]
def memTys : List Nat := [2, 3, 4, 5, 8, 9]
def floats : List Nat := [10, 11, 12]

/-- Logic group (R108). DESIGN CHOICE (log 17): BITF, FSH, BFI and BYTX, which read C, have an S form too, with C 0xF8: R91 allows S
for the group and R108 narrows no form; only R103 says of its own group that an instruction that reads C has none. -/
def logicSpec (f : Fields) (readsC : Bool) (mask : BitVec 4) (tys : List Nat) : OpSpec :=
  let w := wideCode f.md.toNat
  { forms := smlx, d := .dstW w, a := .srcW w, b := .srcW w,
    c := if readsC then .srcW w else .no, b6 := .imm, tyOk := tys.contains f.md.toNat, subOk := subIn f mask }

/-- Floating group (R144, R145). -/
def floatSpec (f : Fields) (readsB readsC : Bool) : OpSpec :=
  { forms := if readsC then ml else sml, d := .dst, a := .src, b := if readsB then .src else .no,
    c := if readsC then .src else .no, tyOk := floats.contains f.md.toNat, subOk := x2Ok f [11, 12] }

/-- Flat loads and stores (R122 to R125). -/
def flatSpec (f : Fields) (d a b : Cls) : OpSpec :=
  { forms := smlx, d := d, a := a, b := b, b6 := .disp, tyOk := memTys.contains f.md.toNat,
    subOk := !f.sub.getLsbD 3 && !(f.sub.getLsbD 1 && f.sub.getLsbD 2), w2 := .field, lxField := true }

/-- Scratchpad accesses (R256, R257). -/
def spadSpec (f : Fields) (d : Cls) (tys : List Nat) (sub : Bool) : OpSpec :=
  { forms := sml, d := d, a := .vu false, b := .regs true true true true false false false, b6 := .disp,
    tyOk := tys.contains f.md.toNat, subOk := sub, w2 := .field }

/-- Types of an atomic operation number (R266). -/
def atomTys (op : Nat) : List Nat :=
  if op ≤ 2 then [0, 1, 6, 7] else if op ≤ 6 then [8, 9] else if op ≤ 8 then [1]
  else if op ≤ 11 then [10, 11, 12] else []

/-- Atomic instructions (R265). -/
def atomSpec (f : Fields) (forms : List Form) (d a c : Cls) (tys : List Nat) : OpSpec :=
  { forms := forms, d := d, a := a, b := .srcW (wideCode f.md.toNat), c := c, b6 := .disp,
    tyOk := tys.contains f.md.toNat,
    subOk := !f.sub.getLsbD 2 && (f.sub.getLsbD 3 == (f.md.toNat == 11 || f.md.toNat == 12)) }

/-- Types of LRED and LSCAN (R198). -/
def redTyOk (f : Fields) : Bool :=
  if f.b6.toNat ≤ 2 then [0, 1, 6, 7, 10].contains f.md.toNat else [8, 9].contains f.md.toNat

/-- A range of tiles or accumulators from `x` of count B6 + 1 (R344). -/
def rangeOk (x : BitVec 8) (f : Fields) : Bool := x.toNat + f.b6.toNat < 64

/-- Tile instructions on two ranges (R343, R344). -/
def tileSpec (f : Fields) (c : Cls) (mask : BitVec 4) : OpSpec :=
  { forms := onlyM, d := .six, a := .six, c := c, b6 := .free, tyOk := f.md == 0, subOk := subIn f mask,
    extra := rangeOk f.d f && rangeOk f.a f }

/-- Conversions (R153): B is the source type, C names an xv register and .sat. -/
def cvtSpec (f : Fields) (toInt : Bool) : OpSpec :=
  let st := f.b.toNat
  let dt := f.md.toNat
  let narrow4 := [15, 16].contains st || [15, 16].contains dt
  let half := [2, 3, 11, 12]
  { forms := ml, d := if wideCode dt then .dstP else .vu false,
    a := let p := st == 6 || st == 7; .regs true true true p false true p,
    b := .raw 17, c := .raw 16, tyOk := if toInt then dt < 8 else 10 ≤ dt && dt ≤ 16,
    subOk := (!f.sub.getLsbD 3 || (half.contains st && half.contains dt))
      && (!(dt < 8 && st < 8) || (f.sub &&& 3) == 0),
    extra := st != 8 && st != 9 && (narrow4 || (f.c &&& 7) == 0)
      && (!f.c.getLsbD 3 || (!toInt && (dt == 13 || dt == 14))) }

/-- The ranges of FEST and FEQ (R186, R204): vector words, tiles or accumulators. -/
def feCls (f : Fields) : Cls := if f.sub.toNat / 2 = 0 then .vec false else .six
def feSub (f : Fields) : Bool := !f.sub.getLsbD 3 && !(f.sub.getLsbD 1 && f.sub.getLsbD 2)
def feRange (f : Fields) (x : BitVec 8) : Bool :=
  if f.sub.toNat / 2 = 0 then x.toNat + f.b6.toNat < 0xC0 else rangeOk x f

/-- The legal shapes for opcode `op` under the fields' own type and modifiers (R91 and each description). -/
def opSpec (op : Nat) (f : Fields) : Option OpSpec :=
  let w := wideCode f.md.toNat
  let u0 := f.md == 0
  let n0 := u0 && f.sub == 0
  match op with
  | 0x00 => some { forms := sml, tyOk := u0, subOk := f.sub == 0 }
  | 0x01 => some { forms := sml, tyOk := u0, subOk := f.sub == 0, w2 := .offset, d := .bits, a := .bits, b6 := .off }
  | 0x02 => some { forms := sml, b := .uniZ false, tyOk := u0, subOk := subIn f 1, w2 := .offset, d := .bits, a := .bits, b6 := .off,
                   guardOk := false }
  | 0x03 => some { forms := sml, a := .regs true true false false false true true, tyOk := n0 }
  | 0x04 => some { forms := ml, b := .dstP, tyOk := n0, w2 := .offset, d := .bits, a := .bits, b6 := .off }
  | 0x05 => some { forms := sml, a := .regs true true false false false true true, tyOk := n0 }
  | 0x06 => some { forms := sm, tyOk := n0 }
  | 0x07 => some { forms := sm, tyOk := u0, subOk := !f.sub.getLsbD 3 }
  | 0x08 => some { forms := sm, d := .uniZ false, tyOk := u0, subOk := subIn f 3 }
  | 0x09 => some { forms := [.s, .l], d := .uni false, a := .bits, b6 := .off, tyOk := n0, w2 := .offset, guardOk := false }
  | 0x0A => some { forms := sml, a := .ut true, b := .uniZ false, tyOk := u0, subOk := subIn f 1,
                   w2 := if f.a == 0xFF then .offset else .lit }
  | 0x0B => some { forms := sml, d := .uniZ false, a := .ut true, b := .uniZ false, tyOk := n0,
                   w2 := if f.a == 0xFF then .offset else .lit }
  | 0x0C => some { forms := sml, a := .ut true, b := .uniZ false, tyOk := n0,
                   w2 := if f.a == 0xFF then .offset else .lit }
  | 0x10 => some (intSpec f false 0 ints)
  | 0x11 => some (intSpec f false 0 ints)
  | 0x12 => some (intSpec f false 0 ints)
  | 0x13 => some { intSpec f false 0 [0, 1, 6, 7] with subOk := f.sub == 0 }
  | 0x14 =>
    let acc := f.sub.getLsbD 0
    some { intSpec f true 1 ints with
      d := if acc then .dstP else .dstW w, c := if acc then .srcP else .srcW w,
      extra := !acc || f.md.toNat ≤ 1 }
  | 0x15 => some (intSpec f true 0 ints)
  | 0x16 => some (intSpec f false 0 ints)
  | 0x17 => some (intSpec f false 0 ints)
  | 0x18 => some (intSpec f false 0 ints)
  | 0x19 => some (intSpec f false 0 ints)
  | 0x1A => some { intSpec f false 1 [0, 2, 4, 6] with b := .no, b6 := .zero }
  | 0x1B => some (intSpec f false 1 ints)
  | 0x1C => some { forms := smlx, d := .dstP, a := .srcP, b := .srcW w, b6 := .imm,
                   tyOk := [0, 1, 7].contains f.md.toNat, subOk := !f.sub.getLsbD 3 }
  | 0x1D => some { forms := mlx, d := .dst, a := .src, b := .src, c := .src, b6 := .imm,
                   tyOk := [4, 5].contains f.md.toNat, subOk := subIn f 1 && (!f.sub.getLsbD 0 || f.md == 4) }
  | 0x1E => some { forms := mlx, d := .dst, a := .src, b := .src, c := .pred, b6 := .imm,
                   tyOk := [0, 1].contains f.md.toNat, subOk := f.sub == 0 }
  | 0x20 => some (logicSpec f false 1 [8, 9])
  | 0x21 => some (logicSpec f false 1 [8, 9])
  | 0x22 => some (logicSpec f false 1 [8, 9])
  | 0x23 => some { logicSpec f true 3 [8, 9] with b6 := .free }
  | 0x24 => some { logicSpec f false 9 [3, 8, 9] with b := .src, extra := f.sub.getLsbD 3 == (f.md == 3) }
  | 0x25 => some { logicSpec f false 9 [3, 8, 9] with b := .src, extra := f.sub.getLsbD 3 == (f.md == 3) }
  | 0x26 => some { logicSpec f false 9 [2, 8, 9] with b := .src, extra := f.sub.getLsbD 3 == (f.md == 2) }
  | 0x27 => some (logicSpec f true 1 [8])
  | 0x28 => some (logicSpec f false 0 [0, 1])
  | 0x29 => some (logicSpec f true 0 [8])
  | 0x2A => some { logicSpec f false 0 [8, 9] with d := .dst, b := .no, b6 := .zero }
  | 0x2B => some { logicSpec f false 0 [8, 9] with d := .dst, b := .no, b6 := .zero }
  | 0x2C => some { logicSpec f false 0 [8, 9] with b := .no, b6 := .zero }
  | 0x2D => some (logicSpec f true 0 [8])
  | 0x30 => some { forms := sml, d := .pred, a := .srcW w, b := .srcW w, b6 := .imm, tyOk := ints.contains f.md.toNat,
                   subOk := f.sub.toNat ≤ 5 }
  | 0x31 => some { forms := ml, d := .pred, a := .src, b := .src, c := .raw 14, tyOk := floats.contains f.md.toNat,
                   subOk := subIn f 4 }
  | 0x32 => some { forms := mlx, d := .dstW w, a := .srcW w, b := .srcW w, c := .pred, b6 := .imm,
                   tyOk := [8, 9].contains f.md.toNat, subOk := f.sub == 0 }
  | 0x33 => some { forms := onlyM, d := .pred, a := .pred, b := .pred, c := .pred, tyOk := f.md.toNat < 16 }
  | 0x34 => some { forms := sml, d := .pred, a := .vut, tyOk := u0, subOk := subIn f 1 }
  | 0x35 => some { forms := sml, d := .dstW w, a := .srcW w, b := .srcW w, b6 := .imm, tyOk := ints.contains f.md.toNat,
                   subOk := f.sub.toNat % 8 ≤ 5 && x2Ok f [2, 3] }
  | 0x36 => some { forms := ml, d := .dst, a := .src, b := .src, c := .raw 14, tyOk := floats.contains f.md.toNat,
                   subOk := subIn f 12 && x2Ok f [11, 12] }
  | 0x37 => some { forms := ml, d := .pred, a := .src, b := .src, tyOk := floats.contains f.md.toNat, subOk := subIn f 4 }
  | 0x40 => some { forms := smlx, d := .dstW w, a := .srcW w, tyOk := [8, 9].contains f.md.toNat, subOk := f.sub == 0 }
  | 0x41 => some { forms := sm, d := .dstW w, a := .bits, b6 := .free, tyOk := [8, 9].contains f.md.toNat, subOk := f.sub == 0,
                   extra := f.sp == 0 }
  | 0x42 => some { forms := sm, d := .vu (f.a == 0x0B || f.a == 0x0C), a := .raw 14, tyOk := n0 }
  | 0x43 => some { forms := sml, d := .raw 14, a := .src, tyOk := n0, extra := f.d == 0x0D }
  | 0x44 => some { forms := sml, d := .uni w, a := .vec w, b := if f.sub.getLsbD 0 then .no else .utz false,
                   tyOk := [8, 9].contains f.md.toNat, subOk := subIn f 1 }
  | 0x45 => some { forms := sml, d := .raw 4, a := .ut false, tyOk := n0 }
  | 0x46 => some { forms := sml, d := .num 8, a := .vut, tyOk := n0 }
  | 0x50 => some (floatSpec f true false)
  | 0x51 => some (floatSpec f true false)
  | 0x52 => some (floatSpec f true true)
  | 0x53 => some { floatSpec f true false with extra := !f.sub.getLsbD 1 }
  | 0x54 => some { floatSpec f true false with extra := !f.sub.getLsbD 1 }
  | 0x55 => some (floatSpec f true false)
  | 0x56 => some (floatSpec f false false)
  | 0x57 => some (floatSpec f false false)
  | 0x58 => some (floatSpec f false false)
  | 0x59 => some (floatSpec f false false)
  | 0x5A => some (floatSpec f false false)
  | 0x5B => some (floatSpec f false false)
  | 0x5C => some (floatSpec f true false)
  | 0x5D => some { floatSpec f true true with tyOk := [11, 12].contains f.md.toNat, extra := !f.sub.getLsbD 3 }
  | 0x5E => some (cvtSpec f false)
  | 0x5F => some (cvtSpec f true)
  | 0x60 => some (tileSpec f (.raw 16) 7)
  | 0x61 => some (tileSpec f (.raw 8) 7)
  | 0x62 => some (tileSpec f (.raw 8) 3)
  | 0x63 => some { tileSpec f (.ut false) 7 with forms := ml, b := .ut false }
  | 0x64 => some (tileSpec f .no 1)
  | 0x70 => some { forms := sm, d := .vec w, a := .vec w, b6 := .free, tyOk := [8, 9].contains f.md.toNat,
                   subOk := f.sub == 0 }
  | 0x71 => some { forms := sml, d := .vec false, a := .vec false, b := .regs true true false true false true false,
                   b6 := .below 4, tyOk := f.md == 8, subOk := f.sub == 0 }
  | 0x72 => some { forms := sm, d := if f.b6 == 3 then .vu false else .pred, a := .pred, b6 := .below 4,
                   tyOk := f.md == 8, subOk := f.sub == 0 }
  | 0x73 => some { forms := sm, d := .vu w, a := .vec w, b6 := .below 6, tyOk := redTyOk f, subOk := f.sub == 0 }
  | 0x74 => some { forms := sm, d := .vec w, a := .vec w, b6 := .below 6, tyOk := redTyOk f, subOk := subIn f 1 }
  | 0x75 => some { forms := sm, d := .vu w, a := .vec w, b6 := .below 33, tyOk := [8, 9].contains f.md.toNat,
                   subOk := f.sub == 0 }
  | 0x80 => some (flatSpec f (.vecZ w) .srcA .idx)
  | 0x81 => some (flatSpec f (.dstW w) .srcA .idx)
  | 0x82 => some (spadSpec f (.vecZ w) memTys (f.sub == 0))
  | 0x83 => some (spadSpec f (.dstW w) memTys (f.sub == 0))
  | 0x84 => some (flatSpec f (.uniZ w) (.uni true) (.uniZ false))
  | 0x85 => some (flatSpec f (.uniZ w) (.uni true) (.uniZ false))
  | 0x86 => some (spadSpec f (.vecZ false) [8] (!f.sub.getLsbD 3))
  | 0x87 => some (spadSpec f .dst [8] (subIn f 5))
  | 0x88 => some { forms := onlyM, d := .six, a := .uni true, b := .uni true, b6 := .free, tyOk := f.md == 8,
                   subOk := subIn f 1, extra := rangeOk f.d f }
  | 0x89 => some { forms := onlyM, d := .six, a := .uni true, b := .uni true, b6 := .free, tyOk := f.md == 8,
                   subOk := f.sub == 0, extra := rangeOk f.d f }
  | 0x8A => some { forms := onlyM, d := .six, a := .uni true, b6 := .free, tyOk := f.md == 8, subOk := f.sub == 0,
                   extra := rangeOk f.d f }
  | 0x8B => some { forms := onlyM, d := .six, a := .uni true, b6 := .free, tyOk := f.md == 8, subOk := f.sub == 0,
                   extra := rangeOk f.d f }
  | 0x8C => some { forms := ml, a := .uni true, b := .ut false, c := if f.c == 0xF8 then .no else .raw 32,
                   tyOk := f.md == 8, subOk := subIn f 1 }
  | 0x8D => some { flatSpec f .no .srcA .idx with tyOk := f.md == 8, subOk := subIn f 9 }
  | 0x8E => some { flatSpec f .no .srcA .idx with tyOk := f.md == 8, subOk := subIn f 11 && f.sub.toNat % 4 ≠ 3 }
  | 0x90 => some (atomSpec f mlx (.vecZ w) (.vu true) (.raw 12) (atomTys f.c.toNat))
  | 0x91 => some (atomSpec f mlx (.vecZ w) (.vu true) (.srcW w) [8, 9])
  | 0x92 => some (atomSpec f ml (.vecZ false) (.vu false) (.raw 12) ((atomTys f.c.toNat).filter (!wideCode ·)))
  | 0x93 => some (atomSpec f mlx .no (.vu true) (.raw 12) (atomTys f.c.toNat))
  | 0x94 => some { forms := onlyM, tyOk := n0 }
  | 0x95 => some { forms := onlyM, tyOk := n0 }
  | 0x96 => some { forms := onlyM, tyOk := n0 }
  | 0xA0 => some { forms := sml, a := .utz false, b6 := .below 32, tyOk := u0, subOk := subIn f 1 }
  | 0xA1 => some { forms := sm, d := .dst, b6 := .below 32, tyOk := u0, subOk := subIn f 1 }
  | 0xA2 => some { forms := sml, a := if f.sub.getLsbD 0 then .no else .vut, b6 := .below 32, tyOk := u0,
                   subOk := subIn f 3 && (!f.sub.getLsbD 1 || f.sub.getLsbD 0) }
  | 0xA3 => some { forms := sm, d := .dst, b6 := .below 32, tyOk := u0, subOk := subIn f 1 }
  | 0xA4 => some { forms := sml, d := .pred, a := .vut, b6 := .below 32, tyOk := n0 }
  | 0xA5 => some { forms := sm, tyOk := u0, subOk := subIn f 1 }
  | 0xA6 => some { forms := sm, d := feCls f, b6 := .free, tyOk := u0, subOk := feSub f, extra := feRange f f.d }
  | 0xA7 => some { forms := sm, d := .pred, a := feCls f, b6 := .free, tyOk := u0, subOk := feSub f, extra := feRange f f.a }
  | 0xA8 => some { forms := sml, d := .uniZ true, a := .uni true, b := .utz true, tyOk := u0, subOk := subIn f 1 }
  | 0xA9 => some { forms := sml, d := .uniZ true, a := .uni true, b := .utz true, tyOk := n0 }
  | 0xBC => some { forms := onlyM, d := .uniZ false, a := .uni true, b6 := .free, tyOk := n0 }
  | 0xBD => some { forms := onlyM, tyOk := u0, subOk := subIn f 1 }
  | 0xBE => some { forms := onlyM, d := .vu false, tyOk := u0, subOk := subIn f 1 }
  | 0xC0 =>
    if f.sub.getLsbD 0 then
      some { forms := [.lx], d := .uniZ false, a := .uni true, tyOk := u0, subOk := subIn f 1, lxField := true,
             extra := f.a.toNat ≤ 0xC0 + 32 }
    else some { forms := ml, d := .uniZ false, a := .ut false, tyOk := n0 }
  | 0xC1 => some { forms := ml, d := .uniZ false, a := .ut false, b := .ut false, b6 := .below 4, tyOk := u0,
                   subOk := subIn f 1 }
  | 0xC2 =>
    if f.sub.getLsbD 0 then some { forms := ml, a := .uni true, b6 := .below 2, tyOk := u0, subOk := subIn f 1 }
    else some { forms := ml, d := .uni false, a := .ut false, b6 := .below 2, tyOk := n0 }
  | 0xC3 => some { forms := onlyM, b6 := .below 2, tyOk := n0 }
  | 0xC4 => some { forms := onlyM, d := .num 8, b6 := .below 16, tyOk := n0 }
  | 0xC7 => some { forms := ml, d := .uniZ false, a := .ut false, b6 := .below 4, tyOk := n0, extra := f.b6 != 0 }
  | 0xC8 => some { forms := ml, d := .vu false, a := if f.sub.getLsbD 0 then .no else .ut false, tyOk := u0,
                   subOk := subIn f 1 }
  | 0xD0 => some { forms := ml, d := .uniZ false, a := .ut false, tyOk := n0 }
  | 0xD1 =>
    if f.sub.getLsbD 0 then some { forms := onlyM, d := .vec false, a := .vec false, b := .uni true, tyOk := u0, subOk := subIn f 1 }
    else some { forms := ml, d := .uniZ false, a := .ut false, tyOk := n0 }
  | 0xD2 => some { forms := ml, d := .uniZ false, a := .ut false, tyOk := n0 }
  | 0xD3 => some { forms := ml, d := .uniZ false, a := .ut false, b6 := .below 3, tyOk := n0 }
  | 0xD4 => some { forms := ml, d := .vu false, a := .vut, b6 := .below 8, tyOk := n0 }
  | 0xD5 => some { forms := onlyM, tyOk := u0, subOk := subIn f 1 }
  | 0xE0 => some { forms := sm, tyOk := n0 }
  | 0xE1 => some { forms := [.l], d := if f.b6 == 0 then .no else .vec false, a := if f.b == 0 then .no else .uni false,
                   b := .raw 49, b6 := .below 33, tyOk := u0, subOk := subIn f 1, w2 := .offset,
                   extra := f.sp == 0 && (f.b6 == 0 || f.d.toNat + f.b6.toNat ≤ 0xC0)
                     && (f.b == 0 || f.a.toNat + f.b.toNat ≤ 0xF0) }
  | 0xE2 => some { forms := sml, d := if f.sub == 1 then .vu false else .pred,
                   a := if f.sub == 2 then .no else .regs true true true false false true false,
                   tyOk := u0, subOk := f.sub.toNat ≤ 2 }
  | 0xE3 => some { forms := sm, d := if f.sub == 0 then .vu false else .six, b6 := .free, tyOk := u0, subOk := f.sub.toNat ≤ 2,
                   extra := (3 ≤ f.b6.toNat && f.b6.toNat ≤ 0xD) || (0x10 ≤ f.b6.toNat && f.b6.toNat ≤ 0x12) }
  | 0xE4 => some { forms := sml, d := if f.sub.getLsbD 0 then .no else .vec false,
                   a := if f.sub.getLsbD 0 then .no else .utz false, tyOk := u0, subOk := subIn f 1 }
  | 0xE5 => some { forms := sml, d := .uniZ false, a := .ut false, tyOk := n0 }
  | 0xE6 => some { forms := sml, d := .vu true, a := .vut, tyOk := n0 }
  | 0xE7 => some { forms := sm, tyOk := n0 }
  | _ => none

/-- The type an S-form instruction takes (R76, R91). BFX has no legal S form: .b32 is none of its types (R108). DEDUCED (log 37). -/
def sDefaultMd (op : Nat) : BitVec 5 :=
  if 0x20 ≤ op ∧ op ≤ 0x2D then 8
  else if op = 0x31 ∨ op = 0x36 ∨ op = 0x37 then 10
  else if op = 0x40 ∨ op = 0x41 ∨ op = 0x44 then 8
  else if 0x50 ≤ op ∧ op ≤ 0x5F then 10
  else if 0x70 ≤ op ∧ op ≤ 0x75 then 8
  else if 0x80 ≤ op ∧ op ≤ 0x8E then 8
  else 0

/-- Whether some source field of the instruction reads the literal (R79). -/
def readsLit (k : OpSpec) (f : Fields) : Bool :=
  let lit (c : Cls) (x : BitVec 8) : Bool := match c with
    | .regs _ _ _ _ _ t _ => t && x == 0xFF
    | _ => false
  lit k.a f.a || lit k.b f.b || lit k.c f.c

/-- Whether B takes the immediate of B6 (R77): the B code is 0xF8 and B is an operand. -/
def B6Cls.ok (k : OpSpec) (f : Fields) : Bool :=
  match k.b6 with
  | .imm => f.b6 == 0 || (f.b == 0xF8 && k.b != .no)
  | .zero => f.b6 == 0
  | .disp => f.b6 == 0 || f.form == .s || f.form == .m || !(k.w2 == .field || k.lxField)
  | .below n => f.b6.toNat < n
  | .free => true
  | .off => f.form != .l || (f.b6 == 0 && f.a == 0 && (k.d != .bits || f.d == 0))

/-- Words 2 to 4 (R79, R80). -/
def OpSpec.wordsOk (k : OpSpec) (f : Fields) : Bool :=
  match f.form with
  | .s => f.w2 == 0 && f.lit == 0
  | .m => f.w2 == 0 && f.lit == 0
  | .l => f.lit == 0 && (match k.w2 with
    | .lit => f.w2 == 0 || readsLit k f
    | .field => true
    | .offset => f.w2.getLsbD 0 == false && f.w2.getLsbD 1 == false)
  | .lx => f.w2 == 0xF8 && (f.lit == 0 || k.lxField || readsLit k f)

/-- The values an S form implies (R76, R91). -/
def sFormOk (op : Nat) (f : Fields) : Bool :=
  f.form != .s || (f.b == 0xF8 && f.c == 0xF8 && f.pg == 7 && !f.pn && f.sp == 0 && f.sub == 0
    && f.md == sDefaultMd op)

/-- Whether the fields pass R92 under their opcode's shape. -/
def OpSpec.ok (k : OpSpec) (op : Nat) (f : Fields) : Bool :=
  let lit := f.form == .l || f.form == .lx
  k.forms.contains f.form && k.tyOk && k.subOk && k.extra
    && k.d.ok false f.d && k.a.ok lit f.a && k.b.ok lit f.b && k.c.ok lit f.c
    && B6Cls.ok k f && k.wordsOk f && sFormOk op f && (k.guardOk || (f.pg == 7 && !f.pn))

/-- Whether the fields are a legal fibre or access-program instruction of opcode `op` (R92 items 3 to 8 and 11). -/
def legal (op : Nat) (f : Fields) : Bool :=
  match opSpec op f with
  | some k => k.ok op f
  | none => false

/-- A register code advanced for execution `k` of a repeat: by `k`, or by `2k` for a pair (R87). DESIGN CHOICE (log 13): the A of
COPY.u, an even register that stands for sixteen, steps as a pair does; the manual does not say whether it is one. -/
def Cls.stepped (c : Cls) (x : BitVec 8) (k : Nat) : BitVec 8 :=
  match c with
  | .regs _ _ _ _ _ _ true => x + BitVec.ofNat 8 (2 * k)
  | _ => x + BitVec.ofNat 8 k

/-- The fields as execution `k` under the word before it uses them (R85 to R87). -/
def Fields.atExec (f : Fields) (op : Nat) (p : Pfx) (k : Nat) : Fields :=
  let s := (opSpec op f).getD { forms := [] }
  { f with
    d := if p.std then s.d.stepped f.d k else f.d
    a := if p.sta then s.a.stepped f.a k else f.a
    b := if p.stb then s.b.stepped f.b k else f.b
    pg := p.ppg, pn := p.ppn, sp := p.psp }

/-- Opcodes that a repeat may not precede (R88): RGNO, CMT, VIEW, FSTART, SYSC. -/
def noRepeat : List Nat := [0xE0, 0xE1, 0x45, 0x08, 0xE5]

/-- Whether the word before a legal instruction is legal with it (R86 to R88, R97). DESIGN CHOICE (log 12): a prefixed MOVI or CMT
whose own word 1 has a nonzero SP is refused, as R119 and R407 have it without a word before; R86 says that word 1's SP is
ignored. -/
def pfxLegal (p : Pfx) (op : Nat) (f : Fields) : Bool :=
  match opSpec op f with
  | none => false
  | some k =>
    let last := p.rep.toNat
    f.pg == 7 && !f.pn && (p.rep == 0 || !noRepeat.contains op)
      && (k.guardOk || (p.ppg == 7 && !p.ppn))
      && (!p.std || k.d.stepOk f.d last) && (!p.sta || k.a.stepOk f.a last) && (!p.stb || k.b.stepOk f.b last)
      && legal op { f.atExec op p last with pg := 7, pn := false, sp := f.sp }

/-- Opcodes of the fibre set (R90): not the stream's, LDQ or AEND. -/
def fibreOp (op : Nat) : Bool := !(0xB0 ≤ op && op ≤ 0xB7) && op != 0xC5 && op != 0xC6 && op != 0xF0

/-- Opcodes an access processor executes (R90). -/
def accessOp (op : Nat) : Bool :=
  op == 0x00 || op == 0x02 || op == 0x09 || (0x10 ≤ op && op ≤ 0x1E) || op == 0xC5 || op == 0xC6

/-- LDQ and AEND (R372). -/
def accessSpec (op : Nat) : Option OpSpec :=
  match op with
  | 0xC5 => some { forms := ml, d := .raw 8, a := .uni true, b := .utz false }
  | 0xC6 => some { forms := sm }
  | _ => none

/-- No vector or queue code, and no predicate but p7 (R371, R372). DESIGN CHOICE (log 15): the lane-index code 0xF9 stops the
processor too; no rule says what %lane is there. -/
def accessCodeOk (c : Cls) (x : BitVec 8) : Bool :=
  match c with
  | .regs _ _ _ _ _ _ _ => (0xC0 ≤ x.toNat && x.toNat < 0xF0) || x == 0xF8 || x == 0xFF
  | .pred => x == 7
  | _ => true

/-- Whether the fields are a legal access-program instruction (R94, R371, R372). DEDUCED (log 36): p7 and SP = 0 are asked of every
instruction there, as R372 asks them of LDQ and AEND. -/
def accessLegal (op : Nat) (f : Fields) : Bool :=
  accessOp op && f.pg == 7 && !f.pn && f.sp == 0 &&
  match accessSpec op with
  | some k => k.ok op f && f.md == 0 && f.sub == 0
  | none => legal op f && (match opSpec op f with
    | some k => accessCodeOk k.d f.d && accessCodeOk k.a f.a && accessCodeOk k.b f.b && accessCodeOk k.c f.c
    | none => false)

/-- Formats a matrix operand may have in word 1 (R355). -/
def matrixFmt (x : Word) : Bool := 0x0B ≤ x.toNat && x.toNat ≤ 0x10

/-- Word 1 of MMA and MMS (R355): formats legal, bits 11:9 zero, and LC, LCJ zero in MMA. -/
def matrixWord (w : Word) (lc : Bool) : Bool :=
  matrixFmt ((w >>> 23) &&& 31) && matrixFmt ((w >>> 18) &&& 31) && ((w >>> 9) &&& 7) == 0
    && (lc || (w >>> 29) == 0)

/-- Whether the fields are a legal stream instruction (R355, R356). -/
def streamLegal (op : Nat) (f : SFields) : Bool :=
  match op with
  | 0xB0 => f.form == .m && f.d.toNat < 64 && f.a.toNat < 64 && f.w2 == 0 && matrixWord f.w1 false
  | 0xB1 => f.form == .l && f.d.toNat < 64 && f.a == 0xF8 && matrixWord f.w1 true
  | 0xB2 => f.form == .l && f.d == 0xF8 && f.a == 0xF8 && (f.w1 &&& 0x1FFFFFFF) == 0
  | 0xB3 => f.form == .s && f.d.toNat < 64 && f.a == 0xF8 && f.w1 == 0 && f.w2 == 0
  | 0xB4 => f.form == .s && f.d == 0xF8 && f.a == 0xF8 && f.b6.toNat < 32 && f.w1 == 0 && f.w2 == 0
  | 0xB5 => f.form == .s && f.d == 0xF8 && f.a == 0xF8 && f.b6.toNat < 32 && f.w1 == 0 && f.w2 == 0
  | 0xB6 => f.form == .l && f.d.toNat < 4 && f.w1 == 0 && f.w2 != 0
  | 0xB7 => f.form == .s && f.d == 0xF8 && f.a == 0xF8 && f.b6 == 0 && f.w1 == 0 && f.w2 == 0
  | _ => false

/-- The instruction that opcode `op` names with these fields (R89), before any test of legality. -/
def Instr.ofFields (op : Nat) (f : Fields) : Option Instr :=
  match op with
  | 0x00 => some (.nop f)
  | 0x01 => some (.bra f)
  | 0x02 => some (.bru f)
  | 0x03 => some (.jmx f)
  | 0x04 => some (.call f)
  | 0x05 => some (.ret f)
  | 0x06 => some (.exit f)
  | 0x07 => some (.fyld f)
  | 0x08 => some (.fstart f)
  | 0x09 => some (.loop f)
  | 0x0A => some (.ipf f)
  | 0x0B => some (.ipin f)
  | 0x0C => some (.iunp f)
  | 0x10 => some (.iadd f)
  | 0x11 => some (.isub f)
  | 0x12 => some (.imul f)
  | 0x13 => some (.imulh f)
  | 0x14 => some (.imad f)
  | 0x15 => some (.iadd3 f)
  | 0x16 => some (.idiv f)
  | 0x17 => some (.irem f)
  | 0x18 => some (.imin f)
  | 0x19 => some (.imax f)
  | 0x1A => some (.iabs f)
  | 0x1B => some (.isadd f)
  | 0x1C => some (.lea f)
  | 0x1D => some (.idot4 f)
  | 0x1E => some (.iaddc f)
  | 0x20 => some (.and f)
  | 0x21 => some (.or f)
  | 0x22 => some (.xor f)
  | 0x23 => some (.bitf f)
  | 0x24 => some (.shl f)
  | 0x25 => some (.shr f)
  | 0x26 => some (.sar f)
  | 0x27 => some (.fsh f)
  | 0x28 => some (.bfx f)
  | 0x29 => some (.bfi f)
  | 0x2A => some (.popc f)
  | 0x2B => some (.clz f)
  | 0x2C => some (.brev f)
  | 0x2D => some (.bytx f)
  | 0x30 => some (.icmp f)
  | 0x31 => some (.fcmp f)
  | 0x32 => some (.sel f)
  | 0x33 => some (.plog f)
  | 0x34 => some (.pmov f)
  | 0x35 => some (.iset f)
  | 0x36 => some (.fset f)
  | 0x37 => some (.fcls f)
  | 0x40 => some (.mov f)
  | 0x41 => some (.movi f)
  | 0x42 => some (.movs f)
  | 0x43 => some (.movw f)
  | 0x44 => some (.vtos f)
  | 0x45 => some (.view f)
  | 0x46 => some (.xvset f)
  | 0x50 => some (.fadd f)
  | 0x51 => some (.fmul f)
  | 0x52 => some (.ffma f)
  | 0x53 => some (.fmin f)
  | 0x54 => some (.fmax f)
  | 0x55 => some (.fdiv f)
  | 0x56 => some (.fsqrt f)
  | 0x57 => some (.frcp f)
  | 0x58 => some (.frsq f)
  | 0x59 => some (.fex2 f)
  | 0x5A => some (.flg2 f)
  | 0x5B => some (.frnd f)
  | 0x5C => some (.fscl f)
  | 0x5D => some (.fdot2 f)
  | 0x5E => some (.fcvt f)
  | 0x5F => some (.icvt f)
  | 0x60 => some (.cvtq f)
  | 0x61 => some (.dq f)
  | 0x62 => some (.scq f)
  | 0x63 => some (.sacc f)
  | 0x64 => some (.ttr f)
  | 0x70 => some (.nbr f)
  | 0x71 => some (.cxs f)
  | 0x72 => some (.vote f)
  | 0x73 => some (.lred f)
  | 0x74 => some (.lscan f)
  | 0x75 => some (.bcst f)
  | 0x80 => some (.ld f)
  | 0x81 => some (.st f)
  | 0x82 => some (.lds f)
  | 0x83 => some (.sts f)
  | 0x84 => some (.ldu f)
  | 0x85 => some (.stu f)
  | 0x86 => some (.ldfe f)
  | 0x87 => some (.stfe f)
  | 0x88 => some (.ldt f)
  | 0x89 => some (.stt f)
  | 0x8A => some (.ldac f)
  | 0x8B => some (.stac f)
  | 0x8C => some (.pft f)
  | 0x8D => some (.pfc f)
  | 0x8E => some (.cctl f)
  | 0x90 => some (.atom f)
  | 0x91 => some (.acas f)
  | 0x92 => some (.atoms f)
  | 0x93 => some (.red f)
  | 0x94 => some (.acq f)
  | 0x95 => some (.rel f)
  | 0x96 => some (.fence f)
  | 0xA0 => some (.bari f)
  | 0xA1 => some (.bara f)
  | 0xA2 => some (.barw f)
  | 0xA3 => some (.bard f)
  | 0xA4 => some (.bart f)
  | 0xA5 => some (.fbar f)
  | 0xA6 => some (.fest f)
  | 0xA7 => some (.feq f)
  | 0xA8 => some (.waitc f)
  | 0xA9 => some (.sigc f)
  | 0xBC => some (.mseq f)
  | 0xBD => some (.oprf f)
  | 0xBE => some (.mstq f)
  | 0xC0 => if f.sub.getLsbD 0 then some (.copyU f) else some (.copy f)
  | 0xC1 => some (.cchn f)
  | 0xC2 => if f.sub.getLsbD 0 then some (.apstGo f) else some (.apst f)
  | 0xC3 => some (.apsp f)
  | 0xC4 => some (.qmap f)
  | 0xC5 => some (.ldq f)
  | 0xC6 => some (.aend f)
  | 0xC7 => some (.ecmd f)
  | 0xC8 => some (.sbq f)
  | 0xD0 => some (.xwr f)
  | 0xD1 => if f.sub.getLsbD 0 then some (.xrdV f) else some (.xrd f)
  | 0xD2 => some (.xsnd f)
  | 0xD3 => if f.b6 == 0 then some (.xpstBuf f) else if f.b6 == 1 then some (.xpstNtf f) else if f.b6 == 2 then some (.xpstUnb f) else none
  | 0xD4 => some (.xcng f)
  | 0xD5 => some (.xfen f)
  | 0xE0 => some (.rgno f)
  | 0xE1 => some (.cmt f)
  | 0xE2 => some (.pchk f)
  | 0xE3 => some (.pset f)
  | 0xE4 => some (.cart f)
  | 0xE5 => some (.sysc f)
  | 0xE6 => some (.perf f)
  | 0xE7 => some (.ifen f)
  | _ => none

/-- The opcode (R89) and fields of a fibre or access-program instruction. -/
def Instr.fields? : Instr → Option (Nat × Fields)
  | .nop f => some (0x00, f)
  | .bra f => some (0x01, f)
  | .bru f => some (0x02, f)
  | .jmx f => some (0x03, f)
  | .call f => some (0x04, f)
  | .ret f => some (0x05, f)
  | .exit f => some (0x06, f)
  | .fyld f => some (0x07, f)
  | .fstart f => some (0x08, f)
  | .loop f => some (0x09, f)
  | .ipf f => some (0x0A, f)
  | .ipin f => some (0x0B, f)
  | .iunp f => some (0x0C, f)
  | .iadd f => some (0x10, f)
  | .isub f => some (0x11, f)
  | .imul f => some (0x12, f)
  | .imulh f => some (0x13, f)
  | .imad f => some (0x14, f)
  | .iadd3 f => some (0x15, f)
  | .idiv f => some (0x16, f)
  | .irem f => some (0x17, f)
  | .imin f => some (0x18, f)
  | .imax f => some (0x19, f)
  | .iabs f => some (0x1A, f)
  | .isadd f => some (0x1B, f)
  | .lea f => some (0x1C, f)
  | .idot4 f => some (0x1D, f)
  | .iaddc f => some (0x1E, f)
  | .and f => some (0x20, f)
  | .or f => some (0x21, f)
  | .xor f => some (0x22, f)
  | .bitf f => some (0x23, f)
  | .shl f => some (0x24, f)
  | .shr f => some (0x25, f)
  | .sar f => some (0x26, f)
  | .fsh f => some (0x27, f)
  | .bfx f => some (0x28, f)
  | .bfi f => some (0x29, f)
  | .popc f => some (0x2A, f)
  | .clz f => some (0x2B, f)
  | .brev f => some (0x2C, f)
  | .bytx f => some (0x2D, f)
  | .icmp f => some (0x30, f)
  | .fcmp f => some (0x31, f)
  | .sel f => some (0x32, f)
  | .plog f => some (0x33, f)
  | .pmov f => some (0x34, f)
  | .iset f => some (0x35, f)
  | .fset f => some (0x36, f)
  | .fcls f => some (0x37, f)
  | .mov f => some (0x40, f)
  | .movi f => some (0x41, f)
  | .movs f => some (0x42, f)
  | .movw f => some (0x43, f)
  | .vtos f => some (0x44, f)
  | .view f => some (0x45, f)
  | .xvset f => some (0x46, f)
  | .fadd f => some (0x50, f)
  | .fmul f => some (0x51, f)
  | .ffma f => some (0x52, f)
  | .fmin f => some (0x53, f)
  | .fmax f => some (0x54, f)
  | .fdiv f => some (0x55, f)
  | .fsqrt f => some (0x56, f)
  | .frcp f => some (0x57, f)
  | .frsq f => some (0x58, f)
  | .fex2 f => some (0x59, f)
  | .flg2 f => some (0x5A, f)
  | .frnd f => some (0x5B, f)
  | .fscl f => some (0x5C, f)
  | .fdot2 f => some (0x5D, f)
  | .fcvt f => some (0x5E, f)
  | .icvt f => some (0x5F, f)
  | .cvtq f => some (0x60, f)
  | .dq f => some (0x61, f)
  | .scq f => some (0x62, f)
  | .sacc f => some (0x63, f)
  | .ttr f => some (0x64, f)
  | .nbr f => some (0x70, f)
  | .cxs f => some (0x71, f)
  | .vote f => some (0x72, f)
  | .lred f => some (0x73, f)
  | .lscan f => some (0x74, f)
  | .bcst f => some (0x75, f)
  | .ld f => some (0x80, f)
  | .st f => some (0x81, f)
  | .lds f => some (0x82, f)
  | .sts f => some (0x83, f)
  | .ldu f => some (0x84, f)
  | .stu f => some (0x85, f)
  | .ldfe f => some (0x86, f)
  | .stfe f => some (0x87, f)
  | .ldt f => some (0x88, f)
  | .stt f => some (0x89, f)
  | .ldac f => some (0x8A, f)
  | .stac f => some (0x8B, f)
  | .pft f => some (0x8C, f)
  | .pfc f => some (0x8D, f)
  | .cctl f => some (0x8E, f)
  | .atom f => some (0x90, f)
  | .acas f => some (0x91, f)
  | .atoms f => some (0x92, f)
  | .red f => some (0x93, f)
  | .acq f => some (0x94, f)
  | .rel f => some (0x95, f)
  | .fence f => some (0x96, f)
  | .bari f => some (0xA0, f)
  | .bara f => some (0xA1, f)
  | .barw f => some (0xA2, f)
  | .bard f => some (0xA3, f)
  | .bart f => some (0xA4, f)
  | .fbar f => some (0xA5, f)
  | .fest f => some (0xA6, f)
  | .feq f => some (0xA7, f)
  | .waitc f => some (0xA8, f)
  | .sigc f => some (0xA9, f)
  | .mseq f => some (0xBC, f)
  | .oprf f => some (0xBD, f)
  | .mstq f => some (0xBE, f)
  | .copy f => some (0xC0, f)
  | .copyU f => some (0xC0, f)
  | .cchn f => some (0xC1, f)
  | .apst f => some (0xC2, f)
  | .apstGo f => some (0xC2, f)
  | .apsp f => some (0xC3, f)
  | .qmap f => some (0xC4, f)
  | .ldq f => some (0xC5, f)
  | .aend f => some (0xC6, f)
  | .ecmd f => some (0xC7, f)
  | .sbq f => some (0xC8, f)
  | .xwr f => some (0xD0, f)
  | .xrd f => some (0xD1, f)
  | .xrdV f => some (0xD1, f)
  | .xsnd f => some (0xD2, f)
  | .xpstBuf f => some (0xD3, f)
  | .xpstNtf f => some (0xD3, f)
  | .xpstUnb f => some (0xD3, f)
  | .xcng f => some (0xD4, f)
  | .xfen f => some (0xD5, f)
  | .rgno f => some (0xE0, f)
  | .cmt f => some (0xE1, f)
  | .pchk f => some (0xE2, f)
  | .pset f => some (0xE3, f)
  | .cart f => some (0xE4, f)
  | .sysc f => some (0xE5, f)
  | .perf f => some (0xE6, f)
  | .ifen f => some (0xE7, f)
  | _ => none

/-- The stream instruction that opcode `op` names (R90, R356). -/
def Instr.ofSFields (op : Nat) (f : SFields) : Option Instr :=
  match op with
  | 0xB0 => some (.mma f)
  | 0xB1 => some (.mms f)
  | 0xB2 => some (.bld f)
  | 0xB3 => some (.acz f)
  | 0xB4 => some (.sqw f)
  | 0xB5 => some (.sqa f)
  | 0xB6 => some (.sqlp f)
  | 0xB7 => some (.sqe f)
  | _ => none

/-- The opcode and fields of a stream instruction. -/
def Instr.sfields? : Instr → Option (Nat × SFields)
  | .mma f => some (0xB0, f)
  | .mms f => some (0xB1, f)
  | .bld f => some (0xB2, f)
  | .acz f => some (0xB3, f)
  | .sqw f => some (0xB4, f)
  | .sqa f => some (0xB5, f)
  | .sqlp f => some (0xB6, f)
  | .sqe f => some (0xB7, f)
  | _ => none

/-- Rows that share an opcode are told apart by SUB[28] or by XPST's kind (R343, R473). -/
def Instr.rowOk (i : Instr) : Bool :=
  match i with
  | .copy f => !f.sub.getLsbD 0
  | .copyU f => f.sub.getLsbD 0
  | .apst f => !f.sub.getLsbD 0
  | .apstGo f => f.sub.getLsbD 0
  | .xrd f => !f.sub.getLsbD 0
  | .xrdV f => f.sub.getLsbD 0
  | .xpstBuf f => f.b6 == 0
  | .xpstNtf f => f.b6 == 1
  | .xpstUnb f => f.b6 == 2
  | _ => true

/-- Well-formed: the fields are ones the decoder accepts. A step of another agent has no encoding, and every operand of
its type is well-formed. -/
def Instr.wellFormed (i : Instr) : Bool :=
  match i.fields?, i.sfields? with
  | some (op, f), _ => i.rowOk && (if op == 0xC5 || op == 0xC6 then accessLegal op f else legal op f)
  | none, some (op, f) => streamLegal op f
  | none, none => true

end Sys2Proof
end

