-- ==== Sys2Proof/Decode.lean ====
section
/-! DEFINITION. From words to instructions (R73 to R80, R85, R92 to R94, R355, R372) and back. Decoding is total: it
gives an instruction or nothing. -/

namespace Sys2Proof

/-- LEN (R73). -/
def Form.ofWord (w : Word) : Form :=
  if w.getLsbD 1 then (if w.getLsbD 0 then .lx else .l) else (if w.getLsbD 0 then .m else .s)

def Form.len : Form → BitVec 2
  | .s => 0 | .m => 1 | .l => 2 | .lx => 3

/-- Words of an instruction (R73). -/
def Form.words : Form → Nat
  | .s => 1 | .m => 2 | .l => 3 | .lx => 5

/-- The major opcode of a first word (R74). -/
def opOf (w : Word) : Nat := (w.extractLsb' 2 8).toNat

/-- How many words an instruction with this first word has. -/
def wordsOf (w : Word) : Nat := (Form.ofWord w).words

/-- Whether a word is a prefix word by its opcode (R85). -/
def isPfxWord (w : Word) : Bool := w.extractLsb' 2 8 == 0xF0#8

/-- The fields of word 1 (R75). -/
def withWord1 (f : Fields) (w : Word) : Fields :=
  { f with
    sub := w.extractLsb' 28 4, md := w.extractLsb' 23 5, sp := w.extractLsb' 20 3, pn := w.getLsbD 19
    pg := w.extractLsb' 16 3, c := w.extractLsb' 8 8, b := w.extractLsb' 0 8 }

/-- The fields an instruction's words hold (R74 to R80), with the S-form defaults of R76. -/
def fieldsOf (ws : List Word) : Option Fields :=
  match ws with
  | [] => none
  | w0 :: rest =>
    let f0 : Fields :=
      { form := Form.ofWord w0, d := w0.extractLsb' 10 8, a := w0.extractLsb' 18 8, b6 := w0.extractLsb' 26 6 }
    match f0.form, rest with
    | .s, [] => some { f0 with md := sDefaultMd (opOf w0) }
    | .m, [w1] => some (withWord1 f0 w1)
    | .l, [w1, w2] => some { withWord1 f0 w1 with w2 := w2 }
    | .lx, [w1, w2, w3, w4] => some { withWord1 f0 w1 with w2 := w2, lit := w4 ++ w3 }
    | _, _ => none

/-- A prefix word (R85): opcode 0xF0, LEN 0b00, bits [31:27] zero. -/
def decodePfx (w : Word) : Option Pfx :=
  if isPfxWord w && Form.ofWord w == .s && w.extractLsb' 27 5 == 0#5 then
    some { sw := w.getLsbD 10, rep := w.extractLsb' 11 6, std := w.getLsbD 17, sta := w.getLsbD 18,
           stb := w.getLsbD 19, ppg := w.extractLsb' 20 3, ppn := w.getLsbD 23, psp := w.extractLsb' 24 3 }
  else none

/-- A fibre instruction without a prefix (R92). -/
def decodeFibre (ws : List Word) : Option Instr :=
  match ws, fieldsOf ws with
  | w0 :: _, some f =>
    let op := opOf w0
    if fibreOp op && legal op f then Instr.ofFields op f else none
  | _, _ => none

/-- A fibre instruction after a prefix, as execution `k` uses it (R86 to R88, R92). -/
def decodeUnder (p : Pfx) (k : Nat) (ws : List Word) : Option Instr :=
  match ws, fieldsOf ws with
  | w0 :: _, some f =>
    let op := opOf w0
    if fibreOp op && legal op f && pfxLegal p op f then Instr.ofFields op (f.atExec op p k) else none
  | _, _ => none

/-- The fields of a stream instruction (R355, R356). -/
def sfieldsOf (ws : List Word) : Option SFields :=
  match ws with
  | [] => none
  | w0 :: rest =>
    let f0 : SFields :=
      { form := Form.ofWord w0, d := w0.extractLsb' 10 8, a := w0.extractLsb' 18 8, b6 := w0.extractLsb' 26 6 }
    match f0.form, rest with
    | .s, [] => some f0
    | .m, [w1] => some { f0 with w1 := w1 }
    | .l, [w1, w2] => some { f0 with w1 := w1, w2 := w2 }
    | _, _ => none

/-- A stream instruction (R93, R94, R356). -/
def decodeStream (ws : List Word) : Option Instr :=
  match ws, sfieldsOf ws with
  | w0 :: _, some f => if streamLegal (opOf w0) f then Instr.ofSFields (opOf w0) f else none
  | _, _ => none

/-- An access-program instruction (R93, R94, R372). -/
def decodeAccess (ws : List Word) : Option Instr :=
  match ws, fieldsOf ws with
  | w0 :: _, some f => if accessLegal (opOf w0) f then Instr.ofFields (opOf w0) f else none
  | _, _ => none

/-- The opcodes that only a sequencer executes (R90). -/
def streamOp (op : Nat) : Bool := 0xB0 ≤ op && op ≤ 0xB7

/-- The instruction some words hold, whoever executes it: a prefix word, or an instruction of the set its opcode
belongs to (R90). -/
def decodeAny (ws : List Word) : Option Instr :=
  match ws with
  | [] => none
  | w0 :: _ =>
    if isPfxWord w0 then (decodePfx w0).map Instr.pfx
    else if streamOp (opOf w0) then decodeStream ws
    else if opOf w0 == 0xC5 || opOf w0 == 0xC6 then decodeAccess ws
    else decodeFibre ws

/-- The little-endian words of a number, the first word lowest. -/
def wordsOfNat (n : Nat) : Nat → List Word
  | 0 => []
  | k + 1 => BitVec.ofNat 32 n :: wordsOfNat (n >>> 32) k

/-- The words of a table row's bits, as many as its first word's LEN says. -/
def tableWords (nbits w : Nat) : List Word :=
  let v := w % 2 ^ nbits
  wordsOfNat v (wordsOf (BitVec.ofNat 32 v))

/-- The instruction the decoder reads from a table row's bits. -/
def decodeTableWord (nbits w : Nat) : Option Instr := decodeAny (tableWords nbits w)

/-- Word 0 from its fields (R74). -/
def word0 (op : Nat) (form : Form) (d a : BitVec 8) (b6 : BitVec 6) : Word :=
  b6 ++ a ++ d ++ BitVec.ofNat 8 op ++ form.len

/-- Word 1 from its fields (R75). -/
def word1 (f : Fields) : Word :=
  f.sub ++ f.md ++ f.sp ++ BitVec.ofBool f.pn ++ f.pg ++ f.c ++ f.b

/-- The words of a fibre or access-program instruction. -/
def encodeFields (op : Nat) (f : Fields) : List Word :=
  let w0 := word0 op f.form f.d f.a f.b6
  match f.form with
  | .s => [w0]
  | .m => [w0, word1 f]
  | .l => [w0, word1 f, f.w2]
  | .lx => [w0, word1 f, f.w2, f.lit.extractLsb' 0 32, f.lit.extractLsb' 32 32]

/-- The words of a stream instruction. -/
def encodeSFields (op : Nat) (f : SFields) : List Word :=
  let w0 := word0 op f.form f.d f.a f.b6
  match f.form with
  | .s => [w0]
  | .m => [w0, f.w1]
  | _ => [w0, f.w1, f.w2]

/-- A prefix word from its fields (R85). -/
def encodePfx (p : Pfx) : Word :=
  0#5 ++ p.psp ++ BitVec.ofBool p.ppn ++ p.ppg ++ BitVec.ofBool p.stb ++ BitVec.ofBool p.sta ++ BitVec.ofBool p.std
    ++ p.rep ++ BitVec.ofBool p.sw ++ 0xF0#8 ++ 0#2

/-- The words of a well-formed instruction; a step of another agent has none. -/
def encode (i : Instr) : List Word :=
  match i with
  | .pfx p => [encodePfx p]
  | i =>
    match i.fields?, i.sfields? with
    | some (op, f), _ => encodeFields op f
    | none, some (op, f) => encodeSFields op f
    | none, none => []

end Sys2Proof
end

