-- ==== Sys2Proof/Machine/Sparse.lean ====
section
/-! DEFINITION. Sparse tables and device memory as sorted lists. A table lists its keys in rising order; one that has
a default lists no entry equal to it. -/

namespace Sys2Proof.Machine

/-- The entry at a key. -/
def sget {α : Type} (m : Sparse α) (k : Nat) : Option α :=
  match m with
  | [] => none
  | (k', v) :: r => if k' = k then some v else sget r k

/-- The entry at a key, or the table's default. -/
def sgetD {α : Type} (m : Sparse α) (k : Nat) (d : α) : α := (sget m k).getD d

/-- Sets the entry at a key. -/
def sput {α : Type} (m : Sparse α) (k : Nat) (v : α) : Sparse α :=
  match m with
  | [] => [(k, v)]
  | (k', v') :: r => if k < k' then (k, v) :: (k', v') :: r else if k = k' then (k, v) :: r else (k', v') :: sput r k v

/-- Removes the entry at a key. -/
def sdel {α : Type} (m : Sparse α) (k : Nat) : Sparse α :=
  match m with
  | [] => []
  | (k', v') :: r => if k = k' then sdel r k else (k', v') :: sdel r k

/-- Changes the entry at a key, where there is one. -/
def smod {α : Type} (m : Sparse α) (k : Nat) (f : α → α) : Sparse α :=
  match m with
  | [] => []
  | (k', v') :: r => if k = k' then (k', f v') :: r else (k', v') :: smod r k f

/-- Sets the value at a key of a table with a default. -/
def ssetD {α : Type} [DecidableEq α] (m : Sparse α) (k : Nat) (v d : α) : Sparse α :=
  if v = d then sdel m k else sput m k v

/-- Keys rise. -/
def rising {α : Type} : Sparse α → Bool
  | [] => true
  | (_, _) :: [] => true
  | (k, _) :: (k', v') :: r => decide (k < k') && rising ((k', v') :: r)

/-- The canonical form of a table with default `d`. -/
def canon {α : Type} [DecidableEq α] (m : Sparse α) (d : α) : Bool := rising m && m.all (fun e => !decide (e.2 = d))

/-- The canonical form of device memory: addresses rise, and no listed byte is 0, which an unlisted byte reads as
(R438). -/
abbrev Memory.wf (m : Sparse Byte) : Bool := canon m 0

/-- Reads and writes of one byte of device memory. DESIGN CHOICE (log 2). -/
def readByte (m : Sparse Byte) (a : Nat) : Byte := sgetD m a 0
def writeByte (m : Sparse Byte) (a : Nat) (v : Byte) : Sparse Byte := ssetD m a v 0

/-- The `n` bytes from `a`, lowest first. -/
def readBytes (m : Sparse Byte) (a : Nat) : Nat → List Byte
  | 0 => []
  | n + 1 => readByte m a :: readBytes m (a + 1) n

/-- Writes bytes from `a` on. -/
def writeBytes (m : Sparse Byte) (a : Nat) : List Byte → Sparse Byte
  | [] => m
  | b :: r => writeBytes (writeByte m a b) (a + 1) r

/-- A little-endian number from bytes (R4), and its bytes. -/
def natOfBytes : List Byte → Nat
  | [] => 0
  | b :: r => b.toNat + 256 * natOfBytes r
def bytesOfNat (v : Nat) : Nat → List Byte
  | 0 => []
  | n + 1 => BitVec.ofNat 8 v :: bytesOfNat (v / 256) n

/-- The 32-bit word whose lowest byte is at `a`. -/
def readWord (m : Sparse Byte) (a : Nat) : Word := BitVec.ofNat 32 (natOfBytes (readBytes m a 4))
def writeWord (m : Sparse Byte) (a : Nat) (v : Word) : Sparse Byte := writeBytes m a (bytesOfNat v.toNat 4)

/-- The numbers of the set bits among the 32 of a lane mask, and a mask from lane numbers. -/
def lanesOf (m : Word) : List Nat := (List.range 32).filter (fun l => m.getLsbD l)
def maskOf (ls : List Nat) : Word := ls.foldl (fun m l => m ||| (1#32 <<< l)) 0

/-- Replaces the entry of a list at an index by a function of it. -/
def modAt {α : Type} (xs : List α) (i : Nat) (f : α → α) : List α :=
  match xs, i with
  | [], _ => []
  | x :: r, 0 => f x :: r
  | x :: r, i + 1 => x :: modAt r i f

/-- Numbers below `n` that satisfy a test: the first one. -/
def firstBelow (n : Nat) (p : Nat → Bool) : Option Nat := (List.range n).find? p

end Sys2Proof.Machine
end

