-- ==== Sys2Proof/Machine/Parts.lean ====
section
/-! DEFINITION. The parts of the machine's state below the whole: register words, lanes, fibres, warps, groups, cores.
Each field cites the rule that names it. -/

namespace Sys2Proof.Machine

/-- A register word (R10). -/
structure RegWord where
  val : Word := 0
  full : Bool := true
  poison : Bool := false
  res : BitVec 4 := 0
deriving DecidableEq, Repr

/-- A predicate (R9, R13): a value, and while it is poisoned the word that poisoned it. -/
structure Pred where
  val : Bool := false
  bad : Option Word := none
deriving DecidableEq, Repr

/-- What a lane waits for in the waiting-at-a-barrier state (R170, R200, R203). -/
inductive Wait where
  | bar (n : Nat) (tok : BitVec 16)
  | fbar
  | fbarSlot
deriving DecidableEq, Repr

/-- Lane states (R170). A stranded lane keeps the poison word that stranded it (R392). -/
inductive LaneState where
  | notStarted
  | active
  | stranded (w : Word)
  | waiting (w : Wait)
  | exited
deriving DecidableEq, Repr

/-- What the executions of a repeat share (R28, R138): the instruction's words, fetched once, and the extra values as its first
execution read them. -/
structure Kept where
  words : List Word := []
  xv : List Word := []
deriving DecidableEq, Repr

/-- A lane (R9, R14, R170, R172). `rep` is the word before the instruction at `pc` once it has been read, with the
number of executions done, and `inst` what the executions of the repeated instruction share (R28). -/
structure Lane where
  pc : DWord := 0
  st : LaneState := .notStarted
  age : Nat := 0
  rep : Option (Pfx × Nat) := none
  inst : Kept := {}
  preds : List Pred := List.replicate 7 {}
deriving DecidableEq, Repr

/-- A cartouche record (R388). -/
structure Cart where
  cause : Byte := 0
  flags : Byte := 0
  unit : Byte := 0
  slot : Byte := 0
  fibre : Byte := 0
  cx : Byte := 0
  cy : Byte := 0
  pc : DWord := 0
  addr : DWord := 0
  lanes : Word := 0
  detail : Word := 0
deriving DecidableEq, Repr

/-- Kinds of quarantine entry (R394, R497). -/
inductive QKind where
  | st | stu | sts | stt | stac | stfe
deriving DecidableEq, Repr

/-- One lane's part of a quarantine entry: its translated address and data, or its poison word (R394, R497). -/
structure QLane where
  lane : Nat
  va : DWord := 0
  addr : Nat
  uc : Bool := false
  data : DWord
  bad : Option Word
  /-- its address is good -/
  here : Bool := true
deriving DecidableEq, Repr

/-- A quarantine entry (R394, R497): `words` holds the payload words of a tile or accumulator, `runs` the device
addresses of its parts, `rdpa` and `record` the scale record of STT, `exec` the execution that made it, `parts` that execution's
participants, `pos` the tile's position in it. -/
structure QEntry where
  kind : QKind
  ty : BitVec 5
  pc : DWord
  va : DWord := 0
  lanes : List QLane := []
  bad : Option Word := none
  runs : List Nat := []
  words : List Word := []
  rva : DWord := 0
  rdpa : Nat := 0
  record : List Word := []
  tidx : Nat := 0
  pos : Nat := 0
  exec : Nat := 0
  parts : Word := 0
  /-- the lines of its runs and record that lie in uncached pages (R246) -/
  uncached : List Nat := []
deriving DecidableEq, Repr

/-- A frozen fibre's record (R26, R92). -/
structure Frozen where
  cause : Byte
  pc : DWord
  word : Word
deriving DecidableEq, Repr

/-- A fibre parked in a commit with replay (R399, R426): its lanes, the restart PC, the commit's label, and the records of the ring that
the fault unit services (R400, R413). `sure` are lanes that a second commit of the same cycle parks, with no record to service (R412). -/
structure Park where
  lanes : Word
  pc : DWord
  rel : Bool
  target : DWord
  ring : List Cart := []
  sure : Word := 0
deriving DecidableEq, Repr

/-- A fence issued and not complete, or an acquire that acts as one (R264, R269, R280): it orders the work of its fibre begun before
`id`. `rel` holds later stores and atomics, `acq` every later memory access, until it completes. An acquire waits for releases of other
fibres, `after`, whose register writes its fibre has read (R291). -/
structure Fence where
  id : Nat
  rel : Bool
  acq : Bool
  after : List (Nat × Nat) := []
deriving DecidableEq, Repr

/-- Register words that a fibre has written while a release of its own was still to complete (R291). -/
structure Handed where
  lo : Nat
  n : Nat
  f : Nat
  fence : Nat
deriving DecidableEq, Repr

/-- A fibre (R9, R15, R164, R166). -/
structure Fibre where
  entry : Option DWord := none
  lanes : List Lane := List.replicate 32 {}
  uregs : Sparse RegWord := []
  fstat : Word := 0
  vvec : Word := 0
  vtile : Word := 0
  vacc : Word := 0
  win : Word := 0
  ring : List Cart := List.replicate 16 {}
  quar : List QEntry := []
  /-- a commit whose release has begun: its PC, and the executions whose stores it has performed so far (R403) -/
  releasing : Option (DWord × List Nat) := none
  /-- lanes stranded before the region opened, or before the last commit when none is open (R398) -/
  oldStranded : Word := 0
  replays : Nat := 0
  restart : DWord := 0
  qmap : List Nat := [0, 1, 2, 3, 4, 5, 6, 7]
  frozen : Option Frozen := none
  park : Option Park := none
  /-- matrix instructions that an OPRF waiting at each PC fixed when it was first tested (R361) -/
  oprf : Sparse (List Nat) := []
  /-- transport commands that later ones are ordered after (R480) -/
  xfen : List Nat := []
  /-- flags set so far in this cycle (R16) -/
  raised : Word := 0
  /-- a fetch that waits for a page to be migrated (R28): its address, and the PC and first word of its instruction -/
  nonres : Option (DWord × DWord × Word) := none
  /-- lanes whose last instruction carried the SW bit (R178) -/
  swLanes : Word := 0
  /-- lanes of the repeats that are path one, in the order in which they became it (R172) -/
  ones : List Word := []
  /-- looks at the slot that have found the fibre ready without being current, one after another (R178) -/
  readyFor : Nat := 0
  /-- fences and acquires that are still to complete, oldest first (R269) -/
  fences : List Fence := []
  /-- accesses with a smaller number come before every later one of the fibre, whichever their lanes (R278) -/
  joined : Nat := 0
  /-- releases of other fibres whose later register writes this fibre has read, each by fibre and fence (R291) -/
  after : List (Nat × Nat) := []
deriving DecidableEq, Repr

/-- A warp (R160, R161, R164, R165): its slot, its register allocation in bytes and words by offset / 4. -/
structure Warp where
  slot : Nat := 0
  alloc : Nat := 0
  cur : Option Nat := some 0
  /-- FYLDs of this cycle whose hand-over is still to come (R188) -/
  yields : List (Option Nat) := []
  /-- a sibling has been ready for 32 cycles: the slot passes after the fibre's next issue (R178) -/
  pass : Bool := false
  /-- looks at the slot that have found its fibre waiting, one after another (R178) -/
  waited : Nat := 0
  regs : Sparse RegWord := []
  fibres : List Fibre := []
  /-- register words written behind releases that are still to complete (R291) -/
  handed : List Handed := []
deriving DecidableEq, Repr

/-- A scratchpad word (R232). `fresh` marks a poisoned word whose uncorrectable error no access has found yet (R235, R258). -/
structure SpadWord where
  val : Word := 0
  full : Bool := true
  poison : Bool := false
  fresh : Bool := false
deriving DecidableEq, Repr

/-- Agents that are members of a barrier (R199, R323). -/
inductive Member where
  | lane (w f l : Nat)
  | fibre (w f : Nat)
  | seq
deriving DecidableEq, Repr

/-- A barrier object (R199): `cnt` and `drop` are fields of 16 bits. -/
structure Barrier where
  phase : BitVec 16 := 0
  drop : Nat := 0
  cnt : Nat := 0
  exp : Nat := 0
  mem : List Member := []
  arr : List Member := []
deriving DecidableEq, Repr

/-- Where a long-latency producer or a barrier instruction writes (R24, R200, R315). -/
inductive Dest where
  | none
  | vec (g w off : Nat)
  | uni (g w f n : Nat)
  | queue (g h entry lane : Nat)
deriving DecidableEq, Repr

/-- What one cycle brings to a barrier (R201): a BARI with its slot and fibre; arrivals of members with their count, whether
they drop, the words that receive the phase and the lanes (warp, fibre, lane) that then wait; an arrival of the sequencer;
lanes that exit or freeze (R202). -/
inductive BarOp where
  | set (n exp : Nat) (clr : Bool) (slot fibre : Nat)
  | arrive (n : Nat) (ms : List Member) (count : Nat) (drop : Bool) (dests : List Dest) (waits : List (Nat × Nat × Nat))
  | seqArrive (n : Nat)
  | leave (ms : List Member)
deriving DecidableEq, Repr

/-- Extra-value registers (R138): the mode bit and the value. -/
abbrev Xv := Word

/-- States of a matrix sequencer (R319). -/
inductive SeqState where
  | idle | running | ended | halted
deriving DecidableEq, Repr

/-- A logical B-store slot (R326 to R328, R358, R498): the format code and shape that BLD recorded (0 where none), its tiles
of words with each tile's poison, whether a BLD is still filling it, the poison word of the whole slot. -/
structure BSlot where
  fmt : Nat := 0
  k : Nat := 0
  n : Nat := 0
  tiles : List (List Word × Option Word) := []
  busy : Bool := false
  bad : Option Word := none
  desc : List Byte := []
  lcj : Word := 0
deriving DecidableEq, Repr

/-- One output tile of a matrix instruction at work (R332, R334): its 256 sums, absent ones `none`, and the poison met so far in its A
tiles, in its B tiles and in its prior contents; `hist` holds what its words have held since the instruction first wrote it, and `early`
the words that were full before its last k-step was written, by FEST.f (R325). -/
structure TileRun where
  vals : List (Option Nat) := []
  abad : Option Word := none
  bbad : Option Word := none
  prior : Option Word := none
  hist : List (List RegWord) := []
  early : List Nat := []
deriving DecidableEq, Repr

/-- A matrix instruction issued and not completed (R321): MMA, MMS or ACZ. `tiles` and `addr` say where its A tiles stand,
`accs` where its accumulators do; `aold`, `cold` and the two xv words are what stood there at issue (R325). `pos` counts the output
tiles written at each k-step in turn, `acur` holds the A tiles of the k-step at work as they were read, each with its poison, and
`read` says that it has finished reading (R321). -/
structure MatrixOp where
  id : Nat
  w : Nat
  spc : DWord
  acz : Bool := false
  z : Bool := false
  fmt : Nat := 0
  fb : Nat := 0
  xa : Nat := 0
  xb : Nat := 0
  xva : Word := 0
  xvb : Word := 0
  m : Nat := 1
  k : Nat := 1
  n : Nat := 1
  first : Nat := 0
  tiles : List Nat := []
  addr : Option Word := none
  accs : List Nat
  aold : List (List RegWord) := []
  cold : List (List RegWord) := []
  read : Bool := false
  pos : Nat := 0
  acur : List (List Word × Option Word) := []
  outs : List TileRun := []
  bno : Nat := 0
  slot : BSlot := {}
deriving DecidableEq, Repr

/-- The matrix sequencer of a group (R319). -/
structure Seq where
  st : SeqState := .idle
  spc : DWord := 0
  lc : List Word := [0, 0, 0, 0]
  vtile : Word := 0
  vacc : Word := 0
  win : Word := 0
  ownerW : Nat := 0
  ownerF : Nat := 0
  base : Nat := 0
  cnt : Nat := 0
  tok : List (BitVec 16) := List.replicate 32 0
  stat : Word := 0
  granted : Bool := false
  slots : List BSlot := []
  ops : List MatrixOp := []
  /-- a fetch that waits for a page to be migrated (R320) -/
  nonres : Option DWord := none
deriving DecidableEq, Repr

/-- States of an access processor (R369). -/
inductive ApState where
  | idle | running | ended | stopped
deriving DecidableEq, Repr

/-- An access processor (R314, R369). DESIGN CHOICE (log 1). -/
structure Ap where
  st : ApState := .idle
  spc : DWord := 0
  regs : Sparse RegWord := []
  ownerW : Nat := 0
  ownerF : Nat := 0
  /-- a fetch that waits for a page to be migrated (R93) -/
  nonres : Option DWord := none
deriving DecidableEq, Repr

/-- A hardware queue (R314, R315): entries of 32 words in reserve order, each with its number. -/
structure HwQueue where
  entries : List (Nat × List RegWord) := []
deriving DecidableEq, Repr

/-- A recorded instruction range (R275). -/
structure CodeRange where
  start : DWord
  len : Nat
deriving DecidableEq, Repr

/-- Pre-emption of a group (R419 to R430). -/
inductive PreState where
  | none | requested | forced | saving | saved | restoring
deriving DecidableEq, Repr

end Sys2Proof.Machine
end

