-- ==== Sys2Proof/Machine/State.lean ====
section
/-! DEFINITION. The state of the machine: one partition of one package with its memory, engines and management, and
the state right after reset. -/

namespace Sys2Proof.Machine

/-- A word of device memory as it travels: its value and its poison state (R245). `fresh` says that the word is bad for an
uncorrectable error that the access itself finds, not for the poison state (R387). -/
structure MemWord where
  val : Word := 0
  bad : Bool := false
  fresh : Bool := false
deriving DecidableEq, Repr

/-- States of a word in an L1 (R247); an unlisted word is Invalid. -/
inductive L1State where
  | valid | pending | owned
deriving DecidableEq, Repr

/-- A word held in an L1 data cache (R247). -/
structure L1Word where
  st : L1State
  word : MemWord
  ctx : Byte
deriving DecidableEq, Repr

/-- A line of an instruction cache: the device address it came from, its 32 words, and its pins (R275). -/
structure ILine where
  dpa : Nat
  words : List Word
  pins : Nat
  here : Bool
deriving DecidableEq, Repr

/-- A leaf held in a TLB (R242, R243): the page it maps, its size and level, and its permissions. -/
structure Leaf where
  dpa : Nat
  size : Nat
  w : Bool
  x : Bool
  uc : Bool
  nr : Bool
  enc : Bool
  level : Nat := 0
deriving DecidableEq, Repr

/-- A cached translation (R243), tagged with its context. -/
structure TlbEntry where
  ctx : Byte
  va : Nat
  leaf : Leaf
deriving DecidableEq, Repr

/-- An upper-level entry that a hub die's walkers have cached (R243): the context, the level, the first address its table maps, and
where that table stands. -/
structure WalkEntry where
  ctx : Byte
  level : Nat
  va : Nat
  table : Nat
deriving DecidableEq, Repr

/-- What has arrived for a destination word: a register word, a memory word still to be placed, or a failure. -/
inductive Got where
  | reg (w : RegWord)
  | mem (m : MemWord)
  | fail (cause : Nat) (addr : DWord) (detail : Word)
deriving DecidableEq, Repr

/-- One destination word of a producer: the device word it awaits (with the byte in it, the type that extends it and the
bytes a held store gives it), the RD that asked for it, what has arrived, and whether a poisoned result is counted (R267). -/
structure Item where
  dst : Dest
  lane : Nat
  half : Nat := 0
  va : DWord := 0
  dpa : Nat := 0
  off : Nat := 0
  ty : BitVec 5 := 8
  held : List (Option Byte) := []
  got : Option Got := none
  count : Bool := false
  rd : Nat := 0
deriving DecidableEq, Repr

/-- What kind of work a producer is (R24, R123, R260, R352, R476). -/
inductive ProdKind where
  | load
  | atom
  | park
  | tile (n : Nat) (trans : Bool)
  | acc (n : Nat)
  | copy
  | lane
  | remote
  | sysc
deriving DecidableEq, Repr

/-- Outstanding long-latency work (R24, R126). -/
structure Prod where
  id : Nat
  kind : ProdKind
  g : Nat
  w : Nat
  f : Nat
  core : Nat
  pc : DWord
  acq : Bool := false
  uc : Bool := false
  items : List Item
deriving DecidableEq, Repr

/-- A read-modify-write on memory (R250, R265 to R267): a store of some bytes, an atomic operation, or a
compare-and-swap. -/
inductive Rmw where
  | bytes (mask : BitVec 4) (v : Word)
  | op (c : Nat) (ty : BitVec 5) (b : DWord)
  | cas (b c : DWord)
deriving DecidableEq, Repr

/-- An operation that waits for ownership of its words, or for its home bank (R250, R268, R293); `exec` is its execution. -/
structure PendOp where
  id : Nat
  core : Nat
  ctx : Byte
  g : Nat
  w : Nat
  f : Nat
  lane : Nat
  pc : DWord
  va : DWord
  dpa : Nat
  words : Nat
  rmw : Rmw
  prod : Option Nat
  uc : Bool
  done : Bool := false
  exec : Nat := 0
deriving DecidableEq, Repr

/-- Message classes (R443). -/
inductive MsgClass where
  | request | snoop | response
deriving DecidableEq, Repr

/-- Messages between cores and homes (R448). `vals` asks for, or says the message carries, the words' values. -/
inductive MsgKind where
  | reg (vals : Bool)
  | rd
  | ucw (op : Nat)
  | ack (vals : Bool)
  | fwd (reader : Nat)
  | rev (vals : Bool)
  | binv
  | reva
  | revs (lines : List Nat)
  | data
  | wb
  | noown (reader : Option Nat)
  | claim
deriving DecidableEq, Repr

/-- A message in flight: its core end, its line, the words it names and the words it carries (R448). `src` is the owner that
sends a DATA; `rd` is the RD that a DATA, FWD or NOOWN answers, or the transaction of the home that a REV, BINV, REVA or REVS
and its answer belong to; `alloc` says that a read leaves a copy in the L1 (R122), `uc` that its page is uncached. -/
structure Msg where
  id : Nat
  cls : MsgClass
  kind : MsgKind
  core : Nat
  line : Nat
  mask : Word
  words : List (Nat × MemWord) := []
  ctx : Byte := 0
  src : Option Nat := none
  rd : Nat := 0
  alloc : Bool := false
  uc : Bool := false
  poisonLink : Option Nat := none
deriving DecidableEq, Repr

/-- Why a home holds the requests of a line (R451, R453). -/
inductive HoldWhy where
  | values
  | revoke
  | evict
  | claimLine
  | claimSet
deriving DecidableEq, Repr

/-- A home's transaction on some lines, which holds later requests for them until the cores it has asked have answered
(R451, R453); `claims` are the words claimed so far. -/
structure Hold where
  id : Nat
  lines : List Nat
  why : HoldWhy
  waitCores : List Nat
  held : List Msg
  claims : List (Nat × Nat) := []
  /-- a registration entered as owner whose ACK waits for the revocations it has caused (R251, R285) -/
  entered : Option Msg := none
  /-- the command, message or execution whose write has caused the revocations, and its core: it is performed once they have arrived
  (R285, R305, R380) -/
  by_ : Nat := 0
  writer : Option Nat := none
deriving DecidableEq, Repr

/-- A walk that an instruction of a fibre, or of an access processor, waits for: the page of 64 KiB, and whether the walk has ended (R178,
R243). -/
structure WalkReq where
  g : Nat
  w : Nat
  f : Nat
  pc : DWord
  core : Nat
  ctx : Byte
  page : Nat
  done : Bool := false
deriving DecidableEq, Repr

/-- What an access does to a scratchpad word (R258 to R261, R268). -/
inductive SpOp where
  | load
  | store (n : Nat)
  | read (take probe : Bool)
  | write (force : Bool)
  | rmw (r : Rmw)
deriving DecidableEq, Repr

/-- An access of one lane to one scratchpad word: its place and operation, the lane and the execution it belongs to, the producer's item
that takes its result; kept while it is parked, or waits behind a parked one (R262, R499). -/
structure ParkedFe where
  id : Nat
  exec : Nat := 0
  g : Nat
  off : Nat
  op : SpOp
  acq : Bool := false
  rel : Bool := false
  ig : Nat
  w : Nat
  f : Nat
  lane : Nat
  half : Nat := 0
  prod : Option Nat := none
  pc : DWord := 0
  addr : Word := 0
  dest : BitVec 8 := 0xF8
  data : Word := 0
deriving DecidableEq, Repr

/-- The range of a scoreboard entry (R310). -/
inductive Range where
  | mem (lo hi : Nat)
  | spad (g lo hi : Nat)
deriving DecidableEq, Repr

/-- A range scoreboard entry (R310). -/
structure Score where
  cmd : Nat
  ctx : Byte
  range : Range
  write : Bool
  few : Bool
deriving DecidableEq, Repr

/-- A PC group that issues (R172): its fibre, its lanes, the PC they share (that of the word before the instruction
when there is one), the words of a repeated instruction already fetched (R28), and the first word of the instruction. -/
structure Path where
  g : Nat
  w : Nat
  f : Nat
  mask : Word
  pc : DWord
  rep : Option (Pfx × Nat) := none
  inst : Kept := {}
  second : Bool := false
  word : Word := 0
deriving DecidableEq, Repr

/-- Which agent moves next. The model's own; no rule of the manual names it. -/
inductive Turn where
  | choose
  | issue (p : Path) (then_ : Option Path)
  | stream (g : Nat)
  | access (g n : Nat)
deriving DecidableEq, Repr

/-- The fibre and the slot's registers as they stood when path one of this cycle issued, and the lanes already issued
(R172, R173). -/
structure Opp where
  g : Nat
  w : Nat
  f : Nat
  issued : Word
  fib : Fibre
  regs : Sparse RegWord
deriving DecidableEq, Repr

/-- A command of the copy unit, a pooled engine or the transport engine, from acceptance to retirement (R304, R312,
R313, R363, R466). `cls` is 0 copy, 1 bulk copy, 2 compression, 3 collective, 4 transport; `pred` is the command it waits
for; `kernel` says that it was rewritten as a kernel, and `lsn` is then that kernel's launch (R318); `eng` is the pooled engine at work on it
(R317); `cut` says that a link loses the next word it writes to memory (R455). Of its transfer, `left` holds the runs of bytes (first, length) still to be written, `issued` the elements asked for, `reqs` the
tensor requests outstanding, as runs of elements (R300), `out` what a compression has made, with each failure's cause, ADDR and DETAIL,
`ring` the ring index of its record, `cart` the record and `first` the place of its failure (R307), and `refusals` the writes refused so far (R306). -/
structure Cmd where
  id : Nat
  g : Nat
  w : Nat
  f : Nat
  core : Nat
  pc : DWord
  tag : Nat
  cls : Nat
  desc : List Byte
  pred : Option Nat
  strict : Bool
  checked : Bool := true
  started : Bool := false
  failed : Bool := false
  cancel : Bool := false
  dispatched : Bool := false
  kernel : Bool := false
  withdrawn : Bool := false
  lsn : Option Nat := none
  eng : Option Nat := none
  cut : Bool := false
  left : List (Nat × Nat) := []
  issued : Nat := 0
  reqs : List (Nat × Nat) := []
  out : List (Byte ⊕ (Nat × DWord × Word)) := []
  ring : Option Nat := none
  cart : Option Cart := none
  first : Nat := 0
  refusals : List (Nat × DWord × Word) := []
deriving DecidableEq, Repr

/-- A tier prefetch in flight (R272, R273): its frames, and whether each was reached through an uncached page. -/
structure Pft where
  id : Nat
  g : Nat
  core : Nat
  bar : Option Nat
  frames : List (Nat × Bool)
  msc : Bool := false
  ctx : Byte := 0
deriving DecidableEq, Repr

/-- A placed group (R160 to R163, R199, R232, R275, R314, R319). `retired` says that it has retired, `freed` that its space
has been given up (R163, R223); it is kept while engine work still names it. -/
structure Group where
  lsn : Nat
  stage : Nat := 0
  lin : Nat
  gid : Nat × Nat × Nat
  grid : Nat × Nat × Nat
  ctx : Byte
  core : Nat
  member : Nat := 0
  set : Nat := 0
  cw : Nat := 1
  ch : Nat := 1
  views : List (List Word) := []
  params : DWord := 0
  regBase : List Nat := []
  regg : Nat := 1
  warps : List Warp
  spadBase : Nat := 0
  spadBytes : Nat := 0
  spad : Sparse SpadWord := []
  nbar : Nat := 0
  bars : List Barrier := []
  barOps : List BarOp := []
  xv : List Xv := List.replicate 8 0
  nseq : Nat := 0
  seq : Seq := {}
  aps : List (Nat × Ap) := []
  queues : Sparse HwQueue := []
  tag : Nat := 1
  ranges : List CodeRange := []
  failed : Bool := false
  retired : Bool := false
  freed : Bool := false
  pre : PreState := .none
  forced : Bool := false
  /-- its compute die is lost (R458) -/
  lost : Bool := false
deriving DecidableEq, Repr

/-- A core. `last` is the slot each scheduler last issued from: DESIGN CHOICE (log 20), it begins with the last of its six slots, so that its
first comes first; the manual gives none (R172). (R164, R243, R247, R275, R310, R326, R341, R485). -/
structure Core where
  up : Bool := false
  l1 : Sparse L1Word := []
  icache : Sparse ILine := []
  tlb : List TlbEntry := []
  parked : List ParkedFe := []
  score : List Score := []
  last : List Nat := [5, 11, 17, 23]
  tokenHeld : Bool := false
  tokenAsked : Bool := false
  /-- the group whose sequencer the array served last (R321) -/
  served : Option Nat := none
  fusedWith : List Nat := []
  fusedLsn : Option Nat := none
  perf : Sparse DWord := []
deriving DecidableEq, Repr

/-- A launch record's contents (R212), as numbers. -/
structure Record where
  desc : Nat := 0
  params : Nat := 0
  signal : Nat := 0
  status : Nat := 0
  edges : Nat := 0
  gx : Nat := 1
  gy : Nat := 1
  gz : Nat := 1
  warps : Nat := 1
  fmask : Nat := 1
  x0 : Nat := 0
  y0 : Nat := 0
  w : Nat := 1
  h : Nat := 1
  cw : Nat := 1
  ch : Nat := 1
  regg : Nat := 1
  spad : Nat := 0
  nbar : Nat := 0
  nseq : Nat := 0
  nap : Nat := 0
  kind : Nat := 0
  nstage : Nat := 0
  flags : Nat := 0
  act : Nat := 0
  aqueue : Nat := 0
  aaddr : Nat := 0
  aval : Nat := 0
deriving DecidableEq, Repr

/-- One stage of a launch: a KERNEL launch has one, a PIPE launch one for each stage record (R225 to R228). -/
structure Stage where
  record : Record
  code : Nat := 0
  entries : List (Option Nat) := []
  views : List (List Word) := []
  next : Nat := 0
  placed : Nat := 0
  retired : Nat := 0
  nfrozen : Nat := 0
  failed : Bool := false
  firstFz : Option (List Byte × DWord × Word) := none
  ncart : Nat := 0
  carts : List Cart := []
  ended : Bool := false
deriving DecidableEq, Repr

/-- An active launch (R217 to R228): `prio` its effective priority, `qprio` its queue's; `stageOf` gives a pipeline's stage of
each core of the rectangle (R227), `cores` the cores on which its groups have run. -/
structure Launch where
  lsn : Nat
  queue : Nat
  slot : Nat
  ctx : Byte
  prio : Nat
  qprio : Nat := 0
  record : Record
  stages : List Stage
  edges : List (Nat × Nat × Nat × Bool) := []
  stageOf : List Nat := []
  cores : List Nat := []
  reason : Nat := 0
  passed : Bool := false
  /-- the first of its fibres that froze, and the first records copied, over all its stages (R224, R228) -/
  firstFz : Option (List Byte × DWord × Word) := none
  carts : List Cart := []
  /-- the launches of which pre-emption has been requested for it, while it can place no group (R218, R420) -/
  pressed : List Nat := []
deriving DecidableEq, Repr

/-- A launch-engine slot (R215, R230): the queue bound to it, its RAISED bit, and the AGEPER periods waited (R218). -/
structure Slot where
  queue : Nat
  raised : Bool
  waited : Nat
  /-- its launches are being pre-empted so that it can be unbound (R432) -/
  reclaim : Bool := false
deriving DecidableEq, Repr

/-- The launch engine's registers (R229, R230). -/
structure Engine where
  lectl : Word := 0
  qtbase : DWord := 0
  qtcnt : Word := 0
  pnbase : DWord := 0
  lsnnext : Nat := 1
  lestat : Word := 0
  ageper : Word := 500
  rebal : Word := 20
  lectx : Word := 0
  slots : Sparse Slot := []
  served : List Nat := [63, 63, 63, 63]
  launches : List Launch := []
  chosen : Option Nat := none
deriving DecidableEq, Repr

/-- A completion action held for a saved group (R425). -/
inductive Action where
  | arrive (n : Nat)
  | full (addr : Word) (v : Word)
  | store (addr : Word) (v : Word) (bad : Bool)
  | notify (v : Word)
  | regWord (d : Dest) (w : RegWord)
deriving DecidableEq, Repr

/-- A saved group: its launch and index, where its image stands, and what is kept beside the image (R425 to R431). `done` says that
the save it belongs to has ended (R428, R430). -/
structure Saved where
  g : Nat
  lsn : Nat
  core : Nat
  ctx : Byte
  addr : Nat
  size : Nat
  group : Group
  cmds : List Cmd
  parked : List ParkedFe
  queued : List (Nat × Action)
  done : Bool
deriving DecidableEq, Repr

/-- A receive buffer of a posted queue (R466, R477); `id` owns its scoreboard entries, `matched` is the message that took it. -/
structure PostBuf where
  id : Nat
  g : Nat
  w : Nat
  f : Nat
  core : Nat
  pc : DWord
  saddr : Word
  desc : List Byte
  matched : Option Nat := none
deriving DecidableEq, Repr

/-- A bound notify slot (R464, R477): the descriptor of the action and the group it is performed for. -/
structure Notify where
  g : Nat
  w : Nat
  f : Nat
  pc : DWord
  desc : List Byte
deriving DecidableEq, Repr

/-- A target's access table for one class of context (R253): read and write permissions of each slice, and the contexts whose bit is set. -/
structure AccessTable where
  r : BitVec 12 := 0
  w : BitVec 12 := 0
  on : List Byte := []
deriving DecidableEq, Repr

/-- A context bound to the partition (R240, R253, R400, R419, R428, R434, R464, R477, R479). -/
structure Ctx where
  cfg : CtxCfg
  sliceNs : Nat := 2000000
  key : Option Nat := none
  onDemand : List (Nat × Nat) := []
  saveTotal : Nat := 256
  saveNgrp : Nat := 0
  saveSeq : Nat := 0
  notify : Sparse Notify := []
  posted : Sparse (List PostBuf) := []
  congestion : Sparse (List Word) := []
deriving DecidableEq, Repr

/-- A message of the transport engine at its sender (R468 to R471), from acceptance to local completion. `id` is its
command's, or its own for XRD.v, whose lane and producer it names; `op` is 0xD0 XWR, 0xD1 XRD, 0xD2 XSND, 0xD9 XRD.v;
`words` are the local words read when its packets were built; `got` the packets that have been settled; `cut` is its command's. -/
structure XMsg where
  id : Nat
  op : Nat
  g : Nat
  w : Nat
  f : Nat
  core : Nat
  ctx : Byte
  pc : DWord
  tag : Nat := 0
  saddr : Word := 0
  desc : List Byte
  bad : Option (Nat × Nat × Nat) := none
  started : Bool := false
  after : List Nat := []
  resends : Sparse Nat := []
  words : List (Word × Bool) := []
  got : List Nat := []
  ring : Option Nat := none
  cart : Option Cart := none
  first : Nat := 0
  counted : List Nat := []
  prod : Option Nat := none
  lane : Nat := 0
  cut : Bool := false
deriving DecidableEq, Repr

/-- A message being received (R469, R470, R477): from this device's own sender, or a peer's; the packets settled, its
status, and whether its actions have been performed. -/
structure RxMsg where
  msg : Nat
  peer : Bool
  job : Byte
  got : List Nat := []
  status : Nat := 0
  notified : Bool := false
deriving DecidableEq, Repr

/-- What a packet of a write or a send brings: its message, its place in it, its words and the message's fields (R468, R477). -/
structure Arrival where
  msg : Nat
  peer : Bool
  job : Byte
  kind : PacketKind
  idx : Nat
  count : Nat
  msgLen : Nat
  words : List (Word × Bool)
  rne : Bool
  slot : Nat
deriving DecidableEq, Repr

/-- A packet that has been taken and is being placed, word by word in any order (R378, R461, R469): where its words go and whether the page is uncached (none where a
scratchpad, or the issuer of a read, takes them), and those still to be placed; `cut` says that a link loses the next (R455). -/
structure Placing where
  id : Nat
  arr : Arrival
  places : List (Nat × Bool) := []
  buf : Option PostBuf := none
  left : List Nat
  cut : Bool := false
deriving DecidableEq, Repr

/-- The scrub page (R437). -/
structure Scrub where
  ctl : Word := 0
  list : DWord := 0
  total : Word := 0
  prog : Word := 0
  stat : Word := 0
deriving DecidableEq, Repr

/-- The RAS page (R494). -/
structure Ras where
  base : DWord := 0
  cnt : Word := 0
  head : Word := 0
  tail : Word := 0
  stat : Word := 0
  ce : DWord := 0
  tr : DWord := 0
deriving DecidableEq, Repr

/-- What a management core does (R486). -/
inductive MgmtRole where
  | active | spare | failed
deriving DecidableEq, Repr

/-- A request of the host that has not been answered, and the management core that has accepted it (R486, R488). -/
structure MailReq where
  req : List Byte
  core : Option Nat := none
deriving DecidableEq, Repr

/-- The host mailbox (R488): requests not answered, the number of those answered, and the event ring with events counted while it was
full. -/
structure Mailbox where
  requests : List MailReq := []
  answered : Nat := 0
  events : List (List Byte) := []
  lost : Nat := 0
deriving DecidableEq, Repr

/-- Stages of start-up (R484, R485): `starting n` says that the first `n` of the five kinds of unit have started, in their order. -/
inductive Boot where
  | off | starting (n : Nat) | failed | running
deriving DecidableEq, Repr

/-- A request to Denuf made by SYSC (R490), with its answer once that has come. -/
structure Sysc where
  id : Nat
  g : Nat
  w : Nat
  f : Nat
  pc : DWord
  lanes : List Nat
  block : List Byte
  answer : Option Word := none
deriving DecidableEq, Repr

/-- What an execution with work outstanding has recorded and counted so far (R389, R397): for each cause its poison word, and the
ring index of its UNR record. -/
structure Tally where
  id : Nat
  g : Nat
  w : Nat
  f : Nat
  made : Sparse Word := []
  counted : Sparse Nat := []
  /-- the fibre's ring has not been cleared since -/
  live : Bool := true
deriving DecidableEq, Repr

/-- The machine: one partition, its memory, and what the package keeps for it. Each field's rule stands in
INVENTORY.md. DESIGN CHOICE (log 4). -/
structure State where
  turn : Turn := .choose
  agenda : List Instr := []
  turnNo : Nat := 0
  opp : Option Opp := none
  blocked : List Path := []
  perfRead : List (Nat × Nat) := []
  freeN : Nat := 0
  idN : Nat := 1
  boot : Boot := .off
  /-- the failure code that the board management port reports, and whether the module's flash needs a new image (R484) -/
  portCode : Option Nat := none
  flashBad : Bool := false
  log : List (List Byte) := []
  /-- the roles of the twelve management cores (R486) -/
  mgmt : List MgmtRole := List.replicate 10 .active ++ List.replicate 2 .spare
  first : Nat := 0
  slices : Nat := 0
  started : Bool := false
  spare : Bool := true
  dieMap : List Nat := [0, 1, 2, 3, 4, 5, 6, 7, 8, 9, 10, 11]
  absent : List Nat := []
  throttled : List Nat := []
  lostRanges : List (Nat × Nat) := []
  /-- DRAM layers announced for removal, by slice and layer; and what each slice reports of its capacity, in GiB, and of that in HBM (R459) -/
  removing : List (Nat × Nat) := []
  capacity : List (Nat × Nat) := List.replicate 12 (576, 192)
  clk : DWord := 0
  /-- the transport engine's counters, which are the partition's (R491) -/
  netPerf : Sparse DWord := []
  mem : List Host.Cell := []
  bad : Sparse Bool := []
  gens : Sparse Nat := []
  owners : Sparse Nat := []
  holds : List Hold := []
  msc : Sparse (Byte × Bool) := []
  atlas : Sparse Nat := []
  pinned : List Nat := []
  msgs : List Msg := []
  pend : List PendOp := []
  prods : List Prod := []
  cores : Sparse Core := []
  groups : Sparse Group := []
  saved : List Saved := []
  cmds : List Cmd := []
  pfts : List Pft := []
  /-- the 48 pooled engines by hub die, each with its owner: 0 none, 1 this partition, 2 another (R317) -/
  pool : List Nat := List.replicate 48 0
  /-- the partition's deadline for pooled commands, in microseconds (R318) -/
  deadline : Nat := 50
  engine : Engine := {}
  ctxs : List Ctx := []
  keys : Sparse Nat := []
  xmsgs : List XMsg := []
  rxmsgs : List RxMsg := []
  /-- packets whose words are being placed (R469, R475, R477) -/
  placing : List Placing := []
  sysc : List Sysc := []
  tokens : List (Nat × Nat) := []
  scrub : Scrub := {}
  ras : Ras := {}
  mail : Mailbox := {}
  /-- contexts revoked, drained and without keys, whose scrub is still to come (R435) -/
  teardown : List Byte := []
  /-- the slice whose compute die is being replaced (R456) -/
  replacing : Option Nat := none
  /-- the core and issue unit whose next cycle is flagged late a second time (R406) -/
  late : Option (Nat × Nat) := none
  /-- executions with work outstanding that have made or counted poison (R389, R397) -/
  tallies : List Tally := []
  /-- words of device memory whose stored data has an uncorrectable error that no write-back has found (R245, R405) -/
  upset : Sparse Bool := []
  /-- accesses of each member of a congruence group, by slice, group and member (R239) -/
  heat : Sparse Nat := []
  /-- the TLB that the cores of a compute die share, by slice; the upper-level entries a hub die's walkers hold, by hub die; and the walks
  that lanes wait for (R243) -/
  dieTlb : Sparse (List TlbEntry) := []
  walks : Sparse (List WalkEntry) := []
  walking : List WalkReq := []
  /-- the partition's access tables, by kind of target and class of context (R253) -/
  tables : Sparse AccessTable := []
  /-- the key under which a line of device memory stands, where it is encrypted (R241, R434) -/
  lineKeys : Sparse Nat := []
deriving DecidableEq, Repr

/-- Why the machine stops. Both are raised only in states that no step reaches (safe). -/
inductive Fault where
  /-- `exec` of an instruction that no agent has selected: `step` always selects one first. Safe. -/
  | noAgent
deriving DecidableEq, Repr

/-- What the model refuses. -/
inductive Refusal where
  /-- The arm of an instruction that has no meaning yet. Safe: the machine stops. -/
  | notModelled (mnemonic : String)
deriving DecidableEq, Repr

/-- The machine right after reset: powered off, no partition, nothing written (R438, R484). -/
def State.reset : State := {}

end Sys2Proof.Machine
end

