-- ==== Sys2Proof/Machine/Ops.lean ====
section
/-! DEFINITION. The named operations over registers, lanes, barriers and records: residues (R20), register space
(R166 to R169), poison words and cartouche records (R25, R388 to R390), freezing a fibre (R26, R183), barriers (R201 to
R203). -/

namespace Sys2Proof.Machine

/-! Poison causes (R387). -/

def cPAGE : Nat := 1
def cNONRES : Nat := 2
def cBOUNDS : Nat := 3
def cECC : Nat := 4
def cRESIDUE : Nat := 5
def cILLEGAL : Nat := 6
def cMISALIGN : Nat := 7
def cEMPTY : Nat := 8
def cMIXED : Nat := 9
def cTORN : Nat := 10
def cXPART : Nat := 11
def cLINK : Nat := 12
def cQUEUE : Nat := 13
def cOVERFLOW : Nat := 15
def cCANCEL : Nat := 16
def cSCALE : Nat := 17
def cTIMING : Nat := 18

/-! Words. -/

/-- Residue(x) (R20). -/
def residue (v : Word) : BitVec 4 := BitVec.ofNat 4 (v.toNat % 15)

/-- A full unpoisoned word with its residue regenerated (R21, R24). -/
def mkWord (v : Word) : RegWord := { val := v, res := residue v }

/-- A poison word (R25). -/
def badWord (v : Word) : RegWord := { val := v, poison := true, res := residue v }

/-- The fields of a poison word (R25, R386). -/
def ringOf (v : Word) : Nat := v.toNat % 16
def causeOf (v : Word) : Nat := v.toNat / 16 % 256
def origOf (v : Word) : Nat := v.toNat / 4096

/-- A word that an operation yields: a register word as it stands, or new poison of a cause with its record's ADDR and
DETAIL (R25, R387). -/
inductive Val where
  | ok (w : RegWord)
  | new (cause : Nat) (addr : DWord) (detail : Word)
deriving DecidableEq, Repr

/-- Whether the word is poisoned. -/
def Val.isBad : Val → Bool
  | .ok w => w.poison
  | .new _ _ _ => true

/-- The PC that an address makes: bits [63:52] and [1:0] of a PC are 0 (R14). DESIGN CHOICE (log 24): an address outside, as at the
end of the address space, loses these bits. -/
def pcOf (a : DWord) : DWord := a &&& 0x000FFFFFFFFFFFFC

/-- CheckWord (R22, R23): a residue mismatch becomes Poison(RESIDUE). -/
def checkWord (v : Val) (addr : DWord) : Val :=
  match v with
  | .ok w =>
    if w.poison || w.res == residue w.val then v
    else .new cRESIDUE addr (w.res.setWidth 32 ||| ((residue w.val).setWidth 32 <<< 4))
  | .new _ _ _ => v

/-! Parts of the state. -/

def State.group? (s : State) (g : Nat) : Option Group := sget s.groups g

def emptyGroup : Group :=
  { lsn := 0, lin := 0, gid := (0, 0, 0), grid := (0, 0, 0), ctx := 0, core := 0, warps := [] }

/-- The group `g`: placed, or saved (R425), or an empty one. -/
def State.groupAt (s : State) (g : Nat) : Group :=
  match s.group? g with
  | some x => x
  | none => ((s.saved.find? (fun v => v.g == g)).map (fun v => v.group)).getD emptyGroup

/-- Changes group `g` where it is placed or saved. -/
def State.modGroup (s : State) (g : Nat) (f : Group → Group) : State :=
  match s.group? g with
  | some _ => { s with groups := smod s.groups g f }
  | none => { s with saved := s.saved.map (fun v => if v.g == g then { v with group := f v.group } else v) }

def State.warpAt (s : State) (g w : Nat) : Warp := (s.groupAt g).warps.getD w {}
def State.modWarp (s : State) (g w : Nat) (f : Warp → Warp) : State :=
  s.modGroup g (fun x => { x with warps := modAt x.warps w f })
def State.fibreAt (s : State) (g w f : Nat) : Fibre := (s.warpAt g w).fibres.getD f {}
def State.modFibre (s : State) (g w f : Nat) (k : Fibre → Fibre) : State :=
  s.modWarp g w (fun x => { x with fibres := modAt x.fibres f k })
def State.laneAt (s : State) (g w f l : Nat) : Lane := (s.fibreAt g w f).lanes.getD l {}
def State.modLane (s : State) (g w f l : Nat) (k : Lane → Lane) : State :=
  s.modFibre g w f (fun x => { x with lanes := modAt x.lanes l k })
def State.coreAt (s : State) (c : Nat) : Core := sgetD s.cores c {}
def State.modCore (s : State) (c : Nat) (k : Core → Core) : State :=
  { s with cores := ssetD s.cores c (k (s.coreAt c)) {} }

/-- The width of the partition in cores and its number of cores (R445). -/
def State.width (s : State) : Nat := if s.slices == 12 then 36 else 6 * s.slices
def State.height (s : State) : Nat := if s.slices == 12 then 8 else 4
def State.coreX (s : State) (c : Nat) : Nat := c % s.width
def State.coreY (s : State) (c : Nat) : Nat := c / s.width
/-- The slice whose compute die holds a core (R444, R445). -/
def State.sliceOf (s : State) (c : Nat) : Nat :=
  s.first + s.coreX c / 6 + 6 * (s.coreY c / 4)

/-- Takes the next free value's number. -/
def State.fresh (s : State) : Nat × State := (s.freeN, { s with freeN := s.freeN + 1 })
/-- Takes the next identifier of outstanding work. -/
def State.newId (s : State) : Nat × State := (s.idN, { s with idN := s.idN + 1 })

/-- The L1 that a core's accesses use: that of the first member of a fused position (R248). -/
def State.agent (s : State) (c : Nat) : Nat := ((s.coreAt c).fusedWith.head?).getD c

/-- A read of core `c` on its way leaves no copy in the L1. -/
def Msg.noAlloc (c : Nat) (m : Msg) : Msg :=
  match m.kind with
  | .rd => if m.core == c then { m with alloc := false } else m
  | .data => if m.core == c then { m with alloc := false } else m
  | .fwd r => if r == c then { m with alloc := false } else m
  | .noown (some r) => if r == c then { m with alloc := false } else m
  | _ => m

/-- The reads of a line that a core has on their way leave no copy in its L1: its copy of the line has gone, or it has
written the line itself (R282). -/
def State.noAllocLine (s : State) (c line : Nat) : State :=
  let k := fun (m : Msg) => if m.line == line then m.noAlloc c else m
  { s with msgs := s.msgs.map k, holds := s.holds.map (fun (h : Hold) => { h with held := h.held.map k }) }

/-- An acquire's effect on the L1 (R250, R269): every Valid word becomes Invalid, and reads on their way leave no copy. -/
def State.acquire (s : State) (core : Nat) : State :=
  let c := s.agent core
  let s := s.modCore c (fun x => { x with l1 := x.l1.filter (fun e => e.2.st != .valid) })
  { s with msgs := s.msgs.map (Msg.noAlloc c)
           holds := s.holds.map (fun (h : Hold) => { h with held := h.held.map (Msg.noAlloc c) }) }

/-- Orders what the fibre does from now on behind what it has begun: a fence, or an acquire that acts as one, which completes once
its conditions hold (R264, R269, R280). DEDUCED (log 119). -/
def State.addFence (s : State) (g w f : Nat) (rel acq : Bool) : State :=
  let (i, s) := s.newId
  s.modFibre g w f (fun x => { x with fences := x.fences ++ [{ id := i, rel := rel, acq := acq, after := x.after }] })

/-- The accesses parked at every core. -/
def State.parkedAll (s : State) : List ParkedFe := s.cores.flatMap (fun c => c.2.parked)

/-! Lanes (R170). -/

def LaneState.live : LaneState → Bool
  | .notStarted => false
  | .exited => false
  | _ => true

def LaneState.isActive : LaneState → Bool
  | .active => true
  | _ => false

def LaneState.isStranded : LaneState → Bool
  | .stranded _ => true
  | _ => false

/-- Numbers of the lanes of a fibre that satisfy a test. -/
def lanesWhere (x : Fibre) (p : Lane → Bool) : List Nat := (List.range 32).filter (fun l => p (x.lanes.getD l {}))

/-- The live mask of a fibre (R170). -/
def liveLanes (x : Fibre) : List Nat := lanesWhere x (fun l => l.st.live)

/-- A fibre has ended when its lanes are all exited or stranded (R392); one not started has no live lane. -/
def Fibre.ended (x : Fibre) : Bool :=
  x.frozen.isSome || (lanesWhere x (fun l => l.st.live && !l.st.isStranded)).isEmpty

/-! Register space (R166 to R169): offsets in words of the warp's allocation. -/

/-- The first word of a vector register; a tile; an accumulator (R167). -/
def vecOff (x : Fibre) (n : Nat) : Nat := 4 * (x.vvec.toNat % 65536) + 32 * n
def tileFmt (v : Word) : Nat := v.toNat / 65536 % 8
/-- Payload bytes of a tile format numbered as VTILE.FMT (R167). -/
def fmtPayload (fmt : Nat) : Nat := if fmt ≤ 1 then 128 else if fmt ≤ 3 then 256 else 512
def tileWords (v : Word) : Nat := (fmtPayload (tileFmt v) + 16) / 4
def tileOff (v : Word) (n : Nat) : Nat := 4 * (v.toNat % 65536) + tileWords v * n
def accOff (v : Word) (n : Nat) : Nat := 4 * (v.toNat % 65536) + 256 * n

/-- Whether words [lo, lo + n) lie in the window `win` (R166, R168). -/
def inWindow (win : Word) (lo n : Nat) : Bool :=
  let base := win.toNat % 512 * 512
  decide (base ≤ lo) && decide (lo + n ≤ base + win.toNat / 65536 % 512 * 512)

/-- The word at an offset of a warp's allocation, and a write of it. -/
def State.regAt (s : State) (g w off : Nat) : RegWord := sgetD (s.warpAt g w).regs off {}
def State.setReg (s : State) (g w off : Nat) (v : RegWord) : State :=
  s.modWarp g w (fun x => { x with regs := ssetD x.regs off v {} })

/-- A uniform register of a fibre, and a write of it (R12). -/
def State.uregAt (s : State) (g w f n : Nat) : RegWord := sgetD (s.fibreAt g w f).uregs n {}
def State.setUreg (s : State) (g w f n : Nat) (v : RegWord) : State :=
  s.modFibre g w f (fun x => { x with uregs := ssetD x.uregs n v {} })

/-- Whether an item is work of a lane: its own, or its fibre's as a whole; no lane stands for the whole fibre. -/
def Item.ofLane (i : Item) (lane : Option Nat) : Bool :=
  match lane with
  | none => true
  | some l => i.lane == l || decide (32 ≤ i.lane) || decide (32 ≤ l)

/-- A write of a register word by a lane discards the data of that lane's outstanding work aimed at it; other lanes' work, which
overlapping views may aim at the same word, stands (R126, R169). -/
def State.dropDest (s : State) (g w f : Nat) (lane : Option Nat) (d : Dest) : State :=
  { s with prods := s.prods.map (fun p => if p.g == g && p.w == w && p.f == f then
      { p with items := p.items.map (fun i => if i.dst == d && i.ofLane lane then { i with dst := .none } else i) } else p) }

/-- A register write by an instruction: the word, whole, and R126. DESIGN CHOICE (log 23). -/
def State.writeVec (s : State) (g w f lane off : Nat) (v : RegWord) : State :=
  (s.dropDest g w f (some lane) (.vec g w off)).setReg g w off v
def State.writeUni (s : State) (g w f n : Nat) (v : RegWord) : State :=
  (s.dropDest g w f none (.uni g w f n)).setUreg g w f n v

/-- Marks a destination empty, or full, leaving the rest of the word. -/
def State.setFull (s : State) (d : Dest) (b : Bool) : State :=
  match d with
  | .vec g w off => s.setReg g w off { s.regAt g w off with full := b }
  | .uni g w f n => s.setUreg g w f n { s.uregAt g w f n with full := b }
  | _ => s

/-! FSTAT (R15). -/

def fNV : Word := 1
def fDZ : Word := 2
def fOF : Word := 4
def fUF : Word := 8
def fNX : Word := 16
def fMOVF : Word := 32
def fRGN : Word := 64
def fIRREV : Word := 128

/-- Sets sticky flags (R15, R16, R23). -/
def State.setFlags (s : State) (g w f : Nat) (m : Word) : State :=
  s.modFibre g w f (fun x => { x with fstat := x.fstat ||| m, raised := x.raised ||| m })

def ridxOf (fstat : Word) : Nat := fstat.toNat / 65536 % 16
def withRidx (fstat : Word) (n : Nat) : Word :=
  (fstat &&& 0xFFF0FFFF) ||| (BitVec.ofNat 32 (n % 16) <<< 16)
def unresOf (fstat : Word) : Nat := fstat.toNat / 256 % 256
def withUnres (fstat : Word) (n : Nat) : Word :=
  (fstat &&& 0xFFFF00FF) ||| (BitVec.ofNat 32 (min n 255) <<< 8)
def Fibre.inRegion (x : Fibre) : Bool := x.fstat.getLsbD 6

/-- Whether a fibre has frozen, or has no live lane and no commit still to come (R170, R223, R392). -/
def Fibre.finished (x : Fibre) : Bool :=
  x.frozen.isSome || (x.park.isNone && !x.inRegion && x.lanes.all (fun l => l.st == .exited || l.st == .notStarted))

/-- Once every fibre of a group has ended or frozen, its access processors stop as APSP stops them (R223). -/
def Group.settleAps (x : Group) : Group :=
  if x.warps.all (fun w => w.fibres.all Fibre.finished) then
    { x with aps := x.aps.map (fun a => (a.1, if a.2.st == .running then { a.2 with st := .ended } else a.2)) }
  else x

/-! Cartouche records (R388 to R390). -/

def flagMEM : Byte := 1
def flagTILE : Byte := 2
def flagSEQ : Byte := 4
def flagCMD : Byte := 8
def flagACTF : Byte := 16
def flagUNR : Byte := 32

/-- The 32 bytes of a record (R388). -/
def Cart.bytes (r : Cart) : List Byte :=
  [r.cause, r.flags, r.unit, r.slot, r.fibre, r.cx, r.cy, 0] ++ bytesOfNat r.pc.toNat 8 ++ bytesOfNat r.addr.toNat 8
    ++ bytesOfNat r.lanes.toNat 4 ++ bytesOfNat r.detail.toNat 4

/-- A list of records, of which the first 28 are kept (R224). -/
def keepCart (rs : List Cart) (r : Cart) : List Cart := if rs.length < 28 then rs ++ [r] else rs

/-- Keeps a record in a launch's status area, and its stage's: the first 28 are copied, all are counted (R224, R228, R307, R404).
DEDUCED (log 133). -/
def State.launchCart (s : State) (lsn stage : Nat) (r : Cart) : State :=
  { s with engine := { s.engine with launches := s.engine.launches.map (fun l =>
      if l.lsn == lsn then
        { l with carts := keepCart l.carts r
                 stages := modAt l.stages stage (fun x => { x with ncart := x.ncart + 1, carts := keepCart x.carts r }) }
      else l) } }

/-- Writes a record into a ring under R390. -/
def ringPut (x : Fibre) (r : Cart) : Fibre :=
  let i := ridxOf x.fstat
  let top := x.ring.getD 15 {}
  if i < 15 || top.cause == 0 then
    { x with ring := x.ring.set i r, fstat := withRidx x.fstat (min (i + 1) 15) }
  else
    let n := if top.cause == BitVec.ofNat 8 cOVERFLOW then top.detail.toNat + 1 else 2
    { x with ring := x.ring.set 15 { cause := BitVec.ofNat 8 cOVERFLOW, flags := top.flags ||| r.flags, unit := 0xFF,
                                     slot := r.slot, fibre := r.fibre, cx := r.cx, cy := r.cy, pc := 0, addr := 0,
                                     lanes := 0, detail := BitVec.ofNat 32 (min n 0xFFFFFFFF) } }

/-- The ring index that poison words of the next record carry (R25, R390). -/
def nextRing (x : Fibre) : Nat := ridxOf x.fstat

/-- A record with its fibre's place filled in (R388). -/
def State.placeCart (s : State) (g w f : Nat) (r : Cart) : Cart :=
  let gr := s.groupAt g
  { r with slot := BitVec.ofNat 8 (s.warpAt g w).slot, fibre := BitVec.ofNat 8 f,
           cx := BitVec.ofNat 8 (s.coreX gr.core), cy := BitVec.ofNat 8 (s.coreY gr.core) }

/-- Writes a record for a fibre, into its ring or, once the fibre has ended, into the launch's status area (R307, R329,
R386), and gives the ring index that poison words of the record carry. -/
def State.addCart (s : State) (g w f : Nat) (r : Cart) : Nat × State :=
  let x := s.fibreAt g w f
  let r := s.placeCart g w f r
  if x.ended then (15, s.launchCart (s.groupAt g).lsn (s.groupAt g).stage r)
  else (nextRing x, s.modFibre g w f (fun x => ringPut x r))

/-- The value of a poison word (R25). -/
def poisonVal (ring cause : Nat) (pc : DWord) : Word :=
  BitVec.ofNat 32 (ring + cause * 16 + pc.toNat / 4 % 1048576 * 4096)

/-- Words newly poisoned by one execution, with the lanes (or tiles) they belong to: distinct causes in order. -/
def causesOf (made : List (Nat × Val)) : List Nat :=
  made.foldl (fun cs e => match e.2 with
    | .new c _ _ => if cs.contains c then cs else cs ++ [c]
    | .ok _ => cs) []

/-- The record of one cause: the lanes affected, with ADDR and DETAIL of the lowest (R388, R389). -/
def cartFor (c : Nat) (flags : Byte) (pc : DWord) (made : List (Nat × Val)) : Cart :=
  let mine := made.filterMap (fun e => match e.2 with
    | .new c' a d => if c' = c then some (e.1, a, d) else none
    | .ok _ => none)
  let low := mine.foldl (fun m e => if e.1 < m.1 then e else m) (mine.headD (0, 0, 0))
  let tile := flags &&& flagTILE != 0
  { cause := BitVec.ofNat 8 c, flags := flags, unit := BitVec.ofNat 8 low.1, pc := pc, addr := low.2.1,
    lanes := if tile || low.1 ≥ 32 then 0 else maskOf (mine.map (·.1)), detail := low.2.2 }

/-- Writes one record for each distinct cause an execution creates, and gives each cause's poison word (R389). A
read of the memory poison state is marked by DETAIL bit 0 of cause ECC (R387, R391). -/
def State.makePoison (s : State) (g w f : Nat) (flags : Byte) (pc : DWord) (made : List (Nat × Val)) :
    State × Sparse Word :=
  (causesOf made).foldl (fun acc c =>
    let r := cartFor c flags pc made
    let r := if c == cECC && r.detail.getLsbD 0 then { r with flags := r.flags ||| flagMEM } else r
    let (i, s') := acc.1.addCart g w f r
    (s', sput acc.2 c (poisonVal i c pc))) (s, [])

/-- A record that more lanes of its execution join: LANES names them all, ADDR and DETAIL are the lowest's (R388, R389). -/
def Cart.join (r n : Cart) : Cart :=
  { (if n.unit.toNat < r.unit.toNat then n else r) with flags := r.flags ||| n.flags, lanes := r.lanes ||| n.lanes }

/-- Lets the record at ring index `i` of a fibre take in more lanes, where it still is that record. -/
def State.growCart (s : State) (g w f i : Nat) (n : Cart) : State :=
  let n := s.placeCart g w f n
  s.modFibre g w f (fun x => { x with ring := modAt x.ring i (fun r =>
    if r.cause == n.cause && (r.flags &&& flagUNR) == (n.flags &&& flagUNR) then r.join { n with pc := r.pc } else r) })

/-- What an execution has recorded and counted, and a change of it. -/
def State.tallyOf (s : State) (e g w f : Nat) : Tally := (s.tallies.find? (fun t => t.id == e)).getD { id := e, g := g, w := w, f := f }
def State.setTally (s : State) (t : Tally) : State := { s with tallies := s.tallies.filter (fun u => u.id != t.id) ++ [t] }

/-- Forgets the executions that have no work outstanding. -/
def State.forgetTallies (s : State) : State :=
  if s.tallies.isEmpty then s else
  { s with tallies := s.tallies.filter (fun t => s.prods.any (fun p => p.id == t.id) || s.pend.any (fun p => p.exec == t.id)
      || s.parkedAll.any (fun p => p.exec == t.id) || s.groups.any (fun e => e.2.seq.ops.any (fun o => o.id == t.id)
        || e.2.warps.any (fun w => w.fibres.any (fun y => y.quar.any (fun q => q.exec == t.id))))) }

/-- The ring of a fibre is cleared: records of outstanding executions are gone from it. -/
def State.tallyGone (s : State) (g w f : Nat) : State :=
  { s with tallies := s.tallies.map (fun t => if t.g == g && t.w == w && t.f == f then { t with live := false } else t) }

/-- Records poison that a part of execution `e` makes: a cause that the execution has recorded already keeps its record, which
takes in the new lanes, and its poison word (R389). DEDUCED (log 120). -/
def State.poisonOnce (s : State) (e g w f : Nat) (flags : Byte) (pc : DWord) (made : List (Nat × Val)) : State × Sparse Word :=
  let cs := causesOf made
  if cs.isEmpty then (s, []) else
  let t := s.tallyOf e g w f
  let old := cs.filter (fun c => (sget t.made c).isSome)
  let s := old.foldl (fun s c => if !t.live then s else
    s.growCart g w f (ringOf (sgetD t.made c 0)) (cartFor c flags pc made)) s
  let fresh := made.filter (fun m => match m.2 with
    | .new c _ _ => !old.contains c
    | .ok _ => false)
  let (s, tbl) := s.makePoison g w f flags pc fresh
  let all := tbl.foldl (fun m (x : Nat × Word) => sput m x.1 x.2) t.made
  (s.setTally { t with made := all, live := true }, all)

/-- The register word that a `Val` stands for, once its cause's poison word exists. -/
def Val.word (v : Val) (tbl : Sparse Word) : RegWord :=
  match v with
  | .ok w => w
  | .new c _ _ => badWord (sgetD tbl c 0)

/-- The origin PC of a poison word for an UNR record (R397). -/
def originPc (x : Fibre) (v : Word) : DWord :=
  let r := x.ring.getD (ringOf v) {}
  if r.cause.toNat == causeOf v && r.pc.toNat / 4 % 1048576 == origOf v then r.pc
  else BitVec.ofNat 64 (origOf v * 4)

/-- Marks a group and its launch failed (R183). -/
def State.failGroup (s : State) (g : Nat) : State :=
  let gr := s.groupAt g
  let s := s.modGroup g (fun x => { x with failed := true })
  { s with engine := { s.engine with launches := s.engine.launches.map (fun l =>
      if l.lsn == gr.lsn then { l with stages := modAt l.stages gr.stage (fun x => { x with failed := true }) } else l) } }

/-- Counts poison as unresolved, once for each distinct cause, with one UNR record each (R397). DEDUCED (log 123). -/
def State.countBad (s : State) (g w f : Nat) (flags : Byte) (pc : DWord) (bads : List (Nat × Val)) : State :=
  let cause : Val → Nat := fun v => match v with
    | .ok w => causeOf w.val
    | .new c _ _ => c
  let bads := bads.filter (fun e => e.2.isBad)
  let cs := bads.foldl (fun cs e => if cs.contains (cause e.2) then cs else cs ++ [cause e.2]) []
  cs.foldl (fun s c =>
    let mine := bads.filter (fun e => cause e.2 == c)
    let x := s.fibreAt g w f
    let made := mine.map (fun e => match e.2 with
      | .ok _ => (e.1, Val.new c 0 0)
      | v => (e.1, v))
    let pc' := match mine.head? with
      | some (_, .ok w) => originPc x w.val
      | _ => pc
    let r := cartFor c (flags ||| flagUNR) pc' made
    let r := if c == cECC && r.detail.getLsbD 0 then { r with flags := r.flags ||| flagMEM } else r
    let s := if x.ended then s.failGroup g else s
    let s := s.modFibre g w f (fun x => { x with fstat := withUnres x.fstat (unresOf x.fstat + 1) })
    (s.addCart g w f r).2) s

/-- Counts poison that a part of execution `e` meets: a cause that the execution has counted already is not counted again, and its
record takes in the new lanes (R397). -/
def State.countPart (s : State) (e g w f : Nat) (flags : Byte) (pc : DWord) (bads : List (Nat × Val)) : State :=
  let cause : Val → Nat := fun v => match v with
    | .ok w => causeOf w.val
    | .new c _ _ => c
  let bads := bads.filter (fun b => b.2.isBad)
  let cs := (bads.map (fun b => cause b.2)).eraseDups
  cs.foldl (fun s c =>
    let mine := bads.filter (fun b => cause b.2 == c)
    let t := s.tallyOf e g w f
    match sget t.counted c with
    | some i => if !t.live then s else
      s.growCart g w f i (cartFor c (flags ||| flagUNR) pc (mine.map (fun b => (b.1, match b.2 with
        | .ok _ => Val.new c 0 0
        | v => v))))
    | none =>
      let x := s.fibreAt g w f
      let i := if x.ended then 15 else nextRing x
      (s.countBad g w f flags pc mine).setTally { t with counted := sput t.counted c i }) s

/-! Barriers (R199 to R203). -/

/-- One cycle's update of a barrier object (R201, steps 2 and 3). DESIGN CHOICE (log 25): DROP, a field of 16 bits, stops at 65,535
as CNT does (R199). -/
def Barrier.update (b : Barrier) (arrive drop : Nat) : Barrier :=
  let cnt := min (b.cnt + arrive) 65535
  let dr := min (b.drop + drop) 65535
  if b.exp ≠ 0 ∧ b.exp ≤ cnt then
    { b with cnt := cnt - b.exp, exp := b.exp - dr, drop := 0, phase := b.phase + 1, arr := [] }
  else { b with cnt := cnt, drop := dr }

def State.barAt (s : State) (g n : Nat) : Barrier := (s.groupAt g).bars.getD n {}
def State.modBar (s : State) (g n : Nat) (k : Barrier → Barrier) : State :=
  s.modGroup g (fun x => { x with bars := modAt x.bars n k })

/-- Applies a change to every fibre, and to every lane, of a warp. -/
def mapFibres (x : Warp) (k : Nat → Fibre → Fibre) : Warp := { x with fibres := x.fibres.mapIdx k }
def mapLanes (x : Fibre) (k : Lane → Lane) : Fibre := { x with lanes := x.lanes.map k }

/-- Releases the waiters of a barrier whose token is not its phase (R201, step 4); their release is a full acquire, which their
fibre's later accesses wait for (R279, R280). -/
def State.release (s : State) (g n : Nat) : State :=
  let ph := (s.barAt g n).phase
  let go : LaneState → Bool := fun st => match st with
    | .waiting (.bar m tok) => m == n && tok != ph
    | _ => false
  if !(s.groupAt g).warps.any (fun w => w.fibres.any (fun fb => fb.lanes.any (fun l => go l.st))) then s else
  let (i, s) := s.newId
  s.modGroup g (fun x => { x with warps := x.warps.map (fun w => mapFibres w (fun _ fb =>
    if fb.lanes.any (fun l => go l.st) then
      mapLanes { fb with fences := fb.fences ++ [{ id := i, rel := false, acq := true, after := fb.after }] }
        (fun l => if go l.st then { l with st := .active } else l)
    else fb)) })

/-- Notes what this cycle brings to the group's barriers (R201). -/
def State.barOp (s : State) (g : Nat) (o : BarOp) : State :=
  s.modGroup g (fun x => { x with barOps := x.barOps ++ [o] })

/-- Arrive-and-drop of members that exit or freeze, at every object of which they are members (R202). -/
def State.leave (s : State) (g : Nat) (ms : List Member) : State := if ms.isEmpty then s else s.barOp g (.leave ms)

/-- Step 1 of R201: the BARI of the highest slot and fibre stands. -/
def Barrier.setBy (b : Barrier) (n : Nat) (ops : List BarOp) : Barrier :=
  let best := ops.foldl (fun (best : Option (Nat × Nat × Bool)) o => match o with
    | .set m exp clr slot fibre =>
      if m = n && (match best with
        | some (k, _, _) => decide (k ≤ 4 * slot + fibre)
        | none => true) then some (4 * slot + fibre, exp, clr) else best
    | _ => best) none
  match best with
  | none => b
  | some (_, exp, clr) =>
    if clr then { b with exp := exp, cnt := 0, drop := 0, mem := [], arr := [], phase := b.phase + 1 }
    else { b with exp := exp }

/-- Step 2 of R201 for one of the cycle's operations (R200, R202). -/
def Barrier.take (b : Barrier) (n : Nat) (o : BarOp) : Barrier :=
  match o with
  | .arrive m ms count drop _ _ =>
    if m ≠ n then b else
    { b with cnt := min (b.cnt + count) 65535, drop := if drop then min (b.drop + count) 65535 else b.drop
             mem := if drop then b.mem.filter (fun x => !ms.contains x) else b.mem ++ ms.filter (fun x => !b.mem.contains x)
             arr := b.arr ++ ms.filter (fun x => !b.arr.contains x) }
  | .seqArrive m =>
    if m ≠ n then b else
    { b with cnt := min (b.cnt + 1) 65535, mem := if b.mem.contains .seq then b.mem else b.mem ++ [.seq]
             arr := if b.arr.contains .seq then b.arr else b.arr ++ [.seq] }
  | .leave ms =>
    let mine := b.mem.filter (fun x => ms.contains x)
    { b with cnt := min (b.cnt + (mine.filter (fun x => !b.arr.contains x)).length) 65535
             drop := min (b.drop + mine.length) 65535, mem := b.mem.filter (fun x => !ms.contains x) }
  | .set _ _ _ _ _ => b

/-- Writes a register word wherever a destination leads. -/
def State.writeDest (s : State) (d : Dest) (v : RegWord) : State :=
  match d with
  | .vec g w off => s.setReg g w off v
  | .uni g w f n => s.setUreg g w f n v
  | _ => s

/-- One cycle's update of barrier `n` (R201): `PHASE` after step 1 goes to the destinations and is the token of the lanes
that wait. -/
def State.flushBar (s : State) (g n : Nat) (ops : List BarOp) : State :=
  let b := (s.barAt g n).setBy n ops
  let ph := b.phase
  let b := (ops.foldl (fun b o => b.take n o) b).update 0 0
  let s := s.modBar g n (fun _ => b)
  let s := ops.foldl (fun s o => match o with
    | .arrive m _ _ _ dests waits =>
      if m ≠ n then s else
      let s := dests.foldl (fun s d => s.writeDest d (mkWord (ph.setWidth 32))) s
      waits.foldl (fun s (e : Nat × Nat × Nat) =>
        s.modLane g e.1 e.2.1 e.2.2 (fun l => if l.st.isActive then { l with st := .waiting (.bar n ph) } else l)) s
    | .seqArrive m => if m ≠ n then s else s.modGroup g (fun x => { x with seq := { x.seq with tok := x.seq.tok.set n ph } })
    | _ => s) s
  s.release g n

/-- Whether an operation of the cycle concerns barrier `n`. -/
def BarOp.at (o : BarOp) (n : Nat) (b : Barrier) : Bool :=
  match o with
  | .set m _ _ _ _ => m == n
  | .arrive m _ _ _ _ _ => m == n
  | .seqArrive m => m == n
  | .leave ms => b.mem.any (fun x => ms.contains x)

/-- Ends a cycle of the group's barriers: each object that the cycle concerns is updated once (R201). -/
def State.flush (s : State) (g : Nat) : State :=
  let ops := (s.groupAt g).barOps
  if ops.isEmpty then s else
  let s := s.modGroup g (fun x => { x with barOps := [] })
  (List.range (s.groupAt g).bars.length).foldl (fun s n =>
    if ops.any (fun o => o.at n (s.barAt g n)) then s.flushBar g n ops else s) s

/-- Members of a fibre: its lanes and itself. -/
def membersOf (w f : Nat) (ls : List Nat) : List Member := ls.map (fun l => .lane w f l)

/-- Whether a fibre has arrived at the slot barrier (R203). -/
def slotArrived (x : Fibre) : Bool :=
  x.frozen.isSome || (liveLanes x).isEmpty ||
    (let ls := lanesWhere x (fun l => l.st.live && !l.st.isStranded)
     !ls.isEmpty && ls.all (fun l => (x.lanes.getD l {}).st == .waiting .fbarSlot))

/-- Completes a fibre barrier whose live, non-stranded lanes all wait (R203). -/
def fbarDone (x : Fibre) : Fibre :=
  let ls := lanesWhere x (fun l => l.st.live && !l.st.isStranded)
  if x.frozen.isNone && !ls.isEmpty && ls.all (fun l => (x.lanes.getD l {}).st == .waiting .fbar) then
    mapLanes x (fun l => if l.st == .waiting .fbar then { l with st := .active } else l)
  else x

/-- The completion tests of the fibre and slot barriers of a warp (R203). -/
def State.settleFbar (s : State) (g w : Nat) : State :=
  s.modWarp g w (fun x =>
    let x := mapFibres x (fun _ fb => fbarDone fb)
    if x.fibres.all slotArrived && x.fibres.any (fun fb => fb.lanes.any (fun l => l.st == .waiting .fbarSlot)) then
      mapFibres x (fun _ fb => if fb.frozen.isSome then fb else
        mapLanes fb (fun l => if l.st == .waiting .fbarSlot then { l with st := .active } else l))
    else x)

/-! Freezing a fibre (R26, R183): the exception of this machine. -/

/-- Counts a frozen fibre for its launch's status area (R184, R224). -/
def State.countFrozen (s : State) (g w f : Nat) (z : Frozen) : State :=
  let gr := s.groupAt g
  let at_ : List Byte := [BitVec.ofNat 8 (s.coreX gr.core), BitVec.ofNat 8 (s.coreY gr.core),
    BitVec.ofNat 8 (s.warpAt g w).slot, BitVec.ofNat 8 f, z.cause]
  { s with engine := { s.engine with launches := s.engine.launches.map (fun l =>
      if l.lsn == gr.lsn then
        { l with firstFz := l.firstFz.or (some (at_, z.pc, z.word))
                 stages := modAt l.stages gr.stage (fun x =>
                   { x with nfrozen := x.nfrozen + 1, firstFz := x.firstFz.or (some (at_, z.pc, z.word)) }) }
      else l) } }

/-- Full/empty accesses, which the table of parked accesses counts (R262). -/
def SpOp.isFe (o : SpOp) : Bool :=
  match o with
  | .read _ _ => true
  | .write _ => true
  | _ => false

/-- Freeze(cause) with the recorded PC and instruction word (R26, R92, R182 to R184): the lanes stop, arrive and drop at
their barriers, the quarantine and the parked full/empty accesses go, the group and its launch are failed. A plain access that
waits behind one of them stays and performs (R262). DEDUCED (log 57). -/
def State.freeze (s : State) (g w f cause : Nat) (pc : DWord) (word : Word) : State :=
  let z : Frozen := { cause := BitVec.ofNat 8 cause, pc := pc, word := word }
  let s := s.modFibre g w f (fun x => { x with frozen := some z, quar := [], releasing := none, park := none, nonres := none })
  let s := s.leave g (membersOf w f (List.range 32) ++ [.fibre w f])
  let own : ParkedFe → Bool := fun p => p.ig == g && p.w == w && p.f == f && p.op.isFe
  let mine := s.cores.flatMap (fun (c : Nat × Core) => c.2.parked.filter own)
  let s := { s with cores := s.cores.map (fun (c : Nat × Core) =>
    (c.1, { c.2 with parked := c.2.parked.filter (fun p => !own p) })) }
  let gone : Nat → Item → Bool := fun id i => mine.any (fun q => q.prod == some id && q.lane == i.lane && q.half == i.half)
  let cut := s.prods.map (fun p => { p with items := p.items.filter (fun i => !gone p.id i) })
  let s := { s with prods := cut.filter (fun p => !p.items.isEmpty || !(mine.any (fun q => q.prod == some p.id))) }
  (((s.failGroup g).countFrozen g w f z).settleFbar g w).modGroup g Group.settleAps

end Sys2Proof.Machine
end

