-- ==== Sys2Proof/Machine/Mem.lean ====
section
/-! DEFINITION. Memory below the instructions: device addresses and translation (R236 to R244), access tables (R253),
words of an L1 and at home (R245 to R252, R292, R293), messages to homes (R448), scratchpad words (R232 to R235). -/

namespace Sys2Proof.Machine

/-! Device addresses (R236, R238, R459). -/

/-- Bytes of one slice (R236). -/
def sliceBytes : Nat := 0x9000000000
def dpaSlice (a : Nat) : Nat := a / 2 ^ 40
def dpaOff (a : Nat) : Nat := a % 2 ^ 40
/-- Congruence group and member of an address (R237). -/
def congruence (a : Nat) : Nat := dpaOff a / 2 ^ 21 % 98304
def memberNo (a : Nat) : Nat := dpaOff a / 2 ^ 21 / 98304
/-- A device address addresses something (R236), and its layer is not mapped out (R459). -/
def State.dpaOk (s : State) (a : Nat) : Bool :=
  decide (dpaSlice a < 12) && decide (dpaOff a < sliceBytes)
    && !s.lostRanges.any (fun r => decide (r.1 ≤ a) && decide (a < r.2))
/-- The atlas entry of an address's group (R238). -/
def State.atlasAt (s : State) (a : Nat) : Nat := sgetD s.atlas (dpaSlice a * 98304 + congruence a) 0

/-! Words at home and in the L1s. Words are numbered by DPA / 4. -/

/-- The word that memory, or the memory-side cache, holds: in the poison state, or found with an uncorrectable error, or in a
group whose atlas entry cannot be used (R238, R245). -/
def State.homeWord (s : State) (wa : Nat) : MemWord :=
  let poison := sgetD s.bad wa false
  let err := sgetD s.upset wa false || s.atlasAt (4 * wa) == 3
  { val := readWord s.mem (4 * wa), bad := poison || err, fresh := !poison && err }

/-- Whether a device address, not of memory, lies in the queue-notify page that contexts may map (R231). DESIGN CHOICE (log 27). -/
def State.isNotify (s : State) (a : Nat) : Bool := !s.dpaOk a && a / 65536 == Config.notifyPage

/-- Writes a word at home (R245): a write-back of a word with an error leaves it in the poison state, and so does a write to a group whose
atlas entry cannot be used (R238). A write to the queue-notify page is a write of QNOTIFY, at offset 0, or ignored (R231). -/
def State.setHome (s : State) (wa : Nat) (v : MemWord) : State :=
  let out := s.isNotify (4 * wa)
  let lost := v.bad || s.atlasAt (4 * wa) == 3
  { s with mem := if lost || out then s.mem else writeWord s.mem (4 * wa) v.val
           bad := if out then s.bad else ssetD s.bad wa lost false
           upset := if out then s.upset else sdel s.upset wa
           agenda := if out && !v.bad && 4 * wa % 65536 == 0 then s.agenda ++ [.qnotify v.val] else s.agenda }

/-- DETAIL of cause ECC for a bad word: bit 0 says that the poison state was read (R387). -/
def MemWord.detail (w : MemWord) : Word := if w.fresh then 0 else 1
/-- The same for the first bad word among some. -/
def eccDetail (ws : List MemWord) : Word := ((ws.find? (fun w => w.bad)).map MemWord.detail).getD 1

def State.l1At (s : State) (c wa : Nat) : Option L1Word := sget (s.coreAt (s.agent c)).l1 wa
def State.setL1 (s : State) (c wa : Nat) (v : Option L1Word) : State :=
  s.modCore (s.agent c) (fun x => { x with l1 := match v with
    | some v => sput x.l1 wa v
    | none => sdel x.l1 wa })

/-- Counts an access to a member of a congruence group (R239). DESIGN CHOICE (log 52). -/
def State.heatUp (s : State) (line : Nat) : State :=
  let a := 128 * line
  let k := 3 * (dpaSlice a * 98304 + congruence a) + memberNo a
  { s with heat := sput s.heat k (sgetD s.heat k 0 + 1) }

/-- The mask of one word of its line. -/
def wordBit (wa : Nat) : Word := 1#32 <<< (wa % 32)
/-- The mask of some words of one line, and the words of a line that a mask names. -/
def wordBits (was : List Nat) : Word := was.foldl (fun m wa => m ||| wordBit wa) 0
def lineWas (line : Nat) (mask : Word) : List Nat := (lanesOf mask).map (fun i => 32 * line + i)

/-! The memory-side cache (R246). -/

/-- A write-back of a line from the memory-side cache finds the uncorrectable errors in it: those words enter the poison state
(R245). -/
def State.findErrors (s : State) (line : Nat) : State :=
  (lineWas line 0xFFFFFFFF).foldl (fun s wa => if sgetD s.upset wa false then
    { s with upset := sdel s.upset wa, bad := ssetD s.bad wa true false } else s) s

/-- The lines of the memory-side cache of a line's slice, the line itself apart. -/
def State.mscPeers (s : State) (line : Nat) : List Nat :=
  (s.msc.map (fun e => e.1)).filter (fun l => l != line && dpaSlice (128 * l) == dpaSlice (128 * line))

/-- A new line takes a place in its set of 16; one of the others goes, with a write-back if it is dirty. The 192 MiB of a slice are
98,304 sets (R246). -/
def State.mscRoom (s : State) (line : Nat) : State :=
  let ls := s.mscPeers line
  if ls.length < 16 then s else
  let same := ls.filter (fun l => Config.mscSet l % 98304 == Config.mscSet line % 98304)
  if same.length < 16 then s else
  let (n, s) := s.fresh
  let out := same.getD (Config.freeCount n % same.length) 0
  let s := match sget s.msc out with
    | some (_, true) => s.findErrors out
    | _ => s
  { s with msc := sdel s.msc out }

/-- Touches a line of the memory-side cache: its tag becomes the context of this access, and a line that another context had dirty is
written back first (R246). -/
def State.mscTouch (s : State) (line : Nat) (ctx : Byte) (dirty : Bool) : State :=
  match sget s.msc line with
  | some (c, d) =>
    if c == ctx then { s with msc := sput s.msc line (ctx, d || dirty) }
    else
      let s := if d then s.findErrors line else s
      { s with msc := sput s.msc line (ctx, dirty) }
  | none => let s := s.mscRoom line
    { s with msc := sput s.msc line (ctx, dirty) }

/-- An access of a context to a line at its home: the hub counts it (R239), and unless the page is uncached the memory-side cache holds the
line afterwards (R246). -/
def State.homeAccess (s : State) (line : Nat) (ctx : Byte) (uc dirty : Bool) : State :=
  if uc then s.heatUp line else (s.heatUp line).mscTouch line ctx dirty

/-- The value of a word in the last write-back, or claim, on its way from a core. -/
def State.wbWord (s : State) (c wa : Nat) : Option MemWord :=
  s.msgs.reverse.findSome? (fun m => match m.kind with
    | .wb => if m.core == c then sget m.words wa else none
    | .claim => if m.core == c then sget m.words wa else none
    | _ => none)

def Msg.isReg (m : Msg) : Bool :=
  match m.kind with
  | .reg _ => true
  | _ => false
def Msg.isAck (m : Msg) : Bool :=
  match m.kind with
  | .ack _ => true
  | _ => false
/-- Whether a message of a core names a word. -/
def Msg.names (m : Msg) (c wa : Nat) : Bool := m.core == c && m.line == wa / 32 && m.mask.getLsbD (wa % 32)

/-- Whether a REG of a word by a core has not been served at its home yet. -/
def State.regWaits (s : State) (c wa : Nat) : Bool :=
  s.msgs.any (fun m => m.isReg && m.names c wa) || s.holds.any (fun h => h.held.any (fun m => m.isReg && m.names c wa))

/-- Whether a registration of a word by a core has been entered and its ACK is still to be sent. -/
def State.entered (s : State) (c wa : Nat) : Bool := s.holds.any (fun h => h.entered.any (fun m => m.names c wa))

/-- Whether a registration of a word by a core is under way: its REG or its ACK has not arrived. -/
def State.regOut (s : State) (c wa : Nat) : Bool :=
  s.regWaits c wa || s.entered c wa || s.msgs.any (fun m => m.isAck && m.names c wa)

/-- The value of a word in an ACK on its way to a core. -/
def State.ackWord (s : State) (c wa : Nat) : Option MemWord :=
  s.msgs.findSome? (fun m => if m.isAck && m.core == c then sget m.words wa else none)

/-- The value a request that reaches the home obtains: the owner's, forwarded, or memory's (R250, R292, R450). A Pending
word becomes visible when its REG arrives (R449). -/
def State.coherent (s : State) (wa : Nat) : MemWord :=
  match sget s.owners wa with
  | some c =>
    let back := (s.wbWord c wa).getD (s.homeWord wa)
    (match s.l1At c wa with
    | some { st := .owned, word := v, .. } => v
    | some { st := .pending, word := v, .. } => if s.regWaits c wa then back else v
    | _ => (s.ackWord c wa).getD back)
  | none => s.homeWord wa

/-- The coherent bytes from a device address, lowest first, and whether any word of them is poisoned. -/
def State.coherentBytes (s : State) (a n : Nat) : List Byte × Bool :=
  ((List.range n).map (fun i => (bytesOfNat (s.coherent ((a + i) / 4)).val.toNat 4).getD ((a + i) % 4) 0),
   (List.range n).any (fun i => (s.coherent ((a + i) / 4)).bad))

/-! Contexts and access tables (R240, R253, R434). -/

def State.ctx? (s : State) (c : Byte) : Option Ctx := s.ctxs.find? (fun x => x.cfg.num == c)

/-- Kinds of target that hold access tables (R253): the memory channel groups' controllers, the capacity tier's, the cores' scratchpads, the
pooled engines, the Novix engine. DESIGN CHOICE (log 32): the targets of a kind hold the same table, for Denuf writes all of them alike. -/
def tgMem : Nat := 0
def tgCap : Nat := 1
def tgSpad : Nat := 2
def tgEngine : Nat := 3
def tgNovix : Nat := 4

/-- The table that a kind of target holds for a class. -/
def State.tableAt (s : State) (kind : Nat) (cls : BitVec 2) : AccessTable := sgetD s.tables (4 * kind + cls.toNat) {}

/-- Whether the tables hold a context's bit. -/
def State.ctxOn (s : State) (c : Byte) : Bool := s.tables.any (fun t => t.2.on.contains c)

/-- Denuf writes a context's bit and its class's permissions at every target (R253); and clears the bit. -/
def State.grant (s : State) (c : CtxCfg) : State :=
  { s with tables := (List.range 5).foldl (fun t k =>
      let i := 4 * k + c.cls.toNat
      sput t i { r := c.permR, w := c.permW, on := (sgetD t i {}).on ++ [c.num] }) s.tables }
def State.revoke (s : State) (c : Byte) : State :=
  { s with tables := s.tables.map (fun t => (t.1, { t.2 with on := t.2.on.filter (fun x => x != c) })) }

/-- Whether the table of a target that holds no slice, an engine, refuses a context: its bit is clear (R253). DESIGN CHOICE (log 32): a request
to an engine names no slice. -/
def State.engineBars (s : State) (kind : Nat) (c : Byte) : Bool :=
  match s.ctx? c with
  | none => true
  | some x => !(s.tableAt kind x.cfg.cls).on.contains c

/-- Whether a target's table refuses a context's request: its bit is clear, or the slice's permission is missing (R253). -/
def State.tableBars (s : State) (kind : Nat) (c : Byte) (slice : Nat) (write : Bool) : Bool :=
  match s.ctx? c with
  | none => true
  | some x =>
    let t := s.tableAt kind x.cfg.cls
    !t.on.contains c || !(if write then t.w else t.r).getLsbD slice

/-- The access-table check of a request at the controller that it reaches (R253), with the key slot of a protected context (R434) and
the atlas entry of its address (R238): the cause of refusal and its DETAIL. The model performs a request's check where it is issued: the
tables change only when a context is bound or torn down, and teardown drops the requests in flight (R435). DEDUCED (log 51). -/
def State.refused (s : State) (c : Byte) (dpa : Nat) (write : Bool) : Option (Nat × Word) :=
  let sl := dpaSlice dpa
  if s.isNotify dpa then none
  else if sl < s.first ∨ s.first + s.slices ≤ sl then some (cXPART, BitVec.ofNat 32 sl) else
  match s.ctx? c with
  | none => some (cPAGE, 4)
  | some x =>
    if s.tableBars (if memberNo dpa = s.atlasAt dpa then tgMem else tgCap) c sl write then some (cPAGE, 4)
    else if x.cfg.isProtected && (match x.key with
      | some k => sgetD s.keys k 0 == 0
      | none => true) then some (cPAGE, 4)
    else if s.atlasAt dpa == 3 then some (cECC, 0)
    else none

/-! Translation (R240 to R244). -/

/-- Kinds of access that a leaf permits or not. -/
inductive Access where
  | load | store | fetch
deriving DecidableEq, Repr

/-- The outcome of a walk: a leaf, or a cause and its DETAIL. -/
inductive Walk where
  | leaf (l : Leaf)
  | fail (cause : Nat) (detail : Word)
deriving DecidableEq, Repr

/-- The outcome of a translation: a device address and whether the page is uncached. -/
inductive Tr where
  | ok (dpa : Nat) (uc : Bool)
  | fail (cause : Nat) (detail : Word)
deriving DecidableEq, Repr

/-- Index bits, page size and next table's alignment of each level (R240). -/
def levelIndex (lv va : Nat) : Nat :=
  match lv with
  | 3 => va / 2 ^ 39 % 8192
  | 2 => va / 2 ^ 30 % 512
  | 1 => va / 2 ^ 21 % 512
  | _ => va / 2 ^ 16 % 32
def levelPage (lv : Nat) : Nat :=
  match lv with
  | 2 => 2 ^ 30
  | 1 => 2 ^ 21
  | _ => 2 ^ 16
def nextAlign (lv : Nat) : Nat :=
  match lv with
  | 3 => 4096
  | 2 => 4096
  | _ => 256

/-- What one entry gives (R241, R242): a leaf, a failure, or the table of the next level. -/
inductive Entry where
  | leaf (l : Leaf)
  | fail (cause : Nat) (detail : Word)
  | table (dpa : Nat)
deriving DecidableEq, Repr

/-- Reads an entry of a table at level `lv` (R241, R242). -/
def State.walkEntry (s : State) (va table lv : Nat) : Entry :=
  let at_ := table + 8 * levelIndex lv va
  let (bs, bad) := s.coherentBytes at_ 8
  let e := natOfBytes bs
  let d : Word := BitVec.ofNat 32 lv
  let tbit := e / 2 % 2 == 1
  let addr := e / 256 % 2 ^ 44 * 256
  if bad then .fail cECC (eccDetail [s.coherent (at_ / 4), s.coherent (at_ / 4 + 1)])
  else if e % 2 == 0 then .fail cPAGE d
  else if e / 2 ^ 52 != 0 || e / 128 % 2 == 1 || (lv == 3 && !tbit) || (lv == 0 && tbit) then .fail cPAGE d
  else if addr % (if tbit then nextAlign lv else levelPage lv) != 0 || !(s.dpaOk addr || !tbit && s.isNotify addr) || decide (2 ^ 44 ≤ addr) then
    .fail cPAGE d
  else if tbit then (if e / 16 % 2 == 1 then .fail cPAGE d else .table addr)
  else .leaf { dpa := addr, size := levelPage lv, w := e / 4 % 2 == 1, x := e / 8 % 2 == 1, uc := e / 32 % 2 == 1,
               nr := e / 16 % 2 == 1, enc := e / 64 % 2 == 1, level := lv }

/-- Walks from a table at level `lv` (R240, R242). -/
def State.walkFrom (s : State) (va : Nat) : Nat → Nat → Walk
  | table, 0 => match s.walkEntry va table 0 with
    | .leaf l => .leaf l
    | .fail c d => .fail c d
    | .table _ => .fail cPAGE 0
  | table, lv + 1 => match s.walkEntry va table (lv + 1) with
    | .leaf l => .leaf l
    | .fail c d => .fail c d
    | .table a => s.walkFrom va a lv

/-- Walks a context's tree (R240). -/
def State.walk (s : State) (c : Byte) (va : Nat) : Walk :=
  match (s.ctx? c).bind (fun x => x.cfg.root) with
  | none => .fail cPAGE 3
  | some root => s.walkFrom va root.toNat 3

/-- What a leaf gives an access (R242); a missing permission names the level of the leaf (R387). -/
def leafGives (l : Leaf) (k : Access) (va : Nat) : Tr :=
  if l.nr then .fail cNONRES 0
  else match k with
    | .load => .ok (l.dpa + va % l.size) l.uc
    | .store => if l.w then .ok (l.dpa + va % l.size) l.uc else .fail cPAGE (BitVec.ofNat 32 l.level)
    | .fetch => if l.x then .ok (l.dpa + va % l.size) l.uc else .fail cPAGE (BitVec.ofNat 32 l.level)

/-- The entry of a TLB for an address (R243). -/
def tlbFind (t : List TlbEntry) (c : Byte) (va : Nat) : Option Leaf :=
  (t.find? (fun e => e.ctx == c && decide (e.va ≤ va) && decide (va < e.va + e.leaf.size))).map (·.leaf)

/-- The translations that a core's own TLB, and that of its compute die, hold for an address (R243). -/
def State.tlbHits (s : State) (core : Nat) (c : Byte) (va : Nat) : List Leaf :=
  (tlbFind (s.coreAt core).tlb c va).toList ++ (tlbFind (sgetD s.dieTlb (s.sliceOf core) []) c va).toList

/-- Adds a translation to a TLB of `n` entries; the oldest goes where it is full (R243). -/
def tlbAdd (n : Nat) (c : Byte) (va : Nat) (l : Leaf) (t : List TlbEntry) : List TlbEntry :=
  if (tlbFind t c va).isSome then t else { ctx := c, va := va / l.size * l.size, leaf := l } :: t.take (n - 1)

/-- What one entry of a level maps in the tables below it. -/
def levelSpan (lv : Nat) : Nat := match lv with
  | 3 => 2 ^ 39
  | lv => levelPage lv

/-- The hub die whose walkers serve a core (R243, R444). -/
def State.hubOf (s : State) (core : Nat) : Nat := s.sliceOf core % 6

/-- The upper-level entry that the walkers of a hub die hold for an address (R243). -/
def State.walkHeld (s : State) (hub : Nat) (c : Byte) (va lv : Nat) : Option Nat :=
  ((sgetD s.walks hub []).find? (fun e => e.ctx == c && e.level == lv && e.va == va / levelSpan lv * levelSpan lv)).map (·.table)

/-- A walk that takes upper-level entries from the walkers' cache where it holds them (R243). -/
def State.walkCached (s : State) (hub : Nat) (c : Byte) (va : Nat) : Nat → Nat → Walk
  | table, 0 => s.walkFrom va table 0
  | table, lv + 1 => match s.walkHeld hub c va (lv + 1) with
    | some a => s.walkCached hub c va a lv
    | none => match s.walkEntry va table (lv + 1) with
      | .leaf l => .leaf l
      | .fail k d => .fail k d
      | .table a => s.walkCached hub c va a lv

/-- The walk of a context's tree through the walkers' cache (R240, R243). -/
def State.walkVia (s : State) (hub : Nat) (c : Byte) (va : Nat) : Walk :=
  match (s.ctx? c).bind (fun x => x.cfg.root) with
  | none => .fail cPAGE 3
  | some root => s.walkCached hub c va root.toNat 3

/-- The upper-level entries that a walk from a table passes. -/
def State.walkPath (s : State) (c : Byte) (va : Nat) : Nat → Nat → List WalkEntry
  | _, 0 => []
  | table, lv + 1 => match s.walkEntry va table (lv + 1) with
    | .table a => { ctx := c, level := lv + 1, va := va / levelSpan (lv + 1) * levelSpan (lv + 1), table := a } :: s.walkPath c va a lv
    | _ => []

/-- The upper-level entries of a context's tree for an address. -/
def State.pathOf (s : State) (c : Byte) (va : Nat) : List WalkEntry :=
  match (s.ctx? c).bind (fun x => x.cfg.root) with
  | none => []
  | some root => s.walkPath c va root.toNat 3

/-- The lines of the tables that a walk of an address reads (R240). -/
def State.walkLines (s : State) (c : Byte) (va : Nat) : List Nat :=
  match (s.ctx? c).bind (fun x => x.cfg.root) with
  | none => []
  | some root => (root.toNat + 8 * levelIndex 3 va) / 128 ::
      (s.pathOf c va).map (fun e => (e.table + 8 * levelIndex (e.level - 1) va) / 128)

/-- The walkers' reads of the tables are accesses at their homes (R239, R243, R246). -/
def State.walkReads (s : State) (c : Byte) (va : Nat) : State :=
  (s.walkLines c va).foldl (fun s line => s.homeAccess line c false false) s

/-- Caches a translation in the core's TLB, its die's, and the walkers' cache (R243). DESIGN CHOICE (log 42). -/
def State.tlbFill (s : State) (core : Nat) (c : Byte) (va : Nat) (l : Leaf) : State :=
  let k := s.sliceOf core
  let h := s.hubOf core
  let path := s.pathOf c va
  let held := sgetD s.walks h []
  let s := s.modCore core (fun x => { x with tlb := tlbAdd 128 c va l x.tlb })
  { s with dieTlb := sput s.dieTlb k (tlbAdd 8192 c va l (sgetD s.dieTlb k []))
           walks := sput s.walks h (held ++ path.filter (fun e => (s.walkHeld h c va e.level).isNone)) }

/-- The key under which a context's page stands in device memory: none where it is not encrypted (R241, R434). -/
def State.keyFor (s : State) (c : Byte) (enc : Bool) : Nat :=
  if !enc then 0 else match (s.ctx? c).bind (fun x => x.key) with
    | some k => sgetD s.keys k 0
    | none => 0

/-- A line of device memory as it stands for an access under a key: under another key than before it holds other plaintext, which no rule
gives (R241, R434). DESIGN CHOICE (log 10). -/
def State.rekey (s : State) (line k : Nat) : State :=
  let old := sgetD s.lineKeys line 0
  if old = k then s else
  let ws := (List.range 32).map (fun i => readWord s.mem (4 * (32 * line + i)))
  { s with lineKeys := ssetD s.lineKeys line k 0
           mem := (List.range 32).foldl (fun m i => writeWord m (4 * (32 * line + i)) (Config.recrypt old k line ws i)) s.mem }

/-- The instruction that executes, of a fibre or an access processor, as the walks it waits for name it. -/
def State.walker (s : State) (core : Nat) (c : Byte) (va : Nat) : Option WalkReq :=
  match s.turn with
  | .issue p _ => some { g := p.g, w := p.w, f := p.f, pc := p.pc, core := core, ctx := c, page := va / 65536 }
  | .access g n =>
    let a := ((s.groupAt g).aps.find? (fun a => a.1 == n)).elim ({} : Ap) (fun a => a.2)
    some { g := g, w := a.ownerW, f := 4 + n, pc := a.spc, core := core, ctx := c, page := va / 65536 }
  | _ => none

/-- Whether a walk is waited for by the instruction at a PC of a fibre or access processor. -/
def WalkReq.of (r : WalkReq) (g w f : Nat) (pc : DWord) : Bool := r.g == g && r.w == w && r.f == f && r.pc == pc

/-- A data access of an instruction that finds no translation in the TLBs asks for a walk, whose end the instruction waits for (R178, R243). Once
it has ended, the access itself walks again and finds what the walk has found. DEDUCED (log 41). -/
def State.askWalk (s : State) (core : Nat) (c : Byte) (va : Nat) (k : Access) : State :=
  match (if k == .fetch then none else s.walker core c va) with
  | none => s
  | some q => if s.walking.any (fun r => { r with done := false } == q) then s else { s with walking := s.walking ++ [q] }

/-- Whether the instruction at a PC still waits for a walk. -/
def State.walksOut (s : State) (g w f : Nat) (pc : DWord) : Bool := s.walking.any (fun r => r.of g w f pc && !r.done)

/-- The instruction at a PC has executed: its walks are used. -/
def State.walksUsed (s : State) (g w f : Nat) (pc : DWord) : State := { s with walking := s.walking.filter (fun r => !r.of g w f pc) }

/-- Finds the leaf of one access (R242 to R244): what a TLB or the walkers' cache holds and what the tree says now are all possible until
the invalidation completes; a failed walk is not cached. DEDUCED (log 41). -/
def State.lookup (s : State) (core : Nat) (c : Byte) (va : Nat) (k : Access) : Tr × Bool × State :=
  if 2 ^ 52 ≤ va then (.fail cPAGE 5, false, s) else
  let hits := s.tlbHits core c va
  let s := if hits.isEmpty then (s.askWalk core c va k).walkReads c va else s
  let can := (hits.map Walk.leaf ++ [s.walkVia (s.hubOf core) c va, s.walk c va]).eraseDups
  let r : Walk × State := match can with
    | [w] => (w, s)
    | _ => let (n, s) := s.fresh
      (can.getD (Config.freeCount n % can.length) (s.walk c va), s)
  match r.1 with
  | .fail cs d => (.fail cs d, false, r.2)
  | .leaf l =>
    match leafGives l k va with
    | .ok dpa uc => (.ok dpa (uc || s.isNotify dpa), l.enc, if hits.contains l then r.2 else r.2.tlbFill core c va l)
    | .fail cs d => (.fail cs d, false, r.2)

/-- Translates one access (R242); the line stands under the access's key where the access table does not refuse it (R241, R253, R434). An
access to the queue-notify page is uncached: its register takes writes and reads as 0 (R231). DEDUCED (log 143). -/
def State.translate (s : State) (core : Nat) (c : Byte) (va : Nat) (k : Access) : Tr × State :=
  match s.lookup core c va k with
  | (.ok dpa uc, enc, t) =>
    (.ok dpa uc, if (t.refused c dpa (k == .store)).isSome then t else t.rekey (dpa / 128) (t.keyFor c enc))
  | (.fail cs d, _, t) => (.fail cs d, t)

/-- A data access of a context: translation, then the access table (R242, R253). -/
def State.reach (s : State) (core : Nat) (c : Byte) (va : Nat) (k : Access) : Tr × State :=
  match s.translate core c va k with
  | (.fail cs d, s) => (.fail cs d, s)
  | (.ok dpa uc, s) =>
    match s.refused c dpa (k == .store) with
    | some (cs, d) => (.fail cs d, s)
    | none => (.ok dpa uc, s)

/-! Messages (R443, R448). -/

def classOf (k : MsgKind) : MsgClass :=
  match k with
  | .reg _ => .request
  | .rd => .request
  | .ucw _ => .request
  | .ack _ => .snoop
  | .fwd _ => .snoop
  | .rev _ => .snoop
  | .binv => .snoop
  | .reva => .snoop
  | .revs _ => .snoop
  | .data => .response
  | .wb => .response
  | .noown _ => .response
  | .claim => .response

/-- Sends a message between a core and a home. -/
def State.send (s : State) (k : MsgKind) (core line : Nat) (mask : Word) (ws : List (Nat × MemWord)) (ctx : Byte := 0)
    (rd : Nat := 0) (alloc : Bool := false) (src : Option Nat := none) (uc : Bool := false) : State :=
  let (i, s) := s.newId
  { s with msgs := s.msgs ++ [{ id := i, cls := classOf k, kind := k, core := core, line := line, mask := mask, words := ws
                                ctx := ctx, rd := rd, alloc := alloc, src := src, uc := uc }] }

/-- The words an operation names. -/
def PendOp.was (p : PendOp) : List Nat := (List.range p.words).map (fun i => p.dpa / 4 + i)

/-- Whether a word of a core's L1 is Owned. -/
def State.isOwned (s : State) (c wa : Nat) : Bool :=
  match s.l1At c wa with
  | some { st := .owned, .. } => true
  | _ => false

/-- Registers again the words that operations of a core wait for and that the core has lost (R250, R252). -/
def State.chase (s : State) (c : Nat) : State :=
  (s.pend.filter (fun p => p.core == c && !p.uc)).foldl (fun s p =>
    let need := p.was.filter (fun wa => !s.isOwned c wa && !s.regOut c wa)
    if need.isEmpty then s else s.send (.reg true) c (p.dpa / 128) (wordBits need) [] p.ctx) s

/-! The L1 (R247, R250). -/

/-- The lines an L1 holds. -/
def l1Lines (x : Core) : List Nat :=
  x.l1.foldl (fun ls e => if ls.getLast? == some (e.1 / 32) then ls else ls ++ [e.1 / 32]) []

/-- Evicts a line: dirty Owned words go back to the home and are released, Valid words go (R247). -/
def State.evict (s : State) (core line : Nat) : State :=
  let c := s.agent core
  let mine := (s.coreAt c).l1.filter (fun e => e.1 / 32 == line)
  let owned := mine.filter (fun e => e.2.st == .owned)
  let s := (s.modCore c (fun x => { x with l1 := x.l1.filter (fun e => e.1 / 32 != line) })).noAllocLine c line
  if owned.isEmpty then s else
  (s.send .wb c line (wordBits (owned.map (fun e => e.1))) (owned.map (fun e => (e.1, e.2.word)))
    ((owned.map (fun e => e.2.ctx)).headD 0)).chase c

/-- The slices of a core's L1: one, or one for each member of a fused position; a line stands in slice (DPA >> 7) mod n (R248). -/
def Core.l1Slices (x : Core) : Nat := max 1 x.fusedWith.length

/-- Whether a line stays: it holds a Pending word (R450), or an operation waits for a word of it. -/
def State.linePinnedL1 (s : State) (c line : Nat) : Bool :=
  (s.coreAt c).l1.any (fun e => e.1 / 32 == line && e.2.st == .pending)
    || s.pend.any (fun p => p.core == c && !p.uc && p.dpa / 128 == line)

/-- The lines that stand in one line's slice, the line itself apart. -/
def State.l1Peers (s : State) (c line : Nat) : List Nat :=
  let x := s.coreAt c
  (l1Lines x).filter (fun l => l % x.l1Slices == line % x.l1Slices && l != line)

/-- Whether the L1 has a place for a line (256 KiB of 128-byte lines a slice). -/
def State.hasRoom (s : State) (c line : Nat) : Bool := decide ((s.l1Peers c line).length < 2048)

/-- Makes room for a line in a full slice; no line with a Pending word is chosen, and which other line goes is open (R247, R248,
R450). DESIGN CHOICE (log 43). -/
def State.makeRoom (s : State) (core line : Nat) : State :=
  let c := s.agent core
  if s.hasRoom c line then s else
  let can := (s.l1Peers c line).filter (fun l => !s.linePinnedL1 c l)
  if can.isEmpty then s else
  let (n, s) := s.fresh
  s.evict c (can.getD (Config.freeCount n % can.length) 0)

/-- Whether an access to some lines can have them in the L1: a line held for another context, or a place taken by another line,
must have been given up, and neither goes while it has a Pending word (R247, R450). -/
def State.l1Ready (s : State) (core : Nat) (ctx : Byte) (lines : List Nat) : Bool :=
  let c := s.agent core
  let x := s.coreAt c
  let stay := ((l1Lines x).filter (s.linePinnedL1 c) ++ (s.pend.filter (fun (p : PendOp) => p.core == c && !p.uc)).map (fun (p : PendOp) => p.dpa / 128)
    ++ lines).eraseDups
  lines.all (fun line => !(s.linePinnedL1 c line && x.l1.any (fun e => e.1 / 32 == line && e.2.ctx != ctx))
    && decide ((stay.filter (fun l => l % x.l1Slices == line % x.l1Slices)).length ≤ 2048))

/-- Gives up a line that the L1 holds for another context (R247). DEDUCED (log 44). -/
def State.ownLine (s : State) (core : Nat) (ctx : Byte) (line : Nat) : State :=
  let c := s.agent core
  if (s.coreAt c).l1.any (fun e => e.1 / 32 == line && e.2.ctx != ctx) && !s.linePinnedL1 c line then s.evict c line else s

/-- Before a core changes a word in its L1, its own reads of the word that are on their way get the value it has now: a later store
of a lane never reaches its earlier load, and a load that performs after the store would return it (R126, R287, R288). DEDUCED (log 45). -/
def State.fixReads (s : State) (core wa : Nat) : State :=
  let c := s.agent core
  let due := fun (p : Prod) (i : Item) => s.agent p.core == c && i.rd != 0 && i.dpa / 4 == wa && i.got.isNone
  if !s.prods.any (fun p => p.items.any (due p)) then s else
  let v := s.coherent wa
  { s with prods := s.prods.map (fun p => { p with items := p.items.map (fun i => if due p i then { i with got := some (.mem v) } else i) }) }

/-- A whole-word store to a cacheable word (R250): Pending with a registration, unless the word is this core's
already or one of its registrations is under way (R281). -/
def State.storeWord (s : State) (core : Nat) (ctx : Byte) (wa : Nat) (v : MemWord) : State :=
  let c := s.agent core
  let s := (s.fixReads c wa).ownLine c ctx (wa / 32)
  match s.l1At c wa with
  | some { st := .owned, .. } => s.setL1 c wa (some { st := .owned, word := v, ctx := ctx })
  | some { st := .pending, .. } => s.setL1 c wa (some { st := .pending, word := v, ctx := ctx })
  | _ =>
    let out := s.regOut c wa
    let s := ((s.noAllocLine c (wa / 32)).makeRoom c (wa / 32)).setL1 c wa (some { st := .pending, word := v, ctx := ctx })
    if out then s else s.send (.reg false) c (wa / 32) (wordBit wa) [] ctx

/-- A load's hit in the L1 (R250), under the line's context (R247). -/
def State.loadHit (s : State) (core : Nat) (ctx : Byte) (wa : Nat) : Option MemWord :=
  match s.l1At core wa with
  | some e => if e.ctx != ctx then none else some e.word
  | none => none

/-- Whether a word of the core's L1 is Pending, or a write of the core at a home still waits for a revocation (R250, R269, R305). -/
def State.anyPending (s : State) (core : Nat) : Bool :=
  (s.coreAt (s.agent core)).l1.any (fun e => e.2.st == .pending) || s.holds.any (fun h => h.writer == some (s.agent core))

/-- Whether a write of a command, message or execution still waits for a revocation that it has caused (R285, R380). -/
def State.revoking (s : State) (id : Nat) : Bool := s.holds.any (fun h => h.by_ == id)

/-- Starts a transaction that asks cores for what they hold (R451, R453). -/
def State.startHold (s : State) (lines : List Nat) (why : HoldWhy) (cores : List Nat) (held : List Msg)
    (ask : Nat → Nat → State → State) (entered : Option Msg := none) (by_ : Nat := 0) (writer : Option Nat := none) : State :=
  let (i, s) := s.newId
  let s := { s with holds := s.holds ++ [{ id := i, lines := lines, why := why, waitCores := cores, held := held, entered := entered
                                           by_ := by_, writer := writer }] }
  cores.foldl (fun s c => ask i c s) s

/-! Bytes in words. -/

/-- Merges the bytes of `v` that `mask` names into a word. -/
def mergeBytes (mask : BitVec 4) (v w : Word) : Word :=
  let m : Word := (if mask.getLsbD 0 then 0xFF else 0) ||| (if mask.getLsbD 1 then 0xFF00 else 0)
    ||| (if mask.getLsbD 2 then 0xFF0000 else 0) ||| (if mask.getLsbD 3 then 0xFF000000 else 0)
  (w &&& ~~~m) ||| (v &&& m)

/-- A sub-word store's byte mask within its word, and its data moved into place. -/
def subMask (off n : Nat) : BitVec 4 := BitVec.ofNat 4 ((2 ^ n - 1) * 2 ^ off)

/-! Scratchpad (R232 to R235). -/

/-- What a scratchpad address names: a group's word bytes, or a failure with its cause and DETAIL. -/
inductive Sp where
  | ok (g off : Nat)
  | fail (cause : Nat) (detail : Word)
deriving DecidableEq, Repr

/-- The group of a cluster set with a member index (R163). -/
def State.memberGroup (s : State) (g m : Nat) : Option Nat :=
  let gr := s.groupAt g
  (s.groups.find? (fun e => e.2.lsn == gr.lsn && e.2.stage == gr.stage && e.2.set == gr.set && e.2.member == m)).map (·.1)

/-- Resolves and checks a scratchpad access of `n` bytes (R233). -/
def State.spResolve (s : State) (g : Nat) (addr : Word) (n : Nat) : Sp :=
  let gr := s.groupAt g
  let m := addr.toNat / 2 ^ 24
  let off := addr.toNat % 2 ^ 24
  if gr.cw * gr.ch < m then .fail cBOUNDS (BitVec.ofNat 32 (gr.cw * gr.ch))
  else match (if m = 0 then some g else s.memberGroup g (m - 1)) with
    | none => .fail cBOUNDS (BitVec.ofNat 32 (gr.cw * gr.ch))
    | some g' =>
      if (s.groupAt g').spadBytes < off + n then .fail cBOUNDS (BitVec.ofNat 32 (s.groupAt g').spadBytes)
      else if off % n ≠ 0 then .fail cMISALIGN (BitVec.ofNat 32 n)
      else .ok g' off

/-- Whether the table of another core's scratchpad refuses a write by a group's context (R253). -/
def State.spBars (s : State) (g g' : Nat) : Bool :=
  g != g' && s.tableBars tgSpad (s.groupAt g).ctx (s.sliceOf (s.groupAt g').core) true

/-- A scratchpad word by its number, and a write of it. -/
def State.spAt (s : State) (g i : Nat) : SpadWord := sgetD (s.groupAt g).spad i {}
def State.setSp (s : State) (g i : Nat) (v : SpadWord) : State :=
  s.modGroup g (fun x => { x with spad := ssetD x.spad i v {} })

/-- Bytes of a group's scratchpad, and the first poisoned word among them. -/
def State.spBytes (s : State) (g off n : Nat) : List Byte × Option Word :=
  ((List.range n).map (fun i => (bytesOfNat (s.spAt g ((off + i) / 4)).val.toNat 4).getD ((off + i) % 4) 0),
   ((List.range n).findSome? (fun i => let x := s.spAt g ((off + i) / 4)
     if x.poison then some x.val else none)))

end Sys2Proof.Machine
end

