-- ==== Sys2Proof/Machine/Operands.lean ====
section
/-! DEFINITION. Operand forms: sources (R24, R76 to R81, R95, R206), destinations (R23, R175), predicates (R13). -/

namespace Sys2Proof.Machine

/-- What one execution works with: its path, its opcode and fields with their shape, its participants (R191), and the
access processor that executes it, if one does. -/
structure Ex where
  p : Path
  op : Nat
  f : Fields
  k : OpSpec
  parts : List Nat
  ap : Option (Nat × Nat) := none

/-- The address of the instruction's first word (R97), and the one that records and poison words carry (R25). -/
def Path.pcI (p : Path) : DWord := if p.rep.isSome then p.pc + 4 else p.pc
/-- The address after the instruction (R28). -/
def Ex.next (x : Ex) : DWord := x.p.pcI + BitVec.ofNat 64 (4 * x.f.form.words)
/-- The fibre of a path. Path two sees the views and queue mapping that stood before path one (R173, R190). DESIGN CHOICE (log 128). -/
def State.pathFibre (s : State) (p : Path) : Fibre :=
  let now := s.fibreAt p.g p.w p.f
  match s.opp with
  | some o => if p.second then
      { now with vvec := o.fib.vvec, vtile := o.fib.vtile, vacc := o.fib.vacc, win := o.fib.win, qmap := o.fib.qmap }
      else now
  | none => now
def Ex.fibre (x : Ex) (s : State) : Fibre := s.pathFibre x.p
def Ex.group (x : Ex) (s : State) : Group := s.groupAt x.p.g
def Ex.core (x : Ex) (s : State) : Nat := (s.groupAt x.p.g).core
def Ex.ctx (x : Ex) (s : State) : Byte := (s.groupAt x.p.g).ctx
def Ex.low (x : Ex) : Nat := x.parts.headD 0

/-- The registers path two reads are those that stood before path one wrote (R173). -/
def State.seenRegs (s : State) (p : Path) : Sparse RegWord :=
  match s.opp with
  | some o => if p.second then o.regs else (s.warpAt p.g p.w).regs
  | none => (s.warpAt p.g p.w).regs
def State.seenUregs (s : State) (p : Path) : Sparse RegWord :=
  match s.opp with
  | some o => if p.second then o.fib.uregs else (s.fibreAt p.g p.w p.f).uregs
  | none => (s.fibreAt p.g p.w p.f).uregs

def State.apAt (s : State) (g n : Nat) : Ap := (((s.groupAt g).aps.find? (fun a => a.1 == n)).map (·.2)).getD {}
def State.modAp (s : State) (g n : Nat) (k : Ap → Ap) : State :=
  s.modGroup g (fun x => { x with aps := x.aps.map (fun a => if a.1 == n then (a.1, k a.2) else a) })

/-- The literal a source with code 0xFF reads (R79): half 0 or 1 of a pair. -/
def litWord (f : Fields) (half : Nat) : Word :=
  match f.form with
  | .lx => f.lit.extractLsb' (32 * half) 32
  | _ => if half = 0 then f.w2 else if f.w2.msb then 0xFFFFFFFF else 0

/-- The head of the hardware queue that q`n` is mapped to, for one lane (R93, R206, R315, R316). -/
def State.queueRead (s : State) (x : Ex) (n lane : Nat) : Val :=
  let h := (x.fibre s).qmap.getD n n
  match ((x.group s).aps.find? (fun a => a.1 == h / 8)) with
  | none => .new cQUEUE 0 (BitVec.ofNat 32 h)
  | some (_, a) =>
    match (sgetD (x.group s).queues h {}).entries with
    | [] => if a.st == .ended || a.st == .stopped then .new cQUEUE 0 (BitVec.ofNat 32 h)
            else .new cEMPTY 0 (BitVec.ofNat 32 (0xF0 + n))
    | (_, ws) :: _ =>
      let w := ws.getD lane {}
      if w.full then .ok w else .new cEMPTY 0 (BitVec.ofNat 32 (0xF0 + n))

/-- The register word a code names for a lane, full or not; `half` 1 is the odd register of a pair. -/
def State.codeWord (s : State) (x : Ex) (code : BitVec 8) (half lane : Nat) : RegWord :=
  let n := code.toNat + half
  if n < 0xC0 then sgetD (s.seenRegs x.p) (vecOff (x.fibre s) n + lane) {}
  else match x.ap with
    | some (g, a) => sgetD (s.apAt g a).regs (n - 0xC0) {}
    | none => sgetD (s.seenUregs x.p) (n - 0xC0) {}

/-- The issue unit of a warp: the scheduler of its slot (R172, R406). DEDUCED (log 107). -/
def State.unitOf (s : State) (g w : Nat) : Nat := (s.warpAt g w).slot / 6

/-- The issue unit that flags the path's cycle late a second time (R406). DEDUCED (log 107). -/
def State.lateUnit (s : State) (x : Ex) : Option Nat :=
  if x.ap.isSome then none else
  match s.late with
  | some (c, u) => if c == x.core s && u == s.unitOf x.p.g x.p.w then some u else none
  | none => none

/-- Whether a late cycle poisons what an instruction reads, as its data, its address or its target: BRU and LOOP read only what they test
(R406). -/
def lateReads (op : Nat) : Bool := op != 0x02 && op != 0x09

/-- ReadSrc (R24) once the policy has been settled: an empty word gives Poison(EMPTY). In a cycle flagged late a second time
what is read is Poison(TIMING) (R406). -/
def State.readCode (s : State) (x : Ex) (code : BitVec 8) (half lane : Nat) : Val :=
  let n := code.toNat
  match (if lateReads x.op then s.lateUnit x else none) with
  | some u => .new cTIMING 0 (BitVec.ofNat 32 u)
  | none =>
  if n < 0xF0 then
    let w := s.codeWord x code half lane
    if w.full then .ok w else .new cEMPTY 0 (BitVec.ofNat 32 n)
  else if n < 0xF8 then s.queueRead x (n - 0xF0) lane
  else if n = 0xF9 then .ok (mkWord (BitVec.ofNat 32 lane))
  else if n = 0xFF then .ok (mkWord (litWord x.f half))
  else .ok (mkWord 0)

/-- Whether a block-policy source lets its path issue (R24, R206). -/
def State.codeFull (s : State) (x : Ex) (code : BitVec 8) (half lane : Nat) : Bool :=
  let n := code.toNat
  if n < 0xF0 then (s.codeWord x code half lane).full
  else if n < 0xF8 then match s.queueRead x (n - 0xF0) lane with
    | .new c _ _ => c != cEMPTY
    | .ok _ => true
  else true

/-- Whether a class names pairs. -/
def Cls.isPair : Cls → Bool
  | .regs _ _ _ _ _ _ p => p
  | _ => false
def Cls.isRegs : Cls → Bool
  | .regs _ _ _ _ _ _ _ => true
  | _ => false

/-- The words of an operand: one, or two for a pair (R11, R82). -/
def State.operand (s : State) (x : Ex) (c : Cls) (code : BitVec 8) (lane : Nat) : List Val :=
  if Cls.isPair c then [s.readCode x code 0 lane, s.readCode x code 1 lane] else [s.readCode x code 0 lane]

/-- The immediate of B6 (R77): each half under .x2, else the word or pair. -/
def b6Imm (x : Ex) : List Val :=
  let v : DWord := x.f.b6.signExtend 64
  let h : BitVec 16 := x.f.b6.signExtend 16
  if Cls.isPair x.k.b then [.ok (mkWord (v.extractLsb' 0 32)), .ok (mkWord (v.extractLsb' 32 32))]
  else if x.f.sub.getLsbD 3 && (x.f.md == 2 || x.f.md == 3) then [.ok (mkWord (h ++ h))]
  else [.ok (mkWord (v.extractLsb' 0 32))]

def isImm (x : Ex) : Bool := x.k.b6 == .imm && x.f.b == 0xF8 && x.k.b != .no

def State.srcA (s : State) (x : Ex) (l : Nat) : List Val := s.operand x x.k.a x.f.a l
def State.srcB (s : State) (x : Ex) (l : Nat) : List Val := if isImm x then b6Imm x else s.operand x x.k.b x.f.b l
def State.srcC (s : State) (x : Ex) (l : Nat) : List Val := s.operand x x.k.c x.f.c l
/-- D as a source: store data (R124). -/
def State.srcD (s : State) (x : Ex) (l : Nat) : List Val := s.operand x x.k.d x.f.d l

/-- Whether one source position is ready in every participant: probing, not a register, or full (R206). -/
def State.posReady (s : State) (x : Ex) (c : Cls) (code : BitVec 8) (probe : Bool) : Bool :=
  probe || !Cls.isRegs c || x.parts.all (fun l =>
    s.codeFull x code 0 l && (!Cls.isPair c || s.codeFull x code 1 l))

/-- Sources an instruction reads, as positions: A, B, C, and D for stores and LOOP. -/
structure Reads where
  a : Bool := true
  b : Bool := true
  c : Bool := true
  d : Bool := false

/-- Whether the sources read under the block policy are full (R172, R206). -/
def State.ready (s : State) (x : Ex) (r : Reads) : Bool :=
  (!r.a || s.posReady x x.k.a x.f.a (x.f.sp.getLsbD 0)) && (!r.b || s.posReady x x.k.b x.f.b (x.f.sp.getLsbD 1))
    && (!r.c || s.posReady x x.k.c x.f.c (x.f.sp.getLsbD 2)) && (!r.d || s.posReady x x.k.d x.f.d (x.f.sp.getLsbD 2))

/-- The register words of source values; empty where one is poisoned. -/
def wordsOfVals (vs : List Val) : List RegWord :=
  vs.filterMap (fun v => match v with
    | .ok w => some w
    | .new _ _ _ => none)

/-- FirstPoison (R23). -/
def firstBad (vs : List Val) : Option Val := vs.find? Val.isBad

/-! Predicates (R13). -/

/-- A predicate of a lane; p7 reads as true. -/
def State.predAt (s : State) (p : Path) (lane n : Nat) : Pred :=
  if n = 7 then { val := true } else (s.laneAt p.g p.w p.f lane).preds.getD n {}

/-- A write of a predicate; a write to p7 is discarded. -/
def State.setPred (s : State) (p : Path) (lane n : Nat) (v : Pred) : State :=
  if n = 7 then s else s.modLane p.g p.w p.f lane (fun l => { l with preds := l.preds.set n v })

def predOf (b : Bool) : Pred := { val := b }
def badPred (w : Word) : Pred := { val := false, bad := some w }

/-! Destinations. -/

/-- The width of a 32-bit mask of the live lanes, as MIXED's DETAIL has it (R387). -/
def liveMask (x : Fibre) : Word := maskOf (liveLanes x)

/-- Whether every live lane participates (R175). DESIGN CHOICE (log 19): for path two, the lanes that have exited in path one of the
same cycle no longer count as live; the manual does not say. -/
def Ex.whole (x : Ex) (s : State) : Bool := (liveLanes (x.fibre s)).all (fun l => x.parts.contains l)

/-- Writes one word of the destination code for one lane (R23, R81). -/
def State.putWord (s : State) (x : Ex) (code : BitVec 8) (half lane : Nat) (v : RegWord) : State :=
  let n := code.toNat + half
  if code.toNat < 0xC0 then s.writeVec x.p.g x.p.w x.p.f lane (vecOff (x.fibre s) n + lane) { v with full := true }
  else if code.toNat < 0xF0 then
    match x.ap with
    | some (g, a) => s.modAp g a (fun y => { y with regs := ssetD y.regs (n - 0xC0) { v with full := true } {} })
    | none => s.writeUni x.p.g x.p.w x.p.f (n - 0xC0) { v with full := true }
  else s

/-- Writes the words of one lane. -/
def State.putWords (s : State) (x : Ex) (code : BitVec 8) (lane : Nat) (vs : List RegWord) : State :=
  (s.putWord x code 0 lane (vs.getD 0 {})) |> fun s =>
    if vs.length > 1 then s.putWord x code 1 lane (vs.getD 1 {}) else s

/-- What a uniform destination receives (R175): the lowest poisoned lane's words, else the lowest lane's; MIXED under a
partial mask. -/
def uniformOut (whole : Bool) (live : Word) (outs : List (Nat × List Val)) : Option (Nat × List Val) :=
  match outs with
  | [] => none
  | (l, vs) :: _ =>
    if whole then some (match outs.find? (fun o => o.2.any Val.isBad) with
      | some o => o
      | none => (l, vs))
    else some (l, vs.map (fun _ => .new cMIXED 0 live))

/-- Whether a value is newly poisoned with one of some causes. -/
def carried (cs : List Nat) (e : Nat × Val) : Bool :=
  match e.2 with
  | .new c _ _ => cs.contains c
  | .ok _ => false

/-- WriteDst for every participant: records for what the execution poisons, then the words (R23, R25, R175, R389).
`made` are sources that were newly poisoned when read. A uniform word carries one lane's words, or MIXED; of results, no other
cause is recorded. DEDUCED (log 122). -/
def State.writeDst (s : State) (x : Ex) (code : BitVec 8) (outs : List (Nat × List Val)) (made : List (Nat × Val)) :
    State :=
  let flat := made ++ outs.flatMap (fun o => o.2.map (fun v => (o.1, v)))
  if 0xC0 ≤ code.toNat ∧ code.toNat < 0xF0 then
    let whole := x.ap.isSome || x.whole s
    match uniformOut whole (liveMask (x.fibre s)) outs with
    | none => s
    | some (l, vs) =>
      let got := vs.map (fun v => (l, v))
      let (s, tbl) := s.makePoison x.p.g x.p.w x.p.f 0 x.p.pc
        (made ++ (if whole then (flat ++ got).filter (carried (causesOf got)) else got))
      s.putWords x code l (vs.map (fun v => v.word tbl))
  else
    let (s, tbl) := s.makePoison x.p.g x.p.w x.p.f 0 x.p.pc flat
    outs.foldl (fun s o => s.putWords x code o.1 (o.2.map (fun v => v.word tbl))) s

/-- Writes a predicate for every participant: a value, or the poison bit with the word that set it (R13). -/
def State.writePreds (s : State) (x : Ex) (n : Nat) (outs : List (Nat × (Bool ⊕ Val))) (made : List (Nat × Val)) : State :=
  let news := outs.filterMap (fun o => match o.2 with
    | .inr v => some (o.1, v)
    | .inl _ => none)
  let (s, tbl) := s.makePoison x.p.g x.p.w x.p.f 0 x.p.pc (made ++ news)
  outs.foldl (fun s o => s.setPred x.p o.1 n (match o.2 with
    | .inl b => predOf b
    | .inr v => badPred (v.word tbl).val)) s

/-- Newly poisoned sources among the values lanes read. -/
def madeOf (reads : List (Nat × List Val)) : List (Nat × Val) :=
  reads.flatMap (fun r => r.2.filterMap (fun v => match v with
    | .new _ _ _ => some (r.1, v)
    | .ok _ => none))

/-- The unit number of an effect on the fibre as a whole (R388). -/
def wholeUnit : Nat := 255

/-- A free word, where the manual states no value. -/
def State.freeWord (s : State) : Word × State :=
  let (n, s) := s.fresh
  (BitVec.ofNat 32 (Config.freeCount n), s)

/-- Starts outstanding work that writes register words: each destination drops older work aimed at it and becomes empty
(R24, R126). -/
def State.produce (s : State) (x : Ex) (kind : ProdKind) (acq uc : Bool) (items : List Item) : State :=
  let s := items.foldl (fun s i => (s.dropDest x.p.g x.p.w x.p.f (some i.lane) i.dst).setFull i.dst false) s
  let (n, s) := s.newId
  { s with prods := s.prods ++ [{ id := n, kind := kind, g := x.p.g, w := x.p.w, f := x.p.f, core := x.core s,
                                  pc := x.p.pc, acq := acq, uc := uc, items := items }] }

/-- Where a destination code leads for one lane (R81). -/
def State.destOf (s : State) (x : Ex) (code : BitVec 8) (half lane : Nat) : Dest :=
  let n := code.toNat + half
  if code.toNat < 0xC0 then .vec x.p.g x.p.w (vecOff (x.fibre s) n + lane)
  else if code.toNat < 0xF0 then .uni x.p.g x.p.w x.p.f (n - 0xC0)
  else .none

/-- Strands lanes on the words given (R13, R392). -/
def State.strand (s : State) (p : Path) (ls : List (Nat × Word)) : State :=
  ls.foldl (fun s e => s.modLane p.g p.w p.f e.1 (fun l => { l with st := .stranded e.2 })) s

end Sys2Proof.Machine
end

