-- ==== Sys2Proof/Machine/Region.lean ====
section
/-! DEFINITION. Stores, held stores and the end of a fibre: performing a store at its core (R250, R259), the quarantine
and its release (R394, R396, R403), clearing a ring (R400), the end of a fibre (R392, R402, R404). -/

namespace Sys2Proof.Machine

/-- Bytes of a memory type (R122, R257). -/
def tySize (ty : BitVec 5) : Nat :=
  match ty.toNat with
  | 2 => 2 | 3 => 2 | 4 => 1 | 5 => 1 | 9 => 8 | 6 => 8 | 7 => 8
  | _ => 4

/-- Extends the low bits of a word under a type (R95). -/
def extendTy (ty : BitVec 5) (v : Word) : Word :=
  match ty.toNat with
  | 2 => (v.setWidth 16).signExtend 32
  | 3 => (v.setWidth 16).setWidth 32
  | 4 => (v.setWidth 8).signExtend 32
  | 5 => (v.setWidth 8).setWidth 32
  | _ => v

/-- Ends the ownership of a word at once, with the acknowledgement still on its way to its owner: the owner's copy goes, its
value with it, and its waiting operations register again (R251, R305, R380). A Pending word whose REG has not arrived stays. -/
def State.disown (s : State) (wa : Nat) : State :=
  match sget s.owners wa with
  | none => s
  | some c =>
    let cut := fun (m : Msg) => if m.core == c && m.line == wa / 32 then
      { m with mask := m.mask &&& ~~~(wordBit wa), words := m.words.filter (fun e => e.1 != wa) } else m
    let s := { s with owners := sdel s.owners wa
                      msgs := s.msgs.map (fun (m : Msg) => if m.isAck then cut m else m)
                      holds := s.holds.map (fun (h : Hold) => { h with entered := h.entered.map cut }) }
    let s := match s.l1At c wa with
      | some { st := .owned, .. } => s.setL1 c wa none
      | some { st := .pending, .. } => if s.regWaits c wa then s else s.setL1 c wa none
      | _ => s
    s.chase c

def isFwd (k : MsgKind) : Bool := match k with
  | .fwd _ => true
  | _ => false
def isNoown (k : MsgKind) : Bool := match k with
  | .noown _ => true
  | _ => false

/-- Lends a written-back value to the reads that were forwarded to its core before another became the owner (R450). -/
def State.lendWord (s : State) (c wa : Nat) (v : MemWord) : State :=
  let k := fun (m : Msg) => if m.names c wa && (isFwd m.kind || isNoown m.kind) && (sget m.words wa).isNone then
    { m with words := sput m.words wa v } else m
  { s with msgs := s.msgs.map k }

/-- A claim or a write-back on its way to its home no longer changes a word there (R380). -/
def Msg.noClaim (wa : Nat) (m : Msg) : Msg :=
  if m.kind == .claim || m.kind == .wb then { m with words := m.words.filter (fun e => e.1 != wa) } else m

/-- What cores have written back or claimed of a word before a write takes its place at the home is earlier; it still serves the reads that
were forwarded to them (R380, R450). -/
def State.overtake (s : State) (wa : Nat) : State :=
  let s := s.msgs.foldl (fun (s : State) m => if m.kind != .wb then s else match sget m.words wa with
    | some v => s.lendWord m.core wa v
    | none => s) s
  { s with msgs := s.msgs.map (Msg.noClaim wa) }

/-- Who writes at a home: the context, whether the page is uncached, the command, message or execution that waits for what the write revokes,
and the core for which it writes. -/
structure Writer where
  ctx : Byte
  uc : Bool := false
  id : Nat := 0
  core : Option Nat := none

/-- A write takes a word from its owner (R251, R380): the home sends REV, and holds the line until it has arrived. A writer that nobody waits
for, and the owner's own, take it at once. DEDUCED (log 46). -/
def State.takeOver (s : State) (b : Writer) (wa : Nat) : State :=
  match sget s.owners wa with
  | none => s
  | some c =>
    if b.id = 0 || b.core == some c then s.disown wa else
    ({ s with owners := sdel s.owners wa } : State).startHold [wa / 32] .revoke [c] []
      (fun i c t => t.send (.rev false) c (wa / 32) (wordBit wa) [] b.ctx i) none b.id b.core

/-- A context's write to a home word by an engine, STT or a placement: it takes its place at the home, so an owner is
revoked, and what a core has written back or claimed before is earlier; the line's generation becomes `gen` (R305, R339, R380).
DEDUCED (log 46). -/
def State.engineWrite (s : State) (b : Writer) (wa : Nat) (v : MemWord) (gen : Nat) : State :=
  let s := ((if s.msgs.isEmpty then s else s.overtake wa).takeOver b wa).homeAccess (wa / 32) b.ctx b.uc true
  ({ s with gens := ssetD s.gens (wa / 32) gen 0 } : State).setHome wa v

/-- A write to a home word on behalf of a core, by its copy unit, its STT, or a pooled engine or placement that one of its commands
asked for: the core's reads on their way perform before it, and its own copy goes, so that its later loads find the write (R287,
R288, R305, R379). -/
def State.coreWrite (s : State) (core : Nat) (b : Writer) (wa : Nat) (v : MemWord) (gen : Nat) : State :=
  let c := s.agent core
  (((s.fixReads c wa).noAllocLine c (wa / 32)).setL1 c wa none).engineWrite { b with core := some c } wa v gen

/-- Whether writes on behalf of a core to some words can take their places at their homes: no transaction holds the lines, and the
core's own earlier stores to the words have arrived there (R287, R376, R380, R451). -/
def State.homeReady (s : State) (core : Nat) (was : List Nat) : Bool :=
  let c := s.agent core
  was.all (fun wa => !s.holds.any (fun h => h.lines.contains (wa / 32)) && !s.regOut c wa
    && (match s.l1At c wa with
      | some { st := .pending, .. } => false
      | _ => true))

/-- Whether a transaction of its home holds the line of one of some words: what arrives for it waits (R251, R451). -/
def State.wordsHeld (s : State) (was : List Nat) : Bool := was.any (fun wa => s.holds.any (fun h => h.lines.contains (wa / 32)))

/-- Writes bytes as whole words at their homes, for a context. -/
def State.putBytes (s : State) (ctx : Byte) (wa : Nat) : List Byte → State
  | [] => s
  | b0 :: b1 :: b2 :: b3 :: r =>
    (s.engineWrite { ctx := ctx } wa { val := BitVec.ofNat 32 (natOfBytes [b0, b1, b2, b3]) } 0).putBytes ctx (wa + 1) r
  | bs => s.engineWrite { ctx := ctx } wa { val := BitVec.ofNat 32 (natOfBytes bs) } 0

/-- The four words' bytes of a store at `dpa`. -/
def storeWordAt (data : DWord) (i : Nat) : Word := data.extractLsb' (32 * i) 32

/-- Whose store it is, and of which execution: for records, counts and order. -/
structure By where
  g : Nat
  w : Nat
  f : Nat
  lane : Nat
  pc : DWord
  va : DWord
  exec : Nat

/-- Adds an operation that waits for its words or its home (R250, R268, R293); words whose registration is not under way
are registered. -/
def State.addPend (s : State) (b : By) (core : Nat) (ctx : Byte) (dpa words : Nat) (r : Rmw) (prod : Option Nat)
    (uc : Bool) : State :=
  let (i, s) := s.newId
  let op : PendOp := { id := i, core := s.agent core, ctx := ctx, g := b.g, w := b.w, f := b.f, lane := b.lane, pc := b.pc,
                       va := b.va, dpa := dpa, words := words, rmw := r, prod := prod, uc := uc, exec := b.exec }
  let c := s.agent core
  let all := (List.range words).map (fun j => dpa / 4 + j)
  let s := if uc then all.foldl (fun (s : State) wa => s.fixReads c wa) s else s.ownLine c ctx (dpa / 128)
  let need := all.filter (fun wa => !s.regOut c wa && !s.isOwned c wa)
  let s := { s with pend := s.pend ++ [op] }
  if uc then s.send (.ucw i) c (dpa / 128) (wordBits all) [] ctx
  else if need.isEmpty then s
  else s.send (.reg true) c (dpa / 128) (wordBits need) [] ctx

/-- Performs one lane's flat store of `n` bytes at its core, or sends it to its home (R250); a sub-word store into a
poisoned word writes nothing and counts (R235, R245). -/
def State.flatStore (s : State) (b : By) (core : Nat) (ctx : Byte) (dpa : Nat) (uc : Bool) (n : Nat) (data : DWord) :
    State :=
  if uc then
    if n < 4 then
      s.addPend b core ctx (dpa / 4 * 4) 1 (.bytes (subMask (dpa % 4) n) (storeWordAt data 0 <<< (8 * (dpa % 4)))) none true
    else
      (List.range (n / 4)).foldl (fun s i =>
        s.addPend b core ctx (dpa + 4 * i) 1 (.bytes 15 (storeWordAt data i)) none true) s
  else if n < 4 then
    let wa := dpa / 4
    let v := storeWordAt data 0 <<< (8 * (dpa % 4))
    let s := s.ownLine core ctx (wa / 32)
    match s.l1At core wa with
    | some { st := .valid, .. } =>
      s.addPend b core ctx (wa * 4) 1 (.bytes (subMask (dpa % 4) n) v) none false
    | some e =>
      if e.word.bad then s.countPart b.exec b.g b.w b.f 0 b.pc [(b.lane, .new cECC b.va e.word.detail)]
      else s.storeWord core ctx wa { val := mergeBytes (subMask (dpa % 4) n) v e.word.val }
    | none => s.addPend b core ctx (wa * 4) 1 (.bytes (subMask (dpa % 4) n) v) none false
  else
    (List.range (n / 4)).foldl (fun s i =>
      s.storeWord core ctx (dpa / 4 + i) { val := storeWordAt data i }) s

/-- The poison word that an uncorrectable error leaves in a scratchpad word: its cause is ECC, and the rest is open (R235).
DESIGN CHOICE (log 55). -/
def eccWord (v : Word) : Word := (v &&& 0xFFFFF00F) ||| BitVec.ofNat 32 (16 * cECC)

/-- The error of a scratchpad word has been found: the word is a poison word (R235). -/
def State.spFound (s : State) (g i : Nat) : State :=
  let x := s.spAt g i
  if !x.fresh then s else
  let (n, s) := s.fresh
  s.setSp g i { x with val := eccWord (BitVec.ofNat 32 (Config.freeCount n)), fresh := false }

/-- The same for the words of `n` bytes, which an engine or the array reads. -/
def State.spFoundRun (s : State) (g off n : Nat) : State :=
  (List.range ((off % 4 + n + 3) / 4)).foldl (fun s i => s.spFound g (off / 4 + i)) s

/-- Performs one lane's scratchpad store of `n` bytes at offset `off` of group `g'` (R235, R259). -/
def State.spadStore (s : State) (b : By) (g' off n : Nat) (data : DWord) : State :=
  if n < 4 then
    let x := s.spAt g' (off / 4)
    if x.poison then
      (s.spFound g' (off / 4)).countPart b.exec b.g b.w b.f 0 b.pc [(b.lane, .new cECC b.va (if x.fresh then 0 else 1))]
    else s.setSp g' (off / 4)
      { x with val := mergeBytes (subMask (off % 4) n) (storeWordAt data 0 <<< (8 * (off % 4))) x.val }
  else
    (List.range (n / 4)).foldl (fun s i =>
      s.setSp g' (off / 4 + i) { s.spAt g' (off / 4 + i) with val := storeWordAt data i, poison := false, fresh := false }) s

/-- The bytes 10 to 15 of a record are 0, and byte 9 its new generation (R353). -/
def recordWith (rec : List Word) (gen : Nat) : List Word :=
  [rec.getD 0 0, rec.getD 1 0, (rec.getD 2 0 &&& 0xFF) ||| (BitVec.ofNat 32 gen <<< 8), 0]

/-- Writes a tile and its record at the record's home as one store (R340, R353); `unc` are the lines in uncached pages. -/
def State.tileStore (s : State) (core : Nat) (b : Writer) (unc : List Nat) (runs : List Nat) (words : List Word) (rdpa : Nat) (record : List Word) : State :=
  let g := (s.coherent (rdpa / 4 + 2)).val.toNat / 256 % 64
  let g' := (g + 1) % 64
  let by_ := fun (wa : Nat) => { b with uc := unc.contains (wa / 32) }
  let s := (runs.zip words).foldl (fun s e => s.coreWrite core (by_ (e.1 / 4)) (e.1 / 4) { val := e.2 } g') s
  ((List.range 4).zip (recordWith record g')).foldl (fun s e => s.coreWrite core (by_ (rdpa / 4)) (rdpa / 4 + e.1) { val := e.2 } 0) s

/-- Writes an accumulator (R354). -/
def State.accStore (s : State) (core : Nat) (b : Writer) (unc : List Nat) (runs : List Nat) (words : List Word) : State :=
  (runs.zip words).foldl (fun s e => s.coreWrite core { b with uc := unc.contains (e.1 / 128) } (e.1 / 4) { val := e.2 } 0) s

/-! Outstanding work of a fibre, and fences (R269). -/

/-- Whether a producer is one of the fibre's memory accesses. -/
def Prod.isMem (p : Prod) (g w f : Nat) : Bool :=
  p.g == g && p.w == w && p.f == f && (match p.kind with
    | .load => true
    | .atom => true
    | .park => true
    | .tile _ _ => true
    | .acc _ => true
    | _ => false)

def PendOp.of (p : PendOp) (g w f : Nat) : Bool := p.g == g && p.w == w && p.f == f
def ParkedFe.of (p : ParkedFe) (g w f : Nat) : Bool := p.ig == g && p.w == w && p.f == f

/-- Whether the accesses of the fibre that were begun before `n` have all performed (R269, R280). -/
def State.performedBefore (s : State) (g w f n : Nat) : Bool :=
  s.prods.all (fun p => !p.isMem g w f || decide (n ≤ p.id) || p.items.all (fun i => i.got.isSome))
    && !s.pend.any (fun p => p.of g w f && decide (p.id < n)) && !s.parkedAll.any (fun p => p.of g w f && decide (p.id < n))

/-- Whether the fibre's earlier accesses have all performed: REL's conditions but for registrations (R269, R280). -/
def State.fibrePerformed (s : State) (g w f : Nat) : Bool := s.performedBefore g w f s.idN

/-- REL's conditions (R269). -/
def State.relReady (s : State) (g w f : Nat) : Bool :=
  s.fibrePerformed g w f && !s.anyPending (s.groupAt g).core

/-- Whether every load and atomic of the fibre begun before `n` has its data (R269). -/
def State.dataBefore (s : State) (g w f n : Nat) : Bool := !s.prods.any (fun p => p.isMem g w f && decide (p.id < n))

/-- ACQ's condition: every earlier load and atomic of the fibre has its data (R269). -/
def State.acqReady (s : State) (g w f : Nat) : Bool := s.dataBefore g w f s.idN

/-- Whether what a release waits for has come (R269). -/
def State.relDone (s : State) (g w f n : Nat) : Bool := s.performedBefore g w f n && !s.anyPending (s.groupAt g).core

/-- A release of a fibre that is still to complete (R269). -/
def State.relOut (s : State) (g w f n : Nat) : Bool :=
  (s.fibreAt g w f).fences.any (fun e => e.rel && e.id == n) && !s.relDone g w f n

/-- Whether the releases whose register writes a fibre has read have completed (R291). DEDUCED (log 144). -/
def State.handedOver (s : State) (g w : Nat) (after : List (Nat × Nat)) : Bool := after.all (fun a => !s.relOut g w a.1 a.2)

/-- Whether a fence can complete (R269, R291). -/
def State.fenceDone (s : State) (g w f : Nat) (e : Fence) : Bool :=
  (!e.rel || s.relDone g w f e.id) && (!e.acq || (s.dataBefore g w f e.id && s.handedOver g w e.after))

/-- Completes the fibre's fences whose conditions hold, oldest first; an acquire makes the L1's Valid words Invalid (R269). -/
def State.settleFences (s : State) (g w f : Nat) : State :=
  (s.fibreAt g w f).fences.foldl (fun s e =>
    if !s.fenceDone g w f e then s else
    let s := s.modFibre g w f (fun x => { x with fences := x.fences.filter (fun k => k != e) })
    if e.acq then s.acquire (s.groupAt g).core else s) s

/-- Instructions that an outstanding release holds: stores, STS, STFE, atomics and RED (R269), with SIGC, which is an atomic (R374),
and CMT, which performs held stores (R396). -/
def relHolds (op : Nat) : Bool := [0x81, 0x83, 0x85, 0x87, 0x89, 0x8B, 0x90, 0x91, 0x92, 0x93, 0xA9, 0xE1].contains op
/-- Instructions that an outstanding acquire holds: every memory access (R269), and others that read or write memory for their fibre
(R373, R374, R383, R490). A core release waits for it too (R280, R284). -/
def acqHolds (op : Nat) : Bool :=
  (decide (0x80 ≤ op) && decide (op ≤ 0x93)) || [0xA8, 0xA9, 0xE1, 0xE5].contains op || (decide (0xD0 ≤ op) && decide (op ≤ 0xD5))

/-- Whether an outstanding fence of the fibre holds an instruction (R269). -/
def State.fenceHolds (s : State) (g w f op : Nat) : Bool :=
  (s.fibreAt g w f).fences.any (fun e => (e.rel && relHolds op) || (e.acq && acqHolds op))

/-- Whether an acquire of the fibre is still to complete. -/
def State.acqOut (s : State) (g w f : Nat) : Bool := (s.fibreAt g w f).fences.any (fun e => e.acq)

/-- A register word that the array is writing shows one of the values `can` that it has held since the matrix instruction first wrote it,
by free value `k`, unless something else wrote it since. -/
def driftWord (rs : Sparse RegWord) (k n : Nat) (can : List RegWord) : Sparse RegWord :=
  let v := sgetD rs n {}
  if !v.full || !can.any (fun u => u.val == v.val && u.poison == v.poison) then rs
  else ssetD rs n { (can.getD (Config.freeCount k % can.length) v) with full := true } {}

/-- What the register words of a run that the array is writing show to an instruction that does not wait for their tags (R325).
DESIGN CHOICE (log 76). -/
def State.driftRun (s : State) (g w n : Nat) (hist : List (List RegWord)) (is : List Nat) : State :=
  let k := s.freeN
  { s with freeN := k + 256 }.modWarp g w (fun x =>
    { x with regs := is.foldl (fun rs i => driftWord rs (k + i) (n + i) (hist.map (fun (ws : List RegWord) => ws.getD i {}))) x.regs })

/-- Whether a matrix instruction has written its last k-step to output tile `t` (R325). -/
def MatrixOp.wrote (o : MatrixOp) (t : Nat) : Bool := decide ((o.k - 1) * max 1 (o.m * o.n) + t < o.pos)

/-- The same for every run that the array is writing for the warp; of a tile whose last k-step is written, for the words that were full
before: their reads do not wait. -/
def State.drift (s : State) (g w : Nat) : State :=
  ((s.groupAt g).seq.ops.filter (fun o => o.w == w)).foldl (fun s o =>
    (o.outs.mapIdx (fun t r => (t, r))).foldl (fun s e =>
      s.driftRun g w (o.accs.getD e.1 0) e.2.hist (if o.wrote e.1 then e.2.early else List.range 256)) s) s

/-- A word of a finished tile holds again what its last k-step wrote, unless something else wrote it since. -/
def undriftWord (rs : Sparse RegWord) (n : Nat) (can : List RegWord) : Sparse RegWord :=
  let v := sgetD rs n {}
  if !v.full || !can.any (fun u => u.val == v.val && u.poison == v.poison) then rs
  else ssetD rs n { (can.getLastD v) with full := true } {}

/-- The finished tiles of a matrix instruction hold what their last k-steps wrote, as the array and whoever waits for it find them
(R321, R324, R361). -/
def State.undriftOp (s : State) (g : Nat) (o : MatrixOp) : State :=
  s.modWarp g o.w (fun x =>
    { x with regs := ((o.outs.mapIdx (fun t r => (t, r))).filter (fun e => o.wrote e.1)).foldl (fun rs e =>
        e.2.early.foldl (fun rs i => undriftWord rs (o.accs.getD e.1 0 + i) (e.2.hist.map (fun (ws : List RegWord) => ws.getD i {}))) rs) x.regs })

/-- The same for every matrix instruction of a group in flight. -/
def State.undrift (s : State) (g : Nat) : State := (s.groupAt g).seq.ops.foldl (fun s o => s.undriftOp g o) s

/-- What an execution of a fibre finds: fences that can complete have completed (R269), and words that the array is writing show one of
their values (R325). -/
def State.settle (s : State) (g w f : Nat) : State := (s.settleFences g w f).drift g w

/-! The quarantine. -/

/-- Whether an entry holds poison (R394). -/
def QEntry.poisoned (e : QEntry) : Bool := e.bad.isSome || e.lanes.any (fun l => l.bad.isSome)

/-- The cause of an entry's first poison. -/
def QEntry.firstBad (e : QEntry) : Option Word :=
  match e.bad with
  | some w => some w
  | none => e.lanes.findSome? (fun l => l.bad)

/-- Bytes that a held entry writes: a scratchpad group (or memory) with byte addresses and their bytes (R396). -/
def QEntry.writes (e : QEntry) : List (Bool × Nat × Byte) :=
  let n := tySize e.ty
  match e.kind with
  | .stfe => []
  | .stt => if e.poisoned then [] else
      (e.runs.zip e.words).flatMap (fun r => (List.range 4).map (fun i => (false, r.1 + i, (bytesOfNat r.2.toNat 4).getD i 0)))
        ++ ((List.range 4).zip e.record).flatMap (fun r =>
          (List.range 4).map (fun i => (false, e.rdpa + 4 * r.1 + i, (bytesOfNat r.2.toNat 4).getD i 0)))
  | .stac => if e.poisoned then [] else
      (e.runs.zip e.words).flatMap (fun r => (List.range 4).map (fun i => (false, r.1 + i, (bytesOfNat r.2.toNat 4).getD i 0)))
  | k => e.lanes.flatMap (fun l => if l.bad.isSome then [] else
      (List.range n).map (fun i => (k == .sts, l.addr + i, (bytesOfNat l.data.toNat 8).getD i 0)))

/-- The newest held byte of a fibre at an address, if any (R396). Scratchpad addresses are group · 2^24 + offset. -/
def heldByte (x : Fibre) (spad : Bool) (a : Nat) : Option Byte :=
  ((x.quar.flatMap QEntry.writes).reverse.find? (fun e => e.1 == spad && e.2.1 == a)).map (fun e => e.2.2)

/-- Overlays held bytes on a word (R396). -/
def overlay (bs : List (Option Byte)) (v : Word) : Word :=
  BitVec.ofNat 32 (natOfBytes ((bytesOfNat v.toNat 4).mapIdx (fun i b => (bs.getD i none).getD b)))

/-- Whether two accesses are one lane's, to one word (R262). -/
def ParkedFe.sameLane (p q : ParkedFe) : Bool :=
  p.ig == q.ig && p.w == q.w && p.f == q.f && p.lane == q.lane && p.g == q.g && p.off / 4 == q.off / 4

/-- A held STS of one lane performs, or waits behind the lane's parked access to its word (R259, R262, R403). -/
def State.releaseSts (s : State) (b : By) (g' off n : Nat) (data : DWord) : State :=
  let one := fun (s : State) (off n : Nat) (d : Word) =>
    let p : ParkedFe := { id := s.idN, exec := b.exec, g := g', off := off, op := .store n, ig := b.g, w := b.w, f := b.f
                          lane := b.lane, pc := b.pc, addr := b.va.setWidth 32, data := d }
    if (s.coreAt (s.groupAt g').core).parked.any (fun q => q.sameLane p) then
      s.newId.2.modCore (s.groupAt g').core (fun c => { c with parked := c.parked ++ [p] })
    else s.spadStore b g' off n (d.setWidth 64)
  if n < 4 then one s off n (storeWordAt data 0)
  else (List.range (n / 4)).foldl (fun s i => one s (off + 4 * i) 4 (storeWordAt data i)) s

/-- Releases one entry: each participant performs as its instruction would now, and the access table is tested now; gives the
refusals (R394, R403). -/
def State.releaseEntry (s : State) (g w f : Nat) (e : QEntry) : State × List (Nat × Val) :=
  let core := (s.groupAt g).core
  let ctx := (s.groupAt g).ctx
  let n := tySize e.ty
  let unit := fun (l : QLane) => if e.kind == .stu then 255 else l.lane
  let b : QLane → By := fun l => { g := g, w := w, f := f, lane := unit l, pc := e.pc, va := l.va, exec := e.exec }
  match e.kind with
  | .stfe => (s, [])
  | .sts =>
    let no := fun (l : QLane) => s.spBars g (l.addr / 2 ^ 24)
    (e.lanes.foldl (fun s l => if no l then s else s.releaseSts (b l) (l.addr / 2 ^ 24) (l.addr % 2 ^ 24) n l.data) s,
      (e.lanes.filter no).map (fun l => (unit l, .new cPAGE l.va 4)))
  | .stt =>
    let g := s.coherent (e.rdpa / 4 + 2)
    match (e.rdpa :: e.runs).findSome? (fun a => s.refused ctx a true) with
    | some (c, d) => (s, [(e.tidx, .new c e.va d)])
    | none => if g.bad then (s, [(e.tidx, .new cECC e.rva g.detail)])
      else (s.tileStore core { ctx := ctx, id := e.exec } e.uncached e.runs e.words e.rdpa e.record, [])
  | .stac =>
    match e.runs.findSome? (fun a => s.refused ctx a true) with
    | some (c, d) => (s, [(e.tidx, .new c e.va d)])
    | none => (s.accStore core { ctx := ctx, id := e.exec } e.uncached e.runs e.words, [])
  | _ =>
    let bads := e.lanes.filterMap (fun l => (s.refused ctx l.addr true).map (fun r => (unit l, Val.new r.1 l.va r.2)))
    (e.lanes.foldl (fun s l => if (s.refused ctx l.addr true).isSome then s
      else s.flatStore (b l) core ctx l.addr l.uc n l.data) s, bads)

/-- Discards a ring's records; UNR records go to the status area (R400, R404). -/
def State.dropRing (s : State) (g w f : Nat) : State :=
  let gr := s.groupAt g
  let un := (s.fibreAt g w f).ring.filter (fun r => r.cause != 0 && r.flags &&& flagUNR != 0)
  let s := un.foldl (fun s r => s.launchCart gr.lsn gr.stage r) s
  (s.tallyGone g w f).modFibre g w f (fun x => { x with ring := List.replicate 16 {} })

/-- Clears a ring: its records go, and RIDX is 0 (R400). -/
def State.clearRing (s : State) (g w f : Nat) : State :=
  (s.dropRing g w f).modFibre g w f (fun x => { x with fstat := withRidx x.fstat 0 })

/-- Closes the region (R399). -/
def closeRegion (x : Fibre) : Fibre :=
  { x with fstat := x.fstat &&& 0xFFFFFF3F, quar := [], releasing := none, replays := 0 }

/-- Fails the group's launch when a fibre ends with unresolved poison or an UNR record (R404). -/
def State.failIfUnresolved (s : State) (g w f : Nat) : State :=
  let x := s.fibreAt g w f
  if unresOf x.fstat != 0 || x.ring.any (fun r => r.cause != 0 && r.flags &&& flagUNR != 0) then s.failGroup g else s

/-- Where one lane's access goes, or why it makes none. -/
inductive Loc where
  | mem (va : DWord) (dpa : Nat) (uc : Bool)
  | sp (addr : Word) (g off : Nat)
  | bad (v : Val)

/-- Whether bytes [lo, lo + n) meet a scoreboard range (R311). -/
def Score.meets (e : Score) (ctx : Byte) (l : Loc) (n : Nat) (write fe : Bool) : Bool :=
  (e.write || write) && !(fe && e.few) && (match e.range, l with
    | .mem lo hi, .mem va _ _ => e.ctx == ctx && decide (va.toNat < hi) && decide (lo < va.toNat + n)
    | .spad g lo hi, .sp _ g' off => g == g' && decide (off < hi) && decide (lo < off + n)
    | _, _ => false)

/-- Whether a held store must still wait at its release: it meets a command's range (R396, R403), or waits for its line's place in the L1,
or for earlier stores to reach their homes (R287, R450). -/
def State.entryBlocked (s : State) (g : Nat) (e : QEntry) : Bool :=
  let gr := s.groupAt g
  let hits : Loc → Nat → Bool := fun l n => (s.coreAt gr.core).score.any (fun k => k.meets gr.ctx l n true false)
  let good := e.lanes.filter (fun l => l.bad.isNone)
  let home := fun (as_ : List Nat) => !s.homeReady gr.core (as_.map (fun a => a / 4))
  match e.kind with
  | .stfe => false
  | .stt => hits (.mem e.va 0 false) (4 * e.words.length) || hits (.mem e.rva 0 false) 16
      || home (e.runs ++ [e.rdpa, e.rdpa + 4, e.rdpa + 8, e.rdpa + 12])
  | .stac => hits (.mem e.va 0 false) 1024 || home e.runs
  | .sts => good.any (fun l => hits (.sp 0 (l.addr / 2 ^ 24) (l.addr % 2 ^ 24)) (tySize e.ty))
  | _ => good.any (fun l => hits (.mem l.va 0 false) (tySize e.ty))
      || !s.l1Ready gr.core gr.ctx ((good.filter (fun l => !l.uc)).map (fun l => l.addr / 128)).eraseDups

/-- Releases a fibre's held stores in the order they were held, up to the first that must wait (R403); refusals of one execution count
together (R397). -/
def State.releaseList (s : State) (g w f : Nat) : List QEntry → State
  | [] => s
  | e :: r =>
    if s.entryBlocked g e then s else
    let o := s.releaseEntry g w f e
    let flags : Byte := if e.kind == .stt || e.kind == .stac then flagTILE else 0
    let s := o.1.countPart e.exec g w f flags e.pc o.2
    (s.modFibre g w f (fun y => { y with quar := y.quar.tail, releasing := y.releasing.map (fun k => (k.1, k.2 ++ [e.exec])) })).releaseList
      g w f r

/-- The commit at `pc` goes on releasing the fibre's held stores (R403). -/
def State.releaseMore (s : State) (g w f : Nat) (pc : DWord) : State :=
  let s := s.modFibre g w f (fun y => { y with releasing := some (y.releasing.getD (pc, [])) })
  s.releaseList g w f (s.fibreAt g w f).quar

/-- Whether the release is complete: every held store has been performed (R403). DEDUCED (log 141). -/
def State.releaseDone (s : State) (g w f : Nat) : Bool :=
  let y := s.fibreAt g w f
  let ids := (y.releasing.map (fun k => k.2)).getD []
  y.quar.isEmpty && !s.pend.any (fun p => ids.contains p.exec) && !s.parkedAll.any (fun p => ids.contains p.exec) && !ids.any s.revoking

/-- The poison of a fibre's first poisoned entry, as its count names it: the entry's lanes with the entry's first cause, or its
tile (R397, R402). -/
def QEntry.endBads (e : QEntry) : List (Nat × Val) :=
  let unit := fun (l : QLane) => if e.kind == .stu then 255 else l.lane
  match e.bad, e.firstBad with
  | some v, _ => [(e.tidx, .ok (badWord v))]
  | none, some v => e.lanes.filterMap (fun l => match l.bad with
      | some u => if causeOf u == causeOf v then some (unit l, Val.ok (badWord u)) else none
      | none => none)
  | none, none => []

/-- Whether the implicit commit of a fibre that ends releases its held stores: none of them is poisoned (R402). -/
def Fibre.endReleases (x : Fibre) : Bool := x.inRegion && (x.releasing.isSome || !x.quar.any QEntry.poisoned)

/-- The implicit commit of a fibre that ends with its region open (R402), once its entries are released; where one is poisoned they are
discarded and counted once. -/
def State.implicitCommit (s : State) (g w f : Nat) : State :=
  let x := s.fibreAt g w f
  if !x.inRegion then s else
  match x.quar.find? QEntry.poisoned with
  | none => s.modFibre g w f closeRegion
  | some e => (s.modFibre g w f closeRegion).countBad g w f (if e.kind == .stt || e.kind == .stac then flagTILE else 0) e.pc e.endBads

/-- The end of a fibre whose lanes have all exited or stranded (R392, R402, R404, R210): the implicit commit, the
stranded lanes' count, barrier memberships, the ring. -/
def State.endFibre (s : State) (g w f : Nat) : State :=
  let s := s.implicitCommit g w f
  let str : List (Nat × Word) := (List.range 32).filterMap (fun l => match (s.laneAt g w f l).st with
    | .stranded v => some (l, v)
    | _ => none)
  let s := match str with
    | [] => s
    | (l, v) :: _ =>
      s.modFibre g w f (fun x =>
        let r := s.placeCart g w f { cause := BitVec.ofNat 8 (causeOf v), flags := flagUNR, unit := BitVec.ofNat 8 l,
                                     pc := originPc x v, lanes := maskOf (str.map (fun (e : Nat × Word) => e.1)) }
        ringPut { x with fstat := withUnres x.fstat (unresOf x.fstat + 1) } r)
  let s := s.modFibre g w f (fun x => mapLanes x (fun l => if l.st.isStranded then { l with st := .exited } else l))
  let s := s.leave g (membersOf w f (str.map (fun (e : Nat × Word) => e.1)) ++ [Member.fibre w f])
  (((s.failIfUnresolved g w f).clearRing g w f).settleFbar g w).modGroup g Group.settleAps

/-- Whether a fibre has lost its last lane able to go on (R392, R402). -/
def Fibre.atEnd (x : Fibre) : Bool :=
  x.frozen.isNone && x.park.isNone && x.lanes.all (fun l => l.st == .exited || l.st.isStranded)

/-- Whether the end of such a fibre is still to come: an implicit commit may wait (R392, R402, R403). -/
def Fibre.endDue (x : Fibre) : Bool := x.atEnd && (x.inRegion || x.lanes.any (fun l => l.st.isStranded))

/-- The end of a fibre goes as far as the release of its held stores lets it (R392, R402, R403). -/
def State.endStep (s : State) (g w f : Nat) : State :=
  if !(s.fibreAt g w f).endReleases then s.endFibre g w f else
  let s := s.releaseMore g w f 0
  if s.releaseDone g w f then s.endFibre g w f else s

/-- Ends a fibre that has just lost its last lane able to go on (R392, R402). -/
def State.endCheck (s : State) (g w f : Nat) : State := if (s.fibreAt g w f).atEnd then s.endStep g w f else s

end Sys2Proof.Machine
end

