-- ==== Sys2Proof/Machine/Issue.lean ====
section
/-! DEFINITION. Executing one instruction for one path: guards (R13, R29), windows (R168), waiting and freezing (R26,
R206), and moving past the instruction (R28, R31, R172); the same for an access processor (R90, R93). -/

namespace Sys2Proof.Machine

/-- How an execution ends: its path is not ready (R172), or not ready with something noted (R361); it freezes its fibre (R26), or it takes effect, with the lanes
that leave for another PC. -/
inductive Out where
  | wait
  | hold (note : State → State)
  | freeze (cause : Nat)
  | ok (s : State) (jumps : List (Nat × DWord))

/-- The register ranges an instruction names beyond its operand codes, as (kind, first, count): tiles 0, accumulators 1,
vector words 2 (R204, R344, R407). -/
def namedRanges (op : Nat) (f : Fields) : List (Nat × Nat × Nat) :=
  let d := f.d.toNat
  let a := f.a.toNat
  let n := f.b6.toNat + 1
  match op with
  | 0x60 => [(0, d, n), (1, a, n)]
  | 0x61 => [(1, d, n), (0, a, n)]
  | 0x62 => [(0, d, n), (1, a, n)]
  | 0x63 => [(1, d, n), (1, a, n)]
  | 0x64 => if f.sub.getLsbD 0 then [(1, d, n), (1, a, n)] else [(0, d, n), (0, a, n)]
  | 0x88 => [(0, d, n)]
  | 0x89 => [(0, d, n)]
  | 0x8A => [(1, d, n)]
  | 0x8B => [(1, d, n)]
  | 0xA6 => [((if f.sub.toNat / 2 = 0 then 2 else f.sub.toNat / 2 - 1), d, n)]
  | 0xA7 => [((if f.sub.toNat / 2 = 0 then 2 else f.sub.toNat / 2 - 1), a, n)]
  | 0xE1 => if f.b6.toNat = 0 then [] else [(2, d, f.b6.toNat)]
  | 0xE3 => if f.sub = 1 then [(0, d, 1)] else if f.sub = 2 then [(1, d, 1)] else []
  | _ => []

/-- The words of a range: the first, and how many (R167). -/
def rangeWords (x : Fibre) (r : Nat × Nat × Nat) : Nat × Nat :=
  match r.1 with
  | 0 => (tileOff x.vtile r.2.1, tileWords x.vtile * r.2.2)
  | 1 => (accOff x.vacc r.2.1, 256 * r.2.2)
  | _ => (vecOff x r.2.1, 32 * r.2.2)

/-- Whether a range lies in the fibre's window (R167, R168). -/
def rangeIn (x : Fibre) (r : Nat × Nat × Nat) : Bool := inWindow x.win (rangeWords x r).1 (rangeWords x r).2

/-- The range of a vector operand code. -/
def opRange (c : Cls) (code : BitVec 8) : Option (Nat × Nat × Nat) :=
  if Cls.isRegs c && decide (code.toNat < 0xC0) then some (2, code.toNat, if Cls.isPair c then 2 else 1) else none

/-- Whether a vector operand code lies in the window. -/
def codeIn (x : Fibre) (c : Cls) (code : BitVec 8) : Bool := (opRange c code).all (rangeIn x)

/-- Whether every register the instruction names lies in the window (R168). DESIGN CHOICE (log 140): A of NBR and CXS is tested too,
where it stands in the reader's own view, though R177 locates the word it reads elsewhere. -/
def windowOk (x : Fibre) (op : Nat) (k : OpSpec) (f : Fields) : Bool :=
  codeIn x k.d f.d && codeIn x k.a f.a && codeIn x k.b f.b && codeIn x k.c f.c && (namedRanges op f).all (rangeIn x)

/-- The guard of a lane (R13, R29): true, false, or the poison word of its predicate. -/
inductive GuardVal where
  | yes | no | bad (w : Word)
deriving DecidableEq, Repr

def State.guardOf (s : State) (p : Path) (f : Fields) (lane : Nat) : GuardVal :=
  let v := s.predAt p lane f.pg.toNat
  match v.bad with
  | some w => .bad w
  | none => if v.val != f.pn then .yes else .no

/-- Lanes of the path that take part, and lanes stranded by a poisoned guard (R13, R191). -/
def State.partsOf (s : State) (p : Path) (f : Fields) : List Nat :=
  (lanesOf p.mask).filter (fun l => s.guardOf p f l == .yes)
def State.guardBad (s : State) (p : Path) (f : Fields) : List (Nat × Word) :=
  (lanesOf p.mask).filterMap (fun l => match s.guardOf p f l with
    | .bad w => some (l, w)
    | _ => none)

/-- Moves one lane past an execution (R28, R31): to its jump, to the next execution of a repeat, or to the next
instruction. A stranded lane keeps its PC (R392). -/
def moveLane (p : Path) (next : DWord) (jump : Option DWord) (l : Lane) : Lane :=
  match l.st with
  | .stranded _ => { l with rep := none, inst := {}, age := 0 }
  | .exited => { l with rep := none, inst := {}, age := 0 }
  | _ =>
    match jump with
    | some t => { l with pc := pcOf t, rep := none, inst := {}, age := 0 }
    | none =>
      match p.rep with
      | some (x, k) => if k < x.rep.toNat then { l with pc := p.pc, rep := some (x, k + 1), inst := p.inst, age := 0 }
                       else { l with pc := pcOf next, rep := none, inst := {}, age := 0 }
      | none => { l with pc := pcOf next, rep := none, inst := {}, age := 0 }

/-- Moves every lane of the path. -/
def State.advance (s : State) (p : Path) (next : DWord) (jumps : List (Nat × DWord)) : State :=
  s.modFibre p.g p.w p.f (fun x => { x with lanes := x.lanes.mapIdx (fun i l =>
    if p.mask.getLsbD i then moveLane p next ((jumps.find? (fun j => j.1 == i)).map (·.2)) l else l) })

/-- A change that may make a waiting path ready: paths found waiting are tested again. -/
def State.wake (s : State) : State := { s with blocked := [] }

/-- Notes the lanes that have issued in this opportunity, with the registers as they stood before (R172, R173). -/
def State.noteIssue (s : State) (before : State) (p : Path) : State :=
  let old := match before.opp with
    | some o => if p.second then some o else none
    | none => none
  { s with opp := some (match old with
    | some o => { o with issued := o.issued ||| p.mask }
    | none => { g := p.g, w := p.w, f := p.f, issued := p.mask, fib := before.fibreAt p.g p.w p.f,
                regs := (before.warpAt p.g p.w).regs }) }

/-- An active lane that has not issued ages by 1 (R172). -/
def ageLane (issued : Word) (i : Nat) (l : Lane) : Lane :=
  if l.st.isActive && !issued.getLsbD i then { l with age := l.age + 1 } else l

/-- Ends an issue opportunity: barriers take the cycle's arrivals (R201), and lanes that did not issue age (R172). -/
def State.endCycle (s : State) (p : Path) : State :=
  let s := match s.opp with
    | none => s
    | some o =>
      let s := s.modFibre p.g p.w p.f (fun x => { x with lanes := x.lanes.mapIdx (ageLane o.issued) })
      { s with opp := none }
  let mine := ((s.groupAt p.g).core, s.unitOf p.g p.w)
  let still := fun (e : Nat × Nat) => e != mine
  { ((s.flush p.g).settleFbar p.g p.w).forgetTallies with perfRead := [], late := s.late.filter still }

/-- Whether a lane is in the middle of a repeat. -/
def Lane.midRepeat (l : Lane) : Bool :=
  l.st.isActive && (match l.rep with
    | some (_, k) => k != 0
    | none => false)

/-- What an execution leaves in a fibre beside its lanes: which of them carried SW (R178), and the repeats that are path one, to
which path one's own belongs from its first execution on (R172). -/
def noteFibre (p : Path) (y : Fibre) : Fibre :=
  let mid := maskOf (lanesWhere y Lane.midRepeat)
  let ones := (y.ones.map (fun m => m &&& mid)).filter (fun m => m != 0)
  { y with swLanes := (y.swLanes &&& ~~~p.mask) ||| (if (p.rep.map (fun r => r.1.sw)).getD false then p.mask else 0)
           ones := if p.second || p.mask &&& mid == 0 || ones.any (fun m => m &&& p.mask != 0) then ones
                   else ones ++ [p.mask &&& mid] }

/-- Ends an execution that took effect: lanes move on, an ended fibre settles (R210, R392), and path two follows or the
cycle ends (R172, R203). -/
def State.retire (s before : State) (p : Path) (q : Option Path) (next : DWord) (jumps : List (Nat × DWord)) : State :=
  let s := (s.advance p next jumps).modFibre p.g p.w p.f (noteFibre p)
  let s := ((s.noteIssue before p).endCheck p.g p.w p.f).wake
  match q with
  | some q => { s with turn := .issue q none }
  | none => { s.endCycle p with turn := .choose }

/-- What a path's lanes hold of a repeated instruction from before its first execution (R28, R138). -/
def Path.held (p : Path) : Kept :=
  match p.rep with
  | some (_, k) => if k = 0 then {} else p.inst
  | none => {}

/-- The path is not ready: another is chosen (R172). -/
def State.blockPath (s : State) (p : Path) : State :=
  { s with blocked := { p with mask := 0, second := false, word := 0, inst := p.held } :: s.blocked, turn := .choose }

/-- Freezes the path's fibre at its instruction (R26, R92); its ring's records go, and FSTAT keeps its value (R26, R404). -/
def State.freezePath (s : State) (p : Path) (cause : Nat) : State :=
  let s := s.freeze p.g p.w p.f cause p.pc p.word
  let s := ((s.failIfUnresolved p.g p.w p.f).dropRing p.g p.w p.f).endCycle p
  { s.wake with turn := .choose }

/-- The operand that receives an instruction's words: B for CALL, D for the rest; stores write no register (R406). -/
def lateCode (x : Ex) : Cls × BitVec 8 :=
  if x.op == 0x04 then (x.k.b, x.f.b)
  else if [0x81, 0x83, 0x85, 0x87, 0x89, 0x8B].contains x.op then (.no, 0xF8) else (x.k.d, x.f.d)

/-- The register words that an instruction's operand code names as its destination, each with its half and lane. -/
def lateDests (x : Ex) : List (Nat × Nat) :=
  let d := lateCode x
  let halves := if Cls.isPair d.1 then [0, 1] else [0]
  if !Cls.isRegs d.1 || 0xF0 ≤ d.2.toNat then []
  else if d.2.toNat < 0xC0 then x.parts.flatMap (fun l => halves.map (fun h => (h, l))) else halves.map (fun h => (h, x.low))

/-- The tiles or accumulators that a tile instruction or PSET writes, each with the words of its footprint (R344, R406). -/
def lateTiles (x : Ex) (y : Fibre) : List (Nat × List Nat) :=
  if x.parts.isEmpty || !([0x60, 0x61, 0x62, 0x63, 0x64, 0xE3].contains x.op) then [] else
  ((namedRanges x.op x.f).take 1).flatMap (fun r => (List.range r.2.2).map (fun i =>
    let n := r.2.1 + i
    (n, if r.1 = 0 then (List.range (tileWords y.vtile)).map (fun j => tileOff y.vtile n + j)
        else (List.range 256).map (fun j => accOff y.vacc n + j))))

/-- What a cycle flagged late a second time leaves (R406): the destination words its instruction has written are
Poison(TIMING), and lanes that it sends to a branch target are stranded. -/
def State.lateMarks (s : State) (x : Ex) (jumps : List (Nat × DWord)) : State × List (Nat × DWord) :=
  match s.lateUnit x with
  | none => (s, jumps)
  | some u =>
    let code := (lateCode x).2
    let good := fun (w : RegWord) => w.full && !w.poison
    let now := fun (h l : Nat) => if code.toNat < 0xC0 then s.regAt x.p.g x.p.w (vecOff (x.fibre s) (code.toNat + h) + l)
      else s.uregAt x.p.g x.p.w x.p.f (code.toNat + h - 0xC0)
    let clean := (lateDests x).filter (fun d => good (now d.1 d.2))
    let tiles := ((lateTiles x (x.fibre s)).map (fun t => (t.1, t.2.filter (fun o => good (s.regAt x.p.g x.p.w o))))).filter (fun t => !t.2.isEmpty)
    let v := Val.new cTIMING 0 (BitVec.ofNat 32 u)
    let marked := clean.map (fun d => d.2) ++ jumps.map (fun j => j.1)
    let (s, tbl) := s.makePoison x.p.g x.p.w x.p.f flagTILE x.p.pc (tiles.map (fun t => (t.1, v)))
    let s := tiles.foldl (fun s t => t.2.foldl (fun s o => s.setReg x.p.g x.p.w o (v.word tbl)) s) s
    let (s, tbl) := s.makePoison x.p.g x.p.w x.p.f 0 x.p.pc (marked.map (fun l => (l, v)))
    let s := clean.foldl (fun s d => s.putWord x code d.1 d.2 (v.word tbl)) s
    (s.strand x.p (jumps.map (fun j => (j.1, (v.word tbl).val))), [])

/-- What an execution of opcode `op` with fields `f` for a path works with. -/
def State.exOf (s : State) (p : Path) (op : Nat) (f : Fields) : Ex :=
  { p := p, op := op, f := f, k := (opSpec op f).getD { forms := [] }, parts := s.partsOf p f }

/-- The start of an execution: path one's flags of the cycle are still to come (R16), and lanes whose guard is poisoned are
stranded (R13). -/
def State.prep (s : State) (p : Path) (f : Fields) : State :=
  (if p.second then s else s.modFibre p.g p.w p.f (fun y => { y with raised := 0 })).strand p (s.guardBad p f)

/-- Instructions that act once for their fibre (R175, R187, R269, R274, R276, R343, R408, R471, R489). -/
def actsOnce (op : Nat) (f : Fields) : Bool :=
  [0x02, 0x07, 0x08, 0x09, 0x0A, 0x0B, 0x0C, 0x43, 0x45, 0x46, 0x60, 0x61, 0x62, 0x63, 0x64, 0x84, 0x85, 0x88, 0x89, 0x8A, 0x8B, 0x8C,
    0x94, 0x95, 0x96, 0xA0, 0xA8, 0xA9, 0xBC, 0xBD, 0xBE, 0xC0, 0xC1, 0xC2, 0xC3, 0xC4, 0xC7, 0xC8, 0xD0, 0xD2, 0xD3, 0xD5, 0xE0,
    0xE1, 0xE5, 0xE7].contains op
  || (match op with
    | 0xA1 => f.sub.getLsbD 0
    | 0xA2 => f.sub.getLsbD 1
    | 0xA3 => f.sub.getLsbD 0
    | 0xA6 => f.sub.toNat / 2 != 0
    | 0xA7 => f.sub.toNat / 2 != 0
    | 0xD1 => !f.sub.getLsbD 0
    | 0xE2 => f.sub.toNat % 4 == 2
    | 0xE3 => f.sub != 0
    | 0xE4 => f.sub.getLsbD 0
    | _ => false)

/-- An instruction that acts once orders the accesses of all lanes: those begun before it come before those after it (R278). -/
def State.joinLanes (s : State) (x : Ex) : State :=
  if actsOnce x.op x.f then s.modFibre x.p.g x.p.w x.p.f (fun y => { y with joined := s.idN }) else s

/-- The register words of the warp that an instruction names, and those of them that its destination code or its ranges name. -/
def Ex.named (x : Ex) (y : Fibre) : List (Nat × Nat) :=
  ((opRange x.k.a x.f.a).toList ++ (opRange x.k.b x.f.b).toList ++ (opRange x.k.c x.f.c).toList
    ++ (opRange x.k.d x.f.d).toList ++ namedRanges x.op x.f).map (rangeWords y)
def Ex.namedDests (x : Ex) (y : Fibre) : List (Nat × Nat) :=
  ((opRange x.k.d x.f.d).toList ++ namedRanges x.op x.f).map (rangeWords y)

/-- Register words that a fibre writes behind a release of its own, and that another fibre reads: the other's later acquires come after the
release (R291). DEDUCED (log 144). -/
def State.handOff (s : State) (x : Ex) : State :=
  let w := s.warpAt x.p.g x.p.w
  let y := s.fibreAt x.p.g x.p.w x.p.f
  let mine := (y.fences.filter (fun e => e.rel)).getLast?
  if w.handed.isEmpty && mine.isNone && y.after.isEmpty then s else
  let live := w.handed.filter (fun h => s.relOut x.p.g x.p.w h.f h.fence)
  let meet := fun (h : Handed) (r : Nat × Nat) => decide (h.lo < r.1 + r.2) && decide (r.1 < h.lo + h.n)
  let saw := (live.filter (fun h => h.f != x.p.f && (x.named y).any (meet h))).map (fun h => (h.f, h.fence))
  let new := match mine with
    | none => []
    | some e => (x.namedDests y).map (fun r => { lo := r.1, n := r.2, f := x.p.f, fence := e.id : Handed })
  (s.modWarp x.p.g x.p.w (fun v => { v with handed := live ++ new })).modFibre x.p.g x.p.w x.p.f (fun v =>
    { v with after := ((v.after.filter (fun a => s.relOut x.p.g x.p.w a.1 a.2)) ++ saw).eraseDups })

/-- An instruction waits for walks that its accesses have asked for (R178, R243). -/
def State.holdWalks (s t : State) : State := { s with walking := t.walking }

/-- Executes an instruction for a path of a fibre; a fence still to complete may hold it (R269), and walks of its accesses (R178). -/
def runPath (op : Nat) (f : Fields) (body : Ex → State → Out) (p : Path) (q : Option Path) (s : State) : State :=
  let x := s.exOf p op f
  if !windowOk (s.pathFibre p) op x.k f then s.freezePath p cILLEGAL else
  let s := s.settle p.g p.w p.f
  if s.fenceHolds p.g p.w p.f op then s.blockPath p else
  let s' := s.prep p f
  if x.parts.isEmpty then s'.retire s p q x.next [] else
  match body x s' with
  | .wait => s.blockPath p
  | .hold k => (k s).blockPath p
  | .freeze c => s.freezePath p c
  | .ok t jumps =>
    if t.walksOut p.g p.w p.f p.pc then (s.holdWalks t).blockPath p else
    let r := (((t.walksUsed p.g p.w p.f p.pc).joinLanes x).handOff x).lateMarks x jumps
    r.1.retire s p q x.next r.2

/-- The path an access processor executes as: its owner fibre's place, one lane, its own PC (R314, R371). -/
def apPath (a : Ap) (g : Nat) : Path := { g := g, w := a.ownerW, f := a.ownerF, mask := 1, pc := a.spc }

/-- Stops an access processor under R93. -/
def State.stopAp (s : State) (g n : Nat) : State :=
  ((s.modAp g n (fun a => { a with st := .stopped })).failGroup g).wake

/-- Executes an instruction for an access processor (R90, R93). -/
def runAccess (op : Nat) (f : Fields) (body : Ex → State → Out) (g n : Nat) (s : State) : State :=
  let k := (match accessSpec op with
    | some k => some k
    | none => opSpec op f).getD { forms := [] }
  let a := s.apAt g n
  let p := apPath a g
  let x : Ex := { p := p, op := op, f := f, k := k, parts := [0], ap := some (g, n) }
  match body x s with
  | .wait => { s with turn := .choose, blocked := { p with f := 4 + n, mask := 0 } :: s.blocked }
  | .hold _ => { s with turn := .choose, blocked := { p with f := 4 + n, mask := 0 } :: s.blocked }
  | .freeze _ => { s.stopAp g n with turn := .choose }
  | .ok t jumps =>
    if t.walksOut g p.w (4 + n) p.pc then { s.holdWalks t with turn := .choose, blocked := { p with f := 4 + n, mask := 0 } :: s.blocked } else
    let t := t.walksUsed g p.w (4 + n) p.pc
    let next := match jumps with
      | (_, d) :: _ => d
      | [] => x.next
    { (t.modAp g n (fun a => if a.st == .running then { a with spc := next } else a)).wake with
      turn := .choose }

/-- The meaning of a fibre or access-program instruction from its body. -/
def runInstr (op : Nat) (f : Fields) (body : Ex → State → Out) (s : State) : Host.Outcome State Fault Refusal :=
  match s.turn with
  | .issue p q => .next (runPath op f body p q s)
  | .access g n => .next (runAccess op f body g n s)
  | _ => .fault .noAgent

/-- Pops each queue that a source code names, once for the execution (R81, R315, R316). DESIGN CHOICE (log 11): where two codes of
one execution are mapped to the same hardware queue, both read its head and two entries are popped; the manual does not say. -/
def State.popQueues (s : State) (x : Ex) (codes : List (BitVec 8)) : State :=
  let qs := (codes.filter (fun c => 0xF0 ≤ c.toNat && c.toNat < 0xF8)).eraseDups
  qs.foldl (fun s c =>
    let h := (x.fibre s).qmap.getD (c.toNat - 0xF0) 0
    s.modGroup x.p.g (fun g =>
      match sget g.queues h with
      | some q => { g with queues := ssetD g.queues h { q with entries := q.entries.tail } {} }
      | none => g)) s

/-- The source codes of A, B and C that are operand codes. -/
def Ex.codes (x : Ex) : List (BitVec 8) :=
  (if Cls.isRegs x.k.a then [x.f.a] else []) ++ (if Cls.isRegs x.k.b then [x.f.b] else [])
    ++ (if Cls.isRegs x.k.c then [x.f.c] else [])

/-- Sets flags for an execution; an access processor has no FSTAT (R369). DEDUCED (log 36). -/
def State.flagEx (s : State) (x : Ex) (m : Word) : State :=
  if x.ap.isSome then s else s.setFlags x.p.g x.p.w x.p.f m

/-- What one participant's sources give: FirstPoison of a poisoned source, else the function's words and FSTAT flags
(R30, R32). -/
def resultOf (fn : List (List RegWord) → List RegWord × Word) (width : Nat) (vs : List (List Val)) : List Val × Word :=
  match firstBad vs.flatten with
  | some v => (List.replicate width v, 0)
  | none => let o := fn (vs.map wordsOfVals); (o.1.map Val.ok, o.2)

/-- What a register-to-register instruction leaves: in each participant the sources' words give the destination's words
and FSTAT flags (R30, R32). -/
def regOut (srcs : Ex → State → Nat → List (List Val)) (fn : Ex → List (List RegWord) → List RegWord × Word) (width : Nat)
    (x : Ex) (s : State) : State :=
  let rs := x.parts.map (fun l => (l, srcs x s l))
  let outs := rs.map (fun r => (r.1, resultOf (fn x) width r.2))
  let s := s.popQueues x x.codes
  let s := s.writeDst x x.f.d (outs.map (fun o => (o.1, o.2.1))) (madeOf (rs.map (fun r => (r.1, r.2.flatten))))
  s.flagEx x (outs.foldl (fun m o => m ||| o.2.2) 0)

/-- A register-to-register instruction, once its sources are ready. -/
def regOp (srcs : Ex → State → Nat → List (List Val)) (fn : Ex → List (List RegWord) → List RegWord × Word) (width : Nat)
    (x : Ex) (s : State) : Out :=
  if !s.ready x {} then .wait else .ok (regOut srcs fn width x s) []

/-- What one participant's sources give a predicate: FirstPoison, else its value, with FSTAT flags (R13, R32). -/
def testOf (fn : List (List RegWord) → Bool × Word) (vs : List (List Val)) : (Bool ⊕ Val) × Word :=
  match firstBad vs.flatten with
  | some v => (.inr v, 0)
  | none => let o := fn (vs.map wordsOfVals); (.inl o.1, o.2)

/-- What an instruction that writes a predicate leaves (R13, R32). -/
def predOut (srcs : Ex → State → Nat → List (List Val)) (fn : Ex → List (List RegWord) → Bool × Word) (x : Ex) (s : State) :
    State :=
  let rs := x.parts.map (fun l => (l, srcs x s l))
  let outs := rs.map (fun r => (r.1, testOf (fn x) r.2))
  let s := s.popQueues x x.codes
  let s := s.writePreds x x.f.d.toNat (outs.map (fun o => (o.1, o.2.1))) (madeOf (rs.map (fun r => (r.1, r.2.flatten))))
  s.flagEx x (outs.foldl (fun m o => m ||| o.2.2) 0)

/-- An instruction that writes a predicate, once its sources are ready. -/
def predOp (srcs : Ex → State → Nat → List (List Val)) (fn : Ex → List (List RegWord) → Bool × Word) (x : Ex) (s : State) : Out :=
  if !s.ready x {} then .wait else .ok (predOut srcs fn x s) []

/-- Sources A; A and B; A, B and C. -/
def srcs1 (x : Ex) (s : State) (l : Nat) : List (List Val) := [s.srcA x l]
def srcs2 (x : Ex) (s : State) (l : Nat) : List (List Val) := [s.srcA x l, s.srcB x l]
def srcs3 (x : Ex) (s : State) (l : Nat) : List (List Val) := [s.srcA x l, s.srcB x l, s.srcC x l]

end Sys2Proof.Machine
end

