-- ==== Sys2Proof/Machine/Access.lean ====
section
/-! DEFINITION. What every memory access shares: addresses (R17, R122, R123, R233, R256), the range scoreboard (R311),
what releases and acquires wait for (R264, R269, R280), and the delivery of a producer's words (R24, R123, R126). -/

namespace Sys2Proof.Machine

/-! Addresses. -/

/-- FirstPoison of the words that form a flat address, then their residues (R123). -/
def addrBad (ws : List Val) (addr : DWord) : Option Val :=
  match firstBad ws with
  | some v => some v
  | none => firstBad (ws.map (fun v => checkWord v addr))

/-- The displacement in bytes (R122, R256, R265, R270). -/
def disp (x : Ex) (size : Nat) : DWord :=
  let b6 : DWord := x.f.b6.signExtend 64 * BitVec.ofNat 64 size
  if 0x90 ≤ x.op then b6 else
  match x.f.form with
  | .l => x.f.w2.signExtend 64
  | .lx => x.f.lit
  | _ => b6

/-- Whether the index is sign-extended: `.sx` (R122, R270). -/
def sxBit (x : Ex) : Bool := if x.op = 0x8D || x.op = 0x8E then x.f.sub.getLsbD 3 else x.f.sub.getLsbD 0

/-- The words of the index; none for code 0xF8 and for atomics. -/
def State.indexVals (s : State) (x : Ex) (l : Nat) : List Val :=
  if 0x90 ≤ x.op || x.f.b == 0xF8 then [] else [s.readCode x x.f.b 0 l]

/-- The value of the first word, or 0. -/
def valOf (vs : List Val) : Word :=
  match vs with
  | .ok w :: _ => w.val
  | _ => 0

/-- A flat address and why it fails before translation, size 0 asking for no alignment (R17, R122, R123). -/
def State.flatAddr (s : State) (x : Ex) (l scale size : Nat) : DWord × Option Val :=
  let base := s.srcA x l
  let idx := s.indexVals x l
  let lo := valOf base
  let hi := valOf (base.drop 1)
  let i := valOf idx
  let va := (hi ++ lo) + (if sxBit x then i.signExtend 64 else i.setWidth 64) + disp x scale
  match addrBad (base ++ idx) va with
  | some v => (va, some v)
  | none =>
    if va.extractLsb' 52 12 != 0 then (va, some (.new cPAGE va 5))
    else if size ≠ 0 && va.toNat % size ≠ 0 then (va, some (.new cMISALIGN va (BitVec.ofNat 32 size)))
    else (va, none)

/-- Translates a lane's flat address; a held store meets the access table only at its release (R123, R253, R394). -/
def State.flatLoc (s : State) (x : Ex) (l size : Nat) (k : Access) (held : Bool) : Loc × State :=
  match s.flatAddr x l size size with
  | (_, some v) => (.bad v, s)
  | (va, none) =>
    match (if held then s.translate (x.core s) (x.ctx s) va.toNat k else s.reach (x.core s) (x.ctx s) va.toNat k) with
    | (.ok dpa uc, s) => (.mem va dpa uc, s)
    | (.fail c d, s) => (.bad (.new c va d), s)

/-- Whether an access asks the table of another core's scratchpad for a write as it issues (R253); a held STS asks it at its release
(R394). -/
def State.spAsks (s : State) (x : Ex) : Bool := [0x87, 0x92].contains x.op || (x.op == 0x83 && !(x.fibre s).inRegion)

/-- A lane's scratchpad address (R233, R256), and the table of another core's scratchpad for a write (R253); base and index are each checked before the first poison of the two is taken. -/
def State.spLoc (s : State) (x : Ex) (l size : Nat) : Loc :=
  let ws := s.srcA x l ++ s.indexVals x l
  let sa := valOf (s.srcA x l) + valOf (s.indexVals x l) + (disp x size).setWidth 32
  match firstBad (ws.map (fun v => checkWord v (sa.setWidth 64))) with
  | some v => .bad v
  | none =>
    match s.spResolve x.p.g sa size with
    | .ok g off => if s.spAsks x && s.spBars x.p.g g then .bad (.new cPAGE (sa.setWidth 64) 4) else .sp sa g off
    | .fail c d => .bad (.new c (sa.setWidth 64) d)

/-- The flat or scratchpad places of some lanes, in order. -/
def State.flatLocs (s : State) (x : Ex) (ls : List Nat) (size : Nat) (k : Access) (held : Bool) : List (Nat × Loc) × State :=
  ls.foldl (fun acc l => let r := acc.2.flatLoc x l size k held; (acc.1 ++ [(l, r.1)], r.2)) ([], s)
def State.spLocs (s : State) (x : Ex) (ls : List Nat) (size : Nat) : List (Nat × Loc) := ls.map (fun l => (l, s.spLoc x l size))

/-- Sets IRREV in an open region (R395). -/
def State.irrev (s : State) (x : Ex) : State :=
  if (x.fibre s).inRegion then s.modFibre x.p.g x.p.w x.p.f (fun y => { y with fstat := y.fstat ||| fIRREV }) else s

/-! Outstanding work of a fibre. -/

/-- Whether an outstanding acquire holds the fibre's memory instructions (R264, R267, R269). -/
def State.acqHeld (s : State) (g w f : Nat) : Bool :=
  s.prods.any (fun p => p.acq && p.g == g && p.w == w && p.f == f)

/-- Lane number of work done once for the fibre stands for every lane. -/
def laneMatch (ls : List Nat) (l : Nat) : Bool := decide (32 ≤ l) || ls.contains l

/-- Whether the earlier accesses of some lanes have performed at their core: a core release (R280). -/
def State.lanesPerformed (s : State) (g w f : Nat) (ls : List Nat) : Bool :=
  s.prods.all (fun p => !p.isMem g w f || p.items.all (fun i => i.got.isSome || !(laneMatch ls i.lane)))
    && !s.pend.any (fun p => p.of g w f && laneMatch ls p.lane)
    && !s.parkedAll.any (fun p => p.of g w f && laneMatch ls p.lane)

/-- A core release by the participants, or by the whole fibre (R280); what an earlier acquire orders is before it (R284). -/
def State.coreRelease (s : State) (x : Ex) (whole : Bool) : Bool :=
  !s.acqOut x.p.g x.p.w x.p.f && !s.acqHeld x.p.g x.p.w x.p.f && if whole then s.fibrePerformed x.p.g x.p.w x.p.f else s.lanesPerformed x.p.g x.p.w x.p.f x.parts

/-! What holds an access back. -/

/-- Whether a lane still has an operation that waits for its word (R287); an access made once for the fibre is ordered with every
lane's, and so are accesses before a fence or an instruction that acts once with those after it (R277, R278). -/
def State.pendOn (s : State) (x : Ex) (lane : Nat) (l : Loc) (n : Nat) : Bool :=
  match l with
  | .mem _ dpa _ => s.pend.any (fun p => p.of x.p.g x.p.w x.p.f
      && (p.lane == lane || decide (32 ≤ p.lane) || decide (32 ≤ lane) || decide (p.id < (x.fibre s).joined))
      && decide (p.dpa / 4 ≤ (dpa + n - 1) / 4) && decide (dpa / 4 < p.dpa / 4 + p.words))
  | _ => false

/-- The lines of cacheable memory that some accesses touch. -/
def linesOf (locs : List (Nat × Loc)) : List Nat :=
  (locs.filterMap (fun l => match l.2 with
    | .mem _ dpa uc => if uc then none else some (dpa / 128)
    | _ => none)).eraseDups

/-- Whether accesses of the fibre wait: behind an acquire (R264, R269), for their lines' places in the L1 (R247), behind a command's
range (R311), or the same lane's operation on the same word (R287). -/
def State.memHeld (s : State) (x : Ex) (locs : List (Nat × Loc)) (n : Nat) (write fe : Bool) : Bool :=
  s.acqHeld x.p.g x.p.w x.p.f || !s.l1Ready (x.core s) (x.ctx s) (linesOf locs)
    || locs.any (fun l => (s.coreAt (x.core s)).score.any (fun e => e.meets (x.ctx s) l.2 n write fe) || s.pendOn x l.1 l.2 n)

/-! Store data. -/

/-- Whether a failure is a source word's own poison, which comes before anything the access would meet (R32). -/
def srcBad (v : Val) : Bool :=
  match v with
  | .ok _ => true
  | .new c _ _ => c == cEMPTY || c == cQUEUE

/-- Why a store writes nothing: a poisoned source, then its address, then its data's residue (R32, R124). DEDUCED (log 62). -/
def storeBad (l : Loc) (data : List Val) : Option Val :=
  let late := match l with
    | .bad v => some v
    | _ => firstBad (data.map (fun v => checkWord v 0))
  match l, firstBad data with
  | .bad v, some d => if srcBad v then some v else some d
  | .bad v, none => some v
  | _, some d => some d
  | _, none => late

/-- The number that store data holds. -/
def dataOf (vs : List Val) : DWord := valOf (vs.drop 1) ++ valOf vs

/-! Values on their way to destinations. -/

/-- Gives the `half`-th word of a lane of a producer what has arrived for it. -/
def State.giveItem (s : State) (prod lane half : Nat) (v : Got) : State :=
  { s with prods := s.prods.map (fun p => if p.id == prod then
      { p with items := p.items.map (fun i => if i.lane == lane && i.half == half && i.got.isNone then { i with got := some v } else i) }
      else p) }

/-- What an item delivers (R19, R95, R235, R245, R396). -/
def Item.value (i : Item) : Val :=
  match i.got with
  | some (.reg w) => .ok w
  | some (.mem m) =>
    let n := min 4 (tySize i.ty)
    if m.bad && !((List.range n).all (fun j => (i.held.getD j none).isSome)) then .new cECC i.va m.detail
    else .ok (mkWord (extendTy i.ty (overlay i.held (m.val >>> (8 * i.off)))))
  | some (.fail c a d) => .new c a d
  | none => .ok {}

/-- What a value found at issue gives its item. -/
def Val.got (v : Val) : Got :=
  match v with
  | .ok w => .reg w
  | .new c a d => .fail c a d

/-- Writes the words of items of execution `e` that have arrived, with one record for each cause of the execution; a result given up
to 0xF8 is counted where its instruction says so (R25, R126, R267, R389, R397). DEDUCED (log 121). -/
def State.writeItems (s : State) (e g w f : Nat) (flags : Byte) (pc : DWord) (items : List Item) : State :=
  let kept := items.filter (fun i => !i.count)
  let (s, tbl) := s.poisonOnce e g w f flags pc (kept.map (fun i => (i.lane, i.value)))
  let s := kept.foldl (fun s i => s.writeDest i.dst (i.value.word tbl)) s
  s.countPart e g w f flags pc ((items.filter (fun i => i.count)).map (fun i => (i.lane, i.value)))

/-- Whether what has arrived of a producer may be delivered: an atomic's results are written once the last lane has its own, and an
acquire that ends with it waits for the fibre's earlier loads, and for releases behind whose register writes it stands (R264, R267, R269,
R291). -/
def State.mayDeliver (s : State) (p : Prod) (lanes : Word) : Bool :=
  let ends := p.items.all (fun i => i.got.isSome && lanes.getLsbD (if i.lane < 32 then i.lane else 0))
  let may := s.dataBefore p.g p.w p.f p.id && s.handedOver p.g p.w (s.fibreAt p.g p.w p.f).after
  match p.kind with
  | .atom => p.items.all (fun i => i.got.isSome) && (!p.acq || may)
  | _ => !(p.acq && ends) || may

/-- Delivers what has arrived of a producer for the lanes named, an atomic's whole; a finished acquire acts (R123, R264, R267,
R269). -/
def State.deliver (s : State) (p : Prod) (lanes : Word) : State :=
  if !s.mayDeliver p lanes then s else
  let now : Item → Bool := fun i => i.got.isSome && (p.kind == .atom || lanes.getLsbD (if i.lane < 32 then i.lane else 0))
  let rest := p.items.filter (fun i => !now i)
  let s := { s with prods := if rest.isEmpty then s.prods.filter (fun q => q.id != p.id)
                             else s.prods.map (fun (q : Prod) => if q.id == p.id then { q with items := rest } else q) }
  let s := if rest.isEmpty && p.acq then s.acquire p.core else s
  s.writeItems p.id p.g p.w p.f 0 p.pc (p.items.filter now)

end Sys2Proof.Machine
end

