-- ==== Sys2Proof/Machine/Flags.lean ====
section
/-! DEFINITION. Widths, signs, predicted residues and conditions: integers under a type (R95), residues (R20, R21), integer
compares (R114). -/

namespace Sys2Proof.Machine

/-- Bits and sign of an integer type code (R83). -/
def tyBits (md : Nat) : Nat :=
  match md with
  | 2 => 16 | 3 => 16 | 4 => 8 | 5 => 8 | 6 => 64 | 7 => 64 | 9 => 64
  | _ => 32
def tySigned (md : Nat) : Bool := md % 2 == 0 && md < 8

/-- The exact integer of the low `n` bits of a number (R95). -/
def exact (n : Nat) (signed : Bool) (v : Nat) : Int :=
  let u := v % 2 ^ n
  if signed && decide (2 ^ (n - 1) ≤ u) then (u : Int) - 2 ^ n else u

/-- An exact integer reduced to `n` bits and extended to `out` bits (R95). -/
def reduce (n : Nat) (signed : Bool) (out : Nat) (r : Int) : Nat :=
  ((exact n signed (r % 2 ^ n).toNat) % 2 ^ out).toNat

/-- The number a word or a pair holds (R11). -/
def natOfWords (ws : List RegWord) : Nat :=
  match ws with
  | [] => 0
  | w :: r => w.val.toNat + 2 ^ 32 * natOfWords r

/-- How far the residues of a word or pair stand from its value, as an integer modulo 15; 0 when they are right (R20). -/
def resOff (ws : List RegWord) : Int :=
  match ws with
  | [] => 0
  | w :: r => ((w.res.toNat : Int) - w.val.toNat) + resOff r

/-- Words of a result of width 32 or 64 with regenerated residues (R21). -/
def freshWords (wide : Bool) (v : Nat) : List RegWord :=
  if wide then [mkWord (BitVec.ofNat 32 v), mkWord (BitVec.ofNat 32 (v / 2 ^ 32))] else [mkWord (BitVec.ofNat 32 v)]

/-- Words of a result with the residue `p` predicted for the whole of it (R21). -/
def predictedWords (wide : Bool) (v : Nat) (p : Int) : List RegWord :=
  if wide then
    let hi := mkWord (BitVec.ofNat 32 (v / 2 ^ 32))
    [{ val := BitVec.ofNat 32 v, res := BitVec.ofNat 4 ((p - hi.res.toNat) % 15).toNat }, hi]
  else [{ val := BitVec.ofNat 32 v, res := BitVec.ofNat 4 (p % 15).toNat }]

/-- The prediction of R21 in one form: the residue of the result, off by as much as `f`, a sum or product, moves when the
sources' residue errors are put into it. A narrowed result and a clamp are the corrections of R21. -/
def predict (f : List Int → Int) (srcs : List (List RegWord)) (v : Nat) : Int :=
  let ws := srcs.map (fun ws => (natOfWords ws : Int))
  let rs := srcs.map (fun ws => (natOfWords ws : Int) + resOff ws)
  (v : Int) + f rs - f ws

/-- A source word narrowed to the low bits of a type and extended, its residue corrected by the change (R21, R95); words of a whole
register, and those of `.x2`, stay as they are. -/
def narrowWords (md : Nat) (x2 : Bool) (ws : List RegWord) : List RegWord :=
  if x2 || decide (32 ≤ tyBits md) then ws else ws.map (fun w =>
    let v : Word := BitVec.ofNat 32 (reduce (tyBits md) (tySigned md) 32 w.val.toNat)
    { w with val := v, res := BitVec.ofNat 4 (((w.res.toNat : Int) + v.toNat - w.val.toNat) % 15).toNat })

/-- Evaluates an integer operation under a type, by halves under `.x2` (R95). -/
def evalInt (md : Nat) (x2 : Bool) (f : Nat → Bool → List Int → Int) (srcs : List (List RegWord)) : Nat :=
  let sg := tySigned md
  if x2 then
    let half := fun (h : Nat) => reduce 16 false 16
      (f 16 sg (srcs.map (fun ws => exact 16 sg (natOfWords ws / 2 ^ (16 * h)))))
    half 0 + 2 ^ 16 * half 1
  else
    let n := tyBits md
    reduce n sg (if n = 64 then 64 else 32) (f n sg (srcs.map (fun ws => exact n sg (natOfWords ws))))

/-- SatS and SatZ (R23). -/
def clampInt (n : Nat) (signed : Bool) (v : Int) : Int :=
  if signed then max (-(2 ^ (n - 1) : Int)) (min v (2 ^ (n - 1) - 1)) else max 0 (min v (2 ^ n - 1))

/-- Arguments of an operation. -/
def arg (vs : List Int) (i : Nat) : Int := vs.getD i 0

/-- The condition of ICMP and ISET (R114). -/
def intCond (c : Nat) (x y : Int) : Bool :=
  match c with
  | 0 => x == y
  | 1 => x != y
  | 2 => decide (x < y)
  | 3 => decide (x ≤ y)
  | 4 => decide (y < x)
  | _ => decide (y ≤ x)

end Sys2Proof.Machine
end

