-- ==== Sys2Proof/Machine/Formats.lean ====
section
/-! DEFINITION. Number formats (R127 to R143): values, decoding, rounding under a mode with flags (R27, R132, R133), and
conversion into every format. A finite value is exact: a sign, an integer and a power of two. -/

namespace Sys2Proof.Machine

/-- A value of a floating-point or narrow format: a NaN (signalling or not), an infinity, or a finite value
± m · 2^e, zeros keeping their sign. -/
inductive FVal where
  | nan (signalling : Bool)
  | inf (neg : Bool)
  | fin (neg : Bool) (m : Nat) (e : Int)
deriving DecidableEq, Repr

/-- A binary format: significand bits with the hidden one, exponent bits, bias (R128, R135, R136). -/
structure Fmt where
  p : Nat
  eb : Nat
  bias : Nat
deriving DecidableEq, Repr

def fmtF32 : Fmt := { p := 24, eb := 8, bias := 127 }
def fmtF16 : Fmt := { p := 11, eb := 5, bias := 15 }
def fmtBF16 : Fmt := { p := 8, eb := 8, bias := 127 }
def fmtE4M3 : Fmt := { p := 4, eb := 4, bias := 7 }
def fmtE5M2 : Fmt := { p := 3, eb := 5, bias := 15 }
def fmtE2M1 : Fmt := { p := 2, eb := 2, bias := 1 }

/-- The format of type codes .f32, .f16 and .bf16. -/
def fmtOf (md : Nat) : Fmt := if md = 11 then fmtF16 else if md = 12 then fmtBF16 else fmtF32

/-- The exponent of the smallest normal value. -/
def Fmt.emin (f : Fmt) : Int := 1 - (f.bias : Int)
/-- The largest exponent of an IEEE format's finite values. -/
def Fmt.emax (f : Fmt) : Int := 2 ^ f.eb - 2 - (f.bias : Int)
def Fmt.signBit (f : Fmt) : Nat := 2 ^ (f.eb + f.p - 1)
/-- Codes of +Inf and of the canonical NaN in FP32, FP16 and BF16 (R128). -/
def Fmt.infCode (f : Fmt) : Nat := (2 ^ f.eb - 1) * 2 ^ (f.p - 1)
def Fmt.nanCode (f : Fmt) : Nat := f.infCode + 2 ^ (f.p - 2)

/-- The value of a code whose exponent field is not all ones, or of any code of E4M3 but its NaNs. -/
def Fmt.finite (f : Fmt) (v : Nat) : FVal :=
  let neg := v / f.signBit % 2 == 1
  let ex := v / 2 ^ (f.p - 1) % 2 ^ f.eb
  let fr := v % 2 ^ (f.p - 1)
  if ex = 0 then .fin neg fr (f.emin - (f.p - 1 : Nat))
  else .fin neg (2 ^ (f.p - 1) + fr) ((ex : Int) - f.bias - (f.p - 1 : Nat))

/-- Decodes an IEEE code (R128); E5M2's NaNs are quiet (R135), which `quiet` says. -/
def Fmt.decode (f : Fmt) (quiet : Bool) (v : Nat) : FVal :=
  let ex := v / 2 ^ (f.p - 1) % 2 ^ f.eb
  let fr := v % 2 ^ (f.p - 1)
  if ex + 1 = 2 ^ f.eb then
    if fr = 0 then .inf (v / f.signBit % 2 == 1) else .nan (!quiet && decide (fr < 2 ^ (f.p - 2)))
  else f.finite v

/-- A subnormal read under .ftz (R130). -/
def Fmt.flush (f : Fmt) (ftz : Bool) (x : FVal) : FVal :=
  match x with
  | .fin neg m e => if ftz && decide (0 < m) && decide ((m.log2 : Int) + e < f.emin) then .fin neg 0 0 else x
  | _ => x

/-- Rounding modes (R132). -/
inductive Rm where
  | rn | rz | ru | rd
deriving DecidableEq, Repr

def Rm.ofSub (sub : BitVec 4) : Rm :=
  match sub.toNat % 4 with
  | 0 => .rn
  | 1 => .rz
  | 2 => .ru
  | _ => .rd

/-- Rounds the magnitude m · 2^e, or one strictly between it and (m + 1) · 2^e when `more`, to a multiple of 2^q; says
whether the result differs. -/
def roundAt (rm : Rm) (neg : Bool) (m : Nat) (e : Int) (more : Bool) (q : Int) : Nat × Bool :=
  if q ≤ e then (m * 2 ^ (e - q).toNat, more)
  else
    let k := (q - e).toNat
    let n := m / 2 ^ k
    let r := m % 2 ^ k
    let inexact := r != 0 || more
    let half := 2 ^ (k - 1)
    let up := match rm with
      | .rn => decide (half < r) || (r == half && (more || n % 2 == 1))
      | .rz => false
      | .ru => !neg && inexact
      | .rd => neg && inexact
    (if up then n + 1 else n, inexact)

/-- A magnitude rounded to a format's precision (R132): the integer, its power of two, whether it is tiny, whether it is
inexact. A tiny one is rounded at the format's subnormal step. -/
structure Rounded where
  n : Nat
  q : Int
  tiny : Bool
  inexact : Bool

def Fmt.roundMag (f : Fmt) (rm : Rm) (neg : Bool) (m : Nat) (e : Int) (more : Bool) : Rounded :=
  let top := (m.log2 : Int) + e
  let q := top - (f.p - 1 : Nat)
  let u := roundAt rm neg m e more q
  let top' := if u.1 = 2 ^ f.p then top + 1 else top
  if top' < f.emin then
    let q := f.emin - (f.p - 1 : Nat)
    let t := roundAt rm neg m e more q
    { n := t.1, q := q, tiny := true, inexact := t.2 }
  else { n := u.1, q := q, tiny := false, inexact := u.2 }

/-- The code of a finite magnitude n · 2^q of the format, with its sign. -/
def Fmt.encode (f : Fmt) (neg : Bool) (n : Nat) (q : Int) : Nat :=
  let (n, q) := if n = 2 ^ f.p then (n / 2, q + 1) else (n, q)
  (if neg then f.signBit else 0) +
    (if n < 2 ^ (f.p - 1) then n else (q + (f.p - 1 : Nat) + f.bias).toNat * 2 ^ (f.p - 1) + (n - 2 ^ (f.p - 1)))

/-- Whether a directed or nearest mode rounds a magnitude upwards past the largest finite value (R142). -/
def Rm.overflows (rm : Rm) (neg : Bool) : Bool :=
  match rm with
  | .rn => true
  | .rz => false
  | .ru => !neg
  | .rd => neg

def fUFNX : Word := fUF ||| fNX
def fOFNX : Word := fOF ||| fNX

/-- RoundF32, RoundF16 and RoundBF16 of a nonzero magnitude (R27): a code and flags. -/
def Fmt.round (f : Fmt) (rm : Rm) (ftz neg : Bool) (m : Nat) (e : Int) (more : Bool) : Nat × Word :=
  let r := f.roundMag rm neg m e more
  let sign := if neg then f.signBit else 0
  if r.tiny then
    if ftz then (sign, fUFNX) else (f.encode neg r.n r.q, if r.inexact then fUFNX else 0)
  else if f.emax < (r.n.log2 : Int) + r.q then
    (sign + (if rm.overflows neg then f.infCode else f.infCode - 1), fOFNX)
  else (f.encode neg r.n r.q, if r.inexact then fNX else 0)

/-- A value rounded into FP32, FP16 or BF16 (R141): zeros and infinities keep their sign, a NaN becomes canonical. -/
def Fmt.put (f : Fmt) (rm : Rm) (ftz : Bool) (v : FVal) : Nat × Word :=
  match v with
  | .nan sg => (f.nanCode, if sg then fNV else 0)
  | .inf neg => ((if neg then f.signBit else 0) + f.infCode, 0)
  | .fin neg m e => if m = 0 then (if neg then f.signBit else 0, 0) else f.round rm ftz neg m e false

/-! Narrow formats (R135 to R143). -/

/-- E4M3 (R135). -/
def decodeE4M3 (v : Nat) : FVal := if v % 128 = 127 then .nan false else fmtE4M3.finite v
def decodeE5M2 (v : Nat) : FVal := fmtE5M2.decode true v

/-- The extra value of an xv register (R138). -/
def xvMode (x : Word) : Bool := x.getLsbD 16
def xvValue (x : Word) : FVal :=
  if xvMode x then .nan false
  else match fmtBF16.decode true (x.toNat % 65536) with
    | .nan _ => .nan false
    | v => v

/-- E2M1X (R136). -/
def decodeE2M1 (xv : Word) (v : Nat) : FVal := if v % 16 = 8 then xvValue xv else fmtE2M1.finite (v % 16)

/-- The levels of Q4N, in units of 1/2048 (R137). -/
def q4nLevel (k : Nat) : Nat := [0, 210, 426, 652, 900, 1184, 1536, 2048].getD k 0

/-- Q4N (R137). -/
def decodeQ4N (xv : Word) (v : Nat) : FVal :=
  if v % 16 = 8 then xvValue xv else .fin (v % 16 / 8 == 1) (q4nLevel (v % 8)) (-11)

/-- Rounds into E4M3 or E5M2 (R142): `top` is the code of the largest finite value, `over` the overflow value's code. -/
def putEight (f : Fmt) (top big inf nan : Nat) (rm : Rm) (sat : Bool) (v : FVal) : Nat × Word :=
  let sign := fun (neg : Bool) => if neg then 128 else 0
  match v with
  | .nan sg => (nan, if sg then fNV else 0)
  | .inf neg => if sat then (sign neg + top, fOF) else (inf + (if inf = nan then 0 else sign neg), if inf = nan then fOF else 0)
  | .fin neg m e =>
    if m = 0 then (sign neg, 0) else
    let r := f.roundMag rm neg m e false
    let code := f.encode false r.n r.q
    if r.tiny then (sign neg + code, if r.inexact then fUFNX else 0)
    else if top < code then
      (if rm.overflows neg && !sat then big + (if big = nan then 0 else sign neg) else sign neg + top, fOFNX)
    else (sign neg + code, if r.inexact then fNX else 0)

def putE4M3 (rm : Rm) (sat : Bool) (v : FVal) : Nat × Word := putEight fmtE4M3 0x7E 0x7F 0x7F 0x7F rm sat v
def putE5M2 (rm : Rm) (sat : Bool) (v : FVal) : Nat × Word := putEight fmtE5M2 0x7B 0x7C 0x7C 0x7E rm sat v

/-- A NaN into E2M1X or Q4N (R143). -/
def putNan4 (xv : Word) (sg : Bool) : Nat × Word :=
  if xvMode xv then (8, if sg then fNV else 0) else (0, fNV)

/-- Conversion to E2M1X (R143). -/
def putE2M1 (xv : Word) (rm : Rm) (v : FVal) : Nat × Word :=
  match v with
  | .nan sg => putNan4 xv sg
  | .inf neg => (if neg then 15 else 7, fOF)
  | .fin neg m e =>
    if m = 0 then (0, 0) else
    if (if 0 ≤ e then 6 < m * 2 ^ e.toNat else 6 * 2 ^ (-e).toNat < m) then (if neg then 15 else 7, fOFNX) else
    let r := fmtE2M1.roundMag rm neg m e false
    let code := fmtE2M1.encode false r.n r.q
    (if code = 0 then 0 else code + (if neg then 8 else 0),
     if r.inexact then (if r.tiny then fUFNX else fNX) else 0)

/-- The Q4N level nearest a magnitude of at most 1, or the one a directed mode takes: m · 2^e compared in units of
2^min(e, −12) (R143). -/
def q4nRound (rm : Rm) (neg : Bool) (m : Nat) (e : Int) : Nat × Bool :=
  let b : Int := min e (-12)
  let v := m * 2 ^ (e - b).toNat
  let lv := fun (k : Nat) => q4nLevel k * 2 ^ (-11 - b).toNat
  let k := ((List.range 8).filter (fun k => decide (lv k ≤ v))).length - 1
  if lv k = v then (k, false)
  else
    let up := match rm with
      | .rn => decide (lv k + lv (k + 1) < 2 * v) || (lv k + lv (k + 1) == 2 * v && k % 2 == 1)
      | .rz => false
      | .ru => !neg
      | .rd => neg
    (if up then k + 1 else k, true)

/-- Conversion to Q4N (R143). -/
def putQ4N (xv : Word) (rm : Rm) (v : FVal) : Nat × Word :=
  match v with
  | .nan sg => putNan4 xv sg
  | .inf neg => (if neg then 15 else 7, fOF)
  | .fin neg m e =>
    if m = 0 then (0, 0) else
    if (if 0 ≤ e then 1 < m * 2 ^ e.toNat else 2 ^ (-e).toNat < m) then (if neg then 15 else 7, fOFNX) else
    let r := q4nRound rm neg m e
    (if r.1 = 0 then 0 else r.1 + (if neg then 8 else 0), if r.2 then (if r.1 = 0 then fUFNX else fNX) else 0)

/-- Conversion of a floating value to an integer type (R140). -/
def putInt (n : Nat) (signed : Bool) (rm : Rm) (v : FVal) : Int × Word :=
  let hi : Int := if signed then 2 ^ (n - 1) - 1 else 2 ^ n - 1
  let lo : Int := if signed then -(2 ^ (n - 1)) else 0
  match v with
  | .nan _ => (0, fNV)
  | .inf neg => (if neg then lo else hi, fNV)
  | .fin neg m e =>
    let r := roundAt rm neg m e false 0
    let i : Int := if neg then -(r.1 : Int) else r.1
    if i < lo then (lo, fNV) else if hi < i then (hi, fNV) else (i, if r.2 then fNX else 0)

/-! Exact arithmetic on finite values. -/

/-- The exact integer of a finite value in units of 2^b, for b at most its own exponent. -/
def FVal.units (v : FVal) (b : Int) : Int :=
  match v with
  | .fin neg m e => let u : Int := (m * 2 ^ (e - b).toNat : Nat); if neg then -u else u
  | _ => 0

def FVal.exp (v : FVal) : Int :=
  match v with
  | .fin _ _ e => e
  | _ => 0

def FVal.isNan : FVal → Bool
  | .nan _ => true
  | _ => false
def FVal.isSnan : FVal → Bool
  | .nan s => s
  | _ => false
def FVal.isZero : FVal → Bool
  | .fin _ m _ => m == 0
  | _ => false
def FVal.isInf : FVal → Bool
  | .inf _ => true
  | _ => false
def FVal.neg : FVal → Bool
  | .nan _ => false
  | .inf n => n
  | .fin n _ _ => n

/-- The sign of an exact zero sum (R148). -/
def zeroSign (rm : Rm) (vs : List FVal) : Bool :=
  if vs.all (fun v => v.isZero && v.neg) then true
  else if vs.all (fun v => v.isZero && !v.neg) then false
  else decide (rm = .rd)

/-- The exact sum of finite values (R146, R149). -/
def sumFin (rm : Rm) (vs : List FVal) : FVal :=
  let b := vs.foldl (fun (b : Int) v => min b v.exp) 0
  let t := vs.foldl (fun (t : Int) v => t + v.units b) 0
  if t = 0 then .fin (zeroSign rm vs) 0 0 else .fin (decide (t < 0)) t.natAbs b

/-- The exact product of two values, neither NaN nor a zero times an infinity. -/
def mulVal (x y : FVal) : FVal :=
  match x, y with
  | .fin a m e, .fin b n d => .fin (a != b) (m * n) (e + d)
  | x, y => .inf (x.neg != y.neg)

/-- Whether a product is zero times infinity (R147). -/
def zeroInf (x y : FVal) : Bool := (x.isZero && y.isInf) || (x.isInf && y.isZero)

/-- The sum of addends that are not NaN: `none` when infinities of both signs meet (R147, R149). -/
def sumVal (rm : Rm) (vs : List FVal) : Option FVal :=
  match vs.find? FVal.isInf with
  | none => some (sumFin rm vs)
  | some v => if vs.any (fun w => w.isInf && w.neg != v.neg) then none else some (.inf v.neg)

/-- Exact comparison: `none` when unordered (R157). -/
def cmpVal (x y : FVal) : Option Ordering :=
  match x, y with
  | .nan _, _ => none
  | _, .nan _ => none
  | .inf a, .inf b => some (if a == b then .eq else if a then .lt else .gt)
  | .inf a, _ => some (if a then .lt else .gt)
  | _, .inf b => some (if b then .gt else .lt)
  | x, y =>
    let b := min x.exp y.exp
    some (compare (x.units b) (y.units b))

/-- Integer square root by bits, for numbers below 4^n. -/
def isqrt (v : Nat) : Nat → Nat → Nat
  | 0, r => r
  | n + 1, r => if (r + 2 ^ n) * (r + 2 ^ n) ≤ v then isqrt v n (r + 2 ^ n) else isqrt v n r

/-- √(m · 2^e) as an integer at a power of two, with whether more follows. -/
def sqrtMag (m : Nat) (e : Int) : Nat × Int × Bool :=
  let (m, e) := if e % 2 = 0 then (m, e) else (2 * m, e - 1)
  let v := m * 4 ^ 40
  let r := isqrt v (m.log2 + 42) 0
  (r, e / 2 - 40, r * r != v)

/-- m / n · 2^e the same way. -/
def divMag (m n : Nat) (e : Int) : Nat × Int × Bool :=
  let k := 40 + n.log2
  (m * 2 ^ k / n, e - k, m * 2 ^ k % n != 0)

/-- 1 / √(m · 2^e) the same way. -/
def rsqrtMag (m : Nat) (e : Int) : Nat × Int × Bool :=
  let (m, e) := if e % 2 = 0 then (m, e) else (2 * m, e - 1)
  let k := 40 + m.log2
  let r := isqrt (4 ^ k / m) (k + 2) 0
  (r, -(e / 2) - k, r * r * m != 4 ^ k)

/-- ln 2 in units of 2^-w: 2 · Σ 1 / ((2k + 1) · 3^(2k + 1)). -/
def ln2Fix (w : Nat) : Nat :=
  (List.range (w / 3 + 4)).foldl (fun t k => t + 2 ^ (w + 1) / ((2 * k + 1) * 3 ^ (2 * k + 1))) 0

/-- 2^(f / 2^w) in units of 2^-w for f below 2^w: Σ (f ln 2)^n / n!, the last term first. -/
def exp2Fix (w f : Nat) : Nat :=
  let y := f * ln2Fix w / 2 ^ w
  (List.range 80).foldr (fun n t => 2 ^ w + y * t / 2 ^ w / (n + 1)) (2 ^ w)

/-- Bits of log2 t for t in [1, 2) in units of 2^-w: squaring doubles the logarithm. -/
def log2Fix (w : Nat) : Nat → Nat → Nat → Nat
  | 0, _, acc => acc
  | n + 1, t, acc =>
    let t2 := t * t / 2 ^ w
    if 2 ^ (w + 1) ≤ t2 then log2Fix w n (t2 / 2) (2 * acc + 1) else log2Fix w n t2 (2 * acc)

end Sys2Proof.Machine
end

