-- ==== Sys2Proof/Machine/Control.lean ====
section
/-! DEFINITION. Control flow: NOP, branches, EXIT, LOOP (R97 to R102, R208 to R210), FYLD and FSTART (R188, R189). -/

namespace Sys2Proof.Machine

/-- Target of BRA, BRU and CALL (R78). -/
def branchTarget (x : Ex) : DWord :=
  match x.f.form with
  | .l => x.p.pcI + x.f.w2.signExtend 64
  | _ => x.p.pcI + ((x.f.b6 ++ x.f.a ++ x.f.d).signExtend 64 <<< 2)

/-- Target of LOOP (R78). -/
def loopTarget (x : Ex) : DWord :=
  match x.f.form with
  | .l => x.p.pcI + x.f.w2.signExtend 64
  | _ => x.p.pcI + ((x.f.b6 ++ x.f.a).signExtend 64 <<< 2)

/-- Jumps of every participant to one target. -/
def allTo (x : Ex) (t : DWord) : List (Nat × DWord) := x.parts.map (fun l => (l, t))

/-- Strands lanes on values, with records for what is newly poisoned (R13, R392). -/
def State.strandVals (s : State) (x : Ex) (made bads : List (Nat × Val)) : State :=
  let (s, tbl) := s.makePoison x.p.g x.p.w x.p.f 0 x.p.pc (made ++ bads)
  s.strand x.p (bads.map (fun e => (e.1, (e.2.word tbl).val)))

def nopBody (_ : Ex) (s : State) : Out := .ok s []

/-- NOP (R98). -/
def execNop (f : Fields) (s : State) : Host.Outcome State Fault Refusal := runInstr 0x00 f nopBody s

def braBody (x : Ex) (s : State) : Out := .ok s (allTo x (branchTarget x))

/-- BRA (R99). -/
def execBra (f : Fields) (s : State) : Host.Outcome State Fault Refusal := runInstr 0x01 f braBody s

/-- The word that BRU or LOOP tests, or the cause of its poison, which freezes the fibre (R100, R101). -/
def tested (v : Val) : Word ⊕ Nat :=
  match v with
  | .new c _ _ => .inr c
  | .ok w => if w.poison then .inr (causeOf w.val) else .inl w.val

/-- Whether BRU's source is ready; it has none for code 0xF8 (R100). -/
def bruReady (x : Ex) (s : State) : Bool := x.f.b == 0xF8 || s.ready x { a := false, c := false }

/-- What BRU tests: 1 where it has no source (R100). -/
def bruVal (x : Ex) (s : State) : Word ⊕ Nat :=
  if x.f.b == 0xF8 then .inl (if x.f.sub.getLsbD 0 then 0 else 1) else tested (s.readCode x x.f.b 0 x.low)

/-- Where BRU sends its participants once its source holds `v` (R100). -/
def bruJumps (x : Ex) (v : Word) : List (Nat × DWord) :=
  if (v != 0) != x.f.sub.getLsbD 0 then allTo x (branchTarget x) else []

def bruBody (x : Ex) (s : State) : Out :=
  if !bruReady x s then .wait else
  match bruVal x s with
  | .inr c => .freeze c
  | .inl v => .ok s (bruJumps x v)

/-- BRU (R100). -/
def execBru (f : Fields) (s : State) : Host.Outcome State Fault Refusal := runInstr 0x02 f bruBody s

/-- The pair of words of a checked 64-bit target (R99). -/
def pairVal (vs : List Val) : DWord :=
  match wordsOfVals vs with
  | [lo, hi] => hi.val ++ lo.val
  | _ => 0

/-- The words of each participant's target, with their residues checked (R99). -/
def jumpReads (x : Ex) (s : State) : List (Nat × List Val) :=
  x.parts.map (fun l => let vs := s.srcA x l; (l, vs.map (fun v => checkWord v (pairVal vs))))

/-- The targets of the participants whose words are unpoisoned (R99). -/
def jumpTargets (x : Ex) (s : State) : List (Nat × DWord) :=
  ((jumpReads x s).filter (fun r => (firstBad r.2).isNone)).map (fun r => (r.1, pairVal r.2))

/-- Why JMX or RET freezes (R99). DESIGN CHOICE (log 16): where one lane's target is misaligned and another's out of range, the
cause is MISALIGN; the manual does not say. -/
def jumpFail (x : Ex) (s : State) : Option Nat :=
  if (jumpTargets x s).any (fun r => r.2.extractLsb' 0 2 != 0) then some cMISALIGN
  else if (jumpTargets x s).any (fun r => r.2.extractLsb' 52 12 != 0) then some cPAGE
  else none

/-- What JMX and RET leave: participants whose target is poisoned are stranded (R99). -/
def jumpOut (x : Ex) (s : State) : State :=
  s.strandVals x (madeOf (jumpReads x s)) ((jumpReads x s).filterMap (fun r => (firstBad r.2).map (fun v => (r.1, v))))

/-- JMX and RET (R99): the targets of the lanes, or a freeze. -/
def jumpBody (x : Ex) (s : State) : Out :=
  if !s.ready x { b := false, c := false } then .wait else
  match jumpFail x s with
  | some c => .freeze c
  | none => .ok (jumpOut x s) (jumpTargets x s)

/-- JMX (R99). -/
def execJmx (f : Fields) (s : State) : Host.Outcome State Fault Refusal := runInstr 0x03 f jumpBody s

/-- The link that CALL writes to B: the address after it (R99). -/
def callOut (x : Ex) (s : State) : State :=
  let link := [mkWord (x.next.extractLsb' 0 32), mkWord (x.next.extractLsb' 32 32)]
  s.writeDst x x.f.b (x.parts.map (fun l => (l, link.map Val.ok))) []

def callBody (x : Ex) (s : State) : Out := .ok (callOut x s) (allTo x (branchTarget x))

/-- CALL (R99). -/
def execCall (f : Fields) (s : State) : Host.Outcome State Fault Refusal := runInstr 0x04 f callBody s

/-- RET (R99). -/
def execRet (f : Fields) (s : State) : Host.Outcome State Fault Refusal := runInstr 0x05 f jumpBody s

/-- The participants exit and leave their barriers (R102, R202, R210). -/
def exitOut (x : Ex) (s : State) : State :=
  let s := s.modFibre x.p.g x.p.w x.p.f (fun y =>
    { y with lanes := y.lanes.mapIdx (fun i l => if x.parts.contains i then { l with st := .exited } else l) })
  s.leave x.p.g (membersOf x.p.w x.p.f x.parts)

def exitBody (x : Ex) (s : State) : Out := .ok (exitOut x s) []

/-- EXIT (R102, R210). -/
def execExit (f : Fields) (s : State) : Host.Outcome State Fault Refusal := runInstr 0x06 f exitBody s

/-- FYLD notes the hand-over, which follows the issuing cycle (R188). DEDUCED (log 35). -/
def fyldOut (x : Ex) (s : State) : State :=
  let dst : Option Nat := if x.f.sub.getLsbD 2 then some (x.f.sub.toNat % 4) else none
  s.modWarp x.p.g x.p.w (fun w => { w with yields := w.yields ++ [dst] })

def fyldBody (x : Ex) (s : State) : Out := .ok (fyldOut x s) []

/-- FYLD (R188). -/
def execFyld (f : Fields) (s : State) : Host.Outcome State Fault Refusal := runInstr 0x07 f fyldBody s

/-- PFX (R28, R85): the word has been read for the path's lanes, and the instruction after it is still to issue. -/
def pfxRead (p : Pfx) (q : Path) (then_ : Option Path) (s : State) : State :=
  let s := s.modFibre q.g q.w q.f (fun x => { x with lanes := x.lanes.mapIdx (fun i l =>
    if q.mask.getLsbD i then { l with rep := some (p, 0), inst := {} } else l) })
  { s with turn := match then_ with
    | some r => .issue r none
    | none => .choose }
/-- PFX (R85). -/
def execPfx (p : Pfx) (s : State) : Host.Outcome State Fault Refusal :=
  match s.turn with
  | .issue q r => .next (pfxRead p q r s)
  | _ => .fault .noAgent

/-- Starts a fibre: its lanes at the entry, its views from the kernel, FSTAT 0, the parameter pointer in s0:s1; other
registers and predicates keep their contents (R14, R15, R189). -/
def State.startFibre (s : State) (g w f : Nat) : State :=
  let gr := s.groupAt g
  let v := gr.views.getD f []
  let s := s.modFibre g w f (fun x =>
    { x with lanes := x.lanes.map (fun l => { l with pc := x.entry.getD 0, st := .active, age := 0, rep := none, inst := {} })
             fstat := 0, vvec := v.getD 0 0, vtile := v.getD 1 0, vacc := v.getD 2 0, win := v.getD 3 0
             oldStranded := 0, replays := 0 })
  (s.writeUni g w f 0 (mkWord (gr.params.extractLsb' 0 32))).writeUni g w f 1 (mkWord (gr.params.extractLsb' 32 32))

/-- Whether FSTART can start a fibre (R189). -/
def Fibre.startable (x : Fibre) : Bool := x.entry.isSome && x.frozen.isNone && (liveLanes x).isEmpty

/-- Whether FSTART starts the fibre it names (R189). -/
def fstartCan (x : Ex) (s : State) : Bool :=
  decide (x.f.sub.toNat % 4 < (s.warpAt x.p.g x.p.w).fibres.length) && (s.fibreAt x.p.g x.p.w (x.f.sub.toNat % 4)).startable

/-- What FSTART leaves: the fibre started where it can be, and D = 1 or 0 (R189). -/
def fstartOut (x : Ex) (s : State) : State :=
  let can := fstartCan x s
  let s := s.irrev x
  let s := if can then s.startFibre x.p.g x.p.w (x.f.sub.toNat % 4) else s
  s.writeDst x x.f.d (x.parts.map (fun l => (l, [.ok (mkWord (if can then 1 else 0))]))) []

def fstartBody (x : Ex) (s : State) : Out := if !s.coreRelease x true then .wait else .ok (fstartOut x s) []

/-- FSTART (R189). -/
def execFstart (f : Fields) (s : State) : Host.Outcome State Fault Refusal := runInstr 0x08 f fstartBody s

/-- What LOOP leaves in its counter, which held `v`, and where it goes (R101). -/
def loopOut (v : Word) (x : Ex) (s : State) : State := s.writeDst x x.f.d (x.parts.map (fun l => (l, [.ok (mkWord (v - 1))]))) []
def loopJumps (x : Ex) (v : Word) : List (Nat × DWord) := if v - 1 != 0 then allTo x (loopTarget x) else []

def loopBody (x : Ex) (s : State) : Out :=
  if !s.posReady x x.k.d x.f.d false then .wait else
  match tested (s.readCode x x.f.d 0 x.low) with
  | .inr c => .freeze c
  | .inl v => .ok (loopOut v x s) (loopJumps x v)

/-- LOOP (R101, R209). -/
def execLoop (f : Fields) (s : State) : Host.Outcome State Fault Refusal := runInstr 0x09 f loopBody s

end Sys2Proof.Machine
end

