-- ==== Sys2Proof/Machine/Integer.lean ====
section
/-! DEFINITION. The integer group (R95, R103 to R107), ICMP and ISET (R114). -/

namespace Sys2Proof.Machine

def Ex.x2 (x : Ex) : Bool := x.f.sub.getLsbD 3
def Ex.ty (x : Ex) : Nat := x.f.md.toNat
def Ex.wide (x : Ex) : Bool := wideCode x.f.md.toNat

/-- An integer instruction whose residue is predicted from the sum or product `p` (R21). -/
def intPred (f : Nat → Bool → List Int → Int) (p : List Int → Int) (x : Ex) (srcs : List (List RegWord)) :
    List RegWord × Word :=
  let v := evalInt x.ty x.x2 f srcs
  (predictedWords x.wide v (predict p (srcs.map (narrowWords x.ty x.x2)) v), 0)

/-- An integer instruction whose residue is regenerated (R21). -/
def intRegen (f : Nat → Bool → List Int → Int) (x : Ex) (srcs : List (List RegWord)) : List RegWord × Word :=
  (freshWords x.wide (evalInt x.ty x.x2 f srcs), 0)

/-- The width of an integer result in words. -/
def Ex.outWords (x : Ex) : Nat := if Cls.isPair x.k.d then 2 else 1

def intSum (vs : List Int) : Int := arg vs 0 + arg vs 1
def intDiff (vs : List Int) : Int := arg vs 0 - arg vs 1
def intProd (vs : List Int) : Int := arg vs 0 * arg vs 1
def intMad (vs : List Int) : Int := arg vs 0 * arg vs 1 + arg vs 2
def intSum3 (vs : List Int) : Int := arg vs 0 + arg vs 1 + arg vs 2

def iaddBody (x : Ex) (s : State) : Out := regOp srcs2 (intPred (fun _ _ => intSum) intSum) x.outWords x s
/-- IADD (R103). -/
def execIadd (f : Fields) (s : State) : Host.Outcome State Fault Refusal := runInstr 0x10 f iaddBody s

def isubBody (x : Ex) (s : State) : Out := regOp srcs2 (intPred (fun _ _ => intDiff) intDiff) x.outWords x s
/-- ISUB (R103). -/
def execIsub (f : Fields) (s : State) : Host.Outcome State Fault Refusal := runInstr 0x11 f isubBody s

/-- IMUL's words: the residue is predicted, or regenerated under .x2 (R21). -/
def imulWords (x : Ex) : List (List RegWord) → List RegWord × Word :=
  if x.x2 then intRegen (fun _ _ => intProd) x else intPred (fun _ _ => intProd) intProd x

def imulBody (x : Ex) (s : State) : Out := regOp srcs2 imulWords x.outWords x s
/-- IMUL (R103). -/
def execImul (f : Fields) (s : State) : Host.Outcome State Fault Refusal := runInstr 0x12 f imulBody s

def imulhBody (x : Ex) (s : State) : Out :=
  regOp srcs2 (intRegen (fun n _ vs => intProd vs / 2 ^ n)) x.outWords x s
/-- IMULH (R103). -/
def execImulh (f : Fields) (s : State) : Host.Outcome State Fault Refusal := runInstr 0x13 f imulhBody s

/-- IMAD.acc64: a 64-bit product added to a pair (R103). -/
def mad64 (x : Ex) (srcs : List (List RegWord)) : List RegWord × Word :=
  let sg := tySigned x.ty
  let e := exact 32 sg (natOfWords (srcs.getD 0 [])) * exact 32 sg (natOfWords (srcs.getD 1 []))
    + (natOfWords (srcs.getD 2 []) : Int)
  let v := (e % 2 ^ 64).toNat
  (predictedWords true v (predict intMad srcs v), 0)

/-- IMAD's words, .w64 (R103) or as IMUL's. -/
def imadWords (x : Ex) : List (List RegWord) → List RegWord × Word :=
  if x.f.sub.getLsbD 0 then mad64 x
  else if x.x2 then intRegen (fun _ _ => intMad) x else intPred (fun _ _ => intMad) intMad x

def imadBody (x : Ex) (s : State) : Out := regOp srcs3 imadWords x.outWords x s
/-- IMAD (R103). -/
def execImad (f : Fields) (s : State) : Host.Outcome State Fault Refusal := runInstr 0x14 f imadBody s

def iadd3Body (x : Ex) (s : State) : Out := regOp srcs3 (intPred (fun _ _ => intSum3) intSum3) x.outWords x s
/-- IADD3 (R103). -/
def execIadd3 (f : Fields) (s : State) : Host.Outcome State Fault Refusal := runInstr 0x15 f iadd3Body s

/-- Quotient and remainder (R104); a signed or unsigned quotient by zero is all ones. -/
def divInt (vs : List Int) : Int := if arg vs 1 == 0 then -1 else (arg vs 0).tdiv (arg vs 1)
def remInt (vs : List Int) : Int := if arg vs 1 == 0 then arg vs 0 else (arg vs 0).tmod (arg vs 1)

/-- DZ, when the divisor or either half of it is zero (R104). -/
def divFlag (x : Ex) (srcs : List (List RegWord)) : Word :=
  let y := natOfWords (srcs.getD 1 [])
  if (if x.x2 then y % 2 ^ 16 == 0 || y / 2 ^ 16 == 0 else y % 2 ^ tyBits x.ty == 0) then fDZ else 0

def divWith (f : List Int → Int) (x : Ex) (srcs : List (List RegWord)) : List RegWord × Word :=
  ((intRegen (fun _ _ => f) x srcs).1, divFlag x srcs)

def idivBody (x : Ex) (s : State) : Out := regOp srcs2 (divWith divInt) x.outWords x s
/-- IDIV (R104). -/
def execIdiv (f : Fields) (s : State) : Host.Outcome State Fault Refusal := runInstr 0x16 f idivBody s

def iremBody (x : Ex) (s : State) : Out := regOp srcs2 (divWith remInt) x.outWords x s
/-- IREM (R104). -/
def execIrem (f : Fields) (s : State) : Host.Outcome State Fault Refusal := runInstr 0x17 f iremBody s

def iminBody (x : Ex) (s : State) : Out :=
  regOp srcs2 (intRegen (fun _ _ vs => min (arg vs 0) (arg vs 1))) x.outWords x s
/-- IMIN (R103). -/
def execImin (f : Fields) (s : State) : Host.Outcome State Fault Refusal := runInstr 0x18 f iminBody s

def imaxBody (x : Ex) (s : State) : Out :=
  regOp srcs2 (intRegen (fun _ _ vs => max (arg vs 0) (arg vs 1))) x.outWords x s
/-- IMAX (R103). -/
def execImax (f : Fields) (s : State) : Host.Outcome State Fault Refusal := runInstr 0x19 f imaxBody s

/-- IABS, saturating under .sat (R103). -/
def absInt (sat : Bool) (n : Nat) (_ : Bool) (vs : List Int) : Int :=
  let a : Int := (arg vs 0).natAbs
  if sat then clampInt n true a else a

def iabsBody (x : Ex) (s : State) : Out := regOp srcs1 (intRegen (absInt (x.f.sub.getLsbD 0))) x.outWords x s
/-- IABS (R103). -/
def execIabs (f : Fields) (s : State) : Host.Outcome State Fault Refusal := runInstr 0x1A f iabsBody s

def isaddBody (x : Ex) (s : State) : Out :=
  let p := if x.f.sub.getLsbD 0 then intDiff else intSum
  regOp srcs2 (intPred (fun n sg vs => clampInt n sg (p vs)) p) x.outWords x s
/-- ISADD (R103). -/
def execIsadd (f : Fields) (s : State) : Host.Outcome State Fault Refusal := runInstr 0x1B f isaddBody s

/-- LEA (R105): a pair plus an index times a power of two. -/
def leaWords (x : Ex) (srcs : List (List RegWord)) : List RegWord × Word :=
  let k : Int := 2 ^ (x.f.sub.toNat % 8)
  let b := natOfWords (srcs.getD 1 [])
  let e : Int := if isImm x then exact 32 true b else exact (tyBits x.ty) (tySigned x.ty) b
  let v := (((natOfWords (srcs.getD 0 []) : Int) + e * k) % 2 ^ 64).toNat
  (predictedWords true v (predict (fun vs => arg vs 0 + arg vs 1 * k) srcs v), 0)

def leaBody (x : Ex) (s : State) : Out := regOp srcs2 leaWords 2 x s
/-- LEA (R105). -/
def execLea (f : Fields) (s : State) : Host.Outcome State Fault Refusal := runInstr 0x1C f leaBody s

/-- IDOT4 (R106). -/
def dot4Words (x : Ex) (srcs : List (List RegWord)) : List RegWord × Word :=
  let sa := x.ty == 4
  let sb := sa && !x.f.sub.getLsbD 0
  let a := natOfWords (srcs.getD 0 [])
  let b := natOfWords (srcs.getD 1 [])
  let t : Int := (List.range 4).foldl (fun (t : Int) k => t + exact 8 sa (a / 2 ^ (8 * k)) * exact 8 sb (b / 2 ^ (8 * k)))
    (natOfWords (srcs.getD 2 []) : Int)
  (freshWords false (t % 2 ^ 32).toNat, 0)

def idot4Body (x : Ex) (s : State) : Out := regOp srcs3 dot4Words 1 x s
/-- IDOT4 (R106). -/
def execIdot4 (f : Fields) (s : State) : Host.Outcome State Fault Refusal := runInstr 0x1D f idot4Body s

/-- The participants whose predicate `n` is unpoisoned, and the others with the words that poisoned it. -/
def State.goodPred (s : State) (x : Ex) (n : Nat) : List Nat := x.parts.filter (fun l => (s.predAt x.p l n).bad.isNone)
def State.badPreds (s : State) (x : Ex) (n : Nat) : List (Nat × Word) :=
  x.parts.filterMap (fun l => (s.predAt x.p l n).bad.map (fun w => (l, w)))

/-- A lane's sum with its carry in, and the carry out (R107). -/
def addCarry (c : Bool) (vs : List (List Val)) : Val × (Bool ⊕ Val) :=
  match firstBad vs.flatten with
  | some v => (v, .inr v)
  | none =>
    let ws := vs.map wordsOfVals
    let t := natOfWords (ws.getD 0 []) + natOfWords (ws.getD 1 []) + (if c then 1 else 0)
    (.ok ((predictedWords false (t % 2 ^ 32) (predict intSum ws (t % 2 ^ 32))).headD {}), .inl (decide (2 ^ 32 ≤ t)))

/-- What IADDC leaves (R107): a lane whose carry is poisoned strands; the others write the sum and the carry out. -/
def iaddcOut (x : Ex) (s : State) : State :=
  let n := x.f.c.toNat
  let bad := s.badPreds x n
  let y := { x with parts := s.goodPred x n }
  let rs := y.parts.map (fun l => (l, srcs2 y s l))
  let outs : List (Nat × Val × (Bool ⊕ Val)) := rs.map (fun r => (r.1, addCarry (s.predAt x.p r.1 n).val r.2))
  let s := (s.popQueues y y.codes).strand x.p bad
  let (s, tbl) := s.makePoison x.p.g x.p.w x.p.f 0 x.p.pc (madeOf (rs.map (fun r => (r.1, r.2.flatten))))
  let s := s.writeDst y x.f.d (outs.map (fun o => (o.1, [.ok (o.2.1.word tbl)]))) []
  if x.ap.isSome then s else s.writePreds y n (outs.map (fun o => (o.1, match o.2.2 with
    | .inl b => .inl b
    | .inr v => .inr (.ok (v.word tbl))))) []

def iaddcBody (x : Ex) (s : State) : Out := if !s.ready x { c := false } then .wait else .ok (iaddcOut x s) []
/-- IADDC (R107). -/
def execIaddc (f : Fields) (s : State) : Host.Outcome State Fault Refusal := runInstr 0x1E f iaddcBody s

/-! Integer compares (R114). -/

def Ex.cond (x : Ex) : Nat := x.f.sub.toNat % 8

def icmpFn (x : Ex) (srcs : List (List RegWord)) : Bool × Word :=
  let e := fun (i : Nat) => exact (tyBits x.ty) (tySigned x.ty) (natOfWords (srcs.getD i []))
  (intCond x.cond (e 0) (e 1), 0)

def icmpBody (x : Ex) (s : State) : Out := predOp srcs2 icmpFn x s
/-- ICMP (R114). -/
def execIcmp (f : Fields) (s : State) : Host.Outcome State Fault Refusal := runInstr 0x30 f icmpBody s

def isetBody (x : Ex) (s : State) : Out :=
  regOp srcs2 (intRegen (fun _ _ vs => if intCond x.cond (arg vs 0) (arg vs 1) then -1 else 0)) x.outWords x s
/-- ISET (R114). -/
def execIset (f : Fields) (s : State) : Host.Outcome State Fault Refusal := runInstr 0x35 f isetBody s

end Sys2Proof.Machine
end

