-- ==== Sys2Proof/Machine/Logic.lean ====
section
/-! DEFINITION. Logic, shifts and bit fields (R108 to R113), SEL, PLOG and PMOV (R115 to R117), moves and special registers
(R118 to R121). -/

namespace Sys2Proof.Machine

/-- The width a logic instruction works in. -/
def Ex.bits (x : Ex) : Nat := if x.wide then 64 else 32

/-- A two-source bitwise function, with B complemented under .nb (R108). -/
def bitOp (f : DWord → DWord → DWord) (x : Ex) (srcs : List (List RegWord)) : List RegWord × Word :=
  let a : DWord := BitVec.ofNat 64 (natOfWords (srcs.getD 0 []))
  let b : DWord := BitVec.ofNat 64 (natOfWords (srcs.getD 1 []))
  (freshWords x.wide (f a (if x.f.sub.getLsbD 0 then ~~~b else b)).toNat, 0)

def andBody (x : Ex) (s : State) : Out := regOp srcs2 (bitOp (· &&& ·)) x.outWords x s
/-- AND (R108). -/
def execAnd (f : Fields) (s : State) : Host.Outcome State Fault Refusal := runInstr 0x20 f andBody s

def orBody (x : Ex) (s : State) : Out := regOp srcs2 (bitOp (· ||| ·)) x.outWords x s
/-- OR (R108). -/
def execOr (f : Fields) (s : State) : Host.Outcome State Fault Refusal := runInstr 0x21 f orBody s

def xorBody (x : Ex) (s : State) : Out := regOp srcs2 (bitOp (· ^^^ ·)) x.outWords x s
/-- XOR (R108). -/
def execXor (f : Fields) (s : State) : Host.Outcome State Fault Refusal := runInstr 0x22 f xorBody s

/-- Bit `i` of a number, as a number. -/
def bitAt (v i : Nat) : Nat := v / 2 ^ i % 2

/-- BITF (R110). -/
def bitfWords (x : Ex) (srcs : List (List RegWord)) : List RegWord × Word :=
  let a := natOfWords (srcs.getD 0 [])
  let b := natOfWords (srcs.getD 1 [])
  let c := natOfWords (srcs.getD 2 [])
  let f0 := x.f.b6.toNat % 16
  let f1 := x.f.b6.toNat / 16 + 4 * (x.f.sub.toNat % 4)
  let v := (List.range x.bits).foldl (fun v i =>
    v + bitAt (if bitAt c i = 1 then f1 else f0) (2 * bitAt b i + bitAt a i) * 2 ^ i) 0
  (freshWords x.wide v, 0)

def bitfBody (x : Ex) (s : State) : Out := regOp srcs3 bitfWords x.outWords x s
/-- BITF (R110). -/
def execBitf (f : Fields) (s : State) : Host.Outcome State Fault Refusal := runInstr 0x23 f bitfBody s

/-- Kinds of shift. -/
inductive Shift where
  | left | right | arith
deriving DecidableEq, Repr

/-- One shift of a `w`-bit value by a count (R109). -/
def shiftBy (k : Shift) (wrap : Bool) (w v c : Nat) : Nat :=
  let c := if wrap then c % w else min c w
  match k with
  | .left => v * 2 ^ c % 2 ^ w
  | .right => v / 2 ^ c
  | .arith => (exact w true v / 2 ^ c % 2 ^ w).toNat

/-- SHL, SHR and SAR (R109): a 32-bit count, or one for each half under .x2. -/
def shiftWords (k : Shift) (x : Ex) (srcs : List (List RegWord)) : List RegWord × Word :=
  let a := natOfWords (srcs.getD 0 [])
  let b := natOfWords (srcs.getD 1 [])
  let wrap := x.f.sub.getLsbD 0
  (if x.x2 then freshWords false (shiftBy k wrap 16 (a % 2 ^ 16) (b % 2 ^ 16)
      + 2 ^ 16 * shiftBy k wrap 16 (a / 2 ^ 16) (b / 2 ^ 16))
    else freshWords x.wide (shiftBy k wrap x.bits a b), 0)

def shlBody (x : Ex) (s : State) : Out := regOp srcs2 (shiftWords .left) x.outWords x s
/-- SHL (R109). -/
def execShl (f : Fields) (s : State) : Host.Outcome State Fault Refusal := runInstr 0x24 f shlBody s

def shrBody (x : Ex) (s : State) : Out := regOp srcs2 (shiftWords .right) x.outWords x s
/-- SHR (R109). -/
def execShr (f : Fields) (s : State) : Host.Outcome State Fault Refusal := runInstr 0x25 f shrBody s

def sarBody (x : Ex) (s : State) : Out := regOp srcs2 (shiftWords .arith) x.outWords x s
/-- SAR (R109). -/
def execSar (f : Fields) (s : State) : Host.Outcome State Fault Refusal := runInstr 0x26 f sarBody s

/-- FSH (R111). -/
def fshWords (x : Ex) (srcs : List (List RegWord)) : List RegWord × Word :=
  let v := natOfWords (srcs.getD 0 []) + 2 ^ 32 * natOfWords (srcs.getD 1 [])
  let c := natOfWords (srcs.getD 2 []) % 32
  (freshWords false (if x.f.sub.getLsbD 0 then v * 2 ^ c / 2 ^ 32 % 2 ^ 32 else v / 2 ^ c % 2 ^ 32), 0)

def fshBody (x : Ex) (s : State) : Out := regOp srcs3 fshWords 1 x s
/-- FSH (R111). -/
def execFsh (f : Fields) (s : State) : Host.Outcome State Fault Refusal := runInstr 0x27 f fshBody s

/-- The position and length of a bit field (R112). -/
def fieldPos (b : Nat) : Nat := b % 256
def fieldLen (b : Nat) : Nat := min (b / 256 % 256) 32

/-- BFX (R112): bits from position 32 on read as A[31] under .s32 and as 0 under .z32. -/
def bfxWords (x : Ex) (srcs : List (List RegWord)) : List RegWord × Word :=
  let a := natOfWords (srcs.getD 0 [])
  let b := natOfWords (srcs.getD 1 [])
  let sg := x.ty == 0
  let e := exact 32 sg a / 2 ^ fieldPos b
  (freshWords false (if fieldLen b = 0 then 0 else reduce (fieldLen b) sg 32 e), 0)

def bfxBody (x : Ex) (s : State) : Out := regOp srcs2 bfxWords 1 x s
/-- BFX (R112). -/
def execBfx (f : Fields) (s : State) : Host.Outcome State Fault Refusal := runInstr 0x28 f bfxBody s

/-- BFI (R112). -/
def bfiWords (_ : Ex) (srcs : List (List RegWord)) : List RegWord × Word :=
  let a := natOfWords (srcs.getD 0 [])
  let b := natOfWords (srcs.getD 1 [])
  let c := natOfWords (srcs.getD 2 [])
  let v := (List.range 32).foldl (fun v i =>
    let inside := decide (fieldPos b ≤ i) && decide (i < fieldPos b + fieldLen b)
    v + (if inside then bitAt a (i - fieldPos b) else bitAt c i) * 2 ^ i) 0
  (freshWords false v, 0)

def bfiBody (x : Ex) (s : State) : Out := regOp srcs3 bfiWords 1 x s
/-- BFI (R112). -/
def execBfi (f : Fields) (s : State) : Host.Outcome State Fault Refusal := runInstr 0x29 f bfiBody s

/-- A one-source function to a word. -/
def bitCount (f : Nat → Nat → Nat) (x : Ex) (srcs : List (List RegWord)) : List RegWord × Word :=
  (freshWords false (f x.bits (natOfWords (srcs.getD 0 []))), 0)

/-- One bits; leading zero bits (R108). -/
def onesIn (n v : Nat) : Nat := (List.range n).foldl (fun t i => t + bitAt v i) 0
def leadingZeros (n v : Nat) : Nat := ((List.range n).takeWhile (fun i => bitAt v (n - 1 - i) == 0)).length

def popcBody (x : Ex) (s : State) : Out := regOp srcs1 (bitCount onesIn) 1 x s
/-- POPC (R108). -/
def execPopc (f : Fields) (s : State) : Host.Outcome State Fault Refusal := runInstr 0x2A f popcBody s

def clzBody (x : Ex) (s : State) : Out := regOp srcs1 (bitCount leadingZeros) 1 x s
/-- CLZ (R108). -/
def execClz (f : Fields) (s : State) : Host.Outcome State Fault Refusal := runInstr 0x2B f clzBody s

/-- BREV (R108). -/
def brevWords (x : Ex) (srcs : List (List RegWord)) : List RegWord × Word :=
  let a := natOfWords (srcs.getD 0 [])
  (freshWords x.wide ((List.range x.bits).foldl (fun v i => v + bitAt a (x.bits - 1 - i) * 2 ^ i) 0), 0)

def brevBody (x : Ex) (s : State) : Out := regOp srcs1 brevWords x.outWords x s
/-- BREV (R108). -/
def execBrev (f : Fields) (s : State) : Host.Outcome State Fault Refusal := runInstr 0x2C f brevBody s

/-- BYTX (R113). -/
def bytxWords (_ : Ex) (srcs : List (List RegWord)) : List RegWord × Word :=
  let v := natOfWords (srcs.getD 0 []) + 2 ^ 32 * natOfWords (srcs.getD 1 [])
  let c := natOfWords (srcs.getD 2 [])
  let byte := fun (k : Nat) =>
    let b := v / 2 ^ (8 * (c / 2 ^ (3 * k) % 8)) % 256
    if bitAt c (16 + k) = 1 then 0 else if bitAt c (12 + k) = 1 then (if bitAt b 7 = 1 then 255 else 0) else b
  (freshWords false (byte 0 + 2 ^ 8 * byte 1 + 2 ^ 16 * byte 2 + 2 ^ 24 * byte 3), 0)

def bytxBody (x : Ex) (s : State) : Out := regOp srcs3 bytxWords 1 x s
/-- BYTX (R113). -/
def execBytx (f : Fields) (s : State) : Host.Outcome State Fault Refusal := runInstr 0x2D f bytxBody s

/-! SEL, PLOG, PMOV. -/

/-- Whether one lane's word or pair of a class is full, or its policy probes (R24). -/
def State.laneReady (s : State) (x : Ex) (c : Cls) (code : BitVec 8) (probe : Bool) (l : Nat) : Bool :=
  s.posReady { x with parts := [l] } c code probe

/-- Whether the source that each lane's predicate selects is ready (R115). -/
def State.selReady (s : State) (x : Ex) : Bool :=
  (s.goodPred x x.f.c.toNat).all (fun l => if (s.predAt x.p l x.f.c.toNat).val
    then s.laneReady x x.k.a x.f.a (x.f.sp.getLsbD 0) l else s.laneReady x x.k.b x.f.b (x.f.sp.getLsbD 1) l)

/-- What SEL leaves (R115): each lane reads only the source its predicate selects; a queue that is selected in some lane is
popped once. -/
def selOut (x : Ex) (s : State) : State :=
  let n := x.f.c.toNat
  let p := fun (l : Nat) => (s.predAt x.p l n).val
  let y := { x with parts := s.goodPred x n }
  let rs := y.parts.map (fun l => (l, if p l then s.srcA x l else s.srcB x l))
  let codes := (if Cls.isRegs x.k.a && y.parts.any p then [x.f.a] else [])
    ++ (if Cls.isRegs x.k.b && y.parts.any (fun l => !p l) then [x.f.b] else [])
  let outs := rs.map (fun r => (r.1, match firstBad r.2 with
    | some v => List.replicate x.outWords v
    | none => (freshWords x.wide (natOfWords (wordsOfVals r.2))).map Val.ok))
  ((s.popQueues x codes).strand x.p (s.badPreds x n)).writeDst y x.f.d outs (madeOf rs)

def selBody (x : Ex) (s : State) : Out := if !s.selReady x then .wait else .ok (selOut x s) []
/-- SEL (R115). -/
def execSel (f : Fields) (s : State) : Host.Outcome State Fault Refusal := runInstr 0x32 f selBody s

/-- PLOG's value for one lane: a bit of the table that C chooses, or the first poison of its predicates (R116). -/
def plogValue (x : Ex) (s : State) (l : Nat) : Bool ⊕ Val :=
  let a := s.predAt x.p l x.f.a.toNat
  let b := s.predAt x.p l x.f.b.toNat
  let c := s.predAt x.p l x.f.c.toNat
  match [a, b, c].findSome? (·.bad) with
  | some w => .inr (.ok (badWord w))
  | none => .inl (bitAt (if c.val then x.f.sub.toNat else x.f.md.toNat % 16)
      (2 * (if b.val then 1 else 0) + (if a.val then 1 else 0)) == 1)

/-- What PLOG leaves (R116). -/
def plogOut (x : Ex) (s : State) : State := s.writePreds x x.f.d.toNat (x.parts.map (fun l => (l, plogValue x s l))) []

def plogBody (x : Ex) (s : State) : Out := .ok (plogOut x s) []
/-- PLOG (R116). -/
def execPlog (f : Fields) (s : State) : Host.Outcome State Fault Refusal := runInstr 0x33 f plogBody s

/-- PMOV's value: whether the word is nonzero, or zero under .n (R117). -/
def pmovFn (x : Ex) (srcs : List (List RegWord)) : Bool × Word :=
  ((natOfWords (srcs.getD 0 []) == 0) == x.f.sub.getLsbD 0, 0)

def pmovBody (x : Ex) (s : State) : Out := predOp srcs1 pmovFn x s
/-- PMOV (R117). -/
def execPmov (f : Fields) (s : State) : Host.Outcome State Fault Refusal := runInstr 0x34 f pmovBody s

/-! Moves. -/

/-- MOV copies words whole: value, poison bit and residue (R118). -/
def movOut (x : Ex) (s : State) : State :=
  (s.popQueues x x.codes).writeDst x x.f.d (x.parts.map (fun l => (l, s.srcA x l))) []

def movBody (x : Ex) (s : State) : Out := if !s.ready x { b := false, c := false } then .wait else .ok (movOut x s) []
/-- MOV (R118). -/
def execMov (f : Fields) (s : State) : Host.Outcome State Fault Refusal := runInstr 0x40 f movBody s

/-- MOVI: the sign-extended immediate (R119). -/
def moviOut (x : Ex) (s : State) : State :=
  let v : DWord := (x.f.b6 ++ x.f.a).signExtend 64
  s.writeDst x x.f.d (x.parts.map (fun l => (l, (freshWords x.wide v.toNat).map Val.ok))) []

def moviBody (x : Ex) (s : State) : Out := .ok (moviOut x s) []
/-- MOVI (R119). -/
def execMovi (f : Fields) (s : State) : Host.Outcome State Fault Refusal := runInstr 0x41 f moviBody s

/-- A special register (R82, R120). -/
def specialReg (x : Ex) (s : State) (l : Nat) : Nat :=
  let g := x.group s
  match x.f.a.toNat with
  | 0x00 => l
  | 0x01 => x.p.w
  | 0x02 => x.p.f
  | 0x03 => g.gid.1
  | 0x04 => g.gid.2.1
  | 0x05 => g.gid.2.2
  | 0x06 => g.grid.1
  | 0x07 => g.grid.2.1
  | 0x08 => g.grid.2.2
  | 0x09 => s.coreX g.core
  | 0x0A => s.coreY g.core
  | 0x0B => s.clk.toNat
  | 0x0C => g.lsn
  | _ => (match s.opp with
    | some o => if x.p.second then o.fib.fstat else (x.fibre s).fstat
    | none => (x.fibre s).fstat).toNat

/-- Passes a free time, so that the counter never decreases (R120). DESIGN CHOICE (log 7). -/
def State.tick (s : State) : State :=
  let (n, s) := s.fresh
  { s with clk := BitVec.ofNat 64 (min (s.clk.toNat + Config.freeCount n) (2 ^ 64 - 1)) }

/-- MOVS: the special register, as each participant sees it (R120). -/
def movsOut (x : Ex) (s : State) : State :=
  let s := if x.f.a == 0x0B then s.tick else s
  let pair := Cls.isPair x.k.d
  s.writeDst x x.f.d (x.parts.map (fun l => (l, (freshWords pair (specialReg x s l)).map Val.ok))) []

def movsBody (x : Ex) (s : State) : Out := .ok (movsOut x s) []
/-- MOVS (R120). -/
def execMovs (f : Fields) (s : State) : Host.Outcome State Fault Refusal := runInstr 0x42 f movsBody s

/-- What MOVW leaves in FSTAT (R15, R16, R121): the lowest participant's word; poison is counted. -/
def movwOut (x : Ex) (s : State) : State :=
  let v := (s.srcA x x.low).headD (.ok {})
  let s := s.popQueues x x.codes
  match v with
  | .ok w =>
    if w.poison then s.countBad x.p.g x.p.w x.p.f 0 x.p.pc [(wholeUnit, v)]
    else s.modFibre x.p.g x.p.w x.p.f (fun y => { y with fstat :=
      (y.fstat &&& 0xFFFFFFC0) ||| ((w.val ||| (if x.p.second then y.raised else 0)) &&& 0x3F) })
  | .new _ _ _ => s.countBad x.p.g x.p.w x.p.f 0 x.p.pc [(wholeUnit, v)]

def movwBody (x : Ex) (s : State) : Out := if !s.ready x { b := false, c := false } then .wait else .ok (movwOut x s) []
/-- MOVW (R121). -/
def execMovw (f : Fields) (s : State) : Host.Outcome State Fault Refusal := runInstr 0x43 f movwBody s

end Sys2Proof.Machine
end

