-- ==== Sys2Proof/Machine/Float.lean ====
section
/-! DEFINITION. Floating-point instructions (R144 to R158). -/

namespace Sys2Proof.Machine

/-- What an operation gives before rounding: an invalid operation, a division by zero, an exact value, or a magnitude
m · 2^e with more after it (R146, R147). -/
inductive Exact where
  | invalid
  | byZero (neg : Bool)
  | val (v : FVal)
  | mag (neg : Bool) (m : Nat) (e : Int) (more : Bool)

/-- Rounds the result of an operation once (R146). -/
def finish (f : Fmt) (rm : Rm) (ftz : Bool) (r : Exact) : Nat × Word :=
  match r with
  | .invalid => (f.nanCode, fNV)
  | .byZero neg => ((if neg then f.signBit else 0) + f.infCode, fDZ)
  | .val v => f.put rm ftz v
  | .mag neg m e more => f.round rm ftz neg m e more

def Ex.rm (x : Ex) : Rm := Rm.ofSub x.f.sub
def Ex.ftz (x : Ex) : Bool := x.f.sub.getLsbD 2
def Ex.fmt (x : Ex) : Fmt := fmtOf x.ty

/-- Element `h` of a word (R129): its bits, and its value as In() reads it (R146). -/
def elemBits (x : Ex) (v h : Nat) : Nat := if x.ty = 10 then v % 2 ^ 32 else v / 2 ^ (16 * h) % 2 ^ 16
def elemIn (x : Ex) (v h : Nat) : FVal := x.fmt.flush x.ftz (x.fmt.decode false (elemBits x v h))

/-- A floating instruction on elements: under .x2 both halves on their own, flags ORed (R146). -/
def floatWords (k : Ex → List FVal → Nat × Word) (x : Ex) (srcs : List (List RegWord)) : List RegWord × Word :=
  let el := fun (h : Nat) => k x (srcs.map (fun ws => elemIn x (natOfWords ws) h))
  let r0 := el 0
  if x.x2 then
    let r1 := el 1
    (freshWords false (r0.1 + 2 ^ 16 * r1.1), r0.2 ||| r1.2)
  else (freshWords false r0.1, r0.2)

def fArg (vs : List FVal) (i : Nat) : FVal := vs.getD i (.fin false 0 0)

/-- NaN inputs, then the operation (R146). -/
def arith (op : Rm → List FVal → Exact) (x : Ex) (vs : List FVal) : Nat × Word :=
  if vs.any FVal.isNan then (x.fmt.nanCode, if vs.any FVal.isSnan then fNV else 0)
  else finish x.fmt x.rm x.ftz (op x.rm vs)

def addOp (rm : Rm) (vs : List FVal) : Exact :=
  match sumVal rm vs with
  | some v => .val v
  | none => .invalid
def mulOp (_ : Rm) (vs : List FVal) : Exact :=
  if zeroInf (fArg vs 0) (fArg vs 1) then .invalid else .val (mulVal (fArg vs 0) (fArg vs 1))
def fmaOp (rm : Rm) (vs : List FVal) : Exact :=
  if zeroInf (fArg vs 0) (fArg vs 1) then .invalid else addOp rm [mulVal (fArg vs 0) (fArg vs 1), fArg vs 2]

def divOp (_ : Rm) (vs : List FVal) : Exact :=
  let y := fArg vs 1
  match fArg vs 0, y with
  | .inf a, .fin b _ _ => .val (.inf (a != b))
  | .fin a m e, .fin b n d =>
    if n = 0 then (if m = 0 then .invalid else .byZero (a != b))
    else if m = 0 then .val (.fin (a != b) 0 0)
    else let r := divMag m n (e - d); .mag (a != b) r.1 r.2.1 r.2.2
  | .fin a _ _, .inf b => .val (.fin (a != b) 0 0)
  | _, _ => .invalid

def sqrtOp (_ : Rm) (vs : List FVal) : Exact :=
  match fArg vs 0 with
  | .fin neg m e =>
    if m = 0 then .val (.fin neg 0 0)
    else if neg then .invalid
    else let r := sqrtMag m e; .mag false r.1 r.2.1 r.2.2
  | .inf false => .val (.inf false)
  | _ => .invalid

def rcpOp (rm : Rm) (vs : List FVal) : Exact :=
  match fArg vs 0 with
  | .fin neg 0 _ => .byZero neg
  | v => divOp rm [.fin false 1 0, v]

def rsqOp (_ : Rm) (vs : List FVal) : Exact :=
  match fArg vs 0 with
  | .fin neg m e =>
    if m = 0 then .byZero neg
    else if neg then .invalid
    else let r := rsqrtMag m e; .mag false r.1 r.2.1 r.2.2
  | .inf false => .val (.fin false 0 0)
  | _ => .invalid

/-- Working bits of FEX2 and FLG2: far beyond what any input's rounding needs. -/
def workBits : Nat := 256

/-- 2^x (R146): exact at integers, else a magnitude that is never a rounding point. DEDUCED (log 63). -/
def ex2Op (_ : Rm) (vs : List FVal) : Exact :=
  match fArg vs 0 with
  | .inf neg => .val (if neg then .fin false 0 0 else .inf false)
  | .nan _ => .invalid
  | .fin neg m e =>
    let big := decide ((m.log2 : Int) + e > 12)
    if m = 0 then .val (.fin false 1 0)
    else if big then .mag false 1 (if neg then -5000 else 5000) true
    else
      let u : Int := (FVal.fin neg m e).units (min e 0)
      let k := (-(min e 0)).toNat
      let i := u / 2 ^ k
      let f := (u % 2 ^ k).toNat
      if f = 0 then .val (.fin false 1 i)
      else .mag false (exp2Fix workBits (f * 2 ^ workBits / 2 ^ k) / 2 ^ (workBits - 60)) (i - 60) true

/-- log2 x (R146): exact at powers of two. -/
def lg2Op (_ : Rm) (vs : List FVal) : Exact :=
  match fArg vs 0 with
  | .inf neg => if neg then .invalid else .val (.inf false)
  | .nan _ => .invalid
  | .fin neg m e =>
    if m = 0 then .byZero true
    else if neg then .invalid
    else
      let top := (m.log2 : Int) + e
      if m = 2 ^ m.log2 then .val (.fin (decide (top < 0)) top.natAbs 0)
      else
        let l : Int := log2Fix workBits 100 (m * 2 ^ workBits / 2 ^ m.log2) 0
        let t := top * 2 ^ 100 + l
        if 0 ≤ t then .mag false t.toNat (-100) true else .mag true (-t - 1).toNat (-100) true

def fAddBody (x : Ex) (s : State) : Out := regOp srcs2 (floatWords (arith addOp)) 1 x s
/-- FADD (R146). -/
def execFadd (f : Fields) (s : State) : Host.Outcome State Fault Refusal := runInstr 0x50 f fAddBody s

def fMulBody (x : Ex) (s : State) : Out := regOp srcs2 (floatWords (arith mulOp)) 1 x s
/-- FMUL (R146). -/
def execFmul (f : Fields) (s : State) : Host.Outcome State Fault Refusal := runInstr 0x51 f fMulBody s

/-- FFMA: zero times infinity is invalid even with a quiet NaN addend (R147). -/
def ffma (x : Ex) (vs : List FVal) : Nat × Word :=
  let r := arith fmaOp x vs
  (r.1, r.2 ||| (if zeroInf (fArg vs 0) (fArg vs 1) then fNV else 0))

def ffmaBody (x : Ex) (s : State) : Out := regOp srcs3 (floatWords ffma) 1 x s
/-- FFMA (R146, R147). -/
def execFfma (f : Fields) (s : State) : Host.Outcome State Fault Refusal := runInstr 0x52 f ffmaBody s

/-- The lesser (or greater) of two values that are not NaN, −0 below +0 (R152). -/
def pickMin (less : Bool) (x y : FVal) : FVal :=
  if x.isZero && y.isZero then (if (x.neg == less) then x else y)
  else match cmpVal x y with
    | some .lt => if less then x else y
    | some .gt => if less then y else x
    | _ => x

/-- FMIN and FMAX (R152). -/
def minMaxF (less : Bool) (nan : Bool) (f : Fmt) (vs : List FVal) : Nat × Word :=
  let a := fArg vs 0
  let b := fArg vs 1
  let fl : Word := if a.isSnan || b.isSnan then fNV else 0
  if a.isNan && b.isNan || nan && (a.isNan || b.isNan) then (f.nanCode, fl)
  else
    let v := if a.isNan then b else if b.isNan then a else pickMin less a b
    ((f.put .rn false v).1, fl)
def minMax (less : Bool) (nan : Bool) (x : Ex) (vs : List FVal) : Nat × Word := minMaxF less nan x.fmt vs

def fminBody (x : Ex) (s : State) : Out := regOp srcs2 (floatWords (minMax true (x.f.sub.getLsbD 0))) 1 x s
/-- FMIN (R152). -/
def execFmin (f : Fields) (s : State) : Host.Outcome State Fault Refusal := runInstr 0x53 f fminBody s

def fmaxBody (x : Ex) (s : State) : Out := regOp srcs2 (floatWords (minMax false (x.f.sub.getLsbD 0))) 1 x s
/-- FMAX (R152). -/
def execFmax (f : Fields) (s : State) : Host.Outcome State Fault Refusal := runInstr 0x54 f fmaxBody s

def fdivBody (x : Ex) (s : State) : Out := regOp srcs2 (floatWords (arith divOp)) 1 x s
/-- FDIV (R146). -/
def execFdiv (f : Fields) (s : State) : Host.Outcome State Fault Refusal := runInstr 0x55 f fdivBody s

def fsqrtBody (x : Ex) (s : State) : Out := regOp srcs1 (floatWords (arith sqrtOp)) 1 x s
/-- FSQRT (R146). -/
def execFsqrt (f : Fields) (s : State) : Host.Outcome State Fault Refusal := runInstr 0x56 f fsqrtBody s

def frcpBody (x : Ex) (s : State) : Out := regOp srcs1 (floatWords (arith rcpOp)) 1 x s
/-- FRCP (R146). -/
def execFrcp (f : Fields) (s : State) : Host.Outcome State Fault Refusal := runInstr 0x57 f frcpBody s

def frsqBody (x : Ex) (s : State) : Out := regOp srcs1 (floatWords (arith rsqOp)) 1 x s
/-- FRSQ (R146). -/
def execFrsq (f : Fields) (s : State) : Host.Outcome State Fault Refusal := runInstr 0x58 f frsqBody s

def fex2Body (x : Ex) (s : State) : Out := regOp srcs1 (floatWords (arith ex2Op)) 1 x s
/-- FEX2 (R146). -/
def execFex2 (f : Fields) (s : State) : Host.Outcome State Fault Refusal := runInstr 0x59 f fex2Body s

def flg2Body (x : Ex) (s : State) : Out := regOp srcs1 (floatWords (arith lg2Op)) 1 x s
/-- FLG2 (R146). -/
def execFlg2 (f : Fields) (s : State) : Host.Outcome State Fault Refusal := runInstr 0x5A f flg2Body s

/-- FRND (R151): the sign stays, and no flag but NV for a signalling NaN. -/
def frnd (x : Ex) (vs : List FVal) : Nat × Word :=
  match fArg vs 0 with
  | .fin neg m e => ((x.fmt.put .rn false (.fin neg (roundAt x.rm neg m e false 0).1 0)).1, 0)
  | v => x.fmt.put .rn false v

def frndBody (x : Ex) (s : State) : Out := regOp srcs1 (floatWords frnd) 1 x s
/-- FRND (R151). -/
def execFrnd (f : Fields) (s : State) : Host.Outcome State Fault Refusal := runInstr 0x5B f frndBody s

/-- FSCL (R150): a scale beyond ±4096 rounds as ±4096 does in every format. -/
def fsclWords (x : Ex) (srcs : List (List RegWord)) : List RegWord × Word :=
  let a := natOfWords (srcs.getD 0 [])
  let b := natOfWords (srcs.getD 1 [])
  let el := fun (h : Nat) =>
    let n : Int := if x.x2 then exact 16 true (b / 2 ^ (16 * h)) else exact 32 true b
    match elemIn x a h with
    | .fin neg m e => x.fmt.put x.rm x.ftz (.fin neg m (e + max (-4096) (min n 4096)))
    | v => x.fmt.put x.rm x.ftz v
  let r0 := el 0
  if x.x2 then
    let r1 := el 1
    (freshWords false (r0.1 + 2 ^ 16 * r1.1), r0.2 ||| r1.2)
  else (freshWords false r0.1, r0.2)

def fsclBody (x : Ex) (s : State) : Out := regOp srcs2 fsclWords 1 x s
/-- FSCL (R150). -/
def execFscl (f : Fields) (s : State) : Host.Outcome State Fault Refusal := runInstr 0x5C f fsclBody s

/-- FDOT2 (R149): one rounding of an exact sum of two products and an FP32 word. DEDUCED (log 130). -/
def fdot2Words (x : Ex) (srcs : List (List RegWord)) : List RegWord × Word :=
  let a := natOfWords (srcs.getD 0 [])
  let b := natOfWords (srcs.getD 1 [])
  let lo := [elemIn x a 0, elemIn x b 0]
  let hi := [elemIn x a 1, elemIn x b 1]
  let c := fmtF32.flush x.ftz (fmtF32.decode false (natOfWords (srcs.getD 2 [])))
  let bad := zeroInf (fArg lo 0) (fArg lo 1) || zeroInf (fArg hi 0) (fArg hi 1)
  let vs := lo ++ hi ++ [c]
  let prod := fun (v : List FVal) => if v.any FVal.isNan then .nan false else mulVal (fArg v 0) (fArg v 1)
  let terms := [prod lo, prod hi, c]
  let clash := terms.any (fun v => v == .inf true) && terms.any (fun v => v == .inf false)
  let r : Nat × Word :=
    if vs.any FVal.isNan then (fmtF32.nanCode, if vs.any FVal.isSnan || bad || clash then fNV else 0)
    else if bad then (fmtF32.nanCode, fNV)
    else finish fmtF32 x.rm x.ftz
      (addOp x.rm terms)
  (freshWords false r.1, r.2)

def fdot2Body (x : Ex) (s : State) : Out := regOp srcs3 fdot2Words 1 x s
/-- FDOT2 (R149). -/
def execFdot2 (f : Fields) (s : State) : Host.Outcome State Fault Refusal := runInstr 0x5D f fdot2Body s

/-! Conversions (R153 to R155). -/

/-- A decoded source: an exact integer or a floating value (R154). -/
inductive Src where
  | int (i : Int)
  | flt (v : FVal)

/-- Whether a type code is 16 bits wide. -/
def halfType (t : Nat) : Bool := t == 2 || t == 3 || t == 11 || t == 12

/-- Decodes element `h` of a source type (R154). -/
def decodeSrc (st : Nat) (x2 ftz : Bool) (xv : Word) (v h : Nat) : Src :=
  let v := if x2 then v / 2 ^ (16 * h) % 2 ^ 16 else v
  let wide := fun (f : Fmt) (n : Nat) => Src.flt (f.flush ftz (f.decode false (v % 2 ^ n)))
  match st with
  | 10 => wide fmtF32 32
  | 11 => wide fmtF16 16
  | 12 => wide fmtBF16 16
  | 13 => .flt (decodeE4M3 (v % 256))
  | 14 => .flt (decodeE5M2 (v % 256))
  | 15 => .flt (decodeE2M1 xv (v % 16))
  | 16 => .flt (decodeQ4N xv (v % 16))
  | _ => .int (exact (tyBits st) (tySigned st) v)

/-- An integer as an exact value. -/
def valOfInt (i : Int) : FVal := .fin (decide (i < 0)) i.natAbs 0

/-- Converts to a floating-point or narrow format (R141 to R143). -/
def convertTo (dt : Nat) (rm : Rm) (ftz sat : Bool) (xv : Word) (v : FVal) : Nat × Word :=
  match dt with
  | 13 => putE4M3 rm sat v
  | 14 => putE5M2 rm sat v
  | 15 => putE2M1 xv rm v
  | 16 => putQ4N xv rm v
  | _ => (fmtOf dt).put rm ftz v

/-- The value of a source, and NV when it is a signalling NaN. -/
def Src.val (s : Src) : FVal :=
  match s with
  | .int i => valOfInt i
  | .flt v => v

/-- Converts to an integer type: rounding a floating value (R140), saturating an integer (R155). -/
def convertInt (n : Nat) (sg : Bool) (rm : Rm) (v : Src) : Int × Word :=
  match v with
  | .flt v => putInt n sg rm v
  | .int i => let c := clampInt n sg i; (c, if c = i then 0 else fNV)

/-- The xv register an instruction names (R138, R153). -/
def State.xvAt (s : State) (g n : Nat) : Word := (s.groupAt g).xv.getD n 0

/-- The same as an instruction reads it: once, at its issue, for every execution of a repeat (R138). DESIGN CHOICE (log 128): path two
sees what an XVSET of path one has written in its cycle. -/
def Ex.xvAt (x : Ex) (s : State) (n : Nat) : Word :=
  if x.p.inst.xv.isEmpty then s.xvAt x.p.g n else x.p.inst.xv.getD n 0

/-- FCVT (R154). -/
def fcvtWords (xv : Word) (x : Ex) (srcs : List (List RegWord)) : List RegWord × Word :=
  let v := natOfWords (srcs.getD 0 [])
  let el := fun (h : Nat) =>
    convertTo x.ty x.rm x.ftz (x.f.c.getLsbD 3) xv (decodeSrc x.f.b.toNat x.x2 x.ftz xv v h).val
  let r0 := el 0
  if x.x2 then
    let r1 := el 1
    (freshWords false (r0.1 + 2 ^ 16 * r1.1), r0.2 ||| r1.2)
  else (freshWords false r0.1, r0.2)

/-- ICVT (R154, R155). -/
def icvtWords (xv : Word) (x : Ex) (srcs : List (List RegWord)) : List RegWord × Word :=
  let v := natOfWords (srcs.getD 0 [])
  let n := tyBits x.ty
  let sg := tySigned x.ty
  let el := fun (h : Nat) => convertInt n sg x.rm (decodeSrc x.f.b.toNat x.x2 x.ftz xv v h)
  let r0 := el 0
  if x.x2 then
    let r1 := el 1
    (freshWords false (reduce 16 false 16 r0.1 + 2 ^ 16 * reduce 16 false 16 r1.1), r0.2 ||| r1.2)
  else (freshWords x.wide (reduce n sg (if n = 64 then 64 else 32) r0.1), r0.2)

def fcvtBody (x : Ex) (s : State) : Out := regOp srcs1 (fcvtWords (x.xvAt s (x.f.c.toNat % 8))) 1 x s
/-- FCVT (R154). -/
def execFcvt (f : Fields) (s : State) : Host.Outcome State Fault Refusal := runInstr 0x5E f fcvtBody s

def icvtBody (x : Ex) (s : State) : Out := regOp srcs1 (icvtWords (x.xvAt s (x.f.c.toNat % 8))) x.outWords x s
/-- ICVT (R154, R155). -/
def execIcvt (f : Fields) (s : State) : Host.Outcome State Fault Refusal := runInstr 0x5F f icvtBody s

/-! Comparison and classification (R156 to R158). -/

/-- The condition of FCMP and FSET with its NV (R156, R157). -/
def fltCond (c : Nat) (vs : List FVal) : Bool × Word :=
  let x := fArg vs 0
  let y := fArg vs 1
  let o := cmpVal x y
  let un := o.isNone
  let lt := o == some .lt
  let eq := o == some .eq
  let gt := o == some .gt
  let r := match c with
    | 0 => eq
    | 1 => lt || gt
    | 2 => lt
    | 3 => lt || eq
    | 4 => gt
    | 5 => gt || eq
    | 6 => !un
    | 7 => un
    | 8 => un || eq
    | 9 => un || lt || gt
    | 10 => un || lt
    | 11 => un || lt || eq
    | 12 => un || gt
    | _ => un || gt || eq
  (r, if x.isSnan || y.isSnan || (un && decide (2 ≤ c) && decide (c ≤ 5)) then fNV else 0)

def fcmpFn (x : Ex) (srcs : List (List RegWord)) : Bool × Word :=
  fltCond x.f.c.toNat (srcs.map (fun ws => elemIn x (natOfWords ws) 0))

def fcmpBody (x : Ex) (s : State) : Out := predOp srcs2 fcmpFn x s
/-- FCMP (R156). -/
def execFcmp (f : Fields) (s : State) : Host.Outcome State Fault Refusal := runInstr 0x31 f fcmpBody s

/-- FSET (R157). -/
def fsetEl (x : Ex) (vs : List FVal) : Nat × Word :=
  let r := fltCond x.f.c.toNat vs
  (if r.1 then (if x.ty = 10 then 2 ^ 32 - 1 else 2 ^ 16 - 1) else 0, r.2)

def fsetBody (x : Ex) (s : State) : Out := regOp srcs2 (floatWords fsetEl) 1 x s
/-- FSET (R157). -/
def execFset (f : Fields) (s : State) : Host.Outcome State Fault Refusal := runInstr 0x36 f fsetBody s

/-- The class of a value (R158). -/
def classNo (f : Fmt) (v : FVal) : Nat :=
  match v with
  | .nan sg => if sg then 0 else 1
  | .inf neg => if neg then 2 else 9
  | .fin neg m e =>
    if m = 0 then (if neg then 5 else 6)
    else if (m.log2 : Int) + e < f.emin then (if neg then 4 else 7)
    else (if neg then 3 else 8)

def fclsFn (x : Ex) (srcs : List (List RegWord)) : Bool × Word :=
  (bitAt (natOfWords (srcs.getD 1 [])) (classNo x.fmt (elemIn x (natOfWords (srcs.getD 0 [])) 0)) == 1, 0)

def fclsBody (x : Ex) (s : State) : Out := predOp srcs2 fclsFn x s
/-- FCLS (R158). -/
def execFcls (f : Fields) (s : State) : Host.Outcome State Fault Refusal := runInstr 0x37 f fclsBody s

end Sys2Proof.Machine
end

