-- ==== Sys2Proof/Machine/Rmw.lean ====
section
/-! DEFINITION. Read-modify-write on words of memory and of the scratchpad (R266, R267): the new value, and performing the
operation in an L1 or at a home (R250, R268, R293). -/

namespace Sys2Proof.Machine

/-- A floating operation of R266 on one element: rounded to nearest, no flags. -/
def atomFloat (c : Nat) (f : Fmt) (o b : Nat) : Nat :=
  let vs := [f.decode false o, f.decode false b]
  match c with
  | 9 => if vs.any FVal.isNan then f.nanCode else (finish f .rn false (addOp .rn vs)).1
  | 10 => (minMaxF true false f vs).1
  | _ => (minMaxF false false f vs).1

/-- The new value of R266, `n` bits wide. -/
def atomNew (c : Nat) (ty : BitVec 5) (n o b : Nat) : Nat :=
  let e := fun (v : Nat) => exact n (tySigned ty.toNat) v
  match c with
  | 0 => (o + b) % 2 ^ n
  | 1 => if e o ≤ e b then o else b
  | 2 => if e o ≤ e b then b else o
  | 3 => o &&& b
  | 4 => o ||| b
  | 5 => o ^^^ b
  | 6 => b
  | 7 => if b ≤ o then 0 else o + 1
  | 8 => if o = 0 || b < o then b else o - 1
  | _ =>
    if ty.toNat = 10 then atomFloat c fmtF32 o b
    else
      let f := fmtOf ty.toNat
      atomFloat c f (o % 2 ^ 16) (b % 2 ^ 16) + 2 ^ 16 * atomFloat c f (o / 2 ^ 16) (b / 2 ^ 16)

/-- The value of `words` words after an operation. -/
def Rmw.apply (r : Rmw) (words o : Nat) : Nat :=
  match r with
  | .bytes m v => (mergeBytes m v (BitVec.ofNat 32 o)).toNat
  | .op c ty b => atomNew c ty (32 * words) o (b.toNat % 2 ^ (32 * words))
  | .cas b c => if o = b.toNat % 2 ^ (32 * words) then c.toNat % 2 ^ (32 * words) else o

/-- The number some words hold, low word first. -/
def natOfMem (ws : List MemWord) : Nat :=
  match ws with
  | [] => 0
  | w :: r => w.val.toNat + 2 ^ 32 * natOfMem r

/-- What an operation finds and leaves: a poisoned word stays as it is (R245, R267). A store of whole words clears
the poison. DEDUCED (log 66). -/
def Rmw.run (r : Rmw) (old : List MemWord) : Option (List MemWord) :=
  match r with
  | .bytes 15 v => some [{ val := v }]
  | _ =>
    if old.any (fun w => w.bad) then none else
    let v := r.apply old.length (natOfMem old)
    some ((List.range old.length).map (fun i => { val := BitVec.ofNat 32 (v / 2 ^ (32 * i)) }))

/-- Tells an operation's issuer its result: the old words, or why it failed (R267); a sub-word store into poison counts
(R235, R245). -/
def State.rmwDone (s : State) (p : PendOp) (old : List MemWord) (ok : Bool) : State :=
  match p.prod with
  | some id =>
    ((List.range old.length).zip old).foldl (fun s e =>
      s.giveItem id p.lane e.1 (if ok then .mem e.2 else .fail cECC p.va (eccDetail old))) s
  | none => if ok then s else s.countPart p.exec p.g p.w p.f 0 p.pc [(p.lane, .new cECC p.va (eccDetail old))]

/-- Performs an operation in its L1, where every word is Owned (R250, R268). -/
def State.rmwL1 (s : State) (p : PendOp) : State :=
  let old := p.was.map (fun wa => match s.l1At p.core wa with
    | some e => e.word
    | none => {})
  let s := { s with pend := s.pend.filter (fun q => q.id != p.id) }
  let s := p.was.foldl (fun s wa => s.fixReads p.core wa) s
  match p.rmw.run old with
  | some ws =>
    ((p.was.zip ws).foldl (fun s e => s.setL1 p.core e.1 (some { st := .owned, word := e.2, ctx := p.ctx })) s).rmwDone p old true
  | none => s.rmwDone p old false

/-- Performs an operation at its home bank (R250, R268). -/
def State.rmwHome (s : State) (p : PendOp) : State :=
  let old := p.was.map s.homeWord
  match p.rmw.run old with
  | some ws => ((p.was.zip ws).foldl (fun s e => s.setHome e.1 e.2) s).rmwDone p old true
  | none => s.rmwDone p old false

def State.allOwned (s : State) (p : PendOp) : Bool := p.was.all (s.isOwned p.core)

/-- Performs the operations of a core whose words have all become its own, oldest first (R250). -/
def State.runPend (s : State) (core : Nat) : State :=
  (s.pend.filter (fun p => p.core == core && !p.uc)).foldl (fun s p => if s.allOwned p then s.rmwL1 p else s) s

/-- A lane's atomic on a memory place: performed at once where every word is Owned, else waiting (R250, R268). -/
def State.atomic (s : State) (b : By) (core : Nat) (ctx : Byte) (dpa words : Nat) (r : Rmw) (prod : Option Nat) (uc : Bool) :
    State :=
  let s := s.addPend b core ctx dpa words r prod uc
  if uc then s else s.runPend (s.agent core)

end Sys2Proof.Machine
end

