-- ==== Sys2Proof/Machine/Scratch.lean ====
section
/-! DEFINITION. Accesses to the scratchpad (R256 to R264, R268): performing one word's access, parking and waking, LDS, STS,
LDFE, STFE and ATOMS. -/

namespace Sys2Proof.Machine

/-- Whether an access parks on a word with this tag (R260, R261). -/
def SpOp.parks (o : SpOp) (full : Bool) : Bool :=
  match o with
  | .read _ probe => !full && !probe
  | .write force => full && !force
  | _ => false

/-- The item of a producer that takes an access's result. -/
def State.itemOf (s : State) (p : ParkedFe) : Option Item :=
  (s.prods.find? (fun q => some q.id == p.prod)).bind (fun q => q.items.find? (fun i => i.lane == p.lane && i.half == p.half))

/-- Gives an access's result (R235, R258, R396): a poisoned word as it stands, or, where this read finds its error, new poison. -/
def State.giveSp (s : State) (p : ParkedFe) (x : SpadWord) : State :=
  match s.itemOf p, p.prod with
  | some i, some id =>
    let covered := (List.range (min 4 (tySize i.ty))).all (fun j => (i.held.getD j none).isSome)
    (s.giveItem id p.lane p.half (if !x.poison || covered then .mem { val := x.val }
      else if x.fresh then .fail cECC (p.addr.setWidth 64) 0 else .reg (badWord x.val))).spFound p.g (p.off / 4)
  | _, _ => s

/-- Performs an access to one word, and says whether the word's tag changed (R258 to R261, R267, R268). A probe's failure
names the operand code that its `data` holds (R387). -/
def State.spPerform (s : State) (p : ParkedFe) : State × Bool :=
  let i := p.off / 4
  let x := s.spAt p.g i
  match p.op with
  | .load => (s.giveSp p x, false)
  | .store n =>
    (s.spadStore { g := p.ig, w := p.w, f := p.f, lane := p.lane, pc := p.pc, va := p.addr.setWidth 64, exec := p.exec } p.g p.off n
      (p.data.setWidth 64), false)
  | .read take _ =>
    if x.full then
      let s := s.giveSp p x
      if take then (s.setSp p.g i { s.spAt p.g i with full := false }, true) else (s, false)
    else
      (match p.prod with
        | some id => s.giveItem id p.lane p.half (.fail cEMPTY (p.addr.setWidth 64) p.data)
        | none => s, false)
  | .write _ => (s.setSp p.g i { val := p.data }, !x.full)
  | .rmw r =>
    match p.prod with
    | none => (s, false)
    | some id =>
      if x.poison then
        ((s.giveItem id p.lane p.half (.fail cECC (p.addr.setWidth 64) (if x.fresh then 0 else 1))).spFound p.g i, false)
      else ((s.giveItem id p.lane p.half (.mem { val := x.val })).setSp p.g i
              { x with val := BitVec.ofNat 32 (r.apply 1 x.val.toNat) }, false)

/-- The core whose scratchpad an access goes to. -/
def State.spCore (s : State) (p : ParkedFe) : Nat := (s.groupAt p.g).core

/-- Whether an access waits behind an earlier one of its lane among those parked (R262). -/
def behind (ps : List ParkedFe) (p : ParkedFe) : Bool := (ps.takeWhile (fun q => q.id != p.id)).any (fun q => q.sameLane p)

/-- Full/empty accesses among those that have reached a scratchpad's words and wait (R262). -/
def parkedFe (ps : List ParkedFe) : Nat := (ps.filter (fun p => p.op.isFe)).length

/-- Whether an access has found the table's 512 entries taken and waits at its bank: the entries go to the accesses in the order in which they
arrived (R262). DEDUCED (log 59). -/
def atBank (ps : List ParkedFe) (p : ParkedFe) : Bool :=
  p.op.isFe && decide (512 ≤ parkedFe (ps.takeWhile (fun q => q.id != p.id)))

/-- Whether a parked access can perform now (R263); one that waits at its bank has not parked yet (R262). DEDUCED (log 58). -/
def State.spCan (s : State) (p : ParkedFe) : Bool :=
  let ps := (s.coreAt (s.spCore p)).parked
  ps.any (fun q => q.id == p.id) && !atBank ps p && !behind ps p && !p.op.parks (s.spAt p.g (p.off / 4)).full

/-- Performs a parked access, which leaves the table. -/
def State.spLeave (s : State) (p : ParkedFe) : State :=
  ((s.modCore (s.spCore p) (fun c => { c with parked := c.parked.filter (fun q => q.id != p.id) })).spPerform p).1

/-- One pass over the parked accesses on a word, in parking order (R263): whether any performed. -/
def State.spPass (s : State) (core g i : Nat) : State × Bool :=
  ((s.coreAt core).parked.filter (fun p => p.g == g && p.off / 4 == i)).foldl (fun acc p =>
    if acc.1.spCan p then (acc.1.spLeave p, true) else acc) (s, false)

/-- Passes until one performs none (R263). -/
def State.spWake (s : State) (core g i : Nat) : Nat → State
  | 0 => s
  | n + 1 =>
    let r := s.spPass core g i
    if r.2 then r.1.spWake core g i n else r.1

/-- Wakes the parked accesses on a word whose tag has changed (R263). -/
def State.spChanged (s : State) (g i : Nat) : State :=
  let c := (s.groupAt g).core
  s.spWake c g i ((s.coreAt c).parked.length + 1)

/-- An access arrives at its word: it performs, or it parks, behind its lane's own parked accesses, or waits at its bank while the
table is full (R260 to R263). -/
def State.spArrive (s : State) (p : ParkedFe) : State :=
  let ps := (s.coreAt (s.spCore p)).parked
  if ps.any (fun q => q.sameLane p) || p.op.parks (s.spAt p.g (p.off / 4)).full then
    s.modCore (s.spCore p) (fun c => { c with parked := c.parked ++ [p] })
  else
    let r := s.spPerform p
    if r.2 then r.1.spChanged p.g (p.off / 4) else r.1

/-- An access record of one lane of execution `e`. -/
def State.spAccess (s : State) (x : Ex) (e l half : Nat) (addr : Word) (g off : Nat) (op : SpOp) (prod : Option Nat)
    (data : Word) : State :=
  let (i, s) := s.newId
  s.spArrive { id := i, exec := e, g := g, off := off, op := op, acq := x.op == 0x86 && x.f.sub.getLsbD 2,
               rel := x.op == 0x87 && x.f.sub.getLsbD 2, ig := x.p.g, w := x.p.w, f := x.p.f, lane := l, half := half,
               prod := prod, pc := x.p.pc, addr := addr, dest := x.f.d, data := data }

/-- Held bytes of a word for the fibre's own loads (R396). -/
def heldAt (y : Fibre) (spad : Bool) (a n : Nat) : List (Option Byte) :=
  if y.inRegion && !y.quar.isEmpty then (List.range n).map (fun j => heldByte y spad (a + j)) else []

/-- Items of a load of `n` bytes from places (R24, R123, R258); a lane that makes no access has its poison. -/
def loadItems (x : Ex) (s : State) (ty : BitVec 5) (n : Nat) (locs : List (Nat × Loc)) : List Item :=
  let y := x.fibre s
  let m := min n 4
  locs.flatMap (fun e => (List.range (max 1 (n / 4))).map (fun h =>
    let d := s.destOf x x.f.d h e.1
    let wty : BitVec 5 := if n < 4 then ty else 8
    let base : Item := { dst := d, lane := e.1, half := h, ty := wty }
    match e.2 with
    | .mem va dpa _ =>
      { base with va := va + BitVec.ofNat 64 (4 * h), dpa := dpa + 4 * h, off := dpa % 4
                  held := heldAt y false (dpa + 4 * h) m }
    | .sp a g off => { base with va := a.setWidth 64, dpa := off + 4 * h, off := off % 4
                                 held := heldAt y true (g * 2 ^ 24 + off + 4 * h) m }
    | .bad v => { base with got := some v.got }))

/-- The lanes whose access fails, with their poison. -/
def badLocs (locs : List (Nat × Loc)) : List (Nat × Val) :=
  locs.filterMap (fun e => match e.2 with
    | .bad v => some (e.1, v)
    | _ => none)

/-- Whether LDS can issue (R206, R264, R311). -/
def ldsReady (x : Ex) (s : State) : Bool :=
  s.ready x {} && !s.memHeld x (s.spLocs x x.parts (tySize x.f.md)) (tySize x.f.md) false false

/-- LDS: its words are read where they stand, or wait behind their lanes' parked accesses (R258, R262). -/
def ldsOut (x : Ex) (s : State) : State :=
  let n := tySize x.f.md
  let locs := s.spLocs x x.parts n
  let s := s.popQueues x x.codes
  let id := s.idN
  let s := s.produce x .load false false (loadItems x s x.f.md n locs)
  locs.foldl (fun s e => match e.2 with
    | .sp a g off => (List.range (max 1 (n / 4))).foldl (fun s h => s.spAccess x id e.1 h a g (off + 4 * h) .load (some id) 0) s
    | _ => s) s

def ldsBody (x : Ex) (s : State) : Out := if !ldsReady x s then .wait else .ok (ldsOut x s) []
/-- LDS (R258). -/
def execLds (f : Fields) (s : State) : Host.Outcome State Fault Refusal := runInstr 0x82 f ldsBody s

/-- Whether a store in an open region has no entry left, and freezes (R394). -/
def quarFull (x : Ex) (s : State) : Bool :=
  (x.fibre s).inRegion && decide (64 ≤ (s.fibreAt x.p.g x.p.w x.p.f).quar.length)

/-- Holds a store in the open region as one entry (R394). -/
def holdStore (x : Ex) (s : State) (kind : QKind) (outs : List (Nat × Loc × Option Val × DWord)) : State :=
  let unit := fun (l : Nat) => if kind == .stu then wholeUnit else l
  let (s, tbl) := s.makePoison x.p.g x.p.w x.p.f 0 x.p.pc (outs.filterMap (fun o => o.2.2.1.map (fun v => (unit o.1, v))))
  let lane : Nat × Loc × Option Val × DWord → QLane := fun o =>
    let bad := o.2.2.1.map (fun v => (v.word tbl).val)
    match o.2.1 with
    | .mem va dpa uc => { lane := o.1, va := va, addr := dpa, uc := uc, data := o.2.2.2, bad := bad }
    | .sp a g off => { lane := o.1, va := a.setWidth 64, addr := g * 2 ^ 24 + off, data := o.2.2.2, bad := bad }
    | .bad _ => { lane := o.1, addr := 0, data := o.2.2.2, bad := bad, here := false }
  let va : DWord := match outs with
    | (_, .mem va _ _, _) :: _ => va
    | (_, .sp a _ _, _) :: _ => a.setWidth 64
    | _ => 0
  let (id, s) := s.newId
  let e : QEntry := { kind := kind, ty := x.f.md, pc := x.p.pc, va := va, lanes := outs.map lane, exec := id, parts := maskOf x.parts }
  s.modFibre x.p.g x.p.w x.p.f (fun y => { y with quar := y.quar ++ [e] })

/-- What each lane of a store does: its place, why it writes nothing, and its data. -/
def storeOuts (x : Ex) (s : State) (locs : List (Nat × Loc)) : List (Nat × Loc × Option Val × DWord) :=
  locs.map (fun e => let d := s.srcD x e.1; (e.1, e.2, storeBad e.2 d, dataOf d))

/-- The lanes of a store that write nothing. -/
def storeBads (outs : List (Nat × Loc × Option Val × DWord)) : List (Nat × Val) :=
  outs.filterMap (fun o => o.2.2.1.map (fun v => (o.1, v)))

/-- Whether STS can issue (R206, R264, R311). -/
def stsReady (x : Ex) (s : State) : Bool :=
  s.ready x { d := true } && !s.memHeld x (s.spLocs x x.parts (tySize x.f.md)) (tySize x.f.md) true false

/-- STS: held in an open region, else written, a lane that fails counted (R259, R394). -/
def stsOut (x : Ex) (s : State) : State :=
  let n := tySize x.f.md
  let outs := storeOuts x s (s.spLocs x x.parts n)
  let s := s.popQueues x x.codes
  if (x.fibre s).inRegion then holdStore x s .sts outs else
  let (id, s) := s.newId
  let s := s.countPart id x.p.g x.p.w x.p.f 0 x.p.pc (storeBads outs)
  outs.foldl (fun s o => match o.2.1, o.2.2.1 with
    | .sp a g off, none =>
      if n < 4 then s.spAccess x id o.1 0 a g off (.store n) none (storeWordAt o.2.2.2 0)
      else (List.range (n / 4)).foldl (fun s h =>
        s.spAccess x id o.1 h a g (off + 4 * h) (.store 4) none (storeWordAt o.2.2.2 h)) s
    | _, _ => s) s

def stsBody (x : Ex) (s : State) : Out :=
  if !stsReady x s then .wait else if quarFull x s then .freeze cOVERFLOW else .ok (stsOut x s) []
/-- STS (R259). -/
def execSts (f : Fields) (s : State) : Host.Outcome State Fault Refusal := runInstr 0x83 f stsBody s

/-- Whether the table of parked accesses is full and a lane's access would park: a word of another member's scratchpad
is judged as though it would not (R262). -/
def State.parkFull (s : State) (x : Ex) (locs : List (Nat × Loc)) (op : SpOp) : Bool :=
  let c := s.coreAt (x.core s)
  decide (512 ≤ parkedFe c.parked) && locs.any (fun e => match e.2 with
    | .sp _ g off => g == x.p.g && (op.parks (s.spAt g (off / 4)).full || c.parked.any (fun q =>
        q.of x.p.g x.p.w x.p.f && q.lane == e.1 && q.g == g && q.off / 4 == off / 4))
    | _ => false)

/-- What LDFE does to its word: .take empties it, .probe does not park (R260). -/
def ldfeOp (x : Ex) : SpOp := .read (x.f.sub.toNat % 2 == 1) (2 ≤ x.f.sub.toNat % 4)

/-- Whether LDFE can issue (R206, R262, R264, R311). -/
def ldfeReady (x : Ex) (s : State) : Bool :=
  s.ready x {} && !(s.memHeld x (s.spLocs x x.parts 4) 4 (x.f.sub.toNat % 2 == 1) true
    || s.parkFull x (s.spLocs x x.parts 4) (ldfeOp x))

/-- LDFE (R260, R262 to R264, R395). DEDUCED (log 60). -/
def ldfeOut (x : Ex) (s : State) : State :=
  let mode := x.f.sub.toNat % 4
  let acq := x.f.sub.getLsbD 2
  let op := ldfeOp x
  let locs := s.spLocs x x.parts 4
  let s := s.popQueues x x.codes
  let s := if mode % 2 == 1 then s.irrev x else s
  let id := s.idN
  let s := s.produce x .park acq false (loadItems x s 8 4 locs)
  locs.foldl (fun s e => match e.2 with
    | .sp a g off => s.spAccess x id e.1 0 a g off op (some id) (x.f.a.setWidth 32)
    | _ => s) s

def ldfeBody (x : Ex) (s : State) : Out := if !ldfeReady x s then .wait else .ok (ldfeOut x s) []
/-- LDFE (R260). -/
def execLdfe (f : Fields) (s : State) : Host.Outcome State Fault Refusal := runInstr 0x86 f ldfeBody s

/-- Whether STFE can issue (R206, R262, R264, R280, R311); a lane that writes nothing takes no entry. -/
def stfeReady (x : Ex) (s : State) : Bool :=
  let locs := s.spLocs x x.parts 4
  let some_ := ((storeOuts x s locs).filter (fun o => o.2.2.1.isNone)).map (fun o => (o.1, o.2.1))
  s.ready x { d := true } && !(s.memHeld x locs 4 true true || s.parkFull x some_ (.write (x.f.sub.getLsbD 0))
    || (x.f.sub.getLsbD 2 && !s.relReady x.p.g x.p.w x.p.f))

/-- The lanes of STFE that write nothing. -/
def stfeBads (x : Ex) (s : State) : List (Nat × Val) := storeBads (storeOuts x s (s.spLocs x x.parts 4))

/-- STFE (R261 to R264, R395): its failing lanes are counted, or held as one entry in an open region. -/
def stfeOut (x : Ex) (s : State) : State :=
  let op : SpOp := .write (x.f.sub.getLsbD 0)
  let outs := storeOuts x s (s.spLocs x x.parts 4)
  let bads := storeBads outs
  let rgn := (x.fibre s).inRegion
  let (id, s) := ((s.popQueues x x.codes).irrev x).newId
  let s := outs.foldl (fun s o => match o.2.1, o.2.2.1 with
    | .sp a g off, none => s.spAccess x id o.1 0 a g off op none (storeWordAt o.2.2.2 0)
    | _, _ => s) s
  if !rgn then s.countBad x.p.g x.p.w x.p.f 0 x.p.pc bads
  else if bads.isEmpty then s
  else
    let (s, tbl) := s.makePoison x.p.g x.p.w x.p.f 0 x.p.pc bads
    let e : QEntry := { kind := .stfe, ty := 8, pc := x.p.pc, exec := id, parts := maskOf x.parts
                        lanes := bads.map (fun b => { lane := b.1, addr := 0, data := 0, bad := some (b.2.word tbl).val }) }
    s.modFibre x.p.g x.p.w x.p.f (fun y => { y with quar := y.quar ++ [e] })

def stfeBody (x : Ex) (s : State) : Out :=
  if !stfeReady x s then .wait else if !(stfeBads x s).isEmpty && quarFull x s then .freeze cOVERFLOW else .ok (stfeOut x s) []
/-- STFE (R261). -/
def execStfe (f : Fields) (s : State) : Host.Outcome State Fault Refusal := runInstr 0x87 f stfeBody s

end Sys2Proof.Machine
end

