-- ==== Sys2Proof/Machine/Memory.lean ====
section
/-! DEFINITION. Flat loads and stores (R122 to R126), cache control and prefetch (R270 to R273). -/

namespace Sys2Proof.Machine

/-- Asks the homes for words, one RD for each line (R250, R448); the items of producer `id` that await them note the RD. -/
def State.askWords (s : State) (core : Nat) (ctx : Byte) (id : Option Nat) (alloc uc : Bool) (was : List Nat) : State :=
  ((was.map (fun wa => wa / 32)).eraseDups).foldl (fun s line =>
    let mine := was.filter (fun wa => wa / 32 == line)
    let n := s.idN
    let s := s.send .rd (s.agent core) line (wordBits mine) [] ctx n alloc none uc
    { s with prods := s.prods.map (fun (p : Prod) => if id == some p.id then
        { p with items := p.items.map (fun (i : Item) => if i.got.isNone && mine.contains (i.dpa / 4) then { i with rd := n } else i) }
        else p) }) s

/-- Words `(lane, half, word)` that a load takes from memory places. -/
def loadWords (uc : Bool) (n : Nat) (locs : List (Nat × Loc)) : List (Nat × Nat × Nat) :=
  locs.flatMap (fun e => match e.2 with
    | .mem _ dpa u => if u == uc then (List.range (max 1 (n / 4))).map (fun h => (e.1, h, dpa / 4 + h)) else []
    | _ => [])

/-- Performs a load's words: hits return the L1's copy, the rest are asked for (R250). -/
def State.loadGo (s : State) (core : Nat) (ctx : Byte) (id : Nat) (alloc : Bool) (n : Nat) (locs : List (Nat × Loc)) : State :=
  let ws := loadWords false n locs
  let s := (linesOf locs).foldl (fun s line => s.ownLine core ctx line) s
  let s := ws.foldl (fun s e => match s.loadHit core ctx e.2.2 with
    | some v => s.giveItem id e.1 e.2.1 (.mem v)
    | none => s) s
  let miss := (ws.filter (fun e => (s.loadHit core ctx e.2.2).isNone)).map (fun e => e.2.2)
  (s.askWords core ctx (some id) alloc false miss).askWords core ctx (some id) false true ((loadWords true n locs).map (fun e => e.2.2))

/-- Whether the hint asks for no allocation in the L1 (R122). -/
def naHint (x : Ex) : Bool := x.f.sub.toNat / 2 % 4 == 2

/-- Items of an instruction that acts once: a partial uniform write gives MIXED, and the access drops its result (R175). DEDUCED (log 61). -/
def State.mixItems (s : State) (x : Ex) (items : List Item) : List Item :=
  if x.f.d.toNat < 0xC0 || 0xF0 ≤ x.f.d.toNat || x.whole s then items else
  items.map (fun i => { i with dst := .none }) ++ items.map (fun i =>
    { dst := i.dst, lane := x.low, half := 2 + i.half, got := some (.fail cMIXED 0 (liveMask (x.fibre s))) })

/-- The lanes that access: every participant, or the lowest for an instruction that acts once (R125). -/
def Ex.lanes (x : Ex) (once : Bool) : List Nat := if once then [x.low] else x.parts

/-- The places of an instruction that acts once are accesses of the fibre as a whole (R277, R278, R388). -/
def asWhole (once : Bool) (locs : List (Nat × Loc)) : List (Nat × Loc) :=
  if once then locs.map (fun e => (wholeUnit, e.2)) else locs

/-- Whether LD or LDU can issue (R206, R264, R287, R311). -/
def loadReady (once : Bool) (x : Ex) (s : State) : Bool :=
  let r := s.flatLocs x (x.lanes once) (tySize x.f.md) .load false
  s.ready x {} && !r.2.memHeld x (asWhole once r.1) (tySize x.f.md) false false

/-- LD and LDU, whose lane is the fibre as a whole (R123, R125). -/
def loadOut (once : Bool) (x : Ex) (s : State) : State :=
  let n := tySize x.f.md
  let r := s.flatLocs x (x.lanes once) n .load false
  let locs := asWhole once r.1
  let s := r.2.popQueues x x.codes
  let id := s.idN
  let s := s.produce x .load false false (s.mixItems x (loadItems x s x.f.md n locs))
  s.loadGo (x.core s) (x.ctx s) id (!naHint x) n locs

def loadBody (once : Bool) (x : Ex) (s : State) : Out := if !loadReady once x s then .wait else .ok (loadOut once x s) []

def ldBody (x : Ex) (s : State) : Out := loadBody false x s
/-- LD (R123). -/
def execLd (f : Fields) (s : State) : Host.Outcome State Fault Refusal := runInstr 0x80 f ldBody s

def lduBody (x : Ex) (s : State) : Out := loadBody true x s
/-- LDU (R125). -/
def execLdu (f : Fields) (s : State) : Host.Outcome State Fault Refusal := runInstr 0x84 f lduBody s

/-- The places of a store's lanes, in order; one held in an open region meets the access table at its release (R124, R394). -/
def storeLocs (once : Bool) (x : Ex) (s : State) : List (Nat × Loc) × State :=
  s.flatLocs x (x.lanes once) (tySize x.f.md) .store (x.fibre s).inRegion

/-- Whether ST or STU can issue (R206, R264, R287, R311). -/
def storeReady (once : Bool) (x : Ex) (s : State) : Bool :=
  s.ready x { d := true } && !(storeLocs once x s).2.memHeld x (asWhole once (storeLocs once x s).1) (tySize x.f.md) true false

/-- ST and STU (R124, R125): held in a region, else performed in lane order. -/
def storeOut (once : Bool) (x : Ex) (s : State) : State :=
  let n := tySize x.f.md
  let rgn := (x.fibre s).inRegion
  let r := storeLocs once x s
  let s := r.2
  let outs := storeOuts x s r.1
  let s := s.popQueues x x.codes
  let unit : Nat → Nat := fun l => if once then wholeUnit else l
  if rgn then holdStore x s (if once then .stu else .st) outs else
  let (id, s) := s.newId
  let s := s.countPart id x.p.g x.p.w x.p.f 0 x.p.pc ((storeBads outs).map (fun b => (unit b.1, b.2)))
  outs.foldl (fun s o => match o.2.1, o.2.2.1 with
    | .mem va dpa uc, none =>
      s.flatStore { g := x.p.g, w := x.p.w, f := x.p.f, lane := unit o.1, pc := x.p.pc, va := va, exec := id } (x.core s) (x.ctx s)
        dpa uc n o.2.2.2
    | _, _ => s) s

def storeBody (once : Bool) (x : Ex) (s : State) : Out :=
  if !storeReady once x s then .wait else if quarFull x s then .freeze cOVERFLOW else .ok (storeOut once x s) []

def stBody (x : Ex) (s : State) : Out := storeBody false x s
/-- ST (R124). -/
def execSt (f : Fields) (s : State) : Host.Outcome State Fault Refusal := runInstr 0x81 f stBody s

def stuBody (x : Ex) (s : State) : Out := storeBody true x s
/-- STU (R125). -/
def execStu (f : Fields) (s : State) : Host.Outcome State Fault Refusal := runInstr 0x85 f stuBody s

/-! Cache control (R270, R271). -/

/-- The lines that the participants of PFC or CCTL name; the lane's word for poison. -/
def State.lineLocs (s : State) (x : Ex) : List (Nat × (Option (Nat × Bool) ⊕ Val)) × State :=
  x.parts.foldl (fun acc l =>
    let s := acc.2
    match s.flatAddr x l 128 0 with
    | (_, some v) => (acc.1 ++ [(l, match v with
        | .new c _ _ => if c == cPAGE then .inl none else .inr v
        | .ok _ => .inr v)], s)
    | (va, none) =>
      match s.reach (x.core s) (x.ctx s) va.toNat .load with
      | (.ok dpa uc, s) => (acc.1 ++ [(l, .inl (some (dpa / 128, uc)))], s)
      | (.fail _ _, s) => (acc.1 ++ [(l, .inl none)], s)) ([], s)

/-- The distinct lines that were reached. -/
def linesReached (ls : List (Nat × (Option (Nat × Bool) ⊕ Val))) : List (Nat × Bool) :=
  (ls.filterMap (fun e => match e.2 with
    | .inl o => o
    | .inr _ => none)).eraseDups

/-- Whether PFC can issue (R206, R264). -/
def pfcReady (x : Ex) (s : State) : Bool := s.ready x {} && !s.acqHeld x.p.g x.p.w x.p.f

/-- PFC (R270, R271). -/
def pfcOut (x : Ex) (s : State) : State :=
  let r := s.lineLocs x
  let s := r.2.popQueues x x.codes
  (linesReached r.1).foldl (fun s e =>
    if e.2 then s
    else if x.f.sub.getLsbD 0 then s.homeAccess e.1 (x.ctx s) false false
    else s.askWords (x.core s) (x.ctx s) none true false
      (((List.range 32).map (fun i => 32 * e.1 + i)).filter (fun wa => (s.loadHit (x.core s) (x.ctx s) wa).isNone))) s

def pfcBody (x : Ex) (s : State) : Out := if !pfcReady x s then .wait else .ok (pfcOut x s) []
/-- PFC (R270). -/
def execPfc (f : Fields) (s : State) : Host.Outcome State Fault Refusal := runInstr 0x8D f pfcBody s

/-- Words of a line in an L1. -/
def State.lineWords (s : State) (core line : Nat) : List (Nat × L1Word) :=
  (s.coreAt (s.agent core)).l1.filter (fun e => e.1 / 32 == line)

/-- CCTL.inv: Valid words of the line become Invalid (R270). -/
def State.lineInv (s : State) (core line : Nat) : State :=
  (s.modCore (s.agent core) (fun c => { c with l1 := c.l1.filter (fun e => e.1 / 32 != line || e.2.st != .valid) })).noAllocLine
    (s.agent core) line

/-- CCTL.wb: Owned words are written back and become Valid (R270). -/
def State.lineWb (s : State) (core line : Nat) (ctx : Byte) : State :=
  let owned := (s.lineWords core line).filter (fun e => e.2.st == .owned)
  if owned.isEmpty then s else
  let s := owned.foldl (fun s e => s.setL1 core e.1 (some { e.2 with st := .valid })) s
  (s.send .wb (s.agent core) line (wordBits (owned.map (fun e => e.1))) (owned.map (fun e => (e.1, e.2.word))) ctx).chase
    (s.agent core)

/-- Whether CCTL can issue: a write-back waits for Pending words (R206, R264, R270). -/
def cctlReady (x : Ex) (s : State) : Bool :=
  let r := s.lineLocs x
  s.ready x {} && !s.acqHeld x.p.g x.p.w x.p.f && !(x.f.sub.toNat % 4 ≠ 0 && (linesReached r.1).any (fun e =>
    (r.2.lineWords (x.core r.2) e.1).any (fun w => w.2.st == .pending)))

/-- CCTL (R270, R271): a poisoned address is counted. -/
def cctlOut (x : Ex) (s : State) : State :=
  let r := s.lineLocs x
  let s := r.2
  let op := x.f.sub.toNat % 4
  let ls := linesReached r.1
  let s := s.popQueues x x.codes
  let s := ls.foldl (fun s e =>
    let s := if op = 0 then s else s.lineWb (x.core s) e.1 (x.ctx s)
    if op = 1 then s else s.lineInv (x.core s) e.1) s
  s.countBad x.p.g x.p.w x.p.f 0 x.p.pc (r.1.filterMap (fun e => match e.2 with
    | .inl _ => none
    | .inr v => some (e.1, v)))

def cctlBody (x : Ex) (s : State) : Out := if !cctlReady x s then .wait else .ok (cctlOut x s) []
/-- CCTL (R270). -/
def execCctl (f : Fields) (s : State) : Host.Outcome State Fault Refusal := runInstr 0x8E f cctlBody s

/-- The device frames (by the address of each) that a tier prefetch covers (R272). DEDUCED (log 64). -/
def State.pftFrames (s : State) (x : Ex) (a len : Nat) : List (Nat × Bool) × State :=
  let n := min len 67108864
  if n = 0 then ([], s) else
  let first := a / 2 ^ 21
  (List.range ((a + n - 1) / 2 ^ 21 - first + 1)).foldl (fun acc i =>
    match acc.2.reach (x.core acc.2) (x.ctx acc.2) (max a ((first + i) * 2 ^ 21)) .load with
    | (.ok dpa uc, s) => (acc.1 ++ [(dpa / 2 ^ 21 * 2 ^ 21, uc)], s)
    | (.fail _ _, s) => (acc.1, s)) ([], s)

/-- Whether PFT can issue: a core has 16 in flight at most (R206, R264, R273). -/
def pftReady (x : Ex) (s : State) : Bool :=
  s.ready x { c := false } && !s.acqHeld x.p.g x.p.w x.p.f
    && decide ((s.pfts.filter (fun p => p.core == x.core s)).length < 16)

/-- PFT (R272, R273). -/
def pftOut (x : Ex) (s : State) : State :=
  let ws := s.srcA x x.low ++ [s.readCode x x.f.b 0 x.low]
  let a : DWord := valOf (ws.drop 1) ++ valOf ws
  let r := match addrBad ws a with
    | some _ => ([], s)
    | none => s.pftFrames x a.toNat (valOf (ws.drop 2)).toNat
  let s := r.2
  let (i, s) := s.newId
  { s with pfts := s.pfts ++ [{ id := i, g := x.p.g, core := x.core s
                                bar := if x.f.c == 0xF8 then none else some x.f.c.toNat
                                frames := r.1, msc := x.f.sub.getLsbD 0, ctx := x.ctx s }] }

def pftBody (x : Ex) (s : State) : Out := if !pftReady x s then .wait else .ok (pftOut x s) []
/-- PFT (R272). -/
def execPft (f : Fields) (s : State) : Host.Outcome State Fault Refusal := runInstr 0x8C f pftBody s

end Sys2Proof.Machine
end

