-- ==== Sys2Proof/Machine/Atomics.lean ====
section
/-! DEFINITION. Atomic instructions (R265 to R268), fences (R269), completion objects (R373, R374). -/

namespace Sys2Proof.Machine

/-- A lane of an atomic: its place, why it makes no access, and its operation. -/
structure AtomLane where
  lane : Nat
  loc : Loc
  bad : Option Val
  rmw : Rmw

/-- The address's failure, then the data's poison and residues, in order (R267). -/
def atomBad (l : Loc) (data : List Val) : Option Val :=
  match l with
  | .bad v => some v
  | _ => firstBad (data.map (fun v => checkWord v 0))

/-- Items of an atomic's results: poison for a lane that makes no access, else awaited. -/
def atomItems (x : Ex) (s : State) (unit : Nat → Nat) (words : Nat) (noD : Bool) (ls : List AtomLane) : List Item :=
  ls.flatMap (fun a => (List.range words).map (fun h =>
    { dst := if noD then .none else s.destOf x x.f.d h a.lane, lane := unit a.lane, half := h, count := noD
      va := match a.loc with
        | .mem va _ _ => va
        | .sp sa _ _ => sa.setWidth 64
        | .bad _ => 0
      got := a.bad.map Val.got }))

/-- Performs an atomic's lanes in ascending order; every lane's result, a failure's too, is written or counted once the last has come
(R267, R268). -/
def atomGo (x : Ex) (s : State) (once : Bool) (words : Nat) (acq noD : Bool) (ls : List AtomLane) : State :=
  let unit : Nat → Nat := fun l => if once then wholeUnit else l
  let s := (s.popQueues x x.codes).irrev x
  let id := s.idN
  let s := s.produce x .atom acq false (s.mixItems x (atomItems x s unit words noD ls))
  ls.foldl (fun s a => match a.loc, a.bad with
    | .mem va dpa uc, none =>
      s.atomic { g := x.p.g, w := x.p.w, f := x.p.f, lane := unit a.lane, pc := x.p.pc, va := va, exec := id } (x.core s) (x.ctx s) dpa
        words a.rmw (some id) uc
    | .sp sa g off, none => s.spAccess x id (unit a.lane) 0 sa g off (.rmw a.rmw) (some id) 0
    | _, _ => s) s

/-- The words of an atomic's operand: one, or two for a 64-bit type (R265). -/
def Ex.atomWords (x : Ex) : Nat := if tyBits x.f.md.toNat = 64 then 2 else 1

/-- The places of an atomic's lanes. -/
def atomLocs (sp : Bool) (x : Ex) (s : State) : List (Nat × Loc) × State :=
  if sp then (s.spLocs x x.parts 4, s) else s.flatLocs x x.parts (4 * x.atomWords) .store false

/-- Whether an atomic can issue (R206, R264, R267, R287, R311). -/
def atomReady (sp : Bool) (x : Ex) (s : State) : Bool :=
  let r := atomLocs sp x s
  s.ready x {} && !(r.2.memHeld x r.1 (4 * x.atomWords) true false || (x.f.sub.getLsbD 1 && !r.2.relReady x.p.g x.p.w x.p.f))

/-- ATOM, ACAS, RED and ATOMS on every lane (R267). -/
def atomOut (sp : Bool) (cas : Bool) (x : Ex) (s : State) : State :=
  let r := atomLocs sp x s
  let s := r.2
  let ls := r.1.map (fun e =>
    let b := s.srcB x e.1
    let c := if cas then s.srcC x e.1 else []
    { lane := e.1, loc := e.2, bad := atomBad e.2 (b ++ c)
      rmw := if cas then .cas (dataOf b) (dataOf c) else .op x.f.c.toNat x.f.md (dataOf b) : AtomLane })
  atomGo x s false x.atomWords (x.f.sub.getLsbD 0) (x.f.d == 0xF8) ls

def atomBody (sp : Bool) (cas : Bool) (x : Ex) (s : State) : Out :=
  if !atomReady sp x s then .wait else .ok (atomOut sp cas x s) []

def atomicBody (x : Ex) (s : State) : Out := atomBody false false x s
/-- ATOM (R267). -/
def execAtom (f : Fields) (s : State) : Host.Outcome State Fault Refusal := runInstr 0x90 f atomicBody s

def acasBody (x : Ex) (s : State) : Out := atomBody false true x s
/-- ACAS (R267). -/
def execAcas (f : Fields) (s : State) : Host.Outcome State Fault Refusal := runInstr 0x91 f acasBody s

def atomsBody (x : Ex) (s : State) : Out := atomBody true false x s
/-- ATOMS (R268). -/
def execAtoms (f : Fields) (s : State) : Host.Outcome State Fault Refusal := runInstr 0x92 f atomsBody s

def redBody (x : Ex) (s : State) : Out := atomBody false false x s
/-- RED (R268): its D is 0xF8, so nothing is marked empty. -/
def execRed (f : Fields) (s : State) : Host.Outcome State Fault Refusal := runInstr 0x93 f redBody s

/-! Fences (R269). -/

/-- A fence issues at once and completes when its conditions hold; until then it holds later accesses (R269). -/
def fenceOut (rel acq : Bool) (x : Ex) (s : State) : State :=
  (s.addFence x.p.g x.p.w x.p.f rel acq).settleFences x.p.g x.p.w x.p.f

def acqBody (x : Ex) (s : State) : Out := .ok (fenceOut false true x s) []
/-- ACQ (R269). -/
def execAcq (f : Fields) (s : State) : Host.Outcome State Fault Refusal := runInstr 0x94 f acqBody s

def relBody (x : Ex) (s : State) : Out := .ok (fenceOut true false x s) []
/-- REL (R269). -/
def execRel (f : Fields) (s : State) : Host.Outcome State Fault Refusal := runInstr 0x95 f relBody s

def fenceBody (x : Ex) (s : State) : Out := .ok (fenceOut true true x s) []
/-- FENCE (R269). -/
def execFence (f : Fields) (s : State) : Host.Outcome State Fault Refusal := runInstr 0x96 f fenceBody s

/-! Completion objects. -/

/-- What an instruction that acts once writes to D: for the fibre as a whole, or from the lowest participant where the
uniform write is partial (R175, R187, R388). DEDUCED (log 129). -/
def State.onceOut (s : State) (x : Ex) (vs : List Val) : List (Nat × List Val) :=
  if 0xC0 ≤ x.f.d.toNat && x.f.d.toNat < 0xF0 && !x.whole s then [(x.low, vs)]
  else if x.f.d.toNat < 0xC0 then x.parts.map (fun l => (l, vs)) else [(wholeUnit, vs)]

/-- Writes D once, or counts poison where D is 0xF8. -/
def State.onceWrite (s : State) (x : Ex) (vs : List Val) : State :=
  if x.f.d == 0xF8 then
    s.countBad x.p.g x.p.w x.p.f 0 x.p.pc (((firstBad vs).toList).map (fun v => (wholeUnit, v)))
  else s.writeDst x x.f.d (s.onceOut x vs) []

/-- What WAITC finds once its sources are ready (R373): that it must still wait, its poison, or the counter. -/
inductive Waited where
  | not
  | bad (v : Val)
  | counter (lo hi : Word)

/-- WAITC's look at its counter, and the state after its translation (R373): poison of its address and value words comes first, then
their residues, then what the address meets. -/
def waitcSees (x : Ex) (s : State) : Waited × State :=
  let data := s.srcB x x.low
  let base := s.srcA x x.low
  let va0 : DWord := (valOf (base.drop 1) ++ valOf base) + disp x 8
  match addrBad (base ++ data) va0 with
  | some v => (.bad v, s)
  | none =>
  let r := s.flatLoc x x.low 8 .load false
  let s := r.2
  (match r.1 with
  | .bad v => .bad v
  | .mem va dpa uc =>
    let pending := fun (wa : Nat) => match s.l1At (x.core s) wa with
      | some { st := .pending, .. } => true
      | _ => false
    if s.pendOn x wholeUnit (.mem va dpa uc) 8 || pending (dpa / 4) || pending (dpa / 4 + 1) then .not else
    let lo := s.coherent (dpa / 4)
    let hi := s.coherent (dpa / 4 + 1)
    if lo.bad || hi.bad then .bad (.new cECC va (eccDetail [lo, hi]))
    else if !x.f.sub.getLsbD 0 && decide (natOfMem [lo, hi] < (dataOf data).toNat) then .not
    else .counter lo.val hi.val
  | _ => .not, s)

/-- What WAITC leaves (R373): the counter, after which it acquires, or its poison. -/
def waitcOut (x : Ex) (s : State) : State :=
  let r := waitcSees x s
  match r.1 with
  | .counter lo hi => (r.2.onceWrite x [.ok (mkWord lo), .ok (mkWord hi)]).addFence x.p.g x.p.w x.p.f false true
  | .bad v => r.2.onceWrite x [v, v]
  | .not => r.2

/-- Whether WAITC can issue (R206, R373). -/
def waitcReady (x : Ex) (s : State) : Bool :=
  s.ready x { c := false } && !s.acqHeld x.p.g x.p.w x.p.f && (match (waitcSees x s).1 with
    | .not => false
    | .bad _ => true
    | .counter _ _ => true)

def waitcBody (x : Ex) (s : State) : Out := if !waitcReady x s then .wait else .ok (waitcOut x s) []
/-- WAITC (R373). -/
def execWaitc (f : Fields) (s : State) : Host.Outcome State Fault Refusal := runInstr 0xA8 f waitcBody s

/-- Whether SIGC can issue (R206, R264, R280, R374). -/
def sigcReady (x : Ex) (s : State) : Bool :=
  let r := s.flatLocs x [x.low] 8 .store false
  s.ready x { c := false } && !(r.2.acqHeld x.p.g x.p.w x.p.f || r.1.any (fun e => r.2.pendOn x wholeUnit e.2 8)
    || !r.2.relReady x.p.g x.p.w x.p.f)

/-- SIGC (R374): ATOM.add.z64.rel, once. -/
def sigcOut (x : Ex) (s : State) : State :=
  let r := s.flatLocs x [x.low] 8 .store false
  let s := r.2
  let ls := r.1.map (fun e =>
    let b := s.srcB x e.1
    { lane := e.1, loc := e.2, bad := atomBad e.2 b, rmw := .op 0 7 (dataOf b) : AtomLane })
  atomGo x s true 2 false (x.f.d == 0xF8) ls

def sigcBody (x : Ex) (s : State) : Out := if !sigcReady x s then .wait else .ok (sigcOut x s) []
/-- SIGC (R374). -/
def execSigc (f : Fields) (s : State) : Host.Outcome State Fault Refusal := runInstr 0xA9 f sigcBody s

end Sys2Proof.Machine
end

