-- ==== Sys2Proof/Machine/Code.lean ====
section
/-! DEFINITION. Instruction bytes: the instruction cache of a core (R19, R275), fetching a word (R28, R253), IPF, IPIN, IUNP
and IFEN (R274 to R276). -/

namespace Sys2Proof.Machine

/-- The key of a line of the instruction cache: context and virtual line. DESIGN CHOICE (log 40). -/
def codeKey (ctx : Byte) (va : Nat) : Nat := ctx.toNat * 2 ^ 45 + va / 128

/-- What a fetch finds: words, a page to be migrated, or a freeze cause (R28). -/
inductive Fetched where
  | word (w : Word)
  | nonres
  | fail (cause : Nat)

/-- Translates a fetch and checks the access table (R28). -/
def State.fetchPlace (s : State) (core : Nat) (ctx : Byte) (va : Nat) : ((Nat × Bool) ⊕ Fetched) × State :=
  match s.translate core ctx va .fetch with
  | (.fail c _, s) => (.inr (if c == cNONRES then .nonres else if c == cECC then .fail cECC else .fail cPAGE), s)
  | (.ok dpa uc, s) =>
    match s.refused ctx dpa false with
    | some (c, _) => (.inr (.fail (if c == cXPART || c == cECC then c else cPAGE)), s)
    | none => (.inl (dpa, uc), s)

/-- Fills a line from memory unless a word of it is in the poison state (R275). -/
def State.fillLine (s : State) (core : Nat) (ctx : Byte) (va dpa : Nat) (uc : Bool) : State :=
  let base := dpa / 128 * 32
  let s := s.homeAccess (dpa / 128) ctx uc false
  let ws := (List.range 32).map (fun i => s.coherent (base + i))
  if ws.any (fun w => w.bad) then s else
  let pins := ((sget (s.coreAt core).icache (codeKey ctx va)).map (fun l => l.pins)).getD 0
  let l : ILine := { dpa := dpa / 128 * 128, words := ws.map (fun w => w.val), pins := pins, here := true }
  s.modCore core (fun c => { c with icache := sput c.icache (codeKey ctx va) l })

/-- FetchWord (R28). A line the cache holds may be older than memory until IFEN (R19); a pinned line stays (R275). -/
def State.fetchWord (s : State) (core : Nat) (ctx : Byte) (va : Nat) : Fetched × State :=
  match s.fetchPlace core ctx va with
  | (.inr r, s) => (r, s)
  | (.inl (dpa, uc), s) =>
    let now := s.coherent (dpa / 4)
    match (sget (s.coreAt core).icache (codeKey ctx va)).filter (fun l => l.pins != 0 || l.dpa == dpa / 128 * 128) with
    | some l =>
      let old := l.words.getD (va % 128 / 4) 0
      if !l.here then (if now.bad then (.fail cECC, s) else (.word now.val, s))
      else if !now.bad && old == now.val then (.word old, s)
      else if l.pins ≠ 0 then (.word old, s)
      else
        let (n, s) := s.fresh
        if Config.freeBool n then (.word old, s)
        else if now.bad then (.fail cECC, s) else (.word now.val, s)
    | none =>
      if now.bad then (.fail cECC, s) else (.word now.val, s.fillLine core ctx va dpa uc)

/-! Ranges (R274, R275). -/

/-- The start and length that IPF, IPIN or IUNP names, or why it names none. -/
def codeRange (x : Ex) (s : State) : (DWord × Nat) ⊕ Val :=
  let lit := x.f.a == 0xFF
  let as : List Val := if lit then [] else s.srcA x x.low
  let bs : List Val := if x.f.b == 0xF8 then [] else [s.readCode x x.f.b 0 x.low]
  let start : DWord := if lit then x.p.pcI + x.f.w2.signExtend 64 else valOf (as.drop 1) ++ valOf as
  match addrBad (as ++ bs) start with
  | some v => .inr v
  | none => .inl (start, (valOf bs).toNat)

/-- The virtual lines (by address) that a range covers; lines at or above 2^52 fail every fetch, and are dropped (R28, R275). -/
def rangeLines (start : DWord) (len : Nat) : List Nat :=
  let a := start.toNat
  ((List.range ((a + max len 1 - 1) / 128 - a / 128 + 1)).map (fun i => (a / 128 + i) * 128)).filter (fun va => decide (va < 2 ^ 52))

/-- The line that the cache holds for an address that leads to `dpa` (R275). -/
def State.codeLine (s : State) (core : Nat) (ctx : Byte) (va dpa : Nat) : Option ILine :=
  (sget (s.coreAt core).icache (codeKey ctx va)).filter (fun l => l.pins != 0 || l.dpa == dpa / 128 * 128)

/-- Fetches a line into the cache, unless the line is there; whether the cache holds it then, for a fetch that faults drops it (R275). -/
def State.prefLine (s : State) (core : Nat) (ctx : Byte) (va : Nat) : State × Bool :=
  match s.fetchPlace core ctx va with
  | (.inl (dpa, uc), s) =>
    let there := fun (s : State) => (s.codeLine core ctx va dpa).any (fun l => l.here)
    if there s then (s, true) else let t := s.fillLine core ctx va dpa uc; (t, there t)
  | (.inr _, s) => (s, false)

/-- IPF (R275). -/
def ipfOut (x : Ex) (s : State) : State :=
  match codeRange x s with
  | .inr _ => s
  | .inl (a, len) =>
    (rangeLines a (min len 65536)).foldl (fun s va =>
      if x.f.sub.getLsbD 0 then
        match s.fetchPlace (x.core s) (x.ctx s) va with
        | (.inl (dpa, uc), s) => s.homeAccess (dpa / 128) (x.ctx s) uc false
        | (.inr _, s) => s
      else (s.prefLine (x.core s) (x.ctx s) va).1) s

def ipfBody (x : Ex) (s : State) : Out := if !s.ready x { c := false } then .wait else .ok (ipfOut x s) []
/-- IPF (R275). -/
def execIpf (f : Fields) (s : State) : Host.Outcome State Fault Refusal := runInstr 0x0A f ipfBody s

/-- Lines a core has pinned. -/
def pinnedLines (c : Core) : Nat := (c.icache.filter (fun e => e.2.pins != 0)).length

/-- Adds one to a line's pin count, unless that would pass the core's 256 lines (R275). -/
def State.pinLine (s : State) (core : Nat) (ctx : Byte) (va : Nat) : State :=
  s.modCore core (fun c => match sget c.icache (codeKey ctx va) with
    | some l => if l.pins = 0 && decide (256 ≤ pinnedLines c) then c
                else { c with icache := sput c.icache (codeKey ctx va) { l with pins := l.pins + 1 } }
    | none => c)

/-- Subtracts one from a line's pin count (R275). -/
def State.unpinLine (s : State) (core : Nat) (ctx : Byte) (va : Nat) : State :=
  s.modCore core (fun c => match sget c.icache (codeKey ctx va) with
    | some l => { c with icache := sput c.icache (codeKey ctx va) { l with pins := l.pins - 1 } }
    | none => c)

/-- Whether a line is pinned. -/
def State.linePinned (s : State) (core : Nat) (ctx : Byte) (va : Nat) : Bool :=
  match sget (s.coreAt core).icache (codeKey ctx va) with
  | some l => l.pins != 0
  | none => false

/-- IPIN (R275). -/
def ipinOut (x : Ex) (s : State) : State :=
  match codeRange x s with
  | .inr v => s.onceWrite x [v]
  | .inl (a, len) =>
    let len := min len 32768
    let ls := rangeLines a len
    let s := if 16 ≤ (x.group s).ranges.length then s else
      let s := s.modGroup x.p.g (fun g => { g with ranges := g.ranges ++ [{ start := a, len := len }] })
      ls.foldl (fun s va =>
        let r := s.prefLine (x.core s) (x.ctx s) va
        if r.2 then r.1.pinLine (x.core s) (x.ctx s) va else r.1) s
    let n := (ls.filter (fun va => s.linePinned (x.core s) (x.ctx s) va)).length
    s.onceWrite x [.ok (mkWord (BitVec.ofNat 32 n))]

def ipinBody (x : Ex) (s : State) : Out := if !s.ready x { c := false } then .wait else .ok (ipinOut x s) []
/-- IPIN (R275). -/
def execIpin (f : Fields) (s : State) : Host.Outcome State Fault Refusal := runInstr 0x0B f ipinBody s

/-- Removes a recorded range of a group and unpins its lines (R275). -/
def State.unpin (s : State) (g : Nat) (r : CodeRange) : State :=
  let gr := s.groupAt g
  if !gr.ranges.contains r then s else
  (rangeLines r.start r.len).foldl (fun s va => s.unpinLine gr.core gr.ctx va)
    (s.modGroup g (fun x => { x with ranges := x.ranges.erase r }))

/-- IUNP (R275). -/
def iunpOut (x : Ex) (s : State) : State :=
  match codeRange x s with
  | .inr _ => s
  | .inl (a, len) => s.unpin x.p.g { start := a, len := min len 32768 }

def iunpBody (x : Ex) (s : State) : Out := if !s.ready x { c := false } then .wait else .ok (iunpOut x s) []
/-- IUNP (R275). -/
def execIunp (f : Fields) (s : State) : Host.Outcome State Fault Refusal := runInstr 0x0C f iunpBody s

/-- Fetches a pinned line again, from where its address leads now; while that fails it holds no words (R275, R276). -/
def State.refetch (s : State) (core key : Nat) (l : ILine) : State :=
  let put := fun (s : State) (l : ILine) => s.modCore core (fun c => { c with icache := sput c.icache key l })
  match s.fetchPlace core (BitVec.ofNat 8 (key / 2 ^ 45)) (key % 2 ^ 45 * 128) with
  | (.inr _, s) => put s { l with here := false }
  | (.inl (dpa, uc), s) =>
    let s := s.homeAccess (dpa / 128) (BitVec.ofNat 8 (key / 2 ^ 45)) uc false
    let ws := (List.range 32).map (fun i => s.coherent (dpa / 128 * 32 + i))
    if ws.any (fun w => w.bad) then put s { l with dpa := dpa / 128 * 128, here := false }
    else put s { l with dpa := dpa / 128 * 128, words := ws.map (fun w => w.val), here := true }

/-- Makes unpinned lines invalid and fetches pinned ones again (R276). -/
def State.codeFence (s : State) (core : Nat) : State :=
  let kept := (s.coreAt core).icache.filter (fun e => e.2.pins != 0)
  kept.foldl (fun s e => s.refetch core e.1 e.2) (s.modCore core (fun c => { c with icache := kept }))

/-- IFEN (R276). -/
def ifenBody (x : Ex) (s : State) : Out :=
  if !s.relReady x.p.g x.p.w x.p.f then .wait else .ok (s.codeFence (x.core s)) []
/-- IFEN (R276). -/
def execIfen (f : Fields) (s : State) : Host.Outcome State Fault Refusal := runInstr 0xE7 f ifenBody s

end Sys2Proof.Machine
end

