-- ==== Sys2Proof/Machine/Tiles.lean ====
section
/-! DEFINITION. Square-scaled tiles in registers and memory (R329 to R331, R339, R340, R344 to R354): codes and records, CVTQ,
DQ, SCQ, SACC, TTR, LDT, STT, LDAC, STAC, XVSET. -/

namespace Sys2Proof.Machine

/-! Tiles as numbers. -/

/-- Bits of an element of a tile format numbered as VTILE.FMT (R166). -/
def fmtBits (fmt : Nat) : Nat := if fmt ≤ 1 then 4 else if fmt ≤ 3 then 8 else 16
/-- The type code of a tile format (R83). -/
def fmtCode (fmt : Nat) : Nat := [15, 16, 13, 14, 11, 12].getD fmt 12

/-- The element codes of payload words, and words of element codes, row-major (R139, R329). -/
def codesOf (w : Nat) (ws : List Word) : List Nat :=
  ws.flatMap (fun v => (List.range (32 / w)).map (fun j => v.toNat / 2 ^ (w * j) % 2 ^ w))
def packWord (w : Nat) : List Nat → Nat
  | [] => 0
  | c :: r => c + 2 ^ w * packWord w r
def packCodes (w : Nat) (cs : List Nat) : List Word :=
  (List.range (8 * w)).map (fun i => BitVec.ofNat 32 (packWord w ((cs.drop (i * (32 / w))).take (32 / w))))

/-- The 256 elements transposed (R331). -/
def transpose {α : Type} (d : α) (l : List α) : List α := (List.range 256).map (fun k => l.getD (16 * (k % 16) + k / 16) d)

/-- A scale record as a number, and its fields (R329, R330). -/
def recNat (ws : List Word) : Nat := natOfBytes (ws.flatMap (fun w => bytesOfNat w.toNat 4))
def recWords (r : Nat) : List Word := (List.range 4).map (fun i => BitVec.ofNat 32 (r / 2 ^ (32 * i)))
def recE8 (r : Nat) : Nat := r % 256
def recRow (r i : Nat) : Nat := r / 2 ^ (8 + 2 * i) % 4
def recCol (r j : Nat) : Nat := r / 2 ^ (40 + 2 * j) % 4
def recGen (r : Nat) : Nat := r / 2 ^ 72 % 64
/-- The record of the transpose (R331, R352). -/
def recSwap (r : Nat) : Nat :=
  r % 256 + r / 2 ^ 40 % 2 ^ 32 * 2 ^ 8 + r / 2 ^ 8 % 2 ^ 32 * 2 ^ 40 + r / 2 ^ 72 * 2 ^ 72

/-- Decodes an element of a tile format (R135 to R138). -/
def tileDec (fmt : Nat) (ftz : Bool) (xv : Word) (c : Nat) : FVal :=
  match fmt with
  | 0 => decodeE2M1 xv c
  | 1 => decodeQ4N xv c
  | 2 => decodeE4M3 c
  | 3 => decodeE5M2 c
  | 4 => fmtF16.flush ftz (fmtF16.decode false c)
  | _ => fmtBF16.flush ftz (fmtBF16.decode false c)

/-- A value times a power of two (R329). -/
def FVal.scale (v : FVal) (k : Int) : FVal :=
  match v with
  | .fin n m e => .fin n m (e + k)
  | v => v

/-- The exponent that element (i, j) of a tile is scaled by (R329). -/
def recExp (r i j : Nat) : Int := (recE8 r : Int) - 127 + recRow r i + recCol r j

/-- Payload and record words of a tile's words. -/
def payOf (fmt : Nat) (ws : List Word) : List Word := ws.take (fmtPayload fmt / 4)
def recOf (fmt : Nat) (ws : List Word) : Nat := recNat (ws.drop (fmtPayload fmt / 4))

/-- A tile transposed (R331). -/
def tileSwap (fmt : Nat) (ws : List Word) : List Word :=
  packCodes (fmtBits fmt) (transpose 0 (codesOf (fmtBits fmt) (payOf fmt ws))) ++ recWords (recSwap (recOf fmt ws))

/-! Choosing a record (R346). -/

/-- The largest finite magnitude of a tile format, as m · 2^e. -/
def tileMax (fmt : Nat) : Nat × Int :=
  match fmt with
  | 0 => (3, 1)
  | 1 => (1, 0)
  | 2 => (7, 6)
  | 3 => (7, 13)
  | 4 => (2047, 5)
  | _ => (255, 120)

/-- Whether m · 2^e ≤ n · 2^d. -/
def leMag (m : Nat) (e : Int) (n : Nat) (d : Int) : Bool :=
  decide (m * 2 ^ (e - min e d).toNat ≤ n * 2 ^ (d - min e d).toNat)

/-- n(x) of R346: the least e with |x| ≤ M · 2^e; none stands for −∞. -/
def leastExp (fmt : Nat) (v : FVal) : Option Int :=
  match v with
  | .fin _ m e =>
    if m = 0 then none else
    let t := tileMax fmt
    let k := (m.log2 : Int) + e - ((t.1.log2 : Int) + t.2)
    some (if leMag m e t.1 (t.2 + k) then k else k + 1)
  | _ => none

def maxOpt (l : List (Option Int)) : Option Int :=
  l.foldl (fun a b => match a, b with
    | some x, some y => some (max x y)
    | none, b => b
    | a, none => a) none
def minOpt (l : List (Option Int)) : Option Int :=
  l.foldl (fun a b => match a, b with
    | some x, some y => some (min x y)
    | none, b => b
    | a, none => a) none

def clamp03 (x : Int) : Nat := (max 0 (min 3 x)).toNat

/-- The scale record that SCQ chooses for 256 values (R346, steps 1 to 7). -/
def chooseRecord (fmt gen : Nat) (vs : List FVal) : Nat :=
  let n := vs.map (leastExp fmt)
  let at_ := fun (i j : Nat) => n.getD (16 * i + j) none
  let g := (List.range 16).map (fun i => maxOpt ((List.range 16).map (at_ i)))
  match minOpt g, maxOpt g with
  | some lo, some hi =>
    let e : Int := max (-127) (min 127 (max lo (hi - 3)))
    let mr : List Nat := g.map (fun x => match x with
      | some x => clamp03 (x - e)
      | none => 0)
    let mc : List Nat := (List.range 16).map (fun j =>
      match maxOpt ((List.range 16).map (fun i => (at_ i j).map (fun x => x - e - (mr.getD i 0 : Int)))) with
      | some x => clamp03 x
      | none => 0)
    (e + 127).toNat + packWord 2 mr * 2 ^ 8 + packWord 2 mc * 2 ^ 40 + gen * 2 ^ 72
  | _, _ => gen * 2 ^ 72

/-- Conversion of a scaled element under SCQ: above M gives M with OF (R346, step 8). -/
def scqConvert (fmt : Nat) (rm : Rm) (xv : Word) (v : FVal) : Nat × Word :=
  let top := [7, 7, 0x7E, 0x7B, 0x7BFF, 0x7F7F].getD fmt 0
  let sign := fun (n : Bool) => if n then 2 ^ (fmtBits fmt - 1) else 0
  match v with
  | .inf n => (sign n + top, fOF)
  | .fin n m e =>
    if m != 0 && !leMag m e (tileMax fmt).1 (tileMax fmt).2 then (sign n + top, fOFNX)
    else convertTo (fmtCode fmt) rm false true xv v
  | v => convertTo (fmtCode fmt) rm false true xv v

/-- Quantises 256 values under a record (R345). -/
def quantise (conv : FVal → Nat × Word) (r : Nat) (vs : List FVal) : List Nat × Word :=
  let os := vs.mapIdx (fun k v => conv (v.scale (-(recExp r (k / 16) (k % 16)))))
  (os.map (·.1), os.foldl (fun m o => m ||| o.2) 0)

/-! Register tiles. -/

/-- Word offsets of a tile (0), an accumulator (1) or a tile's record (2) of the fibre (R167). -/
def tileOffs (y : Fibre) (kind n : Nat) : List Nat :=
  match kind with
  | 1 => (List.range 256).map (fun i => accOff y.vacc n + i)
  | 2 =>
    let p := fmtPayload (tileFmt y.vtile) / 4
    (List.range 4).map (fun i => tileOff y.vtile n + p + i)
  | _ => (List.range (tileWords y.vtile)).map (fun i => tileOff y.vtile n + i)

/-- The words at some offsets, as the path sees them. -/
def State.tileWordsAt (s : State) (x : Ex) (offs : List Nat) : List RegWord :=
  let rs := s.seenRegs x.p
  offs.map (fun o => sgetD rs o {})

/-- A register tile read whole: its words, or its poison (R332, R344). -/
def State.tileRead (s : State) (x : Ex) (kind n code : Nat) : List RegWord × Option Val :=
  let ws := s.tileWordsAt x (tileOffs (x.fibre s) kind n)
  if ws.any (fun w => !w.full) then (ws, some (.new cEMPTY 0 (BitVec.ofNat 32 code)))
  else (ws, (ws.find? (fun w => w.poison)).map Val.ok)

/-- Whether a register tile's words are full, or its policy probes (R344). -/
def State.tileReady (s : State) (x : Ex) (probe : Bool) (kind first : Nat) : Bool :=
  probe || (List.range (x.f.b6.toNat + 1)).all (fun k =>
    (s.tileWordsAt x (tileOffs (x.fibre s) kind (first + k))).all (fun w => w.full))

/-- What one destination tile receives: its offsets and words, or the poison of a tile number. -/
structure TileOut where
  offs : List Nat
  res : List Word ⊕ (Nat × Val)
  flags : Word := 0

/-- Writes destination tiles: every word of a poisoned one takes the poison word; records name tiles (R344, R389). -/
def State.tileWrite (s : State) (x : Ex) (outs : List TileOut) : State :=
  let made := outs.filterMap (fun o => match o.res with
    | .inr v => some v
    | .inl _ => none)
  let (s, tbl) := s.makePoison x.p.g x.p.w x.p.f flagTILE x.p.pc made
  let s := outs.foldl (fun s o => match o.res with
    | .inl ws => (o.offs.zip ws).foldl (fun s e => s.writeVec x.p.g x.p.w x.p.f wholeUnit e.1 (mkWord e.2)) s
    | .inr v => o.offs.foldl (fun s e => s.writeVec x.p.g x.p.w x.p.f wholeUnit e (v.2.word tbl)) s) s
  s.setFlags x.p.g x.p.w x.p.f (outs.foldl (fun m o => m ||| o.flags) 0)

def Ex.cnt (x : Ex) : Nat := x.f.b6.toNat + 1
def vals (ws : List RegWord) : List Word := ws.map (fun w => w.val)
def f32Vals (ws : List RegWord) : List FVal := ws.map (fun w => fmtF32.decode false w.val.toNat)

/-- Whether CVTQ or SCQ can issue (R344). -/
def quantReady (x : Ex) (s : State) : Bool :=
  s.tileReady x (x.f.sp.getLsbD 0) 1 x.f.a.toNat && s.tileReady x (x.f.sp.getLsbD 0) 2 x.f.d.toNat

/-- CVTQ and SCQ (R345, R346). -/
def quantOut (scq : Bool) (x : Ex) (s : State) : State :=
  let y := x.fibre s
  let fmt := tileFmt y.vtile
  let d := x.f.d.toNat
  let a := x.f.a.toNat
  let xv := x.xvAt s (x.f.c.toNat % 8)
  let one : Nat → TileOut := fun k =>
    let offs := tileOffs y 0 (d + k)
    let src := s.tileRead x 1 (a + k) a
    let old := s.tileRead x 2 (d + k) d
    match src.2, old.2 with
    | some v, _ => { offs := offs, res := .inr (if v.isBad && !srcNew v then d + k else a + k, v) }
    | none, some v => { offs := offs, res := .inr (d + k, v) }
    | none, none =>
      let vs := f32Vals src.1
      let r := recNat (vals old.1)
      if !scq && recE8 r = 255 then { offs := offs, res := .inr (d + k, .new cSCALE 0 0) } else
      let r := if scq then chooseRecord fmt (recGen r) vs else r
      let q := quantise (if scq then scqConvert fmt x.rm xv else convertTo (fmtCode fmt) x.rm x.ftz (x.f.c.getLsbD 3) xv) r vs
      { offs := offs, res := .inl (packCodes (fmtBits fmt) q.1 ++ recWords r), flags := q.2 }
  s.tileWrite x ((List.range x.cnt).map one)
where
  /-- A source tile's new poison is named by the source tile (R344). -/
  srcNew (v : Val) : Bool := match v with
    | .new _ _ _ => true
    | .ok _ => false

def quantBody (scq : Bool) (x : Ex) (s : State) : Out := if !quantReady x s then .wait else .ok (quantOut scq x s) []

def cvtqBody (x : Ex) (s : State) : Out := quantBody false x s
/-- CVTQ (R345). -/
def execCvtq (f : Fields) (s : State) : Host.Outcome State Fault Refusal := runInstr 0x60 f cvtqBody s

def scqBody (x : Ex) (s : State) : Out := quantBody true x s
/-- SCQ (R346). -/
def execScq (f : Fields) (s : State) : Host.Outcome State Fault Refusal := runInstr 0x62 f scqBody s

/-- DQ (R347). -/
def dqOut (x : Ex) (s : State) : State :=
  let y := x.fibre s
  let fmt := tileFmt y.vtile
  let a := x.f.a.toNat
  let xv := x.xvAt s (x.f.c.toNat % 8)
  let one : Nat → TileOut := fun k =>
    let offs := tileOffs y 1 (x.f.d.toNat + k)
    let src := s.tileRead x 0 (a + k) a
    match src.2 with
    | some v => { offs := offs, res := .inr (a + k, v) }
    | none =>
      let ws := vals src.1
      let r := recOf fmt ws
      if recE8 r = 255 then { offs := offs, res := .inr (x.f.d.toNat + k, .new cSCALE 0 0) } else
      let os := (codesOf (fmtBits fmt) (payOf fmt ws)).mapIdx (fun i c =>
        fmtF32.put x.rm x.ftz ((tileDec fmt x.ftz xv c).scale (recExp r (i / 16) (i % 16))))
      { offs := offs, res := .inl (os.map (fun o => BitVec.ofNat 32 o.1)), flags := os.foldl (fun m o => m ||| o.2) 0 }
  s.tileWrite x ((List.range x.cnt).map one)

def dqBody (x : Ex) (s : State) : Out :=
  if !s.tileReady x (x.f.sp.getLsbD 0) 0 x.f.a.toNat then .wait else .ok (dqOut x s) []
/-- DQ (R347). -/
def execDq (f : Fields) (s : State) : Host.Outcome State Fault Refusal := runInstr 0x61 f dqBody s

/-- One element of SACC (R348): the triple product exact, one rounding. -/
def saccEl (rm : Rm) (ftz : Bool) (d a sa sb : Word) : Nat × Word :=
  let dec := fun (w : Word) => fmtF32.flush ftz (fmtF32.decode false w.toNat)
  let ps := [dec a, dec sa, dec sb]
  let bad := ps.any (fun v => v.isZero) && ps.any (fun v => v == .inf true || v == .inf false)
  if (dec d :: ps).any FVal.isNan then (fmtF32.nanCode, if (dec d :: ps).any FVal.isSnan || bad then fNV else 0)
  else if bad then (fmtF32.nanCode, fNV)
  else match sumVal rm [mulVal (mulVal (dec a) (dec sa)) (dec sb), dec d] with
    | none => (fmtF32.nanCode, fNV)
    | some v => fmtF32.put rm ftz v

/-- Whether SACC can issue (R206, R344). -/
def saccReady (x : Ex) (s : State) : Bool :=
  s.ready x { a := false } && s.tileReady x (x.f.sp.getLsbD 0) 1 x.f.a.toNat && s.tileReady x (x.f.sp.getLsbD 0) 1 x.f.d.toNat

/-- SACC (R348). -/
def saccOut (x : Ex) (s : State) : State :=
  let y := x.fibre s
  let a := x.f.a.toNat
  let d := x.f.d.toNat
  let sa := s.readCode x x.f.b 0 x.low
  let sb := s.readCode x x.f.c 0 x.low
  let one : Nat → TileOut := fun k =>
    let offs := tileOffs y 1 (d + k)
    let src := s.tileRead x 1 (a + k) a
    let old := s.tileRead x 1 (d + k) d
    match src.2, firstBad [sa, sb], old.2 with
    | some v, _, _ => { offs := offs, res := .inr (a + k, v) }
    | none, some v, _ => { offs := offs, res := .inr (d + k, v) }
    | none, none, some v => { offs := offs, res := .inr (d + k, v) }
    | none, none, none =>
      let os := ((vals old.1).zip (vals src.1)).map (fun e => saccEl x.rm x.ftz e.1 e.2 (valOf [sa]) (valOf [sb]))
      { offs := offs, res := .inl (os.map (fun o => BitVec.ofNat 32 o.1)), flags := os.foldl (fun m o => m ||| o.2) 0 }
  s.tileWrite x ((List.range x.cnt).map one)

def saccBody (x : Ex) (s : State) : Out := if !saccReady x s then .wait else .ok (saccOut x s) []
/-- SACC (R348). -/
def execSacc (f : Fields) (s : State) : Host.Outcome State Fault Refusal := runInstr 0x63 f saccBody s

/-- Whether TTR turns accumulators (1) or tiles (0) (R349). -/
def ttrKind (x : Ex) : Nat := if x.f.sub.getLsbD 0 then 1 else 0

/-- TTR (R349). -/
def ttrOut (x : Ex) (s : State) : State :=
  let y := x.fibre s
  let fmt := tileFmt y.vtile
  let kind := ttrKind x
  let a := x.f.a.toNat
  let one : Nat → TileOut := fun k =>
    let offs := tileOffs y kind (x.f.d.toNat + k)
    let src := s.tileRead x kind (a + k) a
    match src.2 with
    | some v => { offs := offs, res := .inr (a + k, v) }
    | none => { offs := offs, res := .inl (if kind = 1 then transpose 0 (vals src.1) else tileSwap fmt (vals src.1)) }
  s.tileWrite x ((List.range x.cnt).map one)

def ttrBody (x : Ex) (s : State) : Out :=
  if !s.tileReady x (x.f.sp.getLsbD 0) (ttrKind x) x.f.a.toNat then .wait else .ok (ttrOut x s) []
/-- TTR (R349). -/
def execTtr (f : Fields) (s : State) : Host.Outcome State Fault Refusal := runInstr 0x64 f ttrBody s

/-- XVSET (R350). -/
def xvsetOut (x : Ex) (s : State) : State :=
  let s := s.irrev x
  let bad := fun (v : Val) => s.countBad x.p.g x.p.w x.p.f 0 x.p.pc [(wholeUnit, v)]
  match s.readCode x x.f.a 0 x.low with
  | .ok w =>
    if w.poison then bad (.ok w)
    else if w.val.extractLsb' 17 15 != 0 then bad (.new cBOUNDS (w.val.setWidth 64) 0x1FFFF)
    else s.modGroup x.p.g (fun g => { g with xv := g.xv.set (x.f.d.toNat % 8) w.val })
  | v => bad v

def xvsetBody (x : Ex) (s : State) : Out := if !s.ready x { b := false, c := false } then .wait else .ok (xvsetOut x s) []
/-- XVSET (R350). -/
def execXvset (f : Fields) (s : State) : Host.Outcome State Fault Refusal := runInstr 0x46 f xvsetBody s

/-! Tiles in memory (R339, R340, R351 to R354). -/

/-- A base address of a tile transfer, or why it is bad (R351). -/
def tileBase (vs : List Val) : DWord × Option Val :=
  let a : DWord := valOf (vs.drop 1) ++ valOf vs
  (a, addrBad vs a)

/-- Where a transfer's payload lines and its record stand, and which of the lines lie in uncached pages. -/
structure TilePlace where
  lines : List Nat
  rdpa : Nat
  uncached : List Nat

/-- The device addresses of a transfer's payload lines and record, or the first failing check (R351). -/
def State.tilePlace (s : State) (core : Nat) (ctx : Byte) (k : Access) (held : Bool) (pay : DWord) (size : Nat)
    (record : Option DWord) : (TilePlace ⊕ Val) × State :=
  if pay.toNat % 128 ≠ 0 then (.inr (.new cMISALIGN pay 128), s) else
  if (record.getD 0).toNat % 16 ≠ 0 then (.inr (.new cMISALIGN (record.getD 0) 16), s) else
  let vas := (List.range (size / 128)).map (fun i => pay + BitVec.ofNat 64 (128 * i)) ++ record.toList
  let r : List (Nat × Bool) × Option Val × State := vas.foldl (fun (acc : List (Nat × Bool) × Option Val × State) va =>
    match acc.2.1 with
    | some _ => acc
    | none =>
      match (if held then acc.2.2.translate core ctx va.toNat k else acc.2.2.reach core ctx va.toNat k) with
      | (.ok dpa uc, s) => (acc.1 ++ [(dpa, uc)], none, s)
      | (.fail c d, s) => (acc.1, some (.new c va d), s)) ([], none, s)
  match r.2.1 with
  | some v => (.inr v, r.2.2)
  | none =>
    let as_ := r.1.map (fun e => e.1)
    (.inl { lines := as_.take (size / 128), rdpa := (as_.drop (size / 128)).headD 0
            uncached := (r.1.filter (fun e => e.2)).map (fun e => e.1 / 128) }, r.2.2)

/-- A transfer reads its lines at their homes (R239, R246). -/
def State.tileReads (s : State) (ctx : Byte) (p : TilePlace) (acc : Bool) : State :=
  ((p.lines ++ if acc then [] else [p.rdpa]).map (fun a => a / 128)).foldl (fun s l => s.homeAccess l ctx (p.uncached.contains l) false) s

/-- A word as a tile transfer or an engine of a core reads it: the L1's Pending or Owned copy, else the home's (R305). -/
def State.engineRead (s : State) (core wa : Nat) : MemWord :=
  match s.l1At core wa with
  | some e => if e.st == .valid then s.coherent wa else e.word
  | none => s.coherent wa

/-- The generation of a payload line; a plain store's line that is still Pending counts as 0 (R339). -/
def State.lineGen (s : State) (core line : Nat) : Nat :=
  if (s.lineWords core line).any (fun e => e.2.st == .pending) then 0 else sgetD s.gens line 0

/-- Words of the lines at some device addresses, with held bytes over them (R396). -/
def State.lineRead (s : State) (core : Nat) (y : Fibre) (dpas : List Nat) (n : Nat) : List MemWord :=
  dpas.flatMap (fun a => (List.range n).map (fun i =>
    let w := s.engineRead core (a / 4 + i)
    let h := heldAt y false (a + 4 * i) 4
    { w with val := overlay h w.val, bad := w.bad && !(h.length == 4 && h.all Option.isSome) }))

/-- Whether any byte of a line comes from held stores (R352). -/
def lineHeld (y : Fibre) (a n : Nat) : Bool := (heldAt y false a n).any Option.isSome

/-- Reads a scaled tile: words, or the cause that makes it poison (R352). DEDUCED (log 65). -/
def State.tileLoad (s : State) (core : Nat) (y : Fibre) (fmt : Nat) (trans : Bool) (pay : DWord) (recVa : DWord)
    (lines : List Nat) (rdpa : Nat) : List Word ⊕ Val :=
  let ws := s.lineRead core y lines 32
  let r := s.lineRead core y [rdpa] 4
  match ws.findIdx? (·.bad), r.any (·.bad) with
  | some i, _ => .inr (.new cECC (pay + BitVec.ofNat 64 (i / 32 * 128)) (eccDetail ws))
  | none, true => .inr (.new cECC recVa (eccDetail r))
  | none, false =>
    let rc := recNat (r.map (·.val))
    if lines.any (fun a => !lineHeld y a 128 && s.lineGen core (a / 128) != recGen rc) then
      .inr (.new cTORN recVa (BitVec.ofNat 32 (recGen rc)))
    else if recE8 rc = 255 then .inr (.new cSCALE recVa 0)
    else
      let all := ws.map (·.val) ++ r.map (·.val)
      .inl (if trans then tileSwap fmt all else all)

/-- Whether a transfer waits: behind an acquire, a command's range, or the core's operations on its words (R264, R287,
R311). -/
def State.tileHeld (s : State) (x : Ex) (write : Bool) (size : Nat) (a : DWord) (b : Option DWord) : Bool :=
  let one : DWord → Nat → Bool := fun va n => (s.coreAt (x.core s)).score.any (fun e => e.meets (x.ctx s) (.mem va 0 false) n write false)
  s.acqHeld x.p.g x.p.w x.p.f || s.pend.any (fun p => p.of x.p.g x.p.w x.p.f)
    || (List.range x.cnt).any (fun k => one (a + BitVec.ofNat 64 (size * k)) size || (match b with
      | some b => one (b + BitVec.ofNat 64 (16 * k)) 16
      | none => false))

/-- Bytes of a tile's payload in memory, or of an accumulator (R351). -/
def Ex.tileSize (x : Ex) (acc : Bool) (s : State) : Nat := if acc then 1024 else fmtPayload (tileFmt (x.fibre s).vtile)

/-- The base addresses of a tile transfer: payload, and record but for accumulators (R351). -/
def tileBases (acc : Bool) (x : Ex) (s : State) : (DWord × Option Val) × (DWord × Option Val) :=
  (tileBase (s.srcA x x.low), if acc then (0, none) else tileBase (s.srcB x x.low))

/-- Whether no earlier access or command's range holds a tile transfer back. -/
def tileFree (acc write : Bool) (x : Ex) (s : State) : Bool :=
  let b := tileBases acc x s
  !s.tileHeld x write (x.tileSize acc s) b.1.1 (if acc then none else some b.2.1)

/-- Whether LDT or LDAC can issue (R206, R264, R287, R311). -/
def tileLoadReady (acc : Bool) (x : Ex) (s : State) : Bool := s.ready x { b := !acc, c := false } && tileFree acc false x s

/-- LDT and LDAC (R351, R352, R354). -/
def tileLoadOut (acc : Bool) (x : Ex) (s : State) : State :=
  let y := x.fibre s
  let fmt := tileFmt y.vtile
  let size := x.tileSize acc s
  let (a, b) := tileBases acc x s
  let r := (List.range x.cnt).foldl (fun (st : List (Nat × List Nat × (List Word ⊕ Val)) × State) k =>
    let n := x.f.d.toNat + k
    let offs := tileOffs y (if acc then 1 else 0) n
    match a.2, b.2 with
    | some v, _ => (st.1 ++ [(n, offs, .inr v)], st.2)
    | none, some v => (st.1 ++ [(n, offs, .inr v)], st.2)
    | none, none =>
      let pay := a.1 + BitVec.ofNat 64 (size * k)
      let rv := b.1 + BitVec.ofNat 64 (16 * k)
      match st.2.tilePlace (x.core s) (x.ctx s) .load false pay size (if acc then none else some rv) with
      | (.inr v, s) => (st.1 ++ [(n, offs, .inr v)], s)
      | (.inl p, s) =>
        let s := s.tileReads (x.ctx s) p acc
        let res := if acc then
          let ws := s.lineRead (x.core s) y p.lines 32
          match ws.findIdx? (·.bad) with
          | some i => .inr (.new cECC (pay + BitVec.ofNat 64 (i / 32 * 128)) (eccDetail ws))
          | none => .inl (ws.map (·.val))
        else s.tileLoad (x.core s) y fmt (x.f.sub.getLsbD 0) pay rv p.lines p.rdpa
        (st.1 ++ [(n, offs, res)], s)) ([], s)
  let s := r.2
  let made := r.1.filterMap (fun e => match e.2.2 with
    | .inr v => some (e.1, v)
    | .inl _ => none)
  let (s, tbl) := s.makePoison x.p.g x.p.w x.p.f flagTILE x.p.pc made
  let items : List Item := r.1.flatMap (fun e => match e.2.2 with
    | .inl ws => (e.2.1.zip ws).map (fun o => { dst := .vec x.p.g x.p.w o.1, lane := wholeUnit, got := some (.reg (mkWord o.2)) })
    | .inr v => e.2.1.map (fun o => { dst := .vec x.p.g x.p.w o, lane := wholeUnit, got := some (.reg (v.word tbl)) }))
  s.produce x (if acc then .acc x.f.d.toNat else .tile x.f.d.toNat (x.f.sub.getLsbD 0)) false false items

def tileLoadBody (acc : Bool) (x : Ex) (s : State) : Out :=
  if !tileLoadReady acc x s then .wait else .ok (tileLoadOut acc x s) []

def ldtBody (x : Ex) (s : State) : Out := tileLoadBody false x s
/-- LDT (R352). -/
def execLdt (f : Fields) (s : State) : Host.Outcome State Fault Refusal := runInstr 0x88 f ldtBody s

def ldacBody (x : Ex) (s : State) : Out := tileLoadBody true x s
/-- LDAC (R354). -/
def execLdac (f : Fields) (s : State) : Host.Outcome State Fault Refusal := runInstr 0x8A f ldacBody s

/-- One tile or accumulator of STT or STAC: a quarantine entry that says what is written and where. -/
def State.tileEntry (s : State) (x : Ex) (acc held : Bool) (a b : DWord × Option Val) (k : Nat) :
    (QEntry × Option Val) × State :=
  let y := x.fibre s
  let fmt := tileFmt y.vtile
  let size := if acc then 1024 else fmtPayload fmt
  let n := x.f.d.toNat + k
  let pay := a.1 + BitVec.ofNat 64 (size * k)
  let rv := b.1 + BitVec.ofNat 64 (16 * k)
  let src := s.tileRead x (if acc then 1 else 0) n x.f.d.toNat
  let r := s.tilePlace (x.core s) (x.ctx s) .store held pay size (if acc then none else some rv)
  let place : TilePlace ⊕ Val := match src.2, a.2, b.2 with
    | some v, none, none => .inr v
    | _, some v, _ => .inr v
    | _, none, some v => .inr v
    | none, none, none => r.1
  let checked := firstBad (src.1.map (fun w => checkWord (.ok w) 0))
  let ws := vals src.1
  let words := if acc then ws else payOf fmt ws
  let record := if acc then [] else ws.drop (fmtPayload fmt / 4)
  let e : QEntry := { kind := if acc then .stac else .stt, ty := 8, pc := x.p.pc, va := pay, rva := rv, tidx := n, pos := k
                      words := words, record := record }
  match place, checked with
  | .inr v, _ => ((e, some v), r.2)
  | .inl _, some v => ((e, some v), r.2)
  | .inl p, none =>
    let g := r.2.engineRead (x.core s) (p.rdpa / 4 + 2)
    if !acc && recE8 (recNat record) = 255 then ((e, some (.new cSCALE rv 0)), r.2)
    else if !acc && !held && g.bad then ((e, some (.new cECC rv g.detail)), r.2)
    else (({ e with runs := p.lines.flatMap (fun a => (List.range 32).map (fun i => a + 4 * i)), rdpa := p.rdpa
                    uncached := p.uncached }, none), r.2)

/-- The tiles or accumulators of STT and STAC, one entry each. -/
def tileEntries (acc held : Bool) (x : Ex) (s : State) : List (QEntry × Option Val) × State :=
  let (a, b) := tileBases acc x s
  (List.range x.cnt).foldl (fun (st : List (QEntry × Option Val) × State) k =>
    let o := st.2.tileEntry x acc held a b k
    (st.1 ++ [o.1], o.2)) ([], s)

/-- The words that an entry of STT or STAC writes. -/
def QEntry.tileWas (e : QEntry) : List Nat :=
  (e.runs ++ (if e.kind == .stt then [e.rdpa, e.rdpa + 4, e.rdpa + 8, e.rdpa + 12] else [])).map (fun a => a / 4)

/-- Whether STT or STAC can issue (R206, R264, R287, R311, R344). -/
def tileStoreReady (acc : Bool) (x : Ex) (s : State) : Bool :=
  s.ready x { b := !acc, c := false } && s.tileReady x (x.f.sp.getLsbD 2) (if acc then 1 else 0) x.f.d.toNat
    && tileFree acc true x s && ((x.fibre s).inRegion || (let r := tileEntries acc false x s
      r.1.all (fun e => e.2.isSome || r.2.homeReady (x.core s) e.1.tileWas)))

/-- Whether the quarantine of an open region lacks entries for the instruction's tiles, and it freezes (R394). -/
def tileQuarFull (x : Ex) (s : State) : Bool :=
  (x.fibre s).inRegion && decide (64 < (s.fibreAt x.p.g x.p.w x.p.f).quar.length + x.cnt)

/-- STT and STAC (R353, R354): held in a region, one entry for each tile (R394). -/
def tileStoreOut (acc : Bool) (x : Ex) (s : State) : State :=
  let rgn := (x.fibre s).inRegion
  let r := tileEntries acc rgn x s
  let s := r.2
  let bads := r.1.filterMap (fun e => e.2.map (fun v => (e.1.tidx, v)))
  if rgn then
    let (s, tbl) := s.makePoison x.p.g x.p.w x.p.f flagTILE x.p.pc bads
    let (id, s) := s.newId
    let es := r.1.map (fun e => { e.1 with bad := e.2.map (fun v => (v.word tbl).val), exec := id })
    s.modFibre x.p.g x.p.w x.p.f (fun y => { y with quar := y.quar ++ es })
  else
    let (id, s) := s.newId
    let s := r.1.foldl (fun s e => if e.2.isSome then s
      else if acc then s.accStore (x.core s) { ctx := x.ctx s, id := id } e.1.uncached e.1.runs e.1.words
      else s.tileStore (x.core s) { ctx := x.ctx s, id := id } e.1.uncached e.1.runs e.1.words e.1.rdpa e.1.record) s
    s.countBad x.p.g x.p.w x.p.f flagTILE x.p.pc bads

def tileStoreBody (acc : Bool) (x : Ex) (s : State) : Out :=
  if !tileStoreReady acc x s then .wait else if tileQuarFull x s then .freeze cOVERFLOW else .ok (tileStoreOut acc x s) []

def sttBody (x : Ex) (s : State) : Out := tileStoreBody false x s
/-- STT (R353). -/
def execStt (f : Fields) (s : State) : Host.Outcome State Fault Refusal := runInstr 0x89 f sttBody s

def stacBody (x : Ex) (s : State) : Out := tileStoreBody true x s
/-- STAC (R354). -/
def execStac (f : Fields) (s : State) : Host.Outcome State Fault Refusal := runInstr 0x8B f stacBody s

end Sys2Proof.Machine
end

