-- ==== Sys2Proof/Machine/Command.lean ====
section
/-! DEFINITION. Engine commands (R300 to R318, R363 to R367): descriptors and their checks, scoreboard ranges, acceptance,
performing copies, bulk copies, compression and collectives, completion actions and retirement. -/

namespace Sys2Proof.Machine

/-! Descriptors. -/

/-- A little-endian field of a descriptor. -/
def fld (d : List Byte) (off n : Nat) : Nat := natOfBytes ((d.drop off).take n)
/-- Whether a field is 0. -/
def isZero (d : List Byte) (off n : Nat) : Bool := fld d off n == 0
/-- A number of `n` bits as a signed one. -/
def signed (n v : Nat) : Int := exact n true v

/-- A completion action (R302, R309): 0 none, 1 ADD, 2 ARRIVE, 3 FULL. -/
structure Act where
  kind : Nat
  caddr : Nat
  cval : Nat
  arg : Nat
deriving DecidableEq, Repr

/-- The action of a descriptor of a class (R301, R366, R466). -/
def actOf (cls : Nat) (d : List Byte) : Act :=
  match cls with
  | 0 => { kind := fld d 12 4 / 256 % 4, caddr := fld d 16 8, cval := fld d 24 8, arg := fld d 32 4 }
  | 4 => { kind := fld d 52 1 % 4, caddr := fld d 32 8, cval := fld d 40 8, arg := fld d 48 4 }
  | _ => { kind := fld d 76 1 % 4, caddr := fld d 56 8, cval := fld d 64 8, arg := fld d 72 4 }

/-- Reads a descriptor of `n` bytes without regard to tags (R233, R363): its bytes, or why it cannot be read. -/
def State.readDesc (s : State) (g : Nat) (addr : Word) (n : Nat) : List Byte ⊕ Val :=
  match s.spResolve g addr 4 with
  | .fail c d => .inr (.new c (addr.setWidth 64) d)
  | .ok g' off =>
    let lim := (s.groupAt g').spadBytes
    if lim < off + n then .inr (.new cBOUNDS (addr.setWidth 64) (BitVec.ofNat 32 lim))
    else match s.spBytes g' off n with
      | (_, some v) => .inr (.ok (badWord v))
      | (bs, none) => .inl bs

/-- What reads a descriptor finds the uncorrectable errors of its words: they are poison words (R235). -/
def State.descFound (s : State) (g : Nat) (addr : Word) (n : Nat) : State :=
  match s.spResolve g addr 4 with
  | .ok g' off => if (s.groupAt g').spadBytes < off + n then s else s.spFoundRun g' off n
  | .fail _ _ => s

/-- The copy descriptor's fields (R301, R302). -/
def copyCtl (d : List Byte) : Nat := fld d 12 4
def copyDims (d : List Byte) : Nat := copyCtl d % 16
def copyEsz (d : List Byte) : Nat := 2 ^ (copyCtl d / 16 % 4)
def copyOut (d : List Byte) : Bool := copyCtl d / 64 % 2 == 1
def copyFew (d : List Byte) : Bool := copyCtl d / 128 % 2 == 1
def copySizes (d : List Byte) : List Nat := (List.range (copyDims d)).map (fun k => fld d (88 + 4 * k) 4)
def copyStrides (d : List Byte) : List Int := (List.range (copyDims d)).map (fun k => signed 64 (fld d (144 + 8 * k) 8))
def copyCount (d : List Byte) : Nat := (copySizes d).foldl (· * ·) 1

/-- The memory offset of the element with a linear index, index 0 fastest (R303). -/
def elemOff : List (Nat × Int) → Nat → Int
  | [], _ => 0
  | (n, st) :: r, i => (i % n : Nat) * st + elemOff r (i / n)

/-- The memory address of an element. -/
def copyAddr (d : List Byte) (i : Nat) : DWord :=
  BitVec.ofNat 64 (fld d 0 8) + BitVec.ofInt 64 (elemOff ((copySizes d).zip (copyStrides d)) i)

/-- The lowest and the highest element's offset from MADDR (R310). -/
def copyBox (d : List Byte) : Int × Int :=
  ((copySizes d).zip (copyStrides d)).foldl (fun b e =>
    let k : Int := (e.1 - 1 : Nat) * e.2
    (b.1 + min 0 k, b.2 + max 0 k)) (0, 0)

/-! Checks (R304, R366, R367). A failing check: its cause, the address and the limit or size (R387). -/

abbrev Check := Option (Nat × Nat × Nat)

def orElse (a b : Check) : Check :=
  match a with
  | some x => some x
  | none => b
def check (bad : Bool) (c addr detail : Nat) : Check := if bad then some (c, addr, detail) else none

/-- Bytes of a scratchpad range that fail R233: the limit that was exceeded. -/
def State.spRange (s : State) (g addr n : Nat) : Option Nat :=
  let one := fun (a : Nat) => match s.spResolve g (BitVec.ofNat 32 a) 1 with
    | .ok _ _ => none
    | .fail _ d => some d.toNat
  if n = 0 then none else
  match one addr with
  | some d => some d
  | none => if 2 ^ 24 ≤ addr % 2 ^ 24 + n - 1 then some (s.groupAt g).spadBytes else one (addr + n - 1)

def rangeCheck (r : Option Nat) (addr : Nat) : Check := r.map (fun d => (cBOUNDS, addr, d))

/-- The action's own checks, by the cause they give (R304). -/
def State.actCheck (s : State) (g : Nat) (a : Act) (daddr cause : Nat) : Check :=
  if cause = cILLEGAL then check (a.kind = 2 && decide (32 ≤ a.arg)) cILLEGAL daddr 0
  else if cause = cBOUNDS then (if a.kind = 3 then rangeCheck (s.spRange g a.arg 4) a.arg else none)
  else orElse (check (a.caddr % 8 ≠ 0) cMISALIGN a.caddr 8) (check (a.kind = 3 && a.arg % 4 != 0) cMISALIGN a.arg 4)

/-- The checks of a copy descriptor read at `daddr` (R304). DEDUCED (log 67). -/
def State.copyCheck (s : State) (g daddr : Nat) (d : List Byte) : Check :=
  let n := copyDims d
  let e := copyEsz d
  let a := actOf 0 d
  let sp := fld d 8 4
  let spare := (List.range 14).any (fun k => decide (n ≤ k) && (!isZero d (88 + 4 * k) 4 || !isZero d (144 + 8 * k) 8))
  let total := copyCount d * e
  orElse (check (!isZero d 36 52 || copyCtl d / 1024 != 0 || n = 0 || n = 15 || (copyFew d && copyOut d) || spare) cILLEGAL daddr 0)
  <| orElse (s.actCheck g a daddr cILLEGAL)
  <| orElse (rangeCheck (s.spRange g sp total) sp)
  <| orElse (s.actCheck g a daddr cBOUNDS)
  <| orElse (check (fld d 0 8 % e ≠ 0) cMISALIGN (fld d 0 8) e)
  <| orElse (check (!(List.range n).all (fun k => fld d (144 + 8 * k) 8 % e == 0)) cMISALIGN daddr e)
  <| orElse (check (sp % e ≠ 0) cMISALIGN sp e)
  (s.actCheck g a daddr cMISALIGN)

/-- Element bytes of a collective type (R367). -/
def collSize (dt : Nat) : Nat := if dt = 12 then 2 else 4

/-- The checks of an engine descriptor of a class (R366, R367). -/
def State.engCheck (s : State) (g daddr cls : Nat) (d : List Byte) : Check :=
  let opc := fld d 0 2
  let dt := fld d 2 1
  let ns := fld d 3 1
  let a := actOf cls d
  let reserved := !isZero d 4 4 || fld d 76 1 / 4 != 0 || !isZero d 77 3 || !isZero d 96 32
    || (List.range 4).any (fun k => decide (ns ≤ k) && !isZero d (24 + 8 * k) 8)
  let kinds := match cls with
    | 1 => opc == 0 && dt == 0 && ns == 1
    | 2 => decide (opc ≤ 1) && dt == 0 && ns == 1
    | _ => decide (opc ≤ 2) && (dt == 0 || dt == 10 || dt == 12) && decide (1 ≤ ns) && decide (ns ≤ 4)
  let e := if cls = 3 then collSize dt else 1
  let len := if cls = 3 then collSize dt else if cls = 2 && opc = 0 then 128 else 1
  orElse (check (reserved || !kinds) cILLEGAL daddr 0)
  <| orElse (s.actCheck g a daddr cILLEGAL)
  <| orElse (s.actCheck g a daddr cBOUNDS)
  <| orElse (check (fld d 16 8 % len ≠ 0) cMISALIGN (fld d 16 8) len)
  <| orElse (check (fld d 8 8 % e ≠ 0) cMISALIGN (fld d 8 8) e)
  <| orElse (check (!(List.range ns).all (fun k => fld d (24 + 8 * k) 8 % e == 0)) cMISALIGN daddr e)
  <| orElse (check (cls = 2 && fld d 80 8 % 8 != 0) cMISALIGN (fld d 80 8) 8)
  (s.actCheck g a daddr cMISALIGN)

/-! Scoreboard ranges (R310, R366, R472): each range with its mode, write or read. -/

/-- A scratchpad range of a group, resolved; none when it is empty or fails. -/
def State.spScore (s : State) (g addr n : Nat) (write : Bool) : List (Range × Bool) :=
  if n = 0 then [] else
  match s.spResolve g (BitVec.ofNat 32 addr) 1 with
  | .ok g' off => [(.spad g' off (off + n), write)]
  | .fail _ _ => []
def memScore (lo : Int) (n : Nat) (write : Bool) : List (Range × Bool) :=
  if n = 0 then [] else [(.mem lo.toNat (lo + n).toNat, write)]

/-- The ranges that a command takes, none where its descriptor fails a check. -/
def State.cmdRanges (s : State) (g cls : Nat) (d : List Byte) : List (Range × Bool) :=
  match cls with
  | 0 =>
    if copyCount d = 0 then [] else
    let b := copyBox d
    memScore ((fld d 0 8 : Int) + b.1) ((b.2 - b.1).toNat + copyEsz d) (copyOut d)
      ++ s.spScore g (fld d 8 4) (copyCount d * copyEsz d) (!copyOut d)
  | 4 => []
  | _ =>
    let out := if cls = 2 then fld d 88 8 else fld d 16 8
    (List.range (min 4 (fld d 3 1))).flatMap (fun k => memScore (fld d (24 + 8 * k) 8) (fld d 16 8) false)
      ++ memScore (fld d 8 8) out true

/-- Scoreboard entries that a core holds: 32 at most (R310). -/
def State.scoreFree (s : State) (core : Nat) : Nat := 32 - (s.coreAt core).score.length

/-- Takes scoreboard entries for a command. -/
def State.takeScore (s : State) (core id : Nat) (ctx : Byte) (few : Bool) (rs : List (Range × Bool)) : State :=
  s.modCore core (fun c => { c with score := c.score ++ rs.map (fun r =>
    { cmd := id, ctx := ctx, range := r.1, write := r.2, few := few && r.2 }) })

/-- Frees the scoreboard entries of a command. -/
def State.dropScore (s : State) (core id : Nat) : State :=
  s.modCore core (fun c => { c with score := c.score.filter (fun e => e.cmd != id) })

/-! Records of commands (R307, R309). -/

/-- The group's next tag is taken: 65,535 is followed by 1 (R363). -/
def State.takeTag (s : State) (g : Nat) : Nat × State :=
  let t := (s.groupAt g).tag
  (t, s.modGroup g (fun x => { x with tag := if t = 65535 then 1 else t + 1 }))

/-- Accepts a command whose scoreboard entries are free (R363): its tag, and its check's failure counted (R304). -/
def State.acceptCmd (s : State) (x : Ex) (cls : Nat) (d : List Byte) (pred : Option Nat) (strict : Bool) (bad : Check)
    (ranges : List (Range × Bool)) : Nat × State :=
  let (t, s) := s.takeTag x.p.g
  let (i, s) := s.newId
  let core := x.core s
  let c : Cmd := { id := i, g := x.p.g, w := x.p.w, f := x.p.f, core := core, pc := x.p.pc, tag := t, cls := cls, desc := d
                   pred := pred, strict := strict, checked := bad.isNone, failed := bad.isSome }
  let s := { s with cmds := s.cmds ++ [c] }
  let s := s.takeScore core i (x.ctx s) (cls == 0 && copyFew d) ranges
  match bad with
  | none => (t, s)
  | some (cs, a, dt) =>
    (t, s.countBad x.p.g x.p.w x.p.f flagCMD x.p.pc [(wholeUnit, .new cs (BitVec.ofNat 64 a) (BitVec.ofNat 32 dt))])

def State.cmd? (s : State) (id : Nat) : Option Cmd := s.cmds.find? (fun c => c.id == id)
def State.modCmd (s : State) (id : Nat) (k : Cmd → Cmd) : State :=
  { s with cmds := s.cmds.map (fun c => if c.id == id then k c else c) }

/-! Performing: a chunk is what one destination word receives at once (R378). -/

/-- What an engine carries for one byte: the byte, or why it failed. -/
abbrev Carried := Byte ⊕ Val

/-- The state of a transfer: the ring index of its record once it has failed, the record and the place in linear order of its failure, and
refused writes to be counted; `pos` is the place of what is being moved. -/
structure Xfer where
  s : State
  ring : Option Nat := none
  cart : Option Cart := none
  first : Nat := 0
  pos : Nat := 0
  counts : List Val := []

/-- The record of a command's failure (R307). -/
def failCart (c : Cmd) (v : Val) : Cart :=
  match v with
  | .ok w => { cause := BitVec.ofNat 8 (causeOf w.val), flags := flagCMD ||| flagMEM, unit := 0xFF, pc := c.pc }
  | .new cs ad dt => { cause := BitVec.ofNat 8 cs, unit := 0xFF, pc := c.pc, addr := ad, detail := dt
                       flags := if cs == cECC && dt.getLsbD 0 then flagCMD ||| flagMEM else flagCMD }

/-- Puts another record in the place of one, wherever that still stands. -/
def swapCart (old new : Cart) (rs : List Cart) : List Cart :=
  match rs.findIdx? (fun r => r == old) with
  | some i => rs.set i new
  | none => rs
def State.fixCart (s : State) (g w f i : Nat) (old new : Cart) : State :=
  let lsn := (s.groupAt g).lsn
  let s := s.modFibre g w f (fun x => if x.ring.getD i {} = old then { x with ring := x.ring.set i new } else x)
  { s with engine := { s.engine with launches := s.engine.launches.map (fun l => if l.lsn == lsn then
      { l with carts := swapCart old new l.carts, stages := l.stages.map (fun st => { st with carts := swapCart old new st.carts }) } else l) } }

/-- Notes a failure: the first writes the command's record, which is that of the first failure in linear order once all are known (R307).
DEDUCED (log 68). -/
def Xfer.fail (a : Xfer) (c : Cmd) (v : Val) : Xfer :=
  let r := a.s.placeCart c.g c.w c.f (failCart c v)
  match a.ring, a.cart with
  | none, _ =>
    let o := a.s.addCart c.g c.w c.f (failCart c v)
    { a with s := o.2, ring := some o.1, cart := some r, first := a.pos }
  | some i, some old => if a.first ≤ a.pos then a else { a with s := a.s.fixCart c.g c.w c.f i old r, cart := some r, first := a.pos }
  | some _, none => a

/-- The poison word that a failed byte leaves in scratchpad (R306, R307). -/
def Xfer.poison (a : Xfer) (c : Cmd) (v : Val) : Word :=
  match v with
  | .ok w => w.val
  | .new cs _ _ => poisonVal (a.ring.getD 15) cs c.pc

/-- Bytes of one destination word. -/
structure Chunk where
  word : Nat
  bytes : List (Nat × Carried)

/-- Parts a run of destination bytes into runs of consecutive bytes that lie, each once, in one word: first byte and length (R303). -/
def splitRuns : Nat → List Nat → List (Nat × Nat)
  | _, [] => []
  | i, a :: r => match splitRuns (i + 1) r with
    | (j, n) :: cs => if (r.take n).all (fun b => b / 4 == a / 4 && b != a) then (i, n + 1) :: cs else (i, 1) :: (j, n) :: cs
    | [] => [(i, 1)]

/-- The chunks of carried bytes for some destination addresses. -/
def chunksOf (bs : List (Nat × Carried)) : List Chunk :=
  (splitRuns 0 (bs.map (fun b => b.1))).map (fun r =>
    let mine := (bs.drop r.1).take r.2
    { word := (mine.headD (0, .inl 0)).1 / 4, bytes := mine.map (fun b => (b.1 % 4, b.2)) })

/-- The first failure among carried bytes. -/
def firstFail (bs : List Carried) : Option Val := bs.findSome? (fun b => match b with
  | .inr v => some v
  | .inl _ => none)
/-- An element fails as a whole (R306). -/
def wholeElem (bs : List Carried) : List Carried := match firstFail bs with
  | some v => bs.map (fun _ => .inr v)
  | none => bs

/-- The first failure of a chunk, its byte mask and its value. -/
def Chunk.bad (k : Chunk) : Option Val := firstFail (k.bytes.map (fun e => e.2))
def Chunk.mask (k : Chunk) : BitVec 4 := k.bytes.foldl (fun m e => m ||| (1#4 <<< e.1)) 0
def Chunk.val (k : Chunk) : Word := k.bytes.foldl (fun v e => match e.2 with
  | .inl b => mergeBytes (1#4 <<< e.1) (b.setWidth 32 <<< (8 * e.1)) v
  | .inr _ => v) 0

/-- The bytes that a core's engine reads of memory, each address translated (R305, R306). -/
def State.engBytes (s : State) (core : Nat) (ctx : Byte) (va : DWord) (n : Nat) : List Carried × State :=
  match s.reach core ctx va.toNat .load with
  | (.fail c d, s) => (List.replicate n (.inr (.new c va d)), s)
  | (.ok dpa uc, s) =>
    let s := s.homeAccess (dpa / 128) ctx uc false
    ((List.range n).map (fun i =>
      let w := s.engineRead core ((dpa + i) / 4)
      if w.bad then .inr (.new cECC (va + BitVec.ofNat 64 i) w.detail)
      else .inl ((bytesOfNat w.val.toNat 4).getD ((dpa + i) % 4) 0)), s)

/-- Bytes of a scratchpad range as an engine reads them (R306). -/
def State.engSpad (s : State) (g off n : Nat) : List Carried :=
  (List.range n).map (fun i =>
    let w := s.spAt g ((off + i) / 4)
    if w.poison then (if w.fresh then .inr (.new cECC (BitVec.ofNat 64 (off + i)) 0) else .inr (.ok (badWord w.val)))
    else .inl ((bytesOfNat w.val.toNat 4).getD ((off + i) % 4) 0))

/-- Writes one chunk to memory, for the core whose command it is: each word takes its place at its home as a whole-word store's
registration does (R305, R306, R380); one that the links have lost enters the poison state there (R455). -/
def Xfer.memChunk (c : Cmd) (ctx : Byte) (k : Chunk) (a : Xfer) : Xfer :=
  let va : DWord := BitVec.ofNat 64 (4 * k.word)
  match a.s.reach c.core ctx va.toNat .store with
  | (.fail cs d, s) =>
    let v := Val.new cs va d
    let a := Xfer.fail { a with s := s } c v
    { a with counts := a.counts ++ [v] }
  | (.ok dpa uc, s) =>
    let a := { a with s := s }
    let b : Writer := { ctx := ctx, uc := uc, id := c.id }
    match k.bad with
    | some v => let a := a.fail c v; { a with s := a.s.coreWrite c.core b (dpa / 4) { bad := true } 0 }
    | none =>
      if k.mask = 15 || c.cut then { a with s := a.s.coreWrite c.core b (dpa / 4) { val := k.val, bad := c.cut } 0 }
      else
        let old := a.s.engineRead c.core (dpa / 4)
        if old.bad then
          let v := Val.new cECC va old.detail
          let a := a.fail c v
          { a with counts := a.counts ++ [v] }
        else { a with s := a.s.coreWrite c.core b (dpa / 4) { val := mergeBytes k.mask k.val old.val } 0 }

/-- Writes one chunk to a group's scratchpad where the core's table permits it (R253); `few` makes the word full and wakes what is parked on it (R306, R308). -/
def Xfer.spChunk (c : Cmd) (g : Nat) (few : Bool) (k : Chunk) (a : Xfer) : Xfer :=
  if a.s.tableBars tgSpad (a.s.groupAt c.g).ctx (a.s.sliceOf (a.s.groupAt g).core) true then
    let v := Val.new cPAGE (BitVec.ofNat 64 (4 * k.word)) 4
    let a := a.fail c v
    { a with counts := a.counts ++ [v] }
  else
  let w := a.s.spAt g k.word
  let full := w.full || few
  let put := fun (a : Xfer) (v : SpadWord) =>
    let s := a.s.setSp g k.word v
    { a with s := if full && !w.full then s.spChanged g k.word else s }
  match k.bad with
  | some v => let a := a.fail c v; put a { val := a.poison c v, full := full, poison := true }
  | none =>
    if k.mask = 15 then put a { val := k.val, full := full }
    else if w.poison then
      let v := Val.new cECC (BitVec.ofNat 64 (4 * k.word)) (if w.fresh then 0 else 1)
      let a := Xfer.fail { a with s := a.s.spFound g k.word } c v
      { a with counts := a.counts ++ [v] }
    else put a { w with val := mergeBytes k.mask k.val w.val, full := full }

/-- Gathers carried bytes from addresses, in order. -/
def gather (core : Nat) (ctx : Byte) (n : Nat) (as : List DWord) (s : State) : List Carried × State :=
  as.foldl (fun acc a => let r := acc.2.engBytes core ctx a n; (acc.1 ++ r.1, r.2)) ([], s)

/-- Consecutive byte addresses from a virtual address. -/
def vaRun (va : DWord) (n : Nat) : List DWord := (List.range n).map (fun i => va + BitVec.ofNat 64 i)

/-! Compression (R367). -/

/-- Words of carried bytes: a value, or the first failure among its bytes. -/
def carriedWord (four : List Carried) : Nat ⊕ Val :=
  match firstFail four with
  | some v => .inr v
  | none => .inl (natOfBytes (four.filterMap (fun b => match b with
      | .inl b => some b
      | .inr _ => none)))
/-- The whole words of carried bytes; what is left at the end makes none. -/
def carriedWords : List Carried → List (Nat ⊕ Val)
  | a :: b :: c :: d :: r => carriedWord [a, b, c, d] :: carriedWords r
  | _ => []
def carriedOf (n : Nat) (v : Nat ⊕ Val) : List Carried :=
  match v with
  | .inl v => (bytesOfNat v n).map Sum.inl
  | .inr v => List.replicate n (.inr v)

/-- A block compressed: a mask of its nonzero words, then those words (R367). -/
def packBlock (ws : List (Nat ⊕ Val)) : List (Nat ⊕ Val) :=
  let keep := fun (w : Nat ⊕ Val) => match w with
    | .inl v => v != 0
    | .inr _ => true
  .inl ((ws.mapIdx (fun i w => if keep w then 2 ^ i else 0)).foldl (· + ·) 0) :: ws.filter keep
def packBlocks (ws : List (Nat ⊕ Val)) : List (Nat ⊕ Val) :=
  (List.range (ws.length / 32)).flatMap (fun i => packBlock ((ws.drop (32 * i)).take 32))

/-- One block expanded from its mask: its 32 words and the rest, or none where the input ends (R367). -/
def unpackBlock (mask : Nat) : Nat → List (Nat ⊕ Val) → Option (List (Nat ⊕ Val) × List (Nat ⊕ Val))
  | 0, r => some ([], r)
  | n + 1, r =>
    if mask / 2 ^ (31 - n) % 2 = 1 then match r with
      | [] => none
      | w :: r => (unpackBlock mask n r).map (fun o => (w :: o.1, o.2))
    else (unpackBlock mask n r).map (fun o => (.inl 0 :: o.1, o.2))

/-- Blocks expanded into `room` bytes: the words, and why the rest is poisoned (R367); `cut` says that the input ends inside a word, and so
inside a block. -/
def unpackBlocks (daddr : DWord) (cut : Bool) : Nat → Nat → List (Nat ⊕ Val) → List (Nat ⊕ Val) × Option Val
  | 0, _, _ => ([], none)
  | _ + 1, room, [] => ([], if cut then some (.new cBOUNDS daddr (BitVec.ofNat 32 room)) else none)
  | _ + 1, _, .inr v :: _ => ([], some v)
  | fuel + 1, room, .inl m :: r =>
    match unpackBlock m 32 r with
    | none => ([], some (.new cBOUNDS daddr (BitVec.ofNat 32 room)))
    | some (ws, rest) =>
      if room < 128 then ([], some (.new cBOUNDS daddr (BitVec.ofNat 32 room)))
      else
        let o := unpackBlocks daddr cut fuel (room - 128) rest
        (ws ++ o.1, o.2)

/-- What compression and expansion write: the bytes for DST, then the eight of RLEN (R366, R367). DEDUCED (log 70). -/
def State.packed (s : State) (c : Cmd) : List Carried × State :=
  let d := c.desc
  let cap := fld d 88 8
  let dst : DWord := BitVec.ofNat 64 (fld d 8 8)
  let r := gather c.core (s.groupAt c.g).ctx 1 (vaRun (BitVec.ofNat 64 (fld d 24 8)) (fld d 16 8)) s
  let ws := carriedWords r.1
  let rlen := fun (n : Nat) => (bytesOfNat n 8).map (fun b => (.inl b : Carried))
  if fld d 0 2 = 0 then
    let out := (packBlocks ws).flatMap (carriedOf 4)
    (out.take cap ++ rlen (if cap < out.length then out.length + 2 ^ 63 else out.length), r.2)
  else
    let o := unpackBlocks dst (fld d 16 8 % 4 != 0) (ws.length + 1) cap ws
    let out := o.1.flatMap (carriedOf 4)
    match o.2 with
    | none => (out ++ rlen out.length, r.2)
    | some v => (out ++ List.replicate (cap - out.length) (.inr v) ++ rlen out.length, r.2)

/-! Collectives (R367). -/

/-- One step of a collective (R367). -/
def collStep (opc dt a b : Nat) : Nat :=
  if dt = 0 then atomNew opc 0 32 a b else atomFloat (9 + opc) (if dt = 12 then fmtBF16 else fmtF32) a b

/-- A floating sum of two numbers under a rounding mode. -/
def collAdd (rm : Rm) (f : Fmt) (a b : Nat) : Nat :=
  let vs := [f.decode false a, f.decode false b]
  if vs.any FVal.isNan then f.nanCode else (finish f rm false (addOp rm vs)).1

/-- The elements of a list in the order that a free value names. -/
def freeOrder (n : Nat) : Nat → List Nat → List Nat
  | 0, _ => []
  | k + 1, xs =>
    let i := Config.freeCount (n + k) % xs.length
    (xs[i]?).toList ++ freeOrder n k (xs.eraseIdx i)

/-- A floating sum as a kernel that stands in for the engine forms it: its order, and how each step rounds, are open; one source is not
rounded (R318, R338). DESIGN CHOICE (log 31). -/
def kernelSum (n dt : Nat) (vs : List Nat) : Nat :=
  let f := if dt = 12 then fmtBF16 else fmtF32
  match freeOrder n vs.length vs with
  | [] => 0
  | v :: r => (r.foldl (fun (a : Nat × Nat) b =>
      (a.1 + 1, collAdd ([Rm.rn, .rz, .ru, .rd].getD (Config.freeCount (n + 8 + a.1) % 4) .rn) f a.2 b)) (0, v)).2

/-- One element of a collective; a kernel that stands in for the engine may round a floating sum differently (R318, R367). -/
def State.collElem (s : State) (c : Cmd) (i : Nat) : List Carried × State :=
  let d := c.desc
  let dt := fld d 2 1
  let opc := fld d 0 2
  let e := collSize dt
  let at_ := (List.range (fld d 3 1)).map (fun k => BitVec.ofNat 64 (fld d (24 + 8 * k) 8 + e * i))
  let r := gather c.core (s.groupAt c.g).ctx e at_ s
  let vs := (List.range at_.length).map (fun k => carriedWord ((r.1.drop (e * k)).take e))
  let out : Nat ⊕ Val := match vs with
    | [] => .inl 0
    | v :: rest => rest.foldl (fun a b => match a, b with
        | .inl a, .inl b => .inl (collStep opc dt a b)
        | .inr v, _ => .inr v
        | _, .inr v => .inr v) v
  let s := r.2
  let free := c.kernel && opc == 0 && dt != 0
  (carriedOf e (match out with
    | .inl v => .inl (if free then kernelSum s.freeN dt (vs.filterMap Sum.getLeft?) else v)
    | .inr v => .inr v), if free then { s with freeN := s.freeN + 16 } else s)

/-! A command's transfer, word by word (R303, R305 to R308, R367, R378). -/

/-- Bytes of one element; of the whole output; whether that goes to memory. -/
def Cmd.elem (c : Cmd) : Nat :=
  match c.cls with
  | 0 => copyEsz c.desc
  | 3 => collSize (fld c.desc 2 1)
  | _ => 1
def Cmd.size (c : Cmd) : Nat :=
  match c.cls with
  | 0 => copyCount c.desc * copyEsz c.desc
  | 2 => c.out.length
  | _ => fld c.desc 16 8
def Cmd.toMem (c : Cmd) : Bool := c.cls != 0 || copyOut c.desc

/-- The group and offset of a copy's dense block (R303). -/
def State.cmdSpad (s : State) (c : Cmd) : Nat × Nat :=
  match s.spResolve c.g (BitVec.ofNat 32 (fld c.desc 8 4)) 1 with
  | .ok g off => (g, off)
  | .fail _ _ => (c.g, 0)

/-- Where byte `i` of the output goes; `off` is the dense block's offset (R303, R366, R367). -/
def Cmd.dstAt (c : Cmd) (off i : Nat) : Nat :=
  let d := c.desc
  match c.cls with
  | 0 => if copyOut d then (copyAddr d (i / copyEsz d) + BitVec.ofNat 64 (i % copyEsz d)).toNat else off + i
  | 2 => if i + 8 < c.out.length then (fld d 8 8 + i) % 2 ^ 64 else (fld d 80 8 + (i + 8 - c.out.length)) % 2 ^ 64
  | _ => (fld d 8 8 + i) % 2 ^ 64

/-- What a failure leaves for later: its cause, ADDR and DETAIL. -/
def Val.kept (v : Val) : Nat × DWord × Word :=
  match v with
  | .ok w => (causeOf w.val, 0, 0)
  | .new c a d => (c, a, d)

/-- The bytes of one element as they are read now. -/
def State.readElem (s : State) (c : Cmd) (e : Nat) : List Carried × State :=
  let d := c.desc
  match c.cls with
  | 0 =>
    let n := copyEsz d
    let sp := s.cmdSpad c
    let r := if copyOut d then (s.engSpad sp.1 (sp.2 + n * e) n, s.spFoundRun sp.1 (sp.2 + n * e) n) else s.engBytes c.core (s.groupAt c.g).ctx (copyAddr d e) n
    (wholeElem r.1, r.2)
  | 1 => s.engBytes c.core (s.groupAt c.g).ctx (BitVec.ofNat 64 (fld d 24 8 + e)) 1
  | 2 => (match c.out.getD e (.inl 0) with
    | .inl b => [.inl b]
    | .inr f => [.inr (.new f.1 f.2.1 f.2.2)], s)
  | _ => s.collElem c e

/-- The bytes of a run of the output. -/
def State.readPart (s : State) (c : Cmd) (iv : Nat × Nat) : List Carried × State :=
  let n := c.elem
  let lo := iv.1 / n
  let r := (List.range ((iv.1 + iv.2 - 1) / n + 1 - lo)).foldl (fun (acc : List Carried × State) i =>
    let o := acc.2.readElem c (lo + i)
    (acc.1 ++ o.1, o.2)) ([], s)
  ((r.1.drop (iv.1 % n)).take iv.2, r.2)

/-- Begins a command's transfer (R312): nothing is written yet, and a copy has asked for nothing (R300). -/
def State.openCmd (s : State) (c : Cmd) : State :=
  let r : List Carried × State := if c.cls = 2 then s.packed c else ([], s)
  let c := { c with started := true, out := r.1.map (fun b => match b with
      | .inl b => .inl b
      | .inr v => .inr v.kept) }
  let off := (s.cmdSpad c).2
  let c := { c with left := splitRuns 0 ((List.range c.size).map (c.dstAt off)), issued := if c.cls = 0 then 0 else c.size / c.elem }
  (r.2.modCmd c.id (fun _ => c)).wake

/-! Tensor requests (R300). -/

/-- Elements of the request that begins with element `i`, `n` at most: consecutive ones whose bytes are contiguous, within 4 KiB. -/
def reqLen (d : List Byte) (i : Nat) : Nat → Nat
  | 0 => 0
  | n + 1 =>
    let a := copyAddr d i
    let b := copyAddr d (i + 1)
    if n = 0 || b != a + BitVec.ofNat 64 (copyEsz d) || a.toNat / 4096 != b.toNat / 4096 then 1 else 1 + reqLen d (i + 1) n

/-- Requests outstanding of the copy unit, and of each access processor with reads under way, of a core. -/
def State.copyReqs (s : State) (core : Nat) : Nat :=
  ((s.cmds.filter (fun c => c.core == core && c.cls == 0)).map (fun c => c.reqs.length)).foldl (· + ·) 0
def Item.ap (i : Item) : Option (Nat × Nat) :=
  match i.dst with
  | .queue g h _ _ => if i.rd = 0 then none else some (g, h / 8)
  | _ => none
def State.apReqs (s : State) (core : Nat) : List ((Nat × Nat) × Nat) :=
  let rs := ((s.prods.filter (fun p => p.core == core && p.kind == .copy)).flatMap (fun p =>
    p.items.filterMap (fun i => i.ap.map (fun a => (a, i.rd))))).eraseDups
  ((rs.map (fun r => r.1)).eraseDups).map (fun a => (a, (rs.filter (fun r => r.1 == a)).length))

/-- Whether the copy unit, or an access processor, may have another request outstanding (R300). -/
def State.reqFree (s : State) (core : Nat) (who : Option (Nat × Nat)) : Bool :=
  let copy := s.copyReqs core
  let aps := s.apReqs core
  let shared := (copy - 16) + (aps.map (fun a => a.2 - 8)).foldl (· + ·) 0
  decide (shared < 32) || (match who with
    | none => decide (copy < 16)
    | some a => decide (((aps.find? (fun e => e.1 == a)).map (fun e => e.2)).getD 0 < 8))

/-- A copy asks for its next elements, where the core may have another request outstanding (R300, R303). DEDUCED (log 69). -/
def State.nextReq (s : State) (c : Cmd) : Option State :=
  let n := copyCount c.desc - c.issued
  if c.cls ≠ 0 || n = 0 || !s.reqFree c.core none then none else
  let k := reqLen c.desc c.issued (min n (4096 / copyEsz c.desc))
  some (s.modCmd c.id (fun c => { c with issued := c.issued + k, reqs := c.reqs ++ [(c.issued, c.issued + k)] }))

/-! Writing. -/

/-- Writes one chunk of a command, which begins at byte `pos` of its output, or none where its word cannot take it yet (R287, R376, R380). -/
def State.putChunk (s : State) (c : Cmd) (pos : Nat) (k : Chunk) : Option Xfer :=
  let a : Xfer := { s := s, ring := c.ring, cart := c.cart, first := c.first, pos := pos }
  let ctx := (s.groupAt c.g).ctx
  if !c.toMem then some (a.spChunk c (s.cmdSpad c).1 (copyFew c.desc) k) else
  match s.reach c.core ctx (4 * k.word) .store with
  | (.ok dpa _, _) => if s.homeReady c.core [dpa / 4] then some (a.memChunk c ctx k) else none
  | (.fail _ _, _) => some (a.memChunk c ctx k)

/-- A command after one run of its output has been written: requests with no run left are complete (R300). -/
def Cmd.wrote (c : Cmd) (iv : Nat × Nat) (a : Xfer) : Cmd :=
  let left := c.left.erase iv
  let e := c.elem
  { c with left := left, cut := false, ring := a.ring, cart := a.cart, first := a.first, refusals := c.refusals ++ a.counts.map Val.kept
           failed := c.failed || a.ring.isSome || !a.counts.isEmpty
           reqs := c.reqs.filter (fun r => left.any (fun i => decide (i.1 < r.2 * e) && decide (r.1 * e < i.1 + i.2))) }

/-- Writes one run of a command's output: in any order (R378), but what the same word receives in linear order (R303). None where nothing
can be written now. -/
def State.cmdPart (s : State) (c : Cmd) (free : Bool) : Option State :=
  let off := (s.cmdSpad c).2
  let ok := c.left.filter (fun iv => decide ((iv.1 + iv.2 - 1) / c.elem < c.issued))
  match ok with
  | [] => none
  | h :: _ =>
    let (n, s) := s.fresh
    let iv := if free then ok.getD (Config.freeCount n % ok.length) h else h
    let iv := (ok.find? (fun j => c.dstAt off j.1 / 4 == c.dstAt off iv.1 / 4)).getD h
    let r := s.readPart c iv
    let k : Chunk := { word := c.dstAt off iv.1 / 4
                       bytes := r.1.mapIdx (fun i b => (c.dstAt off (iv.1 + i) % 4, b)) }
    (r.2.putChunk c iv.1 k).map (fun a => (a.s.modCmd c.id (fun c => c.wrote iv a)).wake)

/-- A command under way goes on by one request or one word; none where it has to wait. -/
def State.cmdGo (s : State) (id : Nat) : Option State :=
  match s.cmd? id with
  | none => none
  | some c => if !c.started then none else
    let (n, s) := s.fresh
    if Config.freeBool n then (s.nextReq c).orElse (fun _ => s.cmdPart c true)
    else (s.cmdPart c true).orElse (fun _ => s.nextReq c)

/-- A command goes on until all its words are written, or one has to wait. -/
def State.cmdRun (s : State) (id : Nat) : Nat → State
  | 0 => s
  | n + 1 => match s.cmd? id with
    | none => s
    | some c => match (s.nextReq c).orElse (fun _ => s.cmdPart c false) with
      | some t => t.cmdRun id n
      | none => s

/-- Whether a command has written all it writes. -/
def Cmd.whole (c : Cmd) : Bool := c.left.isEmpty && (c.cls != 0 || decide (copyCount c.desc ≤ c.issued))

/-! Completion actions (R309, R425). -/

/-- Holds a delivery for a saved group (R425). -/
def State.deferAct (s : State) (g : Nat) (a : Action) : State :=
  { s with saved := s.saved.map (fun v => if v.g == g then { v with queued := v.queued ++ [(v.queued.length, a)] } else v) }

/-- Whether a group is saved (R425). -/
def State.isSaved (s : State) (g : Nat) : Bool := (s.group? g).isNone && s.saved.any (fun v => v.g == g)

/-- The record of an ADD whose own address fails (R309). DEDUCED (log 132). -/
def State.actFail (s : State) (g w f : Nat) (pc : DWord) (cause : Nat) (addr : DWord) (tag : Nat) : State :=
  let s := if (s.fibreAt g w f).ended then s.failGroup g else s
  let s := s.modFibre g w f (fun x => { x with fstat := withUnres x.fstat (unresOf x.fstat + 1) })
  (s.addCart g w f { cause := BitVec.ofNat 8 cause, flags := flagCMD ||| flagACTF ||| flagUNR, unit := 0xFF, pc := pc
                     addr := addr, detail := BitVec.ofNat 32 tag }).2

/-- An indivisible 64-bit addition to two device words, as RED.add performs it (R250, R266, R309): in the core's L1 where it owns them,
else at their home, where the addition takes the place of the registration. -/
def State.addWords (s : State) (core : Nat) (b : Writer) (dpa cval : Nat) : State :=
  let wa := dpa / 4
  let now := fun (i : Nat) => s.engineRead core (wa + i)
  let v := ((now 0).val.toNat + 2 ^ 32 * (now 1).val.toNat + cval) % 2 ^ 64
  let put := fun (s : State) (i : Nat) =>
    let w : MemWord := { val := BitVec.ofNat 32 (v / 2 ^ (32 * i)) }
    match s.l1At core (wa + i) with
    | some { st := .owned, ctx := x, .. } => (s.fixReads core (wa + i)).setL1 core (wa + i) (some { st := .owned, word := w, ctx := x })
    | _ => s.coreWrite core b (wa + i) w 0
  put (put s 0) 1

/-- Whether an ADD's words can take the addition: each is the core's own, or can be written at its home (R309, R380). -/
def State.actReady (s : State) (core : Nat) (ctx : Byte) (a : Act) : Bool :=
  if a.kind ≠ 1 then true else
  match (s.reach core ctx a.caddr .store).1 with
  | .ok dpa _ => (List.range 2).all (fun i => s.isOwned (s.agent core) (dpa / 4 + i) || s.homeReady core [dpa / 4 + i])
  | .fail _ _ => true

/-- A write to scratchpad that the core's table refuses is dropped, and counts while its fibre runs (R253). -/
def State.spadRefused (s : State) (g w f : Nat) (pc : DWord) (addr : Word) : State :=
  if (s.fibreAt g w f).ended then s else s.countBad g w f flagCMD pc [(wholeUnit, .new cPAGE (addr.setWidth 64) 4)]

/-- Performs a completion action for a group (R309, R425); `tag` is DETAIL of a failure's record. DEDUCED (log 118). -/
def State.doAct (s : State) (g w f core : Nat) (pc : DWord) (tag : Nat) (a : Act) : State :=
  match a.kind with
  | 1 =>
    let va : DWord := BitVec.ofNat 64 a.caddr
    (match s.reach core (s.groupAt g).ctx a.caddr .store with
    | (.fail c _, s) => s.actFail g w f pc c va tag
    | (.ok dpa uc, s) =>
      if (s.engineRead core (dpa / 4)).bad || (s.engineRead core (dpa / 4 + 1)).bad then s.actFail g w f pc cECC va tag
      else if dpa % 8 ≠ 0 then s.actFail g w f pc cMISALIGN va tag
      else s.newId.2.addWords core { ctx := (s.groupAt g).ctx, uc := uc, id := s.idN } dpa a.cval)
  | 2 =>
    let n := a.arg % 32
    if (s.groupAt g).lost then s
    else if s.isSaved g then s.deferAct g (.arrive n)
    else (s.barOp g (.arrive n [] 1 false [] [])).flush g
  | 3 =>
    if (s.groupAt g).lost then s
    else if s.isSaved g then s.deferAct g (.full (BitVec.ofNat 32 a.arg) (BitVec.ofNat 32 a.cval)) else
    (match s.spResolve g (BitVec.ofNat 32 a.arg) 4 with
    | .ok g' off =>
      if s.tableBars tgSpad (s.groupAt g).ctx (s.sliceOf (s.groupAt g').core) true then s.spadRefused g w f pc (BitVec.ofNat 32 a.arg)
      else (s.setSp g' (off / 4) { val := BitVec.ofNat 32 a.cval, full := true }).spChanged g' (off / 4)
    | .fail _ _ => s)
  | _ => s

/-- The launch of a command rewritten as a kernel ends, and slot 63 is free once no other is left (R318). -/
def State.kernelEnd (s : State) (c : Cmd) : State :=
  if !c.kernel then s else
  let more := s.cmds.any (fun k => k.kernel && k.id != c.id)
  { s with engine := { s.engine with
      launches := s.engine.launches.filter (fun l => some l.lsn != c.lsn || l.slot != 63)
      slots := if more then s.engine.slots else sdel s.engine.slots 63 } }

/-- Retires a command (R309, R313): its entries are freed, and its successors no longer wait for it. -/
def State.retireCmd (s : State) (c : Cmd) : State :=
  let free := fun (k : Cmd) =>
    if k.pred == some c.id then { k with pred := none, cancel := k.cancel || (k.strict && c.failed) } else k
  let s := { s with cmds := (s.cmds.filter (fun (k : Cmd) => k.id != c.id)).map free
                    saved := s.saved.map (fun (v : Saved) => { v with cmds := v.cmds.map free }) }
  ((s.kernelEnd c).dropScore c.core c.id).wake

end Sys2Proof.Machine
end

