-- ==== Sys2Proof/Machine/Matrix.lean ====
section
/-! DEFINITION. The matrix sequencer and array (R319 to R338, R341, R355 to R362): MMA, MMS, BLD, ACZ, SQW, SQA, SQLP, SQE,
and from the fibre's side MSEQ, OPRF and MSTQ. -/

namespace Sys2Proof.Machine

/-! The sequencer. -/

def State.modSeq (s : State) (g : Nat) (k : Seq → Seq) : State := s.modGroup g (fun x => { x with seq := k x.seq })

/-- SQSTAT.MOVF and SQSTAT.NV (R319). -/
def sqMOVF : Word := 4
def sqNV : Word := 8

/-- SQSTAT as a word (R319). -/
def Seq.status (q : Seq) : Word :=
  let st : Word := match q.st with
    | .idle => 0
    | .running => 1
    | .ended => 2
    | .halted => 3
  q.stat ||| st

/-- Frees the B-store slots, leaves the barriers, settles the group (R322, R326). -/
def State.seqStop (s : State) (g : Nat) : State :=
  ((s.modSeq g (fun q => { q with granted := false, cnt := 0, slots := [] })).leave g [.seq]).flush g

/-- Halts a sequencer: nothing of the instruction is performed and the group is marked failed (R93, R320). -/
def State.haltSeq (s : State) (g cause : Nat) : State :=
  let s := s.modSeq g (fun q =>
    { q with st := .halted, stat := (q.stat &&& 0xFFFF00FF) ||| (BitVec.ofNat 32 cause <<< 8) })
  ((s.failGroup g).seqStop g).wake

/-- The path that a sequencer's waits are noted under. -/
def seqPath (g : Nat) (q : Seq) : Path := { g := g, w := 0, f := 8, mask := 0, pc := q.spc }

/-- How a stream instruction ends. -/
inductive SOut where
  | wait
  | halt (cause : Nat)
  | ok (s : State) (jump : Option DWord)

/-- Executes a stream instruction of `words` words for the sequencer whose turn it is. -/
def runStream (words : Nat) (f : SFields) (body : Nat → SFields → State → SOut) (s : State) :
    Host.Outcome State Fault Refusal :=
  match s.turn with
  | .stream g =>
    let q := (s.groupAt g).seq
    let s0 := { s with turn := .choose }
    match body g f s with
    | .wait => .next { s0 with blocked := seqPath g q :: s0.blocked }
    | .halt c => .next (s0.haltSeq g c)
    | .ok t jump =>
      .next { (t.modSeq g (fun x => { x with spc := jump.getD (q.spc + BitVec.ofNat 64 (4 * words)) })).wake with turn := .choose }
  | _ => .fault .noAgent

/-- The lowest free run of `n` B-store slots of a core (R326). -/
def State.freeRun (s : State) (core n : Nat) : Option Nat :=
  let taken := fun (i : Nat) => s.groups.any (fun e =>
    e.2.core == core && e.2.seq.granted && decide (e.2.seq.base ≤ i) && decide (i < e.2.seq.base + e.2.seq.cnt))
  firstBelow (65 - n) (fun b => (List.range n).all (fun i => !taken (b + i)))

/-! Operands. -/

/-- VTILE.FMT of an R83 format code (R166). -/
def codeFmt (c : Nat) : Nat :=
  match c with
  | 15 => 0
  | 16 => 1
  | 13 => 2
  | 14 => 3
  | 11 => 4
  | _ => 5

/-- The allowed pairings (R333): 16-bit formats only with each other. -/
def pairOk (fa fb : Nat) : Bool := decide (codeFmt fa ≤ 3) == decide (codeFmt fb ≤ 3)

/-- Word offsets of a tile and of an accumulator under the sequencer's copied views (R320). -/
def seqTile (q : Seq) (n : Nat) : List Nat := (List.range (tileWords q.vtile)).map (fun i => tileOff q.vtile n + i)
def seqAcc (q : Seq) (n : Nat) : List Nat := (List.range 256).map (fun i => accOff q.vacc n + i)

/-- Why an operand range halts the sequencer (R320): BOUNDS past the last number, ILLEGAL outside the window. -/
def seqRange (q : Seq) (acc : Bool) (first n : Nat) : Option Nat :=
  if 64 < first + n then some cBOUNDS
  else if acc then (if inWindow q.win (accOff q.vacc first) (256 * n) then none else some cILLEGAL)
  else if inWindow q.win (tileOff q.vtile first) (tileWords q.vtile * n) then none else some cILLEGAL

/-- Register words at some offsets of a warp. -/
def State.regsAt (s : State) (g w : Nat) (offs : List Nat) : List RegWord :=
  let rs := (s.warpAt g w).regs
  offs.map (fun o => sgetD rs o {})

/-- The offsets that a matrix instruction's A tile starts at, and the accumulators it writes. -/
def MatrixOp.tileAt (o : MatrixOp) (i : Nat) : List Nat :=
  (List.range ((fmtPayload o.fmt + 16) / 4)).map (fun j => o.tiles.getD i 0 + j)
def MatrixOp.accAt (o : MatrixOp) (i : Nat) : List Nat := (List.range 256).map (fun j => o.accs.getD i 0 + j)

/-- Where an MMS A tile stands in scratchpad, or why it is poisoned (R357). -/
def State.mmsTile (s : State) (g : Nat) (o : MatrixOp) (i : Nat) : (Nat × Nat) ⊕ Val :=
  let n := fmtPayload o.fmt + 16
  let a : Word := o.addr.getD 0 + BitVec.ofNat 32 (n * i)
  match s.spRange g a.toNat n with
  | some d => .inr (.new cBOUNDS (a.setWidth 64) (BitVec.ofNat 32 d))
  | none =>
    if a.toNat % 16 ≠ 0 then .inr (.new cMISALIGN (a.setWidth 64) 16)
    else match s.spResolve g a 1 with
      | .ok g' off => .inl (g', off)
      | .fail c d => .inr (.new c (a.setWidth 64) d)

/-- The words of an A tile as they stand now; tags are not regarded (R325, R357). -/
def State.aTile (s : State) (g : Nat) (o : MatrixOp) (i : Nat) : List RegWord :=
  match o.addr with
  | none => s.regsAt g o.w (o.tileAt i)
  | some _ => match s.mmsTile g o i with
    | .inl (g', off) => (List.range ((fmtPayload o.fmt + 16) / 4)).map (fun j =>
        let w := s.spAt g' (off / 4 + j)
        { val := w.val, poison := w.poison, res := residue w.val })
    | .inr _ => []

/-! Reading old or new (R325). -/

/-- Element `j` of `bits` bits comes from the old word or from the new one. -/
def mixBits (n bits : Nat) (a b : Word) : Word × Bool × Bool :=
  (List.range (32 / bits)).foldl (fun acc j =>
    let m : Word := BitVec.ofNat 32 ((2 ^ bits - 1) * 2 ^ (bits * j))
    if Config.freeBool (n + j) then (acc.1 ||| (a &&& m), true, acc.2.2) else (acc.1 ||| (b &&& m), acc.2.1, true)) (0, false, false)

/-- A word read while it changes: each element whole, old or new. -/
def mixWord (n bits : Nat) (a b : RegWord) : RegWord :=
  if a.val == b.val && a.poison == b.poison then a else
  let r := mixBits n bits a.val b.val
  if r.2.1 && a.poison then a else if r.2.2 && b.poison then b else mkWord r.1

/-- A tile's words: its payload element by element, its record whole. DESIGN CHOICE (log 75). -/
def mixTile (n fmt : Nat) (old new : List RegWord) : List RegWord :=
  let p := fmtPayload fmt / 4
  ((old.take p).zip (new.take p)).mapIdx (fun i e => mixWord (n + 8 * i) (fmtBits fmt) e.1 e.2)
    ++ (if Config.freeBool (n + 8 * p) then old.drop p else new.drop p)

/-! The arithmetic of the array (R334 to R337). -/

/-- The sum of one block: nothing when every A element is a zero, a NaN when it is invalid (R334, R336). -/
def blockSum (window : Bool) (xs ys : List FVal) (sh : List Int) : Option FVal :=
  let ts := (xs.zip (ys.zip sh)).filter (fun e => !e.1.isZero)
  if ts.isEmpty then none
  else if ts.any (fun e => e.1.isNan || e.2.1.isNan || zeroInf e.1 e.2.1) then some (.nan false)
  else
    let ps := ts.map (fun e => (mulVal e.1 e.2.1).scale e.2.2)
    let tops : List Int := ps.filterMap (fun p => match p with
      | .fin _ m e => if m = 0 then none else some ((m.log2 : Int) + e)
      | _ => none)
    let ps := match tops with
      | [] => ps
      | t :: r =>
        if !window || ps.any FVal.isInf then ps else
        let q := r.foldl max t - 40
        ps.map (fun p => match p with
          | .fin n m e => if e < q then .fin n (m / 2 ^ (q - e).toNat) q else p
          | p => p)
    some ((sumVal .rn ps).getD (.nan false))

/-- The saturated FP32 code of R336. -/
def maxF32 (neg : Bool) : Nat := (if neg then 2 ^ 31 else 0) + 0x7F7FFFFF

/-- Compose (R336): an FP32 code and SQSTAT flags. DEDUCED (log 77). -/
def compose (acc : Option Nat) (sum : FVal) (e : Int) : Nat × Word :=
  let a := acc.map (fun v => fmtF32.decode false v)
  let nanAcc := match a with
    | some v => v.isNan
    | none => false
  let infAcc := match a with
    | some v => v.isInf
    | none => false
  if sum.isNan then (fmtF32.nanCode, sqNV)
  else if nanAcc then (fmtF32.nanCode, 0)
  else
    let v := sum.scale e
    let tooBig := fun (v : FVal) => !v.isInf && (fmtF32.put .rn false v).2 &&& fOF != 0
    if !infAcc && tooBig v then (maxF32 v.neg, sqMOVF)
    else match sumVal .rn (a.toList ++ [v]) with
      | none => (fmtF32.nanCode, sqNV)
      | some t => if tooBig t then (maxF32 t.neg, sqMOVF) else ((fmtF32.put .rn false t).1, 0)

/-- A tile as the array decodes it: its elements and its record (R329). -/
structure Decoded where
  els : List FVal
  record : Nat

def decodeTile (fmt : Nat) (xv : Word) (ws : List Word) : Decoded :=
  { els := (codesOf (fmtBits fmt) (payOf fmt ws)).map (tileDec fmt false xv), record := recOf fmt ws }

/-- One k-step on one accumulator (R334): the codes after it and the flags. -/
def kStep (window : Bool) (a b : Decoded) (accs : List (Option Nat)) : List (Option Nat) × Word :=
  let sh := (List.range 16).map (fun t => ((recCol a.record t + recRow b.record t : Nat) : Int))
  let row := fun (r : Nat) => (a.els.drop (16 * r)).take 16
  let col := fun (c : Nat) => (List.range 16).map (fun t => b.els.getD (16 * t + c) (.fin false 0 0))
  let os := accs.mapIdx (fun i acc =>
    match blockSum window (row (i / 16)) (col (i % 16)) sh with
    | none => (acc, (0 : Word))
    | some v =>
      let e : Int := (recE8 a.record : Int) - 127 + ((recE8 b.record : Int) - 127) + recRow a.record (i / 16) + recCol b.record (i % 16)
      let o := compose acc v e
      (some o.1, o.2))
  (os.map (·.1), os.foldl (fun m o => m ||| o.2) 0)

/-- Output tiles of one k-step, and the writes of output tiles that a matrix instruction makes in all (R321, R334). -/
def MatrixOp.width (o : MatrixOp) : Nat := max 1 (o.m * o.n)
def MatrixOp.total (o : MatrixOp) : Nat := if o.acz then o.accs.length else o.k * o.width
/-- Whether a k-step of it is at work. -/
def MatrixOp.mid (o : MatrixOp) : Bool := !o.acz && o.pos % o.width != 0

/-- The address of an A tile's record in scratchpad; 0 for a tile in registers (R167, R387). -/
def MatrixOp.recordVa (o : MatrixOp) (i : Nat) : DWord :=
  match o.addr with
  | some a => (a + BitVec.ofNat 32 ((fmtPayload o.fmt + 16) * i + fmtPayload o.fmt)).setWidth 64
  | none => 0

/-- Why an A tile that the array has read is poisoned (R330, R332, R357). DEDUCED (log 78). -/
def State.aBad (s : State) (g : Nat) (o : MatrixOp) (i : Nat) (ws : List RegWord) : Option Val :=
  match (match o.addr with
    | some _ => (match s.mmsTile g o i with
      | .inr v => some v
      | .inl _ => none)
    | none => none), ws.find? (fun w => w.poison) with
  | some v, _ => some v
  | none, some w => some (.ok w)
  | none, none => if recE8 (recOf o.fmt (vals ws)) = 255 then some (.new cSCALE (o.recordVa i) 0) else none

/-- The array finds the uncorrectable errors of the scratchpad words of some A tiles (R235, R357). -/
def State.aSeen (s : State) (g : Nat) (o : MatrixOp) (is : List Nat) : State :=
  if o.addr.isNone then s else
  is.foldl (fun s i => match s.mmsTile g o i with
    | .inl (g', off) => s.spFoundRun g' off (fmtPayload o.fmt + 16)
    | .inr _ => s) s

/-- The array reads the A tiles of a k-step (R138, R325): each element, and each record whole, as it stood at issue or as it stands now;
a register xv whole, once, before the first k-step. A poisoned tile keeps its poison word, and a new cause has one record of the
instruction in OWNER's ring (R329, R330, R357). -/
def State.readStep (s : State) (g : Nat) (o : MatrixOp) : MatrixOp × State :=
  let q := (s.groupAt g).seq
  let kk := o.pos / o.width
  let s := s.aSeen g o ((List.range o.m).map (fun i => i * o.k + kk))
  let n := s.freeN
  let s := { s with freeN := n + 131072 }
  let xv := fun (i : Nat) (old : Word) => if Config.freeBool (n + i) then old else ((s.groupAt g).xv.getD i 0)
  let o := if kk = 0 then { o with xva := xv o.xa o.xva, xvb := xv o.xb o.xvb } else o
  let tiles := (List.range o.m).map (fun i =>
    let j := i * o.k + kk
    let ws := mixTile (n + 8 + 1056 * i) o.fmt (o.aold.getD j []) (s.aTile g o j)
    (j, ws, s.aBad g o j ws))
  let r := s.poisonOnce o.id g q.ownerW q.ownerF (flagTILE ||| flagSEQ) o.spc
    (tiles.filterMap (fun t => t.2.2.map (fun v => (o.first + t.1, v))))
  ({ o with acur := tiles.map (fun t => (vals t.2.1, t.2.2.map (fun v => (v.word r.2).val))) }, r.1)

/-- The B tile of the slot (R326, R328, R358): an empty slot's elements are +0. -/
def MatrixOp.bRead (o : MatrixOp) (kk j : Nat) : Decoded ⊕ Word :=
  match o.slot.bad with
  | some w => .inr w
  | none =>
    if o.slot.fmt = 0 then .inl { els := [], record := 0 } else
    match o.slot.tiles.getD (kk * o.slot.n + j) ([], none) with
    | (_, some w) => .inr w
    | (ws, none) => .inl (decodeTile (codeFmt o.slot.fmt) o.xvb ws)

/-- The prior contents of an output tile, read element by element as they stood at issue or as they stand now (R325, R334). -/
def State.readPrior (s : State) (g : Nat) (o : MatrixOp) (t : Nat) : TileRun × State :=
  let n := s.freeN
  let now := s.regsAt g o.w (o.accAt t)
  let ws := ((o.cold.getD t []).zip now).mapIdx (fun j e => mixWord (n + 32 * j) 32 e.1 e.2)
  ({ vals := if o.z then List.replicate 256 none else ws.map (fun w => some w.val.toNat)
     prior := if o.z then none else (ws.find? (fun w => w.poison)).map (fun w => w.val)
     hist := [now] }, { s with freeN := n + 8192 })

/-- One k-step on one output tile (R332, R334): the tile after it, its 256 words, and the flags. -/
def MatrixOp.stepTile (o : MatrixOp) (kk t : Nat) (r : TileRun) : TileRun × List RegWord × Word :=
  let b := o.bRead kk (t % o.n)
  let a := o.acur.getD (t / o.n) ([], none)
  let r := { r with abad := r.abad.orElse (fun _ => a.2)
                    bbad := r.bbad.orElse (fun _ => match b with
                      | .inr w => some w
                      | .inl _ => none) }
  match r.abad.orElse (fun _ => r.bbad.orElse (fun _ => r.prior)), b with
  | some w, _ => (r, List.replicate 256 (badWord w), 0)
  | none, .inl d =>
    let o' := if o.slot.fmt == 0 then (r.vals, 0) else kStep (decide (4 ≤ o.fmt)) (decodeTile o.fmt o.xva a.1) d r.vals
    ({ r with vals := o'.1 }, o'.1.map (fun v => mkWord (BitVec.ofNat 32 (v.getD 0))), o'.2)
  | none, .inr _ => (r, [], 0)

/-- Whether a later matrix instruction in flight still writes a register word (R321, R325). -/
def writesAcc (os : List MatrixOp) (w off : Nat) : Bool :=
  os.any (fun o => o.w == w && o.accs.any (fun a => decide (a ≤ off) && decide (off < a + 256)))

/-- What a later matrix instruction learns of words that an earlier one has written: its own prior contents are these (R321). -/
def MatrixOp.learn (o : MatrixOp) (w base : Nat) (ws : List RegWord) : MatrixOp :=
  if o.w ≠ w || o.pos ≠ 0 then o else
  { o with cold := o.cold.mapIdx (fun i t =>
      let a := o.accs.getD i 0
      if base + 256 ≤ a || a + 256 ≤ base then t
      else t.mapIdx (fun j v => if base ≤ a + j && a + j < base + 256 then ws.getD (a + j - base) v else v)) }

/-- The array writes an output tile at a k-step: its words become full with the last one, unless a later instruction in flight writes them
too (R321, R325). -/
def State.putTile (s : State) (g w base : Nat) (last : Bool) (rest : List MatrixOp) (ws : List RegWord) : State :=
  (ws.mapIdx (fun i v => (base + i, v))).foldl (fun s e =>
    s.setReg g w e.1 { e.2 with full := (s.regAt g w e.1).full || (last && !writesAcc rest w e.1) }) s

/-- The oldest matrix instruction of a group, whose next instructions are `rest`, writes its next output tile (R321, R325, R332, R334,
R359), and has completed once that is its last. -/
def State.matrixUnit (s : State) (g : Nat) (o : MatrixOp) (rest : List MatrixOp) : State :=
  let t := o.pos % o.width
  let kk := o.pos / o.width
  let base := if o.acz then o.accs.getD o.pos 0 else o.accs.getD t 0
  let r : MatrixOp × List RegWord × Word × Bool × State :=
    if o.acz then (o, if o.pos < o.accs.length then List.replicate 256 (mkWord 0) else [], 0, true, s) else
    let (o, s) := if t = 0 then s.readStep g o else (o, s)
    let (run, s) := if kk = 0 then s.readPrior g o t else (o.outs.getD t {}, s)
    let e := o.stepTile kk t run
    let run := { e.1 with hist := e.1.hist ++ [e.2.1]
                          early := if kk + 1 = o.k then (List.range 256).filter (fun i => (s.regAt g o.w (base + i)).full) else [] }
    ({ o with outs := if kk = 0 then o.outs ++ [run] else o.outs.set t run }, e.2.1, e.2.2, kk + 1 == o.k, s)
  let (o, ws, fl, last, s) := r
  let o := { o with pos := o.pos + 1 }
  let o := { o with read := o.acz || decide (o.k * o.width ≤ o.pos) || (decide (1 < o.k) && decide ((o.k - 1) * o.width < o.pos)) }
  let s := s.putTile g o.w base last rest ws
  let rest := rest.map (fun p => p.learn o.w base ws)
  let s := if o.total ≤ o.pos then s.undriftOp g o else s
  s.modSeq g (fun q => { q with ops := if o.total ≤ o.pos then rest else o :: rest, stat := q.stat ||| fl })

/-! The array's turns (R321, R341). -/

/-- The group whose oldest matrix instruction the array of a core works on next: the one whose k-step is at work, or the next in turn
after the one served last, the sequencers in the order of their groups. DESIGN CHOICE (log 30): the manual numbers a core's sequencers
and does not say how (R321). -/
def State.arrayNext (s : State) (core : Nat) : Option Nat :=
  let gs := (s.groups.filter (fun e => e.2.core == core && (match e.2.seq.ops with
    | o :: _ => !o.acz
    | [] => false))).map (fun e => e.1)
  match gs.find? (fun g => match (s.groupAt g).seq.ops with
    | o :: _ => o.mid
    | [] => false) with
  | some g => some g
  | none => match (s.coreAt core).served with
    | none => gs.head?
    | some k => match gs.find? (fun g => decide (k < g)) with
      | some g => some g
      | none => gs.head?

/-- Whether a core's array has a k-step to start: an MMA or MMS issued and not completed. -/
def State.arrayBusy (s : State) (core : Nat) : Bool :=
  s.groups.any (fun e => e.2.core == core && e.2.seq.ops.any (fun o => !o.acz))

/-- A core that has halted for pre-emption returns its burst token once its array has no more to do (R341, R422, R423). -/
def State.tokenBack (s : State) (core : Nat) : State :=
  if (s.coreAt core).tokenHeld && !s.arrayBusy core && s.groups.any (fun e => e.2.core == core && e.2.pre != .none) then
    s.modCore core (fun c => { c with tokenHeld := false })
  else s

/-- Whether the oldest matrix instruction of a group can go on: its array has turned to it and its core holds a burst token; ACZ needs
neither (R321, R341). -/
def State.matrixTurn (s : State) (g : Nat) : Bool :=
  match (s.groupAt g).seq.ops with
  | [] => false
  | o :: _ => o.acz || ((s.coreAt (s.groupAt g).core).tokenHeld && s.arrayNext (s.groupAt g).core == some g)

/-- The oldest matrix instruction of a group goes on by one output tile, in its turn. -/
def State.matrixGo (s : State) (g : Nat) : State :=
  if !s.matrixTurn g then s else
  match (s.groupAt g).seq.ops with
  | [] => s
  | o :: rest =>
    let core := (s.groupAt g).core
    let s := s.matrixUnit g o rest
    let s := if o.acz then s else s.modCore core (fun c => { c with served := some g })
    s.tokenBack core

/-- The array of a core goes on, each sequencer in its turn, until fewer than `k` matrix instructions of a group are in flight. -/
def State.matrixRun (s : State) (g k : Nat) : Nat → State
  | 0 => s
  | n + 1 => if (s.groupAt g).seq.ops.length < k then s
    else if s.matrixTurn g then (s.matrixGo g).matrixRun g k n
    else match s.arrayNext (s.groupAt g).core with
      | some j => if s.matrixTurn j then (s.matrixGo j).matrixRun g k n else s
      | none => s

/-- Output tiles that the matrix instructions of a core have still to write. -/
def State.matrixLeft (s : State) (core : Nat) : Nat :=
  ((s.groups.filter (fun e => e.2.core == core)).flatMap (fun e => e.2.seq.ops.map (fun o => o.total - o.pos))).foldl (· + ·) 0

/-! Stream instructions. -/

/-- Fields of word 1 (R355). -/
def w1Field (f : SFields) (lo n : Nat) : Nat := f.w1.toNat / 2 ^ lo % 2 ^ n

/-- A core's array has work: the core asks for a burst token (R341). -/
def State.askToken (s : State) (core : Nat) : State :=
  let c := s.coreAt core
  if c.tokenHeld || c.tokenAsked then s
  else { s.modCore core (fun c => { c with tokenAsked := true }) with tokens := s.tokens ++ [(s.sliceOf core, core)] }

/-- Hands a matrix instruction to the array (R321, R325, R423): its accumulators become empty. -/
def State.issueOp (s : State) (g : Nat) (o : MatrixOp) : State :=
  let (i, s) := s.newId
  let o := { o with id := i }
  let s := (o.accs.flatMap (fun a => (List.range 256).map (fun i => a + i))).foldl (fun s off =>
    s.setReg g o.w off { s.regAt g o.w off with full := false }) s
  let s := s.modSeq g (fun q => { q with ops := q.ops ++ [o] })
  if o.acz then s else s.askToken (s.groupAt g).core

/-- The sizes that a matrix instruction gives (R355, R357). -/
def sM (f : SFields) : Nat := w1Field f 0 3 + 1
def sK (f : SFields) : Nat := w1Field f 3 3 + 1
def sN (f : SFields) : Nat := w1Field f 6 3 + 1

/-- The loop counter that LCJ names, or 0 (R356). DEDUCED (log 39). -/
def Seq.lcj (q : Seq) (f : SFields) : Word := if w1Field f 29 1 = 1 then q.lc.getD (w1Field f 30 2) 0 else 0

/-- Why MMA and MMS halt their sequencer (R320, R327, R333, R357). -/
def matrixHalt (mms : Bool) (q : Seq) (f : SFields) : Option Nat :=
  let fa := w1Field f 23 5
  let fb := w1Field f 18 5
  let sl := q.slots.getD f.b6.toNat {}
  if !pairOk fa fb || decide (q.cnt ≤ f.b6.toNat) || fa != fmtCode (tileFmt q.vtile) || (sl.fmt != 0 && sl.fmt != fb) then
    some cILLEGAL
  else
    match seqRange q true f.d.toNat (sM f * sN f), (if mms then none else seqRange q false f.a.toNat (sM f * sK f)) with
    | some c, some c' => some (if c' = cBOUNDS then c' else c)
    | some c, none => some c
    | none, some c => some c
    | none, none => if sl.fmt != 0 && (decide (sl.k < sK f) || decide (sl.n < sN f)) then some cBOUNDS else none

/-- Whether MMA and MMS wait: their B-store slot is being filled, or two matrix instructions are in flight (R321, R328). -/
def matrixWait (q : Seq) (f : SFields) : Bool := (q.slots.getD f.b6.toNat {}).busy || decide (2 ≤ q.ops.length)

/-- The work that MMA and MMS hand to the array (R320, R327, R334, R357). -/
def State.matrixOp (s : State) (mms : Bool) (g : Nat) (f : SFields) : MatrixOp :=
  let q := (s.groupAt g).seq
  let xv := (s.groupAt g).xv
  let fmt := tileFmt q.vtile
  let o : MatrixOp := { id := 0, w := q.ownerW, spc := q.spc, z := w1Field f 28 1 == 1, fmt := fmt, fb := w1Field f 18 5
                        xa := w1Field f 15 3, xb := w1Field f 12 3
                        xva := xv.getD (w1Field f 15 3) 0, xvb := xv.getD (w1Field f 12 3) 0
                        m := sM f, k := sK f, n := sN f, bno := f.b6.toNat, slot := q.slots.getD f.b6.toNat {}
                        first := if mms then 0 else f.a.toNat
                        tiles := if mms then [] else (List.range (sM f * sK f)).map (fun i => tileOff q.vtile (f.a.toNat + i))
                        addr := if mms then some (f.w2 + BitVec.ofNat 32 (4 * tileWords q.vtile * sM f * sK f) * q.lcj f) else none
                        accs := (List.range (sM f * sN f)).map (fun i => accOff q.vacc (f.d.toNat + i)) }
  o

/-- Hands an MMA or MMS to the array with what stands in its A tiles and accumulators (R325). -/
def State.issueMatrix (s : State) (g : Nat) (o : MatrixOp) : State :=
  let s := (s.undrift g).aSeen g o (List.range (o.m * o.k))
  s.issueOp g { o with aold := (List.range (o.m * o.k)).map (s.aTile g o)
                       cold := (List.range (o.m * o.n)).map (fun i => s.regsAt g o.w (o.accAt i)) }

/-- MMA and MMS (R320, R321, R327, R333, R334, R357). -/
def matrixBody (mms : Bool) (g : Nat) (f : SFields) (s : State) : SOut :=
  match matrixHalt mms (s.groupAt g).seq f with
  | some c => .halt c
  | none => if matrixWait (s.groupAt g).seq f then .wait else .ok (s.issueMatrix g (s.matrixOp mms g f)) none

def mmaBody (g : Nat) (f : SFields) (s : State) : SOut := matrixBody false g f s
/-- MMA (R357). -/
def execMma (f : SFields) (s : State) : Host.Outcome State Fault Refusal := runStream 2 f mmaBody s

def mmsBody (g : Nat) (f : SFields) (s : State) : SOut := matrixBody true g f s
/-- MMS (R357). -/
def execMms (f : SFields) (s : State) : Host.Outcome State Fault Refusal := runStream 3 f mmsBody s

/-- Why ACZ halts its sequencer (R320, R359), and the work it hands to the array. -/
def aczHalt (q : Seq) (f : SFields) : Option Nat := seqRange q true f.d.toNat (f.b6.toNat + 1)
def aczOp (q : Seq) (f : SFields) : MatrixOp :=
  { id := 0, w := q.ownerW, spc := q.spc, acz := true, z := true
    accs := (List.range (f.b6.toNat + 1)).map (fun i => accOff q.vacc (f.d.toNat + i)) }

/-- ACZ (R359). -/
def aczBody (g : Nat) (f : SFields) (s : State) : SOut :=
  let q := (s.groupAt g).seq
  match aczHalt q f with
  | some c => .halt c
  | none => if 2 ≤ q.ops.length then .wait else .ok (s.issueOp g (aczOp q f)) none
/-- ACZ (R359). -/
def execAcz (f : SFields) (s : State) : Host.Outcome State Fault Refusal := runStream 1 f aczBody s

/-- Whether a BLD descriptor fails its checks (R358). -/
def bldIllegal (d : List Byte) : Bool :=
  let n := fld d 21 1 / 8 % 8 + 1
  decide (64 ≤ fld d 21 1) || decide (2 ≤ fld d 22 1) || !isZero d 23 1 || !isZero d 28 4
    || !(decide (11 ≤ fld d 20 1) && decide (fld d 20 1 ≤ 16)) || decide (fld d 16 4 < n)

/-- Fills a slot from a descriptor (R328, R358): each tile is read as LDT reads it, and a failure poisons that tile. -/
def State.bldFill (s : State) (g : Nat) (q : Seq) (d : List Byte) (lcj : Word) : BSlot × State :=
  let fc := fld d 20 1
  let fmt := codeFmt fc
  let k := fld d 21 1 % 8 + 1
  let n := fld d 21 1 / 8 % 8 + 1
  let core := (s.groupAt g).core
  let ctx := (s.groupAt g).ctx
  let step : DWord := BitVec.ofInt 64 (signed 32 (fld d 24 4)) * lcj.setWidth 64
  let one := fun (acc : List (List Word ⊕ Val) × State) (i : Nat) =>
    let x : DWord := BitVec.ofNat 64 (i / n * fld d 16 4 + i % n) + step
    let pay : DWord := BitVec.ofNat 64 (fld d 0 8) + BitVec.ofNat 64 (fmtPayload fmt) * x
    let rv : DWord := BitVec.ofNat 64 (fld d 8 8) + 16 * x
    match acc.2.tilePlace core ctx .load false pay (fmtPayload fmt) (some rv) with
    | (.inr v, s) => (acc.1 ++ [.inr v], s)
    | (.inl p, s) =>
      let s := s.tileReads ctx p false
      (acc.1 ++ [s.tileLoad core {} fmt (fld d 22 1 % 2 == 1) pay rv p.lines p.rdpa], s)
  let r := (List.range (k * n)).foldl one ([], s)
  let made := (r.1.mapIdx (fun i t => (i, t))).filterMap (fun e => match e.2 with
    | .inr v => some (e.1, v)
    | .inl _ => none)
  let (s, tbl) := r.2.makePoison g q.ownerW q.ownerF (flagTILE ||| flagSEQ) q.spc made
  ({ fmt := fc, k := k, n := n, busy := true, desc := d, lcj := lcj
     tiles := r.1.map (fun t => match t with
       | .inl ws => (ws, none)
       | .inr v => ([], some (v.word tbl).val)) }, s)

/-- Why BLD halts its sequencer: its slot, its descriptor's range, or its descriptor (R320, R328, R358). -/
def State.bldHalt (s : State) (g : Nat) (f : SFields) : Option Nat :=
  if (s.groupAt g).seq.cnt ≤ f.b6.toNat then some cILLEGAL else
  match s.readDesc g f.w2 32 with
  | .inr (.new _ _ _) => some cBOUNDS
  | .inr (.ok _) => none
  | .inl d => if bldIllegal d then some cILLEGAL else none

/-- Whether BLD waits for its slot (R321, R328). -/
def bldWait (q : Seq) (f : SFields) : Bool :=
  (q.slots.getD f.b6.toNat {}).busy || q.ops.any (fun o => !o.acz && o.bno == f.b6.toNat && !o.read)

/-- What BLD leaves: its slot being filled, or holding the poison of its descriptor (R328, R358). DEDUCED (log 79). -/
def State.bldOut (s : State) (g : Nat) (f : SFields) : State :=
  match s.readDesc g f.w2 32 with
  | .inr (.ok w) => s.modSeq g (fun q => { q with slots := q.slots.set f.b6.toNat { bad := some w.val } })
  | .inr (.new _ _ _) => s
  | .inl d =>
    let r := s.bldFill g (s.groupAt g).seq d ((s.groupAt g).seq.lcj f)
    r.2.modSeq g (fun q => { q with slots := q.slots.set f.b6.toNat r.1 })

/-- BLD (R321, R328, R358). -/
def bldBody (g : Nat) (f : SFields) (s : State) : SOut :=
  match s.bldHalt g f with
  | some c => .halt c
  | none => if bldWait (s.groupAt g).seq f then .wait else .ok ((s.descFound g f.w2 32).bldOut g f) none
/-- BLD (R358). -/
def execBld (f : SFields) (s : State) : Host.Outcome State Fault Refusal := runStream 3 f bldBody s

/-- Whether an action is an arrival at a barrier of the group (R309, R322). -/
def Act.arrives (a : Act) (nbar : Nat) : Bool := a.kind == 2 && decide (a.arg % 32 < nbar)

/-- Whether anything may still arrive at a barrier of the group from outside its fibres (R322). -/
def State.mayArrive (s : State) (g : Nat) : Bool :=
  let nbar := (s.groupAt g).bars.length
  s.cmds.any (fun c => c.g == g && (actOf c.cls c.desc).arrives nbar)
    || s.pfts.any (fun p => p.g == g && (match p.bar with
      | some n => decide (n < nbar)
      | none => false))
    || s.ctxs.any (fun c => c.notify.any (fun e => e.2.g == g && (actOf 4 e.2.desc).arrives nbar)
      || c.posted.any (fun e => e.2.any (fun b => b.g == g && (actOf 4 b.desc).arrives nbar)))
    || s.saved.any (fun v => v.g == g && v.queued.any (fun e => match e.2 with
      | .arrive n => decide (n < nbar)
      | _ => false))

/-- The barrier that SQW and SQA name (R323). -/
def sBar (f : SFields) : Nat := f.b6.toNat % 32

/-- Whether the phase has moved past the sequencer's token for the barrier (R323). -/
def State.sqwGo (s : State) (g : Nat) (f : SFields) : Bool := (s.barAt g (sBar f)).phase != (s.groupAt g).seq.tok.getD (sBar f) 0

/-- Whether nothing can arrive any more (R322). -/
def State.sqwLost (s : State) (g : Nat) : Bool :=
  (s.groupAt g).warps.all (fun w => w.fibres.all Fibre.finished) && !s.mayArrive g && (s.groupAt g).barOps.isEmpty

/-- SQW (R322, R323): a core acquire, which changes no copy (R280, R324). -/
def sqwBody (g : Nat) (f : SFields) (s : State) : SOut :=
  if (s.groupAt g).bars.length ≤ sBar f then .halt cBOUNDS
  else if s.sqwGo g f then .ok s none
  else if s.sqwLost g then .halt cQUEUE
  else .wait
/-- SQW (R323). -/
def execSqw (f : SFields) (s : State) : Host.Outcome State Fault Refusal := runStream 1 f sqwBody s

/-- Whether the sequencer's earlier work is outstanding (R324). -/
def Seq.working (q : Seq) : Bool := !q.ops.isEmpty || q.slots.any (fun b => b.busy)

/-- SQA's arrival; none at a barrier outside the group (R323). -/
def State.sqaOut (s : State) (g : Nat) (f : SFields) : State :=
  if (s.groupAt g).bars.length ≤ sBar f then s else (s.barOp g (.seqArrive (sBar f))).flush g

/-- SQA (R323, R324). -/
def sqaBody (g : Nat) (f : SFields) (s : State) : SOut := if (s.groupAt g).seq.working then .wait else .ok (s.sqaOut g f) none
/-- SQA (R323). -/
def execSqa (f : SFields) (s : State) : Host.Outcome State Fault Refusal := runStream 1 f sqaBody s

/-- The loop counter that SQLP names, one more (R356). -/
def sqlpNext (q : Seq) (f : SFields) : Word := q.lc.getD (f.d.toNat % 4) 0 + 1

/-- SQLP's loop counter (R356, R359), and where it goes. -/
def State.sqlpOut (s : State) (g : Nat) (f : SFields) : State :=
  let v := sqlpNext (s.groupAt g).seq f
  s.modSeq g (fun q => { q with lc := q.lc.set (f.d.toNat % 4) (if v < f.w2 then v else 0) })
def sqlpJump (q : Seq) (f : SFields) : Option DWord :=
  if sqlpNext q f < f.w2 then some (q.spc + 4 * (f.b6 ++ f.a).signExtend 64) else none

/-- SQLP (R356, R359). -/
def sqlpBody (g : Nat) (f : SFields) (s : State) : SOut := .ok (s.sqlpOut g f) (sqlpJump (s.groupAt g).seq f)
/-- SQLP (R359). -/
def execSqlp (f : SFields) (s : State) : Host.Outcome State Fault Refusal := runStream 3 f sqlpBody s

/-- SQE (R322). -/
def sqeBody (g : Nat) (_ : SFields) (s : State) : SOut :=
  .ok ((s.modSeq g (fun q => { q with st := .ended })).seqStop g) none
/-- SQE (R322). -/
def execSqe (f : SFields) (s : State) : Host.Outcome State Fault Refusal := runStream 1 f sqeBody s

/-! From the fibre's side (R360 to R362). -/

/-- A pair address that must be a multiple of 4, or why it is bad (R360, R369). -/
def codeStart (vs : List Val) : DWord × Option Val :=
  let a : DWord := valOf (vs.drop 1) ++ valOf vs
  match addrBad vs a with
  | some v => (a, some v)
  | none => (a, if a.toNat % 4 ≠ 0 then some (.new cMISALIGN a 4) else none)

/-- Whether the group's sequencer can be started (R360). -/
def Group.seqStartable (gr : Group) : Bool := gr.nseq != 0 && gr.seq.st != .running && gr.seq.st != .halted

/-- The start of a sequencer at `a` with `n` slots from `base`, under the fibre's views (R319, R326, R360). -/
def Seq.start (q : Seq) (y : Fibre) (p : Path) (a : DWord) (base n : Nat) : Seq :=
  { q with st := .running, stat := 0, spc := a, lc := [0, 0, 0, 0], tok := List.replicate 32 0
           vtile := y.vtile, vacc := y.vacc, win := y.win, ownerW := p.w, ownerF := p.f
           base := base, cnt := n, granted := true, slots := List.replicate n {} }

/-- Whether MSEQ can issue: a sequencer that it can start waits for the core release and for a run of free slots (R206, R280, R326,
R360). -/
def mseqReady (x : Ex) (s : State) : Bool :=
  s.ready x { b := false, c := false } && ((codeStart (s.srcA x x.low)).2.isSome || !(x.group s).seqStartable
    || (s.coreRelease x true && (s.freeRun (x.group s).core (x.f.b6.toNat + 1)).isSome))

/-- MSEQ (R326, R360): D = 1 where it starts the sequencer, 0 where it does not, or its address's poison. -/
def mseqOut (x : Ex) (s : State) : State :=
  match codeStart (s.srcA x x.low) with
  | (_, some v) => (s.irrev x).onceWrite x [v]
  | (a, none) =>
    if !(x.group s).seqStartable then (s.irrev x).onceWrite x [.ok (mkWord 0)] else
    let n := x.f.b6.toNat + 1
    let base := (s.freeRun (x.group s).core n).getD 0
    ((s.irrev x).modSeq x.p.g (fun q => q.start (x.fibre s) x.p a base n)).onceWrite x [.ok (mkWord 1)]

def mseqBody (x : Ex) (s : State) : Out := if !mseqReady x s then .wait else .ok (mseqOut x s) []
/-- MSEQ (R360). -/
def execMseq (f : Fields) (s : State) : Host.Outcome State Fault Refusal := runInstr 0xBC f mseqBody s

/-- Notes the set of a waiting OPRF (R361). -/
def State.setOprf (s : State) (x : Ex) (set : List Nat) : State :=
  s.modFibre x.p.g x.p.w x.p.f (fun y => { y with oprf := sput y.oprf x.p.pc.toNat set })

/-- The matrix instructions that OPRF waits for: those in flight when its path was first tested (R361). DEDUCED (log 74). -/
def oprfSet (x : Ex) (s : State) : List Nat :=
  (sget (s.fibreAt x.p.g x.p.w x.p.f).oprf x.p.pc.toNat).getD ((x.group s).seq.ops.map (fun o => o.id))

/-- Whether some of them have still to finish reading, or under .c to complete (R361). -/
def oprfBusy (x : Ex) (s : State) (set : List Nat) : Bool :=
  let ops := (x.group s).seq.ops.filter (fun o => set.contains o.id)
  if x.f.sub.getLsbD 0 then !ops.isEmpty else ops.any (fun o => !o.read && !o.acz)

/-- What an OPRF that issues leaves: the set it has waited for is forgotten. -/
def oprfOut (x : Ex) (s : State) : State :=
  s.modFibre x.p.g x.p.w x.p.f (fun y => { y with oprf := sdel y.oprf x.p.pc.toNat })

/-- OPRF (R361): the set is fixed when the path is first tested. -/
def oprfBody (x : Ex) (s : State) : Out :=
  if (x.group s).seq.st != .running then .ok (oprfOut x s) [] else
  let set := oprfSet x s
  if oprfBusy x s set then .hold (fun s => s.setOprf x set) else .ok (oprfOut x s) []
/-- OPRF (R361). -/
def execOprf (f : Fields) (s : State) : Host.Outcome State Fault Refusal := runInstr 0xBD f oprfBody s

/-- MSTQ (R362). -/
def mstqOut (x : Ex) (s : State) : State :=
  let gr := x.group s
  let v := if gr.nseq = 0 then 0 else gr.seq.status
  let s := s.flagEx x ((if v &&& sqMOVF != 0 then fMOVF else 0) ||| (if v &&& sqNV != 0 then fNV else 0))
  let s := if x.f.sub.getLsbD 0 then s.modSeq x.p.g (fun q => { q with stat := q.stat &&& 0xFFFFFFF3 }) else s
  s.onceWrite x [.ok (mkWord v)]

def mstqBody (x : Ex) (s : State) : Out := .ok (mstqOut x s) []
/-- MSTQ (R362). -/
def execMstq (f : Fields) (s : State) : Host.Outcome State Fault Refusal := runInstr 0xBE f mstqBody s

end Sys2Proof.Machine
end

