-- ==== Sys2Proof/Machine/Engines.lean ====
section
/-! DEFINITION. Engine instructions (R363 to R372): COPY, CCHN, ECMD, SBQ, QMAP, and the access processors: APST, APSP,
LDQ, AEND; with the steps of the engines (R309, R312, R315, R318). -/

namespace Sys2Proof.Machine

/-! Accepting commands. -/

/-- A command as its instruction hands it over (R363 to R366): its class, its descriptor or why none was read, where that
stood, what the instruction itself checks, and the command it is chained to. -/
structure Order where
  cls : Nat
  d : List Byte ⊕ Val
  daddr : Nat := 0
  extra : Check := none
  pred : Option Nat := none
  strict : Bool := false

/-- Why a descriptor fails its checks (R304). -/
def Order.bad (o : Order) (x : Ex) (s : State) (d : List Byte) : Check :=
  orElse o.extra (if o.cls = 0 then s.copyCheck x.p.g o.daddr d else s.engCheck x.p.g o.daddr o.cls d)

/-- The scoreboard ranges of a command, whether or not its descriptor passes the checks (R310, R363). DEDUCED (log 73). -/
def Order.ranges (o : Order) (x : Ex) (s : State) (d : List Byte) : List (Range × Bool) := s.cmdRanges x.p.g o.cls d

/-- Whether a command can be accepted: a core release, and scoreboard entries for its ranges (R280, R310, R363). -/
def orderReady (o : Order) (x : Ex) (s : State) : Bool :=
  s.coreRelease x false && (match o.d with
    | .inr _ => true
    | .inl d => decide ((o.ranges x s d).length ≤ s.scoreFree (x.core s)))

/-- Accepts a command, D receiving its tag; a descriptor that was not read is D's poison (R363). -/
def orderOut (o : Order) (x : Ex) (s : State) : State :=
  match o.d with
  | .inr v => (s.irrev x).onceWrite x [v]
  | .inl d =>
    let r := (s.irrev x).acceptCmd x o.cls d o.pred o.strict (o.bad x s d) (o.ranges x s d)
    r.2.onceWrite x [.ok (mkWord (BitVec.ofNat 32 r.1))]

/-- An instruction that hands over a command. -/
def orderBody (o : Order) (x : Ex) (s : State) : Out := if !orderReady o x s then .wait else .ok (orderOut o x s) []

/-- The descriptor that a word operand addresses, or the word's poison (R363). -/
def descAt (x : Ex) (s : State) (v : Val) (n : Nat) : List Byte ⊕ Val :=
  let a := valOf [v]
  match addrBad [v] (a.setWidth 64) with
  | some v => .inr v
  | none => s.readDesc x.p.g a n

/-- The errors that the read of that descriptor finds (R235). -/
def descSeen (x : Ex) (v : Val) (n : Nat) (s : State) : State :=
  match addrBad [v] ((valOf [v]).setWidth 64) with
  | some _ => s
  | none => s.descFound x.p.g (valOf [v]) n

/-- COPY's command (R364). -/
def copyOrder (x : Ex) (s : State) : Order :=
  let v := s.readCode x x.f.a 0 x.low
  { cls := 0, d := descAt x s v 256, daddr := (valOf [v]).toNat }

def copyBody (x : Ex) (s : State) : Out :=
  if !s.ready x { b := false, c := false } then .wait else 
  let t := descSeen x (s.readCode x x.f.a 0 x.low) 256 s
  orderBody (copyOrder x t) x t
/-- COPY (R364). -/
def execCopy (f : Fields) (s : State) : Host.Outcome State Fault Refusal := runInstr 0xC0 f copyBody s

/-- The descriptor that COPY.u builds from its literal and uniform registers (R364). DEDUCED (log 71). -/
def builtDesc (lit : DWord) (r : Nat → Nat) : List Byte :=
  let w := fun (k : Nat) => bytesOfNat (r k) 4
  bytesOfNat lit.toNat 8 ++ w 0 ++ w 1 ++ w 2 ++ w 3 ++ w 5 ++ List.replicate 4 0 ++ w 4 ++ List.replicate 52 0
    ++ w 6 ++ w 7 ++ w 8 ++ List.replicate 44 0
    ++ w 10 ++ w 11 ++ w 12 ++ w 13 ++ w 14 ++ w 15 ++ List.replicate 88 0

/-- Whether the 16 uniform registers that COPY.u reads are full, or its policy probes (R24, R364). -/
def copyUReady (x : Ex) (s : State) : Bool :=
  x.f.sp.getLsbD 0 || (List.range 16).all (fun k => s.codeFull x x.f.a k x.low)

/-- COPY.u's command (R364). -/
def copyUOrder (x : Ex) (s : State) : Order :=
  let ws := (List.range 16).map (fun k => s.readCode x x.f.a k x.low)
  let r := fun (k : Nat) => (valOf (ws.drop k)).toNat
  { cls := 0
    d := match addrBad ws 0 with
      | some v => .inr v
      | none => .inl (builtDesc x.f.lit r)
    extra := check (r 9 ≠ 0 || decide (3 < r 1 % 16)) cILLEGAL 0 0 }

def copyUBody (x : Ex) (s : State) : Out := if !copyUReady x s then .wait else orderBody (copyUOrder x s) x s
/-- COPY.u (R364). -/
def execCopyU (f : Fields) (s : State) : Host.Outcome State Fault Refusal := runInstr 0xC0 f copyUBody s

/-- The command in flight that a tag of the group names; transport commands are not chained (R365, R472). DEDUCED (log 72). -/
def State.cmdTagged (s : State) (g tag : Nat) : Option Cmd := s.cmds.find? (fun c => c.g == g && c.tag == tag)

/-- CCHN's command (R313, R365). -/
def cchnOrder (x : Ex) (s : State) : Order :=
  let t := s.readCode x x.f.a 0 x.low
  let v := s.readCode x x.f.b 0 x.low
  let cls := x.f.b6.toNat % 4
  let d : List Byte ⊕ Val := match addrBad [t] 0 with
    | some b => .inr b
    | none => descAt x s v (if cls = 0 then 256 else 128)
  let pred := match s.cmdTagged x.p.g (valOf [t]).toNat with
    | some c => if c.cls = 4 then none else some c.id
    | none => none
  { cls := cls, d := d, daddr := (valOf [v]).toNat, pred := pred, strict := x.f.sub.getLsbD 0 }

def cchnBody (x : Ex) (s : State) : Out := 
  if !s.ready x { c := false } then .wait else
  let t := if (addrBad [s.readCode x x.f.a 0 x.low] 0).isSome then s
    else descSeen x (s.readCode x x.f.b 0 x.low) (if x.f.b6.toNat % 4 = 0 then 256 else 128) s
  orderBody (cchnOrder x t) x t
/-- CCHN (R365). -/
def execCchn (f : Fields) (s : State) : Host.Outcome State Fault Refusal := runInstr 0xC1 f cchnBody s

/-- ECMD's command (R366). -/
def ecmdOrder (x : Ex) (s : State) : Order :=
  let v := s.readCode x x.f.a 0 x.low
  { cls := x.f.b6.toNat % 4, d := descAt x s v 128, daddr := (valOf [v]).toNat }

def ecmdBody (x : Ex) (s : State) : Out :=
  if !s.ready x { b := false, c := false } then .wait else
  let t := descSeen x (s.readCode x x.f.a 0 x.low) 128 s
  orderBody (ecmdOrder x t) x t
/-- ECMD (R366). -/
def execEcmd (f : Fields) (s : State) : Host.Outcome State Fault Refusal := runInstr 0xC7 f ecmdBody s

/-- What SBQ tells: entries free, a command's state, or its tag's poison (R368). -/
def sbqVal (x : Ex) (s : State) : Val :=
  if x.f.sub.getLsbD 0 then .ok (mkWord (BitVec.ofNat 32 (s.scoreFree (x.core s)))) else
  match checkWord (s.readCode x x.f.a 0 x.low) 0 with
  | .ok w => if w.poison then .ok w else .ok (mkWord (match s.cmdTagged x.p.g w.val.toNat with
      | some c => if c.started then 2 else 1
      | none => 0))
  | v => v

def sbqBody (x : Ex) (s : State) : Out :=
  if !s.ready x { b := false, c := false } then .wait else .ok (s.onceWrite x [sbqVal x s]) []
/-- SBQ (R368). -/
def execSbq (f : Fields) (s : State) : Host.Outcome State Fault Refusal := runInstr 0xC8 f sbqBody s

/-! Access processors. -/

/-- The access processor that B6 names, or the poison of one the group lacks (R369). -/
def State.apNamed (s : State) (x : Ex) : Nat ⊕ Val :=
  let n := x.f.b6.toNat % 2
  let nap := (x.group s).aps.length
  if n < nap then .inl n else .inr (.new cBOUNDS (BitVec.ofNat 64 n) (BitVec.ofNat 32 nap))

/-- Counts a fault of an instruction that acts once (R397). -/
def State.countOnce (s : State) (x : Ex) (v : Val) : State := s.countBad x.p.g x.p.w x.p.f 0 x.p.pc [(wholeUnit, v)]

/-- APST (R22, R369): the word is checked, and written as it then stands. -/
def apstOut (x : Ex) (s : State) : State :=
  match s.apNamed x with
  | .inr v => s.countOnce x v
  | .inl n =>
    let v := checkWord (s.readCode x x.f.a 0 x.low) 0
    let (s, tbl) := s.makePoison x.p.g x.p.w x.p.f 0 x.p.pc [(wholeUnit, v)]
    s.modAp x.p.g n (fun a => { a with regs := ssetD a.regs (x.f.d.toNat - 0xC0) { (v.word tbl) with full := true } {} })

def apstBody (x : Ex) (s : State) : Out := if !s.ready x { b := false, c := false } then .wait else .ok (apstOut x s) []
/-- APST (R369). -/
def execApst (f : Fields) (s : State) : Host.Outcome State Fault Refusal := runInstr 0xC2 f apstBody s

/-- APST.go (R369): the processor starts, or the failure is counted. -/
def apstGoOut (x : Ex) (s : State) : State :=
  let s := s.irrev x
  match s.apNamed x, codeStart (s.srcA x x.low) with
  | .inr v, _ => s.countOnce x v
  | .inl _, (_, some v) => s.countOnce x v
  | .inl n, (a, none) =>
    let st := (s.apAt x.p.g n).st
    if st == .running || st == .stopped then s.countOnce x (.new cQUEUE 0 (BitVec.ofNat 32 (8 * n)))
    else s.modAp x.p.g n (fun p => { p with st := .running, spc := a, ownerW := x.p.w, ownerF := x.p.f })

/-- APST.go is a core release of the fibre (R280, R369). -/
def apstGoBody (x : Ex) (s : State) : Out :=
  if !(s.ready x { b := false, c := false } && s.coreRelease x true) then .wait else .ok (apstGoOut x s) []
/-- APST.go (R369). -/
def execApstGo (f : Fields) (s : State) : Host.Outcome State Fault Refusal := runInstr 0xC2 f apstGoBody s

/-- APSP (R369). -/
def apspOut (x : Ex) (s : State) : State :=
  match s.apNamed x with
  | .inr v => s.countOnce x v
  | .inl n => s.modAp x.p.g n (fun a => if a.st == .running then { a with st := .ended } else a)

def apspBody (x : Ex) (s : State) : Out := .ok (apspOut x s) []
/-- APSP (R369). -/
def execApsp (f : Fields) (s : State) : Host.Outcome State Fault Refusal := runInstr 0xC3 f apspBody s

/-- QMAP (R370). -/
def qmapOut (x : Ex) (s : State) : State :=
  s.modFibre x.p.g x.p.w x.p.f (fun y => { y with qmap := y.qmap.set (x.f.d.toNat % 8) (x.f.b6.toNat % 16) })

def qmapBody (x : Ex) (s : State) : Out := .ok (qmapOut x s) []
/-- QMAP (R370). -/
def execQmap (f : Fields) (s : State) : Host.Outcome State Fault Refusal := runInstr 0xC4 f qmapBody s

/-- The hardware queue that LDQ of access processor `n` fills (R371). -/
def ldqQueue (x : Ex) (n : Nat) : Nat := x.f.d.toNat % 8 + 8 * n

/-- Whether that queue has a free entry (R315). -/
def ldqReady (g n : Nat) (x : Ex) (s : State) : Bool :=
  decide ((sgetD (s.groupAt g).queues (ldqQueue x n) {}).entries.length < 16)

/-- LDQ (R315, R371): reserves the tail entry of a local queue; each word has its address, or the poison that base or stride gives it. -/
def ldqOut (g n : Nat) (x : Ex) (s : State) : State :=
  let h := ldqQueue x n
  let q := sgetD (s.groupAt g).queues h {}
  let base := s.srcA x 0
  let stride := if x.f.b == 0xF8 then [.ok (mkWord 4)] else [s.readCode x x.f.b 0 0]
  let a : DWord := valOf (base.drop 1) ++ valOf base
  let bad := addrBad (base ++ stride) a
  let (e, s) := s.newId
  let q' : HwQueue := { entries := q.entries ++ [(e, List.replicate 32 { full := false })] }
  let s := s.modGroup g (fun y => { y with queues := sput y.queues h q' })
  s.produce x .copy false false ((List.range 32).map (fun l =>
    { dst := .queue g h e l, lane := l, va := a + BitVec.ofNat 64 l * (valOf stride).signExtend 64
      got := bad.map Val.got }))

/-- Outside an address program LDQ is illegal (R371). -/
def ldqBody (x : Ex) (s : State) : Out :=
  match x.ap with
  | none => .freeze cILLEGAL
  | some (g, n) => if !ldqReady g n x s then .wait else .ok (ldqOut g n x s) []
/-- LDQ (R371). -/
def execLdq (f : Fields) (s : State) : Host.Outcome State Fault Refusal := runInstr 0xC5 f ldqBody s

/-- AEND (R371). -/
def aendBody (x : Ex) (s : State) : Out :=
  match x.ap with
  | none => .freeze cILLEGAL
  | some (g, n) => .ok (s.modAp g n (fun a => { a with st := .ended })) []
/-- AEND (R371). -/
def execAend (f : Fields) (s : State) : Host.Outcome State Fault Refusal := runInstr 0xC6 f aendBody s

/-! Steps of the engines. -/

/-- Whether two scoreboard ranges meet with a write among them (R310, R312). -/
def Score.conflicts (a b : Score) : Bool :=
  (a.write || b.write) && (match a.range, b.range with
    | .mem lo hi, .mem lo' hi' => a.ctx == b.ctx && decide (lo < hi') && decide (lo' < hi)
    | .spad g lo hi, .spad g' lo' hi' => g == g' && decide (lo < hi') && decide (lo' < hi)
    | _, _ => false)

/-- Whether a command waits for an earlier one on its scoreboard (R312). -/
def State.cmdHeld (s : State) (c : Cmd) : Bool :=
  let sc := (s.coreAt c.core).score
  let mine := sc.filter (fun e => e.cmd == c.id)
  let before := sc.takeWhile (fun e => e.cmd != c.id)
  !mine.isEmpty && before.any (fun e => mine.any (fun m => e.conflicts m))

/-! Pooled engines (R317, R318). -/

/-- The class that an engine of the pool serves: of the eight on a hub die, four copy, two compress, two work on collectives (R317). -/
def engClass (k : Nat) : Nat := if k % 8 < 4 then 1 else if k % 8 < 6 then 2 else 3
/-- The partition's engines of a class, and the first of them that is free (R317, R318). -/
def State.owned (s : State) (cls : Nat) : List Nat := (List.range 48).filter (fun k => engClass k == cls && s.pool.getD k 0 == 1)
def State.freeEngine (s : State) (cls : Nat) : Option Nat := (s.owned cls).find? (fun k => !s.cmds.any (fun c => c.eng == some k))

/-- Denuf rewrites a pooled command as a kernel, for slot 63 (R215, R318). DESIGN CHOICE (log 31): slot 63's queue has a number that no
notify names; the manual gives none. -/
def State.rewriteCmd (s : State) (id : Nat) : State :=
  let s := s.modCmd id (fun k => { k with dispatched := true, kernel := true })
  let x := (sget s.engine.slots 63).getD { queue := 4096, raised := true, waited := 0 }
  { s with engine := { s.engine with slots := sput s.engine.slots 63 { x with raised := true } } }

/-- COMMAND_START (R312, R313, R318): a copy starts once it may ask for memory (R300), a pooled command goes to its dispatcher, or is
rewritten where the partition owns no engine for it; a cancelled one is recorded. -/
def commandStart (id : Nat) (s : State) : State :=
  match s.cmd? id with
  | none => s
  | some c =>
    if c.cls = 4 || c.started || c.dispatched || c.withdrawn || c.pred.isSome || s.cmdHeld c then s
    else if c.cancel then
      let r := s.addCart c.g c.w c.f { cause := BitVec.ofNat 8 cCANCEL, flags := flagCMD, unit := 0xFF, pc := c.pc
                                       detail := BitVec.ofNat 32 c.tag }
      r.2.modCmd id (fun k => { k with started := true, failed := true, issued := copyCount k.desc })
    else if !c.checked then s.modCmd id (fun k => { k with started := true, issued := copyCount k.desc })
    else if c.cls = 0 then
      (if copyCount c.desc ≠ 0 && !s.reqFree c.core none then s else
        let s := s.openCmd c
        ((s.cmd? id).bind s.nextReq).getD s)
    else if (s.owned c.cls).isEmpty then s.rewriteCmd id
    else s.modCmd id (fun k => { k with dispatched := true })

/-- A command's transfer, once begun, to its end or to a word that has to wait: the state, and whether it has written all. -/
def State.finishCmd (s : State) (id : Nat) : State × Bool :=
  match s.cmd? id with
  | none => (s, false)
  | some c =>
    let s := s.cmdRun id (2 * c.left.length + copyCount c.desc + 2)
    (s, ((s.cmd? id).map Cmd.whole).getD false)

/-- Deferred deliveries held for the partition (R425). -/
def State.deferred (s : State) : Nat := (s.saved.map (fun v => v.queued.length)).foldl (· + ·) 0

/-- Whether a completion action can be performed now: its list is not full, its words are not Pending (R309, R425). -/
def State.canAct (s : State) (g core : Nat) (a : Act) : Bool :=
  (a.kind = 0 || a.kind = 1 || !s.isSaved g || decide (s.deferred < 4096)) && s.actReady core (s.groupAt g).ctx a

/-- COMMAND_COMPLETE (R309): once all its words are written, and what they revoke has been told (R380), refused ones count, the completion action is performed, and it retires. -/
def commandComplete (id : Nat) (s : State) : State :=
  match s.cmd? id with
  | none => s
  | some c =>
    if c.cls = 4 || !c.started then s else
    let r := s.finishCmd id
    match (if r.2 then r.1.cmd? id else none) with
    | none => r.1
    | some c =>
      let a := actOf c.cls c.desc
      if !r.1.canAct c.g c.core a || r.1.revoking id then r.1 else
      let s := r.1.countBad c.g c.w c.f flagCMD c.pc (c.refusals.map (fun v => (wholeUnit, .new v.1 v.2.1 v.2.2)))
      (s.doAct c.g c.w c.f c.core c.pc c.tag a).retireCmd c
/-- COMMAND_COMPLETE (R309). -/
def execCommandComplete (id : Nat) (s : State) : Host.Outcome State Fault Refusal := .next (commandComplete id s)

/-- A command that the engine's access table refuses: a record, and nothing moves (R253, R307). -/
def State.refuseCmd (s : State) (c : Cmd) : State :=
  let r := s.addCart c.g c.w c.f { cause := BitVec.ofNat 8 cPAGE, flags := flagCMD, unit := 0xFF, pc := c.pc, detail := 4 }
  r.2.modCmd c.id (fun k => { k with started := true, failed := true })

/-- ENGINE_DISPATCH (R253, R317, R318): the first owned engine of the class to become free takes the command. -/
def engineDispatch (id : Nat) (s : State) : State :=
  match s.cmd? id with
  | none => s
  | some c => if !c.dispatched || c.started || c.kernel then s else match s.freeEngine c.cls with
    | none => s
    | some k => if s.engineBars tgEngine (s.groupAt c.g).ctx then s.refuseCmd c else s.openCmd { c with eng := some k }
/-- ENGINE_DISPATCH (R318). -/
def execEngineDispatch (id : Nat) (s : State) : Host.Outcome State Fault Refusal := .next (engineDispatch id s)

/-- DISPATCH_DEADLINE (R318): Denuf rewrites the command as a kernel. -/
def dispatchDeadline (id : Nat) (s : State) : State :=
  match s.cmd? id with
  | none => s
  | some c => if c.dispatched && !c.started && !c.kernel then (s.rewriteCmd id).wake else s
/-- DISPATCH_DEADLINE (R318). -/
def execDispatchDeadline (id : Nat) (s : State) : Host.Outcome State Fault Refusal := .next (dispatchDeadline id s)

/-- Writes words of a queue entry (R315). -/
def State.fillEntry (s : State) (d : Dest) (v : RegWord) : State :=
  match d with
  | .queue g h e lane => s.modGroup g (fun y =>
      match sget y.queues h with
      | some q =>
        let es := q.entries.map (fun (en : Nat × List RegWord) => if en.1 = e then (en.1, en.2.set lane { v with full := true }) else en)
        { y with queues := sput y.queues h { entries := es } }
      | none => y)
  | _ => s

/-- Whether an item of an LDQ is still to be asked for. -/
def Item.unasked (i : Item) : Bool := i.rd == 0 && i.got.isNone

/-- The items of an LDQ that its next request covers: the first not asked for, and those after it whose bytes follow on, within 4 KiB
(R300). -/
def reqItems : List Item → List Nat
  | [] => []
  | [i] => [i.lane]
  | i :: j :: r => if j.va == i.va + 4 && j.va.toNat / 4096 == i.va.toNat / 4096 && i.va.toNat % 4 == 0 then i.lane :: reqItems (j :: r)
    else [i.lane]

/-- An LDQ asks for its next words, where its access processor may have another request outstanding (R300). -/
def State.askLdq (s : State) (id : Nat) : Option State :=
  match s.prods.find? (fun p => p.id == id && p.kind == .copy) with
  | none => none
  | some p =>
    let todo := p.items.filter Item.unasked
    match todo with
    | [] => none
    | i :: _ =>
      let who := match i.dst with
        | .queue g h _ _ => some (g, h / 8)
        | _ => none
      if !s.reqFree p.core who then none else
      let ls := reqItems todo
      let (r, s) := s.newId
      some { s with prods := s.prods.map (fun (q : Prod) => if q.id == id then
        { q with items := q.items.map (fun i => if ls.contains i.lane && i.unasked then { i with rd := r } else i) } else q) }

/-- What one word of an LDQ carries when it is read (R123, R305, R371). -/
def State.ldqWord (s : State) (core : Nat) (ctx : Byte) (va : DWord) : Val × State :=
  if va.extractLsb' 52 12 != 0 then (.new cPAGE va 5, s)
  else if va.toNat % 4 ≠ 0 then (.new cMISALIGN va 4, s)
  else match s.reach core ctx va.toNat .load with
    | (.fail c d, s) => (.new c va d, s)
    | (.ok dpa uc, s) =>
      let s := s.homeAccess (dpa / 128) ctx uc false
      let w := s.engineRead core (dpa / 4)
      (if w.bad then .new cECC va w.detail else .ok (mkWord w.val), s)

/-- Asks for all that an LDQ may ask for now. -/
def State.askAll (s : State) (id : Nat) : Nat → State
  | 0 => s
  | n + 1 => match s.askLdq id with
    | some t => t.askAll id n
    | none => s

/-- QUEUE_ENTRY_FILL (R300, R315, R371): data of the lanes named arrives, of words that have been asked for; the LDQ has one record for each
cause (R389). -/
def queueEntryFill (id : Nat) (lanes : Word) (s : State) : State :=
  let s := s.askAll id 32
  match s.prods.find? (fun p => p.id == id && p.kind == .copy) with
  | none => s
  | some p =>
    let here := fun (i : Item) => !i.unasked && lanes.getLsbD i.lane
    let r := (p.items.filter here).foldl (fun (acc : List (Item × Val) × State) i => match i.got with
      | some _ => (acc.1 ++ [(i, i.value)], acc.2)
      | none => let o := acc.2.ldqWord p.core (s.groupAt p.g).ctx i.va; (acc.1 ++ [(i, o.1)], o.2)) ([], s)
    let rest := p.items.filter (fun i => !here i)
    let (s, tbl) := r.2.poisonOnce p.id p.g p.w p.f 0 p.pc (r.1.map (fun e => (e.1.lane, e.2)))
    let s := { s with prods := if rest.isEmpty then s.prods.filter (fun (q : Prod) => q.id != id)
                               else s.prods.map (fun (q : Prod) => if q.id == id then { q with items := rest } else q) }
    (r.1.foldl (fun s e => s.fillEntry e.1.dst (e.2.word tbl)) s).wake
/-- QUEUE_ENTRY_FILL (R315). -/
def execQueueEntryFill (id : Nat) (lanes : Word) (s : State) : Host.Outcome State Fault Refusal := .next (queueEntryFill id lanes s)

/-- MATRIX_COMPLETE (R321, R325, R341): the array goes on, each of the core's sequencers in its turn, until the group's oldest matrix
instruction has written its last accumulator word. -/
def matrixComplete (g : Nat) (s : State) : State :=
  let ops := (s.groupAt g).seq.ops
  if ops.isEmpty then s else (s.matrixRun g ops.length (s.matrixLeft (s.groupAt g).core + 1)).wake
/-- MATRIX_COMPLETE (R321). -/
def execMatrixComplete (g : Nat) (s : State) : Host.Outcome State Fault Refusal := .next (matrixComplete g s)

/-- BLD_FINISH (R321): the group's oldest BLD under way has filled its slot. -/
def bldFinish (g : Nat) (s : State) : State :=
  (s.modSeq g (fun q => match q.slots.findIdx? (fun b => b.busy) with
    | some i => { q with slots := modAt q.slots i (fun b => { b with busy := false }) }
    | none => q)).wake
/-- BLD_FINISH (R321). -/
def execBldFinish (g : Nat) (s : State) : Host.Outcome State Fault Refusal := .next (bldFinish g s)

/-! Burst tokens (R341). -/

/-- Tokens of a die out of its 16 that are held or travel to their core. -/
def State.tokensOut (s : State) (die : Nat) : Nat :=
  (s.cores.filter (fun e => s.sliceOf e.1 == die && (e.2.tokenHeld || (e.2.tokenAsked && !s.tokens.contains (die, e.1))))).length

/-- TOKEN_GRANT (R341): the die's oldest request is granted while a token is free. -/
def tokenGrant (die : Nat) (s : State) : State :=
  match s.tokens.find? (fun t => t.1 == die) with
  | none => s
  | some t => if s.tokensOut die < 16 then { s with tokens := s.tokens.erase t } else s
/-- TOKEN_GRANT (R341). -/
def execTokenGrant (die : Nat) (s : State) : Host.Outcome State Fault Refusal := .next (tokenGrant die s)

/-- TOKEN_ARRIVE (R341). -/
def tokenArrive (core : Nat) (s : State) : State :=
  if (s.coreAt core).tokenAsked && !s.tokens.contains (s.sliceOf core, core) then
    (s.modCore core (fun c => { c with tokenAsked := false, tokenHeld := true })).wake
  else s
/-- TOKEN_ARRIVE (R341). -/
def execTokenArrive (core : Nat) (s : State) : Host.Outcome State Fault Refusal := .next (tokenArrive core s)

/-- TOKEN_IDLE_RETURN (R341): a core with no k-step to start returns its token. -/
def tokenIdleReturn (core : Nat) (s : State) : State :=
  if s.arrayBusy core then s else s.modCore core (fun c => { c with tokenHeld := false })
/-- TOKEN_IDLE_RETURN (R341). -/
def execTokenIdleReturn (core : Nat) (s : State) : Host.Outcome State Fault Refusal := .next (tokenIdleReturn core s)

/-- Whether a k-step of a core's array is at work. -/
def State.midStep (s : State) (core : Nat) : Bool :=
  s.groups.any (fun e => e.2.core == core && (match e.2.seq.ops with
    | o :: _ => o.mid
    | [] => false))

/-- TOKEN_HOLD_LIMIT (R341): the token is returned at the limit, at the end of the k-step at work; a core with work asks again, behind the
others. -/
def tokenHoldLimit (core : Nat) (s : State) : State :=
  if !(s.coreAt core).tokenHeld || s.midStep core then s else
  let s := s.modCore core (fun c => { c with tokenHeld := false })
  if s.arrayBusy core then s.askToken core else s
/-- TOKEN_HOLD_LIMIT (R341). -/
def execTokenHoldLimit (core : Nat) (s : State) : Host.Outcome State Fault Refusal := .next (tokenHoldLimit core s)

end Sys2Proof.Machine
end

