-- ==== Sys2Proof/Machine/Service.lean ====
section
/-! DEFINITION. Requests to Denuf and counters (R487 to R492): SYSC with its answer, PERF. -/

namespace Sys2Proof.Machine

/-- A management interrupt that reports some facts: an event entry of 64 bytes for the host, whose layout is not given; while the ring
is full it is counted only, and the next entry written carries the count (R488). DESIGN CHOICE (log 26). -/
def State.mgmtReport (s : State) (facts : List Nat) : State :=
  if 256 ≤ s.mail.events.length then { s with mail := { s.mail with lost := s.mail.lost + 1 } } else
  let n := s.freeN
  { s with freeN := n + 64
           mail := { s.mail with events := s.mail.events ++ [(List.range 64).map (fun i => Config.eventByte (s.mail.lost :: facts) (n + i))], lost := 0 } }
/-- A management interrupt of which the manual does not say what it names. -/
def State.mgmtEvent (s : State) : State := s.mgmtReport []

/-- The request of this execution that stands with Denuf. -/
def State.syscOf (s : State) (x : Ex) : Option Sysc :=
  s.sysc.find? (fun r => r.g == x.p.g && r.w == x.p.w && r.f == x.p.f && r.pc == x.p.pc && r.lanes == x.parts)

/-- The request block that a word addresses, or why there is none (R489, R490); a poisoned word of it is D's poison. DEDUCED (log 142). -/
def State.syscBlock (s : State) (x : Ex) (v : Val) : List Byte ⊕ Val :=
  let a := valOf [v]
  let va : DWord := a.setWidth 64
  match addrBad [v] va with
  | some b => .inr b
  | none => match s.spResolve x.p.g a 1 with
    | .fail c d => .inr (.new c va d)
    | .ok g off =>
      let lim := (s.groupAt g).spadBytes
      if lim < off + 64 then .inr (.new cBOUNDS va (BitVec.ofNat 32 lim))
      else if off % 64 ≠ 0 then .inr (.new cMISALIGN va 64)
      else match s.spBytes g off 64 with
        | (_, some w) => .inr (.ok (badWord w))
        | (bs, none) => .inl bs

/-- The errors that the read of the request block finds (R235). -/
def State.syscSeen (s : State) (x : Ex) (v : Val) : State :=
  match addrBad [v] ((valOf [v]).setWidth 64) with
  | some _ => s
  | none => s.descFound x.p.g (valOf [v]) 64

/-- Sends a request to Denuf (R490). -/
def syscSend (x : Ex) (bs : List Byte) (s : State) : State :=
  let (i, s) := (s.irrev x).newId
  { s with sysc := s.sysc ++ [{ id := i, g := x.p.g, w := x.p.w, f := x.p.f, pc := x.p.pc, lanes := x.parts, block := bs }] }

/-- What SYSC leaves once `r` is answered with `st` (R490). -/
def syscOut (r : Sysc) (st : Word) (x : Ex) (s : State) : State :=
  let s := { s with sysc := s.sysc.filter (fun q => q.id != r.id) }
  (s.addFence x.p.g x.p.w x.p.f false true).onceWrite x [.ok (mkWord st)]

/-- SYSC (R490): the request is sent after a full release, the path waits for its answer, and then acquires. -/
def syscBody (x : Ex) (s : State) : Out :=
  if !s.ready x { b := false, c := false } then .wait else
  match s.syscOf x with
  | some r =>
    (match r.answer with
    | none => .wait
    | some st => .ok (syscOut r st x s) [])
  | none =>
    let t := s.syscSeen x (s.readCode x x.f.a 0 x.low)
    match t.syscBlock x (s.readCode x x.f.a 0 x.low) with
    | .inr v => .ok ((t.irrev x).onceWrite x [v]) []
    | .inl bs => if !s.relReady x.p.g x.p.w x.p.f || decide (256 ≤ s.sysc.length) then .wait else .hold (syscSend x bs)
/-- SYSC (R490). -/
def execSysc (f : Fields) (s : State) : Host.Outcome State Fault Refusal := runInstr 0xE5 f syscBody s

/-- Drops translations that satisfy a test from every TLB of the partition (R244). -/
def State.tlbFilter (s : State) (keep : TlbEntry → Bool) : State :=
  { s with cores := s.cores.map (fun (c : Nat × Core) => (c.1, { c.2 with tlb := c.2.tlb.filter keep }))
           dieTlb := s.dieTlb.map (fun (d : Nat × List TlbEntry) => (d.1, d.2.filter keep)) }

/-- Drops what TLBs and walkers hold of a context's tree for a range (R244). -/
def State.tlbDrop (s : State) (ctx : Byte) (va len : Nat) : State :=
  let s := s.tlbFilter (fun e => !(e.ctx == ctx && decide (e.va < va + len) && decide (va < e.va + e.leaf.size)))
  { s with walks := s.walks.map (fun (d : Nat × List WalkEntry) => (d.1, d.2.filter (fun e =>
      !(e.ctx == ctx && decide (e.va < va + len) && decide (va < e.va + levelSpan e.level))))) }

/-- Writes bytes to a context's memory as a firmware service does: at the home (R380). -/
def State.serviceWrite (s : State) (core : Nat) (ctx : Byte) (va : Nat) (bs : List Byte) : State :=
  ((List.range bs.length).zip bs).foldl (fun s (j, e) =>
    let e : Nat × Byte := (va + j, e)
    match s.reach core ctx e.1 .store with
    | (.ok dpa uc, s) =>
      let old := s.coherent (dpa / 4)
      s.engineWrite { ctx := ctx, uc := uc } (dpa / 4) { val := mergeBytes (1#4 <<< (dpa % 4)) (e.2.setWidth 32 <<< (8 * (dpa % 4))) old.val } 0
    | (.fail _ _, s) => s) s

/-- The nonce that a request to attest gives: bytes 16 to 63, and 16 zeros (R489). -/
def nonceOf (block : List Byte) : List Byte := (block.drop 16).take 48 ++ List.replicate 16 0

/-- An attestation report for a nonce (R487): what it says is given, its layout and its signature are not. DESIGN CHOICE (log 81). -/
def State.report (s : State) (nonce : List Byte) : List Byte × State :=
  let (n, s) := s.fresh
  ((List.range (Config.reportLen s.log)).map (fun i => Config.reportByte s.log nonce s.first Config.identityKey n i), s)

/-- Whether a byte of a run can not be reached for a context (R242, R253). -/
def State.runFails (s : State) (c : Byte) (va n : Nat) (k : Access) : Bool :=
  (List.range n).any (fun i => decide (2 ^ 52 ≤ va + i) || (match s.walk c (va + i) with
    | .fail _ _ => true
    | .leaf l => match leafGives l k (va + i) with
      | .fail _ _ => true
      | .ok dpa _ => (s.refused c dpa (k == .store)).isSome))

/-- Whether an address argument fails: at once where it is odd, or has upper bits, or a report cannot be written there; and where Denuf
says so, if it may: an address whose alignment, which the manual does not give, may be wanting, or one whose translation fails, as it may
for a range to be invalidated or mapped on demand (R244, R400, R490). DESIGN CHOICE (log 81). -/
def State.syscFault (s : State) (r : Sysc) (st : Word) : Bool :=
  let va := fld r.block 8 8
  let c := (s.groupAt r.g).ctx
  let must := va % 2 == 1 || decide (2 ^ 52 ≤ va)
    || (fld r.block 0 4 == 3 && s.runFails c va (Config.reportLen s.log) .store)
  must || (st == 3 && (va % 65536 != 0 || s.runFails c va 1 .load))

/-- The status of a request (R490): the request's own errors first, then what Denuf decides. -/
def State.syscStatus (s : State) (r : Sysc) (st : Word) : Word :=
  let sv := fld r.block 0 4
  let spare := if sv = 0 then 8 else if sv = 3 then 64 else 24
  if !isZero r.block 4 4 || decide (3 < sv) || !isZero r.block spare (64 - spare) then 1
  else if sv = 0 then 0
  else if s.syscFault r st then 3
  else if st == 2 then 2 else 0

/-- The effect of a request that is granted (R244, R400, R489). -/
def State.syscEffect (s : State) (r : Sysc) : State :=
  let gr := s.groupAt r.g
  let va := fld r.block 8 8
  let len := fld r.block 16 8
  match fld r.block 0 4 with
  | 1 => s.tlbDrop gr.ctx va len
  | 2 => { s with ctxs := s.ctxs.map (fun c => if c.cfg.num == gr.ctx then { c with onDemand := c.onDemand ++ [(va, len)] } else c) }
  | 3 => let o := s.report (nonceOf r.block); o.2.serviceWrite gr.core gr.ctx va o.1
  | _ => s

/-- The bytes of memory, each as its first virtual address and its length, that a held entry's translations serve (R394, R497). -/
def QEntry.spans (e : QEntry) : List (DWord × Nat) :=
  match e.kind with
  | .st => (e.lanes.filter (fun l => l.bad.isNone)).map (fun l => (l.va, tySize e.ty))
  | .stu => (e.lanes.filter (fun l => l.bad.isNone)).map (fun l => (l.va, tySize e.ty))
  | .stt => if e.poisoned then [] else [(e.va, 4 * e.words.length), (e.rva, 16)]
  | .stac => if e.poisoned then [] else [(e.va, 1024)]
  | _ => []

/-- Whether every access of a context that an older translation of a range served has been performed (R244). DEDUCED (log 34): a store
held in a quarantine, placed or saved, is such an access until it is released or discarded (R394). -/
def State.invalReady (s : State) (c : Byte) (va len : Nat) : Bool :=
  let near := fun (a : DWord) (n : Nat) => decide (a.toNat < va + len) && decide (va < a.toNat + n)
  let holds := fun (x : Group) => x.ctx == c && x.warps.any (fun w => w.fibres.any (fun f => f.quar.any (fun e =>
    e.spans.any (fun a => near a.1 a.2))))
  s.prods.all (fun p => (s.groupAt p.g).ctx != c || p.items.all (fun i => i.got.isSome || !near i.va 4))
    && !s.pend.any (fun p => p.ctx == c && near p.va (4 * p.words))
    && !s.groups.any (fun e => holds e.2) && !s.saved.any (fun v => holds v.group)

/-- SYSC_ANSWER (R489, R490): the service acts and its answer stands for the path. -/
def syscAnswer (id : Nat) (status : Word) (s : State) : State :=
  match s.sysc.find? (fun r => r.id == id) with
  | none => s
  | some r =>
    if r.answer.isSome then s
    else if fld r.block 0 4 = 1 && !s.invalReady (s.groupAt r.g).ctx (fld r.block 8 8) (fld r.block 16 8) then s else
    let st := s.syscStatus r status
    let s := if st = 0 then s.syscEffect r else s
    { s with sysc := s.sysc.map (fun (q : Sysc) => if q.id == id then { q with answer := some st } else q) }.wake
/-- SYSC_ANSWER (R490). -/
def execSyscAnswer (id : Nat) (status : Word) (s : State) : Host.Outcome State Fault Refusal := .next (syscAnswer id status s)

/-! Counters. -/

/-- Causes counted for each engine (R491). -/
def perfCauses (e : Nat) : Nat :=
  match e with
  | 0 => 14
  | 5 => 2
  | 6 => 2
  | _ => 3

/-- The limit that a selector passes (R492, R387), none where it names a counter. -/
def perfBad (sel : Nat) : Option Nat :=
  if 4096 ≤ sel || 6 < sel / 256 then some 6
  else if perfCauses (sel / 256) ≤ sel % 256 then some (perfCauses (sel / 256) - 1)
  else none

/-- A counter (R491): those of the transport engine are the partition's, and cycles since its start are what %clk counts (R120). -/
def State.perfValue (s : State) (core sel : Nat) : DWord :=
  if sel = 0x601 then s.clk else if sel / 256 = 5 then sgetD s.netPerf sel 0 else sgetD (s.coreAt core).perf sel 0

/-- Brings a counter of cycles up to date, once a cycle: how far it has advanced is open; events are counted where they occur (R491, R492). -/
def State.perfTick (s : State) (core sel : Nat) : State :=
  let core := if sel / 256 = 5 || sel = 0x601 then 0 else core
  if sel = 0x00B || sel = 0x600 || s.perfRead.contains (core, sel) then s else
  let s := { s with perfRead := (core, sel) :: s.perfRead }
  if sel = 0x601 then s.tick else
  let (n, s) := s.fresh
  let by_ := BitVec.ofNat 64 (Config.freeCount n)
  if sel / 256 = 5 then { s with netPerf := ssetD s.netPerf sel (sgetD s.netPerf sel 0 + by_) 0 }
  else s.modCore core (fun c => { c with perf := ssetD c.perf sel (sgetD c.perf sel 0 + by_) 0 })

/-- PERF (R492). DEDUCED (log 82). -/
def perfOut (x : Ex) (s : State) : State :=
  let core := x.core s
  let vs := x.parts.map (fun l => (l, s.readCode x x.f.a 0 l))
  let sels := vs.filterMap (fun e => match e.2 with
    | .ok w => if w.poison || (perfBad w.val.toNat).isSome then none else some w.val.toNat
    | .new _ _ _ => none)
  let s := sels.foldl (fun s k => s.perfTick core k) s
  let outs := vs.map (fun e => (e.1, match e.2 with
    | .ok w =>
      if w.poison then [Val.ok w, Val.ok w] else
      (match perfBad w.val.toNat with
      | some lim => let v := Val.new cBOUNDS (w.val.setWidth 64) (BitVec.ofNat 32 lim); [v, v]
      | none =>
        (freshWords true (s.perfValue core w.val.toNat).toNat).map Val.ok)
    | v => [v, v]))
  s.writeDst x x.f.d outs []

def perfBody (x : Ex) (s : State) : Out := if !s.ready x { b := false, c := false } then .wait else .ok (perfOut x s) []
/-- PERF (R492). -/
def execPerf (f : Fields) (s : State) : Host.Outcome State Fault Refusal := runInstr 0xE6 f perfBody s

end Sys2Proof.Machine
end

