-- ==== Sys2Proof/Machine/Transport.lean ====
section
/-! DEFINITION. The transport engine (R462 to R481): descriptors, the XWR family, posted buffers and notify slots, packets at
the receiver, local completion, congestion entries. -/

namespace Sys2Proof.Machine

/-! Descriptors (R466). -/

def xPeer (d : List Byte) : Nat := fld d 0 2
def xSoft (d : List Byte) : Bool := fld d 2 1 % 2 == 1
def xLsp (d : List Byte) : Bool := fld d 2 1 / 2 % 2 == 1
def xKey (d : List Byte) : Nat := fld d 4 4
def xOff (d : List Byte) : Nat := fld d 8 8
def xLaddr (d : List Byte) : Nat := fld d 16 8
def xLen (d : List Byte) : Nat := fld d 24 8
def xRne (d : List Byte) : Bool := fld d 53 1 % 2 == 1
def xSlot (d : List Byte) : Nat := fld d 54 2

/-- What reads a transport descriptor. -/
inductive XKind where
  | wr | rd | snd | buf | ntf | unb
deriving DecidableEq, Repr

def XKind.posts (k : XKind) : Bool := k == .buf || k == .ntf || k == .unb
def XKind.queued (k : XKind) : Bool := k == .snd || k == .buf

/-- The valid peer that an index of a context names (R464). -/
def State.peerOf (s : State) (c : Byte) (p : Nat) : Option Peer :=
  ((s.ctx? c).bind (fun x => x.cfg.peers[p]?)).bind (fun e => if e.valid then some e else none)
def State.peerCount (s : State) (c : Byte) : Nat :=
  match s.ctx? c with
  | some x => x.cfg.peers.length
  | none => 0

/-- The checks of a transport descriptor read at `daddr` (R304, R466, R467). DEDUCED (log 83). -/
def State.xCheck (s : State) (g daddr : Nat) (k : XKind) (d : List Byte) : Check :=
  let a := actOf 4 d
  let ctx := (s.groupAt g).ctx
  let reserved := !isZero d 3 1 || fld d 2 1 / 4 != 0 || fld d 52 1 / 4 != 0 || fld d 53 1 / 2 != 0 || !isZero d 66 62
    || ((k == .snd || k.posts) && xOff d != 0) || (k.posts && xPeer d != 0) || ((k == .ntf || k == .unb) && xKey d != 0)
  let sp := xLaddr d % 2 ^ 32
  orElse (check reserved cILLEGAL daddr 0)
  <| orElse (s.actCheck g a daddr cILLEGAL)
  <| orElse (check (!k.posts && (s.peerOf ctx (xPeer d)).isNone) cBOUNDS (xPeer d) (s.peerCount ctx))
  <| orElse (check (decide (2 ^ 30 < xLen d)) cBOUNDS (xLen d) (2 ^ 30))
  <| orElse (check (decide (255 < xSlot d)) cBOUNDS (xSlot d) 255)
  <| orElse (check (k.queued && decide (63 < xKey d)) cBOUNDS (xKey d) 63)
  <| orElse (if xLsp d then rangeCheck (s.spRange g sp (xLen d)) sp else none)
  <| orElse (s.actCheck g a daddr cBOUNDS)
  <| orElse (check (xLaddr d % 4 != 0) cMISALIGN (xLaddr d) 4)
  <| orElse (check (xOff d % 4 != 0) cMISALIGN (xOff d) 4)
  <| orElse (check (xLen d % 4 != 0) cMISALIGN (xLen d) 4)
  (s.actCheck g a daddr cMISALIGN)

/-- The local range of a descriptor on the scoreboard (R310, R472). -/
def State.xRange (s : State) (g : Nat) (d : List Byte) (write : Bool) : List (Range × Bool) :=
  if xLsp d then s.spScore g (xLaddr d % 2 ^ 32) (xLen d) write else memScore (xLaddr d) (xLen d) write

/-- Packets of a message (R468). -/
def packetCount (len : Nat) : Nat := max 1 ((len + 4095) / 4096)
/-- Bytes of packet `i` of a message. -/
def packetLen (len i : Nat) : Nat := min 4096 (len - 4096 * i)

/-- The fibre's transport commands that have not completed locally (R480). -/
def State.xOut (s : State) (g w f : Nat) : List Nat :=
  (s.xmsgs.filter (fun m => m.g == g && m.w == w && m.f == f && m.op != 0xD9)).map (fun m => m.id)

/-- The earlier commands that an XFEN still holds this fibre's commands behind (R480). -/
def State.xAfter (s : State) (g w f : Nat) : List Nat :=
  (s.fibreAt g w f).xfen.filter (fun i => s.xmsgs.any (fun m => m.id == i))

/-! XWR, XRD and XSND. -/

/-- The transport descriptor that A addresses, or A's poison (R363, R466). -/
def xDesc (x : Ex) (s : State) : List Byte ⊕ Val := descAt x s (s.readCode x x.f.a 0 x.low) 128
/-- The errors that the descriptor's read finds (R235). -/
def xSeen (x : Ex) (s : State) : State := descSeen x (s.readCode x x.f.a 0 x.low) 128 s
/-- Its scratchpad address. -/
def xDescAt (x : Ex) (s : State) : Word := valOf [s.readCode x x.f.a 0 x.low]

/-- The scoreboard ranges that a transport command's descriptor names (R310, R363, R472). -/
def xRanges (k : XKind) (x : Ex) (s : State) (d : List Byte) : List (Range × Bool) := s.xRange x.p.g d (k == .rd)

/-- Messages in flight: a command whose descriptor failed its checks sends none (R467, R468). -/
def State.msgsOut (s : State) : Nat := (s.xmsgs.filter (fun m => m.bad.isNone)).length

/-- Whether a transport instruction's source is ready and its fibre's full release done (R206, R383). -/
def xReady (x : Ex) (s : State) : Bool := s.ready x { b := false, c := false } && s.relReady x.p.g x.p.w x.p.f

/-- Whether a transport command can be accepted (R310, R383, R473). -/
def xcmdReady (k : XKind) (x : Ex) (s : State) : Bool :=
  xReady x s && (match xDesc x s with
    | .inr _ => true
    | .inl d => ((s.xCheck x.p.g (xDescAt x s).toNat k d).isSome || decide (s.msgsOut < 65536)) && decide ((xRanges k x s d).length ≤ s.scoreFree (x.core s)))

/-- Accepts a transport command (R363, R467, R468, R472): its tag, its message. -/
def xcmdOut (op : Nat) (k : XKind) (x : Ex) (s : State) : State :=
  match xDesc x s with
  | .inr b => (s.irrev x).onceWrite x [b]
  | .inl d =>
    let bad := s.xCheck x.p.g (xDescAt x s).toNat k d
    let rs := xRanges k x s d
    let a := xDescAt x s
    let s := s.irrev x
    let (t, s) := s.takeTag x.p.g
    let (i, s) := s.newId
    let core := x.core s
    let c : Cmd := { id := i, g := x.p.g, w := x.p.w, f := x.p.f, core := core, pc := x.p.pc, tag := t, cls := 4, desc := d
                     pred := none, strict := false, checked := bad.isNone, failed := bad.isSome }
    let m : XMsg := { id := i, op := op, g := x.p.g, w := x.p.w, f := x.p.f, core := core, ctx := x.ctx s, pc := x.p.pc
                      tag := t, saddr := a, desc := d, bad := bad, after := s.xAfter x.p.g x.p.w x.p.f }
    let s := { s with cmds := s.cmds ++ [c], xmsgs := s.xmsgs ++ [m] }
    (s.takeScore core i (x.ctx s) false rs).onceWrite x [.ok (mkWord (BitVec.ofNat 32 t))]

def xcmdBody (op : Nat) (k : XKind) (x : Ex) (s : State) : Out :=
  let t := xSeen x s
  if !xcmdReady k x t then .wait else .ok (xcmdOut op k x t) []

def xwrBody (x : Ex) (s : State) : Out := xcmdBody 0xD0 .wr x s
/-- XWR (R474). -/
def execXwr (f : Fields) (s : State) : Host.Outcome State Fault Refusal := runInstr 0xD0 f xwrBody s

def xrdBody (x : Ex) (s : State) : Out := xcmdBody 0xD1 .rd x s
/-- XRD (R475). -/
def execXrd (f : Fields) (s : State) : Host.Outcome State Fault Refusal := runInstr 0xD1 f xrdBody s

def xsndBody (x : Ex) (s : State) : Out := xcmdBody 0xD2 .snd x s
/-- XSND (R477). -/
def execXsnd (f : Fields) (s : State) : Host.Outcome State Fault Refusal := runInstr 0xD2 f xsndBody s

/-! XRD.v. -/

/-- Why a lane's remote read is not made: the words of B, then A, are checked one after another (R22, R476). DEDUCED (log 90). -/
def State.xrdvBad (s : State) (x : Ex) (l : Nat) : Option Val :=
  let ws := s.srcB x l ++ s.srcA x l
  let off := (valOf (s.srcA x l)).setWidth 64
  let peer := (valOf (s.srcB x l)).toNat % 4096
  match ws.findSome? (fun w => addrBad [w] off) with
  | some v => some v
  | none =>
    if off.toNat % 4 ≠ 0 then some (.new cMISALIGN off 4)
    else if (s.peerOf (x.ctx s) peer).isNone then
      some (.new cBOUNDS (BitVec.ofNat 64 peer) (BitVec.ofNat 32 (s.peerCount (x.ctx s))))
    else none

/-- The descriptor that a lane's remote read amounts to. -/
def xrdvDesc (peer key off : Nat) : List Byte :=
  bytesOfNat peer 2 ++ [0, 0] ++ bytesOfNat key 4 ++ bytesOfNat off 8 ++ List.replicate 8 0 ++ bytesOfNat 4 8
    ++ List.replicate 96 0

/-- Whether XRD.v can issue (R206, R383, R473). -/
def xrdVReady (x : Ex) (s : State) : Bool :=
  s.ready x { c := false } && s.relReady x.p.g x.p.w x.p.f && decide (s.msgsOut + (x.parts.filter (fun l => (s.xrdvBad x l).isNone)).length ≤ 65536)

/-- XRD.v (R476): one message of 4 bytes for each lane. -/
def xrdVOut (x : Ex) (s : State) : State :=
  let s := s.irrev x
  let bads := x.parts.filterMap (fun l => (s.xrdvBad x l).map (fun v => (l, v)))
  let msgs : List XMsg := (x.parts.filter (fun l => (s.xrdvBad x l).isNone)).map (fun l =>
    { id := 0, op := 0xD9, g := x.p.g, w := x.p.w, f := x.p.f, core := x.core s, ctx := x.ctx s, pc := x.p.pc, lane := l
      desc := xrdvDesc ((valOf (s.srcB x l)).toNat % 4096) (valOf ((s.srcB x l).drop 1)).toNat (valOf (s.srcA x l)).toNat
      started := true })
  let (s, tbl) := s.makePoison x.p.g x.p.w x.p.f 0 x.p.pc bads
  let id := s.idN
  let s := s.produce x .remote false false (x.parts.map (fun l =>
    { dst := s.destOf x x.f.d 0 l, lane := l
      got := ((bads.find? (fun b => b.1 == l)).map (fun b => Got.reg (b.2.word tbl))) }))
  msgs.foldl (fun s m =>
    let (i, s) := s.newId
    { s with xmsgs := s.xmsgs ++ [{ m with id := i, prod := some id }] }) s

def xrdVBody (x : Ex) (s : State) : Out := if !xrdVReady x s then .wait else .ok (xrdVOut x s) []
/-- XRD.v (R476). -/
def execXrdV (f : Fields) (s : State) : Host.Outcome State Fault Refusal := runInstr 0xD1 f xrdVBody s

/-! XPST (R477). -/

def State.modCtx (s : State) (c : Byte) (k : Ctx → Ctx) : State :=
  { s with ctxs := s.ctxs.map (fun x => if x.cfg.num == c then k x else x) }

/-- Stores a word of a descriptor back in scratchpad, its tag unchanged (R466), where the core's table permits it (R253); held while the group
is saved (R425). -/
def State.descStore (s : State) (b : By) (addr : Word) (v : Word) : State :=
  if s.isSaved b.g then s.deferAct b.g (.store addr v false) else
  match s.spResolve b.g addr 4 with
  | .ok g' off =>
    if s.tableBars tgSpad (s.groupAt b.g).ctx (s.sliceOf (s.groupAt g').core) true then s.spadRefused b.g b.w b.f b.pc addr
    else s.setSp g' (off / 4) { s.spAt g' (off / 4) with val := v, poison := false, fresh := false }
  | .fail _ _ => s
/-- The fibre whose transport instruction a descriptor belongs to. -/
def XMsg.by_ (m : XMsg) : By := { g := m.g, w := m.w, f := m.f, lane := wholeUnit, pc := m.pc, va := 0, exec := 0 }
def PostBuf.by_ (b : PostBuf) : By := { g := b.g, w := b.w, f := b.f, lane := wholeUnit, pc := b.pc, va := 0, exec := 0 }

/-- A descriptor that fails its checks (R467): STATUS is BADDESC, the poison counts unless SOFT is set, the action is
performed. -/
def State.badDesc (s : State) (g w f core : Nat) (pc : DWord) (tag : Nat) (saddr : Word) (d : List Byte)
    (b : Nat × Nat × Nat) : State :=
  let s := s.descStore { g := g, w := w, f := f, lane := wholeUnit, pc := pc, va := 0, exec := 0 } (saddr + 56) 7
  let s := if xSoft d then s else
    (s.countBad g w f flagCMD pc [(wholeUnit, .new b.1 (BitVec.ofNat 64 b.2.1) (BitVec.ofNat 32 b.2.2))]).mgmtEvent
  s.doAct g w f core pc tag (actOf 4 d)

/-- Reads and checks the descriptor of an XPST, then posts: the result is 1 or 0 (R477). DEDUCED (log 84). -/
def xpstBody (k : XKind) (post : Ex → State → Word → List Byte → Option (Bool × State)) (x : Ex) (s : State) : Out :=
  if !xReady x s then .wait else
  let s := xSeen x s
  match xDesc x s with
  | .inr b => .ok ((s.irrev x).onceWrite x [b]) []
  | .inl d =>
    match s.xCheck x.p.g (xDescAt x s).toNat k d with
    | some b =>
      .ok (((s.irrev x).badDesc x.p.g x.p.w x.p.f (x.core s) x.p.pc 0 (xDescAt x s) d b).onceWrite x [.ok (mkWord 0)]) []
    | none => match post x (s.irrev x) (xDescAt x s) d with
      | none => .wait
      | some (ok, s) => .ok (s.onceWrite x [.ok (mkWord (if ok then 1 else 0))]) []

/-- Buffers of a posted queue of a context. -/
def State.postedAt (s : State) (c : Byte) (q : Nat) : List PostBuf :=
  match s.ctx? c with
  | some x => sgetD x.posted q []
  | none => []

/-- Appends a buffer to a posted queue; 64 that no message has taken fill it (R477). DEDUCED (log 85). -/
def postBuf (x : Ex) (s : State) (saddr : Word) (d : List Byte) : Option (Bool × State) :=
  let c := x.ctx s
  let q := s.postedAt c (xKey d)
  if 64 ≤ (q.filter (fun b => b.matched.isNone)).length then some (false, s) else
  let rs := s.xRange x.p.g d true
  if s.scoreFree (x.core s) < rs.length then none else
  let (i, s) := s.newId
  let b : PostBuf := { id := i, g := x.p.g, w := x.p.w, f := x.p.f, core := x.core s, pc := x.p.pc, saddr := saddr, desc := d }
  let s := s.modCtx c (fun y => { y with posted := sput y.posted (xKey d) (q ++ [b]) })
  some (true, s.takeScore (x.core s) i c false rs)
def xpstBufBody (x : Ex) (s : State) : Out := xpstBody .buf postBuf x s
/-- XPST.buf (R477). -/
def execXpstBuf (f : Fields) (s : State) : Host.Outcome State Fault Refusal := runInstr 0xD3 f xpstBufBody s

/-- Binds a notify slot (R477). -/
def postNtf (x : Ex) (s : State) (_ : Word) (d : List Byte) : Option (Bool × State) :=
  match (s.ctx? (x.ctx s)).bind (fun y => sget y.notify (xSlot d)) with
  | some _ => some (false, s)
  | none => some (true, s.modCtx (x.ctx s) (fun y =>
      { y with notify := sput y.notify (xSlot d) { g := x.p.g, w := x.p.w, f := x.p.f, pc := x.p.pc, desc := d } }))
def xpstNtfBody (x : Ex) (s : State) : Out := xpstBody .ntf postNtf x s
/-- XPST.ntf (R477). -/
def execXpstNtf (f : Fields) (s : State) : Host.Outcome State Fault Refusal := runInstr 0xD3 f xpstNtfBody s

/-- Unbinds a notify slot that this group bound (R477). -/
def postUnb (x : Ex) (s : State) (_ : Word) (d : List Byte) : Option (Bool × State) :=
  match (s.ctx? (x.ctx s)).bind (fun y => sget y.notify (xSlot d)) with
  | some n => if n.g = x.p.g then some (true, s.modCtx (x.ctx s) (fun y => { y with notify := sdel y.notify (xSlot d) }))
              else some (false, s)
  | none => some (false, s)
def xpstUnbBody (x : Ex) (s : State) : Out := xpstBody .unb postUnb x s
/-- XPST.unb (R477). -/
def execXpstUnb (f : Fields) (s : State) : Host.Outcome State Fault Refusal := runInstr 0xD3 f xpstUnbBody s

/-! XCNG and XFEN. -/

/-- One word of a peer's congestion entry; an entry not yet written is open but for its count (R479). DESIGN CHOICE (log 91). -/
def State.cngWord (s : State) (c : Byte) (peer fld : Nat) : Word × State :=
  match (s.ctx? c).bind (fun x => sget x.congestion peer) with
  | some ws => (ws.getD fld 0, s)
  | none => if fld = 7 then (0, s) else
    let r := s.freeWord
    (if fld = 2 then r.1 &&& 0xFFFF else r.1, r.2)

/-- XCNG's result for one lane, its peer checked as a value sent to an engine (R22, R478). -/
def State.cngVal (s : State) (x : Ex) (l : Nat) : Val × State :=
  match checkWord (s.readCode x x.f.a 0 l) 0 with
  | .ok w =>
    if w.poison then (.ok w, s) else
    let p := w.val.toNat % 4096
    if (s.peerOf (x.ctx s) p).isNone then
      (.new cBOUNDS (BitVec.ofNat 64 p) (BitVec.ofNat 32 (s.peerCount (x.ctx s))), s)
    else let r := s.cngWord (x.ctx s) p (x.f.b6.toNat % 8); (.ok (mkWord r.1), r.2)
  | v => (v, s)

/-- XCNG (R478): a long-latency producer whose words are one snapshot of each entry. -/
def xcngOut (x : Ex) (s : State) : State :=
  let s := s.irrev x
  let r := x.parts.foldl (fun (acc : List (Nat × List Val) × State) l =>
    let v := acc.2.cngVal x l
    (acc.1 ++ [(l, [v.1])], v.2)) ([], s)
  let s := r.2
  let outs := if 0xC0 ≤ x.f.d.toNat then (uniformOut (x.whole s) (liveMask (x.fibre s)) r.1).toList else r.1
  let flat := outs.flatMap (fun o => o.2.map (fun v => (o.1, v)))
  let (s, tbl) := s.makePoison x.p.g x.p.w x.p.f 0 x.p.pc flat
  s.produce x .remote false false (flat.map (fun o =>
    { dst := s.destOf x x.f.d 0 o.1, lane := o.1, got := some (.reg (o.2.word tbl)) }))

def xcngBody (x : Ex) (s : State) : Out := if !xReady x s then .wait else .ok (xcngOut x s) []
/-- XCNG (R478). -/
def execXcng (f : Fields) (s : State) : Host.Outcome State Fault Refusal := runInstr 0xD4 f xcngBody s

/-- Whether XFEN can issue: its issue is a full release (R383), and `.w` waits for the fibre's commands (R480). -/
def xfenReady (x : Ex) (s : State) : Bool :=
  s.relReady x.p.g x.p.w x.p.f && (!x.f.sub.getLsbD 0 || (s.xOut x.p.g x.p.w x.p.f).isEmpty)

/-- XFEN (R480): the fibre's later commands are ordered after those outstanding; `.w` acquires. -/
def xfenOut (x : Ex) (s : State) : State :=
  let out := s.xOut x.p.g x.p.w x.p.f
  if x.f.sub.getLsbD 0 then (s.irrev x).addFence x.p.g x.p.w x.p.f false true
  else (s.irrev x).modFibre x.p.g x.p.w x.p.f (fun y => { y with xfen := out })

def xfenBody (x : Ex) (s : State) : Out := if !xfenReady x s then .wait else .ok (xfenOut x s) []
/-- XFEN (R480). -/
def execXfen (f : Fields) (s : State) : Host.Outcome State Fault Refusal := runInstr 0xD5 f xfenBody s

/-! The sender. -/

def State.xmsg? (s : State) (id : Nat) : Option XMsg := s.xmsgs.find? (fun m => m.id == id)
def State.modX (s : State) (id : Nat) (k : XMsg → XMsg) : State :=
  { s with xmsgs := s.xmsgs.map (fun m => if m.id == id then k m else m) }
def State.dropX (s : State) (id : Nat) : State := { s with xmsgs := s.xmsgs.filter (fun m => m.id != id) }

/-- The command of a message, as the engine's transfers see it. -/
def XMsg.cmd (m : XMsg) : Cmd :=
  { id := m.id, g := m.g, w := m.w, f := m.f, core := m.core, pc := m.pc, tag := m.tag, cls := 4, desc := m.desc
    pred := none, strict := false, cut := m.cut }

/-- Words of carried bytes with their poison; the first failure writes the command's record (R307, R474). -/
def readWords (c : Cmd) : List (Nat ⊕ Val) → Xfer → List (Word × Bool) × Xfer
  | [], a => ([], a)
  | .inl v :: r, a => let o := readWords c r a; ((BitVec.ofNat 32 v, false) :: o.1, o.2)
  | .inr v :: r, a => let o := readWords c r (a.fail c v); ((0, true) :: o.1, o.2)

/-- The local bytes of a message, as the copy unit reads them (R305, R474). -/
def State.xLocal (s : State) (m : XMsg) : List Carried × State :=
  let n := xLen m.desc
  if xLsp m.desc then
    (match s.spResolve m.g (BitVec.ofNat 32 (xLaddr m.desc)) 1 with
    | .ok g off => (s.engSpad g off n, s.spFoundRun g off n)
    | .fail _ _ => ([], s))
  else gather m.core m.ctx 4 ((List.range (n / 4)).map (fun k => BitVec.ofNat 64 (xLaddr m.desc + 4 * k))) s

/-- Starts a message: its packets are built from the local words (R468, R474). -/
def State.xStart (s : State) (m : XMsg) : State :=
  let s := s.modCmd m.id (fun c => { c with started := true })
  if m.op = 0xD1 then s.modX m.id (fun y => { y with started := true }) else
  let r := s.xLocal m
  let o := readWords m.cmd (carriedWords r.1) { s := r.2 }
  o.2.s.modX m.id (fun y => { y with started := true, words := o.1, ring := o.2.ring })

/-- The record of a status (R387, R471): which address, limit, port or queue it names is open, but for CANCEL's tag. DESIGN CHOICE (log 89). -/
def State.xCause (s : State) (tag st : Nat) : Val × State :=
  let (n, s) := s.fresh
  let (w, s) := s.freeWord
  let a : DWord := BitVec.ofNat 64 (Config.freeCount n)
  match st with
  | 1 => (.new cLINK a w, s)
  | 3 => (.new cQUEUE 0 w, s)
  | 4 => (.new cQUEUE 0 w, s)
  | 6 => (.new cCANCEL 0 (BitVec.ofNat 32 tag), s)
  | _ => (.new cBOUNDS a w, s)

/-- Writes words of an XRD from word `k` on (R306, R425, R475): a refused write counts once for each cause of the command. -/
def State.xPut (s : State) (m : XMsg) (k : Nat) (ws : List (Word ⊕ Val)) : State :=
  let c := m.cmd
  let bs : List Carried := ws.flatMap (fun w => match w with
    | .inl v => (bytesOfNat v.toNat 4).map Sum.inl
    | .inr v => List.replicate 4 (.inr v))
  let a : Xfer := { s := s, ring := m.ring, cart := m.cart, first := m.first, pos := 4 * k }
  let a :=
    if xLsp m.desc then
      let base := xLaddr m.desc % 2 ^ 32 + 4 * k
      if s.isSaved m.g then
        (ws.foldl (fun (acc : Nat × Xfer) w => (acc.1 + 4, match w with
          | .inl v => { acc.2 with s := acc.2.s.deferAct m.g (.store (BitVec.ofNat 32 acc.1) v false) }
          | .inr v => let b := acc.2.fail c v
                      { b with s := b.s.deferAct m.g (.store (BitVec.ofNat 32 acc.1) (b.poison c v) true) })) (base, a)).2
      else
        match s.spResolve m.g (BitVec.ofNat 32 base) 1 with
        | .ok g off => (chunksOf (((List.range bs.length).map (fun i => off + i)).zip bs)).foldl (fun a e => a.spChunk c g false e) a
        | .fail _ _ => a
    else
      (chunksOf (((List.range bs.length).map (fun i => xLaddr m.desc + 4 * k + i)).zip bs)).foldl
        (fun a e => a.memChunk c m.ctx e) a
  let new := a.counts.filter (fun v => match v with
    | .new cs _ _ => !m.counted.contains cs
    | .ok _ => false)
  let s := a.s.countBad m.g m.w m.f flagCMD m.pc (new.map (fun v => (wholeUnit, v)))
  s.modX m.id (fun y => { y with ring := a.ring, cart := a.cart, first := a.first, counted := y.counted ++ causesOf (new.map (fun v => (0, v))) })

/-- Poisons the words of an XRD whose packets did not come (R471). -/
def State.xLost (s : State) (m : XMsg) (v : Val) : State :=
  ((List.range (packetCount (xLen m.desc))).filter (fun i => !m.got.contains i)).foldl (fun s i =>
    match s.xmsg? m.id with
    | some q => s.xPut { q with ring := m.ring } (1024 * i) (List.replicate (packetLen (xLen m.desc) i / 4) (.inr v))
    | none => s) s

/-- Words of scratchpad that a read has not got, and that are poisoned if it fails (R471). -/
def State.xLeft (_ : State) (m : XMsg) : Nat :=
  if m.op ≠ 0xD1 || !xLsp m.desc then 0 else
  (((List.range (packetCount (xLen m.desc))).filter (fun i => !m.got.contains i)).map (fun i => packetLen (xLen m.desc) i / 4)).foldl (· + ·) 0

/-- Whether a message's local completion can take place now: its packets have been placed, the list of deferred deliveries has room, and so
have the action's words (R309, R425). -/
def State.xCan (s : State) (m : XMsg) : Bool :=
  m.op == 0xD9 || (!s.revoking m.id && !s.placing.any (fun p => p.arr.msg == m.id && p.arr.kind == .readReply)
    && (!s.isSaved m.g || decide (s.deferred + 2 + s.xLeft m ≤ 4096)) && s.actReady m.core m.ctx (actOf 4 m.desc))

/-- The record of a status other than OK, unless SOFT is set (R471): the ring index that the poison words of the command carry, and the state
after it. DESIGN CHOICE (log 89): a record that SOFT holds back gives them no index, and they carry 15, as R307 has it where no ring holds one. -/
def State.xStatus (s : State) (m : XMsg) (st : Nat) (v : Val) : Option Nat × State :=
  if st = 0 || xSoft m.desc then (some 15, s) else
  let x := s.fibreAt m.g m.w m.f
  (some (if x.ended then 15 else nextRing x), (s.countBad m.g m.w m.f flagCMD m.pc [(wholeUnit, v)]).mgmtEvent)

/-- Local completion with a status (R470, R471): STATUS, the count, the action, retirement. -/
def State.xFinish (s : State) (m : XMsg) (st : Nat) : State :=
  if !s.xCan m then s else
  let (v, s) := s.xCause m.tag st
  if m.op = 0xD9 then
    let g : Got := match v with
      | .new c a d => .fail c a d
      | .ok w => .reg w
    (((m.prod.map (fun id => if st = 0 then s else s.giveItem id m.lane 0 g)).getD s).dropX m.id).wake
  else
  let s := s.descStore m.by_ (m.saddr + 56) (BitVec.ofNat 32 st)
  let r := s.xStatus m st v
  let s := if st ≠ 0 && m.op = 0xD1 then r.2.xLost { m with ring := m.ring.orElse (fun _ => r.1) } v else r.2
  let s := s.doAct m.g m.w m.f m.core m.pc m.tag (actOf 4 m.desc)
  (s.dropX m.id).retireCmd { m.cmd with failed := st != 0 }

/-- Starts a transport command whose turn has come (R312, R467, R480); one that failed its checks completes at once, and one that the
transport engine's access table refuses completes as refused (R253). -/
def transportStart (id : Nat) (s : State) : State :=
  match s.cmd? id, s.xmsg? id with
  | some c, some m =>
    if c.started then s else
    (match m.bad with
    | some b =>
      if !s.xCan m then s else
      ((s.badDesc m.g m.w m.f m.core m.pc m.tag m.saddr m.desc b).dropX id).retireCmd c
    | none =>
      if s.cmdHeld c || m.after.any (fun i => (s.xmsg? i).isSome) then s
      else if s.engineBars tgNovix m.ctx then s.xFinish m 2
      else s.xStart m)
  | _, _ => s

/-- COMMAND_START (R312): a command of any engine starts when its turn has come. -/
def execCommandStart (id : Nat) (s : State) : Host.Outcome State Fault Refusal :=
  .next (if (s.xmsg? id).isSome then transportStart id s else commandStart id s)

/-! The receiver. -/

/-- The device address and the leaf of a word that an engine outside the cores writes or reads for a context, or the cause that refuses it
(R213, R224, R464, R465). -/
def State.engineLeaf (s : State) (c : Byte) (va : Nat) (k : Access) : (Nat × Leaf) ⊕ Nat :=
  if 2 ^ 52 ≤ va then .inr cPAGE else
  match s.walk c va with
  | .fail cs _ => .inr cs
  | .leaf l => match leafGives l k va with
    | .fail cs _ => .inr cs
    | .ok dpa _ => match s.refused c dpa (k == .store) with
      | some r => .inr r.1
      | none => .inl (dpa, l)
def State.engineTry (s : State) (c : Byte) (va : Nat) (k : Access) : Nat ⊕ Nat :=
  match s.engineLeaf c va k with
  | .inl r => .inl r.1
  | .inr e => .inr e
def State.engineReach (s : State) (c : Byte) (va : Nat) (k : Access) : Option Nat := (s.engineTry c va k).getLeft?

/-- The line that an engine reaches stands under its context's key (R241, R434). -/
def State.engineKeyed (s : State) (c : Byte) (va : Nat) (k : Access) : State :=
  match s.engineLeaf c va k with
  | .inl r => s.rekey (r.1 / 128) (s.keyFor c r.2.enc)
  | .inr _ => s

/-- Who writes, or reads, a word for a context: whether its page is uncached (R231, R246). -/
def State.engineWriter (s : State) (c : Byte) (va : Nat) (k : Access) : Writer :=
  { ctx := c, uc := match s.engineLeaf c va k with
    | .inl r => r.2.uc || s.isNotify r.1
    | .inr _ => true }

/-- The device addresses of `n` words from `va`, and whether each lies in an uncached page; none where one is refused. -/
def State.engineRun (s : State) (c : Byte) (va : Nat) (k : Access) : Nat → Option (List (Nat × Bool))
  | 0 => some []
  | n + 1 => match s.engineReach c va k, s.engineRun c (va + 4) k n with
    | some a, some r => some ((a, (s.engineWriter c va k).uc) :: r)
    | _, _ => none

/-- The lines of `n` words from `va` stand under their context's key. -/
def State.keyedRun (s : State) (c : Byte) (va : Nat) (k : Access) : Nat → State
  | 0 => s
  | n + 1 => (s.engineKeyed c va k).keyedRun c (va + 4) k n

/-- The checks of R465 on a packet of `n` words: the device addresses, or none where it is refused, as it is for a context torn down (R481). -/
def State.regionRun (s : State) (job : Byte) (key : Word) (off n : Nat) (k : Access) : Option (List (Nat × Bool) × State) :=
  match (if s.ctxOn job then (s.ctx? job).bind (fun x => x.cfg.regions.find? (fun r => r.key == key)) else none) with
  | none => none
  | some r =>
    let va := (r.base.toNat + off) % 2 ^ 64
    if !(if k == .store then r.wr else r.rd) || decide (r.len.toNat < off + 4 * n) then none
    else (s.engineRun job va k n).map (fun was => (was, s.keyedRun job va k n))

def State.rx? (s : State) (msg : Nat) (peer : Bool) : Option RxMsg := s.rxmsgs.find? (fun r => r.msg == msg && r.peer == peer)
def State.modRx (s : State) (msg : Nat) (peer : Bool) (k : RxMsg → RxMsg) : State :=
  { s with rxmsgs := s.rxmsgs.map (fun r => if r.msg == msg && r.peer == peer then k r else r) }

/-- A message's number for the buffer it takes: its own number, and whose it is. -/
def rxKey (msg : Nat) (peer : Bool) : Nat := 2 * msg + (if peer then 1 else 0)

/-- The receiver knows of a message from its first packet on. -/
def State.rxOpen (s : State) (msg : Nat) (peer : Bool) (job : Byte) : State :=
  if (s.rx? msg peer).isSome then s else { s with rxmsgs := s.rxmsgs ++ [{ msg := msg, peer := peer, job := job }] }

/-- Settles a packet: a first failure is the message's status (R465). -/
def State.rxSettle (s : State) (msg : Nat) (peer : Bool) (job : Byte) (i st : Nat) : State :=
  let s := s.rxOpen msg peer job
  s.modRx msg peer (fun r => { r with got := r.got ++ [i], status := if r.status = 0 then st else r.status })

/-- The buffer that a message has taken, or the queue's oldest that none has (R477). -/
def State.bufferFor (s : State) (job : Byte) (q key : Nat) : Option PostBuf :=
  let bs := s.postedAt job q
  match bs.find? (fun b => b.matched == some key) with
  | some b => some b
  | none => bs.find? (fun b => b.matched.isNone)

/-- Whether the notify slot's and the buffer's actions of a placed message can be performed now (R309, R425). -/
def State.rxCan (s : State) (acts : List (Nat × List Byte)) : Bool :=
  acts.all (fun e => (!s.isSaved e.1 || decide (s.deferred + 4 ≤ 4096)) &&
    s.actReady (s.groupAt e.1).core (s.groupAt e.1).ctx (actOf 4 e.2))

/-- The actions of a message whose packets have all been settled (R470, R471, R477): the notify slot's, the buffer's, and
the buffer's MLEN and STATUS, with the record of a message cut short; each once. -/
def State.rxFinish (s : State) (msg : Nat) (peer : Bool) (job : Byte) (q : Option Nat) (msgLen : Nat) (rne : Bool)
    (slot : Nat) : State :=
  match s.rx? msg peer with
  | none => s
  | some r =>
    if r.notified then s
    else if r.status ≠ 0 then s.modRx msg peer (fun y => { y with notified := true })
    else
    let n : Option Notify := if rne then (s.ctx? job).bind (fun x => sget x.notify slot) else none
    let b : Option PostBuf := q.bind (fun q => (s.postedAt job q).find? (fun b => b.matched == some (rxKey msg peer)))
    let acts := (n.map (fun (n : Notify) => (n.g, n.desc))).toList ++ (b.map (fun (b : PostBuf) => (b.g, b.desc))).toList
    if !s.rxCan acts then s else
    let s := match n with
      | some n => s.doAct n.g n.w n.f (s.groupAt n.g).core n.pc 0 (actOf 4 n.desc)
      | none => s
    let cut := match b with
      | some b => decide (xLen b.desc < msgLen)
      | none => false
    let st := if cut then 5 else if rne && n.isNone then 4 else 0
    let s := match b with
      | some b =>
        let s := s.descStore b.by_ (b.saddr + 60) (BitVec.ofNat 32 msgLen)
        let s := s.descStore b.by_ (b.saddr + 56) (if cut then 5 else 0)
        let s := if cut && !xSoft b.desc then
            let (v, s) := s.xCause 0 5
            (s.countBad b.g b.w b.f flagCMD b.pc [(wholeUnit, v)]).mgmtEvent
          else s
        let s := s.doAct b.g b.w b.f (s.groupAt b.g).core b.pc 0 (actOf 4 b.desc)
        let s := (q.map (fun q => s.modCtx job (fun x =>
          { x with posted := sput x.posted q ((sgetD x.posted q []).filter (fun c => c.id != b.id)) }))).getD s
        s.dropScore b.core b.id
      | none => s
    (s.modRx msg peer (fun y => { y with status := st, notified := true })).wake

/-- A packet of this device's own message to itself (R464, R468). An offset past 2^64 exceeds every region (R465). -/
def State.ownPacket (s : State) (m : XMsg) (i : Nat) : Option Arrival :=
  match s.peerOf m.ctx (xPeer m.desc) with
  | none => none
  | some p =>
    let d := m.desc
    let kind : PacketKind := if m.op = 0xD0 then .write (BitVec.ofNat 32 (xKey d)) (BitVec.ofNat 64 (min (2 ^ 64 - 1) (xOff d + 4096 * i)))
      else .send (xKey d) (4096 * i)
    if !p.self || !m.started || decide (packetCount (xLen d) ≤ i) then none else
    some { msg := m.id, peer := false, job := p.job, kind := kind, idx := i, count := packetCount (xLen d)
           msgLen := xLen d, words := (m.words.drop (1024 * i)).take (packetLen (xLen d) i / 4), rne := xRne d, slot := xSlot d }

/-- Whether a packet has been taken before. -/
def State.packetSeen (s : State) (a : Arrival) : Bool :=
  (match s.rx? a.msg a.peer with
    | some r => r.got.contains a.idx
    | none => false) || s.placing.any (fun p => p.arr.msg == a.msg && p.arr.peer == a.peer && p.arr.idx == a.idx && p.arr.kind != .readReply)

/-- Takes a packet that its receiver has checked: its words are placed one by one (R378, R461, R469). -/
def State.startPlacing (s : State) (a : Arrival) (places : List (Nat × Bool)) (buf : Option PostBuf) (n : Nat) : State :=
  if n = 0 then s.rxSettle a.msg a.peer a.job a.idx 0 else
  let (i, s) := (s.rxOpen a.msg a.peer a.job).newId
  { s with placing := s.placing ++ [{ id := i, arr := a, places := places, buf := buf, left := List.range n }] }

/-- The words of a packet of a send that fit its buffer (R469, R477). DEDUCED (log 86). -/
def sendFit (b : PostBuf) (off : Nat) (a : Arrival) : Nat := min a.words.length ((xLen b.desc - off) / 4)

/-- Takes one packet, or refuses it whole (R465, R469, R477, R481). DEDUCED (log 88). -/
def State.takePacket (s : State) (a : Arrival) : State :=
  if s.packetSeen a then s else
  match a.kind with
  | .write key off =>
    (match s.regionRun a.job key off.toNat a.words.length .store with
    | none => s.rxSettle a.msg a.peer a.job a.idx 2
    | some (was, s) => s.startPlacing a was none a.words.length)
  | .send q off =>
    if (s.ctx? a.job).isNone || !s.ctxOn a.job then s.rxSettle a.msg a.peer a.job a.idx 2 else
    (match s.bufferFor a.job q (rxKey a.msg a.peer) with
    | none => s
    | some b =>
      let s := s.modCtx a.job (fun x => { x with posted := sput x.posted q ((sgetD x.posted q []).map (fun (c : PostBuf) =>
        if c.id == b.id then { c with matched := some (rxKey a.msg a.peer) } else c)) })
      let n := sendFit b off a
      if xLsp b.desc then s.startPlacing a [] (some b) n else
      match s.engineRun a.job (xLaddr b.desc + off) .store n with
      | none => s.rxSettle a.msg a.peer a.job a.idx 2
      | some was => (s.keyedRun a.job (xLaddr b.desc + off) .store n).startPlacing a was (some b) n)
  | .readReply => s

/-- Once all packets of a message are settled its actions are performed (R470). -/
def State.rxDone (s : State) (a : Arrival) : State :=
  match s.rx? a.msg a.peer with
  | none => s
  | some r =>
    let q : Option Nat := match a.kind with
      | .send q _ => some q
      | _ => none
    if (List.range a.count).all (fun i => r.got.contains i) then
      s.rxFinish a.msg a.peer a.job q a.msgLen a.rne a.slot
    else s

/-- A packet of a write or a send arrives (R469, R470). -/
def State.arrive (s : State) (a : Arrival) : State := (s.takePacket a).rxDone a

/-- The words of a read reply: a peer's, or this device's own memory's (R465, R469); none where the read is refused. -/
def State.replyWords (s : State) (m : XMsg) (p : Peer) (pk : Packet) : Option (List (Word × Bool) × State) :=
  let n := packetLen (xLen m.desc) pk.idx / 4
  if p.self then
    (s.regionRun p.job (BitVec.ofNat 32 (xKey m.desc)) (xOff m.desc + 4096 * pk.idx) n .load).map (fun r =>
      (r.1.map (fun a => let w := r.2.coherent (a.1 / 4); (w.val, w.bad)),
       ((r.1.map (fun a => (a.1 / 128, a.2))).eraseDups).foldl (fun s e => s.homeAccess e.1 p.job e.2 false) r.2))
  else some ((pk.words ++ List.replicate n (0, false)).take n, s)

/-- Whether a read's packet is being written. -/
def State.replying (s : State) (msg idx : Nat) : Bool :=
  s.placing.any (fun p => p.arr.msg == msg && p.arr.idx == idx && p.arr.kind == .readReply)

/-- A read's data arrives (R475, R476); its words are written one by one, in any order (R378). -/
def State.readReply (s : State) (m : XMsg) (pk : Packet) : State :=
  match s.peerOf m.ctx (xPeer m.desc) with
  | none => s
  | some p =>
    if p.self == pk.fromPeer || !m.started || m.got.contains pk.idx || s.replying m.id pk.idx || decide (packetCount (xLen m.desc) ≤ pk.idx) then s else
    match s.replyWords m p pk with
    | none => s.xFinish m 2
    | some (ws, s) =>
      if m.op = 0xD9 then
        let w := ws.getD 0 (0, false)
        let g : Got := if w.2 then .fail cECC (BitVec.ofNat 64 (xOff m.desc)) 1 else .reg (mkWord w.1)
        (((m.prod.map (fun id => s.giveItem id m.lane 0 g)).getD s).dropX m.id).wake
      else
        let (i, s) := s.newId
        { s with placing := s.placing ++ [{ id := i, left := List.range ws.length, arr :=
            { msg := m.id, peer := false, job := m.ctx, kind := .readReply, idx := pk.idx, count := 0, msgLen := 0, words := ws, rne := false, slot := 0 } }] }

/-! Placing words. -/

/-- Places one word at its home; what is posted for a core takes its copy away (R379, R469). None where the home holds its line (R451). -/
def State.placeAtHome (s : State) (p : Placing) (j : Nat) : Option State :=
  let at_ := p.places.getD j (0, false)
  let a := at_.1 / 4
  let w := p.arr.words.getD j (0, false)
  let b : Writer := { ctx := p.arr.job, uc := at_.2, id := p.id }
  if s.wordsHeld [a] then none else
  let v : MemWord := { val := w.1, bad := w.2 || p.cut }
  match p.buf with
  | some q => some (s.coreWrite q.core b a v 0)
  | none => some (s.engineWrite b a v 0)

/-- Whether a word of a message can be written locally now: the deferred deliveries have room, its home can take it (R376, R380, R425). -/
def State.localReady (s : State) (m : XMsg) (k : Nat) : Bool :=
  if xLsp m.desc then !s.isSaved m.g || decide (s.deferred < 4096) else
  match (s.reach m.core m.ctx (xLaddr m.desc + 4 * k) .store).1 with
  | .ok dpa _ => s.homeReady m.core [dpa / 4]
  | .fail _ _ => true

/-- Writes word `j` of a packet locally, `k` being its place in the range; into a scratchpad, a poisoned one as a poison word. DEDUCED (log 87). -/
def State.placeLocal (s : State) (m : XMsg) (k : Nat) (w : Word × Bool) : Option State :=
  if !s.localReady m k then none
  else some (s.xPut m k [if w.2 then .inr (.new cECC (BitVec.ofNat 64 (xLaddr m.desc + 4 * k)) 1) else .inl w.1])

/-- Places word `j` of a packet (R378, R461, R469, R475, R477); none where it has to wait. -/
def State.placeWord (s : State) (p : Placing) (j : Nat) : Option State :=
  let w := p.arr.words.getD j (0, false)
  match p.arr.kind, p.buf with
  | .readReply, _ => (match s.xmsg? p.arr.msg with
    | some m => s.placeLocal { m with cut := p.cut } (1024 * p.arr.idx + j) w
    | none => some s)
  | .send _ off, some b =>
    if xLsp b.desc then
      s.placeLocal { id := 0, op := 0xD1, g := b.g, w := b.w, f := b.f, core := b.core, ctx := p.arr.job, pc := b.pc, desc := b.desc } (off / 4 + j) w
    else s.placeAtHome p j
  | _, _ => s.placeAtHome p j

/-- A packet whose words are all placed is settled, where its message still stands. -/
def State.endPlacing (s : State) (p : Placing) : State :=
  let s := { s with placing := s.placing.filter (fun q => q.id != p.id) }
  if p.arr.kind == .readReply then s.modX p.arr.msg (fun y => { y with got := y.got ++ [p.arr.idx] })
  else if !p.arr.peer && (s.xmsg? p.arr.msg).isNone then s
  else (s.rxSettle p.arr.msg p.arr.peer p.arr.job p.arr.idx 0).rxDone p.arr

/-- The next word of a packet that is being placed, any of those left (R378, R461). The packet is settled once all are placed, and what they
revoke has been told (R380). -/
def State.placeGo (s : State) (id : Nat) : Option State :=
  match s.placing.find? (fun p => p.id == id) with
  | none => none
  | some p =>
    if p.left.isEmpty then (if s.revoking id then none else some (s.endPlacing p).wake) else
    let (n, s) := s.fresh
    let j := p.left.getD (Config.freeCount n % p.left.length) 0
    (s.placeWord p j).map (fun s =>
      if (p.left.erase j).isEmpty && !s.revoking id then (s.endPlacing p).wake
      else { s with placing := s.placing.map (fun q => if q.id == id then { q with left := q.left.erase j, cut := false } else q) })

/-- PACKET_ARRIVE (R465, R469, R475 to R477). -/
def packetArrive (p : Packet) (s : State) : State :=
  match p.kind with
  | .readReply => (match s.xmsg? p.msg with
      | some m => if m.op = 0xD1 || m.op = 0xD9 then s.readReply m p else s
      | none => s)
  | _ =>
    if p.fromPeer then
      s.arrive { msg := p.msg, peer := true, job := p.job, kind := p.kind, idx := p.idx, count := p.count, msgLen := p.msgLen
                 words := p.words, rne := p.rne, slot := p.rslot }
    else match s.xmsg? p.msg with
      | some m => if m.op = 0xD0 || m.op = 0xD2 then (match s.ownPacket m p.idx with
          | some a => s.arrive a
          | none => s) else s
      | none => s
/-- PACKET_ARRIVE (R469). -/
def execPacketArrive (p : Packet) (s : State) : Host.Outcome State Fault Refusal := .next (packetArrive p s)

/-! Completion at the sender. -/

/-- Whether a message goes to this device itself. -/
def State.toSelf (s : State) (m : XMsg) : Bool :=
  match s.peerOf m.ctx (xPeer m.desc) with
  | some p => p.self
  | none => false

/-- A packet is settled: at this device's own receiver, or as a read's reply. -/
def State.settled (s : State) (m : XMsg) (i : Nat) : Bool :=
  m.got.contains i || (match s.rx? m.id false with
    | some r => r.got.contains i
    | none => false)

/-- FINAL_ACK (R470): a read completes when all its words are written; another message when its receiver has acted, with
the status the receiver gives. DEDUCED (log 92). -/
def finalAck (id st : Nat) (s : State) : State :=
  match s.xmsg? id with
  | none => s
  | some m =>
    if !m.started then s
    else if m.op = 0xD1 && (List.range (packetCount (xLen m.desc))).all (fun i => m.got.contains i) then s.xFinish m 0
    else if s.toSelf m then
      (match s.rx? id false with
      | some r => if r.notified then
          let s := if s.xCan m then { s with rxmsgs := s.rxmsgs.filter (fun q => !(q.msg == id && !q.peer)) } else s
          s.xFinish m r.status else s
      | none => s)
    else if m.op = 0xD1 || m.op = 0xD9 then (if st = 2 then s.xFinish m 2 else s)
    else if st = 0 || st = 2 || (st = 4 && xRne m.desc) || (st = 5 && m.op = 0xD2) then s.xFinish m st
    else s
/-- FINAL_ACK (R470). -/
def execFinalAck (id st : Nat) (s : State) : Host.Outcome State Fault Refusal := .next (finalAck id st s)

/-- A message fails at its sender with a status. -/
def State.xFail (s : State) (m : XMsg) (st : Nat) : State :=
  let s := if s.xCan m then { s with rxmsgs := s.rxmsgs.filter (fun q => !(q.msg == m.id && !q.peer)) } else s
  s.xFinish m st

/-- PACKET_RESEND (R468): after 7 resends of one packet the message fails. -/
def packetResend (id i : Nat) (s : State) : State :=
  match s.xmsg? id with
  | none => s
  | some m =>
    if !m.started || s.settled m i || decide (packetCount (xLen m.desc) ≤ i) then s
    else if 7 ≤ sgetD m.resends i 0 then s.xFail m 1
    else s.modX id (fun y => { y with resends := ssetD y.resends i (sgetD y.resends i 0 + 1) 0 })
/-- PACKET_RESEND (R468). -/
def execPacketResend (id i : Nat) (s : State) : Host.Outcome State Fault Refusal := .next (packetResend id i s)

/-- MESSAGE_TIMEOUT (R468): 10 ms have passed since the message started. -/
def messageTimeout (id : Nat) (s : State) : State :=
  match s.xmsg? id with
  | none => s
  | some m => if m.started then s.xFail m 1 else s
/-- MESSAGE_TIMEOUT (R468). -/
def execMessageTimeout (id : Nat) (s : State) : Host.Outcome State Fault Refusal := .next (messageTimeout id s)

/-- NOBUF_DEADLINE (R477): no buffer has taken the message within the deadline. -/
def nobufDeadline (id : Nat) (s : State) : State :=
  match s.xmsg? id with
  | none => s
  | some m => if m.started && m.op = 0xD2 && (s.rx? id false).isNone then s.xFinish m 3 else s
/-- NOBUF_DEADLINE (R477). -/
def execNobufDeadline (id : Nat) (s : State) : Host.Outcome State Fault Refusal := .next (nobufDeadline id s)

/-- An entry of the congestion table as the engine rewrites it (R479). -/
def cngEntry (old ws : List Word) : List Word :=
  [ws.getD 0 0, ws.getD 1 0, ws.getD 2 0 &&& 0xFFFF, ws.getD 3 0, ws.getD 4 0, ws.getD 5 0, ws.getD 6 0, old.getD 7 0 + 1]

/-- CONGESTION_UPDATE (R479): the engine rewrites a peer's entry, in the context's mapped table too, and counts the update.
DESIGN CHOICE (log 136). -/
def congestionUpdate (ctx : Byte) (peer : Nat) (ws : List Word) (s : State) : State :=
  match s.ctx? ctx with
  | none => s
  | some x =>
    if (s.peerOf ctx peer).isNone then s else
    let e := cngEntry (sgetD x.congestion peer []) ws
    let s := s.modCtx ctx (fun x => { x with congestion := sput x.congestion peer e })
    match x.cfg.table with
    | none => s
    | some a => s.putBytes ctx ((a.toNat + 32 * peer) / 4) (e.flatMap (fun w => bytesOfNat w.toNat 4))
/-- CONGESTION_UPDATE (R479). -/
def execCongestionUpdate (ctx : Byte) (peer : Nat) (ws : List Word) (s : State) : Host.Outcome State Fault Refusal :=
  .next (congestionUpdate ctx peer ws s)

end Sys2Proof.Machine
end

