-- ==== Sys2Proof/Machine/Place.lean ====
section
/-! DEFINITION. Placing groups (R159 to R163, R211, R212, R220 to R222, R225 to R228): records, what a core has free, cluster
positions, fused L1s (R248), the launch engine's reads and writes of memory (R213, R224). -/

namespace Sys2Proof.Machine

/-! Memory as the engine and firmware reach it for a context (R213, R253). -/

/-- A byte that the engine reads for a context; none where it cannot (R213, R216). -/
def State.engineByteAt (s : State) (c : Byte) (va : Nat) : Option Byte :=
  match s.engineReach c va .load with
  | none => none
  | some a =>
    let w := (s.engineKeyed c va .load).coherent (a / 4)
    if w.bad then none else some ((bytesOfNat w.val.toNat 4).getD (a % 4) 0)

/-- `n` bytes from an address. -/
def State.engineGet (s : State) (c : Byte) (va : Nat) : Nat → Option (List Byte)
  | 0 => some []
  | n + 1 => match s.engineByteAt c va, s.engineGet c (va + 1) n with
    | some b, some r => some (b :: r)
    | _, _ => none

/-- Writes a word for a context where it may. -/
def State.enginePut (s : State) (c : Byte) (va : Nat) (v : Word) : State :=
  match s.engineReach c va .store with
  | none => s
  | some a => (s.engineKeyed c va .store).engineWrite (s.engineWriter c va .store) (a / 4) { val := v } 0

/-- Writes a run of words. -/
def State.enginePuts (s : State) (c : Byte) (va : Nat) : List Byte → State
  | b0 :: b1 :: b2 :: b3 :: r =>
    (s.enginePut c va (BitVec.ofNat 32 (natOfBytes [b0, b1, b2, b3]))).enginePuts c (va + 4) r
  | _ => s

/-- A 64-bit write, or addition, by the engine: impossible, for a cause, where an address fails or a word is in the poison state
(R224). -/
def State.engine64 (s : State) (c : Byte) (va : Nat) (f : Nat → Nat) : State ⊕ Nat :=
  match s.engineTry c va .store, s.engineTry c (va + 4) .store with
  | .inl a, .inl b =>
    let k := s.engineWriter c va .store
    let s := (s.engineKeyed c va .store).engineKeyed c (va + 4) .store
    let lo := s.coherent (a / 4)
    let hi := s.coherent (b / 4)
    if lo.bad || hi.bad then .inr cECC else
    let v := f (lo.val.toNat + 2 ^ 32 * hi.val.toNat)
    .inl ((s.engineWrite k (a / 4) { val := BitVec.ofNat 32 v } 0).engineWrite k (b / 4) { val := BitVec.ofNat 32 (v / 2 ^ 32) } 0)
  | .inr c, _ => .inr c
  | _, .inr c => .inr c

/-! Records (R211, R212). -/

/-- The fields of a launch record. -/
def recordOf (d : List Byte) : Record :=
  { desc := fld d 0 8, params := fld d 8 8, signal := fld d 16 8, status := fld d 24 8, edges := fld d 32 8
    gx := fld d 40 2, gy := fld d 42 2, gz := fld d 44 2, warps := fld d 46 1, fmask := fld d 47 1
    x0 := fld d 48 1, y0 := fld d 49 1, w := fld d 50 1, h := fld d 51 1, cw := max 1 (fld d 52 1), ch := max 1 (fld d 53 1)
    regg := fld d 54 2, spad := fld d 56 2, nbar := fld d 58 1, nseq := fld d 59 1, nap := fld d 60 1, kind := fld d 61 1
    nstage := fld d 62 1, flags := fld d 63 1, act := fld d 64 1, aqueue := fld d 66 2, aaddr := fld d 72 8
    aval := fld d 80 8 }

/-- Whether a field of a record lies outside its limits or a reserved one is nonzero (R212). -/
def recordBad (d : List Byte) : Bool :=
  let r := recordOf d
  let pipe := r.kind == 1
  r.desc % 256 != 0 || r.signal % 8 != 0 || r.status % 256 != 0 || (!pipe && r.edges != 0)
    || r.gx == 0 || r.gy == 0 || r.gz == 0 || r.warps == 0 || decide (24 < r.warps) || decide (16 ≤ r.fmask) || r.fmask % 2 == 0
    || r.w == 0 || r.h == 0 || r.regg == 0 || decide (384 < r.regg) || decide (512 < r.spad) || decide (32 < r.nbar)
    || decide (1 < r.nseq) || decide (2 < r.nap) || decide (1 < r.kind) || (!pipe && r.nstage != 0)
    || decide (1 < r.flags) || decide (2 < r.act) || decide (4095 < r.aqueue) || r.aaddr % 8 != 0
    || !isZero d 65 1 || !isZero d 68 4 || !isZero d 88 40

/-- The cores of a rectangle in row-major order. -/
def State.rectCores (s : State) (x0 y0 w h : Nat) : List Nat :=
  (List.range h).flatMap (fun j => (List.range w).map (fun i => (y0 + j) * s.width + x0 + i))

/-- Whether a core is compute-absent (R457). -/
def State.coreAbsent (s : State) (c : Nat) : Bool := s.absent.contains (s.sliceOf c)

/-- Whether a record's rectangle is refused (R159). -/
def State.rectBad (s : State) (r : Record) : Bool :=
  decide (s.width < r.x0 + r.w) || decide (s.height < r.y0 + r.h) || (s.rectCores r.x0 r.y0 r.w r.h).any s.coreAbsent

/-- Whether a record's cluster shape is refused (R162): its positions lie within dies when they are aligned. -/
def clusterBad (r : Record) : Bool :=
  !([1, 2, 3, 6].contains r.cw && [1, 2, 4].contains r.ch) || r.x0 % r.cw != 0 || r.w % r.cw != 0 || r.y0 % r.ch != 0
    || r.h % r.ch != 0 || r.gx % r.cw != 0 || r.gy % r.ch != 0

/-- Entry addresses of a kernel descriptor, and its views with the window made whole where WIN is 0 (R166, R211). -/
def entriesOf (d : List Byte) : List (Option Nat) :=
  (List.range 4).map (fun f => let e := fld d (8 + 4 * f) 4; if e = 0xFFFFFFFF then none else some ((fld d 0 8 + e) % 2 ^ 64))
/-- DEDUCED (log 95). -/
def viewsOf (regg : Nat) (d : List Byte) : List (List Word) :=
  (List.range 4).map (fun f =>
    let v := fun (j : Nat) => BitVec.ofNat 32 (fld d (24 + 16 * f + 4 * j) 4)
    [v 0 &&& 0xFFFF, v 1 &&& 0x7FFFF, v 2 &&& 0xFFFF, if v 3 == 0 then BitVec.ofNat 32 (regg * 65536) else v 3 &&& 0x1FF01FF])

/-- Whether a descriptor's views are refused, or `fmask` names a fibre that has no entry (R166, R219). DESIGN CHOICE (log 21): the
view of a fibre that has no entry is not tested; R166 speaks of the descriptor as a whole. -/
def descBad (r : Record) (d : List Byte) : Bool :=
  let es := entriesOf d
  (List.range 4).any (fun f =>
    match es.getD f none with
    | none => r.fmask / 2 ^ f % 2 == 1
    | some _ =>
      let v := (viewsOf r.regg d).getD f []
      let win := (v.getD 3 0).toNat
      let len := win / 65536 % 512
      decide (5 < (v.getD 1 0).toNat / 65536 % 8) || len == 0 || decide (384 < len) || decide (r.regg < win % 512 + len))

/-- Why a record of kind KERNEL is rejected (R219), or its stage. -/
def State.kernelCheck (s : State) (c : Byte) (raw : List Byte) : Nat ⊕ Stage :=
  let r := recordOf raw
  if s.rectBad r then .inl 1 else if clusterBad r then .inl 2 else if recordBad raw then .inl 3 else
  let d := s.engineGet c r.desc 256
  if (match d with
    | some d => !isZero d 88 168
    | none => false) then .inl 3
  else if 384 < r.warps * r.regg then .inl 4
  else match d with
    | none => .inl 5
    | some d => if descBad r d then .inl 5 else
      .inr { record := r, code := fld d 0 8, entries := entriesOf d, views := viewsOf r.regg d }

/-! What a core has free (R220). -/

def State.groupsOn (s : State) (c : Nat) : List Group := (s.groups.map (·.2)).filter (fun x => x.core == c && !x.freed)

/-- The lowest place for a run of `len` among `total` that meets no used run. -/
def firstRun (total len : Nat) (used : List (Nat × Nat)) : Option Nat :=
  if len = 0 then some 0
  else if total < len then none
  else firstBelow (total + 1 - len) (fun a => used.all (fun u => decide (a + len ≤ u.1) || decide (u.1 + u.2 ≤ a)))

/-- What one group takes: warps and granules for each, scratchpad KiB, barriers, sequencers, access processors. -/
structure Need where
  warps : Nat
  regg : Nat
  spad : Nat
  nbar : Nat
  nseq : Nat
  nap : Nat

/-- Where a group's resources stand on its core. -/
structure Fit where
  slots : List Nat
  bases : List Nat
  spad : Nat

def Record.need (r : Record) : Need :=
  { warps := r.warps, regg := r.regg, spad := r.spad, nbar := r.nbar, nseq := r.nseq, nap := r.nap }

/-- Runs of granules for each of `n` warps, by first fit. -/
def firstRuns (regg : Nat) : Nat → List (Nat × Nat) → Option (List Nat)
  | 0, _ => some []
  | n + 1, used => match firstRun 384 regg used with
    | none => none
    | some a => (firstRuns regg n ((a, regg) :: used)).map (fun r => a :: r)

/-- Where a group fits a core, by first fit from the lowest number (R220). -/
def State.fit (s : State) (c : Nat) (n : Need) : Option Fit :=
  let gs := s.groupsOn c
  let taken := gs.flatMap (fun x => x.warps.map (fun w => w.slot))
  let slots := ((List.range 24).filter (fun k => !taken.contains k)).take n.warps
  let runs := gs.flatMap (fun x => x.regBase.map (fun b => (b, x.regg)))
  let sp := gs.map (fun x => (x.spadBase / 1024, x.spadBytes / 1024))
  let sum := fun (f : Group → Nat) => (gs.map f).foldl (· + ·) 0
  if slots.length < n.warps || decide (256 < sum (fun x => x.nbar) + n.nbar) || decide (4 < sum (fun x => x.nseq) + n.nseq)
    || decide (2 < sum (fun x => x.aps.length) + n.nap) then none else
  match firstRuns n.regg n.warps runs, firstRun 512 n.spad sp with
  | some bases, some a => some { slots := slots, bases := bases, spad := 1024 * a }
  | _, _ => none

/-! Fused L1s (R248). -/

/-- No registration of a core's L1 is on its way, and no word of it waits. -/
def State.l1Quiet (s : State) (c : Nat) : Bool :=
  let a := s.agent c
  !s.anyPending c && !s.pend.any (fun p => p.core == a) && !s.msgs.any (fun m => m.core == a && (match m.kind with
    | .reg _ => true
    | .ack _ => true
    | .wb => true
    | .claim => true
    | .rev _ => true
    | .fwd _ => true
    | _ => false)) && !s.holds.any (fun h => h.held.any (fun m => m.core == a))

/-- Writes a core's Owned words back to their homes and releases them (R224, R248, R427). DEDUCED (log 104). -/
def State.drainL1 (s : State) (c : Nat) : State :=
  let a := s.agent c
  let own := (s.coreAt a).l1.filter (fun e => e.2.st == .owned)
  let s := own.foldl (fun s e => if sget s.owners e.1 = some a then
    { (s.homeAccess (e.1 / 32) e.2.ctx false true).setHome e.1 e.2.word with owners := sdel s.owners e.1 } else s) s
  s.modCore a (fun x => { x with l1 := x.l1.filter (fun e => e.2.st != .owned) })

/-- Fuses the L1s of a position for a launch (R248). -/
def State.fuse (s : State) (lsn : Nat) (cs : List Nat) : State :=
  if cs.any (fun c => (s.coreAt c).fusedLsn == some lsn) then s else
  let s := cs.foldl (fun s c => (s.drainL1 c).modCore c (fun x => { x with l1 := [] })) s
  cs.foldl (fun s c => s.modCore c (fun x => { x with fusedWith := cs, fusedLsn := some lsn })) s

/-- Separates a fused position: its dirty words are written back, its registrations released (R248, R427). DEDUCED (log 103). -/
def State.unfuse (s : State) (cs : List Nat) : State :=
  match cs with
  | [] => s
  | c :: _ =>
    let s := (s.drainL1 c).modCore (s.agent c) (fun x => { x with l1 := [] })
    cs.foldl (fun s c => s.modCore c (fun x => { x with fusedWith := [], fusedLsn := none })) s

/-- Whether fusing keeps a launch off a core: the core is fused for another launch, or is to be fused while another's groups are placed on
it (R248). -/
def State.alone (s : State) (lsn : Nat) (fuse : Bool) (c : Nat) : Bool :=
  (match (s.coreAt c).fusedLsn with
    | some l => l == lsn
    | none => true) && (!fuse || (s.groupsOn c).all (fun x => x.lsn == lsn))

/-- Whether a core takes groups now: it is up, and the partition's resources may be reassigned (R438, R456). -/
def State.coreTakes (s : State) (c : Nat) : Bool := (s.coreAt c).up && s.replacing.isNone && !s.scrub.ctl.getLsbD 1

/-- Whether a core's L1 can be fused now: it is already, or nothing of it is on its way. DEDUCED (log 103). -/
def State.canFuse (s : State) (fuse : Bool) (c : Nat) : Bool := !fuse || (s.coreAt c).fusedLsn.isSome || s.l1Quiet c

/-- Whether a group of a launch may stand on a core at all. -/
def State.mayHost (s : State) (lsn : Nat) (fuse : Bool) (c : Nat) : Bool :=
  s.coreTakes c && !s.coreAbsent c && s.alone lsn fuse c && s.canFuse fuse c

/-! Sets and positions (R162, R163, R221). -/

/-- The cluster shape of a stage: a pipeline's stages have none (R225). -/
def Launch.shape (l : Launch) : Nat × Nat := if l.record.kind = 1 then (1, 1) else (l.record.cw, l.record.ch)

/-- The number of cluster sets of a stage. -/
def Launch.sets (l : Launch) (st : Stage) : Nat :=
  let (cw, ch) := l.shape
  st.record.gx / cw * (st.record.gy / ch) * st.record.gz
def Stage.total (st : Stage) : Nat := st.record.gx * st.record.gy * st.record.gz

/-- The first core offset of each aligned position of a launch's rectangle, in row-major order. -/
def Launch.positions (l : Launch) : List (Nat × Nat) :=
  let (cw, ch) := l.shape
  (List.range (l.record.h / ch)).flatMap (fun j => (List.range (l.record.w / cw)).map (fun i =>
    (l.record.x0 + cw * i, l.record.y0 + ch * j)))

/-- The cores of a position in member order (R163). -/
def State.positionCores (s : State) (l : Launch) (p : Nat × Nat) : List Nat := s.rectCores p.1 p.2 l.shape.1 l.shape.2

/-- Whether a position serves a stage: in a pipeline each core is assigned to one (R227). -/
def Launch.serves (l : Launch) (k : Nat) (p : Nat × Nat) : Bool :=
  l.record.kind != 1 || l.stageOf.getD ((p.2 - l.record.y0) * l.record.w + (p.1 - l.record.x0)) 0 == k

/-- An edge's PUT and TAKE (R225, R226); one that cannot be read counts as full. -/
def State.edgeFill (s : State) (c : Byte) (e : Nat × Nat × Nat × Bool) : Option Nat :=
  match s.engineGet c e.1 8, s.engineGet c e.2.1 8 with
  | some p, some t => some ((natOfBytes p + 2 ^ 64 - natOfBytes t) % 2 ^ 64)
  | _, _ => none

/-- Whether a pipeline's edges let a new group of stage `k` be placed (R226). -/
def State.edgeOpen (s : State) (l : Launch) (k : Nat) : Bool :=
  l.record.kind != 1 ||
  ((match l.edges[k]? with
    | some e => e.2.2.2 || (match s.edgeFill l.ctx e with
        | some n => decide (n < e.2.2.1)
        | none => false)
    | none => true)
   && (k == 0 || (match l.edges[k - 1]? with
    | some e => !e.2.2.2 || (l.stages.getD (k - 1) { record := {} }).ended
    | none => true)))

/-! Placing (R161, R166, R221). -/

/-- A warp as it is placed: its registers 0, its fibres' lanes at their entries where `fmask` starts them (R14, R161). The slot's
first fibre is 0, the lowest that `fmask`, whose bit 0 is 1, starts (R212, R384). -/
def newWarp (st : Stage) (slot : Nat) : Warp :=
  let r := st.record
  let last := (List.range 4).foldl (fun m f => if (st.entries.getD f none).isSome then f else m) 0
  let fib := fun (f : Nat) =>
    let e := st.entries.getD f none
    let v := st.views.getD f []
    let go := r.fmask / 2 ^ f % 2 == 1 && e.isSome
    let pc : DWord := pcOf (BitVec.ofNat 64 (e.getD 0))
    ({ entry := e.map (fun a => pcOf (BitVec.ofNat 64 a)), vvec := v.getD 0 0, vtile := v.getD 1 0, vacc := v.getD 2 0, win := v.getD 3 0
       lanes := List.replicate 32 (if go then { pc := pc, st := .active } else {})
       uregs := if go then ssetD (ssetD [] 0 (mkWord (BitVec.ofNat 32 r.params)) {}) 1 (mkWord (BitVec.ofNat 32 (r.params / 2 ^ 32))) {}
                else [] } : Fibre)
  { slot := slot, alloc := 2048 * r.regg, cur := some 0, fibres := (List.range (last + 1)).map fib }

/-- A group as it is placed (R160, R161, R199, R232). -/
def newGroup (l : Launch) (k : Nat) (st : Stage) (set member : Nat) (gid : Nat × Nat × Nat) (core : Nat) (a : Fit) : Group :=
  let r := st.record
  { lsn := l.lsn, stage := k, lin := gid.1 + r.gx * (gid.2.1 + r.gy * gid.2.2), gid := gid, grid := (r.gx, r.gy, r.gz)
    ctx := l.ctx, core := core, member := member, set := set, cw := l.shape.1, ch := l.shape.2, views := st.views
    params := BitVec.ofNat 64 r.params, regBase := a.bases, regg := r.regg, warps := a.slots.map (newWarp st)
    spadBase := a.spad, spadBytes := 1024 * r.spad, nbar := r.nbar, bars := List.replicate r.nbar {}, nseq := r.nseq
    aps := (List.range r.nap).map (fun n => (n, {})) }

/-- Changes an active launch. -/
def State.modLaunch (s : State) (lsn : Nat) (f : Launch → Launch) : State :=
  { s with engine := { s.engine with launches := s.engine.launches.map (fun l => if l.lsn == lsn then f l else l) } }
def State.launch? (s : State) (lsn : Nat) : Option Launch := s.engine.launches.find? (fun l => l.lsn == lsn)

/-- The group indices of a set's member (R163). -/
def Launch.gidOf (l : Launch) (st : Stage) (set member : Nat) : Nat × Nat × Nat :=
  let (cw, ch) := l.shape
  let nx := st.record.gx / cw
  let ny := st.record.gy / ch
  (set % nx * cw + member % cw, set / nx % ny * ch + member / cw, set / (nx * ny))

/-- Whether a saved group of a launch waits for one of some cores (R222, R431). -/
def State.savedOn (s : State) (lsn : Nat) (cs : List Nat) : Bool := s.saved.any (fun u => u.lsn == lsn && cs.contains u.core)

/-- Whether a slot's queue is one whose launches are being pre-empted so that the slot can be unbound (R432). -/
def State.reclaiming (s : State) (q : Nat) : Bool := s.engine.slots.any (fun e => e.2.queue == q && e.2.reclaim)

/-- Whether a launch has a set still to be placed, and whether all its groups have been. -/
def Launch.unplaced (l : Launch) : Bool := l.reason == 0 && l.stages.any (fun st => decide (st.next < l.sets st))

/-- Whether a launch's next set of a stage has room at a position (R218, R220, R221). -/
def State.roomAt (s : State) (l : Launch) (k : Nat) (p : Nat × Nat) : Bool :=
  match l.stages[k]? with
  | none => false
  | some st => decide (st.next < l.sets st) && l.serves k p && (s.positionCores l p).all (fun c =>
      (s.fit c st.record.need).isSome && s.alone l.lsn (st.record.flags % 2 == 1) c && !s.coreAbsent c)

/-- Whether a launch has room for a set somewhere. -/
def State.roomFor (s : State) (l : Launch) : Bool :=
  (List.range l.stages.length).any (fun k => l.positions.any (s.roomAt l k))

/-- The groups of a launch on the cores of a rectangle. -/
def State.groupsIn (s : State) (lsn : Nat) (cs : List Nat) : List Nat :=
  (s.groups.filter (fun e => e.2.lsn == lsn && !e.2.freed && cs.contains e.2.core && e.2.pre == .none)).map (·.1)

/-- Victims of a waiting launch that have not been taken for it yet, the one taken first at the head (R420). -/
def State.victims (s : State) (l : Launch) : List Launch :=
  let cs := s.rectCores l.record.x0 l.record.y0 l.record.w l.record.h
  let can := s.engine.launches.filter (fun v => decide (v.prio < l.prio) && decide (v.qprio < 3) && v.slot != 63
    && !l.pressed.contains v.lsn && !(s.groupsIn v.lsn cs).isEmpty)
  [0, 1, 2].flatMap (fun p => (can.filter (fun v => v.prio == p)).reverse)

/-- Groups under pre-emption whose space is still to come. -/
def State.saving (s : State) : Bool :=
  s.groups.any (fun e => match e.2.pre with
    | .none => false
    | .restoring => false
    | _ => true)

/-- Whether a launch that has placed nothing is taking victims (R218, R420). -/
def State.pressing (s : State) (l : Launch) : Bool :=
  !l.pressed.isEmpty && l.unplaced && l.stages.all (fun st => st.placed == 0) && (s.saving || !(s.victims l).isEmpty)

/-- Whether space on some cores is kept from a launch: one of higher priority is taking victims there, and receives it first (R222, R420);
or the launch's own slot is being reclaimed (R432). DEDUCED (log 102). -/
def State.withheld (s : State) (l : Launch) (cs : List Nat) : Bool :=
  s.reclaiming l.queue || s.engine.launches.any (fun h => decide (l.prio < h.prio) && s.pressing h &&
    (s.rectCores h.record.x0 h.record.y0 h.record.w h.record.h).any (fun c => cs.contains c))

/-- Places the next set of a stage at a position where all of it fits (R163, R221), and where no saved group of its launch waits (R222):
whether it did. -/
def State.placeSet (s : State) (lsn k : Nat) (p : Nat × Nat) : State × Bool :=
  match s.launch? lsn with
  | none => (s, false)
  | some l => match l.stages[k]? with
    | none => (s, false)
    | some st =>
      let cs := s.positionCores l p
      let fuse := st.record.flags % 2 == 1
      if l.sets st ≤ st.next || !l.serves k p || !cs.all (s.mayHost lsn fuse) || !s.edgeOpen l k || s.savedOn lsn cs || s.withheld l cs then
        (s, false) else
      let fits := cs.filterMap (fun c => (s.fit c st.record.need).map (fun a => (c, a)))
      if fits.length < cs.length then (s, false) else
      let s := if fuse then s.fuse lsn cs else s
      let s := ((List.range cs.length).zip fits).foldl (fun s e =>
        let (i, s) := s.newId
        { s with groups := sput s.groups i (newGroup l k st st.next e.1 (l.gidOf st st.next e.1) e.2.1 e.2.2) }) s
      (s.modLaunch lsn (fun l =>
        { l with stages := modAt l.stages k (fun x => { x with next := x.next + 1, placed := x.placed + cs.length })
                 cores := l.cores ++ cs.filter (fun c => !l.cores.contains c) }), true)

/-- Whether a launch has room for a set at a position, but cannot place it there yet (R221). -/
def State.placeLater (s : State) (l : Launch) (p : Nat × Nat) : Bool :=
  (List.range l.stages.length).any (fun k => s.roomAt l k p && s.edgeOpen l k) && !s.savedOn l.lsn (s.positionCores l p)

/-- One pass over the positions for every stage (R221): whether any set was placed. -/
def State.pass (s : State) (l : Launch) : State × Bool :=
  (List.range l.stages.length).foldl (fun acc k =>
    l.positions.foldl (fun acc p => let r := acc.1.placeSet l.lsn k p; (r.1, acc.2 || r.2)) acc) (s, false)

/-- Active launches by effective priority, then launch sequence number (R222). -/
def State.byPriority (s : State) : List Launch :=
  [3, 2, 1, 0].flatMap (fun p => s.engine.launches.filter (fun l => l.prio == p))

/-! Requests for pre-emption (R218, R419, R420, R428). -/

/-- The groups of a cluster set that are placed or not yet given up (R163). -/
def State.setOf (s : State) (g : Nat) : List Nat :=
  let x := s.groupAt g
  (s.groups.filter (fun e => e.2.lsn == x.lsn && e.2.stage == x.stage && e.2.set == x.set && !e.2.freed)).map (·.1)

/-- Whether a context has a save area (R428). -/
def State.hasArea (s : State) (c : Byte) : Bool :=
  match (s.ctx? c).bind (fun x => x.cfg.saveArea) with
  | some a => decide (256 < a.2)
  | none => false

/-- Requests pre-emption of groups with their sets; those of a context without a save area run on, with a management
interrupt (R419, R420, R428). An unbound prefetch of theirs is cancelled (R424), and a core with no matrix work left returns its token (R341). -/
def State.requestPre (s : State) (gs : List Nat) : State :=
  let all := (gs.flatMap s.setOf).eraseDups
  let ok := all.filter (fun g => s.hasArea (s.groupAt g).ctx)
  let s := if ok.length < all.length then s.mgmtEvent else s
  let s := { s with pfts := s.pfts.filter (fun p => !(ok.contains p.g && p.bar.isNone)) }
  let s := ok.foldl (fun s g => s.modGroup g (fun x => if x.pre = .none then { x with pre := .requested } else x)) s
  (ok.foldl (fun s g => s.tokenBack (s.groupAt g).core) s).wake

/-- Whether a group is not the last of its launch at a fused position, or no store of that position is still on its way: the slices then
separate (R248). -/
def State.fusedQuiet (s : State) (g : Nat) : Bool :=
  let x := s.groupAt g
  let cs := (s.coreAt x.core).fusedWith
  cs.isEmpty || s.groups.any (fun e => e.1 != g && cs.contains e.2.core && !e.2.retired) || s.l1Quiet x.core

/-- Whether a group can retire (R223). -/
def State.mayRetire (s : State) (g : Nat) : Bool :=
  let x := s.groupAt g
  (s.group? g).isSome && !x.retired && x.pre != .saved && x.pre != .saving && x.pre != .restoring
    && x.warps.all (fun w => w.fibres.all Fibre.finished) && s.fusedQuiet g
    && x.seq.st != .running && x.seq.ops.isEmpty
    && !s.prods.any (fun p => p.g == g && p.kind != .copy) && !s.parkedAll.any (fun p => p.ig == g)

/-- Requests pre-emption of a victim for a waiting launch: whether its groups will be saved; one whose context has no save area runs on, with
a management interrupt (R420, R428). -/
def State.takeVictim (s : State) (l v : Launch) : State × Bool :=
  let s := s.modLaunch l.lsn (fun l => { l with pressed := l.pressed ++ [v.lsn] })
  (s.requestPre (s.groupsIn v.lsn (s.rectCores l.record.x0 l.record.y0 l.record.w l.record.h)), s.hasArea v.ctx)

/-- Whether a group on some cores has nothing left but to retire: its space comes first (R441). -/
def State.retiring (s : State) (cs : List Nat) : Bool := s.groups.any (fun e => cs.contains e.2.core && s.mayRetire e.1)

/-- Requests the next victim of a launch that can place no group since every core of its rectangle lacks room (R218, R420). -/
def State.pressFor (s : State) (l : Launch) : State :=
  if s.saving || !l.unplaced || l.stages.any (fun st => st.placed != 0) || s.roomFor l
    || s.retiring (s.rectCores l.record.x0 l.record.y0 l.record.w l.record.h) then s else
  ((s.victims l).foldl (fun (acc : State × Bool) v => if acc.2 then acc else acc.1.takeVictim l v) (s, false)).1

/-- Requests a victim for the first launch, by priority, that can place no group and has one (R218, R420). DEDUCED (log 102). -/
def State.pressure (s : State) : State := s.byPriority.foldl State.pressFor s

end Sys2Proof.Machine
end

