-- ==== Sys2Proof/Machine/Queue.lean ====
section
/-! DEFINITION. Queues and launch-engine slots (R213, R215, R216, R432): queue descriptors, the pending bitmap, binding and freeing slots. -/

namespace Sys2Proof.Machine

def lsQERR : Word := 0x80000000
def lsPEND : Word := 0x40000000

def State.modEngine (s : State) (f : Engine → Engine) : State := { s with engine := f s.engine }

/-- Notes an event of LESTAT with its queue (R230). -/
def State.lestatSet (s : State) (bit : Word) (q : Nat) : State :=
  s.modEngine (fun e => { e with lestat := (e.lestat &&& 0xFFFFF000) ||| bit ||| BitVec.ofNat 32 (q % 4096) })

/-- The context that reaches the queue table and the pending bitmap (R213, R229). -/
def State.engineCtx (s : State) : Byte := s.engine.lectx.setWidth 8

/-- A queue's descriptor; none where it cannot be read (R213, R216). -/
def State.queueDesc (s : State) (q : Nat) : Option (List Byte) :=
  s.engineGet s.engineCtx (s.engine.qtbase.toNat + 64 * q) 64

def qPrio (d : List Byte) : Nat := fld d 9 1
def qEn (d : List Byte) : Bool := fld d 10 1 % 2 == 1
def qOvl (d : List Byte) : Bool := fld d 10 1 / 2 % 2 == 1
def qBad (d : List Byte) : Bool :=
  decide (16 < fld d 8 1) || decide (3 < qPrio d) || fld d 10 1 / 4 != 0 || !isZero d 12 4 || !isZero d 32 32
/-- Records written and not accepted. -/
def qCount (d : List Byte) : Nat := (fld d 16 8 + 2 ^ 64 - fld d 24 8) % 2 ^ 64

/-- Whether a launch of a queue is active. -/
def State.queueBusy (s : State) (q : Nat) : Bool := s.engine.launches.any (fun l => l.queue == q)

/-! The pending bitmap (R215, R216). -/

def State.pendWord (s : State) (i : Nat) : Option Nat :=
  (s.engineGet s.engineCtx (s.engine.pnbase.toNat + 4 * i) 4).map natOfBytes
/-- Sets or clears the bit of a queue. -/
def State.pendSet (s : State) (q : Nat) (on : Bool) : State :=
  match s.pendWord (q / 32) with
  | none => s
  | some v =>
    let w : Word := BitVec.ofNat 32 v
    let m : Word := 1#32 <<< (q % 32)
    s.enginePut s.engineCtx (s.engine.pnbase.toNat + 4 * (q / 32)) (if on then w ||| m else w &&& ~~~m)
/-- Where a queue stands among those pending: 1 more than its PRIO, or lowest where that is out of range or cannot be read (R216).
DESIGN CHOICE (log 135). -/
def State.queueRank (s : State) (q : Nat) : Nat :=
  match s.queueDesc q with
  | some d => if qPrio d ≤ 3 then qPrio d + 1 else 0
  | none => 0

/-- The pending queue of the highest PRIO, and then of the lowest number, with its rank. -/
def State.pendBest (s : State) : Option (Nat × Nat) :=
  (List.range 128).foldl (fun best i => match s.pendWord i with
    | none => best
    | some v => if v = 0 then best else
      (List.range 32).foldl (fun best j =>
        if v / 2 ^ j % 2 = 0 then best else
        let q := 32 * i + j
        let p := s.queueRank q
        match best with
        | none => some (q, p)
        | some b => if b.2 < p then some (q, p) else best) best) none

/-! Slots (R215, R216). -/

def State.slotPut (s : State) (k : Nat) (x : Slot) : State := s.modEngine (fun e => { e with slots := sput e.slots k x })
/-- Binds a queue to a slot, RAISED. -/
def State.bindSlot (s : State) (k q : Nat) : State := s.slotPut k { queue := q, raised := true, waited := 0 }
/-- Frees a slot, which takes the best pending queue (R216). -/
def State.freeSlot (s : State) (k : Nat) : State :=
  let s := s.modEngine (fun e => { e with slots := sdel e.slots k, chosen := if e.chosen = some k then none else e.chosen })
  if k = 63 then s else
  match s.pendBest with
  | none => s
  | some (q, _) => (s.pendSet q false).bindSlot k q

/-- Unbinds the slots being reclaimed whose launches have no group left on a core (R432). -/
def State.reclaimSlots (s : State) : State :=
  (s.engine.slots.filter (fun e => e.2.reclaim && !s.engine.launches.any (fun l => l.queue == e.2.queue &&
    s.groups.any (fun g => g.2.lsn == l.lsn && !g.2.freed)))).foldl (fun s e => s.freeSlot e.1) s

end Sys2Proof.Machine
end

