-- ==== Sys2Proof/Machine/Image.lean ====
section
/-! DEFINITION. The image of a saved group (R428, R429, R497 to R499). Where the manual gives a part's contents and not their
layout, its bytes are free. -/

namespace Sys2Proof.Machine

def zeros (n : Nat) : List Byte := List.replicate n 0
def w4 (v : Word) : List Byte := bytesOfNat v.toNat 4
def w8 (v : DWord) : List Byte := bytesOfNat v.toNat 8
/-- Bits, the first in the low place, as bytes. -/
def bitsToBytes (bs : List Bool) : List Byte :=
  bytesOfNat ((bs.mapIdx (fun i b => if b then 2 ^ i else 0)).foldl (· + ·) 0) (bs.length / 8)
/-- A part brought to its size. -/
def fit16 (n : Nat) (bs : List Byte) : List Byte := (bs ++ zeros n).take n

/-- One register granule of 512 words (R428). -/
def granule (regs : Sparse RegWord) (k : Nat) : List Byte :=
  let ws := (List.range 512).map (fun i => sgetD regs (512 * k + i) {})
  let nib := fun (i : Nat) => (ws.getD (2 * i) {}).res.toNat + 16 * (ws.getD (2 * i + 1) {}).res.toNat
  ws.flatMap (fun w => w4 w.val) ++ bitsToBytes (ws.map (fun w => w.full)) ++ bitsToBytes (ws.map (fun w => w.poison))
    ++ (List.range 256).map (fun i => BitVec.ofNat 8 (nib i))

/-- A tag byte (R429). -/
def tagByte (w : RegWord) : Byte :=
  BitVec.ofNat 8 ((if w.full then 1 else 0) + (if w.poison then 2 else 0) + 16 * w.res.toNat)

/-- A lane's wait (R429, LWAIT). -/
def waitBytes (st : LaneState) : List Byte :=
  match st with
  | .waiting (.bar n tok) => bytesOfNat (n % 32 + 32 + 65536 * tok.toNat) 4
  | .waiting .fbar => bytesOfNat 64 4
  | .waiting .fbarSlot => bytesOfNat 96 4
  | _ => zeros 4

/-- Whether the live lanes of a fibre stand at one PC, none stranded or in the middle of a repeat (R421). -/
def oneBoundary (x : Fibre) : Bool :=
  let ls := (liveLanes x).map (fun l => x.lanes.getD l {})
  ls.all (fun l => !l.st.isStranded && l.rep.isNone && l.pc == (ls.headD {}).pc)

/-- A fibre's record of 2,560 bytes (R429). A parked fibre's lanes stand at the restart PC (R426). -/
def fibreImage (x : Fibre) (clean : Bool) : List Byte :=
  let lane := fun (l : Nat) => x.lanes.getD l {}
  let parkMask : Word := match x.park with
    | some p => p.lanes
    | none => 0
  let pc := fun (l : Nat) => match x.park with
    | some p => if p.lanes.getLsbD l then p.pc else (lane l).pc
    | none => (lane l).pc
  let all := List.range 32
  let str := fun (l : Nat) => match (lane l).st with
    | .stranded w => if parkMask.getLsbD l then none else some w
    | _ => none
  let waits := fun (l : Nat) => match (lane l).st with
    | .waiting _ => true
    | _ => false
  let mask := fun (p : Nat → Bool) => w4 (maskOf (all.filter p))
  let never := x.lanes.all (fun l => l.st == .notStarted)
  let st := if x.frozen.isSome then 3 else if never then 0 else if x.ended then 2 else 1
  let cause := match x.frozen with
    | some z => z.cause.toNat
    | none => 0
  let pred := fun (l n : Nat) => (lane l).preds.getD n {}
  let pcs := if clean then w8 (pc ((liveLanes x).headD 0)) ++ zeros 248 else all.flatMap (fun l => w8 (pc l))
  let uni := (List.range 48).map (fun n => sgetD x.uregs n {})
  pcs ++ mask (fun l => (lane l).st.live) ++ mask (fun l => (str l).isSome) ++ mask waits
    ++ bytesOfNat (st + (if clean then 4 else 0) + (if x.park.isSome then 8 else 0) + 256 * cause) 4
    ++ w4 x.fstat ++ bytesOfNat x.replays 4 ++ w8 x.restart
    ++ w4 x.vvec ++ w4 x.vtile ++ w4 x.vacc ++ w4 x.win
    ++ (List.range 7).flatMap (fun n => mask (fun l => (pred l n).val) ++ mask (fun l => (pred l n).bad.isSome))
    ++ uni.flatMap (fun w => w4 w.val) ++ uni.map tagByte
    ++ (List.range 8).map (fun n => BitVec.ofNat 8 (x.qmap.getD n 0))
    ++ all.flatMap (fun l => waitBytes (lane l).st)
    ++ all.flatMap (fun l => w4 ((str l).getD 0))
    ++ zeros 160 ++ x.ring.flatMap Cart.bytes
    ++ (List.range 7).flatMap (fun n => all.flatMap (fun l => w4 ((pred l n).bad.getD 0))) ++ zeros 128

/-- The KIND code of a quarantine entry (R497). -/
def kindCode (k : QKind) : Nat :=
  match k with
  | .st => 0 | .stu => 1 | .sts => 2 | .stt => 3 | .stac => 4 | .stfe => 5

/-- A resolved scratchpad address as an image holds it: MEM names the member, or 0 the group itself (R497, R499). -/
def State.spImage (s : State) (g g' off : Nat) : Nat :=
  (if g' = g then 0 else ((s.groupAt g').member + 1) * 2 ^ 24) + off

/-- A quarantine entry (R497). -/
def State.quarImage (s : State) (g w f : Nat) (e : QEntry) : List Byte :=
  let block := e.kind == .stt || e.kind == .stac
  let pw : Word := if block || e.kind == .stfe then
      (match e.bad with
      | some v => v
      | none => (e.lanes.findSome? (fun l => l.bad)).getD 0)
    else 0
  let n := 4 * e.words.length
  let next := (e.va.toNat / 65536 + 1) * 65536
  let dpa1 := if block && next < e.va.toNat + n then e.runs.getD ((next - e.va.toNat) / 4) 0 else 0
  let planes := if block then (if e.bad.isSome then 1 else 0)
    else (maskOf ((e.lanes.filter (fun l => l.bad.isSome)).map (fun l => l.lane))).toNat
  let head := bytesOfNat (kindCode e.kind) 1 ++ bytesOfNat e.ty.toNat 1 ++ bytesOfNat f 1 ++ bytesOfNat w 1
    ++ (if block then zeros 4 else w4 e.parts) ++ bytesOfNat planes 4 ++ w4 pw ++ w8 e.pc
    ++ bytesOfNat (if block then e.runs.headD 0 else 0) 8 ++ bytesOfNat dpa1 8
    ++ bytesOfNat (if e.kind == .stt then e.rdpa else 0) 8 ++ bytesOfNat e.pos 1 ++ zeros 15
  let rec_ := fun (l : Nat) => match e.lanes.find? (fun q => q.lane == l) with
    | none => zeros 16
    | some q =>
      if e.kind == .stfe then zeros 16 else
      let a := if e.kind == .sts && q.here then s.spImage g (q.addr / 2 ^ 24) (q.addr % 2 ^ 24) else q.addr
      bytesOfNat a 8 ++ (match q.bad with
        | some v => w4 v ++ zeros 4
        | none => bytesOfNat (q.data.toNat % 2 ^ 32) 4 ++ bytesOfNat (if e.ty == 9 then q.data.toNat / 2 ^ 32 else 0) 4)
  match e.kind with
  | .stt => head ++ fit16 512 (e.words.flatMap w4) ++ fit16 16 (e.record.flatMap w4) ++ zeros 48
  | .stac => head ++ fit16 1024 (e.words.flatMap w4)
  | _ => head ++ (List.range 32).flatMap rec_

/-- A barrier of 832 bytes: its object, then member and arrived bits (R199, R428). -/
def barImage (b : Barrier) : List Byte :=
  let lanes := fun (m : List Member) => bitsToBytes ((List.range 24).flatMap (fun w => (List.range 4).flatMap (fun f =>
    (List.range 32).map (fun l => m.contains (.lane w f l)))))
  let fibs := fun (m : List Member) => bitsToBytes ((List.range 24).flatMap (fun w => (List.range 4).map (fun f =>
    m.contains (.fibre w f))))
  bytesOfNat (b.exp % 2 ^ 16 + 2 ^ 16 * b.cnt + 2 ^ 32 * (b.drop % 2 ^ 16) + 2 ^ 48 * b.phase.toNat) 8
    ++ lanes b.mem ++ lanes b.arr ++ fibs b.mem ++ fibs b.arr ++ zeros 32

/-- One KiB of scratchpad (R428). -/
def spadImage (sp : Sparse SpadWord) (k : Nat) : List Byte :=
  let ws := (List.range 256).map (fun i => sgetD sp (256 * k + i) {})
  ws.flatMap (fun w => w4 w.val) ++ bitsToBytes (ws.flatMap (fun w => [w.full, w.poison]))

/-- The sequencer's part (R498). -/
def seqImage (x : Group) : List Byte :=
  let q := x.seq
  let bit := fun (p : Barrier → Bool) => bytesOfNat (maskOf ((List.range x.bars.length).filter (fun n => p (x.bars.getD n {})))).toNat 4
  fit16 512 (w8 q.spc ++ q.lc.flatMap w4 ++ w4 q.vtile ++ w4 q.vacc ++ w4 q.win
    ++ [BitVec.ofNat 8 (4 * q.ownerW + q.ownerF), BitVec.ofNat 8 q.base, BitVec.ofNat 8 q.cnt, 0] ++ w4 (q.status)
    ++ bit (fun b => b.mem.contains .seq) ++ bit (fun b => b.arr.contains .seq) ++ zeros 4
    ++ q.tok.flatMap (fun t => bytesOfNat t.toNat 2))
  ++ (List.range q.cnt).flatMap (fun i =>
    let b := q.slots.getD i {}
    fit16 32 b.desc ++ w4 b.lcj ++ [BitVec.ofNat 8 i, BitVec.ofNat 8 b.fmt,
        if b.fmt = 0 then 0 else BitVec.ofNat 8 (b.k - 1 + 8 * (b.n - 1)),
        BitVec.ofNat 8 ((if b.desc.isEmpty then 0 else 1) + (if b.bad.isSome then 2 else 0))]
      ++ w4 (b.bad.getD 0) ++ zeros 4)

/-- Free bytes. DESIGN CHOICE (log 8). -/
def freeBytes (n k : Nat) : List Byte := (List.range k).map (fun i => Config.freeByte (n + i))

/-- An access processor of 21,248 bytes: queue entries as laid out; the rest is open (R428). -/
def apImage (x : Group) (fr a : Nat) : List Byte :=
  freeBytes fr 512 ++ (List.range 8).flatMap (fun h =>
    let es := (sgetD x.queues (8 * a + h) {}).entries
    freeBytes (fr + 512 + 32 * h) 32 ++ (List.range 16).flatMap (fun i => match es[i]? with
      | some e => (fit16 128 (e.2.flatMap (fun w => w4 w.val))) ++ fit16 32 (e.2.map tagByte)
      | none => zeros 160))

/-- A parked access (R499). -/
def State.parkImage (s : State) (p : ParkedFe) : List Byte :=
  let mode := (match p.op with
    | .read true _ => 1
    | .write _ => 2
    | _ => 0) + (if p.acq then 4 else 0) + (if p.rel then 8 else 0)
  let st := match p.op with
    | .write _ => true
    | _ => false
  bytesOfNat (s.spImage p.ig p.g p.off) 4 ++ [BitVec.ofNat 8 mode, BitVec.ofNat 8 p.lane, BitVec.ofNat 8 p.f, BitVec.ofNat 8 p.w,
    if st then 0xF8 else p.dest] ++ zeros 3 ++ (if st then w4 p.data else zeros 4) ++ zeros 16

/-- The fibres of a group that have an entry, by warp. -/
def imageFibres (x : Group) : List (Nat × Nat × Fibre) :=
  (x.warps.mapIdx (fun w y => (y.fibres.mapIdx (fun f z => (w, f, z))).filter (fun e => e.2.2.entry.isSome))).flatten

/-- The accesses recorded of a group, whichever member's scratchpad they stand in: in parking order, those that wait at a bank last (R262,
R428, R499). -/
def State.imageParks (s : State) (g : Nat) : List ParkedFe :=
  let mine := (s.parkedAll.filter (fun p => p.ig == g)).foldl (fun (m : Sparse ParkedFe) p => sput m p.id p) []
  let late := fun (p : ParkedFe) => atBank (s.coreAt (s.spCore p)).parked p
  (mine.map (fun e => e.2)).filter (fun p => !late p) ++ (mine.map (fun e => e.2)).filter late

/-- The commands withdrawn with a group: those that have started no request (R425). -/
def Cmd.withdraws (c : Cmd) (g : Nat) : Bool := c.g == g && c.cls != 4 && !c.started

/-- The parts of an image after its header. -/
def State.imageBody (s : State) (g fr : Nat) (x : Group) : List Byte :=
  let fs := imageFibres x
  let clean := !x.forced
  let parts := s.imageParks g
  let cs := s.cmds.filter (fun c => c.withdraws g)
  if x.retired then (List.range (x.spadBytes / 1024)).flatMap (spadImage x.spad) else
  x.warps.flatMap (fun w => (List.range x.regg).flatMap (granule w.regs))
    ++ fs.flatMap (fun e => fibreImage e.2.2 (clean && oneBoundary e.2.2))
    ++ fs.flatMap (fun e => e.2.2.quar.flatMap (s.quarImage g e.1 e.2.1))
    ++ x.bars.flatMap barImage
    ++ (List.range (x.spadBytes / 1024)).flatMap (spadImage x.spad)
    ++ (if x.nseq = 0 then [] else seqImage x)
    ++ (List.range x.aps.length).flatMap (fun a => apImage x (fr + 1024 * a) a)
    ++ (parts.filter (fun p => p.op.isFe)).flatMap s.parkImage
    ++ (cs.mapIdx (fun i c => freeBytes (fr + 4096 + 32 * i) 32 ++ fit16 256 c.desc)).flatten

/-- The image of a group (R428). -/
def State.imageOf (s : State) (g : Nat) : List Byte :=
  let x := s.groupAt g
  let fr := s.freeN
  let fs := imageFibres x
  let body := s.imageBody g fr x
  let fent := ((x.warps.headD {}).fibres.mapIdx (fun f y => if y.entry.isSome then 2 ^ f else 0)).foldl (· + ·) 0
  let qb := (fs.flatMap (fun e => e.2.2.quar.flatMap (s.quarImage g e.1 e.2.1))).length
  let cur := (x.warps.mapIdx (fun i w => (w.cur.getD 0) * 4 ^ i)).foldl (· + ·) 0
  let r := x.retired
  let n := fun (v k : Nat) => bytesOfNat (if r then 0 else v) k
  fit16 512 (bytesOfNat x.lsn 8 ++ bytesOfNat (512 + body.length) 8 ++ bytesOfNat x.gid.1 2 ++ bytesOfNat x.gid.2.1 2
    ++ bytesOfNat x.gid.2.2 2 ++ bytesOfNat (s.coreX x.core) 1 ++ bytesOfNat (s.coreY x.core) 1 ++ n x.warps.length 1 ++ n fent 1
    ++ bytesOfNat x.regg 2 ++ bytesOfNat (x.spadBytes / 1024) 2 ++ n x.nbar 1 ++ n x.nseq 1
    ++ n x.aps.length 1 ++ bytesOfNat x.member 1
    ++ n ((s.imageParks g).filter (fun p => p.op.isFe)).length 2 ++ n (s.cmds.filter (fun c => c.withdraws g)).length 2
    ++ n x.seq.cnt 1 ++ bytesOfNat (if x.forced then 1 else 0) 1 ++ n qb 4 ++ n cur 6 ++ zeros 2 ++ x.xv.flatMap w4) ++ body

end Sys2Proof.Machine
end

