-- ==== Sys2Proof/Machine/Restore.lean ====
section
/-! DEFINITION. Reading a group's image back (R428, R429, R431, R440, R497 to R499): each part that the manual lays out is taken from the
bytes in the save area; what it names without a layout is kept beside the image. DESIGN CHOICE (log 8). -/

namespace Sys2Proof.Machine

def part (bs : List Byte) (a n : Nat) : List Byte := (bs.drop a).take n
def wordOf (bs : List Byte) (a : Nat) : Word := BitVec.ofNat 32 (fld bs a 4)
def dwordOf (bs : List Byte) (a : Nat) : DWord := BitVec.ofNat 64 (fld bs a 8)
def bitOf (bs : List Byte) (a i : Nat) : Bool := (bs.getD (a + i / 8) 0).getLsbD (i % 8)

/-- Words of a register granule (R428). -/
def granuleWords (bs : List Byte) : List RegWord :=
  (List.range 512).map (fun i => { val := wordOf bs (4 * i), full := bitOf bs 2048 i, poison := bitOf bs 2112 i
                                   res := BitVec.ofNat 4 ((bs.getD (2176 + i / 2) 0).toNat / 16 ^ (i % 2)) })

/-- A word with its tag byte (R429). -/
def taggedWord (bs : List Byte) (a t : Nat) : RegWord :=
  { val := wordOf bs a, full := bitOf bs t 0, poison := bitOf bs t 1, res := BitVec.ofNat 4 ((bs.getD t 0).toNat / 16) }

/-- A warp's registers from its granules. -/
def readRegs (n : Nat) (bs : List Byte) : Sparse RegWord :=
  (List.range n).foldl (fun m k => ((List.range 512).zip (granuleWords (part bs (2432 * k) 2432))).foldl (fun m e =>
    ssetD m (512 * k + e.1) e.2 {}) m) []

/-- A lane's wait (R429, LWAIT). -/
def readWait (v : Word) : Wait :=
  match v.toNat / 32 % 4 with
  | 1 => .bar (v.toNat % 32) (BitVec.ofNat 16 (v.toNat / 65536))
  | 2 => .fbar
  | _ => .fbarSlot

/-- A cartouche record (R388). -/
def readCart (b : List Byte) : Cart :=
  { cause := b.getD 0 0, flags := b.getD 1 0, unit := b.getD 2 0, slot := b.getD 3 0, fibre := b.getD 4 0, cx := b.getD 5 0, cy := b.getD 6 0
    pc := dwordOf b 8, addr := dwordOf b 16, lanes := wordOf b 24, detail := wordOf b 28 }

/-- A lane as a fibre record gives it (R429). What a parked commit has decided of its lanes, and a repeat's progress, stand beside it. -/
def readLane (bs : List Byte) (l : Nat) (x : Lane) : Lane :=
  { x with
    pc := if bitOf bs 268 2 then (if bitOf bs 256 l then dwordOf bs 0 else x.pc) else dwordOf bs (8 * l)
    st := if !bitOf bs 256 l then x.st else if bitOf bs 260 l then .stranded (wordOf bs (736 + 4 * l))
      else if bitOf bs 264 l then .waiting (readWait (wordOf bs (608 + 4 * l))) else .active
    preds := (List.range 7).map (fun n =>
      { val := bitOf bs (304 + 8 * n) l
        bad := if bitOf bs (308 + 8 * n) l then some (wordOf bs (1536 + 128 * n + 4 * l)) else none }) }

/-- A fibre from its record (R429). -/
def readFibre (bs : List Byte) (x : Fibre) : Fibre :=
  let parked : Word := match x.park with
    | some p => p.lanes
    | none => 0
  { x with
    lanes := x.lanes.mapIdx (fun l y =>
      let z := readLane bs l y
      if parked.getLsbD l then { z with pc := y.pc, st := y.st } else z)
    fstat := wordOf bs 272, replays := fld bs 276 4, restart := dwordOf bs 280
    vvec := wordOf bs 288, vtile := wordOf bs 292, vacc := wordOf bs 296, win := wordOf bs 300
    uregs := (List.range 48).foldl (fun m n => ssetD m n (taggedWord bs (360 + 4 * n) (552 + n)) {}) []
    qmap := (List.range 8).map (fun n => fld bs (600 + n) 1)
    ring := (List.range 16).map (fun i => readCart (part bs (1024 + 32 * i) 32)) }

/-- Bytes of a quarantine entry (R428). -/
def QEntry.size (e : QEntry) : Nat :=
  match e.kind with
  | .stt => 640
  | .stac => 1088
  | _ => 576

/-- A quarantine entry from its bytes (R497); its virtual addresses stand beside them. -/
def readEntry (bs : List Byte) (e : QEntry) : QEntry :=
  let block := e.kind == .stt || e.kind == .stac
  let e := { e with ty := BitVec.ofNat 5 (fld bs 1 1), pc := dwordOf bs 16, pos := fld bs 48 1 }
  if block then
    { e with words := (List.range e.words.length).map (fun i => wordOf bs (64 + 4 * i)), rdpa := if e.kind == .stt then fld bs 40 8 else e.rdpa
             record := if e.kind == .stt then (List.range e.record.length).map (fun i => wordOf bs (576 + 4 * i)) else e.record
             bad := if bitOf bs 8 0 then some (wordOf bs 12) else none }
  else
    { e with parts := wordOf bs 4
             lanes := if e.kind == .stfe then e.lanes else e.lanes.map (fun q =>
               let a := 64 + 16 * q.lane
               if bitOf bs 8 q.lane then { q with bad := some (wordOf bs (a + 8)) }
               else { q with bad := none, data := BitVec.ofNat 64 (fld bs (a + 8) 8) }) }

/-- Entries one after another. -/
def readEntries : List QEntry → List Byte → List QEntry
  | [], _ => []
  | e :: r, bs => readEntry bs e :: readEntries r (bs.drop e.size)

/-- A barrier from its bytes; whether the sequencer is a member stands in the sequencer's part (R428, R498). -/
def readBar (bs : List Byte) (seqMem seqArr : Bool) : Barrier :=
  let v := fld bs 0 8
  let lanes := fun (a : Nat) => (List.range 24).flatMap (fun w => (List.range 4).flatMap (fun f =>
    ((List.range 32).filter (fun l => bitOf bs a (128 * w + 32 * f + l))).map (fun l => Member.lane w f l)))
  let fibs := fun (a : Nat) => (List.range 24).flatMap (fun w =>
    ((List.range 4).filter (fun f => bitOf bs a (4 * w + f))).map (fun f => Member.fibre w f))
  let seq := fun (b : Bool) => if b then [Member.seq] else []
  { exp := v % 2 ^ 16, cnt := v / 2 ^ 16 % 2 ^ 16, drop := v / 2 ^ 32 % 2 ^ 16, phase := BitVec.ofNat 16 (v / 2 ^ 48)
    mem := lanes 8 ++ fibs 776 ++ seq seqMem, arr := lanes 392 ++ fibs 788 ++ seq seqArr }

/-- Words of scratchpad from `n` KiB (R428). -/
def readSpad (n : Nat) (bs : List Byte) : Sparse SpadWord :=
  (List.range n).foldl (fun m k => (List.range 256).foldl (fun m i =>
    ssetD m (256 * k + i) { val := wordOf bs (1088 * k + 4 * i), full := bitOf bs (1088 * k + 1024) (2 * i)
                            poison := bitOf bs (1088 * k + 1024) (2 * i + 1) } {}) m) []

/-- A B-store slot from its entry (R498): its tiles are filled by replaying its BLD. -/
def readSlot (bs : List Byte) (b : BSlot) : BSlot :=
  let sh := fld bs 38 1
  let z := fld bs 37 1
  { b with fmt := z, k := if z = 0 then b.k else sh % 8 + 1, n := if z = 0 then b.n else sh / 8 + 1, lcj := wordOf bs 32
           desc := if bitOf bs 39 0 then part bs 0 32 else [], bad := if bitOf bs 39 1 then some (wordOf bs 40) else none }

/-- A sequencer from its part (R498). -/
def readSeq (bs : List Byte) (q : Seq) : Seq :=
  { q with spc := dwordOf bs 0, lc := (List.range 4).map (fun i => wordOf bs (8 + 4 * i)), vtile := wordOf bs 24, vacc := wordOf bs 28
           win := wordOf bs 32, ownerW := fld bs 36 1 / 4 % 32, ownerF := fld bs 36 1 % 4, cnt := fld bs 38 1, stat := wordOf bs 40
           tok := (List.range 32).map (fun i => BitVec.ofNat 16 (fld bs (56 + 2 * i) 2))
           slots := q.slots.mapIdx (fun i b => if i < q.cnt then readSlot (part bs (512 + 48 * i) 48) b else b) }

/-- Words of an access processor's queues (R428). -/
def readQueues (bs : List Byte) (a : Nat) (qs : Sparse HwQueue) : Sparse HwQueue :=
  qs.map (fun (e : Nat × HwQueue) => if e.1 / 8 ≠ a then e else
    (e.1, { entries := e.2.entries.mapIdx (fun i r =>
      let at_ := 512 + 2592 * (e.1 % 8) + 32 + 160 * i
      (r.1, (List.range r.2.length).map (fun l => taggedWord bs (at_ + 4 * l) (at_ + 128 + l)))) }))

/-- Where the parts of an image begin (R428). -/
structure Layout where
  regs : Nat := 512
  fibs : Nat
  quar : Nat
  bars : Nat
  spad : Nat
  seq : Nat
  aps : Nat
  parks : Nat
  cmds : Nat
  size : Nat

/-- The layout that a group header gives (R428). -/
def layoutOf (h : List Byte) : Layout :=
  let warps := fld h 24 1
  let f := ((List.range 4).filter (fun i => bitOf h 25 i)).length
  let fibs := 512 + warps * fld h 26 2 * 2432
  let quar := fibs + warps * f * 2560
  let bars := quar + fld h 40 4
  let spad := bars + fld h 30 1 * 832
  let seq := spad + fld h 28 2 * 1088
  let aps := seq + fld h 31 1 * (512 + 48 * fld h 38 1)
  let parks := aps + fld h 32 1 * 21248
  let cmds := parks + fld h 34 2 * 32
  { fibs := fibs, quar := quar, bars := bars, spad := spad, seq := seq, aps := aps, parks := parks, cmds := cmds
    size := cmds + fld h 36 2 * 288 }

/-- The fibre records' numbers: of each fibre with an entry, its place among them. -/
def fibreNo (x : Group) (w f : Nat) : Nat := ((imageFibres x).takeWhile (fun e => !(e.1 == w && e.2.1 == f))).length

/-- Quarantine bytes before a fibre's. -/
def quarBefore (x : Group) (w f : Nat) : Nat :=
  (((imageFibres x).takeWhile (fun e => !(e.1 == w && e.2.1 == f))).map (fun e => (e.2.2.quar.map QEntry.size).foldl (· + ·) 0)).foldl (· + ·) 0

/-- A group from its image (R431, step 1); of a retired one only the scratchpad was saved. -/
def readGroup (bs : List Byte) (x : Group) : Group :=
  let at_ := layoutOf (bs.take 512)
  let spad := readSpad (x.spadBytes / 1024) (bs.drop at_.spad)
  if x.retired then { x with spad := spad } else
  let q := bs.drop at_.seq
  let seq := if x.nseq = 0 then x.seq else readSeq q x.seq
  let on := fun (a n : Nat) => x.nseq != 0 && bitOf q a n
  { x with
    spad := spad, seq := seq
    xv := (List.range 8).map (fun i => wordOf bs (52 + 4 * i))
    warps := x.warps.mapIdx (fun w y =>
      { y with
        cur := y.cur.map (fun _ => fld bs 44 6 / 4 ^ w % 4)
        regs := readRegs x.regg (bs.drop (at_.regs + 2432 * x.regg * w))
        fibres := y.fibres.mapIdx (fun f z => if z.entry.isNone then z else
          { readFibre (bs.drop (at_.fibs + 2560 * fibreNo x w f)) z with
            quar := readEntries z.quar (bs.drop (at_.quar + quarBefore x w f)) }) })
    bars := (List.range x.bars.length).map (fun n => readBar (bs.drop (at_.bars + 832 * n)) (on 44 n) (on 48 n))
    queues := (List.range x.aps.length).foldl (fun qs a => readQueues (bs.drop (at_.aps + 21248 * a)) a qs) x.queues }

/-- A parked access from its record (R499): its destination's place, its execution and its producer stand beside it. -/
def readPark (bs : List Byte) (p : ParkedFe) : ParkedFe :=
  let m := fld bs 4 1
  { p with acq := bitOf bs 4 2, rel := bitOf bs 4 3, lane := fld bs 5 1, f := fld bs 6 1, w := fld bs 7 1
           dest := if m % 4 = 2 then p.dest else BitVec.ofNat 8 (fld bs 8 1), off := fld bs 0 4 % 2 ^ 24
           data := if m % 4 = 2 then wordOf bs 12 else p.data
           op := match p.op with
             | .read _ probe => .read (m % 4 == 1) probe
             | o => o }

/-- The accesses to be parked again (R431, step 4): full/empty ones from their records, in saved order. -/
def readParks : List ParkedFe → List Byte → List ParkedFe
  | [], _ => []
  | p :: r, bs => if p.op.isFe then readPark bs p :: readParks r (bs.drop 32) else p :: readParks r bs

/-- The commands to be accepted again, with their descriptors (R431, step 4). -/
def readCmds (cs : List Cmd) (bs : List Byte) : List Cmd :=
  cs.mapIdx (fun i c => { c with desc := part bs (288 * i + 32) c.desc.length })

/-- The bytes of a saved group's image; of a word in the poison state, or with an error, they are open. DESIGN CHOICE (log 8). -/
def State.imageBytes (s : State) (v : Saved) : List Byte :=
  (List.range v.size).map (fun i =>
    let w := s.coherent ((v.addr + i) / 4)
    if w.bad then Config.freeByte (s.freeN + i) else (bytesOfNat w.val.toNat 4).getD ((v.addr + i) % 4) 0)

/-- A saved group with what its image holds now (R431, R440). -/
def State.readSaved (s : State) (v : Saved) : Saved :=
  let bs := s.imageBytes v
  let at_ := layoutOf (bs.take 512)
  { v with group := readGroup bs v.group
           parked := if v.group.retired then v.parked else readParks v.parked (bs.drop at_.parks)
           cmds := if v.group.retired then v.cmds else readCmds v.cmds (bs.drop at_.cmds) }

end Sys2Proof.Machine
end

