-- ==== Sys2Proof/Machine/Preempt.lean ====
section
/-! DEFINITION. Pre-emption (R419 to R431): halting, saving and restoring groups, handing out freed space (R222), and the
retirement of groups (R223). -/

namespace Sys2Proof.Machine

/-! Halting (R421, R422). -/

/-- A fibre that needs no boundary: not started, ended, frozen, or parked in a replay (R421, R426). -/
def Fibre.needsNone (x : Fibre) : Bool := x.ended || x.park.isSome

/-- Whether a producer of a fibre still has words to come to its registers; an access processor's queue entries are not its (R421, R422). -/
def State.prodsOut (s : State) (g w f : Nat) : Bool := s.prods.any (fun p => p.g == g && p.w == w && p.f == f && p.kind != .copy)

/-- A clean boundary of a fibre (R421); one that waits in SYSC is not at one (R490). -/
def State.cleanAt (s : State) (g w f : Nat) : Bool :=
  let x := s.fibreAt g w f
  x.needsNone || (oneBoundary x && !s.prodsOut g w f && !s.parkedAll.any (fun p => p.of g w f) && x.quar.isEmpty
    && !s.sysc.any (fun r => r.g == g && r.w == w && r.f == f))

/-- Whether every fibre of a group has halted (R421). -/
def State.halted (s : State) (g : Nat) : Bool :=
  let x := s.groupAt g
  x.retired || (List.range x.warps.length).all (fun w =>
    (List.range (s.warpAt g w).fibres.length).all (fun f => s.cleanAt g w f))

/-- Whether a fibre's group lets it issue (R421, R422). -/
def State.mayIssue (s : State) (g w f : Nat) : Bool :=
  match (s.groupAt g).pre with
  | .none => true
  | .requested => !s.cleanAt g w f
  | _ => false

/-- FORCED_SAVE (R421): a group still not halted is stopped for a full save. -/
def forcedSave (g : Nat) (s : State) : State :=
  if (s.group? g).isSome && (s.groupAt g).pre == .requested && !s.halted g then
    s.modGroup g (fun x => { x with pre := .forced, forced := true })
  else s
/-- FORCED_SAVE (R421). -/
def execForcedSave (g : Nat) (s : State) : Host.Outcome State Fault Refusal := .next (forcedSave g s)

/-- A prefetch's arrival at its bound barrier (R273, R424). -/
def State.pftArrive (s : State) (p : Pft) : State :=
  match p.bar with
  | some n => s.doAct p.g 0 0 p.core 0 0 { kind := 2, caddr := 0, cval := 0, arg := n }
  | none => s

/-- PFT_CANCEL (R424): a bound prefetch of a pre-empted group is cancelled, and arrives. -/
def pftCancel (n : Nat) (s : State) : State :=
  match s.pfts.find? (fun p => p.id == n) with
  | none => s
  | some p =>
    if p.bar.isNone || (s.groupAt p.g).pre == .none then s else
    (({ s with pfts := s.pfts.filter (fun q => q.id != n) } : State).pftArrive p).wake
/-- PFT_CANCEL (R424). -/
def execPftCancel (n : Nat) (s : State) : Host.Outcome State Fault Refusal := .next (pftCancel n s)

/-! Triggers (R419, R420). -/

/-- The placed groups that satisfy a test and are not under pre-emption. -/
def State.groupsWhere (s : State) (p : Group → Bool) : List Nat :=
  (s.groups.filter (fun e => p e.2 && !e.2.freed && e.2.pre == .none)).map (·.1)

/-- DENUF_PREEMPT (R419). -/
def denufPreempt (t : PreTarget) (s : State) : State :=
  s.requestPre (s.groupsWhere (fun x => match t with
    | .ctx c => x.ctx == c
    | .launch n => x.lsn == n))
/-- DENUF_PREEMPT (R419). -/
def execDenufPreempt (t : PreTarget) (s : State) : Host.Outcome State Fault Refusal := .next (denufPreempt t s)

/-! Saving (R423 to R430). -/

/-- Whether a halted or forced group's work in flight is done (R423 to R425, R427, R430). -/
def State.saveReady (s : State) (g : Nat) : Bool :=
  let x := s.groupAt g
  let halt := match x.pre with
    | .forced => true
    | .requested => s.halted g
    | .saving => true
    | _ => false
  let parked := fun (p : Prod) (i : Item) => s.parkedAll.any (fun q => q.prod == some p.id && q.lane == i.lane && q.half == i.half)
  halt && x.seq.ops.isEmpty && !x.seq.slots.any (fun b => b.busy)
    && !s.pfts.any (fun p => p.g == g) && !s.cmds.any (fun c => c.g == g && c.cls == 0 && c.started)
    && s.prods.all (fun p => p.g != g || p.items.all (fun i => i.got.isNone && parked p i))
    && !s.pend.any (fun p => p.g == g) && (x.retired || !s.anyPending x.core)

/-- The room that a context's save area has left (R428). -/
def State.areaRoom (s : State) (c : Byte) (n : Nat) : Bool :=
  match s.ctx? c with
  | some x => (match x.cfg.saveArea with
    | some a => decide (max 256 x.saveTotal + n ≤ a.2)
    | none => false)
  | none => false

/-- Writes bytes at a device address, whose words take their place at their homes (R380, R428). DESIGN CHOICE (log 101). -/
def State.areaWrite (s : State) (c : Byte) (a : Nat) (bs : List Byte) : State :=
  s.putBytes c (a / 4) bs

/-- The header of a save area (R428). -/
def State.areaHeader (s : State) (c : Byte) : State :=
  match s.ctx? c with
  | none => s
  | some x => match x.cfg.saveArea with
    | none => s
    | some a => s.areaWrite c a.1.toNat (fit16 256 (bytesOfNat 0x31435853 4 ++ bytesOfNat 1 2 ++ bytesOfNat 256 2
        ++ bytesOfNat x.saveTotal 8 ++ bytesOfNat x.saveNgrp 4 ++ [c, BitVec.ofNat 8 s.first] ++ zeros 2 ++ bytesOfNat x.saveSeq 8
        ++ bytesOfNat a.2 8))

/-- Saves one group: its image is appended to the area, and it leaves its core with its parked accesses and withdrawn
commands (R425, R428). -/
def State.saveGroup (s : State) (g : Nat) : State :=
  let x := s.groupAt g
  let bytes := s.imageOf g
  match (s.ctx? x.ctx).bind (fun c => c.cfg.saveArea.map (fun a => a.1.toNat + c.saveTotal)) with
  | none => s
  | some a =>
    let s := { s with freeN := s.freeN + 1024 * (4 + s.cmds.length) }
    let s := s.areaWrite x.ctx a bytes
    let s := s.modCtx x.ctx (fun c => { c with saveTotal := c.saveTotal + bytes.length, saveNgrp := c.saveNgrp + 1 })
    let parks := s.imageParks g
    let cs := s.cmds.filter (fun c => c.withdraws g)
    let y : Group := if x.retired then { x with warps := [], regBase := [], bars := [], nbar := 0, nseq := 0, aps := [] } else x
    let v : Saved := { g := g, lsn := x.lsn, core := x.core, ctx := x.ctx, addr := a, size := bytes.length, group := y, cmds := cs
                       parked := parks, queued := [], done := false }
    let s := cs.foldl (fun s c => s.dropScore c.core c.id) s
    { s with saved := s.saved ++ [v], groups := sdel s.groups g, cmds := s.cmds.filter (fun c => !c.withdraws g)
             cores := s.cores.map (fun (c : Nat × Core) => (c.1, { c.2 with parked := c.2.parked.filter (fun p => p.ig != g) })) }

/-- Separates a fused position that no group of its launch stands on any more (R248, R427). -/
def State.unfuseIdle (s : State) (c : Nat) : State :=
  let cs := (s.coreAt c).fusedWith
  if cs.isEmpty || cs.any (fun c => !(s.groupsOn c).isEmpty) then s else s.unfuse cs

/-! Restoring (R431). -/

/-- Whether a launch's queue is bound to a slot (R432). -/
def State.queueBound (s : State) (l : Launch) : Bool := s.engine.slots.any (fun e => e.2.queue == l.queue)

/-- The saved groups of a saved group's set. -/
def State.savedSet (s : State) (v : Saved) : List Saved :=
  s.saved.filter (fun u => u.lsn == v.lsn && u.group.stage == v.group.stage && u.group.set == v.group.set)

/-- Whether a saved group is the earliest of its launch on its core (R222). -/
def State.firstSaved (s : State) (v : Saved) : Bool :=
  match s.saved.find? (fun u => u.lsn == v.lsn && u.core == v.core) with
  | some u => u.g == v.g
  | none => false

/-- Whether an image's headers are good: MAGIC, VER, and a GSIZE that agrees with the parts (R431). -/
def State.imageGood (s : State) (v : Saved) : Bool :=
  match (s.ctx? v.ctx).bind (fun c => c.cfg.saveArea) with
  | none => false
  | some a =>
    let h := s.coherentBytes a.1.toNat 6
    let z := s.coherentBytes v.addr 512
    !h.2 && !z.2 && fld h.1 0 4 == 0x31435853 && fld h.1 4 2 == 1 && fld z.1 8 8 == (layoutOf z.1).size

def Group.need (x : Group) : Need :=
  { warps := x.warps.length, regg := x.regg, spad := x.spadBytes / 1024, nbar := x.nbar, nseq := x.nseq, nap := x.aps.length }

/-- Applies a held delivery (R425, R431). -/
def State.applyHeld (s : State) (g : Nat) (a : Action) : State :=
  match a with
  | .arrive n => s.doAct g 0 0 (s.groupAt g).core 0 0 { kind := 2, caddr := 0, cval := 0, arg := n }
  | .full addr v => s.doAct g 0 0 (s.groupAt g).core 0 0 { kind := 3, caddr := 0, cval := v.toNat, arg := addr.toNat }
  | .store addr v bad => (match s.spResolve g addr 4 with
    | .ok g' off => s.setSp g' (off / 4) { s.spAt g' (off / 4) with val := v, poison := bad }
    | .fail _ _ => s)
  | .notify _ => s
  | .regWord d w => s.writeDest d w

/-- Fills again the B-store slots that had been loaded (R431, R498). -/
def State.replayBld (s : State) (g : Nat) : State :=
  (List.range (s.groupAt g).seq.slots.length).foldl (fun s i =>
    let q := (s.groupAt g).seq
    let b := q.slots.getD i {}
    if !q.granted || q.cnt ≤ i || b.desc.isEmpty || b.bad.isSome then s else
    let r := s.bldFill g q b.desc b.lcj
    r.2.modSeq g (fun q => { q with slots := q.slots.set i { r.1 with busy := false } })) s

/-- Restores one group from its image into its allocation (R431, steps 1 to 4, R440). -/
def State.restoreGroup (s : State) (u : Saved) (a : Fit) (base : Nat) : State :=
  let v := s.readSaved u
  let x := v.group
  let ws := x.warps.mapIdx (fun i w => { w with slot := a.slots.getD i 0, yields := [] })
  let x := { x with warps := ws, regBase := a.bases, spadBase := a.spad, pre := .restoring, forced := false
                    seq := { x.seq with base := base } }
  let s := { s with freeN := s.freeN + v.size, groups := sput s.groups v.g x, saved := s.saved.filter (fun u => u.g != v.g) }
  let s := s.modCore (s.agent v.core) (fun c => { c with l1 := c.l1.filter (fun e => e.2.st != .valid || e.2.ctx != v.ctx) })
  let s := s.replayBld v.g
  let s := v.cmds.foldl (fun s c =>
    let s := { s with cmds := s.cmds ++ [{ c with withdrawn := false, dispatched := false }] }
    s.takeScore c.core c.id v.ctx (c.cls == 0 && copyFew c.desc) (s.cmdRanges v.g c.cls c.desc)) s
  v.parked.foldl (fun s p => s.modCore (s.spCore p) (fun c => { c with parked := c.parked ++ [p] })) s

/-- A group whose image is bad fails its launch and counts as retired (R431). -/
def State.dropSaved (s : State) (v : Saved) : State :=
  let s := { s with saved := s.saved.filter (fun u => u.g != v.g), cmds := s.cmds.filter (fun c => c.g != v.g) }
  s.modLaunch v.lsn (fun l => { l with stages := modAt l.stages v.group.stage (fun st =>
    { st with failed := true, retired := if v.group.retired then st.retired else st.retired + 1 }) })

/-- Empties a save area whose images have all been restored or discarded (R428). -/
def State.areaEmpty (s : State) (c : Byte) : State :=
  if s.saved.any (fun v => v.ctx == c) then s
  else (s.modCtx c (fun x => { x with saveTotal := 256, saveNgrp := 0 })).areaHeader c

/-- B-store slots for a restored sequencer (R431). -/
def State.restoreBase (s : State) (v : Saved) : Option Nat :=
  if v.group.seq.granted then s.freeRun v.core v.group.seq.cnt else some 0

/-- Restores the set of a saved group where its turn has come and all of it fits; a bad image takes no resources; what has been held for its
groups is applied once all of them stand (R222, R425, R431). -/
def State.restoreSet (s : State) (v : Saved) : State :=
  match s.launch? v.lsn with
  | none => s
  | some l =>
    let set := s.savedSet v
    if !s.queueBound l || s.withheld l (set.map (fun u => u.core)) || !set.all (fun u => u.done && s.firstSaved u) then s else
    let bad := set.filter (fun u => !s.imageGood u)
    let good := set.filter s.imageGood
    let fuse := (l.stages.getD v.group.stage { record := {} }).record.flags % 2 == 1
    let fits := good.filterMap (fun u => match s.fit u.core u.group.need, s.restoreBase u with
      | some a, some b => if s.mayHost v.lsn fuse u.core then some (u, a, b) else none
      | _, _ => none)
    if fits.length < good.length then s else
    let s := bad.foldl (fun s u => s.dropSaved u) s
    let s := if fuse && !good.isEmpty then s.fuse v.lsn (good.map (fun u => u.core)) else s
    let s := fits.foldl (fun s e => s.restoreGroup e.1 e.2.1 e.2.2) s
    ((good.foldl (fun s u => u.queued.foldl (fun s q => s.applyHeld u.g q.2) s) s).areaEmpty v.ctx).wake

/-- RESTORE_COMPLETE (R431): the group's fibres become ready with AGE 0. -/
def restoreComplete (g : Nat) (s : State) : State :=
  if (s.group? g).isNone || (s.groupAt g).pre != .restoring then s else
  (s.modGroup g (fun x => { x with pre := .none, warps := x.warps.map (fun w =>
    mapFibres w (fun _ f => mapLanes f (fun l => { l with age := 0 }))) })).wake
/-- RESTORE_COMPLETE (R431). -/
def execRestoreComplete (g : Nat) (s : State) : Host.Outcome State Fault Refusal := .next (restoreComplete g s)

/-! Freed space (R222). -/

/-- Whether a position of a launch contains a core. -/
def State.holdsCore (s : State) (l : Launch) (c : Nat) (p : Nat × Nat) : Bool := (s.positionCores l p).contains c

/-- Places a launch's next unplaced set at its position that holds a core: whether it did. Where there is room but the set cannot be placed
yet, the launch makes its passes again. -/
def State.placeAt (s : State) (c : Nat) (l : Launch) : State × Bool :=
  match l.positions.find? (s.holdsCore l c) with
  | none => (s, false)
  | some p =>
    let r := (List.range l.stages.length).foldl (fun (acc : State × Bool) k =>
      if acc.2 then acc else acc.1.placeSet l.lsn k p) (s, false)
    if !r.2 && s.placeLater l p then (s.modLaunch l.lsn (fun l => { l with passed := false }), false) else r

/-- Gives one launch freed space on a core while it fits: its saved groups first, in the order they were saved; then its next unplaced sets
(R222, R431). DEDUCED (log 100): of freed space, a launch takes what it fits before another has its chance. -/
def State.giveCore (c lsn : Nat) : Nat → State → State
  | 0, s => s
  | n + 1, s => match s.launch? lsn with
    | none => s
    | some l => match s.saved.find? (fun v => v.lsn == lsn && v.core == c) with
      | some v => let t := s.restoreSet v
        if t.saved.length < s.saved.length then State.giveCore c lsn n t else s
      | none => let r := s.placeAt c l
        if r.2 then State.giveCore c lsn n r.1 else r.1

/-- Hands out freed space on some cores, in row-major order, by priority and then launch sequence number (R222); a core's 24 warp slots bound
what it can take. -/
def State.refill (s : State) (cs : List Nat) : State :=
  let s := s.reclaimSlots
  cs.foldl (fun s c => s.byPriority.foldl (fun s l => State.giveCore c l.lsn 49 s) s) s

/-- Whether a group of a context is still to be saved (R428). -/
def State.stillSaving (s : State) (c : Byte) : Bool :=
  s.groups.any (fun e => e.2.ctx == c && (match e.2.pre with
    | .none => false
    | .restoring => false
    | _ => true))

/-- A context's save ends once its last image is written: the area's header counts it, and the space it has freed is handed
out (R222, R428, R430). DEDUCED (log 100). -/
def State.saveEnd (s : State) (c : Byte) : State :=
  let mine := s.saved.filter (fun v => v.ctx == c && !v.done)
  if s.stillSaving c || mine.isEmpty then s else
  let s := { s with saved := s.saved.map (fun (v : Saved) => if v.ctx == c then { v with done := true } else v) }
  let s := (s.modCtx c (fun x => { x with saveSeq := x.saveSeq + 1 })).areaHeader c
  (s.refill ((List.range (s.width * s.height)).filter (fun c => mine.any (fun v => v.core == c)))).pressure

/-- RESTORE_START (R222, R431): the space on its core goes to those that wait for it, in their order. -/
def restoreStart (g : Nat) (s : State) : State :=
  match s.saved.find? (fun v => v.g == g) with
  | none => s
  | some v => (s.saveEnd v.ctx).refill [v.core]
/-- RESTORE_START (R431). -/
def execRestoreStart (g : Nat) (s : State) : Host.Outcome State Fault Refusal := .next (restoreStart g s)

/-- Whether a group of a set can be saved together with the others: it has halted and is not about to retire (R433), or is being saved. -/
def State.canSave (s : State) (g : Nat) : Bool :=
  !s.mayRetire g && match (s.groupAt g).pre with
  | .requested => s.halted g
  | .none => false
  | .restoring => false
  | _ => true

/-- The groups of a context whose images are being written. -/
def State.beingSaved (s : State) (c : Byte) : List Nat :=
  (s.groups.filter (fun e => e.2.ctx == c && (e.2.pre == .saving || e.2.pre == .saved))).map (fun e => e.1)

/-- Whether a set's images have room in the save area, beside those being written (R428): room is found once for the set. -/
def State.setFits (s : State) (g : Nat) : Bool :=
  let set := s.setOf g
  set.any (fun m => (s.groupAt m).pre == .saving || (s.groupAt m).pre == .saved)
    || s.areaRoom (s.groupAt g).ctx (((set ++ s.beingSaved (s.groupAt g).ctx).map (fun m => (s.imageOf m).length)).foldl (· + ·) 0)

/-- A set without room runs on, and so does its slot's binding; another victim is taken (R420, R428, R432). -/
def State.resumeSet (s : State) (g : Nat) : State :=
  let q := (s.launch? (s.groupAt g).lsn).map (fun l => l.queue)
  let s := (s.setOf g).foldl (fun s m => s.modGroup m (fun y => { y with pre := .none, forced := false })) s
  let s := s.modEngine (fun e => { e with slots := e.slots.map (fun x => (x.1, if some x.2.queue = q then { x.2 with reclaim := false } else x.2)) })
  (s.mgmtEvent.pressure).wake

/-- A group's save begins, and its commands that have not started are withdrawn (R430). -/
def State.beginSave (s : State) (g : Nat) : State :=
  let s := s.modGroup g (fun y => { y with pre := .saving })
  { s with cmds := s.cmds.map (fun c => if c.withdraws g then { c with withdrawn := true } else c) }

/-- SAVE_START (R428, R430): a set whose images would pass the capacity runs on instead. -/
def saveStart (g : Nat) (s : State) : State :=
  if (s.group? g).isNone || !s.saveReady g || (s.groupAt g).pre == .saving || !(s.setOf g).all s.canSave then s
  else if s.setFits g then s.beginSave g else s.resumeSet g
/-- SAVE_START (R430). -/
def execSaveStart (g : Nat) (s : State) : Host.Outcome State Fault Refusal := .next (saveStart g s)

/-- The images of a set whose groups are all written stand in the area, and its space is handed out (R428, R430). -/
def State.finishSave (s : State) (g : Nat) : State :=
  let set := s.setOf g
  let cs := set.map (fun m => (s.groupAt m).core)
  let c := (s.groupAt g).ctx
  let s := set.foldl (fun s m => s.saveGroup m) s
  let s := cs.foldl (fun s c => s.unfuseIdle c) s
  (s.saveEnd c).wake

/-- SAVE_COMPLETE (R428, R430): once the whole set is written, its images stand in the area; once the save has ended its
space is handed out. -/
def saveComplete (g : Nat) (s : State) : State :=
  if (s.group? g).isNone || (s.groupAt g).pre != .saving || !s.saveReady g then s else
  let s := s.modGroup g (fun x => { x with pre := .saved })
  if !(s.setOf g).all (fun m => (s.groupAt m).pre == .saved) then s else s.finishSave g
/-- SAVE_COMPLETE (R430). -/
def execSaveComplete (g : Nat) (s : State) : Host.Outcome State Fault Refusal := .next (saveComplete g s)

/-! Retirement (R223). -/

/-- Removes what a retired group leaves behind: its bindings and buffers (R477), its instruction ranges (R275). -/
def State.leaveGroup (s : State) (g : Nat) : State :=
  let x := s.groupAt g
  let bufs := s.ctxs.flatMap (fun c => c.posted.flatMap (fun q => q.2.filter (fun b => b.g == g)))
  let s := bufs.foldl (fun s b => s.dropScore b.core b.id) s
  let s := { s with ctxs := s.ctxs.map (fun (c : Ctx) => { c with
    notify := c.notify.filter (fun e => e.2.g != g)
    posted := (c.posted.map (fun (q : Nat × List PostBuf) => (q.1, q.2.filter (fun b => b.g != g)))).filter (fun q => !q.2.isEmpty) }) }
  x.ranges.foldl (fun s r => s.unpin g r) s

/-- Forgets groups whose space is free and that no engine work names. -/
def State.sweep (s : State) : State :=
  { s with groups := s.groups.filter (fun e => !e.2.freed || s.cmds.any (fun c => c.g == e.1) || s.xmsgs.any (fun m => m.g == e.1)
      || s.pend.any (fun p => p.g == e.1) || s.prods.any (fun p => p.g == e.1)) }

/-- A group's own part in its retiring (R223): what it still holds back is performed, its access processors end, and its
buffers, notifications and pins go. A request for its set still stands (R420). -/
def State.retireOwn (s : State) (g : Nat) : State :=
  let s := s.flush g
  let s := s.modGroup g (fun x => { x with retired := true, aps := x.aps.map (fun a => (a.1, if a.2.st == .running then { a.2 with st := .ended } else a.2)) })
  let x := s.groupAt g
  (s.leaveGroup g).modLaunch x.lsn (fun l =>
    { l with stages := modAt l.stages x.stage (fun st => { st with retired := st.retired + 1 }) })

/-- Whether every group of a group's set has retired, none of them saved away (R223, R430). -/
def State.setRetired (s : State) (g : Nat) : Bool :=
  let x := s.groupAt g
  (s.setOf g).all (fun m => (s.groupAt m).retired)
    && !s.saved.any (fun v => v.lsn == x.lsn && v.group.stage == x.stage && v.group.set == x.set)

/-- Hands out again the space of a set whose groups have retired (R223). -/
def State.freeSet (s : State) (g : Nat) : State :=
  let set := s.setOf g
  let cs := set.map (fun m => (s.groupAt m).core)
  let s := set.foldl (fun s m => s.modGroup m (fun y => { y with freed := true, pre := .none })) s
  let s := cs.foldl (fun s c => s.unfuseIdle c) s
  (s.sweep.refill cs).pressure

/-- GROUP_RETIRE (R163, R222, R223, R248): access processors still running stop; the space of a set is free once all of it
has retired. -/
def groupRetire (g : Nat) (s : State) : State :=
  if !s.mayRetire g then s else
  let s := s.retireOwn g
  (if s.setRetired g then s.freeSet g else s).wake
/-- GROUP_RETIRE (R223). -/
def execGroupRetire (g : Nat) (s : State) : Host.Outcome State Fault Refusal := .next (groupRetire g s)

end Sys2Proof.Machine
end

