-- ==== Sys2Proof/Machine/Launch.lean ====
section
/-! DEFINITION. The launch engine (R213 to R231): queues and slots, notifies, serving and accepting records, placement passes,
the end of a launch, pipelines. -/

namespace Sys2Proof.Machine

/-! Notifies (R215, R231). -/

/-- A notify of a queue (R215). DEDUCED (log 93). -/
def State.notifyQueue (s : State) (q : Nat) : State :=
  let bad := decide (s.engine.qtcnt.toNat ≤ q) || (match s.queueDesc q with
    | some d => !qEn d
    | none => false)
  if bad then (s.lestatSet lsQERR q).mgmtEvent else
  match s.engine.slots.find? (fun e => e.2.queue == q) with
  | some (k, x) => s.slotPut k { x with raised := true }
  | none =>
    match firstBelow 63 (fun k => (sget s.engine.slots k).isNone) with
    | some k => s.bindSlot k q
    | none =>
      match firstBelow 63 (fun k => match sget s.engine.slots k with
        | some x => !x.raised && !s.queueBusy x.queue
        | none => false) with
      | some k => s.bindSlot k q
      | none => ((s.pendSet q true).lestatSet lsPEND q).mgmtEvent

/-- QNOTIFY (R215, R231): a nonzero reserved bit ignores the write. -/
def qnotify (v : Word) (s : State) : State :=
  if v.toNat / 4096 ≠ 0 then s.modEngine (fun e => { e with lestat := e.lestat ||| lsQERR }) else s.notifyQueue v.toNat
/-- QNOTIFY (R215). -/
def execQnotify (v : Word) (s : State) : Host.Outcome State Fault Refusal := .next (qnotify v s)

/-! Choosing a record (R216 to R218). -/

/-- Whether the engine may accept a record at all (R217). -/
def State.mayAccept (s : State) : Bool := s.engine.lectl.getLsbD 0 && !s.engine.lectl.getLsbD 1 && decide (s.engine.launches.length < 64)

/-- A queue in error: EN is cleared, the slot unbound, QERR set (R216). -/
def State.queueError (s : State) (k q : Nat) : State :=
  let s := match s.engineGet s.engineCtx (s.engine.qtbase.toNat + 64 * q + 8) 4 with
    | some b => s.enginePut s.engineCtx (s.engine.qtbase.toNat + 64 * q + 8) (BitVec.ofNat 32 (natOfBytes b) &&& 0xFFFEFFFF)
    | none => s
  ((s.freeSlot k).lestatSet lsQERR q).mgmtEvent

/-- The next command rewritten as a kernel that waits in slot 63 (R215, R318). -/
def State.kernelNext (s : State) : Option Cmd := s.cmds.find? (fun c => c.kernel && !c.started && c.lsn.isNone)

/-- What stands in the place of slot 63's descriptor: PRIO 3, EN and OVL set, the context of the next kernel, and one record while there is
one (R213, R318). -/
def State.kernelDesc (s : State) : List Byte :=
  match s.kernelNext with
  | some c => zeros 9 ++ [3, 3, (s.groupAt c.g).ctx] ++ zeros 4 ++ bytesOfNat 1 8 ++ zeros 40
  | none => zeros 9 ++ [3, 3, 0] ++ zeros 52

/-- The descriptor of a slot's queue. -/
def State.slotDesc (s : State) (k : Nat) (x : Slot) : Option (List Byte) := if k = 63 then some s.kernelDesc else s.queueDesc x.queue

/-- Considers an eligible slot (R216). -/
def State.consider (s : State) (k : Nat) : State :=
  match sget s.engine.slots k with
  | none => s
  | some x =>
    if !x.raised then s else
    let idle := fun (_ : Unit) =>
      let s := s.slotPut k { x with raised := false, waited := 0 }
      if s.queueBusy x.queue then s else s.freeSlot k
    match s.slotDesc k x with
    | none => s.queueError k x.queue
    | some d =>
      if qBad d then s.queueError k x.queue
      else if !qEn d || qCount d = 0 then idle ()
      else if 2 ^ fld d 8 1 < qCount d then s.queueError k x.queue
      else s

/-- The descriptor of a slot whose head record may be accepted (R217). -/
def State.headOf (s : State) (k : Nat) : Option (List Byte) :=
  match sget s.engine.slots k with
  | none => none
  | some x => if !x.raised then none else
    match s.slotDesc k x with
    | none => none
    | some d =>
      let mine := s.engine.launches.filter (fun l => l.queue == x.queue)
      let ordered := match mine.getLast? with
        | none => true
        | some l => qOvl d && !l.unplaced
      let revoked := x.reclaim || match s.ctx? (BitVec.ofNat 8 (fld d 11 1)) with
        | some _ => !s.ctxOn (BitVec.ofNat 8 (fld d 11 1))
        | none => false
      if qBad d || !qEn d || revoked || qCount d = 0 || decide (2 ^ fld d 8 1 < qCount d) || !ordered then none else some d

/-- A slot's effective priority (R218). -/
def State.effective (s : State) (k : Nat) (d : List Byte) : Nat :=
  match sget s.engine.slots k with
  | some x => min 3 (qPrio d + x.waited)
  | none => 0

/-- The slot to serve, with its level (R218): that of highest effective priority, the next after the one last served at that
level. -/
def State.slotPick (s : State) : Option (Nat × Nat) :=
  let can := (List.range 64).filterMap (fun k => (s.headOf k).map (fun d => (k, s.effective k d)))
  let top := can.foldl (fun m e => max m e.2) 0
  let last := s.engine.served.getD top 63
  let mine := (can.filter (fun e => e.2 == top)).map (fun e => e.1)
  ((mine.find? (fun k => decide (last < k))).or mine.head?).map (fun k => (k, top))

/-- Chooses a slot, and remembers that it was served at its level. -/
def State.serve (s : State) : State :=
  match s.slotPick with
  | none => s
  | some (k, top) => s.modEngine (fun e => { e with chosen := some k, served := e.served.set top k })

/-- The wait of a head record that may not be accepted begins anew (R218). -/
def State.settleAges (s : State) : State :=
  s.modEngine (fun e => { e with slots := e.slots.map (fun x =>
    (x.1, if s.mayAccept && (s.headOf x.1).isSome then x.2 else { x.2 with waited := 0 })) })

/-- SLOT_SERVE (R216, R218, R420). -/
def slotServe (s : State) : State :=
  if !s.mayAccept then s else ((List.range 64).foldl (fun s k => s.consider k) s).settleAges.serve.pressure
/-- SLOT_SERVE (R218). -/
def execSlotServe (s : State) : Host.Outcome State Fault Refusal := .next (slotServe s)

/-- Slots whose head records wait for acceptance (R218). -/
def State.waiting (s : State) : List Nat := (s.engine.slots.map (fun e => e.1)).filter (fun k => s.mayAccept && (s.headOf k).isSome)

/-- The head record of a slot has waited one period more (R218). -/
def State.older (s : State) (k : Nat) : State :=
  match sget s.engine.slots k with
  | some x => s.slotPut k { x with waited := x.waited + 1 }
  | none => s

/-- AGEPER_EXPIRY (R218): the head record of a slot has waited one full period more since it became acceptable. Each slot has its own
period, and which of several ends is open. DEDUCED (log 97). -/
def ageperExpiry (s : State) : State :=
  if s.engine.ageper.toNat % 65536 = 0 then s else
  let s := s.settleAges
  match s.waiting with
  | [] => s
  | [k] => s.older k
  | ks => let (n, s) := s.fresh
    s.older (ks.getD (Config.freeCount n % ks.length) 0)
/-- AGEPER_EXPIRY (R218). -/
def execAgeperExpiry (s : State) : Host.Outcome State Fault Refusal := .next (ageperExpiry s)

/-! Acceptance (R219, R225). -/

/-- The edges of a pipeline; none where the table cannot be read or an edge is malformed (R225). -/
def State.readEdges (s : State) (c : Byte) (va n : Nat) : Option (List (Nat × Nat × Nat × Bool)) :=
  match s.engineGet c va (32 * n) with
  | none => none
  | some b =>
    let es := (List.range n).map (fun k => (b.drop (32 * k)).take 32)
    let bad := fun (e : List Byte) =>
      let whole := fld e 20 1 % 2 == 1
      fld e 16 4 == 0 || decide (65535 < fld e 16 4) || fld e 20 1 / 2 != 0 || !isZero e 21 11 || (whole && fld e 16 4 != 1)
    if es.any bad then none else some (es.map (fun e => (fld e 0 8, fld e 8 8, fld e 16 4, fld e 20 1 % 2 == 1)))

/-- A stage record with the PIPE record's rectangle in place of its own, and no cluster shape (R225). DEDUCED (log 96). -/
def stageRaw (pipe raw : List Byte) : List Byte := raw.take 48 ++ (pipe.drop 48).take 4 ++ [1, 1] ++ raw.drop 54

/-- The stages of a pipeline; none where one cannot be read, is not of kind KERNEL, or fails R219. -/
def State.readStages (s : State) (c : Byte) (pipe : List Byte) : Nat → Option (List Stage)
  | 0 => some []
  | n + 1 => match s.readStages c pipe n, s.engineGet c (fld pipe 0 8 + 128 * n) 128 with
    | some r, some raw =>
      if (recordOf raw).kind ≠ 0 then none else
      (match s.kernelCheck c (stageRaw pipe raw) with
      | .inl _ => none
      | .inr st => some (r ++ [st]))
    | _, _ => none

/-- Checks a record (R219): the reason it is rejected, or its stages and edges. DEDUCED (log 94). -/
def State.checkRecord (s : State) (c : Byte) (raw : List Byte) : Nat ⊕ (List Stage × List (Nat × Nat × Nat × Bool)) :=
  let r := recordOf raw
  if r.kind ≠ 1 then
    (match s.kernelCheck c raw with
    | .inl n => .inl n
    | .inr st => .inr ([st], []))
  else if s.rectBad r then .inl 1
  else if clusterBad r then .inl 2
  else if recordBad raw then .inl 3
  else if r.nstage = 0 || 8 < r.nstage then .inl 6
  else match s.readStages c raw r.nstage, s.readEdges c r.edges (r.nstage - 1) with
    | some st, some es => .inr (st, es)
    | _, _ => .inl 6

/-- Takes the head record of a queue (R217): the launch takes the next sequence number, and the queue's read index moves. -/
def State.takeRecord (s : State) (k : Nat) (d : List Byte) (x : Slot) : State :=
  let s := s.slotPut k { x with waited := 0 }
  let s := s.modEngine (fun e => { e with lsnnext := e.lsnnext + 1 })
  s.enginePuts s.engineCtx (s.engine.qtbase.toNat + 64 * x.queue + 24) (bytesOfNat (fld d 24 8 + 1) 8)

/-- A launch whose record has been read (R219, R227, R296): rejected with its reason, or its cores made ready for it. -/
def State.enterLaunch (s : State) (l : Launch) (raw : List Byte) : State :=
  match s.checkRecord l.ctx raw with
  | .inl n => s.modEngine (fun e => { e with launches := e.launches ++ [{ l with reason := n }] })
  | .inr (st, es) =>
    let r := l.record
    let cs := s.rectCores r.x0 r.y0 r.w r.h
    let l := { l with stages := st, edges := es, stageOf := (List.range (r.w * r.h)).map (fun i => i % max 1 st.length) }
    let s := cs.foldl (fun s c => s.acquire c) s
    s.modEngine (fun e => { e with launches := e.launches ++ [l] })

/-- Enters the record that a queue's head was (R216, R219): its context or its words may be missing. -/
def State.enterRecord (s : State) (k : Nat) (d : List Byte) (x : Slot) (ep lsn : Nat) : State :=
  let c := BitVec.ofNat 8 (fld d 11 1)
  match s.ctx? c, s.engineGet c ((fld d 0 8 + 128 * (fld d 24 8 % 2 ^ fld d 8 1)) % 2 ^ 64) 128 with
  | some _, some raw =>
    s.enterLaunch { lsn := lsn, queue := x.queue, slot := k, ctx := c, prio := ep, qprio := qPrio d, record := recordOf raw, stages := [] } raw
  | _, _ => (s.lestatSet lsQERR x.queue).mgmtEvent

/-- Launches a command rewritten as a kernel, which begins its transfer (R318). DESIGN CHOICE (log 31): the kernel's own groups are not
modelled; its launch does what the engine would. -/
def State.enterKernel (s : State) (x : Slot) (ep lsn : Nat) : State :=
  match s.kernelNext with
  | none => s
  | some c =>
    let l : Launch := { lsn := lsn, queue := x.queue, slot := 63, ctx := (s.groupAt c.g).ctx, prio := ep, qprio := 3, record := {}
                        stages := [], passed := true }
    let s := s.modEngine (fun e => { e with lsnnext := e.lsnnext + 1, launches := e.launches ++ [l]
                                            slots := sput e.slots 63 { x with waited := 0 } })
    s.openCmd { c with lsn := some lsn }

/-- RECORD_ACCEPT (R217, R219, R227, R296, R318). -/
def recordAccept (k : Nat) (s : State) : State :=
  if s.engine.chosen ≠ some k then s else
  let s := s.modEngine (fun e => { e with chosen := none })
  match (if s.mayAccept then s.headOf k else none), sget s.engine.slots k with
  | some d, some x =>
    if k = 63 then (s.enterKernel x (s.effective k d) s.engine.lsnnext).settleAges
    else ((s.takeRecord k d x).enterRecord k d x (s.effective k d) s.engine.lsnnext).settleAges
  | _, _ => s
/-- RECORD_ACCEPT (R219). -/
def execRecordAccept (slot : Nat) (s : State) : Host.Outcome State Fault Refusal := .next (recordAccept slot s)

/-- PLACEMENT_PASS (R221, R226): one pass; a launch's passes end with the first that places nothing for want of room, a pipeline's go on.
DEDUCED (log 98). -/
def placementPass (lsn : Nat) (s : State) : State :=
  match s.launch? lsn with
  | none => s
  | some l =>
    if l.reason ≠ 0 || (l.passed && l.record.kind ≠ 1) then s else
    let r := s.pass l
    if r.2 then r.1.wake else if l.positions.any (s.placeLater l) then s
    else (r.1.modLaunch lsn (fun l => { l with passed := true })).pressure
/-- PLACEMENT_PASS (R221). -/
def execPlacementPass (lsn : Nat) (s : State) : Host.Outcome State Fault Refusal := .next (placementPass lsn s)

/-- The launch that a slot's head record would be, where it may be accepted and is not rejected. -/
def State.headLaunch (s : State) (k : Nat) : Option Launch :=
  match (if s.mayAccept && k != 63 then s.headOf k else none) with
  | none => none
  | some d =>
    let c := BitVec.ofNat 8 (fld d 11 1)
    (s.engineGet c ((fld d 0 8 + 128 * (fld d 24 8 % 2 ^ fld d 8 1)) % 2 ^ 64) 128).bind (fun raw =>
      ((s.checkRecord c raw).getRight?).map (fun st =>
        let r := recordOf raw
        { lsn := 0, queue := 0, slot := k, ctx := c, prio := 0, record := r, stages := st.1, edges := st.2
          stageOf := (List.range (r.w * r.h)).map (fun i => i % max 1 st.1.length) }))

/-- Whether a record of another context can place no group: one accepted, or one that may be (R419). -/
def State.otherWaits (s : State) (ctx : Byte) : Bool :=
  (s.engine.launches ++ (s.engine.slots.map (fun e => e.1)).filterMap s.headLaunch).any (fun l =>
    l.ctx != ctx && l.unplaced && l.stages.all (fun st => st.placed == 0) && !s.roomFor l)

/-- TIME_SLICE_EXPIRY (R419, R420): while a record of another context can place no group. -/
def timeSliceExpiry (ctx : Byte) (s : State) : State :=
  if !s.otherWaits ctx then s else
  s.requestPre (s.groupsWhere (fun x => x.ctx == ctx && (match s.launch? x.lsn with
    | some l => decide (l.qprio < 3) && l.slot != 63
    | none => true)))
/-- TIME_SLICE_EXPIRY (R419). -/
def execTimeSliceExpiry (ctx : Byte) (s : State) : Host.Outcome State Fault Refusal := .next (timeSliceExpiry ctx s)

/-! The end of a launch (R224, R228). -/

/-- The 1,024 bytes of a status area (R224). -/
def statusArea (lsn state reason retired nfrozen : Nat) (fz : Option (List Byte × DWord × Word)) (ncart : Nat)
    (carts : List Cart) : List Byte :=
  let z := match fz with
    | some (at_, pc, w) => fit16 8 at_ ++ w8 pc ++ w4 w
    | none => zeros 20
  fit16 1024 (bytesOfNat lsn 8 ++ bytesOfNat state 4 ++ bytesOfNat reason 4 ++ bytesOfNat retired 4 ++ bytesOfNat nfrozen 4 ++ z
    ++ zeros 20 ++ bytesOfNat ncart 8 ++ zeros 56 ++ (carts.take 28).flatMap Cart.bytes)

/-- Writes a launch's or a stage's status, signal and action (R224, steps 2 to 4); what cannot be written raises a management interrupt
that names the launch, the step whose write it was, and the cause. DEDUCED (log 99). -/
def State.endRecord (s : State) (c : Byte) (lsn : Nat) (r : Record) (status : List Byte) : State :=
  let s := if r.status = 0 then s else s.enginePuts c r.status status
  let try_ := fun (s : State) (o : State ⊕ Nat) (w : Nat) => match o with
    | .inl t => t
    | .inr cause => s.mgmtReport [lsn, w, cause]
  let s := if r.signal = 0 then s else try_ s (s.engine64 c r.signal (fun _ => lsn)) 3
  if r.act = 1 then try_ s (s.engine64 c r.aaddr (fun v => (v + r.aval) % 2 ^ 64)) 4
  else if r.act = 2 then s.notifyQueue r.aqueue
  else s

/-- The status areas of a stage, and of a launch over all its stages (R224, R228). -/
def Stage.area (st : Stage) (lsn state : Nat) : List Byte := statusArea lsn state 0 st.retired st.nfrozen st.firstFz st.ncart st.carts
def Launch.area (l : Launch) (state : Nat) : List Byte :=
  let sum := fun (f : Stage → Nat) => (l.stages.map f).foldl (· + ·) 0
  statusArea l.lsn state l.reason (sum (fun st => st.retired)) (sum (fun st => st.nfrozen)) l.firstFz (sum (fun st => st.ncart)) l.carts

/-- Ends a stage (R226, R228): a WHOLE edge after it counts one item. -/
def State.endStage (s : State) (l : Launch) (k : Nat) (st : Stage) : State :=
  let s := s.modLaunch l.lsn (fun l => { l with stages := modAt l.stages k (fun x => { x with ended := true }) })
  let s := s.endRecord l.ctx l.lsn st.record (st.area l.lsn (if st.failed then 1 else 0))
  match (if l.record.kind = 1 then l.edges[k]? else none) with
  | some e => if e.2.2.2 then ((s.engine64 l.ctx e.1 (fun v => (v + 1) % 2 ^ 64)).getLeft?).getD s else s
  | none => s

/-- The end of a PIPE record, or of a rejected one (R219, R228). -/
def State.endWhole (s : State) (l : Launch) : State :=
  s.endRecord l.ctx l.lsn l.record (l.area (if l.reason ≠ 0 then 2 else if l.stages.any (fun st => st.failed) then 1 else 0))

def State.dropLaunch (s : State) (lsn : Nat) : State :=
  s.modEngine (fun e => { e with launches := e.launches.filter (fun l => l.lsn != lsn) })

/-- A stage of a launch whose groups have all retired and that has not ended (R224, R228). -/
def Launch.due (l : Launch) : Option Nat :=
  (List.range l.stages.length).find? (fun k => match l.stages[k]? with
    | some st => !st.ended && st.retired == st.total
    | none => false)

/-- Ends a stage, the registrations of its cores drained; with the last stage the launch ends. -/
def State.endDue (s : State) (l : Launch) (k : Nat) : State :=
  let s := l.cores.foldl (fun s c => s.drainL1 c) s
  let s := s.endStage l k (l.stages.getD k { record := {} })
  match s.launch? l.lsn with
  | none => s
  | some m =>
    if !m.stages.all (fun st => st.ended) then s else
    let s := s.dropLaunch l.lsn
    (if m.record.kind = 1 then s.endWhole m else s).sweep

/-- LAUNCH_END (R224, R228): once the registrations of its cores are drained, a launch, or a stage, whose groups have all
retired ends. -/
def launchEnd (lsn : Nat) (s : State) : State :=
  match s.launch? lsn with
  | none => s
  | some l =>
    if l.reason ≠ 0 then (s.dropLaunch lsn).endWhole l else
    match l.due with
    | none => s
    | some k => if !l.cores.all s.l1Quiet then s else s.endDue l k
/-- LAUNCH_END (R224). -/
def execLaunchEnd (lsn : Nat) (s : State) : Host.Outcome State Fault Refusal := .next (launchEnd lsn s)

/-! Rebalancing (R227). -/

/-- Four times the product of the depths: a common denominator of the needs. -/
def needScale (es : List (Nat × Nat × Nat × Bool)) : Nat := 4 * (es.map (fun e => max 1 e.2.2.1)).foldl (· * ·) 1

/-- A stage's need, scaled; none is −∞. -/
def needOf (l : Launch) (fills : List Nat) (k : Nat) : Option Int :=
  let d := needScale l.edges
  let fill := fun (i : Nat) => let dep := (l.edges.getD i (0, 0, 1, false)).2.2.1; (min (fills.getD i 0) dep * (d / dep) : Nat)
  let st := l.stages.getD k { record := {} }
  if l.sets st ≤ st.next then none else
  let inn : Int := if k = 0 then (d / 2 : Nat) else (fill (k - 1) : Nat)
  let out : Int := if k + 1 = l.stages.length then 0 else (fill k : Nat)
  some (inn - out)

/-- The cores of a stage, as numbers in the rectangle. -/
def Launch.coresOf (l : Launch) (k : Nat) : List Nat := (List.range l.stageOf.length).filter (fun i => l.stageOf.getD i 0 == k)

/-- Moves one core of a pipeline from its donor to its receiver (R227). -/
def rebalance (l : Launch) (fills : List Nat) : Launch :=
  let ks := List.range l.stages.length
  let need := needOf l fills
  let less := fun (a b : Option Int) => match a, b with
    | none, some _ => true
    | some x, some y => decide (x < y)
    | _, _ => false
  let recv := ks.foldl (fun m k => if less (need m) (need k) then k else m) 0
  let donor := ks.foldl (fun m k => if less (need m) (need k) then m else k) 0
  let far := match need recv, need donor with
    | some a, some b => decide ((needScale l.edges : Int) ≤ 4 * (a - b))
    | some _, none => true
    | _, _ => false
  let mine := l.coresOf donor
  if recv = donor || (need recv).isNone || !far || mine.isEmpty || (mine.length < 2 && (need donor).isSome) then l
  else { l with stageOf := l.stageOf.set (mine.getLast?.getD 0) recv }

/-- A pipeline whose edges can be read moves one core (R227); any other launch is as it was. -/
def State.rebalanced (s : State) (l : Launch) : Launch :=
  let fills := l.edges.map (s.edgeFill l.ctx)
  if l.record.kind ≠ 1 || l.reason ≠ 0 || fills.any (fun f => f.isNone) then l else rebalance l (fills.map (fun f => f.getD 0))

/-- REBAL_EXPIRY (R227). -/
def rebalExpiry (s : State) : State :=
  if s.engine.rebal.toNat % 65536 = 0 then s else
  s.modEngine (fun e => { e with launches := e.launches.map s.rebalanced })
/-- REBAL_EXPIRY (R227). -/
def execRebalExpiry (s : State) : Host.Outcome State Fault Refusal := .next (rebalExpiry s)

/-! Registers (R230, R438). -/

/-- LECTL_EN (R230, R438): while the partition is blocked, EN is not set. -/
def lectlEn (b : Bool) (s : State) : State :=
  if b && s.scrub.ctl.getLsbD 1 then s
  else (s.modEngine (fun e => { e with lectl := if b then e.lectl ||| 1 else e.lectl &&& 0xFFFFFFFE })).settleAges
/-- LECTL_EN (R230). -/
def execLectlEn (b : Bool) (s : State) : Host.Outcome State Fault Refusal := .next (lectlEn b s)

/-- LECTL_PAUSE (R230). -/
def lectlPause (b : Bool) (s : State) : State :=
  (s.modEngine (fun e => { e with lectl := if b then e.lectl ||| 2 else e.lectl &&& 0xFFFFFFFD })).settleAges
/-- LECTL_PAUSE (R230). -/
def execLectlPause (b : Bool) (s : State) : Host.Outcome State Fault Refusal := .next (lectlPause b s)

/-- LESTAT (R230): ones clear QERR and PEND. -/
def lestat (v : Word) (s : State) : State :=
  s.modEngine (fun e => { e with lestat := e.lestat &&& ~~~(v &&& (lsQERR ||| lsPEND)) })
/-- LESTAT (R230). -/
def execLestat (v : Word) (s : State) : Host.Outcome State Fault Refusal := .next (lestat v s)

/-- SLOT_RECLAIM (R432): Denuf pre-empts the launches of a slot of lower priority; once every one is saved the slot is unbound. -/
def slotReclaim (slot : Nat) (s : State) : State :=
  match sget s.engine.slots slot, s.pendBest with
  | some x, some (_, p) =>
    let ls := s.engine.launches.filter (fun l => l.queue == x.queue)
    if slot = 63 || p ≤ s.queueRank x.queue || ls.any (fun l => decide (3 ≤ l.qprio) || l.slot == 63) then s else
    let gs := (s.groups.filter (fun e => !e.2.freed && ls.any (fun l => l.lsn == e.2.lsn))).map (·.1)
    if gs.isEmpty then s.freeSlot slot else
    let s := if gs.all (fun g => s.hasArea (s.groupAt g).ctx) then s.slotPut slot { x with reclaim := true } else s
    s.requestPre (gs.filter (fun g => (s.groupAt g).pre == .none))
  | _, _ => s
/-- SLOT_RECLAIM (R432). -/
def execSlotReclaim (slot : Nat) (s : State) : Host.Outcome State Fault Refusal := .next (slotReclaim slot s)

end Sys2Proof.Machine
end

