-- ==== Sys2Proof/Machine/Coherence.lean ====
section
/-! DEFINITION. The ownership registry (R249 to R252, R293, R443, R448 to R453): messages between cores and homes, and what
each does where it arrives. -/

namespace Sys2Proof.Machine

/-! Arrival (R443). -/

/-- The slice that is a line's home (R249). -/
def lineSlice (line : Nat) : Nat := dpaSlice (128 * line)

/-! The links between dies (R442, R443, R456). Dies are numbered 0 to 11 the slices' own compute dies, 12 the spare, 13 to 18 the hub dies; their
boundaries 0 to 11 from a compute die to its hub die, 12 to 16 between hub dies, 17 and 18 from the spare. DESIGN CHOICE (log 146): the
manual gives no numbers. -/

/-- The two dies that a boundary joins (R442). -/
def boundaryJoins (b : Nat) : Option (Nat × Nat) :=
  if b < 12 then some (b, 13 + b % 6)
  else if b < 17 then some (b + 1, b + 2)
  else if b < 19 then some (12, b - 2)
  else none

/-- The link of the compute die that serves a slice: its own, or the spare's to hub die 2 or 3 (R456, step 3). -/
def State.linkOf (s : State) (slice : Nat) : Nat :=
  if s.dieMap.getD slice slice = 12 then (if slice % 6 ≤ 2 then 17 else 18) else slice

/-- The slice whose compute die a link serves; none for a link between hub dies. -/
def State.linkSlice (s : State) (b : Nat) : Option Nat := firstBelow 12 (fun k => s.linkOf k == b)

/-- The hub die at the end of a compute die's link. -/
def linkEnd (b : Nat) : Nat := ((boundaryJoins b).getD (0, 13)).2 - 13

/-- The boundaries from one hub die to another: hub dies h and h + 1 are joined. -/
def hubLinks (a b : Nat) : List Nat := (List.range (max a b - min a b)).map (fun i => 12 + min a b + i)

/-- The boundaries that a message crosses, on its one route: from its core's die to its home's hub die, or to the die of the core that sends it data
(R443). -/
def State.routeOf (s : State) (m : Msg) : List Nat :=
  let near := s.linkOf (s.sliceOf m.core)
  match m.src with
  | none => near :: hubLinks (linkEnd near) (lineSlice m.line % 6)
  | some c =>
    let far := s.linkOf (s.sliceOf c)
    if near = far then [] else near :: far :: hubLinks (linkEnd near) (linkEnd far)

/-! Arrival, in order (R443). -/

/-- What must agree for two messages to keep their order: class, direction, and the two agents (R443). -/
def Msg.route (m : Msg) : MsgClass × Bool × Nat × Nat × Option Nat :=
  (m.cls, m.kind == .data, m.core, (match m.src with
    | some _ => 0
    | none => lineSlice m.line), m.src)

/-- Takes a message that may arrive now: no earlier one is on the same route. -/
def State.takeMsg (s : State) (n : Nat) : Option (Msg × State) :=
  match s.msgs.find? (fun m => m.id == n) with
  | none => none
  | some m =>
    if (s.msgs.takeWhile (fun m => m.id != n)).any (fun q => q.route == m.route) then none
    else some (m, { s with msgs := s.msgs.filter (fun q => q.id != n) })

/-- One arrival of a message that satisfies a test. -/
def State.msgArrive (s : State) (n : Nat) (is : MsgKind → Bool) (act : Msg → State → State) : State :=
  match s.takeMsg n with
  | none => s
  | some (m, t) => if is m.kind then (act m t).wake else s

/-! What a home does with requests (R250, R251, R448, R451). -/

def State.ownerOf (s : State) (wa : Nat) : Option Nat := sget s.owners wa
/-- The distinct owners of some words. -/
def State.ownersOf (s : State) (was : List Nat) : List Nat := (was.filterMap s.ownerOf).eraseDups
/-- The words among some that a core owns. -/
def State.ownedBy (s : State) (c : Nat) (was : List Nat) : List Nat := was.filter (fun wa => s.ownerOf wa == some c)
def State.setOwners (s : State) (c : Nat) (was : List Nat) : State :=
  { s with owners := was.foldl (fun o wa => sput o wa c) s.owners }
def State.dropOwners (s : State) (was : List Nat) : State :=
  { s with owners := was.foldl (fun o wa => sdel o wa) s.owners }

/-- The hub die whose registry is a line's home: it serves two slices (R249, R444). -/
def lineHub (line : Nat) : Nat := lineSlice line % 6

/-- The lines registered at a hub die. -/
def State.registered (s : State) (hub : Nat) : List Nat :=
  ((s.owners.map (fun e => e.1 / 32)).filter (fun l => lineHub l == hub)).eraseDups
/-- Whether a home's transaction holds a line. -/
def State.lineHeld (s : State) (line : Nat) : Bool := s.holds.any (fun h => h.lines.contains line)

/-- Whether two lines stand in one set of a registry (R249): 2,097,152 entries in sets of 16. DESIGN CHOICE (log 9). -/
def sameSet (a b : Nat) : Bool := lineHub a == lineHub b && Config.registrySet a % 131072 == Config.registrySet b % 131072

/-- The other lines of a full set, where a line needs a new entry: none where it has one, or there is a way free (R249). -/
def State.fullSet (s : State) (line : Nat) : List Nat :=
  let ls := s.registered (lineHub line)
  if ls.length < 16 || ls.contains line then [] else
  let same := ls.filter (sameSet line)
  if same.length < 16 then [] else same

/-- A registration whose line's set is full waits until another entry has been back-invalidated; which one is open (R249, R250, R451).
Where a transaction holds each of them, it waits behind one of these. -/
def State.evictFor (s : State) (full : List Nat) (m : Msg) : State :=
  let (n, s) := s.fresh
  let pick := fun (ls : List Nat) => ls.getD (Config.freeCount n % ls.length) 0
  match full.filter (fun l => !s.lineHeld l) with
  | [] =>
    let l := pick full
    let k := (s.holds.find? (fun h => h.lines.contains l)).map (fun h => h.id)
    { s with holds := s.holds.map (fun (h : Hold) => if some h.id == k then { h with lines := h.lines ++ [m.line], held := h.held ++ [m] } else h) }
  | can =>
    let l := pick can
    let was := lineWas l 0xFFFFFFFF
    s.startHold [l, m.line] .evict (s.ownersOf was) [m] (fun i c s => s.send .binv c l (wordBits (s.ownedBy c was)) [] m.ctx i)

/-- Acknowledges a registration, with the words' values where it asks for them (R448); reading these is an access of the
memory-side cache (R246). -/
def State.sendAck (s : State) (vals : Bool) (m : Msg) : State :=
  let was := lineWas m.line m.mask
  let s := if vals then s.homeAccess m.line m.ctx false false else s.heatUp m.line
  s.send (.ack vals) m.core m.line m.mask (if vals then was.map (fun wa => (wa, s.homeWord wa)) else []) m.ctx

/-- A registration that no transaction holds (R250, R251, R293). It enters its owner at once; where it revokes another core, its ACK follows once
the REV has arrived there, so that no copy of an earlier store outlives the acknowledgement (R282, R285, R292, R295). Where it asks for
values, it is served once they have come. DEDUCED (log 33): the home waits for a plain REV's arrival. -/
def State.serveReg (s : State) (vals : Bool) (m : Msg) : State :=
  let was := lineWas m.line m.mask
  let others := (s.ownersOf was).filter (fun c => vals || c != m.core)
  let ask := fun (i c : Nat) (t : State) => t.send (.rev vals) c m.line (wordBits (s.ownedBy c was)) [] m.ctx i
  let full := s.fullSet m.line
  if vals && !others.isEmpty then s.startHold [m.line] .values others [m] ask
  else if !full.isEmpty then s.evictFor full m
  else
    let s := s.setOwners m.core was
    let s := { s with gens := ssetD s.gens m.line 0 0 }
    if others.isEmpty then s.sendAck vals m else s.startHold [m.line] .revoke others [] ask (some m)

/-- Sends words from the home to a reader. -/
def State.homeData (s : State) (reader : Nat) (m : Msg) (ws : List (Nat × MemWord)) : State :=
  if ws.isEmpty then s else
  (s.homeAccess m.line m.ctx m.uc false).send .data reader m.line (wordBits (ws.map (fun e => e.1))) ws m.ctx m.rd m.alloc none m.uc

/-- A read that no transaction holds (R250, R448): the home sends the unowned words, each owner its own. -/
def State.serveRd (s : State) (m : Msg) : State :=
  let was := lineWas m.line m.mask
  let free := was.filter (fun wa => (s.ownerOf wa).isNone)
  let s := (s.ownersOf was).foldl (fun s c =>
    s.send (.fwd m.core) c m.line (wordBits (s.ownedBy c was)) [] m.ctx m.rd m.alloc none m.uc) s
  s.homeData m.core m (free.map (fun wa => (wa, s.homeWord wa)))

/-- Brings an owned word's value to its home, as its core would write it back, and ends its ownership. -/
def State.pullHome (s : State) (wa : Nat) : State :=
  match s.ownerOf wa with
  | none => s
  | some c => ((s.disown wa).homeAccess (wa / 32) ((s.l1At c wa).elim 0 (fun e => e.ctx)) false true).setHome wa (s.coherent wa)

/-- A store or atomic at its home bank (R250, R268); a word that a core owns is first taken from it, with its value (R293); words whose data the
links have lost enter the poison state (R455). -/
def State.serveUcw (s : State) (op : Nat) (m : Msg) : State :=
  match s.pend.find? (fun p => p.id == op) with
  | none => s
  | some p =>
    let others := s.ownersOf p.was
    if !others.isEmpty then
      s.startHold [m.line] .values others [m] (fun i c t => t.send (.rev true) c m.line (wordBits (s.ownedBy c p.was)) [] m.ctx i)
    else
    let s := s.heatUp m.line
    let s := { s with gens := ssetD s.gens m.line 0 0 }
    let s := match m.poisonLink with
      | none => s.rmwHome p
      | some b =>
        let s := p.was.foldl (fun (s : State) wa => s.setHome wa { bad := true }) s
        (List.range p.words).foldl (fun s h => match p.prod with
          | some id => s.giveItem id p.lane h (.fail cLINK p.va (BitVec.ofNat 32 b))
          | none => s) s
    { s with pend := s.pend.map (fun (q : PendOp) => if q.id == op then { q with done := true } else q) }

/-- A request arrives at its home: it waits behind a transaction on its line, or is served (R451). -/
def State.homeArrive (s : State) (m : Msg) : State :=
  match s.holds.find? (fun h => h.lines.contains m.line) with
  | some h => { s with holds := s.holds.map (fun (k : Hold) => if k.id == h.id then { k with held := k.held ++ [m] } else k) }
  | none => match m.kind with
    | .reg v => s.serveReg v m
    | .rd => s.serveRd m
    | .ucw op => s.serveUcw op m
    | _ => s

/-- Ends a transaction whose cores have all answered, and serves what it held in arrival order (R451, R453). -/
def State.endHold (s : State) (h : Hold) : State :=
  let s := { s with holds := s.holds.filter (fun k => k.id != h.id) }
  let was := h.lines.flatMap (fun l => lineWas l 0xFFFFFFFF)
  let s := match h.why with
    | .claimLine =>
      was.foldl (fun s wa =>
        let mine := (h.claims.filter (fun e => e.2 == wa)).map (fun e => e.1)
        match s.ownerOf wa with
        | some c => if mine.contains c then s else s.dropOwners [wa]
        | none => match mine with
          | c :: _ => s.setOwners c [wa]
          | [] => s) s
    | .claimSet => s.dropOwners was
    | _ => s
  let s := match h.entered with
    | some m => s.sendAck false m
    | none => s
  h.held.foldl (fun s m => s.homeArrive m) s

/-- Whether a message answers a transaction of its home: WB, NOOWN or CLAIM. -/
def Msg.answers (m : Msg) (core i : Nat) : Bool :=
  m.core == core && m.rd == i && (m.kind == .wb || m.kind == .noown none || m.kind == .claim)

/-- Notes a core's answer to a transaction: the words asked of it are no longer its own. The core has answered once no other part of its answer
is on its way (R448). -/
def State.answered (s : State) (m : Msg) : State :=
  match (if m.rd = 0 then none else s.holds.find? (fun h => h.id == m.rd)) with
  | none => s
  | some h =>
    let more := s.msgs.any (fun q => q.answers m.core m.rd)
    let h := { h with waitCores := if more then h.waitCores else h.waitCores.filter (fun c => c != m.core)
                      claims := if h.why == HoldWhy.claimLine then h.claims ++ (lineWas m.line m.mask).map (fun wa => (m.core, wa)) else h.claims }
    let s := match h.why with
      | .values => s.dropOwners (s.ownedBy m.core (lineWas m.line m.mask))
      | .evict => s.dropOwners (s.ownedBy m.core (lineWas m.line m.mask))
      | _ => s
    if h.waitCores.isEmpty then s.endHold h
    else { s with holds := s.holds.map (fun (k : Hold) => if k.id == h.id then h else k) }

/-! Requests: core to home. -/

def isReg (k : MsgKind) : Bool := match k with
  | .reg _ => true
  | _ => false
def isUcw (k : MsgKind) : Bool := match k with
  | .ucw _ => true
  | _ => false

/-- REG (R448, R449, R451). -/
def reg (n : Nat) (s : State) : State := s.msgArrive n isReg (fun m s => s.homeArrive m)
/-- REG (R448). -/
def execReg (n : Nat) (s : State) : Host.Outcome State Fault Refusal := .next (reg n s)

/-- RD (R448, R451). -/
def rd (n : Nat) (s : State) : State := s.msgArrive n (fun k => k == .rd) (fun m s => s.homeArrive m)
/-- RD (R448). -/
def execRd (n : Nat) (s : State) : Host.Outcome State Fault Refusal := .next (rd n s)

/-- UCW (R448). -/
def ucw (n : Nat) (s : State) : State := s.msgArrive n isUcw (fun m s => s.homeArrive m)
/-- UCW (R448). -/
def execUcw (n : Nat) (s : State) : Host.Outcome State Fault Refusal := .next (ucw n s)

/-- UCW_ACKNOWLEDGE (R280): the operation counts as performed. -/
def ucwAcknowledge (n : Nat) (s : State) : State :=
  if s.pend.any (fun p => p.id == n && p.uc && p.done) then
    ({ s with pend := s.pend.filter (fun p => p.id != n) } : State).wake
  else s
/-- UCW_ACKNOWLEDGE (R280). -/
def execUcwAcknowledge (n : Nat) (s : State) : Host.Outcome State Fault Refusal := .next (ucwAcknowledge n s)

/-! Snoops: home to core. -/

def isAckKind (k : MsgKind) : Bool := match k with
  | .ack _ => true
  | _ => false
def isRev (k : MsgKind) : Bool := match k with
  | .rev _ => true
  | _ => false
def isRevs (k : MsgKind) : Bool := match k with
  | .revs _ => true
  | _ => false

/-- One word of an ACK: a Pending word becomes Owned; one whose value the ACK carries becomes Owned with it (R250, R448). -/
def State.ackWordIn (s : State) (m : Msg) (wa : Nat) : State :=
  match s.l1At m.core wa, sget m.words wa with
  | some { st := .pending, word := v, ctx := x }, _ => s.setL1 m.core wa (some { st := .owned, word := v, ctx := x })
  | some { st := .owned, .. }, _ => s
  | _, some v => (((s.fixReads m.core wa).noAllocLine m.core m.line).makeRoom m.core m.line).setL1 m.core wa (some { st := .owned, word := v, ctx := m.ctx })
  | _, none => s

/-- ACK (R448). -/
def ack (n : Nat) (s : State) : State :=
  s.msgArrive n isAckKind (fun m s => ((lineWas m.line m.mask).foldl (fun s wa => s.ackWordIn m wa) s).runPend m.core)
/-- ACK (R448). -/
def execAck (n : Nat) (s : State) : Host.Outcome State Fault Refusal := .next (ack n s)

/-- The words among some that a core holds Owned, with their values. -/
def State.ownedWords (s : State) (c : Nat) (was : List Nat) : List (Nat × MemWord) :=
  was.filterMap (fun wa => match s.l1At c wa with
    | some { st := .owned, word := v, .. } => some (wa, v)
    | _ => none)

/-- FWD (R448, R450): the owner sends its words and keeps them; it no longer owns the rest. -/
def State.fwdArrive (s : State) (m : Msg) : State :=
  match m.kind with
  | .fwd reader =>
    let was := lineWas m.line m.mask
    let own := s.ownedWords m.core was
    let rest := was.filter (fun wa => !s.isOwned m.core wa)
    let s := if own.isEmpty then s
      else s.send .data reader m.line (wordBits (own.map (fun e => e.1))) own m.ctx m.rd m.alloc (some m.core) m.uc
    if rest.isEmpty then s
    else s.send (.noown (some reader)) m.core m.line (wordBits rest) m.words m.ctx m.rd m.alloc none m.uc
  | _ => s
def fwd (n : Nat) (s : State) : State := s.msgArrive n isFwd (fun m s => s.fwdArrive m)
/-- FWD (R448). -/
def execFwd (n : Nat) (s : State) : Host.Outcome State Fault Refusal := .next (fwd n s)

/-- A core answers NOOWN for the words among those named that it no longer owns (R448, R450). -/
def State.disclaim (s : State) (m : Msg) (rest : List Nat) : State :=
  if rest.isEmpty then s else s.send (.noown none) m.core m.line (wordBits rest) [] m.ctx m.rd

/-- The words that a snoop names and its core does not own. -/
def State.notOwned (s : State) (m : Msg) : List Nat := (lineWas m.line m.mask).filter (fun wa => !s.isOwned m.core wa)

/-- A core gives up its Owned words among those named and answers with their values, and NOOWN for the others (R448, R450). -/
def State.giveUp (s : State) (m : Msg) : State :=
  let own := s.ownedWords m.core (lineWas m.line m.mask)
  let rest := s.notOwned m
  let ctx := (own.findSome? (fun e => (s.l1At m.core e.1).map (fun x => x.ctx))).getD m.ctx
  let s := own.foldl (fun s e => s.setL1 m.core e.1 none) s
  let s := if own.isEmpty then s else s.send .wb m.core m.line (wordBits (own.map (fun e => e.1))) own ctx m.rd
  (s.disclaim m rest).chase m.core

/-- REV (R251, R252, R448): the words become Invalid, and are answered where their values are asked for, or the core no longer owns them; else the
home goes on with the write that has revoked them. A Pending word's own registration is still to come. -/
def State.revArrive (s : State) (m : Msg) : State :=
  match m.kind with
  | .rev true => s.giveUp m
  | _ =>
    let rest := s.notOwned m
    let s := (((s.ownedWords m.core (lineWas m.line m.mask)).foldl (fun s e => s.setL1 m.core e.1 none) s).disclaim m rest).chase m.core
    if rest.isEmpty then s.answered m else s
def rev (n : Nat) (s : State) : State := s.msgArrive n isRev (fun m s => s.revArrive m)
/-- REV (R448). -/
def execRev (n : Nat) (s : State) : Host.Outcome State Fault Refusal := .next (rev n s)

/-- BINV (R250, R448): the owner writes the words back and leaves them Invalid. -/
def binv (n : Nat) (s : State) : State := s.msgArrive n (fun k => k == .binv) (fun m s => s.giveUp m)
/-- BINV (R448). -/
def execBinv (n : Nat) (s : State) : Host.Outcome State Fault Refusal := .next (binv n s)

/-- The Pending and Owned words that a core holds in some lines, with their values. -/
def State.claimable (s : State) (c : Nat) (lines : List Nat) : List (Nat × MemWord) :=
  ((s.coreAt (s.agent c)).l1.filter (fun e => lines.contains (e.1 / 32) && e.2.st != .valid)).map (fun e => (e.1, e.2.word))

/-- REVA (R453): the core claims the line's words that it holds Pending or Owned, and keeps them. DEDUCED (log 49). -/
def reva (n : Nat) (s : State) : State :=
  s.msgArrive n (fun k => k == .reva) (fun m s =>
    s.send .claim m.core m.line (wordBits ((s.claimable m.core [m.line]).map (fun e => e.1))) [] m.ctx m.rd)
/-- REVA (R453). -/
def execReva (n : Nat) (s : State) : Host.Outcome State Fault Refusal := .next (reva n s)

/-- REVS (R453): the core writes back, in its claim, the set's words that it holds Pending or Owned, and makes them
Invalid. -/
def State.revsArrive (s : State) (m : Msg) : State :=
  match m.kind with
  | .revs lines =>
    let own := s.claimable m.core lines
    let s := own.foldl (fun s e => s.setL1 m.core e.1 none) s
    (s.send .claim m.core m.line 0 own m.ctx m.rd).chase m.core
  | _ => s
def revs (n : Nat) (s : State) : State := s.msgArrive n isRevs (fun m s => s.revsArrive m)
/-- REVS (R453). -/
def execRevs (n : Nat) (s : State) : Host.Outcome State Fault Refusal := .next (revs n s)

/-! Responses. -/

/-- Gives the items that a read asked for their word, or the failure of its link (R455). -/
def State.giveRead (s : State) (m : Msg) (wa : Nat) (v : MemWord) : State :=
  { s with prods := s.prods.map (fun (p : Prod) => { p with items := p.items.map (fun (i : Item) =>
      if i.rd == m.rd && i.rd != 0 && i.dpa / 4 == wa && i.got.isNone then
        { i with got := some (match m.poisonLink with
          | some b => .fail cLINK i.va (BitVec.ofNat 32 b)
          | none => .mem v) }
      else i) }) }

/-- Whether a DATA answers a prefetch: no load waits for it (R271). -/
def State.prefetched (s : State) (m : Msg) : Bool := !s.prods.any (fun p => p.items.any (fun i => i.rd == m.rd && i.rd != 0))

/-- Whether a DATA may leave its words in the L1: the read allocates, the line has a place, and stands there for no other context (R247,
R250). -/
def State.mayFill (s : State) (m : Msg) : Bool :=
  m.alloc && !m.uc && m.poisonLink.isNone && s.hasRoom (s.agent m.core) m.line
    && !(s.coreAt (s.agent m.core)).l1.any (fun e => e.1 / 32 == m.line && e.2.ctx != m.ctx)

/-- Whether another read of a word by a core is on its way: its answer may carry another value of the word (R282). -/
def State.readOut (s : State) (c wa rd : Nat) : Bool :=
  let of := fun (m : Msg) => m.line == wa / 32 && m.mask.getLsbD (wa % 32) && m.rd != rd && (match m.kind with
    | .rd => m.core == c
    | .data => m.core == c
    | .fwd r => r == c
    | .noown (some r) => r == c
    | _ => false)
  s.msgs.any of || s.holds.any (fun h => h.held.any of)

/-- One word of a DATA: it reaches the load that asked for it, and leaves a Valid copy where it may and the L1 has none, and no other read of the word
is on its way (R250, R282). Where none is left, the core's other reads of the line leave none either: they may carry an earlier value than this load has
returned (R282). An uncorrectable error
drops a prefetch (R271). -/
def State.dataWord (s : State) (m : Msg) (wa : Nat) (v : MemWord) : State :=
  if v.bad && s.prefetched m then s else
  let s := s.giveRead m wa v
  match s.l1At m.core wa with
  | some _ => s
  | none => if s.mayFill m && !s.readOut (s.agent m.core) wa m.rd then s.setL1 m.core wa (some { st := .valid, word := v, ctx := m.ctx }) else s.noAllocLine (s.agent m.core) m.line
def data (n : Nat) (s : State) : State :=
  s.msgArrive n (fun k => k == .data) (fun m s =>
    let s := if m.alloc then (s.ownLine m.core m.ctx m.line).makeRoom m.core m.line else s
    m.words.foldl (fun s e => s.dataWord m e.1 e.2) s)
/-- DATA (R448). -/
def execData (n : Nat) (s : State) : Host.Outcome State Fault Refusal := .next (data n s)

/-- Whether a core still stands for a word it has written back: it holds the word again, or is about to, or a later write-back of it is on
its way. -/
def State.holdsAgain (s : State) (c wa : Nat) : Bool :=
  (s.wbWord c wa).isSome || s.entered c wa || s.msgs.any (fun m => m.isAck && m.names c wa) || (match s.l1At c wa with
    | some e => e.st != .valid
    | none => false)

/-- One word of a write-back arrives: memory takes it while its core is the owner (R247, R251). DEDUCED (log 47). -/
def State.wbIn (s : State) (c wa : Nat) (v : MemWord) : State :=
  if s.ownerOf wa == some c then
    let s := s.setHome wa v
    if s.holdsAgain c wa then s else s.dropOwners [wa]
  else s.lendWord c wa v

/-- WB (R247, R448, R450). -/
def wb (n : Nat) (s : State) : State :=
  s.msgArrive n (fun k => k == .wb) (fun m s =>
    ((m.words.foldl (fun s e => s.wbIn m.core e.1 e.2) s).homeAccess m.line m.ctx false true).answered m)
/-- WB (R448). -/
def execWb (n : Nat) (s : State) : Host.Outcome State Fault Refusal := .next (wb n s)

/-- NOOWN (R450): a forwarded read is served from what the core has written back. -/
def State.noownArrive (s : State) (m : Msg) : State :=
  match m.kind with
  | .noown (some reader) =>
    s.homeData reader m ((lineWas m.line m.mask).map (fun wa => (wa, (sget m.words wa).getD (s.homeWord wa))))
  | _ => s.answered m
def noown (n : Nat) (s : State) : State := s.msgArrive n isNoown (fun m s => s.noownArrive m)
/-- NOOWN (R450). -/
def execNoown (n : Nat) (s : State) : Host.Outcome State Fault Refusal := .next (noown n s)

/-- CLAIM (R453): claimed words of a set whose tags are lost go to memory, as write-backs do (R239, R246). -/
def claim (n : Nat) (s : State) : State :=
  s.msgArrive n (fun k => k == .claim) (fun m s => (m.words.foldl (fun s e => (s.homeAccess (e.1 / 32) m.ctx false true).setHome e.1 e.2) s).answered m)
/-- CLAIM (R453). -/
def execClaim (n : Nat) (s : State) : Host.Outcome State Fault Refusal := .next (claim n s)

end Sys2Proof.Machine
end

