-- ==== Sys2Proof/Machine/Commit.lean ====
section
/-! DEFINITION. Regions and poison (R393, R398 to R402, R407 to R418): RGNO, CMT, PCHK, PSET, CART. -/

namespace Sys2Proof.Machine

/-- RGNO (R393, R409, R410): nothing, where a region is open. -/
def rgnoOut (x : Ex) (s : State) : State :=
  if (s.fibreAt x.p.g x.p.w x.p.f).inRegion then s else
  s.modFibre x.p.g x.p.w x.p.f (fun y =>
    { y with fstat := (y.fstat ||| fRGN) &&& 0xFFFFFF7F, restart := x.next, quar := []
             oldStranded := maskOf (lanesWhere y (fun l => l.st.isStranded)) })

def rgnoBody (x : Ex) (s : State) : Out := .ok (rgnoOut x s) []
/-- RGNO (R409). -/
def execRgno (f : Fields) (s : State) : Host.Outcome State Fault Refusal := runInstr 0xE0 f rgnoBody s

/-- Whether an earlier instruction of the fibre has destinations or cartouche records still to write (R411): it awaits data, or its
stores into parts of words, or its atomics, are still to perform. -/
def State.workOut (s : State) (x : Ex) : Bool :=
  s.prods.any (fun p => p.g == x.p.g && p.w == x.p.w && p.f == x.p.f && p.kind != .copy)
    || s.pend.any (fun p => p.of x.p.g x.p.w x.p.f)
    || s.parkedAll.any (fun p => p.of x.p.g x.p.w x.p.f && (match p.op with
      | .store n => decide (n < 4)
      | _ => false))

/-- The words that a commit names (R407, R411). -/
def cmtWords (x : Ex) (s : State) : List RegWord :=
  let y := x.fibre s
  x.parts.flatMap (fun l => (List.range x.f.b6.toNat).map (fun i => sgetD (s.seenRegs x.p) (vecOff y (x.f.d.toNat + i) + l) {}))
    ++ (if x.f.a == 0xF8 then [] else
      (List.range x.f.b.toNat).map (fun i => sgetD (s.seenUregs x.p) (x.f.a.toNat - 0xC0 + i) {}))

/-- Lanes stranded since the region opened, or since the last commit, with their words (R398). -/
def cmtStranded (y : Fibre) : List (Nat × Word) :=
  (List.range 32).filterMap (fun l => match (y.lanes.getD l {}).st with
    | .stranded v => if y.oldStranded.getLsbD l then none else some (l, v)
    | _ => none)

/-- Poison words of the quarantine. -/
def quarWords (y : Fibre) : List Word := y.quar.flatMap (fun e => e.bad.toList ++ e.lanes.filterMap (fun l => l.bad))

/-- Causes that a replay can meet (R387, R401). -/
def serviceable (c : Nat) : Bool :=
  c == cNONRES || c == cPAGE || c == cTORN || c == cRESIDUE || c == cTIMING || c == cEMPTY

/-- Whether a poison word can be serviced: NONRES and PAGE need their record (R401). -/
def wordServiceable (y : Fibre) (v : Word) : Bool :=
  let c := causeOf v
  let r := y.ring.getD (ringOf v) {}
  serviceable c && (!(c == cNONRES || c == cPAGE) ||
    (r.cause.toNat == c && r.pc.toNat / 4 % 1048576 == origOf v))

/-- R401. -/
def canReplay (y : Fibre) (live : List Word) : Bool :=
  y.inRegion && y.fstat &&& fIRREV == 0 && live.all (wordServiceable y)
    && !y.ring.any (fun r => r.cause == BitVec.ofNat 8 cOVERFLOW) && decide (y.replays < 8)

/-- Makes lanes active at an address (R399). -/
def restartLanes (y : Fibre) (m : Word) (pc : DWord) : Fibre :=
  { y with lanes := y.lanes.mapIdx (fun i l =>
      if m.getLsbD i then { l with st := .active, pc := pcOf pc, age := 0, rep := none, inst := {} } else l) }

/-- The poison words that a commit finds: in the words it names, in the quarantine, in lanes stranded (R398). -/
def cmtPoison (x : Ex) (s : State) : List Word :=
  let y := s.fibreAt x.p.g x.p.w x.p.f
  ((cmtWords x s).filter (fun w => w.poison)).map (fun w => w.val) ++ quarWords y ++ (cmtStranded y).map (·.2)

/-- Whether a commit that finds poison replays (R399, R401). -/
def cmtReplays (x : Ex) (s : State) : Bool :=
  x.f.sub.getLsbD 0 && canReplay (s.fibreAt x.p.g x.p.w x.p.f) (cmtPoison x s)

/-- Where a commit that finds poison goes (R398, R412). -/
def cmtTarget (x : Ex) : DWord := x.p.pcI + x.f.w2.signExtend 64

/-- The fibre as a commit finds it: one that path one of the cycle has parked for a replay has no records left (R412). -/
def cmtView (x : Ex) (s : State) : State :=
  if (s.fibreAt x.p.g x.p.w x.p.f).park.isSome then s.clearRing x.p.g x.p.w x.p.f else s

/-- Whether CMT can go on: the fibre's work is done and the named words are full (R411), or it has begun its release (R403). -/
def cmtReady (x : Ex) (s : State) : Bool :=
  match (s.fibreAt x.p.g x.p.w x.p.f).releasing with
  | some k => k.1 == x.p.pcI
  | none => !s.workOut x && (cmtWords x s).all (fun w => w.full)

/-- Whether the commit releases the held stores: it has found no poison (R399). -/
def cmtClean (x : Ex) (s : State) : Bool :=
  (s.fibreAt x.p.g x.p.w x.p.f).releasing.isSome || (cmtPoison x s).isEmpty

/-- The held stores that can be performed are released (R403). -/
def cmtRelease (x : Ex) (s : State) : State := s.releaseMore x.p.g x.p.w x.p.f x.p.pcI

/-- Whether the commit still waits for held stores (R403). -/
def cmtWaits (x : Ex) (s : State) : Bool := cmtClean x s && !(cmtRelease x s).releaseDone x.p.g x.p.w x.p.f

/-- What a replay leaves (R399, R400): the fibre parks with the ring's records, and its stranded lanes are to restart. A second commit of
the cycle finds no record left (R412). -/
def parkFibre (x : Ex) (y : Fibre) : Fibre :=
  let t := maskOf ((cmtStranded y).map (·.1))
  let mine := maskOf x.parts ||| t
  { restartLanes y t y.restart with
    quar := [], replays := y.replays + 1
    park := some (match y.park with
      | some k => { k with sure := k.sure ||| mine }
      | none => { lanes := mine, pc := y.restart, rel := false, target := cmtTarget x, ring := y.ring }) }

/-- What CMT leaves (R398 to R402): the stores released, the fibre parked for a replay, or the region abandoned. -/
def cmtOut (x : Ex) (s : State) : State :=
  if cmtClean x s then ((cmtRelease x s).modFibre x.p.g x.p.w x.p.f closeRegion).clearRing x.p.g x.p.w x.p.f
  else if cmtReplays x s then s.modFibre x.p.g x.p.w x.p.f (parkFibre x)
  else
    let t := cmtStranded (s.fibreAt x.p.g x.p.w x.p.f)
    (s.modFibre x.p.g x.p.w x.p.f (fun y => restartLanes (closeRegion y) (maskOf (t.map (·.1))) (cmtTarget x))).clearRing
      x.p.g x.p.w x.p.f

/-- Where CMT sends its participants, and the lanes of its own path that its guard has stranded (R398, R399). -/
def cmtJumps (x : Ex) (s : State) : List (Nat × DWord) :=
  if cmtClean x s then [] else
  let own := ((cmtStranded (s.fibreAt x.p.g x.p.w x.p.f)).map (·.1)).filter (fun l => x.p.mask.getLsbD l)
  (x.parts ++ own).map (fun l => (l, if cmtReplays x s then (s.fibreAt x.p.g x.p.w x.p.f).restart else cmtTarget x))

/-- CMT: its release may take several tries (R403). -/
def cmtBody (x : Ex) (s : State) : Out :=
  if !cmtReady x s then .wait
  else if cmtWaits x s then .hold (cmtRelease x)
  else .ok (cmtOut x (cmtView x s)) (cmtJumps x (cmtView x s))
/-- CMT (R411). -/
def execCmt (f : Fields) (s : State) : Host.Outcome State Fault Refusal := runInstr 0xE1 f cmtBody s

/-- Whether PCHK can issue: .q has no source (R206, R414). -/
def pchkReady (x : Ex) (s : State) : Bool := x.f.sub.toNat % 4 == 2 || s.ready x { b := false, c := false }

/-- PCHK (R414). -/
def pchkOut (x : Ex) (s : State) : State :=
  let mode := x.f.sub.toNat % 4
  if mode = 2 then
    let b := (s.fibreAt x.p.g x.p.w x.p.f).quar.any QEntry.poisoned
    s.writePreds x x.f.d.toNat (x.parts.map (fun l => (l, .inl b))) []
  else
  let vs := x.parts.map (fun l => (l, s.readCode x x.f.a 0 l))
  let s := s.popQueues x [x.f.a]
  if mode = 0 then
    s.writePreds x x.f.d.toNat (vs.map (fun e => (e.1, .inl e.2.isBad))) (madeOf (vs.map (fun e => (e.1, [e.2]))))
  else
    let (s, tbl) := s.makePoison x.p.g x.p.w x.p.f 0 x.p.pc vs
    s.writeDst x x.f.d (vs.map (fun e =>
      (e.1, [.ok (mkWord (if e.2.isBad then (e.2.word tbl).val else 0))]))) []

def pchkBody (x : Ex) (s : State) : Out := if !pchkReady x s then .wait else .ok (pchkOut x s) []
/-- PCHK (R414). -/
def execPchk (f : Fields) (s : State) : Host.Outcome State Fault Refusal := runInstr 0xE2 f pchkBody s

/-- PSET (R415). -/
def psetOut (x : Ex) (s : State) : State :=
  let v : Val := .new x.f.b6.toNat 0 0
  let n := x.f.d.toNat
  match x.f.sub.toNat % 4 with
  | 0 => s.writeDst x x.f.d (x.parts.map (fun l => (l, [v]))) []
  | k => s.tileWrite x [{ offs := tileOffs (x.fibre s) (k - 1) n, res := .inr (n, v) }]

def psetBody (x : Ex) (s : State) : Out := .ok (psetOut x s) []
/-- PSET (R415). -/
def execPset (f : Fields) (s : State) : Host.Outcome State Fault Refusal := runInstr 0xE3 f psetBody s

/-- A word of a cartouche record (R416). -/
def cartWord (r : Cart) (w : Nat) : Word := BitVec.ofNat 32 (natOfBytes ((r.bytes.drop (4 * w)).take 4))

/-- Whether CART can issue; CART.clr has no source (R206, R416, R417). -/
def cartReady (x : Ex) (s : State) : Bool := x.f.sub.getLsbD 0 || (!s.workOut x && s.ready x { b := false, c := false })

/-- CART and CART.clr (R416, R417). -/
def cartOut (x : Ex) (s : State) : State :=
  if x.f.sub.getLsbD 0 then s.clearRing x.p.g x.p.w x.p.f else
  let y := s.fibreAt x.p.g x.p.w x.p.f
  let outs := x.parts.map (fun l => (l, match s.readCode x x.f.a 0 l with
    | .ok w => if w.poison then [Val.ok w] else
        [Val.ok (mkWord (cartWord (y.ring.getD ((w.val.toNat % 16 + l / 8) % 16) {}) (l % 8)))]
    | v => [v]))
  s.writeDst x x.f.d outs []

def cartBody (x : Ex) (s : State) : Out := if !cartReady x s then .wait else .ok (cartOut x s) []
/-- CART (R416). -/
def execCart (f : Fields) (s : State) : Host.Outcome State Fault Refusal := runInstr 0xE4 f cartBody s

end Sys2Proof.Machine
end

