-- ==== Sys2Proof/Machine/Events.lean ====
section
/-! DEFINITION. Steps of the slots (R178), of parked and returning accesses (R123, R263), of barriers (R201), and of memory
placement and translation (R239, R242, R244, R255, R273). -/

namespace Sys2Proof.Machine

/-! Accesses that come back (R123, R263). -/

/-- LOAD_DATA_RETURN (R123, R126): what has arrived for some lanes of a producer is written; reserved queue entries fill by
their own step (R315). -/
def loadDataReturn (id : Nat) (lanes : Word) (s : State) : State :=
  match s.prods.find? (fun p => p.id == id) with
  | none => s
  | some p => if p.kind == .copy then s else (s.deliver p lanes).wake
/-- LOAD_DATA_RETURN (R123). -/
def execLoadDataReturn (id : Nat) (lanes : Word) (s : State) : Host.Outcome State Fault Refusal := .next (loadDataReturn id lanes s)

/-- PARKED_ACCESS_PERFORM (R263): a parked access performs, and a change of its word's tag wakes the others. -/
def parkedAccessPerform (n : Nat) (s : State) : State :=
  match s.parkedAll.find? (fun p => p.id == n) with
  | none => s
  | some p =>
    if !s.spCan p then s else
    let was := (s.spAt p.g (p.off / 4)).full
    let s := s.spLeave p
    (if (s.spAt p.g (p.off / 4)).full == was then s else s.spChanged p.g (p.off / 4)).wake
/-- PARKED_ACCESS_PERFORM (R263). -/
def execParkedAccessPerform (n : Nat) (s : State) : Host.Outcome State Fault Refusal := .next (parkedAccessPerform n s)

/-- BARRIER_REPEAT_COMPLETION (R201): carried arrivals complete the next phase. -/
def barrierRepeatCompletion (g n : Nat) (s : State) : State :=
  let b := s.barAt g n
  if b.exp ≠ 0 && decide (b.exp ≤ b.cnt) then (s.flushBar g n []).wake else s
/-- BARRIER_REPEAT_COMPLETION (R201). -/
def execBarrierRepeatCompletion (g n : Nat) (s : State) : Host.Outcome State Fault Refusal := .next (barrierRepeatCompletion g n s)

/-! The slot (R178). -/

/-- What the lanes of a PC group share: their PC and their state within a repeat. -/
abbrev GroupKey := DWord × Option (Pfx × Nat) × Kept

/-- The PC groups of a fibre (R171, R172). DESIGN CHOICE (log 22): lanes that reach the PC of a group in the middle of a repeat stay a
group of their own until its repeat ends; the manual does not say. -/
def pcGroups (x : Fibre) : List GroupKey :=
  ((lanesWhere x (fun l => l.st.isActive)).map (fun l => let y := x.lanes.getD l {}; (y.pc, y.rep, y.inst))).eraseDups

/-- Whether a PC group has been found not ready since the state last changed. -/
def State.isBlocked (s : State) (g w f : Nat) (k : GroupKey) : Bool :=
  s.blocked.any (fun p => p.g == g && p.w == w && p.f == f && p.pc == k.1 && p.rep == k.2.1 && p.inst == k.2.2)

/-- Whether a fibre may issue at all: not frozen, not parked (R399), not waiting for a page (R28), not held (R421). -/
def State.fibreOpen (s : State) (g w f : Nat) : Bool :=
  let x := s.fibreAt g w f
  x.frozen.isNone && x.park.isNone && x.nonres.isNone && s.mayIssue g w f

/-- Whether a fibre has a PC group that has not been found waiting. -/
def State.maybeReady (s : State) (g w f : Nat) : Bool :=
  s.fibreOpen g w f && (pcGroups (s.fibreAt g w f)).any (fun k => !s.isBlocked g w f k)

/-- The next ready fibre after one, in fibre-number order, cyclically (R178). -/
def State.nextReady (s : State) (g w f : Nat) : Option Nat :=
  let n := (s.warpAt g w).fibres.length
  ((List.range n).map (fun i => (f + 1 + i) % n)).find? (fun k => k != f && s.maybeReady g w k)

/-- Whether a waiting instruction of a fibre carries SW, or its wait counts as one that does (R28, R178, R400). -/
def waitsSw (x : Fibre) : Bool :=
  x.nonres.isSome || x.park.isSome
    || (lanesWhere x (fun l => l.st.isActive && (l.rep.map (fun r => r.1.sw)).getD false)) != []
    || x.swLanes &&& maskOf (lanesWhere x (fun l => match l.st with
        | .waiting _ => true
        | _ => false)) != 0

/-- Whether a fibre holds nothing that could go on in the slot: it has ended, frozen, or not started (R178). -/
def Fibre.gone (x : Fibre) : Bool := x.frozen.isSome || (lanesWhere x (fun l => l.st.live && !l.st.isStranded)).isEmpty

def State.setCur (s : State) (g w : Nat) (c : Option Nat) : State := s.modWarp g w (fun x => { x with cur := c, pass := false, waited := 0 })

/-- SLOT_SWITCH (R178): the current fibre has ended or frozen, or waits with SW; a slot without one takes the first fibre to become
ready, of several that become ready together the lowest number (R384). -/
def slotSwitch (g w : Nat) (s : State) : State :=
  match (s.warpAt g w).cur with
  | none => (match (List.range (s.warpAt g w).fibres.length).find? (s.maybeReady g w) with
    | some k => s.setCur g w (some k)
    | none => s)
  | some f =>
    let x := s.fibreAt g w f
    if s.maybeReady g w f then s
    else if x.gone then s.setCur g w (s.nextReady g w f)
    else if !waitsSw x then s
    else match s.nextReady g w f with
      | some k => s.setCur g w (some k)
      | none => s
/-- SLOT_SWITCH (R178). -/
def execSlotSwitch (g w : Nat) (s : State) : Host.Outcome State Fault Refusal := .next (slotSwitch g w s)

/-- Counts one event of a core's counter (R491). -/
def State.perfCount (s : State) (core sel : Nat) : State :=
  s.modCore core (fun c => { c with perf := ssetD c.perf sel (sgetD c.perf sel 0 + 1) 0 })

/-- FORCED_SWITCH (R178, R491): the current fibre has waited 256 cycles. -/
def forcedSwitch (g w : Nat) (s : State) : State :=
  match (s.warpAt g w).cur with
  | none => s
  | some f =>
    if s.maybeReady g w f then s else
    match s.nextReady g w f with
    | some k => (s.setCur g w (some k)).perfCount (s.groupAt g).core 0x00B
    | none => s
/-- FORCED_SWITCH (R178). -/
def execForcedSwitch (g w : Nat) (s : State) : Host.Outcome State Fault Refusal := .next (forcedSwitch g w s)

/-- The siblings of fibre `f` that are ready and have been so for 32 cycles: the one ready longest, the next in fibre-number order
where several have waited equally (R178). -/
def State.longest (s : State) (g w f : Nat) : Option Nat :=
  let n := (s.warpAt g w).fibres.length
  let since := fun (k : Nat) => (s.fibreAt g w k).readyFor
  ((List.range n).map (fun i => (f + 1 + i) % n)).foldl (fun m k =>
    if k == f || since k < 32 || !s.maybeReady g w k then m else match m with
      | none => some k
      | some j => if since j < since k then some k else some j) none

/-- SIBLING_HANDOVER (R178): the slot passes to the sibling that has been ready longest. -/
def siblingHandover (g w : Nat) (s : State) : State :=
  match (s.warpAt g w).cur with
  | none => s
  | some f => match s.longest g w f with
    | none => s
    | some k => s.setCur g w (some k)
/-- SIBLING_HANDOVER (R178). -/
def execSiblingHandover (g w : Nat) (s : State) : Host.Outcome State Fault Refusal := .next (siblingHandover g w s)

/-! Translation (R242 to R244). -/

/-- The walks of a hub die for a context's page have ended: walks in flight that match are one (R243). -/
def State.walkEnds (s : State) (core : Nat) (ctx : Byte) (va : Nat) : State :=
  let mine := fun (r : WalkReq) => s.hubOf r.core == s.hubOf core && r.ctx == ctx && r.page == va / 65536 && !r.done
  if s.walking.any mine then
    ({ s with walking := s.walking.map (fun r => if mine r then { r with done := true } else r) } : State).wake
  else s

/-- TRANSLATION_WALK (R242, R243): a walk that ends in a usable leaf is cached, for every core whose walk has joined it; a failed one is not. -/
def translationWalk (core : Nat) (ctx : Byte) (va : DWord) (s : State) : State :=
  if 2 ^ 52 ≤ va.toNat then s else
  let cores := (core :: (s.walking.filter (fun r => s.hubOf r.core == s.hubOf core && r.ctx == ctx && r.page == va.toNat / 65536 && !r.done)).map
    (fun r => r.core)).eraseDups
  let t := (s.walkReads ctx va.toNat).walkEnds core ctx va.toNat
  match s.walk ctx va.toNat with
  | .leaf l => if l.nr then t else cores.foldl (fun t c => t.tlbFill c ctx va.toNat l) t
  | .fail _ _ => t
/-- TRANSLATION_WALK (R242). -/
def execTranslationWalk (core : Nat) (ctx : Byte) (va : DWord) (s : State) : Host.Outcome State Fault Refusal :=
  .next (translationWalk core ctx va s)

/-- TLB_INVALIDATION (R244): it completes once the accesses that used the old translations have been performed. -/
def tlbInvalidation (ctx : Byte) (va len : DWord) (s : State) : State :=
  if s.invalReady ctx va.toNat len.toNat then (s.tlbDrop ctx va.toNat len.toNat).wake else s
/-- TLB_INVALIDATION (R244). -/
def execTlbInvalidation (ctx : Byte) (va len : DWord) (s : State) : Host.Outcome State Fault Refusal :=
  .next (tlbInvalidation ctx va len s)

/-! Placement of pages (R237 to R239, R255, R272, R273). -/

/-- The key of a congruence group in the atlas and among the pinned groups. -/
def groupKey (slice group : Nat) : Nat := slice * 98304 + group

/-- Swaps a member into the fast location: the atlas names it (R238, R239). DEDUCED (log 53). -/
def State.swapIn (s : State) (slice group member : Nat) : State :=
  let k := groupKey slice group
  if 12 ≤ slice || 98304 ≤ group || 3 ≤ member || s.pinned.contains k || sgetD s.atlas k 0 == 3 then s
  else { s with atlas := ssetD s.atlas k member 0 }

/-- Accesses that the hub has counted to a member of a congruence group (R239). -/
def State.heatOf (s : State) (slice group member : Nat) : Nat := sgetD s.heat (3 * groupKey slice group + member) 0

/-- PAGE_SWAP (R238, R239): the hub swaps in a member that has been accessed more often than the one in the fast location; or Denuf pins or
unpins a group, or rewrites an entry that reads 3. A swap is one step: no access falls into it. -/
def pageSwap (k g : Nat) (what : Swap) (s : State) : State :=
  match what with
  | .member m => if s.heatOf k g (sgetD s.atlas (groupKey k g) 0) < s.heatOf k g m then s.swapIn k g m else s
  | .pin on => if 12 ≤ k || 98304 ≤ g then s
      else { s with pinned := if on then groupKey k g :: s.pinned else s.pinned.erase (groupKey k g) }
  | .rewrite h => if sgetD s.atlas (groupKey k g) 0 == 3 && decide (h < 3) then
      { s with atlas := ssetD s.atlas (groupKey k g) h 0 } else s
/-- PAGE_SWAP (R239). -/
def execPageSwap (slice group : Nat) (what : Swap) (s : State) : Host.Outcome State Fault Refusal :=
  .next (pageSwap slice group what s)

/-- Fills the memory-side cache with the 16,384 lines of a frame, for a context (R246, R272). -/
def State.mscFill (s : State) (frame : Nat) (ctx : Byte) : State :=
  (List.range 16384).foldl (fun s i => s.mscTouch (frame / 128 + i) ctx false) s

/-- PFT_COMPLETE (R272, R273). DEDUCED (log 138). -/
def pftComplete (n : Nat) (s : State) : State :=
  match s.pfts.find? (fun p => p.id == n) with
  | none => s
  | some p =>
    let s := p.frames.foldl (fun s e =>
      let s := s.swapIn (dpaSlice e.1) (congruence e.1) (memberNo e.1)
      if p.msc && !e.2 then s.mscFill e.1 p.ctx else s) s
    (({ s with pfts := s.pfts.filter (fun q => q.id != n) } : State).pftArrive p).wake
/-- PFT_COMPLETE (R273). -/
def execPftComplete (n : Nat) (s : State) : Host.Outcome State Fault Refusal := .next (pftComplete n s)

/-- Where a context's leaf entry for an address stands, with its level (R240, R241). -/
def State.leafFrom (s : State) (va : Nat) : Nat → Nat → Option (Nat × Nat)
  | table, 0 => match s.walkEntry va table 0 with
    | .leaf _ => some (table + 8 * levelIndex 0 va, 0)
    | _ => none
  | table, lv + 1 => match s.walkEntry va table (lv + 1) with
    | .leaf _ => some (table + 8 * levelIndex (lv + 1) va, lv + 1)
    | .table a => s.leafFrom va a lv
    | .fail _ _ => none
def State.leafPlace (s : State) (c : Byte) (va : Nat) : Option (Nat × Nat) :=
  match (s.ctx? c).bind (fun x => x.cfg.root) with
  | none => none
  | some root => s.leafFrom va root.toNat 3

/-- Rewrites a page-table entry as Denuf does. -/
def State.setEntry (s : State) (c : Byte) (a e : Nat) : State :=
  (s.engineWrite { ctx := c } (a / 4) { val := BitVec.ofNat 32 e } 0).engineWrite { ctx := c } (a / 4 + 1) { val := BitVec.ofNat 32 (e / 2 ^ 32) } 0

/-- Forgets what memory, homes and L1s hold of a range of device memory (R255, R436): zero data, no poison, generation 0, no
owner. -/
def State.clearRange (s : State) (a n : Nat) : State :=
  let byte := fun (k : Nat) => decide (a ≤ k) && decide (k < a + n)
  let word := fun (k : Nat) => byte (4 * k)
  { s with mem := s.mem.filter (fun e => !byte e.1), bad := s.bad.filter (fun e => !word e.1)
           upset := s.upset.filter (fun e => !word e.1), lineKeys := s.lineKeys.filter (fun e => !byte (128 * e.1))
           gens := s.gens.filter (fun e => !byte (128 * e.1)), owners := s.owners.filter (fun e => !word e.1)
           msc := s.msc.filter (fun e => !byte (128 * e.1))
           cores := s.cores.map (fun (c : Nat × Core) => (c.1, { c.2 with l1 := c.2.l1.filter (fun e => !word e.1) })) }

/-- The congruence groups of a range of device memory. -/
def groupsOf (a n : Nat) : List Nat :=
  (List.range ((a + n - 1) / 2 ^ 21 - a / 2 ^ 21 + 1)).map (fun i =>
    let x := (a / 2 ^ 21 + i) * 2 ^ 21
    groupKey (dpaSlice x) (congruence x))

/-- Whether a page of `n` bytes may stand at a device address of the partition. -/
def State.pageOk (s : State) (dpa n : Nat) : Bool :=
  dpa % n == 0 && s.dpaOk dpa && s.dpaOk (dpa + n - 1) && decide (s.first ≤ dpaSlice dpa) && decide (dpaSlice dpa < s.first + s.slices)

/-- Writes a page that Denuf brings in: its frame cleared, then its data, encrypted where its leaf says so (R241, R255, R434). -/
def State.fillPage (s : State) (c : Byte) (dpa n : Nat) (enc : Bool) (data : List (Nat × Byte)) : State :=
  let s := s.clearRange dpa n
  let k := s.keyFor c enc
  { s with mem := (data.filter (fun (e : Nat × Byte) => decide (e.1 < n))).foldl (fun m (e : Nat × Byte) => writeByte m (dpa + e.1) e.2) s.mem
           lineKeys := if k = 0 then s.lineKeys else (List.range (n / 128)).foldl (fun t i => sput t (dpa / 128 + i) k) s.lineKeys }

/-- Migrates a managed page into device memory at `dpa` (R255, steps 3 and 4): none where it is not such a page, or no page
fits there. -/
def State.migrateIn (s : State) (c : Byte) (va dpa : Nat) (data : List (Nat × Byte)) : Option State :=
  match s.leafPlace c va, s.walk c va with
  | some (at_, lv), .leaf l =>
    let n := levelPage lv
    if !l.nr || !s.pageOk dpa n then none else
    let s := s.fillPage c dpa n l.enc data
    let s := { s with pinned := groupsOf dpa n ++ s.pinned }
    let e := natOfBytes (s.coherentBytes at_ 8).1
    let s := s.setEntry c at_ (e % 256 - 16 + dpa)
    some ((s.tlbDrop c (va / n * n) n).wake)
  | _, _ => none

/-- Sends a managed page back to the host (R255): NR is set and the invalidation completed before it is copied out. DEDUCED (log 134). -/
def State.migrateOut (s : State) (c : Byte) (va : Nat) : State :=
  match s.leafPlace c va, s.walk c va with
  | some (at_, lv), .leaf l =>
    let n := levelPage lv
    if l.nr || !s.invalReady c (va / n * n) n then s else
    let e := natOfBytes (s.coherentBytes at_ 8).1
    let s := s.setEntry c at_ (e + 16)
    let s := { s with pinned := (groupsOf l.dpa n).foldl (fun p k => p.erase k) s.pinned }
    (s.tlbDrop c (va / n * n) n).wake
  | _, _ => s

/-- PAGE_MIGRATION (R255). -/
def pageMigration (ctx : Byte) (va dpa : DWord) (toHost : Bool) (data : List (Nat × Byte)) (s : State) : State :=
  if toHost then s.migrateOut ctx va.toNat else (s.migrateIn ctx va.toNat dpa.toNat data).getD s
/-- PAGE_MIGRATION (R255). -/
def execPageMigration (ctx : Byte) (va dpa : DWord) (toHost : Bool) (data : List (Nat × Byte)) (s : State) :
    Host.Outcome State Fault Refusal := .next (pageMigration ctx va dpa toHost data s)

/-! The end of a fault service (R399, R400). -/

/-- Where a context's walk of an address meets an entry with V = 0, with its level; none where it meets another failure or a leaf (R242). -/
def State.voidFrom (s : State) (va : Nat) : Nat → Nat → Option (Nat × Nat)
  | table, 0 =>
    let a := table + 8 * levelIndex 0 va
    let b := s.coherentBytes a 8
    if !b.2 && natOfBytes b.1 % 2 == 0 then some (a, 0) else none
  | table, lv + 1 =>
    let a := table + 8 * levelIndex (lv + 1) va
    let b := s.coherentBytes a 8
    if !b.2 && natOfBytes b.1 % 2 == 0 then some (a, lv + 1) else
    match s.walkEntry va table (lv + 1) with
    | .table t => s.voidFrom va t lv
    | _ => none
def State.voidPlace (s : State) (c : Byte) (va : Nat) : Option (Nat × Nat) :=
  (s.ctx? c).bind (fun x => x.cfg.root.bind (fun root => if 2 ^ 52 ≤ va then none else s.voidFrom va root.toNat 3))

/-- Denuf writes the leaf of a page mapped on demand, where its entry is the one with V = 0 (R400). -/
def State.mapLeaf (s : State) (c : Byte) (p : PageIn) : Option State :=
  match s.voidPlace c p.va.toNat with
  | none => none
  | some (a, lv) =>
    let n := levelPage lv
    if lv ≠ p.level || lv = 3 || !s.pageOk p.dpa.toNat n then none else
    some ((s.fillPage c p.dpa.toNat n false p.data).setEntry c a
      (p.dpa.toNat + 1 + (if p.w then 4 else 0) + (if p.x then 8 else 0) + (if p.uc then 32 else 0)))

/-- Denuf maps an address on demand (R400): new tables down to the page's level, then its leaf. No existing mapping changes. -/
def State.mapIn (s : State) (c : Byte) (p : PageIn) : List DWord → Option State
  | [] => s.mapLeaf c p
  | t :: ts => match s.voidPlace c p.va.toNat with
    | none => none
    | some (a, lv) =>
      if lv ≤ p.level then s.mapLeaf c p
      else if !s.pageOk t.toNat (nextAlign lv) then none
      else ((s.clearRange t.toNat (nextAlign lv)).setEntry c a (t.toNat + 3)).mapIn c p ts

/-- A service under way: what it has done, the pages it has mapped on demand, and whether Denuf has declined no record (R400). -/
structure Serviced where
  s : State
  mapped : List (Nat × Nat) := []
  good : Bool := true

/-- Denuf services one record (R255, R400): NONRES brings the page in; PAGE maps an address that the context has registered and for which the
walk finds no leaf. Whether Denuf provides a page is its own. -/
def Serviced.record (c : Byte) (pages : List PageIn) (a : Serviced) (r : Cart) : Serviced :=
  let va := r.addr.toNat
  let no := { a with good := false }
  let page := pages.find? (fun p => p.va == r.addr)
  if r.cause.toNat = cNONRES then
    match a.s.walk c va with
    | .leaf l => if !l.nr then a else match page.bind (fun p => a.s.migrateIn c va p.dpa.toNat p.data) with
        | some t => { a with s := t }
        | none => no
    | .fail _ _ => no
  else if r.cause.toNat = cPAGE then
    let ranges := ((a.s.ctx? c).map (fun x => x.onDemand)).getD []
    if a.mapped.any (fun m => decide (m.1 ≤ va) && decide (va < m.1 + m.2)) then a
    else if 3 < r.detail.toNat || !ranges.any (fun e => decide (e.1 ≤ va) && decide (va < e.1 + e.2)) then no
    else match page.bind (fun p => (a.s.mapIn c p p.tables).map (fun t => (t, levelPage p.level))) with
      | some (t, n) => { a with s := t, mapped := (va / n * n, n) :: a.mapped }
      | none => no
  else a

/-- Whether a parked fibre has a record that Denuf services (R400). DEDUCED (log 131). -/
def needsService (k : Park) : Bool := k.ring.any (fun r => r.cause.toNat == cNONRES || r.cause.toNat == cPAGE)

/-- What a fibre of a placed or saved group is parked for: a service goes on while the group is saved (R426). -/
def State.parkOf (s : State) (g w f : Nat) : Option Park :=
  if (s.group? g).isSome || s.saved.any (fun v => v.g == g) then (s.fibreAt g w f).park else none

/-- FAULT_SERVICE_DONE (R399, R400, R413, R426): the records that stood in the ring at the commit are serviced in index order, the parked lanes replay, or, where Denuf has declined one,
take the .rel outcome. `answer` holds the pages that Denuf brings, none where it services nothing; TORN, RESIDUE, TIMING and EMPTY need no service.
DEDUCED (log 80). -/
def faultServiceDone (g w f : Nat) (answer : Option (List PageIn)) (s : State) : State :=
  match s.parkOf g w f with
  | none => s
  | some k =>
    let r : Serviced := match answer with
      | none => { s := s, good := false }
      | some pages => if needsService k then k.ring.foldl (Serviced.record (s.groupAt g).ctx pages) { s := s } else { s := s }
    let s := r.s.modFibre g w f (fun y =>
      if r.good || !needsService k then restartLanes { y with park := none } (k.lanes ||| k.sure) k.pc
      else restartLanes (restartLanes { closeRegion y with park := none } k.sure k.pc) k.lanes k.target)
    (s.clearRing g w f).wake
/-- FAULT_SERVICE_DONE (R400). -/
def execFaultServiceDone (g w f : Nat) (answer : Option (List PageIn)) (s : State) : Host.Outcome State Fault Refusal :=
  .next (faultServiceDone g w f answer s)

/-- A path that stands for an instruction whose fetch failed. -/
def fetchPath (g w f : Nat) (pc : DWord) (word : Word) : Path := { g := g, w := w, f := f, mask := 0, pc := pc, word := word }

/-- The fetch of an agent that waits for a page. -/
def State.nonresOf (s : State) (who : Who) : Option DWord :=
  match who with
  | .fibre g w f => (s.fibreAt g w f).nonres.map (fun n => n.1)
  | .seq g => (s.groupAt g).seq.nonres
  | .ap g n => (s.apAt g n).nonres
def groupOfWho (who : Who) : Nat :=
  match who with
  | .fibre g _ _ => g
  | .seq g => g
  | .ap g _ => g
def State.clearNonres (s : State) (who : Who) : State :=
  match who with
  | .fibre g w f => s.modFibre g w f (fun x => { x with nonres := none })
  | .seq g => s.modSeq g (fun q => { q with nonres := none })
  | .ap g n => s.modAp g n (fun a => { a with nonres := none })

/-- FETCH_NONRES_MIGRATE (R28, R93, R320): the page comes in and the fetch is made again, or the agent stops with NONRES. -/
def fetchNonresMigrate (who : Who) (ok : Bool) (dpa : DWord) (data : List (Nat × Byte)) (s : State) : State :=
  match s.nonresOf who with
  | none => s
  | some va =>
    let t := s.clearNonres who
    match (if ok then t.migrateIn (s.groupAt (groupOfWho who)).ctx va.toNat dpa.toNat data else none) with
    | some t => t.wake
    | none => match who with
      | .fibre g w f => (match (s.fibreAt g w f).nonres with
        | some n => t.freezePath (fetchPath g w f n.2.1 n.2.2) cNONRES
        | none => s)
      | .seq g => t.haltSeq g cNONRES
      | .ap g n => t.stopAp g n
/-- FETCH_NONRES_MIGRATE (R28). -/
def execFetchNonresMigrate (who : Who) (ok : Bool) (dpa : DWord) (data : List (Nat × Byte)) (s : State) :
    Host.Outcome State Fault Refusal := .next (fetchNonresMigrate who ok dpa data s)

end Sys2Proof.Machine
end

