-- ==== Sys2Proof/Machine/Lanes.lean ====
section
/-! DEFINITION. Instructions across lanes: VTOS and BCST (R192), VIEW (R190), NBR and CXS along the neighbour chain (R177,
R193, R194), VOTE (R195), LRED and LSCAN (R196 to R198). -/

namespace Sys2Proof.Machine

/-- Copies one lane's words of A to every participant's D (R192). -/
def copyLane (lane : Nat) (x : Ex) (s : State) : State := s.writeDst x x.f.d (x.parts.map (fun l => (l, s.srcA x lane))) []

/-- Whether one lane's words of A are ready. -/
def copyReady (lane : Nat) (x : Ex) (s : State) : Bool := s.posReady { x with parts := [lane] } x.k.a x.f.a (x.f.sp.getLsbD 0)

/-- The lane VTOS copies (R192): the low five bits of B, or the lowest participant; or the poison of B. -/
def vtosLane (x : Ex) (s : State) : Nat ⊕ Val :=
  if x.f.sub.getLsbD 0 then .inl x.low else
  match s.readCode x x.f.b 0 x.low with
  | .ok w => if w.poison then .inr (.ok w) else .inl (w.val.toNat % 32)
  | v => .inr v

/-- Whether VTOS can issue (R192, R206). -/
def vtosReady (x : Ex) (s : State) : Bool :=
  (x.f.sub.getLsbD 0 || s.posReady x x.k.b x.f.b (x.f.sp.getLsbD 1)) && (match vtosLane x s with
    | .inl l => copyReady l x s
    | .inr _ => true)

/-- VTOS (R192). -/
def vtosOut (x : Ex) (s : State) : State :=
  match vtosLane x s with
  | .inl l => copyLane l x s
  | .inr v => s.writeDst x x.f.d (x.parts.map (fun l => (l, List.replicate x.outWords v))) []

def vtosBody (x : Ex) (s : State) : Out := if !vtosReady x s then .wait else .ok (vtosOut x s) []
/-- VTOS (R192). -/
def execVtos (f : Fields) (s : State) : Host.Outcome State Fault Refusal := runInstr 0x44 f vtosBody s

/-- The lane BCST copies (R192). -/
def bcstLane (x : Ex) : Nat := if x.f.b6.getLsbD 5 then x.low else x.f.b6.toNat % 32

def bcstBody (x : Ex) (s : State) : Out := if !copyReady (bcstLane x) x s then .wait else .ok (copyLane (bcstLane x) x s) []
/-- BCST (R192). -/
def execBcst (f : Fields) (s : State) : Host.Outcome State Fault Refusal := runInstr 0x75 f bcstBody s

/-- Why VIEW rejects a value: the limit it passes (R190, R387). DEDUCED (log 124). -/
def viewLimit (x : Ex) (s : State) (v : Word) : Option Nat :=
  let n := v.toNat
  match x.f.d.toNat with
  | 1 => if n / 2 ^ 19 != 0 || 5 < n / 2 ^ 16 % 8 then some 0x5FFFF else none
  | 3 =>
    let alloc := (s.warpAt x.p.g x.p.w).alloc / 2048
    let len := n / 2 ^ 16 % 512
    if n / 2 ^ 25 != 0 || n / 2 ^ 9 % 128 != 0 || len = 0 || 384 < len || alloc < n % 512 + len then some alloc else none
  | _ => if n / 2 ^ 16 != 0 then some 0xFFFF else none

/-- VIEW (R190): poison and rejected values are counted. -/
def viewOut (x : Ex) (s : State) : State :=
  let bad := fun (v : Val) => s.countBad x.p.g x.p.w x.p.f 0 x.p.pc [(wholeUnit, v)]
  match s.readCode x x.f.a 0 x.low with
  | .ok w =>
    if w.poison then bad (.ok w) else
    match viewLimit x s w.val with
    | some n => bad (.new cBOUNDS (w.val.setWidth 64) (BitVec.ofNat 32 n))
    | none => s.modFibre x.p.g x.p.w x.p.f (fun y => match x.f.d.toNat with
        | 0 => { y with vvec := w.val }
        | 1 => { y with vtile := w.val }
        | 2 => { y with vacc := w.val }
        | _ => { y with win := w.val })
  | v => bad v

def viewBody (x : Ex) (s : State) : Out := if !s.ready x { b := false, c := false } then .wait else .ok (viewOut x s) []
/-- VIEW (R190). -/
def execView (f : Fields) (s : State) : Host.Outcome State Fault Refusal := runInstr 0x45 f viewBody s

/-! The neighbour chain (R177). -/

/-- A place on the chain: a group, a warp and a lane. -/
structure Place where
  g : Nat
  w : Nat
  l : Nat
deriving DecidableEq, Repr

/-- The place `k` positions from a lane along the ring of its cluster set (R177, R193). -/
def State.chainPlace (s : State) (x : Ex) (lane : Nat) (k : Int) : Option Place :=
  let gr := x.group s
  let per := 32 * gr.warps.length
  let all : Int := (gr.cw * gr.ch * per : Nat)
  let pos : Int := (gr.member * per + 32 * x.p.w + lane : Nat)
  let t := ((pos + k) % all).toNat
  (s.memberGroup x.p.g (t / per)).map (fun g => { g := g, w := t % per / 32, l := t % 32 })

/-- The fibre through whose view a place's register is found: the same-numbered one of its warp (R177); the reader's own as its
path sees it (R190). -/
def State.placeFibre (s : State) (x : Ex) (p : Place) : Fibre :=
  if p.g == x.p.g && p.w == x.p.w then x.fibre s else s.fibreAt p.g p.w x.p.f

/-- Whether the register's bytes lie in the source warp's allocation, and the offset of the place's word (R177). -/
def State.placeOff (s : State) (x : Ex) (p : Place) (half : Nat) : Nat :=
  vecOff (s.placeFibre x p) (x.f.a.toNat + half) + p.l
def State.placeIn (s : State) (x : Ex) (p : Place) : Bool :=
  let n := if Cls.isPair x.k.a then 64 else 32
  decide (4 * (vecOff (s.placeFibre x p) x.f.a.toNat + n) ≤ (s.warpAt p.g p.w).alloc)

/-- The word at a place, before this cycle's writes in the reader's own slot (R194). -/
def State.placeReg (s : State) (x : Ex) (p : Place) (half : Nat) : RegWord :=
  if p.g == x.p.g && p.w == x.p.w then sgetD (s.seenRegs x.p) (s.placeOff x p half) {}
  else s.regAt p.g p.w (s.placeOff x p half)

/-- The word a reader obtains from a place under its policy (R24, R177). A retired group's words are free. DEDUCED (log 125). -/
def State.placeRead (s : State) (x : Ex) (p : Option Place) (half : Nat) : Val × State :=
  match p with
  | none => let (v, s) := s.freeWord; (.ok (mkWord v), s)
  | some p =>
    if (s.groupAt p.g).retired then let (v, s) := s.freeWord; (.ok (mkWord v), s)
    else if !s.placeIn x p then
      (.new cBOUNDS (BitVec.ofNat 64 (4 * s.placeOff x p half)) (BitVec.ofNat 32 (s.warpAt p.g p.w).alloc), s)
    else
      let w := s.placeReg x p half
      (if w.full then .ok w else .new cEMPTY 0 (x.f.a.setWidth 32), s)

def State.placeReady (s : State) (x : Ex) (p : Option Place) : Bool :=
  match p with
  | none => true
  | some p => (s.groupAt p.g).retired || !s.placeIn x p
      || ((s.placeReg x p 0).full && (!Cls.isPair x.k.a || (s.placeReg x p 1).full))

/-- Whether the words at some places are full, or the policy probes (R24, R193). -/
def chainReady (places : List (Nat × (Option Place ⊕ Val))) (x : Ex) (s : State) : Bool :=
  x.f.sp.getLsbD 0 || places.all (fun p => match p.2 with
    | .inl q => s.placeReady x q
    | .inr _ => true)

/-- NBR and CXS: the words read become outstanding writes of D (R193). -/
def chainOut (places : List (Nat × (Option Place ⊕ Val))) (copyRes : Bool) (x : Ex) (s : State) : State :=
  let halves := if Cls.isPair x.k.a then [0, 1] else [0]
  let step : List (Nat × Nat × Val) × State → Nat × (Option Place ⊕ Val) → List (Nat × Nat × Val) × State :=
    fun acc p => halves.foldl (fun acc h =>
      match p.2 with
      | .inr v => (acc.1 ++ [(p.1, h, v)], acc.2)
      | .inl q => let (v, s) := acc.2.placeRead x q h; (acc.1 ++ [(p.1, h, v)], s)) acc
  let (got, s) := places.foldl step ([], s)
  let (s, tbl) := s.makePoison x.p.g x.p.w x.p.f 0 x.p.pc (got.map (fun e => (e.1, e.2.2)))
  let items : List Item := got.map (fun e =>
    let w := e.2.2.word tbl
    { dst := s.destOf x x.f.d e.2.1 e.1, lane := e.1, got := some (.reg (if copyRes || w.poison then w else mkWord w.val)) })
  s.produce x .lane false false items

/-- The places NBR reads (R193). -/
def nbrPlaces (x : Ex) (s : State) : List (Nat × (Option Place ⊕ Val)) :=
  x.parts.map (fun l => (l, .inl (s.chainPlace x l x.f.b6.toInt)))

def nbrBody (x : Ex) (s : State) : Out :=
  if !chainReady (nbrPlaces x s) x s then .wait else .ok (chainOut (nbrPlaces x s) true x s) []
/-- NBR (R193). -/
def execNbr (f : Fields) (s : State) : Host.Outcome State Fault Refusal := runInstr 0x70 f nbrBody s

/-- The place CXS reads for a lane with the value `b` (R193). -/
def State.crossPlace (s : State) (x : Ex) (l b : Nat) : Option Place :=
  let b := b % 32
  match x.f.b6.toNat with
  | 0 => some { g := x.p.g, w := x.p.w, l := b }
  | 1 => some { g := x.p.g, w := x.p.w, l := l ^^^ b }
  | 2 => s.chainPlace x l (-(b : Int))
  | _ => s.chainPlace x l b

/-- The places CXS reads, or the poison of B (R193). -/
def cxsPlaces (x : Ex) (s : State) : List (Nat × (Option Place ⊕ Val)) :=
  x.parts.map (fun l => (l, match s.readCode x x.f.b 0 l with
    | .ok w => if w.poison then .inr (.ok w) else .inl (s.crossPlace x l w.val.toNat)
    | v => .inr v))

/-- Whether CXS can issue (R193, R206). -/
def cxsReady (x : Ex) (s : State) : Bool :=
  s.posReady x x.k.b x.f.b (x.f.sp.getLsbD 1) && chainReady (cxsPlaces x s) x s

def cxsBody (x : Ex) (s : State) : Out := if !cxsReady x s then .wait else .ok (chainOut (cxsPlaces x s) false x s) []
/-- CXS (R193). -/
def execCxs (f : Fields) (s : State) : Host.Outcome State Fault Refusal := runInstr 0x71 f cxsBody s

/-! Votes and reductions. -/

/-- VOTE (R195): participants with a poisoned predicate strand and are left out. -/
def voteOut (x : Ex) (s : State) : State :=
  let n := x.f.a.toNat
  let y := { x with parts := s.goodPred x n }
  let yes := y.parts.filter (fun l => (s.predAt x.p l n).val)
  let s := s.strand x.p (s.badPreds x n)
  if x.f.b6 == 3 then s.writeDst y x.f.d (y.parts.map (fun l => (l, [.ok (mkWord (maskOf yes))]))) []
  else
    let r := match x.f.b6.toNat with
      | 0 => yes.length == y.parts.length
      | 1 => !yes.isEmpty
      | _ => yes.isEmpty || yes.length == y.parts.length
    s.writePreds y x.f.d.toNat (y.parts.map (fun l => (l, .inl r))) []

def voteBody (x : Ex) (s : State) : Out := .ok (voteOut x s) []
/-- VOTE (R195). -/
def execVote (f : Fields) (s : State) : Host.Outcome State Fault Refusal := runInstr 0x72 f voteBody s

/-- One combination of LRED or LSCAN (R196), with its flags. -/
def comb (x : Ex) (a b : Nat) : Nat × Word :=
  let n := if x.wide then 64 else 32
  let e := fun (v : Nat) => exact n (tySigned x.ty) v
  if x.ty = 10 then
    let y := { x with f := { x.f with sub := 0 } }
    let vs := [fmtF32.decode false a, fmtF32.decode false b]
    match x.f.b6.toNat with
    | 0 => arith addOp y vs
    | 1 => minMax true false y vs
    | _ => minMax false false y vs
  else (match x.f.b6.toNat with
    | 0 => (a + b) % 2 ^ n
    | 1 => if e a ≤ e b then a else b
    | 2 => if e a ≤ e b then b else a
    | 3 => a &&& b
    | 4 => a ||| b
    | _ => a ^^^ b, 0)

/-- The identity of a combination (R197). -/
def combId (x : Ex) : Nat :=
  let n := if x.wide then 64 else 32
  let sg := tySigned x.ty
  if x.ty = 10 then (match x.f.b6.toNat with
    | 1 => 0x7F800000
    | 2 => 0xFF800000
    | _ => 0)
  else match x.f.b6.toNat with
    | 1 => if sg then 2 ^ (n - 1) - 1 else 2 ^ n - 1
    | 2 => if sg then 2 ^ (n - 1) else 0
    | 3 => 2 ^ n - 1
    | _ => 0

/-- Combines two sides of the tree, either of which may be absent (R197). -/
def combOpt (x : Ex) (a b : Option Nat) : Option Nat × Word :=
  match a, b with
  | some a, some b => let r := comb x a b; (some r.1, r.2)
  | some a, none => (some a, 0)
  | none, b => (b, 0)

/-- One level of the pairwise tree: neighbours at distance `w` (R197). -/
def treeLevel (x : Ex) : List (Option Nat) → List (Option Nat) × Word
  | a :: b :: r =>
    let c := combOpt x a b
    let t := treeLevel x r
    (c.1 :: t.1, c.2 ||| t.2)
  | l => (l, 0)

/-- The whole tree over 32 lanes: five levels (R197). -/
def treeReduce (x : Ex) (vs : List (Option Nat)) : Option Nat × Word :=
  let r := (List.range 5).foldl (fun acc _ => let t := treeLevel x acc.1; (t.1, acc.2 ||| t.2)) (vs, (0 : Word))
  (r.1.headD none, r.2)

/-- LRED (R196, R197): the lowest poisoned participant's words stand for the result. -/
def lredOut (x : Ex) (s : State) : State :=
  let rs := x.parts.map (fun l => (l, s.srcA x l))
  let made := madeOf rs
  match rs.findSome? (fun r => firstBad r.2) with
  | some v => s.writeDst x x.f.d (x.parts.map (fun l => (l, List.replicate x.outWords v))) made
  | none =>
    let vs := (List.range 32).map (fun l => (rs.find? (fun r => r.1 == l)).map (fun r => natOfWords (wordsOfVals r.2)))
    let t := treeReduce x vs
    let ws := (freshWords x.wide (t.1.getD 0)).map Val.ok
    (s.writeDst x x.f.d (x.parts.map (fun l => (l, ws))) []).flagEx x t.2

def lredBody (x : Ex) (s : State) : Out := if !s.ready x { b := false, c := false } then .wait else .ok (lredOut x s) []
/-- LRED (R196). -/
def execLred (f : Fields) (s : State) : Host.Outcome State Fault Refusal := runInstr 0x73 f lredBody s

/-- A running combination: nothing yet, a value, or the first poison met (R197). -/
inductive Run where
  | none
  | val (v : Nat)
  | bad (v : Val)

def Run.add (x : Ex) (r : Run) (vs : List Val) : Run × Word :=
  match r, firstBad vs with
  | .bad v, _ => (.bad v, 0)
  | _, some v => (.bad v, 0)
  | .none, _ => (.val (natOfWords (wordsOfVals vs)), 0)
  | .val a, _ => let c := comb x a (natOfWords (wordsOfVals vs)); (.val c.1, c.2)

def Run.out (x : Ex) (r : Run) : List Val :=
  match r with
  | .none => (freshWords x.wide (combId x)).map Val.ok
  | .val v => (freshWords x.wide v).map Val.ok
  | .bad v => List.replicate x.outWords v

/-- LSCAN (R196, R197), left to right in lane order. -/
def scan (x : Ex) (excl : Bool) : List (Nat × List Val) → Run → List (Nat × List Val) × Word
  | [], _ => ([], 0)
  | (l, vs) :: r, acc =>
    if excl && r.isEmpty then ([(l, acc.out x)], 0) else
    let (nxt, fl) := acc.add x vs
    let t := scan x excl r nxt
    ((l, (if excl then acc else nxt).out x) :: t.1, fl ||| t.2)

/-- LSCAN (R196, R197). -/
def lscanOut (x : Ex) (s : State) : State :=
  let rs := x.parts.map (fun l => (l, s.srcA x l))
  let t := scan x (x.f.sub.getLsbD 0) rs .none
  (s.writeDst x x.f.d t.1 (madeOf rs)).flagEx x t.2

def lscanBody (x : Ex) (s : State) : Out := if !s.ready x { b := false, c := false } then .wait else .ok (lscanOut x s) []
/-- LSCAN (R196). -/
def execLscan (f : Fields) (s : State) : Host.Outcome State Fault Refusal := runInstr 0x74 f lscanBody s

end Sys2Proof.Machine
end

