-- ==== Sys2Proof/Machine/Sync.lean ====
section
/-! DEFINITION. Synchronisation in a group: barriers (R199 to R202, R220), fibre barriers (R203), full/empty tags of registers
(R204, R205). -/

namespace Sys2Proof.Machine

/-- A barrier number outside the group's objects (R220): its poison. -/
def Ex.barNo (x : Ex) : Nat := x.f.b6.toNat % 32
def State.badBar (s : State) (x : Ex) : Option Val :=
  let n := (x.group s).nbar
  if n ≤ x.barNo then some (.new cBOUNDS (BitVec.ofNat 64 x.barNo) (BitVec.ofNat 32 n)) else none

/-- BARI (R200): the expected count, or poison counted. -/
def bariOut (x : Ex) (s : State) : State :=
  let s := s.irrev x
  let bad := fun (v : Val) => s.countBad x.p.g x.p.w x.p.f 0 x.p.pc [(wholeUnit, v)]
  match s.badBar x with
  | some v => bad v
  | none =>
    match s.readCode x x.f.a 0 x.low with
    | .ok w =>
      if w.poison then bad (.ok w) else
      s.barOp x.p.g (.set x.barNo (min w.val.toNat 65535) (x.f.sub.getLsbD 0) (s.warpAt x.p.g x.p.w).slot x.p.f)
    | v => bad v

def bariBody (x : Ex) (s : State) : Out := if !s.ready x { b := false, c := false } then .wait else .ok (bariOut x s) []
/-- BARI (R200). -/
def execBari (f : Fields) (s : State) : Host.Outcome State Fault Refusal := runInstr 0xA0 f bariBody s

/-- The members of an arrival: the fibre under .one, else the participants (R200). -/
def Ex.arrivers (x : Ex) (one : Bool) : List Member :=
  if one then [.fibre x.p.w x.p.f] else membersOf x.p.w x.p.f x.parts

/-- Destinations of a word that every participant receives and that is known only at the end of the cycle, older work of the lanes
aimed at them being discarded (R126); a partial uniform write is MIXED at once (R175). -/
def State.laterDests (s : State) (x : Ex) : List Dest × State :=
  let mine := fun (ds : List (Nat × Dest)) =>
    (ds.map (fun e => e.2), ds.foldl (fun (s : State) e => s.dropDest x.p.g x.p.w x.p.f (some e.1) e.2) s)
  if 0xC0 ≤ x.f.d.toNat ∧ x.f.d.toNat < 0xF0 then
    if x.whole s then mine [(wholeUnit, s.destOf x x.f.d 0 0)]
    else ([], s.writeDst x x.f.d (x.parts.map (fun l => (l, [.ok {}]))) [])
  else mine (x.parts.map (fun l => (l, s.destOf x x.f.d 0 l)))

/-- The arrival of BARA and BARD (R200). -/
def arriveOut (drop : Bool) (x : Ex) (s : State) : State :=
  let s := s.irrev x
  match s.badBar x with
  | some v => s.writeDst x x.f.d (x.parts.map (fun l => (l, [v]))) []
  | none =>
    let ms := x.arrivers (x.f.sub.getLsbD 0)
    let (ds, s) := s.laterDests x
    s.barOp x.p.g (.arrive x.barNo ms ms.length drop ds [])

/-- BARA and BARD (R200): a core release (R280), then the arrival. -/
def arriveBody (drop : Bool) (x : Ex) (s : State) : Out :=
  if !s.coreRelease x (x.f.sub.getLsbD 0) then .wait else .ok (arriveOut drop x s) []

def baraBody (x : Ex) (s : State) : Out := arriveBody false x s
/-- BARA (R200). -/
def execBara (f : Fields) (s : State) : Host.Outcome State Fault Refusal := runInstr 0xA1 f baraBody s

def bardBody (x : Ex) (s : State) : Out := arriveBody true x s
/-- BARD (R200). -/
def execBard (f : Fields) (s : State) : Host.Outcome State Fault Refusal := runInstr 0xA3 f bardBody s

/-- The low 16 bits of a token word. -/
def tokenOf (w : RegWord) : BitVec 16 := w.val.setWidth 16

/-- Whether BARW can issue: its arrival is a core release (R206, R280). -/
def barwReady (x : Ex) (s : State) : Bool :=
  if x.f.sub.getLsbD 0 then s.coreRelease x (x.f.sub.getLsbD 1) else s.ready x { b := false, c := false }

/-- BARW (R200, R220): lanes wait; a poisoned token, or a number outside the group, strands. -/
def barwOut (x : Ex) (s : State) : State :=
  let arr := x.f.sub.getLsbD 0
  let s := if arr then s.irrev x else s
  match s.badBar x with
  | some v => s.strandVals x [] (x.parts.map (fun l => (l, v)))
  | none =>
    if arr then
      let ms := x.arrivers (x.f.sub.getLsbD 1)
      s.barOp x.p.g (.arrive x.barNo ms ms.length false [] (x.parts.map (fun l => (x.p.w, x.p.f, l))))
    else
      let rs := x.parts.map (fun l => (l, s.readCode x x.f.a 0 l))
      let bads := rs.filter (fun r => r.2.isBad)
      let s := rs.foldl (fun s r => match r.2 with
        | .ok w => if w.poison then s else
          s.modLane x.p.g x.p.w x.p.f r.1 (fun l => { l with st := .waiting (.bar x.barNo (tokenOf w)) })
        | .new _ _ _ => s) s
      (s.strandVals x [] bads).barOp x.p.g (.arrive x.barNo [] 0 false [] [])

def barwBody (x : Ex) (s : State) : Out := if !barwReady x s then .wait else .ok (barwOut x s) []
/-- BARW (R200). -/
def execBarw (f : Fields) (s : State) : Host.Outcome State Fault Refusal := runInstr 0xA2 f barwBody s

/-- BART (R200, R220). -/
def bartOut (x : Ex) (s : State) : State :=
  let ph := (s.barAt x.p.g x.barNo).phase
  let outs : List (Nat × (Bool ⊕ Val)) := x.parts.map (fun l => (l, match s.badBar x with
    | some v => .inr v
    | none => match s.readCode x x.f.a 0 l with
      | .ok w => if w.poison then .inr (.ok w) else .inl (tokenOf w != ph)
      | v => .inr v))
  s.writePreds x x.f.d.toNat outs []

def bartBody (x : Ex) (s : State) : Out := if !s.ready x { b := false, c := false } then .wait else .ok (bartOut x s) []
/-- BART (R200). -/
def execBart (f : Fields) (s : State) : Host.Outcome State Fault Refusal := runInstr 0xA4 f bartBody s

/-- What FBAR's participants wait for (R203). -/
def fbarWait (x : Ex) : Wait := if x.f.sub.getLsbD 0 then .fbarSlot else .fbar

/-- FBAR (R203): the participants wait; completion is tested at the end of the cycle. -/
def fbarOut (x : Ex) (s : State) : State :=
  s.modFibre x.p.g x.p.w x.p.f (fun y =>
    { y with lanes := y.lanes.mapIdx (fun i l => if x.parts.contains i then { l with st := .waiting (fbarWait x) } else l) })

/-- FBAR is a core release (R280). -/
def fbarBody (x : Ex) (s : State) : Out := if !s.coreRelease x false then .wait else .ok (fbarOut x s) []
/-- FBAR (R203). -/
def execFbar (f : Fields) (s : State) : Host.Outcome State Fault Refusal := runInstr 0xA5 f fbarBody s

/-! Full and empty tags of register ranges (R204, R205). -/

/-- Word offsets of the range that FEST and FEQ name, for one lane of a vector range (R204). -/
def feWords (x : Ex) (s : State) (first : BitVec 8) (lane : Nat) : List Nat :=
  let y := x.fibre s
  let n := x.f.b6.toNat + 1
  match x.f.sub.toNat / 2 with
  | 0 => (List.range n).map (fun i => vecOff y (first.toNat + i) + lane)
  | 1 => (List.range (tileWords y.vtile * n)).map (fun i => tileOff y.vtile first.toNat + i)
  | _ => (List.range (256 * n)).map (fun i => accOff y.vacc first.toNat + i)

/-- FEST (R204): the tags alone. -/
def festOut (x : Ex) (s : State) : State :=
  let full := x.f.sub.getLsbD 0
  let ls := if x.f.sub.toNat / 2 = 0 then x.parts else [x.low]
  ls.foldl (fun s l => (feWords x s x.f.d l).foldl (fun s off =>
    s.setFull (.vec x.p.g x.p.w off) full) s) s

def festBody (x : Ex) (s : State) : Out := .ok (festOut x s) []
/-- FEST (R204). -/
def execFest (f : Fields) (s : State) : Host.Outcome State Fault Refusal := runInstr 0xA6 f festBody s

/-- Whether every word of the range has the tag, for one lane (R205). -/
def feqHolds (x : Ex) (s : State) (l : Nat) : Bool :=
  (feWords x s x.f.a l).all (fun off => (sgetD (s.seenRegs x.p) off {}).full == x.f.sub.getLsbD 0)

/-- Whether FEQ can issue: under block it waits until the condition holds (R205). -/
def feqReady (x : Ex) (s : State) : Bool := x.f.sp.getLsbD 0 || x.parts.all (feqHolds x s)

/-- FEQ tells whether the condition holds (R205). -/
def feqOut (x : Ex) (s : State) : State := s.writePreds x x.f.d.toNat (x.parts.map (fun l => (l, .inl (feqHolds x s l)))) []

def feqBody (x : Ex) (s : State) : Out := if !feqReady x s then .wait else .ok (feqOut x s) []
/-- FEQ (R205). -/
def execFeq (f : Fields) (s : State) : Host.Outcome State Fault Refusal := runInstr 0xA7 f feqBody s

end Sys2Proof.Machine
end

