-- ==== Sys2Proof/Machine/System.lean ====
section
/-! DEFINITION. The part as a whole: boot and partitions (R445, R446, R484 to R487), binding and teardown of contexts (R240,
R434 to R438), errors of the registry, caches, links and control state (R405, R406, R453 to R455), dies and DRAM layers (R456
to R459), the mailbox, registers and RAS logs (R229, R488, R493 to R496). -/

namespace Sys2Proof.Machine

/-! RAS logs (R494 to R496). -/

def rasOVF : Word := 0x80000000
def rasUE : Word := 0x40000000

/-- Logs an entry (R495, R496): written whole, then RASHEAD advances; a full ring drops it. Either raises a management
interrupt (R488). TIME counts the cycles that %clk counts (R120); a DETAIL that is a syndrome is free. DESIGN CHOICE (log 105). -/
def State.rasLog (s : State) (ty unit unum dpa : Nat) (detail : Option Nat) : State :=
  let r := s.ras
  if (r.head - r.tail).toNat = r.cnt.toNat then
    let lost := min 65535 (r.stat.toNat % 65536 + 1)
    ({ s with ras := { r with stat := ((r.stat &&& 0xFFFF0000) ||| rasOVF) ||| BitVec.ofNat 32 lost } } : State).mgmtEvent
  else
    let s := s.tick
    let (m, s) := s.fresh
    let a := r.base.toNat + 32 * (r.head.toNat % r.cnt.toNat)
    let bs := [BitVec.ofNat 8 ty, BitVec.ofNat 8 unit] ++ bytesOfNat unum 2 ++ zeros 4 ++ bytesOfNat dpa 8
      ++ bytesOfNat s.clk.toNat 8 ++ bytesOfNat (detail.getD (Config.freeCount m)) 8
    let s := s.areaWrite 0 a bs
    ({ s with ras := { r with head := r.head + 1, stat := if ty = 2 || ty = 3 then r.stat ||| rasUE else r.stat } } : State).mgmtEvent

/-- The unit and the number that an entry names for a memory address: the HBM stack of its frame, or its slice's capacity tier (R459, R495). -/
def State.rasPlace (s : State) (a : Nat) : Nat × Nat :=
  if memberNo a = s.atlasAt a then (0, 2 * dpaSlice a + congruence a / 49152) else (1, dpaSlice a)

/-- A correctable error: corrected and counted, and logged where the count crosses a multiple of 1,024 (R452, R494, R496). DEDUCED (log 106). -/
def State.corrected (s : State) (unit unum dpa : Nat) : State :=
  let n := s.ras.ce + 1
  let s := { s with ras := { s.ras with ce := n } }
  if n.toNat % 1024 = 0 then s.rasLog 1 unit unum dpa none else s

/-- RASTAIL (R496): a value above RASHEAD is taken as equal to it. -/
def rastail (v : Word) (s : State) : State :=
  { s with ras := { s.ras with tail := if s.ras.head.toNat < v.toNat then s.ras.head else v } }
/-- RASTAIL (R496). -/
def execRastail (v : Word) (s : State) : Host.Outcome State Fault Refusal := .next (rastail v s)

/-- RASSTAT (R494): ones clear OVF and UE; clearing OVF clears LOST. -/
def rasstat (v : Word) (s : State) : State :=
  let t := s.ras.stat &&& ~~~(v &&& (rasOVF ||| rasUE))
  { s with ras := { s.ras with stat := if v &&& rasOVF != 0 then t &&& 0xFFFF0000 else t } }
/-- RASSTAT (R494). -/
def execRasstat (v : Word) (s : State) : Host.Outcome State Fault Refusal := .next (rasstat v s)

/-! Boot and management (R484 to R488). -/

/-- The hashes of 64 bytes that the boot ROM and each later stage add to the measurement log (R485). -/
def hashesOf (digest : List Byte) : List (List Byte) :=
  (List.range (max 1 (digest.length / 64))).map (fun i => (digest.drop (64 * i)).take 64)

/-- POWER_UP (R484, R485): from power off, the units of hub die 0 start and the first image is checked; the hashes of the stages, the first
image's first, go into the measurement log, and the other units start one after another. Where the check fails the management port reports a
code, and only a new image in the flash helps. DESIGN CHOICE (log 145): the code is open. -/
def powerUp (imageOk : Bool) (digest : List Byte) (s : State) : State :=
  if s.boot ≠ .off then s
  else if imageOk && !s.flashBad then { s with boot := .starting 1, log := s.log ++ hashesOf digest }
  else let (n, s) := s.fresh
    { s with boot := .failed, portCode := some (Config.freeCount n), flashBad := true }
/-- POWER_UP (R484). -/
def execPowerUp (imageOk : Bool) (digest : List Byte) (s : State) : Host.Outcome State Fault Refusal := .next (powerUp imageOk digest s)

/-- The next kind of unit has started, in order: the other hub dies, the memory, the ports, the compute dies; then the part runs (R484). -/
def State.unitUp (s : State) : Option State :=
  match s.boot with
  | .starting n => some { s with boot := if 4 ≤ n then .running else .starting (n + 1) }
  | _ => none

/-- FIRMWARE_REFLASH (R484): after a failed boot a good image lets the part start again. -/
def firmwareReflash (imageOk : Bool) (s : State) : State :=
  if s.boot = .failed && imageOk then { s with boot := .off, portCode := none, flashBad := false } else s
/-- FIRMWARE_REFLASH (R484). -/
def execFirmwareReflash (imageOk : Bool) (s : State) : Host.Outcome State Fault Refusal := .next (firmwareReflash imageOk s)

/-- POWER_LOSS (R438): the package retains nothing; the module's flash is no part of it (R484). DESIGN CHOICE (log 109). -/
def powerLoss (s : State) : State :=
  { (State.reset) with agenda := s.agenda, turnNo := s.turnNo, freeN := s.freeN, idN := s.idN, flashBad := s.flashBad }
/-- POWER_LOSS (R438). -/
def execPowerLoss (s : State) : Host.Outcome State Fault Refusal := .next (powerLoss s)

/-- MGMT_CORE_FAIL (R486): a spare takes the work of an active core, while there is one; the requests that the core had accepted are served
again from their start. -/
def mgmtCoreFail (n : Nat) (s : State) : State :=
  match s.mgmt[n]? with
  | none => s
  | some r =>
    let m := s.mgmt.set n .failed
    let m := if r == .active then (match m.findIdx? (fun r => r == .spare) with
      | some k => m.set k .active
      | none => m) else m
    { s with mgmt := m, mail := { s.mail with requests := s.mail.requests.map (fun r => if r.core = some n then { r with core := none } else r) } }
/-- MGMT_CORE_FAIL (R486). -/
def execMgmtCoreFail (n : Nat) (s : State) : Host.Outcome State Fault Refusal := .next (mgmtCoreFail n s)

/-- CLOCK_THROTTLE (R493): no result changes. DEDUCED (log 117). -/
def clockThrottle (die : Nat) (low : Bool) (s : State) : State :=
  if 13 ≤ die then s
  else { s with throttled := if low then (if s.throttled.contains die then s.throttled else s.throttled ++ [die])
                             else s.throttled.filter (fun d => d != die) }
/-- CLOCK_THROTTLE (R493). -/
def execClockThrottle (die : Nat) (low : Bool) (s : State) : Host.Outcome State Fault Refusal := .next (clockThrottle die low s)

/-- MAILBOX_REQUEST (R488): the ring holds 256 entries of 64 bytes; while all are taken the host writes none. DEDUCED (log 110). -/
def mailboxRequest (req : List Byte) (s : State) : State :=
  if s.boot ≠ .running || decide (256 ≤ s.mail.requests.length) then s else
  { s with mail := { s.mail with requests := s.mail.requests ++ [{ req := fit16 64 req }] } }
/-- MAILBOX_REQUEST (R488). -/
def execMailboxRequest (req : List Byte) (s : State) : Host.Outcome State Fault Refusal := .next (mailboxRequest req s)

/-- An active management core that serves no request accepts the first that none has accepted (R486). DEDUCED (log 110). -/
def State.mailTake (s : State) : Option State :=
  match firstBelow 12 (fun k => s.mgmt.getD k .failed == .active && !s.mail.requests.any (fun r => r.core == some k)),
      s.mail.requests.findIdx? (fun r => r.core.isNone) with
  | some k, some i => some { s with mail := { s.mail with requests := modAt s.mail.requests i (fun r => { r with core := some k }) } }
  | _, _ => none

/-- A request that a core has accepted is answered, once; which is open (R486). What the answer holds, and how the host reads it, no rule says.
DEDUCED (log 110). -/
def State.mailAnswer (s : State) : Option State :=
  let taken := (List.range s.mail.requests.length).filter (fun i => ((s.mail.requests[i]?).bind (fun r => r.core)).isSome)
  if taken.isEmpty then none else
  let (n, s) := s.fresh
  some { s with mail := { s.mail with requests := s.mail.requests.eraseIdx (taken.getD (Config.freeCount n % taken.length) 0)
                                      answered := s.mail.answered + 1 } }

/-- Denuf's next work on the mailbox: which of the two comes first is open. -/
def State.mailGo (s : State) : Option State :=
  if Config.freeBool s.freeN then s.fresh.2.mailTake.orElse (fun _ => s.fresh.2.mailAnswer)
  else s.fresh.2.mailAnswer.orElse (fun _ => s.fresh.2.mailTake)

/-- EVENT_RING_CONSUME (R488). -/
def eventRingConsume (n : Nat) (s : State) : State := { s with mail := { s.mail with events := s.mail.events.drop n } }
/-- EVENT_RING_CONSUME (R488). -/
def execEventRingConsume (n : Nat) (s : State) : Host.Outcome State Fault Refusal := .next (eventRingConsume n s)

/-! Partitions (R445, R446, R485). -/

/-- Permitted runs of `n` slices from slice `f` (R445). -/
def cutOk (f n : Nat) : Bool :=
  match n with
  | 1 => decide (f < 12)
  | 2 => decide (f < 12) && f % 2 == 0
  | 3 => decide (f < 12) && f % 3 == 0
  | 6 => f == 0 || f == 6
  | 12 => f == 0
  | _ => false

/-- Brings every owned word home and empties every L1 (R446, steps 1 and 2). -/
def State.bringHome (s : State) : State :=
  let s := (s.owners.map (fun e => e.1)).foldl (fun s wa => s.pullHome wa) s
  { s with owners := [], msgs := [], holds := [], pend := []
           cores := s.cores.map (fun (c : Nat × Core) => (c.1, { c.2 with l1 := [] })) }

/-- PARTITION_CUT (R438, R445, R446): while no context is bound and nothing is blocked. -/
def partitionCut (f n : Nat) (s : State) : State :=
  if s.boot ≠ .running || !cutOk f n || !s.ctxs.isEmpty || !s.engine.launches.isEmpty || s.scrub.ctl.getLsbD 1 then s else
  let s := s.bringHome
  { s with msc := [], netPerf := [], walking := [], first := f, slices := n, started := false, cores := [], tokens := [], dieTlb := [], walks := [], tables := []
           pool := s.pool.map (fun o => if o = 1 then 0 else o) }
/-- PARTITION_CUT (R446). -/
def execPartitionCut (f n : Nat) (s : State) : Host.Outcome State Fault Refusal := .next (partitionCut f n s)

/-- The deadline for pooled commands that Denuf sets, or leaves at its reset value (R318). DESIGN CHOICE (log 137). -/
def State.chosenDeadline (s : State) (n : Nat) : Nat := if Config.freeBool n then 1 + Config.freeCount n % 10000 else s.deadline

/-- PARTITION_START (R216, R317, R318, R485, R491): counters and launch sequence numbers start anew; which pooled engines Denuf gives the
partition, and its deadline, are open. -/
def partitionStart (s : State) : State :=
  if s.boot ≠ .running || s.slices = 0 || s.started then s else
  let n := s.freeN
  { s with started := true, clk := 0, netPerf := [], freeN := n + 49
           cores := s.cores.map (fun (c : Nat × Core) => (c.1, { c.2 with perf := [], up := false }))
           engine := { s.engine with lsnnext := 1 }
           pool := (List.range 48).map (fun k => Config.freeCount (n + k) % 3), deadline := s.chosenDeadline (n + 48) }
/-- PARTITION_START (R485). -/
def execPartitionStart (s : State) : Host.Outcome State Fault Refusal := .next (partitionStart s)

/-- The cores of the partition. -/
def State.allCores (s : State) : List Nat := List.range (s.width * s.height)

/-- CORE_UP (R485): in row-major order. -/
def coreUp (core : Nat) (s : State) : State :=
  if !s.started || s.width * s.height ≤ core || s.coreAbsent core || (s.coreAt core).up then s
  else if !(List.range core).all (fun c => (s.coreAt c).up || s.coreAbsent c) then s
  else ((s.modCore core (fun c => { c with up := true })).refill [core]).wake
/-- CORE_UP (R485). -/
def execCoreUp (core : Nat) (s : State) : Host.Outcome State Fault Refusal := .next (coreUp core s)

/-! Contexts (R240, R434). -/

/-- A free key slot (R434). -/
def State.freeKey (s : State) : Option Nat :=
  firstBelow 16 (fun k => sgetD s.keys k 0 == 0 && !s.ctxs.any (fun c => c.key == some k))

/-- The tables of a context, within their sizes (R464). -/
def boundCfg (c : CtxCfg) : CtxCfg := { c with peers := c.peers.take 4096, regions := c.regions.take 65536 }

/-- What Denuf changes of a bound context (R419, R464, R477): its peer and region tables, its time slice of 100 µs to 1 s, and its NOBUF deadline of
1 µs to 100 ms. -/
def Ctx.retuned (x : Ctx) (c : CtxCfg) : Ctx :=
  { x with sliceNs := if 100000 ≤ c.slice ∧ c.slice ≤ 1000000000 then c.slice else x.sliceNs
           cfg := { x.cfg with peers := (boundCfg c).peers, regions := (boundCfg c).regions
                               nobuf := if 1 ≤ c.nobuf ∧ c.nobuf ≤ 100000 then c.nobuf else x.cfg.nobuf } }

/-- CONTEXT_BIND (R240, R253, R419, R434, R438, R464, R477): not while the partition is blocked. A context's time slice is then 2 ms, and its
NOBUF deadline 100 µs; for a context that is bound, Denuf changes what it may change. Denuf loads a protected context's keys; their
value is free. DEDUCED (log 113). -/
def contextBind (c : CtxCfg) (s : State) : State :=
  if s.boot ≠ .running || s.slices = 0 then s
  else if (s.ctx? c.num).isSome then s.modCtx c.num (fun x => x.retuned c)
  else if s.scrub.ctl.getLsbD 1 then s else
  let key := if c.isProtected then s.freeKey else none
  let (n, s) := s.fresh
  let s := s.grant c
  { s with ctxs := s.ctxs ++ [{ cfg := { boundCfg c with nobuf := 100 }, key := key }]
           keys := match key with
             | some k => sput s.keys k (Config.freeCount n + 1)
             | none => s.keys }
/-- CONTEXT_BIND (R240). -/
def execContextBind (c : CtxCfg) (s : State) : Host.Outcome State Fault Refusal := .next (contextBind c s)

/-! Teardown and scrub (R435 to R438). -/

/-- Removes a group of a context that is torn down, without an image (R435, step 2). -/
def State.discard (s : State) (g : Nat) : State :=
  let core := (s.groupAt g).core
  let s := s.leaveGroup g
  let gone := s.cmds.filter (fun c => c.g == g)
  let s := gone.foldl (fun s c => s.dropScore c.core c.id) s
  let s := { s with cmds := s.cmds.filter (fun c => c.g != g), xmsgs := s.xmsgs.filter (fun m => m.g != g)
                    prods := s.prods.filter (fun p => p.g != g), pend := s.pend.filter (fun p => p.g != g)
                    sysc := s.sysc.filter (fun r => r.g != g), pfts := s.pfts.filter (fun p => p.g != g)
                    groups := sdel s.groups g
                    cores := s.cores.map (fun (c : Nat × Core) =>
                      (c.1, { c.2 with parked := c.2.parked.filter (fun p => p.ig != g && p.g != g) })) }
  s.unfuseIdle core

/-- Whether a message carries a request of a context, or the answer to one. -/
def Msg.reqOf (m : Msg) (c : Byte) : Bool :=
  m.ctx == c && (match m.kind with
    | .reg _ => true
    | .rd => true
    | .ucw _ => true
    | .ack _ => true
    | .fwd _ => true
    | .data => true
    | .noown (some _) => true
    | .wb => m.rd == 0
    | _ => false)

/-- The requests of a revoked context come to nothing: its words leave the L1s, its writes are dropped (R253, R435). -/
def State.dropRequests (s : State) (c : Byte) : State :=
  let mine := s.cores.flatMap (fun (x : Nat × Core) => (x.2.l1.filter (fun e => e.2.ctx == c)).map (fun e => (x.1, e.1)))
  let msgs := (s.msgs.filter (fun m => m.reqOf c)).flatMap (fun m => (lineWas m.line m.mask).map (fun wa => (m.core, wa)))
  let s := { s with cores := s.cores.map (fun (x : Nat × Core) => (x.1, { x.2 with l1 := x.2.l1.filter (fun e => e.2.ctx != c) }))
                    msgs := s.msgs.filter (fun m => !m.reqOf c), pend := s.pend.filter (fun p => p.ctx != c)
                    holds := s.holds.map (fun (h : Hold) => { h with held := h.held.filter (fun m => !m.reqOf c)
                                                                     entered := h.entered.filter (fun m => !m.reqOf c) }) }
  (mine ++ msgs).foldl (fun s e => s.dropOwners (s.ownedBy e.1 [e.2])) s

/-- A transport message that a teardown cancels (R435, R471): its STATUS and its record; what it would still write is dropped. -/
def State.cancelX (s : State) (m : XMsg) : State :=
  if m.op = 0xD9 then s else
  let (v, s) := s.xCause m.tag 6
  ((s.descStore m.by_ (m.saddr + 56) 6).xStatus m 6 v).2

/-- A pooled command that a teardown cancels (R387, R435). -/
def State.cancelPooled (s : State) (c : Cmd) : State :=
  (s.addCart c.g c.w c.f { cause := BitVec.ofNat 8 cCANCEL, flags := flagCMD, unit := 0xFF, pc := c.pc, detail := BitVec.ofNat 32 c.tag }).2

/-- A launch that a teardown ends (R435): its status areas say STATE = 1; it makes no signal and performs no action. One that has been rejected
ends as such (R219). DEDUCED (log 112). -/
def State.tornLaunch (s : State) (l : Launch) : State :=
  let put := fun (s : State) (r : Record) (b : List Byte) => if r.status = 0 then s else s.enginePuts l.ctx r.status b
  if l.reason ≠ 0 then s.endWhole l else
  let s := (l.stages.filter (fun st => !st.ended)).foldl (fun s st => put s st.record (st.area l.lsn 1)) s
  if l.record.kind = 1 then put s l.record (l.area 1) else s

/-- What a teardown leaves of a context's work outside its groups (R435): cancelled operations are recorded, its launches end. Those of its groups
follow the revocation in the rule; nothing can tell, for no other part runs between. -/
def State.endWork (s : State) (c : Byte) : State :=
  let s := (s.xmsgs.filter (fun m => m.ctx == c)).foldl (fun s m => s.cancelX m) s
  let s := (s.cmds.filter (fun k => (s.groupAt k.g).ctx == c && k.cls != 0 && k.cls != 4)).foldl (fun s k => s.cancelPooled k) s
  let s := (s.engine.launches.filter (fun l => l.ctx == c)).foldl (fun s l => s.tornLaunch l) s
  s.modEngine (fun e => { e with launches := e.launches.filter (fun l => l.ctx != c) })

/-- Teardown's first three steps for a bound context (R435): revoke, drain, zero the keys. DEDUCED (log 112). -/
def State.tear (s : State) (c : Byte) : State :=
  if (s.ctx? c).isNone || s.teardown.contains c then s else
  let s := { s with scrub := { s.scrub with ctl := s.scrub.ctl ||| 2 } }
  let s := ((s.endWork c).revoke c).modCtx c (fun x => { x with notify := [], posted := [] })
  let gs := (s.groups.filter (fun e => e.2.ctx == c)).map (fun e => e.1)
  let saved := (s.saved.filter (fun v => v.ctx == c)).map (fun v => v.g)
  let s := gs.foldl (fun s g => s.discard g) s
  let s := { s with saved := s.saved.filter (fun v => v.ctx != c), cmds := s.cmds.filter (fun k => !saved.contains k.g)
                    xmsgs := s.xmsgs.filter (fun m => m.ctx != c), rxmsgs := s.rxmsgs.filter (fun r => r.job != c)
                    sysc := s.sysc.filter (fun r => !saved.contains r.g), walking := s.walking.filter (fun r => r.ctx != c)
                    placing := s.placing.filter (fun p => p.arr.job != c) }
  let s := s.modEngine (fun e => { e with slots := if s.cmds.any (fun k => k.kernel) then e.slots else sdel e.slots 63 })
  let s := s.dropRequests c
  let s := { s with keys := match (s.ctx? c).bind (fun x => x.key) with
    | some k => sdel s.keys k
    | none => s.keys }
  { s with teardown := s.teardown ++ [c] }.wake

/-- Tears down every context bound to the partition. -/
def State.tearAll (s : State) : State := (s.ctxs.map (fun c => c.cfg.num)).foldl (fun s c => s.tear c) s

/-- TEARDOWN (R435): the scrub and the release follow when the scrub is done. -/
def teardown (ctx : Byte) (s : State) : State := s.tear ctx
/-- TEARDOWN (R435). -/
def execTeardown (ctx : Byte) (s : State) : Host.Outcome State Fault Refusal := .next (teardown ctx s)

/-- SCRCTL_GO (R437). -/
def scrctlGo (s : State) : State := { s with scrub := { s.scrub with ctl := s.scrub.ctl ||| 1, prog := 0 } }
/-- SCRCTL_GO (R437). -/
def execScrctlGo (s : State) : Host.Outcome State Fault Refusal := .next (scrctlGo s)

/-- SCRCTL_BLOCK (R437). -/
def scrctlBlock (s : State) : State := { s with scrub := { s.scrub with ctl := s.scrub.ctl ||| 2 } }
/-- SCRCTL_BLOCK (R437). -/
def execScrctlBlock (s : State) : Host.Outcome State Fault Refusal := .next (scrctlBlock s)

def scrDONE : Word := 0x80000000
def scrERR : Word := 0x40000000

/-- SCRSTAT (R437): ones clear DONE and ERR. -/
def scrstat (v : Word) (s : State) : State :=
  { s with scrub := { s.scrub with stat := s.scrub.stat &&& ~~~(v &&& (scrDONE ||| scrERR)) } }
/-- SCRSTAT (R437). -/
def execScrstat (v : Word) (s : State) : Host.Outcome State Fault Refusal := .next (scrstat v s)

/-- The frame that entry `i` of the scrub list names (R437). -/
def State.scrubFrame (s : State) (i : Nat) : Nat :=
  natOfBytes (s.coherentBytes (s.scrub.list.toNat + 8 * i) 8).1 / 2 ^ 21 * 2 ^ 21

/-- One frame of the list: zeroed, or its write fails, which is logged, and it is mapped out (R436). -/
def State.scrubOne (s : State) (bads : List Nat) (e : Nat × Nat) : State :=
  let s := s.clearRange e.2 (2 ^ 21)
  if !bads.contains e.1 then s else
  let s := { s with scrub := { s.scrub with stat := s.scrub.stat ||| scrERR }, lostRanges := s.lostRanges ++ [(e.2, e.2 + 2 ^ 21)] }
  let u := s.rasPlace e.2
  s.rasLog 8 u.1 u.2 e.2 none

/-- The lines and translations of torn-down contexts are forgotten: the scrub's first part (R436). -/
def State.forgetTorn (s : State) : State :=
  let gone := fun (c : Byte) => s.teardown.contains c
  let s := s.tlbFilter (fun e => !gone e.ctx)
  { s with msc := s.msc.filter (fun e => !gone e.2.1)
           walks := s.walks.map (fun (d : Nat × List WalkEntry) => (d.1, d.2.filter (fun e => !gone e.ctx)))
           cores := s.cores.map (fun (x : Nat × Core) => (x.1, { x.2 with l1 := x.2.l1.filter (fun e => !gone e.2.ctx) })) }

/-- The next frame of the list is scrubbed, and counted; whether its write fails is open (R436). DEDUCED (log 111). -/
def State.scrubNext (s : State) : Option State :=
  let i := s.scrub.prog.toNat
  if !s.scrub.ctl.getLsbD 0 || decide (s.scrub.total.toNat ≤ i) then none else
  let (n, s) := s.forgetTorn.fresh
  let s := s.scrubOne (if Config.freeBool n then [i] else []) (i, s.scrubFrame i)
  some { s with scrub := { s.scrub with prog := s.scrub.prog + 1 } }

/-- The launch-engine slots of a context's queues. -/
def State.slotsOf (s : State) (c : Byte) : List Nat :=
  ((s.engine.slots.filter (fun e => e.1 != 63 && !s.queueBusy e.2.queue && (match s.queueDesc e.2.queue with
    | some d => fld d 11 1 == c.toNat
    | none => false))).map (fun e => e.1))

/-- What a finished scrub leaves (R435, R436, R437): the rest of the list scrubbed, the contexts and the slots of their queues free again, and the
space of their groups handed out (R222). -/
def State.scrubbed (s : State) (badFrames : List Nat) : State :=
  let gone := s.teardown
  let k := s.scrub.prog.toNat
  let frames := ((List.range s.scrub.total.toNat).drop k).map (fun i => (i, s.scrubFrame i))
  let s := frames.foldl (fun s e => s.scrubOne badFrames e) s.forgetTorn
  let z := s.scrub
  let s := { s with scrub := { z with ctl := 0, prog := z.total, stat := z.stat ||| scrDONE }
                    ctxs := s.ctxs.filter (fun c => !gone.contains c.cfg.num), teardown := [] }
  let s := (gone.flatMap s.slotsOf).foldl (fun s k => s.freeSlot k) s
  (s.refill s.allCores).pressure

/-- SCRUB_DONE (R435, R436, R437): the rest of the list is written with zeros, BLOCK is cleared, and contexts torn down are
released. `badFrames` are the list's entries whose write fails. -/
def scrubDone (badFrames : List Nat) (s : State) : State :=
  if s.scrub.ctl.getLsbD 0 then (s.scrubbed badFrames).wake else s
/-- SCRUB_DONE (R436). -/
def execScrubDone (badFrames : List Nat) (s : State) : Host.Outcome State Fault Refusal := .next (scrubDone badFrames s)

/-- PARTITION_RESET (R438): during a scrub it starts the scrub again. DEDUCED (log 111). -/
def partitionReset (s : State) : State :=
  if !s.scrub.ctl.getLsbD 0 then s else
  let z := s.scrub
  let n := min 255 (z.stat.toNat / 256 % 256 + 1)
  { s with scrub := { z with prog := 0, stat := (z.stat &&& 0xFFFF00FF) ||| BitVec.ofNat 32 (256 * n) } }
/-- PARTITION_RESET (R438). -/
def execPartitionReset (s : State) : Host.Outcome State Fault Refusal := .next (partitionReset s)

/-! Registers (R229 to R231, R437, R494). -/

/-- A write of LECTL (R230). -/
def lectlWrite (v : Word) (s : State) : State := lectlPause (v.getLsbD 1) (lectlEn (v.getLsbD 0) s)

/-- A write of SCRCTL (R437): a 0 in BLOCK is ignored. -/
def scrctlWrite (v : Word) (s : State) : State :=
  let s := if v.getLsbD 1 then scrctlBlock s else s
  if v.getLsbD 0 then scrctlGo s else s

/-- A power of two from 16 to 65,536 (R494). -/
def rasCntOk (v : Word) : Bool := (List.range 13).any (fun k => v.toNat == 16 * 2 ^ k)

/-- REGISTER_WRITE (R229, R231, R437, R494): offsets not listed, and read-only registers, ignore writes. -/
def registerWrite (pg : RegPage) (off : Nat) (v : DWord) (s : State) : State :=
  let w : Word := v.setWidth 32
  let en := s.engine.lectl.getLsbD 0
  let go := s.scrub.ctl.getLsbD 0
  match pg, off with
  | .launch, 0x000 => lectlWrite w s
  | .launch, 0x008 => if en then s else s.modEngine (fun e => { e with qtbase := v &&& ~~~63 })
  | .launch, 0x010 => if en then s else s.modEngine (fun e => { e with qtcnt := if 4096 ≤ w.toNat then 4096 else w })
  | .launch, 0x018 => if en then s else s.modEngine (fun e => { e with pnbase := v &&& ~~~63 })
  | .launch, 0x030 => lestat w s
  | .launch, 0x038 => s.modEngine (fun e => { e with ageper := w &&& 0xFFFF })
  | .launch, 0x040 => s.modEngine (fun e => { e with rebal := w &&& 0xFFFF })
  | .launch, 0x048 => if en then s else s.modEngine (fun e => { e with lectx := w &&& 0xFF })
  | .notify, 0x000 => qnotify w s
  | .scrub, 0x000 => scrctlWrite w s
  | .scrub, 0x008 => if go then s else { s with scrub := { s.scrub with list := v &&& ~~~7 } }
  | .scrub, 0x010 => if go then s else { s with scrub := { s.scrub with total := w } }
  | .scrub, 0x020 => scrstat w s
  | .ras, 0x000 => { s with ras := { s.ras with base := v &&& ~~~4095 } }
  | .ras, 0x008 => if rasCntOk w then { s with ras := { s.ras with cnt := w } } else s
  | .ras, 0x018 => rastail w s
  | .ras, 0x020 => rasstat w s
  | _, _ => s
/-- REGISTER_WRITE (R229). -/
def execRegisterWrite (pg : RegPage) (off : Nat) (v : DWord) (s : State) : Host.Outcome State Fault Refusal :=
  .next (registerWrite pg off v s)

/-- The word that the launch-engine page shows of a slot (R230). -/
def State.slotWord (s : State) (k : Nat) : Word :=
  match sget s.engine.slots k with
  | none => 0
  | some x =>
    let prio := ((s.slotDesc k x).map (s.effective k)).getD 0
    0x80000000 ||| (if s.queueBusy x.queue then 0x40000000 else 0) ||| (if x.raised then 0x20000000 else 0)
      ||| BitVec.ofNat 32 (4096 * prio + x.queue % 4096)

/-- A read of a memory-mapped register, by whoever may map its page (R229 to R231, R437, R494): an offset not listed, and a reserved
bit, reads 0 (R5). -/
def State.readRegister (s : State) (pg : RegPage) (off : Nat) : DWord :=
  let e := s.engine
  match pg, off with
  | .launch, 0x000 => e.lectl.setWidth 64
  | .launch, 0x008 => e.qtbase
  | .launch, 0x010 => e.qtcnt.setWidth 64
  | .launch, 0x018 => e.pnbase
  | .launch, 0x020 => BitVec.ofNat 64 e.lsnnext
  | .launch, 0x028 => BitVec.ofNat 64 e.launches.length
  | .launch, 0x030 => e.lestat.setWidth 64
  | .launch, 0x038 => e.ageper.setWidth 64
  | .launch, 0x040 => e.rebal.setWidth 64
  | .launch, 0x048 => e.lectx.setWidth 64
  | .launch, o => if 0x100 ≤ o && o < 0x300 && o % 8 = 0 then (s.slotWord ((o - 0x100) / 8)).setWidth 64 else 0
  | .notify, _ => 0
  | .scrub, 0x000 => s.scrub.ctl.setWidth 64
  | .scrub, 0x008 => s.scrub.list
  | .scrub, 0x010 => s.scrub.total.setWidth 64
  | .scrub, 0x018 => s.scrub.prog.setWidth 64
  | .scrub, 0x020 => s.scrub.stat.setWidth 64
  | .scrub, _ => 0
  | .ras, 0x000 => s.ras.base
  | .ras, 0x008 => s.ras.cnt.setWidth 64
  | .ras, 0x010 => s.ras.head.setWidth 64
  | .ras, 0x018 => s.ras.tail.setWidth 64
  | .ras, 0x020 => s.ras.stat.setWidth 64
  | .ras, 0x028 => s.ras.ce
  | .ras, 0x030 => s.ras.tr
  | .ras, _ => 0

/-! Dies (R453, R456 to R458). -/

/-- Requests a full save of every placed group that is not lost (R421, R456). -/
def State.saveAll (s : State) : State :=
  let gs := (s.groups.filter (fun e => !e.2.freed && !e.2.lost)).map (fun e => e.1)
  let s := s.requestPre gs
  gs.foldl (fun s g => s.modGroup g (fun x => if x.pre = .requested then { x with pre := .forced, forced := true } else x)) s

/-- The spare takes the place of a slice's compute die (R456, steps 2 to 4), or with none left the slice has no cores (R457). Its routes follow from
the map (`State.linkOf`); what its cores count, and the commands that they have issued and that run on, programs see unchanged. -/
def State.swapDie (s : State) (slice : Nat) : State :=
  let on := fun (c : Nat) => s.sliceOf c == slice
  let cs := s.allCores.filter on
  if s.spare then
    let s := { s with spare := false, dieMap := s.dieMap.set slice 12, replacing := none, dieTlb := sdel s.dieTlb slice
                      cores := s.cores.map (fun (c : Nat × Core) => (c.1, if on c.1 then { up := c.2.up, perf := c.2.perf, score := c.2.score } else c.2)) }
    ((s.refill s.allCores).rasLog 7 5 slice 0 none).wake
  else
    let s := { s with absent := if s.absent.contains slice then s.absent else s.absent ++ [slice], replacing := none
                      cores := s.cores.filter (fun c => !on c.1) }
    ((s.refill (s.allCores.filter (fun c => !cs.contains c))).rasLog 7 5 slice 0 none).wake

/-- DIE_REPLACE (R456, R457): first every group of the partition is saved; once none is left on a core and the die's
registrations are drained, the spare takes over. DEDUCED (log 114). -/
def dieReplace (slice : Nat) (s : State) : State :=
  if slice < s.first || s.first + s.slices ≤ slice || s.absent.contains slice then s
  else if s.groups.any (fun e => !e.2.freed && !e.2.lost) then
    (if s.replacing = some slice then s else ({ s with replacing := some slice } : State).saveAll.wake)
  else
    let cs := s.allCores.filter (fun c => s.sliceOf c == slice)
    if !cs.all s.l1Quiet then { s with replacing := some slice } else
    (cs.foldl (fun s c => s.drainL1 c) s).swapDie slice
/-- DIE_REPLACE (R456). -/
def execDieReplace (slice : Nat) (s : State) : Host.Outcome State Fault Refusal := .next (dieReplace slice s)

/-- Freezes a fibre outside its own execution (R405, R458), at the PC of its lowest lane that can go on. DESIGN CHOICE (log 56). -/
def State.freezeOut (s : State) (g w f cause : Nat) : State :=
  let x := s.fibreAt g w f
  if x.ended then s else
  let l := (lanesWhere x (fun l => l.st.live && !l.st.isStranded)).headD 0
  let pc := (x.lanes.getD l {}).pc
  let (n, s) := s.fresh
  s.freezePath (fetchPath g w f pc (BitVec.ofNat 32 (Config.freeCount n))) cause

/-- Everything of a group on a lost die stops (R458, steps 1, 2 and 4). DEDUCED (log 115). -/
def State.loseGroup (s : State) (g : Nat) : State :=
  let x := s.groupAt g
  let s := (List.range x.warps.length).foldl (fun s w =>
    (List.range (s.warpAt g w).fibres.length).foldl (fun s f => s.freezeOut g w f cECC) s) s
  let s := x.aps.foldl (fun s a => if a.2.st == .running then s.stopAp g a.1 else s) s
  let s := if x.seq.st == .running then s.haltSeq g cECC else s
  let s := s.modGroup g (fun x => { x with lost := true, failed := true, pre := .none, seq := { x.seq with ops := [] } })
  let s := s.failGroup g
  let s := { s with prods := s.prods.filter (fun p => p.g != g), pend := s.pend.filter (fun p => p.g != g)
                    pfts := s.pfts.filter (fun p => p.g != g), sysc := s.sysc.filter (fun r => r.g != g)
                    cores := s.cores.map (fun (c : Nat × Core) => (c.1, { c.2 with parked := c.2.parked.filter (fun p => p.ig != g) })) }
  (s.cmds.filter (fun c => c.g == g && c.cls == 0)).foldl (fun s c => s.retireCmd { c with failed := true }) s

/-- The messages of a lost core go; reads that had been forwarded to it are served by the home. -/
def State.loseMsgs (s : State) (dead : Nat → Bool) : State :=
  let mine := s.msgs.filter (fun m => dead m.core)
  let s := { s with msgs := s.msgs.filter (fun m => !dead m.core)
                    holds := s.holds.map (fun (h : Hold) => { h with held := h.held.filter (fun m => !dead m.core)
                                                                     entered := h.entered.filter (fun m => !dead m.core) }) }
  mine.foldl (fun s m => match m.kind with
    | .fwd r => if dead r then s else s.homeData r m ((lineWas m.line m.mask).map (fun wa => (wa, s.homeWord wa)))
    | .noown (some r) => if dead r then s else s.homeData r m ((lineWas m.line m.mask).map (fun wa => (wa, s.homeWord wa)))
    | _ => s) s

/-- The homes wait no longer for lost cores (R453). -/
def State.loseWaits (s : State) (dead : Nat → Bool) : State :=
  let hs := s.holds.map (fun (h : Hold) => { h with waitCores := h.waitCores.filter (fun c => !dead c) })
  let s := { s with holds := hs }
  (hs.filter (fun h => h.waitCores.isEmpty)).foldl (fun s h => s.endHold h) s

/-- The loss of a compute die (R458), which the RAS log records (R495). -/
def State.loseDie (s : State) (slice : Nat) : State :=
  if slice < s.first || s.first + s.slices ≤ slice || s.absent.contains slice then s else
  let dead := fun (c : Nat) => s.sliceOf c == slice
  let gs := (s.groups.filter (fun e => dead e.2.core && !e.2.freed)).map (fun e => e.1)
  let s := gs.foldl (fun s g => s.loseGroup g) s
  let words := (s.owners.filter (fun e => dead e.2)).map (fun e => e.1)
  let s := words.foldl (fun s wa => (s.setHome wa { bad := true }).dropOwners [wa]) s
  let s := { s with pend := s.pend.filter (fun p => !dead p.core), tokens := s.tokens.filter (fun t => !dead t.2)
                    cores := s.cores.map (fun (c : Nat × Core) =>
                      (c.1, if dead c.1 then { c.2 with l1 := [], tokenHeld := false, tokenAsked := false } else c.2)) }
  let s := ((s.loseMsgs dead).loseWaits dead).rasLog 7 5 slice 0 none
  (({ s with replacing := some slice } : State).saveAll).wake

/-- DIE_LOST (R458); the die is then replaced by the step of R456. -/
def dieLost (slice : Nat) (s : State) : State := s.loseDie slice
/-- DIE_LOST (R458). -/
def execDieLost (slice : Nat) (s : State) : Host.Outcome State Fault Refusal := .next (dieLost slice s)

/-! Errors (R405, R406, R453 to R455). -/

/-- The agents of the registry: the L1s of cores that are up. -/
def State.agents (s : State) : List Nat := ((s.cores.filter (fun c => c.2.up)).map (fun c => s.agent c.1)).eraseDups

/-- The lines of an entry's set that the home or some L1 may still hold (R249, R453). -/
def State.setLines (s : State) (line : Nat) : List Nat :=
  let held := s.cores.flatMap (fun c => l1Lines c.2)
  line :: ((s.registered (lineHub line) ++ held).eraseDups).filter (fun l => l != line && sameSet line l && !s.lineHeld l)

/-- REGISTRY_ERROR (R453): found in the entry of a registered line that no transaction holds. DEDUCED (log 48). -/
def registryError (line : Nat) (tagLost : Bool) (s : State) : State :=
  if !(s.registered (lineHub line)).contains line || s.lineHeld line then s else
  let s := s.rasLog 3 3 (lineSlice line % 6) (128 * line) none
  let cs := s.agents
  (if tagLost then
    let ls := s.setLines line
    s.startHold ls .claimSet cs [] (fun i c s => s.send (.revs ls) c line 0 [] 0 i)
  else s.startHold [line] .claimLine cs [] (fun i c s => s.send .reva c line 0xFFFFFFFF [] 0 i)).wake
/-- REGISTRY_ERROR (R453). -/
def execRegistryError (line : Nat) (tagLost : Bool) (s : State) : Host.Outcome State Fault Refusal := .next (registryError line tagLost s)

/-- CLAIM_TIMEOUT (R453): the core is lost, and what intact entries record as its own enters the poison state; where the entry whose tag is lost,
of the first of the transaction's lines, named the core, the home cannot name those words, and every context ends. -/
def claimTimeout (core : Nat) (s : State) : State :=
  match s.holds.find? (fun h => h.waitCores.contains core && (h.why == .claimLine || h.why == .claimSet)) with
  | none => s
  | some h =>
    let slice := s.sliceOf core
    let was := lineWas (h.lines.headD 0) 0xFFFFFFFF
    if h.why == .claimLine || (s.ownedBy core was).isEmpty then s.loseDie slice else
    let mine := was.filter (fun wa => (match s.ownerOf wa with
      | some c => s.sliceOf c == slice
      | none => false))
    ((s.dropOwners mine).loseDie slice).tearAll
/-- CLAIM_TIMEOUT (R453). -/
def execClaimTimeout (core : Nat) (s : State) : Host.Outcome State Fault Refusal := .next (claimTimeout core s)

/-- The words of a line enter the poison state at home (R245). -/
def State.poisonLine (s : State) (line : Nat) : State :=
  (lineWas line 0xFFFFFFFF).foldl (fun (s : State) wa => s.setHome wa { bad := true }) s

/-- MSC_TAG_PARITY (R454): for a line that the memory-side cache holds. DEDUCED (log 108). -/
def mscTagParity (line : Nat) (ctxField dataOk : Bool) (s : State) : State :=
  match sget s.msc line with
  | none => s
  | some (_, d) =>
    let s := s.rasLog 5 2 (lineSlice line % 6) (128 * line) none
    let s := { s with msc := sdel s.msc line }
    if ctxField then (if dataOk then s else s.poisonLine line).tearAll
    else if d then s.poisonLine line else s
/-- MSC_TAG_PARITY (R454). -/
def execMscTagParity (line : Nat) (ctxField dataOk : Bool) (s : State) : Host.Outcome State Fault Refusal :=
  .next (mscTagParity line ctxField dataOk s)

def State.modMsg (s : State) (n : Nat) (f : Msg → Msg) : State := { s with msgs := s.msgs.map (fun m => if m.id == n then f m else m) }

/-- What a flit that the links cannot deliver makes of a message between dies: data carries the loss on; a request or a snoop is lost with the compute
die whose link fails, and is resent where the links between hub dies fail. -/
def State.loseFlit (s : State) (n boundary : Nat) (m : Msg) : State :=
    let s := s.rasLog 4 4 boundary (128 * m.line) (some boundary)
    let bad := s.modMsg n (fun m => { m with words := m.words.map (fun e => (e.1, { e.2 with bad := true })) })
    match m.kind with
    | .data => s.modMsg n (fun m => { m with poisonLink := some boundary })
    | .ucw _ => s.modMsg n (fun m => { m with poisonLink := some boundary })
    | .wb => bad
    | .claim => bad
    | .noown _ => bad
    | _ => match s.linkSlice boundary with
      | some k => s.loseDie k
      | none => s

/-- FLIT_RESEND_LIMIT (R455): of a message on its route, or of the words that a command or a packet is about to place. The five links between hub
dies form no ring (R442), so no message has another way, whatever `otherWay` says: the link goes on resending it (R443). DEDUCED (log 50). -/
def flitResendLimit (n boundary : Nat) (_otherWay : Bool) (s : State) : State :=
  match s.msgs.find? (fun m => m.id == n) with
  | some m => if (s.routeOf m).contains boundary then s.loseFlit n boundary m else s
  | none =>
    if (boundaryJoins boundary).isNone then s
    else if s.cmds.any (fun c => c.id == n && c.started) then (s.rasLog 4 4 boundary 0 (some boundary)).modCmd n (fun c => { c with cut := true })
    else if s.placing.any (fun p => p.id == n) then
      let s := s.rasLog 4 4 boundary 0 (some boundary)
      { s with placing := s.placing.map (fun p => if p.id == n then { p with cut := true } else p) }
    else s
/-- FLIT_RESEND_LIMIT (R455). -/
def execFlitResendLimit (n boundary : Nat) (otherWay : Bool) (s : State) : Host.Outcome State Fault Refusal :=
  .next (flitResendLimit n boundary otherWay s)

/-- TIMING_REPLAY (R406, R491, R494): a second late flag poisons what the core's next cycle writes. -/
def timingReplay (core unit : Nat) (second : Bool) (s : State) : State :=
  if s.width * s.height ≤ core || 4 ≤ unit then s else
  let s := s.perfCount core 0x600
  let s := { s with ras := { s.ras with tr := s.ras.tr + 1 } }
  if second then { s with late := some (core, unit) } else s
/-- TIMING_REPLAY (R406). -/
def execTimingReplay (core unit : Nat) (second : Bool) (s : State) : Host.Outcome State Fault Refusal :=
  .next (timingReplay core unit second s)

/-- A word of device memory has an uncorrectable error that an access will find, or that a scrub finds at once, so that it enters the poison
state (R245, R405). It is logged (R496). -/
def State.memFlaw (s : State) (wa : Nat) (found : Bool) : State :=
  if !s.dpaOk (4 * wa) then s else
  let u := s.rasPlace (4 * wa)
  let s := s.rasLog 2 u.1 u.2 (4 * wa) none
  if found then { s with bad := ssetD s.bad wa true false, upset := sdel s.upset wa }
  else { s with upset := ssetD s.upset wa true false }

/-- A word of an L1 has an uncorrectable error: its loads find it, and a write-back leaves its home word in the poison state (R245, R405). -/
def State.l1Flaw (s : State) (core wa : Nat) : State :=
  match s.l1At core wa with
  | some e => (s.rasLog 2 5 core (4 * wa) none).setL1 core wa (some { e with word := { e.word with bad := true, fresh := true } })
  | none => s

/-- A word of a group's scratchpad has an uncorrectable error that the next access finds (R235, R405). -/
def State.spadFlaw (s : State) (g i : Nat) : State :=
  let x := s.spAt g i
  if (s.groupAt g).spadBytes ≤ 4 * i || x.poison then s
  else (s.rasLog 2 6 (s.groupAt g).core 0 none).setSp g i { x with poison := true, fresh := true }

/-- A word of a tile in a sequencer's B-store slot has an uncorrectable error: the tile is poisoned with cause ECC, for the instructions at work on it
too (R326, R405). DESIGN CHOICE (log 55): the ring index and origin of its poison word are open. -/
def State.bstoreFlaw (s : State) (g k i : Nat) : State :=
  let q := (s.groupAt g).seq
  match (q.slots[k]?).bind (fun b => b.tiles[i]?) with
  | some (_, none) =>
    let s := s.rasLog 2 7 (s.groupAt g).core 0 none
    let (n, s) := s.fresh
    let w := eccWord (BitVec.ofNat 32 (Config.freeCount n))
    let hit := fun (b : BSlot) => { b with tiles := modAt b.tiles i (fun t => (t.1, some w)) }
    s.modSeq g (fun q => { q with slots := modAt q.slots k hit
                                  ops := q.ops.map (fun o => if !o.acz && o.bno == k then { o with slot := hit o.slot } else o) })
  | _ => s

/-- PARITY_ERROR (R238, R405): in a fibre's control state, or a sequencer's SPC; or an ECC error, uncorrectable or corrected. DEDUCED (log 54). -/
def parityError (flaw : Flaw) (s : State) : State :=
  match flaw with
  | .control (.fibre g w f) => (s.rasLog 2 5 (s.groupAt g).core 0 none).freezeOut g w f cECC
  | .control (.seq g) => if (s.groupAt g).seq.st == .running then (s.rasLog 2 5 (s.groupAt g).core 0 none).haltSeq g cECC else s
  | .control (.ap _ _) => s
  | .spad g i => s.spadFlaw g i
  | .mem wa found => s.memFlaw wa found
  | .l1 c wa => s.l1Flaw c wa
  | .corrected unit unum dpa => if s.started then s.corrected unit unum dpa else s
  | .atlas k g => if 12 ≤ k || 98304 ≤ g then s else
    let a := k * 2 ^ 40 + g * 2 ^ 21
    let s := s.rasLog 2 0 (2 * k + g / 49152) a none
    { s with atlas := ssetD s.atlas (groupKey k g) 3 0 }
  | .bstore g k i => s.bstoreFlaw g k i
/-- PARITY_ERROR (R405). -/
def execParityError (flaw : Flaw) (s : State) : Host.Outcome State Fault Refusal := .next (parityError flaw s)

/-! DRAM layers (R459). -/

/-- The entries of a context's tables, from one at level `lv` down, whose leaves map into a range: where each stands, and the addresses it maps
(R240, R241). Only entries with a byte in memory or a word in an L1 can be other than empty. -/
def State.leavesInto (s : State) (lo n : Nat) : Nat → Nat → Nat → List (Nat × Nat × Nat)
  | lv, table, va =>
    let span := levelSpan lv
    let at_ := (s.mem.map (fun (c : Host.Cell) => c.1) ++ s.owners.map (fun (e : Nat × Nat) => 4 * e.1)).filter (fun a => decide (table ≤ a))
    let is := ((at_.map (fun a => (a - table) / 8)).filter (fun i => decide (i < (if lv = 3 then 8192 else if lv = 0 then 32 else 512)))).eraseDups
    is.flatMap (fun i => match lv, s.walkEntry (va + i * span) table lv with
      | _, .leaf l => if l.dpa < lo + n && lo < l.dpa + l.size then [(table + 8 * i, va + i * span, l.size)] else []
      | lv + 1, .table a => s.leavesInto lo n lv a (va + i * span)
      | _, _ => [])

/-- The leaves of every context that map into a range. -/
def State.mapsInto (s : State) (lo n : Nat) : List (Byte × Nat × Nat × Nat) :=
  s.ctxs.flatMap (fun c => match c.cfg.root with
    | some r => (s.leavesInto lo n 3 r.toNat 0).map (fun e => (c.cfg.num, e))
    | none => [])

/-- Unmaps the pages that still map into a range, and completes their invalidations (R244, R459); none while one of these has to wait. -/
def State.unmapRange (s : State) (lo n : Nat) : Option State :=
  let es := s.mapsInto lo n
  if !es.all (fun e => s.invalReady e.1 e.2.2.1 e.2.2.2) then none
  else some (es.foldl (fun s e => (s.setEntry e.1 e.2.1 0).tlbDrop e.1 e.2.2.1 e.2.2.2) s)

/-- Takes a layer of a slice out of use (R459, steps 3 and 4): its frames are cleared, pinned and lost, and the slice reports 4 GiB less. -/
def State.loseLayer (s : State) (slice layer : Nat) : State :=
  let g0 := 2048 * layer
  let lo := slice * 2 ^ 40 + g0 * 2 ^ 21
  let n := 2048 * 2 ^ 21
  let ks := (List.range 2048).map (fun i => groupKey slice (g0 + i))
  let lo' := groupKey slice g0
  let s := s.clearRange lo n
  let s := s.tlbFilter (fun e => !(decide (lo ≤ e.leaf.dpa) && decide (e.leaf.dpa < lo + n)))
  let s := { s with atlas := s.atlas.filter (fun e => !(decide (lo' ≤ e.1) && decide (e.1 < lo' + 2048)))
                    walks := s.walks.map (fun (d : Nat × List WalkEntry) => (d.1, d.2.filter (fun e =>
                      !(decide (lo ≤ e.table) && decide (e.table < lo + n)))))
                    pinned := ks ++ s.pinned, lostRanges := s.lostRanges ++ [(lo, lo + n)]
                    removing := s.removing.filter (fun e => e != (slice, layer))
                    capacity := modAt s.capacity slice (fun e => (e.1 - 4, e.2 - 4)) }
  s.rasLog 6 0 (2 * slice + layer / 24) lo (some (layer % 24))

/-- LAYER_MAP_OUT (R459): `layer` counts the 48 layers of the slice's two stacks. First the event, which names the range, is raised (step 1), and
software may move its data out; the next unmaps what is still mapped there and removes the layer. DEDUCED (log 116). -/
def layerMapOut (slice layer : Nat) (s : State) : State :=
  let lo := slice * 2 ^ 40 + 2048 * layer * 2 ^ 21
  let n := 2048 * 2 ^ 21
  if 12 ≤ slice || 48 ≤ layer || s.lostRanges.contains (lo, lo + n) then s
  else if !s.removing.contains (slice, layer) then ({ s with removing := s.removing ++ [(slice, layer)] } : State).mgmtReport [lo, lo + n]
  else match s.unmapRange lo n with
    | some s => (s.loseLayer slice layer).wake
    | none => s
/-- LAYER_MAP_OUT (R459). -/
def execLayerMapOut (slice layer : Nat) (s : State) : Host.Outcome State Fault Refusal := .next (layerMapOut slice layer s)

end Sys2Proof.Machine
end

