-- ==== Sys2Proof/Machine/Dispatch.lean ====
section
/-! DEFINITION. The one match over the instructions and steps: each arm calls its meaning. -/

namespace Sys2Proof.Machine

def exec (i : Instr) (s : State) : Host.Outcome State Fault Refusal :=
  match i with
  | .nop f => Sys2Proof.Machine.execNop f s
  | .bra f => Sys2Proof.Machine.execBra f s
  | .bru f => Sys2Proof.Machine.execBru f s
  | .jmx f => Sys2Proof.Machine.execJmx f s
  | .call f => Sys2Proof.Machine.execCall f s
  | .ret f => Sys2Proof.Machine.execRet f s
  | .exit f => Sys2Proof.Machine.execExit f s
  | .fyld f => Sys2Proof.Machine.execFyld f s
  | .fstart f => Sys2Proof.Machine.execFstart f s
  | .loop f => Sys2Proof.Machine.execLoop f s
  | .ipf f => Sys2Proof.Machine.execIpf f s
  | .ipin f => Sys2Proof.Machine.execIpin f s
  | .iunp f => Sys2Proof.Machine.execIunp f s
  | .iadd f => Sys2Proof.Machine.execIadd f s
  | .isub f => Sys2Proof.Machine.execIsub f s
  | .imul f => Sys2Proof.Machine.execImul f s
  | .imulh f => Sys2Proof.Machine.execImulh f s
  | .imad f => Sys2Proof.Machine.execImad f s
  | .iadd3 f => Sys2Proof.Machine.execIadd3 f s
  | .idiv f => Sys2Proof.Machine.execIdiv f s
  | .irem f => Sys2Proof.Machine.execIrem f s
  | .imin f => Sys2Proof.Machine.execImin f s
  | .imax f => Sys2Proof.Machine.execImax f s
  | .iabs f => Sys2Proof.Machine.execIabs f s
  | .isadd f => Sys2Proof.Machine.execIsadd f s
  | .lea f => Sys2Proof.Machine.execLea f s
  | .idot4 f => Sys2Proof.Machine.execIdot4 f s
  | .iaddc f => Sys2Proof.Machine.execIaddc f s
  | .and f => Sys2Proof.Machine.execAnd f s
  | .or f => Sys2Proof.Machine.execOr f s
  | .xor f => Sys2Proof.Machine.execXor f s
  | .bitf f => Sys2Proof.Machine.execBitf f s
  | .shl f => Sys2Proof.Machine.execShl f s
  | .shr f => Sys2Proof.Machine.execShr f s
  | .sar f => Sys2Proof.Machine.execSar f s
  | .fsh f => Sys2Proof.Machine.execFsh f s
  | .bfx f => Sys2Proof.Machine.execBfx f s
  | .bfi f => Sys2Proof.Machine.execBfi f s
  | .popc f => Sys2Proof.Machine.execPopc f s
  | .clz f => Sys2Proof.Machine.execClz f s
  | .brev f => Sys2Proof.Machine.execBrev f s
  | .bytx f => Sys2Proof.Machine.execBytx f s
  | .icmp f => Sys2Proof.Machine.execIcmp f s
  | .fcmp f => Sys2Proof.Machine.execFcmp f s
  | .sel f => Sys2Proof.Machine.execSel f s
  | .plog f => Sys2Proof.Machine.execPlog f s
  | .pmov f => Sys2Proof.Machine.execPmov f s
  | .iset f => Sys2Proof.Machine.execIset f s
  | .fset f => Sys2Proof.Machine.execFset f s
  | .fcls f => Sys2Proof.Machine.execFcls f s
  | .mov f => Sys2Proof.Machine.execMov f s
  | .movi f => Sys2Proof.Machine.execMovi f s
  | .movs f => Sys2Proof.Machine.execMovs f s
  | .movw f => Sys2Proof.Machine.execMovw f s
  | .vtos f => Sys2Proof.Machine.execVtos f s
  | .view f => Sys2Proof.Machine.execView f s
  | .xvset f => Sys2Proof.Machine.execXvset f s
  | .fadd f => Sys2Proof.Machine.execFadd f s
  | .fmul f => Sys2Proof.Machine.execFmul f s
  | .ffma f => Sys2Proof.Machine.execFfma f s
  | .fmin f => Sys2Proof.Machine.execFmin f s
  | .fmax f => Sys2Proof.Machine.execFmax f s
  | .fdiv f => Sys2Proof.Machine.execFdiv f s
  | .fsqrt f => Sys2Proof.Machine.execFsqrt f s
  | .frcp f => Sys2Proof.Machine.execFrcp f s
  | .frsq f => Sys2Proof.Machine.execFrsq f s
  | .fex2 f => Sys2Proof.Machine.execFex2 f s
  | .flg2 f => Sys2Proof.Machine.execFlg2 f s
  | .frnd f => Sys2Proof.Machine.execFrnd f s
  | .fscl f => Sys2Proof.Machine.execFscl f s
  | .fdot2 f => Sys2Proof.Machine.execFdot2 f s
  | .fcvt f => Sys2Proof.Machine.execFcvt f s
  | .icvt f => Sys2Proof.Machine.execIcvt f s
  | .cvtq f => Sys2Proof.Machine.execCvtq f s
  | .dq f => Sys2Proof.Machine.execDq f s
  | .scq f => Sys2Proof.Machine.execScq f s
  | .sacc f => Sys2Proof.Machine.execSacc f s
  | .ttr f => Sys2Proof.Machine.execTtr f s
  | .nbr f => Sys2Proof.Machine.execNbr f s
  | .cxs f => Sys2Proof.Machine.execCxs f s
  | .vote f => Sys2Proof.Machine.execVote f s
  | .lred f => Sys2Proof.Machine.execLred f s
  | .lscan f => Sys2Proof.Machine.execLscan f s
  | .bcst f => Sys2Proof.Machine.execBcst f s
  | .ld f => Sys2Proof.Machine.execLd f s
  | .st f => Sys2Proof.Machine.execSt f s
  | .lds f => Sys2Proof.Machine.execLds f s
  | .sts f => Sys2Proof.Machine.execSts f s
  | .ldu f => Sys2Proof.Machine.execLdu f s
  | .stu f => Sys2Proof.Machine.execStu f s
  | .ldfe f => Sys2Proof.Machine.execLdfe f s
  | .stfe f => Sys2Proof.Machine.execStfe f s
  | .ldt f => Sys2Proof.Machine.execLdt f s
  | .stt f => Sys2Proof.Machine.execStt f s
  | .ldac f => Sys2Proof.Machine.execLdac f s
  | .stac f => Sys2Proof.Machine.execStac f s
  | .pft f => Sys2Proof.Machine.execPft f s
  | .pfc f => Sys2Proof.Machine.execPfc f s
  | .cctl f => Sys2Proof.Machine.execCctl f s
  | .atom f => Sys2Proof.Machine.execAtom f s
  | .acas f => Sys2Proof.Machine.execAcas f s
  | .atoms f => Sys2Proof.Machine.execAtoms f s
  | .red f => Sys2Proof.Machine.execRed f s
  | .acq f => Sys2Proof.Machine.execAcq f s
  | .rel f => Sys2Proof.Machine.execRel f s
  | .fence f => Sys2Proof.Machine.execFence f s
  | .bari f => Sys2Proof.Machine.execBari f s
  | .bara f => Sys2Proof.Machine.execBara f s
  | .barw f => Sys2Proof.Machine.execBarw f s
  | .bard f => Sys2Proof.Machine.execBard f s
  | .bart f => Sys2Proof.Machine.execBart f s
  | .fbar f => Sys2Proof.Machine.execFbar f s
  | .fest f => Sys2Proof.Machine.execFest f s
  | .feq f => Sys2Proof.Machine.execFeq f s
  | .waitc f => Sys2Proof.Machine.execWaitc f s
  | .sigc f => Sys2Proof.Machine.execSigc f s
  | .mma f => Sys2Proof.Machine.execMma f s
  | .mms f => Sys2Proof.Machine.execMms f s
  | .bld f => Sys2Proof.Machine.execBld f s
  | .acz f => Sys2Proof.Machine.execAcz f s
  | .sqw f => Sys2Proof.Machine.execSqw f s
  | .sqa f => Sys2Proof.Machine.execSqa f s
  | .sqlp f => Sys2Proof.Machine.execSqlp f s
  | .sqe f => Sys2Proof.Machine.execSqe f s
  | .mseq f => Sys2Proof.Machine.execMseq f s
  | .oprf f => Sys2Proof.Machine.execOprf f s
  | .mstq f => Sys2Proof.Machine.execMstq f s
  | .copy f => Sys2Proof.Machine.execCopy f s
  | .copyU f => Sys2Proof.Machine.execCopyU f s
  | .cchn f => Sys2Proof.Machine.execCchn f s
  | .apst f => Sys2Proof.Machine.execApst f s
  | .apstGo f => Sys2Proof.Machine.execApstGo f s
  | .apsp f => Sys2Proof.Machine.execApsp f s
  | .qmap f => Sys2Proof.Machine.execQmap f s
  | .ldq f => Sys2Proof.Machine.execLdq f s
  | .aend f => Sys2Proof.Machine.execAend f s
  | .ecmd f => Sys2Proof.Machine.execEcmd f s
  | .sbq f => Sys2Proof.Machine.execSbq f s
  | .xwr f => Sys2Proof.Machine.execXwr f s
  | .xrd f => Sys2Proof.Machine.execXrd f s
  | .xrdV f => Sys2Proof.Machine.execXrdV f s
  | .xsnd f => Sys2Proof.Machine.execXsnd f s
  | .xpstBuf f => Sys2Proof.Machine.execXpstBuf f s
  | .xpstNtf f => Sys2Proof.Machine.execXpstNtf f s
  | .xpstUnb f => Sys2Proof.Machine.execXpstUnb f s
  | .xcng f => Sys2Proof.Machine.execXcng f s
  | .xfen f => Sys2Proof.Machine.execXfen f s
  | .rgno f => Sys2Proof.Machine.execRgno f s
  | .cmt f => Sys2Proof.Machine.execCmt f s
  | .pchk f => Sys2Proof.Machine.execPchk f s
  | .pset f => Sys2Proof.Machine.execPset f s
  | .cart f => Sys2Proof.Machine.execCart f s
  | .sysc f => Sys2Proof.Machine.execSysc f s
  | .perf f => Sys2Proof.Machine.execPerf f s
  | .ifen f => Sys2Proof.Machine.execIfen f s
  | .pfx p => Sys2Proof.Machine.execPfx p s
  | .fetchNonresMigrate who ok dpa data => Sys2Proof.Machine.execFetchNonresMigrate who ok dpa data s
  | .loadDataReturn id lanes => Sys2Proof.Machine.execLoadDataReturn id lanes s
  | .parkedAccessPerform n => Sys2Proof.Machine.execParkedAccessPerform n s
  | .slotSwitch g w => Sys2Proof.Machine.execSlotSwitch g w s
  | .forcedSwitch g w => Sys2Proof.Machine.execForcedSwitch g w s
  | .siblingHandover g w => Sys2Proof.Machine.execSiblingHandover g w s
  | .qnotify v => Sys2Proof.Machine.execQnotify v s
  | .slotServe => Sys2Proof.Machine.execSlotServe s
  | .recordAccept slot => Sys2Proof.Machine.execRecordAccept slot s
  | .ageperExpiry => Sys2Proof.Machine.execAgeperExpiry s
  | .placementPass lsn => Sys2Proof.Machine.execPlacementPass lsn s
  | .groupRetire g => Sys2Proof.Machine.execGroupRetire g s
  | .launchEnd lsn => Sys2Proof.Machine.execLaunchEnd lsn s
  | .rebalExpiry => Sys2Proof.Machine.execRebalExpiry s
  | .lectlEn b => Sys2Proof.Machine.execLectlEn b s
  | .lectlPause b => Sys2Proof.Machine.execLectlPause b s
  | .registerWrite pg off v => Sys2Proof.Machine.execRegisterWrite pg off v s
  | .translationWalk core ctx va => Sys2Proof.Machine.execTranslationWalk core ctx va s
  | .tlbInvalidation ctx va len => Sys2Proof.Machine.execTlbInvalidation ctx va len s
  | .pageSwap slice group what => Sys2Proof.Machine.execPageSwap slice group what s
  | .pageMigration ctx va dpa toHost data => Sys2Proof.Machine.execPageMigration ctx va dpa toHost data s
  | .reg n => Sys2Proof.Machine.execReg n s
  | .rd n => Sys2Proof.Machine.execRd n s
  | .ucw n => Sys2Proof.Machine.execUcw n s
  | .ack n => Sys2Proof.Machine.execAck n s
  | .fwd n => Sys2Proof.Machine.execFwd n s
  | .rev n => Sys2Proof.Machine.execRev n s
  | .binv n => Sys2Proof.Machine.execBinv n s
  | .reva n => Sys2Proof.Machine.execReva n s
  | .revs n => Sys2Proof.Machine.execRevs n s
  | .data n => Sys2Proof.Machine.execData n s
  | .wb n => Sys2Proof.Machine.execWb n s
  | .noown n => Sys2Proof.Machine.execNoown n s
  | .claim n => Sys2Proof.Machine.execClaim n s
  | .registryError line tagLost => Sys2Proof.Machine.execRegistryError line tagLost s
  | .claimTimeout core => Sys2Proof.Machine.execClaimTimeout core s
  | .mscTagParity line ctxField dataOk => Sys2Proof.Machine.execMscTagParity line ctxField dataOk s
  | .flitResendLimit n boundary otherWay => Sys2Proof.Machine.execFlitResendLimit n boundary otherWay s
  | .pftComplete n => Sys2Proof.Machine.execPftComplete n s
  | .commandStart id => Sys2Proof.Machine.execCommandStart id s
  | .commandComplete id => Sys2Proof.Machine.execCommandComplete id s
  | .queueEntryFill id lanes => Sys2Proof.Machine.execQueueEntryFill id lanes s
  | .engineDispatch id => Sys2Proof.Machine.execEngineDispatch id s
  | .dispatchDeadline id => Sys2Proof.Machine.execDispatchDeadline id s
  | .matrixComplete g => Sys2Proof.Machine.execMatrixComplete g s
  | .tokenGrant die => Sys2Proof.Machine.execTokenGrant die s
  | .tokenArrive core => Sys2Proof.Machine.execTokenArrive core s
  | .tokenIdleReturn core => Sys2Proof.Machine.execTokenIdleReturn core s
  | .tokenHoldLimit core => Sys2Proof.Machine.execTokenHoldLimit core s
  | .faultServiceDone g w f answer => Sys2Proof.Machine.execFaultServiceDone g w f answer s
  | .timingReplay core unit second => Sys2Proof.Machine.execTimingReplay core unit second s
  | .parityError flaw => Sys2Proof.Machine.execParityError flaw s
  | .timeSliceExpiry ctx => Sys2Proof.Machine.execTimeSliceExpiry ctx s
  | .denufPreempt t => Sys2Proof.Machine.execDenufPreempt t s
  | .forcedSave g => Sys2Proof.Machine.execForcedSave g s
  | .pftCancel n => Sys2Proof.Machine.execPftCancel n s
  | .saveStart g => Sys2Proof.Machine.execSaveStart g s
  | .saveComplete g => Sys2Proof.Machine.execSaveComplete g s
  | .restoreStart g => Sys2Proof.Machine.execRestoreStart g s
  | .restoreComplete g => Sys2Proof.Machine.execRestoreComplete g s
  | .slotReclaim slot => Sys2Proof.Machine.execSlotReclaim slot s
  | .teardown ctx => Sys2Proof.Machine.execTeardown ctx s
  | .scrctlGo => Sys2Proof.Machine.execScrctlGo s
  | .scrctlBlock => Sys2Proof.Machine.execScrctlBlock s
  | .scrubDone badFrames => Sys2Proof.Machine.execScrubDone badFrames s
  | .partitionReset => Sys2Proof.Machine.execPartitionReset s
  | .partitionCut f n => Sys2Proof.Machine.execPartitionCut f n s
  | .dieReplace slice => Sys2Proof.Machine.execDieReplace slice s
  | .dieLost slice => Sys2Proof.Machine.execDieLost slice s
  | .layerMapOut slice layer => Sys2Proof.Machine.execLayerMapOut slice layer s
  | .packetArrive p => Sys2Proof.Machine.execPacketArrive p s
  | .packetResend id k => Sys2Proof.Machine.execPacketResend id k s
  | .messageTimeout id => Sys2Proof.Machine.execMessageTimeout id s
  | .nobufDeadline id => Sys2Proof.Machine.execNobufDeadline id s
  | .finalAck id st => Sys2Proof.Machine.execFinalAck id st s
  | .congestionUpdate ctx peer ws => Sys2Proof.Machine.execCongestionUpdate ctx peer ws s
  | .syscAnswer id status => Sys2Proof.Machine.execSyscAnswer id status s
  | .mailboxRequest req => Sys2Proof.Machine.execMailboxRequest req s
  | .rastail v => Sys2Proof.Machine.execRastail v s
  | .powerUp imageOk digest => Sys2Proof.Machine.execPowerUp imageOk digest s
  | .partitionStart => Sys2Proof.Machine.execPartitionStart s
  | .coreUp core => Sys2Proof.Machine.execCoreUp core s
  | .mgmtCoreFail n => Sys2Proof.Machine.execMgmtCoreFail n s
  | .clockThrottle die low => Sys2Proof.Machine.execClockThrottle die low s
  | .barrierRepeatCompletion g n => Sys2Proof.Machine.execBarrierRepeatCompletion g n s
  | .bldFinish g => Sys2Proof.Machine.execBldFinish g s
  | .ucwAcknowledge n => Sys2Proof.Machine.execUcwAcknowledge n s
  | .contextBind c => Sys2Proof.Machine.execContextBind c s
  | .powerLoss => Sys2Proof.Machine.execPowerLoss s
  | .firmwareReflash imageOk => Sys2Proof.Machine.execFirmwareReflash imageOk s
  | .lestat v => Sys2Proof.Machine.execLestat v s
  | .scrstat v => Sys2Proof.Machine.execScrstat v s
  | .rasstat v => Sys2Proof.Machine.execRasstat v s
  | .eventRingConsume n => Sys2Proof.Machine.execEventRingConsume n s

end Sys2Proof.Machine
end

