-- ==== Sys2Proof/Machine/Sched.lean ====
section
/-! DEFINITION. What runs next: fetching and decoding for each agent (R28, R93, R320), the choice of slots and paths (R172,
R173, R178, R188), and the steps of the part that are due by themselves. -/

namespace Sys2Proof.Machine

/-! Fetching and decoding. -/

/-- What a fetch gives: an instruction with its words, a page to be migrated, or a failure with the word that the
freeze records (R28, R92). -/
inductive Read where
  | instr (i : Instr) (ws : List Word)
  | nonres (va : DWord) (w : Word)
  | fail (cause : Nat) (w : Word)

/-- The words from `va` on; or the first that cannot be fetched. -/
def State.fetchMore (s : State) (core : Nat) (ctx : Byte) (va : DWord) : Nat → (List Word ⊕ (Fetched × DWord)) × State
  | 0 => (.inl [], s)
  | n + 1 => match s.fetchWord core ctx va.toNat with
    | (.word w, t) => (match t.fetchMore core ctx (va + 4) n with
      | (.inl ws, u) => (.inl (w :: ws), u)
      | r => r)
    | (r, t) => (.inr (r, va), t)

/-- The word recorded for a fetch that has read none: open. DESIGN CHOICE (log 29). -/
def State.noWord (s : State) : Word × State := (BitVec.ofNat 32 (Config.freeCount s.freeN), s.fresh.2)

/-- The rest of an instruction whose first word `w` stands at `va`; every word is fetched before any test (R28, R92). -/
def State.readRest (s : State) (core : Nat) (ctx : Byte) (va : DWord) (w : Word) (dec : List Word → Option Instr) :
    Read × State :=
  match s.fetchMore core ctx (va + 4) (wordsOf w - 1) with
  | (.inl ws, t) => (match dec (w :: ws) with
    | some i => (.instr i (w :: ws), t)
    | none => (.fail cILLEGAL w, t))
  | (.inr (.fail c, _), t) => (.fail c w, t)
  | (.inr (_, a), t) => (.nonres a w, t)

/-- An instruction at `va`. -/
def State.readAt (s : State) (core : Nat) (ctx : Byte) (va : DWord) (dec : List Word → Option Instr) : Read × State :=
  match s.fetchWord core ctx va.toNat with
  | (.word w, t) => t.readRest core ctx va w dec
  | (.nonres, t) => (.nonres va t.noWord.1, t.noWord.2)
  | (.fail c, t) => (.fail c t.noWord.1, t.noWord.2)

/-- A word before an instruction, with the instruction's first word (R28, R85, R88). DESIGN CHOICE (log 14): where its LEN is not
0b00, the word recorded is itself, for R28 freezes before the word that R92 names is fetched. -/
def State.readPfx (s : State) (core : Nat) (ctx : Byte) (va : DWord) (w : Word) : Read × State :=
  if Form.ofWord w != .s then (.fail cILLEGAL w, s) else
  match s.fetchWord core ctx (va + 4).toNat with
  | (.word v, t) =>
    if isPfxWord v then (.fail cILLEGAL v, t) else
    (match decodePfx w with
    | some p => (.instr (.pfx p) [w], t)
    | none => t.readRest core ctx (va + 4) v (fun _ => none))
  | (.nonres, t) => (.nonres (va + 4) t.noWord.1, t.noWord.2)
  | (.fail c, t) => (.fail c t.noWord.1, t.noWord.2)

/-- A repeated instruction whose words its first execution fetched. -/
def readHeld (x : Pfx) (k : Nat) (ws : List Word) : Read :=
  match decodeUnder x k ws with
  | some i => .instr i ws
  | none => .fail cILLEGAL (ws.headD 0)

/-- The next instruction of a path; a repeated one is fetched once, before its first execution (R28, R92). -/
def State.readFibre (s : State) (p : Path) : Read × State :=
  let gr := s.groupAt p.g
  match p.rep with
  | some (x, k) => if p.held.words.isEmpty then s.readAt gr.core gr.ctx (p.pc + 4) (decodeUnder x k) else (readHeld x k p.held.words, s)
  | none => match s.fetchWord gr.core gr.ctx p.pc.toNat with
    | (.word w, t) => if isPfxWord w then t.readPfx gr.core gr.ctx p.pc w else t.readRest gr.core gr.ctx p.pc w decodeFibre
    | (.nonres, t) => (.nonres p.pc t.noWord.1, t.noWord.2)
    | (.fail c, t) => (.fail c t.noWord.1, t.noWord.2)

/-! One issue of an agent. -/

/-- A path with its instruction; the first execution of a repeat fixes what the others share: its words and the extra values (R28, R138).
DEDUCED (log 127). -/
def State.holdWords (s : State) (p : Path) (ws : List Word) : Path :=
  { p with word := ws.headD 0
           inst := match p.rep with
             | none => {}
             | some (_, 0) => { words := ws, xv := (s.groupAt p.g).xv }
             | some _ => p.inst }

/-- Issues a path: its instruction is fetched, decoded and executed; a fetch that fails freezes the fibre, one that waits for
a page holds it (R28). -/
def State.issueStep (s : State) (p : Path) (q : Option Path) : Host.Outcome State Fault Refusal :=
  match s.readFibre p with
  | (.instr i ws, t) => exec i { t with turn := .issue (t.holdWords p ws) q }
  | (.nonres va w, t) =>
    .next { ((t.modFibre p.g p.w p.f (fun x => { x with nonres := some (va, p.pc, w) })).endCycle p).wake with turn := .choose }
  | (.fail c w, t) => .next (t.freezePath { p with word := w } c)

/-- The same for a matrix sequencer (R93, R320). -/
def State.streamStep (s : State) (g : Nat) : Host.Outcome State Fault Refusal :=
  let gr := s.groupAt g
  match s.readAt gr.core gr.ctx gr.seq.spc decodeStream with
  | (.instr i _, t) => exec i { t with turn := .stream g }
  | (.nonres va _, t) => .next { t.modSeq g (fun q => { q with nonres := some va }) with turn := .choose }
  | (.fail c _, t) => .next { t.haltSeq g c with turn := .choose }

/-- The same for an access processor (R93). -/
def State.accessStep (s : State) (g n : Nat) : Host.Outcome State Fault Refusal :=
  let gr := s.groupAt g
  match s.readAt gr.core gr.ctx (s.apAt g n).spc decodeAccess with
  | (.instr i _, t) => exec i { t with turn := .access g n }
  | (.nonres va _, t) => .next { t.modAp g n (fun a => { a with nonres := some va }) with turn := .choose }
  | (.fail _ _, t) => .next { t.stopAp g n with turn := .choose }

/-! Readiness (R172): a path is ready when its instruction, tried, does not wait. -/

/-- What a trial of a path shows: it waits (with what its waiting leaves), it can issue, or it is at a word before an
instruction. -/
inductive Trial where
  | waits (s : State)
  | ready
  | word (x : Pfx)

def State.tryPath (s : State) (p : Path) : Trial :=
  match s.readFibre p with
  | (.nonres va w, t) =>
    .waits ((t.modFibre p.g p.w p.f (fun x => { x with nonres := some (va, p.pc, w) })).blockPath p)
  | (.fail _ _, _) => .ready
  | (.instr (.pfx x) _, _) => .word x
  | (.instr i ws, t) => match exec i { t with turn := .issue (t.holdWords p ws) none } with
    | .next u => if t.blocked.length < u.blocked.length then .waits u else .ready
    | _ => .ready

/-- What a trial that waits leaves of a fibre that is not current: that the path is not ready, and the walks it waits for (R178, R243). -/
def State.noteWait (s u : State) : State := { s with blocked := u.blocked, walking := u.walking }

/-- A PC group at a word before an instruction is not ready where the instruction after the word would wait (R172, R178). -/
def State.noteWord (s : State) (p : Path) (x : Pfx) : State :=
  match s.tryPath { p with rep := some (x, 0) } with
  | .waits u => (s.holdWalks u).blockPath p
  | _ => s

/-- A PC group of a fibre as a path (R171, R172). -/
def groupPath (x : Fibre) (g w f : Nat) (k : GroupKey) : Path :=
  { g := g, w := w, f := f, pc := k.1, rep := k.2.1, inst := k.2.2
    mask := maskOf (lanesWhere x (fun l => l.st.isActive && l.pc == k.1 && l.rep == k.2.1 && l.inst == k.2.2)) }

/-- The PC groups of a fibre that are ready, and those at a word before an instruction. -/
structure Scan where
  s : State
  ready : List Path := []
  words : List Path := []

/-- Tries every PC group of a fibre. Of a fibre that is not current only the fact that a group waits is noted; the current fibre
reads the words before its instructions, each as a step of its own. -/
def State.scanFibre (s : State) (g w f : Nat) (cur : Bool) : Scan :=
  if !s.fibreOpen g w f then { s := s } else
  let x := s.fibreAt g w f
  let r := (pcGroups x).foldl (fun (acc : Scan) k =>
    let p := groupPath x g w f k
    match acc.s.tryPath p with
    | .waits u => { acc with s := if cur then u else acc.s.noteWait u }
    | .ready => { acc with ready := acc.ready ++ [p] }
    | .word x => if cur then { acc with words := acc.words ++ [p] }
      else { acc with s := acc.s.noteWord p x }) { s := s }
  if r.s.fibreOpen g w f then r else { s := r.s }

/-! Choosing paths (R172). -/

def pathAge (x : Fibre) (p : Path) : Nat := ((lanesOf p.mask).map (fun l => (x.lanes.getD l {}).age)).foldl max 0
def pathPop (p : Path) : Nat := (lanesOf p.mask).length

/-- The path of greatest key; ties go to the lower PC. -/
def bestBy (key : Path → Nat) (ps : List Path) : Option Path :=
  ps.foldl (fun m p => match m with
    | none => some p
    | some q => if key q < key p || (key q == key p && decide (p.pc.toNat < q.pc.toNat)) then some p else some q) none

/-- The greatest AGE of at least 32, else the most populous. -/
def nextPath (x : Fibre) (ps : List Path) : Option Path :=
  match bestBy (pathAge x) (ps.filter (fun p => decide (32 ≤ pathAge x p))) with
  | some p => some p
  | none => bestBy pathPop ps

/-- Whether a path is in the middle of a repeat. -/
def Path.midRepeat (p : Path) : Bool :=
  match p.rep with
  | some (_, k) => k != 0
  | none => false

/-- Path one and path two: a repeat that is path one stays so until its last execution. -/
def choosePaths (x : Fibre) (ready : List Path) : Option (Path × Option Path) :=
  let one := match x.ones.findSome? (fun m => ready.find? (fun p => p.midRepeat && p.mask &&& m != 0)) with
    | some p => some p
    | none => nextPath x ready
  one.map (fun p => (p, (nextPath x (ready.filter (fun q => q != p))).map (fun q => { q with second := true })))

/-- The freeze that path two, issued after path one, brings on the fibre. -/
def State.secondFreeze (s : State) (p q : Path) : Option Frozen :=
  match s.issueStep p (some q) with
  | .next t => (match t.turn with
    | .issue r none => (match t.issueStep r none with
      | .next u => if (t.fibreAt q.g q.w q.f).frozen.isSome then none else (u.fibreAt q.g q.w q.f).frozen
      | _ => none)
    | _ => none)
  | _ => none

/-- The chosen paths have the turn to issue; where path two freezes the fibre, neither takes effect (R173). -/
def State.issuePaths (s : State) (c : Path × Option Path) : State :=
  match c.2 with
  | none => { s with turn := .issue c.1 none }
  | some q => match s.secondFreeze c.1 q with
    | some z => s.freezePath { q with second := false, word := z.word } z.cause.toNat
    | none => { s with turn := .issue c.1 (some q) }

/-! Slots (R164, R172, R178, R188). -/

/-- The fibre to which a FYLD passes the slot. -/
def State.yieldTo (s : State) (g w f : Nat) (dst : Option Nat) : Option Nat :=
  match dst with
  | none => s.nextReady g w f
  | some n => if n != f && s.maybeReady g w n then some n else none

/-- Counts the looks at a slot that have found each fibre ready without being current (R178). Looks stand for cycles, which the
model does not count (log 5). -/
def State.countReady (s : State) (g w : Nat) (cur : Option Nat) : State :=
  s.modWarp g w (fun x => { x with fibres := x.fibres.mapIdx (fun k y =>
    { y with readyFor := if cur != some k && s.maybeReady g w k then y.readyFor + 1 else 0 }) })

/-- The current fibre's paths issue; a sibling ready for 32 cycles has the slot after them (R178). -/
def State.issueSlot (s : State) (g w f : Nat) (c : Path × Option Path) : State :=
  let n := (s.warpAt g w).slot
  let late := (s.longest g w f).isSome
  let t := s.modWarp g w (fun x => { x with pass := late, waited := 0 })
  (t.modCore (s.groupAt g).core (fun x => { x with last := x.last.set (n / 6) n })).issuePaths c

/-- What a look at a slot finds before a step of the slot that the outside has called for: which PC groups of its fibres wait (R178). -/
def State.lookSlot (s : State) (g w : Nat) : State :=
  (List.range (s.warpAt g w).fibres.length).foldl (fun (t : State) f => (t.scanFibre g w f false).s) s.wake

/-- One look at a slot: whether something is done there. Of two FYLDs of one cycle that name different fibres, path one's counts, and
path two's where path one's does not qualify. DESIGN CHOICE (log 128). -/
def State.trySlot (s : State) (g w : Nat) : State × Bool :=
  let cur := (s.warpAt g w).cur
  let r := (List.range (s.warpAt g w).fibres.length).foldl (fun (acc : Scan) f =>
    let q := acc.s.scanFibre g w f (cur == some f)
    if cur == some f then q else { acc with s := q.s }) { s := s }
  let s := r.s.countReady g w cur
  match cur with
  | none => let t := slotSwitch g w s; (t, (t.warpAt g w).cur != none)
  | some f =>
    match (s.warpAt g w).yields with
    | y :: ys =>
      let s := s.modWarp g w (fun x => { x with yields := [] })
      (match (y :: ys).findSome? (s.yieldTo g w f) with
      | some k => (s.setCur g w (some k), true)
      | none => (s, true))
    | [] => if (s.warpAt g w).pass && (s.longest g w f).isSome then (siblingHandover g w s, true) else match r.words with
      | p :: _ => ({ s with turn := .issue p none }, true)
      | [] => match choosePaths (s.fibreAt g w f) r.ready with
        | none =>
          let t := slotSwitch g w s
          let t := if (t.warpAt g w).cur != some f || (t.warpAt g w).waited < 256 then t else forcedSwitch g w t
          if (t.warpAt g w).cur != some f then (t, true) else (t.modWarp g w (fun x => { x with waited := x.waited + 1 }), false)
        | some c => (s.issueSlot g w f c, true)

/-- The warp in a slot of a core. -/
def State.slotWarp (s : State) (c k : Nat) : Option (Nat × Nat) :=
  s.groups.findSome? (fun e => if e.2.core != c || e.2.retired then none else
    ((List.range e.2.warps.length).find? (fun w => (e.2.warps.getD w {}).slot == k)).map (fun w => (e.1, w)))

/-- One look at a scheduler's six slots, from the one after the last it issued from (R172). -/
def State.trySched (s : State) (c k : Nat) : State × Bool :=
  let last := (s.coreAt c).last.getD k 0
  ((List.range 6).map (fun i => 6 * k + (last + 1 + i) % 6)).foldl (fun (acc : State × Bool) n =>
    if acc.2 then acc else match acc.1.slotWarp c n with
      | none => acc
      | some e => acc.1.trySlot e.1 e.2) (s, false)

/-- Whether one look at a sequencer's, or an access processor's, turn finds it waiting; then what that leaves. -/
def State.tryTurn (s : State) (t : Turn) (o : Host.Outcome State Fault Refusal) : State × Bool :=
  match o with
  | .next u => if s.blocked.length < u.blocked.length then ({ s with blocked := u.blocked, walking := u.walking }, false) else ({ s with turn := t }, true)
  | _ => (s, false)

/-- Agents that fetch instructions. -/
inductive Agent where
  | sched (c k : Nat)
  | seq (g : Nat)
  | ap (g n : Nat)

def State.fetchers (s : State) : List Agent :=
  s.cores.flatMap (fun e => (List.range 4).map (fun k => Agent.sched e.1 k))
    ++ s.groups.flatMap (fun e =>
      if e.2.pre != .none || e.2.retired then [] else
      (if e.2.seq.st == .running && e.2.seq.nonres.isNone then [Agent.seq e.1] else [])
        ++ (e.2.aps.filter (fun a => a.2.st == .running && a.2.nonres.isNone)).map (fun a => Agent.ap e.1 a.1))

def State.tryAgent (s : State) (a : Agent) : State × Bool :=
  match a with
  | .sched c k => s.trySched c k
  | .seq g => s.tryTurn (.stream g) (s.streamStep g)
  | .ap g n => s.tryTurn (.access g n) (s.accessStep g n)

/-- A list from its `n`-th element on, cyclically. -/
def rotate {α : Type} (n : Nat) (xs : List α) : List α :=
  let k := n % max 1 xs.length
  xs.drop k ++ xs.take k

/-- The first agent that can move takes its turn; the agents are looked at afresh, each choice from another on. -/
def State.chooseAgent (s : State) : State × Bool :=
  (rotate s.turnNo s.fetchers).foldl (fun (acc : State × Bool) a => if acc.2 then acc else acc.1.tryAgent a) (s.wake, false)

/-! Steps that are due by themselves. -/

/-- What is due: a step of its own; the array's next turn, for a group (R321); a command's next request or word (R378); an LDQ's next
request (R300); the end of a fibre whose held stores are being released (R403); the next word of a packet (R469); the start of a kind of unit
(R484); Denuf's work on the mailbox (R486); the next frame of a scrub (R436). -/
inductive Due where
  | step (i : Instr)
  | array (g : Nat)
  | command (id : Nat)
  | ask (id : Nat)
  | ends (g w f : Nat)
  | place (id : Nat)
  | unit
  | mail
  | frame

/-- The arrival of a message (R448). -/
def arrivalOf (m : Msg) : Instr :=
  match m.kind with
  | .reg _ => .reg m.id
  | .rd => .rd m.id
  | .ucw _ => .ucw m.id
  | .ack _ => .ack m.id
  | .fwd _ => .fwd m.id
  | .rev _ => .rev m.id
  | .binv => .binv m.id
  | .reva => .reva m.id
  | .revs _ => .revs m.id
  | .data => .data m.id
  | .wb => .wb m.id
  | .noown _ => .noown m.id
  | .claim => .claim m.id

/-- The messages that have no earlier one on their route (R443). -/
def routeHeads : List Msg → List (MsgClass × Bool × Nat × Nat × Option Nat) → List Msg
  | [], _ => []
  | m :: r, seen => if seen.contains m.route then routeHeads r seen else m :: routeHeads r (m.route :: seen)

/-- Packets of messages to this device itself, and replies to its reads of itself. -/
def State.selfPackets (s : State) (m : XMsg) : List Instr :=
  if !m.started || !s.toSelf m then [] else
  (List.range (packetCount (xLen m.desc))).map (fun i =>
    .packetArrive { msg := m.id, job := m.ctx, kind := if m.op = 0xD1 || m.op = 0xD9 then .readReply else .write 0 0, idx := i
                    count := 1, msgLen := 0, words := [], rne := false, rslot := 0, fromPeer := false })

/-- The next steps of a command (R312, R318, R378). -/
def Cmd.due (c : Cmd) : List Due :=
  if !c.started then [.step (.commandStart c.id), .step (.engineDispatch c.id), .step (.dispatchDeadline c.id)]
  else if c.whole then [.step (.commandComplete c.id)] else [.command c.id]

/-- Steps of memory and accesses under way. -/
def State.dueSteps (s : State) : List Instr :=
  let all : Word := 0xFFFFFFFF
  (routeHeads s.msgs []).map arrivalOf
    ++ (s.pend.filter (fun p => p.uc && p.done)).map (fun p => .ucwAcknowledge p.id)
    ++ (s.prods.filter (fun p => p.items.any (fun i => i.got.isSome || p.kind == .copy && !i.unasked))).map (fun p =>
        if p.kind == .copy then .queueEntryFill p.id all else .loadDataReturn p.id all)
    ++ s.parkedAll.map (fun p => .parkedAccessPerform p.id)
    ++ s.pfts.map (fun p => .pftComplete p.id)
    ++ (s.walking.filter (fun r => !r.done)).map (fun r => .translationWalk r.core r.ctx (BitVec.ofNat 64 (65536 * r.page)))
    ++ s.xmsgs.flatMap (fun m => s.selfPackets m ++ (if m.op = 0xD1 || s.toSelf m then [.finalAck m.id 0] else []))
    ++ (s.tokens.map (fun t => t.1)).eraseDups.map .tokenGrant
    ++ s.cores.flatMap (fun e => (if e.2.tokenAsked then [.tokenArrive e.1] else []) ++ (if e.2.tokenHeld then [.tokenIdleReturn e.1] else []))

/-- Fibres of a group whose end is still to come (R402, R403). -/
def State.endsDue (s : State) (g : Nat) (x : Group) : List Due :=
  if x.retired then [] else
  (List.range x.warps.length).flatMap (fun w =>
    ((List.range (s.warpAt g w).fibres.length).filter (fun f => (s.fibreAt g w f).endDue)).map (fun f => Due.ends g w f))

/-- Fibres parked with no record that Denuf would service: they replay at once (R400). -/
def State.unserviced (s : State) (g : Nat) (x : Group) : List Instr :=
  (List.range x.warps.length).flatMap (fun w => ((List.range (s.warpAt g w).fibres.length).filter (fun f =>
    let y := s.fibreAt g w f
    y.park.isSome && !y.park.any needsService)).map (fun f => .faultServiceDone g w f (some [])))

/-- Steps of one placed group. -/
def State.dueGroup (s : State) (g : Nat) (x : Group) : List Instr :=
  s.unserviced g x
    ++ (if x.seq.slots.any (fun b => b.busy) then [.bldFinish g] else [])
    ++ ((List.range x.bars.length).filter (fun n => let b := s.barAt g n; b.exp ≠ 0 && decide (b.exp ≤ b.cnt))).map (fun n =>
        .barrierRepeatCompletion g n)
    ++ (if s.mayRetire g then [.groupRetire g] else [])
    ++ (match x.pre with
      | .none => []
      | .restoring => [.restoreComplete g]
      | _ => [.saveStart g, .saveComplete g])

/-- The steps of the launch engine, and of what the outside has begun. -/
def State.dueEngine (s : State) : List Instr :=
  (match s.engine.chosen with
      | some k => [.recordAccept k]
      | none => if s.mayAccept && !s.engine.slots.isEmpty then [.slotServe] else [])
    ++ s.engine.launches.flatMap (fun l =>
      (if l.reason = 0 && (!l.passed || l.record.kind = 1) then [.placementPass l.lsn] else [])
        ++ (if l.reason ≠ 0 || l.stages.any (fun st => !st.ended && st.retired == st.total) then [.launchEnd l.lsn] else []))
    ++ s.saved.map (fun v => .restoreStart v.g)
    ++ (match s.replacing with
      | some k => [.dieReplace k]
      | none => [])

/-- Everything that may be due. -/
def State.due (s : State) : List Due :=
  (s.dueSteps ++ s.groups.flatMap (fun e => s.dueGroup e.1 e.2) ++ s.dueEngine).map .step
    ++ s.cmds.flatMap Cmd.due
    ++ (s.groups.filter (fun e => !e.2.seq.ops.isEmpty)).map (fun e => .array e.1)
    ++ (s.prods.filter (fun p => p.kind == .copy && p.items.any Item.unasked)).map (fun p => .ask p.id)
    ++ s.groups.flatMap (fun e => s.endsDue e.1 e.2)
    ++ s.placing.map (fun p => .place p.id)
    ++ [.unit, .mail, .frame]

/-- What is done where something due is tried, if it changes more than what has been noted of waiting paths. -/
def State.tryDue (s : State) (d : Due) : Option State :=
  match d with
  | .step i => (match exec i s with
    | .next t => if { t with blocked := s.blocked } = s then none else some t
    | _ => none)
  | .array g => if s.matrixTurn g then some (s.matrixGo g).wake else none
  | .command id => s.cmdGo id
  | .ask id => s.askLdq id
  | .place id => s.placeGo id
  | .unit => s.unitUp
  | .mail => s.mailGo
  | .frame => s.scrubNext
  | .ends g w f => let t := (s.endStep g w f).flush g; if t = s then none else some t.wake

/-- The first due step that changes something. -/
def State.chooseDue (s : State) : Option State := (rotate s.turnNo s.due).findSome? s.tryDue

/-! The choice. -/

/-- The cycle of a fibre whose second path has been found not ready ends (R172). -/
def State.closeCycle (s : State) (o : Opp) : State :=
  s.endCycle { g := o.g, w := o.w, f := o.f, mask := 0, pc := 0 }

/-- A step of a slot looks at the slot first. -/
def State.lookFor (s : State) (i : Instr) : State :=
  match i with
  | .slotSwitch g w => s.lookSlot g w
  | .forcedSwitch g w => s.lookSlot g w
  | .siblingHandover g w => s.lookSlot g w
  | _ => s

/-- Nothing is issuing: a step that the outside has called for takes place, in order; otherwise agents and the steps that are
due take turns. DESIGN CHOICE (log 28). -/
def State.chooseStep (s : State) : Host.Outcome State Fault Refusal :=
  match s.opp with
  | some o => .next (s.closeCycle o)
  | none => match s.agenda with
    | i :: is => exec i (({ s with agenda := is } : State).lookFor i)
    | [] =>
      let s := { s with turnNo := s.turnNo + 1 }
      let r := s.chooseAgent
      .next (if s.turnNo % 2 = 0 then (if r.2 then r.1 else r.1.chooseDue.getD r.1) else s.chooseDue.getD r.1)

end Sys2Proof.Machine
end

