-- ==== Sys2Proof/Machine/Load.lean ====
section
/-! DEFINITION. A partition with one group whose next instruction stands in memory: what a program's load leaves (R440,
R485). Nothing in the machine uses it; it stands for a load from outside. -/

namespace Sys2Proof.Machine

/-- Where the load puts things: the slice's page tables, its 1 GiB page, and in it the code. -/
def loadBase (s : State) : Nat := s.first * 2 ^ 40
def loadPage (s : State) : Nat := loadBase s + 2 ^ 30
def loadVa : Nat := 0x1000

/-- Writes words to device memory and forgets every other copy of the line they begin (R245, R247, R249). -/
def loadLine (a : Nat) (ws : List Word) (s : State) : State :=
  let other := fun (k : Nat) => k / 32 != a / 128
  let m := s.mem.filter (fun e => e.1 / 128 != a / 128)
  { s with mem := writeBytes m a (ws.flatMap (fun w => bytesOfNat w.toNat 4)), bad := s.bad.filter (fun e => other e.1)
           owners := s.owners.filter (fun e => other e.1)
           upset := s.upset.filter (fun e => other e.1), lineKeys := sdel s.lineKeys (a / 128) }

/-- An entry of a page table as two words (R241). -/
def entryWords (e : Nat) : List Word := [BitVec.ofNat 32 e, BitVec.ofNat 32 (e / 2 ^ 32)]

/-- The loaded context: number 0, its tree mapping its first 1 GiB for every access. -/
def loadCtx (s : State) : Ctx :=
  { cfg := { num := 0, cls := 0, root := some (BitVec.ofNat 64 (loadBase s)), permR := 0xFFF, permW := 0xFFF, slice := s.first
             saveArea := none, isProtected := false, peers := [], regions := [], nobuf := 100 } }

/-- The leaf that maps the page. -/
def loadLeaf (s : State) : Leaf := { dpa := loadPage s, size := 2 ^ 30, w := true, x := true, uc := false, nr := false, enc := false, level := 2 }

/-- The loaded group: one warp of one fibre, a sequencer and an access processor, each at the instruction. -/
def loadGroup : Group :=
  let views : List Word := [0, 0x600, 0x2000, 0x1FF0000]
  { lsn := 0, lin := 0, gid := (0, 0, 0), grid := (1, 1, 1), ctx := 0, core := 0, views := [views], regBase := [0], regg := 511
    warps := [{ alloc := 511, fibres := [{ entry := some (BitVec.ofNat 64 loadVa), vvec := 0, vtile := 0x600, vacc := 0x2000
                                           win := 0x1FF0000
                                           lanes := List.replicate 32 { pc := BitVec.ofNat 64 loadVa, st := .active } }] }]
    spadBytes := 65536, nbar := 32, bars := List.replicate 32 {}, nseq := 1
    seq := { st := .running, spc := BitVec.ofNat 64 loadVa, vtile := 0x600, vacc := 0x2000, win := 0x1FF0000, cnt := 1
             stat := 1, granted := true, slots := [{}] }
    aps := [(0, { st := .running, spc := BitVec.ofNat 64 loadVa })]
    queues := (List.range 8).map (fun h => (h, {})) }

/-- The turn of the agent that executes a first word. -/
def loadTurn (w : Word) : Turn :=
  if isPfxWord w then .issue { g := 0, w := 0, f := 0, mask := 0xFFFFFFFF, pc := BitVec.ofNat 64 loadVa, word := w } none
  else if streamOp (opOf w) then .stream 0
  else if opOf w == 0xC5 || opOf w == 0xC6 then .access 0 0
  else .issue { g := 0, w := 0, f := 0, mask := 0xFFFFFFFF, pc := BitVec.ofNat 64 loadVa, word := w } none

/-- The partition's own registers, its context and its group. -/
def loadPart (s : State) : State :=
  { (({ s with tables := [] } : State).grant (loadCtx s).cfg) with
           slices := if s.slices = 0 then 1 else s.slices, started := true, boot := .running
           opp := none, blocked := []
           ctxs := loadCtx s :: s.ctxs.filter (fun c => c.cfg.num != 0), groups := sput s.groups 0 loadGroup
           dieTlb := s.dieTlb.map (fun e => (e.1, e.2.filter (fun t => t.ctx != 0)))
           walks := s.walks.map (fun e => (e.1, e.2.filter (fun t => t.ctx != 0)))
           saved := s.saved.filter (fun v => v.g != 0) }

/-- What core 0 has fetched already: the translation and the line. -/
def loadCore (ws : List Word) (s : State) : State :=
  s.modCore 0 (fun c => { c with
    up := true
    tlb := { ctx := 0, va := 0, leaf := loadLeaf s } :: c.tlb.filter (fun e => e.ctx != 0)
    icache := sput c.icache (codeKey 0 loadVa) { dpa := loadPage s + loadVa, words := ws, pins := 0, here := true } })

/-- Loads the words of one instruction where the next step fetches. DESIGN CHOICE (log 3). -/
def State.loadWords (s : State) (ws : List Word) : State :=
  let ws := (ws ++ List.replicate 32 0).take 32
  let s := loadPart s
  let s := loadLine (loadBase s) (entryWords (loadBase s + 2 ^ 16 + 3)) s
  let s := loadLine (loadBase s + 2 ^ 16) (entryWords (loadPage s + 13)) s
  let s := loadLine (loadPage s + loadVa) ws s
  { loadCore ws s with turn := loadTurn (ws.headD 0) }

end Sys2Proof.Machine
end

