-- ==== Sys2Proof/Machine/Step.lean ====
section
/-! DEFINITION. One step of the machine. -/

namespace Sys2Proof.Machine

/-- One step: the agent whose turn it is fetches, decodes and executes its next instruction; where none has the turn, the
next is chosen. -/
def step (s : State) : Host.Outcome State Fault Refusal :=
  match s.turn with
  | .choose => s.chooseStep
  | .issue p q => s.issueStep p q
  | .stream g => s.streamStep g
  | .access g n => s.accessStep g n

/-- The state with an instruction of `nbits` bits `w` stored where the next step fetches. -/
def State.withFetchWord (s : State) (nbits w : Nat) : State := s.loadWords (tableWords nbits w)

end Sys2Proof.Machine
end

