-- ==== Sys2Proof/Safety.lean ====
section
/-! DEFINITION. The terms that claims use: a step that goes on, canonical memory, the state less what the scheduler keeps,
and a path whose instruction can issue. -/

namespace Sys2Proof

/-- The machine stops at neither a fault nor a refusal. -/
def StepGoesOn (s : Machine.State) : Prop := ∃ t, Machine.step s = .next t

/-- Device memory is in its canonical form. -/
def MemoryCanonical (s : Machine.State) : Prop := Machine.Memory.wf s.mem = true

namespace Machine

/-- A lane less its place in the program: its predicates. -/
def Lane.blank (l : Lane) : Lane := { l with pc := 0, st := .notStarted, age := 0, rep := none, inst := {} }

/-- A fibre less what issuing any instruction changes: its lanes' places, its SW lanes and repeats, its flags of the cycle, and the model's
notes of what its accesses come after. -/
def Fibre.blank (x : Fibre) : Fibre :=
  { x with lanes := x.lanes.map Lane.blank, swLanes := 0, raised := 0, ones := [], joined := 0, after := [] }

def Warp.blank (x : Warp) : Warp := { x with fibres := x.fibres.map Fibre.blank, handed := [] }

def Group.blank (x : Group) : Group := { x with warps := x.warps.map Warp.blank }

/-- The state less what issuing any instruction changes: whose turn it is, the issue opportunity, the paths found waiting, the model's notes
of executions with work outstanding and of walks, and each lane's place in the program. All else stays: memory, registers, predicates, FSTAT,
cartouches, barriers, engines. -/
def State.blank (s : State) : State :=
  { s with turn := .choose, opp := none, blocked := [], perfRead := [], late := none, tallies := [], walking := []
           groups := s.groups.map (fun e => (e.1, e.2.blank)) }

/-- Two states agree in everything but what issuing any instruction changes. -/
def Agree (s t : State) : Prop := s.blank = t.blank

/-- What an execution finds: fences that can complete have completed (R269), registers that the array is writing show one of their values
(R325), and lanes whose guard is poisoned are stranded (R13). -/
def State.start (s : State) (p : Path) (f : Fields) : State := (s.settle p.g p.w p.f).prep p f

/-- What an execution leaves beside its effect: the walks it waited for are used (R178), and what its accesses come after is noted (R278,
R291). -/
def State.noted (u : State) (x : Ex) : State := ((u.walksUsed x.p.g x.p.w x.p.f x.p.pc).joinLanes x).handOff x

/-- A path whose instruction, of opcode `op` with fields `f`, can issue: it has the turn, its fibre stands in a placed group,
its lanes are active and one of them at least participates (R191), the fibre is not frozen (R26), every register it names lies in the window (R168), no
fence of the fibre holds it (R269), it waits for no walk (R178), and the cycle is neither late (R406) nor has brought anything to a barrier
yet (R201). -/
structure Issuing (s : State) (p : Path) (q : Option Path) (op : Nat) (f : Fields) : Prop where
  turn : s.turn = .issue p q
  window : windowOk (s.pathFibre p) op (s.exOf p op f).k f = true
  parts : s.partsOf p f ≠ []
  free : (s.settle p.g p.w p.f).fenceHolds p.g p.w p.f op = false
  late : s.late = none
  walks : s.walksOut p.g p.w p.f p.pc = false
  placed : (s.group? p.g).isSome = true
  warp : p.w < (s.groupAt p.g).warps.length
  fibre : p.f < (s.warpAt p.g p.w).fibres.length
  active : ∀ l ∈ lanesOf p.mask, (s.laneAt p.g p.w p.f l).st = .active
  quiet : (s.groupAt p.g).barOps = []
  going : (s.fibreAt p.g p.w p.f).frozen = none

/-- Where a lane goes (R28, R31): to its jump, or past the execution. -/
def nextPc (x : Ex) (jumps : List (Nat × DWord)) (l : Nat) : DWord :=
  match jumps.find? (fun j => j.1 == l) with
  | some j => pcOf j.2
  | none => match x.p.rep with
    | some (w, k) => if k < w.rep.toNat then x.p.pc else pcOf x.next
    | none => pcOf x.next

/-- `exec` of an instruction answers a next state that agrees with `u` and in which the path's lanes that are active in `u`
have moved, each to its jump or past the instruction. -/
def Completes (i : Instr) (s : State) (x : Ex) (u : State) (jumps : List (Nat × DWord)) : Prop :=
  ∃ t, exec i s = .next t ∧ Agree t u ∧
    ∀ l ∈ lanesOf x.p.mask, (u.laneAt x.p.g x.p.w x.p.f l).st = .active →
      (t.laneAt x.p.g x.p.w x.p.f l).st = .active ∧ (t.laneAt x.p.g x.p.w x.p.f l).pc = nextPc x jumps l

end Machine

end Sys2Proof
end

