-- ==== Sys2Proof/Certificates/Slice0/Obligations.lean ====
section
/-! DEFINITION. What is claimed of the machine. Each statement's docstring names the rule it formalises. A statement about an
instruction takes the state that its execution finds, `s.start p f`: fences that can complete have completed (R269), registers that
the array is writing show one of their values (R325), and lanes with a poisoned guard are stranded (R13): PoisonedGuardStrands and
StartSettles say so. -/

open Sys2Proof Sys2Proof.Machine

namespace Sys2Proof.Claims

/-- A register-to-register instruction: its opcode, fields, sources, function, and the words of its result. -/
structure Alu where
  op : Nat
  f : Fields
  srcs : Ex → State → Nat → List (List Val) := srcs2
  fn : State → Ex → List (List RegWord) → List RegWord × Word
  width : Ex → Nat := fun _ => 1

/-- The integer and logic instructions that write a register from registers (R103 to R106, R108 to R114). -/
def integerAlu : Instr → Option Alu
  | .iadd f => some { op := 0x10, f := f, fn := fun _ => intPred (fun _ _ => intSum) intSum, width := Ex.outWords }
  | .isub f => some { op := 0x11, f := f, fn := fun _ => intPred (fun _ _ => intDiff) intDiff, width := Ex.outWords }
  | .imul f => some { op := 0x12, f := f, fn := fun _ => imulWords, width := Ex.outWords }
  | .imulh f => some { op := 0x13, f := f, fn := fun _ => intRegen (fun n _ vs => intProd vs / 2 ^ n), width := Ex.outWords }
  | .imad f => some { op := 0x14, f := f, srcs := srcs3, fn := fun _ => imadWords, width := Ex.outWords }
  | .iadd3 f => some { op := 0x15, f := f, srcs := srcs3, fn := fun _ => intPred (fun _ _ => intSum3) intSum3, width := Ex.outWords }
  | .idiv f => some { op := 0x16, f := f, fn := fun _ => divWith divInt, width := Ex.outWords }
  | .irem f => some { op := 0x17, f := f, fn := fun _ => divWith remInt, width := Ex.outWords }
  | .imin f => some { op := 0x18, f := f, fn := fun _ => intRegen (fun _ _ vs => min (arg vs 0) (arg vs 1)), width := Ex.outWords }
  | .imax f => some { op := 0x19, f := f, fn := fun _ => intRegen (fun _ _ vs => max (arg vs 0) (arg vs 1)), width := Ex.outWords }
  | .iabs f => some { op := 0x1A, f := f, srcs := srcs1, fn := fun _ x => intRegen (absInt (x.f.sub.getLsbD 0)) x, width := Ex.outWords }
  | .isadd f => some { op := 0x1B, f := f, width := Ex.outWords
                       fn := fun _ x => let p := if x.f.sub.getLsbD 0 then intDiff else intSum
                                        intPred (fun n sg vs => clampInt n sg (p vs)) p x }
  | .lea f => some { op := 0x1C, f := f, fn := fun _ => leaWords, width := fun _ => 2 }
  | .idot4 f => some { op := 0x1D, f := f, srcs := srcs3, fn := fun _ => dot4Words }
  | .and f => some { op := 0x20, f := f, fn := fun _ => bitOp (· &&& ·), width := Ex.outWords }
  | .or f => some { op := 0x21, f := f, fn := fun _ => bitOp (· ||| ·), width := Ex.outWords }
  | .xor f => some { op := 0x22, f := f, fn := fun _ => bitOp (· ^^^ ·), width := Ex.outWords }
  | .bitf f => some { op := 0x23, f := f, srcs := srcs3, fn := fun _ => bitfWords, width := Ex.outWords }
  | .shl f => some { op := 0x24, f := f, fn := fun _ => shiftWords .left, width := Ex.outWords }
  | .shr f => some { op := 0x25, f := f, fn := fun _ => shiftWords .right, width := Ex.outWords }
  | .sar f => some { op := 0x26, f := f, fn := fun _ => shiftWords .arith, width := Ex.outWords }
  | .fsh f => some { op := 0x27, f := f, srcs := srcs3, fn := fun _ => fshWords }
  | .bfx f => some { op := 0x28, f := f, fn := fun _ => bfxWords }
  | .bfi f => some { op := 0x29, f := f, srcs := srcs3, fn := fun _ => bfiWords }
  | .popc f => some { op := 0x2A, f := f, srcs := srcs1, fn := fun _ => bitCount onesIn }
  | .clz f => some { op := 0x2B, f := f, srcs := srcs1, fn := fun _ => bitCount leadingZeros }
  | .brev f => some { op := 0x2C, f := f, srcs := srcs1, fn := fun _ => brevWords, width := Ex.outWords }
  | .bytx f => some { op := 0x2D, f := f, srcs := srcs3, fn := fun _ => bytxWords }
  | .iset f => some { op := 0x35, f := f, width := Ex.outWords
                      fn := fun _ x => intRegen (fun _ _ vs => if intCond x.cond (arg vs 0) (arg vs 1) then -1 else 0) x }
  | _ => none

/-- The floating-point instructions and conversions that write a register from registers (R146 to R155, R157). -/
def floatAlu : Instr → Option Alu
  | .fset f => some { op := 0x36, f := f, fn := fun _ => floatWords fsetEl }
  | .fadd f => some { op := 0x50, f := f, fn := fun _ => floatWords (arith addOp) }
  | .fmul f => some { op := 0x51, f := f, fn := fun _ => floatWords (arith mulOp) }
  | .ffma f => some { op := 0x52, f := f, srcs := srcs3, fn := fun _ => floatWords ffma }
  | .fmin f => some { op := 0x53, f := f, fn := fun _ x => floatWords (minMax true (x.f.sub.getLsbD 0)) x }
  | .fmax f => some { op := 0x54, f := f, fn := fun _ x => floatWords (minMax false (x.f.sub.getLsbD 0)) x }
  | .fdiv f => some { op := 0x55, f := f, fn := fun _ => floatWords (arith divOp) }
  | .fsqrt f => some { op := 0x56, f := f, srcs := srcs1, fn := fun _ => floatWords (arith sqrtOp) }
  | .frcp f => some { op := 0x57, f := f, srcs := srcs1, fn := fun _ => floatWords (arith rcpOp) }
  | .frsq f => some { op := 0x58, f := f, srcs := srcs1, fn := fun _ => floatWords (arith rsqOp) }
  | .fex2 f => some { op := 0x59, f := f, srcs := srcs1, fn := fun _ => floatWords (arith ex2Op) }
  | .flg2 f => some { op := 0x5A, f := f, srcs := srcs1, fn := fun _ => floatWords (arith lg2Op) }
  | .frnd f => some { op := 0x5B, f := f, srcs := srcs1, fn := fun _ => floatWords frnd }
  | .fscl f => some { op := 0x5C, f := f, fn := fun _ => fsclWords }
  | .fdot2 f => some { op := 0x5D, f := f, srcs := srcs3, fn := fun _ => fdot2Words }
  | .fcvt f => some { op := 0x5E, f := f, srcs := srcs1, fn := fun s x => fcvtWords (x.xvAt s (x.f.c.toNat % 8)) x }
  | .icvt f => some { op := 0x5F, f := f, srcs := srcs1, fn := fun s x => icvtWords (x.xvAt s (x.f.c.toNat % 8)) x
                      width := Ex.outWords }
  | _ => none

/-- An instruction of a fibre: its opcode and fields, when it can issue with no exception, what it leaves and where its
lanes go; `walks` says that its accesses may ask for walks of the page table (R178, R243). -/
structure Fx where
  op : Nat
  f : Fields
  walks : Bool := false
  ready : Ex → State → Bool := fun _ _ => true
  out : Ex → State → State := fun _ s => s
  jumps : Ex → State → List (Nat × DWord) := fun _ _ => []

/-- A register-to-register instruction as such. -/
def Alu.fx (a : Alu) : Fx :=
  { op := a.op, f := a.f, ready := fun x s => s.ready x {}, out := fun x s => regOut a.srcs (a.fn s) (a.width x) x s }

/-- No walk that the execution asks for is outstanding: each of its pages is in its core's TLB, or its walk has ended (R178, R243). -/
def Fx.Walked (e : Fx) (s : State) (p : Path) : Prop :=
  e.walks = true → (e.out (s.exOf p e.op e.f) (s.start p e.f)).walksOut p.g p.w p.f p.pc = false

/-- The instruction completes for every path that can issue it, with every operand: what it leaves, where its lanes go, and
nothing else. -/
def Fx.Ends (e : Fx) (i : Instr) : Prop :=
  ∀ s p q, Issuing s p q e.op e.f → e.ready (s.exOf p e.op e.f) (s.start p e.f) = true → e.Walked s p →
    Completes i s (s.exOf p e.op e.f) (e.out (s.exOf p e.op e.f) (s.start p e.f)) (e.jumps (s.exOf p e.op e.f) (s.start p e.f))

/-- Instructions that write predicates, or choose by one (R107, R114 to R117, R156, R158, R195, R205, R414). Where a poisoned
predicate strands a lane, some other lane must go on. -/
def predicateFx : Instr → Option Fx
  | .iaddc f => some { op := 0x1E, f := f, out := iaddcOut
                       ready := fun x s => s.ready x { c := false } && !(s.goodPred x x.f.c.toNat).isEmpty }
  | .icmp f => some { op := 0x30, f := f, ready := fun x s => s.ready x {}, out := predOut srcs2 icmpFn }
  | .fcmp f => some { op := 0x31, f := f, ready := fun x s => s.ready x {}, out := predOut srcs2 fcmpFn }
  | .sel f => some { op := 0x32, f := f, ready := fun x s => s.selReady x && !(s.goodPred x x.f.c.toNat).isEmpty, out := selOut }
  | .plog f => some { op := 0x33, f := f, out := plogOut }
  | .pmov f => some { op := 0x34, f := f, ready := fun x s => s.ready x {}, out := predOut srcs1 pmovFn }
  | .fcls f => some { op := 0x37, f := f, ready := fun x s => s.ready x {}, out := predOut srcs2 fclsFn }
  | .vote f => some { op := 0x72, f := f, ready := fun x s => !(s.goodPred x x.f.a.toNat).isEmpty, out := voteOut }
  | .feq f => some { op := 0xA7, f := f, ready := feqReady, out := feqOut }
  | .pchk f => some { op := 0xE2, f := f, ready := pchkReady, out := pchkOut }
  | _ => none

/-- Moves and instructions across lanes (R118 to R121, R190, R192 to R194, R196). -/
def moveFx : Instr → Option Fx
  | .mov f => some { op := 0x40, f := f, ready := fun x s => s.ready x { b := false, c := false }, out := movOut }
  | .movi f => some { op := 0x41, f := f, out := moviOut }
  | .movs f => some { op := 0x42, f := f, out := movsOut }
  | .movw f => some { op := 0x43, f := f, ready := fun x s => s.ready x { b := false, c := false }, out := movwOut }
  | .vtos f => some { op := 0x44, f := f, ready := vtosReady, out := vtosOut }
  | .view f => some { op := 0x45, f := f, ready := fun x s => s.ready x { b := false, c := false }, out := viewOut }
  | .nbr f => some { op := 0x70, f := f, ready := fun x s => chainReady (nbrPlaces x s) x s
                     out := fun x s => chainOut (nbrPlaces x s) true x s }
  | .cxs f => some { op := 0x71, f := f, ready := cxsReady, out := fun x s => chainOut (cxsPlaces x s) false x s }
  | .lred f => some { op := 0x73, f := f, ready := fun x s => s.ready x { b := false, c := false }, out := lredOut }
  | .lscan f => some { op := 0x74, f := f, ready := fun x s => s.ready x { b := false, c := false }, out := lscanOut }
  | .bcst f => some { op := 0x75, f := f, ready := fun x s => copyReady (bcstLane x) x s, out := fun x s => copyLane (bcstLane x) x s }
  | _ => none

/-- The word that BRU or LOOP tests, where it does not freeze. -/
def valOr (t : Word ⊕ Nat) : Word :=
  match t with
  | .inl v => v
  | .inr _ => 0

/-- Control flow (R98 to R101, R188, R189). JMX and RET where some lane has a target, none of them misaligned or too high;
BRU and LOOP where what they test is unpoisoned. -/
def controlFx : Instr → Option Fx
  | .nop f => some { op := 0x00, f := f }
  | .bra f => some { op := 0x01, f := f, jumps := fun x _ => allTo x (branchTarget x) }
  | .bru f => some { op := 0x02, f := f, ready := fun x s => bruReady x s && (bruVal x s).isLeft
                     jumps := fun x s => bruJumps x (valOr (bruVal x s)) }
  | .jmx f => some { op := 0x03, f := f, out := jumpOut, jumps := jumpTargets
                     ready := fun x s => s.ready x { b := false, c := false } && (jumpFail x s).isNone && !(jumpTargets x s).isEmpty }
  | .call f => some { op := 0x04, f := f, out := callOut, jumps := fun x _ => allTo x (branchTarget x) }
  | .ret f => some { op := 0x05, f := f, out := jumpOut, jumps := jumpTargets
                     ready := fun x s => s.ready x { b := false, c := false } && (jumpFail x s).isNone && !(jumpTargets x s).isEmpty }
  | .fyld f => some { op := 0x07, f := f, out := fyldOut }
  | .fstart f => some { op := 0x08, f := f, ready := fun x s => s.coreRelease x true, out := fstartOut }
  | .loop f => some { op := 0x09, f := f
                      ready := fun x s => s.posReady x x.k.d x.f.d false && (tested (s.readCode x x.f.d 0 x.low)).isLeft
                      out := fun x s => loopOut (valOr (tested (s.readCode x x.f.d 0 x.low))) x s
                      jumps := fun x s => loopJumps x (valOr (tested (s.readCode x x.f.d 0 x.low))) }
  | _ => none

/-- Loads, stores, atomics, fences, cache control and instruction memory (R122 to R126, R256 to R276, R373, R374). -/
def memoryFx : Instr → Option Fx
  | .ipf f => some { op := 0x0A, f := f, walks := true, ready := fun x s => s.ready x { c := false }, out := ipfOut }
  | .ipin f => some { op := 0x0B, f := f, walks := true, ready := fun x s => s.ready x { c := false }, out := ipinOut }
  | .iunp f => some { op := 0x0C, f := f, ready := fun x s => s.ready x { c := false }, out := iunpOut }
  | .ld f => some { op := 0x80, f := f, walks := true, ready := loadReady false, out := loadOut false }
  | .st f => some { op := 0x81, f := f, walks := true, ready := fun x s => storeReady false x s && !quarFull x s, out := storeOut false }
  | .lds f => some { op := 0x82, f := f, ready := ldsReady, out := ldsOut }
  | .sts f => some { op := 0x83, f := f, ready := fun x s => stsReady x s && !quarFull x s, out := stsOut }
  | .ldu f => some { op := 0x84, f := f, walks := true, ready := loadReady true, out := loadOut true }
  | .stu f => some { op := 0x85, f := f, walks := true, ready := fun x s => storeReady true x s && !quarFull x s, out := storeOut true }
  | .ldfe f => some { op := 0x86, f := f, ready := ldfeReady, out := ldfeOut }
  | .stfe f => some { op := 0x87, f := f, out := stfeOut
                      ready := fun x s => stfeReady x s && !(!(stfeBads x s).isEmpty && quarFull x s) }
  | .pft f => some { op := 0x8C, f := f, walks := true, ready := pftReady, out := pftOut }
  | .pfc f => some { op := 0x8D, f := f, walks := true, ready := pfcReady, out := pfcOut }
  | .cctl f => some { op := 0x8E, f := f, walks := true, ready := cctlReady, out := cctlOut }
  | .atom f => some { op := 0x90, f := f, walks := true, ready := atomReady false, out := atomOut false false }
  | .acas f => some { op := 0x91, f := f, walks := true, ready := atomReady false, out := atomOut false true }
  | .atoms f => some { op := 0x92, f := f, walks := true, ready := atomReady true, out := atomOut true false }
  | .red f => some { op := 0x93, f := f, walks := true, ready := atomReady false, out := atomOut false false }
  | .acq f => some { op := 0x94, f := f, out := fenceOut false true }
  | .rel f => some { op := 0x95, f := f, out := fenceOut true false }
  | .fence f => some { op := 0x96, f := f, out := fenceOut true true }
  | .waitc f => some { op := 0xA8, f := f, walks := true, ready := waitcReady, out := waitcOut }
  | .sigc f => some { op := 0xA9, f := f, walks := true, ready := sigcReady, out := sigcOut }
  | .ifen f => some { op := 0xE7, f := f, walks := true, ready := fun x s => s.relReady x.p.g x.p.w x.p.f, out := fun x s => s.codeFence (x.core s) }
  | _ => none

/-- Tiles, accumulators, extra values, register tags, regions and poison (R204, R344 to R354, R398 to R417, R492). -/
def tileFx : Instr → Option Fx
  | .xvset f => some { op := 0x46, f := f, ready := fun x s => s.ready x { b := false, c := false }, out := xvsetOut }
  | .cvtq f => some { op := 0x60, f := f, ready := quantReady, out := quantOut false }
  | .dq f => some { op := 0x61, f := f, ready := fun x s => s.tileReady x (x.f.sp.getLsbD 0) 0 x.f.a.toNat, out := dqOut }
  | .scq f => some { op := 0x62, f := f, ready := quantReady, out := quantOut true }
  | .sacc f => some { op := 0x63, f := f, ready := saccReady, out := saccOut }
  | .ttr f => some { op := 0x64, f := f, ready := fun x s => s.tileReady x (x.f.sp.getLsbD 0) (ttrKind x) x.f.a.toNat, out := ttrOut }
  | .ldt f => some { op := 0x88, f := f, walks := true, ready := tileLoadReady false, out := tileLoadOut false }
  | .stt f => some { op := 0x89, f := f, walks := true, ready := fun x s => tileStoreReady false x s && !tileQuarFull x s, out := tileStoreOut false }
  | .ldac f => some { op := 0x8A, f := f, walks := true, ready := tileLoadReady true, out := tileLoadOut true }
  | .stac f => some { op := 0x8B, f := f, walks := true, ready := fun x s => tileStoreReady true x s && !tileQuarFull x s, out := tileStoreOut true }
  | .fest f => some { op := 0xA6, f := f, out := festOut }
  | .rgno f => some { op := 0xE0, f := f, out := rgnoOut }
  | .cmt f => some { op := 0xE1, f := f, ready := fun x s => cmtReady x s && !cmtWaits x s
                     out := fun x s => cmtOut x (cmtView x s), jumps := fun x s => cmtJumps x (cmtView x s) }
  | .pset f => some { op := 0xE3, f := f, out := psetOut }
  | .cart f => some { op := 0xE4, f := f, ready := cartReady, out := cartOut }
  | .perf f => some { op := 0xE6, f := f, ready := fun x s => s.ready x { b := false, c := false }, out := perfOut }
  | _ => none

/-- An order whose descriptor is read from the scratchpad: the read may find an error (R235), and the order is taken from what it leaves. -/
def orderFx (op : Nat) (f : Fields) (ready : Ex → State → Bool) (seen : Ex → State → State) (order : Ex → State → Order) : Fx :=
  { op := op, f := f, ready := fun x s => ready x s && orderReady (order x (seen x s)) x (seen x s)
    out := fun x s => orderOut (order x (seen x s)) x (seen x s) }

/-- The same for a transport command (R474). -/
def xcmdFx (op : Nat) (k : XKind) (f : Fields) : Fx :=
  { op := op, f := f, ready := fun x s => xcmdReady k x (xSeen x s), out := fun x s => xcmdOut op k x (xSeen x s) }

/-- Instructions that hand work to a sequencer, an engine or an access processor (R360 to R370, R474 to R480). -/
def engineFx : Instr → Option Fx
  | .mseq f => some { op := 0xBC, f := f, ready := mseqReady, out := mseqOut }
  | .oprf f => some { op := 0xBD, f := f, out := oprfOut
                      ready := fun x s => (x.group s).seq.st != .running || !oprfBusy x s (oprfSet x s) }
  | .mstq f => some { op := 0xBE, f := f, out := mstqOut }
  | .copy f => some (orderFx 0xC0 f (fun x s => s.ready x { b := false, c := false })
      (fun x s => descSeen x (s.readCode x x.f.a 0 x.low) 256 s) copyOrder)
  | .copyU f => some (orderFx 0xC0 f copyUReady (fun _ s => s) copyUOrder)
  | .cchn f => some (orderFx 0xC1 f (fun x s => s.ready x { c := false }) (fun x s =>
      if (addrBad [s.readCode x x.f.a 0 x.low] 0).isSome then s
      else descSeen x (s.readCode x x.f.b 0 x.low) (if x.f.b6.toNat % 4 = 0 then 256 else 128) s) cchnOrder)
  | .apst f => some { op := 0xC2, f := f, ready := fun x s => s.ready x { b := false, c := false }, out := apstOut }
  | .apstGo f => some { op := 0xC2, f := f, out := apstGoOut
                        ready := fun x s => s.ready x { b := false, c := false } && s.coreRelease x true }
  | .apsp f => some { op := 0xC3, f := f, out := apspOut }
  | .qmap f => some { op := 0xC4, f := f, out := qmapOut }
  | .ecmd f => some (orderFx 0xC7 f (fun x s => s.ready x { b := false, c := false })
      (fun x s => descSeen x (s.readCode x x.f.a 0 x.low) 128 s) ecmdOrder)
  | .sbq f => some { op := 0xC8, f := f, ready := fun x s => s.ready x { b := false, c := false }
                     out := fun x s => s.onceWrite x [sbqVal x s] }
  | .xwr f => some (xcmdFx 0xD0 .wr f)
  | .xrd f => some (xcmdFx 0xD1 .rd f)
  | .xrdV f => some { op := 0xD1, f := f, ready := xrdVReady, out := xrdVOut }
  | .xsnd f => some (xcmdFx 0xD2 .snd f)
  | .xcng f => some { op := 0xD4, f := f, ready := xReady, out := xcngOut }
  | .xfen f => some { op := 0xD5, f := f, ready := xfenReady, out := xfenOut }
  | _ => none

end Sys2Proof.Claims

open Sys2Proof.Claims

/-- Once its sources are full or probed, each integer or logic instruction in a register completes, whatever its operands:
it leaves what `regOut` says, its lanes move on, and nothing else changes (R95, R103 to R106, R108 to R114). -/
def Obligations.IntegerInstructionsComplete : Prop := ∀ i a, integerAlu i = some a → a.fx.Ends i

/-- The same for each floating-point instruction and conversion (R146 to R155, R157). -/
def Obligations.FloatInstructionsComplete : Prop := ∀ i a, floatAlu i = some a → a.fx.Ends i

/-- The same for the instructions that write predicates or choose by one (R107, R114 to R117, R195, R205, R414). -/
def Obligations.PredicateInstructionsComplete : Prop := ∀ i e, predicateFx i = some e → e.Ends i

/-- The same for moves and instructions across lanes (R118 to R121, R190 to R197). -/
def Obligations.MoveInstructionsComplete : Prop := ∀ i e, moveFx i = some e → e.Ends i

/-- The same for control flow (R98 to R101, R188, R189). -/
def Obligations.ControlInstructionsComplete : Prop := ∀ i e, controlFx i = some e → e.Ends i

/-- The same for memory instructions, once what holds them back has gone (R122 to R126, R256 to R276, R373, R374). -/
def Obligations.MemoryInstructionsComplete : Prop := ∀ i e, memoryFx i = some e → e.Ends i

/-- The same for tiles, register tags, regions and poison (R204, R344 to R354, R398 to R417, R492). -/
def Obligations.TileAndRegionInstructionsComplete : Prop := ∀ i e, tileFx i = some e → e.Ends i

/-- The same for the instructions that hand work over (R360 to R370, R474 to R480). -/
def Obligations.EngineInstructionsComplete : Prop := ∀ i e, engineFx i = some e → e.Ends i

namespace Sys2Proof.Claims

/-- The words of an instruction's result in a lane: FirstPoison of its sources, or its function of them (R32). -/
def Alu.result (a : Alu) (s : State) (x : Ex) (l : Nat) : List RegWord :=
  wordsOfVals (resultOf (a.fn s x) (a.width x) (a.srcs x s l)).1

/-- The flags an instruction sets in a lane. -/
def Alu.flags (a : Alu) (s : State) (x : Ex) (l : Nat) : Word := (resultOf (a.fn s x) (a.width x) (a.srcs x s l)).2

/-- No source of a lane has been newly poisoned by reading it, as an empty word that is probed would be (R24). -/
def Alu.settled (a : Alu) (s : State) (x : Ex) (l : Nat) : Prop := ∀ v ∈ (a.srcs x s l).flatten, ∃ w, v = .ok w

/-- Register word `h` of destination code `d` in lane `l` of a vector register (R11, R167). -/
def vecPlace (s : State) (x : Ex) (l h : Nat) : Nat := vecOff (x.fibre s) (x.f.d.toNat + h) + l

/-- The registers written: one, or two where the result has two words. -/
def wrote (ws : List RegWord) (h : Nat) : Prop := h = 0 ∨ (h = 1 ∧ 1 < ws.length)

/-- Everything that a register-to-register instruction leaves alone, whatever its destination: memory, poison state, owners,
cores, messages and scratchpads. -/
def MemorySame (s t : State) : Prop :=
  t.mem = s.mem ∧ t.bad = s.bad ∧ t.owners = s.owners ∧ t.cores = s.cores ∧ t.msgs = s.msgs ∧ ∀ g i, t.spAt g i = s.spAt g i

/-- Predicates of every lane are unchanged. -/
def PredsSame (s t : State) : Prop := ∀ g w f l, (t.laneAt g w f l).preds = (s.laneAt g w f l).preds

/-- FSTAT of the path's fibre receives flags, and no other fibre's FSTAT changes. -/
def FlagsSet (s t : State) (p : Path) (m : Word) : Prop :=
  (t.fibreAt p.g p.w p.f).fstat = (s.fibreAt p.g p.w p.f).fstat ||| m ∧
  ∀ g w f, (g, w, f) ≠ (p.g, p.w, p.f) → (t.fibreAt g w f).fstat = (s.fibreAt g w f).fstat

def UregsSame (s t : State) : Prop := ∀ g w f n, t.uregAt g w f n = s.uregAt g w f n
def RegsSame (s t : State) : Prop := ∀ g w o, t.regAt g w o = s.regAt g w o
def FstatSame (s t : State) : Prop := ∀ g w f, (t.fibreAt g w f).fstat = (s.fibreAt g w f).fstat

/-- An instruction that tests its sources and writes a predicate (R114, R117, R156, R158). -/
structure TestOp where
  op : Nat
  f : Fields
  srcs : Ex → State → Nat → List (List Val)
  fn : Ex → List (List RegWord) → Bool × Word

def testOp : Instr → Option TestOp
  | .icmp f => some { op := 0x30, f := f, srcs := srcs2, fn := icmpFn }
  | .fcmp f => some { op := 0x31, f := f, srcs := srcs2, fn := fcmpFn }
  | .pmov f => some { op := 0x34, f := f, srcs := srcs1, fn := pmovFn }
  | .fcls f => some { op := 0x37, f := f, srcs := srcs2, fn := fclsFn }
  | _ => none

/-- The flags that the test sets in a lane: those of its function where no source is poisoned (R32). -/
def TestOp.flags (a : TestOp) (s : State) (x : Ex) (l : Nat) : Word :=
  if (firstBad (a.srcs x s l).flatten).isSome then 0 else (a.fn x ((a.srcs x s l).map wordsOfVals)).2

/-- What the predicate receives in a lane: the poison bit with the FirstPoison word, or the value of the test (R13, R32). -/
def TestOp.result (a : TestOp) (s : State) (x : Ex) (l : Nat) : Pred :=
  match firstBad (a.srcs x s l).flatten with
  | some (.ok w) => { val := false, bad := some w.val }
  | some (.new _ _ _) => {}
  | none => { val := (a.fn x ((a.srcs x s l).map wordsOfVals)).1 }

end Sys2Proof.Claims

/-- Reading guards changes nothing but lanes' states, where no fence of the fibre is outstanding and the array writes no register of its
warp: a lane whose guard predicate is poisoned is stranded on the predicate's word and takes no part; every other lane of the path stays
active (R13, R392). -/
def Obligations.PoisonedGuardStrands : Prop :=
  ∀ s p q op f, Issuing s p q op f →
    ((s.fibreAt p.g p.w p.f).fences = [] → (∀ o ∈ (s.groupAt p.g).seq.ops, o.w = p.w → o.outs = []) → Agree (s.start p f) s) ∧
    ∀ l ∈ lanesOf p.mask,
      (∀ w, (s.predAt p l f.pg.toNat).bad = some w →
        ((s.start p f).laneAt p.g p.w p.f l).st = .stranded w ∧ l ∉ s.partsOf p f) ∧
      ((s.predAt p l f.pg.toNat).bad = none →
        ((s.start p f).laneAt p.g p.w p.f l).st = .active ∧
        (l ∈ s.partsOf p f ↔ (s.predAt p l f.pg.toNat).val ≠ f.pn))

/-- What an execution finds when it starts differs from the state before it in no memory, scratchpad, uniform register, predicate, PC or
FSTAT; in a register only where the array is writing (R325), which a full word then shows one value of; in an L1 only by Valid words that
an acquire drops; in the fibre's fences only by those whose conditions hold (R269); and the acquires among these have dropped every Valid
word of the core's L1. That fences complete when their fibre next issues is the model's inference (log 119), what a word in flight shows its
choice (log 76), and that an acquire waits for releases whose register writes it follows is an inference too (log 144). -/
def Obligations.StartSettles : Prop :=
  ∀ s p q op f, Issuing s p q op f →
    let t := s.start p f
    t.mem = s.mem ∧ t.bad = s.bad ∧ t.owners = s.owners ∧ (∀ g i, t.spAt g i = s.spAt g i) ∧ UregsSame s t ∧ PredsSame s t ∧ FstatSame s t ∧
    (∀ l, (t.laneAt p.g p.w p.f l).pc = (s.laneAt p.g p.w p.f l).pc) ∧
    (∀ g w o, t.regAt g w o ≠ s.regAt g w o → g = p.g ∧ w = p.w ∧ (s.regAt g w o).full = true ∧ (t.regAt g w o).full = true ∧
      ∃ m ∈ (s.groupAt p.g).seq.ops, m.w = p.w ∧ ∃ k, k < m.outs.length ∧ (m.accs.getD k 0) ≤ o ∧ o < m.accs.getD k 0 + 256) ∧
    (∀ c wa, t.l1At c wa ≠ s.l1At c wa → ∃ e, s.l1At c wa = some e ∧ e.st = .valid) ∧
    (∀ e ∈ (s.fibreAt p.g p.w p.f).fences, e ∉ (t.fibreAt p.g p.w p.f).fences → s.fenceDone p.g p.w p.f e = true ∧
      (e.acq = true → ∀ wa x, t.l1At (s.groupAt p.g).core wa = some x → x.st ≠ .valid)) ∧
    (∀ e ∈ (t.fibreAt p.g p.w p.f).fences, e ∈ (s.fibreAt p.g p.w p.f).fences ∧ s.fenceDone p.g p.w p.f e = false)

/-- An integer or floating-point instruction with a vector destination writes, in each participant, its function of the
sources, or the FirstPoison word of its sources, with the full tag set; nothing else of any register, predicate, memory or
FSTAT changes but the flags it sets (R30, R32, R95, R134). -/
def Obligations.VectorResultAndFrame : Prop :=
  ∀ i a, (integerAlu i = some a ∨ floatAlu i = some a) → ∀ s p q, Issuing s p q a.op a.f →
    let x := s.exOf p a.op a.f
    let s' := s.start p a.f
    s'.ready x {} = true → a.f.d.toNat < 0xC0 → (∀ l ∈ x.parts, a.settled s' x l) →
    ∃ t, exec i s = .next t ∧
      (∀ l ∈ x.parts, ∀ h, wrote (a.result s' x l) h →
        t.regAt p.g p.w (vecPlace s' x l h) = { (a.result s' x l).getD h {} with full := true }) ∧
      (∀ g w o, (∀ l ∈ x.parts, ∀ h, wrote (a.result s' x l) h → (g, w, o) ≠ (p.g, p.w, vecPlace s' x l h)) →
        t.regAt g w o = s'.regAt g w o) ∧
      UregsSame s t ∧ PredsSame s t ∧ MemorySame s' t ∧
      FlagsSet s t p (x.parts.foldl (fun m l => m ||| a.flags s' x l) 0)

/-- The same instruction with a uniform destination: a whole write takes the lowest lane's result, or that of the lowest lane
with a poisoned one; a partial write gives Poison(MIXED) with its record; no other register, predicate or memory changes
(R12, R25, R175). -/
def Obligations.UniformResultAndFrame : Prop :=
  ∀ i a, (integerAlu i = some a ∨ floatAlu i = some a) → ∀ s p q, Issuing s p q a.op a.f →
    let x := s.exOf p a.op a.f
    let s' := s.start p a.f
    let n := a.f.d.toNat - 0xC0
    let ridx := ridxOf (s.fibreAt p.g p.w p.f).fstat
    let mixed : RegWord := { badWord (poisonVal ridx cMIXED p.pc) with full := true }
    s'.ready x {} = true → 0xC0 ≤ a.f.d.toNat → a.f.d.toNat < 0xF0 → (s.fibreAt p.g p.w p.f).ring.length = 16 → (∀ l ∈ x.parts, a.settled s' x l) →
    ∃ t, exec i s = .next t ∧
      (∀ h, wrote (a.result s' x (x.parts.headD 0)) h →
        (x.whole s' = true → (∀ l ∈ x.parts, (a.result s' x l).all (fun w => !w.poison) = true) →
          t.uregAt p.g p.w p.f (n + h) = { (a.result s' x (x.parts.headD 0)).getD h {} with full := true }) ∧
        (x.whole s' = true → ∀ k, x.parts.find? (fun l => (a.result s' x l).any (fun w => w.poison)) = some k →
          t.uregAt p.g p.w p.f n = { (a.result s' x k).getD 0 {} with full := true }) ∧
        (x.whole s' = false → t.uregAt p.g p.w p.f (n + h) = mixed)) ∧
      (x.whole s' = false → ridx < 15 →
        ((t.fibreAt p.g p.w p.f).ring.getD ridx {}).cause = 9) ∧
      (∀ g w f k, (g, w, f) ≠ (p.g, p.w, p.f) ∨ (k ≠ n ∧ k ≠ n + 1) → t.uregAt g w f k = s.uregAt g w f k) ∧
      RegsSame s' t ∧ PredsSame s t ∧ MemorySame s' t

/-- An instruction that writes a predicate writes it in each participant, with the poison bit and the FirstPoison word where
a source is poisoned; a write of p7 is discarded; FSTAT receives the flags of the tests; no register and no memory changes (R13, R32,
R114, R117). -/
def Obligations.PredicateResultAndFrame : Prop :=
  ∀ i a, testOp i = some a → ∀ s p q, Issuing s p q a.op a.f →
    let x := s.exOf p a.op a.f
    let s' := s.start p a.f
    s'.ready x {} = true → (∀ l ∈ x.parts, ∀ v ∈ (a.srcs x s' l).flatten, ∃ w, v = .ok w) →
    ∃ t, exec i s = .next t ∧
      (∀ l ∈ x.parts, (t.laneAt p.g p.w p.f l).preds =
        if a.f.d.toNat = 7 then (s.laneAt p.g p.w p.f l).preds
        else (s.laneAt p.g p.w p.f l).preds.set a.f.d.toNat (a.result s' x l)) ∧
      (∀ g w f l, ((g, w, f) ≠ (p.g, p.w, p.f) ∨ l ∉ x.parts) → (t.laneAt g w f l).preds = (s.laneAt g w f l).preds) ∧
      FlagsSet s t p (x.parts.foldl (fun m l => m ||| a.flags s' x l) 0) ∧
      RegsSame s' t ∧ UregsSame s t ∧ MemorySame s' t

namespace Sys2Proof.Claims

/-- The instruction leaves the state that its effect gives, with the execution ended: its lanes moved past it, the cycle's
barrier operations taken and the completion of fibre barriers tested (R28, R201, R203). -/
def Fx.Retires (e : Fx) (i : Instr) : Prop :=
  ∀ s p q, Issuing s p q e.op e.f → e.ready (s.exOf p e.op e.f) (s.start p e.f) = true →
    exec i s = .next (((e.out (s.exOf p e.op e.f) (s.start p e.f)).noted (s.exOf p e.op e.f)).retire (s.settle p.g p.w p.f) p q
      (s.exOf p e.op e.f).next (e.jumps (s.exOf p e.op e.f) (s.start p e.f)))

/-- What an XPST leaves whose descriptor passes its checks, where its posting is possible (R477). -/
def postFx (k : XKind) (post : Ex → State → Word → List Byte → Option (Bool × State)) (f : Fields) : Fx :=
  let go := fun (x : Ex) (s : State) => let t := xSeen x s
    match xDesc x t with
    | .inl d => if (t.xCheck x.p.g (xDescAt x t).toNat k d).isNone then post x (t.irrev x) (xDescAt x t) d else none
    | .inr _ => none
  { op := 0xD3, f := f, ready := fun x s => xReady x s && (go x s).isSome
    out := fun x s => match go x s with
      | some r => r.2.onceWrite x [.ok (mkWord (if r.1 then 1 else 0))]
      | none => s }

/-- Instructions whose effect reaches past their own lanes when the cycle ends: exits, barriers, requests to Denuf and
postings (R102, R200 to R203, R477, R490). -/
def syncFx : Instr → Option Fx
  | .exit f => some { op := 0x06, f := f, out := exitOut }
  | .bari f => some { op := 0xA0, f := f, ready := fun x s => s.ready x { b := false, c := false }, out := bariOut }
  | .bara f => some { op := 0xA1, f := f, ready := fun x s => s.coreRelease x (x.f.sub.getLsbD 0), out := arriveOut false }
  | .barw f => some { op := 0xA2, f := f, ready := barwReady, out := barwOut }
  | .bard f => some { op := 0xA3, f := f, ready := fun x s => s.coreRelease x (x.f.sub.getLsbD 0), out := arriveOut true }
  | .bart f => some { op := 0xA4, f := f, ready := fun x s => s.ready x { b := false, c := false }, out := bartOut }
  | .fbar f => some { op := 0xA5, f := f, ready := fun x s => s.coreRelease x false, out := fbarOut }
  | .sysc f => some { op := 0xE5, f := f
                      ready := fun x s => s.ready x { b := false, c := false } && ((s.syscOf x).bind (fun r => r.answer)).isSome
                      out := fun x s => match s.syscOf x with
                        | some r => syscOut r (r.answer.getD 0) x s
                        | none => s }
  | .xpstBuf f => some (postFx .buf postBuf f)
  | .xpstNtf f => some (postFx .ntf postNtf f)
  | .xpstUnb f => some (postFx .unb postUnb f)
  | _ => none

/-- A stream instruction: when its sequencer halts instead, when it can go on, what it leaves and where it goes. -/
structure Sx where
  words : Nat
  halt : Nat → State → Option Nat := fun _ _ => none
  ready : Nat → State → Bool := fun _ _ => true
  out : Nat → State → State
  jump : Nat → State → Option DWord := fun _ _ => none

/-- The sequencer whose turn it is performs the instruction and stands at the next, or at its jump. -/
def Sx.Ends (e : Sx) (i : Instr) : Prop :=
  ∀ s g, s.turn = .stream g → e.halt g s = none → e.ready g s = true →
    exec i s = .next { ((e.out g s).modSeq g (fun q =>
      { q with spc := (e.jump g s).getD ((s.groupAt g).seq.spc + BitVec.ofNat 64 (4 * e.words)) })).wake with turn := .choose }

/-- The sequencer halts with a cause, and the group is failed; nothing of the instruction is performed (R93, R320). -/
def Sx.Halts (e : Sx) (i : Instr) : Prop :=
  ∀ s g c, s.turn = .stream g → e.halt g s = some c →
    exec i s = .next ({ s with turn := .choose }.haltSeq g c) ∧
    ((s.group? g).isSome = true → ∃ t, exec i s = .next t ∧ (t.groupAt g).seq.st = .halted ∧ (t.groupAt g).failed = true ∧
      (t.groupAt g).seq.stat.toNat / 256 % 256 = c % 256 ∧ t.mem = s.mem)

/-- The stream instructions (R320 to R324, R355 to R359). -/
def streamSx : Instr → Option Sx
  | .mma f => some { words := 2, halt := fun g s => matrixHalt false (s.groupAt g).seq f
                     ready := fun g s => !matrixWait (s.groupAt g).seq f, out := fun g s => s.issueMatrix g (s.matrixOp false g f) }
  | .mms f => some { words := 3, halt := fun g s => matrixHalt true (s.groupAt g).seq f
                     ready := fun g s => !matrixWait (s.groupAt g).seq f, out := fun g s => s.issueMatrix g (s.matrixOp true g f) }
  | .bld f => some { words := 3, halt := fun g s => s.bldHalt g f, ready := fun g s => !bldWait (s.groupAt g).seq f
                     out := fun g s => (s.descFound g f.w2 32).bldOut g f }
  | .acz f => some { words := 1, halt := fun g s => aczHalt (s.groupAt g).seq f
                     ready := fun g s => decide ((s.groupAt g).seq.ops.length < 2)
                     out := fun g s => s.issueOp g (aczOp (s.groupAt g).seq f) }
  | .sqw f => some { words := 1, out := fun _ s => s, ready := fun g s => s.sqwGo g f
                     halt := fun g s => if (s.groupAt g).bars.length ≤ sBar f then some cBOUNDS
                       else if !s.sqwGo g f && s.sqwLost g then some cQUEUE else none }
  | .sqa f => some { words := 1, ready := fun g s => !(s.groupAt g).seq.working, out := fun g s => s.sqaOut g f }
  | .sqlp f => some { words := 3, out := fun g s => s.sqlpOut g f, jump := fun g s => sqlpJump (s.groupAt g).seq f }
  | .sqe _ => some { words := 1, out := fun g s => (s.modSeq g (fun q => { q with st := .ended })).seqStop g }
  | _ => none

/-- What an access processor executes with (R90, R314, R371). -/
def apEx (s : State) (g n op : Nat) (f : Fields) : Ex :=
  { p := apPath (s.apAt g n) g, op := op, f := f, parts := [0], ap := some (g, n)
    k := (match accessSpec op with
      | some k => some k
      | none => opSpec op f).getD { forms := [] } }

/-- The access processor whose turn it is, which waits for no walk (R178), performs the instruction and stands at the next, or at its
jump. -/
def ApEnds (i : Instr) (op : Nat) (f : Fields) (ready : Nat → Nat → Ex → State → Bool) (out : Nat → Nat → Ex → State → State)
    (jumps : Ex → State → List (Nat × DWord)) : Prop :=
  ∀ s g n, s.turn = .access g n → ready g n (apEx s g n op f) s = true →
    s.walksOut g (s.apAt g n).ownerW (4 + n) (s.apAt g n).spc = false →
    exec i s = .next { (((out g n (apEx s g n op f) s).walksUsed g (s.apAt g n).ownerW (4 + n) (s.apAt g n).spc).modAp g n (fun a => if a.st == .running then
      { a with spc := ((jumps (apEx s g n op f) s).head?.map (·.2)).getD (apEx s g n op f).next } else a)).wake with
      turn := .choose }

end Sys2Proof.Claims

/-- Once it can issue, each instruction of this kind leaves what its effect gives, with the execution ended (R102, R200 to
R203, R477, R490). -/
def Obligations.SynchronisationInstructionsComplete : Prop := ∀ i e, syncFx i = some e → e.Retires i

/-- Each stream instruction that does not halt its sequencer, and need not wait, is performed (R320 to R324, R355 to R359). -/
def Obligations.StreamInstructionsComplete : Prop := ∀ i e, streamSx i = some e → e.Ends i

/-- A stream instruction with a bad operand halts the sequencer with its cause in SQSTAT, fails the group and changes no
memory (R93, R320). -/
def Obligations.StreamHaltFailsGroup : Prop := ∀ i e, streamSx i = some e → e.Halts i

/-- An access processor performs what R90 gives it: LDQ where its queue has room, which then holds one entry more, AEND, which ends its
program, NOP, each integer instruction of 0x10 to 0x1D, and IADDC, whose sources it can read; BRU and LOOP where what they test is
unpoisoned (R90, R315, R371). -/
def Obligations.AccessInstructionsComplete : Prop :=
  (∀ f, ApEnds (.ldq f) 0xC5 f ldqReady ldqOut (fun _ _ => [])) ∧
  (∀ s g n f, s.turn = .access g n → let x := apEx s g n 0xC5 f
    ldqReady g n x s = true → s.walksOut g (s.apAt g n).ownerW (4 + n) (s.apAt g n).spc = false → (s.group? g).isSome = true →
    ∃ t, exec (.ldq f) s = .next t ∧ (sgetD (t.groupAt g).queues (ldqQueue x n) {}).entries.length =
      (sgetD (s.groupAt g).queues (ldqQueue x n) {}).entries.length + 1) ∧
  (∀ f, ApEnds (.aend f) 0xC6 f (fun _ _ _ _ => true) (fun g n _ s => s.modAp g n (fun a => { a with st := .ended })) (fun _ _ => [])) ∧
  (∀ s g n f, s.turn = .access g n → s.walksOut g (s.apAt g n).ownerW (4 + n) (s.apAt g n).spc = false → (s.group? g).isSome = true →
    (s.groupAt g).aps.any (fun a => a.1 == n) = true → ∃ t, exec (.aend f) s = .next t ∧ (t.apAt g n).st = .ended) ∧
  (∀ f, ApEnds (.nop f) 0x00 f (fun _ _ _ _ => true) (fun _ _ _ s => s) (fun _ _ => [])) ∧
  (∀ i a, integerAlu i = some a → a.op < 0x1E → ApEnds i a.op a.f (fun _ _ x s => s.ready x {})
    (fun _ _ x s => regOut a.srcs (a.fn s) (a.width x) x s) (fun _ _ => [])) ∧
  (∀ f, ApEnds (.iaddc f) 0x1E f (fun _ _ x s => s.ready x { c := false }) (fun _ _ x s => iaddcOut x s) (fun _ _ => [])) ∧
  (∀ f, ApEnds (.bru f) 0x02 f (fun _ _ x s => bruReady x s && (bruVal x s).isLeft) (fun _ _ _ s => s)
    (fun x s => bruJumps x (valOr (bruVal x s)))) ∧
  (∀ f, ApEnds (.loop f) 0x09 f
    (fun _ _ x s => s.posReady x x.k.d x.f.d false && (tested (s.readCode x x.f.d 0 x.low)).isLeft)
    (fun _ _ x s => loopOut (valOr (tested (s.readCode x x.f.d 0 x.low))) x s)
    (fun x s => loopJumps x (valOr (tested (s.readCode x x.f.d 0 x.low)))))

/-- A word before an instruction is read for its path's lanes: each lane of the path stands before the first execution of the
instruction after it, which issues next; nothing else changes (R28, R85). -/
def Obligations.PrefixWordIsRead : Prop :=
  ∀ s p q w, s.turn = .issue p q → (s.group? p.g).isSome = true → p.w < (s.groupAt p.g).warps.length →
    p.f < (s.warpAt p.g p.w).fibres.length →
    ∃ t, exec (.pfx w) s = .next t ∧ Agree t s ∧
      t.turn = (match q with
        | some r => .issue r none
        | none => .choose) ∧
      ∀ l, (t.laneAt p.g p.w p.f l).pc = (s.laneAt p.g p.w p.f l).pc ∧ (t.laneAt p.g p.w p.f l).st = (s.laneAt p.g p.w p.f l).st ∧
        (t.laneAt p.g p.w p.f l).rep = (if l < (s.fibreAt p.g p.w p.f).lanes.length ∧ p.mask.getLsbD l = true
          then some (w, 0) else (s.laneAt p.g p.w p.f l).rep)

namespace Sys2Proof.Claims

/-- What an event leaves, where it can happen. -/
abbrev Ev := State → Option State

/-- The event happens wherever its table says that it can, and leaves what the table says. -/
def Ev.Happens (e : Ev) (i : Instr) : Prop := ∀ s t, e s = some t → exec i s = .next t

/-- The state, where a condition on it holds. -/
def given (b : Bool) (t : State) : Option State := if b then some t else none

/-- Steps of the slots, of accesses that come back and of barriers (R123, R178, R201, R263, R280). -/
def issueEvent : Instr → Option Ev
  | .loadDataReturn id lanes => some fun s => (s.prods.find? (fun p => p.id == id)).bind fun p =>
      given (p.kind != .copy) (s.deliver p lanes).wake
  | .parkedAccessPerform n => some fun s => (s.parkedAll.find? (fun p => p.id == n)).bind fun p =>
      let t := s.spLeave p
      given (s.spCan p) (if (t.spAt p.g (p.off / 4)).full == (s.spAt p.g (p.off / 4)).full then t.wake
        else (t.spChanged p.g (p.off / 4)).wake)
  | .slotSwitch g w => some fun s => match (s.warpAt g w).cur with
      | none => ((List.range (s.warpAt g w).fibres.length).find? (s.maybeReady g w)).map fun k => s.setCur g w (some k)
      | some f => if s.maybeReady g w f then none
        else if (s.fibreAt g w f).gone then some (s.setCur g w (s.nextReady g w f))
        else if waitsSw (s.fibreAt g w f) then (s.nextReady g w f).map fun k => s.setCur g w (some k)
        else none
  | .forcedSwitch g w => some fun s => (s.warpAt g w).cur.bind fun f => (s.nextReady g w f).bind fun k =>
      given (!s.maybeReady g w f) ((s.setCur g w (some k)).perfCount (s.groupAt g).core 0x00B)
  | .siblingHandover g w => some fun s => (s.warpAt g w).cur.bind fun f =>
      (s.longest g w f).map fun k => s.setCur g w (some k)
  | .barrierRepeatCompletion g n => some fun s =>
      given (decide ((s.barAt g n).exp ≠ 0) && decide ((s.barAt g n).exp ≤ (s.barAt g n).cnt)) (s.flushBar g n []).wake
  | .ucwAcknowledge n => some fun s => given (s.pend.any (fun p => p.id == n && p.uc && p.done))
      ({ s with pend := s.pend.filter (fun p => p.id != n) } : State).wake
  | _ => none

/-- A page comes to a waiting agent, or the agent stops with NONRES (R28, R93, R320). -/
def pageEvent (who : Who) (ok : Bool) (dpa : DWord) (data : List (Nat × Byte)) : Ev := fun s =>
  (s.nonresOf who).bind fun va =>
    let t := s.clearNonres who
    match (if ok then t.migrateIn (s.groupAt (groupOfWho who)).ctx va.toNat dpa.toNat data else none), who with
    | some u, _ => some u.wake
    | none, .fibre g w f => ((s.fibreAt g w f).nonres).map fun n => t.freezePath (fetchPath g w f n.2.1 n.2.2) cNONRES
    | none, .seq g => some (t.haltSeq g cNONRES)
    | none, .ap g n => some (t.stopAp g n)

/-- Translation and the placement of pages (R28, R238, R239, R242 to R244, R255, R272, R273). -/
def placeEvent : Instr → Option Ev
  | .translationWalk core ctx va => some fun s =>
      let on := fun (r : WalkReq) => s.hubOf r.core == s.hubOf core && r.ctx == ctx && r.page == va.toNat / 65536 && !r.done
      let t := (s.walkReads ctx va.toNat).walkEnds core ctx va.toNat
      given (decide (va.toNat < 2 ^ 52)) (match s.walk ctx va.toNat with
        | .leaf l => if l.nr then t else
            ((core :: (s.walking.filter on).map (fun r => r.core)).eraseDups).foldl (fun t c => t.tlbFill c ctx va.toNat l) t
        | .fail _ _ => t)
  | .tlbInvalidation ctx va len => some fun s =>
      given (s.invalReady ctx va.toNat len.toNat) (s.tlbDrop ctx va.toNat len.toNat).wake
  | .pageSwap k g what => some fun s => match what with
      | .member m => given (decide (k < 12) && decide (g < 98304) && decide (m < 3) && !s.pinned.contains (groupKey k g)
          && sgetD s.atlas (groupKey k g) 0 != 3 && decide (s.heatOf k g (sgetD s.atlas (groupKey k g) 0) < s.heatOf k g m))
          { s with atlas := ssetD s.atlas (groupKey k g) m 0 }
      | .pin on => given (decide (k < 12) && decide (g < 98304))
          { s with pinned := if on then groupKey k g :: s.pinned else s.pinned.erase (groupKey k g) }
      | .rewrite h => given (sgetD s.atlas (groupKey k g) 0 == 3 && decide (h < 3)) { s with atlas := ssetD s.atlas (groupKey k g) h 0 }
  | .pageMigration ctx va dpa toHost data => some fun s =>
      if toHost then
        (match s.leafPlace ctx va.toNat, s.walk ctx va.toNat with
        | some (place, lv), .leaf l =>
          let n := levelPage lv
          let v := va.toNat / n * n
          let t := s.setEntry ctx place (natOfBytes (s.coherentBytes place 8).1 + 16)
          given (!l.nr && s.invalReady ctx v n)
            (({ t with pinned := (groupsOf l.dpa n).foldl (fun p k => p.erase k) t.pinned } : State).tlbDrop ctx v n).wake
        | _, _ => none)
      else s.migrateIn ctx va.toNat dpa.toNat data
  | .fetchNonresMigrate who ok dpa data => some (pageEvent who ok dpa data)
  | .pftComplete n => some fun s => (s.pfts.find? (fun p => p.id == n)).map fun p =>
      let t := p.frames.foldl (fun s a =>
        let u := s.swapIn (dpaSlice a.1) (congruence a.1) (memberNo a.1)
        if p.msc && !a.2 then u.mscFill a.1 p.ctx else u) s
      (({ t with pfts := t.pfts.filter (fun q => q.id != n) } : State).pftArrive p).wake
  | .pftCancel n => some fun s => (s.pfts.find? (fun p => p.id == n)).bind fun p =>
      given (p.bar.isSome && (s.groupAt p.g).pre != .none)
        (({ s with pfts := s.pfts.filter (fun q => q.id != n) } : State).pftArrive p).wake
  | _ => none

/-- A message of a kind arrives where nothing earlier stands on its route (R443), and does its work. -/
def msgEvent (n : Nat) (is : MsgKind → Bool) (act : Msg → State → State) : Ev := fun s =>
  (s.takeMsg n).bind fun (m, t) => given (is m.kind) (act m t).wake

/-- What losing a flit makes of a message (R455): data carries the loss on; anything else is lost with the compute die whose link fails, and
is resent where a link between hub dies fails. -/
def flitLost (n boundary : Nat) (k : MsgKind) (s : State) : State :=
  let bad := s.modMsg n (fun m => { m with words := m.words.map (fun e => (e.1, { e.2 with bad := true })) })
  match k with
  | .data => s.modMsg n (fun m => { m with poisonLink := some boundary })
  | .ucw _ => s.modMsg n (fun m => { m with poisonLink := some boundary })
  | .wb => bad
  | .claim => bad
  | .noown _ => bad
  | _ => ((s.linkSlice boundary).map s.loseDie).getD s

/-- The ownership registry (R247, R250 to R252, R448 to R455). -/
def registryEvent : Instr → Option Ev
  | .reg n => some (msgEvent n isReg fun m s => s.homeArrive m)
  | .rd n => some (msgEvent n (fun k => k == .rd) fun m s => s.homeArrive m)
  | .ucw n => some (msgEvent n isUcw fun m s => s.homeArrive m)
  | .ack n => some (msgEvent n isAckKind fun m s => ((lineWas m.line m.mask).foldl (fun s wa => s.ackWordIn m wa) s).runPend m.core)
  | .fwd n => some (msgEvent n isFwd fun m s => s.fwdArrive m)
  | .rev n => some (msgEvent n isRev fun m s => s.revArrive m)
  | .binv n => some (msgEvent n (fun k => k == .binv) fun m s => s.giveUp m)
  | .reva n => some (msgEvent n (fun k => k == .reva) fun m s =>
      s.send .claim m.core m.line (wordBits ((s.claimable m.core [m.line]).map (fun e => e.1))) [] m.ctx m.rd)
  | .revs n => some (msgEvent n isRevs fun m s => s.revsArrive m)
  | .data n => some (msgEvent n (fun k => k == .data) fun m s =>
      m.words.foldl (fun s e => s.dataWord m e.1 e.2) (if m.alloc then (s.ownLine m.core m.ctx m.line).makeRoom m.core m.line else s))
  | .wb n => some (msgEvent n (fun k => k == .wb) fun m s =>
      ((m.words.foldl (fun s e => s.wbIn m.core e.1 e.2) s).homeAccess m.line m.ctx false true).answered m)
  | .noown n => some (msgEvent n isNoown fun m s => s.noownArrive m)
  | .claim n => some (msgEvent n (fun k => k == .claim) fun m s =>
      (m.words.foldl (fun s e => (s.homeAccess (e.1 / 32) m.ctx false true).setHome e.1 e.2) s).answered m)
  | .registryError line tagLost => some fun s =>
      let t := s.rasLog 3 3 (lineSlice line % 6) (128 * line) none
      let set := t.setLines line
      given ((s.registered (lineHub line)).contains line && !s.lineHeld line)
        (if tagLost then (t.startHold set .claimSet t.agents [] (fun i c s => s.send (.revs set) c line 0 [] 0 i)).wake
         else (t.startHold [line] .claimLine t.agents [] (fun i c s => s.send .reva c line 0xFFFFFFFF [] 0 i)).wake)
  | .claimTimeout core => some fun s =>
      (s.holds.find? (fun h => h.waitCores.contains core && (h.why == .claimLine || h.why == .claimSet))).map fun h =>
        let head := lineWas (h.lines.headD 0) 0xFFFFFFFF
        if h.why == .claimLine || (s.ownedBy core head).isEmpty then s.loseDie (s.sliceOf core)
        else ((s.dropOwners (head.filter (fun wa =>
          match s.ownerOf wa with
          | some c => s.sliceOf c == s.sliceOf core
          | none => false))).loseDie (s.sliceOf core)).tearAll
  | .mscTagParity line ctxField dataOk => some fun s => (sget s.msc line).map fun e =>
      let t := s.rasLog 5 2 (lineSlice line % 6) (128 * line) none
      let t := { t with msc := sdel t.msc line }
      if ctxField then (if dataOk then t else t.poisonLine line).tearAll
      else if e.2 then t.poisonLine line else t
  | .flitResendLimit n boundary _ => some fun s => match s.msgs.find? (fun m => m.id == n) with
      | some m => given ((s.routeOf m).contains boundary)
          (flitLost n boundary m.kind (s.rasLog 4 4 boundary (128 * m.line) (some boundary)))
      | none =>
        let t := s.rasLog 4 4 boundary 0 (some boundary)
        if (boundaryJoins boundary).isNone then none
        else if s.cmds.any (fun c => c.id == n && c.started) then some (t.modCmd n (fun c => { c with cut := true }))
        else given (s.placing.any (fun p => p.id == n))
          { t with placing := t.placing.map (fun p => if p.id == n then { p with cut := true } else p) }
  | _ => none

/-- The launch engine (R215 to R224, R226 to R230, R432). -/
def launchEvent : Instr → Option Ev
  | .qnotify v => some fun s => some (if v.toNat < 4096 then s.notifyQueue v.toNat
      else s.modEngine (fun e => { e with lestat := e.lestat ||| lsQERR }))
  | .slotServe => some fun s => given s.mayAccept ((List.range 64).foldl (fun s k => s.consider k) s).settleAges.serve.pressure
  | .recordAccept k => some fun s => if s.engine.chosen = some k then
      let s := s.modEngine (fun e => { e with chosen := none })
      (if s.mayAccept then s.headOf k else none).bind fun d => (sget s.engine.slots k).map fun x =>
        (if k = 63 then s.enterKernel x (s.effective k d) s.engine.lsnnext
         else (s.takeRecord k d x).enterRecord k d x (s.effective k d) s.engine.lsnnext).settleAges
    else none
  | .ageperExpiry => some fun s => if s.engine.ageper.toNat % 65536 = 0 then none else
      let t := s.settleAges
      let one := fun (u : State) (k : Nat) => (sget u.engine.slots k).map fun x => u.slotPut k { x with waited := x.waited + 1 }
      match (t.engine.slots.map (fun e => e.1)).filter (fun k => t.mayAccept && (t.headOf k).isSome) with
      | [] => none
      | [k] => one t k
      | k :: j :: ks => one t.fresh.2 ((k :: j :: ks).getD (Config.freeCount t.freeN % (k :: j :: ks).length) 0)
  | .placementPass lsn => some fun s => (s.launch? lsn).bind fun l =>
      given (decide (l.reason = 0) && (!l.passed || l.record.kind == 1) && ((s.pass l).2 || !l.positions.any (s.placeLater l)))
        (if (s.pass l).2 then (s.pass l).1.wake else ((s.pass l).1.modLaunch lsn (fun l => { l with passed := true })).pressure)
  | .groupRetire g => some fun s => let t := s.retireOwn g
      given (s.mayRetire g) (if t.setRetired g then (t.freeSet g).wake else t.wake)
  | .launchEnd lsn => some fun s => (s.launch? lsn).bind fun l =>
      if l.reason ≠ 0 then some ((s.dropLaunch lsn).endWhole l)
      else l.due.bind fun k => given (l.cores.all s.l1Quiet) (s.endDue l k)
  | .rebalExpiry => some fun s => given (decide (s.engine.rebal.toNat % 65536 ≠ 0))
      (s.modEngine (fun e => { e with launches := e.launches.map s.rebalanced }))
  | .lectlEn b => some fun s => given (!b || !s.scrub.ctl.getLsbD 1)
      (s.modEngine (fun e => { e with lectl := if b then e.lectl ||| 1 else e.lectl &&& 0xFFFFFFFE })).settleAges
  | .lectlPause b => some fun s => some (s.modEngine (fun e => { e with lectl := if b then e.lectl ||| 2 else e.lectl &&& 0xFFFFFFFD })).settleAges
  | .lestat v => some fun s => some (s.modEngine (fun e => { e with lestat := e.lestat &&& ~~~(v &&& (lsQERR ||| lsPEND)) }))
  | .slotReclaim slot => some fun s => match sget s.engine.slots slot, s.pendBest with
      | some x, some (_, p) =>
        let ls := s.engine.launches.filter (fun l => l.queue == x.queue)
        let gs := (s.groups.filter (fun e => !e.2.freed && ls.any (fun l => l.lsn == e.2.lsn))).map (·.1)
        given (slot != 63 && decide (s.queueRank x.queue < p) && ls.all (fun l => decide (l.qprio < 3) && l.slot != 63))
          (if gs.isEmpty then s.freeSlot slot else
            (if gs.all (fun g => s.hasArea (s.groupAt g).ctx) then s.slotPut slot { x with reclaim := true } else s).requestPre
              (gs.filter (fun g => (s.groupAt g).pre == .none)))
      | _, _ => none
  | _ => none

end Sys2Proof.Claims

namespace Sys2Proof.Claims

/-- Copy units, engines, the matrix unit, its tokens and the page service (R309 to R321, R341, R399, R400). -/
def engineEvent : Instr → Option Ev
  | .commandStart id => some fun s => (s.cmd? id).bind fun c => match s.xmsg? id with
      | none => given (decide (c.cls ≠ 4) && !c.started && !c.dispatched && !c.withdrawn && c.pred.isNone && !s.cmdHeld c)
          (if c.cancel then
             (s.addCart c.g c.w c.f { cause := BitVec.ofNat 8 cCANCEL, flags := flagCMD, unit := 0xFF, pc := c.pc
                                      detail := BitVec.ofNat 32 c.tag }).2.modCmd id
               (fun k => { k with started := true, failed := true, issued := copyCount k.desc })
           else if !c.checked then s.modCmd id (fun k => { k with started := true, issued := copyCount k.desc })
           else if c.cls = 0 then
             (if copyCount c.desc ≠ 0 && !s.reqFree c.core none then s
              else let t := s.openCmd c; ((t.cmd? id).bind t.nextReq).getD t)
           else if (s.owned c.cls).isEmpty then s.rewriteCmd id
           else s.modCmd id (fun k => { k with dispatched := true }))
      | some m => if c.started then none else (match m.bad with
          | some b => given (s.xCan m) (((s.badDesc m.g m.w m.f m.core m.pc m.tag m.saddr m.desc b).dropX id).retireCmd c)
          | none => given (!s.cmdHeld c && !m.after.any (fun i => (s.xmsg? i).isSome))
              (if s.engineBars tgNovix m.ctx then s.xFinish m 2 else s.xStart m))
  | .commandComplete id => some fun s => (s.cmd? id).bind fun c =>
      if c.cls = 4 ∨ c.started = false then none else let r := s.finishCmd id
      if r.2 = false then some r.1 else (r.1.cmd? id).map fun c =>
        if r.1.canAct c.g c.core (actOf c.cls c.desc) && !r.1.revoking id then
          ((r.1.countBad c.g c.w c.f flagCMD c.pc (c.refusals.map (fun v => (wholeUnit, .new v.1 v.2.1 v.2.2)))).doAct
            c.g c.w c.f c.core c.pc c.tag (actOf c.cls c.desc)).retireCmd c
        else r.1
  | .queueEntryFill id lanes => some fun s => let s := s.askAll id 32
      (s.prods.find? (fun p => p.id == id && p.kind == .copy)).map fun p =>
        let here := fun (i : Item) => !i.unasked && lanes.getLsbD i.lane
        let r := (p.items.filter here).foldl (fun (acc : List (Item × Val) × State) i => match i.got with
          | some _ => (acc.1 ++ [(i, i.value)], acc.2)
          | none => let o := acc.2.ldqWord p.core (s.groupAt p.g).ctx i.va; (acc.1 ++ [(i, o.1)], o.2)) ([], s)
        let rest := p.items.filter (fun i => !here i)
        let u := r.2.poisonOnce p.id p.g p.w p.f 0 p.pc (r.1.map (fun e => (e.1.lane, e.2)))
        let t := { u.1 with prods := if rest.isEmpty then u.1.prods.filter (fun (q : Prod) => q.id != id)
                                     else u.1.prods.map (fun (q : Prod) => if q.id == id then { q with items := rest } else q) }
        (r.1.foldl (fun s e => s.fillEntry e.1.dst (e.2.word u.2)) t).wake
  | .engineDispatch id => some fun s => (s.cmd? id).bind fun c => (s.freeEngine c.cls).bind fun k =>
      given (c.dispatched && !c.started && !c.kernel)
        (if s.engineBars tgEngine (s.groupAt c.g).ctx then s.refuseCmd c else s.openCmd { c with eng := some k })
  | .dispatchDeadline id => some fun s => (s.cmd? id).bind fun c =>
      given (c.dispatched && !c.started && !c.kernel) (s.rewriteCmd id).wake
  | .matrixComplete g => some fun s => given (!(s.groupAt g).seq.ops.isEmpty)
      (s.matrixRun g (s.groupAt g).seq.ops.length (s.matrixLeft (s.groupAt g).core + 1)).wake
  | .bldFinish g => some fun s => given ((s.groupAt g).seq.slots.any (fun b => b.busy))
      (s.modSeq g (fun q => { q with
        slots := ((q.slots.findIdx? (fun b => b.busy)).map (fun i => modAt q.slots i (fun b => { b with busy := false }))).getD q.slots })).wake
  | .tokenGrant die => some fun s => (s.tokens.find? (fun t => t.1 == die)).bind fun t =>
      given (decide (s.tokensOut die < 16)) { s with tokens := s.tokens.erase t }
  | .tokenArrive core => some fun s => given ((s.coreAt core).tokenAsked && !s.tokens.contains (s.sliceOf core, core))
      (s.modCore core (fun c => { c with tokenAsked := false, tokenHeld := true })).wake
  | .tokenIdleReturn core => some fun s => given (!s.arrayBusy core) (s.modCore core (fun c => { c with tokenHeld := false }))
  | .tokenHoldLimit core => some fun s => given ((s.coreAt core).tokenHeld && !s.midStep core)
      (let t := s.modCore core (fun c => { c with tokenHeld := false })
       if t.arrayBusy core then t.askToken core else t)
  | .faultServiceDone g w f answer => some fun s => (s.parkOf g w f).map fun k =>
      let r : Serviced := match answer with
        | none => { s := s, good := false }
        | some pages => if needsService k then k.ring.foldl (Serviced.record (s.groupAt g).ctx pages) { s := s } else { s := s }
      ((r.s.modFibre g w f (fun y => if r.good || !needsService k then restartLanes { y with park := none } (k.lanes ||| k.sure) k.pc
        else restartLanes (restartLanes { closeRegion y with park := none } k.sure k.pc) k.lanes k.target)).clearRing g w f).wake
  | _ => none

/-- Pre-emption, save and restore (R419 to R431). -/
def preemptEvent : Instr → Option Ev
  | .timeSliceExpiry ctx => some fun s =>
      given (s.otherWaits ctx)
        (s.requestPre (s.groupsWhere (fun x => x.ctx == ctx && (match s.launch? x.lsn with
          | some l => decide (l.qprio < 3) && l.slot != 63
          | none => true))))
  | .denufPreempt (.ctx c) => some fun s => some (s.requestPre (s.groupsWhere (fun x => x.ctx == c)))
  | .denufPreempt (.launch n) => some fun s => some (s.requestPre (s.groupsWhere (fun x => x.lsn == n)))
  | .forcedSave g => some fun s => given ((s.group? g).isSome && (s.groupAt g).pre == .requested && !s.halted g)
      (s.modGroup g (fun x => { x with pre := .forced, forced := true }))
  | .saveStart g => some fun s =>
      given ((s.group? g).isSome && s.saveReady g && (s.groupAt g).pre != .saving && (s.setOf g).all s.canSave)
        (if s.setFits g then s.beginSave g else s.resumeSet g)
  | .saveComplete g => some fun s =>
      let t := s.modGroup g (fun x => { x with pre := .saved })
      given ((s.group? g).isSome && (s.groupAt g).pre == .saving && s.saveReady g)
        (if (t.setOf g).all (fun m => (t.groupAt m).pre == .saved) then t.finishSave g else t)
  | .restoreStart g => some fun s => (s.saved.find? (fun v => v.g == g)).map fun v => (s.saveEnd v.ctx).refill [v.core]
  | .restoreComplete g => some fun s => given ((s.group? g).isSome && (s.groupAt g).pre == .restoring)
      (s.modGroup g (fun x => { x with pre := .none, warps := x.warps.map (fun w =>
        mapFibres w (fun _ f => mapLanes f (fun l => { l with age := 0 }))) })).wake
  | _ => none

/-- Transport, and Denuf's answers (R465, R468 to R479, R489, R490). -/
def transportEvent : Instr → Option Ev
  | .packetArrive p => some fun s => match p.kind with
      | .readReply => (s.xmsg? p.msg).bind fun m => given (decide (m.op = 0xD1) || decide (m.op = 0xD9)) (s.readReply m p)
      | _ => if p.fromPeer then
          some (s.arrive { msg := p.msg, peer := true, job := p.job, kind := p.kind, idx := p.idx, count := p.count
                           msgLen := p.msgLen, words := p.words, rne := p.rne, slot := p.rslot })
        else (s.xmsg? p.msg).bind fun m => if m.op = 0xD0 ∨ m.op = 0xD2 then (s.ownPacket m p.idx).map s.arrive else none
  | .packetResend id i => some fun s => (s.xmsg? id).bind fun m =>
      given (m.started && !s.settled m i && decide (i < packetCount (xLen m.desc)))
        (if 7 ≤ sgetD m.resends i 0 then s.xFail m 1
         else s.modX id (fun y => { y with resends := ssetD y.resends i (sgetD y.resends i 0 + 1) 0 }))
  | .messageTimeout id => some fun s => (s.xmsg? id).bind fun m => given m.started (s.xFail m 1)
  | .nobufDeadline id => some fun s => (s.xmsg? id).bind fun m =>
      given (m.started && decide (m.op = 0xD2) && (s.rx? id false).isNone) (s.xFinish m 3)
  | .finalAck id st => some fun s => (s.xmsg? id).bind fun m =>
      if !m.started then none
      else if m.op = 0xD1 ∧ (List.range (packetCount (xLen m.desc))).all (fun i => m.got.contains i) = true then some (s.xFinish m 0)
      else if s.toSelf m then (s.rx? id false).bind fun r =>
        given r.notified ((if s.xCan m then { s with rxmsgs := s.rxmsgs.filter (fun q => !(q.msg == id && !q.peer)) } else s).xFinish m r.status)
      else if m.op = 0xD1 ∨ m.op = 0xD9 then (if st = 2 then some (s.xFinish m 2) else none)
      else if st = 0 ∨ st = 2 ∨ (st = 4 ∧ xRne m.desc = true) ∨ (st = 5 ∧ m.op = 0xD2) then some (s.xFinish m st)
      else none
  | .congestionUpdate ctx peer ws => some fun s => (s.ctx? ctx).bind fun x =>
      let e := [ws.getD 0 0, ws.getD 1 0, ws.getD 2 0 &&& 0xFFFF, ws.getD 3 0, ws.getD 4 0, ws.getD 5 0, ws.getD 6 0,
                (sgetD x.congestion peer []).getD 7 0 + 1]
      let t := s.modCtx ctx (fun x => { x with congestion := sput x.congestion peer e })
      given (s.peerOf ctx peer).isSome ((x.cfg.table.map fun a =>
        t.putBytes ctx ((a.toNat + 32 * peer) / 4) (e.flatMap (fun w => bytesOfNat w.toNat 4))).getD t)
  | .syscAnswer id status => some fun s => (s.sysc.find? (fun r => r.id == id)).bind fun r =>
      let st := s.syscStatus r status
      let t := if st = 0 then s.syscEffect r else s
      given (r.answer.isNone && !(fld r.block 0 4 == 1 && !s.invalReady (s.groupAt r.g).ctx (fld r.block 8 8) (fld r.block 16 8)))
        ({ t with sysc := t.sysc.map (fun (q : Sysc) => if q.id == id then { q with answer := some st } else q) } : State).wake
  | _ => none

/-- A timing error (R406), and an error that ECC or parity finds (R405), with its entry in the RAS log (R496). -/
def errorEvent : Instr → Option Ev
  | .timingReplay core unit second => some fun s => given (decide (core < s.width * s.height) && decide (unit < 4))
      (let t := s.perfCount core 0x600
       { t with ras := { t.ras with tr := t.ras.tr + 1 }, late := if second then some (core, unit) else t.late })
  | .parityError (.control (.fibre g w f)) => some fun s => some ((s.rasLog 2 5 (s.groupAt g).core 0 none).freezeOut g w f cECC)
  | .parityError (.control (.seq g)) => some fun s => given ((s.groupAt g).seq.st == .running)
      ((s.rasLog 2 5 (s.groupAt g).core 0 none).haltSeq g cECC)
  | .parityError (.control (.ap _ _)) => some fun s => some s
  | .parityError (.spad g i) => some fun s => given (decide (4 * i < (s.groupAt g).spadBytes) && !(s.spAt g i).poison)
      ((s.rasLog 2 6 (s.groupAt g).core 0 none).setSp g i { s.spAt g i with poison := true, fresh := true })
  | .parityError (.mem wa found) => some fun s => given (s.dpaOk (4 * wa))
      (let t := s.rasLog 2 (s.rasPlace (4 * wa)).1 (s.rasPlace (4 * wa)).2 (4 * wa) none
       if found then { t with bad := ssetD t.bad wa true false, upset := sdel t.upset wa } else { t with upset := ssetD t.upset wa true false })
  | .parityError (.l1 c wa) => some fun s => (s.l1At c wa).map fun e =>
      (s.rasLog 2 5 c (4 * wa) none).setL1 c wa (some { e with word := { e.word with bad := true, fresh := true } })
  | .parityError (.atlas k g) => some fun s => given (decide (k < 12) && decide (g < 98304))
      (let t := s.rasLog 2 0 (2 * k + g / 49152) (k * 2 ^ 40 + g * 2 ^ 21) none
       { t with atlas := ssetD t.atlas (groupKey k g) 3 0 })
  | .parityError (.bstore g k i) => some fun s => (((s.groupAt g).seq.slots[k]?).bind (fun b => b.tiles[i]?)).bind fun t =>
      let u := s.rasLog 2 7 (s.groupAt g).core 0 none
      let hit := fun (b : BSlot) => { b with tiles := modAt b.tiles i (fun t => (t.1, some (eccWord (BitVec.ofNat 32 (Config.freeCount u.freeN))))) }
      given t.2.isNone (u.fresh.2.modSeq g (fun q => { q with
        slots := modAt q.slots k hit
        ops := q.ops.map (fun o => if !o.acz && o.bno == k then { o with slot := hit o.slot } else o) }))
  | .parityError (.corrected unit unum dpa) => some fun s => given s.started
      (let t := { s with ras := { s.ras with ce := s.ras.ce + 1 } }
       if (s.ras.ce + 1).toNat % 1024 = 0 then t.rasLog 1 unit unum dpa none else t)
  | _ => none

/-- Contexts, partitions, dies, the RAS ring and the board (R434 to R438, R445, R446, R456 to R459, R484 to R488, R493 to R496). -/
def systemEvent : Instr → Option Ev
  | .teardown ctx => some fun s => some (s.tear ctx)
  | .scrctlGo => some fun s => some { s with scrub := { s.scrub with ctl := s.scrub.ctl ||| 1, prog := 0 } }
  | .scrctlBlock => some fun s => some { s with scrub := { s.scrub with ctl := s.scrub.ctl ||| 2 } }
  | .scrstat v => some fun s => some { s with scrub := { s.scrub with stat := s.scrub.stat &&& ~~~(v &&& (scrDONE ||| scrERR)) } }
  | .scrubDone bad => some fun s => given (s.scrub.ctl.getLsbD 0) (s.scrubbed bad).wake
  | .partitionReset => some fun s => given (s.scrub.ctl.getLsbD 0) { s with scrub := { s.scrub with
      prog := 0
      stat := (s.scrub.stat &&& 0xFFFF00FF) ||| BitVec.ofNat 32 (256 * min 255 (s.scrub.stat.toNat / 256 % 256 + 1)) } }
  | .partitionCut f n => some fun s => given (s.boot == .running && cutOk f n && s.ctxs.isEmpty && s.engine.launches.isEmpty
      && !s.scrub.ctl.getLsbD 1)
      (let t := s.bringHome
       { t with msc := [], netPerf := [], walking := [], first := f, slices := n, started := false, cores := [], tokens := [], dieTlb := [], walks := [], tables := []
                pool := t.pool.map (fun o => if o = 1 then 0 else o) })
  | .dieReplace slice => some fun s =>
      let cs := s.allCores.filter (fun c => s.sliceOf c == slice)
      if slice < s.first ∨ s.first + s.slices ≤ slice ∨ s.absent.contains slice = true then none
      else if s.groups.any (fun e => !e.2.freed && !e.2.lost) then
        given (s.replacing != some slice) ({ s with replacing := some slice } : State).saveAll.wake
      else some (if cs.all s.l1Quiet then (cs.foldl (fun s c => s.drainL1 c) s).swapDie slice else { s with replacing := some slice })
  | .dieLost slice => some fun s => some (s.loseDie slice)
  | .layerMapOut slice layer => some fun s =>
      let lo := slice * 2 ^ 40 + 2048 * layer * 2 ^ 21
      given (decide (slice < 12) && decide (layer < 48) && !s.lostRanges.contains (lo, lo + 2048 * 2 ^ 21))
        (if s.removing.contains (slice, layer) then ((s.unmapRange lo (2048 * 2 ^ 21)).map (fun t => (t.loseLayer slice layer).wake)).getD s
         else ({ s with removing := s.removing ++ [(slice, layer)] } : State).mgmtReport [lo, lo + 2048 * 2 ^ 21])
  | .mailboxRequest req => some fun s => given (s.boot == .running && decide (s.mail.requests.length < 256))
      { s with mail := { s.mail with requests := s.mail.requests ++ [{ req := fit16 64 req }] } }
  | .eventRingConsume n => some fun s => some { s with mail := { s.mail with events := s.mail.events.drop n } }
  | .rastail v => some fun s => some { s with ras := { s.ras with tail := if s.ras.head.toNat < v.toNat then s.ras.head else v } }
  | .rasstat v => some fun s => some { s with ras := { s.ras with
      stat := let y := s.ras.stat &&& ~~~(v &&& (rasOVF ||| rasUE)); if v &&& rasOVF != 0 then y &&& 0xFFFF0000 else y } }
  | .powerUp ok digest => some fun s => given (s.boot == .off)
      (if ok && !s.flashBad then { s with boot := .starting 1, log := s.log ++ hashesOf digest }
       else { s with freeN := s.freeN + 1, boot := .failed, portCode := some (Config.freeCount s.freeN), flashBad := true })
  | .firmwareReflash ok => some fun s => given (s.boot == .failed && ok) { s with boot := .off, portCode := none, flashBad := false }
  | .powerLoss => some fun s => some { State.reset with
      agenda := s.agenda, turnNo := s.turnNo, freeN := s.freeN, idN := s.idN, flashBad := s.flashBad }
  | .partitionStart => some fun s => given (s.boot == .running && decide (s.slices ≠ 0) && !s.started)
      { s with started := true, clk := 0, netPerf := [], freeN := s.freeN + 49, engine := { s.engine with lsnnext := 1 }
               cores := s.cores.map (fun (c : Nat × Core) => (c.1, { c.2 with perf := [], up := false }))
               pool := (List.range 48).map (fun k => Config.freeCount (s.freeN + k) % 3), deadline := s.chosenDeadline (s.freeN + 48) }
  | .coreUp core => some fun s => given (s.started && decide (core < s.width * s.height) && !s.coreAbsent core && !(s.coreAt core).up
      && (List.range core).all (fun c => (s.coreAt c).up || s.coreAbsent c))
      ((s.modCore core (fun c => { c with up := true })).refill [core]).wake
  | .mgmtCoreFail n => some fun s => (s.mgmt[n]?).map fun r =>
      let m := s.mgmt.set n .failed
      { s with mgmt := if r == .active then ((m.findIdx? (fun r => r == .spare)).map (fun k => m.set k .active)).getD m else m
               mail := { s.mail with requests := s.mail.requests.map (fun q => if q.core = some n then { q with core := none } else q) } }
  | .clockThrottle die low => some fun s => given (decide (die < 13)) { s with
      throttled := if low then (if s.throttled.contains die then s.throttled else s.throttled ++ [die])
                   else s.throttled.filter (fun d => d != die) }
  | .contextBind c => some fun s =>
      let key := if c.isProtected then s.freeKey else none
      given (s.boot == .running && decide (s.slices ≠ 0) && ((s.ctx? c.num).isSome || !s.scrub.ctl.getLsbD 1))
        (if (s.ctx? c.num).isSome then s.modCtx c.num (fun x => { x with
            sliceNs := if 100000 ≤ c.slice ∧ c.slice ≤ 1000000000 then c.slice else x.sliceNs
            cfg := { x.cfg with peers := c.peers.take 4096, regions := c.regions.take 65536
                                nobuf := if 1 ≤ c.nobuf ∧ c.nobuf ≤ 100000 then c.nobuf else x.cfg.nobuf } })
         else
         let t := s.fresh.2.grant c
         { t with
           ctxs := t.ctxs ++ [{ cfg := { c with peers := c.peers.take 4096, regions := c.regions.take 65536, nobuf := 100 }, key := key, sliceNs := 2000000 }]
           keys := match key with
             | some k => sput t.keys k (Config.freeCount s.freeN + 1)
             | none => t.keys })
  | _ => none

end Sys2Proof.Claims

/-- Each step of the slots, of accesses and of barriers happens wherever it can, and leaves what it should (R123, R178, R201,
R263, R280). Rests on logs 5 (a look at a slot), 58 and 65 (parked accesses), 120, 121 and 144 (delivery). -/
def Obligations.IssueEventsHappen : Prop := ∀ i e, issueEvent i = some e → e.Happens i

/-- The same for translation and the placement of pages (R28, R238, R239, R242 to R244, R255, R272, R273). Rests on logs 34 and 41 (walks and
invalidations), 51 to 53 (the atlas, heat and swaps), 64 and 138 (PFT), 134 (pins). -/
def Obligations.PlacementEventsHappen : Prop := ∀ i e, placeEvent i = some e → e.Happens i

/-- The same for the ownership registry (R247, R250 to R252, R448 to R455). Rests on logs 9 (sets), 33, 46 and 47 (revocation, write-backs on
their way), 48 and 49 (lost entries), 50 (lost flits), 108 (lost tags). -/
def Obligations.RegistryEventsHappen : Prop := ∀ i e, registryEvent i = some e → e.Happens i

/-- The same for the launch engine (R215 to R224, R226 to R230, R432). Rests on logs 93 to 98 and 135 (queues, records, aging, placement), 102
(pressing), 104 and 112 (what ends a launch), 133 (records). -/
def Obligations.LaunchEventsHappen : Prop := ∀ i e, launchEvent i = some e → e.Happens i

/-- The same for copy units, engines, the matrix unit and the page service (R309 to R321, R341, R399, R400, R412). Rests on logs 31 (kernels),
68 to 73 and 132 (commands), 30, 75 and 76 (the array), 80 (the page service), 120 (records). -/
def Obligations.EngineEventsHappen : Prop := ∀ i e, engineEvent i = some e → e.Happens i

/-- The same for pre-emption, save and restore (R419 to R431). Rests on logs 8 and 100 (images), 98 and 102 (who takes cores), 101 (areas). -/
def Obligations.PreemptionEventsHappen : Prop := ∀ i e, preemptEvent i = some e → e.Happens i

/-- A write of an engine register, with the bits it ignores (R229 to R231, R437, R438, R494, R496): LECTL, QTBASE, QTCNT, PNBASE, LESTAT,
AGEPER, REBAL, LECTX; SCRCTL, SCRLIST, SCRTOTAL, SCRSTAT; RASBASE, RASCNT, RASTAIL, RASSTAT; and QNOTIFY. -/
def Obligations.RegisterWritesTakeEffect : Prop :=
  ∀ (s : State) (v : DWord), let w : Word := v.setWidth 32; let en := s.engine.lectl.getLsbD 0; let go := s.scrub.ctl.getLsbD 0
  let wr := fun pg off (t : State) => exec (.registerWrite pg off v) s = .next t
  let bit := fun (y m : Word) (b : Bool) => if b then y ||| m else y &&& ~~~m
  wr .launch 0x000 (((if w.getLsbD 0 && s.scrub.ctl.getLsbD 1 then s else (s.modEngine fun e => { e with
    lectl := bit e.lectl 1 (w.getLsbD 0) }).settleAges).modEngine fun e => { e with lectl := bit e.lectl 2 (w.getLsbD 1) }).settleAges) ∧
  wr .launch 0x008 (if en then s else s.modEngine fun e => { e with qtbase := v &&& ~~~63 }) ∧
  wr .launch 0x010 (if en then s else s.modEngine fun e => { e with qtcnt := if 4096 ≤ w.toNat then 4096 else w }) ∧
  wr .launch 0x018 (if en then s else s.modEngine fun e => { e with pnbase := v &&& ~~~63 }) ∧
  wr .launch 0x030 (s.modEngine fun e => { e with lestat := e.lestat &&& ~~~(w &&& (lsQERR ||| lsPEND)) }) ∧
  wr .launch 0x038 (s.modEngine fun e => { e with ageper := w &&& 0xFFFF }) ∧
  wr .launch 0x040 (s.modEngine fun e => { e with rebal := w &&& 0xFFFF }) ∧
  wr .launch 0x048 (if en then s else s.modEngine fun e => { e with lectx := w &&& 0xFF }) ∧
  wr .notify 0x000 (if w.toNat < 4096 then s.notifyQueue w.toNat else s.modEngine fun e => { e with lestat := e.lestat ||| lsQERR }) ∧
  wr .scrub 0x000 { s with scrub := { s.scrub with
    ctl := s.scrub.ctl ||| (w &&& 3)
    prog := if w.getLsbD 0 then 0 else s.scrub.prog } } ∧
  wr .scrub 0x008 (if go then s else { s with scrub := { s.scrub with list := v &&& ~~~7 } }) ∧
  wr .scrub 0x010 (if go then s else { s with scrub := { s.scrub with total := w } }) ∧
  wr .scrub 0x020 { s with scrub := { s.scrub with stat := s.scrub.stat &&& ~~~(w &&& (scrDONE ||| scrERR)) } } ∧
  wr .ras 0x000 { s with ras := { s.ras with base := v &&& ~~~4095 } } ∧
  wr .ras 0x008 (if ∃ k, k < 13 ∧ w.toNat = 16 * 2 ^ k then { s with ras := { s.ras with cnt := w } } else s) ∧
  wr .ras 0x018 { s with ras := { s.ras with tail := if s.ras.head.toNat < w.toNat then s.ras.head else w } } ∧
  wr .ras 0x020 { s with ras := { s.ras with 
    stat := let y := s.ras.stat &&& ~~~(w &&& (rasOVF ||| rasUE)); if w &&& rasOVF != 0 then y &&& 0xFFFF0000 else y } }

/-- What a register page shows after a write of it (R229 to R231, R437, R438, R494): a register holds the bits written that it has,
QTCNT at most 4096; while EN is 1, or while a scrub goes on, the locked ones keep their values; EN is not set while BLOCK is 1; GO and BLOCK
are not cleared by a write; ones written to status bits clear them; RASTAIL stops at RASHEAD; read-only registers keep what they show, and so
do the slot words, each of which shows its slot's queue and priority while it is bound; offsets not listed, and the notify page, read 0. -/
def Obligations.RegistersReadBack : Prop :=
  ∀ (s t : State) (pg : RegPage) (off : Nat) (v : DWord), exec (.registerWrite pg off v) s = .next t →
  let w : Word := v.setWidth 32; let en := s.engine.lectl.getLsbD 0
  let shows := fun (o : Nat) (d : DWord) => pg = .launch → off = o → t.readRegister pg off = if en then s.readRegister pg off else d
  shows 0x008 (v &&& ~~~63) ∧ shows 0x010 ((if 4096 ≤ w.toNat then 4096 else w).setWidth 64) ∧ shows 0x018 (v &&& ~~~63) ∧
  shows 0x048 ((w &&& 0xFF).setWidth 64) ∧
  (pg = .launch → off = 0x038 ∨ off = 0x040 → t.readRegister pg off = (w &&& 0xFFFF).setWidth 64) ∧
  (pg = .launch → off = 0x000 → let r := t.readRegister pg off
    r.getLsbD 0 = (if w.getLsbD 0 && s.scrub.ctl.getLsbD 1 then en else w.getLsbD 0) ∧ r.getLsbD 1 = w.getLsbD 1 ∧
    ∀ k, 2 ≤ k → r.getLsbD k = (s.readRegister pg off).getLsbD k) ∧
  (pg = .launch → off = 0x030 → t.readRegister pg off = s.readRegister pg off &&& ~~~((w &&& (lsQERR ||| lsPEND)).setWidth 64)) ∧
  (pg = .launch → off = 0x020 ∨ off = 0x028 ∨ 0x100 ≤ off → t.readRegister pg off = s.readRegister pg off) ∧
  (∀ k, k < 64 → let r := s.readRegister .launch (0x100 + 8 * k); match sget s.engine.slots k with
    | none => r = 0
    | some x => r.getLsbD 31 = true ∧ r.getLsbD 30 = s.queueBusy x.queue ∧ r.getLsbD 29 = x.raised ∧
      r.extractLsb' 14 15 = 0 ∧ r.extractLsb' 12 2 = BitVec.ofNat 2 (((s.slotDesc k x).map (s.effective k)).getD 0) ∧
      r.extractLsb' 0 12 = BitVec.ofNat 12 x.queue ∧ r.extractLsb' 32 32 = 0) ∧
  (pg = .scrub → let go := s.scrub.ctl.getLsbD 0
    (off = 0x000 → t.readRegister pg off = s.readRegister pg off ||| (w &&& 3).setWidth 64) ∧
    (off = 0x008 → t.readRegister pg off = if go then s.readRegister pg off else v &&& ~~~7) ∧
    (off = 0x010 → t.readRegister pg off = if go then s.readRegister pg off else w.setWidth 64) ∧
    (off = 0x018 → t.readRegister pg off = s.readRegister pg off) ∧
    (off = 0x000 → t.readRegister pg 0x018 = if w.getLsbD 0 then 0 else s.readRegister pg 0x018) ∧
    (off = 0x020 → t.readRegister pg off = s.readRegister pg off &&& ~~~((w &&& (scrDONE ||| scrERR)).setWidth 64))) ∧
  (pg = .ras →
    (off = 0x000 → t.readRegister pg off = v &&& ~~~4095) ∧
    (off = 0x008 → t.readRegister pg off = if ∃ k, k < 13 ∧ w.toNat = 16 * 2 ^ k then w.setWidth 64 else s.readRegister pg off) ∧
    (off = 0x010 ∨ off = 0x028 ∨ off = 0x030 → t.readRegister pg off = s.readRegister pg off) ∧
    (off = 0x018 → t.readRegister pg off = if s.ras.head.toNat < w.toNat then s.readRegister pg 0x010 else w.setWidth 64) ∧
    (off = 0x020 → let r := t.readRegister pg off; let o := s.readRegister pg off
      r.getLsbD 31 = (o.getLsbD 31 && !w.getLsbD 31) ∧ r.getLsbD 30 = (o.getLsbD 30 && !w.getLsbD 30) ∧
      r.extractLsb' 16 14 = o.extractLsb' 16 14 ∧ r.extractLsb' 0 16 = if w.getLsbD 31 then 0 else o.extractLsb' 0 16)) ∧
  (off % 8 ≠ 0 ∨ 0x300 ≤ off ∨ (pg = .launch ∧ 0x048 < off ∧ off < 0x100) ∨ (pg = .scrub ∧ 0x020 < off) ∨ (pg = .ras ∧ 0x030 < off) →
    t.readRegister pg off = 0) ∧
  t.readRegister .notify off = 0

/-- The same for transport and SYSC's answers (R465, R468 to R479, R489, R490). Rests on logs 81 (answers), 85 to 92 (statuses, placement,
congestion), 136 (the congestion table). -/
def Obligations.TransportEventsHappen : Prop := ∀ i e, transportEvent i = some e → e.Happens i

/-- The same for timing and parity errors (R405, R406, R495, R496). Rests on logs 54, 56 and 106 (how an error arrives), 105 (times), 107 (a late
cycle). -/
def Obligations.ErrorEventsHappen : Prop := ∀ i e, errorEvent i = some e → e.Happens i

/-- The same for contexts, partitions, dies, the RAS ring and the board (R434 to R438, R456 to R459, R484 to R488, R493 to R496). Rests on logs
4 (agenda), 105 and 109 to 117 (RAS, power, mailbox, scrub, teardown, binding, dies, layers, clocks), 137 (the pool), 145 (starting). -/
def Obligations.SystemEventsHappen : Prop := ∀ i e, systemEvent i = some e → e.Happens i

namespace Sys2Proof.Claims

/-- The instruction writes, in every participant whose sources' words meet `cond`, words computed from its unpoisoned sources,
and, where all meet it, sets those flags and no other; `out` takes the values of the sources' words, and gives those of the result and the flags. -/
def Alu.GivesWhere (a : Alu) (i : Instr) (cond : List (List Word) → Bool) (out : List (List Word) → List Word × Word) : Prop :=
  ∀ s p q, Issuing s p q a.op a.f →
    let x := s.exOf p a.op a.f
    let s' := s.start p a.f
    s'.ready x {} = true → a.f.d.toNat < 0xC0 →
    (∀ l ∈ x.parts, ∀ v ∈ (a.srcs x s' l).flatten, ∃ w, v = .ok w ∧ w.poison = false) →
    let ws := fun l => (a.srcs x s' l).map (fun vs => (wordsOfVals vs).map (·.val))
    ∃ t, exec i s = .next t ∧
      (∀ l ∈ x.parts, cond (ws l) = true → ∀ h, h < (out (ws l)).1.length → let w := t.regAt p.g p.w (vecPlace s' x l h)
        w.val = (out (ws l)).1.getD h 0 ∧ w.poison = false ∧ w.full = true) ∧
      ((∀ l ∈ x.parts, cond (ws l) = true) → (t.fibreAt p.g p.w p.f).fstat =
        (s.fibreAt p.g p.w p.f).fstat ||| x.parts.foldl (fun m l => m ||| (out (ws l)).2) 0)

def IntGives (i : Instr) (out : List (List Word) → List Word × Word) : Prop :=
  ∃ a, integerAlu i = some a ∧ a.GivesWhere i (fun _ => true) out

/-- Word `j` of source `k`; a pair as one number. -/
def word (ws : List (List Word)) (k : Nat) (j : Nat := 0) : Word := (ws.getD k []).getD j 0
def pair (ws : List (List Word)) (k : Nat) : DWord := word ws k 1 ++ word ws k

/-- A one-word result, and a pair, with no flag. -/
def one (v : List (List Word) → Word) (ws : List (List Word)) : List Word × Word := ([v ws], 0)
def two (v : List (List Word) → DWord) (ws : List (List Word)) : List Word × Word :=
  ([(v ws).extractLsb' 0 32, (v ws).extractLsb' 32 32], 0)

/-- No word of a register carries the residue code 15. -/
def No15 (s : State) : Prop := ∀ g w, (∀ o, (s.regAt g w o).res ≠ 15) ∧ ∀ f n, (s.uregAt g w f n).res ≠ 15

/-- The exact integer of a source under an integer type (R95), half `h` of it under .x2. -/
def typed (md : Nat) (x2 : Bool) (h : Nat) (ws : List (List Word)) (k : Nat) : Int :=
  let v : Nat := (if md = 6 ∨ md = 7 then (pair ws k).toNat else (word ws k).toNat) / 2 ^ (16 * h)
  let n := if x2 then 16 else tyBits md
  if tySigned md then (BitVec.ofNat n v).toInt else (BitVec.ofNat n v).toNat

/-- The words that hold an integer under a type: narrowed to its width and extended by its sign (R95). -/
def typedWords (md : Nat) (v : Int) : List Word :=
  let n := tyBits md
  let w : DWord := if tySigned md then (BitVec.ofInt n v).signExtend 64 else (BitVec.ofInt n v).setWidth 64
  if n = 64 then [w.extractLsb' 0 32, w.extractLsb' 32 32] else [w.extractLsb' 0 32]

/-- A function of the exact integers of the sources under a type, by halves under .x2 (R95). -/
def byType (f : Fields) (g : (Nat → Int) → Int) (ws : List (List Word)) : List Word × Word :=
  let half := fun (h : Nat) => BitVec.ofInt 16 (g (typed f.md.toNat true h ws))
  (if f.sub.getLsbD 3 then [half 1 ++ half 0] else typedWords f.md.toNat (g (typed f.md.toNat false 0 ws)), 0)

/-- A shift of the first source by the count of the second, by halves under .x2, with the count modulo the width under .wrap (R109). -/
def shifted (f : Fields) (sh : {n : Nat} → BitVec n → Nat → BitVec n) (ws : List (List Word)) : List Word × Word :=
  let cnt := fun (n c : Nat) => if f.sub.getLsbD 0 then c % n else c
  let a := word ws 0
  let b := word ws 1
  let half := fun (h : Nat) => sh (a.extractLsb' (16 * h) 16) (cnt 16 (b.extractLsb' (16 * h) 16).toNat)
  let whole := sh (pair ws 0) (cnt 64 b.toNat)
  (if f.sub.getLsbD 3 then [half 1 ++ half 0]
   else if f.md = 9 then [whole.extractLsb' 0 32, whole.extractLsb' 32 32]
   else [sh a (cnt 32 b.toNat)], 0)

/-- Quotient, remainder, and whether DZ is set (R104): one row each of the rule's table. -/
def divRow (n : Nat) (signed : Bool) (x y : Int) : Int × Int × Bool :=
  if y = 0 then (if signed then -1 else 2 ^ n - 1, x, true)
  else if signed = true ∧ x = -(2 ^ (n - 1)) ∧ y = -1 then (-(2 ^ (n - 1)), 0, false)
  else (x.tdiv y, x - y * x.tdiv y, false)

/-- What IDIV (or IREM) leaves under a type (R104). -/
def divOut (rem : Bool) (md : Nat) (x2 : Bool) (ws : List (List Word)) : List Word × Word :=
  let pick := fun (r : Int × Int × Bool) => if rem then r.2.1 else r.1
  if x2 then
    let row := fun (h : Nat) => divRow 16 (tySigned md) (typed md true h ws 0) (typed md true h ws 1)
    ([BitVec.ofInt 16 (pick (row 1)) ++ BitVec.ofInt 16 (pick (row 0))], if (row 0).2.2 || (row 1).2.2 then fDZ else 0)
  else
    let row := divRow (tyBits md) (tySigned md) (typed md false 0 ws 0) (typed md false 0 ws 1)
    (typedWords md (pick row), if row.2.2 then fDZ else 0)

/-- The sum of IDOT4 (R106): the products of bytes, signed or not. -/
def dotSum (sa sb : Bool) (a b c : Word) : Word :=
  let ext := fun (s : Bool) (v : Word) (k : Nat) => let y := v.extractLsb' (8 * k) 8; if s then y.signExtend 32 else y.setWidth 32
  c + ext sa a 0 * ext sb b 0 + ext sa a 1 * ext sb b 1 + ext sa a 2 * ext sb b 2 + ext sa a 3 * ext sb b 3

/-- A single-precision NaN, and a signalling one (R131). -/
def isNaN32 (w : Word) : Bool := (0x7F800000#32).ult (w &&& 0x7FFFFFFF)
def isSNaN32 (w : Word) : Bool := isNaN32 w && !w.getLsbD 22
/-- A zero of single precision and an infinity, in either order. -/
def zeroByInf32 (v w : Word) : Bool :=
  let mag := fun (x : Word) => x &&& 0x7FFFFFFF
  (mag v == 0 && mag w == 0x7F800000) || (mag w == 0 && mag v == 0x7F800000)

end Sys2Proof.Claims

/-- Sums, differences, products, smaller and larger under every integer type, narrow, whole, pair or .x2; on whole words in words too;
bitwise functions with and without .nb; and shifts by an unsigned count that may exceed the width, which .wrap takes modulo the width, on
words, pairs and halves (R95, R103, R108, R109). -/
def Obligations.WordResults : Prop :=
  ∀ f : Fields,
    (f.sub = 0 → f.md = 0 ∨ f.md = 1 →
      IntGives (.iadd f) (one fun ws => word ws 0 + word ws 1) ∧ IntGives (.isub f) (one fun ws => word ws 0 - word ws 1) ∧
      IntGives (.imul f) (one fun ws => word ws 0 * word ws 1) ∧
      IntGives (.imad f) (one fun ws => word ws 0 * word ws 1 + word ws 2) ∧
      IntGives (.iadd3 f) (one fun ws => word ws 0 + word ws 1 + word ws 2)) ∧
    (f.sub = 0 → f.md = 0 →
      IntGives (.imin f) (one fun ws => if (word ws 0).slt (word ws 1) then word ws 0 else word ws 1) ∧
      IntGives (.imax f) (one fun ws => if (word ws 0).slt (word ws 1) then word ws 1 else word ws 0)) ∧
    (f.md = 8 → f.sub = 0 ∨ f.sub = 1 →
      let b := fun ws => if f.sub = 1 then ~~~word ws 1 else word ws 1
      IntGives (.and f) (one fun ws => word ws 0 &&& b ws) ∧ IntGives (.or f) (one fun ws => word ws 0 ||| b ws) ∧
      IntGives (.xor f) (one fun ws => word ws 0 ^^^ b ws)) ∧
    (f.md.toNat < 8 → f.sub = 0 ∨ (f.sub = 8 ∧ (f.md = 2 ∨ f.md = 3)) →
      IntGives (.iadd f) (byType f fun a => a 0 + a 1) ∧ IntGives (.isub f) (byType f fun a => a 0 - a 1) ∧
      IntGives (.imul f) (byType f fun a => a 0 * a 1) ∧ IntGives (.imad f) (byType f fun a => a 0 * a 1 + a 2) ∧
      IntGives (.iadd3 f) (byType f fun a => a 0 + a 1 + a 2) ∧
      IntGives (.imin f) (byType f fun a => if a 0 < a 1 then a 0 else a 1) ∧
      IntGives (.imax f) (byType f fun a => if a 0 < a 1 then a 1 else a 0)) ∧
    (f.md = 8 ∨ f.md = 9 → f.sub = 0 ∨ f.sub = 1 →
      IntGives (.shl f) (shifted f fun v c => v <<< c) ∧ IntGives (.shr f) (shifted f fun v c => v >>> c) ∧
      IntGives (.sar f) (shifted f fun v c => v.sshiftRight c)) ∧
    (f.md = 3 → f.sub = 8 ∨ f.sub = 9 →
      IntGives (.shl f) (shifted f fun v c => v <<< c) ∧ IntGives (.shr f) (shifted f fun v c => v >>> c)) ∧
    (f.md = 2 → f.sub = 8 ∨ f.sub = 9 → IntGives (.sar f) (shifted f fun v c => v.sshiftRight c))

/-- On pairs: sums, differences, products, and bitwise functions of 64 bits with and without .nb (R11, R95, R103, R108). -/
def Obligations.PairResults : Prop :=
  ∀ f : Fields,
    (f.sub = 0 → f.md = 6 ∨ f.md = 7 →
      IntGives (.iadd f) (two fun ws => pair ws 0 + pair ws 1) ∧ IntGives (.isub f) (two fun ws => pair ws 0 - pair ws 1) ∧
      IntGives (.imul f) (two fun ws => pair ws 0 * pair ws 1)) ∧
    (f.md = 9 → f.sub = 0 ∨ f.sub = 1 →
      let b := fun ws => if f.sub = 1 then ~~~pair ws 1 else pair ws 1
      IntGives (.and f) (two fun ws => pair ws 0 &&& b ws) ∧ IntGives (.or f) (two fun ws => pair ws 0 ||| b ws) ∧
      IntGives (.xor f) (two fun ws => pair ws 0 ^^^ b ws))

/-- R104: IDIV and IREM under every integer type, narrow, whole, pair or .x2, with the rows for division by zero and for the
most negative value, and the flag DZ. -/
def Obligations.DivisionResults : Prop :=
  ∀ f : Fields, f.md.toNat < 8 → (f.sub = 0 ∨ (f.sub = 8 ∧ (f.md = 2 ∨ f.md = 3))) →
    IntGives (.idiv f) (divOut false f.md.toNat (f.sub == 8)) ∧ IntGives (.irem f) (divOut true f.md.toNat (f.sub == 8))

/-- R106: IDOT4 adds the four products of bytes to C, both signed under .s8, both unsigned under .z8, and A's signed and B's
unsigned under .s8.mix. -/
def Obligations.DotProductOfBytes : Prop :=
  ∀ f : Fields,
    (f.md = 4 → f.sub = 0 → IntGives (.idot4 f) (one fun ws => dotSum true true (word ws 0) (word ws 1) (word ws 2))) ∧
    (f.md = 5 → f.sub = 0 → IntGives (.idot4 f) (one fun ws => dotSum false false (word ws 0) (word ws 1) (word ws 2))) ∧
    (f.md = 4 → f.sub = 1 → IntGives (.idot4 f) (one fun ws => dotSum true false (word ws 0) (word ws 1) (word ws 2)))

/-- A residue is the value modulo 15, and a pair's that of its halves' sum. Code 15 is never generated: no word that an integer, logic or
floating-point instruction, IADDC, a regenerated result, a new poison word, the array, or the data of a load or an atomic gives carries it,
and writing a destination, a tile, or what comes back for lanes, with words that do not, brings it into no register. A word that carries it
fails the check of its residue (R20, R21). -/
def Obligations.ResiduesOfWords : Prop :=
  (∀ v : Word, (residue v).toNat = v.toNat % 15) ∧ (∀ hi lo : Word, (hi.toNat * 2 ^ 32 + lo.toNat) % 15 = (hi.toNat + lo.toNat) % 15) ∧
  (∀ v : Word, (mkWord v).res ≠ 15 ∧ (badWord v).res ≠ 15) ∧ (∀ wide v, ∀ w ∈ freshWords wide v, w.res ≠ 15) ∧
  (∀ i a, (integerAlu i = some a ∨ floatAlu i = some a) → ∀ s x srcs, ∀ w ∈ (a.fn s x srcs).1, w.res ≠ 15) ∧
  (∀ c vs w, firstBad vs.flatten = none → (addCarry c vs).1 = .ok w → w.res ≠ 15) ∧
  (∀ (i : Item) (m : MemWord) w, i.got = some (.mem m) → i.value = .ok w → w.res ≠ 15) ∧
  (∀ (s : State) x code outs made, (∀ o ∈ outs, ∀ w, .ok w ∈ o.2 → w.res ≠ 15) → No15 s → No15 (s.writeDst x code outs made)) ∧
  (∀ (s : State) x outs, (∀ o ∈ outs, ∀ k w, o.res = .inr (k, .ok w) → w.res ≠ 15) → No15 s → No15 (s.tileWrite x outs)) ∧
  (∀ (s : State) e g w f fl pc items, (∀ i ∈ items, ∀ r, i.got = some (.reg r) → r.res ≠ 15) → No15 s →
    No15 (s.writeItems e g w f fl pc items)) ∧
  (∀ (o : MatrixOp) kk t run, ∀ w ∈ (o.stepTile kk t run).2.1, w.res ≠ 15) ∧
  (∀ (w : RegWord) a, w.res = 15 → w.poison = false → ∃ d, checkWord (.ok w) a = .new cRESIDUE a d)

/-- R98: NOP leaves everything that it finds but its lanes' PCs, and is executed as often as its repeat says; 0x03E3E000 is its word, and
0x00000000 is not an instruction. -/
def Obligations.NopChangesOnlyPc : Prop :=
  (∃ f, decodeAny [0x03E3E000] = some (.nop f)) ∧ decodeAny [0] = none ∧
  ∀ s p q f, Issuing s p q 0x00 f →
    ∃ t, exec (.nop f) s = .next t ∧ Agree t (s.start p f) ∧ ∀ l ∈ lanesOf p.mask, (s.predAt p l f.pg.toNat).bad = none →
      (t.laneAt p.g p.w p.f l).preds = (s.laneAt p.g p.w p.f l).preds ∧
      (t.laneAt p.g p.w p.f l).st = .active ∧
      (t.laneAt p.g p.w p.f l).pc = nextPc (s.exOf p 0x00 f) [] l ∧
      (t.laneAt p.g p.w p.f l).rep = p.rep.bind (fun r => if r.2 < r.1.rep.toNat then some (r.1, r.2 + 1) else none)

/-- R390: the records of a ring from its clearing on. The first sixteen stand in order; each later one turns entry 15 into an
OVERFLOW record that counts those not kept and joins their flags; RIDX stops at 15, which later poison words carry. -/
def Obligations.RecordsFillTheRing : Prop :=
  ∀ (x : Fibre) (rs : List Cart), x.ring = List.replicate 16 {} → ridxOf x.fstat = 0 →
    (∀ r ∈ rs, r.cause ≠ 0 ∧ r.cause ≠ BitVec.ofNat 8 cOVERFLOW) →
    let y := rs.foldl ringPut x
    ridxOf y.fstat = min rs.length 15 ∧ nextRing y = min rs.length 15 ∧
    (∀ i, i < 15 → y.ring.getD i {} = rs.getD i {}) ∧
    (rs.length = 16 → y.ring.getD 15 {} = rs.getD 15 {}) ∧
    (16 < rs.length → (y.ring.getD 15 {}).cause = BitVec.ofNat 8 cOVERFLOW ∧ (y.ring.getD 15 {}).unit = 0xFF ∧
      (y.ring.getD 15 {}).detail.toNat = min (rs.length - 15) 0xFFFFFFFF ∧
      (y.ring.getD 15 {}).flags = (rs.drop 15).foldl (fun m r => m ||| r.flags) 0)

/-- A frozen fibre (R26, R182, R183): its cause, PC and instruction word are recorded, its quarantine is discarded, and its group failed;
its registers, predicates, PCs and FSTAT keep their values, memory is unchanged, and it can issue no more. -/
def Obligations.FreezeStopsTheFibre : Prop :=
  ∀ (s : State) (p : Path) (c : Nat), (s.group? p.g).isSome = true → p.w < (s.groupAt p.g).warps.length →
    p.f < (s.warpAt p.g p.w).fibres.length → (s.groupAt p.g).barOps = [] →
    let t := s.freezePath p c
    let y := t.fibreAt p.g p.w p.f
    y.frozen = some { cause := BitVec.ofNat 8 c, pc := p.pc, word := p.word } ∧ y.quar = [] ∧
    y.fstat = (s.fibreAt p.g p.w p.f).fstat ∧ (t.groupAt p.g).failed = true ∧ t.fibreOpen p.g p.w p.f = false ∧
    RegsSame s t ∧ UregsSame s t ∧ PredsSame s t ∧ t.mem = s.mem ∧
    ∀ l, (t.laneAt p.g p.w p.f l).pc = (s.laneAt p.g p.w p.f l).pc

/-- Errors of control flow freeze (R99 to R101, R182; log 16 where lanes differ), and so does a register outside the window (R168): BRU and LOOP on a
poisoned word, with its cause; JMX and RET to a misaligned target; an integer or floating-point instruction outside its
window. -/
def Obligations.ControlErrorsFreeze : Prop :=
  (∀ s p q f w, Issuing s p q 0x02 f → f.b ≠ 0xF8 → let x := s.exOf p 0x02 f
    bruReady x (s.start p f) = true → (s.start p f).readCode x f.b 0 x.low = .ok w → w.poison = true →
    exec (.bru f) s = .next ((s.settle p.g p.w p.f).freezePath p (causeOf w.val))) ∧
  (∀ s p q f w, Issuing s p q 0x09 f → let x := s.exOf p 0x09 f
    (s.start p f).posReady x x.k.d f.d false = true → (s.start p f).readCode x f.d 0 x.low = .ok w → w.poison = true →
    exec (.loop f) s = .next ((s.settle p.g p.w p.f).freezePath p (causeOf w.val))) ∧
  (∀ s p q f, Issuing s p q 0x03 f → let x := s.exOf p 0x03 f
    (s.start p f).ready x { b := false, c := false } = true →
    (∃ r ∈ jumpTargets x (s.start p f), r.2.extractLsb' 0 2 ≠ 0) → exec (.jmx f) s = .next ((s.settle p.g p.w p.f).freezePath p cMISALIGN)) ∧
  (∀ s p q f, Issuing s p q 0x05 f → let x := s.exOf p 0x05 f
    (s.start p f).ready x { b := false, c := false } = true →
    (∃ r ∈ jumpTargets x (s.start p f), r.2.extractLsb' 0 2 ≠ 0) → exec (.ret f) s = .next ((s.settle p.g p.w p.f).freezePath p cMISALIGN)) ∧
  (∀ i a, (integerAlu i = some a ∨ floatAlu i = some a) → ∀ s p q, s.turn = .issue p q →
    windowOk (s.pathFibre p) a.op (s.exOf p a.op a.f).k a.f = false → exec i s = .next (s.freezePath p cILLEGAL))

/-- R100: BRU sends every participant to its target where it has no source, or where its source, exclusive-or SUB[28], is true,
and on otherwise; a poisoned source freezes the fibre with its cause. An access processor does the same, and stops instead of
freezing. A source is uniform. -/
def Obligations.BranchOnUniform : Prop :=
  (∀ f, (Instr.bru f).wellFormed = true → f.b = 0xF8 ∨ (0xC0 ≤ f.b.toNat ∧ f.b.toNat < 0xF0)) ∧
  (∀ s p q f, Issuing s p q 0x02 f → let x := s.exOf p 0x02 f
    let c := (s.start p f).readCode x f.b 0 x.low
    let goes := fun (taken : Bool) => ∃ t, exec (.bru f) s = .next t ∧ Agree t (s.start p f) ∧ ∀ l ∈ x.parts,
      (t.laneAt p.g p.w p.f l).pc = if taken then pcOf (branchTarget x) else nextPc x [] l
    (f.b = 0xF8 → goes true) ∧
    (f.b ≠ 0xF8 → bruReady x (s.start p f) = true → ∀ w, c = .ok w →
      (w.poison = false → goes ((w.val != 0) != f.sub.getLsbD 0)) ∧
      (w.poison = true → exec (.bru f) s = .next ((s.settle p.g p.w p.f).freezePath p (causeOf w.val))))) ∧
  (∀ s g n f, s.turn = .access g n → s.walksOut g (s.apAt g n).ownerW (4 + n) (s.apAt g n).spc = false → let x := apEx s g n 0x02 f
    let c := s.readCode x f.b 0 0
    let goes := fun (taken : Bool) => exec (.bru f) s = .next { ((s.walksUsed g (s.apAt g n).ownerW (4 + n) (s.apAt g n).spc).modAp g n
      (fun a => if a.st == .running then { a with spc := if taken then branchTarget x else x.next } else a)).wake with turn := .choose }
    (f.b = 0xF8 → goes true) ∧
    (f.b ≠ 0xF8 → bruReady x s = true → ∀ w, c = .ok w →
      (w.poison = false → goes ((w.val != 0) != f.sub.getLsbD 0)) ∧
      (w.poison = true → exec (.bru f) s = .next { s.stopAp g n with turn := .choose })))

/-- RGNO in an open region changes nothing that it finds but the PC (R410). -/
def Obligations.RegionsFlatten : Prop :=
  ∀ s p q f, Issuing s p q 0xE0 f → (s.fibreAt p.g p.w p.f).inRegion = true →
    ∃ t, exec (.rgno f) s = .next t ∧ Agree t (s.start p f) ∧ ∀ l ∈ lanesOf p.mask, (s.predAt p l f.pg.toNat).bad = none →
      (t.laneAt p.g p.w p.f l).st = .active ∧ (t.laneAt p.g p.w p.f l).pc = nextPc (s.exOf p 0xE0 f) [] l

/-- FSTART of a startable fibre (R189): its lanes are active at its entry with AGE 0, its FSTAT is 0, its views are the
kernel's, s0:s1 hold the parameters, and its predicates are kept; D, a vector register, receives 1, and memory is unchanged. -/
def Obligations.FstartStartsTheFibre : Prop :=
  ∀ s p q f, Issuing s p q 0x08 f → let x := s.exOf p 0x08 f; let n := f.sub.toNat % 4
    f.d.toNat < 0xC0 → (s.start p f).coreRelease x true = true →
    fstartCan x (s.start p f) = true → n ≠ p.f →
    ∃ t, exec (.fstart f) s = .next t ∧
      let y := t.fibreAt p.g p.w n
      let v := (s.groupAt p.g).views.getD n []
      (∀ l, l < (s.fibreAt p.g p.w n).lanes.length → (t.laneAt p.g p.w n l).st = .active ∧
        (t.laneAt p.g p.w n l).pc = (s.fibreAt p.g p.w n).entry.getD 0 ∧ (t.laneAt p.g p.w n l).age = 0 ∧
        (t.laneAt p.g p.w n l).preds = (s.laneAt p.g p.w n l).preds) ∧
      y.fstat = 0 ∧ y.vvec = v.getD 0 0 ∧ y.vtile = v.getD 1 0 ∧ y.vacc = v.getD 2 0 ∧ y.win = v.getD 3 0 ∧
      t.uregAt p.g p.w n 0 = mkWord ((s.groupAt p.g).params.extractLsb' 0 32) ∧
      t.uregAt p.g p.w n 1 = mkWord ((s.groupAt p.g).params.extractLsb' 32 32) ∧
      (∀ l ∈ x.parts, (t.regAt p.g p.w (vecPlace (s.start p f) x l 0)).val = 1) ∧ t.mem = s.mem

/-- A barrier that has its arrivals completes (R201): CNT less EXP is carried, EXP loses what was dropped, the phase advances
and the arrived bits are clear; every lane that waited for an earlier phase is active; memory and registers are unchanged. -/
def Obligations.BarrierCompletes : Prop :=
  ∀ (s : State) (g n : Nat), (s.group? g).isSome = true → n < (s.groupAt g).bars.length →
    (s.barAt g n).exp ≠ 0 → (s.barAt g n).exp ≤ (s.barAt g n).cnt → (s.barAt g n).cnt ≤ 65535 →
    ∃ t, exec (.barrierRepeatCompletion g n) s = .next t ∧
      (t.barAt g n).cnt = (s.barAt g n).cnt - (s.barAt g n).exp ∧ (t.barAt g n).exp = (s.barAt g n).exp - (s.barAt g n).drop ∧
      (t.barAt g n).drop = 0 ∧ (t.barAt g n).phase = (s.barAt g n).phase + 1 ∧ (t.barAt g n).arr = [] ∧
      (∀ w f l tok, (s.laneAt g w f l).st = .waiting (.bar n tok) → tok ≠ (s.barAt g n).phase + 1 → (t.laneAt g w f l).st = .active) ∧
      (∀ m, m ≠ n → t.barAt g m = s.barAt g m) ∧ t.mem = s.mem ∧ RegsSame s t ∧ UregsSame s t

/-- STS outside a region (R259) leaves every scratchpad word as it was but those its participants address, all of device
memory, every register and predicate. -/
def Obligations.ScratchpadStoreFrame : Prop :=
  ∀ s p q f, Issuing s p q 0x83 f → let x := s.exOf p 0x83 f; let s' := s.start p f; let n := tySize f.md
    stsReady x s' = true → (s.fibreAt p.g p.w p.f).inRegion = false →
    ∃ t, exec (.sts f) s = .next t ∧
      (∀ g i, (∀ l a off h, (l, Loc.sp a g off) ∈ s'.spLocs x x.parts n → h < max 1 (n / 4) → i ≠ (off + 4 * h) / 4) →
        t.spAt g i = s.spAt g i) ∧
      t.mem = s.mem ∧ t.bad = s.bad ∧ RegsSame s' t ∧ UregsSame s t ∧ PredsSame s t

/-- ST outside a region (R124, R247, R250): device memory, its poison and its owners are unchanged, since the words go to the
core's L1, or on their way to the home; only translation can change memory, where a line stands under another key than the page's
(the model's choice, log 10), and without keys it changes none; in every L1 each word but those addressed is unchanged, or has left this core's L1 to
make room; scratchpads, registers and predicates are unchanged. -/
def Obligations.StoreFrame : Prop :=
  ∀ s p q f, Issuing s p q 0x81 f → let x := s.exOf p 0x81 f; let s' := s.start p f; let n := tySize f.md
    storeReady false x s' = true → (s.fibreAt p.g p.w p.f).inRegion = false →
    (storeOut false x s').walksOut p.g p.w p.f p.pc = false →
    ∃ t, exec (.st f) s = .next t ∧ t.mem = (storeLocs false x s').2.mem ∧
      (s.lineKeys = [] → (∀ enc, s.keyFor (x.ctx s) enc = 0) → t.mem = s.mem) ∧ t.bad = s.bad ∧ t.owners = s.owners ∧
      (∀ c wa, (∀ l va dpa uc h, (l, Loc.mem va dpa uc) ∈ (storeLocs false x s').1 → h < max 1 (n / 4) → wa ≠ dpa / 4 + h) →
        t.l1At c wa = s'.l1At c wa ∨ (s.agent c = s.agent (x.core s) ∧ t.l1At c wa = none)) ∧
      (∀ g i, t.spAt g i = s.spAt g i) ∧ RegsSame s' t ∧ UregsSame s t ∧ PredsSame s t

/-- A registration that arrives at a home with no transaction on its line makes its core the owner of its words, and of no
other, where the registry has an entry for the line; where its set is full it is held until another line's has been back-invalidated, and
no owner changes yet (R249 to R251, R448, R451). Device memory is unchanged. Which lines share a set is open (log 9), and so is which is
back-invalidated; that a plain REV's arrival is waited for is the model's inference (log 33). -/
def Obligations.RegistrationMakesOwner : Prop :=
  ∀ (s t : State) (n : Nat) (m : Msg), s.takeMsg n = some (m, t) → m.kind = .reg false →
    t.holds.find? (fun h => h.lines.contains m.line) = none →
    ∃ u, exec (.reg n) s = .next u ∧ u.mem = s.mem ∧
      (s.fullSet m.line = [] → ∀ wa, u.ownerOf wa = if wa ∈ lineWas m.line m.mask then some m.core else s.ownerOf wa) ∧
      (s.fullSet m.line ≠ [] → u.owners = s.owners ∧ ∃ h ∈ u.holds, m.line ∈ h.lines ∧ m ∈ h.held)

/-- SYSC whose block can be read, and whose fibre's earlier work is released, sends a request with the block's 64 bytes and its
lanes to Denuf, and waits (R489, R490). -/
def Obligations.SyscSendsRequest : Prop :=
  ∀ s p q f bs, Issuing s p q 0xE5 f → let x := s.exOf p 0xE5 f; let s' := s.start p f
    let v := s'.readCode x f.a 0 x.low
    s'.ready x { b := false, c := false } = true → s'.syscOf x = none → (s'.syscSeen x v).syscBlock x v = .inl bs → s'.relReady p.g p.w p.f = true → s'.sysc.length < 256 →
    ∃ t, exec (.sysc f) s = .next t ∧ t.turn = .choose ∧
      t.sysc = s.sysc ++ [{ id := s.idN, g := p.g, w := p.w, f := p.f, pc := p.pc, lanes := x.parts, block := bs }]

/-- A NaN among the sources of FADD, FMUL, FFMA, FDIV, FSQRT, FRCP, FRSQ, FEX2 or FLG2 in single precision gives the canonical
NaN, with NV where one of them is signalling, and in FFMA where the others are a zero and an infinity; no other flag is set
where every lane has a NaN (R131, R146, R147). -/
def Obligations.NanOperands : Prop :=
  ∀ f : Fields, f.md = 10 → f.sub = 0 → ∀ i ∈ [Instr.fadd f, .fmul f, .ffma f, .fdiv f, .fsqrt f, .frcp f, .frsq f, .fex2 f, .flg2 f],
    ∃ a, floatAlu i = some a ∧ a.GivesWhere i (fun ws => ws.any (fun v => v.any isNaN32))
      (fun ws => ([0x7FC00000], if ws.any (fun v => v.any isSNaN32) || (i == .ffma f && zeroByInf32 (word ws 0) (word ws 1))
        then fNV else 0))

namespace Sys2Proof.Claims

/-- Words of the spec's encodings, each with what it stands for: NOP; FYLD; `IADD v6, v4, -3`; `MOVI v7, -1`; `XFEN.w`; a word
before an instruction that repeats it 32 times and steps A (R74 to R77, R85, R98). -/
def knownWords : List (List Word × Instr) :=
  [([0x03E3E000], .nop { form := .s, d := 0xF8, a := 0xF8, b6 := 0 }),
   ([0x03E3E01C], .fyld { form := .s, d := 0xF8, a := 0xF8, b6 := 0 }),
   ([0xF4101840], .iadd { form := .s, d := 6, a := 4, b6 := 0x3D }),
   ([0xFFFC1D04], .movi { form := .s, d := 7, a := 0xFF, b6 := 0x3F, md := 8 }),
   ([0x03E3E355, 0x1007F8F8], .xfen { form := .m, d := 0xF8, a := 0xF8, b6 := 0, sub := 1 }),
   ([0x0074FBC0], .pfx { sw := false, rep := 31, std := false, sta := true, stb := false, ppg := 7, ppn := false, psp := 0 })]

/-- An event: a step of another agent, which no fetched word stands for. -/
def isEvent (i : Instr) : Bool := i.fields?.isNone && i.sfields?.isNone && (encode i).isEmpty

/-- The words from an address on are fetched, with nothing changed by fetching them. -/
def Fetched (s : State) (core : Nat) (ctx : Byte) (va : DWord) (ws : List Word) : Prop :=
  ws.length = wordsOf (ws.headD 0) ∧
  ∀ k, k < ws.length → s.fetchWord core ctx (va + BitVec.ofNat 64 (4 * k)).toNat = (.word (ws.getD k 0), s)

end Sys2Proof.Claims

/-- The words of the spec's encodings decode to what they stand for. -/
def Obligations.WordsDecode : Prop := ∀ e ∈ knownWords, decodeAny e.1 = some e.2

/-- Decoding what a well-formed instruction is encoded as gives it back, with every operand at every value (R73 to R80, R85,
R92, R355, R356). -/
def Obligations.EncodeThenDecode : Prop := ∀ i : Instr, i.wellFormed = true → encode i ≠ [] → decodeAny (encode i) = some i

/-- Every word list that decodes, as long as its first word says, decodes to a well-formed instruction of which it is the
encoding: no bit is ignored (R92). -/
def Obligations.DecodeThenEncode : Prop :=
  ∀ ws i, ws.length = wordsOf (ws.headD 0) → decodeAny ws = some i → i.wellFormed = true ∧ encode i = ws

/-- A step performs the instruction that stands at the PC of the path whose turn it is, and notes its first word in the path; a word that
is not an instruction freezes the fibre. A word before an instruction is read as such; the instruction after it is fetched from behind it
before its first execution and kept, with the extra values, for the others. The same for a sequencer and an access processor (R28, R92, R93,
R320). Logs 14 and 127. -/
def Obligations.StepRunsDecoded : Prop :=
  (∀ s p q ws, s.turn = .issue p q → p.rep = none → isPfxWord (ws.headD 0) = false →
    Fetched s (s.groupAt p.g).core (s.groupAt p.g).ctx p.pc ws →
    (∀ i, decodeFibre ws = some i → step s = exec i { s with turn := .issue { p with word := ws.headD 0, inst := {} } q }) ∧
    (decodeFibre ws = none → step s = .next (s.freezePath { p with word := ws.headD 0 } cILLEGAL))) ∧
  (∀ s p q w v x, s.turn = .issue p q → p.rep = none → isPfxWord w = true → isPfxWord v = false → decodePfx w = some x →
    s.fetchWord (s.groupAt p.g).core (s.groupAt p.g).ctx p.pc.toNat = (.word w, s) →
    s.fetchWord (s.groupAt p.g).core (s.groupAt p.g).ctx (p.pc + 4).toNat = (.word v, s) →
    step s = exec (.pfx x) { s with turn := .issue { p with word := w, inst := {} } q }) ∧
  (∀ s p q ws i x k, s.turn = .issue p q → p.rep = some (x, k) → k = 0 ∨ p.inst.words = [] →
    Fetched s (s.groupAt p.g).core (s.groupAt p.g).ctx (p.pc + 4) ws → decodeUnder x k ws = some i →
    step s = exec i { s with turn := .issue { p with
      word := ws.headD 0
      inst := if k = 0 then { words := ws, xv := (s.groupAt p.g).xv } else p.inst } q }) ∧
  (∀ s p q i x k, s.turn = .issue p q → p.rep = some (x, k) → k ≠ 0 → p.inst.words ≠ [] → decodeUnder x k p.inst.words = some i →
    step s = exec i { s with turn := .issue { p with word := p.inst.words.headD 0 } q }) ∧
  (∀ s g ws i, s.turn = .stream g → Fetched s (s.groupAt g).core (s.groupAt g).ctx (s.groupAt g).seq.spc ws →
    decodeStream ws = some i → step s = exec i s) ∧
  (∀ s g n ws i, s.turn = .access g n → Fetched s (s.groupAt g).core (s.groupAt g).ctx (s.apAt g n).spc ws →
    decodeAccess ws = some i → step s = exec i s)

/-- No instruction and no data stops the machine: every step goes on, in every state whose calls from outside are events. -/
def Obligations.StepsGoOn : Prop := ∀ s : State, (∀ i ∈ s.agenda, isEvent i = true) → StepGoesOn s

/-- Device memory is in its canonical form after reset. -/
def Obligations.MemoryCanonicalAtReset : Prop := MemoryCanonical State.reset

/-- Every step keeps device memory in its canonical form, whatever it performs. -/
def Obligations.MemoryStaysCanonical : Prop := ∀ s t : State, MemoryCanonical s → step s = .next t → MemoryCanonical t

/-- After reset the board is off, no partition, context, launch or group exists, and the launch, scrub and RAS pages hold the
values the spec gives (R229, R230, R437, R494): LSNNEXT 1, AGEPER 500, REBAL 20, all else 0. That reset is the board off and empty is the
model's choice (logs 3 and 4), and so is what unwritten memory reads as, 0 (log 2). -/
def Obligations.ResetState : Prop :=
  let s := State.reset
  s.boot = .off ∧ s.started = false ∧ s.ctxs = [] ∧ s.groups = [] ∧ s.engine.launches = [] ∧
  s.engine.lectl = 0 ∧ s.engine.qtbase = 0 ∧ s.engine.qtcnt = 0 ∧ s.engine.pnbase = 0 ∧ s.engine.lsnnext = 1 ∧ s.engine.lestat = 0 ∧
  s.engine.ageper = 500 ∧ s.engine.rebal = 20 ∧ s.engine.lectx = 0 ∧
  s.scrub.ctl = 0 ∧ s.scrub.list = 0 ∧ s.scrub.total = 0 ∧ s.scrub.prog = 0 ∧ s.scrub.stat = 0 ∧
  s.ras.base = 0 ∧ s.ras.cnt = 0 ∧ s.ras.head = 0 ∧ s.ras.tail = 0 ∧ s.ras.stat = 0 ∧ s.ras.ce = 0 ∧ s.ras.tr = 0 ∧
  ∀ a, readByte s.mem a = 0

namespace Sys2Proof.Claims

/-- Whether half `h` of a source's word is empty in a lane: a register's, or that of the entry at the head of the hardware queue that a
queue code is mapped to, where its access processor exists and, with no entry, still runs (R24, R206, R315). -/
def emptyWord (s : State) (x : Ex) (code : BitVec 8) (h l : Nat) : Prop :=
  let n := code.toNat - 0xF0
  let q := (x.fibre s).qmap.getD n n
  (code.toNat < 0xF0 ∧ (s.codeWord x code h l).full = false) ∨
  (0xF0 ≤ code.toNat ∧ code.toNat < 0xF8 ∧ ∃ a, (x.group s).aps.find? (fun e => e.1 == q / 8) = some a ∧
    ((sgetD (x.group s).queues q {}).entries = [] ∧ a.2.st ≠ .ended ∧ a.2.st ≠ .stopped ∨
     ∃ e es, (sgetD (x.group s).queues q {}).entries = e :: es ∧ (e.2.getD l {}).full = false))

end Sys2Proof.Claims

/-- R24: what reading a source gives, outside a cycle flagged late (R406). Code 0xF8 is zero, 0xF9 the lane's number, 0xFF the
literal, each full and unpoisoned with its residue; a register, or the head of a queue, gives its word when full; empty, it is
Poison(EMPTY) where it is probed, and otherwise the path waits, with nothing changed: sources are ready except where, in some
participant, a register or queue source that is read under the block policy has an empty word. The issue unit of a late cycle is the model's
inference (log 107). -/
def Obligations.SourcesAreRead : Prop :=
  (∀ (s : State) (x : Ex) (r : Reads), s.ready x r = false ↔
    ∃ e ∈ [(r.a, x.k.a, x.f.a, 0), (r.b, x.k.b, x.f.b, 1), (r.c, x.k.c, x.f.c, 2), (r.d, x.k.d, x.f.d, 2)],
      e.1 = true ∧ Cls.isRegs e.2.1 = true ∧ x.f.sp.getLsbD e.2.2.2 = false ∧
      ∃ l ∈ x.parts, ∃ h, (h = 0 ∨ (h = 1 ∧ Cls.isPair e.2.1 = true)) ∧ emptyWord s x e.2.2.1 h l) ∧
  (∀ (s : State) (x : Ex) (code : BitVec 8) (half lane : Nat), s.lateUnit x = none →
    let r := s.readCode x code half lane
    (code = 0xF8 → r = .ok (mkWord 0)) ∧ (code = 0xF9 → r = .ok (mkWord (BitVec.ofNat 32 lane))) ∧
    (code = 0xFF → r = .ok (mkWord (litWord x.f half))) ∧
    (code.toNat < 0xF0 → r = if (s.codeWord x code half lane).full then .ok (s.codeWord x code half lane)
      else .new cEMPTY 0 (BitVec.ofNat 32 code.toNat)) ∧
    (∀ n a (q : HwQueue) id (head : List RegWord), code.toNat = 0xF0 + n → n < 8 → let h := (x.fibre s).qmap.getD n n
      (x.group s).aps.find? (fun e => e.1 == h / 8) = some a → sget (x.group s).queues h = some q → q.entries = (id, head) :: q.entries.tail →
      r = if (head.getD lane {}).full then .ok (head.getD lane {}) else .new cEMPTY 0 (BitVec.ofNat 32 code.toNat))) ∧
  (∀ v, (mkWord v).val = v ∧ (mkWord v).full = true ∧ (mkWord v).poison = false ∧ (mkWord v).res = residue v) ∧
  (∀ i a, (integerAlu i = some a ∨ floatAlu i = some a) → ∀ s p q, Issuing s p q a.op a.f →
    (s.start p a.f).ready (s.exOf p a.op a.f) {} = false → exec i s = .next ((s.settle p.g p.w p.f).blockPath p) ∧ Agree ((s.settle p.g p.w p.f).blockPath p) (s.settle p.g p.w p.f))

/-- Work of ACZ that the array completes leaves +0 in every element of its accumulators not yet written, full unless a later operation in
flight still writes it; other registers, predicates and memory keep their values (R321, R359). -/
def Obligations.AczClearsAccumulators : Prop :=
  ∀ (s : State) (g : Nat) (o : MatrixOp) (rest : List MatrixOp), (s.group? g).isSome = true → (s.groupAt g).seq.ops = o :: rest → o.acz = true →
    o.outs = [] → o.w < (s.groupAt g).warps.length →
    ∃ t, exec (.matrixComplete g) s = .next t ∧
      (∀ a ∈ o.accs.drop o.pos, ∀ i, i < 256 → let w := t.regAt g o.w (a + i)
        w.val = 0 ∧ w.poison = false ∧ w.res = 0 ∧
        ((∀ m ∈ rest, m.w = o.w → ∀ b ∈ m.accs, a + i < b ∨ b + 256 ≤ a + i) → w.full = true)) ∧
      (∀ j w i, (∀ a ∈ o.accs, (j, w) ≠ (g, o.w) ∨ i < a ∨ a + 256 ≤ i) → t.regAt j w i = s.regAt j w i) ∧
      (t.groupAt g).seq.ops.length = rest.length ∧ UregsSame s t ∧ PredsSame s t ∧ t.mem = s.mem

namespace Sys2Proof.Claims

/-- What a register word receives of an item of execution `id`: the bytes that have come, with those of the fibre's held stores in their
places, extended by the type, unpoisoned, with the residue of the value; Poison(ECC) of a word in the poison line state unless held stores
give every byte; the poison of a lane that failed; each with the word of the record that the execution has already made for the cause, if any;
and a register word that was found at issue as it was found. -/
def Receives (s : State) (id : Nat) (p : Prod) (i : Item) (r : RegWord) : Prop :=
  let poisoned := fun (c : Nat) => r.poison = true ∧ r.res = residue r.val ∧
    (match sget (s.tallyOf id p.g p.w p.f).made c with
      | some v => r.val = v
      | none => causeOf r.val = c % 256)
  match i.got with
  | some (.mem m) =>
    let all := (List.range (min 4 (tySize i.ty))).all (fun j => (i.held.getD j none).isSome)
    if m.bad && !all then poisoned cECC
    else r.poison = false ∧ r.res = residue r.val ∧ r.val = extendTy i.ty (overlay i.held (m.val >>> (8 * i.off)))
  | some (.fail c _ _) => poisoned c
  | some (.reg w) => r.val = w.val ∧ r.poison = w.poison ∧ r.res = w.res
  | none => True

end Sys2Proof.Claims

/-- Data that has come back for lanes of a load, an atomic or a lane exchange fills its vector and uniform registers, with their full tags
(R19, R95, R123, R264, R267): an atomic's all at once, when the last has come; where an acquire ends with it, that waits for the fibre's
earlier loads, with nothing written (R269), and then drops every Valid word of its core's L1. Other registers and memory keep their
values. What an LDQ has read fills its entry in the queue, and no entry comes or goes (R315). That a release seen through registers holds an
acquire is the model's inference (log 144), and so are one record for one execution (log 120) and counting (log 121). -/
def Obligations.LoadDataFillsRegisters : Prop :=
  (∀ (s : State) (id : Nat) (lanes : Word) (p : Prod), s.prods.find? (fun p => p.id == id) = some p → p.kind ≠ .copy →
    let now : List Item := p.items.filter (fun i => i.got.isSome &&
      (p.kind == .atom || lanes.getLsbD (if i.lane < 32 then i.lane else 0)))
    (now.map (·.dst)).Nodup → (s.group? p.g).isSome = true →
    ∃ t, exec (.loadDataReturn id lanes) s = .next t ∧ t.mem = s.mem ∧
      (s.mayDeliver p lanes = false → RegsSame s t ∧ UregsSame s t ∧ t.prods = s.prods) ∧
      (s.mayDeliver p lanes = true →
        (∀ i ∈ now, i.count = false →
          (∀ w o, i.dst = .vec p.g w o → w < (s.groupAt p.g).warps.length →
            (t.regAt p.g w o).full = true ∧ Receives s id p i (t.regAt p.g w o)) ∧
          (∀ w f n, i.dst = .uni p.g w f n → w < (s.groupAt p.g).warps.length → f < (s.warpAt p.g w).fibres.length →
            (t.uregAt p.g w f n).full = true ∧ Receives s id p i (t.uregAt p.g w f n))) ∧
        (∀ g w o, (∀ i ∈ now, i.dst ≠ .vec g w o) → t.regAt g w o = s.regAt g w o) ∧
        (∀ g w f n, (∀ i ∈ now, i.dst ≠ .uni g w f n) → t.uregAt g w f n = s.uregAt g w f n) ∧
        (p.acq = true → now.length = p.items.length → ∀ wa x, t.l1At p.core wa = some x → x.st ≠ .valid))) ∧
  (∀ (s : State) (id : Nat) (p : Prod), p.acq = true → p.kind ≠ .atom → s.prods.find? (fun p => p.id == id) = some p →
    (∀ i ∈ p.items, i.got.isSome = true) → (s.mayDeliver p 0xFFFFFFFF = true ↔
      s.dataBefore p.g p.w p.f p.id = true ∧ s.handedOver p.g p.w (s.fibreAt p.g p.w p.f).after = true)) ∧
  (∀ (s : State) (id : Nat) (lanes : Word) (p : Prod), s.prods.find? (fun p => p.id == id && p.kind == .copy) = some p →
    s.askAll id 32 = s → (p.items.map (·.dst)).Nodup → (s.group? p.g).isSome = true →
    ∃ t, exec (.queueEntryFill id lanes) s = .next t ∧ t.mem = s.mem ∧ RegsSame s t ∧ UregsSame s t ∧
      ∀ h, ((sgetD (t.groupAt p.g).queues h {}).entries.map (·.1)) = ((sgetD (s.groupAt p.g).queues h {}).entries.map (·.1)) ∧
        ∀ i ∈ p.items, !i.unasked = true → lanes.getLsbD i.lane = true → i.got.isSome = true → ∀ e l, i.dst = .queue p.g h e l →
          ∀ en ∈ (sgetD (t.groupAt p.g).queues h {}).entries, en.1 = e → l < en.2.length →
            (en.2.getD l {}).full = true ∧ Receives s id p i (en.2.getD l {}))


namespace Sys2Proof.Claims

/-- The instructions of a fibre, each with its opcode and fields. -/
def fibreInstr (i : Instr) : Option (Nat × Fields) :=
  let e := [(integerAlu i).map Alu.fx, (floatAlu i).map Alu.fx, predicateFx i, moveFx i, controlFx i, memoryFx i, tileFx i, engineFx i,
    syncFx i].findSome? id
  e.map (fun e => (e.op, e.f))

/-- The registers that an instruction names: (0 tiles, 1 accumulators, 2 vector registers; the first; how many). -/
def namedRegs (op : Nat) (k : OpSpec) (f : Fields) : List (Nat × Nat × Nat) :=
  [(k.d, f.d), (k.a, f.a), (k.b, f.b), (k.c, f.c)].filterMap (fun e =>
    if Cls.isRegs e.1 && decide (e.2.toNat < 0xC0) then some (2, e.2.toNat, if Cls.isPair e.1 then 2 else 1) else none)
    ++ namedRanges op f

/-- The bytes that registers take: the first, and how many (R167). -/
def regBytes (y : Fibre) (r : Nat × Nat × Nat) : Nat × Nat :=
  let size := fun (v : Word) (n : Nat) => (16 * (v.toNat % 65536) + n * r.2.1, n * r.2.2)
  let fmt := y.vtile.toNat / 65536 % 8
  match r.1 with
  | 0 => size y.vtile (if fmt ≤ 1 then 144 else if fmt ≤ 3 then 272 else 528)
  | 1 => size y.vacc 1024
  | _ => size y.vvec 128

end Sys2Proof.Claims

/-- R168: whatever its guard, an instruction that names a register with a byte outside the fibre's window freezes the fibre with
cause ILLEGAL; only the registers that it names are tested. With VVEC.OFF 0 and a window of 6 KiB, v0 to v47 are usable, and
naming v48 freezes the fibre. -/
def Obligations.WindowIsTested : Prop :=
  (∀ i op f, fibreInstr i = some (op, f) → ∀ s p q, s.turn = .issue p q →
    let y := s.pathFibre p
    (∃ r ∈ namedRegs op (s.exOf p op f).k f, let b := regBytes y r
      b.1 < 2048 * (y.win.toNat % 512) ∨ 2048 * (y.win.toNat % 512) + 2048 * (y.win.toNat / 65536 % 512) < b.1 + b.2) →
    exec i s = .next (s.freezePath p cILLEGAL)) ∧
  (∀ s p q op f, Issuing s p q op f → let y := s.pathFibre p
    ∀ r ∈ namedRegs op (s.exOf p op f).k f, let b := regBytes y r
      2048 * (y.win.toNat % 512) ≤ b.1 ∧ b.1 + b.2 ≤ 2048 * (y.win.toNat % 512) + 2048 * (y.win.toNat / 65536 % 512)) ∧
  (∀ (y : Fibre) op k f, (∀ r ∈ namedRegs op k f, let b := regBytes y r
      2048 * (y.win.toNat % 512) ≤ b.1 ∧ b.1 + b.2 ≤ 2048 * (y.win.toNat % 512) + 2048 * (y.win.toNat / 65536 % 512)) →
    windowOk y op k f = true) ∧
  (∀ (y : Fibre) n, y.vvec = 0 → y.win = 0x30000 → (rangeIn y (2, n, 1) = true ↔ n < 48))

/-- An instruction that no lane of its path takes part in, some lane's guard being false, changes nothing that it finds, once no fence holds
it: its lanes with an
unpoisoned guard move past it (R29, R30, R191). -/
def Obligations.GuardedOffDoesNothing : Prop :=
  ∀ i op f, fibreInstr i = some (op, f) → ∀ s p q, s.turn = .issue p q → windowOk (s.pathFibre p) op (s.exOf p op f).k f = true →
    s.partsOf p f = [] → (∃ l ∈ lanesOf p.mask, (s.predAt p l f.pg.toNat).bad = none) →
    s.late = none → (s.group? p.g).isSome = true → p.w < (s.groupAt p.g).warps.length → p.f < (s.warpAt p.g p.w).fibres.length →
    (∀ l ∈ lanesOf p.mask, (s.laneAt p.g p.w p.f l).st = .active) → (s.groupAt p.g).barOps = [] →
    (s.fibreAt p.g p.w p.f).frozen = none → (s.settle p.g p.w p.f).fenceHolds p.g p.w p.f op = false →
    ∃ t, exec i s = .next t ∧ Agree t (s.start p f) ∧ ∀ l ∈ lanesOf p.mask, (s.predAt p l f.pg.toNat).bad = none →
      (t.laneAt p.g p.w p.f l).st = .active ∧ (t.laneAt p.g p.w p.f l).pc = nextPc (s.exOf p op f) [] l
end

