-- ==== Sys2Proof/Laws/Sparse.lean ====
section
/-! SUPPORT. Laws of sparse tables and device memory: a read after a write, and that every operation keeps the canonical
form. -/

namespace Sys2Proof.Machine

/-! Reads after writes. -/

@[simp] theorem sget_nil {α : Type} (k : Nat) : sget ([] : Sparse α) k = none := rfl

theorem sget_cons {α : Type} (k' k : Nat) (v : α) (m : Sparse α) :
    sget ((k', v) :: m) k = if k' = k then some v else sget m k := rfl

theorem sget_sput_same {α : Type} (m : Sparse α) (k : Nat) (v : α) : sget (sput m k v) k = some v := by
  induction m with
  | nil => simp [sput, sget_cons]
  | cons e r ih =>
    obtain ⟨k', v'⟩ := e
    unfold sput
    by_cases h : k < k'
    · simp [h, sget_cons]
    · by_cases h2 : k = k'
      · simp [h2, sget_cons]
      · simp [h, h2, sget_cons, ih, Ne.symm h2]

theorem sget_sput_ne {α : Type} (m : Sparse α) (k j : Nat) (v : α) (h : j ≠ k) : sget (sput m k v) j = sget m j := by
  induction m with
  | nil => simp [sput, sget_cons, Ne.symm h]
  | cons e r ih =>
    obtain ⟨k', v'⟩ := e
    unfold sput
    by_cases h1 : k < k'
    · simp [h1, sget_cons, Ne.symm h]
    · by_cases h2 : k = k'
      · subst h2; simp [sget_cons, Ne.symm h]
      · simp [h1, h2, sget_cons, ih]

@[simp] theorem sget_sput {α : Type} (m : Sparse α) (k j : Nat) (v : α) :
    sget (sput m k v) j = if j = k then some v else sget m j := by
  by_cases h : j = k
  · subst h; simp [sget_sput_same]
  · simp [h, sget_sput_ne m k j v h]

@[simp] theorem sget_sdel {α : Type} (m : Sparse α) (k j : Nat) :
    sget (sdel m k) j = if j = k then none else sget m j := by
  induction m with
  | nil => simp [sdel]
  | cons e r ih =>
    obtain ⟨k', v'⟩ := e
    unfold sdel
    by_cases h : k = k'
    · subst h
      by_cases hj : j = k
      · subst hj; simpa using ih
      · simp [ih, hj, sget_cons, Ne.symm hj]
    · by_cases hj : j = k
      · subst hj; simp [h, sget_cons, ih, Ne.symm h]
      · simp [h, hj, sget_cons, ih]

@[simp] theorem sget_smod {α : Type} (m : Sparse α) (k j : Nat) (f : α → α) :
    sget (smod m k f) j = if j = k then (sget m k).map f else sget m j := by
  induction m with
  | nil => simp [smod]
  | cons e r ih =>
    obtain ⟨k', v'⟩ := e
    unfold smod
    by_cases h : k = k'
    · subst h
      by_cases hj : j = k
      · simp [hj, sget_cons]
      · simp [hj, sget_cons, Ne.symm hj]
    · by_cases hj : j = k
      · subst hj; simp [h, sget_cons, ih, Ne.symm h]
      · simp [h, hj, sget_cons, ih]

@[simp] theorem sgetD_sput {α : Type} (m : Sparse α) (k j : Nat) (v d : α) :
    sgetD (sput m k v) j d = if j = k then v else sgetD m j d := by
  unfold sgetD
  by_cases h : j = k <;> simp [h]

@[simp] theorem sgetD_ssetD {α : Type} [DecidableEq α] (m : Sparse α) (k j : Nat) (v d : α) :
    sgetD (ssetD m k v d) j d = if j = k then v else sgetD m j d := by
  unfold ssetD
  by_cases hv : v = d
  · by_cases h : j = k <;> simp [hv, h, sgetD]
  · simp [hv]

@[simp] theorem sgetD_nil {α : Type} (j : Nat) (d : α) : sgetD ([] : Sparse α) j d = d := rfl

@[simp] theorem readByte_writeByte (m : Sparse Byte) (a b : Nat) (v : Byte) :
    readByte (writeByte m a v) b = if b = a then v else readByte m b := by
  simp [readByte, writeByte]

theorem readByte_writeBytes_out (bs : List Byte) (m : Sparse Byte) (a b : Nat) (h : b < a ∨ a + bs.length ≤ b) :
    readByte (writeBytes m a bs) b = readByte m b := by
  induction bs generalizing m a with
  | nil => rfl
  | cons c r ih =>
    simp only [List.length_cons] at h
    rw [writeBytes, ih]
    · rw [readByte_writeByte, if_neg (by omega)]
    · omega

theorem readByte_writeBytes_in (bs : List Byte) (m : Sparse Byte) (a i : Nat) (h : i < bs.length) :
    readByte (writeBytes m a bs) (a + i) = bs.getD i 0 := by
  induction bs generalizing m a i with
  | nil => simp at h
  | cons c r ih =>
    rw [writeBytes]
    cases i with
    | zero => rw [readByte_writeBytes_out _ _ _ _ (by omega)]; simp
    | succ i =>
      simp only [List.length_cons] at h
      rw [show a + (i + 1) = (a + 1) + i by omega, ih _ _ _ (by omega)]
      simp

/-! Canonical form. -/

/-- Every key of a table is at least `k`. -/
def allAbove {α : Type} (k : Nat) (m : Sparse α) : Prop := ∀ e ∈ m, k < e.1

theorem rising_cons {α : Type} (k : Nat) (v : α) (m : Sparse α) :
    rising ((k, v) :: m) = true ↔ allAbove k m ∧ rising m = true := by
  induction m generalizing k v with
  | nil => simp [rising, allAbove]
  | cons e r ih =>
    obtain ⟨k', v'⟩ := e
    rw [rising, Bool.and_eq_true, decide_eq_true_iff, ih]
    constructor
    · rintro ⟨h, ha, hr⟩
      refine ⟨?_, ha, hr⟩
      intro e he
      rcases List.mem_cons.1 he with rfl | he
      · exact h
      · exact Nat.lt_trans h (ha e he)
    · rintro ⟨h, ha, hr⟩
      exact ⟨h _ (List.mem_cons_self ..), ha, hr⟩

theorem mem_sput {α : Type} (m : Sparse α) (k : Nat) (v : α) (e : Nat × α) (h : e ∈ sput m k v) : e = (k, v) ∨ e ∈ m := by
  induction m with
  | nil => simp [sput] at h; exact .inl h
  | cons x r ih =>
    obtain ⟨k', v'⟩ := x
    unfold sput at h
    split at h
    · rcases List.mem_cons.1 h with rfl | h
      · exact .inl rfl
      · exact .inr h
    · split at h
      · rcases List.mem_cons.1 h with rfl | h
        · exact .inl rfl
        · exact .inr (List.mem_cons_of_mem _ h)
      · rcases List.mem_cons.1 h with rfl | h
        · exact .inr (List.mem_cons_self ..)
        · exact (ih h).imp id (List.mem_cons_of_mem _)

theorem mem_sdel {α : Type} (m : Sparse α) (k : Nat) (e : Nat × α) (h : e ∈ sdel m k) : e ∈ m := by
  induction m with
  | nil => simp [sdel] at h
  | cons x r ih =>
    obtain ⟨k', v'⟩ := x
    unfold sdel at h
    split at h
    · exact List.mem_cons_of_mem _ (ih h)
    · rcases List.mem_cons.1 h with rfl | h
      · exact List.mem_cons_self ..
      · exact List.mem_cons_of_mem _ (ih h)

theorem rising_sput {α : Type} (m : Sparse α) (k : Nat) (v : α) (h : rising m = true) : rising (sput m k v) = true := by
  induction m with
  | nil => rfl
  | cons x r ih =>
    obtain ⟨k', v'⟩ := x
    obtain ⟨ha, hr⟩ := (rising_cons ..).1 h
    unfold sput
    split
    · next hlt =>
      refine (rising_cons ..).2 ⟨?_, h⟩
      intro e he
      rcases List.mem_cons.1 he with rfl | he
      · exact hlt
      · exact Nat.lt_trans hlt (ha e he)
    · split
      · next heq => subst heq; exact (rising_cons ..).2 ⟨ha, hr⟩
      · next h1 h2 =>
        refine (rising_cons ..).2 ⟨?_, ih hr⟩
        intro e he
        rcases mem_sput _ _ _ _ he with rfl | he
        · show k' < k
          omega
        · exact ha e he

theorem rising_sdel {α : Type} (m : Sparse α) (k : Nat) (h : rising m = true) : rising (sdel m k) = true := by
  induction m with
  | nil => rfl
  | cons x r ih =>
    obtain ⟨k', v'⟩ := x
    obtain ⟨ha, hr⟩ := (rising_cons ..).1 h
    unfold sdel
    split
    · exact ih hr
    · exact (rising_cons ..).2 ⟨fun e he => ha e (mem_sdel _ _ _ he), ih hr⟩

theorem rising_filter {α : Type} (m : Sparse α) (p : Nat × α → Bool) (h : rising m = true) : rising (m.filter p) = true := by
  induction m with
  | nil => rfl
  | cons x r ih =>
    obtain ⟨k', v'⟩ := x
    obtain ⟨ha, hr⟩ := (rising_cons ..).1 h
    rw [List.filter_cons]
    split
    · exact (rising_cons ..).2 ⟨fun e he => ha e (List.mem_filter.1 he).1, ih hr⟩
    · exact ih hr

theorem canon_iff {α : Type} [DecidableEq α] (m : Sparse α) (d : α) :
    canon m d = true ↔ rising m = true ∧ ∀ e ∈ m, e.2 ≠ d := by
  unfold canon
  rw [Bool.and_eq_true, List.all_eq_true]
  constructor
  · rintro ⟨h, ha⟩
    exact ⟨h, fun e he => by simpa using ha e he⟩
  · rintro ⟨h, ha⟩
    exact ⟨h, fun e he => by simpa using ha e he⟩

theorem canon_ssetD {α : Type} [DecidableEq α] (m : Sparse α) (k : Nat) (v d : α) (h : canon m d = true) :
    canon (ssetD m k v d) d = true := by
  obtain ⟨hr, hd⟩ := (canon_iff m d).1 h
  unfold ssetD
  split
  · exact (canon_iff ..).2 ⟨rising_sdel _ _ hr, fun e he => hd e (mem_sdel _ _ _ he)⟩
  · next hv =>
    refine (canon_iff ..).2 ⟨rising_sput _ _ _ hr, fun e he => ?_⟩
    rcases mem_sput _ _ _ _ he with rfl | he
    · exact hv
    · exact hd e he

theorem canon_filter {α : Type} [DecidableEq α] (m : Sparse α) (d : α) (p : Nat × α → Bool) (h : canon m d = true) :
    canon (m.filter p) d = true := by
  obtain ⟨hr, hd⟩ := (canon_iff m d).1 h
  exact (canon_iff ..).2 ⟨rising_filter _ _ hr, fun e he => hd e (List.mem_filter.1 he).1⟩

/-- A write of one byte keeps the canonical form of memory. -/
theorem wf_writeByte (m : Sparse Byte) (a : Nat) (v : Byte) (h : Memory.wf m = true) : Memory.wf (writeByte m a v) = true :=
  canon_ssetD m a v 0 h

/-- A write of bytes keeps the canonical form of memory. -/
theorem wf_writeBytes (bs : List Byte) (m : Sparse Byte) (a : Nat) (h : Memory.wf m = true) :
    Memory.wf (writeBytes m a bs) = true := by
  induction bs generalizing m a with
  | nil => exact h
  | cons b r ih => exact ih _ _ (wf_writeByte m a b h)

/-- A write of a word keeps the canonical form of memory. -/
theorem wf_writeWord (m : Sparse Byte) (a : Nat) (v : Word) (h : Memory.wf m = true) : Memory.wf (writeWord m a v) = true :=
  wf_writeBytes _ m a h

/-- Two tables in canonical form that read alike at every key are equal. -/
theorem rising_ext {α : Type} (m n : Sparse α) (hm : rising m = true) (hn : rising n = true)
    (h : ∀ k, sget m k = sget n k) : m = n := by
  induction m generalizing n with
  | nil =>
    cases n with
    | nil => rfl
    | cons e r => obtain ⟨k, v⟩ := e; simpa [sget_cons] using h k
  | cons e r ih =>
    obtain ⟨k, v⟩ := e
    obtain ⟨ha, hr⟩ := (rising_cons ..).1 hm
    have none_low : ∀ (t : Sparse α) (b j : Nat), allAbove b t → j ≤ b → sget t j = none := by
      intro t
      induction t with
      | nil => intros; rfl
      | cons x t iht =>
        intro b j hb hj
        obtain ⟨kx, vx⟩ := x
        have h1 : b < kx := hb _ (List.mem_cons_self ..)
        rw [sget_cons, if_neg (by omega)]
        exact iht b j (fun e he => hb e (List.mem_cons_of_mem _ he)) hj
    cases n with
    | nil => simpa [sget_cons] using h k
    | cons e' r' =>
      obtain ⟨k', v'⟩ := e'
      obtain ⟨ha', hr'⟩ := (rising_cons ..).1 hn
      have hk : k = k' := by
        rcases Nat.lt_trichotomy k k' with hlt | heq | hgt
        · have := h k
          rw [sget_cons, if_pos rfl, sget_cons, if_neg (by omega), none_low r' k' k ha' (by omega)] at this
          simp at this
        · exact heq
        · have := h k'
          rw [sget_cons, if_neg (by omega), none_low r k k' ha (by omega), sget_cons, if_pos rfl] at this
          simp at this
      subst hk
      have hv : v = v' := by simpa [sget_cons] using h k
      subst hv
      congr 1
      refine ih r' hr hr' (fun j => ?_)
      by_cases hj : k = j
      · subst hj; rw [none_low r k k ha (Nat.le_refl _), none_low r' k k ha' (Nat.le_refl _)]
      · simpa [sget_cons, hj] using h j

end Sys2Proof.Machine
end

