-- ==== Sys2Proof/Laws/State.lean ====
section
/-! SUPPORT. What each named update of the state leaves of each field, one lemma for a field and an update. -/

namespace Sys2Proof.Machine

/-! `modGroup` -/

@[simp] theorem modGroup_turn (s : State) (g : Nat) (k : Group → Group) : (s.modGroup g k).turn = s.turn := by unfold State.modGroup; split <;> rfl
@[simp] theorem modGroup_agenda (s : State) (g : Nat) (k : Group → Group) : (s.modGroup g k).agenda = s.agenda := by unfold State.modGroup; split <;> rfl
@[simp] theorem modGroup_turnNo (s : State) (g : Nat) (k : Group → Group) : (s.modGroup g k).turnNo = s.turnNo := by unfold State.modGroup; split <;> rfl
@[simp] theorem modGroup_opp (s : State) (g : Nat) (k : Group → Group) : (s.modGroup g k).opp = s.opp := by unfold State.modGroup; split <;> rfl
@[simp] theorem modGroup_blocked (s : State) (g : Nat) (k : Group → Group) : (s.modGroup g k).blocked = s.blocked := by unfold State.modGroup; split <;> rfl
@[simp] theorem modGroup_perfRead (s : State) (g : Nat) (k : Group → Group) : (s.modGroup g k).perfRead = s.perfRead := by unfold State.modGroup; split <;> rfl
@[simp] theorem modGroup_freeN (s : State) (g : Nat) (k : Group → Group) : (s.modGroup g k).freeN = s.freeN := by unfold State.modGroup; split <;> rfl
@[simp] theorem modGroup_idN (s : State) (g : Nat) (k : Group → Group) : (s.modGroup g k).idN = s.idN := by unfold State.modGroup; split <;> rfl
@[simp] theorem modGroup_boot (s : State) (g : Nat) (k : Group → Group) : (s.modGroup g k).boot = s.boot := by unfold State.modGroup; split <;> rfl
@[simp] theorem modGroup_portCode (s : State) (g : Nat) (k : Group → Group) : (s.modGroup g k).portCode = s.portCode := by unfold State.modGroup; split <;> rfl
@[simp] theorem modGroup_flashBad (s : State) (g : Nat) (k : Group → Group) : (s.modGroup g k).flashBad = s.flashBad := by unfold State.modGroup; split <;> rfl
@[simp] theorem modGroup_log (s : State) (g : Nat) (k : Group → Group) : (s.modGroup g k).log = s.log := by unfold State.modGroup; split <;> rfl
@[simp] theorem modGroup_mgmt (s : State) (g : Nat) (k : Group → Group) : (s.modGroup g k).mgmt = s.mgmt := by unfold State.modGroup; split <;> rfl
@[simp] theorem modGroup_first (s : State) (g : Nat) (k : Group → Group) : (s.modGroup g k).first = s.first := by unfold State.modGroup; split <;> rfl
@[simp] theorem modGroup_slices (s : State) (g : Nat) (k : Group → Group) : (s.modGroup g k).slices = s.slices := by unfold State.modGroup; split <;> rfl
@[simp] theorem modGroup_started (s : State) (g : Nat) (k : Group → Group) : (s.modGroup g k).started = s.started := by unfold State.modGroup; split <;> rfl
@[simp] theorem modGroup_spare (s : State) (g : Nat) (k : Group → Group) : (s.modGroup g k).spare = s.spare := by unfold State.modGroup; split <;> rfl
@[simp] theorem modGroup_dieMap (s : State) (g : Nat) (k : Group → Group) : (s.modGroup g k).dieMap = s.dieMap := by unfold State.modGroup; split <;> rfl
@[simp] theorem modGroup_absent (s : State) (g : Nat) (k : Group → Group) : (s.modGroup g k).absent = s.absent := by unfold State.modGroup; split <;> rfl
@[simp] theorem modGroup_throttled (s : State) (g : Nat) (k : Group → Group) : (s.modGroup g k).throttled = s.throttled := by unfold State.modGroup; split <;> rfl
@[simp] theorem modGroup_lostRanges (s : State) (g : Nat) (k : Group → Group) : (s.modGroup g k).lostRanges = s.lostRanges := by unfold State.modGroup; split <;> rfl
@[simp] theorem modGroup_removing (s : State) (g : Nat) (k : Group → Group) : (s.modGroup g k).removing = s.removing := by unfold State.modGroup; split <;> rfl
@[simp] theorem modGroup_capacity (s : State) (g : Nat) (k : Group → Group) : (s.modGroup g k).capacity = s.capacity := by unfold State.modGroup; split <;> rfl
@[simp] theorem modGroup_clk (s : State) (g : Nat) (k : Group → Group) : (s.modGroup g k).clk = s.clk := by unfold State.modGroup; split <;> rfl
@[simp] theorem modGroup_netPerf (s : State) (g : Nat) (k : Group → Group) : (s.modGroup g k).netPerf = s.netPerf := by unfold State.modGroup; split <;> rfl
@[simp] theorem modGroup_mem (s : State) (g : Nat) (k : Group → Group) : (s.modGroup g k).mem = s.mem := by unfold State.modGroup; split <;> rfl
@[simp] theorem modGroup_bad (s : State) (g : Nat) (k : Group → Group) : (s.modGroup g k).bad = s.bad := by unfold State.modGroup; split <;> rfl
@[simp] theorem modGroup_gens (s : State) (g : Nat) (k : Group → Group) : (s.modGroup g k).gens = s.gens := by unfold State.modGroup; split <;> rfl
@[simp] theorem modGroup_owners (s : State) (g : Nat) (k : Group → Group) : (s.modGroup g k).owners = s.owners := by unfold State.modGroup; split <;> rfl
@[simp] theorem modGroup_holds (s : State) (g : Nat) (k : Group → Group) : (s.modGroup g k).holds = s.holds := by unfold State.modGroup; split <;> rfl
@[simp] theorem modGroup_msc (s : State) (g : Nat) (k : Group → Group) : (s.modGroup g k).msc = s.msc := by unfold State.modGroup; split <;> rfl
@[simp] theorem modGroup_atlas (s : State) (g : Nat) (k : Group → Group) : (s.modGroup g k).atlas = s.atlas := by unfold State.modGroup; split <;> rfl
@[simp] theorem modGroup_pinned (s : State) (g : Nat) (k : Group → Group) : (s.modGroup g k).pinned = s.pinned := by unfold State.modGroup; split <;> rfl
@[simp] theorem modGroup_msgs (s : State) (g : Nat) (k : Group → Group) : (s.modGroup g k).msgs = s.msgs := by unfold State.modGroup; split <;> rfl
@[simp] theorem modGroup_pend (s : State) (g : Nat) (k : Group → Group) : (s.modGroup g k).pend = s.pend := by unfold State.modGroup; split <;> rfl
@[simp] theorem modGroup_prods (s : State) (g : Nat) (k : Group → Group) : (s.modGroup g k).prods = s.prods := by unfold State.modGroup; split <;> rfl
@[simp] theorem modGroup_cores (s : State) (g : Nat) (k : Group → Group) : (s.modGroup g k).cores = s.cores := by unfold State.modGroup; split <;> rfl
@[simp] theorem modGroup_cmds (s : State) (g : Nat) (k : Group → Group) : (s.modGroup g k).cmds = s.cmds := by unfold State.modGroup; split <;> rfl
@[simp] theorem modGroup_pfts (s : State) (g : Nat) (k : Group → Group) : (s.modGroup g k).pfts = s.pfts := by unfold State.modGroup; split <;> rfl
@[simp] theorem modGroup_pool (s : State) (g : Nat) (k : Group → Group) : (s.modGroup g k).pool = s.pool := by unfold State.modGroup; split <;> rfl
@[simp] theorem modGroup_deadline (s : State) (g : Nat) (k : Group → Group) : (s.modGroup g k).deadline = s.deadline := by unfold State.modGroup; split <;> rfl
@[simp] theorem modGroup_engine (s : State) (g : Nat) (k : Group → Group) : (s.modGroup g k).engine = s.engine := by unfold State.modGroup; split <;> rfl
@[simp] theorem modGroup_ctxs (s : State) (g : Nat) (k : Group → Group) : (s.modGroup g k).ctxs = s.ctxs := by unfold State.modGroup; split <;> rfl
@[simp] theorem modGroup_keys (s : State) (g : Nat) (k : Group → Group) : (s.modGroup g k).keys = s.keys := by unfold State.modGroup; split <;> rfl
@[simp] theorem modGroup_xmsgs (s : State) (g : Nat) (k : Group → Group) : (s.modGroup g k).xmsgs = s.xmsgs := by unfold State.modGroup; split <;> rfl
@[simp] theorem modGroup_rxmsgs (s : State) (g : Nat) (k : Group → Group) : (s.modGroup g k).rxmsgs = s.rxmsgs := by unfold State.modGroup; split <;> rfl
@[simp] theorem modGroup_placing (s : State) (g : Nat) (k : Group → Group) : (s.modGroup g k).placing = s.placing := by unfold State.modGroup; split <;> rfl
@[simp] theorem modGroup_sysc (s : State) (g : Nat) (k : Group → Group) : (s.modGroup g k).sysc = s.sysc := by unfold State.modGroup; split <;> rfl
@[simp] theorem modGroup_tokens (s : State) (g : Nat) (k : Group → Group) : (s.modGroup g k).tokens = s.tokens := by unfold State.modGroup; split <;> rfl
@[simp] theorem modGroup_scrub (s : State) (g : Nat) (k : Group → Group) : (s.modGroup g k).scrub = s.scrub := by unfold State.modGroup; split <;> rfl
@[simp] theorem modGroup_ras (s : State) (g : Nat) (k : Group → Group) : (s.modGroup g k).ras = s.ras := by unfold State.modGroup; split <;> rfl
@[simp] theorem modGroup_mail (s : State) (g : Nat) (k : Group → Group) : (s.modGroup g k).mail = s.mail := by unfold State.modGroup; split <;> rfl
@[simp] theorem modGroup_teardown (s : State) (g : Nat) (k : Group → Group) : (s.modGroup g k).teardown = s.teardown := by unfold State.modGroup; split <;> rfl
@[simp] theorem modGroup_replacing (s : State) (g : Nat) (k : Group → Group) : (s.modGroup g k).replacing = s.replacing := by unfold State.modGroup; split <;> rfl
@[simp] theorem modGroup_late (s : State) (g : Nat) (k : Group → Group) : (s.modGroup g k).late = s.late := by unfold State.modGroup; split <;> rfl
@[simp] theorem modGroup_tallies (s : State) (g : Nat) (k : Group → Group) : (s.modGroup g k).tallies = s.tallies := by unfold State.modGroup; split <;> rfl
@[simp] theorem modGroup_upset (s : State) (g : Nat) (k : Group → Group) : (s.modGroup g k).upset = s.upset := by unfold State.modGroup; split <;> rfl
@[simp] theorem modGroup_heat (s : State) (g : Nat) (k : Group → Group) : (s.modGroup g k).heat = s.heat := by unfold State.modGroup; split <;> rfl
@[simp] theorem modGroup_dieTlb (s : State) (g : Nat) (k : Group → Group) : (s.modGroup g k).dieTlb = s.dieTlb := by unfold State.modGroup; split <;> rfl
@[simp] theorem modGroup_walks (s : State) (g : Nat) (k : Group → Group) : (s.modGroup g k).walks = s.walks := by unfold State.modGroup; split <;> rfl
@[simp] theorem modGroup_walking (s : State) (g : Nat) (k : Group → Group) : (s.modGroup g k).walking = s.walking := by unfold State.modGroup; split <;> rfl
@[simp] theorem modGroup_tables (s : State) (g : Nat) (k : Group → Group) : (s.modGroup g k).tables = s.tables := by unfold State.modGroup; split <;> rfl
@[simp] theorem modGroup_lineKeys (s : State) (g : Nat) (k : Group → Group) : (s.modGroup g k).lineKeys = s.lineKeys := by unfold State.modGroup; split <;> rfl

/-! `modWarp` -/

@[simp] theorem modWarp_turn (s : State) (g w : Nat) (k : Warp → Warp) : (s.modWarp g w k).turn = s.turn := by simp [State.modWarp]
@[simp] theorem modWarp_agenda (s : State) (g w : Nat) (k : Warp → Warp) : (s.modWarp g w k).agenda = s.agenda := by simp [State.modWarp]
@[simp] theorem modWarp_turnNo (s : State) (g w : Nat) (k : Warp → Warp) : (s.modWarp g w k).turnNo = s.turnNo := by simp [State.modWarp]
@[simp] theorem modWarp_opp (s : State) (g w : Nat) (k : Warp → Warp) : (s.modWarp g w k).opp = s.opp := by simp [State.modWarp]
@[simp] theorem modWarp_blocked (s : State) (g w : Nat) (k : Warp → Warp) : (s.modWarp g w k).blocked = s.blocked := by simp [State.modWarp]
@[simp] theorem modWarp_perfRead (s : State) (g w : Nat) (k : Warp → Warp) : (s.modWarp g w k).perfRead = s.perfRead := by simp [State.modWarp]
@[simp] theorem modWarp_freeN (s : State) (g w : Nat) (k : Warp → Warp) : (s.modWarp g w k).freeN = s.freeN := by simp [State.modWarp]
@[simp] theorem modWarp_idN (s : State) (g w : Nat) (k : Warp → Warp) : (s.modWarp g w k).idN = s.idN := by simp [State.modWarp]
@[simp] theorem modWarp_boot (s : State) (g w : Nat) (k : Warp → Warp) : (s.modWarp g w k).boot = s.boot := by simp [State.modWarp]
@[simp] theorem modWarp_portCode (s : State) (g w : Nat) (k : Warp → Warp) : (s.modWarp g w k).portCode = s.portCode := by simp [State.modWarp]
@[simp] theorem modWarp_flashBad (s : State) (g w : Nat) (k : Warp → Warp) : (s.modWarp g w k).flashBad = s.flashBad := by simp [State.modWarp]
@[simp] theorem modWarp_log (s : State) (g w : Nat) (k : Warp → Warp) : (s.modWarp g w k).log = s.log := by simp [State.modWarp]
@[simp] theorem modWarp_mgmt (s : State) (g w : Nat) (k : Warp → Warp) : (s.modWarp g w k).mgmt = s.mgmt := by simp [State.modWarp]
@[simp] theorem modWarp_first (s : State) (g w : Nat) (k : Warp → Warp) : (s.modWarp g w k).first = s.first := by simp [State.modWarp]
@[simp] theorem modWarp_slices (s : State) (g w : Nat) (k : Warp → Warp) : (s.modWarp g w k).slices = s.slices := by simp [State.modWarp]
@[simp] theorem modWarp_started (s : State) (g w : Nat) (k : Warp → Warp) : (s.modWarp g w k).started = s.started := by simp [State.modWarp]
@[simp] theorem modWarp_spare (s : State) (g w : Nat) (k : Warp → Warp) : (s.modWarp g w k).spare = s.spare := by simp [State.modWarp]
@[simp] theorem modWarp_dieMap (s : State) (g w : Nat) (k : Warp → Warp) : (s.modWarp g w k).dieMap = s.dieMap := by simp [State.modWarp]
@[simp] theorem modWarp_absent (s : State) (g w : Nat) (k : Warp → Warp) : (s.modWarp g w k).absent = s.absent := by simp [State.modWarp]
@[simp] theorem modWarp_throttled (s : State) (g w : Nat) (k : Warp → Warp) : (s.modWarp g w k).throttled = s.throttled := by simp [State.modWarp]
@[simp] theorem modWarp_lostRanges (s : State) (g w : Nat) (k : Warp → Warp) : (s.modWarp g w k).lostRanges = s.lostRanges := by simp [State.modWarp]
@[simp] theorem modWarp_removing (s : State) (g w : Nat) (k : Warp → Warp) : (s.modWarp g w k).removing = s.removing := by simp [State.modWarp]
@[simp] theorem modWarp_capacity (s : State) (g w : Nat) (k : Warp → Warp) : (s.modWarp g w k).capacity = s.capacity := by simp [State.modWarp]
@[simp] theorem modWarp_clk (s : State) (g w : Nat) (k : Warp → Warp) : (s.modWarp g w k).clk = s.clk := by simp [State.modWarp]
@[simp] theorem modWarp_netPerf (s : State) (g w : Nat) (k : Warp → Warp) : (s.modWarp g w k).netPerf = s.netPerf := by simp [State.modWarp]
@[simp] theorem modWarp_mem (s : State) (g w : Nat) (k : Warp → Warp) : (s.modWarp g w k).mem = s.mem := by simp [State.modWarp]
@[simp] theorem modWarp_bad (s : State) (g w : Nat) (k : Warp → Warp) : (s.modWarp g w k).bad = s.bad := by simp [State.modWarp]
@[simp] theorem modWarp_gens (s : State) (g w : Nat) (k : Warp → Warp) : (s.modWarp g w k).gens = s.gens := by simp [State.modWarp]
@[simp] theorem modWarp_owners (s : State) (g w : Nat) (k : Warp → Warp) : (s.modWarp g w k).owners = s.owners := by simp [State.modWarp]
@[simp] theorem modWarp_holds (s : State) (g w : Nat) (k : Warp → Warp) : (s.modWarp g w k).holds = s.holds := by simp [State.modWarp]
@[simp] theorem modWarp_msc (s : State) (g w : Nat) (k : Warp → Warp) : (s.modWarp g w k).msc = s.msc := by simp [State.modWarp]
@[simp] theorem modWarp_atlas (s : State) (g w : Nat) (k : Warp → Warp) : (s.modWarp g w k).atlas = s.atlas := by simp [State.modWarp]
@[simp] theorem modWarp_pinned (s : State) (g w : Nat) (k : Warp → Warp) : (s.modWarp g w k).pinned = s.pinned := by simp [State.modWarp]
@[simp] theorem modWarp_msgs (s : State) (g w : Nat) (k : Warp → Warp) : (s.modWarp g w k).msgs = s.msgs := by simp [State.modWarp]
@[simp] theorem modWarp_pend (s : State) (g w : Nat) (k : Warp → Warp) : (s.modWarp g w k).pend = s.pend := by simp [State.modWarp]
@[simp] theorem modWarp_prods (s : State) (g w : Nat) (k : Warp → Warp) : (s.modWarp g w k).prods = s.prods := by simp [State.modWarp]
@[simp] theorem modWarp_cores (s : State) (g w : Nat) (k : Warp → Warp) : (s.modWarp g w k).cores = s.cores := by simp [State.modWarp]
@[simp] theorem modWarp_cmds (s : State) (g w : Nat) (k : Warp → Warp) : (s.modWarp g w k).cmds = s.cmds := by simp [State.modWarp]
@[simp] theorem modWarp_pfts (s : State) (g w : Nat) (k : Warp → Warp) : (s.modWarp g w k).pfts = s.pfts := by simp [State.modWarp]
@[simp] theorem modWarp_pool (s : State) (g w : Nat) (k : Warp → Warp) : (s.modWarp g w k).pool = s.pool := by simp [State.modWarp]
@[simp] theorem modWarp_deadline (s : State) (g w : Nat) (k : Warp → Warp) : (s.modWarp g w k).deadline = s.deadline := by simp [State.modWarp]
@[simp] theorem modWarp_engine (s : State) (g w : Nat) (k : Warp → Warp) : (s.modWarp g w k).engine = s.engine := by simp [State.modWarp]
@[simp] theorem modWarp_ctxs (s : State) (g w : Nat) (k : Warp → Warp) : (s.modWarp g w k).ctxs = s.ctxs := by simp [State.modWarp]
@[simp] theorem modWarp_keys (s : State) (g w : Nat) (k : Warp → Warp) : (s.modWarp g w k).keys = s.keys := by simp [State.modWarp]
@[simp] theorem modWarp_xmsgs (s : State) (g w : Nat) (k : Warp → Warp) : (s.modWarp g w k).xmsgs = s.xmsgs := by simp [State.modWarp]
@[simp] theorem modWarp_rxmsgs (s : State) (g w : Nat) (k : Warp → Warp) : (s.modWarp g w k).rxmsgs = s.rxmsgs := by simp [State.modWarp]
@[simp] theorem modWarp_placing (s : State) (g w : Nat) (k : Warp → Warp) : (s.modWarp g w k).placing = s.placing := by simp [State.modWarp]
@[simp] theorem modWarp_sysc (s : State) (g w : Nat) (k : Warp → Warp) : (s.modWarp g w k).sysc = s.sysc := by simp [State.modWarp]
@[simp] theorem modWarp_tokens (s : State) (g w : Nat) (k : Warp → Warp) : (s.modWarp g w k).tokens = s.tokens := by simp [State.modWarp]
@[simp] theorem modWarp_scrub (s : State) (g w : Nat) (k : Warp → Warp) : (s.modWarp g w k).scrub = s.scrub := by simp [State.modWarp]
@[simp] theorem modWarp_ras (s : State) (g w : Nat) (k : Warp → Warp) : (s.modWarp g w k).ras = s.ras := by simp [State.modWarp]
@[simp] theorem modWarp_mail (s : State) (g w : Nat) (k : Warp → Warp) : (s.modWarp g w k).mail = s.mail := by simp [State.modWarp]
@[simp] theorem modWarp_teardown (s : State) (g w : Nat) (k : Warp → Warp) : (s.modWarp g w k).teardown = s.teardown := by simp [State.modWarp]
@[simp] theorem modWarp_replacing (s : State) (g w : Nat) (k : Warp → Warp) : (s.modWarp g w k).replacing = s.replacing := by simp [State.modWarp]
@[simp] theorem modWarp_late (s : State) (g w : Nat) (k : Warp → Warp) : (s.modWarp g w k).late = s.late := by simp [State.modWarp]
@[simp] theorem modWarp_tallies (s : State) (g w : Nat) (k : Warp → Warp) : (s.modWarp g w k).tallies = s.tallies := by simp [State.modWarp]
@[simp] theorem modWarp_upset (s : State) (g w : Nat) (k : Warp → Warp) : (s.modWarp g w k).upset = s.upset := by simp [State.modWarp]
@[simp] theorem modWarp_heat (s : State) (g w : Nat) (k : Warp → Warp) : (s.modWarp g w k).heat = s.heat := by simp [State.modWarp]
@[simp] theorem modWarp_dieTlb (s : State) (g w : Nat) (k : Warp → Warp) : (s.modWarp g w k).dieTlb = s.dieTlb := by simp [State.modWarp]
@[simp] theorem modWarp_walks (s : State) (g w : Nat) (k : Warp → Warp) : (s.modWarp g w k).walks = s.walks := by simp [State.modWarp]
@[simp] theorem modWarp_walking (s : State) (g w : Nat) (k : Warp → Warp) : (s.modWarp g w k).walking = s.walking := by simp [State.modWarp]
@[simp] theorem modWarp_tables (s : State) (g w : Nat) (k : Warp → Warp) : (s.modWarp g w k).tables = s.tables := by simp [State.modWarp]
@[simp] theorem modWarp_lineKeys (s : State) (g w : Nat) (k : Warp → Warp) : (s.modWarp g w k).lineKeys = s.lineKeys := by simp [State.modWarp]

/-! `modFibre` -/

@[simp] theorem modFibre_turn (s : State) (g w f : Nat) (k : Fibre → Fibre) : (s.modFibre g w f k).turn = s.turn := by simp [State.modFibre]
@[simp] theorem modFibre_agenda (s : State) (g w f : Nat) (k : Fibre → Fibre) : (s.modFibre g w f k).agenda = s.agenda := by simp [State.modFibre]
@[simp] theorem modFibre_turnNo (s : State) (g w f : Nat) (k : Fibre → Fibre) : (s.modFibre g w f k).turnNo = s.turnNo := by simp [State.modFibre]
@[simp] theorem modFibre_opp (s : State) (g w f : Nat) (k : Fibre → Fibre) : (s.modFibre g w f k).opp = s.opp := by simp [State.modFibre]
@[simp] theorem modFibre_blocked (s : State) (g w f : Nat) (k : Fibre → Fibre) : (s.modFibre g w f k).blocked = s.blocked := by simp [State.modFibre]
@[simp] theorem modFibre_perfRead (s : State) (g w f : Nat) (k : Fibre → Fibre) : (s.modFibre g w f k).perfRead = s.perfRead := by simp [State.modFibre]
@[simp] theorem modFibre_freeN (s : State) (g w f : Nat) (k : Fibre → Fibre) : (s.modFibre g w f k).freeN = s.freeN := by simp [State.modFibre]
@[simp] theorem modFibre_idN (s : State) (g w f : Nat) (k : Fibre → Fibre) : (s.modFibre g w f k).idN = s.idN := by simp [State.modFibre]
@[simp] theorem modFibre_boot (s : State) (g w f : Nat) (k : Fibre → Fibre) : (s.modFibre g w f k).boot = s.boot := by simp [State.modFibre]
@[simp] theorem modFibre_portCode (s : State) (g w f : Nat) (k : Fibre → Fibre) : (s.modFibre g w f k).portCode = s.portCode := by simp [State.modFibre]
@[simp] theorem modFibre_flashBad (s : State) (g w f : Nat) (k : Fibre → Fibre) : (s.modFibre g w f k).flashBad = s.flashBad := by simp [State.modFibre]
@[simp] theorem modFibre_log (s : State) (g w f : Nat) (k : Fibre → Fibre) : (s.modFibre g w f k).log = s.log := by simp [State.modFibre]
@[simp] theorem modFibre_mgmt (s : State) (g w f : Nat) (k : Fibre → Fibre) : (s.modFibre g w f k).mgmt = s.mgmt := by simp [State.modFibre]
@[simp] theorem modFibre_first (s : State) (g w f : Nat) (k : Fibre → Fibre) : (s.modFibre g w f k).first = s.first := by simp [State.modFibre]
@[simp] theorem modFibre_slices (s : State) (g w f : Nat) (k : Fibre → Fibre) : (s.modFibre g w f k).slices = s.slices := by simp [State.modFibre]
@[simp] theorem modFibre_started (s : State) (g w f : Nat) (k : Fibre → Fibre) : (s.modFibre g w f k).started = s.started := by simp [State.modFibre]
@[simp] theorem modFibre_spare (s : State) (g w f : Nat) (k : Fibre → Fibre) : (s.modFibre g w f k).spare = s.spare := by simp [State.modFibre]
@[simp] theorem modFibre_dieMap (s : State) (g w f : Nat) (k : Fibre → Fibre) : (s.modFibre g w f k).dieMap = s.dieMap := by simp [State.modFibre]
@[simp] theorem modFibre_absent (s : State) (g w f : Nat) (k : Fibre → Fibre) : (s.modFibre g w f k).absent = s.absent := by simp [State.modFibre]
@[simp] theorem modFibre_throttled (s : State) (g w f : Nat) (k : Fibre → Fibre) : (s.modFibre g w f k).throttled = s.throttled := by simp [State.modFibre]
@[simp] theorem modFibre_lostRanges (s : State) (g w f : Nat) (k : Fibre → Fibre) : (s.modFibre g w f k).lostRanges = s.lostRanges := by simp [State.modFibre]
@[simp] theorem modFibre_removing (s : State) (g w f : Nat) (k : Fibre → Fibre) : (s.modFibre g w f k).removing = s.removing := by simp [State.modFibre]
@[simp] theorem modFibre_capacity (s : State) (g w f : Nat) (k : Fibre → Fibre) : (s.modFibre g w f k).capacity = s.capacity := by simp [State.modFibre]
@[simp] theorem modFibre_clk (s : State) (g w f : Nat) (k : Fibre → Fibre) : (s.modFibre g w f k).clk = s.clk := by simp [State.modFibre]
@[simp] theorem modFibre_netPerf (s : State) (g w f : Nat) (k : Fibre → Fibre) : (s.modFibre g w f k).netPerf = s.netPerf := by simp [State.modFibre]
@[simp] theorem modFibre_mem (s : State) (g w f : Nat) (k : Fibre → Fibre) : (s.modFibre g w f k).mem = s.mem := by simp [State.modFibre]
@[simp] theorem modFibre_bad (s : State) (g w f : Nat) (k : Fibre → Fibre) : (s.modFibre g w f k).bad = s.bad := by simp [State.modFibre]
@[simp] theorem modFibre_gens (s : State) (g w f : Nat) (k : Fibre → Fibre) : (s.modFibre g w f k).gens = s.gens := by simp [State.modFibre]
@[simp] theorem modFibre_owners (s : State) (g w f : Nat) (k : Fibre → Fibre) : (s.modFibre g w f k).owners = s.owners := by simp [State.modFibre]
@[simp] theorem modFibre_holds (s : State) (g w f : Nat) (k : Fibre → Fibre) : (s.modFibre g w f k).holds = s.holds := by simp [State.modFibre]
@[simp] theorem modFibre_msc (s : State) (g w f : Nat) (k : Fibre → Fibre) : (s.modFibre g w f k).msc = s.msc := by simp [State.modFibre]
@[simp] theorem modFibre_atlas (s : State) (g w f : Nat) (k : Fibre → Fibre) : (s.modFibre g w f k).atlas = s.atlas := by simp [State.modFibre]
@[simp] theorem modFibre_pinned (s : State) (g w f : Nat) (k : Fibre → Fibre) : (s.modFibre g w f k).pinned = s.pinned := by simp [State.modFibre]
@[simp] theorem modFibre_msgs (s : State) (g w f : Nat) (k : Fibre → Fibre) : (s.modFibre g w f k).msgs = s.msgs := by simp [State.modFibre]
@[simp] theorem modFibre_pend (s : State) (g w f : Nat) (k : Fibre → Fibre) : (s.modFibre g w f k).pend = s.pend := by simp [State.modFibre]
@[simp] theorem modFibre_prods (s : State) (g w f : Nat) (k : Fibre → Fibre) : (s.modFibre g w f k).prods = s.prods := by simp [State.modFibre]
@[simp] theorem modFibre_cores (s : State) (g w f : Nat) (k : Fibre → Fibre) : (s.modFibre g w f k).cores = s.cores := by simp [State.modFibre]
@[simp] theorem modFibre_cmds (s : State) (g w f : Nat) (k : Fibre → Fibre) : (s.modFibre g w f k).cmds = s.cmds := by simp [State.modFibre]
@[simp] theorem modFibre_pfts (s : State) (g w f : Nat) (k : Fibre → Fibre) : (s.modFibre g w f k).pfts = s.pfts := by simp [State.modFibre]
@[simp] theorem modFibre_pool (s : State) (g w f : Nat) (k : Fibre → Fibre) : (s.modFibre g w f k).pool = s.pool := by simp [State.modFibre]
@[simp] theorem modFibre_deadline (s : State) (g w f : Nat) (k : Fibre → Fibre) : (s.modFibre g w f k).deadline = s.deadline := by simp [State.modFibre]
@[simp] theorem modFibre_engine (s : State) (g w f : Nat) (k : Fibre → Fibre) : (s.modFibre g w f k).engine = s.engine := by simp [State.modFibre]
@[simp] theorem modFibre_ctxs (s : State) (g w f : Nat) (k : Fibre → Fibre) : (s.modFibre g w f k).ctxs = s.ctxs := by simp [State.modFibre]
@[simp] theorem modFibre_keys (s : State) (g w f : Nat) (k : Fibre → Fibre) : (s.modFibre g w f k).keys = s.keys := by simp [State.modFibre]
@[simp] theorem modFibre_xmsgs (s : State) (g w f : Nat) (k : Fibre → Fibre) : (s.modFibre g w f k).xmsgs = s.xmsgs := by simp [State.modFibre]
@[simp] theorem modFibre_rxmsgs (s : State) (g w f : Nat) (k : Fibre → Fibre) : (s.modFibre g w f k).rxmsgs = s.rxmsgs := by simp [State.modFibre]
@[simp] theorem modFibre_placing (s : State) (g w f : Nat) (k : Fibre → Fibre) : (s.modFibre g w f k).placing = s.placing := by simp [State.modFibre]
@[simp] theorem modFibre_sysc (s : State) (g w f : Nat) (k : Fibre → Fibre) : (s.modFibre g w f k).sysc = s.sysc := by simp [State.modFibre]
@[simp] theorem modFibre_tokens (s : State) (g w f : Nat) (k : Fibre → Fibre) : (s.modFibre g w f k).tokens = s.tokens := by simp [State.modFibre]
@[simp] theorem modFibre_scrub (s : State) (g w f : Nat) (k : Fibre → Fibre) : (s.modFibre g w f k).scrub = s.scrub := by simp [State.modFibre]
@[simp] theorem modFibre_ras (s : State) (g w f : Nat) (k : Fibre → Fibre) : (s.modFibre g w f k).ras = s.ras := by simp [State.modFibre]
@[simp] theorem modFibre_mail (s : State) (g w f : Nat) (k : Fibre → Fibre) : (s.modFibre g w f k).mail = s.mail := by simp [State.modFibre]
@[simp] theorem modFibre_teardown (s : State) (g w f : Nat) (k : Fibre → Fibre) : (s.modFibre g w f k).teardown = s.teardown := by simp [State.modFibre]
@[simp] theorem modFibre_replacing (s : State) (g w f : Nat) (k : Fibre → Fibre) : (s.modFibre g w f k).replacing = s.replacing := by simp [State.modFibre]
@[simp] theorem modFibre_late (s : State) (g w f : Nat) (k : Fibre → Fibre) : (s.modFibre g w f k).late = s.late := by simp [State.modFibre]
@[simp] theorem modFibre_tallies (s : State) (g w f : Nat) (k : Fibre → Fibre) : (s.modFibre g w f k).tallies = s.tallies := by simp [State.modFibre]
@[simp] theorem modFibre_upset (s : State) (g w f : Nat) (k : Fibre → Fibre) : (s.modFibre g w f k).upset = s.upset := by simp [State.modFibre]
@[simp] theorem modFibre_heat (s : State) (g w f : Nat) (k : Fibre → Fibre) : (s.modFibre g w f k).heat = s.heat := by simp [State.modFibre]
@[simp] theorem modFibre_dieTlb (s : State) (g w f : Nat) (k : Fibre → Fibre) : (s.modFibre g w f k).dieTlb = s.dieTlb := by simp [State.modFibre]
@[simp] theorem modFibre_walks (s : State) (g w f : Nat) (k : Fibre → Fibre) : (s.modFibre g w f k).walks = s.walks := by simp [State.modFibre]
@[simp] theorem modFibre_walking (s : State) (g w f : Nat) (k : Fibre → Fibre) : (s.modFibre g w f k).walking = s.walking := by simp [State.modFibre]
@[simp] theorem modFibre_tables (s : State) (g w f : Nat) (k : Fibre → Fibre) : (s.modFibre g w f k).tables = s.tables := by simp [State.modFibre]
@[simp] theorem modFibre_lineKeys (s : State) (g w f : Nat) (k : Fibre → Fibre) : (s.modFibre g w f k).lineKeys = s.lineKeys := by simp [State.modFibre]

/-! `modLane` -/

@[simp] theorem modLane_turn (s : State) (g w f l : Nat) (k : Lane → Lane) : (s.modLane g w f l k).turn = s.turn := by simp [State.modLane]
@[simp] theorem modLane_agenda (s : State) (g w f l : Nat) (k : Lane → Lane) : (s.modLane g w f l k).agenda = s.agenda := by simp [State.modLane]
@[simp] theorem modLane_turnNo (s : State) (g w f l : Nat) (k : Lane → Lane) : (s.modLane g w f l k).turnNo = s.turnNo := by simp [State.modLane]
@[simp] theorem modLane_opp (s : State) (g w f l : Nat) (k : Lane → Lane) : (s.modLane g w f l k).opp = s.opp := by simp [State.modLane]
@[simp] theorem modLane_blocked (s : State) (g w f l : Nat) (k : Lane → Lane) : (s.modLane g w f l k).blocked = s.blocked := by simp [State.modLane]
@[simp] theorem modLane_perfRead (s : State) (g w f l : Nat) (k : Lane → Lane) : (s.modLane g w f l k).perfRead = s.perfRead := by simp [State.modLane]
@[simp] theorem modLane_freeN (s : State) (g w f l : Nat) (k : Lane → Lane) : (s.modLane g w f l k).freeN = s.freeN := by simp [State.modLane]
@[simp] theorem modLane_idN (s : State) (g w f l : Nat) (k : Lane → Lane) : (s.modLane g w f l k).idN = s.idN := by simp [State.modLane]
@[simp] theorem modLane_boot (s : State) (g w f l : Nat) (k : Lane → Lane) : (s.modLane g w f l k).boot = s.boot := by simp [State.modLane]
@[simp] theorem modLane_portCode (s : State) (g w f l : Nat) (k : Lane → Lane) : (s.modLane g w f l k).portCode = s.portCode := by simp [State.modLane]
@[simp] theorem modLane_flashBad (s : State) (g w f l : Nat) (k : Lane → Lane) : (s.modLane g w f l k).flashBad = s.flashBad := by simp [State.modLane]
@[simp] theorem modLane_log (s : State) (g w f l : Nat) (k : Lane → Lane) : (s.modLane g w f l k).log = s.log := by simp [State.modLane]
@[simp] theorem modLane_mgmt (s : State) (g w f l : Nat) (k : Lane → Lane) : (s.modLane g w f l k).mgmt = s.mgmt := by simp [State.modLane]
@[simp] theorem modLane_first (s : State) (g w f l : Nat) (k : Lane → Lane) : (s.modLane g w f l k).first = s.first := by simp [State.modLane]
@[simp] theorem modLane_slices (s : State) (g w f l : Nat) (k : Lane → Lane) : (s.modLane g w f l k).slices = s.slices := by simp [State.modLane]
@[simp] theorem modLane_started (s : State) (g w f l : Nat) (k : Lane → Lane) : (s.modLane g w f l k).started = s.started := by simp [State.modLane]
@[simp] theorem modLane_spare (s : State) (g w f l : Nat) (k : Lane → Lane) : (s.modLane g w f l k).spare = s.spare := by simp [State.modLane]
@[simp] theorem modLane_dieMap (s : State) (g w f l : Nat) (k : Lane → Lane) : (s.modLane g w f l k).dieMap = s.dieMap := by simp [State.modLane]
@[simp] theorem modLane_absent (s : State) (g w f l : Nat) (k : Lane → Lane) : (s.modLane g w f l k).absent = s.absent := by simp [State.modLane]
@[simp] theorem modLane_throttled (s : State) (g w f l : Nat) (k : Lane → Lane) : (s.modLane g w f l k).throttled = s.throttled := by simp [State.modLane]
@[simp] theorem modLane_lostRanges (s : State) (g w f l : Nat) (k : Lane → Lane) : (s.modLane g w f l k).lostRanges = s.lostRanges := by simp [State.modLane]
@[simp] theorem modLane_removing (s : State) (g w f l : Nat) (k : Lane → Lane) : (s.modLane g w f l k).removing = s.removing := by simp [State.modLane]
@[simp] theorem modLane_capacity (s : State) (g w f l : Nat) (k : Lane → Lane) : (s.modLane g w f l k).capacity = s.capacity := by simp [State.modLane]
@[simp] theorem modLane_clk (s : State) (g w f l : Nat) (k : Lane → Lane) : (s.modLane g w f l k).clk = s.clk := by simp [State.modLane]
@[simp] theorem modLane_netPerf (s : State) (g w f l : Nat) (k : Lane → Lane) : (s.modLane g w f l k).netPerf = s.netPerf := by simp [State.modLane]
@[simp] theorem modLane_mem (s : State) (g w f l : Nat) (k : Lane → Lane) : (s.modLane g w f l k).mem = s.mem := by simp [State.modLane]
@[simp] theorem modLane_bad (s : State) (g w f l : Nat) (k : Lane → Lane) : (s.modLane g w f l k).bad = s.bad := by simp [State.modLane]
@[simp] theorem modLane_gens (s : State) (g w f l : Nat) (k : Lane → Lane) : (s.modLane g w f l k).gens = s.gens := by simp [State.modLane]
@[simp] theorem modLane_owners (s : State) (g w f l : Nat) (k : Lane → Lane) : (s.modLane g w f l k).owners = s.owners := by simp [State.modLane]
@[simp] theorem modLane_holds (s : State) (g w f l : Nat) (k : Lane → Lane) : (s.modLane g w f l k).holds = s.holds := by simp [State.modLane]
@[simp] theorem modLane_msc (s : State) (g w f l : Nat) (k : Lane → Lane) : (s.modLane g w f l k).msc = s.msc := by simp [State.modLane]
@[simp] theorem modLane_atlas (s : State) (g w f l : Nat) (k : Lane → Lane) : (s.modLane g w f l k).atlas = s.atlas := by simp [State.modLane]
@[simp] theorem modLane_pinned (s : State) (g w f l : Nat) (k : Lane → Lane) : (s.modLane g w f l k).pinned = s.pinned := by simp [State.modLane]
@[simp] theorem modLane_msgs (s : State) (g w f l : Nat) (k : Lane → Lane) : (s.modLane g w f l k).msgs = s.msgs := by simp [State.modLane]
@[simp] theorem modLane_pend (s : State) (g w f l : Nat) (k : Lane → Lane) : (s.modLane g w f l k).pend = s.pend := by simp [State.modLane]
@[simp] theorem modLane_prods (s : State) (g w f l : Nat) (k : Lane → Lane) : (s.modLane g w f l k).prods = s.prods := by simp [State.modLane]
@[simp] theorem modLane_cores (s : State) (g w f l : Nat) (k : Lane → Lane) : (s.modLane g w f l k).cores = s.cores := by simp [State.modLane]
@[simp] theorem modLane_cmds (s : State) (g w f l : Nat) (k : Lane → Lane) : (s.modLane g w f l k).cmds = s.cmds := by simp [State.modLane]
@[simp] theorem modLane_pfts (s : State) (g w f l : Nat) (k : Lane → Lane) : (s.modLane g w f l k).pfts = s.pfts := by simp [State.modLane]
@[simp] theorem modLane_pool (s : State) (g w f l : Nat) (k : Lane → Lane) : (s.modLane g w f l k).pool = s.pool := by simp [State.modLane]
@[simp] theorem modLane_deadline (s : State) (g w f l : Nat) (k : Lane → Lane) : (s.modLane g w f l k).deadline = s.deadline := by simp [State.modLane]
@[simp] theorem modLane_engine (s : State) (g w f l : Nat) (k : Lane → Lane) : (s.modLane g w f l k).engine = s.engine := by simp [State.modLane]
@[simp] theorem modLane_ctxs (s : State) (g w f l : Nat) (k : Lane → Lane) : (s.modLane g w f l k).ctxs = s.ctxs := by simp [State.modLane]
@[simp] theorem modLane_keys (s : State) (g w f l : Nat) (k : Lane → Lane) : (s.modLane g w f l k).keys = s.keys := by simp [State.modLane]
@[simp] theorem modLane_xmsgs (s : State) (g w f l : Nat) (k : Lane → Lane) : (s.modLane g w f l k).xmsgs = s.xmsgs := by simp [State.modLane]
@[simp] theorem modLane_rxmsgs (s : State) (g w f l : Nat) (k : Lane → Lane) : (s.modLane g w f l k).rxmsgs = s.rxmsgs := by simp [State.modLane]
@[simp] theorem modLane_placing (s : State) (g w f l : Nat) (k : Lane → Lane) : (s.modLane g w f l k).placing = s.placing := by simp [State.modLane]
@[simp] theorem modLane_sysc (s : State) (g w f l : Nat) (k : Lane → Lane) : (s.modLane g w f l k).sysc = s.sysc := by simp [State.modLane]
@[simp] theorem modLane_tokens (s : State) (g w f l : Nat) (k : Lane → Lane) : (s.modLane g w f l k).tokens = s.tokens := by simp [State.modLane]
@[simp] theorem modLane_scrub (s : State) (g w f l : Nat) (k : Lane → Lane) : (s.modLane g w f l k).scrub = s.scrub := by simp [State.modLane]
@[simp] theorem modLane_ras (s : State) (g w f l : Nat) (k : Lane → Lane) : (s.modLane g w f l k).ras = s.ras := by simp [State.modLane]
@[simp] theorem modLane_mail (s : State) (g w f l : Nat) (k : Lane → Lane) : (s.modLane g w f l k).mail = s.mail := by simp [State.modLane]
@[simp] theorem modLane_teardown (s : State) (g w f l : Nat) (k : Lane → Lane) : (s.modLane g w f l k).teardown = s.teardown := by simp [State.modLane]
@[simp] theorem modLane_replacing (s : State) (g w f l : Nat) (k : Lane → Lane) : (s.modLane g w f l k).replacing = s.replacing := by simp [State.modLane]
@[simp] theorem modLane_late (s : State) (g w f l : Nat) (k : Lane → Lane) : (s.modLane g w f l k).late = s.late := by simp [State.modLane]
@[simp] theorem modLane_tallies (s : State) (g w f l : Nat) (k : Lane → Lane) : (s.modLane g w f l k).tallies = s.tallies := by simp [State.modLane]
@[simp] theorem modLane_upset (s : State) (g w f l : Nat) (k : Lane → Lane) : (s.modLane g w f l k).upset = s.upset := by simp [State.modLane]
@[simp] theorem modLane_heat (s : State) (g w f l : Nat) (k : Lane → Lane) : (s.modLane g w f l k).heat = s.heat := by simp [State.modLane]
@[simp] theorem modLane_dieTlb (s : State) (g w f l : Nat) (k : Lane → Lane) : (s.modLane g w f l k).dieTlb = s.dieTlb := by simp [State.modLane]
@[simp] theorem modLane_walks (s : State) (g w f l : Nat) (k : Lane → Lane) : (s.modLane g w f l k).walks = s.walks := by simp [State.modLane]
@[simp] theorem modLane_walking (s : State) (g w f l : Nat) (k : Lane → Lane) : (s.modLane g w f l k).walking = s.walking := by simp [State.modLane]
@[simp] theorem modLane_tables (s : State) (g w f l : Nat) (k : Lane → Lane) : (s.modLane g w f l k).tables = s.tables := by simp [State.modLane]
@[simp] theorem modLane_lineKeys (s : State) (g w f l : Nat) (k : Lane → Lane) : (s.modLane g w f l k).lineKeys = s.lineKeys := by simp [State.modLane]

/-! `setReg` -/

@[simp] theorem setReg_turn (s : State) (g w o : Nat) (v : RegWord) : (s.setReg g w o v).turn = s.turn := by simp [State.setReg]
@[simp] theorem setReg_agenda (s : State) (g w o : Nat) (v : RegWord) : (s.setReg g w o v).agenda = s.agenda := by simp [State.setReg]
@[simp] theorem setReg_turnNo (s : State) (g w o : Nat) (v : RegWord) : (s.setReg g w o v).turnNo = s.turnNo := by simp [State.setReg]
@[simp] theorem setReg_opp (s : State) (g w o : Nat) (v : RegWord) : (s.setReg g w o v).opp = s.opp := by simp [State.setReg]
@[simp] theorem setReg_blocked (s : State) (g w o : Nat) (v : RegWord) : (s.setReg g w o v).blocked = s.blocked := by simp [State.setReg]
@[simp] theorem setReg_perfRead (s : State) (g w o : Nat) (v : RegWord) : (s.setReg g w o v).perfRead = s.perfRead := by simp [State.setReg]
@[simp] theorem setReg_freeN (s : State) (g w o : Nat) (v : RegWord) : (s.setReg g w o v).freeN = s.freeN := by simp [State.setReg]
@[simp] theorem setReg_idN (s : State) (g w o : Nat) (v : RegWord) : (s.setReg g w o v).idN = s.idN := by simp [State.setReg]
@[simp] theorem setReg_boot (s : State) (g w o : Nat) (v : RegWord) : (s.setReg g w o v).boot = s.boot := by simp [State.setReg]
@[simp] theorem setReg_portCode (s : State) (g w o : Nat) (v : RegWord) : (s.setReg g w o v).portCode = s.portCode := by simp [State.setReg]
@[simp] theorem setReg_flashBad (s : State) (g w o : Nat) (v : RegWord) : (s.setReg g w o v).flashBad = s.flashBad := by simp [State.setReg]
@[simp] theorem setReg_log (s : State) (g w o : Nat) (v : RegWord) : (s.setReg g w o v).log = s.log := by simp [State.setReg]
@[simp] theorem setReg_mgmt (s : State) (g w o : Nat) (v : RegWord) : (s.setReg g w o v).mgmt = s.mgmt := by simp [State.setReg]
@[simp] theorem setReg_first (s : State) (g w o : Nat) (v : RegWord) : (s.setReg g w o v).first = s.first := by simp [State.setReg]
@[simp] theorem setReg_slices (s : State) (g w o : Nat) (v : RegWord) : (s.setReg g w o v).slices = s.slices := by simp [State.setReg]
@[simp] theorem setReg_started (s : State) (g w o : Nat) (v : RegWord) : (s.setReg g w o v).started = s.started := by simp [State.setReg]
@[simp] theorem setReg_spare (s : State) (g w o : Nat) (v : RegWord) : (s.setReg g w o v).spare = s.spare := by simp [State.setReg]
@[simp] theorem setReg_dieMap (s : State) (g w o : Nat) (v : RegWord) : (s.setReg g w o v).dieMap = s.dieMap := by simp [State.setReg]
@[simp] theorem setReg_absent (s : State) (g w o : Nat) (v : RegWord) : (s.setReg g w o v).absent = s.absent := by simp [State.setReg]
@[simp] theorem setReg_throttled (s : State) (g w o : Nat) (v : RegWord) : (s.setReg g w o v).throttled = s.throttled := by simp [State.setReg]
@[simp] theorem setReg_lostRanges (s : State) (g w o : Nat) (v : RegWord) : (s.setReg g w o v).lostRanges = s.lostRanges := by simp [State.setReg]
@[simp] theorem setReg_removing (s : State) (g w o : Nat) (v : RegWord) : (s.setReg g w o v).removing = s.removing := by simp [State.setReg]
@[simp] theorem setReg_capacity (s : State) (g w o : Nat) (v : RegWord) : (s.setReg g w o v).capacity = s.capacity := by simp [State.setReg]
@[simp] theorem setReg_clk (s : State) (g w o : Nat) (v : RegWord) : (s.setReg g w o v).clk = s.clk := by simp [State.setReg]
@[simp] theorem setReg_netPerf (s : State) (g w o : Nat) (v : RegWord) : (s.setReg g w o v).netPerf = s.netPerf := by simp [State.setReg]
@[simp] theorem setReg_mem (s : State) (g w o : Nat) (v : RegWord) : (s.setReg g w o v).mem = s.mem := by simp [State.setReg]
@[simp] theorem setReg_bad (s : State) (g w o : Nat) (v : RegWord) : (s.setReg g w o v).bad = s.bad := by simp [State.setReg]
@[simp] theorem setReg_gens (s : State) (g w o : Nat) (v : RegWord) : (s.setReg g w o v).gens = s.gens := by simp [State.setReg]
@[simp] theorem setReg_owners (s : State) (g w o : Nat) (v : RegWord) : (s.setReg g w o v).owners = s.owners := by simp [State.setReg]
@[simp] theorem setReg_holds (s : State) (g w o : Nat) (v : RegWord) : (s.setReg g w o v).holds = s.holds := by simp [State.setReg]
@[simp] theorem setReg_msc (s : State) (g w o : Nat) (v : RegWord) : (s.setReg g w o v).msc = s.msc := by simp [State.setReg]
@[simp] theorem setReg_atlas (s : State) (g w o : Nat) (v : RegWord) : (s.setReg g w o v).atlas = s.atlas := by simp [State.setReg]
@[simp] theorem setReg_pinned (s : State) (g w o : Nat) (v : RegWord) : (s.setReg g w o v).pinned = s.pinned := by simp [State.setReg]
@[simp] theorem setReg_msgs (s : State) (g w o : Nat) (v : RegWord) : (s.setReg g w o v).msgs = s.msgs := by simp [State.setReg]
@[simp] theorem setReg_pend (s : State) (g w o : Nat) (v : RegWord) : (s.setReg g w o v).pend = s.pend := by simp [State.setReg]
@[simp] theorem setReg_prods (s : State) (g w o : Nat) (v : RegWord) : (s.setReg g w o v).prods = s.prods := by simp [State.setReg]
@[simp] theorem setReg_cores (s : State) (g w o : Nat) (v : RegWord) : (s.setReg g w o v).cores = s.cores := by simp [State.setReg]
@[simp] theorem setReg_cmds (s : State) (g w o : Nat) (v : RegWord) : (s.setReg g w o v).cmds = s.cmds := by simp [State.setReg]
@[simp] theorem setReg_pfts (s : State) (g w o : Nat) (v : RegWord) : (s.setReg g w o v).pfts = s.pfts := by simp [State.setReg]
@[simp] theorem setReg_pool (s : State) (g w o : Nat) (v : RegWord) : (s.setReg g w o v).pool = s.pool := by simp [State.setReg]
@[simp] theorem setReg_deadline (s : State) (g w o : Nat) (v : RegWord) : (s.setReg g w o v).deadline = s.deadline := by simp [State.setReg]
@[simp] theorem setReg_engine (s : State) (g w o : Nat) (v : RegWord) : (s.setReg g w o v).engine = s.engine := by simp [State.setReg]
@[simp] theorem setReg_ctxs (s : State) (g w o : Nat) (v : RegWord) : (s.setReg g w o v).ctxs = s.ctxs := by simp [State.setReg]
@[simp] theorem setReg_keys (s : State) (g w o : Nat) (v : RegWord) : (s.setReg g w o v).keys = s.keys := by simp [State.setReg]
@[simp] theorem setReg_xmsgs (s : State) (g w o : Nat) (v : RegWord) : (s.setReg g w o v).xmsgs = s.xmsgs := by simp [State.setReg]
@[simp] theorem setReg_rxmsgs (s : State) (g w o : Nat) (v : RegWord) : (s.setReg g w o v).rxmsgs = s.rxmsgs := by simp [State.setReg]
@[simp] theorem setReg_placing (s : State) (g w o : Nat) (v : RegWord) : (s.setReg g w o v).placing = s.placing := by simp [State.setReg]
@[simp] theorem setReg_sysc (s : State) (g w o : Nat) (v : RegWord) : (s.setReg g w o v).sysc = s.sysc := by simp [State.setReg]
@[simp] theorem setReg_tokens (s : State) (g w o : Nat) (v : RegWord) : (s.setReg g w o v).tokens = s.tokens := by simp [State.setReg]
@[simp] theorem setReg_scrub (s : State) (g w o : Nat) (v : RegWord) : (s.setReg g w o v).scrub = s.scrub := by simp [State.setReg]
@[simp] theorem setReg_ras (s : State) (g w o : Nat) (v : RegWord) : (s.setReg g w o v).ras = s.ras := by simp [State.setReg]
@[simp] theorem setReg_mail (s : State) (g w o : Nat) (v : RegWord) : (s.setReg g w o v).mail = s.mail := by simp [State.setReg]
@[simp] theorem setReg_teardown (s : State) (g w o : Nat) (v : RegWord) : (s.setReg g w o v).teardown = s.teardown := by simp [State.setReg]
@[simp] theorem setReg_replacing (s : State) (g w o : Nat) (v : RegWord) : (s.setReg g w o v).replacing = s.replacing := by simp [State.setReg]
@[simp] theorem setReg_late (s : State) (g w o : Nat) (v : RegWord) : (s.setReg g w o v).late = s.late := by simp [State.setReg]
@[simp] theorem setReg_tallies (s : State) (g w o : Nat) (v : RegWord) : (s.setReg g w o v).tallies = s.tallies := by simp [State.setReg]
@[simp] theorem setReg_upset (s : State) (g w o : Nat) (v : RegWord) : (s.setReg g w o v).upset = s.upset := by simp [State.setReg]
@[simp] theorem setReg_heat (s : State) (g w o : Nat) (v : RegWord) : (s.setReg g w o v).heat = s.heat := by simp [State.setReg]
@[simp] theorem setReg_dieTlb (s : State) (g w o : Nat) (v : RegWord) : (s.setReg g w o v).dieTlb = s.dieTlb := by simp [State.setReg]
@[simp] theorem setReg_walks (s : State) (g w o : Nat) (v : RegWord) : (s.setReg g w o v).walks = s.walks := by simp [State.setReg]
@[simp] theorem setReg_walking (s : State) (g w o : Nat) (v : RegWord) : (s.setReg g w o v).walking = s.walking := by simp [State.setReg]
@[simp] theorem setReg_tables (s : State) (g w o : Nat) (v : RegWord) : (s.setReg g w o v).tables = s.tables := by simp [State.setReg]
@[simp] theorem setReg_lineKeys (s : State) (g w o : Nat) (v : RegWord) : (s.setReg g w o v).lineKeys = s.lineKeys := by simp [State.setReg]

/-! `setUreg` -/

@[simp] theorem setUreg_turn (s : State) (g w f n : Nat) (v : RegWord) : (s.setUreg g w f n v).turn = s.turn := by simp [State.setUreg]
@[simp] theorem setUreg_agenda (s : State) (g w f n : Nat) (v : RegWord) : (s.setUreg g w f n v).agenda = s.agenda := by simp [State.setUreg]
@[simp] theorem setUreg_turnNo (s : State) (g w f n : Nat) (v : RegWord) : (s.setUreg g w f n v).turnNo = s.turnNo := by simp [State.setUreg]
@[simp] theorem setUreg_opp (s : State) (g w f n : Nat) (v : RegWord) : (s.setUreg g w f n v).opp = s.opp := by simp [State.setUreg]
@[simp] theorem setUreg_blocked (s : State) (g w f n : Nat) (v : RegWord) : (s.setUreg g w f n v).blocked = s.blocked := by simp [State.setUreg]
@[simp] theorem setUreg_perfRead (s : State) (g w f n : Nat) (v : RegWord) : (s.setUreg g w f n v).perfRead = s.perfRead := by simp [State.setUreg]
@[simp] theorem setUreg_freeN (s : State) (g w f n : Nat) (v : RegWord) : (s.setUreg g w f n v).freeN = s.freeN := by simp [State.setUreg]
@[simp] theorem setUreg_idN (s : State) (g w f n : Nat) (v : RegWord) : (s.setUreg g w f n v).idN = s.idN := by simp [State.setUreg]
@[simp] theorem setUreg_boot (s : State) (g w f n : Nat) (v : RegWord) : (s.setUreg g w f n v).boot = s.boot := by simp [State.setUreg]
@[simp] theorem setUreg_portCode (s : State) (g w f n : Nat) (v : RegWord) : (s.setUreg g w f n v).portCode = s.portCode := by simp [State.setUreg]
@[simp] theorem setUreg_flashBad (s : State) (g w f n : Nat) (v : RegWord) : (s.setUreg g w f n v).flashBad = s.flashBad := by simp [State.setUreg]
@[simp] theorem setUreg_log (s : State) (g w f n : Nat) (v : RegWord) : (s.setUreg g w f n v).log = s.log := by simp [State.setUreg]
@[simp] theorem setUreg_mgmt (s : State) (g w f n : Nat) (v : RegWord) : (s.setUreg g w f n v).mgmt = s.mgmt := by simp [State.setUreg]
@[simp] theorem setUreg_first (s : State) (g w f n : Nat) (v : RegWord) : (s.setUreg g w f n v).first = s.first := by simp [State.setUreg]
@[simp] theorem setUreg_slices (s : State) (g w f n : Nat) (v : RegWord) : (s.setUreg g w f n v).slices = s.slices := by simp [State.setUreg]
@[simp] theorem setUreg_started (s : State) (g w f n : Nat) (v : RegWord) : (s.setUreg g w f n v).started = s.started := by simp [State.setUreg]
@[simp] theorem setUreg_spare (s : State) (g w f n : Nat) (v : RegWord) : (s.setUreg g w f n v).spare = s.spare := by simp [State.setUreg]
@[simp] theorem setUreg_dieMap (s : State) (g w f n : Nat) (v : RegWord) : (s.setUreg g w f n v).dieMap = s.dieMap := by simp [State.setUreg]
@[simp] theorem setUreg_absent (s : State) (g w f n : Nat) (v : RegWord) : (s.setUreg g w f n v).absent = s.absent := by simp [State.setUreg]
@[simp] theorem setUreg_throttled (s : State) (g w f n : Nat) (v : RegWord) : (s.setUreg g w f n v).throttled = s.throttled := by simp [State.setUreg]
@[simp] theorem setUreg_lostRanges (s : State) (g w f n : Nat) (v : RegWord) : (s.setUreg g w f n v).lostRanges = s.lostRanges := by simp [State.setUreg]
@[simp] theorem setUreg_removing (s : State) (g w f n : Nat) (v : RegWord) : (s.setUreg g w f n v).removing = s.removing := by simp [State.setUreg]
@[simp] theorem setUreg_capacity (s : State) (g w f n : Nat) (v : RegWord) : (s.setUreg g w f n v).capacity = s.capacity := by simp [State.setUreg]
@[simp] theorem setUreg_clk (s : State) (g w f n : Nat) (v : RegWord) : (s.setUreg g w f n v).clk = s.clk := by simp [State.setUreg]
@[simp] theorem setUreg_netPerf (s : State) (g w f n : Nat) (v : RegWord) : (s.setUreg g w f n v).netPerf = s.netPerf := by simp [State.setUreg]
@[simp] theorem setUreg_mem (s : State) (g w f n : Nat) (v : RegWord) : (s.setUreg g w f n v).mem = s.mem := by simp [State.setUreg]
@[simp] theorem setUreg_bad (s : State) (g w f n : Nat) (v : RegWord) : (s.setUreg g w f n v).bad = s.bad := by simp [State.setUreg]
@[simp] theorem setUreg_gens (s : State) (g w f n : Nat) (v : RegWord) : (s.setUreg g w f n v).gens = s.gens := by simp [State.setUreg]
@[simp] theorem setUreg_owners (s : State) (g w f n : Nat) (v : RegWord) : (s.setUreg g w f n v).owners = s.owners := by simp [State.setUreg]
@[simp] theorem setUreg_holds (s : State) (g w f n : Nat) (v : RegWord) : (s.setUreg g w f n v).holds = s.holds := by simp [State.setUreg]
@[simp] theorem setUreg_msc (s : State) (g w f n : Nat) (v : RegWord) : (s.setUreg g w f n v).msc = s.msc := by simp [State.setUreg]
@[simp] theorem setUreg_atlas (s : State) (g w f n : Nat) (v : RegWord) : (s.setUreg g w f n v).atlas = s.atlas := by simp [State.setUreg]
@[simp] theorem setUreg_pinned (s : State) (g w f n : Nat) (v : RegWord) : (s.setUreg g w f n v).pinned = s.pinned := by simp [State.setUreg]
@[simp] theorem setUreg_msgs (s : State) (g w f n : Nat) (v : RegWord) : (s.setUreg g w f n v).msgs = s.msgs := by simp [State.setUreg]
@[simp] theorem setUreg_pend (s : State) (g w f n : Nat) (v : RegWord) : (s.setUreg g w f n v).pend = s.pend := by simp [State.setUreg]
@[simp] theorem setUreg_prods (s : State) (g w f n : Nat) (v : RegWord) : (s.setUreg g w f n v).prods = s.prods := by simp [State.setUreg]
@[simp] theorem setUreg_cores (s : State) (g w f n : Nat) (v : RegWord) : (s.setUreg g w f n v).cores = s.cores := by simp [State.setUreg]
@[simp] theorem setUreg_cmds (s : State) (g w f n : Nat) (v : RegWord) : (s.setUreg g w f n v).cmds = s.cmds := by simp [State.setUreg]
@[simp] theorem setUreg_pfts (s : State) (g w f n : Nat) (v : RegWord) : (s.setUreg g w f n v).pfts = s.pfts := by simp [State.setUreg]
@[simp] theorem setUreg_pool (s : State) (g w f n : Nat) (v : RegWord) : (s.setUreg g w f n v).pool = s.pool := by simp [State.setUreg]
@[simp] theorem setUreg_deadline (s : State) (g w f n : Nat) (v : RegWord) : (s.setUreg g w f n v).deadline = s.deadline := by simp [State.setUreg]
@[simp] theorem setUreg_engine (s : State) (g w f n : Nat) (v : RegWord) : (s.setUreg g w f n v).engine = s.engine := by simp [State.setUreg]
@[simp] theorem setUreg_ctxs (s : State) (g w f n : Nat) (v : RegWord) : (s.setUreg g w f n v).ctxs = s.ctxs := by simp [State.setUreg]
@[simp] theorem setUreg_keys (s : State) (g w f n : Nat) (v : RegWord) : (s.setUreg g w f n v).keys = s.keys := by simp [State.setUreg]
@[simp] theorem setUreg_xmsgs (s : State) (g w f n : Nat) (v : RegWord) : (s.setUreg g w f n v).xmsgs = s.xmsgs := by simp [State.setUreg]
@[simp] theorem setUreg_rxmsgs (s : State) (g w f n : Nat) (v : RegWord) : (s.setUreg g w f n v).rxmsgs = s.rxmsgs := by simp [State.setUreg]
@[simp] theorem setUreg_placing (s : State) (g w f n : Nat) (v : RegWord) : (s.setUreg g w f n v).placing = s.placing := by simp [State.setUreg]
@[simp] theorem setUreg_sysc (s : State) (g w f n : Nat) (v : RegWord) : (s.setUreg g w f n v).sysc = s.sysc := by simp [State.setUreg]
@[simp] theorem setUreg_tokens (s : State) (g w f n : Nat) (v : RegWord) : (s.setUreg g w f n v).tokens = s.tokens := by simp [State.setUreg]
@[simp] theorem setUreg_scrub (s : State) (g w f n : Nat) (v : RegWord) : (s.setUreg g w f n v).scrub = s.scrub := by simp [State.setUreg]
@[simp] theorem setUreg_ras (s : State) (g w f n : Nat) (v : RegWord) : (s.setUreg g w f n v).ras = s.ras := by simp [State.setUreg]
@[simp] theorem setUreg_mail (s : State) (g w f n : Nat) (v : RegWord) : (s.setUreg g w f n v).mail = s.mail := by simp [State.setUreg]
@[simp] theorem setUreg_teardown (s : State) (g w f n : Nat) (v : RegWord) : (s.setUreg g w f n v).teardown = s.teardown := by simp [State.setUreg]
@[simp] theorem setUreg_replacing (s : State) (g w f n : Nat) (v : RegWord) : (s.setUreg g w f n v).replacing = s.replacing := by simp [State.setUreg]
@[simp] theorem setUreg_late (s : State) (g w f n : Nat) (v : RegWord) : (s.setUreg g w f n v).late = s.late := by simp [State.setUreg]
@[simp] theorem setUreg_tallies (s : State) (g w f n : Nat) (v : RegWord) : (s.setUreg g w f n v).tallies = s.tallies := by simp [State.setUreg]
@[simp] theorem setUreg_upset (s : State) (g w f n : Nat) (v : RegWord) : (s.setUreg g w f n v).upset = s.upset := by simp [State.setUreg]
@[simp] theorem setUreg_heat (s : State) (g w f n : Nat) (v : RegWord) : (s.setUreg g w f n v).heat = s.heat := by simp [State.setUreg]
@[simp] theorem setUreg_dieTlb (s : State) (g w f n : Nat) (v : RegWord) : (s.setUreg g w f n v).dieTlb = s.dieTlb := by simp [State.setUreg]
@[simp] theorem setUreg_walks (s : State) (g w f n : Nat) (v : RegWord) : (s.setUreg g w f n v).walks = s.walks := by simp [State.setUreg]
@[simp] theorem setUreg_walking (s : State) (g w f n : Nat) (v : RegWord) : (s.setUreg g w f n v).walking = s.walking := by simp [State.setUreg]
@[simp] theorem setUreg_tables (s : State) (g w f n : Nat) (v : RegWord) : (s.setUreg g w f n v).tables = s.tables := by simp [State.setUreg]
@[simp] theorem setUreg_lineKeys (s : State) (g w f n : Nat) (v : RegWord) : (s.setUreg g w f n v).lineKeys = s.lineKeys := by simp [State.setUreg]

/-! `setSp` -/

@[simp] theorem setSp_turn (s : State) (g i : Nat) (v : SpadWord) : (s.setSp g i v).turn = s.turn := by simp [State.setSp]
@[simp] theorem setSp_agenda (s : State) (g i : Nat) (v : SpadWord) : (s.setSp g i v).agenda = s.agenda := by simp [State.setSp]
@[simp] theorem setSp_turnNo (s : State) (g i : Nat) (v : SpadWord) : (s.setSp g i v).turnNo = s.turnNo := by simp [State.setSp]
@[simp] theorem setSp_opp (s : State) (g i : Nat) (v : SpadWord) : (s.setSp g i v).opp = s.opp := by simp [State.setSp]
@[simp] theorem setSp_blocked (s : State) (g i : Nat) (v : SpadWord) : (s.setSp g i v).blocked = s.blocked := by simp [State.setSp]
@[simp] theorem setSp_perfRead (s : State) (g i : Nat) (v : SpadWord) : (s.setSp g i v).perfRead = s.perfRead := by simp [State.setSp]
@[simp] theorem setSp_freeN (s : State) (g i : Nat) (v : SpadWord) : (s.setSp g i v).freeN = s.freeN := by simp [State.setSp]
@[simp] theorem setSp_idN (s : State) (g i : Nat) (v : SpadWord) : (s.setSp g i v).idN = s.idN := by simp [State.setSp]
@[simp] theorem setSp_boot (s : State) (g i : Nat) (v : SpadWord) : (s.setSp g i v).boot = s.boot := by simp [State.setSp]
@[simp] theorem setSp_portCode (s : State) (g i : Nat) (v : SpadWord) : (s.setSp g i v).portCode = s.portCode := by simp [State.setSp]
@[simp] theorem setSp_flashBad (s : State) (g i : Nat) (v : SpadWord) : (s.setSp g i v).flashBad = s.flashBad := by simp [State.setSp]
@[simp] theorem setSp_log (s : State) (g i : Nat) (v : SpadWord) : (s.setSp g i v).log = s.log := by simp [State.setSp]
@[simp] theorem setSp_mgmt (s : State) (g i : Nat) (v : SpadWord) : (s.setSp g i v).mgmt = s.mgmt := by simp [State.setSp]
@[simp] theorem setSp_first (s : State) (g i : Nat) (v : SpadWord) : (s.setSp g i v).first = s.first := by simp [State.setSp]
@[simp] theorem setSp_slices (s : State) (g i : Nat) (v : SpadWord) : (s.setSp g i v).slices = s.slices := by simp [State.setSp]
@[simp] theorem setSp_started (s : State) (g i : Nat) (v : SpadWord) : (s.setSp g i v).started = s.started := by simp [State.setSp]
@[simp] theorem setSp_spare (s : State) (g i : Nat) (v : SpadWord) : (s.setSp g i v).spare = s.spare := by simp [State.setSp]
@[simp] theorem setSp_dieMap (s : State) (g i : Nat) (v : SpadWord) : (s.setSp g i v).dieMap = s.dieMap := by simp [State.setSp]
@[simp] theorem setSp_absent (s : State) (g i : Nat) (v : SpadWord) : (s.setSp g i v).absent = s.absent := by simp [State.setSp]
@[simp] theorem setSp_throttled (s : State) (g i : Nat) (v : SpadWord) : (s.setSp g i v).throttled = s.throttled := by simp [State.setSp]
@[simp] theorem setSp_lostRanges (s : State) (g i : Nat) (v : SpadWord) : (s.setSp g i v).lostRanges = s.lostRanges := by simp [State.setSp]
@[simp] theorem setSp_removing (s : State) (g i : Nat) (v : SpadWord) : (s.setSp g i v).removing = s.removing := by simp [State.setSp]
@[simp] theorem setSp_capacity (s : State) (g i : Nat) (v : SpadWord) : (s.setSp g i v).capacity = s.capacity := by simp [State.setSp]
@[simp] theorem setSp_clk (s : State) (g i : Nat) (v : SpadWord) : (s.setSp g i v).clk = s.clk := by simp [State.setSp]
@[simp] theorem setSp_netPerf (s : State) (g i : Nat) (v : SpadWord) : (s.setSp g i v).netPerf = s.netPerf := by simp [State.setSp]
@[simp] theorem setSp_mem (s : State) (g i : Nat) (v : SpadWord) : (s.setSp g i v).mem = s.mem := by simp [State.setSp]
@[simp] theorem setSp_bad (s : State) (g i : Nat) (v : SpadWord) : (s.setSp g i v).bad = s.bad := by simp [State.setSp]
@[simp] theorem setSp_gens (s : State) (g i : Nat) (v : SpadWord) : (s.setSp g i v).gens = s.gens := by simp [State.setSp]
@[simp] theorem setSp_owners (s : State) (g i : Nat) (v : SpadWord) : (s.setSp g i v).owners = s.owners := by simp [State.setSp]
@[simp] theorem setSp_holds (s : State) (g i : Nat) (v : SpadWord) : (s.setSp g i v).holds = s.holds := by simp [State.setSp]
@[simp] theorem setSp_msc (s : State) (g i : Nat) (v : SpadWord) : (s.setSp g i v).msc = s.msc := by simp [State.setSp]
@[simp] theorem setSp_atlas (s : State) (g i : Nat) (v : SpadWord) : (s.setSp g i v).atlas = s.atlas := by simp [State.setSp]
@[simp] theorem setSp_pinned (s : State) (g i : Nat) (v : SpadWord) : (s.setSp g i v).pinned = s.pinned := by simp [State.setSp]
@[simp] theorem setSp_msgs (s : State) (g i : Nat) (v : SpadWord) : (s.setSp g i v).msgs = s.msgs := by simp [State.setSp]
@[simp] theorem setSp_pend (s : State) (g i : Nat) (v : SpadWord) : (s.setSp g i v).pend = s.pend := by simp [State.setSp]
@[simp] theorem setSp_prods (s : State) (g i : Nat) (v : SpadWord) : (s.setSp g i v).prods = s.prods := by simp [State.setSp]
@[simp] theorem setSp_cores (s : State) (g i : Nat) (v : SpadWord) : (s.setSp g i v).cores = s.cores := by simp [State.setSp]
@[simp] theorem setSp_cmds (s : State) (g i : Nat) (v : SpadWord) : (s.setSp g i v).cmds = s.cmds := by simp [State.setSp]
@[simp] theorem setSp_pfts (s : State) (g i : Nat) (v : SpadWord) : (s.setSp g i v).pfts = s.pfts := by simp [State.setSp]
@[simp] theorem setSp_pool (s : State) (g i : Nat) (v : SpadWord) : (s.setSp g i v).pool = s.pool := by simp [State.setSp]
@[simp] theorem setSp_deadline (s : State) (g i : Nat) (v : SpadWord) : (s.setSp g i v).deadline = s.deadline := by simp [State.setSp]
@[simp] theorem setSp_engine (s : State) (g i : Nat) (v : SpadWord) : (s.setSp g i v).engine = s.engine := by simp [State.setSp]
@[simp] theorem setSp_ctxs (s : State) (g i : Nat) (v : SpadWord) : (s.setSp g i v).ctxs = s.ctxs := by simp [State.setSp]
@[simp] theorem setSp_keys (s : State) (g i : Nat) (v : SpadWord) : (s.setSp g i v).keys = s.keys := by simp [State.setSp]
@[simp] theorem setSp_xmsgs (s : State) (g i : Nat) (v : SpadWord) : (s.setSp g i v).xmsgs = s.xmsgs := by simp [State.setSp]
@[simp] theorem setSp_rxmsgs (s : State) (g i : Nat) (v : SpadWord) : (s.setSp g i v).rxmsgs = s.rxmsgs := by simp [State.setSp]
@[simp] theorem setSp_placing (s : State) (g i : Nat) (v : SpadWord) : (s.setSp g i v).placing = s.placing := by simp [State.setSp]
@[simp] theorem setSp_sysc (s : State) (g i : Nat) (v : SpadWord) : (s.setSp g i v).sysc = s.sysc := by simp [State.setSp]
@[simp] theorem setSp_tokens (s : State) (g i : Nat) (v : SpadWord) : (s.setSp g i v).tokens = s.tokens := by simp [State.setSp]
@[simp] theorem setSp_scrub (s : State) (g i : Nat) (v : SpadWord) : (s.setSp g i v).scrub = s.scrub := by simp [State.setSp]
@[simp] theorem setSp_ras (s : State) (g i : Nat) (v : SpadWord) : (s.setSp g i v).ras = s.ras := by simp [State.setSp]
@[simp] theorem setSp_mail (s : State) (g i : Nat) (v : SpadWord) : (s.setSp g i v).mail = s.mail := by simp [State.setSp]
@[simp] theorem setSp_teardown (s : State) (g i : Nat) (v : SpadWord) : (s.setSp g i v).teardown = s.teardown := by simp [State.setSp]
@[simp] theorem setSp_replacing (s : State) (g i : Nat) (v : SpadWord) : (s.setSp g i v).replacing = s.replacing := by simp [State.setSp]
@[simp] theorem setSp_late (s : State) (g i : Nat) (v : SpadWord) : (s.setSp g i v).late = s.late := by simp [State.setSp]
@[simp] theorem setSp_tallies (s : State) (g i : Nat) (v : SpadWord) : (s.setSp g i v).tallies = s.tallies := by simp [State.setSp]
@[simp] theorem setSp_upset (s : State) (g i : Nat) (v : SpadWord) : (s.setSp g i v).upset = s.upset := by simp [State.setSp]
@[simp] theorem setSp_heat (s : State) (g i : Nat) (v : SpadWord) : (s.setSp g i v).heat = s.heat := by simp [State.setSp]
@[simp] theorem setSp_dieTlb (s : State) (g i : Nat) (v : SpadWord) : (s.setSp g i v).dieTlb = s.dieTlb := by simp [State.setSp]
@[simp] theorem setSp_walks (s : State) (g i : Nat) (v : SpadWord) : (s.setSp g i v).walks = s.walks := by simp [State.setSp]
@[simp] theorem setSp_walking (s : State) (g i : Nat) (v : SpadWord) : (s.setSp g i v).walking = s.walking := by simp [State.setSp]
@[simp] theorem setSp_tables (s : State) (g i : Nat) (v : SpadWord) : (s.setSp g i v).tables = s.tables := by simp [State.setSp]
@[simp] theorem setSp_lineKeys (s : State) (g i : Nat) (v : SpadWord) : (s.setSp g i v).lineKeys = s.lineKeys := by simp [State.setSp]

/-! `barOp` -/

@[simp] theorem barOp_turn (s : State) (g : Nat) (o : BarOp) : (s.barOp g o).turn = s.turn := by simp [State.barOp]
@[simp] theorem barOp_agenda (s : State) (g : Nat) (o : BarOp) : (s.barOp g o).agenda = s.agenda := by simp [State.barOp]
@[simp] theorem barOp_turnNo (s : State) (g : Nat) (o : BarOp) : (s.barOp g o).turnNo = s.turnNo := by simp [State.barOp]
@[simp] theorem barOp_opp (s : State) (g : Nat) (o : BarOp) : (s.barOp g o).opp = s.opp := by simp [State.barOp]
@[simp] theorem barOp_blocked (s : State) (g : Nat) (o : BarOp) : (s.barOp g o).blocked = s.blocked := by simp [State.barOp]
@[simp] theorem barOp_perfRead (s : State) (g : Nat) (o : BarOp) : (s.barOp g o).perfRead = s.perfRead := by simp [State.barOp]
@[simp] theorem barOp_freeN (s : State) (g : Nat) (o : BarOp) : (s.barOp g o).freeN = s.freeN := by simp [State.barOp]
@[simp] theorem barOp_idN (s : State) (g : Nat) (o : BarOp) : (s.barOp g o).idN = s.idN := by simp [State.barOp]
@[simp] theorem barOp_boot (s : State) (g : Nat) (o : BarOp) : (s.barOp g o).boot = s.boot := by simp [State.barOp]
@[simp] theorem barOp_portCode (s : State) (g : Nat) (o : BarOp) : (s.barOp g o).portCode = s.portCode := by simp [State.barOp]
@[simp] theorem barOp_flashBad (s : State) (g : Nat) (o : BarOp) : (s.barOp g o).flashBad = s.flashBad := by simp [State.barOp]
@[simp] theorem barOp_log (s : State) (g : Nat) (o : BarOp) : (s.barOp g o).log = s.log := by simp [State.barOp]
@[simp] theorem barOp_mgmt (s : State) (g : Nat) (o : BarOp) : (s.barOp g o).mgmt = s.mgmt := by simp [State.barOp]
@[simp] theorem barOp_first (s : State) (g : Nat) (o : BarOp) : (s.barOp g o).first = s.first := by simp [State.barOp]
@[simp] theorem barOp_slices (s : State) (g : Nat) (o : BarOp) : (s.barOp g o).slices = s.slices := by simp [State.barOp]
@[simp] theorem barOp_started (s : State) (g : Nat) (o : BarOp) : (s.barOp g o).started = s.started := by simp [State.barOp]
@[simp] theorem barOp_spare (s : State) (g : Nat) (o : BarOp) : (s.barOp g o).spare = s.spare := by simp [State.barOp]
@[simp] theorem barOp_dieMap (s : State) (g : Nat) (o : BarOp) : (s.barOp g o).dieMap = s.dieMap := by simp [State.barOp]
@[simp] theorem barOp_absent (s : State) (g : Nat) (o : BarOp) : (s.barOp g o).absent = s.absent := by simp [State.barOp]
@[simp] theorem barOp_throttled (s : State) (g : Nat) (o : BarOp) : (s.barOp g o).throttled = s.throttled := by simp [State.barOp]
@[simp] theorem barOp_lostRanges (s : State) (g : Nat) (o : BarOp) : (s.barOp g o).lostRanges = s.lostRanges := by simp [State.barOp]
@[simp] theorem barOp_removing (s : State) (g : Nat) (o : BarOp) : (s.barOp g o).removing = s.removing := by simp [State.barOp]
@[simp] theorem barOp_capacity (s : State) (g : Nat) (o : BarOp) : (s.barOp g o).capacity = s.capacity := by simp [State.barOp]
@[simp] theorem barOp_clk (s : State) (g : Nat) (o : BarOp) : (s.barOp g o).clk = s.clk := by simp [State.barOp]
@[simp] theorem barOp_netPerf (s : State) (g : Nat) (o : BarOp) : (s.barOp g o).netPerf = s.netPerf := by simp [State.barOp]
@[simp] theorem barOp_mem (s : State) (g : Nat) (o : BarOp) : (s.barOp g o).mem = s.mem := by simp [State.barOp]
@[simp] theorem barOp_bad (s : State) (g : Nat) (o : BarOp) : (s.barOp g o).bad = s.bad := by simp [State.barOp]
@[simp] theorem barOp_gens (s : State) (g : Nat) (o : BarOp) : (s.barOp g o).gens = s.gens := by simp [State.barOp]
@[simp] theorem barOp_owners (s : State) (g : Nat) (o : BarOp) : (s.barOp g o).owners = s.owners := by simp [State.barOp]
@[simp] theorem barOp_holds (s : State) (g : Nat) (o : BarOp) : (s.barOp g o).holds = s.holds := by simp [State.barOp]
@[simp] theorem barOp_msc (s : State) (g : Nat) (o : BarOp) : (s.barOp g o).msc = s.msc := by simp [State.barOp]
@[simp] theorem barOp_atlas (s : State) (g : Nat) (o : BarOp) : (s.barOp g o).atlas = s.atlas := by simp [State.barOp]
@[simp] theorem barOp_pinned (s : State) (g : Nat) (o : BarOp) : (s.barOp g o).pinned = s.pinned := by simp [State.barOp]
@[simp] theorem barOp_msgs (s : State) (g : Nat) (o : BarOp) : (s.barOp g o).msgs = s.msgs := by simp [State.barOp]
@[simp] theorem barOp_pend (s : State) (g : Nat) (o : BarOp) : (s.barOp g o).pend = s.pend := by simp [State.barOp]
@[simp] theorem barOp_prods (s : State) (g : Nat) (o : BarOp) : (s.barOp g o).prods = s.prods := by simp [State.barOp]
@[simp] theorem barOp_cores (s : State) (g : Nat) (o : BarOp) : (s.barOp g o).cores = s.cores := by simp [State.barOp]
@[simp] theorem barOp_cmds (s : State) (g : Nat) (o : BarOp) : (s.barOp g o).cmds = s.cmds := by simp [State.barOp]
@[simp] theorem barOp_pfts (s : State) (g : Nat) (o : BarOp) : (s.barOp g o).pfts = s.pfts := by simp [State.barOp]
@[simp] theorem barOp_pool (s : State) (g : Nat) (o : BarOp) : (s.barOp g o).pool = s.pool := by simp [State.barOp]
@[simp] theorem barOp_deadline (s : State) (g : Nat) (o : BarOp) : (s.barOp g o).deadline = s.deadline := by simp [State.barOp]
@[simp] theorem barOp_engine (s : State) (g : Nat) (o : BarOp) : (s.barOp g o).engine = s.engine := by simp [State.barOp]
@[simp] theorem barOp_ctxs (s : State) (g : Nat) (o : BarOp) : (s.barOp g o).ctxs = s.ctxs := by simp [State.barOp]
@[simp] theorem barOp_keys (s : State) (g : Nat) (o : BarOp) : (s.barOp g o).keys = s.keys := by simp [State.barOp]
@[simp] theorem barOp_xmsgs (s : State) (g : Nat) (o : BarOp) : (s.barOp g o).xmsgs = s.xmsgs := by simp [State.barOp]
@[simp] theorem barOp_rxmsgs (s : State) (g : Nat) (o : BarOp) : (s.barOp g o).rxmsgs = s.rxmsgs := by simp [State.barOp]
@[simp] theorem barOp_placing (s : State) (g : Nat) (o : BarOp) : (s.barOp g o).placing = s.placing := by simp [State.barOp]
@[simp] theorem barOp_sysc (s : State) (g : Nat) (o : BarOp) : (s.barOp g o).sysc = s.sysc := by simp [State.barOp]
@[simp] theorem barOp_tokens (s : State) (g : Nat) (o : BarOp) : (s.barOp g o).tokens = s.tokens := by simp [State.barOp]
@[simp] theorem barOp_scrub (s : State) (g : Nat) (o : BarOp) : (s.barOp g o).scrub = s.scrub := by simp [State.barOp]
@[simp] theorem barOp_ras (s : State) (g : Nat) (o : BarOp) : (s.barOp g o).ras = s.ras := by simp [State.barOp]
@[simp] theorem barOp_mail (s : State) (g : Nat) (o : BarOp) : (s.barOp g o).mail = s.mail := by simp [State.barOp]
@[simp] theorem barOp_teardown (s : State) (g : Nat) (o : BarOp) : (s.barOp g o).teardown = s.teardown := by simp [State.barOp]
@[simp] theorem barOp_replacing (s : State) (g : Nat) (o : BarOp) : (s.barOp g o).replacing = s.replacing := by simp [State.barOp]
@[simp] theorem barOp_late (s : State) (g : Nat) (o : BarOp) : (s.barOp g o).late = s.late := by simp [State.barOp]
@[simp] theorem barOp_tallies (s : State) (g : Nat) (o : BarOp) : (s.barOp g o).tallies = s.tallies := by simp [State.barOp]
@[simp] theorem barOp_upset (s : State) (g : Nat) (o : BarOp) : (s.barOp g o).upset = s.upset := by simp [State.barOp]
@[simp] theorem barOp_heat (s : State) (g : Nat) (o : BarOp) : (s.barOp g o).heat = s.heat := by simp [State.barOp]
@[simp] theorem barOp_dieTlb (s : State) (g : Nat) (o : BarOp) : (s.barOp g o).dieTlb = s.dieTlb := by simp [State.barOp]
@[simp] theorem barOp_walks (s : State) (g : Nat) (o : BarOp) : (s.barOp g o).walks = s.walks := by simp [State.barOp]
@[simp] theorem barOp_walking (s : State) (g : Nat) (o : BarOp) : (s.barOp g o).walking = s.walking := by simp [State.barOp]
@[simp] theorem barOp_tables (s : State) (g : Nat) (o : BarOp) : (s.barOp g o).tables = s.tables := by simp [State.barOp]
@[simp] theorem barOp_lineKeys (s : State) (g : Nat) (o : BarOp) : (s.barOp g o).lineKeys = s.lineKeys := by simp [State.barOp]

/-! `setFlags` -/

@[simp] theorem setFlags_turn (s : State) (g w f : Nat) (m : Word) : (s.setFlags g w f m).turn = s.turn := by simp [State.setFlags]
@[simp] theorem setFlags_agenda (s : State) (g w f : Nat) (m : Word) : (s.setFlags g w f m).agenda = s.agenda := by simp [State.setFlags]
@[simp] theorem setFlags_turnNo (s : State) (g w f : Nat) (m : Word) : (s.setFlags g w f m).turnNo = s.turnNo := by simp [State.setFlags]
@[simp] theorem setFlags_opp (s : State) (g w f : Nat) (m : Word) : (s.setFlags g w f m).opp = s.opp := by simp [State.setFlags]
@[simp] theorem setFlags_blocked (s : State) (g w f : Nat) (m : Word) : (s.setFlags g w f m).blocked = s.blocked := by simp [State.setFlags]
@[simp] theorem setFlags_perfRead (s : State) (g w f : Nat) (m : Word) : (s.setFlags g w f m).perfRead = s.perfRead := by simp [State.setFlags]
@[simp] theorem setFlags_freeN (s : State) (g w f : Nat) (m : Word) : (s.setFlags g w f m).freeN = s.freeN := by simp [State.setFlags]
@[simp] theorem setFlags_idN (s : State) (g w f : Nat) (m : Word) : (s.setFlags g w f m).idN = s.idN := by simp [State.setFlags]
@[simp] theorem setFlags_boot (s : State) (g w f : Nat) (m : Word) : (s.setFlags g w f m).boot = s.boot := by simp [State.setFlags]
@[simp] theorem setFlags_portCode (s : State) (g w f : Nat) (m : Word) : (s.setFlags g w f m).portCode = s.portCode := by simp [State.setFlags]
@[simp] theorem setFlags_flashBad (s : State) (g w f : Nat) (m : Word) : (s.setFlags g w f m).flashBad = s.flashBad := by simp [State.setFlags]
@[simp] theorem setFlags_log (s : State) (g w f : Nat) (m : Word) : (s.setFlags g w f m).log = s.log := by simp [State.setFlags]
@[simp] theorem setFlags_mgmt (s : State) (g w f : Nat) (m : Word) : (s.setFlags g w f m).mgmt = s.mgmt := by simp [State.setFlags]
@[simp] theorem setFlags_first (s : State) (g w f : Nat) (m : Word) : (s.setFlags g w f m).first = s.first := by simp [State.setFlags]
@[simp] theorem setFlags_slices (s : State) (g w f : Nat) (m : Word) : (s.setFlags g w f m).slices = s.slices := by simp [State.setFlags]
@[simp] theorem setFlags_started (s : State) (g w f : Nat) (m : Word) : (s.setFlags g w f m).started = s.started := by simp [State.setFlags]
@[simp] theorem setFlags_spare (s : State) (g w f : Nat) (m : Word) : (s.setFlags g w f m).spare = s.spare := by simp [State.setFlags]
@[simp] theorem setFlags_dieMap (s : State) (g w f : Nat) (m : Word) : (s.setFlags g w f m).dieMap = s.dieMap := by simp [State.setFlags]
@[simp] theorem setFlags_absent (s : State) (g w f : Nat) (m : Word) : (s.setFlags g w f m).absent = s.absent := by simp [State.setFlags]
@[simp] theorem setFlags_throttled (s : State) (g w f : Nat) (m : Word) : (s.setFlags g w f m).throttled = s.throttled := by simp [State.setFlags]
@[simp] theorem setFlags_lostRanges (s : State) (g w f : Nat) (m : Word) : (s.setFlags g w f m).lostRanges = s.lostRanges := by simp [State.setFlags]
@[simp] theorem setFlags_removing (s : State) (g w f : Nat) (m : Word) : (s.setFlags g w f m).removing = s.removing := by simp [State.setFlags]
@[simp] theorem setFlags_capacity (s : State) (g w f : Nat) (m : Word) : (s.setFlags g w f m).capacity = s.capacity := by simp [State.setFlags]
@[simp] theorem setFlags_clk (s : State) (g w f : Nat) (m : Word) : (s.setFlags g w f m).clk = s.clk := by simp [State.setFlags]
@[simp] theorem setFlags_netPerf (s : State) (g w f : Nat) (m : Word) : (s.setFlags g w f m).netPerf = s.netPerf := by simp [State.setFlags]
@[simp] theorem setFlags_mem (s : State) (g w f : Nat) (m : Word) : (s.setFlags g w f m).mem = s.mem := by simp [State.setFlags]
@[simp] theorem setFlags_bad (s : State) (g w f : Nat) (m : Word) : (s.setFlags g w f m).bad = s.bad := by simp [State.setFlags]
@[simp] theorem setFlags_gens (s : State) (g w f : Nat) (m : Word) : (s.setFlags g w f m).gens = s.gens := by simp [State.setFlags]
@[simp] theorem setFlags_owners (s : State) (g w f : Nat) (m : Word) : (s.setFlags g w f m).owners = s.owners := by simp [State.setFlags]
@[simp] theorem setFlags_holds (s : State) (g w f : Nat) (m : Word) : (s.setFlags g w f m).holds = s.holds := by simp [State.setFlags]
@[simp] theorem setFlags_msc (s : State) (g w f : Nat) (m : Word) : (s.setFlags g w f m).msc = s.msc := by simp [State.setFlags]
@[simp] theorem setFlags_atlas (s : State) (g w f : Nat) (m : Word) : (s.setFlags g w f m).atlas = s.atlas := by simp [State.setFlags]
@[simp] theorem setFlags_pinned (s : State) (g w f : Nat) (m : Word) : (s.setFlags g w f m).pinned = s.pinned := by simp [State.setFlags]
@[simp] theorem setFlags_msgs (s : State) (g w f : Nat) (m : Word) : (s.setFlags g w f m).msgs = s.msgs := by simp [State.setFlags]
@[simp] theorem setFlags_pend (s : State) (g w f : Nat) (m : Word) : (s.setFlags g w f m).pend = s.pend := by simp [State.setFlags]
@[simp] theorem setFlags_prods (s : State) (g w f : Nat) (m : Word) : (s.setFlags g w f m).prods = s.prods := by simp [State.setFlags]
@[simp] theorem setFlags_cores (s : State) (g w f : Nat) (m : Word) : (s.setFlags g w f m).cores = s.cores := by simp [State.setFlags]
@[simp] theorem setFlags_cmds (s : State) (g w f : Nat) (m : Word) : (s.setFlags g w f m).cmds = s.cmds := by simp [State.setFlags]
@[simp] theorem setFlags_pfts (s : State) (g w f : Nat) (m : Word) : (s.setFlags g w f m).pfts = s.pfts := by simp [State.setFlags]
@[simp] theorem setFlags_pool (s : State) (g w f : Nat) (m : Word) : (s.setFlags g w f m).pool = s.pool := by simp [State.setFlags]
@[simp] theorem setFlags_deadline (s : State) (g w f : Nat) (m : Word) : (s.setFlags g w f m).deadline = s.deadline := by simp [State.setFlags]
@[simp] theorem setFlags_engine (s : State) (g w f : Nat) (m : Word) : (s.setFlags g w f m).engine = s.engine := by simp [State.setFlags]
@[simp] theorem setFlags_ctxs (s : State) (g w f : Nat) (m : Word) : (s.setFlags g w f m).ctxs = s.ctxs := by simp [State.setFlags]
@[simp] theorem setFlags_keys (s : State) (g w f : Nat) (m : Word) : (s.setFlags g w f m).keys = s.keys := by simp [State.setFlags]
@[simp] theorem setFlags_xmsgs (s : State) (g w f : Nat) (m : Word) : (s.setFlags g w f m).xmsgs = s.xmsgs := by simp [State.setFlags]
@[simp] theorem setFlags_rxmsgs (s : State) (g w f : Nat) (m : Word) : (s.setFlags g w f m).rxmsgs = s.rxmsgs := by simp [State.setFlags]
@[simp] theorem setFlags_placing (s : State) (g w f : Nat) (m : Word) : (s.setFlags g w f m).placing = s.placing := by simp [State.setFlags]
@[simp] theorem setFlags_sysc (s : State) (g w f : Nat) (m : Word) : (s.setFlags g w f m).sysc = s.sysc := by simp [State.setFlags]
@[simp] theorem setFlags_tokens (s : State) (g w f : Nat) (m : Word) : (s.setFlags g w f m).tokens = s.tokens := by simp [State.setFlags]
@[simp] theorem setFlags_scrub (s : State) (g w f : Nat) (m : Word) : (s.setFlags g w f m).scrub = s.scrub := by simp [State.setFlags]
@[simp] theorem setFlags_ras (s : State) (g w f : Nat) (m : Word) : (s.setFlags g w f m).ras = s.ras := by simp [State.setFlags]
@[simp] theorem setFlags_mail (s : State) (g w f : Nat) (m : Word) : (s.setFlags g w f m).mail = s.mail := by simp [State.setFlags]
@[simp] theorem setFlags_teardown (s : State) (g w f : Nat) (m : Word) : (s.setFlags g w f m).teardown = s.teardown := by simp [State.setFlags]
@[simp] theorem setFlags_replacing (s : State) (g w f : Nat) (m : Word) : (s.setFlags g w f m).replacing = s.replacing := by simp [State.setFlags]
@[simp] theorem setFlags_late (s : State) (g w f : Nat) (m : Word) : (s.setFlags g w f m).late = s.late := by simp [State.setFlags]
@[simp] theorem setFlags_tallies (s : State) (g w f : Nat) (m : Word) : (s.setFlags g w f m).tallies = s.tallies := by simp [State.setFlags]
@[simp] theorem setFlags_upset (s : State) (g w f : Nat) (m : Word) : (s.setFlags g w f m).upset = s.upset := by simp [State.setFlags]
@[simp] theorem setFlags_heat (s : State) (g w f : Nat) (m : Word) : (s.setFlags g w f m).heat = s.heat := by simp [State.setFlags]
@[simp] theorem setFlags_dieTlb (s : State) (g w f : Nat) (m : Word) : (s.setFlags g w f m).dieTlb = s.dieTlb := by simp [State.setFlags]
@[simp] theorem setFlags_walks (s : State) (g w f : Nat) (m : Word) : (s.setFlags g w f m).walks = s.walks := by simp [State.setFlags]
@[simp] theorem setFlags_walking (s : State) (g w f : Nat) (m : Word) : (s.setFlags g w f m).walking = s.walking := by simp [State.setFlags]
@[simp] theorem setFlags_tables (s : State) (g w f : Nat) (m : Word) : (s.setFlags g w f m).tables = s.tables := by simp [State.setFlags]
@[simp] theorem setFlags_lineKeys (s : State) (g w f : Nat) (m : Word) : (s.setFlags g w f m).lineKeys = s.lineKeys := by simp [State.setFlags]

/-! `modCore` -/

@[simp] theorem modCore_turn (s : State) (c : Nat) (k : Core → Core) : (s.modCore c k).turn = s.turn := rfl
@[simp] theorem modCore_agenda (s : State) (c : Nat) (k : Core → Core) : (s.modCore c k).agenda = s.agenda := rfl
@[simp] theorem modCore_turnNo (s : State) (c : Nat) (k : Core → Core) : (s.modCore c k).turnNo = s.turnNo := rfl
@[simp] theorem modCore_opp (s : State) (c : Nat) (k : Core → Core) : (s.modCore c k).opp = s.opp := rfl
@[simp] theorem modCore_blocked (s : State) (c : Nat) (k : Core → Core) : (s.modCore c k).blocked = s.blocked := rfl
@[simp] theorem modCore_perfRead (s : State) (c : Nat) (k : Core → Core) : (s.modCore c k).perfRead = s.perfRead := rfl
@[simp] theorem modCore_freeN (s : State) (c : Nat) (k : Core → Core) : (s.modCore c k).freeN = s.freeN := rfl
@[simp] theorem modCore_idN (s : State) (c : Nat) (k : Core → Core) : (s.modCore c k).idN = s.idN := rfl
@[simp] theorem modCore_boot (s : State) (c : Nat) (k : Core → Core) : (s.modCore c k).boot = s.boot := rfl
@[simp] theorem modCore_portCode (s : State) (c : Nat) (k : Core → Core) : (s.modCore c k).portCode = s.portCode := rfl
@[simp] theorem modCore_flashBad (s : State) (c : Nat) (k : Core → Core) : (s.modCore c k).flashBad = s.flashBad := rfl
@[simp] theorem modCore_log (s : State) (c : Nat) (k : Core → Core) : (s.modCore c k).log = s.log := rfl
@[simp] theorem modCore_mgmt (s : State) (c : Nat) (k : Core → Core) : (s.modCore c k).mgmt = s.mgmt := rfl
@[simp] theorem modCore_first (s : State) (c : Nat) (k : Core → Core) : (s.modCore c k).first = s.first := rfl
@[simp] theorem modCore_slices (s : State) (c : Nat) (k : Core → Core) : (s.modCore c k).slices = s.slices := rfl
@[simp] theorem modCore_started (s : State) (c : Nat) (k : Core → Core) : (s.modCore c k).started = s.started := rfl
@[simp] theorem modCore_spare (s : State) (c : Nat) (k : Core → Core) : (s.modCore c k).spare = s.spare := rfl
@[simp] theorem modCore_dieMap (s : State) (c : Nat) (k : Core → Core) : (s.modCore c k).dieMap = s.dieMap := rfl
@[simp] theorem modCore_absent (s : State) (c : Nat) (k : Core → Core) : (s.modCore c k).absent = s.absent := rfl
@[simp] theorem modCore_throttled (s : State) (c : Nat) (k : Core → Core) : (s.modCore c k).throttled = s.throttled := rfl
@[simp] theorem modCore_lostRanges (s : State) (c : Nat) (k : Core → Core) : (s.modCore c k).lostRanges = s.lostRanges := rfl
@[simp] theorem modCore_removing (s : State) (c : Nat) (k : Core → Core) : (s.modCore c k).removing = s.removing := rfl
@[simp] theorem modCore_capacity (s : State) (c : Nat) (k : Core → Core) : (s.modCore c k).capacity = s.capacity := rfl
@[simp] theorem modCore_clk (s : State) (c : Nat) (k : Core → Core) : (s.modCore c k).clk = s.clk := rfl
@[simp] theorem modCore_netPerf (s : State) (c : Nat) (k : Core → Core) : (s.modCore c k).netPerf = s.netPerf := rfl
@[simp] theorem modCore_mem (s : State) (c : Nat) (k : Core → Core) : (s.modCore c k).mem = s.mem := rfl
@[simp] theorem modCore_bad (s : State) (c : Nat) (k : Core → Core) : (s.modCore c k).bad = s.bad := rfl
@[simp] theorem modCore_gens (s : State) (c : Nat) (k : Core → Core) : (s.modCore c k).gens = s.gens := rfl
@[simp] theorem modCore_owners (s : State) (c : Nat) (k : Core → Core) : (s.modCore c k).owners = s.owners := rfl
@[simp] theorem modCore_holds (s : State) (c : Nat) (k : Core → Core) : (s.modCore c k).holds = s.holds := rfl
@[simp] theorem modCore_msc (s : State) (c : Nat) (k : Core → Core) : (s.modCore c k).msc = s.msc := rfl
@[simp] theorem modCore_atlas (s : State) (c : Nat) (k : Core → Core) : (s.modCore c k).atlas = s.atlas := rfl
@[simp] theorem modCore_pinned (s : State) (c : Nat) (k : Core → Core) : (s.modCore c k).pinned = s.pinned := rfl
@[simp] theorem modCore_msgs (s : State) (c : Nat) (k : Core → Core) : (s.modCore c k).msgs = s.msgs := rfl
@[simp] theorem modCore_pend (s : State) (c : Nat) (k : Core → Core) : (s.modCore c k).pend = s.pend := rfl
@[simp] theorem modCore_prods (s : State) (c : Nat) (k : Core → Core) : (s.modCore c k).prods = s.prods := rfl
@[simp] theorem modCore_groups (s : State) (c : Nat) (k : Core → Core) : (s.modCore c k).groups = s.groups := rfl
@[simp] theorem modCore_saved (s : State) (c : Nat) (k : Core → Core) : (s.modCore c k).saved = s.saved := rfl
@[simp] theorem modCore_cmds (s : State) (c : Nat) (k : Core → Core) : (s.modCore c k).cmds = s.cmds := rfl
@[simp] theorem modCore_pfts (s : State) (c : Nat) (k : Core → Core) : (s.modCore c k).pfts = s.pfts := rfl
@[simp] theorem modCore_pool (s : State) (c : Nat) (k : Core → Core) : (s.modCore c k).pool = s.pool := rfl
@[simp] theorem modCore_deadline (s : State) (c : Nat) (k : Core → Core) : (s.modCore c k).deadline = s.deadline := rfl
@[simp] theorem modCore_engine (s : State) (c : Nat) (k : Core → Core) : (s.modCore c k).engine = s.engine := rfl
@[simp] theorem modCore_ctxs (s : State) (c : Nat) (k : Core → Core) : (s.modCore c k).ctxs = s.ctxs := rfl
@[simp] theorem modCore_keys (s : State) (c : Nat) (k : Core → Core) : (s.modCore c k).keys = s.keys := rfl
@[simp] theorem modCore_xmsgs (s : State) (c : Nat) (k : Core → Core) : (s.modCore c k).xmsgs = s.xmsgs := rfl
@[simp] theorem modCore_rxmsgs (s : State) (c : Nat) (k : Core → Core) : (s.modCore c k).rxmsgs = s.rxmsgs := rfl
@[simp] theorem modCore_placing (s : State) (c : Nat) (k : Core → Core) : (s.modCore c k).placing = s.placing := rfl
@[simp] theorem modCore_sysc (s : State) (c : Nat) (k : Core → Core) : (s.modCore c k).sysc = s.sysc := rfl
@[simp] theorem modCore_tokens (s : State) (c : Nat) (k : Core → Core) : (s.modCore c k).tokens = s.tokens := rfl
@[simp] theorem modCore_scrub (s : State) (c : Nat) (k : Core → Core) : (s.modCore c k).scrub = s.scrub := rfl
@[simp] theorem modCore_ras (s : State) (c : Nat) (k : Core → Core) : (s.modCore c k).ras = s.ras := rfl
@[simp] theorem modCore_mail (s : State) (c : Nat) (k : Core → Core) : (s.modCore c k).mail = s.mail := rfl
@[simp] theorem modCore_teardown (s : State) (c : Nat) (k : Core → Core) : (s.modCore c k).teardown = s.teardown := rfl
@[simp] theorem modCore_replacing (s : State) (c : Nat) (k : Core → Core) : (s.modCore c k).replacing = s.replacing := rfl
@[simp] theorem modCore_late (s : State) (c : Nat) (k : Core → Core) : (s.modCore c k).late = s.late := rfl
@[simp] theorem modCore_tallies (s : State) (c : Nat) (k : Core → Core) : (s.modCore c k).tallies = s.tallies := rfl
@[simp] theorem modCore_upset (s : State) (c : Nat) (k : Core → Core) : (s.modCore c k).upset = s.upset := rfl
@[simp] theorem modCore_heat (s : State) (c : Nat) (k : Core → Core) : (s.modCore c k).heat = s.heat := rfl
@[simp] theorem modCore_dieTlb (s : State) (c : Nat) (k : Core → Core) : (s.modCore c k).dieTlb = s.dieTlb := rfl
@[simp] theorem modCore_walks (s : State) (c : Nat) (k : Core → Core) : (s.modCore c k).walks = s.walks := rfl
@[simp] theorem modCore_walking (s : State) (c : Nat) (k : Core → Core) : (s.modCore c k).walking = s.walking := rfl
@[simp] theorem modCore_tables (s : State) (c : Nat) (k : Core → Core) : (s.modCore c k).tables = s.tables := rfl
@[simp] theorem modCore_lineKeys (s : State) (c : Nat) (k : Core → Core) : (s.modCore c k).lineKeys = s.lineKeys := rfl

/-! `setHome` -/

@[simp] theorem setHome_turn (s : State) (wa : Nat) (v : MemWord) : (s.setHome wa v).turn = s.turn := rfl
@[simp] theorem setHome_turnNo (s : State) (wa : Nat) (v : MemWord) : (s.setHome wa v).turnNo = s.turnNo := rfl
@[simp] theorem setHome_opp (s : State) (wa : Nat) (v : MemWord) : (s.setHome wa v).opp = s.opp := rfl
@[simp] theorem setHome_blocked (s : State) (wa : Nat) (v : MemWord) : (s.setHome wa v).blocked = s.blocked := rfl
@[simp] theorem setHome_perfRead (s : State) (wa : Nat) (v : MemWord) : (s.setHome wa v).perfRead = s.perfRead := rfl
@[simp] theorem setHome_freeN (s : State) (wa : Nat) (v : MemWord) : (s.setHome wa v).freeN = s.freeN := rfl
@[simp] theorem setHome_idN (s : State) (wa : Nat) (v : MemWord) : (s.setHome wa v).idN = s.idN := rfl
@[simp] theorem setHome_boot (s : State) (wa : Nat) (v : MemWord) : (s.setHome wa v).boot = s.boot := rfl
@[simp] theorem setHome_portCode (s : State) (wa : Nat) (v : MemWord) : (s.setHome wa v).portCode = s.portCode := rfl
@[simp] theorem setHome_flashBad (s : State) (wa : Nat) (v : MemWord) : (s.setHome wa v).flashBad = s.flashBad := rfl
@[simp] theorem setHome_log (s : State) (wa : Nat) (v : MemWord) : (s.setHome wa v).log = s.log := rfl
@[simp] theorem setHome_mgmt (s : State) (wa : Nat) (v : MemWord) : (s.setHome wa v).mgmt = s.mgmt := rfl
@[simp] theorem setHome_first (s : State) (wa : Nat) (v : MemWord) : (s.setHome wa v).first = s.first := rfl
@[simp] theorem setHome_slices (s : State) (wa : Nat) (v : MemWord) : (s.setHome wa v).slices = s.slices := rfl
@[simp] theorem setHome_started (s : State) (wa : Nat) (v : MemWord) : (s.setHome wa v).started = s.started := rfl
@[simp] theorem setHome_spare (s : State) (wa : Nat) (v : MemWord) : (s.setHome wa v).spare = s.spare := rfl
@[simp] theorem setHome_dieMap (s : State) (wa : Nat) (v : MemWord) : (s.setHome wa v).dieMap = s.dieMap := rfl
@[simp] theorem setHome_absent (s : State) (wa : Nat) (v : MemWord) : (s.setHome wa v).absent = s.absent := rfl
@[simp] theorem setHome_throttled (s : State) (wa : Nat) (v : MemWord) : (s.setHome wa v).throttled = s.throttled := rfl
@[simp] theorem setHome_lostRanges (s : State) (wa : Nat) (v : MemWord) : (s.setHome wa v).lostRanges = s.lostRanges := rfl
@[simp] theorem setHome_removing (s : State) (wa : Nat) (v : MemWord) : (s.setHome wa v).removing = s.removing := rfl
@[simp] theorem setHome_capacity (s : State) (wa : Nat) (v : MemWord) : (s.setHome wa v).capacity = s.capacity := rfl
@[simp] theorem setHome_clk (s : State) (wa : Nat) (v : MemWord) : (s.setHome wa v).clk = s.clk := rfl
@[simp] theorem setHome_netPerf (s : State) (wa : Nat) (v : MemWord) : (s.setHome wa v).netPerf = s.netPerf := rfl
@[simp] theorem setHome_gens (s : State) (wa : Nat) (v : MemWord) : (s.setHome wa v).gens = s.gens := rfl
@[simp] theorem setHome_owners (s : State) (wa : Nat) (v : MemWord) : (s.setHome wa v).owners = s.owners := rfl
@[simp] theorem setHome_holds (s : State) (wa : Nat) (v : MemWord) : (s.setHome wa v).holds = s.holds := rfl
@[simp] theorem setHome_msc (s : State) (wa : Nat) (v : MemWord) : (s.setHome wa v).msc = s.msc := rfl
@[simp] theorem setHome_atlas (s : State) (wa : Nat) (v : MemWord) : (s.setHome wa v).atlas = s.atlas := rfl
@[simp] theorem setHome_pinned (s : State) (wa : Nat) (v : MemWord) : (s.setHome wa v).pinned = s.pinned := rfl
@[simp] theorem setHome_msgs (s : State) (wa : Nat) (v : MemWord) : (s.setHome wa v).msgs = s.msgs := rfl
@[simp] theorem setHome_pend (s : State) (wa : Nat) (v : MemWord) : (s.setHome wa v).pend = s.pend := rfl
@[simp] theorem setHome_prods (s : State) (wa : Nat) (v : MemWord) : (s.setHome wa v).prods = s.prods := rfl
@[simp] theorem setHome_cores (s : State) (wa : Nat) (v : MemWord) : (s.setHome wa v).cores = s.cores := rfl
@[simp] theorem setHome_groups (s : State) (wa : Nat) (v : MemWord) : (s.setHome wa v).groups = s.groups := rfl
@[simp] theorem setHome_saved (s : State) (wa : Nat) (v : MemWord) : (s.setHome wa v).saved = s.saved := rfl
@[simp] theorem setHome_cmds (s : State) (wa : Nat) (v : MemWord) : (s.setHome wa v).cmds = s.cmds := rfl
@[simp] theorem setHome_pfts (s : State) (wa : Nat) (v : MemWord) : (s.setHome wa v).pfts = s.pfts := rfl
@[simp] theorem setHome_pool (s : State) (wa : Nat) (v : MemWord) : (s.setHome wa v).pool = s.pool := rfl
@[simp] theorem setHome_deadline (s : State) (wa : Nat) (v : MemWord) : (s.setHome wa v).deadline = s.deadline := rfl
@[simp] theorem setHome_engine (s : State) (wa : Nat) (v : MemWord) : (s.setHome wa v).engine = s.engine := rfl
@[simp] theorem setHome_ctxs (s : State) (wa : Nat) (v : MemWord) : (s.setHome wa v).ctxs = s.ctxs := rfl
@[simp] theorem setHome_keys (s : State) (wa : Nat) (v : MemWord) : (s.setHome wa v).keys = s.keys := rfl
@[simp] theorem setHome_xmsgs (s : State) (wa : Nat) (v : MemWord) : (s.setHome wa v).xmsgs = s.xmsgs := rfl
@[simp] theorem setHome_rxmsgs (s : State) (wa : Nat) (v : MemWord) : (s.setHome wa v).rxmsgs = s.rxmsgs := rfl
@[simp] theorem setHome_placing (s : State) (wa : Nat) (v : MemWord) : (s.setHome wa v).placing = s.placing := rfl
@[simp] theorem setHome_sysc (s : State) (wa : Nat) (v : MemWord) : (s.setHome wa v).sysc = s.sysc := rfl
@[simp] theorem setHome_tokens (s : State) (wa : Nat) (v : MemWord) : (s.setHome wa v).tokens = s.tokens := rfl
@[simp] theorem setHome_scrub (s : State) (wa : Nat) (v : MemWord) : (s.setHome wa v).scrub = s.scrub := rfl
@[simp] theorem setHome_ras (s : State) (wa : Nat) (v : MemWord) : (s.setHome wa v).ras = s.ras := rfl
@[simp] theorem setHome_mail (s : State) (wa : Nat) (v : MemWord) : (s.setHome wa v).mail = s.mail := rfl
@[simp] theorem setHome_teardown (s : State) (wa : Nat) (v : MemWord) : (s.setHome wa v).teardown = s.teardown := rfl
@[simp] theorem setHome_replacing (s : State) (wa : Nat) (v : MemWord) : (s.setHome wa v).replacing = s.replacing := rfl
@[simp] theorem setHome_late (s : State) (wa : Nat) (v : MemWord) : (s.setHome wa v).late = s.late := rfl
@[simp] theorem setHome_tallies (s : State) (wa : Nat) (v : MemWord) : (s.setHome wa v).tallies = s.tallies := rfl
@[simp] theorem setHome_heat (s : State) (wa : Nat) (v : MemWord) : (s.setHome wa v).heat = s.heat := rfl
@[simp] theorem setHome_dieTlb (s : State) (wa : Nat) (v : MemWord) : (s.setHome wa v).dieTlb = s.dieTlb := rfl
@[simp] theorem setHome_walks (s : State) (wa : Nat) (v : MemWord) : (s.setHome wa v).walks = s.walks := rfl
@[simp] theorem setHome_walking (s : State) (wa : Nat) (v : MemWord) : (s.setHome wa v).walking = s.walking := rfl
@[simp] theorem setHome_tables (s : State) (wa : Nat) (v : MemWord) : (s.setHome wa v).tables = s.tables := rfl
@[simp] theorem setHome_lineKeys (s : State) (wa : Nat) (v : MemWord) : (s.setHome wa v).lineKeys = s.lineKeys := rfl

/-! `dropDest` -/

@[simp] theorem dropDest_turn (s : State) (g w f : Nat) (lane : Option Nat) (d : Dest) : (s.dropDest g w f lane d).turn = s.turn := rfl
@[simp] theorem dropDest_agenda (s : State) (g w f : Nat) (lane : Option Nat) (d : Dest) : (s.dropDest g w f lane d).agenda = s.agenda := rfl
@[simp] theorem dropDest_turnNo (s : State) (g w f : Nat) (lane : Option Nat) (d : Dest) : (s.dropDest g w f lane d).turnNo = s.turnNo := rfl
@[simp] theorem dropDest_opp (s : State) (g w f : Nat) (lane : Option Nat) (d : Dest) : (s.dropDest g w f lane d).opp = s.opp := rfl
@[simp] theorem dropDest_blocked (s : State) (g w f : Nat) (lane : Option Nat) (d : Dest) : (s.dropDest g w f lane d).blocked = s.blocked := rfl
@[simp] theorem dropDest_perfRead (s : State) (g w f : Nat) (lane : Option Nat) (d : Dest) : (s.dropDest g w f lane d).perfRead = s.perfRead := rfl
@[simp] theorem dropDest_freeN (s : State) (g w f : Nat) (lane : Option Nat) (d : Dest) : (s.dropDest g w f lane d).freeN = s.freeN := rfl
@[simp] theorem dropDest_idN (s : State) (g w f : Nat) (lane : Option Nat) (d : Dest) : (s.dropDest g w f lane d).idN = s.idN := rfl
@[simp] theorem dropDest_boot (s : State) (g w f : Nat) (lane : Option Nat) (d : Dest) : (s.dropDest g w f lane d).boot = s.boot := rfl
@[simp] theorem dropDest_portCode (s : State) (g w f : Nat) (lane : Option Nat) (d : Dest) : (s.dropDest g w f lane d).portCode = s.portCode := rfl
@[simp] theorem dropDest_flashBad (s : State) (g w f : Nat) (lane : Option Nat) (d : Dest) : (s.dropDest g w f lane d).flashBad = s.flashBad := rfl
@[simp] theorem dropDest_log (s : State) (g w f : Nat) (lane : Option Nat) (d : Dest) : (s.dropDest g w f lane d).log = s.log := rfl
@[simp] theorem dropDest_mgmt (s : State) (g w f : Nat) (lane : Option Nat) (d : Dest) : (s.dropDest g w f lane d).mgmt = s.mgmt := rfl
@[simp] theorem dropDest_first (s : State) (g w f : Nat) (lane : Option Nat) (d : Dest) : (s.dropDest g w f lane d).first = s.first := rfl
@[simp] theorem dropDest_slices (s : State) (g w f : Nat) (lane : Option Nat) (d : Dest) : (s.dropDest g w f lane d).slices = s.slices := rfl
@[simp] theorem dropDest_started (s : State) (g w f : Nat) (lane : Option Nat) (d : Dest) : (s.dropDest g w f lane d).started = s.started := rfl
@[simp] theorem dropDest_spare (s : State) (g w f : Nat) (lane : Option Nat) (d : Dest) : (s.dropDest g w f lane d).spare = s.spare := rfl
@[simp] theorem dropDest_dieMap (s : State) (g w f : Nat) (lane : Option Nat) (d : Dest) : (s.dropDest g w f lane d).dieMap = s.dieMap := rfl
@[simp] theorem dropDest_absent (s : State) (g w f : Nat) (lane : Option Nat) (d : Dest) : (s.dropDest g w f lane d).absent = s.absent := rfl
@[simp] theorem dropDest_throttled (s : State) (g w f : Nat) (lane : Option Nat) (d : Dest) : (s.dropDest g w f lane d).throttled = s.throttled := rfl
@[simp] theorem dropDest_lostRanges (s : State) (g w f : Nat) (lane : Option Nat) (d : Dest) : (s.dropDest g w f lane d).lostRanges = s.lostRanges := rfl
@[simp] theorem dropDest_removing (s : State) (g w f : Nat) (lane : Option Nat) (d : Dest) : (s.dropDest g w f lane d).removing = s.removing := rfl
@[simp] theorem dropDest_capacity (s : State) (g w f : Nat) (lane : Option Nat) (d : Dest) : (s.dropDest g w f lane d).capacity = s.capacity := rfl
@[simp] theorem dropDest_clk (s : State) (g w f : Nat) (lane : Option Nat) (d : Dest) : (s.dropDest g w f lane d).clk = s.clk := rfl
@[simp] theorem dropDest_netPerf (s : State) (g w f : Nat) (lane : Option Nat) (d : Dest) : (s.dropDest g w f lane d).netPerf = s.netPerf := rfl
@[simp] theorem dropDest_mem (s : State) (g w f : Nat) (lane : Option Nat) (d : Dest) : (s.dropDest g w f lane d).mem = s.mem := rfl
@[simp] theorem dropDest_bad (s : State) (g w f : Nat) (lane : Option Nat) (d : Dest) : (s.dropDest g w f lane d).bad = s.bad := rfl
@[simp] theorem dropDest_gens (s : State) (g w f : Nat) (lane : Option Nat) (d : Dest) : (s.dropDest g w f lane d).gens = s.gens := rfl
@[simp] theorem dropDest_owners (s : State) (g w f : Nat) (lane : Option Nat) (d : Dest) : (s.dropDest g w f lane d).owners = s.owners := rfl
@[simp] theorem dropDest_holds (s : State) (g w f : Nat) (lane : Option Nat) (d : Dest) : (s.dropDest g w f lane d).holds = s.holds := rfl
@[simp] theorem dropDest_msc (s : State) (g w f : Nat) (lane : Option Nat) (d : Dest) : (s.dropDest g w f lane d).msc = s.msc := rfl
@[simp] theorem dropDest_atlas (s : State) (g w f : Nat) (lane : Option Nat) (d : Dest) : (s.dropDest g w f lane d).atlas = s.atlas := rfl
@[simp] theorem dropDest_pinned (s : State) (g w f : Nat) (lane : Option Nat) (d : Dest) : (s.dropDest g w f lane d).pinned = s.pinned := rfl
@[simp] theorem dropDest_msgs (s : State) (g w f : Nat) (lane : Option Nat) (d : Dest) : (s.dropDest g w f lane d).msgs = s.msgs := rfl
@[simp] theorem dropDest_pend (s : State) (g w f : Nat) (lane : Option Nat) (d : Dest) : (s.dropDest g w f lane d).pend = s.pend := rfl
@[simp] theorem dropDest_cores (s : State) (g w f : Nat) (lane : Option Nat) (d : Dest) : (s.dropDest g w f lane d).cores = s.cores := rfl
@[simp] theorem dropDest_groups (s : State) (g w f : Nat) (lane : Option Nat) (d : Dest) : (s.dropDest g w f lane d).groups = s.groups := rfl
@[simp] theorem dropDest_saved (s : State) (g w f : Nat) (lane : Option Nat) (d : Dest) : (s.dropDest g w f lane d).saved = s.saved := rfl
@[simp] theorem dropDest_cmds (s : State) (g w f : Nat) (lane : Option Nat) (d : Dest) : (s.dropDest g w f lane d).cmds = s.cmds := rfl
@[simp] theorem dropDest_pfts (s : State) (g w f : Nat) (lane : Option Nat) (d : Dest) : (s.dropDest g w f lane d).pfts = s.pfts := rfl
@[simp] theorem dropDest_pool (s : State) (g w f : Nat) (lane : Option Nat) (d : Dest) : (s.dropDest g w f lane d).pool = s.pool := rfl
@[simp] theorem dropDest_deadline (s : State) (g w f : Nat) (lane : Option Nat) (d : Dest) : (s.dropDest g w f lane d).deadline = s.deadline := rfl
@[simp] theorem dropDest_engine (s : State) (g w f : Nat) (lane : Option Nat) (d : Dest) : (s.dropDest g w f lane d).engine = s.engine := rfl
@[simp] theorem dropDest_ctxs (s : State) (g w f : Nat) (lane : Option Nat) (d : Dest) : (s.dropDest g w f lane d).ctxs = s.ctxs := rfl
@[simp] theorem dropDest_keys (s : State) (g w f : Nat) (lane : Option Nat) (d : Dest) : (s.dropDest g w f lane d).keys = s.keys := rfl
@[simp] theorem dropDest_xmsgs (s : State) (g w f : Nat) (lane : Option Nat) (d : Dest) : (s.dropDest g w f lane d).xmsgs = s.xmsgs := rfl
@[simp] theorem dropDest_rxmsgs (s : State) (g w f : Nat) (lane : Option Nat) (d : Dest) : (s.dropDest g w f lane d).rxmsgs = s.rxmsgs := rfl
@[simp] theorem dropDest_placing (s : State) (g w f : Nat) (lane : Option Nat) (d : Dest) : (s.dropDest g w f lane d).placing = s.placing := rfl
@[simp] theorem dropDest_sysc (s : State) (g w f : Nat) (lane : Option Nat) (d : Dest) : (s.dropDest g w f lane d).sysc = s.sysc := rfl
@[simp] theorem dropDest_tokens (s : State) (g w f : Nat) (lane : Option Nat) (d : Dest) : (s.dropDest g w f lane d).tokens = s.tokens := rfl
@[simp] theorem dropDest_scrub (s : State) (g w f : Nat) (lane : Option Nat) (d : Dest) : (s.dropDest g w f lane d).scrub = s.scrub := rfl
@[simp] theorem dropDest_ras (s : State) (g w f : Nat) (lane : Option Nat) (d : Dest) : (s.dropDest g w f lane d).ras = s.ras := rfl
@[simp] theorem dropDest_mail (s : State) (g w f : Nat) (lane : Option Nat) (d : Dest) : (s.dropDest g w f lane d).mail = s.mail := rfl
@[simp] theorem dropDest_teardown (s : State) (g w f : Nat) (lane : Option Nat) (d : Dest) : (s.dropDest g w f lane d).teardown = s.teardown := rfl
@[simp] theorem dropDest_replacing (s : State) (g w f : Nat) (lane : Option Nat) (d : Dest) : (s.dropDest g w f lane d).replacing = s.replacing := rfl
@[simp] theorem dropDest_late (s : State) (g w f : Nat) (lane : Option Nat) (d : Dest) : (s.dropDest g w f lane d).late = s.late := rfl
@[simp] theorem dropDest_tallies (s : State) (g w f : Nat) (lane : Option Nat) (d : Dest) : (s.dropDest g w f lane d).tallies = s.tallies := rfl
@[simp] theorem dropDest_upset (s : State) (g w f : Nat) (lane : Option Nat) (d : Dest) : (s.dropDest g w f lane d).upset = s.upset := rfl
@[simp] theorem dropDest_heat (s : State) (g w f : Nat) (lane : Option Nat) (d : Dest) : (s.dropDest g w f lane d).heat = s.heat := rfl
@[simp] theorem dropDest_dieTlb (s : State) (g w f : Nat) (lane : Option Nat) (d : Dest) : (s.dropDest g w f lane d).dieTlb = s.dieTlb := rfl
@[simp] theorem dropDest_walks (s : State) (g w f : Nat) (lane : Option Nat) (d : Dest) : (s.dropDest g w f lane d).walks = s.walks := rfl
@[simp] theorem dropDest_walking (s : State) (g w f : Nat) (lane : Option Nat) (d : Dest) : (s.dropDest g w f lane d).walking = s.walking := rfl
@[simp] theorem dropDest_tables (s : State) (g w f : Nat) (lane : Option Nat) (d : Dest) : (s.dropDest g w f lane d).tables = s.tables := rfl
@[simp] theorem dropDest_lineKeys (s : State) (g w f : Nat) (lane : Option Nat) (d : Dest) : (s.dropDest g w f lane d).lineKeys = s.lineKeys := rfl

/-! `send` -/

@[simp] theorem send_turn (s : State) (k : MsgKind) (c line : Nat) (m : Word) (ws : List (Nat × MemWord)) (x : Byte) (rd : Nat) (al : Bool) (src : Option Nat) (uc : Bool) : (s.send k c line m ws x rd al src uc).turn = s.turn := rfl
@[simp] theorem send_agenda (s : State) (k : MsgKind) (c line : Nat) (m : Word) (ws : List (Nat × MemWord)) (x : Byte) (rd : Nat) (al : Bool) (src : Option Nat) (uc : Bool) : (s.send k c line m ws x rd al src uc).agenda = s.agenda := rfl
@[simp] theorem send_turnNo (s : State) (k : MsgKind) (c line : Nat) (m : Word) (ws : List (Nat × MemWord)) (x : Byte) (rd : Nat) (al : Bool) (src : Option Nat) (uc : Bool) : (s.send k c line m ws x rd al src uc).turnNo = s.turnNo := rfl
@[simp] theorem send_opp (s : State) (k : MsgKind) (c line : Nat) (m : Word) (ws : List (Nat × MemWord)) (x : Byte) (rd : Nat) (al : Bool) (src : Option Nat) (uc : Bool) : (s.send k c line m ws x rd al src uc).opp = s.opp := rfl
@[simp] theorem send_blocked (s : State) (k : MsgKind) (c line : Nat) (m : Word) (ws : List (Nat × MemWord)) (x : Byte) (rd : Nat) (al : Bool) (src : Option Nat) (uc : Bool) : (s.send k c line m ws x rd al src uc).blocked = s.blocked := rfl
@[simp] theorem send_perfRead (s : State) (k : MsgKind) (c line : Nat) (m : Word) (ws : List (Nat × MemWord)) (x : Byte) (rd : Nat) (al : Bool) (src : Option Nat) (uc : Bool) : (s.send k c line m ws x rd al src uc).perfRead = s.perfRead := rfl
@[simp] theorem send_freeN (s : State) (k : MsgKind) (c line : Nat) (m : Word) (ws : List (Nat × MemWord)) (x : Byte) (rd : Nat) (al : Bool) (src : Option Nat) (uc : Bool) : (s.send k c line m ws x rd al src uc).freeN = s.freeN := rfl
@[simp] theorem send_boot (s : State) (k : MsgKind) (c line : Nat) (m : Word) (ws : List (Nat × MemWord)) (x : Byte) (rd : Nat) (al : Bool) (src : Option Nat) (uc : Bool) : (s.send k c line m ws x rd al src uc).boot = s.boot := rfl
@[simp] theorem send_portCode (s : State) (k : MsgKind) (c line : Nat) (m : Word) (ws : List (Nat × MemWord)) (x : Byte) (rd : Nat) (al : Bool) (src : Option Nat) (uc : Bool) : (s.send k c line m ws x rd al src uc).portCode = s.portCode := rfl
@[simp] theorem send_flashBad (s : State) (k : MsgKind) (c line : Nat) (m : Word) (ws : List (Nat × MemWord)) (x : Byte) (rd : Nat) (al : Bool) (src : Option Nat) (uc : Bool) : (s.send k c line m ws x rd al src uc).flashBad = s.flashBad := rfl
@[simp] theorem send_log (s : State) (k : MsgKind) (c line : Nat) (m : Word) (ws : List (Nat × MemWord)) (x : Byte) (rd : Nat) (al : Bool) (src : Option Nat) (uc : Bool) : (s.send k c line m ws x rd al src uc).log = s.log := rfl
@[simp] theorem send_mgmt (s : State) (k : MsgKind) (c line : Nat) (m : Word) (ws : List (Nat × MemWord)) (x : Byte) (rd : Nat) (al : Bool) (src : Option Nat) (uc : Bool) : (s.send k c line m ws x rd al src uc).mgmt = s.mgmt := rfl
@[simp] theorem send_first (s : State) (k : MsgKind) (c line : Nat) (m : Word) (ws : List (Nat × MemWord)) (x : Byte) (rd : Nat) (al : Bool) (src : Option Nat) (uc : Bool) : (s.send k c line m ws x rd al src uc).first = s.first := rfl
@[simp] theorem send_slices (s : State) (k : MsgKind) (c line : Nat) (m : Word) (ws : List (Nat × MemWord)) (x : Byte) (rd : Nat) (al : Bool) (src : Option Nat) (uc : Bool) : (s.send k c line m ws x rd al src uc).slices = s.slices := rfl
@[simp] theorem send_started (s : State) (k : MsgKind) (c line : Nat) (m : Word) (ws : List (Nat × MemWord)) (x : Byte) (rd : Nat) (al : Bool) (src : Option Nat) (uc : Bool) : (s.send k c line m ws x rd al src uc).started = s.started := rfl
@[simp] theorem send_spare (s : State) (k : MsgKind) (c line : Nat) (m : Word) (ws : List (Nat × MemWord)) (x : Byte) (rd : Nat) (al : Bool) (src : Option Nat) (uc : Bool) : (s.send k c line m ws x rd al src uc).spare = s.spare := rfl
@[simp] theorem send_dieMap (s : State) (k : MsgKind) (c line : Nat) (m : Word) (ws : List (Nat × MemWord)) (x : Byte) (rd : Nat) (al : Bool) (src : Option Nat) (uc : Bool) : (s.send k c line m ws x rd al src uc).dieMap = s.dieMap := rfl
@[simp] theorem send_absent (s : State) (k : MsgKind) (c line : Nat) (m : Word) (ws : List (Nat × MemWord)) (x : Byte) (rd : Nat) (al : Bool) (src : Option Nat) (uc : Bool) : (s.send k c line m ws x rd al src uc).absent = s.absent := rfl
@[simp] theorem send_throttled (s : State) (k : MsgKind) (c line : Nat) (m : Word) (ws : List (Nat × MemWord)) (x : Byte) (rd : Nat) (al : Bool) (src : Option Nat) (uc : Bool) : (s.send k c line m ws x rd al src uc).throttled = s.throttled := rfl
@[simp] theorem send_lostRanges (s : State) (k : MsgKind) (c line : Nat) (m : Word) (ws : List (Nat × MemWord)) (x : Byte) (rd : Nat) (al : Bool) (src : Option Nat) (uc : Bool) : (s.send k c line m ws x rd al src uc).lostRanges = s.lostRanges := rfl
@[simp] theorem send_removing (s : State) (k : MsgKind) (c line : Nat) (m : Word) (ws : List (Nat × MemWord)) (x : Byte) (rd : Nat) (al : Bool) (src : Option Nat) (uc : Bool) : (s.send k c line m ws x rd al src uc).removing = s.removing := rfl
@[simp] theorem send_capacity (s : State) (k : MsgKind) (c line : Nat) (m : Word) (ws : List (Nat × MemWord)) (x : Byte) (rd : Nat) (al : Bool) (src : Option Nat) (uc : Bool) : (s.send k c line m ws x rd al src uc).capacity = s.capacity := rfl
@[simp] theorem send_clk (s : State) (k : MsgKind) (c line : Nat) (m : Word) (ws : List (Nat × MemWord)) (x : Byte) (rd : Nat) (al : Bool) (src : Option Nat) (uc : Bool) : (s.send k c line m ws x rd al src uc).clk = s.clk := rfl
@[simp] theorem send_netPerf (s : State) (k : MsgKind) (c line : Nat) (m : Word) (ws : List (Nat × MemWord)) (x : Byte) (rd : Nat) (al : Bool) (src : Option Nat) (uc : Bool) : (s.send k c line m ws x rd al src uc).netPerf = s.netPerf := rfl
@[simp] theorem send_mem (s : State) (k : MsgKind) (c line : Nat) (m : Word) (ws : List (Nat × MemWord)) (x : Byte) (rd : Nat) (al : Bool) (src : Option Nat) (uc : Bool) : (s.send k c line m ws x rd al src uc).mem = s.mem := rfl
@[simp] theorem send_bad (s : State) (k : MsgKind) (c line : Nat) (m : Word) (ws : List (Nat × MemWord)) (x : Byte) (rd : Nat) (al : Bool) (src : Option Nat) (uc : Bool) : (s.send k c line m ws x rd al src uc).bad = s.bad := rfl
@[simp] theorem send_gens (s : State) (k : MsgKind) (c line : Nat) (m : Word) (ws : List (Nat × MemWord)) (x : Byte) (rd : Nat) (al : Bool) (src : Option Nat) (uc : Bool) : (s.send k c line m ws x rd al src uc).gens = s.gens := rfl
@[simp] theorem send_owners (s : State) (k : MsgKind) (c line : Nat) (m : Word) (ws : List (Nat × MemWord)) (x : Byte) (rd : Nat) (al : Bool) (src : Option Nat) (uc : Bool) : (s.send k c line m ws x rd al src uc).owners = s.owners := rfl
@[simp] theorem send_holds (s : State) (k : MsgKind) (c line : Nat) (m : Word) (ws : List (Nat × MemWord)) (x : Byte) (rd : Nat) (al : Bool) (src : Option Nat) (uc : Bool) : (s.send k c line m ws x rd al src uc).holds = s.holds := rfl
@[simp] theorem send_msc (s : State) (k : MsgKind) (c line : Nat) (m : Word) (ws : List (Nat × MemWord)) (x : Byte) (rd : Nat) (al : Bool) (src : Option Nat) (uc : Bool) : (s.send k c line m ws x rd al src uc).msc = s.msc := rfl
@[simp] theorem send_atlas (s : State) (k : MsgKind) (c line : Nat) (m : Word) (ws : List (Nat × MemWord)) (x : Byte) (rd : Nat) (al : Bool) (src : Option Nat) (uc : Bool) : (s.send k c line m ws x rd al src uc).atlas = s.atlas := rfl
@[simp] theorem send_pinned (s : State) (k : MsgKind) (c line : Nat) (m : Word) (ws : List (Nat × MemWord)) (x : Byte) (rd : Nat) (al : Bool) (src : Option Nat) (uc : Bool) : (s.send k c line m ws x rd al src uc).pinned = s.pinned := rfl
@[simp] theorem send_pend (s : State) (k : MsgKind) (c line : Nat) (m : Word) (ws : List (Nat × MemWord)) (x : Byte) (rd : Nat) (al : Bool) (src : Option Nat) (uc : Bool) : (s.send k c line m ws x rd al src uc).pend = s.pend := rfl
@[simp] theorem send_prods (s : State) (k : MsgKind) (c line : Nat) (m : Word) (ws : List (Nat × MemWord)) (x : Byte) (rd : Nat) (al : Bool) (src : Option Nat) (uc : Bool) : (s.send k c line m ws x rd al src uc).prods = s.prods := rfl
@[simp] theorem send_cores (s : State) (k : MsgKind) (c line : Nat) (m : Word) (ws : List (Nat × MemWord)) (x : Byte) (rd : Nat) (al : Bool) (src : Option Nat) (uc : Bool) : (s.send k c line m ws x rd al src uc).cores = s.cores := rfl
@[simp] theorem send_groups (s : State) (k : MsgKind) (c line : Nat) (m : Word) (ws : List (Nat × MemWord)) (x : Byte) (rd : Nat) (al : Bool) (src : Option Nat) (uc : Bool) : (s.send k c line m ws x rd al src uc).groups = s.groups := rfl
@[simp] theorem send_saved (s : State) (k : MsgKind) (c line : Nat) (m : Word) (ws : List (Nat × MemWord)) (x : Byte) (rd : Nat) (al : Bool) (src : Option Nat) (uc : Bool) : (s.send k c line m ws x rd al src uc).saved = s.saved := rfl
@[simp] theorem send_cmds (s : State) (k : MsgKind) (c line : Nat) (m : Word) (ws : List (Nat × MemWord)) (x : Byte) (rd : Nat) (al : Bool) (src : Option Nat) (uc : Bool) : (s.send k c line m ws x rd al src uc).cmds = s.cmds := rfl
@[simp] theorem send_pfts (s : State) (k : MsgKind) (c line : Nat) (m : Word) (ws : List (Nat × MemWord)) (x : Byte) (rd : Nat) (al : Bool) (src : Option Nat) (uc : Bool) : (s.send k c line m ws x rd al src uc).pfts = s.pfts := rfl
@[simp] theorem send_pool (s : State) (k : MsgKind) (c line : Nat) (m : Word) (ws : List (Nat × MemWord)) (x : Byte) (rd : Nat) (al : Bool) (src : Option Nat) (uc : Bool) : (s.send k c line m ws x rd al src uc).pool = s.pool := rfl
@[simp] theorem send_deadline (s : State) (k : MsgKind) (c line : Nat) (m : Word) (ws : List (Nat × MemWord)) (x : Byte) (rd : Nat) (al : Bool) (src : Option Nat) (uc : Bool) : (s.send k c line m ws x rd al src uc).deadline = s.deadline := rfl
@[simp] theorem send_engine (s : State) (k : MsgKind) (c line : Nat) (m : Word) (ws : List (Nat × MemWord)) (x : Byte) (rd : Nat) (al : Bool) (src : Option Nat) (uc : Bool) : (s.send k c line m ws x rd al src uc).engine = s.engine := rfl
@[simp] theorem send_ctxs (s : State) (k : MsgKind) (c line : Nat) (m : Word) (ws : List (Nat × MemWord)) (x : Byte) (rd : Nat) (al : Bool) (src : Option Nat) (uc : Bool) : (s.send k c line m ws x rd al src uc).ctxs = s.ctxs := rfl
@[simp] theorem send_keys (s : State) (k : MsgKind) (c line : Nat) (m : Word) (ws : List (Nat × MemWord)) (x : Byte) (rd : Nat) (al : Bool) (src : Option Nat) (uc : Bool) : (s.send k c line m ws x rd al src uc).keys = s.keys := rfl
@[simp] theorem send_xmsgs (s : State) (k : MsgKind) (c line : Nat) (m : Word) (ws : List (Nat × MemWord)) (x : Byte) (rd : Nat) (al : Bool) (src : Option Nat) (uc : Bool) : (s.send k c line m ws x rd al src uc).xmsgs = s.xmsgs := rfl
@[simp] theorem send_rxmsgs (s : State) (k : MsgKind) (c line : Nat) (m : Word) (ws : List (Nat × MemWord)) (x : Byte) (rd : Nat) (al : Bool) (src : Option Nat) (uc : Bool) : (s.send k c line m ws x rd al src uc).rxmsgs = s.rxmsgs := rfl
@[simp] theorem send_placing (s : State) (k : MsgKind) (c line : Nat) (m : Word) (ws : List (Nat × MemWord)) (x : Byte) (rd : Nat) (al : Bool) (src : Option Nat) (uc : Bool) : (s.send k c line m ws x rd al src uc).placing = s.placing := rfl
@[simp] theorem send_sysc (s : State) (k : MsgKind) (c line : Nat) (m : Word) (ws : List (Nat × MemWord)) (x : Byte) (rd : Nat) (al : Bool) (src : Option Nat) (uc : Bool) : (s.send k c line m ws x rd al src uc).sysc = s.sysc := rfl
@[simp] theorem send_tokens (s : State) (k : MsgKind) (c line : Nat) (m : Word) (ws : List (Nat × MemWord)) (x : Byte) (rd : Nat) (al : Bool) (src : Option Nat) (uc : Bool) : (s.send k c line m ws x rd al src uc).tokens = s.tokens := rfl
@[simp] theorem send_scrub (s : State) (k : MsgKind) (c line : Nat) (m : Word) (ws : List (Nat × MemWord)) (x : Byte) (rd : Nat) (al : Bool) (src : Option Nat) (uc : Bool) : (s.send k c line m ws x rd al src uc).scrub = s.scrub := rfl
@[simp] theorem send_ras (s : State) (k : MsgKind) (c line : Nat) (m : Word) (ws : List (Nat × MemWord)) (x : Byte) (rd : Nat) (al : Bool) (src : Option Nat) (uc : Bool) : (s.send k c line m ws x rd al src uc).ras = s.ras := rfl
@[simp] theorem send_mail (s : State) (k : MsgKind) (c line : Nat) (m : Word) (ws : List (Nat × MemWord)) (x : Byte) (rd : Nat) (al : Bool) (src : Option Nat) (uc : Bool) : (s.send k c line m ws x rd al src uc).mail = s.mail := rfl
@[simp] theorem send_teardown (s : State) (k : MsgKind) (c line : Nat) (m : Word) (ws : List (Nat × MemWord)) (x : Byte) (rd : Nat) (al : Bool) (src : Option Nat) (uc : Bool) : (s.send k c line m ws x rd al src uc).teardown = s.teardown := rfl
@[simp] theorem send_replacing (s : State) (k : MsgKind) (c line : Nat) (m : Word) (ws : List (Nat × MemWord)) (x : Byte) (rd : Nat) (al : Bool) (src : Option Nat) (uc : Bool) : (s.send k c line m ws x rd al src uc).replacing = s.replacing := rfl
@[simp] theorem send_late (s : State) (k : MsgKind) (c line : Nat) (m : Word) (ws : List (Nat × MemWord)) (x : Byte) (rd : Nat) (al : Bool) (src : Option Nat) (uc : Bool) : (s.send k c line m ws x rd al src uc).late = s.late := rfl
@[simp] theorem send_tallies (s : State) (k : MsgKind) (c line : Nat) (m : Word) (ws : List (Nat × MemWord)) (x : Byte) (rd : Nat) (al : Bool) (src : Option Nat) (uc : Bool) : (s.send k c line m ws x rd al src uc).tallies = s.tallies := rfl
@[simp] theorem send_upset (s : State) (k : MsgKind) (c line : Nat) (m : Word) (ws : List (Nat × MemWord)) (x : Byte) (rd : Nat) (al : Bool) (src : Option Nat) (uc : Bool) : (s.send k c line m ws x rd al src uc).upset = s.upset := rfl
@[simp] theorem send_heat (s : State) (k : MsgKind) (c line : Nat) (m : Word) (ws : List (Nat × MemWord)) (x : Byte) (rd : Nat) (al : Bool) (src : Option Nat) (uc : Bool) : (s.send k c line m ws x rd al src uc).heat = s.heat := rfl
@[simp] theorem send_dieTlb (s : State) (k : MsgKind) (c line : Nat) (m : Word) (ws : List (Nat × MemWord)) (x : Byte) (rd : Nat) (al : Bool) (src : Option Nat) (uc : Bool) : (s.send k c line m ws x rd al src uc).dieTlb = s.dieTlb := rfl
@[simp] theorem send_walks (s : State) (k : MsgKind) (c line : Nat) (m : Word) (ws : List (Nat × MemWord)) (x : Byte) (rd : Nat) (al : Bool) (src : Option Nat) (uc : Bool) : (s.send k c line m ws x rd al src uc).walks = s.walks := rfl
@[simp] theorem send_walking (s : State) (k : MsgKind) (c line : Nat) (m : Word) (ws : List (Nat × MemWord)) (x : Byte) (rd : Nat) (al : Bool) (src : Option Nat) (uc : Bool) : (s.send k c line m ws x rd al src uc).walking = s.walking := rfl
@[simp] theorem send_tables (s : State) (k : MsgKind) (c line : Nat) (m : Word) (ws : List (Nat × MemWord)) (x : Byte) (rd : Nat) (al : Bool) (src : Option Nat) (uc : Bool) : (s.send k c line m ws x rd al src uc).tables = s.tables := rfl
@[simp] theorem send_lineKeys (s : State) (k : MsgKind) (c line : Nat) (m : Word) (ws : List (Nat × MemWord)) (x : Byte) (rd : Nat) (al : Bool) (src : Option Nat) (uc : Bool) : (s.send k c line m ws x rd al src uc).lineKeys = s.lineKeys := rfl

end Sys2Proof.Machine
end

