-- ==== Sys2Proof/Laws/Groups.lean ====
section
/-! SUPPORT. Reads of groups, warps, fibres, lanes, registers and scratchpad words after a named update. -/

namespace Sys2Proof.Machine

/-! Lists. -/

@[simp] theorem length_modAt {α : Type} (xs : List α) (i : Nat) (k : α → α) : (modAt xs i k).length = xs.length := by
  induction xs generalizing i with
  | nil => rfl
  | cons x r ih => cases i <;> simp [modAt, ih]

theorem getD_modAt {α : Type} (xs : List α) (i j : Nat) (k : α → α) (d : α) (h : i < xs.length) :
    (modAt xs i k).getD j d = if j = i then k (xs.getD j d) else xs.getD j d := by
  induction xs generalizing i j with
  | nil => simp at h
  | cons x r ih =>
    cases i with
    | zero => cases j <;> simp [modAt]
    | succ i =>
      cases j with
      | zero => simp [modAt]
      | succ j =>
        have := ih i j (by simpa using h)
        simpa [modAt] using this

theorem getD_modAt_ne {α : Type} (xs : List α) (i j : Nat) (k : α → α) (d : α) (h : j ≠ i) :
    (modAt xs i k).getD j d = xs.getD j d := by
  induction xs generalizing i j with
  | nil => rfl
  | cons x r ih =>
    cases i with
    | zero => cases j with
      | zero => exact absurd rfl h
      | succ j => simp [modAt]
    | succ i =>
      cases j with
      | zero => simp [modAt]
      | succ j => simpa [modAt] using ih i j (by omega)

theorem map_modAt {α β : Type} (xs : List α) (i : Nat) (k : α → α) (b : α → β) (h : ∀ x, b (k x) = b x) :
    (modAt xs i k).map b = xs.map b := by
  induction xs generalizing i with
  | nil => rfl
  | cons x r ih => cases i <;> simp [modAt, h, ih]

theorem map_smod {α β : Type} (m : Sparse α) (g : Nat) (k : α → α) (b : α → β) (h : ∀ x, b (k x) = b x) :
    (smod m g k).map (fun e => (e.1, b e.2)) = m.map (fun e => (e.1, b e.2)) := by
  induction m with
  | nil => rfl
  | cons e r ih =>
    obtain ⟨k', v⟩ := e
    unfold smod
    split
    · simp [h]
    · simp [ih]

/-! Groups. -/

@[simp] theorem group?_modGroup (s : State) (g j : Nat) (k : Group → Group) :
    (s.modGroup g k).group? j = if j = g then (s.group? g).map k else s.group? j := by
  unfold State.modGroup
  split
  · simp [State.group?]
  · next h =>
    by_cases hj : j = g
    · subst hj
      have h' : sget s.groups j = none := h
      simp [State.group?, h']
    · simp [State.group?, hj]

theorem groupAt_of_group? {s : State} {g : Nat} {x : Group} (h : s.group? g = some x) : s.groupAt g = x := by
  simp [State.groupAt, h]

theorem groupAt_modGroup (s : State) (g j : Nat) (k : Group → Group) (h : (s.group? g).isSome = true) :
    (s.modGroup g k).groupAt j = if j = g then k (s.groupAt g) else s.groupAt j := by
  obtain ⟨x, hx⟩ := Option.isSome_iff_exists.1 h
  by_cases hj : j = g
  · subst hj
    rw [if_pos rfl]
    exact groupAt_of_group? (by simp [hx, groupAt_of_group? hx])
  · have hs : (s.modGroup g k).saved = s.saved := by unfold State.modGroup; simp [hx]
    simp [State.groupAt, hj, hs]

theorem warpAt_modWarp (s : State) (g w j v : Nat) (k : Warp → Warp) (h : (s.group? g).isSome = true)
    (hw : w < (s.groupAt g).warps.length) :
    (s.modWarp g w k).warpAt j v = if j = g ∧ v = w then k (s.warpAt g w) else s.warpAt j v := by
  unfold State.modWarp State.warpAt
  rw [groupAt_modGroup s g j _ h]
  by_cases hj : j = g
  · subst hj
    rw [if_pos rfl, getD_modAt _ _ _ _ _ hw]
    by_cases hv : v = w <;> simp [hv]
  · simp [hj]

theorem warpAt_modWarp_ne (s : State) (g w j v : Nat) (k : Warp → Warp) (h : (s.group? g).isSome = true)
    (hne : ¬(j = g ∧ v = w)) : (s.modWarp g w k).warpAt j v = s.warpAt j v := by
  unfold State.modWarp State.warpAt
  rw [groupAt_modGroup s g j _ h]
  by_cases hj : j = g
  · subst hj
    rw [if_pos rfl, getD_modAt_ne _ _ _ _ _ (fun hv => hne ⟨rfl, hv⟩)]
  · simp [hj]

theorem fibreAt_modFibre (s : State) (g w f j v e : Nat) (k : Fibre → Fibre) (h : (s.group? g).isSome = true)
    (hw : w < (s.groupAt g).warps.length) (hf : f < (s.warpAt g w).fibres.length) :
    (s.modFibre g w f k).fibreAt j v e = if j = g ∧ v = w ∧ e = f then k (s.fibreAt g w f) else s.fibreAt j v e := by
  unfold State.modFibre State.fibreAt
  rw [warpAt_modWarp s g w j v _ h hw]
  by_cases hj : j = g ∧ v = w
  · obtain ⟨rfl, rfl⟩ := hj
    rw [if_pos ⟨rfl, rfl⟩, getD_modAt _ _ _ _ _ hf]
    by_cases he : e = f <;> simp [he]
  · have : ¬(j = g ∧ v = w ∧ e = f) := fun hh => hj ⟨hh.1, hh.2.1⟩
    simp [hj, this]

/-! Registers and scratchpad words. -/

theorem regAt_setReg (s : State) (g w o j v i : Nat) (x : RegWord) (h : (s.group? g).isSome = true)
    (hw : w < (s.groupAt g).warps.length) :
    (s.setReg g w o x).regAt j v i = if j = g ∧ v = w ∧ i = o then x else s.regAt j v i := by
  unfold State.setReg State.regAt
  rw [warpAt_modWarp s g w j v _ h hw]
  by_cases hj : j = g ∧ v = w
  · obtain ⟨rfl, rfl⟩ := hj
    by_cases hi : i = o <;> simp [hi]
  · have : ¬(j = g ∧ v = w ∧ i = o) := fun hh => hj ⟨hh.1, hh.2.1⟩
    simp [hj, this]

theorem uregAt_setUreg (s : State) (g w f n j v e m : Nat) (x : RegWord) (h : (s.group? g).isSome = true)
    (hw : w < (s.groupAt g).warps.length) (hf : f < (s.warpAt g w).fibres.length) :
    (s.setUreg g w f n x).uregAt j v e m = if j = g ∧ v = w ∧ e = f ∧ m = n then x else s.uregAt j v e m := by
  unfold State.setUreg State.uregAt
  rw [fibreAt_modFibre s g w f j v e _ h hw hf]
  by_cases hj : j = g ∧ v = w ∧ e = f
  · obtain ⟨rfl, rfl, rfl⟩ := hj
    by_cases hi : m = n <;> simp [hi]
  · have : ¬(j = g ∧ v = w ∧ e = f ∧ m = n) := fun hh => hj ⟨hh.1, hh.2.1, hh.2.2.1⟩
    simp [hj, this]

theorem spAt_setSp (s : State) (g i j n : Nat) (x : SpadWord) (h : (s.group? g).isSome = true) :
    (s.setSp g i x).spAt j n = if j = g ∧ n = i then x else s.spAt j n := by
  unfold State.setSp State.spAt
  rw [groupAt_modGroup s g j _ h]
  by_cases hj : j = g
  · subst hj
    by_cases hn : n = i <;> simp [hn]
  · simp [hj]

end Sys2Proof.Machine
end

