-- ==== Sys2Proof/Laws/Issue.lean ====
section
/-! SUPPORT. What executing an instruction for a path does beside the instruction's own effect: nothing but move its lanes
and the scheduler's own fields. -/

namespace Sys2Proof.Machine

/-! Agreement. -/

@[simp] theorem Agree.refl (s : State) : Agree s s := Eq.refl _
theorem Agree.symm {s t : State} (h : Agree s t) : Agree t s := Eq.symm h
theorem Agree.trans {s t u : State} (h : Agree s t) (k : Agree t u) : Agree s u := Eq.trans h k

theorem modGroup_agree (s : State) (g : Nat) (k : Group → Group) (hp : (s.group? g).isSome = true)
    (hk : ∀ x, (k x).blank = x.blank) : Agree (s.modGroup g k) s := by
  obtain ⟨y, hy⟩ := Option.isSome_iff_exists.1 hp
  unfold Agree State.modGroup
  simp only [hy]
  unfold State.blank
  simp only [map_smod _ _ _ Group.blank hk]

theorem modWarp_agree (s : State) (g w : Nat) (k : Warp → Warp) (hp : (s.group? g).isSome = true)
    (hk : ∀ x, (k x).blank = x.blank) : Agree (s.modWarp g w k) s := by
  refine modGroup_agree s g _ hp (fun x => ?_)
  simp [Group.blank, map_modAt _ _ _ Warp.blank hk]

theorem modFibre_agree (s : State) (g w f : Nat) (k : Fibre → Fibre) (hp : (s.group? g).isSome = true)
    (hk : ∀ x, (k x).blank = x.blank) : Agree (s.modFibre g w f k) s := by
  refine modWarp_agree s g w _ hp (fun x => ?_)
  simp [Warp.blank, map_modAt _ _ _ Fibre.blank hk]

theorem modLane_agree (s : State) (g w f l : Nat) (k : Lane → Lane) (hp : (s.group? g).isSome = true)
    (hk : ∀ x, (k x).blank = x.blank) : Agree (s.modLane g w f l k) s := by
  refine modFibre_agree s g w f _ hp (fun x => ?_)
  simp [Fibre.blank, map_modAt _ _ _ Lane.blank hk]

/-- A change of each lane that keeps its predicates. -/
theorem mapIdx_blank (ls : List Lane) (k : Nat → Lane → Lane) (hk : ∀ i x, (k i x).blank = x.blank) :
    (ls.mapIdx k).map Lane.blank = ls.map Lane.blank := by
  apply List.ext_getElem <;> simp [hk]

/-! Placed groups stay placed. -/

@[simp] theorem placed_modGroup (s : State) (g j : Nat) (k : Group → Group) :
    ((s.modGroup g k).group? j).isSome = (s.group? j).isSome := by
  rw [group?_modGroup]
  split
  · next h => subst h; simp
  · rfl
@[simp] theorem placed_modWarp (s : State) (g w j : Nat) (k : Warp → Warp) :
    ((s.modWarp g w k).group? j).isSome = (s.group? j).isSome := placed_modGroup ..
@[simp] theorem placed_modFibre (s : State) (g w f j : Nat) (k : Fibre → Fibre) :
    ((s.modFibre g w f k).group? j).isSome = (s.group? j).isSome := placed_modGroup ..
@[simp] theorem placed_modLane (s : State) (g w f l j : Nat) (k : Lane → Lane) :
    ((s.modLane g w f l k).group? j).isSome = (s.group? j).isSome := placed_modGroup ..

/-- What a change of a group keeps of every group, it keeps. -/
theorem groupAt_modGroup_keeps {β : Type} (b : Group → β) (s : State) (g j : Nat) (k : Group → Group)
    (hp : (s.group? g).isSome = true) (hk : ∀ x, b (k x) = b x) : b ((s.modGroup g k).groupAt j) = b (s.groupAt j) := by
  rw [groupAt_modGroup s g j k hp]
  split
  · next h => rw [hk, h]
  · rfl

theorem fibreAt_modFibre_keeps {β : Type} (b : Fibre → β) (s : State) (g w f j v e : Nat) (k : Fibre → Fibre)
    (hp : (s.group? g).isSome = true) (hk : ∀ x, b (k x) = b x) :
    b ((s.modFibre g w f k).fibreAt j v e) = b (s.fibreAt j v e) := by
  by_cases hw : w < (s.groupAt g).warps.length
  · by_cases hf : f < (s.warpAt g w).fibres.length
    · rw [fibreAt_modFibre s g w f j v e k hp hw hf]
      split
      · next h => obtain ⟨rfl, rfl, rfl⟩ := h; exact hk _
      · rfl
    · have : (s.modFibre g w f k).fibreAt j v e = s.fibreAt j v e := by
        unfold State.modFibre State.fibreAt
        rw [warpAt_modWarp s g w j v _ hp hw]
        split
        · next h =>
          obtain ⟨rfl, rfl⟩ := h
          by_cases he : e = f
          · subst he
            have h1 : ((modAt (s.warpAt j v).fibres e k).getD e {}) = (s.warpAt j v).fibres.getD e {} := by
              simp only [List.getD_eq_getElem?_getD]
              rw [List.getElem?_eq_none (by simpa using hf), List.getElem?_eq_none (by simpa using hf)]
            exact h1
          · exact getD_modAt_ne _ _ _ _ _ he
        · rfl
      rw [this]
  · have : (s.modFibre g w f k).fibreAt j v e = s.fibreAt j v e := by
      unfold State.fibreAt
      have h1 : (s.modFibre g w f k).warpAt j v = s.warpAt j v := by
        by_cases hne : j = g ∧ v = w
        · obtain ⟨rfl, rfl⟩ := hne
          unfold State.modFibre State.modWarp State.warpAt
          rw [groupAt_modGroup s j j _ hp, if_pos rfl]
          simp only [List.getD_eq_getElem?_getD]
          rw [List.getElem?_eq_none (by simpa using hw), List.getElem?_eq_none (by simpa using hw)]
        · exact warpAt_modWarp_ne s g w j v _ hp hne
      rw [h1]
    rw [this]

/-! Each part of the end of an execution. -/

/-- Moving a lane changes its PC, the word before its instruction and its age, and nothing else. -/
theorem moveLane_eq (p : Path) (n : DWord) (j : Option DWord) (l : Lane) :
    ∃ pc rep inst, moveLane p n j l = { l with pc := pc, rep := rep, inst := inst, age := 0 } := by
  unfold moveLane
  cases l.st <;> simp only []
  all_goals first
    | exact ⟨_, _, _, rfl⟩
    | (cases j <;> simp only [])
  all_goals first
    | exact ⟨_, _, _, rfl⟩
    | (cases p.rep <;> simp only [])
  all_goals first
    | exact ⟨_, _, _, rfl⟩
    | (split <;> exact ⟨_, _, _, rfl⟩)

@[simp] theorem moveLane_blank (p : Path) (n : DWord) (j : Option DWord) (l : Lane) : (moveLane p n j l).blank = l.blank := by
  obtain ⟨_, _, _, h⟩ := moveLane_eq p n j l
  rw [h]; rfl

@[simp] theorem moveLane_st (p : Path) (n : DWord) (j : Option DWord) (l : Lane) : (moveLane p n j l).st = l.st := by
  obtain ⟨_, _, _, h⟩ := moveLane_eq p n j l
  rw [h]

/-- Where an active lane moves. -/
theorem moveLane_pc (x : Ex) (js : List (Nat × DWord)) (i : Nat) (l : Lane) (h : l.st = .active) :
    (moveLane x.p x.next ((js.find? (fun j => j.1 == i)).map (·.2)) l).pc = nextPc x js i := by
  unfold moveLane nextPc
  simp only [h]
  cases js.find? (fun j => j.1 == i) with
  | some j => simp
  | none =>
    cases x.p.rep with
    | none => simp
    | some r =>
      simp only [Option.map_none]
      split <;> rfl

@[simp] theorem ageLane_blank (m : Word) (i : Nat) (l : Lane) : (ageLane m i l).blank = l.blank := by
  unfold ageLane; split <;> rfl
@[simp] theorem ageLane_st (m : Word) (i : Nat) (l : Lane) : (ageLane m i l).st = l.st := by
  unfold ageLane; split <;> rfl
@[simp] theorem ageLane_pc (m : Word) (i : Nat) (l : Lane) : (ageLane m i l).pc = l.pc := by
  unfold ageLane; split <;> rfl

theorem mapLanes_blank (x : Fibre) (k : Lane → Lane) (hk : ∀ l, (k l).blank = l.blank) :
    (mapLanes x k).blank = x.blank := by
  simp [mapLanes, Fibre.blank, Function.comp_def, hk]

theorem mapFibres_blank (x : Warp) (k : Nat → Fibre → Fibre) (hk : ∀ i y, (k i y).blank = y.blank) :
    (mapFibres x k).blank = x.blank := by
  unfold mapFibres Warp.blank
  congr 1
  apply List.ext_getElem <;> simp [hk]

theorem fbarDone_blank (x : Fibre) : (fbarDone x).blank = x.blank := by
  unfold fbarDone
  dsimp only
  split
  · exact mapLanes_blank _ _ (fun l => by split <;> rfl)
  · rfl

theorem settleFbar_agree (s : State) (g w : Nat) (hp : (s.group? g).isSome = true) : Agree (s.settleFbar g w) s := by
  refine modWarp_agree s g w _ hp (fun x => ?_)
  have h1 : (mapFibres x (fun _ fb => fbarDone fb)).blank = x.blank := mapFibres_blank _ _ (fun _ y => fbarDone_blank y)
  dsimp only
  split
  · rw [mapFibres_blank _ _ (fun _ y => ?_), h1]
    split
    · rfl
    · exact mapLanes_blank _ _ (fun l => by split <;> rfl)
  · exact h1

theorem advance_agree (s : State) (p : Path) (n : DWord) (js : List (Nat × DWord)) (hp : (s.group? p.g).isSome = true) :
    Agree (s.advance p n js) s := by
  refine modFibre_agree s p.g p.w p.f _ hp (fun x => ?_)
  simp only [Fibre.blank]
  congr 1
  refine mapIdx_blank _ _ (fun i x => ?_)
  split <;> simp

@[simp] theorem placed_advance (s : State) (p : Path) (n : DWord) (js : List (Nat × DWord)) (j : Nat) :
    ((s.advance p n js).group? j).isSome = (s.group? j).isSome := placed_modFibre ..

theorem endCheck_going (s : State) (g w f : Nat) (h : (s.fibreAt g w f).atEnd = false) : s.endCheck g w f = s := by
  unfold State.endCheck
  rw [h]
  rfl

theorem atEnd_mapIdx (x : Fibre) (k : Nat → Lane → Lane) (hk : ∀ i l, (k i l).st = l.st) :
    ({ x with lanes := x.lanes.mapIdx k } : Fibre).atEnd = x.atEnd := by
  unfold Fibre.atEnd
  congr 1
  rw [Bool.eq_iff_iff, List.all_eq_true, List.all_eq_true]
  constructor
  · intro h l hl
    obtain ⟨i, hi, rfl⟩ := List.getElem_of_mem hl
    have := h (k i x.lanes[i]) (List.mem_iff_getElem.2 ⟨i, by simpa using hi, by simp⟩)
    simpa [hk] using this
  · intro h l hl
    obtain ⟨i, hi, rfl⟩ := List.getElem_of_mem hl
    have hi' : i < x.lanes.length := by simpa using hi
    have := h x.lanes[i] (List.getElem_mem hi')
    simpa [hk] using this

theorem flush_quiet (s : State) (g : Nat) (h : (s.groupAt g).barOps = []) : s.flush g = s := by
  simp [State.flush, h]

/-! The end of an execution, whole. -/

/-- A fibre with a live lane that can go on has not ended. -/
theorem atEnd_of_active (x : Fibre) (l : Nat) (h : (x.lanes.getD l {}).st = .active) : x.atEnd = false := by
  have hl : l < x.lanes.length := by
    by_cases hl : l < x.lanes.length
    · exact hl
    · rw [List.getD_eq_getElem?_getD, List.getElem?_eq_none (by omega)] at h
      exact absurd h (by decide)
  rw [List.getD_eq_getElem?_getD, List.getElem?_eq_getElem hl] at h
  unfold Fibre.atEnd
  rw [Bool.and_eq_false_iff]
  right
  rw [List.all_eq_false]
  exact ⟨_, List.getElem_mem hl, by simp only [Option.getD_some] at h; rw [h]; decide⟩

theorem barOps_modFibre (s : State) (g w f j : Nat) (k : Fibre → Fibre) (hp : (s.group? g).isSome = true) :
    ((s.modFibre g w f k).groupAt j).barOps = (s.groupAt j).barOps :=
  groupAt_modGroup_keeps Group.barOps s g j _ hp (fun _ => rfl)

theorem noteIssue_agree (s b : State) (p : Path) : Agree (s.noteIssue b p) s := rfl
theorem wake_agree (s : State) : Agree s.wake s := rfl

/-- Forgetting executions with nothing outstanding changes no more than the notes of them. -/
theorem forgetTallies_eq (s : State) : ∃ ts, s.forgetTallies = { s with tallies := ts } := by
  unfold State.forgetTallies
  split
  · exact ⟨s.tallies, rfl⟩
  · exact ⟨_, rfl⟩
theorem forgetTallies_agree (s : State) (late : Option (Nat × Nat)) :
    Agree { s.forgetTallies with perfRead := [], late := late } s := by
  obtain ⟨ts, h⟩ := forgetTallies_eq s
  rw [h]; rfl

theorem endCycle_agree (s : State) (p : Path) (hp : (s.group? p.g).isSome = true) (hq : (s.groupAt p.g).barOps = []) :
    Agree (s.endCycle p) s := by
  have main : ∀ u : State, (u.group? p.g).isSome = true → (u.groupAt p.g).barOps = [] → Agree u s →
      ∀ late, Agree ({ ((u.flush p.g).settleFbar p.g p.w).forgetTallies with perfRead := [], late := late } : State) s := by
    intro u hu hb ha late
    rw [flush_quiet u p.g hb]
    exact (forgetTallies_agree _ _).trans ((settleFbar_agree u p.g p.w hu).trans ha)
  unfold State.endCycle
  cases hopp : s.opp with
  | none => exact main s hp hq rfl _
  | some o =>
    dsimp only
    have hk : ∀ x : Fibre, ({ x with lanes := x.lanes.mapIdx (ageLane o.issued) } : Fibre).blank = x.blank := by
      intro x
      simp only [Fibre.blank]
      congr 1
      exact mapIdx_blank _ _ (fun i l => ageLane_blank _ i l)
    refine main _ ?_ ?_ ?_ _
    · have := placed_modFibre s p.g p.w p.f p.g (fun x => { x with lanes := x.lanes.mapIdx (ageLane o.issued) })
      exact this.trans hp
    · exact (barOps_modFibre s p.g p.w p.f p.g _ hp).trans hq
    · exact Agree.trans (t := s.modFibre p.g p.w p.f (fun x => { x with lanes := x.lanes.mapIdx (ageLane o.issued) })) rfl
        (modFibre_agree s p.g p.w p.f _ hp hk)

/-! Lanes. -/

/-- A fibre with an active lane exists. -/
theorem exists_of_active (s : State) (g w f l : Nat) (h : (s.laneAt g w f l).st = .active) :
    w < (s.groupAt g).warps.length ∧ f < (s.warpAt g w).fibres.length ∧ l < (s.fibreAt g w f).lanes.length := by
  have h3 : l < (s.fibreAt g w f).lanes.length := by
    by_cases hl : l < (s.fibreAt g w f).lanes.length
    · exact hl
    · unfold State.laneAt at h
      rw [List.getD_eq_getElem?_getD, List.getElem?_eq_none (by omega)] at h
      exact absurd h (by decide)
  have none : ∀ n : Nat, (({} : Fibre).lanes.getD n {}).st ≠ .active := by
    intro n
    rw [List.getD_eq_getElem?_getD]
    show ((List.replicate 32 ({} : Lane))[n]?.getD {}).st ≠ .active
    rw [List.getElem?_replicate]
    split <;> decide
  have h2 : f < (s.warpAt g w).fibres.length := by
    by_cases hf : f < (s.warpAt g w).fibres.length
    · exact hf
    · unfold State.laneAt State.fibreAt at h
      rw [List.getD_eq_getElem?_getD (l := (s.warpAt g w).fibres), List.getElem?_eq_none (by omega)] at h
      exact absurd h (none l)
  refine ⟨?_, h2, h3⟩
  by_cases hw : w < (s.groupAt g).warps.length
  · exact hw
  · unfold State.warpAt at h2
    rw [List.getD_eq_getElem?_getD, List.getElem?_eq_none (by omega)] at h2
    exact absurd h2 (Nat.not_lt_zero _)

/-- A lane that is active at a PC. -/
def State.LaneOn (s : State) (g w f l : Nat) (pc : DWord) : Prop :=
  (s.laneAt g w f l).st = .active ∧ (s.laneAt g w f l).pc = pc

/-- A change of a warp that keeps a lane active where it is, keeps it. -/
theorem laneOn_modWarp (s : State) (g w f l : Nat) (pc : DWord) (k : Warp → Warp) (hp : (s.group? g).isSome = true)
    (hk : ∀ x : Warp, ((x.fibres.getD f {}).lanes.getD l {}).st = .active → ((x.fibres.getD f {}).lanes.getD l {}).pc = pc →
      (((k x).fibres.getD f {}).lanes.getD l {}).st = .active ∧ (((k x).fibres.getD f {}).lanes.getD l {}).pc = pc)
    (h : s.LaneOn g w f l pc) : (s.modWarp g w k).LaneOn g w f l pc := by
  obtain ⟨h1, h2⟩ := h
  obtain ⟨hw, _, _⟩ := exists_of_active s g w f l h1
  unfold State.LaneOn State.laneAt State.fibreAt
  rw [warpAt_modWarp s g w g w k hp hw, if_pos ⟨rfl, rfl⟩]
  exact hk _ h1 h2

/-- A change of a fibre that takes an active lane from one PC to another. -/
theorem laneOn_modFibre (s : State) (g w f l : Nat) (pc pc' : DWord) (k : Fibre → Fibre) (hp : (s.group? g).isSome = true)
    (hk : ∀ x : Fibre, (x.lanes.getD l {}).st = .active → (x.lanes.getD l {}).pc = pc → l < x.lanes.length →
      ((k x).lanes.getD l {}).st = .active ∧ ((k x).lanes.getD l {}).pc = pc')
    (h : s.LaneOn g w f l pc) : (s.modFibre g w f k).LaneOn g w f l pc' := by
  obtain ⟨h1, h2⟩ := h
  obtain ⟨hw, hf, hl⟩ := exists_of_active s g w f l h1
  unfold State.LaneOn State.laneAt
  rw [fibreAt_modFibre s g w f g w f k hp hw hf, if_pos ⟨rfl, rfl, rfl⟩]
  exact hk _ h1 h2 hl

theorem getD_mapIdx (ls : List Lane) (k : Nat → Lane → Lane) (l : Nat) (h : l < ls.length) :
    (ls.mapIdx k).getD l {} = k l (ls.getD l {}) := by
  simp [List.getD_eq_getElem?_getD, h]

theorem getD_map (ls : List Lane) (k : Lane → Lane) (l : Nat) (h : l < ls.length) :
    (ls.map k).getD l {} = k (ls.getD l {}) := by
  simp [List.getD_eq_getElem?_getD, h]

theorem lane_lt_of_active {x : Fibre} {l : Nat} (h : (x.lanes.getD l {}).st = .active) : l < x.lanes.length := by
  by_cases hl : l < x.lanes.length
  · exact hl
  · rw [List.getD_eq_getElem?_getD, List.getElem?_eq_none (by omega)] at h
    exact absurd h (by decide)

theorem fibre_lt_of_active {x : Warp} {f l : Nat} (h : ((x.fibres.getD f {}).lanes.getD l {}).st = .active) :
    f < x.fibres.length := by
  by_cases hf : f < x.fibres.length
  · exact hf
  · rw [List.getD_eq_getElem?_getD (l := x.fibres), List.getElem?_eq_none (by omega)] at h
    have : (({} : Fibre).lanes.getD l {}).st ≠ .active := by
      rw [List.getD_eq_getElem?_getD]
      show ((List.replicate 32 ({} : Lane))[l]?.getD {}).st ≠ .active
      rw [List.getElem?_replicate]
      split <;> decide
    exact absurd h this

theorem laneOn_settleFbar (s : State) (g w f l : Nat) (pc : DWord) (hp : (s.group? g).isSome = true)
    (h : s.LaneOn g w f l pc) : (s.settleFbar g w).LaneOn g w f l pc := by
  refine laneOn_modWarp s g w f l pc _ hp (fun x h1 h2 => ?_) h
  have keep : ∀ (y : Fibre) (st : LaneState), st ≠ .active → (y.lanes.getD l {}).st = .active → (y.lanes.getD l {}).pc = pc →
      ((mapLanes y (fun n => if n.st == st then { n with st := .active } else n)).lanes.getD l {}).st = .active ∧
      ((mapLanes y (fun n => if n.st == st then { n with st := .active } else n)).lanes.getD l {}).pc = pc := by
    intro y st _ a b
    unfold mapLanes
    rw [getD_map _ _ _ (lane_lt_of_active a)]
    split
    · exact ⟨rfl, b⟩
    · exact ⟨a, b⟩
  have step1 : ∀ y : Fibre, (y.lanes.getD l {}).st = .active → (y.lanes.getD l {}).pc = pc →
      ((fbarDone y).lanes.getD l {}).st = .active ∧ ((fbarDone y).lanes.getD l {}).pc = pc := by
    intro y a b
    unfold fbarDone
    dsimp only
    split
    · exact keep y (.waiting .fbar) (by decide) a b
    · exact ⟨a, b⟩
  have getF : ∀ (y : Warp) (k : Nat → Fibre → Fibre), ((y.fibres.getD f {}).lanes.getD l {}).st = .active →
      (mapFibres y k).fibres.getD f {} = k f (y.fibres.getD f {}) := by
    intro y k a
    have hf := fibre_lt_of_active a
    simp [mapFibres, List.getD_eq_getElem?_getD, hf]
  have h3 := step1 _ h1 h2
  dsimp only
  split
  · rw [getF]
    · rw [getF _ _ h1]
      split
      · exact h3
      · exact keep _ (.waiting .fbarSlot) (by decide) h3.1 h3.2
    · rw [getF _ _ h1]; exact h3.1
  · rw [getF _ _ h1]; exact h3

theorem laneOn_endCycle (s : State) (p : Path) (l : Nat) (pc : DWord) (hp : (s.group? p.g).isSome = true)
    (hq : (s.groupAt p.g).barOps = []) (h : s.LaneOn p.g p.w p.f l pc) : (s.endCycle p).LaneOn p.g p.w p.f l pc := by
  have main : ∀ u : State, (u.group? p.g).isSome = true → (u.groupAt p.g).barOps = [] → u.LaneOn p.g p.w p.f l pc →
      ∀ late, ({ ((u.flush p.g).settleFbar p.g p.w).forgetTallies with perfRead := [], late := late } : State).LaneOn p.g p.w p.f l pc := by
    intro u hu hb ha late
    rw [flush_quiet u p.g hb]
    obtain ⟨ts, h⟩ := forgetTallies_eq (u.settleFbar p.g p.w)
    rw [h]
    exact laneOn_settleFbar u p.g p.w p.f l pc hu ha
  unfold State.endCycle
  cases hopp : s.opp with
  | none => exact main s hp hq h _
  | some o =>
    dsimp only
    refine main _ ?_ ?_ ?_ _
    · exact (placed_modFibre s p.g p.w p.f p.g _).trans hp
    · exact (barOps_modFibre s p.g p.w p.f p.g _ hp).trans hq
    · have := laneOn_modFibre s p.g p.w p.f l pc pc (fun x => { x with lanes := x.lanes.mapIdx (ageLane o.issued) }) hp
        (fun x a b hl => by rw [getD_mapIdx _ _ _ hl]; simp only [ageLane_st, ageLane_pc]; exact ⟨a, b⟩) h
      exact this

/-! The end of an execution, whole. -/

theorem retire_ok (x : Ex) (u b : State) (q : Option Path) (js : List (Nat × DWord)) (hp : (u.group? x.p.g).isSome = true)
    (hq : (u.groupAt x.p.g).barOps = []) (he : (u.fibreAt x.p.g x.p.w x.p.f).atEnd = false) :
    Agree (u.retire b x.p q x.next js) u ∧
    ∀ l ∈ lanesOf x.p.mask, (u.laneAt x.p.g x.p.w x.p.f l).st = .active →
      ((u.retire b x.p q x.next js).laneAt x.p.g x.p.w x.p.f l).st = .active ∧
      ((u.retire b x.p q x.next js).laneAt x.p.g x.p.w x.p.f l).pc = nextPc x js l := by
  obtain ⟨p, op, f, k, parts, ap⟩ := x
  dsimp only at *
  generalize hx : ({ p := p, op := op, f := f, k := k, parts := parts, ap := ap } : Ex) = x
  have hxp : x.p = p := by rw [← hx]
  unfold State.retire
  dsimp only
  generalize hw : u.advance p x.next js = v
  have p1 : (v.group? p.g).isSome = true := by rw [← hw]; exact (placed_advance ..).trans hp
  have a1 : Agree v u := by rw [← hw]; exact advance_agree u p x.next js hp
  have q1 : (v.groupAt p.g).barOps = [] := by rw [← hw]; exact (barOps_modFibre _ _ _ _ _ _ hp).trans hq
  have e1 : (v.fibreAt p.g p.w p.f).atEnd = false := by
    rw [← hw]
    refine (fibreAt_modFibre_keeps Fibre.atEnd u p.g p.w p.f p.g p.w p.f _ hp (fun y => ?_)).trans he
    exact atEnd_mapIdx y _ (fun i l => by split <;> simp)
  have l1 : ∀ l pc, l ∈ lanesOf p.mask → u.LaneOn p.g p.w p.f l pc → v.LaneOn p.g p.w p.f l (nextPc x js l) := by
    intro l pc hm h
    rw [← hw]
    refine laneOn_modFibre u p.g p.w p.f l pc _ _ hp (fun y a b hl => ?_) h
    have hb : p.mask.getLsbD l = true := (List.mem_filter.1 hm).2
    dsimp only
    rw [getD_mapIdx _ _ _ hl, if_pos hb]
    refine ⟨(moveLane_st ..).trans a, ?_⟩
    have := moveLane_pc x js l (y.lanes.getD l {}) a
    rw [hxp] at this
    exact this
  have k1b : ∀ y, (noteFibre p y).blank = y.blank := fun y => rfl
  have p2 : ((v.modFibre p.g p.w p.f (noteFibre p)).group? p.g).isSome = true := (placed_modFibre ..).trans p1
  have a2 := modFibre_agree v p.g p.w p.f (noteFibre p) p1 k1b
  have q2 : ((v.modFibre p.g p.w p.f (noteFibre p)).groupAt p.g).barOps = [] := (barOps_modFibre _ _ _ _ _ _ p1).trans q1
  have e2 : ((v.modFibre p.g p.w p.f (noteFibre p)).fibreAt p.g p.w p.f).atEnd = false :=
    (fibreAt_modFibre_keeps Fibre.atEnd v p.g p.w p.f p.g p.w p.f (noteFibre p) p1 (fun y => rfl)).trans e1
  have l2 : ∀ l pc, l ∈ lanesOf p.mask → u.LaneOn p.g p.w p.f l pc →
      (v.modFibre p.g p.w p.f (noteFibre p)).LaneOn p.g p.w p.f l (nextPc x js l) := fun l pc hm h =>
    laneOn_modFibre v p.g p.w p.f l _ _ (noteFibre p) p1 (fun y a b _ => ⟨a, b⟩) (l1 l pc hm h)
  generalize v.modFibre p.g p.w p.f (noteFibre p) = w at p2 a2 q2 e2 l2
  have hend : (w.noteIssue b p).endCheck p.g p.w p.f = w.noteIssue b p := endCheck_going _ _ _ _ e2
  rw [hend]
  have al : Agree w u := a2.trans a1
  have ll : ∀ l ∈ lanesOf p.mask, (u.laneAt p.g p.w p.f l).st = .active → w.LaneOn p.g p.w p.f l (nextPc x js l) :=
    fun l hm h => l2 l _ hm ⟨h, rfl⟩
  cases q with
  | some q => exact ⟨al, ll⟩
  | none =>
    dsimp only
    refine ⟨?_, fun l hm h => ?_⟩
    · exact Agree.trans (t := ((w.noteIssue b p).wake).endCycle p) rfl
        ((endCycle_agree ((w.noteIssue b p).wake) p p2 q2).trans al)
    · exact laneOn_endCycle ((w.noteIssue b p).wake) p l _ p2 q2 (ll l hm h)

/-! What the model notes of an execution beside: the order its accesses come in (R278, R291) and the walks it has used (R178). -/

@[simp] theorem walksUsed_late (u : State) (g w f : Nat) (pc : DWord) : (u.walksUsed g w f pc).late = u.late := rfl

theorem joinLanes_eq (u : State) (x : Ex) :
    ∃ n, u.joinLanes x = u ∨ u.joinLanes x = u.modFibre x.p.g x.p.w x.p.f (fun y => { y with joined := n }) := by
  unfold State.joinLanes
  split
  · exact ⟨_, .inr rfl⟩
  · exact ⟨0, .inl rfl⟩

theorem handOff_eq (u : State) (x : Ex) : u.handOff x = u ∨ ∃ (kw : Warp → List Handed) (kf : Fibre → List (Nat × Nat)),
    u.handOff x = (u.modWarp x.p.g x.p.w (fun v => { v with handed := kw v })).modFibre x.p.g x.p.w x.p.f (fun v => { v with after := kf v }) := by
  unfold State.handOff
  dsimp only
  split
  · exact .inl rfl
  · exact .inr ⟨_, _, rfl⟩

/-- A property of states that no note changes holds of what an execution leaves with its notes. -/
theorem noted_keeps (P : State → Prop) (u : State) (x : Ex) (h0 : P (u.walksUsed x.p.g x.p.w x.p.f x.p.pc))
    (hf : ∀ (v : State) (k : Fibre → Fibre), (∀ y, (k y).lanes = y.lanes ∧ (k y).atEnd = y.atEnd ∧ (k y).blank = y.blank) → P v →
      P (v.modFibre x.p.g x.p.w x.p.f k))
    (hw : ∀ (v : State) (k : Warp → Warp), (∀ y, (k y).fibres = y.fibres ∧ (k y).blank = y.blank) → P v → P (v.modWarp x.p.g x.p.w k)) :
    P (u.noted x) := by
  unfold State.noted
  have h1 : P ((u.walksUsed x.p.g x.p.w x.p.f x.p.pc).joinLanes x) := by
    obtain ⟨n, h | h⟩ := joinLanes_eq (u.walksUsed x.p.g x.p.w x.p.f x.p.pc) x
    · rw [h]; exact h0
    · rw [h]; exact hf _ _ (fun _ => ⟨rfl, rfl, rfl⟩) h0
  obtain h | ⟨kw, kf, h⟩ := handOff_eq ((u.walksUsed x.p.g x.p.w x.p.f x.p.pc).joinLanes x) x
  · rw [h]; exact h1
  · rw [h]; exact hf _ _ (fun _ => ⟨rfl, rfl, rfl⟩) (hw _ _ (fun _ => ⟨rfl, rfl⟩) h1)

theorem noted_late (u : State) (x : Ex) : (u.noted x).late = u.late := by
  refine noted_keeps (fun v => v.late = u.late) u x rfl ?_ ?_
  · intro v k _ h; exact (modFibre_late ..).trans h
  · intro v k _ h; exact (modWarp_late ..).trans h

theorem noted_placed (u : State) (x : Ex) (j : Nat) (hp : (u.group? j).isSome = true) : ((u.noted x).group? j).isSome = true := by
  refine noted_keeps (fun v => (v.group? j).isSome = true) u x hp ?_ ?_
  · intro v k _ h; exact (placed_modFibre ..).trans h
  · intro v k _ h; exact (placed_modWarp ..).trans h

theorem noted_agree (u : State) (x : Ex) (hp : (u.group? x.p.g).isSome = true) : Agree (u.noted x) u := by
  refine (noted_keeps (fun v => (v.group? x.p.g).isSome = true ∧ Agree v u) u x ⟨hp, rfl⟩ ?_ ?_).2
  · intro v k hk h; exact ⟨(placed_modFibre ..).trans h.1, (modFibre_agree v _ _ _ k h.1 (fun y => (hk y).2.2)).trans h.2⟩
  · intro v k hk h; exact ⟨(placed_modWarp ..).trans h.1, (modWarp_agree v _ _ k h.1 (fun y => (hk y).2)).trans h.2⟩

theorem noted_quiet (u : State) (x : Ex) (hp : (u.group? x.p.g).isSome = true) (hq : (u.groupAt x.p.g).barOps = []) :
    ((u.noted x).groupAt x.p.g).barOps = [] := by
  refine (noted_keeps (fun v => (v.group? x.p.g).isSome = true ∧ (v.groupAt x.p.g).barOps = []) u x ⟨hp, hq⟩ ?_ ?_).2
  · intro v k _ h; exact ⟨(placed_modFibre ..).trans h.1, (barOps_modFibre v _ _ _ _ k h.1).trans h.2⟩
  · intro v k _ h
    refine ⟨(placed_modWarp ..).trans h.1, Eq.trans ?_ h.2⟩
    unfold State.modWarp
    exact groupAt_modGroup_keeps Group.barOps v x.p.g x.p.g _ h.1 (fun _ => rfl)

theorem noted_lane (u : State) (x : Ex) (hp : (u.group? x.p.g).isSome = true) (l : Nat) (pc : DWord)
    (h : u.LaneOn x.p.g x.p.w x.p.f l pc) : (u.noted x).LaneOn x.p.g x.p.w x.p.f l pc := by
  refine (noted_keeps (fun v => (v.group? x.p.g).isSome = true ∧ v.LaneOn x.p.g x.p.w x.p.f l pc) u x ⟨hp, h⟩ ?_ ?_).2
  · intro v k hk h
    exact ⟨(placed_modFibre ..).trans h.1, laneOn_modFibre v _ _ _ _ _ _ k h.1 (fun y a b _ => by rw [(hk y).1]; exact ⟨a, b⟩) h.2⟩
  · intro v k hk h
    exact ⟨(placed_modWarp ..).trans h.1, laneOn_modWarp v _ _ _ _ _ k h.1 (fun y a b => by rw [(hk y).1]; exact ⟨a, b⟩) h.2⟩

/-- An instruction whose body takes effect completes, once no walk of its accesses is outstanding. -/
theorem runInstr_completes (op : Nat) (f : Fields) (body : Ex → State → Out) (p : Path) (q : Option Path) (s u : State)
    (js : List (Nat × DWord)) (h : Issuing s p q op f) (hb : body (s.exOf p op f) (s.start p f) = .ok u js)
    (hk : u.walksOut p.g p.w p.f p.pc = false) (hl : u.late = none) (hp : (u.group? p.g).isSome = true) (hq : (u.groupAt p.g).barOps = [])
    (ha : ∃ l, (u.laneAt p.g p.w p.f l).st = .active) :
    ∃ t, runInstr op f body s = .next t ∧ Agree t u ∧ ∀ l ∈ lanesOf p.mask, (u.laneAt p.g p.w p.f l).st = .active →
      (t.laneAt p.g p.w p.f l).st = .active ∧ (t.laneAt p.g p.w p.f l).pc = nextPc (s.exOf p op f) js l := by
  obtain ⟨l, hal⟩ := ha
  have hn := fun l h => noted_lane u (s.exOf p op f) hp l (u.laneAt p.g p.w p.f l).pc ⟨h, rfl⟩
  have he := atEnd_of_active ((u.noted (s.exOf p op f)).fibreAt p.g p.w p.f) l (hn l hal).1
  have hr := retire_ok (s.exOf p op f) (u.noted (s.exOf p op f)) (s.settle p.g p.w p.f) q js (noted_placed u _ _ hp) (noted_quiet u _ hp hq) he
  refine ⟨(u.noted (s.exOf p op f)).retire (s.settle p.g p.w p.f) p q (s.exOf p op f).next js, ?_,
    hr.1.trans (noted_agree u _ hp), fun l hm h => hr.2 l hm (hn l h).1⟩
  have hlu : (u.noted (s.exOf p op f)).lateUnit (s.exOf p op f) = none := by
    unfold State.lateUnit
    split
    · rfl
    · rw [noted_late, hl]
  have hw : windowOk (s.pathFibre p) op (s.exOf p op f).k f = true := h.window
  have hparts : (s.exOf p op f).parts.isEmpty = false := by
    have : (s.exOf p op f).parts = s.partsOf p f := rfl
    rw [this]
    exact List.isEmpty_eq_false_iff.2 h.parts
  have hfree := h.free
  unfold State.start at hb
  change (((u.walksUsed p.g p.w p.f p.pc).joinLanes (s.exOf p op f)).handOff (s.exOf p op f)).lateUnit (s.exOf p op f) = none at hlu
  simp only [runInstr, h.turn, runPath, hw, hfree, hb, hparts, State.lateMarks, hk, hlu]
  rfl

/-! The start of an execution. -/

@[simp] theorem prep_late (s : State) (p : Path) (f : Fields) : (s.prep p f).late = s.late := by
  have strand_late : ∀ (ls : List (Nat × Word)) (u : State), (u.strand p ls).late = u.late := by
    intro ls
    induction ls with
    | nil => intro u; rfl
    | cons e r ih => intro u; exact (ih _).trans (modLane_late ..)
  unfold State.prep
  rw [strand_late]
  split
  · rfl
  · exact modFibre_late ..

@[simp] theorem prep_walking (s : State) (p : Path) (f : Fields) : (s.prep p f).walking = s.walking := by
  have strand_walking : ∀ (ls : List (Nat × Word)) (u : State), (u.strand p ls).walking = u.walking := by
    intro ls
    induction ls with
    | nil => intro u; rfl
    | cons e r ih => intro u; exact (ih _).trans (modLane_walking ..)
  unfold State.prep
  rw [strand_walking]
  split
  · rfl
  · exact modFibre_walking ..

theorem strand_agree (p : Path) (ls : List (Nat × Word)) (s : State) (hp : (s.group? p.g).isSome = true) :
    Agree (s.strand p ls) s ∧ ((s.strand p ls).group? p.g).isSome = true := by
  induction ls generalizing s with
  | nil => exact ⟨rfl, hp⟩
  | cons e r ih =>
    have h1 : ((s.modLane p.g p.w p.f e.1 (fun l => { l with st := .stranded e.2 })).group? p.g).isSome = true :=
      (placed_modLane ..).trans hp
    obtain ⟨ha, hb⟩ := ih _ h1
    exact ⟨Agree.trans ha (modLane_agree s p.g p.w p.f e.1 _ hp (fun _ => rfl)), hb⟩

/-- The start of an execution changes nothing but lanes' states. -/
theorem prep_agree (s : State) (p : Path) (f : Fields) (hp : (s.group? p.g).isSome = true) :
    Agree (s.prep p f) s ∧ ((s.prep p f).group? p.g).isSome = true := by
  unfold State.prep
  split
  · exact strand_agree p _ s hp
  · have h1 : ((s.modFibre p.g p.w p.f (fun y => { y with raised := 0 })).group? p.g).isSome = true :=
      (placed_modFibre ..).trans hp
    obtain ⟨ha, hb⟩ := strand_agree p (s.guardBad p f) _ h1
    exact ⟨Agree.trans ha (modFibre_agree s p.g p.w p.f _ hp (fun _ => rfl)), hb⟩

end Sys2Proof.Machine
end

