-- ==== Sys2Proof/Laws/Agree.lean ====
section
/-! SUPPORT. What states that agree have in common, and which lanes the start of an execution leaves active. -/

namespace Sys2Proof.Machine

theorem sget_map {α β : Type} (m : Sparse α) (g : Nat) (b : α → β) :
    sget (m.map (fun e => (e.1, b e.2))) g = (sget m g).map b := by
  induction m with
  | nil => rfl
  | cons e r ih =>
    obtain ⟨k, v⟩ := e
    rw [List.map_cons, sget_cons, sget_cons, ih]
    split <;> rfl

/-- What does not read the scheduler's own fields is the same in states that agree. -/
theorem Agree.same {β : Type} {s t : State} (h : Agree s t) (b : State → β) (hb : ∀ u : State, b u.blank = b u) : b s = b t := by
  rw [← hb s, ← hb t]; exact congrArg b h

/-- The same for a part of the state that has its own `blank`. -/
theorem same_of_blank {α β : Type} (bl : α → α) {x y : α} (h : bl x = bl y) (b : α → β) (hb : ∀ u, b (bl u) = b u) : b x = b y := by
  rw [← hb x, ← hb y, h]

theorem Agree.group? {s t : State} (h : Agree s t) (g : Nat) :
    (s.group? g).map Group.blank = (t.group? g).map Group.blank := by
  have h1 : s.groups.map (fun e => (e.1, e.2.blank)) = t.groups.map (fun e => (e.1, e.2.blank)) :=
    congrArg State.groups h
  have h2 := congrArg (fun m => sget m g) h1
  simp only [sget_map] at h2
  exact h2

theorem Agree.placed {s t : State} (h : Agree s t) (g : Nat) : (s.group? g).isSome = (t.group? g).isSome := by
  have := congrArg Option.isSome (h.group? g)
  simpa using this

theorem Agree.groupAt {s t : State} (h : Agree s t) (g : Nat) : (s.groupAt g).blank = (t.groupAt g).blank := by
  have h1 := h.group? g
  have hs : s.saved = t.saved := h.same State.saved (fun _ => rfl)
  unfold State.groupAt
  cases hx : s.group? g with
  | none =>
    cases hy : t.group? g with
    | none => rw [hs]
    | some y => rw [hx, hy] at h1; cases h1
  | some x =>
    cases hy : t.group? g with
    | none => rw [hx, hy] at h1; cases h1
    | some y => rw [hx, hy] at h1; exact Option.some.inj h1

theorem getD_map_of {α β : Type} (xs : List α) (i : Nat) (b : α → β) (d : α) : (xs.map b).getD i (b d) = b (xs.getD i d) := by
  simp only [List.getD_eq_getElem?_getD, List.getElem?_map]
  cases xs[i]? <;> rfl

theorem Agree.warpAt {s t : State} (h : Agree s t) (g w : Nat) : (s.warpAt g w).blank = (t.warpAt g w).blank := by
  have h1 := congrArg (fun x => x.warps.getD w ({} : Warp).blank) (h.groupAt g)
  simp only [Group.blank, getD_map_of] at h1
  exact h1

theorem Agree.fibreAt {s t : State} (h : Agree s t) (g w f : Nat) : (s.fibreAt g w f).blank = (t.fibreAt g w f).blank := by
  have h1 := congrArg (fun x => x.fibres.getD f ({} : Fibre).blank) (h.warpAt g w)
  simp only [Warp.blank, getD_map_of] at h1
  exact h1

theorem Agree.laneAt {s t : State} (h : Agree s t) (g w f l : Nat) : (s.laneAt g w f l).blank = (t.laneAt g w f l).blank := by
  have h1 := congrArg (fun x => x.lanes.getD l ({} : Lane).blank) (h.fibreAt g w f)
  simp only [Fibre.blank, getD_map_of] at h1
  exact h1

/-! Fields. -/

theorem Agree.mem {s t : State} (h : Agree s t) : s.mem = t.mem := h.same State.mem (fun _ => rfl)
theorem Agree.bad {s t : State} (h : Agree s t) : s.bad = t.bad := h.same State.bad (fun _ => rfl)
theorem Agree.owners {s t : State} (h : Agree s t) : s.owners = t.owners := h.same State.owners (fun _ => rfl)
theorem Agree.cores {s t : State} (h : Agree s t) : s.cores = t.cores := h.same State.cores (fun _ => rfl)
theorem Agree.msgs {s t : State} (h : Agree s t) : s.msgs = t.msgs := h.same State.msgs (fun _ => rfl)
theorem Agree.holds {s t : State} (h : Agree s t) : s.holds = t.holds := h.same State.holds (fun _ => rfl)
theorem Agree.pend {s t : State} (h : Agree s t) : s.pend = t.pend := h.same State.pend (fun _ => rfl)
theorem Agree.prods {s t : State} (h : Agree s t) : s.prods = t.prods := h.same State.prods (fun _ => rfl)
theorem Agree.cmds {s t : State} (h : Agree s t) : s.cmds = t.cmds := h.same State.cmds (fun _ => rfl)
theorem Agree.engine {s t : State} (h : Agree s t) : s.engine = t.engine := h.same State.engine (fun _ => rfl)
theorem Agree.regAt {s t : State} (h : Agree s t) (g w o : Nat) : s.regAt g w o = t.regAt g w o := by
  have : (s.warpAt g w).regs = (t.warpAt g w).regs := same_of_blank Warp.blank (h.warpAt g w) Warp.regs (fun _ => rfl)
  simp only [State.regAt, this]
theorem Agree.uregAt {s t : State} (h : Agree s t) (g w f n : Nat) : s.uregAt g w f n = t.uregAt g w f n := by
  have : (s.fibreAt g w f).uregs = (t.fibreAt g w f).uregs := same_of_blank Fibre.blank (h.fibreAt g w f) Fibre.uregs (fun _ => rfl)
  simp only [State.uregAt, this]
theorem Agree.fstat {s t : State} (h : Agree s t) (g w f : Nat) : (s.fibreAt g w f).fstat = (t.fibreAt g w f).fstat :=
  same_of_blank Fibre.blank (h.fibreAt g w f) Fibre.fstat (fun _ => rfl)
theorem Agree.preds {s t : State} (h : Agree s t) (g w f l : Nat) : (s.laneAt g w f l).preds = (t.laneAt g w f l).preds :=
  same_of_blank Lane.blank (h.laneAt g w f l) Lane.preds (fun _ => rfl)
theorem Agree.spAt {s t : State} (h : Agree s t) (g i : Nat) : s.spAt g i = t.spAt g i := by
  have : (s.groupAt g).spad = (t.groupAt g).spad := same_of_blank Group.blank (h.groupAt g) Group.spad (fun _ => rfl)
  simp only [State.spAt, this]
theorem Agree.barOps {s t : State} (h : Agree s t) (g : Nat) : (s.groupAt g).barOps = (t.groupAt g).barOps :=
  same_of_blank Group.blank (h.groupAt g) Group.barOps (fun _ => rfl)
theorem Agree.bars {s t : State} (h : Agree s t) (g : Nat) : (s.groupAt g).bars = (t.groupAt g).bars :=
  same_of_blank Group.blank (h.groupAt g) Group.bars (fun _ => rfl)

/-! Lanes after the start of an execution. -/

theorem active_modLane_ne (s : State) (g w f i l : Nat) (k : Lane → Lane) (hp : (s.group? g).isSome = true) (hne : l ≠ i)
    (h : (s.laneAt g w f l).st = .active) : ((s.modLane g w f i k).laneAt g w f l).st = .active := by
  refine (laneOn_modFibre s g w f l _ (s.laneAt g w f l).pc _ hp (fun x a b _ => ?_) ⟨h, rfl⟩).1
  dsimp only
  rw [getD_modAt_ne _ _ _ _ _ hne]
  exact ⟨a, b⟩

theorem active_strand (p : Path) (ls : List (Nat × Word)) (l : Nat) (s : State) (hp : (s.group? p.g).isSome = true)
    (hne : ∀ e ∈ ls, l ≠ e.1) (h : (s.laneAt p.g p.w p.f l).st = .active) :
    ((s.strand p ls).laneAt p.g p.w p.f l).st = .active := by
  induction ls generalizing s with
  | nil => exact h
  | cons e r ih =>
    refine ih _ ((placed_modLane ..).trans hp) (fun e' he => hne e' (List.mem_cons_of_mem _ he)) ?_
    exact active_modLane_ne s p.g p.w p.f e.1 l _ hp (hne e (List.mem_cons_self ..)) h

/-- A participant stays active where lanes with a poisoned guard are stranded. -/
theorem active_prep (s : State) (p : Path) (f : Fields) (hp : (s.group? p.g).isSome = true)
    (ha : ∀ l ∈ lanesOf p.mask, (s.laneAt p.g p.w p.f l).st = .active) (l : Nat)
    (hl : l ∈ s.partsOf p f) : ((s.prep p f).laneAt p.g p.w p.f l).st = .active := by
  have hmem := List.mem_filter.1 hl
  have hyes : s.guardOf p f l = .yes := by simpa using hmem.2
  have hne : ∀ e ∈ s.guardBad p f, l ≠ e.1 := by
    intro e he heq
    unfold State.guardBad at he
    rw [List.mem_filterMap] at he
    obtain ⟨l', _, hl'⟩ := he
    split at hl'
    · next w hw =>
      have : e.1 = l' := by rw [← Option.some.inj hl']
      rw [heq, this, hw] at hyes
      cases hyes
    · cases hl'
  have h0 := ha l hmem.1
  unfold State.prep
  split
  · exact active_strand p _ l s hp hne h0
  · refine active_strand p _ l _ ((placed_modFibre ..).trans hp) hne ?_
    exact (laneOn_modFibre s p.g p.w p.f l _ (s.laneAt p.g p.w p.f l).pc (fun y => { y with raised := 0 }) hp
      (fun x a b _ => ⟨a, b⟩) ⟨h0, rfl⟩).1

/-! What completing fences, and registers that the array is writing, leave alone (R269, R325). -/

/-- What of a group no fence and no array touches: its barrier operations and its lanes. -/
def Group.kept (x : Group) : List BarOp × List (List (List Lane)) := (x.barOps, x.warps.map (fun w => w.fibres.map Fibre.lanes))

structure Settles (g : Nat) (s u : State) : Prop where
  late : u.late = s.late
  walking : u.walking = s.walking
  placed : (s.group? g).isSome = true → (u.group? g).isSome = true
  kept : (s.group? g).isSome = true → (u.groupAt g).kept = (s.groupAt g).kept

theorem Settles.refl (g : Nat) (s : State) : Settles g s s := ⟨rfl, rfl, id, fun _ => rfl⟩
theorem Settles.trans {g : Nat} {s t u : State} (h : Settles g s t) (k : Settles g t u) : Settles g s u :=
  ⟨k.late.trans h.late, k.walking.trans h.walking, fun hp => k.placed (h.placed hp), fun hp => (k.kept (h.placed hp)).trans (h.kept hp)⟩
theorem settles_foldl {α : Type} {g : Nat} (k : State → α → State) (hk : ∀ s a, Settles g s (k s a)) (ls : List α) (s : State) :
    Settles g s (ls.foldl k s) := by
  induction ls generalizing s with
  | nil => exact Settles.refl g s
  | cons a r ih => exact (hk s a).trans (ih (k s a))

/-- A change outside the groups. -/
theorem settles_of_groups {g : Nat} {s u : State} (hl : u.late = s.late) (hw : u.walking = s.walking) (hg : u.groups = s.groups) (hs : u.saved = s.saved) :
    Settles g s u := by
  have h1 : u.group? g = s.group? g := by simp [State.group?, hg]
  exact ⟨hl, hw, fun hp => by rw [h1]; exact hp, fun _ => by simp [State.groupAt, h1, hs]⟩

theorem settles_modGroup (g : Nat) (s : State) (j : Nat) (k : Group → Group) (hp : (s.group? j).isSome = true)
    (hk : ∀ x, (k x).kept = x.kept) : Settles g s (s.modGroup j k) :=
  ⟨modGroup_late .., modGroup_walking .., fun h => by rw [placed_modGroup]; exact h, fun _ => groupAt_modGroup_keeps Group.kept s j g k hp hk⟩

theorem settles_modWarp (g : Nat) (s : State) (j w : Nat) (k : Warp → Warp) (hp : (s.group? j).isSome = true)
    (hk : ∀ x, (k x).fibres.map Fibre.lanes = x.fibres.map Fibre.lanes) : Settles g s (s.modWarp j w k) := by
  refine settles_modGroup g s j _ hp (fun x => ?_)
  simp [Group.kept, map_modAt _ _ _ (fun w : Warp => w.fibres.map Fibre.lanes) hk]

theorem settles_modFibre (g : Nat) (s : State) (j w f : Nat) (k : Fibre → Fibre) (hp : (s.group? j).isSome = true)
    (hk : ∀ x, (k x).lanes = x.lanes) : Settles g s (s.modFibre j w f k) := by
  refine settles_modWarp g s j w _ hp (fun x => ?_)
  simp [map_modAt _ _ _ Fibre.lanes hk]

/-- A fold whose steps settle while the group is placed. -/
theorem settles_foldl_placed {α : Type} {g : Nat} (k : State → α → State)
    (hk : ∀ s a, (s.group? g).isSome = true → Settles g s (k s a)) (ls : List α) (s : State)
    (hp : (s.group? g).isSome = true) : Settles g s (ls.foldl k s) := by
  induction ls generalizing s with
  | nil => exact Settles.refl g s
  | cons a r ih => exact (hk s a hp).trans (ih (k s a) ((hk s a hp).placed hp))

theorem settles_settleFences (s : State) (g w f : Nat) (hp : (s.group? g).isSome = true) : Settles g s (s.settleFences g w f) := by
  unfold State.settleFences
  refine settles_foldl_placed _ (fun s e hp => ?_) _ s hp
  split
  · exact Settles.refl g s
  · dsimp only
    refine (settles_modFibre g s g w f (fun x => { x with fences := x.fences.filter (fun k => k != e) }) hp
      (fun _ => rfl)).trans ?_
    split
    · exact settles_of_groups rfl rfl rfl rfl
    · exact Settles.refl g _

theorem settles_driftRun (s : State) (g w n : Nat) (hist : List (List RegWord)) (is : List Nat) (hp : (s.group? g).isSome = true) :
    Settles g s (s.driftRun g w n hist is) :=
  Settles.trans (t := { s with freeN := s.freeN + 256 }) (settles_of_groups rfl rfl rfl rfl) (settles_modWarp g _ g w _ hp (fun _ => rfl))

theorem settles_drift (s : State) (g w : Nat) (hp : (s.group? g).isSome = true) : Settles g s (s.drift g w) := by
  unfold State.drift
  refine settles_foldl_placed _ (fun s o hp => ?_) _ s hp
  exact settles_foldl_placed _ (fun s e hp => settles_driftRun s g w _ _ _ hp) _ s hp

/-- What an execution finds settled keeps the late mark, the group, its barrier operations and its lanes. -/
theorem settles_settle (s : State) (g w f : Nat) (hp : (s.group? g).isSome = true) : Settles g s (s.settle g w f) :=
  (settles_settleFences s g w f hp).trans (settles_drift _ g w ((settles_settleFences s g w f hp).placed hp))

/-- A lane of what a group keeps. -/
theorem laneOf_kept (x : Group) (w f l : Nat) :
    ((x.kept.2.getD w []).getD f ({} : Fibre).lanes).getD l {} = (((x.warps.getD w {}).fibres.getD f {}).lanes).getD l {} := by
  have h1 : x.kept.2.getD w [] = (x.warps.getD w {}).fibres.map Fibre.lanes :=
    getD_map_of x.warps w (fun w : Warp => w.fibres.map Fibre.lanes) {}
  rw [h1, getD_map_of _ f Fibre.lanes {}]

theorem Settles.laneAt {g : Nat} {s u : State} (h : Settles g s u) (hp : (s.group? g).isSome = true) (w f l : Nat) :
    u.laneAt g w f l = s.laneAt g w f l := by
  have h1 := laneOf_kept (u.groupAt g) w f l
  rw [h.kept hp, laneOf_kept] at h1
  exact h1.symm

theorem Settles.barOps {g : Nat} {s u : State} (h : Settles g s u) (hp : (s.group? g).isSome = true) :
    (u.groupAt g).barOps = (s.groupAt g).barOps := congrArg Prod.fst (h.kept hp)

theorem Settles.guardOf {s u : State} {p : Path} (h : Settles p.g s u) (hp : (s.group? p.g).isSome = true) (f : Fields) (l : Nat) :
    u.guardOf p f l = s.guardOf p f l := by
  have h1 : u.predAt p l f.pg.toNat = s.predAt p l f.pg.toNat := by simp only [State.predAt, h.laneAt hp]
  unfold State.guardOf
  rw [h1]

theorem Settles.partsOf {s u : State} {p : Path} (h : Settles p.g s u) (hp : (s.group? p.g).isSome = true) (f : Fields) :
    u.partsOf p f = s.partsOf p f := by
  unfold State.partsOf
  congr 1
  funext l
  rw [h.guardOf hp]

/-! The start of an execution. -/

theorem start_late (s : State) (p : Path) (f : Fields) (hp : (s.group? p.g).isSome = true) : (s.start p f).late = s.late :=
  (prep_late ..).trans (settles_settle s p.g p.w p.f hp).late

/-- The start of an execution asks for no walk. -/
theorem start_walks (s : State) (p : Path) (f : Fields) (hp : (s.group? p.g).isSome = true) : (s.start p f).walking = s.walking :=
  (prep_walking ..).trans (settles_settle s p.g p.w p.f hp).walking

theorem start_placed (s : State) (p : Path) (f : Fields) (hp : (s.group? p.g).isSome = true) :
    ((s.start p f).group? p.g).isSome = true :=
  (prep_agree _ p f ((settles_settle s p.g p.w p.f hp).placed hp)).2

theorem start_quiet (s : State) (p : Path) (q : Option Path) (op : Nat) (f : Fields) (h : Issuing s p q op f) :
    ((s.start p f).groupAt p.g).barOps = [] := by
  have hs := settles_settle s p.g p.w p.f h.placed
  exact ((prep_agree _ p f (hs.placed h.placed)).1.barOps p.g).trans ((hs.barOps h.placed).trans h.quiet)

/-- A participant is active at the start of an execution. -/
theorem active_start (s : State) (p : Path) (q : Option Path) (op : Nat) (f : Fields) (h : Issuing s p q op f) (l : Nat)
    (hl : l ∈ s.partsOf p f) : ((s.start p f).laneAt p.g p.w p.f l).st = .active := by
  have hs := settles_settle s p.g p.w p.f h.placed
  refine active_prep _ p f (hs.placed h.placed) (fun l hm => ?_) l (by rw [hs.partsOf h.placed]; exact hl)
  rw [hs.laneAt h.placed]
  exact h.active l hm

theorem exists_active_start (s : State) (p : Path) (q : Option Path) (op : Nat) (f : Fields) (h : Issuing s p q op f) :
    ∃ l, ((s.start p f).laneAt p.g p.w p.f l).st = .active := by
  cases hp : s.partsOf p f with
  | nil => exact absurd hp h.parts
  | cons l r => exact ⟨l, active_start s p q op f h l (by rw [hp]; exact List.mem_cons_self ..)⟩

end Sys2Proof.Machine
end

