-- ==== Sys2Proof/Laws/CanonOps.lean ====
section
/-! SUPPORT. Memory stays canonical (MemoryCanonical): the operations of registers, memory, regions and issuing. -/

namespace Sys2Proof.Machine


theorem wf_foldl {α : Type} (k : State → α → State) (ls : List α) (s : State)
    (hk : ∀ s a, Memory.wf s.mem = true → Memory.wf (k s a).mem = true) (h : Memory.wf s.mem = true) :
    Memory.wf (ls.foldl k s).mem = true := by
  induction ls generalizing s with
  | nil => exact h
  | cons a r ih => exact ih _ (hk s a h)

theorem wf_foldl2 {α β : Type} (k : β × State → α → β × State) (ls : List α) (b : β × State)
    (hk : ∀ b a, Memory.wf b.2.mem = true → Memory.wf (k b a).2.mem = true) (h : Memory.wf b.2.mem = true) :
    Memory.wf (ls.foldl k b).2.mem = true := by
  induction ls generalizing b with
  | nil => exact h
  | cons a r ih => exact ih _ (hk b a h)

theorem wf_foldl1 {α β : Type} (k : State × β → α → State × β) (ls : List α) (b : State × β)
    (hk : ∀ b a, Memory.wf b.1.mem = true → Memory.wf (k b a).1.mem = true) (h : Memory.wf b.1.mem = true) :
    Memory.wf (ls.foldl k b).1.mem = true := by
  induction ls generalizing b with
  | nil => exact h
  | cons a r ih => exact ih _ (hk b a h)

/-- What an execution leaves has canonical memory. -/
def OutOk (o : Out) : Prop :=
  match o with
  | .wait => True
  | .hold k => ∀ s, Memory.wf s.mem = true → Memory.wf (k s).mem = true
  | .freeze _ => True
  | .ok t _ => Memory.wf t.mem = true

def SOutOk (o : SOut) : Prop :=
  match o with
  | .wait => True
  | .halt _ => True
  | .ok t _ => Memory.wf t.mem = true

def NextOk (o : Host.Outcome State Fault Refusal) : Prop :=
  match o with
  | .next t => Memory.wf t.mem = true
  | .fault _ => True
  | .refused _ => True

theorem outOk_ok {t : State} {j : List (Nat × DWord)} (h : Memory.wf t.mem = true) : OutOk (.ok t j) := h
theorem outOk_hold {k : State → State} (h : ∀ s, Memory.wf s.mem = true → Memory.wf (k s).mem = true) : OutOk (.hold k) := h
theorem sOutOk_ok {t : State} {j : Option DWord} (h : Memory.wf t.mem = true) : SOutOk (.ok t j) := h
theorem nextOk_next {t : State} (h : Memory.wf t.mem = true) : NextOk (.next t) := h

theorem wf_foldl22 {α β γ : Type} (k : β × γ × State → α → β × γ × State) (ls : List α) (b : β × γ × State)
    (hk : ∀ b a, Memory.wf b.2.2.mem = true → Memory.wf (k b a).2.2.mem = true) (h : Memory.wf b.2.2.mem = true) :
    Memory.wf (ls.foldl k b).2.2.mem = true := by
  induction ls generalizing b with
  | nil => exact h
  | cons a r ih => exact ih _ (hk b a h)
theorem wf_foldlX {α : Type} (k : Xfer → α → Xfer) (ls : List α) (b : Xfer)
    (hk : ∀ b a, Memory.wf b.s.mem = true → Memory.wf (k b a).s.mem = true) (h : Memory.wf b.s.mem = true) :
    Memory.wf (ls.foldl k b).s.mem = true := by
  induction ls generalizing b with
  | nil => exact h
  | cons a r ih => exact ih _ (hk b a h)
theorem wf_foldlC {α : Type} (k : Scan → α → Scan) (ls : List α) (b : Scan)
    (hk : ∀ b a, Memory.wf b.s.mem = true → Memory.wf (k b a).s.mem = true) (h : Memory.wf b.s.mem = true) :
    Memory.wf (ls.foldl k b).s.mem = true := by
  induction ls generalizing b with
  | nil => exact h
  | cons a r ih => exact ih _ (hk b a h)

theorem wf_foldl2X {α β : Type} (k : β × Xfer → α → β × Xfer) (ls : List α) (b : β × Xfer)
    (hk : ∀ b a, Memory.wf b.2.s.mem = true → Memory.wf (k b a).2.s.mem = true) (h : Memory.wf b.2.s.mem = true) :
    Memory.wf (ls.foldl k b).2.s.mem = true := by
  induction ls generalizing b with
  | nil => exact h
  | cons a r ih => exact ih _ (hk b a h)

theorem wf_optMap {α : Type} (o : Option α) (k : α → State) (s : State) (hk : ∀ a, Memory.wf (k a).mem = true)
    (h : Memory.wf s.mem = true) : Memory.wf ((o.map k).getD s).mem = true := by
  cases o with
  | none => exact h
  | some a => exact hk a

theorem wf_getD (o : Option State) (d : State) (ho : ∀ t, o = some t → Memory.wf t.mem = true) (hd : Memory.wf d.mem = true) :
    Memory.wf (o.getD d).mem = true := by
  cases o with
  | none => exact hd
  | some t => exact ho t rfl


/-! Ops. -/

theorem wf_modGroup (s : State) (a1 : Nat) (a2 : Group → Group) (h0 : Memory.wf s.mem = true) :
    Memory.wf (State.modGroup s a1 a2).mem = true := by
  unfold State.modGroup
  repeat' (first | with_reducible assumption | dsimp only | exact True.intro | intro _ | split)
theorem wf_modWarp (s : State) (a1 : Nat) (a2 : Nat) (a3 : Warp → Warp) (h0 : Memory.wf s.mem = true) :
    Memory.wf (State.modWarp s a1 a2 a3).mem = true := by
  unfold State.modWarp
  repeat' (first | with_reducible assumption | with_reducible apply wf_modGroup | dsimp only | exact True.intro | intro _ | split)
theorem wf_modFibre (s : State) (a1 : Nat) (a2 : Nat) (a3 : Nat) (a4 : Fibre → Fibre) (h0 : Memory.wf s.mem = true) :
    Memory.wf (State.modFibre s a1 a2 a3 a4).mem = true := by
  unfold State.modFibre
  repeat' (first | with_reducible assumption | with_reducible apply wf_modWarp | dsimp only | exact True.intro | intro _ | split)
theorem wf_modLane (s : State) (a1 : Nat) (a2 : Nat) (a3 : Nat) (a4 : Nat) (a5 : Lane → Lane) (h0 : Memory.wf s.mem = true) :
    Memory.wf (State.modLane s a1 a2 a3 a4 a5).mem = true := by
  unfold State.modLane
  repeat' (first | with_reducible assumption | with_reducible apply wf_modFibre | dsimp only | exact True.intro | intro _ | split)
theorem wf_modCore (s : State) (a1 : Nat) (a2 : Core → Core) (h0 : Memory.wf s.mem = true) :
    Memory.wf (State.modCore s a1 a2).mem = true := by
  unfold State.modCore
  repeat' (first | with_reducible assumption | dsimp only | exact True.intro | intro _ | split)
theorem wf_fresh (s : State) (h0 : Memory.wf s.mem = true) :
    Memory.wf (State.fresh s).2.mem = true := by
  unfold State.fresh
  repeat' (first | with_reducible assumption | dsimp only | exact True.intro | intro _ | split)
theorem wf_newId (s : State) (h0 : Memory.wf s.mem = true) :
    Memory.wf (State.newId s).2.mem = true := by
  unfold State.newId
  repeat' (first | with_reducible assumption | dsimp only | exact True.intro | intro _ | split)
theorem wf_noAllocLine (s : State) (a1 : Nat) (a2 : Nat) (h0 : Memory.wf s.mem = true) :
    Memory.wf (State.noAllocLine s a1 a2).mem = true := by
  unfold State.noAllocLine
  repeat' (first | with_reducible assumption | dsimp only | exact True.intro | intro _ | split)
theorem wf_acquire (s : State) (a1 : Nat) (h0 : Memory.wf s.mem = true) :
    Memory.wf (State.acquire s a1).mem = true := by
  unfold State.acquire
  repeat' (first | with_reducible assumption | with_reducible apply wf_modCore | dsimp only | exact True.intro | intro _ | split)
theorem wf_addFence (s : State) (a1 : Nat) (a2 : Nat) (a3 : Nat) (a4 : Bool) (a5 : Bool) (h0 : Memory.wf s.mem = true) :
    Memory.wf (State.addFence s a1 a2 a3 a4 a5).mem = true := by
  unfold State.addFence
  repeat' (first | with_reducible assumption | with_reducible apply wf_newId | with_reducible apply wf_modFibre | dsimp only | exact True.intro | intro _ | (split <;> (try (rename_i hq; have hq1 := congrArg Prod.snd hq; dsimp only at hq1; subst hq1))))
theorem wf_setReg (s : State) (a1 : Nat) (a2 : Nat) (a3 : Nat) (a4 : RegWord) (h0 : Memory.wf s.mem = true) :
    Memory.wf (State.setReg s a1 a2 a3 a4).mem = true := by
  unfold State.setReg
  repeat' (first | with_reducible assumption | with_reducible apply wf_modWarp | dsimp only | exact True.intro | intro _ | split)
theorem wf_setUreg (s : State) (a1 : Nat) (a2 : Nat) (a3 : Nat) (a4 : Nat) (a5 : RegWord) (h0 : Memory.wf s.mem = true) :
    Memory.wf (State.setUreg s a1 a2 a3 a4 a5).mem = true := by
  unfold State.setUreg
  repeat' (first | with_reducible assumption | with_reducible apply wf_modFibre | dsimp only | exact True.intro | intro _ | split)
theorem wf_dropDest (s : State) (a1 : Nat) (a2 : Nat) (a3 : Nat) (a4 : Option Nat) (a5 : Dest) (h0 : Memory.wf s.mem = true) :
    Memory.wf (State.dropDest s a1 a2 a3 a4 a5).mem = true := by
  unfold State.dropDest
  repeat' (first | with_reducible assumption | dsimp only | exact True.intro | intro _ | split)
theorem wf_writeVec (s : State) (a1 : Nat) (a2 : Nat) (a3 : Nat) (a4 : Nat) (a5 : Nat) (a6 : RegWord) (h0 : Memory.wf s.mem = true) :
    Memory.wf (State.writeVec s a1 a2 a3 a4 a5 a6).mem = true := by
  unfold State.writeVec
  repeat' (first | with_reducible assumption | with_reducible apply wf_dropDest | with_reducible apply wf_setReg | dsimp only | exact True.intro | intro _ | split)
theorem wf_writeUni (s : State) (a1 : Nat) (a2 : Nat) (a3 : Nat) (a4 : Nat) (a5 : RegWord) (h0 : Memory.wf s.mem = true) :
    Memory.wf (State.writeUni s a1 a2 a3 a4 a5).mem = true := by
  unfold State.writeUni
  repeat' (first | with_reducible assumption | with_reducible apply wf_dropDest | with_reducible apply wf_setUreg | dsimp only | exact True.intro | intro _ | split)
theorem wf_setFull (s : State) (a1 : Dest) (a2 : Bool) (h0 : Memory.wf s.mem = true) :
    Memory.wf (State.setFull s a1 a2).mem = true := by
  unfold State.setFull
  repeat' (first | with_reducible assumption | with_reducible apply wf_setUreg | with_reducible apply wf_setReg | dsimp only | exact True.intro | intro _ | split)
theorem wf_setFlags (s : State) (a1 : Nat) (a2 : Nat) (a3 : Nat) (a4 : Word) (h0 : Memory.wf s.mem = true) :
    Memory.wf (State.setFlags s a1 a2 a3 a4).mem = true := by
  unfold State.setFlags
  repeat' (first | with_reducible assumption | with_reducible apply wf_modFibre | dsimp only | exact True.intro | intro _ | split)
theorem wf_launchCart (s : State) (a1 : Nat) (a2 : Nat) (a3 : Cart) (h0 : Memory.wf s.mem = true) :
    Memory.wf (State.launchCart s a1 a2 a3).mem = true := by
  unfold State.launchCart
  repeat' (first | with_reducible assumption | dsimp only | exact True.intro | intro _ | split)
theorem wf_addCart (s : State) (a1 : Nat) (a2 : Nat) (a3 : Nat) (a4 : Cart) (h0 : Memory.wf s.mem = true) :
    Memory.wf (State.addCart s a1 a2 a3 a4).2.mem = true := by
  unfold State.addCart
  repeat' (first | with_reducible assumption | with_reducible apply wf_launchCart | with_reducible apply wf_modFibre | dsimp only | exact True.intro | intro _ | split)
theorem wf_makePoison (s : State) (a1 : Nat) (a2 : Nat) (a3 : Nat) (a4 : Byte) (a5 : DWord) (a6 : List (Nat × Val)) (h0 : Memory.wf s.mem = true) :
    Memory.wf (State.makePoison s a1 a2 a3 a4 a5 a6).1.mem = true := by
  unfold State.makePoison
  repeat' (first | with_reducible assumption | with_reducible apply wf_addCart | with_reducible apply wf_foldl | with_reducible apply wf_foldl2 | with_reducible apply wf_foldl1 | with_reducible apply wf_foldl22 | dsimp only | exact True.intro | intro _ | (split <;> (try (rename_i hq; have hq1 := congrArg Prod.snd hq; dsimp only at hq1; subst hq1))))
theorem wf_growCart (s : State) (a1 : Nat) (a2 : Nat) (a3 : Nat) (a4 : Nat) (a5 : Cart) (h0 : Memory.wf s.mem = true) :
    Memory.wf (State.growCart s a1 a2 a3 a4 a5).mem = true := by
  unfold State.growCart
  repeat' (first | with_reducible assumption | with_reducible apply wf_modFibre | dsimp only | exact True.intro | intro _ | split)
theorem wf_setTally (s : State) (a1 : Tally) (h0 : Memory.wf s.mem = true) :
    Memory.wf (State.setTally s a1).mem = true := by
  unfold State.setTally
  repeat' (first | with_reducible assumption | dsimp only | exact True.intro | intro _ | split)
theorem wf_forgetTallies (s : State) (h0 : Memory.wf s.mem = true) :
    Memory.wf (State.forgetTallies s).mem = true := by
  unfold State.forgetTallies
  repeat' (first | with_reducible assumption | dsimp only | exact True.intro | intro _ | split)
theorem wf_tallyGone (s : State) (a1 : Nat) (a2 : Nat) (a3 : Nat) (h0 : Memory.wf s.mem = true) :
    Memory.wf (State.tallyGone s a1 a2 a3).mem = true := by
  unfold State.tallyGone
  repeat' (first | with_reducible assumption | dsimp only | exact True.intro | intro _ | split)
theorem wf_poisonOnce (s : State) (a1 : Nat) (a2 : Nat) (a3 : Nat) (a4 : Nat) (a5 : Byte) (a6 : DWord) (a7 : List (Nat × Val)) (h0 : Memory.wf s.mem = true) :
    Memory.wf (State.poisonOnce s a1 a2 a3 a4 a5 a6 a7).1.mem = true := by
  unfold State.poisonOnce
  repeat' (first | with_reducible assumption | with_reducible apply wf_setTally | with_reducible apply wf_growCart | with_reducible apply wf_makePoison | with_reducible apply wf_foldl | with_reducible apply wf_foldl2 | with_reducible apply wf_foldl1 | with_reducible apply wf_foldl22 | dsimp only | exact True.intro | intro _ | (split <;> (try (rename_i hq; have hq1 := congrArg Prod.snd hq; dsimp only at hq1; subst hq1))))
theorem wf_failGroup (s : State) (a1 : Nat) (h0 : Memory.wf s.mem = true) :
    Memory.wf (State.failGroup s a1).mem = true := by
  unfold State.failGroup
  repeat' (first | with_reducible assumption | with_reducible apply wf_modGroup | dsimp only | exact True.intro | intro _ | split)
theorem wf_countBad (s : State) (a1 : Nat) (a2 : Nat) (a3 : Nat) (a4 : Byte) (a5 : DWord) (a6 : List (Nat × Val)) (h0 : Memory.wf s.mem = true) :
    Memory.wf (State.countBad s a1 a2 a3 a4 a5 a6).mem = true := by
  unfold State.countBad
  repeat' (first | with_reducible assumption | with_reducible apply wf_failGroup | with_reducible apply wf_addCart | with_reducible apply wf_modFibre | with_reducible apply wf_foldl | with_reducible apply wf_foldl2 | with_reducible apply wf_foldl1 | with_reducible apply wf_foldl22 | dsimp only | exact True.intro | intro _ | split)
theorem wf_countPart (s : State) (a1 : Nat) (a2 : Nat) (a3 : Nat) (a4 : Nat) (a5 : Byte) (a6 : DWord) (a7 : List (Nat × Val)) (h0 : Memory.wf s.mem = true) :
    Memory.wf (State.countPart s a1 a2 a3 a4 a5 a6 a7).mem = true := by
  unfold State.countPart
  repeat' (first | with_reducible assumption | with_reducible apply wf_countBad | with_reducible apply wf_setTally | with_reducible apply wf_growCart | with_reducible apply wf_foldl | with_reducible apply wf_foldl2 | with_reducible apply wf_foldl1 | with_reducible apply wf_foldl22 | dsimp only | exact True.intro | intro _ | split)
theorem wf_modBar (s : State) (a1 : Nat) (a2 : Nat) (a3 : Barrier → Barrier) (h0 : Memory.wf s.mem = true) :
    Memory.wf (State.modBar s a1 a2 a3).mem = true := by
  unfold State.modBar
  repeat' (first | with_reducible assumption | with_reducible apply wf_modGroup | dsimp only | exact True.intro | intro _ | split)
theorem wf_release (s : State) (a1 : Nat) (a2 : Nat) (h0 : Memory.wf s.mem = true) :
    Memory.wf (State.release s a1 a2).mem = true := by
  unfold State.release
  repeat' (first | with_reducible assumption | with_reducible apply wf_newId | with_reducible apply wf_modGroup | dsimp only | exact True.intro | intro _ | (split <;> (try (rename_i hq; have hq1 := congrArg Prod.snd hq; dsimp only at hq1; subst hq1))))
theorem wf_barOp (s : State) (a1 : Nat) (a2 : BarOp) (h0 : Memory.wf s.mem = true) :
    Memory.wf (State.barOp s a1 a2).mem = true := by
  unfold State.barOp
  repeat' (first | with_reducible assumption | with_reducible apply wf_modGroup | dsimp only | exact True.intro | intro _ | split)
theorem wf_leave (s : State) (a1 : Nat) (a2 : List Member) (h0 : Memory.wf s.mem = true) :
    Memory.wf (State.leave s a1 a2).mem = true := by
  unfold State.leave
  repeat' (first | with_reducible assumption | with_reducible apply wf_barOp | dsimp only | exact True.intro | intro _ | split)
theorem wf_writeDest (s : State) (a1 : Dest) (a2 : RegWord) (h0 : Memory.wf s.mem = true) :
    Memory.wf (State.writeDest s a1 a2).mem = true := by
  unfold State.writeDest
  repeat' (first | with_reducible assumption | with_reducible apply wf_setUreg | with_reducible apply wf_setReg | dsimp only | exact True.intro | intro _ | split)
theorem wf_flushBar (s : State) (a1 : Nat) (a2 : Nat) (a3 : List BarOp) (h0 : Memory.wf s.mem = true) :
    Memory.wf (State.flushBar s a1 a2 a3).mem = true := by
  unfold State.flushBar
  repeat' (first | with_reducible assumption | with_reducible apply wf_writeDest | with_reducible apply wf_release | with_reducible apply wf_modBar | with_reducible apply wf_modLane | with_reducible apply wf_modGroup | with_reducible apply wf_foldl | with_reducible apply wf_foldl2 | with_reducible apply wf_foldl1 | with_reducible apply wf_foldl22 | dsimp only | exact True.intro | intro _ | split)
theorem wf_flush (s : State) (a1 : Nat) (h0 : Memory.wf s.mem = true) :
    Memory.wf (State.flush s a1).mem = true := by
  unfold State.flush
  repeat' (first | with_reducible assumption | with_reducible apply wf_flushBar | with_reducible apply wf_modGroup | with_reducible apply wf_foldl | with_reducible apply wf_foldl2 | with_reducible apply wf_foldl1 | with_reducible apply wf_foldl22 | dsimp only | exact True.intro | intro _ | split)
theorem wf_settleFbar (s : State) (a1 : Nat) (a2 : Nat) (h0 : Memory.wf s.mem = true) :
    Memory.wf (State.settleFbar s a1 a2).mem = true := by
  unfold State.settleFbar
  repeat' (first | with_reducible assumption | with_reducible apply wf_modWarp | dsimp only | exact True.intro | intro _ | split)
theorem wf_countFrozen (s : State) (a1 : Nat) (a2 : Nat) (a3 : Nat) (a4 : Frozen) (h0 : Memory.wf s.mem = true) :
    Memory.wf (State.countFrozen s a1 a2 a3 a4).mem = true := by
  unfold State.countFrozen
  repeat' (first | with_reducible assumption | dsimp only | exact True.intro | intro _ | split)
theorem wf_freeze (s : State) (a1 : Nat) (a2 : Nat) (a3 : Nat) (a4 : Nat) (a5 : DWord) (a6 : Word) (h0 : Memory.wf s.mem = true) :
    Memory.wf (State.freeze s a1 a2 a3 a4 a5 a6).mem = true := by
  unfold State.freeze
  repeat' (first | with_reducible assumption | with_reducible apply wf_countFrozen | with_reducible apply wf_settleFbar | with_reducible apply wf_leave | with_reducible apply wf_failGroup | with_reducible apply wf_modFibre | with_reducible apply wf_modGroup | dsimp only | exact True.intro | intro _ | split)

/-! Mem. -/

theorem wf_setHome (s : State) (a1 : Nat) (a2 : MemWord) (h0 : Memory.wf s.mem = true) :
    Memory.wf (State.setHome s a1 a2).mem = true := by
  unfold State.setHome
  dsimp only
  split
  · exact h0
  · exact wf_writeWord _ _ _ h0
theorem wf_setL1 (s : State) (a1 : Nat) (a2 : Nat) (a3 : Option L1Word) (h0 : Memory.wf s.mem = true) :
    Memory.wf (State.setL1 s a1 a2 a3).mem = true := by
  unfold State.setL1
  repeat' (first | with_reducible assumption | with_reducible apply wf_modCore | dsimp only | exact True.intro | intro _ | split)
theorem wf_heatUp (s : State) (a1 : Nat) (h0 : Memory.wf s.mem = true) :
    Memory.wf (State.heatUp s a1).mem = true := by
  unfold State.heatUp
  repeat' (first | with_reducible assumption | dsimp only | exact True.intro | intro _ | split)
theorem wf_findErrors (s : State) (a1 : Nat) (h0 : Memory.wf s.mem = true) :
    Memory.wf (State.findErrors s a1).mem = true := by
  unfold State.findErrors
  repeat' (first | with_reducible assumption | with_reducible apply wf_foldl | with_reducible apply wf_foldl2 | with_reducible apply wf_foldl1 | with_reducible apply wf_foldl22 | dsimp only | exact True.intro | intro _ | split)
theorem wf_mscRoom (s : State) (a1 : Nat) (h0 : Memory.wf s.mem = true) :
    Memory.wf (State.mscRoom s a1).mem = true := by
  unfold State.mscRoom
  repeat' (first | with_reducible assumption | with_reducible apply wf_findErrors | with_reducible apply wf_fresh | dsimp only | exact True.intro | intro _ | (split <;> (try (rename_i hq; have hq1 := congrArg Prod.snd hq; dsimp only at hq1; subst hq1))))
theorem wf_mscTouch (s : State) (a1 : Nat) (a2 : Byte) (a3 : Bool) (h0 : Memory.wf s.mem = true) :
    Memory.wf (State.mscTouch s a1 a2 a3).mem = true := by
  unfold State.mscTouch
  repeat' (first | with_reducible assumption | with_reducible apply wf_mscRoom | with_reducible apply wf_findErrors | dsimp only | exact True.intro | intro _ | split)
theorem wf_homeAccess (s : State) (a1 : Nat) (a2 : Byte) (a3 : Bool) (a4 : Bool) (h0 : Memory.wf s.mem = true) :
    Memory.wf (State.homeAccess s a1 a2 a3 a4).mem = true := by
  unfold State.homeAccess
  repeat' (first | with_reducible assumption | with_reducible apply wf_mscTouch | with_reducible apply wf_heatUp | dsimp only | exact True.intro | intro _ | split)
theorem wf_grant (s : State) (a1 : CtxCfg) (h0 : Memory.wf s.mem = true) :
    Memory.wf (State.grant s a1).mem = true := by
  unfold State.grant
  repeat' (first | with_reducible assumption | with_reducible apply wf_foldl | with_reducible apply wf_foldl2 | with_reducible apply wf_foldl1 | with_reducible apply wf_foldl22 | dsimp only | exact True.intro | intro _ | split)
theorem wf_revoke (s : State) (a1 : Byte) (h0 : Memory.wf s.mem = true) :
    Memory.wf (State.revoke s a1).mem = true := by
  unfold State.revoke
  repeat' (first | with_reducible assumption | dsimp only | exact True.intro | intro _ | split)
theorem wf_walkReads (s : State) (a1 : Byte) (a2 : Nat) (h0 : Memory.wf s.mem = true) :
    Memory.wf (State.walkReads s a1 a2).mem = true := by
  unfold State.walkReads
  repeat' (first | with_reducible assumption | with_reducible apply wf_homeAccess | with_reducible apply wf_foldl | with_reducible apply wf_foldl2 | with_reducible apply wf_foldl1 | with_reducible apply wf_foldl22 | dsimp only | exact True.intro | intro _ | split)
theorem wf_tlbFill (s : State) (a1 : Nat) (a2 : Byte) (a3 : Nat) (a4 : Leaf) (h0 : Memory.wf s.mem = true) :
    Memory.wf (State.tlbFill s a1 a2 a3 a4).mem = true := by
  unfold State.tlbFill
  repeat' (first | with_reducible assumption | with_reducible apply wf_modCore | dsimp only | exact True.intro | intro _ | split)
theorem wf_writeWords (ls : List Nat) (a : Nat → Nat) (v : Nat → Word) (m : Sparse Byte) (h : Memory.wf m = true) :
    Memory.wf (ls.foldl (fun m i => writeWord m (a i) (v i)) m) = true := by
  induction ls generalizing m with
  | nil => exact h
  | cons i r ih => exact ih _ (wf_writeWord _ _ _ h)
theorem wf_rekey (s : State) (line k : Nat) (h0 : Memory.wf s.mem = true) : Memory.wf (State.rekey s line k).mem = true := by
  unfold State.rekey
  dsimp only
  split
  · exact h0
  · exact wf_writeWords _ (fun i => 4 * (32 * line + i)) _ _ h0
theorem wf_askWalk (s : State) (a1 : Nat) (a2 : Byte) (a3 : Nat) (a4 : Access) (h0 : Memory.wf s.mem = true) :
    Memory.wf (State.askWalk s a1 a2 a3 a4).mem = true := by
  unfold State.askWalk
  repeat' (first | with_reducible assumption | dsimp only | exact True.intro | intro _ | split)
theorem wf_walksUsed (s : State) (a1 : Nat) (a2 : Nat) (a3 : Nat) (a4 : DWord) (h0 : Memory.wf s.mem = true) :
    Memory.wf (State.walksUsed s a1 a2 a3 a4).mem = true := by
  unfold State.walksUsed
  repeat' (first | with_reducible assumption | dsimp only | exact True.intro | intro _ | split)
theorem wf_lookup (s : State) (a1 : Nat) (a2 : Byte) (a3 : Nat) (a4 : Access) (h0 : Memory.wf s.mem = true) :
    Memory.wf (State.lookup s a1 a2 a3 a4).2.2.mem = true := by
  unfold State.lookup
  repeat' (first | with_reducible assumption | with_reducible apply wf_askWalk | with_reducible apply wf_tlbFill | with_reducible apply wf_walkReads | with_reducible apply wf_fresh | with_reducible apply wf_optMap | dsimp only | exact True.intro | intro _ | (split <;> (try (rename_i hq; have hq1 := congrArg Prod.snd hq; dsimp only at hq1; subst hq1))))
theorem wf_translate (s : State) (core : Nat) (c : Byte) (va : Nat) (k : Access) (h0 : Memory.wf s.mem = true) :
    Memory.wf (State.translate s core c va k).2.mem = true := by
  have h := wf_lookup s core c va k h0
  unfold State.translate
  split
  · next hq => rw [hq] at h; dsimp only at h ⊢; split
               · exact h
               · exact wf_rekey _ _ _ h
  · next hq => rw [hq] at h; exact h
theorem wf_reach (s : State) (a1 : Nat) (a2 : Byte) (a3 : Nat) (a4 : Access) (h0 : Memory.wf s.mem = true) :
    Memory.wf (State.reach s a1 a2 a3 a4).2.mem = true := by
  unfold State.reach
  repeat' (first | with_reducible assumption | with_reducible apply wf_translate | dsimp only | exact True.intro | intro _ | (split <;> (try (rename_i hq; have hq1 := congrArg Prod.snd hq; dsimp only at hq1; subst hq1))))
theorem wf_send (s : State) (a1 : MsgKind) (a2 : Nat) (a3 : Nat) (a4 : Word) (a5 : List (Nat × MemWord)) (a6 : optParam Byte 0) (a7 : optParam Nat 0) (a8 : optParam Bool false) (a9 : optParam (Option Nat) none) (a10 : optParam Bool false) (h0 : Memory.wf s.mem = true) :
    Memory.wf (State.send s a1 a2 a3 a4 a5 a6 a7 a8 a9 a10).mem = true := by
  unfold State.send
  repeat' (first | with_reducible assumption | with_reducible apply wf_newId | dsimp only | exact True.intro | intro _ | (split <;> (try (rename_i hq; have hq1 := congrArg Prod.snd hq; dsimp only at hq1; subst hq1))))
theorem wf_chase (s : State) (a1 : Nat) (h0 : Memory.wf s.mem = true) :
    Memory.wf (State.chase s a1).mem = true := by
  unfold State.chase
  repeat' (first | with_reducible assumption | with_reducible apply wf_send | with_reducible apply wf_foldl | with_reducible apply wf_foldl2 | with_reducible apply wf_foldl1 | with_reducible apply wf_foldl22 | dsimp only | exact True.intro | intro _ | split)
theorem wf_evict (s : State) (a1 : Nat) (a2 : Nat) (h0 : Memory.wf s.mem = true) :
    Memory.wf (State.evict s a1 a2).mem = true := by
  unfold State.evict
  repeat' (first | with_reducible assumption | with_reducible apply wf_chase | with_reducible apply wf_send | with_reducible apply wf_noAllocLine | with_reducible apply wf_modCore | dsimp only | exact True.intro | intro _ | split)
theorem wf_makeRoom (s : State) (a1 : Nat) (a2 : Nat) (h0 : Memory.wf s.mem = true) :
    Memory.wf (State.makeRoom s a1 a2).mem = true := by
  unfold State.makeRoom
  repeat' (first | with_reducible assumption | with_reducible apply wf_evict | with_reducible apply wf_fresh | dsimp only | exact True.intro | intro _ | (split <;> (try (rename_i hq; have hq1 := congrArg Prod.snd hq; dsimp only at hq1; subst hq1))))
theorem wf_ownLine (s : State) (a1 : Nat) (a2 : Byte) (a3 : Nat) (h0 : Memory.wf s.mem = true) :
    Memory.wf (State.ownLine s a1 a2 a3).mem = true := by
  unfold State.ownLine
  repeat' (first | with_reducible assumption | with_reducible apply wf_evict | dsimp only | exact True.intro | intro _ | split)
theorem wf_fixReads (s : State) (a1 : Nat) (a2 : Nat) (h0 : Memory.wf s.mem = true) :
    Memory.wf (State.fixReads s a1 a2).mem = true := by
  unfold State.fixReads
  repeat' (first | with_reducible assumption | dsimp only | exact True.intro | intro _ | split)
theorem wf_storeWord (s : State) (a1 : Nat) (a2 : Byte) (a3 : Nat) (a4 : MemWord) (h0 : Memory.wf s.mem = true) :
    Memory.wf (State.storeWord s a1 a2 a3 a4).mem = true := by
  unfold State.storeWord
  repeat' (first | with_reducible assumption | with_reducible apply wf_fixReads | with_reducible apply wf_ownLine | with_reducible apply wf_makeRoom | with_reducible apply wf_send | with_reducible apply wf_setL1 | with_reducible apply wf_noAllocLine | dsimp only | exact True.intro | intro _ | split)
theorem wf_startHold (s : State) (lines : List Nat) (why : HoldWhy) (cores : List Nat) (held : List Msg)
    (ask : Nat → Nat → State → State) (entered : Option Msg) (b : Nat) (wr : Option Nat)
    (ha : ∀ i c t, Memory.wf t.mem = true → Memory.wf (ask i c t).mem = true) (h0 : Memory.wf s.mem = true) :
    Memory.wf (State.startHold s lines why cores held ask entered b wr).mem = true := by
  unfold State.startHold
  exact wf_foldl _ _ _ (fun s c h => ha _ _ _ h) h0
theorem wf_setSp (s : State) (a1 : Nat) (a2 : Nat) (a3 : SpadWord) (h0 : Memory.wf s.mem = true) :
    Memory.wf (State.setSp s a1 a2 a3).mem = true := by
  unfold State.setSp
  repeat' (first | with_reducible assumption | with_reducible apply wf_modGroup | dsimp only | exact True.intro | intro _ | split)

/-! Operands. -/

theorem wf_modAp (s : State) (a1 : Nat) (a2 : Nat) (a3 : Ap → Ap) (h0 : Memory.wf s.mem = true) :
    Memory.wf (State.modAp s a1 a2 a3).mem = true := by
  unfold State.modAp
  repeat' (first | with_reducible assumption | with_reducible apply wf_modGroup | dsimp only | exact True.intro | intro _ | split)
theorem wf_setPred (s : State) (a1 : Path) (a2 : Nat) (a3 : Nat) (a4 : Pred) (h0 : Memory.wf s.mem = true) :
    Memory.wf (State.setPred s a1 a2 a3 a4).mem = true := by
  unfold State.setPred
  repeat' (first | with_reducible assumption | with_reducible apply wf_modLane | dsimp only | exact True.intro | intro _ | split)
theorem wf_putWord (s : State) (a1 : Ex) (a2 : BitVec 8) (a3 : Nat) (a4 : Nat) (a5 : RegWord) (h0 : Memory.wf s.mem = true) :
    Memory.wf (State.putWord s a1 a2 a3 a4 a5).mem = true := by
  unfold State.putWord
  repeat' (first | with_reducible assumption | with_reducible apply wf_modAp | with_reducible apply wf_writeUni | with_reducible apply wf_writeVec | dsimp only | exact True.intro | intro _ | split)
theorem wf_putWords (s : State) (a1 : Ex) (a2 : BitVec 8) (a3 : Nat) (a4 : List RegWord) (h0 : Memory.wf s.mem = true) :
    Memory.wf (State.putWords s a1 a2 a3 a4).mem = true := by
  unfold State.putWords
  repeat' (first | with_reducible assumption | with_reducible apply wf_putWord | dsimp only | exact True.intro | intro _ | split)
theorem wf_writeDst (s : State) (a1 : Ex) (a2 : BitVec 8) (a3 : List (Nat × List Val)) (a4 : List (Nat × Val)) (h0 : Memory.wf s.mem = true) :
    Memory.wf (State.writeDst s a1 a2 a3 a4).mem = true := by
  unfold State.writeDst
  repeat' (first | with_reducible assumption | with_reducible apply wf_putWords | with_reducible apply wf_makePoison | with_reducible apply wf_foldl | with_reducible apply wf_foldl2 | with_reducible apply wf_foldl1 | with_reducible apply wf_foldl22 | dsimp only | exact True.intro | intro _ | (split <;> (try (rename_i hq; have hq1 := congrArg Prod.snd hq; dsimp only at hq1; subst hq1))))
theorem wf_writePreds (s : State) (a1 : Ex) (a2 : Nat) (a3 : List (Nat × (Bool ⊕ Val))) (a4 : List (Nat × Val)) (h0 : Memory.wf s.mem = true) :
    Memory.wf (State.writePreds s a1 a2 a3 a4).mem = true := by
  unfold State.writePreds
  repeat' (first | with_reducible assumption | with_reducible apply wf_setPred | with_reducible apply wf_makePoison | with_reducible apply wf_foldl | with_reducible apply wf_foldl2 | with_reducible apply wf_foldl1 | with_reducible apply wf_foldl22 | dsimp only | exact True.intro | intro _ | (split <;> (try (rename_i hq; have hq1 := congrArg Prod.snd hq; dsimp only at hq1; subst hq1))))
theorem wf_freeWord (s : State) (h0 : Memory.wf s.mem = true) :
    Memory.wf (State.freeWord s).2.mem = true := by
  unfold State.freeWord
  repeat' (first | with_reducible assumption | with_reducible apply wf_fresh | dsimp only | exact True.intro | intro _ | (split <;> (try (rename_i hq; have hq1 := congrArg Prod.snd hq; dsimp only at hq1; subst hq1))))
theorem wf_produce (s : State) (a1 : Ex) (a2 : ProdKind) (a3 : Bool) (a4 : Bool) (a5 : List Item) (h0 : Memory.wf s.mem = true) :
    Memory.wf (State.produce s a1 a2 a3 a4 a5).mem = true := by
  unfold State.produce
  repeat' (first | with_reducible assumption | with_reducible apply wf_setFull | with_reducible apply wf_dropDest | with_reducible apply wf_newId | with_reducible apply wf_foldl | with_reducible apply wf_foldl2 | with_reducible apply wf_foldl1 | with_reducible apply wf_foldl22 | dsimp only | exact True.intro | intro _ | (split <;> (try (rename_i hq; have hq1 := congrArg Prod.snd hq; dsimp only at hq1; subst hq1))))
theorem wf_strand (s : State) (a1 : Path) (a2 : List (Nat × Word)) (h0 : Memory.wf s.mem = true) :
    Memory.wf (State.strand s a1 a2).mem = true := by
  unfold State.strand
  repeat' (first | with_reducible assumption | with_reducible apply wf_modLane | with_reducible apply wf_foldl | with_reducible apply wf_foldl2 | with_reducible apply wf_foldl1 | with_reducible apply wf_foldl22 | dsimp only | exact True.intro | intro _ | split)

/-! Region. -/

theorem wf_disown (s : State) (a1 : Nat) (h0 : Memory.wf s.mem = true) :
    Memory.wf (State.disown s a1).mem = true := by
  unfold State.disown
  repeat' (first | with_reducible assumption | with_reducible apply wf_chase | with_reducible apply wf_setL1 | dsimp only | exact True.intro | intro _ | split)
theorem wf_lendWord (s : State) (a1 : Nat) (a2 : Nat) (a3 : MemWord) (h0 : Memory.wf s.mem = true) :
    Memory.wf (State.lendWord s a1 a2 a3).mem = true := by
  unfold State.lendWord
  repeat' (first | with_reducible assumption | dsimp only | exact True.intro | intro _ | split)
theorem wf_overtake (s : State) (a1 : Nat) (h0 : Memory.wf s.mem = true) :
    Memory.wf (State.overtake s a1).mem = true := by
  unfold State.overtake
  repeat' (first | with_reducible assumption | with_reducible apply wf_lendWord | with_reducible apply wf_foldl | with_reducible apply wf_foldl2 | with_reducible apply wf_foldl1 | with_reducible apply wf_foldl22 | dsimp only | exact True.intro | intro _ | split)
theorem wf_takeOver (s : State) (b : Writer) (wa : Nat) (h0 : Memory.wf s.mem = true) :
    Memory.wf (State.takeOver s b wa).mem = true := by
  unfold State.takeOver
  split
  · exact h0
  · split
    · exact wf_disown _ _ h0
    · exact wf_startHold _ _ _ _ _ _ _ _ _ (fun _ _ _ h => h) h0
theorem wf_engineWrite (s : State) (a1 : Writer) (a2 : Nat) (a3 : MemWord) (a4 : Nat) (h0 : Memory.wf s.mem = true) :
    Memory.wf (State.engineWrite s a1 a2 a3 a4).mem = true := by
  unfold State.engineWrite
  repeat' (first | with_reducible assumption | with_reducible apply wf_takeOver | with_reducible apply wf_overtake | with_reducible apply wf_homeAccess | with_reducible apply wf_setHome | dsimp only | exact True.intro | intro _ | split)
theorem wf_coreWrite (s : State) (a1 : Nat) (a2 : Writer) (a3 : Nat) (a4 : MemWord) (a5 : Nat) (h0 : Memory.wf s.mem = true) :
    Memory.wf (State.coreWrite s a1 a2 a3 a4 a5).mem = true := by
  unfold State.coreWrite
  repeat' (first | with_reducible assumption | with_reducible apply wf_engineWrite | with_reducible apply wf_fixReads | with_reducible apply wf_setL1 | with_reducible apply wf_noAllocLine | dsimp only | exact True.intro | intro _ | split)
theorem wf_putBytes (s : State) (ctx : Byte) (a : Nat) (bs : List Byte) (h0 : Memory.wf s.mem = true) :
    Memory.wf (State.putBytes s ctx a bs).mem = true := by
  induction s, a, bs using State.putBytes.induct (ctx := ctx) with
  | case1 => exact h0
  | case2 s a b0 b1 b2 b3 r ih => unfold State.putBytes; exact ih (wf_engineWrite _ _ _ _ _ h0)
  | case3 s a bs h1 h2 =>
    unfold State.putBytes
    split
    · exact absurd rfl h1
    · exact absurd rfl (h2 _ _ _ _ _)
    · exact wf_engineWrite _ _ _ _ _ h0
theorem wf_addPend (s : State) (a1 : By) (a2 : Nat) (a3 : Byte) (a4 : Nat) (a5 : Nat) (a6 : Rmw) (a7 : Option Nat) (a8 : Bool) (h0 : Memory.wf s.mem = true) :
    Memory.wf (State.addPend s a1 a2 a3 a4 a5 a6 a7 a8).mem = true := by
  unfold State.addPend
  repeat' (first | with_reducible assumption | with_reducible apply wf_fixReads | with_reducible apply wf_ownLine | with_reducible apply wf_send | with_reducible apply wf_newId | with_reducible apply wf_foldl | with_reducible apply wf_foldl2 | with_reducible apply wf_foldl1 | with_reducible apply wf_foldl22 | dsimp only | exact True.intro | intro _ | (split <;> (try (rename_i hq; have hq1 := congrArg Prod.snd hq; dsimp only at hq1; subst hq1))))
theorem wf_flatStore (s : State) (a1 : By) (a2 : Nat) (a3 : Byte) (a4 : Nat) (a5 : Bool) (a6 : Nat) (a7 : DWord) (h0 : Memory.wf s.mem = true) :
    Memory.wf (State.flatStore s a1 a2 a3 a4 a5 a6 a7).mem = true := by
  unfold State.flatStore
  repeat' (first | with_reducible assumption | with_reducible apply wf_addPend | with_reducible apply wf_storeWord | with_reducible apply wf_ownLine | with_reducible apply wf_countPart | with_reducible apply wf_foldl | with_reducible apply wf_foldl2 | with_reducible apply wf_foldl1 | with_reducible apply wf_foldl22 | dsimp only | exact True.intro | intro _ | split)
theorem wf_spFound (s : State) (a1 : Nat) (a2 : Nat) (h0 : Memory.wf s.mem = true) :
    Memory.wf (State.spFound s a1 a2).mem = true := by
  unfold State.spFound
  repeat' (first | with_reducible assumption | with_reducible apply wf_setSp | with_reducible apply wf_fresh | dsimp only | exact True.intro | intro _ | (split <;> (try (rename_i hq; have hq1 := congrArg Prod.snd hq; dsimp only at hq1; subst hq1))))
theorem wf_spFoundRun (s : State) (a1 : Nat) (a2 : Nat) (a3 : Nat) (h0 : Memory.wf s.mem = true) :
    Memory.wf (State.spFoundRun s a1 a2 a3).mem = true := by
  unfold State.spFoundRun
  repeat' (first | with_reducible assumption | with_reducible apply wf_spFound | with_reducible apply wf_foldl | with_reducible apply wf_foldl2 | with_reducible apply wf_foldl1 | with_reducible apply wf_foldl22 | dsimp only | exact True.intro | intro _ | split)
theorem wf_spadStore (s : State) (a1 : By) (a2 : Nat) (a3 : Nat) (a4 : Nat) (a5 : DWord) (h0 : Memory.wf s.mem = true) :
    Memory.wf (State.spadStore s a1 a2 a3 a4 a5).mem = true := by
  unfold State.spadStore
  repeat' (first | with_reducible assumption | with_reducible apply wf_spFound | with_reducible apply wf_setSp | with_reducible apply wf_countPart | with_reducible apply wf_foldl | with_reducible apply wf_foldl2 | with_reducible apply wf_foldl1 | with_reducible apply wf_foldl22 | dsimp only | exact True.intro | intro _ | split)
theorem wf_tileStore (s : State) (a1 : Nat) (a2 : Writer) (a3 : List Nat) (a4 : List Nat) (a5 : List Word) (a6 : Nat) (a7 : List Word) (h0 : Memory.wf s.mem = true) :
    Memory.wf (State.tileStore s a1 a2 a3 a4 a5 a6 a7).mem = true := by
  unfold State.tileStore
  repeat' (first | with_reducible assumption | with_reducible apply wf_coreWrite | with_reducible apply wf_foldl | with_reducible apply wf_foldl2 | with_reducible apply wf_foldl1 | with_reducible apply wf_foldl22 | dsimp only | exact True.intro | intro _ | split)
theorem wf_accStore (s : State) (a1 : Nat) (a2 : Writer) (a3 : List Nat) (a4 : List Nat) (a5 : List Word) (h0 : Memory.wf s.mem = true) :
    Memory.wf (State.accStore s a1 a2 a3 a4 a5).mem = true := by
  unfold State.accStore
  repeat' (first | with_reducible assumption | with_reducible apply wf_coreWrite | with_reducible apply wf_foldl | with_reducible apply wf_foldl2 | with_reducible apply wf_foldl1 | with_reducible apply wf_foldl22 | dsimp only | exact True.intro | intro _ | split)
theorem wf_settleFences (s : State) (a1 : Nat) (a2 : Nat) (a3 : Nat) (h0 : Memory.wf s.mem = true) :
    Memory.wf (State.settleFences s a1 a2 a3).mem = true := by
  unfold State.settleFences
  repeat' (first | with_reducible assumption | with_reducible apply wf_acquire | with_reducible apply wf_modFibre | with_reducible apply wf_foldl | with_reducible apply wf_foldl2 | with_reducible apply wf_foldl1 | with_reducible apply wf_foldl22 | dsimp only | exact True.intro | intro _ | split)
theorem wf_driftRun (s : State) (a1 : Nat) (a2 : Nat) (a3 : Nat) (a4 : List (List RegWord)) (a5 : List Nat) (h0 : Memory.wf s.mem = true) :
    Memory.wf (State.driftRun s a1 a2 a3 a4 a5).mem = true := by
  unfold State.driftRun
  repeat' (first | with_reducible assumption | with_reducible apply wf_modWarp | with_reducible apply wf_foldl | with_reducible apply wf_foldl2 | with_reducible apply wf_foldl1 | with_reducible apply wf_foldl22 | with_reducible apply wf_optMap | dsimp only | exact True.intro | intro _ | split)
theorem wf_drift (s : State) (a1 : Nat) (a2 : Nat) (h0 : Memory.wf s.mem = true) :
    Memory.wf (State.drift s a1 a2).mem = true := by
  unfold State.drift
  repeat' (first | with_reducible assumption | with_reducible apply wf_driftRun | with_reducible apply wf_foldl | with_reducible apply wf_foldl2 | with_reducible apply wf_foldl1 | with_reducible apply wf_foldl22 | with_reducible apply wf_optMap | dsimp only | exact True.intro | intro _ | split)
theorem wf_undriftOp (s : State) (a1 : Nat) (a2 : MatrixOp) (h0 : Memory.wf s.mem = true) :
    Memory.wf (State.undriftOp s a1 a2).mem = true := by
  unfold State.undriftOp
  repeat' (first | with_reducible assumption | with_reducible apply wf_modWarp | with_reducible apply wf_foldl | with_reducible apply wf_foldl2 | with_reducible apply wf_foldl1 | with_reducible apply wf_foldl22 | with_reducible apply wf_optMap | dsimp only | exact True.intro | intro _ | split)
theorem wf_undrift (s : State) (a1 : Nat) (h0 : Memory.wf s.mem = true) :
    Memory.wf (State.undrift s a1).mem = true := by
  unfold State.undrift
  repeat' (first | with_reducible assumption | with_reducible apply wf_undriftOp | with_reducible apply wf_foldl | with_reducible apply wf_foldl2 | with_reducible apply wf_foldl1 | with_reducible apply wf_foldl22 | dsimp only | exact True.intro | intro _ | split)
theorem wf_settle (s : State) (a1 : Nat) (a2 : Nat) (a3 : Nat) (h0 : Memory.wf s.mem = true) :
    Memory.wf (State.settle s a1 a2 a3).mem = true := by
  unfold State.settle
  repeat' (first | with_reducible assumption | with_reducible apply wf_drift | with_reducible apply wf_settleFences | dsimp only | exact True.intro | intro _ | split)
theorem wf_releaseSts (s : State) (a1 : By) (a2 : Nat) (a3 : Nat) (a4 : Nat) (a5 : DWord) (h0 : Memory.wf s.mem = true) :
    Memory.wf (State.releaseSts s a1 a2 a3 a4 a5).mem = true := by
  unfold State.releaseSts
  repeat' (first | with_reducible assumption | with_reducible apply wf_spadStore | with_reducible apply wf_newId | with_reducible apply wf_modCore | with_reducible apply wf_foldl | with_reducible apply wf_foldl2 | with_reducible apply wf_foldl1 | with_reducible apply wf_foldl22 | dsimp only | exact True.intro | intro _ | split)
theorem wf_releaseEntry (s : State) (a1 : Nat) (a2 : Nat) (a3 : Nat) (a4 : QEntry) (h0 : Memory.wf s.mem = true) :
    Memory.wf (State.releaseEntry s a1 a2 a3 a4).1.mem = true := by
  unfold State.releaseEntry
  repeat' (first | with_reducible assumption | with_reducible apply wf_releaseSts | with_reducible apply wf_accStore | with_reducible apply wf_tileStore | with_reducible apply wf_flatStore | with_reducible apply wf_foldl | with_reducible apply wf_foldl2 | with_reducible apply wf_foldl1 | with_reducible apply wf_foldl22 | dsimp only | exact True.intro | intro _ | split)
theorem wf_dropRing (s : State) (a1 : Nat) (a2 : Nat) (a3 : Nat) (h0 : Memory.wf s.mem = true) :
    Memory.wf (State.dropRing s a1 a2 a3).mem = true := by
  unfold State.dropRing
  repeat' (first | with_reducible assumption | with_reducible apply wf_tallyGone | with_reducible apply wf_launchCart | with_reducible apply wf_modFibre | with_reducible apply wf_foldl | with_reducible apply wf_foldl2 | with_reducible apply wf_foldl1 | with_reducible apply wf_foldl22 | dsimp only | exact True.intro | intro _ | split)
theorem wf_clearRing (s : State) (a1 : Nat) (a2 : Nat) (a3 : Nat) (h0 : Memory.wf s.mem = true) :
    Memory.wf (State.clearRing s a1 a2 a3).mem = true := by
  unfold State.clearRing
  repeat' (first | with_reducible assumption | with_reducible apply wf_dropRing | with_reducible apply wf_modFibre | dsimp only | exact True.intro | intro _ | split)
theorem wf_failIfUnresolved (s : State) (a1 : Nat) (a2 : Nat) (a3 : Nat) (h0 : Memory.wf s.mem = true) :
    Memory.wf (State.failIfUnresolved s a1 a2 a3).mem = true := by
  unfold State.failIfUnresolved
  repeat' (first | with_reducible assumption | with_reducible apply wf_failGroup | dsimp only | exact True.intro | intro _ | split)
theorem wf_releaseList (s : State) (g w f : Nat) (q : List QEntry) (h0 : Memory.wf s.mem = true) :
    Memory.wf (State.releaseList s g w f q).mem = true := by
  induction q generalizing s with
  | nil => exact h0
  | cons e r ih =>
    unfold State.releaseList
    dsimp only
    split
    · exact h0
    · exact ih _ (wf_modFibre _ _ _ _ _ (wf_countPart _ _ _ _ _ _ _ _ (wf_releaseEntry _ _ _ _ _ h0)))
theorem wf_releaseMore (s : State) (g w f : Nat) (pc : DWord) (h0 : Memory.wf s.mem = true) :
    Memory.wf (State.releaseMore s g w f pc).mem = true := by
  unfold State.releaseMore
  exact wf_releaseList _ _ _ _ _ (wf_modFibre _ _ _ _ _ h0)
theorem wf_implicitCommit (s : State) (a1 : Nat) (a2 : Nat) (a3 : Nat) (h0 : Memory.wf s.mem = true) :
    Memory.wf (State.implicitCommit s a1 a2 a3).mem = true := by
  unfold State.implicitCommit
  repeat' (first | with_reducible assumption | with_reducible apply wf_countBad | with_reducible apply wf_modFibre | dsimp only | exact True.intro | intro _ | split)
theorem wf_endFibre (s : State) (a1 : Nat) (a2 : Nat) (a3 : Nat) (h0 : Memory.wf s.mem = true) :
    Memory.wf (State.endFibre s a1 a2 a3).mem = true := by
  unfold State.endFibre
  repeat' (first | with_reducible assumption | with_reducible apply wf_implicitCommit | with_reducible apply wf_failIfUnresolved | with_reducible apply wf_clearRing | with_reducible apply wf_settleFbar | with_reducible apply wf_leave | with_reducible apply wf_modFibre | with_reducible apply wf_modGroup | dsimp only | exact True.intro | intro _ | (split <;> (try (rename_i hq; have hq1 := congrArg Prod.snd hq; dsimp only at hq1; subst hq1))))
theorem wf_endStep (s : State) (a1 : Nat) (a2 : Nat) (a3 : Nat) (h0 : Memory.wf s.mem = true) :
    Memory.wf (State.endStep s a1 a2 a3).mem = true := by
  unfold State.endStep
  repeat' (first | with_reducible assumption | with_reducible apply wf_endFibre | with_reducible apply wf_releaseMore | dsimp only | exact True.intro | intro _ | split)
theorem wf_endCheck (s : State) (a1 : Nat) (a2 : Nat) (a3 : Nat) (h0 : Memory.wf s.mem = true) :
    Memory.wf (State.endCheck s a1 a2 a3).mem = true := by
  unfold State.endCheck
  repeat' (first | with_reducible assumption | with_reducible apply wf_endStep | dsimp only | exact True.intro | intro _ | split)

/-! Issue. -/

theorem wf_advance (s : State) (a1 : Path) (a2 : DWord) (a3 : List (Nat × DWord)) (h0 : Memory.wf s.mem = true) :
    Memory.wf (State.advance s a1 a2 a3).mem = true := by
  unfold State.advance
  repeat' (first | with_reducible assumption | with_reducible apply wf_modFibre | dsimp only | exact True.intro | intro _ | split)
theorem wf_wake (s : State) (h0 : Memory.wf s.mem = true) :
    Memory.wf (State.wake s).mem = true := by
  unfold State.wake
  repeat' (first | with_reducible assumption | dsimp only | exact True.intro | intro _ | split)
theorem wf_noteIssue (s : State) (a1 : State) (a2 : Path) (h0 : Memory.wf s.mem = true) (h1 : Memory.wf a1.mem = true) :
    Memory.wf (State.noteIssue s a1 a2).mem = true := by
  unfold State.noteIssue
  repeat' (first | with_reducible assumption | dsimp only | exact True.intro | intro _ | split)
theorem wf_endCycle (s : State) (a1 : Path) (h0 : Memory.wf s.mem = true) :
    Memory.wf (State.endCycle s a1).mem = true := by
  unfold State.endCycle
  repeat' (first | with_reducible assumption | with_reducible apply wf_settleFbar | with_reducible apply wf_flush | with_reducible apply wf_forgetTallies | with_reducible apply wf_modFibre | dsimp only | exact True.intro | intro _ | split)
theorem wf_retire (s : State) (a1 : State) (a2 : Path) (a3 : Option Path) (a4 : DWord) (a5 : List (Nat × DWord)) (h0 : Memory.wf s.mem = true) (h1 : Memory.wf a1.mem = true) :
    Memory.wf (State.retire s a1 a2 a3 a4 a5).mem = true := by
  unfold State.retire
  repeat' (first | with_reducible assumption | with_reducible apply wf_endCycle | with_reducible apply wf_noteIssue | with_reducible apply wf_wake | with_reducible apply wf_advance | with_reducible apply wf_endCheck | with_reducible apply wf_modFibre | dsimp only | exact True.intro | intro _ | split)
theorem wf_blockPath (s : State) (a1 : Path) (h0 : Memory.wf s.mem = true) :
    Memory.wf (State.blockPath s a1).mem = true := by
  unfold State.blockPath
  repeat' (first | with_reducible assumption | dsimp only | exact True.intro | intro _ | split)
theorem wf_freezePath (s : State) (a1 : Path) (a2 : Nat) (h0 : Memory.wf s.mem = true) :
    Memory.wf (State.freezePath s a1 a2).mem = true := by
  unfold State.freezePath
  repeat' (first | with_reducible assumption | with_reducible apply wf_endCycle | with_reducible apply wf_wake | with_reducible apply wf_failIfUnresolved | with_reducible apply wf_dropRing | with_reducible apply wf_freeze | dsimp only | exact True.intro | intro _ | split)
theorem wf_lateMarks (s : State) (a1 : Ex) (a2 : List (Nat × DWord)) (h0 : Memory.wf s.mem = true) :
    Memory.wf (State.lateMarks s a1 a2).1.mem = true := by
  unfold State.lateMarks
  repeat' (first | with_reducible assumption | with_reducible apply wf_strand | with_reducible apply wf_putWord | with_reducible apply wf_makePoison | with_reducible apply wf_setReg | with_reducible apply wf_foldl | with_reducible apply wf_foldl2 | with_reducible apply wf_foldl1 | with_reducible apply wf_foldl22 | dsimp only | exact True.intro | intro _ | (split <;> (try (rename_i hq; have hq1 := congrArg Prod.snd hq; dsimp only at hq1; subst hq1))))
theorem wf_prep (s : State) (a1 : Path) (a2 : Fields) (h0 : Memory.wf s.mem = true) :
    Memory.wf (State.prep s a1 a2).mem = true := by
  unfold State.prep
  repeat' (first | with_reducible assumption | with_reducible apply wf_strand | with_reducible apply wf_modFibre | dsimp only | exact True.intro | intro _ | split)
theorem wf_joinLanes (s : State) (a1 : Ex) (h0 : Memory.wf s.mem = true) :
    Memory.wf (State.joinLanes s a1).mem = true := by
  unfold State.joinLanes
  repeat' (first | with_reducible assumption | with_reducible apply wf_modFibre | dsimp only | exact True.intro | intro _ | split)
theorem wf_handOff (s : State) (a1 : Ex) (h0 : Memory.wf s.mem = true) :
    Memory.wf (State.handOff s a1).mem = true := by
  unfold State.handOff
  repeat' (first | with_reducible assumption | with_reducible apply wf_modFibre | with_reducible apply wf_modWarp | dsimp only | exact True.intro | intro _ | split)
theorem wf_holdWalks (s t : State) (h0 : Memory.wf s.mem = true) : Memory.wf (State.holdWalks s t).mem = true := h0
theorem wf_runPath (op : Nat) (f : Fields) (body : Ex → State → Out) (p : Path) (q : Option Path) (s : State)
    (hb : ∀ x s, Memory.wf s.mem = true → OutOk (body x s)) (h0 : Memory.wf s.mem = true) :
    Memory.wf (runPath op f body p q s).mem = true := by
  have hs := wf_settle s p.g p.w p.f h0
  unfold runPath
  dsimp only
  split
  · exact wf_freezePath _ _ _ h0
  · split
    · exact wf_blockPath _ _ hs
    · split
      · exact wf_retire _ _ _ _ _ _ (wf_prep _ _ _ hs) hs
      · have h1 := hb (s.exOf p op f) ((s.settle p.g p.w p.f).prep p f) (wf_prep _ _ _ hs)
        split
        · exact wf_blockPath _ _ hs
        · next k hk => rw [hk] at h1; exact wf_blockPath _ _ (h1 _ hs)
        · exact wf_freezePath _ _ _ hs
        · next t j ht =>
          rw [ht] at h1
          split
          · exact wf_blockPath _ _ (wf_holdWalks _ _ hs)
          · exact wf_retire _ _ _ _ _ _ (wf_lateMarks _ _ _ (wf_handOff _ _ (wf_joinLanes _ _ (wf_walksUsed _ _ _ _ _ h1)))) hs
theorem wf_stopAp (s : State) (a1 : Nat) (a2 : Nat) (h0 : Memory.wf s.mem = true) :
    Memory.wf (State.stopAp s a1 a2).mem = true := by
  unfold State.stopAp
  repeat' (first | with_reducible assumption | with_reducible apply wf_wake | with_reducible apply wf_modAp | with_reducible apply wf_failGroup | dsimp only | exact True.intro | intro _ | split)
theorem wf_runAccess (op : Nat) (f : Fields) (body : Ex → State → Out) (g n : Nat) (s : State)
    (hb : ∀ x s, Memory.wf s.mem = true → OutOk (body x s)) (h0 : Memory.wf s.mem = true) :
    Memory.wf (runAccess op f body g n s).mem = true := by
  unfold runAccess
  extract_lets k a p x
  have h1 := hb x s h0
  split
  · exact h0
  · exact h0
  · exact wf_stopAp _ _ _ h0
  · next t j ht =>
    rw [ht] at h1
    split
    · exact h0
    · exact wf_modAp _ _ _ _ (wf_walksUsed _ _ _ _ _ h1)
theorem wf_runInstr (op : Nat) (f : Fields) (body : Ex → State → Out) (s : State) (h0 : Memory.wf s.mem = true)
    (hb : ∀ x s, Memory.wf s.mem = true → OutOk (body x s)) : NextOk (runInstr op f body s) := by
  unfold runInstr
  split
  · exact wf_runPath op f body _ _ s hb h0
  · exact wf_runAccess op f body _ _ s hb h0
  · exact True.intro
theorem wf_popQueues (s : State) (a1 : Ex) (a2 : List (BitVec 8)) (h0 : Memory.wf s.mem = true) :
    Memory.wf (State.popQueues s a1 a2).mem = true := by
  unfold State.popQueues
  repeat' (first | with_reducible assumption | with_reducible apply wf_modGroup | with_reducible apply wf_foldl | with_reducible apply wf_foldl2 | with_reducible apply wf_foldl1 | with_reducible apply wf_foldl22 | dsimp only | exact True.intro | intro _ | split)
theorem wf_flagEx (s : State) (a1 : Ex) (a2 : Word) (h0 : Memory.wf s.mem = true) :
    Memory.wf (State.flagEx s a1 a2).mem = true := by
  unfold State.flagEx
  repeat' (first | with_reducible assumption | with_reducible apply wf_setFlags | dsimp only | exact True.intro | intro _ | split)
theorem wf_regOut (a0 : Ex → State → Nat → List (List Val)) (a1 : Ex → List (List RegWord) → List RegWord × Word) (a2 : Nat) (a3 : Ex) (s : State) (h4 : Memory.wf s.mem = true) :
    Memory.wf (regOut a0 a1 a2 a3 s).mem = true := by
  unfold regOut
  repeat' (first | with_reducible assumption | with_reducible apply wf_flagEx | with_reducible apply wf_popQueues | with_reducible apply wf_writeDst | with_reducible apply wf_foldl | with_reducible apply wf_foldl2 | with_reducible apply wf_foldl1 | with_reducible apply wf_foldl22 | dsimp only | exact True.intro | intro _ | split)
theorem wf_regOp (a0 : Ex → State → Nat → List (List Val)) (a1 : Ex → List (List RegWord) → List RegWord × Word) (a2 : Nat) (a3 : Ex) (s : State) (h4 : Memory.wf s.mem = true) :
    OutOk (regOp a0 a1 a2 a3 s) := by
  unfold regOp
  repeat' (first | with_reducible assumption | with_reducible apply wf_regOut | dsimp only | exact True.intro | with_reducible apply outOk_ok | with_reducible apply outOk_hold | intro _ | split)
theorem wf_predOut (a0 : Ex → State → Nat → List (List Val)) (a1 : Ex → List (List RegWord) → Bool × Word) (a2 : Ex) (s : State) (h3 : Memory.wf s.mem = true) :
    Memory.wf (predOut a0 a1 a2 s).mem = true := by
  unfold predOut
  repeat' (first | with_reducible assumption | with_reducible apply wf_flagEx | with_reducible apply wf_popQueues | with_reducible apply wf_writePreds | with_reducible apply wf_foldl | with_reducible apply wf_foldl2 | with_reducible apply wf_foldl1 | with_reducible apply wf_foldl22 | dsimp only | exact True.intro | intro _ | split)
theorem wf_predOp (a0 : Ex → State → Nat → List (List Val)) (a1 : Ex → List (List RegWord) → Bool × Word) (a2 : Ex) (s : State) (h3 : Memory.wf s.mem = true) :
    OutOk (predOp a0 a1 a2 s) := by
  unfold predOp
  repeat' (first | with_reducible assumption | with_reducible apply wf_predOut | dsimp only | exact True.intro | with_reducible apply outOk_ok | with_reducible apply outOk_hold | intro _ | split)

/-! Access. -/

theorem wf_flatLoc (s : State) (a1 : Ex) (a2 : Nat) (a3 : Nat) (a4 : Access) (a5 : Bool) (h0 : Memory.wf s.mem = true) :
    Memory.wf (State.flatLoc s a1 a2 a3 a4 a5).2.mem = true := by
  unfold State.flatLoc
  repeat' (first | with_reducible assumption | with_reducible apply wf_reach | with_reducible apply wf_translate | dsimp only | exact True.intro | intro _ | (split <;> (try (rename_i hq; have hq1 := congrArg Prod.snd hq; dsimp only at hq1; subst hq1))))
theorem wf_flatLocs (s : State) (a1 : Ex) (a2 : List Nat) (a3 : Nat) (a4 : Access) (a5 : Bool) (h0 : Memory.wf s.mem = true) :
    Memory.wf (State.flatLocs s a1 a2 a3 a4 a5).2.mem = true := by
  unfold State.flatLocs
  repeat' (first | with_reducible assumption | with_reducible apply wf_flatLoc | with_reducible apply wf_foldl | with_reducible apply wf_foldl2 | with_reducible apply wf_foldl1 | with_reducible apply wf_foldl22 | dsimp only | exact True.intro | intro _ | (split <;> (try (rename_i hq; have hq1 := congrArg Prod.snd hq; dsimp only at hq1; subst hq1))))
theorem wf_irrev (s : State) (a1 : Ex) (h0 : Memory.wf s.mem = true) :
    Memory.wf (State.irrev s a1).mem = true := by
  unfold State.irrev
  repeat' (first | with_reducible assumption | with_reducible apply wf_modFibre | dsimp only | exact True.intro | intro _ | split)
theorem wf_giveItem (s : State) (a1 : Nat) (a2 : Nat) (a3 : Nat) (a4 : Got) (h0 : Memory.wf s.mem = true) :
    Memory.wf (State.giveItem s a1 a2 a3 a4).mem = true := by
  unfold State.giveItem
  repeat' (first | with_reducible assumption | dsimp only | exact True.intro | intro _ | split)
theorem wf_writeItems (s : State) (a1 : Nat) (a2 : Nat) (a3 : Nat) (a4 : Nat) (a5 : Byte) (a6 : DWord) (a7 : List Item) (h0 : Memory.wf s.mem = true) :
    Memory.wf (State.writeItems s a1 a2 a3 a4 a5 a6 a7).mem = true := by
  unfold State.writeItems
  repeat' (first | with_reducible assumption | with_reducible apply wf_writeDest | with_reducible apply wf_countPart | with_reducible apply wf_poisonOnce | with_reducible apply wf_foldl | with_reducible apply wf_foldl2 | with_reducible apply wf_foldl1 | with_reducible apply wf_foldl22 | dsimp only | exact True.intro | intro _ | (split <;> (try (rename_i hq; have hq1 := congrArg Prod.snd hq; dsimp only at hq1; subst hq1))))
theorem wf_deliver (s : State) (a1 : Prod) (a2 : Word) (h0 : Memory.wf s.mem = true) :
    Memory.wf (State.deliver s a1 a2).mem = true := by
  unfold State.deliver
  repeat' (first | with_reducible assumption | with_reducible apply wf_writeItems | with_reducible apply wf_acquire | dsimp only | exact True.intro | intro _ | split)

end Sys2Proof.Machine
end

