-- ==== Sys2Proof/Laws/CanonWork.lean ====
section
/-! SUPPORT. Memory stays canonical (MemoryCanonical): the operations of arithmetic, control, memory and tile instructions. -/

namespace Sys2Proof.Machine

/-! Control. -/

theorem wf_strandVals (s : State) (a1 : Ex) (a2 : List (Nat × Val)) (a3 : List (Nat × Val)) (h0 : Memory.wf s.mem = true) :
    Memory.wf (State.strandVals s a1 a2 a3).mem = true := by
  unfold State.strandVals
  repeat' (first | with_reducible assumption | with_reducible apply wf_strand | with_reducible apply wf_makePoison | dsimp only | exact True.intro | intro _ | (split <;> (try (rename_i hq; have hq1 := congrArg Prod.snd hq; dsimp only at hq1; subst hq1))))
theorem wf_nopBody (a0 : Ex) (s : State) (h1 : Memory.wf s.mem = true) :
    OutOk (nopBody a0 s) := by
  unfold nopBody
  repeat' (first | with_reducible assumption | dsimp only | exact True.intro | with_reducible apply outOk_ok | with_reducible apply outOk_hold | intro _ | split)
theorem wf_execNop (a0 : Fields) (s : State) (h1 : Memory.wf s.mem = true) :
    NextOk (execNop a0 s) := by
  unfold execNop
  repeat' (first | with_reducible assumption | with_reducible apply wf_nopBody | with_reducible apply wf_runInstr | dsimp only | exact True.intro | with_reducible apply nextOk_next | intro _ | split)
theorem wf_braBody (a0 : Ex) (s : State) (h1 : Memory.wf s.mem = true) :
    OutOk (braBody a0 s) := by
  unfold braBody
  repeat' (first | with_reducible assumption | dsimp only | exact True.intro | with_reducible apply outOk_ok | with_reducible apply outOk_hold | intro _ | split)
theorem wf_execBra (a0 : Fields) (s : State) (h1 : Memory.wf s.mem = true) :
    NextOk (execBra a0 s) := by
  unfold execBra
  repeat' (first | with_reducible assumption | with_reducible apply wf_braBody | with_reducible apply wf_runInstr | dsimp only | exact True.intro | with_reducible apply nextOk_next | intro _ | split)
theorem wf_bruBody (a0 : Ex) (s : State) (h1 : Memory.wf s.mem = true) :
    OutOk (bruBody a0 s) := by
  unfold bruBody
  repeat' (first | with_reducible assumption | dsimp only | exact True.intro | with_reducible apply outOk_ok | with_reducible apply outOk_hold | intro _ | split)
theorem wf_execBru (a0 : Fields) (s : State) (h1 : Memory.wf s.mem = true) :
    NextOk (execBru a0 s) := by
  unfold execBru
  repeat' (first | with_reducible assumption | with_reducible apply wf_bruBody | with_reducible apply wf_runInstr | dsimp only | exact True.intro | with_reducible apply nextOk_next | intro _ | split)
theorem wf_jumpOut (a0 : Ex) (s : State) (h1 : Memory.wf s.mem = true) :
    Memory.wf (jumpOut a0 s).mem = true := by
  unfold jumpOut
  repeat' (first | with_reducible assumption | with_reducible apply wf_strandVals | dsimp only | exact True.intro | intro _ | split)
theorem wf_jumpBody (a0 : Ex) (s : State) (h1 : Memory.wf s.mem = true) :
    OutOk (jumpBody a0 s) := by
  unfold jumpBody
  repeat' (first | with_reducible assumption | with_reducible apply wf_jumpOut | dsimp only | exact True.intro | with_reducible apply outOk_ok | with_reducible apply outOk_hold | intro _ | split)
theorem wf_execJmx (a0 : Fields) (s : State) (h1 : Memory.wf s.mem = true) :
    NextOk (execJmx a0 s) := by
  unfold execJmx
  repeat' (first | with_reducible assumption | with_reducible apply wf_jumpBody | with_reducible apply wf_runInstr | dsimp only | exact True.intro | with_reducible apply nextOk_next | intro _ | split)
theorem wf_callOut (a0 : Ex) (s : State) (h1 : Memory.wf s.mem = true) :
    Memory.wf (callOut a0 s).mem = true := by
  unfold callOut
  repeat' (first | with_reducible assumption | with_reducible apply wf_writeDst | dsimp only | exact True.intro | intro _ | split)
theorem wf_callBody (a0 : Ex) (s : State) (h1 : Memory.wf s.mem = true) :
    OutOk (callBody a0 s) := by
  unfold callBody
  repeat' (first | with_reducible assumption | with_reducible apply wf_callOut | dsimp only | exact True.intro | with_reducible apply outOk_ok | with_reducible apply outOk_hold | intro _ | split)
theorem wf_execCall (a0 : Fields) (s : State) (h1 : Memory.wf s.mem = true) :
    NextOk (execCall a0 s) := by
  unfold execCall
  repeat' (first | with_reducible assumption | with_reducible apply wf_callBody | with_reducible apply wf_runInstr | dsimp only | exact True.intro | with_reducible apply nextOk_next | intro _ | split)
theorem wf_execRet (a0 : Fields) (s : State) (h1 : Memory.wf s.mem = true) :
    NextOk (execRet a0 s) := by
  unfold execRet
  repeat' (first | with_reducible assumption | with_reducible apply wf_jumpBody | with_reducible apply wf_runInstr | dsimp only | exact True.intro | with_reducible apply nextOk_next | intro _ | split)
theorem wf_exitOut (a0 : Ex) (s : State) (h1 : Memory.wf s.mem = true) :
    Memory.wf (exitOut a0 s).mem = true := by
  unfold exitOut
  repeat' (first | with_reducible assumption | with_reducible apply wf_leave | with_reducible apply wf_modFibre | dsimp only | exact True.intro | intro _ | split)
theorem wf_exitBody (a0 : Ex) (s : State) (h1 : Memory.wf s.mem = true) :
    OutOk (exitBody a0 s) := by
  unfold exitBody
  repeat' (first | with_reducible assumption | with_reducible apply wf_exitOut | dsimp only | exact True.intro | with_reducible apply outOk_ok | with_reducible apply outOk_hold | intro _ | split)
theorem wf_execExit (a0 : Fields) (s : State) (h1 : Memory.wf s.mem = true) :
    NextOk (execExit a0 s) := by
  unfold execExit
  repeat' (first | with_reducible assumption | with_reducible apply wf_exitBody | with_reducible apply wf_runInstr | dsimp only | exact True.intro | with_reducible apply nextOk_next | intro _ | split)
theorem wf_fyldOut (a0 : Ex) (s : State) (h1 : Memory.wf s.mem = true) :
    Memory.wf (fyldOut a0 s).mem = true := by
  unfold fyldOut
  repeat' (first | with_reducible assumption | with_reducible apply wf_modWarp | dsimp only | exact True.intro | intro _ | split)
theorem wf_fyldBody (a0 : Ex) (s : State) (h1 : Memory.wf s.mem = true) :
    OutOk (fyldBody a0 s) := by
  unfold fyldBody
  repeat' (first | with_reducible assumption | with_reducible apply wf_fyldOut | dsimp only | exact True.intro | with_reducible apply outOk_ok | with_reducible apply outOk_hold | intro _ | split)
theorem wf_execFyld (a0 : Fields) (s : State) (h1 : Memory.wf s.mem = true) :
    NextOk (execFyld a0 s) := by
  unfold execFyld
  repeat' (first | with_reducible assumption | with_reducible apply wf_fyldBody | with_reducible apply wf_runInstr | dsimp only | exact True.intro | with_reducible apply nextOk_next | intro _ | split)
theorem wf_pfxRead (a0 : Pfx) (a1 : Path) (a2 : Option Path) (s : State) (h3 : Memory.wf s.mem = true) :
    Memory.wf (pfxRead a0 a1 a2 s).mem = true := by
  unfold pfxRead
  repeat' (first | with_reducible assumption | with_reducible apply wf_modFibre | dsimp only | exact True.intro | intro _ | split)
theorem wf_execPfx (a0 : Pfx) (s : State) (h1 : Memory.wf s.mem = true) :
    NextOk (execPfx a0 s) := by
  unfold execPfx
  repeat' (first | with_reducible assumption | with_reducible apply wf_pfxRead | dsimp only | exact True.intro | with_reducible apply nextOk_next | intro _ | split)
theorem wf_startFibre (s : State) (a1 : Nat) (a2 : Nat) (a3 : Nat) (h0 : Memory.wf s.mem = true) :
    Memory.wf (State.startFibre s a1 a2 a3).mem = true := by
  unfold State.startFibre
  repeat' (first | with_reducible assumption | with_reducible apply wf_writeUni | with_reducible apply wf_modFibre | with_reducible apply wf_optMap | dsimp only | exact True.intro | intro _ | split)
theorem wf_fstartOut (a0 : Ex) (s : State) (h1 : Memory.wf s.mem = true) :
    Memory.wf (fstartOut a0 s).mem = true := by
  unfold fstartOut
  repeat' (first | with_reducible assumption | with_reducible apply wf_startFibre | with_reducible apply wf_irrev | with_reducible apply wf_writeDst | dsimp only | exact True.intro | intro _ | split)
theorem wf_fstartBody (a0 : Ex) (s : State) (h1 : Memory.wf s.mem = true) :
    OutOk (fstartBody a0 s) := by
  unfold fstartBody
  repeat' (first | with_reducible assumption | with_reducible apply wf_fstartOut | dsimp only | exact True.intro | with_reducible apply outOk_ok | with_reducible apply outOk_hold | intro _ | split)
theorem wf_execFstart (a0 : Fields) (s : State) (h1 : Memory.wf s.mem = true) :
    NextOk (execFstart a0 s) := by
  unfold execFstart
  repeat' (first | with_reducible assumption | with_reducible apply wf_fstartBody | with_reducible apply wf_runInstr | dsimp only | exact True.intro | with_reducible apply nextOk_next | intro _ | split)
theorem wf_loopOut (a0 : Word) (a1 : Ex) (s : State) (h2 : Memory.wf s.mem = true) :
    Memory.wf (loopOut a0 a1 s).mem = true := by
  unfold loopOut
  repeat' (first | with_reducible assumption | with_reducible apply wf_writeDst | dsimp only | exact True.intro | intro _ | split)
theorem wf_loopBody (a0 : Ex) (s : State) (h1 : Memory.wf s.mem = true) :
    OutOk (loopBody a0 s) := by
  unfold loopBody
  repeat' (first | with_reducible assumption | with_reducible apply wf_loopOut | dsimp only | exact True.intro | with_reducible apply outOk_ok | with_reducible apply outOk_hold | intro _ | split)
theorem wf_execLoop (a0 : Fields) (s : State) (h1 : Memory.wf s.mem = true) :
    NextOk (execLoop a0 s) := by
  unfold execLoop
  repeat' (first | with_reducible assumption | with_reducible apply wf_loopBody | with_reducible apply wf_runInstr | dsimp only | exact True.intro | with_reducible apply nextOk_next | intro _ | split)

/-! Integer. -/

theorem wf_iaddBody (a0 : Ex) (s : State) (h1 : Memory.wf s.mem = true) :
    OutOk (iaddBody a0 s) := by
  unfold iaddBody
  repeat' (first | with_reducible assumption | with_reducible apply wf_regOp | dsimp only | exact True.intro | with_reducible apply outOk_ok | with_reducible apply outOk_hold | intro _ | split)
theorem wf_execIadd (a0 : Fields) (s : State) (h1 : Memory.wf s.mem = true) :
    NextOk (execIadd a0 s) := by
  unfold execIadd
  repeat' (first | with_reducible assumption | with_reducible apply wf_iaddBody | with_reducible apply wf_runInstr | dsimp only | exact True.intro | with_reducible apply nextOk_next | intro _ | split)
theorem wf_isubBody (a0 : Ex) (s : State) (h1 : Memory.wf s.mem = true) :
    OutOk (isubBody a0 s) := by
  unfold isubBody
  repeat' (first | with_reducible assumption | with_reducible apply wf_regOp | dsimp only | exact True.intro | with_reducible apply outOk_ok | with_reducible apply outOk_hold | intro _ | split)
theorem wf_execIsub (a0 : Fields) (s : State) (h1 : Memory.wf s.mem = true) :
    NextOk (execIsub a0 s) := by
  unfold execIsub
  repeat' (first | with_reducible assumption | with_reducible apply wf_isubBody | with_reducible apply wf_runInstr | dsimp only | exact True.intro | with_reducible apply nextOk_next | intro _ | split)
theorem wf_imulBody (a0 : Ex) (s : State) (h1 : Memory.wf s.mem = true) :
    OutOk (imulBody a0 s) := by
  unfold imulBody
  repeat' (first | with_reducible assumption | with_reducible apply wf_regOp | dsimp only | exact True.intro | with_reducible apply outOk_ok | with_reducible apply outOk_hold | intro _ | split)
theorem wf_execImul (a0 : Fields) (s : State) (h1 : Memory.wf s.mem = true) :
    NextOk (execImul a0 s) := by
  unfold execImul
  repeat' (first | with_reducible assumption | with_reducible apply wf_imulBody | with_reducible apply wf_runInstr | dsimp only | exact True.intro | with_reducible apply nextOk_next | intro _ | split)
theorem wf_imulhBody (a0 : Ex) (s : State) (h1 : Memory.wf s.mem = true) :
    OutOk (imulhBody a0 s) := by
  unfold imulhBody
  repeat' (first | with_reducible assumption | with_reducible apply wf_regOp | dsimp only | exact True.intro | with_reducible apply outOk_ok | with_reducible apply outOk_hold | intro _ | split)
theorem wf_execImulh (a0 : Fields) (s : State) (h1 : Memory.wf s.mem = true) :
    NextOk (execImulh a0 s) := by
  unfold execImulh
  repeat' (first | with_reducible assumption | with_reducible apply wf_imulhBody | with_reducible apply wf_runInstr | dsimp only | exact True.intro | with_reducible apply nextOk_next | intro _ | split)
theorem wf_imadBody (a0 : Ex) (s : State) (h1 : Memory.wf s.mem = true) :
    OutOk (imadBody a0 s) := by
  unfold imadBody
  repeat' (first | with_reducible assumption | with_reducible apply wf_regOp | dsimp only | exact True.intro | with_reducible apply outOk_ok | with_reducible apply outOk_hold | intro _ | split)
theorem wf_execImad (a0 : Fields) (s : State) (h1 : Memory.wf s.mem = true) :
    NextOk (execImad a0 s) := by
  unfold execImad
  repeat' (first | with_reducible assumption | with_reducible apply wf_imadBody | with_reducible apply wf_runInstr | dsimp only | exact True.intro | with_reducible apply nextOk_next | intro _ | split)
theorem wf_iadd3Body (a0 : Ex) (s : State) (h1 : Memory.wf s.mem = true) :
    OutOk (iadd3Body a0 s) := by
  unfold iadd3Body
  repeat' (first | with_reducible assumption | with_reducible apply wf_regOp | dsimp only | exact True.intro | with_reducible apply outOk_ok | with_reducible apply outOk_hold | intro _ | split)
theorem wf_execIadd3 (a0 : Fields) (s : State) (h1 : Memory.wf s.mem = true) :
    NextOk (execIadd3 a0 s) := by
  unfold execIadd3
  repeat' (first | with_reducible assumption | with_reducible apply wf_iadd3Body | with_reducible apply wf_runInstr | dsimp only | exact True.intro | with_reducible apply nextOk_next | intro _ | split)
theorem wf_idivBody (a0 : Ex) (s : State) (h1 : Memory.wf s.mem = true) :
    OutOk (idivBody a0 s) := by
  unfold idivBody
  repeat' (first | with_reducible assumption | with_reducible apply wf_regOp | dsimp only | exact True.intro | with_reducible apply outOk_ok | with_reducible apply outOk_hold | intro _ | split)
theorem wf_execIdiv (a0 : Fields) (s : State) (h1 : Memory.wf s.mem = true) :
    NextOk (execIdiv a0 s) := by
  unfold execIdiv
  repeat' (first | with_reducible assumption | with_reducible apply wf_idivBody | with_reducible apply wf_runInstr | dsimp only | exact True.intro | with_reducible apply nextOk_next | intro _ | split)
theorem wf_iremBody (a0 : Ex) (s : State) (h1 : Memory.wf s.mem = true) :
    OutOk (iremBody a0 s) := by
  unfold iremBody
  repeat' (first | with_reducible assumption | with_reducible apply wf_regOp | dsimp only | exact True.intro | with_reducible apply outOk_ok | with_reducible apply outOk_hold | intro _ | split)
theorem wf_execIrem (a0 : Fields) (s : State) (h1 : Memory.wf s.mem = true) :
    NextOk (execIrem a0 s) := by
  unfold execIrem
  repeat' (first | with_reducible assumption | with_reducible apply wf_iremBody | with_reducible apply wf_runInstr | dsimp only | exact True.intro | with_reducible apply nextOk_next | intro _ | split)
theorem wf_iminBody (a0 : Ex) (s : State) (h1 : Memory.wf s.mem = true) :
    OutOk (iminBody a0 s) := by
  unfold iminBody
  repeat' (first | with_reducible assumption | with_reducible apply wf_regOp | dsimp only | exact True.intro | with_reducible apply outOk_ok | with_reducible apply outOk_hold | intro _ | split)
theorem wf_execImin (a0 : Fields) (s : State) (h1 : Memory.wf s.mem = true) :
    NextOk (execImin a0 s) := by
  unfold execImin
  repeat' (first | with_reducible assumption | with_reducible apply wf_iminBody | with_reducible apply wf_runInstr | dsimp only | exact True.intro | with_reducible apply nextOk_next | intro _ | split)
theorem wf_imaxBody (a0 : Ex) (s : State) (h1 : Memory.wf s.mem = true) :
    OutOk (imaxBody a0 s) := by
  unfold imaxBody
  repeat' (first | with_reducible assumption | with_reducible apply wf_regOp | dsimp only | exact True.intro | with_reducible apply outOk_ok | with_reducible apply outOk_hold | intro _ | split)
theorem wf_execImax (a0 : Fields) (s : State) (h1 : Memory.wf s.mem = true) :
    NextOk (execImax a0 s) := by
  unfold execImax
  repeat' (first | with_reducible assumption | with_reducible apply wf_imaxBody | with_reducible apply wf_runInstr | dsimp only | exact True.intro | with_reducible apply nextOk_next | intro _ | split)
theorem wf_iabsBody (a0 : Ex) (s : State) (h1 : Memory.wf s.mem = true) :
    OutOk (iabsBody a0 s) := by
  unfold iabsBody
  repeat' (first | with_reducible assumption | with_reducible apply wf_regOp | dsimp only | exact True.intro | with_reducible apply outOk_ok | with_reducible apply outOk_hold | intro _ | split)
theorem wf_execIabs (a0 : Fields) (s : State) (h1 : Memory.wf s.mem = true) :
    NextOk (execIabs a0 s) := by
  unfold execIabs
  repeat' (first | with_reducible assumption | with_reducible apply wf_iabsBody | with_reducible apply wf_runInstr | dsimp only | exact True.intro | with_reducible apply nextOk_next | intro _ | split)
theorem wf_isaddBody (a0 : Ex) (s : State) (h1 : Memory.wf s.mem = true) :
    OutOk (isaddBody a0 s) := by
  unfold isaddBody
  repeat' (first | with_reducible assumption | with_reducible apply wf_regOp | dsimp only | exact True.intro | with_reducible apply outOk_ok | with_reducible apply outOk_hold | intro _ | split)
theorem wf_execIsadd (a0 : Fields) (s : State) (h1 : Memory.wf s.mem = true) :
    NextOk (execIsadd a0 s) := by
  unfold execIsadd
  repeat' (first | with_reducible assumption | with_reducible apply wf_isaddBody | with_reducible apply wf_runInstr | dsimp only | exact True.intro | with_reducible apply nextOk_next | intro _ | split)
theorem wf_leaBody (a0 : Ex) (s : State) (h1 : Memory.wf s.mem = true) :
    OutOk (leaBody a0 s) := by
  unfold leaBody
  repeat' (first | with_reducible assumption | with_reducible apply wf_regOp | dsimp only | exact True.intro | with_reducible apply outOk_ok | with_reducible apply outOk_hold | intro _ | split)
theorem wf_execLea (a0 : Fields) (s : State) (h1 : Memory.wf s.mem = true) :
    NextOk (execLea a0 s) := by
  unfold execLea
  repeat' (first | with_reducible assumption | with_reducible apply wf_leaBody | with_reducible apply wf_runInstr | dsimp only | exact True.intro | with_reducible apply nextOk_next | intro _ | split)
theorem wf_idot4Body (a0 : Ex) (s : State) (h1 : Memory.wf s.mem = true) :
    OutOk (idot4Body a0 s) := by
  unfold idot4Body
  repeat' (first | with_reducible assumption | with_reducible apply wf_regOp | dsimp only | exact True.intro | with_reducible apply outOk_ok | with_reducible apply outOk_hold | intro _ | split)
theorem wf_execIdot4 (a0 : Fields) (s : State) (h1 : Memory.wf s.mem = true) :
    NextOk (execIdot4 a0 s) := by
  unfold execIdot4
  repeat' (first | with_reducible assumption | with_reducible apply wf_idot4Body | with_reducible apply wf_runInstr | dsimp only | exact True.intro | with_reducible apply nextOk_next | intro _ | split)
theorem wf_iaddcOut (a0 : Ex) (s : State) (h1 : Memory.wf s.mem = true) :
    Memory.wf (iaddcOut a0 s).mem = true := by
  unfold iaddcOut
  repeat' (first | with_reducible assumption | with_reducible apply wf_popQueues | with_reducible apply wf_strand | with_reducible apply wf_writePreds | with_reducible apply wf_writeDst | with_reducible apply wf_makePoison | dsimp only | exact True.intro | intro _ | (split <;> (try (rename_i hq; have hq1 := congrArg Prod.snd hq; dsimp only at hq1; subst hq1))))
theorem wf_iaddcBody (a0 : Ex) (s : State) (h1 : Memory.wf s.mem = true) :
    OutOk (iaddcBody a0 s) := by
  unfold iaddcBody
  repeat' (first | with_reducible assumption | with_reducible apply wf_iaddcOut | dsimp only | exact True.intro | with_reducible apply outOk_ok | with_reducible apply outOk_hold | intro _ | split)
theorem wf_execIaddc (a0 : Fields) (s : State) (h1 : Memory.wf s.mem = true) :
    NextOk (execIaddc a0 s) := by
  unfold execIaddc
  repeat' (first | with_reducible assumption | with_reducible apply wf_iaddcBody | with_reducible apply wf_runInstr | dsimp only | exact True.intro | with_reducible apply nextOk_next | intro _ | split)
theorem wf_icmpBody (a0 : Ex) (s : State) (h1 : Memory.wf s.mem = true) :
    OutOk (icmpBody a0 s) := by
  unfold icmpBody
  repeat' (first | with_reducible assumption | with_reducible apply wf_predOp | dsimp only | exact True.intro | with_reducible apply outOk_ok | with_reducible apply outOk_hold | intro _ | split)
theorem wf_execIcmp (a0 : Fields) (s : State) (h1 : Memory.wf s.mem = true) :
    NextOk (execIcmp a0 s) := by
  unfold execIcmp
  repeat' (first | with_reducible assumption | with_reducible apply wf_icmpBody | with_reducible apply wf_runInstr | dsimp only | exact True.intro | with_reducible apply nextOk_next | intro _ | split)
theorem wf_isetBody (a0 : Ex) (s : State) (h1 : Memory.wf s.mem = true) :
    OutOk (isetBody a0 s) := by
  unfold isetBody
  repeat' (first | with_reducible assumption | with_reducible apply wf_regOp | dsimp only | exact True.intro | with_reducible apply outOk_ok | with_reducible apply outOk_hold | intro _ | split)
theorem wf_execIset (a0 : Fields) (s : State) (h1 : Memory.wf s.mem = true) :
    NextOk (execIset a0 s) := by
  unfold execIset
  repeat' (first | with_reducible assumption | with_reducible apply wf_isetBody | with_reducible apply wf_runInstr | dsimp only | exact True.intro | with_reducible apply nextOk_next | intro _ | split)

/-! Logic. -/

theorem wf_andBody (a0 : Ex) (s : State) (h1 : Memory.wf s.mem = true) :
    OutOk (andBody a0 s) := by
  unfold andBody
  repeat' (first | with_reducible assumption | with_reducible apply wf_regOp | dsimp only | exact True.intro | with_reducible apply outOk_ok | with_reducible apply outOk_hold | intro _ | split)
theorem wf_execAnd (a0 : Fields) (s : State) (h1 : Memory.wf s.mem = true) :
    NextOk (execAnd a0 s) := by
  unfold execAnd
  repeat' (first | with_reducible assumption | with_reducible apply wf_andBody | with_reducible apply wf_runInstr | dsimp only | exact True.intro | with_reducible apply nextOk_next | intro _ | split)
theorem wf_orBody (a0 : Ex) (s : State) (h1 : Memory.wf s.mem = true) :
    OutOk (orBody a0 s) := by
  unfold orBody
  repeat' (first | with_reducible assumption | with_reducible apply wf_regOp | dsimp only | exact True.intro | with_reducible apply outOk_ok | with_reducible apply outOk_hold | intro _ | split)
theorem wf_execOr (a0 : Fields) (s : State) (h1 : Memory.wf s.mem = true) :
    NextOk (execOr a0 s) := by
  unfold execOr
  repeat' (first | with_reducible assumption | with_reducible apply wf_orBody | with_reducible apply wf_runInstr | dsimp only | exact True.intro | with_reducible apply nextOk_next | intro _ | split)
theorem wf_xorBody (a0 : Ex) (s : State) (h1 : Memory.wf s.mem = true) :
    OutOk (xorBody a0 s) := by
  unfold xorBody
  repeat' (first | with_reducible assumption | with_reducible apply wf_regOp | dsimp only | exact True.intro | with_reducible apply outOk_ok | with_reducible apply outOk_hold | intro _ | split)
theorem wf_execXor (a0 : Fields) (s : State) (h1 : Memory.wf s.mem = true) :
    NextOk (execXor a0 s) := by
  unfold execXor
  repeat' (first | with_reducible assumption | with_reducible apply wf_xorBody | with_reducible apply wf_runInstr | dsimp only | exact True.intro | with_reducible apply nextOk_next | intro _ | split)
theorem wf_bitfBody (a0 : Ex) (s : State) (h1 : Memory.wf s.mem = true) :
    OutOk (bitfBody a0 s) := by
  unfold bitfBody
  repeat' (first | with_reducible assumption | with_reducible apply wf_regOp | dsimp only | exact True.intro | with_reducible apply outOk_ok | with_reducible apply outOk_hold | intro _ | split)
theorem wf_execBitf (a0 : Fields) (s : State) (h1 : Memory.wf s.mem = true) :
    NextOk (execBitf a0 s) := by
  unfold execBitf
  repeat' (first | with_reducible assumption | with_reducible apply wf_bitfBody | with_reducible apply wf_runInstr | dsimp only | exact True.intro | with_reducible apply nextOk_next | intro _ | split)
theorem wf_shlBody (a0 : Ex) (s : State) (h1 : Memory.wf s.mem = true) :
    OutOk (shlBody a0 s) := by
  unfold shlBody
  repeat' (first | with_reducible assumption | with_reducible apply wf_regOp | dsimp only | exact True.intro | with_reducible apply outOk_ok | with_reducible apply outOk_hold | intro _ | split)
theorem wf_execShl (a0 : Fields) (s : State) (h1 : Memory.wf s.mem = true) :
    NextOk (execShl a0 s) := by
  unfold execShl
  repeat' (first | with_reducible assumption | with_reducible apply wf_shlBody | with_reducible apply wf_runInstr | dsimp only | exact True.intro | with_reducible apply nextOk_next | intro _ | split)
theorem wf_shrBody (a0 : Ex) (s : State) (h1 : Memory.wf s.mem = true) :
    OutOk (shrBody a0 s) := by
  unfold shrBody
  repeat' (first | with_reducible assumption | with_reducible apply wf_regOp | dsimp only | exact True.intro | with_reducible apply outOk_ok | with_reducible apply outOk_hold | intro _ | split)
theorem wf_execShr (a0 : Fields) (s : State) (h1 : Memory.wf s.mem = true) :
    NextOk (execShr a0 s) := by
  unfold execShr
  repeat' (first | with_reducible assumption | with_reducible apply wf_shrBody | with_reducible apply wf_runInstr | dsimp only | exact True.intro | with_reducible apply nextOk_next | intro _ | split)
theorem wf_sarBody (a0 : Ex) (s : State) (h1 : Memory.wf s.mem = true) :
    OutOk (sarBody a0 s) := by
  unfold sarBody
  repeat' (first | with_reducible assumption | with_reducible apply wf_regOp | dsimp only | exact True.intro | with_reducible apply outOk_ok | with_reducible apply outOk_hold | intro _ | split)
theorem wf_execSar (a0 : Fields) (s : State) (h1 : Memory.wf s.mem = true) :
    NextOk (execSar a0 s) := by
  unfold execSar
  repeat' (first | with_reducible assumption | with_reducible apply wf_sarBody | with_reducible apply wf_runInstr | dsimp only | exact True.intro | with_reducible apply nextOk_next | intro _ | split)
theorem wf_fshBody (a0 : Ex) (s : State) (h1 : Memory.wf s.mem = true) :
    OutOk (fshBody a0 s) := by
  unfold fshBody
  repeat' (first | with_reducible assumption | with_reducible apply wf_regOp | dsimp only | exact True.intro | with_reducible apply outOk_ok | with_reducible apply outOk_hold | intro _ | split)
theorem wf_execFsh (a0 : Fields) (s : State) (h1 : Memory.wf s.mem = true) :
    NextOk (execFsh a0 s) := by
  unfold execFsh
  repeat' (first | with_reducible assumption | with_reducible apply wf_fshBody | with_reducible apply wf_runInstr | dsimp only | exact True.intro | with_reducible apply nextOk_next | intro _ | split)
theorem wf_bfxBody (a0 : Ex) (s : State) (h1 : Memory.wf s.mem = true) :
    OutOk (bfxBody a0 s) := by
  unfold bfxBody
  repeat' (first | with_reducible assumption | with_reducible apply wf_regOp | dsimp only | exact True.intro | with_reducible apply outOk_ok | with_reducible apply outOk_hold | intro _ | split)
theorem wf_execBfx (a0 : Fields) (s : State) (h1 : Memory.wf s.mem = true) :
    NextOk (execBfx a0 s) := by
  unfold execBfx
  repeat' (first | with_reducible assumption | with_reducible apply wf_bfxBody | with_reducible apply wf_runInstr | dsimp only | exact True.intro | with_reducible apply nextOk_next | intro _ | split)
theorem wf_bfiBody (a0 : Ex) (s : State) (h1 : Memory.wf s.mem = true) :
    OutOk (bfiBody a0 s) := by
  unfold bfiBody
  repeat' (first | with_reducible assumption | with_reducible apply wf_regOp | dsimp only | exact True.intro | with_reducible apply outOk_ok | with_reducible apply outOk_hold | intro _ | split)
theorem wf_execBfi (a0 : Fields) (s : State) (h1 : Memory.wf s.mem = true) :
    NextOk (execBfi a0 s) := by
  unfold execBfi
  repeat' (first | with_reducible assumption | with_reducible apply wf_bfiBody | with_reducible apply wf_runInstr | dsimp only | exact True.intro | with_reducible apply nextOk_next | intro _ | split)
theorem wf_popcBody (a0 : Ex) (s : State) (h1 : Memory.wf s.mem = true) :
    OutOk (popcBody a0 s) := by
  unfold popcBody
  repeat' (first | with_reducible assumption | with_reducible apply wf_regOp | dsimp only | exact True.intro | with_reducible apply outOk_ok | with_reducible apply outOk_hold | intro _ | split)
theorem wf_execPopc (a0 : Fields) (s : State) (h1 : Memory.wf s.mem = true) :
    NextOk (execPopc a0 s) := by
  unfold execPopc
  repeat' (first | with_reducible assumption | with_reducible apply wf_popcBody | with_reducible apply wf_runInstr | dsimp only | exact True.intro | with_reducible apply nextOk_next | intro _ | split)
theorem wf_clzBody (a0 : Ex) (s : State) (h1 : Memory.wf s.mem = true) :
    OutOk (clzBody a0 s) := by
  unfold clzBody
  repeat' (first | with_reducible assumption | with_reducible apply wf_regOp | dsimp only | exact True.intro | with_reducible apply outOk_ok | with_reducible apply outOk_hold | intro _ | split)
theorem wf_execClz (a0 : Fields) (s : State) (h1 : Memory.wf s.mem = true) :
    NextOk (execClz a0 s) := by
  unfold execClz
  repeat' (first | with_reducible assumption | with_reducible apply wf_clzBody | with_reducible apply wf_runInstr | dsimp only | exact True.intro | with_reducible apply nextOk_next | intro _ | split)
theorem wf_brevBody (a0 : Ex) (s : State) (h1 : Memory.wf s.mem = true) :
    OutOk (brevBody a0 s) := by
  unfold brevBody
  repeat' (first | with_reducible assumption | with_reducible apply wf_regOp | dsimp only | exact True.intro | with_reducible apply outOk_ok | with_reducible apply outOk_hold | intro _ | split)
theorem wf_execBrev (a0 : Fields) (s : State) (h1 : Memory.wf s.mem = true) :
    NextOk (execBrev a0 s) := by
  unfold execBrev
  repeat' (first | with_reducible assumption | with_reducible apply wf_brevBody | with_reducible apply wf_runInstr | dsimp only | exact True.intro | with_reducible apply nextOk_next | intro _ | split)
theorem wf_bytxBody (a0 : Ex) (s : State) (h1 : Memory.wf s.mem = true) :
    OutOk (bytxBody a0 s) := by
  unfold bytxBody
  repeat' (first | with_reducible assumption | with_reducible apply wf_regOp | dsimp only | exact True.intro | with_reducible apply outOk_ok | with_reducible apply outOk_hold | intro _ | split)
theorem wf_execBytx (a0 : Fields) (s : State) (h1 : Memory.wf s.mem = true) :
    NextOk (execBytx a0 s) := by
  unfold execBytx
  repeat' (first | with_reducible assumption | with_reducible apply wf_bytxBody | with_reducible apply wf_runInstr | dsimp only | exact True.intro | with_reducible apply nextOk_next | intro _ | split)
theorem wf_selOut (a0 : Ex) (s : State) (h1 : Memory.wf s.mem = true) :
    Memory.wf (selOut a0 s).mem = true := by
  unfold selOut
  repeat' (first | with_reducible assumption | with_reducible apply wf_popQueues | with_reducible apply wf_strand | with_reducible apply wf_writeDst | dsimp only | exact True.intro | intro _ | split)
theorem wf_selBody (a0 : Ex) (s : State) (h1 : Memory.wf s.mem = true) :
    OutOk (selBody a0 s) := by
  unfold selBody
  repeat' (first | with_reducible assumption | with_reducible apply wf_selOut | dsimp only | exact True.intro | with_reducible apply outOk_ok | with_reducible apply outOk_hold | intro _ | split)
theorem wf_execSel (a0 : Fields) (s : State) (h1 : Memory.wf s.mem = true) :
    NextOk (execSel a0 s) := by
  unfold execSel
  repeat' (first | with_reducible assumption | with_reducible apply wf_selBody | with_reducible apply wf_runInstr | dsimp only | exact True.intro | with_reducible apply nextOk_next | intro _ | split)
theorem wf_plogOut (a0 : Ex) (s : State) (h1 : Memory.wf s.mem = true) :
    Memory.wf (plogOut a0 s).mem = true := by
  unfold plogOut
  repeat' (first | with_reducible assumption | with_reducible apply wf_writePreds | dsimp only | exact True.intro | intro _ | split)
theorem wf_plogBody (a0 : Ex) (s : State) (h1 : Memory.wf s.mem = true) :
    OutOk (plogBody a0 s) := by
  unfold plogBody
  repeat' (first | with_reducible assumption | with_reducible apply wf_plogOut | dsimp only | exact True.intro | with_reducible apply outOk_ok | with_reducible apply outOk_hold | intro _ | split)
theorem wf_execPlog (a0 : Fields) (s : State) (h1 : Memory.wf s.mem = true) :
    NextOk (execPlog a0 s) := by
  unfold execPlog
  repeat' (first | with_reducible assumption | with_reducible apply wf_plogBody | with_reducible apply wf_runInstr | dsimp only | exact True.intro | with_reducible apply nextOk_next | intro _ | split)
theorem wf_pmovBody (a0 : Ex) (s : State) (h1 : Memory.wf s.mem = true) :
    OutOk (pmovBody a0 s) := by
  unfold pmovBody
  repeat' (first | with_reducible assumption | with_reducible apply wf_predOp | dsimp only | exact True.intro | with_reducible apply outOk_ok | with_reducible apply outOk_hold | intro _ | split)
theorem wf_execPmov (a0 : Fields) (s : State) (h1 : Memory.wf s.mem = true) :
    NextOk (execPmov a0 s) := by
  unfold execPmov
  repeat' (first | with_reducible assumption | with_reducible apply wf_pmovBody | with_reducible apply wf_runInstr | dsimp only | exact True.intro | with_reducible apply nextOk_next | intro _ | split)
theorem wf_movOut (a0 : Ex) (s : State) (h1 : Memory.wf s.mem = true) :
    Memory.wf (movOut a0 s).mem = true := by
  unfold movOut
  repeat' (first | with_reducible assumption | with_reducible apply wf_popQueues | with_reducible apply wf_writeDst | dsimp only | exact True.intro | intro _ | split)
theorem wf_movBody (a0 : Ex) (s : State) (h1 : Memory.wf s.mem = true) :
    OutOk (movBody a0 s) := by
  unfold movBody
  repeat' (first | with_reducible assumption | with_reducible apply wf_movOut | dsimp only | exact True.intro | with_reducible apply outOk_ok | with_reducible apply outOk_hold | intro _ | split)
theorem wf_execMov (a0 : Fields) (s : State) (h1 : Memory.wf s.mem = true) :
    NextOk (execMov a0 s) := by
  unfold execMov
  repeat' (first | with_reducible assumption | with_reducible apply wf_movBody | with_reducible apply wf_runInstr | dsimp only | exact True.intro | with_reducible apply nextOk_next | intro _ | split)
theorem wf_moviOut (a0 : Ex) (s : State) (h1 : Memory.wf s.mem = true) :
    Memory.wf (moviOut a0 s).mem = true := by
  unfold moviOut
  repeat' (first | with_reducible assumption | with_reducible apply wf_writeDst | dsimp only | exact True.intro | intro _ | split)
theorem wf_moviBody (a0 : Ex) (s : State) (h1 : Memory.wf s.mem = true) :
    OutOk (moviBody a0 s) := by
  unfold moviBody
  repeat' (first | with_reducible assumption | with_reducible apply wf_moviOut | dsimp only | exact True.intro | with_reducible apply outOk_ok | with_reducible apply outOk_hold | intro _ | split)
theorem wf_execMovi (a0 : Fields) (s : State) (h1 : Memory.wf s.mem = true) :
    NextOk (execMovi a0 s) := by
  unfold execMovi
  repeat' (first | with_reducible assumption | with_reducible apply wf_moviBody | with_reducible apply wf_runInstr | dsimp only | exact True.intro | with_reducible apply nextOk_next | intro _ | split)
theorem wf_tick (s : State) (h0 : Memory.wf s.mem = true) :
    Memory.wf (State.tick s).mem = true := by
  unfold State.tick
  repeat' (first | with_reducible assumption | with_reducible apply wf_fresh | dsimp only | exact True.intro | intro _ | (split <;> (try (rename_i hq; have hq1 := congrArg Prod.snd hq; dsimp only at hq1; subst hq1))))
theorem wf_movsOut (a0 : Ex) (s : State) (h1 : Memory.wf s.mem = true) :
    Memory.wf (movsOut a0 s).mem = true := by
  unfold movsOut
  repeat' (first | with_reducible assumption | with_reducible apply wf_tick | with_reducible apply wf_writeDst | dsimp only | exact True.intro | intro _ | split)
theorem wf_movsBody (a0 : Ex) (s : State) (h1 : Memory.wf s.mem = true) :
    OutOk (movsBody a0 s) := by
  unfold movsBody
  repeat' (first | with_reducible assumption | with_reducible apply wf_movsOut | dsimp only | exact True.intro | with_reducible apply outOk_ok | with_reducible apply outOk_hold | intro _ | split)
theorem wf_execMovs (a0 : Fields) (s : State) (h1 : Memory.wf s.mem = true) :
    NextOk (execMovs a0 s) := by
  unfold execMovs
  repeat' (first | with_reducible assumption | with_reducible apply wf_movsBody | with_reducible apply wf_runInstr | dsimp only | exact True.intro | with_reducible apply nextOk_next | intro _ | split)
theorem wf_movwOut (a0 : Ex) (s : State) (h1 : Memory.wf s.mem = true) :
    Memory.wf (movwOut a0 s).mem = true := by
  unfold movwOut
  repeat' (first | with_reducible assumption | with_reducible apply wf_popQueues | with_reducible apply wf_countBad | with_reducible apply wf_modFibre | dsimp only | exact True.intro | intro _ | (split <;> (try (rename_i hq; have hq1 := congrArg Prod.snd hq; dsimp only at hq1; subst hq1))))
theorem wf_movwBody (a0 : Ex) (s : State) (h1 : Memory.wf s.mem = true) :
    OutOk (movwBody a0 s) := by
  unfold movwBody
  repeat' (first | with_reducible assumption | with_reducible apply wf_movwOut | dsimp only | exact True.intro | with_reducible apply outOk_ok | with_reducible apply outOk_hold | intro _ | split)
theorem wf_execMovw (a0 : Fields) (s : State) (h1 : Memory.wf s.mem = true) :
    NextOk (execMovw a0 s) := by
  unfold execMovw
  repeat' (first | with_reducible assumption | with_reducible apply wf_movwBody | with_reducible apply wf_runInstr | dsimp only | exact True.intro | with_reducible apply nextOk_next | intro _ | split)

/-! Float. -/

theorem wf_fAddBody (a0 : Ex) (s : State) (h1 : Memory.wf s.mem = true) :
    OutOk (fAddBody a0 s) := by
  unfold fAddBody
  repeat' (first | with_reducible assumption | with_reducible apply wf_regOp | dsimp only | exact True.intro | with_reducible apply outOk_ok | with_reducible apply outOk_hold | intro _ | split)
theorem wf_execFadd (a0 : Fields) (s : State) (h1 : Memory.wf s.mem = true) :
    NextOk (execFadd a0 s) := by
  unfold execFadd
  repeat' (first | with_reducible assumption | with_reducible apply wf_fAddBody | with_reducible apply wf_runInstr | dsimp only | exact True.intro | with_reducible apply nextOk_next | intro _ | split)
theorem wf_fMulBody (a0 : Ex) (s : State) (h1 : Memory.wf s.mem = true) :
    OutOk (fMulBody a0 s) := by
  unfold fMulBody
  repeat' (first | with_reducible assumption | with_reducible apply wf_regOp | dsimp only | exact True.intro | with_reducible apply outOk_ok | with_reducible apply outOk_hold | intro _ | split)
theorem wf_execFmul (a0 : Fields) (s : State) (h1 : Memory.wf s.mem = true) :
    NextOk (execFmul a0 s) := by
  unfold execFmul
  repeat' (first | with_reducible assumption | with_reducible apply wf_fMulBody | with_reducible apply wf_runInstr | dsimp only | exact True.intro | with_reducible apply nextOk_next | intro _ | split)
theorem wf_ffmaBody (a0 : Ex) (s : State) (h1 : Memory.wf s.mem = true) :
    OutOk (ffmaBody a0 s) := by
  unfold ffmaBody
  repeat' (first | with_reducible assumption | with_reducible apply wf_regOp | dsimp only | exact True.intro | with_reducible apply outOk_ok | with_reducible apply outOk_hold | intro _ | split)
theorem wf_execFfma (a0 : Fields) (s : State) (h1 : Memory.wf s.mem = true) :
    NextOk (execFfma a0 s) := by
  unfold execFfma
  repeat' (first | with_reducible assumption | with_reducible apply wf_ffmaBody | with_reducible apply wf_runInstr | dsimp only | exact True.intro | with_reducible apply nextOk_next | intro _ | split)
theorem wf_fminBody (a0 : Ex) (s : State) (h1 : Memory.wf s.mem = true) :
    OutOk (fminBody a0 s) := by
  unfold fminBody
  repeat' (first | with_reducible assumption | with_reducible apply wf_regOp | dsimp only | exact True.intro | with_reducible apply outOk_ok | with_reducible apply outOk_hold | intro _ | split)
theorem wf_execFmin (a0 : Fields) (s : State) (h1 : Memory.wf s.mem = true) :
    NextOk (execFmin a0 s) := by
  unfold execFmin
  repeat' (first | with_reducible assumption | with_reducible apply wf_fminBody | with_reducible apply wf_runInstr | dsimp only | exact True.intro | with_reducible apply nextOk_next | intro _ | split)
theorem wf_fmaxBody (a0 : Ex) (s : State) (h1 : Memory.wf s.mem = true) :
    OutOk (fmaxBody a0 s) := by
  unfold fmaxBody
  repeat' (first | with_reducible assumption | with_reducible apply wf_regOp | dsimp only | exact True.intro | with_reducible apply outOk_ok | with_reducible apply outOk_hold | intro _ | split)
theorem wf_execFmax (a0 : Fields) (s : State) (h1 : Memory.wf s.mem = true) :
    NextOk (execFmax a0 s) := by
  unfold execFmax
  repeat' (first | with_reducible assumption | with_reducible apply wf_fmaxBody | with_reducible apply wf_runInstr | dsimp only | exact True.intro | with_reducible apply nextOk_next | intro _ | split)
theorem wf_fdivBody (a0 : Ex) (s : State) (h1 : Memory.wf s.mem = true) :
    OutOk (fdivBody a0 s) := by
  unfold fdivBody
  repeat' (first | with_reducible assumption | with_reducible apply wf_regOp | dsimp only | exact True.intro | with_reducible apply outOk_ok | with_reducible apply outOk_hold | intro _ | split)
theorem wf_execFdiv (a0 : Fields) (s : State) (h1 : Memory.wf s.mem = true) :
    NextOk (execFdiv a0 s) := by
  unfold execFdiv
  repeat' (first | with_reducible assumption | with_reducible apply wf_fdivBody | with_reducible apply wf_runInstr | dsimp only | exact True.intro | with_reducible apply nextOk_next | intro _ | split)
theorem wf_fsqrtBody (a0 : Ex) (s : State) (h1 : Memory.wf s.mem = true) :
    OutOk (fsqrtBody a0 s) := by
  unfold fsqrtBody
  repeat' (first | with_reducible assumption | with_reducible apply wf_regOp | dsimp only | exact True.intro | with_reducible apply outOk_ok | with_reducible apply outOk_hold | intro _ | split)
theorem wf_execFsqrt (a0 : Fields) (s : State) (h1 : Memory.wf s.mem = true) :
    NextOk (execFsqrt a0 s) := by
  unfold execFsqrt
  repeat' (first | with_reducible assumption | with_reducible apply wf_fsqrtBody | with_reducible apply wf_runInstr | dsimp only | exact True.intro | with_reducible apply nextOk_next | intro _ | split)
theorem wf_frcpBody (a0 : Ex) (s : State) (h1 : Memory.wf s.mem = true) :
    OutOk (frcpBody a0 s) := by
  unfold frcpBody
  repeat' (first | with_reducible assumption | with_reducible apply wf_regOp | dsimp only | exact True.intro | with_reducible apply outOk_ok | with_reducible apply outOk_hold | intro _ | split)
theorem wf_execFrcp (a0 : Fields) (s : State) (h1 : Memory.wf s.mem = true) :
    NextOk (execFrcp a0 s) := by
  unfold execFrcp
  repeat' (first | with_reducible assumption | with_reducible apply wf_frcpBody | with_reducible apply wf_runInstr | dsimp only | exact True.intro | with_reducible apply nextOk_next | intro _ | split)
theorem wf_frsqBody (a0 : Ex) (s : State) (h1 : Memory.wf s.mem = true) :
    OutOk (frsqBody a0 s) := by
  unfold frsqBody
  repeat' (first | with_reducible assumption | with_reducible apply wf_regOp | dsimp only | exact True.intro | with_reducible apply outOk_ok | with_reducible apply outOk_hold | intro _ | split)
theorem wf_execFrsq (a0 : Fields) (s : State) (h1 : Memory.wf s.mem = true) :
    NextOk (execFrsq a0 s) := by
  unfold execFrsq
  repeat' (first | with_reducible assumption | with_reducible apply wf_frsqBody | with_reducible apply wf_runInstr | dsimp only | exact True.intro | with_reducible apply nextOk_next | intro _ | split)
theorem wf_fex2Body (a0 : Ex) (s : State) (h1 : Memory.wf s.mem = true) :
    OutOk (fex2Body a0 s) := by
  unfold fex2Body
  repeat' (first | with_reducible assumption | with_reducible apply wf_regOp | dsimp only | exact True.intro | with_reducible apply outOk_ok | with_reducible apply outOk_hold | intro _ | split)
theorem wf_execFex2 (a0 : Fields) (s : State) (h1 : Memory.wf s.mem = true) :
    NextOk (execFex2 a0 s) := by
  unfold execFex2
  repeat' (first | with_reducible assumption | with_reducible apply wf_fex2Body | with_reducible apply wf_runInstr | dsimp only | exact True.intro | with_reducible apply nextOk_next | intro _ | split)
theorem wf_flg2Body (a0 : Ex) (s : State) (h1 : Memory.wf s.mem = true) :
    OutOk (flg2Body a0 s) := by
  unfold flg2Body
  repeat' (first | with_reducible assumption | with_reducible apply wf_regOp | dsimp only | exact True.intro | with_reducible apply outOk_ok | with_reducible apply outOk_hold | intro _ | split)
theorem wf_execFlg2 (a0 : Fields) (s : State) (h1 : Memory.wf s.mem = true) :
    NextOk (execFlg2 a0 s) := by
  unfold execFlg2
  repeat' (first | with_reducible assumption | with_reducible apply wf_flg2Body | with_reducible apply wf_runInstr | dsimp only | exact True.intro | with_reducible apply nextOk_next | intro _ | split)
theorem wf_frndBody (a0 : Ex) (s : State) (h1 : Memory.wf s.mem = true) :
    OutOk (frndBody a0 s) := by
  unfold frndBody
  repeat' (first | with_reducible assumption | with_reducible apply wf_regOp | dsimp only | exact True.intro | with_reducible apply outOk_ok | with_reducible apply outOk_hold | intro _ | split)
theorem wf_execFrnd (a0 : Fields) (s : State) (h1 : Memory.wf s.mem = true) :
    NextOk (execFrnd a0 s) := by
  unfold execFrnd
  repeat' (first | with_reducible assumption | with_reducible apply wf_frndBody | with_reducible apply wf_runInstr | dsimp only | exact True.intro | with_reducible apply nextOk_next | intro _ | split)
theorem wf_fsclBody (a0 : Ex) (s : State) (h1 : Memory.wf s.mem = true) :
    OutOk (fsclBody a0 s) := by
  unfold fsclBody
  repeat' (first | with_reducible assumption | with_reducible apply wf_regOp | dsimp only | exact True.intro | with_reducible apply outOk_ok | with_reducible apply outOk_hold | intro _ | split)
theorem wf_execFscl (a0 : Fields) (s : State) (h1 : Memory.wf s.mem = true) :
    NextOk (execFscl a0 s) := by
  unfold execFscl
  repeat' (first | with_reducible assumption | with_reducible apply wf_fsclBody | with_reducible apply wf_runInstr | dsimp only | exact True.intro | with_reducible apply nextOk_next | intro _ | split)
theorem wf_fdot2Body (a0 : Ex) (s : State) (h1 : Memory.wf s.mem = true) :
    OutOk (fdot2Body a0 s) := by
  unfold fdot2Body
  repeat' (first | with_reducible assumption | with_reducible apply wf_regOp | dsimp only | exact True.intro | with_reducible apply outOk_ok | with_reducible apply outOk_hold | intro _ | split)
theorem wf_execFdot2 (a0 : Fields) (s : State) (h1 : Memory.wf s.mem = true) :
    NextOk (execFdot2 a0 s) := by
  unfold execFdot2
  repeat' (first | with_reducible assumption | with_reducible apply wf_fdot2Body | with_reducible apply wf_runInstr | dsimp only | exact True.intro | with_reducible apply nextOk_next | intro _ | split)
theorem wf_fcvtBody (a0 : Ex) (s : State) (h1 : Memory.wf s.mem = true) :
    OutOk (fcvtBody a0 s) := by
  unfold fcvtBody
  repeat' (first | with_reducible assumption | with_reducible apply wf_regOp | dsimp only | exact True.intro | with_reducible apply outOk_ok | with_reducible apply outOk_hold | intro _ | split)
theorem wf_execFcvt (a0 : Fields) (s : State) (h1 : Memory.wf s.mem = true) :
    NextOk (execFcvt a0 s) := by
  unfold execFcvt
  repeat' (first | with_reducible assumption | with_reducible apply wf_fcvtBody | with_reducible apply wf_runInstr | dsimp only | exact True.intro | with_reducible apply nextOk_next | intro _ | split)
theorem wf_icvtBody (a0 : Ex) (s : State) (h1 : Memory.wf s.mem = true) :
    OutOk (icvtBody a0 s) := by
  unfold icvtBody
  repeat' (first | with_reducible assumption | with_reducible apply wf_regOp | dsimp only | exact True.intro | with_reducible apply outOk_ok | with_reducible apply outOk_hold | intro _ | split)
theorem wf_execIcvt (a0 : Fields) (s : State) (h1 : Memory.wf s.mem = true) :
    NextOk (execIcvt a0 s) := by
  unfold execIcvt
  repeat' (first | with_reducible assumption | with_reducible apply wf_icvtBody | with_reducible apply wf_runInstr | dsimp only | exact True.intro | with_reducible apply nextOk_next | intro _ | split)
theorem wf_fcmpBody (a0 : Ex) (s : State) (h1 : Memory.wf s.mem = true) :
    OutOk (fcmpBody a0 s) := by
  unfold fcmpBody
  repeat' (first | with_reducible assumption | with_reducible apply wf_predOp | dsimp only | exact True.intro | with_reducible apply outOk_ok | with_reducible apply outOk_hold | intro _ | split)
theorem wf_execFcmp (a0 : Fields) (s : State) (h1 : Memory.wf s.mem = true) :
    NextOk (execFcmp a0 s) := by
  unfold execFcmp
  repeat' (first | with_reducible assumption | with_reducible apply wf_fcmpBody | with_reducible apply wf_runInstr | dsimp only | exact True.intro | with_reducible apply nextOk_next | intro _ | split)
theorem wf_fsetBody (a0 : Ex) (s : State) (h1 : Memory.wf s.mem = true) :
    OutOk (fsetBody a0 s) := by
  unfold fsetBody
  repeat' (first | with_reducible assumption | with_reducible apply wf_regOp | dsimp only | exact True.intro | with_reducible apply outOk_ok | with_reducible apply outOk_hold | intro _ | split)
theorem wf_execFset (a0 : Fields) (s : State) (h1 : Memory.wf s.mem = true) :
    NextOk (execFset a0 s) := by
  unfold execFset
  repeat' (first | with_reducible assumption | with_reducible apply wf_fsetBody | with_reducible apply wf_runInstr | dsimp only | exact True.intro | with_reducible apply nextOk_next | intro _ | split)
theorem wf_fclsBody (a0 : Ex) (s : State) (h1 : Memory.wf s.mem = true) :
    OutOk (fclsBody a0 s) := by
  unfold fclsBody
  repeat' (first | with_reducible assumption | with_reducible apply wf_predOp | dsimp only | exact True.intro | with_reducible apply outOk_ok | with_reducible apply outOk_hold | intro _ | split)
theorem wf_execFcls (a0 : Fields) (s : State) (h1 : Memory.wf s.mem = true) :
    NextOk (execFcls a0 s) := by
  unfold execFcls
  repeat' (first | with_reducible assumption | with_reducible apply wf_fclsBody | with_reducible apply wf_runInstr | dsimp only | exact True.intro | with_reducible apply nextOk_next | intro _ | split)

/-! Rmw. -/

theorem wf_rmwDone (s : State) (a1 : PendOp) (a2 : List MemWord) (a3 : Bool) (h0 : Memory.wf s.mem = true) :
    Memory.wf (State.rmwDone s a1 a2 a3).mem = true := by
  unfold State.rmwDone
  repeat' (first | with_reducible assumption | with_reducible apply wf_giveItem | with_reducible apply wf_countPart | with_reducible apply wf_foldl | with_reducible apply wf_foldl2 | with_reducible apply wf_foldl1 | with_reducible apply wf_foldl22 | dsimp only | exact True.intro | intro _ | split)
theorem wf_rmwL1 (s : State) (a1 : PendOp) (h0 : Memory.wf s.mem = true) :
    Memory.wf (State.rmwL1 s a1).mem = true := by
  unfold State.rmwL1
  repeat' (first | with_reducible assumption | with_reducible apply wf_rmwDone | with_reducible apply wf_fixReads | with_reducible apply wf_setL1 | with_reducible apply wf_foldl | with_reducible apply wf_foldl2 | with_reducible apply wf_foldl1 | with_reducible apply wf_foldl22 | dsimp only | exact True.intro | intro _ | split)
theorem wf_rmwHome (s : State) (a1 : PendOp) (h0 : Memory.wf s.mem = true) :
    Memory.wf (State.rmwHome s a1).mem = true := by
  unfold State.rmwHome
  repeat' (first | with_reducible assumption | with_reducible apply wf_rmwDone | with_reducible apply wf_setHome | with_reducible apply wf_foldl | with_reducible apply wf_foldl2 | with_reducible apply wf_foldl1 | with_reducible apply wf_foldl22 | dsimp only | exact True.intro | intro _ | split)
theorem wf_runPend (s : State) (a1 : Nat) (h0 : Memory.wf s.mem = true) :
    Memory.wf (State.runPend s a1).mem = true := by
  unfold State.runPend
  repeat' (first | with_reducible assumption | with_reducible apply wf_rmwL1 | with_reducible apply wf_foldl | with_reducible apply wf_foldl2 | with_reducible apply wf_foldl1 | with_reducible apply wf_foldl22 | dsimp only | exact True.intro | intro _ | split)
theorem wf_atomic (s : State) (a1 : By) (a2 : Nat) (a3 : Byte) (a4 : Nat) (a5 : Nat) (a6 : Rmw) (a7 : Option Nat) (a8 : Bool) (h0 : Memory.wf s.mem = true) :
    Memory.wf (State.atomic s a1 a2 a3 a4 a5 a6 a7 a8).mem = true := by
  unfold State.atomic
  repeat' (first | with_reducible assumption | with_reducible apply wf_runPend | with_reducible apply wf_addPend | dsimp only | exact True.intro | intro _ | split)

/-! Scratch. -/

theorem wf_giveSp (s : State) (a1 : ParkedFe) (a2 : SpadWord) (h0 : Memory.wf s.mem = true) :
    Memory.wf (State.giveSp s a1 a2).mem = true := by
  unfold State.giveSp
  repeat' (first | with_reducible assumption | with_reducible apply wf_giveItem | with_reducible apply wf_spFound | dsimp only | exact True.intro | intro _ | split)
theorem wf_spPerform (s : State) (a1 : ParkedFe) (h0 : Memory.wf s.mem = true) :
    Memory.wf (State.spPerform s a1).1.mem = true := by
  unfold State.spPerform
  repeat' (first | with_reducible assumption | with_reducible apply wf_giveSp | with_reducible apply wf_giveItem | with_reducible apply wf_spadStore | with_reducible apply wf_spFound | with_reducible apply wf_setSp | dsimp only | exact True.intro | intro _ | split)
theorem wf_spLeave (s : State) (a1 : ParkedFe) (h0 : Memory.wf s.mem = true) :
    Memory.wf (State.spLeave s a1).mem = true := by
  unfold State.spLeave
  repeat' (first | with_reducible assumption | with_reducible apply wf_spPerform | with_reducible apply wf_modCore | dsimp only | exact True.intro | intro _ | split)
theorem wf_spPass (s : State) (a1 : Nat) (a2 : Nat) (a3 : Nat) (h0 : Memory.wf s.mem = true) :
    Memory.wf (State.spPass s a1 a2 a3).1.mem = true := by
  unfold State.spPass
  repeat' (first | with_reducible assumption | with_reducible apply wf_spLeave | with_reducible apply wf_foldl | with_reducible apply wf_foldl2 | with_reducible apply wf_foldl1 | with_reducible apply wf_foldl22 | dsimp only | exact True.intro | intro _ | split)
theorem wf_spWake (s : State) (c g i n : Nat) (h0 : Memory.wf s.mem = true) :
    Memory.wf (State.spWake s c g i n).mem = true := by
  induction n generalizing s with
  | zero => exact h0
  | succ n ih =>
    unfold State.spWake
    dsimp only
    split
    · exact ih _ (wf_spPass _ _ _ _ h0)
    · exact wf_spPass _ _ _ _ h0
theorem wf_spChanged (s : State) (a1 : Nat) (a2 : Nat) (h0 : Memory.wf s.mem = true) :
    Memory.wf (State.spChanged s a1 a2).mem = true := by
  unfold State.spChanged
  repeat' (first | with_reducible assumption | with_reducible apply wf_spWake | dsimp only | exact True.intro | intro _ | split)
theorem wf_spArrive (s : State) (a1 : ParkedFe) (h0 : Memory.wf s.mem = true) :
    Memory.wf (State.spArrive s a1).mem = true := by
  unfold State.spArrive
  repeat' (first | with_reducible assumption | with_reducible apply wf_spChanged | with_reducible apply wf_spPerform | with_reducible apply wf_modCore | dsimp only | exact True.intro | intro _ | split)
theorem wf_spAccess (s : State) (a1 : Ex) (a2 : Nat) (a3 : Nat) (a4 : Nat) (a5 : Word) (a6 : Nat) (a7 : Nat) (a8 : SpOp) (a9 : Option Nat) (a10 : Word) (h0 : Memory.wf s.mem = true) :
    Memory.wf (State.spAccess s a1 a2 a3 a4 a5 a6 a7 a8 a9 a10).mem = true := by
  unfold State.spAccess
  repeat' (first | with_reducible assumption | with_reducible apply wf_spArrive | with_reducible apply wf_newId | dsimp only | exact True.intro | intro _ | (split <;> (try (rename_i hq; have hq1 := congrArg Prod.snd hq; dsimp only at hq1; subst hq1))))
theorem wf_ldsOut (a0 : Ex) (s : State) (h1 : Memory.wf s.mem = true) :
    Memory.wf (ldsOut a0 s).mem = true := by
  unfold ldsOut
  repeat' (first | with_reducible assumption | with_reducible apply wf_spAccess | with_reducible apply wf_popQueues | with_reducible apply wf_produce | with_reducible apply wf_foldl | with_reducible apply wf_foldl2 | with_reducible apply wf_foldl1 | with_reducible apply wf_foldl22 | dsimp only | exact True.intro | intro _ | split)
theorem wf_ldsBody (a0 : Ex) (s : State) (h1 : Memory.wf s.mem = true) :
    OutOk (ldsBody a0 s) := by
  unfold ldsBody
  repeat' (first | with_reducible assumption | with_reducible apply wf_ldsOut | dsimp only | exact True.intro | with_reducible apply outOk_ok | with_reducible apply outOk_hold | intro _ | split)
theorem wf_execLds (a0 : Fields) (s : State) (h1 : Memory.wf s.mem = true) :
    NextOk (execLds a0 s) := by
  unfold execLds
  repeat' (first | with_reducible assumption | with_reducible apply wf_ldsBody | with_reducible apply wf_runInstr | dsimp only | exact True.intro | with_reducible apply nextOk_next | intro _ | split)
theorem wf_holdStore (a0 : Ex) (s : State) (a2 : QKind) (a3 : List (Nat × Loc × Option Val × DWord)) (h1 : Memory.wf s.mem = true) :
    Memory.wf (holdStore a0 s a2 a3).mem = true := by
  unfold holdStore
  repeat' (first | with_reducible assumption | with_reducible apply wf_makePoison | with_reducible apply wf_newId | with_reducible apply wf_modFibre | dsimp only | exact True.intro | intro _ | (split <;> (try (rename_i hq; have hq1 := congrArg Prod.snd hq; dsimp only at hq1; subst hq1))))
theorem wf_stsOut (a0 : Ex) (s : State) (h1 : Memory.wf s.mem = true) :
    Memory.wf (stsOut a0 s).mem = true := by
  unfold stsOut
  repeat' (first | with_reducible assumption | with_reducible apply wf_holdStore | with_reducible apply wf_spAccess | with_reducible apply wf_popQueues | with_reducible apply wf_countPart | with_reducible apply wf_newId | with_reducible apply wf_foldl | with_reducible apply wf_foldl2 | with_reducible apply wf_foldl1 | with_reducible apply wf_foldl22 | dsimp only | exact True.intro | intro _ | (split <;> (try (rename_i hq; have hq1 := congrArg Prod.snd hq; dsimp only at hq1; subst hq1))))
theorem wf_stsBody (a0 : Ex) (s : State) (h1 : Memory.wf s.mem = true) :
    OutOk (stsBody a0 s) := by
  unfold stsBody
  repeat' (first | with_reducible assumption | with_reducible apply wf_stsOut | dsimp only | exact True.intro | with_reducible apply outOk_ok | with_reducible apply outOk_hold | intro _ | split)
theorem wf_execSts (a0 : Fields) (s : State) (h1 : Memory.wf s.mem = true) :
    NextOk (execSts a0 s) := by
  unfold execSts
  repeat' (first | with_reducible assumption | with_reducible apply wf_stsBody | with_reducible apply wf_runInstr | dsimp only | exact True.intro | with_reducible apply nextOk_next | intro _ | split)
theorem wf_ldfeOut (a0 : Ex) (s : State) (h1 : Memory.wf s.mem = true) :
    Memory.wf (ldfeOut a0 s).mem = true := by
  unfold ldfeOut
  repeat' (first | with_reducible assumption | with_reducible apply wf_spAccess | with_reducible apply wf_irrev | with_reducible apply wf_popQueues | with_reducible apply wf_produce | with_reducible apply wf_foldl | with_reducible apply wf_foldl2 | with_reducible apply wf_foldl1 | with_reducible apply wf_foldl22 | dsimp only | exact True.intro | intro _ | split)
theorem wf_ldfeBody (a0 : Ex) (s : State) (h1 : Memory.wf s.mem = true) :
    OutOk (ldfeBody a0 s) := by
  unfold ldfeBody
  repeat' (first | with_reducible assumption | with_reducible apply wf_ldfeOut | dsimp only | exact True.intro | with_reducible apply outOk_ok | with_reducible apply outOk_hold | intro _ | split)
theorem wf_execLdfe (a0 : Fields) (s : State) (h1 : Memory.wf s.mem = true) :
    NextOk (execLdfe a0 s) := by
  unfold execLdfe
  repeat' (first | with_reducible assumption | with_reducible apply wf_ldfeBody | with_reducible apply wf_runInstr | dsimp only | exact True.intro | with_reducible apply nextOk_next | intro _ | split)
theorem wf_stfeOut (a0 : Ex) (s : State) (h1 : Memory.wf s.mem = true) :
    Memory.wf (stfeOut a0 s).mem = true := by
  unfold stfeOut
  repeat' (first | with_reducible assumption | with_reducible apply wf_spAccess | with_reducible apply wf_irrev | with_reducible apply wf_popQueues | with_reducible apply wf_countBad | with_reducible apply wf_makePoison | with_reducible apply wf_newId | with_reducible apply wf_modFibre | with_reducible apply wf_foldl | with_reducible apply wf_foldl2 | with_reducible apply wf_foldl1 | with_reducible apply wf_foldl22 | dsimp only | exact True.intro | intro _ | (split <;> (try (rename_i hq; have hq1 := congrArg Prod.snd hq; dsimp only at hq1; subst hq1))))
theorem wf_stfeBody (a0 : Ex) (s : State) (h1 : Memory.wf s.mem = true) :
    OutOk (stfeBody a0 s) := by
  unfold stfeBody
  repeat' (first | with_reducible assumption | with_reducible apply wf_stfeOut | dsimp only | exact True.intro | with_reducible apply outOk_ok | with_reducible apply outOk_hold | intro _ | split)
theorem wf_execStfe (a0 : Fields) (s : State) (h1 : Memory.wf s.mem = true) :
    NextOk (execStfe a0 s) := by
  unfold execStfe
  repeat' (first | with_reducible assumption | with_reducible apply wf_stfeBody | with_reducible apply wf_runInstr | dsimp only | exact True.intro | with_reducible apply nextOk_next | intro _ | split)

/-! Memory. -/

theorem wf_askWords (s : State) (a1 : Nat) (a2 : Byte) (a3 : Option Nat) (a4 : Bool) (a5 : Bool) (a6 : List Nat) (h0 : Memory.wf s.mem = true) :
    Memory.wf (State.askWords s a1 a2 a3 a4 a5 a6).mem = true := by
  unfold State.askWords
  repeat' (first | with_reducible assumption | with_reducible apply wf_send | with_reducible apply wf_foldl | with_reducible apply wf_foldl2 | with_reducible apply wf_foldl1 | with_reducible apply wf_foldl22 | dsimp only | exact True.intro | intro _ | split)
theorem wf_loadGo (s : State) (a1 : Nat) (a2 : Byte) (a3 : Nat) (a4 : Bool) (a5 : Nat) (a6 : List (Nat × Loc)) (h0 : Memory.wf s.mem = true) :
    Memory.wf (State.loadGo s a1 a2 a3 a4 a5 a6).mem = true := by
  unfold State.loadGo
  repeat' (first | with_reducible assumption | with_reducible apply wf_askWords | with_reducible apply wf_giveItem | with_reducible apply wf_ownLine | with_reducible apply wf_foldl | with_reducible apply wf_foldl2 | with_reducible apply wf_foldl1 | with_reducible apply wf_foldl22 | dsimp only | exact True.intro | intro _ | split)
theorem wf_loadOut (a0 : Bool) (a1 : Ex) (s : State) (h2 : Memory.wf s.mem = true) :
    Memory.wf (loadOut a0 a1 s).mem = true := by
  unfold loadOut
  repeat' (first | with_reducible assumption | with_reducible apply wf_loadGo | with_reducible apply wf_flatLocs | with_reducible apply wf_popQueues | with_reducible apply wf_produce | dsimp only | exact True.intro | intro _ | split)
theorem wf_loadBody (a0 : Bool) (a1 : Ex) (s : State) (h2 : Memory.wf s.mem = true) :
    OutOk (loadBody a0 a1 s) := by
  unfold loadBody
  repeat' (first | with_reducible assumption | with_reducible apply wf_loadOut | dsimp only | exact True.intro | with_reducible apply outOk_ok | with_reducible apply outOk_hold | intro _ | split)
theorem wf_ldBody (a0 : Ex) (s : State) (h1 : Memory.wf s.mem = true) :
    OutOk (ldBody a0 s) := by
  unfold ldBody
  repeat' (first | with_reducible assumption | with_reducible apply wf_loadBody | dsimp only | exact True.intro | with_reducible apply outOk_ok | with_reducible apply outOk_hold | intro _ | split)
theorem wf_execLd (a0 : Fields) (s : State) (h1 : Memory.wf s.mem = true) :
    NextOk (execLd a0 s) := by
  unfold execLd
  repeat' (first | with_reducible assumption | with_reducible apply wf_ldBody | with_reducible apply wf_runInstr | dsimp only | exact True.intro | with_reducible apply nextOk_next | intro _ | split)
theorem wf_lduBody (a0 : Ex) (s : State) (h1 : Memory.wf s.mem = true) :
    OutOk (lduBody a0 s) := by
  unfold lduBody
  repeat' (first | with_reducible assumption | with_reducible apply wf_loadBody | dsimp only | exact True.intro | with_reducible apply outOk_ok | with_reducible apply outOk_hold | intro _ | split)
theorem wf_execLdu (a0 : Fields) (s : State) (h1 : Memory.wf s.mem = true) :
    NextOk (execLdu a0 s) := by
  unfold execLdu
  repeat' (first | with_reducible assumption | with_reducible apply wf_lduBody | with_reducible apply wf_runInstr | dsimp only | exact True.intro | with_reducible apply nextOk_next | intro _ | split)
theorem wf_storeLocs (a0 : Bool) (a1 : Ex) (s : State) (h2 : Memory.wf s.mem = true) :
    Memory.wf (storeLocs a0 a1 s).2.mem = true := by
  unfold storeLocs
  repeat' (first | with_reducible assumption | with_reducible apply wf_flatLocs | dsimp only | exact True.intro | intro _ | split)
theorem wf_storeOut (a0 : Bool) (a1 : Ex) (s : State) (h2 : Memory.wf s.mem = true) :
    Memory.wf (storeOut a0 a1 s).mem = true := by
  unfold storeOut
  repeat' (first | with_reducible assumption | with_reducible apply wf_storeLocs | with_reducible apply wf_holdStore | with_reducible apply wf_popQueues | with_reducible apply wf_flatStore | with_reducible apply wf_countPart | with_reducible apply wf_newId | with_reducible apply wf_foldl | with_reducible apply wf_foldl2 | with_reducible apply wf_foldl1 | with_reducible apply wf_foldl22 | dsimp only | exact True.intro | intro _ | (split <;> (try (rename_i hq; have hq1 := congrArg Prod.snd hq; dsimp only at hq1; subst hq1))))
theorem wf_storeBody (a0 : Bool) (a1 : Ex) (s : State) (h2 : Memory.wf s.mem = true) :
    OutOk (storeBody a0 a1 s) := by
  unfold storeBody
  repeat' (first | with_reducible assumption | with_reducible apply wf_storeOut | dsimp only | exact True.intro | with_reducible apply outOk_ok | with_reducible apply outOk_hold | intro _ | split)
theorem wf_stBody (a0 : Ex) (s : State) (h1 : Memory.wf s.mem = true) :
    OutOk (stBody a0 s) := by
  unfold stBody
  repeat' (first | with_reducible assumption | with_reducible apply wf_storeBody | dsimp only | exact True.intro | with_reducible apply outOk_ok | with_reducible apply outOk_hold | intro _ | split)
theorem wf_execSt (a0 : Fields) (s : State) (h1 : Memory.wf s.mem = true) :
    NextOk (execSt a0 s) := by
  unfold execSt
  repeat' (first | with_reducible assumption | with_reducible apply wf_stBody | with_reducible apply wf_runInstr | dsimp only | exact True.intro | with_reducible apply nextOk_next | intro _ | split)
theorem wf_stuBody (a0 : Ex) (s : State) (h1 : Memory.wf s.mem = true) :
    OutOk (stuBody a0 s) := by
  unfold stuBody
  repeat' (first | with_reducible assumption | with_reducible apply wf_storeBody | dsimp only | exact True.intro | with_reducible apply outOk_ok | with_reducible apply outOk_hold | intro _ | split)
theorem wf_execStu (a0 : Fields) (s : State) (h1 : Memory.wf s.mem = true) :
    NextOk (execStu a0 s) := by
  unfold execStu
  repeat' (first | with_reducible assumption | with_reducible apply wf_stuBody | with_reducible apply wf_runInstr | dsimp only | exact True.intro | with_reducible apply nextOk_next | intro _ | split)
theorem wf_lineLocs (s : State) (a1 : Ex) (h0 : Memory.wf s.mem = true) :
    Memory.wf (State.lineLocs s a1).2.mem = true := by
  unfold State.lineLocs
  repeat' (first | with_reducible assumption | with_reducible apply wf_reach | with_reducible apply wf_foldl | with_reducible apply wf_foldl2 | with_reducible apply wf_foldl1 | with_reducible apply wf_foldl22 | dsimp only | exact True.intro | intro _ | (split <;> (try (rename_i hq; have hq1 := congrArg Prod.snd hq; dsimp only at hq1; subst hq1))))
theorem wf_pfcOut (a0 : Ex) (s : State) (h1 : Memory.wf s.mem = true) :
    Memory.wf (pfcOut a0 s).mem = true := by
  unfold pfcOut
  repeat' (first | with_reducible assumption | with_reducible apply wf_lineLocs | with_reducible apply wf_askWords | with_reducible apply wf_popQueues | with_reducible apply wf_homeAccess | with_reducible apply wf_foldl | with_reducible apply wf_foldl2 | with_reducible apply wf_foldl1 | with_reducible apply wf_foldl22 | dsimp only | exact True.intro | intro _ | split)
theorem wf_pfcBody (a0 : Ex) (s : State) (h1 : Memory.wf s.mem = true) :
    OutOk (pfcBody a0 s) := by
  unfold pfcBody
  repeat' (first | with_reducible assumption | with_reducible apply wf_pfcOut | dsimp only | exact True.intro | with_reducible apply outOk_ok | with_reducible apply outOk_hold | intro _ | split)
theorem wf_execPfc (a0 : Fields) (s : State) (h1 : Memory.wf s.mem = true) :
    NextOk (execPfc a0 s) := by
  unfold execPfc
  repeat' (first | with_reducible assumption | with_reducible apply wf_pfcBody | with_reducible apply wf_runInstr | dsimp only | exact True.intro | with_reducible apply nextOk_next | intro _ | split)
theorem wf_lineInv (s : State) (a1 : Nat) (a2 : Nat) (h0 : Memory.wf s.mem = true) :
    Memory.wf (State.lineInv s a1 a2).mem = true := by
  unfold State.lineInv
  repeat' (first | with_reducible assumption | with_reducible apply wf_noAllocLine | with_reducible apply wf_modCore | dsimp only | exact True.intro | intro _ | split)
theorem wf_lineWb (s : State) (a1 : Nat) (a2 : Nat) (a3 : Byte) (h0 : Memory.wf s.mem = true) :
    Memory.wf (State.lineWb s a1 a2 a3).mem = true := by
  unfold State.lineWb
  repeat' (first | with_reducible assumption | with_reducible apply wf_chase | with_reducible apply wf_send | with_reducible apply wf_setL1 | with_reducible apply wf_foldl | with_reducible apply wf_foldl2 | with_reducible apply wf_foldl1 | with_reducible apply wf_foldl22 | dsimp only | exact True.intro | intro _ | split)
theorem wf_cctlOut (a0 : Ex) (s : State) (h1 : Memory.wf s.mem = true) :
    Memory.wf (cctlOut a0 s).mem = true := by
  unfold cctlOut
  repeat' (first | with_reducible assumption | with_reducible apply wf_lineWb | with_reducible apply wf_lineInv | with_reducible apply wf_lineLocs | with_reducible apply wf_popQueues | with_reducible apply wf_countBad | with_reducible apply wf_foldl | with_reducible apply wf_foldl2 | with_reducible apply wf_foldl1 | with_reducible apply wf_foldl22 | dsimp only | exact True.intro | intro _ | split)
theorem wf_cctlBody (a0 : Ex) (s : State) (h1 : Memory.wf s.mem = true) :
    OutOk (cctlBody a0 s) := by
  unfold cctlBody
  repeat' (first | with_reducible assumption | with_reducible apply wf_cctlOut | dsimp only | exact True.intro | with_reducible apply outOk_ok | with_reducible apply outOk_hold | intro _ | split)
theorem wf_execCctl (a0 : Fields) (s : State) (h1 : Memory.wf s.mem = true) :
    NextOk (execCctl a0 s) := by
  unfold execCctl
  repeat' (first | with_reducible assumption | with_reducible apply wf_cctlBody | with_reducible apply wf_runInstr | dsimp only | exact True.intro | with_reducible apply nextOk_next | intro _ | split)
theorem wf_pftFrames (s : State) (a1 : Ex) (a2 : Nat) (a3 : Nat) (h0 : Memory.wf s.mem = true) :
    Memory.wf (State.pftFrames s a1 a2 a3).2.mem = true := by
  unfold State.pftFrames
  repeat' (first | with_reducible assumption | with_reducible apply wf_reach | with_reducible apply wf_foldl | with_reducible apply wf_foldl2 | with_reducible apply wf_foldl1 | with_reducible apply wf_foldl22 | dsimp only | exact True.intro | intro _ | (split <;> (try (rename_i hq; have hq1 := congrArg Prod.snd hq; dsimp only at hq1; subst hq1))))
theorem wf_pftOut (a0 : Ex) (s : State) (h1 : Memory.wf s.mem = true) :
    Memory.wf (pftOut a0 s).mem = true := by
  unfold pftOut
  repeat' (first | with_reducible assumption | with_reducible apply wf_pftFrames | with_reducible apply wf_newId | dsimp only | exact True.intro | intro _ | (split <;> (try (rename_i hq; have hq1 := congrArg Prod.snd hq; dsimp only at hq1; subst hq1))))
theorem wf_pftBody (a0 : Ex) (s : State) (h1 : Memory.wf s.mem = true) :
    OutOk (pftBody a0 s) := by
  unfold pftBody
  repeat' (first | with_reducible assumption | with_reducible apply wf_pftOut | dsimp only | exact True.intro | with_reducible apply outOk_ok | with_reducible apply outOk_hold | intro _ | split)
theorem wf_execPft (a0 : Fields) (s : State) (h1 : Memory.wf s.mem = true) :
    NextOk (execPft a0 s) := by
  unfold execPft
  repeat' (first | with_reducible assumption | with_reducible apply wf_pftBody | with_reducible apply wf_runInstr | dsimp only | exact True.intro | with_reducible apply nextOk_next | intro _ | split)

/-! Atomics. -/

theorem wf_atomGo (a0 : Ex) (s : State) (a2 : Bool) (a3 : Nat) (a4 : Bool) (a5 : Bool) (a6 : List AtomLane) (h1 : Memory.wf s.mem = true) :
    Memory.wf (atomGo a0 s a2 a3 a4 a5 a6).mem = true := by
  unfold atomGo
  repeat' (first | with_reducible assumption | with_reducible apply wf_spAccess | with_reducible apply wf_atomic | with_reducible apply wf_irrev | with_reducible apply wf_popQueues | with_reducible apply wf_produce | with_reducible apply wf_foldl | with_reducible apply wf_foldl2 | with_reducible apply wf_foldl1 | with_reducible apply wf_foldl22 | dsimp only | exact True.intro | intro _ | split)
theorem wf_atomLocs (a0 : Bool) (a1 : Ex) (s : State) (h2 : Memory.wf s.mem = true) :
    Memory.wf (atomLocs a0 a1 s).2.mem = true := by
  unfold atomLocs
  repeat' (first | with_reducible assumption | with_reducible apply wf_flatLocs | dsimp only | exact True.intro | intro _ | (split <;> (try (rename_i hq; have hq1 := congrArg Prod.snd hq; dsimp only at hq1; subst hq1))))
theorem wf_atomOut (a0 : Bool) (a1 : Bool) (a2 : Ex) (s : State) (h3 : Memory.wf s.mem = true) :
    Memory.wf (atomOut a0 a1 a2 s).mem = true := by
  unfold atomOut
  repeat' (first | with_reducible assumption | with_reducible apply wf_atomLocs | with_reducible apply wf_atomGo | dsimp only | exact True.intro | intro _ | split)
theorem wf_atomBody (a0 : Bool) (a1 : Bool) (a2 : Ex) (s : State) (h3 : Memory.wf s.mem = true) :
    OutOk (atomBody a0 a1 a2 s) := by
  unfold atomBody
  repeat' (first | with_reducible assumption | with_reducible apply wf_atomOut | dsimp only | exact True.intro | with_reducible apply outOk_ok | with_reducible apply outOk_hold | intro _ | split)
theorem wf_atomicBody (a0 : Ex) (s : State) (h1 : Memory.wf s.mem = true) :
    OutOk (atomicBody a0 s) := by
  unfold atomicBody
  repeat' (first | with_reducible assumption | with_reducible apply wf_atomBody | dsimp only | exact True.intro | with_reducible apply outOk_ok | with_reducible apply outOk_hold | intro _ | split)
theorem wf_execAtom (a0 : Fields) (s : State) (h1 : Memory.wf s.mem = true) :
    NextOk (execAtom a0 s) := by
  unfold execAtom
  repeat' (first | with_reducible assumption | with_reducible apply wf_atomicBody | with_reducible apply wf_runInstr | dsimp only | exact True.intro | with_reducible apply nextOk_next | intro _ | split)
theorem wf_acasBody (a0 : Ex) (s : State) (h1 : Memory.wf s.mem = true) :
    OutOk (acasBody a0 s) := by
  unfold acasBody
  repeat' (first | with_reducible assumption | with_reducible apply wf_atomBody | dsimp only | exact True.intro | with_reducible apply outOk_ok | with_reducible apply outOk_hold | intro _ | split)
theorem wf_execAcas (a0 : Fields) (s : State) (h1 : Memory.wf s.mem = true) :
    NextOk (execAcas a0 s) := by
  unfold execAcas
  repeat' (first | with_reducible assumption | with_reducible apply wf_acasBody | with_reducible apply wf_runInstr | dsimp only | exact True.intro | with_reducible apply nextOk_next | intro _ | split)
theorem wf_atomsBody (a0 : Ex) (s : State) (h1 : Memory.wf s.mem = true) :
    OutOk (atomsBody a0 s) := by
  unfold atomsBody
  repeat' (first | with_reducible assumption | with_reducible apply wf_atomBody | dsimp only | exact True.intro | with_reducible apply outOk_ok | with_reducible apply outOk_hold | intro _ | split)
theorem wf_execAtoms (a0 : Fields) (s : State) (h1 : Memory.wf s.mem = true) :
    NextOk (execAtoms a0 s) := by
  unfold execAtoms
  repeat' (first | with_reducible assumption | with_reducible apply wf_atomsBody | with_reducible apply wf_runInstr | dsimp only | exact True.intro | with_reducible apply nextOk_next | intro _ | split)
theorem wf_redBody (a0 : Ex) (s : State) (h1 : Memory.wf s.mem = true) :
    OutOk (redBody a0 s) := by
  unfold redBody
  repeat' (first | with_reducible assumption | with_reducible apply wf_atomBody | dsimp only | exact True.intro | with_reducible apply outOk_ok | with_reducible apply outOk_hold | intro _ | split)
theorem wf_execRed (a0 : Fields) (s : State) (h1 : Memory.wf s.mem = true) :
    NextOk (execRed a0 s) := by
  unfold execRed
  repeat' (first | with_reducible assumption | with_reducible apply wf_redBody | with_reducible apply wf_runInstr | dsimp only | exact True.intro | with_reducible apply nextOk_next | intro _ | split)
theorem wf_fenceOut (a0 : Bool) (a1 : Bool) (a2 : Ex) (s : State) (h3 : Memory.wf s.mem = true) :
    Memory.wf (fenceOut a0 a1 a2 s).mem = true := by
  unfold fenceOut
  repeat' (first | with_reducible assumption | with_reducible apply wf_settleFences | with_reducible apply wf_addFence | dsimp only | exact True.intro | intro _ | split)
theorem wf_acqBody (a0 : Ex) (s : State) (h1 : Memory.wf s.mem = true) :
    OutOk (acqBody a0 s) := by
  unfold acqBody
  repeat' (first | with_reducible assumption | with_reducible apply wf_fenceOut | dsimp only | exact True.intro | with_reducible apply outOk_ok | with_reducible apply outOk_hold | intro _ | split)
theorem wf_execAcq (a0 : Fields) (s : State) (h1 : Memory.wf s.mem = true) :
    NextOk (execAcq a0 s) := by
  unfold execAcq
  repeat' (first | with_reducible assumption | with_reducible apply wf_acqBody | with_reducible apply wf_runInstr | dsimp only | exact True.intro | with_reducible apply nextOk_next | intro _ | split)
theorem wf_relBody (a0 : Ex) (s : State) (h1 : Memory.wf s.mem = true) :
    OutOk (relBody a0 s) := by
  unfold relBody
  repeat' (first | with_reducible assumption | with_reducible apply wf_fenceOut | dsimp only | exact True.intro | with_reducible apply outOk_ok | with_reducible apply outOk_hold | intro _ | split)
theorem wf_execRel (a0 : Fields) (s : State) (h1 : Memory.wf s.mem = true) :
    NextOk (execRel a0 s) := by
  unfold execRel
  repeat' (first | with_reducible assumption | with_reducible apply wf_relBody | with_reducible apply wf_runInstr | dsimp only | exact True.intro | with_reducible apply nextOk_next | intro _ | split)
theorem wf_fenceBody (a0 : Ex) (s : State) (h1 : Memory.wf s.mem = true) :
    OutOk (fenceBody a0 s) := by
  unfold fenceBody
  repeat' (first | with_reducible assumption | with_reducible apply wf_fenceOut | dsimp only | exact True.intro | with_reducible apply outOk_ok | with_reducible apply outOk_hold | intro _ | split)
theorem wf_execFence (a0 : Fields) (s : State) (h1 : Memory.wf s.mem = true) :
    NextOk (execFence a0 s) := by
  unfold execFence
  repeat' (first | with_reducible assumption | with_reducible apply wf_fenceBody | with_reducible apply wf_runInstr | dsimp only | exact True.intro | with_reducible apply nextOk_next | intro _ | split)
theorem wf_onceWrite (s : State) (a1 : Ex) (a2 : List Val) (h0 : Memory.wf s.mem = true) :
    Memory.wf (State.onceWrite s a1 a2).mem = true := by
  unfold State.onceWrite
  repeat' (first | with_reducible assumption | with_reducible apply wf_writeDst | with_reducible apply wf_countBad | dsimp only | exact True.intro | intro _ | split)
theorem wf_waitcSees (a0 : Ex) (s : State) (h1 : Memory.wf s.mem = true) :
    Memory.wf (waitcSees a0 s).2.mem = true := by
  unfold waitcSees
  repeat' (first | with_reducible assumption | with_reducible apply wf_flatLoc | dsimp only | exact True.intro | intro _ | (split <;> (try (rename_i hq; have hq1 := congrArg Prod.snd hq; dsimp only at hq1; subst hq1))))
theorem wf_waitcOut (a0 : Ex) (s : State) (h1 : Memory.wf s.mem = true) :
    Memory.wf (waitcOut a0 s).mem = true := by
  unfold waitcOut
  repeat' (first | with_reducible assumption | with_reducible apply wf_waitcSees | with_reducible apply wf_onceWrite | with_reducible apply wf_addFence | dsimp only | exact True.intro | intro _ | split)
theorem wf_waitcBody (a0 : Ex) (s : State) (h1 : Memory.wf s.mem = true) :
    OutOk (waitcBody a0 s) := by
  unfold waitcBody
  repeat' (first | with_reducible assumption | with_reducible apply wf_waitcOut | dsimp only | exact True.intro | with_reducible apply outOk_ok | with_reducible apply outOk_hold | intro _ | split)
theorem wf_execWaitc (a0 : Fields) (s : State) (h1 : Memory.wf s.mem = true) :
    NextOk (execWaitc a0 s) := by
  unfold execWaitc
  repeat' (first | with_reducible assumption | with_reducible apply wf_waitcBody | with_reducible apply wf_runInstr | dsimp only | exact True.intro | with_reducible apply nextOk_next | intro _ | split)
theorem wf_sigcOut (a0 : Ex) (s : State) (h1 : Memory.wf s.mem = true) :
    Memory.wf (sigcOut a0 s).mem = true := by
  unfold sigcOut
  repeat' (first | with_reducible assumption | with_reducible apply wf_atomGo | with_reducible apply wf_flatLocs | dsimp only | exact True.intro | intro _ | split)
theorem wf_sigcBody (a0 : Ex) (s : State) (h1 : Memory.wf s.mem = true) :
    OutOk (sigcBody a0 s) := by
  unfold sigcBody
  repeat' (first | with_reducible assumption | with_reducible apply wf_sigcOut | dsimp only | exact True.intro | with_reducible apply outOk_ok | with_reducible apply outOk_hold | intro _ | split)
theorem wf_execSigc (a0 : Fields) (s : State) (h1 : Memory.wf s.mem = true) :
    NextOk (execSigc a0 s) := by
  unfold execSigc
  repeat' (first | with_reducible assumption | with_reducible apply wf_sigcBody | with_reducible apply wf_runInstr | dsimp only | exact True.intro | with_reducible apply nextOk_next | intro _ | split)

/-! Code. -/

theorem wf_fetchPlace (s : State) (a1 : Nat) (a2 : Byte) (a3 : Nat) (h0 : Memory.wf s.mem = true) :
    Memory.wf (State.fetchPlace s a1 a2 a3).2.mem = true := by
  unfold State.fetchPlace
  repeat' (first | with_reducible assumption | with_reducible apply wf_translate | dsimp only | exact True.intro | intro _ | (split <;> (try (rename_i hq; have hq1 := congrArg Prod.snd hq; dsimp only at hq1; subst hq1))))
theorem wf_fillLine (s : State) (a1 : Nat) (a2 : Byte) (a3 : Nat) (a4 : Nat) (a5 : Bool) (h0 : Memory.wf s.mem = true) :
    Memory.wf (State.fillLine s a1 a2 a3 a4 a5).mem = true := by
  unfold State.fillLine
  repeat' (first | with_reducible assumption | with_reducible apply wf_homeAccess | with_reducible apply wf_modCore | with_reducible apply wf_optMap | dsimp only | exact True.intro | intro _ | split)
theorem wf_fetchWord (s : State) (a1 : Nat) (a2 : Byte) (a3 : Nat) (h0 : Memory.wf s.mem = true) :
    Memory.wf (State.fetchWord s a1 a2 a3).2.mem = true := by
  unfold State.fetchWord
  repeat' (first | with_reducible assumption | with_reducible apply wf_fillLine | with_reducible apply wf_fetchPlace | with_reducible apply wf_fresh | dsimp only | exact True.intro | intro _ | (split <;> (try (rename_i hq; have hq1 := congrArg Prod.snd hq; dsimp only at hq1; subst hq1))))
theorem wf_prefLine (s : State) (a1 : Nat) (a2 : Byte) (a3 : Nat) (h0 : Memory.wf s.mem = true) :
    Memory.wf (State.prefLine s a1 a2 a3).1.mem = true := by
  unfold State.prefLine
  repeat' (first | with_reducible assumption | with_reducible apply wf_fillLine | with_reducible apply wf_fetchPlace | dsimp only | exact True.intro | intro _ | (split <;> (try (rename_i hq; have hq1 := congrArg Prod.snd hq; dsimp only at hq1; subst hq1))))
theorem wf_ipfOut (a0 : Ex) (s : State) (h1 : Memory.wf s.mem = true) :
    Memory.wf (ipfOut a0 s).mem = true := by
  unfold ipfOut
  repeat' (first | with_reducible assumption | with_reducible apply wf_prefLine | with_reducible apply wf_fetchPlace | with_reducible apply wf_homeAccess | with_reducible apply wf_foldl | with_reducible apply wf_foldl2 | with_reducible apply wf_foldl1 | with_reducible apply wf_foldl22 | dsimp only | exact True.intro | intro _ | (split <;> (try (rename_i hq; have hq1 := congrArg Prod.snd hq; dsimp only at hq1; subst hq1))))
theorem wf_ipfBody (a0 : Ex) (s : State) (h1 : Memory.wf s.mem = true) :
    OutOk (ipfBody a0 s) := by
  unfold ipfBody
  repeat' (first | with_reducible assumption | with_reducible apply wf_ipfOut | dsimp only | exact True.intro | with_reducible apply outOk_ok | with_reducible apply outOk_hold | intro _ | split)
theorem wf_execIpf (a0 : Fields) (s : State) (h1 : Memory.wf s.mem = true) :
    NextOk (execIpf a0 s) := by
  unfold execIpf
  repeat' (first | with_reducible assumption | with_reducible apply wf_ipfBody | with_reducible apply wf_runInstr | dsimp only | exact True.intro | with_reducible apply nextOk_next | intro _ | split)
theorem wf_pinLine (s : State) (a1 : Nat) (a2 : Byte) (a3 : Nat) (h0 : Memory.wf s.mem = true) :
    Memory.wf (State.pinLine s a1 a2 a3).mem = true := by
  unfold State.pinLine
  repeat' (first | with_reducible assumption | with_reducible apply wf_modCore | dsimp only | exact True.intro | intro _ | split)
theorem wf_unpinLine (s : State) (a1 : Nat) (a2 : Byte) (a3 : Nat) (h0 : Memory.wf s.mem = true) :
    Memory.wf (State.unpinLine s a1 a2 a3).mem = true := by
  unfold State.unpinLine
  repeat' (first | with_reducible assumption | with_reducible apply wf_modCore | dsimp only | exact True.intro | intro _ | split)
theorem wf_ipinOut (a0 : Ex) (s : State) (h1 : Memory.wf s.mem = true) :
    Memory.wf (ipinOut a0 s).mem = true := by
  unfold ipinOut
  repeat' (first | with_reducible assumption | with_reducible apply wf_pinLine | with_reducible apply wf_prefLine | with_reducible apply wf_onceWrite | with_reducible apply wf_modGroup | with_reducible apply wf_foldl | with_reducible apply wf_foldl2 | with_reducible apply wf_foldl1 | with_reducible apply wf_foldl22 | dsimp only | exact True.intro | intro _ | split)
theorem wf_ipinBody (a0 : Ex) (s : State) (h1 : Memory.wf s.mem = true) :
    OutOk (ipinBody a0 s) := by
  unfold ipinBody
  repeat' (first | with_reducible assumption | with_reducible apply wf_ipinOut | dsimp only | exact True.intro | with_reducible apply outOk_ok | with_reducible apply outOk_hold | intro _ | split)
theorem wf_execIpin (a0 : Fields) (s : State) (h1 : Memory.wf s.mem = true) :
    NextOk (execIpin a0 s) := by
  unfold execIpin
  repeat' (first | with_reducible assumption | with_reducible apply wf_ipinBody | with_reducible apply wf_runInstr | dsimp only | exact True.intro | with_reducible apply nextOk_next | intro _ | split)
theorem wf_unpin (s : State) (a1 : Nat) (a2 : CodeRange) (h0 : Memory.wf s.mem = true) :
    Memory.wf (State.unpin s a1 a2).mem = true := by
  unfold State.unpin
  repeat' (first | with_reducible assumption | with_reducible apply wf_unpinLine | with_reducible apply wf_modGroup | with_reducible apply wf_foldl | with_reducible apply wf_foldl2 | with_reducible apply wf_foldl1 | with_reducible apply wf_foldl22 | dsimp only | exact True.intro | intro _ | split)
theorem wf_iunpOut (a0 : Ex) (s : State) (h1 : Memory.wf s.mem = true) :
    Memory.wf (iunpOut a0 s).mem = true := by
  unfold iunpOut
  repeat' (first | with_reducible assumption | with_reducible apply wf_unpin | dsimp only | exact True.intro | intro _ | split)
theorem wf_iunpBody (a0 : Ex) (s : State) (h1 : Memory.wf s.mem = true) :
    OutOk (iunpBody a0 s) := by
  unfold iunpBody
  repeat' (first | with_reducible assumption | with_reducible apply wf_iunpOut | dsimp only | exact True.intro | with_reducible apply outOk_ok | with_reducible apply outOk_hold | intro _ | split)
theorem wf_execIunp (a0 : Fields) (s : State) (h1 : Memory.wf s.mem = true) :
    NextOk (execIunp a0 s) := by
  unfold execIunp
  repeat' (first | with_reducible assumption | with_reducible apply wf_iunpBody | with_reducible apply wf_runInstr | dsimp only | exact True.intro | with_reducible apply nextOk_next | intro _ | split)
theorem wf_refetch (s : State) (a1 : Nat) (a2 : Nat) (a3 : ILine) (h0 : Memory.wf s.mem = true) :
    Memory.wf (State.refetch s a1 a2 a3).mem = true := by
  unfold State.refetch
  repeat' (first | with_reducible assumption | with_reducible apply wf_fetchPlace | with_reducible apply wf_homeAccess | with_reducible apply wf_modCore | dsimp only | exact True.intro | intro _ | (split <;> (try (rename_i hq; have hq1 := congrArg Prod.snd hq; dsimp only at hq1; subst hq1))))
theorem wf_codeFence (s : State) (a1 : Nat) (h0 : Memory.wf s.mem = true) :
    Memory.wf (State.codeFence s a1).mem = true := by
  unfold State.codeFence
  repeat' (first | with_reducible assumption | with_reducible apply wf_refetch | with_reducible apply wf_modCore | with_reducible apply wf_foldl | with_reducible apply wf_foldl2 | with_reducible apply wf_foldl1 | with_reducible apply wf_foldl22 | dsimp only | exact True.intro | intro _ | split)
theorem wf_ifenBody (a0 : Ex) (s : State) (h1 : Memory.wf s.mem = true) :
    OutOk (ifenBody a0 s) := by
  unfold ifenBody
  repeat' (first | with_reducible assumption | with_reducible apply wf_codeFence | dsimp only | exact True.intro | with_reducible apply outOk_ok | with_reducible apply outOk_hold | intro _ | split)
theorem wf_execIfen (a0 : Fields) (s : State) (h1 : Memory.wf s.mem = true) :
    NextOk (execIfen a0 s) := by
  unfold execIfen
  repeat' (first | with_reducible assumption | with_reducible apply wf_ifenBody | with_reducible apply wf_runInstr | dsimp only | exact True.intro | with_reducible apply nextOk_next | intro _ | split)

/-! Tiles. -/

theorem wf_tileWrite (s : State) (a1 : Ex) (a2 : List TileOut) (h0 : Memory.wf s.mem = true) :
    Memory.wf (State.tileWrite s a1 a2).mem = true := by
  unfold State.tileWrite
  repeat' (first | with_reducible assumption | with_reducible apply wf_makePoison | with_reducible apply wf_setFlags | with_reducible apply wf_writeVec | with_reducible apply wf_foldl | with_reducible apply wf_foldl2 | with_reducible apply wf_foldl1 | with_reducible apply wf_foldl22 | dsimp only | exact True.intro | intro _ | (split <;> (try (rename_i hq; have hq1 := congrArg Prod.snd hq; dsimp only at hq1; subst hq1))))
theorem wf_quantOut (a0 : Bool) (a1 : Ex) (s : State) (h2 : Memory.wf s.mem = true) :
    Memory.wf (quantOut a0 a1 s).mem = true := by
  unfold quantOut
  repeat' (first | with_reducible assumption | with_reducible apply wf_tileWrite | dsimp only | exact True.intro | intro _ | split)
theorem wf_quantBody (a0 : Bool) (a1 : Ex) (s : State) (h2 : Memory.wf s.mem = true) :
    OutOk (quantBody a0 a1 s) := by
  unfold quantBody
  repeat' (first | with_reducible assumption | with_reducible apply wf_quantOut | dsimp only | exact True.intro | with_reducible apply outOk_ok | with_reducible apply outOk_hold | intro _ | split)
theorem wf_cvtqBody (a0 : Ex) (s : State) (h1 : Memory.wf s.mem = true) :
    OutOk (cvtqBody a0 s) := by
  unfold cvtqBody
  repeat' (first | with_reducible assumption | with_reducible apply wf_quantBody | dsimp only | exact True.intro | with_reducible apply outOk_ok | with_reducible apply outOk_hold | intro _ | split)
theorem wf_execCvtq (a0 : Fields) (s : State) (h1 : Memory.wf s.mem = true) :
    NextOk (execCvtq a0 s) := by
  unfold execCvtq
  repeat' (first | with_reducible assumption | with_reducible apply wf_cvtqBody | with_reducible apply wf_runInstr | dsimp only | exact True.intro | with_reducible apply nextOk_next | intro _ | split)
theorem wf_scqBody (a0 : Ex) (s : State) (h1 : Memory.wf s.mem = true) :
    OutOk (scqBody a0 s) := by
  unfold scqBody
  repeat' (first | with_reducible assumption | with_reducible apply wf_quantBody | dsimp only | exact True.intro | with_reducible apply outOk_ok | with_reducible apply outOk_hold | intro _ | split)
theorem wf_execScq (a0 : Fields) (s : State) (h1 : Memory.wf s.mem = true) :
    NextOk (execScq a0 s) := by
  unfold execScq
  repeat' (first | with_reducible assumption | with_reducible apply wf_scqBody | with_reducible apply wf_runInstr | dsimp only | exact True.intro | with_reducible apply nextOk_next | intro _ | split)
theorem wf_dqOut (a0 : Ex) (s : State) (h1 : Memory.wf s.mem = true) :
    Memory.wf (dqOut a0 s).mem = true := by
  unfold dqOut
  repeat' (first | with_reducible assumption | with_reducible apply wf_tileWrite | with_reducible apply wf_foldl | with_reducible apply wf_foldl2 | with_reducible apply wf_foldl1 | with_reducible apply wf_foldl22 | dsimp only | exact True.intro | intro _ | split)
theorem wf_dqBody (a0 : Ex) (s : State) (h1 : Memory.wf s.mem = true) :
    OutOk (dqBody a0 s) := by
  unfold dqBody
  repeat' (first | with_reducible assumption | with_reducible apply wf_dqOut | dsimp only | exact True.intro | with_reducible apply outOk_ok | with_reducible apply outOk_hold | intro _ | split)
theorem wf_execDq (a0 : Fields) (s : State) (h1 : Memory.wf s.mem = true) :
    NextOk (execDq a0 s) := by
  unfold execDq
  repeat' (first | with_reducible assumption | with_reducible apply wf_dqBody | with_reducible apply wf_runInstr | dsimp only | exact True.intro | with_reducible apply nextOk_next | intro _ | split)
theorem wf_saccOut (a0 : Ex) (s : State) (h1 : Memory.wf s.mem = true) :
    Memory.wf (saccOut a0 s).mem = true := by
  unfold saccOut
  repeat' (first | with_reducible assumption | with_reducible apply wf_tileWrite | with_reducible apply wf_foldl | with_reducible apply wf_foldl2 | with_reducible apply wf_foldl1 | with_reducible apply wf_foldl22 | dsimp only | exact True.intro | intro _ | split)
theorem wf_saccBody (a0 : Ex) (s : State) (h1 : Memory.wf s.mem = true) :
    OutOk (saccBody a0 s) := by
  unfold saccBody
  repeat' (first | with_reducible assumption | with_reducible apply wf_saccOut | dsimp only | exact True.intro | with_reducible apply outOk_ok | with_reducible apply outOk_hold | intro _ | split)
theorem wf_execSacc (a0 : Fields) (s : State) (h1 : Memory.wf s.mem = true) :
    NextOk (execSacc a0 s) := by
  unfold execSacc
  repeat' (first | with_reducible assumption | with_reducible apply wf_saccBody | with_reducible apply wf_runInstr | dsimp only | exact True.intro | with_reducible apply nextOk_next | intro _ | split)
theorem wf_ttrOut (a0 : Ex) (s : State) (h1 : Memory.wf s.mem = true) :
    Memory.wf (ttrOut a0 s).mem = true := by
  unfold ttrOut
  repeat' (first | with_reducible assumption | with_reducible apply wf_tileWrite | dsimp only | exact True.intro | intro _ | split)
theorem wf_ttrBody (a0 : Ex) (s : State) (h1 : Memory.wf s.mem = true) :
    OutOk (ttrBody a0 s) := by
  unfold ttrBody
  repeat' (first | with_reducible assumption | with_reducible apply wf_ttrOut | dsimp only | exact True.intro | with_reducible apply outOk_ok | with_reducible apply outOk_hold | intro _ | split)
theorem wf_execTtr (a0 : Fields) (s : State) (h1 : Memory.wf s.mem = true) :
    NextOk (execTtr a0 s) := by
  unfold execTtr
  repeat' (first | with_reducible assumption | with_reducible apply wf_ttrBody | with_reducible apply wf_runInstr | dsimp only | exact True.intro | with_reducible apply nextOk_next | intro _ | split)
theorem wf_xvsetOut (a0 : Ex) (s : State) (h1 : Memory.wf s.mem = true) :
    Memory.wf (xvsetOut a0 s).mem = true := by
  unfold xvsetOut
  repeat' (first | with_reducible assumption | with_reducible apply wf_irrev | with_reducible apply wf_countBad | with_reducible apply wf_modGroup | dsimp only | exact True.intro | intro _ | split)
theorem wf_xvsetBody (a0 : Ex) (s : State) (h1 : Memory.wf s.mem = true) :
    OutOk (xvsetBody a0 s) := by
  unfold xvsetBody
  repeat' (first | with_reducible assumption | with_reducible apply wf_xvsetOut | dsimp only | exact True.intro | with_reducible apply outOk_ok | with_reducible apply outOk_hold | intro _ | split)
theorem wf_execXvset (a0 : Fields) (s : State) (h1 : Memory.wf s.mem = true) :
    NextOk (execXvset a0 s) := by
  unfold execXvset
  repeat' (first | with_reducible assumption | with_reducible apply wf_xvsetBody | with_reducible apply wf_runInstr | dsimp only | exact True.intro | with_reducible apply nextOk_next | intro _ | split)
theorem wf_tilePlace (s : State) (a1 : Nat) (a2 : Byte) (a3 : Access) (a4 : Bool) (a5 : DWord) (a6 : Nat) (a7 : Option DWord) (h0 : Memory.wf s.mem = true) :
    Memory.wf (State.tilePlace s a1 a2 a3 a4 a5 a6 a7).2.mem = true := by
  unfold State.tilePlace
  repeat' (first | with_reducible assumption | with_reducible apply wf_reach | with_reducible apply wf_translate | with_reducible apply wf_foldl | with_reducible apply wf_foldl2 | with_reducible apply wf_foldl1 | with_reducible apply wf_foldl22 | with_reducible apply wf_optMap | dsimp only | exact True.intro | intro _ | (split <;> (try (rename_i hq; have hq1 := congrArg Prod.snd hq; dsimp only at hq1; subst hq1))))
theorem wf_tileReads (s : State) (a1 : Byte) (a2 : TilePlace) (a3 : Bool) (h0 : Memory.wf s.mem = true) :
    Memory.wf (State.tileReads s a1 a2 a3).mem = true := by
  unfold State.tileReads
  repeat' (first | with_reducible assumption | with_reducible apply wf_homeAccess | with_reducible apply wf_foldl | with_reducible apply wf_foldl2 | with_reducible apply wf_foldl1 | with_reducible apply wf_foldl22 | dsimp only | exact True.intro | intro _ | split)
theorem wf_tileLoadOut (a0 : Bool) (a1 : Ex) (s : State) (h2 : Memory.wf s.mem = true) :
    Memory.wf (tileLoadOut a0 a1 s).mem = true := by
  unfold tileLoadOut
  repeat' (first | with_reducible assumption | with_reducible apply wf_tileReads | with_reducible apply wf_tilePlace | with_reducible apply wf_produce | with_reducible apply wf_makePoison | with_reducible apply wf_foldl | with_reducible apply wf_foldl2 | with_reducible apply wf_foldl1 | with_reducible apply wf_foldl22 | dsimp only | exact True.intro | intro _ | (split <;> (try (rename_i hq; have hq1 := congrArg Prod.snd hq; dsimp only at hq1; subst hq1))))
theorem wf_tileLoadBody (a0 : Bool) (a1 : Ex) (s : State) (h2 : Memory.wf s.mem = true) :
    OutOk (tileLoadBody a0 a1 s) := by
  unfold tileLoadBody
  repeat' (first | with_reducible assumption | with_reducible apply wf_tileLoadOut | dsimp only | exact True.intro | with_reducible apply outOk_ok | with_reducible apply outOk_hold | intro _ | split)
theorem wf_ldtBody (a0 : Ex) (s : State) (h1 : Memory.wf s.mem = true) :
    OutOk (ldtBody a0 s) := by
  unfold ldtBody
  repeat' (first | with_reducible assumption | with_reducible apply wf_tileLoadBody | dsimp only | exact True.intro | with_reducible apply outOk_ok | with_reducible apply outOk_hold | intro _ | split)
theorem wf_execLdt (a0 : Fields) (s : State) (h1 : Memory.wf s.mem = true) :
    NextOk (execLdt a0 s) := by
  unfold execLdt
  repeat' (first | with_reducible assumption | with_reducible apply wf_ldtBody | with_reducible apply wf_runInstr | dsimp only | exact True.intro | with_reducible apply nextOk_next | intro _ | split)
theorem wf_ldacBody (a0 : Ex) (s : State) (h1 : Memory.wf s.mem = true) :
    OutOk (ldacBody a0 s) := by
  unfold ldacBody
  repeat' (first | with_reducible assumption | with_reducible apply wf_tileLoadBody | dsimp only | exact True.intro | with_reducible apply outOk_ok | with_reducible apply outOk_hold | intro _ | split)
theorem wf_execLdac (a0 : Fields) (s : State) (h1 : Memory.wf s.mem = true) :
    NextOk (execLdac a0 s) := by
  unfold execLdac
  repeat' (first | with_reducible assumption | with_reducible apply wf_ldacBody | with_reducible apply wf_runInstr | dsimp only | exact True.intro | with_reducible apply nextOk_next | intro _ | split)
theorem wf_tileEntry (s : State) (a1 : Ex) (a2 : Bool) (a3 : Bool) (a4 : DWord × Option Val) (a5 : DWord × Option Val) (a6 : Nat) (h0 : Memory.wf s.mem = true) :
    Memory.wf (State.tileEntry s a1 a2 a3 a4 a5 a6).2.mem = true := by
  unfold State.tileEntry
  repeat' (first | with_reducible assumption | with_reducible apply wf_tilePlace | dsimp only | exact True.intro | intro _ | split)
theorem wf_tileEntries (a0 : Bool) (a1 : Bool) (a2 : Ex) (s : State) (h3 : Memory.wf s.mem = true) :
    Memory.wf (tileEntries a0 a1 a2 s).2.mem = true := by
  unfold tileEntries
  repeat' (first | with_reducible assumption | with_reducible apply wf_tileEntry | with_reducible apply wf_foldl | with_reducible apply wf_foldl2 | with_reducible apply wf_foldl1 | with_reducible apply wf_foldl22 | dsimp only | exact True.intro | intro _ | (split <;> (try (rename_i hq; have hq1 := congrArg Prod.snd hq; dsimp only at hq1; subst hq1))))
theorem wf_tileStoreOut (a0 : Bool) (a1 : Ex) (s : State) (h2 : Memory.wf s.mem = true) :
    Memory.wf (tileStoreOut a0 a1 s).mem = true := by
  unfold tileStoreOut
  repeat' (first | with_reducible assumption | with_reducible apply wf_tileEntries | with_reducible apply wf_accStore | with_reducible apply wf_tileStore | with_reducible apply wf_countBad | with_reducible apply wf_makePoison | with_reducible apply wf_newId | with_reducible apply wf_modFibre | with_reducible apply wf_foldl | with_reducible apply wf_foldl2 | with_reducible apply wf_foldl1 | with_reducible apply wf_foldl22 | dsimp only | exact True.intro | intro _ | (split <;> (try (rename_i hq; have hq1 := congrArg Prod.snd hq; dsimp only at hq1; subst hq1))))
theorem wf_tileStoreBody (a0 : Bool) (a1 : Ex) (s : State) (h2 : Memory.wf s.mem = true) :
    OutOk (tileStoreBody a0 a1 s) := by
  unfold tileStoreBody
  repeat' (first | with_reducible assumption | with_reducible apply wf_tileStoreOut | dsimp only | exact True.intro | with_reducible apply outOk_ok | with_reducible apply outOk_hold | intro _ | split)
theorem wf_sttBody (a0 : Ex) (s : State) (h1 : Memory.wf s.mem = true) :
    OutOk (sttBody a0 s) := by
  unfold sttBody
  repeat' (first | with_reducible assumption | with_reducible apply wf_tileStoreBody | dsimp only | exact True.intro | with_reducible apply outOk_ok | with_reducible apply outOk_hold | intro _ | split)
theorem wf_execStt (a0 : Fields) (s : State) (h1 : Memory.wf s.mem = true) :
    NextOk (execStt a0 s) := by
  unfold execStt
  repeat' (first | with_reducible assumption | with_reducible apply wf_sttBody | with_reducible apply wf_runInstr | dsimp only | exact True.intro | with_reducible apply nextOk_next | intro _ | split)
theorem wf_stacBody (a0 : Ex) (s : State) (h1 : Memory.wf s.mem = true) :
    OutOk (stacBody a0 s) := by
  unfold stacBody
  repeat' (first | with_reducible assumption | with_reducible apply wf_tileStoreBody | dsimp only | exact True.intro | with_reducible apply outOk_ok | with_reducible apply outOk_hold | intro _ | split)
theorem wf_execStac (a0 : Fields) (s : State) (h1 : Memory.wf s.mem = true) :
    NextOk (execStac a0 s) := by
  unfold execStac
  repeat' (first | with_reducible assumption | with_reducible apply wf_stacBody | with_reducible apply wf_runInstr | dsimp only | exact True.intro | with_reducible apply nextOk_next | intro _ | split)

end Sys2Proof.Machine
end

