-- ==== Sys2Proof/Laws/CanonEngine.lean ====
section
/-! SUPPORT. Memory stays canonical (MemoryCanonical): the operations of commands, the sequencer, engines, services and transport. -/

namespace Sys2Proof.Machine

/-! Command. -/

theorem wf_descFound (s : State) (a1 : Nat) (a2 : Word) (a3 : Nat) (h0 : Memory.wf s.mem = true) :
    Memory.wf (State.descFound s a1 a2 a3).mem = true := by
  unfold State.descFound
  repeat' (first | with_reducible assumption | with_reducible apply wf_spFoundRun | dsimp only | exact True.intro | intro _ | split)
theorem wf_takeScore (s : State) (a1 : Nat) (a2 : Nat) (a3 : Byte) (a4 : Bool) (a5 : List (Range × Bool)) (h0 : Memory.wf s.mem = true) :
    Memory.wf (State.takeScore s a1 a2 a3 a4 a5).mem = true := by
  unfold State.takeScore
  repeat' (first | with_reducible assumption | with_reducible apply wf_modCore | dsimp only | exact True.intro | intro _ | split)
theorem wf_dropScore (s : State) (a1 : Nat) (a2 : Nat) (h0 : Memory.wf s.mem = true) :
    Memory.wf (State.dropScore s a1 a2).mem = true := by
  unfold State.dropScore
  repeat' (first | with_reducible assumption | with_reducible apply wf_modCore | dsimp only | exact True.intro | intro _ | split)
theorem wf_takeTag (s : State) (a1 : Nat) (h0 : Memory.wf s.mem = true) :
    Memory.wf (State.takeTag s a1).2.mem = true := by
  unfold State.takeTag
  repeat' (first | with_reducible assumption | with_reducible apply wf_modGroup | dsimp only | exact True.intro | intro _ | split)
theorem wf_acceptCmd (s : State) (a1 : Ex) (a2 : Nat) (a3 : List Byte) (a4 : Option Nat) (a5 : Bool) (a6 : Check) (a7 : List (Range × Bool)) (h0 : Memory.wf s.mem = true) :
    Memory.wf (State.acceptCmd s a1 a2 a3 a4 a5 a6 a7).2.mem = true := by
  unfold State.acceptCmd
  repeat' (first | with_reducible assumption | with_reducible apply wf_takeTag | with_reducible apply wf_takeScore | with_reducible apply wf_countBad | with_reducible apply wf_newId | dsimp only | exact True.intro | intro _ | (split <;> (try (rename_i hq; have hq1 := congrArg Prod.snd hq; dsimp only at hq1; subst hq1))))
theorem wf_modCmd (s : State) (a1 : Nat) (a2 : Cmd → Cmd) (h0 : Memory.wf s.mem = true) :
    Memory.wf (State.modCmd s a1 a2).mem = true := by
  unfold State.modCmd
  repeat' (first | with_reducible assumption | dsimp only | exact True.intro | intro _ | split)
theorem wf_fixCart (s : State) (a1 : Nat) (a2 : Nat) (a3 : Nat) (a4 : Nat) (a5 : Cart) (a6 : Cart) (h0 : Memory.wf s.mem = true) :
    Memory.wf (State.fixCart s a1 a2 a3 a4 a5 a6).mem = true := by
  unfold State.fixCart
  repeat' (first | with_reducible assumption | with_reducible apply wf_modFibre | with_reducible apply wf_optMap | dsimp only | exact True.intro | intro _ | split)
theorem wf_Xfer_fail (a0 : Xfer) (a1 : Cmd) (a2 : Val) (h0 : Memory.wf a0.s.mem = true) :
    Memory.wf (Xfer.fail a0 a1 a2).s.mem = true := by
  unfold Xfer.fail
  repeat' (first | with_reducible assumption | with_reducible apply wf_fixCart | with_reducible apply wf_addCart | dsimp only | exact True.intro | intro _ | split)
theorem wf_engBytes (s : State) (a1 : Nat) (a2 : Byte) (a3 : DWord) (a4 : Nat) (h0 : Memory.wf s.mem = true) :
    Memory.wf (State.engBytes s a1 a2 a3 a4).2.mem = true := by
  unfold State.engBytes
  repeat' (first | with_reducible assumption | with_reducible apply wf_reach | with_reducible apply wf_homeAccess | with_reducible apply wf_optMap | dsimp only | exact True.intro | intro _ | (split <;> (try (rename_i hq; have hq1 := congrArg Prod.snd hq; dsimp only at hq1; subst hq1))))
theorem wf_Xfer_memChunk (a0 : Cmd) (a1 : Byte) (a2 : Chunk) (a3 : Xfer) (h3 : Memory.wf a3.s.mem = true) :
    Memory.wf (Xfer.memChunk a0 a1 a2 a3).s.mem = true := by
  unfold Xfer.memChunk
  repeat' (first | with_reducible assumption | with_reducible apply wf_Xfer_fail | with_reducible apply wf_coreWrite | with_reducible apply wf_reach | dsimp only | exact True.intro | intro _ | (split <;> (try (rename_i hq; have hq1 := congrArg Prod.snd hq; dsimp only at hq1; subst hq1))))
theorem wf_Xfer_spChunk (a0 : Cmd) (a1 : Nat) (a2 : Bool) (a3 : Chunk) (a4 : Xfer) (h4 : Memory.wf a4.s.mem = true) :
    Memory.wf (Xfer.spChunk a0 a1 a2 a3 a4).s.mem = true := by
  unfold Xfer.spChunk
  repeat' (first | with_reducible assumption | with_reducible apply wf_Xfer_fail | with_reducible apply wf_spChanged | with_reducible apply wf_spFound | with_reducible apply wf_setSp | dsimp only | exact True.intro | intro _ | split)
theorem wf_gather (a0 : Nat) (a1 : Byte) (a2 : Nat) (a3 : List DWord) (s : State) (h4 : Memory.wf s.mem = true) :
    Memory.wf (gather a0 a1 a2 a3 s).2.mem = true := by
  unfold gather
  repeat' (first | with_reducible assumption | with_reducible apply wf_engBytes | with_reducible apply wf_foldl | with_reducible apply wf_foldl2 | with_reducible apply wf_foldl1 | with_reducible apply wf_foldl22 | with_reducible apply wf_foldlX | with_reducible apply wf_foldl2X | dsimp only | exact True.intro | intro _ | (split <;> (try (rename_i hq; have hq1 := congrArg Prod.snd hq; dsimp only at hq1; subst hq1))))
theorem wf_packed (s : State) (a1 : Cmd) (h0 : Memory.wf s.mem = true) :
    Memory.wf (State.packed s a1).2.mem = true := by
  unfold State.packed
  repeat' (first | with_reducible assumption | with_reducible apply wf_gather | dsimp only | exact True.intro | intro _ | split)
theorem wf_collElem (s : State) (a1 : Cmd) (a2 : Nat) (h0 : Memory.wf s.mem = true) :
    Memory.wf (State.collElem s a1 a2).2.mem = true := by
  unfold State.collElem
  repeat' (first | with_reducible assumption | with_reducible apply wf_gather | with_reducible apply wf_foldl | with_reducible apply wf_foldl2 | with_reducible apply wf_foldl1 | with_reducible apply wf_foldl22 | with_reducible apply wf_foldlX | with_reducible apply wf_foldl2X | dsimp only | exact True.intro | intro _ | split)
theorem wf_readElem (s : State) (a1 : Cmd) (a2 : Nat) (h0 : Memory.wf s.mem = true) :
    Memory.wf (State.readElem s a1 a2).2.mem = true := by
  unfold State.readElem
  repeat' (first | with_reducible assumption | with_reducible apply wf_collElem | with_reducible apply wf_engBytes | with_reducible apply wf_spFoundRun | dsimp only | exact True.intro | intro _ | (split <;> (try (rename_i hq; have hq1 := congrArg Prod.snd hq; dsimp only at hq1; subst hq1))))
theorem wf_readPart (s : State) (a1 : Cmd) (a2 : Nat × Nat) (h0 : Memory.wf s.mem = true) :
    Memory.wf (State.readPart s a1 a2).2.mem = true := by
  unfold State.readPart
  repeat' (first | with_reducible assumption | with_reducible apply wf_readElem | with_reducible apply wf_foldl | with_reducible apply wf_foldl2 | with_reducible apply wf_foldl1 | with_reducible apply wf_foldl22 | with_reducible apply wf_foldlX | with_reducible apply wf_foldl2X | dsimp only | exact True.intro | intro _ | (split <;> (try (rename_i hq; have hq1 := congrArg Prod.snd hq; dsimp only at hq1; subst hq1))))
theorem wf_openCmd (s : State) (a1 : Cmd) (h0 : Memory.wf s.mem = true) :
    Memory.wf (State.openCmd s a1).mem = true := by
  unfold State.openCmd
  repeat' (first | with_reducible assumption | with_reducible apply wf_packed | with_reducible apply wf_modCmd | with_reducible apply wf_wake | dsimp only | exact True.intro | intro _ | (split <;> (try (rename_i hq; have hq1 := congrArg Prod.snd hq; dsimp only at hq1; subst hq1))))
theorem wf_nextReq (s : State) (c : Cmd) (h0 : Memory.wf s.mem = true) :
    ∀ r, State.nextReq s c = some r → Memory.wf r.mem = true := by
  intro r hr
  unfold State.nextReq at hr
  dsimp only at hr
  split at hr
  · cases hr
  · cases hr; exact wf_modCmd _ _ _ h0
theorem wf_putChunk (s : State) (c : Cmd) (n : Nat) (k : Chunk) (h0 : Memory.wf s.mem = true) :
    ∀ a, State.putChunk s c n k = some a → Memory.wf a.s.mem = true := by
  intro a ha
  unfold State.putChunk at ha
  dsimp only at ha
  split at ha
  · cases ha; exact wf_Xfer_spChunk _ _ _ _ _ h0
  · split at ha
    · split at ha
      · cases ha; exact wf_Xfer_memChunk _ _ _ _ h0
      · cases ha
    · cases ha; exact wf_Xfer_memChunk _ _ _ _ h0
theorem wf_cmdPart (s : State) (c : Cmd) (b : Bool) (h0 : Memory.wf s.mem = true) :
    ∀ r, State.cmdPart s c b = some r → Memory.wf r.mem = true := by
  intro r hr
  unfold State.cmdPart at hr
  dsimp only at hr
  generalize List.filter _ c.left = ok at hr
  cases ok with
  | nil => cases hr
  | cons h t =>
    dsimp only at hr
    generalize (List.find? _ _).getD h = iv at hr
    obtain ⟨a, ha, rfl⟩ := Option.map_eq_some_iff.mp hr
    exact wf_wake _ (wf_modCmd _ _ _ (wf_putChunk _ _ _ _ (wf_readPart _ _ _ (wf_fresh _ h0)) _ ha))
theorem wf_orElse (a : Option State) (b : Unit → Option State) (ha : ∀ r, a = some r → Memory.wf r.mem = true)
    (hb : ∀ r, b () = some r → Memory.wf r.mem = true) : ∀ r, a.orElse b = some r → Memory.wf r.mem = true := by
  intro r hr
  cases a with
  | none => exact hb r hr
  | some t => exact ha r hr
theorem wf_cmdGo (s : State) (id : Nat) (h0 : Memory.wf s.mem = true) :
    ∀ r, State.cmdGo s id = some r → Memory.wf r.mem = true := by
  intro r hr
  unfold State.cmdGo at hr
  split at hr
  · cases hr
  · split at hr
    · cases hr
    · have h1 := wf_fresh s h0
      dsimp only at hr
      split at hr
      · exact wf_orElse _ _ (wf_nextReq _ _ h1) (wf_cmdPart _ _ _ h1) _ hr
      · exact wf_orElse _ _ (wf_cmdPart _ _ _ h1) (wf_nextReq _ _ h1) _ hr
theorem wf_cmdRun (s : State) (id n : Nat) (h0 : Memory.wf s.mem = true) : Memory.wf (State.cmdRun s id n).mem = true := by
  induction n generalizing s with
  | zero => exact h0
  | succ n ih =>
    unfold State.cmdRun
    split
    · exact h0
    · split
      · next t ht => exact ih _ (wf_orElse _ _ (wf_nextReq _ _ h0) (wf_cmdPart _ _ _ h0) _ ht)
      · exact h0
theorem wf_deferAct (s : State) (a1 : Nat) (a2 : Action) (h0 : Memory.wf s.mem = true) :
    Memory.wf (State.deferAct s a1 a2).mem = true := by
  unfold State.deferAct
  repeat' (first | with_reducible assumption | dsimp only | exact True.intro | intro _ | split)
theorem wf_actFail (s : State) (a1 : Nat) (a2 : Nat) (a3 : Nat) (a4 : DWord) (a5 : Nat) (a6 : DWord) (a7 : Nat) (h0 : Memory.wf s.mem = true) :
    Memory.wf (State.actFail s a1 a2 a3 a4 a5 a6 a7).mem = true := by
  unfold State.actFail
  repeat' (first | with_reducible assumption | with_reducible apply wf_failGroup | with_reducible apply wf_addCart | with_reducible apply wf_modFibre | dsimp only | exact True.intro | intro _ | split)
theorem wf_addWords (s : State) (a1 : Nat) (a2 : Writer) (a3 : Nat) (a4 : Nat) (h0 : Memory.wf s.mem = true) :
    Memory.wf (State.addWords s a1 a2 a3 a4).mem = true := by
  unfold State.addWords
  repeat' (first | with_reducible assumption | with_reducible apply wf_coreWrite | with_reducible apply wf_fixReads | with_reducible apply wf_setL1 | dsimp only | exact True.intro | intro _ | split)
theorem wf_spadRefused (s : State) (a1 : Nat) (a2 : Nat) (a3 : Nat) (a4 : DWord) (a5 : Word) (h0 : Memory.wf s.mem = true) :
    Memory.wf (State.spadRefused s a1 a2 a3 a4 a5).mem = true := by
  unfold State.spadRefused
  repeat' (first | with_reducible assumption | with_reducible apply wf_countBad | dsimp only | exact True.intro | intro _ | split)
theorem wf_doAct (s : State) (a1 : Nat) (a2 : Nat) (a3 : Nat) (a4 : Nat) (a5 : DWord) (a6 : Nat) (a7 : Act) (h0 : Memory.wf s.mem = true) :
    Memory.wf (State.doAct s a1 a2 a3 a4 a5 a6 a7).mem = true := by
  unfold State.doAct
  repeat' (first | with_reducible assumption | with_reducible apply wf_spadRefused | with_reducible apply wf_addWords | with_reducible apply wf_actFail | with_reducible apply wf_deferAct | with_reducible apply wf_spChanged | with_reducible apply wf_setSp | with_reducible apply wf_reach | with_reducible apply wf_flush | with_reducible apply wf_barOp | with_reducible apply wf_newId | dsimp only | exact True.intro | intro _ | (split <;> (try (rename_i hq; have hq1 := congrArg Prod.snd hq; dsimp only at hq1; subst hq1))))
theorem wf_kernelEnd (s : State) (a1 : Cmd) (h0 : Memory.wf s.mem = true) :
    Memory.wf (State.kernelEnd s a1).mem = true := by
  unfold State.kernelEnd
  repeat' (first | with_reducible assumption | dsimp only | exact True.intro | intro _ | split)
theorem wf_retireCmd (s : State) (a1 : Cmd) (h0 : Memory.wf s.mem = true) :
    Memory.wf (State.retireCmd s a1).mem = true := by
  unfold State.retireCmd
  repeat' (first | with_reducible assumption | with_reducible apply wf_kernelEnd | with_reducible apply wf_dropScore | with_reducible apply wf_wake | dsimp only | exact True.intro | intro _ | (split <;> (try (rename_i hq; have hq1 := congrArg Prod.snd hq; dsimp only at hq1; subst hq1))))

/-! Matrix. -/

theorem wf_modSeq (s : State) (a1 : Nat) (a2 : Seq → Seq) (h0 : Memory.wf s.mem = true) :
    Memory.wf (State.modSeq s a1 a2).mem = true := by
  unfold State.modSeq
  repeat' (first | with_reducible assumption | with_reducible apply wf_modGroup | dsimp only | exact True.intro | intro _ | split)
theorem wf_seqStop (s : State) (a1 : Nat) (h0 : Memory.wf s.mem = true) :
    Memory.wf (State.seqStop s a1).mem = true := by
  unfold State.seqStop
  repeat' (first | with_reducible assumption | with_reducible apply wf_modSeq | with_reducible apply wf_flush | with_reducible apply wf_leave | dsimp only | exact True.intro | intro _ | split)
theorem wf_haltSeq (s : State) (a1 : Nat) (a2 : Nat) (h0 : Memory.wf s.mem = true) :
    Memory.wf (State.haltSeq s a1 a2).mem = true := by
  unfold State.haltSeq
  repeat' (first | with_reducible assumption | with_reducible apply wf_seqStop | with_reducible apply wf_modSeq | with_reducible apply wf_wake | with_reducible apply wf_failGroup | dsimp only | exact True.intro | intro _ | (split <;> (try (rename_i hq; have hq1 := congrArg Prod.snd hq; dsimp only at hq1; subst hq1))))
theorem wf_runStream (words : Nat) (f : SFields) (body : Nat → SFields → State → SOut) (s : State) (h0 : Memory.wf s.mem = true)
    (hb : ∀ g f s, Memory.wf s.mem = true → SOutOk (body g f s)) : NextOk (runStream words f body s) := by
  unfold runStream
  split
  · next g _ =>
    have h1 := hb g f s h0
    split
    · exact h0
    · exact wf_haltSeq _ _ _ h0
    · next t j ht => rw [ht] at h1; exact wf_modSeq _ _ _ h1
  · exact True.intro
theorem wf_aSeen (s : State) (a1 : Nat) (a2 : MatrixOp) (a3 : List Nat) (h0 : Memory.wf s.mem = true) :
    Memory.wf (State.aSeen s a1 a2 a3).mem = true := by
  unfold State.aSeen
  repeat' (first | with_reducible assumption | with_reducible apply wf_spFoundRun | with_reducible apply wf_foldl | with_reducible apply wf_foldl2 | with_reducible apply wf_foldl1 | with_reducible apply wf_foldl22 | dsimp only | exact True.intro | intro _ | split)
theorem wf_readStep (s : State) (a1 : Nat) (a2 : MatrixOp) (h0 : Memory.wf s.mem = true) :
    Memory.wf (State.readStep s a1 a2).2.mem = true := by
  unfold State.readStep
  repeat' (first | with_reducible assumption | with_reducible apply wf_aSeen | with_reducible apply wf_poisonOnce | with_reducible apply wf_optMap | dsimp only | exact True.intro | intro _ | split)
theorem wf_readPrior (s : State) (a1 : Nat) (a2 : MatrixOp) (a3 : Nat) (h0 : Memory.wf s.mem = true) :
    Memory.wf (State.readPrior s a1 a2 a3).2.mem = true := by
  unfold State.readPrior
  repeat' (first | with_reducible assumption | with_reducible apply wf_optMap | dsimp only | exact True.intro | intro _ | split)
theorem wf_putTile (s : State) (a1 : Nat) (a2 : Nat) (a3 : Nat) (a4 : Bool) (a5 : List MatrixOp) (a6 : List RegWord) (h0 : Memory.wf s.mem = true) :
    Memory.wf (State.putTile s a1 a2 a3 a4 a5 a6).mem = true := by
  unfold State.putTile
  repeat' (first | with_reducible assumption | with_reducible apply wf_setReg | with_reducible apply wf_foldl | with_reducible apply wf_foldl2 | with_reducible apply wf_foldl1 | with_reducible apply wf_foldl22 | dsimp only | exact True.intro | intro _ | (split <;> (try (rename_i hq; have hq1 := congrArg Prod.snd hq; dsimp only at hq1; subst hq1))))
theorem wf_matrixUnit (s : State) (a1 : Nat) (a2 : MatrixOp) (a3 : List MatrixOp) (h0 : Memory.wf s.mem = true) :
    Memory.wf (State.matrixUnit s a1 a2 a3).mem = true := by
  unfold State.matrixUnit
  repeat' (first | with_reducible assumption | with_reducible apply wf_putTile | with_reducible apply wf_readPrior | with_reducible apply wf_readStep | with_reducible apply wf_modSeq | with_reducible apply wf_undriftOp | with_reducible apply wf_optMap | dsimp only | exact True.intro | intro _ | (split <;> (try (rename_i hq; have hq1 := congrArg Prod.snd hq; dsimp only at hq1; subst hq1))))
theorem wf_tokenBack (s : State) (a1 : Nat) (h0 : Memory.wf s.mem = true) :
    Memory.wf (State.tokenBack s a1).mem = true := by
  unfold State.tokenBack
  repeat' (first | with_reducible assumption | with_reducible apply wf_modCore | dsimp only | exact True.intro | intro _ | split)
theorem wf_matrixGo (s : State) (a1 : Nat) (h0 : Memory.wf s.mem = true) :
    Memory.wf (State.matrixGo s a1).mem = true := by
  unfold State.matrixGo
  repeat' (first | with_reducible assumption | with_reducible apply wf_tokenBack | with_reducible apply wf_matrixUnit | with_reducible apply wf_modCore | dsimp only | exact True.intro | intro _ | split)
theorem wf_matrixRun (s : State) (g k n : Nat) (h0 : Memory.wf s.mem = true) : Memory.wf (State.matrixRun s g k n).mem = true := by
  induction n generalizing s with
  | zero => exact h0
  | succ n ih =>
    unfold State.matrixRun
    split
    · exact h0
    · split
      · exact ih _ (wf_matrixGo _ _ h0)
      · split
        · split
          · exact ih _ (wf_matrixGo _ _ h0)
          · exact h0
        · exact h0
theorem wf_askToken (s : State) (a1 : Nat) (h0 : Memory.wf s.mem = true) :
    Memory.wf (State.askToken s a1).mem = true := by
  unfold State.askToken
  repeat' (first | with_reducible assumption | with_reducible apply wf_modCore | dsimp only | exact True.intro | intro _ | split)
theorem wf_issueOp (s : State) (a1 : Nat) (a2 : MatrixOp) (h0 : Memory.wf s.mem = true) :
    Memory.wf (State.issueOp s a1 a2).mem = true := by
  unfold State.issueOp
  repeat' (first | with_reducible assumption | with_reducible apply wf_askToken | with_reducible apply wf_modSeq | with_reducible apply wf_setReg | with_reducible apply wf_newId | with_reducible apply wf_foldl | with_reducible apply wf_foldl2 | with_reducible apply wf_foldl1 | with_reducible apply wf_foldl22 | dsimp only | exact True.intro | intro _ | (split <;> (try (rename_i hq; have hq1 := congrArg Prod.snd hq; dsimp only at hq1; subst hq1))))
theorem wf_issueMatrix (s : State) (a1 : Nat) (a2 : MatrixOp) (h0 : Memory.wf s.mem = true) :
    Memory.wf (State.issueMatrix s a1 a2).mem = true := by
  unfold State.issueMatrix
  repeat' (first | with_reducible assumption | with_reducible apply wf_issueOp | with_reducible apply wf_aSeen | with_reducible apply wf_undrift | dsimp only | exact True.intro | intro _ | split)
theorem wf_matrixBody (a0 : Bool) (a1 : Nat) (a2 : SFields) (s : State) (h3 : Memory.wf s.mem = true) :
    SOutOk (matrixBody a0 a1 a2 s) := by
  unfold matrixBody
  repeat' (first | with_reducible assumption | with_reducible apply wf_issueMatrix | dsimp only | exact True.intro | with_reducible apply sOutOk_ok | intro _ | split)
theorem wf_mmaBody (a0 : Nat) (a1 : SFields) (s : State) (h2 : Memory.wf s.mem = true) :
    SOutOk (mmaBody a0 a1 s) := by
  unfold mmaBody
  repeat' (first | with_reducible assumption | with_reducible apply wf_matrixBody | dsimp only | exact True.intro | with_reducible apply sOutOk_ok | intro _ | split)
theorem wf_execMma (a0 : SFields) (s : State) (h1 : Memory.wf s.mem = true) :
    NextOk (execMma a0 s) := by
  unfold execMma
  repeat' (first | with_reducible assumption | with_reducible apply wf_mmaBody | with_reducible apply wf_runStream | dsimp only | exact True.intro | with_reducible apply nextOk_next | intro _ | split)
theorem wf_mmsBody (a0 : Nat) (a1 : SFields) (s : State) (h2 : Memory.wf s.mem = true) :
    SOutOk (mmsBody a0 a1 s) := by
  unfold mmsBody
  repeat' (first | with_reducible assumption | with_reducible apply wf_matrixBody | dsimp only | exact True.intro | with_reducible apply sOutOk_ok | intro _ | split)
theorem wf_execMms (a0 : SFields) (s : State) (h1 : Memory.wf s.mem = true) :
    NextOk (execMms a0 s) := by
  unfold execMms
  repeat' (first | with_reducible assumption | with_reducible apply wf_mmsBody | with_reducible apply wf_runStream | dsimp only | exact True.intro | with_reducible apply nextOk_next | intro _ | split)
theorem wf_aczBody (a0 : Nat) (a1 : SFields) (s : State) (h2 : Memory.wf s.mem = true) :
    SOutOk (aczBody a0 a1 s) := by
  unfold aczBody
  repeat' (first | with_reducible assumption | with_reducible apply wf_issueOp | dsimp only | exact True.intro | with_reducible apply sOutOk_ok | intro _ | split)
theorem wf_execAcz (a0 : SFields) (s : State) (h1 : Memory.wf s.mem = true) :
    NextOk (execAcz a0 s) := by
  unfold execAcz
  repeat' (first | with_reducible assumption | with_reducible apply wf_aczBody | with_reducible apply wf_runStream | dsimp only | exact True.intro | with_reducible apply nextOk_next | intro _ | split)
theorem wf_bldFill (s : State) (a1 : Nat) (a2 : Seq) (a3 : List Byte) (a4 : Word) (h0 : Memory.wf s.mem = true) :
    Memory.wf (State.bldFill s a1 a2 a3 a4).2.mem = true := by
  unfold State.bldFill
  repeat' (first | with_reducible assumption | with_reducible apply wf_tileReads | with_reducible apply wf_tilePlace | with_reducible apply wf_makePoison | with_reducible apply wf_foldl | with_reducible apply wf_foldl2 | with_reducible apply wf_foldl1 | with_reducible apply wf_foldl22 | dsimp only | exact True.intro | intro _ | (split <;> (try (rename_i hq; have hq1 := congrArg Prod.snd hq; dsimp only at hq1; subst hq1))))
theorem wf_bldOut (s : State) (a1 : Nat) (a2 : SFields) (h0 : Memory.wf s.mem = true) :
    Memory.wf (State.bldOut s a1 a2).mem = true := by
  unfold State.bldOut
  repeat' (first | with_reducible assumption | with_reducible apply wf_bldFill | with_reducible apply wf_modSeq | dsimp only | exact True.intro | intro _ | split)
theorem wf_bldBody (a0 : Nat) (a1 : SFields) (s : State) (h2 : Memory.wf s.mem = true) :
    SOutOk (bldBody a0 a1 s) := by
  unfold bldBody
  repeat' (first | with_reducible assumption | with_reducible apply wf_bldOut | with_reducible apply wf_descFound | dsimp only | exact True.intro | with_reducible apply sOutOk_ok | intro _ | split)
theorem wf_execBld (a0 : SFields) (s : State) (h1 : Memory.wf s.mem = true) :
    NextOk (execBld a0 s) := by
  unfold execBld
  repeat' (first | with_reducible assumption | with_reducible apply wf_bldBody | with_reducible apply wf_runStream | dsimp only | exact True.intro | with_reducible apply nextOk_next | intro _ | split)
theorem wf_sqwBody (a0 : Nat) (a1 : SFields) (s : State) (h2 : Memory.wf s.mem = true) :
    SOutOk (sqwBody a0 a1 s) := by
  unfold sqwBody
  repeat' (first | with_reducible assumption | dsimp only | exact True.intro | with_reducible apply sOutOk_ok | intro _ | split)
theorem wf_execSqw (a0 : SFields) (s : State) (h1 : Memory.wf s.mem = true) :
    NextOk (execSqw a0 s) := by
  unfold execSqw
  repeat' (first | with_reducible assumption | with_reducible apply wf_sqwBody | with_reducible apply wf_runStream | dsimp only | exact True.intro | with_reducible apply nextOk_next | intro _ | split)
theorem wf_sqaOut (s : State) (a1 : Nat) (a2 : SFields) (h0 : Memory.wf s.mem = true) :
    Memory.wf (State.sqaOut s a1 a2).mem = true := by
  unfold State.sqaOut
  repeat' (first | with_reducible assumption | with_reducible apply wf_flush | with_reducible apply wf_barOp | dsimp only | exact True.intro | intro _ | split)
theorem wf_sqaBody (a0 : Nat) (a1 : SFields) (s : State) (h2 : Memory.wf s.mem = true) :
    SOutOk (sqaBody a0 a1 s) := by
  unfold sqaBody
  repeat' (first | with_reducible assumption | with_reducible apply wf_sqaOut | dsimp only | exact True.intro | with_reducible apply sOutOk_ok | intro _ | split)
theorem wf_execSqa (a0 : SFields) (s : State) (h1 : Memory.wf s.mem = true) :
    NextOk (execSqa a0 s) := by
  unfold execSqa
  repeat' (first | with_reducible assumption | with_reducible apply wf_sqaBody | with_reducible apply wf_runStream | dsimp only | exact True.intro | with_reducible apply nextOk_next | intro _ | split)
theorem wf_sqlpOut (s : State) (a1 : Nat) (a2 : SFields) (h0 : Memory.wf s.mem = true) :
    Memory.wf (State.sqlpOut s a1 a2).mem = true := by
  unfold State.sqlpOut
  repeat' (first | with_reducible assumption | with_reducible apply wf_modSeq | dsimp only | exact True.intro | intro _ | split)
theorem wf_sqlpBody (a0 : Nat) (a1 : SFields) (s : State) (h2 : Memory.wf s.mem = true) :
    SOutOk (sqlpBody a0 a1 s) := by
  unfold sqlpBody
  repeat' (first | with_reducible assumption | with_reducible apply wf_sqlpOut | dsimp only | exact True.intro | with_reducible apply sOutOk_ok | intro _ | split)
theorem wf_execSqlp (a0 : SFields) (s : State) (h1 : Memory.wf s.mem = true) :
    NextOk (execSqlp a0 s) := by
  unfold execSqlp
  repeat' (first | with_reducible assumption | with_reducible apply wf_sqlpBody | with_reducible apply wf_runStream | dsimp only | exact True.intro | with_reducible apply nextOk_next | intro _ | split)
theorem wf_sqeBody (a0 : Nat) (a1 : SFields) (s : State) (h2 : Memory.wf s.mem = true) :
    SOutOk (sqeBody a0 a1 s) := by
  unfold sqeBody
  repeat' (first | with_reducible assumption | with_reducible apply wf_seqStop | with_reducible apply wf_modSeq | dsimp only | exact True.intro | with_reducible apply sOutOk_ok | intro _ | split)
theorem wf_execSqe (a0 : SFields) (s : State) (h1 : Memory.wf s.mem = true) :
    NextOk (execSqe a0 s) := by
  unfold execSqe
  repeat' (first | with_reducible assumption | with_reducible apply wf_sqeBody | with_reducible apply wf_runStream | dsimp only | exact True.intro | with_reducible apply nextOk_next | intro _ | split)
theorem wf_mseqOut (a0 : Ex) (s : State) (h1 : Memory.wf s.mem = true) :
    Memory.wf (mseqOut a0 s).mem = true := by
  unfold mseqOut
  repeat' (first | with_reducible assumption | with_reducible apply wf_modSeq | with_reducible apply wf_onceWrite | with_reducible apply wf_irrev | dsimp only | exact True.intro | intro _ | (split <;> (try (rename_i hq; have hq1 := congrArg Prod.snd hq; dsimp only at hq1; subst hq1))))
theorem wf_mseqBody (a0 : Ex) (s : State) (h1 : Memory.wf s.mem = true) :
    OutOk (mseqBody a0 s) := by
  unfold mseqBody
  repeat' (first | with_reducible assumption | with_reducible apply wf_mseqOut | dsimp only | exact True.intro | with_reducible apply outOk_ok | with_reducible apply outOk_hold | intro _ | split)
theorem wf_execMseq (a0 : Fields) (s : State) (h1 : Memory.wf s.mem = true) :
    NextOk (execMseq a0 s) := by
  unfold execMseq
  repeat' (first | with_reducible assumption | with_reducible apply wf_mseqBody | with_reducible apply wf_runInstr | dsimp only | exact True.intro | with_reducible apply nextOk_next | intro _ | split)
theorem wf_setOprf (s : State) (a1 : Ex) (a2 : List Nat) (h0 : Memory.wf s.mem = true) :
    Memory.wf (State.setOprf s a1 a2).mem = true := by
  unfold State.setOprf
  repeat' (first | with_reducible assumption | with_reducible apply wf_modFibre | dsimp only | exact True.intro | intro _ | split)
theorem wf_oprfOut (a0 : Ex) (s : State) (h1 : Memory.wf s.mem = true) :
    Memory.wf (oprfOut a0 s).mem = true := by
  unfold oprfOut
  repeat' (first | with_reducible assumption | with_reducible apply wf_modFibre | dsimp only | exact True.intro | intro _ | split)
theorem wf_oprfBody (a0 : Ex) (s : State) (h1 : Memory.wf s.mem = true) :
    OutOk (oprfBody a0 s) := by
  unfold oprfBody
  repeat' (first | with_reducible assumption | with_reducible apply wf_oprfOut | with_reducible apply wf_setOprf | dsimp only | exact True.intro | with_reducible apply outOk_ok | with_reducible apply outOk_hold | intro _ | split)
theorem wf_execOprf (a0 : Fields) (s : State) (h1 : Memory.wf s.mem = true) :
    NextOk (execOprf a0 s) := by
  unfold execOprf
  repeat' (first | with_reducible assumption | with_reducible apply wf_oprfBody | with_reducible apply wf_runInstr | dsimp only | exact True.intro | with_reducible apply nextOk_next | intro _ | split)
theorem wf_mstqOut (a0 : Ex) (s : State) (h1 : Memory.wf s.mem = true) :
    Memory.wf (mstqOut a0 s).mem = true := by
  unfold mstqOut
  repeat' (first | with_reducible assumption | with_reducible apply wf_modSeq | with_reducible apply wf_onceWrite | with_reducible apply wf_flagEx | dsimp only | exact True.intro | intro _ | (split <;> (try (rename_i hq; have hq1 := congrArg Prod.snd hq; dsimp only at hq1; subst hq1))))
theorem wf_mstqBody (a0 : Ex) (s : State) (h1 : Memory.wf s.mem = true) :
    OutOk (mstqBody a0 s) := by
  unfold mstqBody
  repeat' (first | with_reducible assumption | with_reducible apply wf_mstqOut | dsimp only | exact True.intro | with_reducible apply outOk_ok | with_reducible apply outOk_hold | intro _ | split)
theorem wf_execMstq (a0 : Fields) (s : State) (h1 : Memory.wf s.mem = true) :
    NextOk (execMstq a0 s) := by
  unfold execMstq
  repeat' (first | with_reducible assumption | with_reducible apply wf_mstqBody | with_reducible apply wf_runInstr | dsimp only | exact True.intro | with_reducible apply nextOk_next | intro _ | split)

/-! Engines. -/

theorem wf_orderOut (a0 : Order) (a1 : Ex) (s : State) (h2 : Memory.wf s.mem = true) :
    Memory.wf (orderOut a0 a1 s).mem = true := by
  unfold orderOut
  repeat' (first | with_reducible assumption | with_reducible apply wf_acceptCmd | with_reducible apply wf_onceWrite | with_reducible apply wf_irrev | dsimp only | exact True.intro | intro _ | split)
theorem wf_orderBody (a0 : Order) (a1 : Ex) (s : State) (h2 : Memory.wf s.mem = true) :
    OutOk (orderBody a0 a1 s) := by
  unfold orderBody
  repeat' (first | with_reducible assumption | with_reducible apply wf_orderOut | dsimp only | exact True.intro | with_reducible apply outOk_ok | with_reducible apply outOk_hold | intro _ | split)
theorem wf_descSeen (a0 : Ex) (a1 : Val) (a2 : Nat) (s : State) (h3 : Memory.wf s.mem = true) :
    Memory.wf (descSeen a0 a1 a2 s).mem = true := by
  unfold descSeen
  repeat' (first | with_reducible assumption | with_reducible apply wf_descFound | dsimp only | exact True.intro | intro _ | split)
theorem wf_copyBody (a0 : Ex) (s : State) (h1 : Memory.wf s.mem = true) :
    OutOk (copyBody a0 s) := by
  unfold copyBody
  repeat' (first | with_reducible assumption | with_reducible apply wf_descSeen | with_reducible apply wf_orderBody | dsimp only | exact True.intro | with_reducible apply outOk_ok | with_reducible apply outOk_hold | intro _ | split)
theorem wf_execCopy (a0 : Fields) (s : State) (h1 : Memory.wf s.mem = true) :
    NextOk (execCopy a0 s) := by
  unfold execCopy
  repeat' (first | with_reducible assumption | with_reducible apply wf_copyBody | with_reducible apply wf_runInstr | dsimp only | exact True.intro | with_reducible apply nextOk_next | intro _ | split)
theorem wf_copyUBody (a0 : Ex) (s : State) (h1 : Memory.wf s.mem = true) :
    OutOk (copyUBody a0 s) := by
  unfold copyUBody
  repeat' (first | with_reducible assumption | with_reducible apply wf_orderBody | dsimp only | exact True.intro | with_reducible apply outOk_ok | with_reducible apply outOk_hold | intro _ | split)
theorem wf_execCopyU (a0 : Fields) (s : State) (h1 : Memory.wf s.mem = true) :
    NextOk (execCopyU a0 s) := by
  unfold execCopyU
  repeat' (first | with_reducible assumption | with_reducible apply wf_copyUBody | with_reducible apply wf_runInstr | dsimp only | exact True.intro | with_reducible apply nextOk_next | intro _ | split)
theorem wf_cchnBody (a0 : Ex) (s : State) (h1 : Memory.wf s.mem = true) :
    OutOk (cchnBody a0 s) := by
  unfold cchnBody
  repeat' (first | with_reducible assumption | with_reducible apply wf_descSeen | with_reducible apply wf_orderBody | dsimp only | exact True.intro | with_reducible apply outOk_ok | with_reducible apply outOk_hold | intro _ | split)
theorem wf_execCchn (a0 : Fields) (s : State) (h1 : Memory.wf s.mem = true) :
    NextOk (execCchn a0 s) := by
  unfold execCchn
  repeat' (first | with_reducible assumption | with_reducible apply wf_cchnBody | with_reducible apply wf_runInstr | dsimp only | exact True.intro | with_reducible apply nextOk_next | intro _ | split)
theorem wf_ecmdBody (a0 : Ex) (s : State) (h1 : Memory.wf s.mem = true) :
    OutOk (ecmdBody a0 s) := by
  unfold ecmdBody
  repeat' (first | with_reducible assumption | with_reducible apply wf_descSeen | with_reducible apply wf_orderBody | dsimp only | exact True.intro | with_reducible apply outOk_ok | with_reducible apply outOk_hold | intro _ | split)
theorem wf_execEcmd (a0 : Fields) (s : State) (h1 : Memory.wf s.mem = true) :
    NextOk (execEcmd a0 s) := by
  unfold execEcmd
  repeat' (first | with_reducible assumption | with_reducible apply wf_ecmdBody | with_reducible apply wf_runInstr | dsimp only | exact True.intro | with_reducible apply nextOk_next | intro _ | split)
theorem wf_sbqBody (a0 : Ex) (s : State) (h1 : Memory.wf s.mem = true) :
    OutOk (sbqBody a0 s) := by
  unfold sbqBody
  repeat' (first | with_reducible assumption | with_reducible apply wf_onceWrite | dsimp only | exact True.intro | with_reducible apply outOk_ok | with_reducible apply outOk_hold | intro _ | split)
theorem wf_execSbq (a0 : Fields) (s : State) (h1 : Memory.wf s.mem = true) :
    NextOk (execSbq a0 s) := by
  unfold execSbq
  repeat' (first | with_reducible assumption | with_reducible apply wf_sbqBody | with_reducible apply wf_runInstr | dsimp only | exact True.intro | with_reducible apply nextOk_next | intro _ | split)
theorem wf_countOnce (s : State) (a1 : Ex) (a2 : Val) (h0 : Memory.wf s.mem = true) :
    Memory.wf (State.countOnce s a1 a2).mem = true := by
  unfold State.countOnce
  repeat' (first | with_reducible assumption | with_reducible apply wf_countBad | dsimp only | exact True.intro | intro _ | split)
theorem wf_apstOut (a0 : Ex) (s : State) (h1 : Memory.wf s.mem = true) :
    Memory.wf (apstOut a0 s).mem = true := by
  unfold apstOut
  repeat' (first | with_reducible assumption | with_reducible apply wf_countOnce | with_reducible apply wf_modAp | with_reducible apply wf_makePoison | dsimp only | exact True.intro | intro _ | (split <;> (try (rename_i hq; have hq1 := congrArg Prod.snd hq; dsimp only at hq1; subst hq1))))
theorem wf_apstBody (a0 : Ex) (s : State) (h1 : Memory.wf s.mem = true) :
    OutOk (apstBody a0 s) := by
  unfold apstBody
  repeat' (first | with_reducible assumption | with_reducible apply wf_apstOut | dsimp only | exact True.intro | with_reducible apply outOk_ok | with_reducible apply outOk_hold | intro _ | split)
theorem wf_execApst (a0 : Fields) (s : State) (h1 : Memory.wf s.mem = true) :
    NextOk (execApst a0 s) := by
  unfold execApst
  repeat' (first | with_reducible assumption | with_reducible apply wf_apstBody | with_reducible apply wf_runInstr | dsimp only | exact True.intro | with_reducible apply nextOk_next | intro _ | split)
theorem wf_apstGoOut (a0 : Ex) (s : State) (h1 : Memory.wf s.mem = true) :
    Memory.wf (apstGoOut a0 s).mem = true := by
  unfold apstGoOut
  repeat' (first | with_reducible assumption | with_reducible apply wf_countOnce | with_reducible apply wf_irrev | with_reducible apply wf_modAp | dsimp only | exact True.intro | intro _ | split)
theorem wf_apstGoBody (a0 : Ex) (s : State) (h1 : Memory.wf s.mem = true) :
    OutOk (apstGoBody a0 s) := by
  unfold apstGoBody
  repeat' (first | with_reducible assumption | with_reducible apply wf_apstGoOut | dsimp only | exact True.intro | with_reducible apply outOk_ok | with_reducible apply outOk_hold | intro _ | split)
theorem wf_execApstGo (a0 : Fields) (s : State) (h1 : Memory.wf s.mem = true) :
    NextOk (execApstGo a0 s) := by
  unfold execApstGo
  repeat' (first | with_reducible assumption | with_reducible apply wf_apstGoBody | with_reducible apply wf_runInstr | dsimp only | exact True.intro | with_reducible apply nextOk_next | intro _ | split)
theorem wf_apspOut (a0 : Ex) (s : State) (h1 : Memory.wf s.mem = true) :
    Memory.wf (apspOut a0 s).mem = true := by
  unfold apspOut
  repeat' (first | with_reducible assumption | with_reducible apply wf_countOnce | with_reducible apply wf_modAp | dsimp only | exact True.intro | intro _ | split)
theorem wf_apspBody (a0 : Ex) (s : State) (h1 : Memory.wf s.mem = true) :
    OutOk (apspBody a0 s) := by
  unfold apspBody
  repeat' (first | with_reducible assumption | with_reducible apply wf_apspOut | dsimp only | exact True.intro | with_reducible apply outOk_ok | with_reducible apply outOk_hold | intro _ | split)
theorem wf_execApsp (a0 : Fields) (s : State) (h1 : Memory.wf s.mem = true) :
    NextOk (execApsp a0 s) := by
  unfold execApsp
  repeat' (first | with_reducible assumption | with_reducible apply wf_apspBody | with_reducible apply wf_runInstr | dsimp only | exact True.intro | with_reducible apply nextOk_next | intro _ | split)
theorem wf_qmapOut (a0 : Ex) (s : State) (h1 : Memory.wf s.mem = true) :
    Memory.wf (qmapOut a0 s).mem = true := by
  unfold qmapOut
  repeat' (first | with_reducible assumption | with_reducible apply wf_modFibre | dsimp only | exact True.intro | intro _ | split)
theorem wf_qmapBody (a0 : Ex) (s : State) (h1 : Memory.wf s.mem = true) :
    OutOk (qmapBody a0 s) := by
  unfold qmapBody
  repeat' (first | with_reducible assumption | with_reducible apply wf_qmapOut | dsimp only | exact True.intro | with_reducible apply outOk_ok | with_reducible apply outOk_hold | intro _ | split)
theorem wf_execQmap (a0 : Fields) (s : State) (h1 : Memory.wf s.mem = true) :
    NextOk (execQmap a0 s) := by
  unfold execQmap
  repeat' (first | with_reducible assumption | with_reducible apply wf_qmapBody | with_reducible apply wf_runInstr | dsimp only | exact True.intro | with_reducible apply nextOk_next | intro _ | split)
theorem wf_ldqOut (a0 : Nat) (a1 : Nat) (a2 : Ex) (s : State) (h3 : Memory.wf s.mem = true) :
    Memory.wf (ldqOut a0 a1 a2 s).mem = true := by
  unfold ldqOut
  repeat' (first | with_reducible assumption | with_reducible apply wf_produce | with_reducible apply wf_newId | with_reducible apply wf_modGroup | with_reducible apply wf_optMap | dsimp only | exact True.intro | intro _ | (split <;> (try (rename_i hq; have hq1 := congrArg Prod.snd hq; dsimp only at hq1; subst hq1))))
theorem wf_ldqBody (a0 : Ex) (s : State) (h1 : Memory.wf s.mem = true) :
    OutOk (ldqBody a0 s) := by
  unfold ldqBody
  repeat' (first | with_reducible assumption | with_reducible apply wf_ldqOut | dsimp only | exact True.intro | with_reducible apply outOk_ok | with_reducible apply outOk_hold | intro _ | split)
theorem wf_execLdq (a0 : Fields) (s : State) (h1 : Memory.wf s.mem = true) :
    NextOk (execLdq a0 s) := by
  unfold execLdq
  repeat' (first | with_reducible assumption | with_reducible apply wf_ldqBody | with_reducible apply wf_runInstr | dsimp only | exact True.intro | with_reducible apply nextOk_next | intro _ | split)
theorem wf_aendBody (a0 : Ex) (s : State) (h1 : Memory.wf s.mem = true) :
    OutOk (aendBody a0 s) := by
  unfold aendBody
  repeat' (first | with_reducible assumption | with_reducible apply wf_modAp | dsimp only | exact True.intro | with_reducible apply outOk_ok | with_reducible apply outOk_hold | intro _ | split)
theorem wf_execAend (a0 : Fields) (s : State) (h1 : Memory.wf s.mem = true) :
    NextOk (execAend a0 s) := by
  unfold execAend
  repeat' (first | with_reducible assumption | with_reducible apply wf_aendBody | with_reducible apply wf_runInstr | dsimp only | exact True.intro | with_reducible apply nextOk_next | intro _ | split)
theorem wf_rewriteCmd (s : State) (a1 : Nat) (h0 : Memory.wf s.mem = true) :
    Memory.wf (State.rewriteCmd s a1).mem = true := by
  unfold State.rewriteCmd
  repeat' (first | with_reducible assumption | with_reducible apply wf_modCmd | dsimp only | exact True.intro | intro _ | split)
theorem wf_commandStart (id : Nat) (s : State) (h0 : Memory.wf s.mem = true) : Memory.wf (commandStart id s).mem = true := by
  unfold commandStart
  split
  · exact h0
  · split
    · exact h0
    · split
      · exact wf_modCmd _ _ _ (wf_addCart _ _ _ _ _ h0)
      · split
        · exact wf_modCmd _ _ _ h0
        · split
          · split
            · exact h0
            · next c _ _ _ _ _ _ =>
              have h1 := wf_openCmd s c h0
              refine wf_getD _ _ (fun t ht => ?_) h1
              obtain ⟨d, _, hd⟩ := Option.bind_eq_some_iff.mp ht
              exact wf_nextReq _ _ h1 _ hd
          · split
            · exact wf_rewriteCmd _ _ h0
            · exact wf_modCmd _ _ _ h0
theorem wf_finishCmd (s : State) (a1 : Nat) (h0 : Memory.wf s.mem = true) :
    Memory.wf (State.finishCmd s a1).1.mem = true := by
  unfold State.finishCmd
  repeat' (first | with_reducible assumption | with_reducible apply wf_cmdRun | with_reducible apply wf_optMap | dsimp only | exact True.intro | intro _ | split)
theorem wf_commandComplete (a0 : Nat) (s : State) (h1 : Memory.wf s.mem = true) :
    Memory.wf (commandComplete a0 s).mem = true := by
  unfold commandComplete
  repeat' (first | with_reducible assumption | with_reducible apply wf_finishCmd | with_reducible apply wf_retireCmd | with_reducible apply wf_doAct | with_reducible apply wf_countBad | dsimp only | exact True.intro | intro _ | split)
theorem wf_execCommandComplete (a0 : Nat) (s : State) (h1 : Memory.wf s.mem = true) :
    NextOk (execCommandComplete a0 s) := by
  unfold execCommandComplete
  repeat' (first | with_reducible assumption | with_reducible apply wf_commandComplete | dsimp only | exact True.intro | with_reducible apply nextOk_next | intro _ | split)
theorem wf_refuseCmd (s : State) (a1 : Cmd) (h0 : Memory.wf s.mem = true) :
    Memory.wf (State.refuseCmd s a1).mem = true := by
  unfold State.refuseCmd
  repeat' (first | with_reducible assumption | with_reducible apply wf_modCmd | with_reducible apply wf_addCart | dsimp only | exact True.intro | intro _ | split)
theorem wf_engineDispatch (a0 : Nat) (s : State) (h1 : Memory.wf s.mem = true) :
    Memory.wf (engineDispatch a0 s).mem = true := by
  unfold engineDispatch
  repeat' (first | with_reducible assumption | with_reducible apply wf_refuseCmd | with_reducible apply wf_openCmd | dsimp only | exact True.intro | intro _ | split)
theorem wf_execEngineDispatch (a0 : Nat) (s : State) (h1 : Memory.wf s.mem = true) :
    NextOk (execEngineDispatch a0 s) := by
  unfold execEngineDispatch
  repeat' (first | with_reducible assumption | with_reducible apply wf_engineDispatch | dsimp only | exact True.intro | with_reducible apply nextOk_next | intro _ | split)
theorem wf_dispatchDeadline (a0 : Nat) (s : State) (h1 : Memory.wf s.mem = true) :
    Memory.wf (dispatchDeadline a0 s).mem = true := by
  unfold dispatchDeadline
  repeat' (first | with_reducible assumption | with_reducible apply wf_rewriteCmd | with_reducible apply wf_wake | dsimp only | exact True.intro | intro _ | split)
theorem wf_execDispatchDeadline (a0 : Nat) (s : State) (h1 : Memory.wf s.mem = true) :
    NextOk (execDispatchDeadline a0 s) := by
  unfold execDispatchDeadline
  repeat' (first | with_reducible assumption | with_reducible apply wf_dispatchDeadline | dsimp only | exact True.intro | with_reducible apply nextOk_next | intro _ | split)
theorem wf_fillEntry (s : State) (a1 : Dest) (a2 : RegWord) (h0 : Memory.wf s.mem = true) :
    Memory.wf (State.fillEntry s a1 a2).mem = true := by
  unfold State.fillEntry
  repeat' (first | with_reducible assumption | with_reducible apply wf_modGroup | dsimp only | exact True.intro | intro _ | split)
theorem wf_askLdq (s : State) (a1 : Nat) (h0 : Memory.wf s.mem = true) :
    ∀ r, State.askLdq s a1 = some r → Memory.wf r.mem = true := by
  unfold State.askLdq
  repeat' (first | with_reducible assumption | with_reducible apply wf_newId | dsimp only | exact True.intro | (split <;> (try (rename_i hq; have hq1 := congrArg Prod.snd hq; dsimp only at hq1; subst hq1))) | (intro hq; injection hq with hq; subst hq) | (intro hq; cases hq; done) | intro _)
theorem wf_ldqWord (s : State) (a1 : Nat) (a2 : Byte) (a3 : DWord) (h0 : Memory.wf s.mem = true) :
    Memory.wf (State.ldqWord s a1 a2 a3).2.mem = true := by
  unfold State.ldqWord
  repeat' (first | with_reducible assumption | with_reducible apply wf_reach | with_reducible apply wf_homeAccess | dsimp only | exact True.intro | intro _ | (split <;> (try (rename_i hq; have hq1 := congrArg Prod.snd hq; dsimp only at hq1; subst hq1))))
theorem wf_askAll (s : State) (id n : Nat) (h0 : Memory.wf s.mem = true) : Memory.wf (State.askAll s id n).mem = true := by
  induction n generalizing s with
  | zero => exact h0
  | succ n ih =>
    unfold State.askAll
    split
    · next t ht => exact ih _ (wf_askLdq _ _ h0 _ ht)
    · exact h0
theorem wf_queueEntryFill (a0 : Nat) (a1 : Word) (s : State) (h2 : Memory.wf s.mem = true) :
    Memory.wf (queueEntryFill a0 a1 s).mem = true := by
  unfold queueEntryFill
  repeat' (first | with_reducible assumption | with_reducible apply wf_askAll | with_reducible apply wf_ldqWord | with_reducible apply wf_fillEntry | with_reducible apply wf_wake | with_reducible apply wf_poisonOnce | with_reducible apply wf_foldl | with_reducible apply wf_foldl2 | with_reducible apply wf_foldl1 | with_reducible apply wf_foldl22 | dsimp only | exact True.intro | intro _ | (split <;> (try (rename_i hq; have hq1 := congrArg Prod.snd hq; dsimp only at hq1; subst hq1))))
theorem wf_execQueueEntryFill (a0 : Nat) (a1 : Word) (s : State) (h2 : Memory.wf s.mem = true) :
    NextOk (execQueueEntryFill a0 a1 s) := by
  unfold execQueueEntryFill
  repeat' (first | with_reducible assumption | with_reducible apply wf_queueEntryFill | dsimp only | exact True.intro | with_reducible apply nextOk_next | intro _ | split)
theorem wf_matrixComplete (a0 : Nat) (s : State) (h1 : Memory.wf s.mem = true) :
    Memory.wf (matrixComplete a0 s).mem = true := by
  unfold matrixComplete
  repeat' (first | with_reducible assumption | with_reducible apply wf_matrixRun | with_reducible apply wf_wake | dsimp only | exact True.intro | intro _ | split)
theorem wf_execMatrixComplete (a0 : Nat) (s : State) (h1 : Memory.wf s.mem = true) :
    NextOk (execMatrixComplete a0 s) := by
  unfold execMatrixComplete
  repeat' (first | with_reducible assumption | with_reducible apply wf_matrixComplete | dsimp only | exact True.intro | with_reducible apply nextOk_next | intro _ | split)
theorem wf_bldFinish (a0 : Nat) (s : State) (h1 : Memory.wf s.mem = true) :
    Memory.wf (bldFinish a0 s).mem = true := by
  unfold bldFinish
  repeat' (first | with_reducible assumption | with_reducible apply wf_modSeq | with_reducible apply wf_wake | dsimp only | exact True.intro | intro _ | split)
theorem wf_execBldFinish (a0 : Nat) (s : State) (h1 : Memory.wf s.mem = true) :
    NextOk (execBldFinish a0 s) := by
  unfold execBldFinish
  repeat' (first | with_reducible assumption | with_reducible apply wf_bldFinish | dsimp only | exact True.intro | with_reducible apply nextOk_next | intro _ | split)
theorem wf_tokenGrant (a0 : Nat) (s : State) (h1 : Memory.wf s.mem = true) :
    Memory.wf (tokenGrant a0 s).mem = true := by
  unfold tokenGrant
  repeat' (first | with_reducible assumption | dsimp only | exact True.intro | intro _ | split)
theorem wf_execTokenGrant (a0 : Nat) (s : State) (h1 : Memory.wf s.mem = true) :
    NextOk (execTokenGrant a0 s) := by
  unfold execTokenGrant
  repeat' (first | with_reducible assumption | with_reducible apply wf_tokenGrant | dsimp only | exact True.intro | with_reducible apply nextOk_next | intro _ | split)
theorem wf_tokenArrive (a0 : Nat) (s : State) (h1 : Memory.wf s.mem = true) :
    Memory.wf (tokenArrive a0 s).mem = true := by
  unfold tokenArrive
  repeat' (first | with_reducible assumption | with_reducible apply wf_wake | with_reducible apply wf_modCore | dsimp only | exact True.intro | intro _ | split)
theorem wf_execTokenArrive (a0 : Nat) (s : State) (h1 : Memory.wf s.mem = true) :
    NextOk (execTokenArrive a0 s) := by
  unfold execTokenArrive
  repeat' (first | with_reducible assumption | with_reducible apply wf_tokenArrive | dsimp only | exact True.intro | with_reducible apply nextOk_next | intro _ | split)
theorem wf_tokenIdleReturn (a0 : Nat) (s : State) (h1 : Memory.wf s.mem = true) :
    Memory.wf (tokenIdleReturn a0 s).mem = true := by
  unfold tokenIdleReturn
  repeat' (first | with_reducible assumption | with_reducible apply wf_modCore | dsimp only | exact True.intro | intro _ | split)
theorem wf_execTokenIdleReturn (a0 : Nat) (s : State) (h1 : Memory.wf s.mem = true) :
    NextOk (execTokenIdleReturn a0 s) := by
  unfold execTokenIdleReturn
  repeat' (first | with_reducible assumption | with_reducible apply wf_tokenIdleReturn | dsimp only | exact True.intro | with_reducible apply nextOk_next | intro _ | split)
theorem wf_tokenHoldLimit (a0 : Nat) (s : State) (h1 : Memory.wf s.mem = true) :
    Memory.wf (tokenHoldLimit a0 s).mem = true := by
  unfold tokenHoldLimit
  repeat' (first | with_reducible assumption | with_reducible apply wf_askToken | with_reducible apply wf_modCore | dsimp only | exact True.intro | intro _ | split)
theorem wf_execTokenHoldLimit (a0 : Nat) (s : State) (h1 : Memory.wf s.mem = true) :
    NextOk (execTokenHoldLimit a0 s) := by
  unfold execTokenHoldLimit
  repeat' (first | with_reducible assumption | with_reducible apply wf_tokenHoldLimit | dsimp only | exact True.intro | with_reducible apply nextOk_next | intro _ | split)

/-! Service. -/

theorem wf_mgmtReport (s : State) (a1 : List Nat) (h0 : Memory.wf s.mem = true) :
    Memory.wf (State.mgmtReport s a1).mem = true := by
  unfold State.mgmtReport
  repeat' (first | with_reducible assumption | dsimp only | exact True.intro | intro _ | split)
theorem wf_mgmtEvent (s : State) (h0 : Memory.wf s.mem = true) :
    Memory.wf (State.mgmtEvent s).mem = true := by
  unfold State.mgmtEvent
  repeat' (first | with_reducible assumption | with_reducible apply wf_mgmtReport | dsimp only | exact True.intro | intro _ | split)
theorem wf_syscSeen (s : State) (a1 : Ex) (a2 : Val) (h0 : Memory.wf s.mem = true) :
    Memory.wf (State.syscSeen s a1 a2).mem = true := by
  unfold State.syscSeen
  repeat' (first | with_reducible assumption | with_reducible apply wf_descFound | dsimp only | exact True.intro | intro _ | split)
theorem wf_syscSend (a0 : Ex) (a1 : List Byte) (s : State) (h2 : Memory.wf s.mem = true) :
    Memory.wf (syscSend a0 a1 s).mem = true := by
  unfold syscSend
  repeat' (first | with_reducible assumption | with_reducible apply wf_irrev | with_reducible apply wf_newId | dsimp only | exact True.intro | intro _ | (split <;> (try (rename_i hq; have hq1 := congrArg Prod.snd hq; dsimp only at hq1; subst hq1))))
theorem wf_syscOut (a0 : Sysc) (a1 : Word) (a2 : Ex) (s : State) (h3 : Memory.wf s.mem = true) :
    Memory.wf (syscOut a0 a1 a2 s).mem = true := by
  unfold syscOut
  repeat' (first | with_reducible assumption | with_reducible apply wf_onceWrite | with_reducible apply wf_addFence | dsimp only | exact True.intro | intro _ | split)
theorem wf_syscBody (a0 : Ex) (s : State) (h1 : Memory.wf s.mem = true) :
    OutOk (syscBody a0 s) := by
  unfold syscBody
  repeat' (first | with_reducible assumption | with_reducible apply wf_syscOut | with_reducible apply wf_syscSend | with_reducible apply wf_syscSeen | with_reducible apply wf_onceWrite | with_reducible apply wf_irrev | dsimp only | exact True.intro | with_reducible apply outOk_ok | with_reducible apply outOk_hold | intro _ | split)
theorem wf_execSysc (a0 : Fields) (s : State) (h1 : Memory.wf s.mem = true) :
    NextOk (execSysc a0 s) := by
  unfold execSysc
  repeat' (first | with_reducible assumption | with_reducible apply wf_syscBody | with_reducible apply wf_runInstr | dsimp only | exact True.intro | with_reducible apply nextOk_next | intro _ | split)
theorem wf_tlbFilter (s : State) (a1 : TlbEntry → Bool) (h0 : Memory.wf s.mem = true) :
    Memory.wf (State.tlbFilter s a1).mem = true := by
  unfold State.tlbFilter
  repeat' (first | with_reducible assumption | dsimp only | exact True.intro | intro _ | split)
theorem wf_tlbDrop (s : State) (a1 : Byte) (a2 : Nat) (a3 : Nat) (h0 : Memory.wf s.mem = true) :
    Memory.wf (State.tlbDrop s a1 a2 a3).mem = true := by
  unfold State.tlbDrop
  repeat' (first | with_reducible assumption | with_reducible apply wf_tlbFilter | dsimp only | exact True.intro | intro _ | split)
theorem wf_serviceWrite (s : State) (a1 : Nat) (a2 : Byte) (a3 : Nat) (a4 : List Byte) (h0 : Memory.wf s.mem = true) :
    Memory.wf (State.serviceWrite s a1 a2 a3 a4).mem = true := by
  unfold State.serviceWrite
  repeat' (first | with_reducible assumption | with_reducible apply wf_engineWrite | with_reducible apply wf_reach | with_reducible apply wf_foldl | with_reducible apply wf_foldl2 | with_reducible apply wf_foldl1 | with_reducible apply wf_foldl22 | dsimp only | exact True.intro | intro _ | (split <;> (try (rename_i hq; have hq1 := congrArg Prod.snd hq; dsimp only at hq1; subst hq1))))
theorem wf_report (s : State) (a1 : List Byte) (h0 : Memory.wf s.mem = true) :
    Memory.wf (State.report s a1).2.mem = true := by
  unfold State.report
  repeat' (first | with_reducible assumption | with_reducible apply wf_fresh | dsimp only | exact True.intro | intro _ | (split <;> (try (rename_i hq; have hq1 := congrArg Prod.snd hq; dsimp only at hq1; subst hq1))))
theorem wf_syscEffect (s : State) (a1 : Sysc) (h0 : Memory.wf s.mem = true) :
    Memory.wf (State.syscEffect s a1).mem = true := by
  unfold State.syscEffect
  repeat' (first | with_reducible assumption | with_reducible apply wf_report | with_reducible apply wf_serviceWrite | with_reducible apply wf_tlbDrop | dsimp only | exact True.intro | intro _ | split)
theorem wf_syscAnswer (a0 : Nat) (a1 : Word) (s : State) (h2 : Memory.wf s.mem = true) :
    Memory.wf (syscAnswer a0 a1 s).mem = true := by
  unfold syscAnswer
  repeat' (first | with_reducible assumption | with_reducible apply wf_syscEffect | with_reducible apply wf_wake | dsimp only | exact True.intro | intro _ | split)
theorem wf_execSyscAnswer (a0 : Nat) (a1 : Word) (s : State) (h2 : Memory.wf s.mem = true) :
    NextOk (execSyscAnswer a0 a1 s) := by
  unfold execSyscAnswer
  repeat' (first | with_reducible assumption | with_reducible apply wf_syscAnswer | dsimp only | exact True.intro | with_reducible apply nextOk_next | intro _ | split)
theorem wf_perfTick (s : State) (a1 : Nat) (a2 : Nat) (h0 : Memory.wf s.mem = true) :
    Memory.wf (State.perfTick s a1 a2).mem = true := by
  unfold State.perfTick
  repeat' (first | with_reducible assumption | with_reducible apply wf_tick | with_reducible apply wf_fresh | with_reducible apply wf_modCore | dsimp only | exact True.intro | intro _ | (split <;> (try (rename_i hq; have hq1 := congrArg Prod.snd hq; dsimp only at hq1; subst hq1))))
theorem wf_perfOut (a0 : Ex) (s : State) (h1 : Memory.wf s.mem = true) :
    Memory.wf (perfOut a0 s).mem = true := by
  unfold perfOut
  repeat' (first | with_reducible assumption | with_reducible apply wf_perfTick | with_reducible apply wf_writeDst | with_reducible apply wf_foldl | with_reducible apply wf_foldl2 | with_reducible apply wf_foldl1 | with_reducible apply wf_foldl22 | dsimp only | exact True.intro | intro _ | (split <;> (try (rename_i hq; have hq1 := congrArg Prod.snd hq; dsimp only at hq1; subst hq1))))
theorem wf_perfBody (a0 : Ex) (s : State) (h1 : Memory.wf s.mem = true) :
    OutOk (perfBody a0 s) := by
  unfold perfBody
  repeat' (first | with_reducible assumption | with_reducible apply wf_perfOut | dsimp only | exact True.intro | with_reducible apply outOk_ok | with_reducible apply outOk_hold | intro _ | split)
theorem wf_execPerf (a0 : Fields) (s : State) (h1 : Memory.wf s.mem = true) :
    NextOk (execPerf a0 s) := by
  unfold execPerf
  repeat' (first | with_reducible assumption | with_reducible apply wf_perfBody | with_reducible apply wf_runInstr | dsimp only | exact True.intro | with_reducible apply nextOk_next | intro _ | split)

/-! Transport. -/

theorem wf_xSeen (a0 : Ex) (s : State) (h1 : Memory.wf s.mem = true) :
    Memory.wf (xSeen a0 s).mem = true := by
  unfold xSeen
  repeat' (first | with_reducible assumption | with_reducible apply wf_descSeen | dsimp only | exact True.intro | intro _ | split)
theorem wf_xcmdOut (a0 : Nat) (a1 : XKind) (a2 : Ex) (s : State) (h3 : Memory.wf s.mem = true) :
    Memory.wf (xcmdOut a0 a1 a2 s).mem = true := by
  unfold xcmdOut
  repeat' (first | with_reducible assumption | with_reducible apply wf_takeTag | with_reducible apply wf_takeScore | with_reducible apply wf_onceWrite | with_reducible apply wf_irrev | with_reducible apply wf_newId | dsimp only | exact True.intro | intro _ | (split <;> (try (rename_i hq; have hq1 := congrArg Prod.snd hq; dsimp only at hq1; subst hq1))))
theorem wf_xcmdBody (a0 : Nat) (a1 : XKind) (a2 : Ex) (s : State) (h3 : Memory.wf s.mem = true) :
    OutOk (xcmdBody a0 a1 a2 s) := by
  unfold xcmdBody
  repeat' (first | with_reducible assumption | with_reducible apply wf_xcmdOut | with_reducible apply wf_xSeen | dsimp only | exact True.intro | with_reducible apply outOk_ok | with_reducible apply outOk_hold | intro _ | split)
theorem wf_xwrBody (a0 : Ex) (s : State) (h1 : Memory.wf s.mem = true) :
    OutOk (xwrBody a0 s) := by
  unfold xwrBody
  repeat' (first | with_reducible assumption | with_reducible apply wf_xcmdBody | dsimp only | exact True.intro | with_reducible apply outOk_ok | with_reducible apply outOk_hold | intro _ | split)
theorem wf_execXwr (a0 : Fields) (s : State) (h1 : Memory.wf s.mem = true) :
    NextOk (execXwr a0 s) := by
  unfold execXwr
  repeat' (first | with_reducible assumption | with_reducible apply wf_xwrBody | with_reducible apply wf_runInstr | dsimp only | exact True.intro | with_reducible apply nextOk_next | intro _ | split)
theorem wf_xrdBody (a0 : Ex) (s : State) (h1 : Memory.wf s.mem = true) :
    OutOk (xrdBody a0 s) := by
  unfold xrdBody
  repeat' (first | with_reducible assumption | with_reducible apply wf_xcmdBody | dsimp only | exact True.intro | with_reducible apply outOk_ok | with_reducible apply outOk_hold | intro _ | split)
theorem wf_execXrd (a0 : Fields) (s : State) (h1 : Memory.wf s.mem = true) :
    NextOk (execXrd a0 s) := by
  unfold execXrd
  repeat' (first | with_reducible assumption | with_reducible apply wf_xrdBody | with_reducible apply wf_runInstr | dsimp only | exact True.intro | with_reducible apply nextOk_next | intro _ | split)
theorem wf_xsndBody (a0 : Ex) (s : State) (h1 : Memory.wf s.mem = true) :
    OutOk (xsndBody a0 s) := by
  unfold xsndBody
  repeat' (first | with_reducible assumption | with_reducible apply wf_xcmdBody | dsimp only | exact True.intro | with_reducible apply outOk_ok | with_reducible apply outOk_hold | intro _ | split)
theorem wf_execXsnd (a0 : Fields) (s : State) (h1 : Memory.wf s.mem = true) :
    NextOk (execXsnd a0 s) := by
  unfold execXsnd
  repeat' (first | with_reducible assumption | with_reducible apply wf_xsndBody | with_reducible apply wf_runInstr | dsimp only | exact True.intro | with_reducible apply nextOk_next | intro _ | split)
theorem wf_xrdVOut (a0 : Ex) (s : State) (h1 : Memory.wf s.mem = true) :
    Memory.wf (xrdVOut a0 s).mem = true := by
  unfold xrdVOut
  repeat' (first | with_reducible assumption | with_reducible apply wf_irrev | with_reducible apply wf_produce | with_reducible apply wf_makePoison | with_reducible apply wf_newId | with_reducible apply wf_foldl | with_reducible apply wf_foldl2 | with_reducible apply wf_foldl1 | with_reducible apply wf_foldl22 | with_reducible apply wf_foldlX | with_reducible apply wf_foldl2X | dsimp only | exact True.intro | intro _ | (split <;> (try (rename_i hq; have hq1 := congrArg Prod.snd hq; dsimp only at hq1; subst hq1))))
theorem wf_xrdVBody (a0 : Ex) (s : State) (h1 : Memory.wf s.mem = true) :
    OutOk (xrdVBody a0 s) := by
  unfold xrdVBody
  repeat' (first | with_reducible assumption | with_reducible apply wf_xrdVOut | dsimp only | exact True.intro | with_reducible apply outOk_ok | with_reducible apply outOk_hold | intro _ | split)
theorem wf_execXrdV (a0 : Fields) (s : State) (h1 : Memory.wf s.mem = true) :
    NextOk (execXrdV a0 s) := by
  unfold execXrdV
  repeat' (first | with_reducible assumption | with_reducible apply wf_xrdVBody | with_reducible apply wf_runInstr | dsimp only | exact True.intro | with_reducible apply nextOk_next | intro _ | split)
theorem wf_modCtx (s : State) (a1 : Byte) (a2 : Ctx → Ctx) (h0 : Memory.wf s.mem = true) :
    Memory.wf (State.modCtx s a1 a2).mem = true := by
  unfold State.modCtx
  repeat' (first | with_reducible assumption | dsimp only | exact True.intro | intro _ | split)
theorem wf_descStore (s : State) (a1 : By) (a2 : Word) (a3 : Word) (h0 : Memory.wf s.mem = true) :
    Memory.wf (State.descStore s a1 a2 a3).mem = true := by
  unfold State.descStore
  repeat' (first | with_reducible assumption | with_reducible apply wf_spadRefused | with_reducible apply wf_deferAct | with_reducible apply wf_setSp | dsimp only | exact True.intro | intro _ | split)
theorem wf_badDesc (s : State) (a1 : Nat) (a2 : Nat) (a3 : Nat) (a4 : Nat) (a5 : DWord) (a6 : Nat) (a7 : Word) (a8 : List Byte) (a9 : Nat × Nat × Nat) (h0 : Memory.wf s.mem = true) :
    Memory.wf (State.badDesc s a1 a2 a3 a4 a5 a6 a7 a8 a9).mem = true := by
  unfold State.badDesc
  repeat' (first | with_reducible assumption | with_reducible apply wf_descStore | with_reducible apply wf_mgmtEvent | with_reducible apply wf_doAct | with_reducible apply wf_countBad | dsimp only | exact True.intro | intro _ | split)
theorem wf_xpstBody (k : XKind) (post : Ex → State → Word → List Byte → Option (Bool × State)) (x : Ex) (s : State)
    (hp : ∀ x s a d r, Memory.wf s.mem = true → post x s a d = some r → Memory.wf r.2.mem = true) (h0 : Memory.wf s.mem = true) :
    OutOk (xpstBody k post x s) := by
  have hs := wf_xSeen x s h0
  unfold xpstBody
  split
  · exact True.intro
  · dsimp only
    split
    · exact outOk_ok (wf_onceWrite _ _ _ (wf_irrev _ _ hs))
    · split
      · exact outOk_ok (wf_onceWrite _ _ _ (wf_badDesc _ _ _ _ _ _ _ _ _ _ (wf_irrev _ _ hs)))
      · split
        · exact True.intro
        · next ok t ht => exact wf_onceWrite _ _ _ (hp _ _ _ _ _ (wf_irrev _ _ hs) ht)
theorem wf_postBuf (a0 : Ex) (s : State) (a2 : Word) (a3 : List Byte) (h1 : Memory.wf s.mem = true) :
    ∀ r, postBuf a0 s a2 a3 = some r → Memory.wf r.2.mem = true := by
  unfold postBuf
  repeat' (first | with_reducible assumption | with_reducible apply wf_modCtx | with_reducible apply wf_takeScore | with_reducible apply wf_newId | dsimp only | exact True.intro | (split <;> (try (rename_i hq; have hq1 := congrArg Prod.snd hq; dsimp only at hq1; subst hq1))) | (intro hq; injection hq with hq; subst hq) | (intro hq; cases hq; done) | intro _)
theorem wf_xpstBufBody (a0 : Ex) (s : State) (h1 : Memory.wf s.mem = true) :
    OutOk (xpstBufBody a0 s) := by
  unfold xpstBufBody
  repeat' (first | with_reducible assumption | with_reducible refine wf_postBuf _ _ _ _ ?_ | with_reducible refine wf_postBuf _ _ _ _ ?_ _ (by assumption) | with_reducible apply wf_xpstBody | with_reducible apply wf_getD | dsimp only | exact True.intro | with_reducible apply outOk_ok | with_reducible apply outOk_hold | intro _ | split)
theorem wf_execXpstBuf (a0 : Fields) (s : State) (h1 : Memory.wf s.mem = true) :
    NextOk (execXpstBuf a0 s) := by
  unfold execXpstBuf
  repeat' (first | with_reducible assumption | with_reducible apply wf_xpstBufBody | with_reducible apply wf_runInstr | dsimp only | exact True.intro | with_reducible apply nextOk_next | intro _ | split)
theorem wf_postNtf (a0 : Ex) (s : State) (a2 : Word) (a3 : List Byte) (h1 : Memory.wf s.mem = true) :
    ∀ r, postNtf a0 s a2 a3 = some r → Memory.wf r.2.mem = true := by
  unfold postNtf
  repeat' (first | with_reducible assumption | with_reducible apply wf_modCtx | dsimp only | exact True.intro | (split <;> (try (rename_i hq; have hq1 := congrArg Prod.snd hq; dsimp only at hq1; subst hq1))) | (intro hq; injection hq with hq; subst hq) | (intro hq; cases hq; done) | intro _)
theorem wf_xpstNtfBody (a0 : Ex) (s : State) (h1 : Memory.wf s.mem = true) :
    OutOk (xpstNtfBody a0 s) := by
  unfold xpstNtfBody
  repeat' (first | with_reducible assumption | with_reducible refine wf_postNtf _ _ _ _ ?_ | with_reducible refine wf_postNtf _ _ _ _ ?_ _ (by assumption) | with_reducible apply wf_xpstBody | with_reducible apply wf_getD | dsimp only | exact True.intro | with_reducible apply outOk_ok | with_reducible apply outOk_hold | intro _ | split)
theorem wf_execXpstNtf (a0 : Fields) (s : State) (h1 : Memory.wf s.mem = true) :
    NextOk (execXpstNtf a0 s) := by
  unfold execXpstNtf
  repeat' (first | with_reducible assumption | with_reducible apply wf_xpstNtfBody | with_reducible apply wf_runInstr | dsimp only | exact True.intro | with_reducible apply nextOk_next | intro _ | split)
theorem wf_postUnb (a0 : Ex) (s : State) (a2 : Word) (a3 : List Byte) (h1 : Memory.wf s.mem = true) :
    ∀ r, postUnb a0 s a2 a3 = some r → Memory.wf r.2.mem = true := by
  unfold postUnb
  repeat' (first | with_reducible assumption | with_reducible apply wf_modCtx | dsimp only | exact True.intro | (split <;> (try (rename_i hq; have hq1 := congrArg Prod.snd hq; dsimp only at hq1; subst hq1))) | (intro hq; injection hq with hq; subst hq) | (intro hq; cases hq; done) | intro _)
theorem wf_xpstUnbBody (a0 : Ex) (s : State) (h1 : Memory.wf s.mem = true) :
    OutOk (xpstUnbBody a0 s) := by
  unfold xpstUnbBody
  repeat' (first | with_reducible assumption | with_reducible refine wf_postUnb _ _ _ _ ?_ | with_reducible refine wf_postUnb _ _ _ _ ?_ _ (by assumption) | with_reducible apply wf_xpstBody | with_reducible apply wf_getD | dsimp only | exact True.intro | with_reducible apply outOk_ok | with_reducible apply outOk_hold | intro _ | split)
theorem wf_execXpstUnb (a0 : Fields) (s : State) (h1 : Memory.wf s.mem = true) :
    NextOk (execXpstUnb a0 s) := by
  unfold execXpstUnb
  repeat' (first | with_reducible assumption | with_reducible apply wf_xpstUnbBody | with_reducible apply wf_runInstr | dsimp only | exact True.intro | with_reducible apply nextOk_next | intro _ | split)
theorem wf_cngWord (s : State) (a1 : Byte) (a2 : Nat) (a3 : Nat) (h0 : Memory.wf s.mem = true) :
    Memory.wf (State.cngWord s a1 a2 a3).2.mem = true := by
  unfold State.cngWord
  repeat' (first | with_reducible assumption | with_reducible apply wf_freeWord | dsimp only | exact True.intro | intro _ | (split <;> (try (rename_i hq; have hq1 := congrArg Prod.snd hq; dsimp only at hq1; subst hq1))))
theorem wf_cngVal (s : State) (a1 : Ex) (a2 : Nat) (h0 : Memory.wf s.mem = true) :
    Memory.wf (State.cngVal s a1 a2).2.mem = true := by
  unfold State.cngVal
  repeat' (first | with_reducible assumption | with_reducible apply wf_cngWord | dsimp only | exact True.intro | intro _ | (split <;> (try (rename_i hq; have hq1 := congrArg Prod.snd hq; dsimp only at hq1; subst hq1))))
theorem wf_xcngOut (a0 : Ex) (s : State) (h1 : Memory.wf s.mem = true) :
    Memory.wf (xcngOut a0 s).mem = true := by
  unfold xcngOut
  repeat' (first | with_reducible assumption | with_reducible apply wf_cngVal | with_reducible apply wf_irrev | with_reducible apply wf_produce | with_reducible apply wf_makePoison | with_reducible apply wf_foldl | with_reducible apply wf_foldl2 | with_reducible apply wf_foldl1 | with_reducible apply wf_foldl22 | with_reducible apply wf_foldlX | with_reducible apply wf_foldl2X | dsimp only | exact True.intro | intro _ | (split <;> (try (rename_i hq; have hq1 := congrArg Prod.snd hq; dsimp only at hq1; subst hq1))))
theorem wf_xcngBody (a0 : Ex) (s : State) (h1 : Memory.wf s.mem = true) :
    OutOk (xcngBody a0 s) := by
  unfold xcngBody
  repeat' (first | with_reducible assumption | with_reducible apply wf_xcngOut | dsimp only | exact True.intro | with_reducible apply outOk_ok | with_reducible apply outOk_hold | intro _ | split)
theorem wf_execXcng (a0 : Fields) (s : State) (h1 : Memory.wf s.mem = true) :
    NextOk (execXcng a0 s) := by
  unfold execXcng
  repeat' (first | with_reducible assumption | with_reducible apply wf_xcngBody | with_reducible apply wf_runInstr | dsimp only | exact True.intro | with_reducible apply nextOk_next | intro _ | split)
theorem wf_xfenOut (a0 : Ex) (s : State) (h1 : Memory.wf s.mem = true) :
    Memory.wf (xfenOut a0 s).mem = true := by
  unfold xfenOut
  repeat' (first | with_reducible assumption | with_reducible apply wf_irrev | with_reducible apply wf_addFence | with_reducible apply wf_modFibre | dsimp only | exact True.intro | intro _ | split)
theorem wf_xfenBody (a0 : Ex) (s : State) (h1 : Memory.wf s.mem = true) :
    OutOk (xfenBody a0 s) := by
  unfold xfenBody
  repeat' (first | with_reducible assumption | with_reducible apply wf_xfenOut | dsimp only | exact True.intro | with_reducible apply outOk_ok | with_reducible apply outOk_hold | intro _ | split)
theorem wf_execXfen (a0 : Fields) (s : State) (h1 : Memory.wf s.mem = true) :
    NextOk (execXfen a0 s) := by
  unfold execXfen
  repeat' (first | with_reducible assumption | with_reducible apply wf_xfenBody | with_reducible apply wf_runInstr | dsimp only | exact True.intro | with_reducible apply nextOk_next | intro _ | split)
theorem wf_modX (s : State) (a1 : Nat) (a2 : XMsg → XMsg) (h0 : Memory.wf s.mem = true) :
    Memory.wf (State.modX s a1 a2).mem = true := by
  unfold State.modX
  repeat' (first | with_reducible assumption | dsimp only | exact True.intro | intro _ | split)
theorem wf_dropX (s : State) (a1 : Nat) (h0 : Memory.wf s.mem = true) :
    Memory.wf (State.dropX s a1).mem = true := by
  unfold State.dropX
  repeat' (first | with_reducible assumption | dsimp only | exact True.intro | intro _ | split)
theorem wf_readWords (c : Cmd) (vs : List (Nat ⊕ Val)) (a : Xfer) (h : Memory.wf a.s.mem = true) :
    Memory.wf (readWords c vs a).2.s.mem = true := by
  induction vs generalizing a with
  | nil => exact h
  | cons v r ih =>
    cases v with
    | inl n => exact ih _ h
    | inr v => exact ih _ (wf_Xfer_fail _ _ _ h)
theorem wf_xLocal (s : State) (a1 : XMsg) (h0 : Memory.wf s.mem = true) :
    Memory.wf (State.xLocal s a1).2.mem = true := by
  unfold State.xLocal
  repeat' (first | with_reducible assumption | with_reducible apply wf_gather | with_reducible apply wf_spFoundRun | dsimp only | exact True.intro | intro _ | (split <;> (try (rename_i hq; have hq1 := congrArg Prod.snd hq; dsimp only at hq1; subst hq1))))
theorem wf_xStart (s : State) (a1 : XMsg) (h0 : Memory.wf s.mem = true) :
    Memory.wf (State.xStart s a1).mem = true := by
  unfold State.xStart
  repeat' (first | with_reducible assumption | with_reducible apply wf_xLocal | with_reducible apply wf_readWords | with_reducible apply wf_modX | with_reducible apply wf_modCmd | dsimp only | exact True.intro | intro _ | split)
theorem wf_xCause (s : State) (a1 : Nat) (a2 : Nat) (h0 : Memory.wf s.mem = true) :
    Memory.wf (State.xCause s a1 a2).2.mem = true := by
  unfold State.xCause
  repeat' (first | with_reducible assumption | with_reducible apply wf_freeWord | with_reducible apply wf_fresh | dsimp only | exact True.intro | intro _ | (split <;> (try (rename_i hq; have hq1 := congrArg Prod.snd hq; dsimp only at hq1; subst hq1))))
theorem wf_xPut (s : State) (a1 : XMsg) (a2 : Nat) (a3 : List (Word ⊕ Val)) (h0 : Memory.wf s.mem = true) :
    Memory.wf (State.xPut s a1 a2 a3).mem = true := by
  unfold State.xPut
  repeat' (first | with_reducible assumption | with_reducible apply wf_modX | with_reducible apply wf_deferAct | with_reducible apply wf_Xfer_spChunk | with_reducible apply wf_Xfer_memChunk | with_reducible apply wf_Xfer_fail | with_reducible apply wf_countBad | with_reducible apply wf_foldl | with_reducible apply wf_foldl2 | with_reducible apply wf_foldl1 | with_reducible apply wf_foldl22 | with_reducible apply wf_foldlX | with_reducible apply wf_foldl2X | dsimp only | exact True.intro | intro _ | split)
theorem wf_xLost (s : State) (a1 : XMsg) (a2 : Val) (h0 : Memory.wf s.mem = true) :
    Memory.wf (State.xLost s a1 a2).mem = true := by
  unfold State.xLost
  repeat' (first | with_reducible assumption | with_reducible apply wf_xPut | with_reducible apply wf_foldl | with_reducible apply wf_foldl2 | with_reducible apply wf_foldl1 | with_reducible apply wf_foldl22 | with_reducible apply wf_foldlX | with_reducible apply wf_foldl2X | dsimp only | exact True.intro | intro _ | split)
theorem wf_xStatus (s : State) (a1 : XMsg) (a2 : Nat) (a3 : Val) (h0 : Memory.wf s.mem = true) :
    Memory.wf (State.xStatus s a1 a2 a3).2.mem = true := by
  unfold State.xStatus
  repeat' (first | with_reducible assumption | with_reducible apply wf_mgmtEvent | with_reducible apply wf_countBad | dsimp only | exact True.intro | intro _ | (split <;> (try (rename_i hq; have hq1 := congrArg Prod.snd hq; dsimp only at hq1; subst hq1))))
theorem wf_xFinish (s : State) (a1 : XMsg) (a2 : Nat) (h0 : Memory.wf s.mem = true) :
    Memory.wf (State.xFinish s a1 a2).mem = true := by
  unfold State.xFinish
  repeat' (first | with_reducible assumption | with_reducible apply wf_xStatus | with_reducible apply wf_xLost | with_reducible apply wf_xCause | with_reducible apply wf_dropX | with_reducible apply wf_descStore | with_reducible apply wf_retireCmd | with_reducible apply wf_doAct | with_reducible apply wf_giveItem | with_reducible apply wf_wake | with_reducible apply wf_optMap | dsimp only | exact True.intro | intro _ | (split <;> (try (rename_i hq; have hq1 := congrArg Prod.snd hq; dsimp only at hq1; subst hq1))))
theorem wf_transportStart (a0 : Nat) (s : State) (h1 : Memory.wf s.mem = true) :
    Memory.wf (transportStart a0 s).mem = true := by
  unfold transportStart
  repeat' (first | with_reducible assumption | with_reducible apply wf_xFinish | with_reducible apply wf_xStart | with_reducible apply wf_dropX | with_reducible apply wf_badDesc | with_reducible apply wf_retireCmd | dsimp only | exact True.intro | intro _ | split)
theorem wf_execCommandStart (a0 : Nat) (s : State) (h1 : Memory.wf s.mem = true) :
    NextOk (execCommandStart a0 s) := by
  unfold execCommandStart
  repeat' (first | with_reducible assumption | with_reducible apply wf_transportStart | with_reducible apply wf_commandStart | dsimp only | exact True.intro | with_reducible apply nextOk_next | intro _ | split)
theorem wf_engineKeyed (s : State) (a1 : Byte) (a2 : Nat) (a3 : Access) (h0 : Memory.wf s.mem = true) :
    Memory.wf (State.engineKeyed s a1 a2 a3).mem = true := by
  unfold State.engineKeyed
  repeat' (first | with_reducible assumption | with_reducible apply wf_rekey | dsimp only | exact True.intro | intro _ | split)
theorem wf_keyedRun (s : State) (c : Byte) (va : Nat) (k : Access) (n : Nat) (h0 : Memory.wf s.mem = true) :
    Memory.wf (State.keyedRun s c va k n).mem = true := by
  induction n generalizing s va with
  | zero => exact h0
  | succ n ih => unfold State.keyedRun; exact ih _ _ (wf_engineKeyed _ _ _ _ h0)
theorem wf_regionRun (s : State) (job : Byte) (key : Word) (off n : Nat) (k : Access) (h0 : Memory.wf s.mem = true) :
    ∀ r, State.regionRun s job key off n k = some r → Memory.wf r.2.mem = true := by
  intro r hr
  unfold State.regionRun at hr
  generalize (if s.ctxOn job then _ else _ : Option Region) = o at hr
  cases o with
  | none => cases hr
  | some z =>
    dsimp only at hr
    generalize (_ || _ : Bool) = b at hr
    cases b with
    | true => cases hr
    | false =>
      obtain ⟨a, _, rfl⟩ := Option.map_eq_some_iff.mp hr
      exact wf_keyedRun _ _ _ _ _ h0
theorem wf_modRx (s : State) (a1 : Nat) (a2 : Bool) (a3 : RxMsg → RxMsg) (h0 : Memory.wf s.mem = true) :
    Memory.wf (State.modRx s a1 a2 a3).mem = true := by
  unfold State.modRx
  repeat' (first | with_reducible assumption | dsimp only | exact True.intro | intro _ | split)
theorem wf_rxOpen (s : State) (a1 : Nat) (a2 : Bool) (a3 : Byte) (h0 : Memory.wf s.mem = true) :
    Memory.wf (State.rxOpen s a1 a2 a3).mem = true := by
  unfold State.rxOpen
  repeat' (first | with_reducible assumption | dsimp only | exact True.intro | intro _ | split)
theorem wf_rxSettle (s : State) (a1 : Nat) (a2 : Bool) (a3 : Byte) (a4 : Nat) (a5 : Nat) (h0 : Memory.wf s.mem = true) :
    Memory.wf (State.rxSettle s a1 a2 a3 a4 a5).mem = true := by
  unfold State.rxSettle
  repeat' (first | with_reducible assumption | with_reducible apply wf_rxOpen | with_reducible apply wf_modRx | dsimp only | exact True.intro | intro _ | split)
theorem wf_rxFinish (s : State) (a1 : Nat) (a2 : Bool) (a3 : Byte) (a4 : Option Nat) (a5 : Nat) (a6 : Bool) (a7 : Nat) (h0 : Memory.wf s.mem = true) :
    Memory.wf (State.rxFinish s a1 a2 a3 a4 a5 a6 a7).mem = true := by
  unfold State.rxFinish
  repeat' (first | with_reducible assumption | with_reducible apply wf_modRx | with_reducible apply wf_xCause | with_reducible apply wf_descStore | with_reducible apply wf_modCtx | with_reducible apply wf_mgmtEvent | with_reducible apply wf_doAct | with_reducible apply wf_dropScore | with_reducible apply wf_wake | with_reducible apply wf_countBad | with_reducible apply wf_optMap | dsimp only | exact True.intro | intro _ | (split <;> (try (rename_i hq; have hq1 := congrArg Prod.snd hq; dsimp only at hq1; subst hq1))))
theorem wf_startPlacing (s : State) (a1 : Arrival) (a2 : List (Nat × Bool)) (a3 : Option PostBuf) (a4 : Nat) (h0 : Memory.wf s.mem = true) :
    Memory.wf (State.startPlacing s a1 a2 a3 a4).mem = true := by
  unfold State.startPlacing
  repeat' (first | with_reducible assumption | with_reducible apply wf_rxSettle | with_reducible apply wf_rxOpen | with_reducible apply wf_newId | dsimp only | exact True.intro | intro _ | (split <;> (try (rename_i hq; have hq1 := congrArg Prod.snd hq; dsimp only at hq1; subst hq1))))
theorem wf_takePacket (s : State) (a1 : Arrival) (h0 : Memory.wf s.mem = true) :
    Memory.wf (State.takePacket s a1).mem = true := by
  unfold State.takePacket
  repeat' (first | with_reducible assumption | with_reducible apply wf_startPlacing | with_reducible apply wf_rxSettle | with_reducible refine wf_regionRun _ _ _ _ _ _ ?_ | with_reducible refine wf_regionRun _ _ _ _ _ _ ?_ _ (by assumption) | with_reducible apply wf_keyedRun | with_reducible apply wf_modCtx | with_reducible apply wf_getD | with_reducible apply wf_optMap | dsimp only | exact True.intro | intro _ | (split <;> (try (rename_i hq; have hq1 := congrArg Prod.snd hq; dsimp only at hq1; subst hq1))))
theorem wf_rxDone (s : State) (a1 : Arrival) (h0 : Memory.wf s.mem = true) :
    Memory.wf (State.rxDone s a1).mem = true := by
  unfold State.rxDone
  repeat' (first | with_reducible assumption | with_reducible apply wf_rxFinish | dsimp only | exact True.intro | intro _ | split)
theorem wf_arrive (s : State) (a1 : Arrival) (h0 : Memory.wf s.mem = true) :
    Memory.wf (State.arrive s a1).mem = true := by
  unfold State.arrive
  repeat' (first | with_reducible assumption | with_reducible apply wf_rxDone | with_reducible apply wf_takePacket | dsimp only | exact True.intro | intro _ | split)
theorem wf_replyWords (s : State) (m : XMsg) (p : Peer) (pk : Packet) (h0 : Memory.wf s.mem = true) :
    ∀ r, State.replyWords s m p pk = some r → Memory.wf r.2.mem = true := by
  intro r hr
  unfold State.replyWords at hr
  dsimp only at hr
  split at hr
  · obtain ⟨a, ha, rfl⟩ := Option.map_eq_some_iff.mp hr
    exact wf_foldl _ _ _ (fun _ _ h => wf_homeAccess _ _ _ _ _ h) (wf_regionRun _ _ _ _ _ _ h0 _ ha)
  · cases hr; exact h0
theorem wf_readReply (s : State) (m : XMsg) (pk : Packet) (h0 : Memory.wf s.mem = true) :
    Memory.wf (State.readReply s m pk).mem = true := by
  unfold State.readReply
  split
  · exact h0
  · split
    · exact h0
    · split
      · exact wf_xFinish _ _ _ h0
      · next ws t ht =>
        have h1 := wf_replyWords _ _ _ _ h0 _ ht
        dsimp only at h1 ⊢
        split
        · refine wf_wake _ (wf_dropX _ _ ?_)
          exact wf_optMap _ _ _ (fun id => wf_giveItem _ _ _ _ _ h1) h1
        · exact h1
theorem wf_placeAtHome (s : State) (a1 : Placing) (a2 : Nat) (h0 : Memory.wf s.mem = true) :
    ∀ r, State.placeAtHome s a1 a2 = some r → Memory.wf r.mem = true := by
  unfold State.placeAtHome
  repeat' (first | with_reducible assumption | with_reducible apply wf_coreWrite | with_reducible apply wf_engineWrite | dsimp only | exact True.intro | split | (intro hq; injection hq with hq; subst hq) | (intro hq; cases hq; done) | intro _)
theorem wf_placeLocal (s : State) (a1 : XMsg) (a2 : Nat) (a3 : Word × Bool) (h0 : Memory.wf s.mem = true) :
    ∀ r, State.placeLocal s a1 a2 a3 = some r → Memory.wf r.mem = true := by
  unfold State.placeLocal
  repeat' (first | with_reducible assumption | with_reducible apply wf_xPut | dsimp only | exact True.intro | split | (intro hq; injection hq with hq; subst hq) | (intro hq; cases hq; done) | intro _)
theorem wf_placeWord (s : State) (a1 : Placing) (a2 : Nat) (h0 : Memory.wf s.mem = true) :
    ∀ r, State.placeWord s a1 a2 = some r → Memory.wf r.mem = true := by
  unfold State.placeWord
  repeat' (first | with_reducible assumption | with_reducible refine wf_placeLocal _ _ _ _ ?_ | with_reducible refine wf_placeLocal _ _ _ _ ?_ _ (by assumption) | with_reducible refine wf_placeAtHome _ _ _ ?_ | with_reducible refine wf_placeAtHome _ _ _ ?_ _ (by assumption) | with_reducible apply wf_getD | dsimp only | exact True.intro | split | (intro hq; injection hq with hq; subst hq) | (intro hq; cases hq; done) | intro _)
theorem wf_endPlacing (s : State) (a1 : Placing) (h0 : Memory.wf s.mem = true) :
    Memory.wf (State.endPlacing s a1).mem = true := by
  unfold State.endPlacing
  repeat' (first | with_reducible assumption | with_reducible apply wf_rxDone | with_reducible apply wf_rxSettle | with_reducible apply wf_modX | dsimp only | exact True.intro | intro _ | split)
theorem wf_placeGo (s : State) (id : Nat) (h0 : Memory.wf s.mem = true) :
    ∀ r, State.placeGo s id = some r → Memory.wf r.mem = true := by
  intro r hr
  unfold State.placeGo at hr
  split at hr
  · cases hr
  · dsimp only at hr
    split at hr
    · split at hr
      · cases hr
      · cases hr; exact wf_wake _ (wf_endPlacing _ _ h0)
    · obtain ⟨a, ha, rfl⟩ := Option.map_eq_some_iff.mp hr
      have h1 := wf_placeWord _ _ _ (wf_fresh _ h0) _ ha
      split
      · exact wf_wake _ (wf_endPlacing _ _ h1)
      · exact h1
theorem wf_packetArrive (a0 : Packet) (s : State) (h1 : Memory.wf s.mem = true) :
    Memory.wf (packetArrive a0 s).mem = true := by
  unfold packetArrive
  repeat' (first | with_reducible assumption | with_reducible apply wf_readReply | with_reducible apply wf_arrive | dsimp only | exact True.intro | intro _ | split)
theorem wf_execPacketArrive (a0 : Packet) (s : State) (h1 : Memory.wf s.mem = true) :
    NextOk (execPacketArrive a0 s) := by
  unfold execPacketArrive
  repeat' (first | with_reducible assumption | with_reducible apply wf_packetArrive | dsimp only | exact True.intro | with_reducible apply nextOk_next | intro _ | split)
theorem wf_finalAck (a0 : Nat) (a1 : Nat) (s : State) (h2 : Memory.wf s.mem = true) :
    Memory.wf (finalAck a0 a1 s).mem = true := by
  unfold finalAck
  repeat' (first | with_reducible assumption | with_reducible apply wf_xFinish | dsimp only | exact True.intro | intro _ | (split <;> (try (rename_i hq; have hq1 := congrArg Prod.snd hq; dsimp only at hq1; subst hq1))))
theorem wf_execFinalAck (a0 : Nat) (a1 : Nat) (s : State) (h2 : Memory.wf s.mem = true) :
    NextOk (execFinalAck a0 a1 s) := by
  unfold execFinalAck
  repeat' (first | with_reducible assumption | with_reducible apply wf_finalAck | dsimp only | exact True.intro | with_reducible apply nextOk_next | intro _ | split)
theorem wf_xFail (s : State) (a1 : XMsg) (a2 : Nat) (h0 : Memory.wf s.mem = true) :
    Memory.wf (State.xFail s a1 a2).mem = true := by
  unfold State.xFail
  repeat' (first | with_reducible assumption | with_reducible apply wf_xFinish | dsimp only | exact True.intro | intro _ | split)
theorem wf_packetResend (a0 : Nat) (a1 : Nat) (s : State) (h2 : Memory.wf s.mem = true) :
    Memory.wf (packetResend a0 a1 s).mem = true := by
  unfold packetResend
  repeat' (first | with_reducible assumption | with_reducible apply wf_xFail | with_reducible apply wf_modX | dsimp only | exact True.intro | intro _ | split)
theorem wf_execPacketResend (a0 : Nat) (a1 : Nat) (s : State) (h2 : Memory.wf s.mem = true) :
    NextOk (execPacketResend a0 a1 s) := by
  unfold execPacketResend
  repeat' (first | with_reducible assumption | with_reducible apply wf_packetResend | dsimp only | exact True.intro | with_reducible apply nextOk_next | intro _ | split)
theorem wf_messageTimeout (a0 : Nat) (s : State) (h1 : Memory.wf s.mem = true) :
    Memory.wf (messageTimeout a0 s).mem = true := by
  unfold messageTimeout
  repeat' (first | with_reducible assumption | with_reducible apply wf_xFail | dsimp only | exact True.intro | intro _ | split)
theorem wf_execMessageTimeout (a0 : Nat) (s : State) (h1 : Memory.wf s.mem = true) :
    NextOk (execMessageTimeout a0 s) := by
  unfold execMessageTimeout
  repeat' (first | with_reducible assumption | with_reducible apply wf_messageTimeout | dsimp only | exact True.intro | with_reducible apply nextOk_next | intro _ | split)
theorem wf_nobufDeadline (a0 : Nat) (s : State) (h1 : Memory.wf s.mem = true) :
    Memory.wf (nobufDeadline a0 s).mem = true := by
  unfold nobufDeadline
  repeat' (first | with_reducible assumption | with_reducible apply wf_xFinish | dsimp only | exact True.intro | intro _ | split)
theorem wf_execNobufDeadline (a0 : Nat) (s : State) (h1 : Memory.wf s.mem = true) :
    NextOk (execNobufDeadline a0 s) := by
  unfold execNobufDeadline
  repeat' (first | with_reducible assumption | with_reducible apply wf_nobufDeadline | dsimp only | exact True.intro | with_reducible apply nextOk_next | intro _ | split)
theorem wf_congestionUpdate (a0 : Byte) (a1 : Nat) (a2 : List Word) (s : State) (h3 : Memory.wf s.mem = true) :
    Memory.wf (congestionUpdate a0 a1 a2 s).mem = true := by
  unfold congestionUpdate
  repeat' (first | with_reducible assumption | with_reducible apply wf_modCtx | with_reducible apply wf_putBytes | dsimp only | exact True.intro | intro _ | split)
theorem wf_execCongestionUpdate (a0 : Byte) (a1 : Nat) (a2 : List Word) (s : State) (h3 : Memory.wf s.mem = true) :
    NextOk (execCongestionUpdate a0 a1 a2 s) := by
  unfold execCongestionUpdate
  repeat' (first | with_reducible assumption | with_reducible apply wf_congestionUpdate | dsimp only | exact True.intro | with_reducible apply nextOk_next | intro _ | split)

end Sys2Proof.Machine
end

