-- ==== Sys2Proof/Laws/CanonSystem.lean ====
section
/-! SUPPORT. Memory stays canonical (MemoryCanonical): the operations of placement, launches, coherence, synchronisation and management. -/

namespace Sys2Proof.Machine

/-! Place. -/

theorem wf_enginePut (s : State) (a1 : Byte) (a2 : Nat) (a3 : Word) (h0 : Memory.wf s.mem = true) :
    Memory.wf (State.enginePut s a1 a2 a3).mem = true := by
  unfold State.enginePut
  repeat' (first | with_reducible assumption | with_reducible apply wf_engineKeyed | with_reducible apply wf_engineWrite | dsimp only | exact True.intro | intro _ | split)
theorem wf_enginePuts (s : State) (c : Byte) (a : Nat) (bs : List Byte) (h0 : Memory.wf s.mem = true) :
    Memory.wf (State.enginePuts s c a bs).mem = true := by
  induction s, a, bs using State.enginePuts.induct (c := c) with
  | case1 s a b0 b1 b2 b3 r ih => unfold State.enginePuts; exact ih (wf_enginePut _ _ _ _ h0)
  | case2 s a bs h => 
    unfold State.enginePuts
    split
    · exact absurd rfl (h _ _ _ _ _)
    · exact h0
theorem wf_drainL1 (s : State) (a1 : Nat) (h0 : Memory.wf s.mem = true) :
    Memory.wf (State.drainL1 s a1).mem = true := by
  unfold State.drainL1
  repeat' (first | with_reducible assumption | with_reducible apply wf_homeAccess | with_reducible apply wf_setHome | with_reducible apply wf_modCore | with_reducible apply wf_foldl | with_reducible apply wf_foldl2 | with_reducible apply wf_foldl1 | with_reducible apply wf_foldl22 | dsimp only | exact True.intro | intro _ | split)
theorem wf_fuse (s : State) (a1 : Nat) (a2 : List Nat) (h0 : Memory.wf s.mem = true) :
    Memory.wf (State.fuse s a1 a2).mem = true := by
  unfold State.fuse
  repeat' (first | with_reducible assumption | with_reducible apply wf_drainL1 | with_reducible apply wf_modCore | with_reducible apply wf_foldl | with_reducible apply wf_foldl2 | with_reducible apply wf_foldl1 | with_reducible apply wf_foldl22 | dsimp only | exact True.intro | intro _ | split)
theorem wf_unfuse (s : State) (a1 : List Nat) (h0 : Memory.wf s.mem = true) :
    Memory.wf (State.unfuse s a1).mem = true := by
  unfold State.unfuse
  repeat' (first | with_reducible assumption | with_reducible apply wf_drainL1 | with_reducible apply wf_modCore | with_reducible apply wf_foldl | with_reducible apply wf_foldl2 | with_reducible apply wf_foldl1 | with_reducible apply wf_foldl22 | dsimp only | exact True.intro | intro _ | split)
theorem wf_modLaunch (s : State) (a1 : Nat) (a2 : Launch → Launch) (h0 : Memory.wf s.mem = true) :
    Memory.wf (State.modLaunch s a1 a2).mem = true := by
  unfold State.modLaunch
  repeat' (first | with_reducible assumption | dsimp only | exact True.intro | intro _ | split)
theorem wf_placeSet (s : State) (a1 : Nat) (a2 : Nat) (a3 : Nat × Nat) (h0 : Memory.wf s.mem = true) :
    Memory.wf (State.placeSet s a1 a2 a3).1.mem = true := by
  unfold State.placeSet
  repeat' (first | with_reducible assumption | with_reducible apply wf_modLaunch | with_reducible apply wf_fuse | with_reducible apply wf_newId | with_reducible apply wf_foldl | with_reducible apply wf_foldl2 | with_reducible apply wf_foldl1 | with_reducible apply wf_foldl22 | dsimp only | exact True.intro | intro _ | (split <;> (try (rename_i hq; have hq1 := congrArg Prod.snd hq; dsimp only at hq1; subst hq1))))
theorem wf_pass (s : State) (a1 : Launch) (h0 : Memory.wf s.mem = true) :
    Memory.wf (State.pass s a1).1.mem = true := by
  unfold State.pass
  repeat' (first | with_reducible assumption | with_reducible apply wf_placeSet | with_reducible apply wf_foldl | with_reducible apply wf_foldl2 | with_reducible apply wf_foldl1 | with_reducible apply wf_foldl22 | dsimp only | exact True.intro | intro _ | split)
theorem wf_requestPre (s : State) (a1 : List Nat) (h0 : Memory.wf s.mem = true) :
    Memory.wf (State.requestPre s a1).mem = true := by
  unfold State.requestPre
  repeat' (first | with_reducible assumption | with_reducible apply wf_mgmtEvent | with_reducible apply wf_tokenBack | with_reducible apply wf_wake | with_reducible apply wf_modGroup | with_reducible apply wf_foldl | with_reducible apply wf_foldl2 | with_reducible apply wf_foldl1 | with_reducible apply wf_foldl22 | dsimp only | exact True.intro | intro _ | split)
theorem wf_takeVictim (s : State) (a1 : Launch) (a2 : Launch) (h0 : Memory.wf s.mem = true) :
    Memory.wf (State.takeVictim s a1 a2).1.mem = true := by
  unfold State.takeVictim
  repeat' (first | with_reducible assumption | with_reducible apply wf_requestPre | with_reducible apply wf_modLaunch | dsimp only | exact True.intro | intro _ | split)
theorem wf_pressFor (s : State) (a1 : Launch) (h0 : Memory.wf s.mem = true) :
    Memory.wf (State.pressFor s a1).mem = true := by
  unfold State.pressFor
  repeat' (first | with_reducible assumption | with_reducible apply wf_takeVictim | with_reducible apply wf_foldl | with_reducible apply wf_foldl2 | with_reducible apply wf_foldl1 | with_reducible apply wf_foldl22 | dsimp only | exact True.intro | intro _ | split)
theorem wf_pressure (s : State) (h0 : Memory.wf s.mem = true) :
    Memory.wf (State.pressure s).mem = true := by
  unfold State.pressure
  repeat' (first | with_reducible assumption | with_reducible apply wf_pressFor | with_reducible apply wf_foldl | with_reducible apply wf_foldl2 | with_reducible apply wf_foldl1 | with_reducible apply wf_foldl22 | dsimp only | exact True.intro | intro _ | split)

/-! Queue. -/

theorem wf_modEngine (s : State) (a1 : Engine → Engine) (h0 : Memory.wf s.mem = true) :
    Memory.wf (State.modEngine s a1).mem = true := by
  unfold State.modEngine
  repeat' (first | with_reducible assumption | dsimp only | exact True.intro | intro _ | split)
theorem wf_lestatSet (s : State) (a1 : Word) (a2 : Nat) (h0 : Memory.wf s.mem = true) :
    Memory.wf (State.lestatSet s a1 a2).mem = true := by
  unfold State.lestatSet
  repeat' (first | with_reducible assumption | with_reducible apply wf_modEngine | dsimp only | exact True.intro | intro _ | split)
theorem wf_pendSet (s : State) (a1 : Nat) (a2 : Bool) (h0 : Memory.wf s.mem = true) :
    Memory.wf (State.pendSet s a1 a2).mem = true := by
  unfold State.pendSet
  repeat' (first | with_reducible assumption | with_reducible apply wf_enginePut | dsimp only | exact True.intro | intro _ | split)
theorem wf_slotPut (s : State) (a1 : Nat) (a2 : Slot) (h0 : Memory.wf s.mem = true) :
    Memory.wf (State.slotPut s a1 a2).mem = true := by
  unfold State.slotPut
  repeat' (first | with_reducible assumption | with_reducible apply wf_modEngine | dsimp only | exact True.intro | intro _ | split)
theorem wf_bindSlot (s : State) (a1 : Nat) (a2 : Nat) (h0 : Memory.wf s.mem = true) :
    Memory.wf (State.bindSlot s a1 a2).mem = true := by
  unfold State.bindSlot
  repeat' (first | with_reducible assumption | with_reducible apply wf_slotPut | dsimp only | exact True.intro | intro _ | split)
theorem wf_freeSlot (s : State) (k : Nat) (h0 : Memory.wf s.mem = true) : Memory.wf (State.freeSlot s k).mem = true := by
  unfold State.freeSlot
  extract_lets t
  have ht : Memory.wf t.mem = true := wf_modEngine _ _ h0
  clear_value t
  split
  · exact ht
  · split
    · exact ht
    · exact wf_bindSlot _ _ _ (wf_pendSet _ _ _ ht)
theorem wf_reclaimSlots (s : State) (h0 : Memory.wf s.mem = true) :
    Memory.wf (State.reclaimSlots s).mem = true := by
  unfold State.reclaimSlots
  repeat' (first | with_reducible assumption | with_reducible apply wf_freeSlot | with_reducible apply wf_foldl | with_reducible apply wf_foldl2 | with_reducible apply wf_foldl1 | with_reducible apply wf_foldl22 | dsimp only | exact True.intro | intro _ | split)

/-! Preempt. -/

theorem wf_forcedSave (a0 : Nat) (s : State) (h1 : Memory.wf s.mem = true) :
    Memory.wf (forcedSave a0 s).mem = true := by
  unfold forcedSave
  repeat' (first | with_reducible assumption | with_reducible apply wf_modGroup | dsimp only | exact True.intro | intro _ | split)
theorem wf_execForcedSave (a0 : Nat) (s : State) (h1 : Memory.wf s.mem = true) :
    NextOk (execForcedSave a0 s) := by
  unfold execForcedSave
  repeat' (first | with_reducible assumption | with_reducible apply wf_forcedSave | dsimp only | exact True.intro | with_reducible apply nextOk_next | intro _ | split)
theorem wf_pftArrive (s : State) (a1 : Pft) (h0 : Memory.wf s.mem = true) :
    Memory.wf (State.pftArrive s a1).mem = true := by
  unfold State.pftArrive
  repeat' (first | with_reducible assumption | with_reducible apply wf_doAct | dsimp only | exact True.intro | intro _ | split)
theorem wf_pftCancel (a0 : Nat) (s : State) (h1 : Memory.wf s.mem = true) :
    Memory.wf (pftCancel a0 s).mem = true := by
  unfold pftCancel
  repeat' (first | with_reducible assumption | with_reducible apply wf_pftArrive | with_reducible apply wf_wake | dsimp only | exact True.intro | intro _ | (split <;> (try (rename_i hq; have hq1 := congrArg Prod.snd hq; dsimp only at hq1; subst hq1))))
theorem wf_execPftCancel (a0 : Nat) (s : State) (h1 : Memory.wf s.mem = true) :
    NextOk (execPftCancel a0 s) := by
  unfold execPftCancel
  repeat' (first | with_reducible assumption | with_reducible apply wf_pftCancel | dsimp only | exact True.intro | with_reducible apply nextOk_next | intro _ | split)
theorem wf_denufPreempt (a0 : PreTarget) (s : State) (h1 : Memory.wf s.mem = true) :
    Memory.wf (denufPreempt a0 s).mem = true := by
  unfold denufPreempt
  repeat' (first | with_reducible assumption | with_reducible apply wf_requestPre | dsimp only | exact True.intro | intro _ | split)
theorem wf_execDenufPreempt (a0 : PreTarget) (s : State) (h1 : Memory.wf s.mem = true) :
    NextOk (execDenufPreempt a0 s) := by
  unfold execDenufPreempt
  repeat' (first | with_reducible assumption | with_reducible apply wf_denufPreempt | dsimp only | exact True.intro | with_reducible apply nextOk_next | intro _ | split)
theorem wf_areaWrite (s : State) (a1 : Byte) (a2 : Nat) (a3 : List Byte) (h0 : Memory.wf s.mem = true) :
    Memory.wf (State.areaWrite s a1 a2 a3).mem = true := by
  unfold State.areaWrite
  repeat' (first | with_reducible assumption | with_reducible apply wf_putBytes | dsimp only | exact True.intro | intro _ | split)
theorem wf_areaHeader (s : State) (a1 : Byte) (h0 : Memory.wf s.mem = true) :
    Memory.wf (State.areaHeader s a1).mem = true := by
  unfold State.areaHeader
  repeat' (first | with_reducible assumption | with_reducible apply wf_areaWrite | dsimp only | exact True.intro | intro _ | split)
theorem wf_saveGroup (s : State) (a1 : Nat) (h0 : Memory.wf s.mem = true) :
    Memory.wf (State.saveGroup s a1).mem = true := by
  unfold State.saveGroup
  repeat' (first | with_reducible assumption | with_reducible apply wf_areaWrite | with_reducible apply wf_modCtx | with_reducible apply wf_dropScore | with_reducible apply wf_foldl | with_reducible apply wf_foldl2 | with_reducible apply wf_foldl1 | with_reducible apply wf_foldl22 | dsimp only | exact True.intro | intro _ | split)
theorem wf_unfuseIdle (s : State) (a1 : Nat) (h0 : Memory.wf s.mem = true) :
    Memory.wf (State.unfuseIdle s a1).mem = true := by
  unfold State.unfuseIdle
  repeat' (first | with_reducible assumption | with_reducible apply wf_unfuse | dsimp only | exact True.intro | intro _ | split)
theorem wf_applyHeld (s : State) (a1 : Nat) (a2 : Action) (h0 : Memory.wf s.mem = true) :
    Memory.wf (State.applyHeld s a1 a2).mem = true := by
  unfold State.applyHeld
  repeat' (first | with_reducible assumption | with_reducible apply wf_doAct | with_reducible apply wf_setSp | with_reducible apply wf_writeDest | dsimp only | exact True.intro | intro _ | split)
theorem wf_replayBld (s : State) (a1 : Nat) (h0 : Memory.wf s.mem = true) :
    Memory.wf (State.replayBld s a1).mem = true := by
  unfold State.replayBld
  repeat' (first | with_reducible assumption | with_reducible apply wf_bldFill | with_reducible apply wf_modSeq | with_reducible apply wf_foldl | with_reducible apply wf_foldl2 | with_reducible apply wf_foldl1 | with_reducible apply wf_foldl22 | dsimp only | exact True.intro | intro _ | split)
theorem wf_restoreGroup (s : State) (a1 : Saved) (a2 : Fit) (a3 : Nat) (h0 : Memory.wf s.mem = true) :
    Memory.wf (State.restoreGroup s a1 a2 a3).mem = true := by
  unfold State.restoreGroup
  repeat' (first | with_reducible assumption | with_reducible apply wf_replayBld | with_reducible apply wf_takeScore | with_reducible apply wf_modCore | with_reducible apply wf_foldl | with_reducible apply wf_foldl2 | with_reducible apply wf_foldl1 | with_reducible apply wf_foldl22 | with_reducible apply wf_optMap | dsimp only | exact True.intro | intro _ | split)
theorem wf_dropSaved (s : State) (a1 : Saved) (h0 : Memory.wf s.mem = true) :
    Memory.wf (State.dropSaved s a1).mem = true := by
  unfold State.dropSaved
  repeat' (first | with_reducible assumption | with_reducible apply wf_modLaunch | dsimp only | exact True.intro | intro _ | split)
theorem wf_areaEmpty (s : State) (a1 : Byte) (h0 : Memory.wf s.mem = true) :
    Memory.wf (State.areaEmpty s a1).mem = true := by
  unfold State.areaEmpty
  repeat' (first | with_reducible assumption | with_reducible apply wf_areaHeader | with_reducible apply wf_modCtx | dsimp only | exact True.intro | intro _ | split)
theorem wf_restoreSet (s : State) (a1 : Saved) (h0 : Memory.wf s.mem = true) :
    Memory.wf (State.restoreSet s a1).mem = true := by
  unfold State.restoreSet
  repeat' (first | with_reducible assumption | with_reducible apply wf_areaEmpty | with_reducible apply wf_dropSaved | with_reducible apply wf_restoreGroup | with_reducible apply wf_applyHeld | with_reducible apply wf_fuse | with_reducible apply wf_wake | with_reducible apply wf_foldl | with_reducible apply wf_foldl2 | with_reducible apply wf_foldl1 | with_reducible apply wf_foldl22 | with_reducible apply wf_optMap | dsimp only | exact True.intro | intro _ | split)
theorem wf_restoreComplete (a0 : Nat) (s : State) (h1 : Memory.wf s.mem = true) :
    Memory.wf (restoreComplete a0 s).mem = true := by
  unfold restoreComplete
  repeat' (first | with_reducible assumption | with_reducible apply wf_wake | with_reducible apply wf_modGroup | dsimp only | exact True.intro | intro _ | (split <;> (try (rename_i hq; have hq1 := congrArg Prod.snd hq; dsimp only at hq1; subst hq1))))
theorem wf_execRestoreComplete (a0 : Nat) (s : State) (h1 : Memory.wf s.mem = true) :
    NextOk (execRestoreComplete a0 s) := by
  unfold execRestoreComplete
  repeat' (first | with_reducible assumption | with_reducible apply wf_restoreComplete | dsimp only | exact True.intro | with_reducible apply nextOk_next | intro _ | split)
theorem wf_placeAt (s : State) (a1 : Nat) (a2 : Launch) (h0 : Memory.wf s.mem = true) :
    Memory.wf (State.placeAt s a1 a2).1.mem = true := by
  unfold State.placeAt
  repeat' (first | with_reducible assumption | with_reducible apply wf_placeSet | with_reducible apply wf_modLaunch | with_reducible apply wf_foldl | with_reducible apply wf_foldl2 | with_reducible apply wf_foldl1 | with_reducible apply wf_foldl22 | dsimp only | exact True.intro | intro _ | split)
theorem wf_giveCore (c lsn n : Nat) (s : State) (h0 : Memory.wf s.mem = true) : Memory.wf (State.giveCore c lsn n s).mem = true := by
  induction n generalizing s with
  | zero => exact h0
  | succ n ih =>
    unfold State.giveCore
    split
    · exact h0
    · split
      · dsimp only
        split
        · exact ih _ (wf_restoreSet _ _ h0)
        · exact h0
      · dsimp only
        split
        · exact ih _ (wf_placeAt _ _ _ h0)
        · exact wf_placeAt _ _ _ h0
theorem wf_refill (s : State) (a1 : List Nat) (h0 : Memory.wf s.mem = true) :
    Memory.wf (State.refill s a1).mem = true := by
  unfold State.refill
  repeat' (first | with_reducible assumption | with_reducible apply wf_giveCore | with_reducible apply wf_reclaimSlots | with_reducible apply wf_foldl | with_reducible apply wf_foldl2 | with_reducible apply wf_foldl1 | with_reducible apply wf_foldl22 | dsimp only | exact True.intro | intro _ | split)
theorem wf_saveEnd (s : State) (a1 : Byte) (h0 : Memory.wf s.mem = true) :
    Memory.wf (State.saveEnd s a1).mem = true := by
  unfold State.saveEnd
  repeat' (first | with_reducible assumption | with_reducible apply wf_refill | with_reducible apply wf_areaHeader | with_reducible apply wf_pressure | with_reducible apply wf_modCtx | dsimp only | exact True.intro | intro _ | split)
theorem wf_restoreStart (a0 : Nat) (s : State) (h1 : Memory.wf s.mem = true) :
    Memory.wf (restoreStart a0 s).mem = true := by
  unfold restoreStart
  repeat' (first | with_reducible assumption | with_reducible apply wf_saveEnd | with_reducible apply wf_refill | dsimp only | exact True.intro | intro _ | split)
theorem wf_execRestoreStart (a0 : Nat) (s : State) (h1 : Memory.wf s.mem = true) :
    NextOk (execRestoreStart a0 s) := by
  unfold execRestoreStart
  repeat' (first | with_reducible assumption | with_reducible apply wf_restoreStart | dsimp only | exact True.intro | with_reducible apply nextOk_next | intro _ | split)
theorem wf_resumeSet (s : State) (a1 : Nat) (h0 : Memory.wf s.mem = true) :
    Memory.wf (State.resumeSet s a1).mem = true := by
  unfold State.resumeSet
  repeat' (first | with_reducible assumption | with_reducible apply wf_modEngine | with_reducible apply wf_pressure | with_reducible apply wf_mgmtEvent | with_reducible apply wf_wake | with_reducible apply wf_modGroup | with_reducible apply wf_foldl | with_reducible apply wf_foldl2 | with_reducible apply wf_foldl1 | with_reducible apply wf_foldl22 | dsimp only | exact True.intro | intro _ | split)
theorem wf_beginSave (s : State) (a1 : Nat) (h0 : Memory.wf s.mem = true) :
    Memory.wf (State.beginSave s a1).mem = true := by
  unfold State.beginSave
  repeat' (first | with_reducible assumption | with_reducible apply wf_modGroup | dsimp only | exact True.intro | intro _ | split)
theorem wf_saveStart (a0 : Nat) (s : State) (h1 : Memory.wf s.mem = true) :
    Memory.wf (saveStart a0 s).mem = true := by
  unfold saveStart
  repeat' (first | with_reducible assumption | with_reducible apply wf_beginSave | with_reducible apply wf_resumeSet | dsimp only | exact True.intro | intro _ | (split <;> (try (rename_i hq; have hq1 := congrArg Prod.snd hq; dsimp only at hq1; subst hq1))))
theorem wf_execSaveStart (a0 : Nat) (s : State) (h1 : Memory.wf s.mem = true) :
    NextOk (execSaveStart a0 s) := by
  unfold execSaveStart
  repeat' (first | with_reducible assumption | with_reducible apply wf_saveStart | dsimp only | exact True.intro | with_reducible apply nextOk_next | intro _ | split)
theorem wf_finishSave (s : State) (a1 : Nat) (h0 : Memory.wf s.mem = true) :
    Memory.wf (State.finishSave s a1).mem = true := by
  unfold State.finishSave
  repeat' (first | with_reducible assumption | with_reducible apply wf_saveEnd | with_reducible apply wf_unfuseIdle | with_reducible apply wf_saveGroup | with_reducible apply wf_wake | with_reducible apply wf_foldl | with_reducible apply wf_foldl2 | with_reducible apply wf_foldl1 | with_reducible apply wf_foldl22 | dsimp only | exact True.intro | intro _ | split)
theorem wf_saveComplete (a0 : Nat) (s : State) (h1 : Memory.wf s.mem = true) :
    Memory.wf (saveComplete a0 s).mem = true := by
  unfold saveComplete
  repeat' (first | with_reducible assumption | with_reducible apply wf_finishSave | with_reducible apply wf_modGroup | dsimp only | exact True.intro | intro _ | (split <;> (try (rename_i hq; have hq1 := congrArg Prod.snd hq; dsimp only at hq1; subst hq1))))
theorem wf_execSaveComplete (a0 : Nat) (s : State) (h1 : Memory.wf s.mem = true) :
    NextOk (execSaveComplete a0 s) := by
  unfold execSaveComplete
  repeat' (first | with_reducible assumption | with_reducible apply wf_saveComplete | dsimp only | exact True.intro | with_reducible apply nextOk_next | intro _ | split)
theorem wf_leaveGroup (s : State) (a1 : Nat) (h0 : Memory.wf s.mem = true) :
    Memory.wf (State.leaveGroup s a1).mem = true := by
  unfold State.leaveGroup
  repeat' (first | with_reducible assumption | with_reducible apply wf_dropScore | with_reducible apply wf_unpin | with_reducible apply wf_foldl | with_reducible apply wf_foldl2 | with_reducible apply wf_foldl1 | with_reducible apply wf_foldl22 | dsimp only | exact True.intro | intro _ | split)
theorem wf_sweep (s : State) (h0 : Memory.wf s.mem = true) :
    Memory.wf (State.sweep s).mem = true := by
  unfold State.sweep
  repeat' (first | with_reducible assumption | dsimp only | exact True.intro | intro _ | split)
theorem wf_retireOwn (s : State) (a1 : Nat) (h0 : Memory.wf s.mem = true) :
    Memory.wf (State.retireOwn s a1).mem = true := by
  unfold State.retireOwn
  repeat' (first | with_reducible assumption | with_reducible apply wf_leaveGroup | with_reducible apply wf_modLaunch | with_reducible apply wf_flush | with_reducible apply wf_modGroup | dsimp only | exact True.intro | intro _ | split)
theorem wf_freeSet (s : State) (a1 : Nat) (h0 : Memory.wf s.mem = true) :
    Memory.wf (State.freeSet s a1).mem = true := by
  unfold State.freeSet
  repeat' (first | with_reducible assumption | with_reducible apply wf_sweep | with_reducible apply wf_refill | with_reducible apply wf_unfuseIdle | with_reducible apply wf_pressure | with_reducible apply wf_modGroup | with_reducible apply wf_foldl | with_reducible apply wf_foldl2 | with_reducible apply wf_foldl1 | with_reducible apply wf_foldl22 | dsimp only | exact True.intro | intro _ | split)
theorem wf_groupRetire (a0 : Nat) (s : State) (h1 : Memory.wf s.mem = true) :
    Memory.wf (groupRetire a0 s).mem = true := by
  unfold groupRetire
  repeat' (first | with_reducible assumption | with_reducible apply wf_freeSet | with_reducible apply wf_retireOwn | with_reducible apply wf_wake | dsimp only | exact True.intro | intro _ | split)
theorem wf_execGroupRetire (a0 : Nat) (s : State) (h1 : Memory.wf s.mem = true) :
    NextOk (execGroupRetire a0 s) := by
  unfold execGroupRetire
  repeat' (first | with_reducible assumption | with_reducible apply wf_groupRetire | dsimp only | exact True.intro | with_reducible apply nextOk_next | intro _ | split)

/-! Launch. -/

theorem wf_notifyQueue (s : State) (a1 : Nat) (h0 : Memory.wf s.mem = true) :
    Memory.wf (State.notifyQueue s a1).mem = true := by
  unfold State.notifyQueue
  repeat' (first | with_reducible assumption | with_reducible apply wf_bindSlot | with_reducible apply wf_slotPut | with_reducible apply wf_pendSet | with_reducible apply wf_lestatSet | with_reducible apply wf_mgmtEvent | dsimp only | exact True.intro | intro _ | (split <;> (try (rename_i hq; have hq1 := congrArg Prod.snd hq; dsimp only at hq1; subst hq1))))
theorem wf_qnotify (a0 : Word) (s : State) (h1 : Memory.wf s.mem = true) :
    Memory.wf (qnotify a0 s).mem = true := by
  unfold qnotify
  repeat' (first | with_reducible assumption | with_reducible apply wf_notifyQueue | with_reducible apply wf_modEngine | dsimp only | exact True.intro | intro _ | split)
theorem wf_execQnotify (a0 : Word) (s : State) (h1 : Memory.wf s.mem = true) :
    NextOk (execQnotify a0 s) := by
  unfold execQnotify
  repeat' (first | with_reducible assumption | with_reducible apply wf_qnotify | dsimp only | exact True.intro | with_reducible apply nextOk_next | intro _ | split)
theorem wf_queueError (s : State) (a1 : Nat) (a2 : Nat) (h0 : Memory.wf s.mem = true) :
    Memory.wf (State.queueError s a1 a2).mem = true := by
  unfold State.queueError
  repeat' (first | with_reducible assumption | with_reducible apply wf_freeSlot | with_reducible apply wf_lestatSet | with_reducible apply wf_enginePut | with_reducible apply wf_mgmtEvent | dsimp only | exact True.intro | intro _ | split)
theorem wf_consider (s : State) (a1 : Nat) (h0 : Memory.wf s.mem = true) :
    Memory.wf (State.consider s a1).mem = true := by
  unfold State.consider
  repeat' (first | with_reducible assumption | with_reducible apply wf_queueError | with_reducible apply wf_freeSlot | with_reducible apply wf_slotPut | dsimp only | exact True.intro | intro _ | split)
theorem wf_serve (s : State) (h0 : Memory.wf s.mem = true) :
    Memory.wf (State.serve s).mem = true := by
  unfold State.serve
  repeat' (first | with_reducible assumption | with_reducible apply wf_modEngine | dsimp only | exact True.intro | intro _ | split)
theorem wf_settleAges (s : State) (h0 : Memory.wf s.mem = true) :
    Memory.wf (State.settleAges s).mem = true := by
  unfold State.settleAges
  repeat' (first | with_reducible assumption | with_reducible apply wf_modEngine | dsimp only | exact True.intro | intro _ | split)
theorem wf_slotServe (s : State) (h0 : Memory.wf s.mem = true) : Memory.wf (slotServe s).mem = true := by
  unfold slotServe
  split
  · exact h0
  · exact wf_pressure _ (wf_serve _ (wf_settleAges _ (wf_foldl _ _ _ (fun _ _ h => wf_consider _ _ h) h0)))
theorem wf_execSlotServe (s : State) (h0 : Memory.wf s.mem = true) :
    NextOk (execSlotServe s) := by
  unfold execSlotServe
  repeat' (first | with_reducible assumption | with_reducible apply wf_slotServe | dsimp only | exact True.intro | with_reducible apply nextOk_next | intro _ | split)
theorem wf_older (s : State) (a1 : Nat) (h0 : Memory.wf s.mem = true) :
    Memory.wf (State.older s a1).mem = true := by
  unfold State.older
  repeat' (first | with_reducible assumption | with_reducible apply wf_slotPut | dsimp only | exact True.intro | intro _ | split)
theorem wf_ageperExpiry (s : State) (h0 : Memory.wf s.mem = true) :
    Memory.wf (ageperExpiry s).mem = true := by
  unfold ageperExpiry
  repeat' (first | with_reducible assumption | with_reducible apply wf_older | with_reducible apply wf_settleAges | with_reducible apply wf_fresh | dsimp only | exact True.intro | intro _ | (split <;> (try (rename_i hq; have hq1 := congrArg Prod.snd hq; dsimp only at hq1; subst hq1))))
theorem wf_execAgeperExpiry (s : State) (h0 : Memory.wf s.mem = true) :
    NextOk (execAgeperExpiry s) := by
  unfold execAgeperExpiry
  repeat' (first | with_reducible assumption | with_reducible apply wf_ageperExpiry | dsimp only | exact True.intro | with_reducible apply nextOk_next | intro _ | split)
theorem wf_takeRecord (s : State) (a1 : Nat) (a2 : List Byte) (a3 : Slot) (h0 : Memory.wf s.mem = true) :
    Memory.wf (State.takeRecord s a1 a2 a3).mem = true := by
  unfold State.takeRecord
  repeat' (first | with_reducible assumption | with_reducible apply wf_slotPut | with_reducible apply wf_modEngine | with_reducible apply wf_enginePuts | dsimp only | exact True.intro | intro _ | split)
theorem wf_enterLaunch (s : State) (a1 : Launch) (a2 : List Byte) (h0 : Memory.wf s.mem = true) :
    Memory.wf (State.enterLaunch s a1 a2).mem = true := by
  unfold State.enterLaunch
  repeat' (first | with_reducible assumption | with_reducible apply wf_modEngine | with_reducible apply wf_acquire | with_reducible apply wf_foldl | with_reducible apply wf_foldl2 | with_reducible apply wf_foldl1 | with_reducible apply wf_foldl22 | dsimp only | exact True.intro | intro _ | split)
theorem wf_enterRecord (s : State) (a1 : Nat) (a2 : List Byte) (a3 : Slot) (a4 : Nat) (a5 : Nat) (h0 : Memory.wf s.mem = true) :
    Memory.wf (State.enterRecord s a1 a2 a3 a4 a5).mem = true := by
  unfold State.enterRecord
  repeat' (first | with_reducible assumption | with_reducible apply wf_enterLaunch | with_reducible apply wf_lestatSet | with_reducible apply wf_mgmtEvent | dsimp only | exact True.intro | intro _ | split)
theorem wf_enterKernel (s : State) (a1 : Slot) (a2 : Nat) (a3 : Nat) (h0 : Memory.wf s.mem = true) :
    Memory.wf (State.enterKernel s a1 a2 a3).mem = true := by
  unfold State.enterKernel
  repeat' (first | with_reducible assumption | with_reducible apply wf_modEngine | with_reducible apply wf_openCmd | dsimp only | exact True.intro | intro _ | split)
theorem wf_recordAccept (a0 : Nat) (s : State) (h1 : Memory.wf s.mem = true) :
    Memory.wf (recordAccept a0 s).mem = true := by
  unfold recordAccept
  repeat' (first | with_reducible assumption | with_reducible apply wf_enterKernel | with_reducible apply wf_enterRecord | with_reducible apply wf_takeRecord | with_reducible apply wf_settleAges | with_reducible apply wf_modEngine | dsimp only | exact True.intro | intro _ | split)
theorem wf_execRecordAccept (a0 : Nat) (s : State) (h1 : Memory.wf s.mem = true) :
    NextOk (execRecordAccept a0 s) := by
  unfold execRecordAccept
  repeat' (first | with_reducible assumption | with_reducible apply wf_recordAccept | dsimp only | exact True.intro | with_reducible apply nextOk_next | intro _ | split)
theorem wf_placementPass (a0 : Nat) (s : State) (h1 : Memory.wf s.mem = true) :
    Memory.wf (placementPass a0 s).mem = true := by
  unfold placementPass
  repeat' (first | with_reducible assumption | with_reducible apply wf_pressure | with_reducible apply wf_pass | with_reducible apply wf_modLaunch | with_reducible apply wf_wake | dsimp only | exact True.intro | intro _ | (split <;> (try (rename_i hq; have hq1 := congrArg Prod.snd hq; dsimp only at hq1; subst hq1))))
theorem wf_execPlacementPass (a0 : Nat) (s : State) (h1 : Memory.wf s.mem = true) :
    NextOk (execPlacementPass a0 s) := by
  unfold execPlacementPass
  repeat' (first | with_reducible assumption | with_reducible apply wf_placementPass | dsimp only | exact True.intro | with_reducible apply nextOk_next | intro _ | split)
theorem wf_timeSliceExpiry (a0 : Byte) (s : State) (h1 : Memory.wf s.mem = true) :
    Memory.wf (timeSliceExpiry a0 s).mem = true := by
  unfold timeSliceExpiry
  repeat' (first | with_reducible assumption | with_reducible apply wf_requestPre | dsimp only | exact True.intro | intro _ | split)
theorem wf_execTimeSliceExpiry (a0 : Byte) (s : State) (h1 : Memory.wf s.mem = true) :
    NextOk (execTimeSliceExpiry a0 s) := by
  unfold execTimeSliceExpiry
  repeat' (first | with_reducible assumption | with_reducible apply wf_timeSliceExpiry | dsimp only | exact True.intro | with_reducible apply nextOk_next | intro _ | split)
theorem wf_tried (s : State) (o : State ⊕ Nat) (is : List Nat) (ho : ∀ t, o = .inl t → Memory.wf t.mem = true) (h0 : Memory.wf s.mem = true) :
    Memory.wf (match o with | .inl t => t | .inr cause => s.mgmtReport (is ++ [cause])).mem = true := by
  cases o with
  | inl t => exact ho t rfl
  | inr c => exact wf_mgmtReport _ _ h0
theorem wf_engine64 (s : State) (c : Byte) (va : Nat) (f : Nat → Nat) (h0 : Memory.wf s.mem = true) :
    ∀ t, s.engine64 c va f = .inl t → Memory.wf t.mem = true := by
  intro t ht
  unfold State.engine64 at ht
  split at ht
  · dsimp only at ht
    split at ht
    · cases ht
    · cases ht
      exact wf_engineWrite _ _ _ _ _ (wf_engineWrite _ _ _ _ _ (wf_engineKeyed _ _ _ _ (wf_engineKeyed _ _ _ _ h0)))
  · cases ht
  · cases ht
theorem wf_endRecord (s : State) (c : Byte) (lsn : Nat) (r : Record) (status : List Byte) (h0 : Memory.wf s.mem = true) :
    Memory.wf (State.endRecord s c lsn r status).mem = true := by
  unfold State.endRecord
  extract_lets s1 tr s2
  have h1 : Memory.wf s1.mem = true := by
    dsimp only [s1]
    split
    · exact h0
    · exact wf_enginePuts _ _ _ _ h0
  clear_value s1
  have h2 : Memory.wf s2.mem = true := by
    dsimp only [s2, tr]
    split
    · exact h1
    · exact wf_tried _ _ [lsn, 3] (wf_engine64 _ _ _ _ h1) h1
  clear_value s2
  split
  · exact wf_tried _ _ [lsn, 4] (wf_engine64 _ _ _ _ h2) h2
  · split
    · exact wf_notifyQueue _ _ h2
    · exact h2
theorem wf_endStage (s : State) (l : Launch) (k : Nat) (st : Stage) (h0 : Memory.wf s.mem = true) :
    Memory.wf (State.endStage s l k st).mem = true := by
  unfold State.endStage
  extract_lets s1 s2
  have h2 : Memory.wf s2.mem = true := wf_endRecord _ _ _ _ _ (wf_modLaunch _ _ _ h0)
  clear_value s2
  split
  · next e _ =>
    split
    · refine wf_getD _ _ (fun t ht => ?_) h2
      have h3 := wf_engine64 s2 l.ctx e.1 (fun v => (v + 1) % 2 ^ 64) h2 t
      generalize s2.engine64 l.ctx e.1 (fun v => (v + 1) % 2 ^ 64) = o at ht h3
      cases o with
      | inl u => cases ht; exact h3 rfl
      | inr c => cases ht
    · exact h2
  · exact h2
theorem wf_endWhole (s : State) (a1 : Launch) (h0 : Memory.wf s.mem = true) :
    Memory.wf (State.endWhole s a1).mem = true := by
  unfold State.endWhole
  repeat' (first | with_reducible assumption | with_reducible apply wf_endRecord | dsimp only | exact True.intro | intro _ | split)
theorem wf_dropLaunch (s : State) (a1 : Nat) (h0 : Memory.wf s.mem = true) :
    Memory.wf (State.dropLaunch s a1).mem = true := by
  unfold State.dropLaunch
  repeat' (first | with_reducible assumption | with_reducible apply wf_modEngine | dsimp only | exact True.intro | intro _ | split)
theorem wf_endDue (s : State) (a1 : Launch) (a2 : Nat) (h0 : Memory.wf s.mem = true) :
    Memory.wf (State.endDue s a1 a2).mem = true := by
  unfold State.endDue
  repeat' (first | with_reducible assumption | with_reducible apply wf_dropLaunch | with_reducible apply wf_endWhole | with_reducible apply wf_endStage | with_reducible apply wf_sweep | with_reducible apply wf_drainL1 | with_reducible apply wf_foldl | with_reducible apply wf_foldl2 | with_reducible apply wf_foldl1 | with_reducible apply wf_foldl22 | dsimp only | exact True.intro | intro _ | split)
theorem wf_launchEnd (a0 : Nat) (s : State) (h1 : Memory.wf s.mem = true) :
    Memory.wf (launchEnd a0 s).mem = true := by
  unfold launchEnd
  repeat' (first | with_reducible assumption | with_reducible apply wf_endDue | with_reducible apply wf_dropLaunch | with_reducible apply wf_endWhole | dsimp only | exact True.intro | intro _ | split)
theorem wf_execLaunchEnd (a0 : Nat) (s : State) (h1 : Memory.wf s.mem = true) :
    NextOk (execLaunchEnd a0 s) := by
  unfold execLaunchEnd
  repeat' (first | with_reducible assumption | with_reducible apply wf_launchEnd | dsimp only | exact True.intro | with_reducible apply nextOk_next | intro _ | split)
theorem wf_rebalExpiry (s : State) (h0 : Memory.wf s.mem = true) :
    Memory.wf (rebalExpiry s).mem = true := by
  unfold rebalExpiry
  repeat' (first | with_reducible assumption | with_reducible apply wf_modEngine | dsimp only | exact True.intro | intro _ | split)
theorem wf_execRebalExpiry (s : State) (h0 : Memory.wf s.mem = true) :
    NextOk (execRebalExpiry s) := by
  unfold execRebalExpiry
  repeat' (first | with_reducible assumption | with_reducible apply wf_rebalExpiry | dsimp only | exact True.intro | with_reducible apply nextOk_next | intro _ | split)
theorem wf_lectlEn (a0 : Bool) (s : State) (h1 : Memory.wf s.mem = true) :
    Memory.wf (lectlEn a0 s).mem = true := by
  unfold lectlEn
  repeat' (first | with_reducible assumption | with_reducible apply wf_settleAges | with_reducible apply wf_modEngine | dsimp only | exact True.intro | intro _ | split)
theorem wf_execLectlEn (a0 : Bool) (s : State) (h1 : Memory.wf s.mem = true) :
    NextOk (execLectlEn a0 s) := by
  unfold execLectlEn
  repeat' (first | with_reducible assumption | with_reducible apply wf_lectlEn | dsimp only | exact True.intro | with_reducible apply nextOk_next | intro _ | split)
theorem wf_lectlPause (a0 : Bool) (s : State) (h1 : Memory.wf s.mem = true) :
    Memory.wf (lectlPause a0 s).mem = true := by
  unfold lectlPause
  repeat' (first | with_reducible assumption | with_reducible apply wf_settleAges | with_reducible apply wf_modEngine | dsimp only | exact True.intro | intro _ | split)
theorem wf_execLectlPause (a0 : Bool) (s : State) (h1 : Memory.wf s.mem = true) :
    NextOk (execLectlPause a0 s) := by
  unfold execLectlPause
  repeat' (first | with_reducible assumption | with_reducible apply wf_lectlPause | dsimp only | exact True.intro | with_reducible apply nextOk_next | intro _ | split)
theorem wf_lestat (a0 : Word) (s : State) (h1 : Memory.wf s.mem = true) :
    Memory.wf (lestat a0 s).mem = true := by
  unfold lestat
  repeat' (first | with_reducible assumption | with_reducible apply wf_modEngine | dsimp only | exact True.intro | intro _ | split)
theorem wf_execLestat (a0 : Word) (s : State) (h1 : Memory.wf s.mem = true) :
    NextOk (execLestat a0 s) := by
  unfold execLestat
  repeat' (first | with_reducible assumption | with_reducible apply wf_lestat | dsimp only | exact True.intro | with_reducible apply nextOk_next | intro _ | split)
theorem wf_slotReclaim (slot : Nat) (s : State) (h0 : Memory.wf s.mem = true) : Memory.wf (slotReclaim slot s).mem = true := by
  unfold slotReclaim
  split
  · extract_lets ls gs t
    have ht : Memory.wf t.mem = true := by
      dsimp only [t]
      split
      · exact wf_slotPut _ _ _ h0
      · exact h0
    clear_value t ls gs
    split
    · exact h0
    · split
      · exact wf_freeSlot _ _ h0
      · exact wf_requestPre _ _ ht
  · exact h0
theorem wf_execSlotReclaim (a0 : Nat) (s : State) (h1 : Memory.wf s.mem = true) :
    NextOk (execSlotReclaim a0 s) := by
  unfold execSlotReclaim
  repeat' (first | with_reducible assumption | with_reducible apply wf_slotReclaim | dsimp only | exact True.intro | with_reducible apply nextOk_next | intro _ | split)

/-! Coherence. -/

theorem wf_takeMsg (s : State) (a1 : Nat) (h0 : Memory.wf s.mem = true) :
    ∀ r, State.takeMsg s a1 = some r → Memory.wf r.2.mem = true := by
  unfold State.takeMsg
  repeat' (first | with_reducible assumption | dsimp only | exact True.intro | split | (intro hq; injection hq with hq; subst hq) | (intro hq; cases hq; done) | intro _)
theorem wf_msgArrive (s : State) (n : Nat) (is : MsgKind → Bool) (act : Msg → State → State)
    (ha : ∀ m t, Memory.wf t.mem = true → Memory.wf (act m t).mem = true) (h0 : Memory.wf s.mem = true) :
    Memory.wf (State.msgArrive s n is act).mem = true := by
  unfold State.msgArrive
  split
  · exact h0
  · next m t ht =>
    split
    · exact ha _ _ (wf_takeMsg _ _ h0 _ ht)
    · exact h0
theorem wf_setOwners (s : State) (a1 : Nat) (a2 : List Nat) (h0 : Memory.wf s.mem = true) :
    Memory.wf (State.setOwners s a1 a2).mem = true := by
  unfold State.setOwners
  repeat' (first | with_reducible assumption | with_reducible apply wf_foldl | with_reducible apply wf_foldl2 | with_reducible apply wf_foldl1 | with_reducible apply wf_foldl22 | dsimp only | exact True.intro | intro _ | split)
theorem wf_dropOwners (s : State) (a1 : List Nat) (h0 : Memory.wf s.mem = true) :
    Memory.wf (State.dropOwners s a1).mem = true := by
  unfold State.dropOwners
  repeat' (first | with_reducible assumption | with_reducible apply wf_foldl | with_reducible apply wf_foldl2 | with_reducible apply wf_foldl1 | with_reducible apply wf_foldl22 | dsimp only | exact True.intro | intro _ | split)
theorem wf_evictFor (s : State) (a1 : List Nat) (a2 : Msg) (h0 : Memory.wf s.mem = true) :
    Memory.wf (State.evictFor s a1 a2).mem = true := by
  unfold State.evictFor
  repeat' (first | with_reducible assumption | with_reducible apply wf_startHold | with_reducible apply wf_send | with_reducible apply wf_fresh | with_reducible apply wf_optMap | dsimp only | exact True.intro | intro _ | (split <;> (try (rename_i hq; have hq1 := congrArg Prod.snd hq; dsimp only at hq1; subst hq1))))
theorem wf_sendAck (s : State) (a1 : Bool) (a2 : Msg) (h0 : Memory.wf s.mem = true) :
    Memory.wf (State.sendAck s a1 a2).mem = true := by
  unfold State.sendAck
  repeat' (first | with_reducible assumption | with_reducible apply wf_send | with_reducible apply wf_homeAccess | with_reducible apply wf_heatUp | dsimp only | exact True.intro | intro _ | split)
theorem wf_serveReg (s : State) (vals : Bool) (m : Msg) (h0 : Memory.wf s.mem = true) :
    Memory.wf (State.serveReg s vals m).mem = true := by
  have hs : ∀ i c t, Memory.wf t.mem = true →
      Memory.wf (State.send t (.rev vals) c m.line (wordBits (s.ownedBy c (lineWas m.line m.mask))) [] 0 i).mem = true :=
    fun _ _ _ h => h
  have h1 : Memory.wf ((s.setOwners m.core (lineWas m.line m.mask)).heatUp m.line).mem = true := wf_heatUp _ _ (wf_setOwners _ _ _ h0)
  unfold State.serveReg
  dsimp only
  split
  · exact wf_startHold _ _ _ _ _ _ _ _ _ hs h0
  · split
    · exact wf_evictFor _ _ _ h0
    · split
      · exact wf_sendAck _ _ _ h1
      · exact wf_startHold _ _ _ _ _ _ _ _ _ hs h1
theorem wf_homeData (s : State) (a1 : Nat) (a2 : Msg) (a3 : List (Nat × MemWord)) (h0 : Memory.wf s.mem = true) :
    Memory.wf (State.homeData s a1 a2 a3).mem = true := by
  unfold State.homeData
  repeat' (first | with_reducible assumption | with_reducible apply wf_send | with_reducible apply wf_homeAccess | dsimp only | exact True.intro | intro _ | split)
theorem wf_serveRd (s : State) (a1 : Msg) (h0 : Memory.wf s.mem = true) :
    Memory.wf (State.serveRd s a1).mem = true := by
  unfold State.serveRd
  repeat' (first | with_reducible assumption | with_reducible apply wf_homeData | with_reducible apply wf_send | with_reducible apply wf_foldl | with_reducible apply wf_foldl2 | with_reducible apply wf_foldl1 | with_reducible apply wf_foldl22 | dsimp only | exact True.intro | intro _ | split)
theorem wf_pullHome (s : State) (a1 : Nat) (h0 : Memory.wf s.mem = true) :
    Memory.wf (State.pullHome s a1).mem = true := by
  unfold State.pullHome
  repeat' (first | with_reducible assumption | with_reducible apply wf_disown | with_reducible apply wf_homeAccess | with_reducible apply wf_setHome | dsimp only | exact True.intro | intro _ | split)
theorem wf_serveUcw (s : State) (a1 : Nat) (a2 : Msg) (h0 : Memory.wf s.mem = true) :
    Memory.wf (State.serveUcw s a1 a2).mem = true := by
  unfold State.serveUcw
  repeat' (first | with_reducible assumption | with_reducible apply wf_rmwHome | with_reducible apply wf_giveItem | with_reducible apply wf_startHold | with_reducible apply wf_send | with_reducible apply wf_heatUp | with_reducible apply wf_setHome | with_reducible apply wf_foldl | with_reducible apply wf_foldl2 | with_reducible apply wf_foldl1 | with_reducible apply wf_foldl22 | dsimp only | exact True.intro | intro _ | split)
theorem wf_homeArrive (s : State) (a1 : Msg) (h0 : Memory.wf s.mem = true) :
    Memory.wf (State.homeArrive s a1).mem = true := by
  unfold State.homeArrive
  repeat' (first | with_reducible assumption | with_reducible apply wf_serveUcw | with_reducible apply wf_serveRd | with_reducible apply wf_serveReg | dsimp only | exact True.intro | intro _ | split)
theorem wf_endHold (s : State) (a1 : Hold) (h0 : Memory.wf s.mem = true) :
    Memory.wf (State.endHold s a1).mem = true := by
  unfold State.endHold
  repeat' (first | with_reducible assumption | with_reducible apply wf_homeArrive | with_reducible apply wf_sendAck | with_reducible apply wf_dropOwners | with_reducible apply wf_setOwners | with_reducible apply wf_foldl | with_reducible apply wf_foldl2 | with_reducible apply wf_foldl1 | with_reducible apply wf_foldl22 | dsimp only | exact True.intro | intro _ | split)
theorem wf_answered (s : State) (a1 : Msg) (h0 : Memory.wf s.mem = true) :
    Memory.wf (State.answered s a1).mem = true := by
  unfold State.answered
  repeat' (first | with_reducible assumption | with_reducible apply wf_endHold | with_reducible apply wf_dropOwners | dsimp only | exact True.intro | intro _ | split)
theorem wf_reg (a0 : Nat) (s : State) (h1 : Memory.wf s.mem = true) :
    Memory.wf (reg a0 s).mem = true := by
  unfold reg
  repeat' (first | with_reducible assumption | with_reducible apply wf_homeArrive | with_reducible apply wf_msgArrive | dsimp only | exact True.intro | intro _ | split)
theorem wf_execReg (a0 : Nat) (s : State) (h1 : Memory.wf s.mem = true) :
    NextOk (execReg a0 s) := by
  unfold execReg
  repeat' (first | with_reducible assumption | with_reducible apply wf_reg | dsimp only | exact True.intro | with_reducible apply nextOk_next | intro _ | split)
theorem wf_rd (a0 : Nat) (s : State) (h1 : Memory.wf s.mem = true) :
    Memory.wf (rd a0 s).mem = true := by
  unfold rd
  repeat' (first | with_reducible assumption | with_reducible apply wf_homeArrive | with_reducible apply wf_msgArrive | dsimp only | exact True.intro | intro _ | split)
theorem wf_execRd (a0 : Nat) (s : State) (h1 : Memory.wf s.mem = true) :
    NextOk (execRd a0 s) := by
  unfold execRd
  repeat' (first | with_reducible assumption | with_reducible apply wf_rd | dsimp only | exact True.intro | with_reducible apply nextOk_next | intro _ | split)
theorem wf_ucw (a0 : Nat) (s : State) (h1 : Memory.wf s.mem = true) :
    Memory.wf (ucw a0 s).mem = true := by
  unfold ucw
  repeat' (first | with_reducible assumption | with_reducible apply wf_homeArrive | with_reducible apply wf_msgArrive | dsimp only | exact True.intro | intro _ | split)
theorem wf_execUcw (a0 : Nat) (s : State) (h1 : Memory.wf s.mem = true) :
    NextOk (execUcw a0 s) := by
  unfold execUcw
  repeat' (first | with_reducible assumption | with_reducible apply wf_ucw | dsimp only | exact True.intro | with_reducible apply nextOk_next | intro _ | split)
theorem wf_ucwAcknowledge (a0 : Nat) (s : State) (h1 : Memory.wf s.mem = true) :
    Memory.wf (ucwAcknowledge a0 s).mem = true := by
  unfold ucwAcknowledge
  repeat' (first | with_reducible assumption | with_reducible apply wf_wake | dsimp only | exact True.intro | intro _ | split)
theorem wf_execUcwAcknowledge (a0 : Nat) (s : State) (h1 : Memory.wf s.mem = true) :
    NextOk (execUcwAcknowledge a0 s) := by
  unfold execUcwAcknowledge
  repeat' (first | with_reducible assumption | with_reducible apply wf_ucwAcknowledge | dsimp only | exact True.intro | with_reducible apply nextOk_next | intro _ | split)
theorem wf_ackWordIn (s : State) (a1 : Msg) (a2 : Nat) (h0 : Memory.wf s.mem = true) :
    Memory.wf (State.ackWordIn s a1 a2).mem = true := by
  unfold State.ackWordIn
  repeat' (first | with_reducible assumption | with_reducible apply wf_fixReads | with_reducible apply wf_makeRoom | with_reducible apply wf_setL1 | with_reducible apply wf_noAllocLine | dsimp only | exact True.intro | intro _ | split)
theorem wf_ack (a0 : Nat) (s : State) (h1 : Memory.wf s.mem = true) :
    Memory.wf (ack a0 s).mem = true := by
  unfold ack
  repeat' (first | with_reducible assumption | with_reducible apply wf_ackWordIn | with_reducible apply wf_msgArrive | with_reducible apply wf_runPend | with_reducible apply wf_foldl | with_reducible apply wf_foldl2 | with_reducible apply wf_foldl1 | with_reducible apply wf_foldl22 | dsimp only | exact True.intro | intro _ | split)
theorem wf_execAck (a0 : Nat) (s : State) (h1 : Memory.wf s.mem = true) :
    NextOk (execAck a0 s) := by
  unfold execAck
  repeat' (first | with_reducible assumption | with_reducible apply wf_ack | dsimp only | exact True.intro | with_reducible apply nextOk_next | intro _ | split)
theorem wf_fwdArrive (s : State) (a1 : Msg) (h0 : Memory.wf s.mem = true) :
    Memory.wf (State.fwdArrive s a1).mem = true := by
  unfold State.fwdArrive
  repeat' (first | with_reducible assumption | with_reducible apply wf_send | dsimp only | exact True.intro | intro _ | split)
theorem wf_fwd (a0 : Nat) (s : State) (h1 : Memory.wf s.mem = true) :
    Memory.wf (fwd a0 s).mem = true := by
  unfold fwd
  repeat' (first | with_reducible assumption | with_reducible apply wf_fwdArrive | with_reducible apply wf_msgArrive | dsimp only | exact True.intro | intro _ | split)
theorem wf_execFwd (a0 : Nat) (s : State) (h1 : Memory.wf s.mem = true) :
    NextOk (execFwd a0 s) := by
  unfold execFwd
  repeat' (first | with_reducible assumption | with_reducible apply wf_fwd | dsimp only | exact True.intro | with_reducible apply nextOk_next | intro _ | split)
theorem wf_disclaim (s : State) (a1 : Msg) (a2 : List Nat) (h0 : Memory.wf s.mem = true) :
    Memory.wf (State.disclaim s a1 a2).mem = true := by
  unfold State.disclaim
  repeat' (first | with_reducible assumption | with_reducible apply wf_send | dsimp only | exact True.intro | intro _ | split)
theorem wf_giveUp (s : State) (a1 : Msg) (h0 : Memory.wf s.mem = true) :
    Memory.wf (State.giveUp s a1).mem = true := by
  unfold State.giveUp
  repeat' (first | with_reducible assumption | with_reducible apply wf_disclaim | with_reducible apply wf_chase | with_reducible apply wf_send | with_reducible apply wf_setL1 | with_reducible apply wf_foldl | with_reducible apply wf_foldl2 | with_reducible apply wf_foldl1 | with_reducible apply wf_foldl22 | with_reducible apply wf_optMap | dsimp only | exact True.intro | intro _ | split)
theorem wf_revArrive (s : State) (a1 : Msg) (h0 : Memory.wf s.mem = true) :
    Memory.wf (State.revArrive s a1).mem = true := by
  unfold State.revArrive
  repeat' (first | with_reducible assumption | with_reducible apply wf_giveUp | with_reducible apply wf_disclaim | with_reducible apply wf_answered | with_reducible apply wf_chase | with_reducible apply wf_setL1 | with_reducible apply wf_foldl | with_reducible apply wf_foldl2 | with_reducible apply wf_foldl1 | with_reducible apply wf_foldl22 | dsimp only | exact True.intro | intro _ | split)
theorem wf_rev (a0 : Nat) (s : State) (h1 : Memory.wf s.mem = true) :
    Memory.wf (rev a0 s).mem = true := by
  unfold rev
  repeat' (first | with_reducible assumption | with_reducible apply wf_revArrive | with_reducible apply wf_msgArrive | dsimp only | exact True.intro | intro _ | split)
theorem wf_execRev (a0 : Nat) (s : State) (h1 : Memory.wf s.mem = true) :
    NextOk (execRev a0 s) := by
  unfold execRev
  repeat' (first | with_reducible assumption | with_reducible apply wf_rev | dsimp only | exact True.intro | with_reducible apply nextOk_next | intro _ | split)
theorem wf_binv (a0 : Nat) (s : State) (h1 : Memory.wf s.mem = true) :
    Memory.wf (binv a0 s).mem = true := by
  unfold binv
  repeat' (first | with_reducible assumption | with_reducible apply wf_giveUp | with_reducible apply wf_msgArrive | dsimp only | exact True.intro | intro _ | split)
theorem wf_execBinv (a0 : Nat) (s : State) (h1 : Memory.wf s.mem = true) :
    NextOk (execBinv a0 s) := by
  unfold execBinv
  repeat' (first | with_reducible assumption | with_reducible apply wf_binv | dsimp only | exact True.intro | with_reducible apply nextOk_next | intro _ | split)
theorem wf_reva (a0 : Nat) (s : State) (h1 : Memory.wf s.mem = true) :
    Memory.wf (reva a0 s).mem = true := by
  unfold reva
  repeat' (first | with_reducible assumption | with_reducible apply wf_msgArrive | with_reducible apply wf_send | dsimp only | exact True.intro | intro _ | split)
theorem wf_execReva (a0 : Nat) (s : State) (h1 : Memory.wf s.mem = true) :
    NextOk (execReva a0 s) := by
  unfold execReva
  repeat' (first | with_reducible assumption | with_reducible apply wf_reva | dsimp only | exact True.intro | with_reducible apply nextOk_next | intro _ | split)
theorem wf_revsArrive (s : State) (a1 : Msg) (h0 : Memory.wf s.mem = true) :
    Memory.wf (State.revsArrive s a1).mem = true := by
  unfold State.revsArrive
  repeat' (first | with_reducible assumption | with_reducible apply wf_chase | with_reducible apply wf_send | with_reducible apply wf_setL1 | with_reducible apply wf_foldl | with_reducible apply wf_foldl2 | with_reducible apply wf_foldl1 | with_reducible apply wf_foldl22 | dsimp only | exact True.intro | intro _ | split)
theorem wf_revs (a0 : Nat) (s : State) (h1 : Memory.wf s.mem = true) :
    Memory.wf (revs a0 s).mem = true := by
  unfold revs
  repeat' (first | with_reducible assumption | with_reducible apply wf_revsArrive | with_reducible apply wf_msgArrive | dsimp only | exact True.intro | intro _ | split)
theorem wf_execRevs (a0 : Nat) (s : State) (h1 : Memory.wf s.mem = true) :
    NextOk (execRevs a0 s) := by
  unfold execRevs
  repeat' (first | with_reducible assumption | with_reducible apply wf_revs | dsimp only | exact True.intro | with_reducible apply nextOk_next | intro _ | split)
theorem wf_giveRead (s : State) (a1 : Msg) (a2 : Nat) (a3 : MemWord) (h0 : Memory.wf s.mem = true) :
    Memory.wf (State.giveRead s a1 a2 a3).mem = true := by
  unfold State.giveRead
  repeat' (first | with_reducible assumption | dsimp only | exact True.intro | intro _ | split)
theorem wf_dataWord (s : State) (a1 : Msg) (a2 : Nat) (a3 : MemWord) (h0 : Memory.wf s.mem = true) :
    Memory.wf (State.dataWord s a1 a2 a3).mem = true := by
  unfold State.dataWord
  repeat' (first | with_reducible assumption | with_reducible apply wf_giveRead | with_reducible apply wf_setL1 | with_reducible apply wf_noAllocLine | dsimp only | exact True.intro | intro _ | split)
theorem wf_data (a0 : Nat) (s : State) (h1 : Memory.wf s.mem = true) :
    Memory.wf (data a0 s).mem = true := by
  unfold data
  repeat' (first | with_reducible assumption | with_reducible apply wf_dataWord | with_reducible apply wf_msgArrive | with_reducible apply wf_ownLine | with_reducible apply wf_makeRoom | with_reducible apply wf_foldl | with_reducible apply wf_foldl2 | with_reducible apply wf_foldl1 | with_reducible apply wf_foldl22 | dsimp only | exact True.intro | intro _ | split)
theorem wf_execData (a0 : Nat) (s : State) (h1 : Memory.wf s.mem = true) :
    NextOk (execData a0 s) := by
  unfold execData
  repeat' (first | with_reducible assumption | with_reducible apply wf_data | dsimp only | exact True.intro | with_reducible apply nextOk_next | intro _ | split)
theorem wf_wbIn (s : State) (a1 : Nat) (a2 : Nat) (a3 : MemWord) (h0 : Memory.wf s.mem = true) :
    Memory.wf (State.wbIn s a1 a2 a3).mem = true := by
  unfold State.wbIn
  repeat' (first | with_reducible assumption | with_reducible apply wf_dropOwners | with_reducible apply wf_lendWord | with_reducible apply wf_setHome | dsimp only | exact True.intro | intro _ | split)
theorem wf_wb (a0 : Nat) (s : State) (h1 : Memory.wf s.mem = true) :
    Memory.wf (wb a0 s).mem = true := by
  unfold wb
  repeat' (first | with_reducible assumption | with_reducible apply wf_wbIn | with_reducible apply wf_answered | with_reducible apply wf_msgArrive | with_reducible apply wf_homeAccess | with_reducible apply wf_foldl | with_reducible apply wf_foldl2 | with_reducible apply wf_foldl1 | with_reducible apply wf_foldl22 | dsimp only | exact True.intro | intro _ | split)
theorem wf_execWb (a0 : Nat) (s : State) (h1 : Memory.wf s.mem = true) :
    NextOk (execWb a0 s) := by
  unfold execWb
  repeat' (first | with_reducible assumption | with_reducible apply wf_wb | dsimp only | exact True.intro | with_reducible apply nextOk_next | intro _ | split)
theorem wf_noownArrive (s : State) (a1 : Msg) (h0 : Memory.wf s.mem = true) :
    Memory.wf (State.noownArrive s a1).mem = true := by
  unfold State.noownArrive
  repeat' (first | with_reducible assumption | with_reducible apply wf_answered | with_reducible apply wf_homeData | with_reducible apply wf_optMap | dsimp only | exact True.intro | intro _ | split)
theorem wf_noown (a0 : Nat) (s : State) (h1 : Memory.wf s.mem = true) :
    Memory.wf (noown a0 s).mem = true := by
  unfold noown
  repeat' (first | with_reducible assumption | with_reducible apply wf_noownArrive | with_reducible apply wf_msgArrive | dsimp only | exact True.intro | intro _ | split)
theorem wf_execNoown (a0 : Nat) (s : State) (h1 : Memory.wf s.mem = true) :
    NextOk (execNoown a0 s) := by
  unfold execNoown
  repeat' (first | with_reducible assumption | with_reducible apply wf_noown | dsimp only | exact True.intro | with_reducible apply nextOk_next | intro _ | split)
theorem wf_claim (a0 : Nat) (s : State) (h1 : Memory.wf s.mem = true) :
    Memory.wf (claim a0 s).mem = true := by
  unfold claim
  repeat' (first | with_reducible assumption | with_reducible apply wf_answered | with_reducible apply wf_msgArrive | with_reducible apply wf_homeAccess | with_reducible apply wf_setHome | with_reducible apply wf_foldl | with_reducible apply wf_foldl2 | with_reducible apply wf_foldl1 | with_reducible apply wf_foldl22 | dsimp only | exact True.intro | intro _ | split)
theorem wf_execClaim (a0 : Nat) (s : State) (h1 : Memory.wf s.mem = true) :
    NextOk (execClaim a0 s) := by
  unfold execClaim
  repeat' (first | with_reducible assumption | with_reducible apply wf_claim | dsimp only | exact True.intro | with_reducible apply nextOk_next | intro _ | split)

/-! Commit. -/

theorem wf_rgnoOut (a0 : Ex) (s : State) (h1 : Memory.wf s.mem = true) :
    Memory.wf (rgnoOut a0 s).mem = true := by
  unfold rgnoOut
  repeat' (first | with_reducible assumption | with_reducible apply wf_modFibre | dsimp only | exact True.intro | intro _ | split)
theorem wf_rgnoBody (a0 : Ex) (s : State) (h1 : Memory.wf s.mem = true) :
    OutOk (rgnoBody a0 s) := by
  unfold rgnoBody
  repeat' (first | with_reducible assumption | with_reducible apply wf_rgnoOut | dsimp only | exact True.intro | with_reducible apply outOk_ok | with_reducible apply outOk_hold | intro _ | split)
theorem wf_execRgno (a0 : Fields) (s : State) (h1 : Memory.wf s.mem = true) :
    NextOk (execRgno a0 s) := by
  unfold execRgno
  repeat' (first | with_reducible assumption | with_reducible apply wf_rgnoBody | with_reducible apply wf_runInstr | dsimp only | exact True.intro | with_reducible apply nextOk_next | intro _ | split)
theorem wf_cmtView (a0 : Ex) (s : State) (h1 : Memory.wf s.mem = true) :
    Memory.wf (cmtView a0 s).mem = true := by
  unfold cmtView
  repeat' (first | with_reducible assumption | with_reducible apply wf_clearRing | dsimp only | exact True.intro | intro _ | split)
theorem wf_cmtRelease (a0 : Ex) (s : State) (h1 : Memory.wf s.mem = true) :
    Memory.wf (cmtRelease a0 s).mem = true := by
  unfold cmtRelease
  repeat' (first | with_reducible assumption | with_reducible apply wf_releaseMore | dsimp only | exact True.intro | intro _ | split)
theorem wf_cmtOut (a0 : Ex) (s : State) (h1 : Memory.wf s.mem = true) :
    Memory.wf (cmtOut a0 s).mem = true := by
  unfold cmtOut
  repeat' (first | with_reducible assumption | with_reducible apply wf_cmtRelease | with_reducible apply wf_clearRing | with_reducible apply wf_modFibre | dsimp only | exact True.intro | intro _ | split)
theorem wf_cmtBody (a0 : Ex) (s : State) (h1 : Memory.wf s.mem = true) :
    OutOk (cmtBody a0 s) := by
  unfold cmtBody
  repeat' (first | with_reducible assumption | with_reducible apply wf_cmtOut | with_reducible apply wf_cmtRelease | with_reducible apply wf_cmtView | dsimp only | exact True.intro | with_reducible apply outOk_ok | with_reducible apply outOk_hold | intro _ | split)
theorem wf_execCmt (a0 : Fields) (s : State) (h1 : Memory.wf s.mem = true) :
    NextOk (execCmt a0 s) := by
  unfold execCmt
  repeat' (first | with_reducible assumption | with_reducible apply wf_cmtBody | with_reducible apply wf_runInstr | dsimp only | exact True.intro | with_reducible apply nextOk_next | intro _ | split)
theorem wf_pchkOut (a0 : Ex) (s : State) (h1 : Memory.wf s.mem = true) :
    Memory.wf (pchkOut a0 s).mem = true := by
  unfold pchkOut
  repeat' (first | with_reducible assumption | with_reducible apply wf_popQueues | with_reducible apply wf_writePreds | with_reducible apply wf_writeDst | with_reducible apply wf_makePoison | dsimp only | exact True.intro | intro _ | (split <;> (try (rename_i hq; have hq1 := congrArg Prod.snd hq; dsimp only at hq1; subst hq1))))
theorem wf_pchkBody (a0 : Ex) (s : State) (h1 : Memory.wf s.mem = true) :
    OutOk (pchkBody a0 s) := by
  unfold pchkBody
  repeat' (first | with_reducible assumption | with_reducible apply wf_pchkOut | dsimp only | exact True.intro | with_reducible apply outOk_ok | with_reducible apply outOk_hold | intro _ | split)
theorem wf_execPchk (a0 : Fields) (s : State) (h1 : Memory.wf s.mem = true) :
    NextOk (execPchk a0 s) := by
  unfold execPchk
  repeat' (first | with_reducible assumption | with_reducible apply wf_pchkBody | with_reducible apply wf_runInstr | dsimp only | exact True.intro | with_reducible apply nextOk_next | intro _ | split)
theorem wf_psetOut (a0 : Ex) (s : State) (h1 : Memory.wf s.mem = true) :
    Memory.wf (psetOut a0 s).mem = true := by
  unfold psetOut
  repeat' (first | with_reducible assumption | with_reducible apply wf_tileWrite | with_reducible apply wf_writeDst | dsimp only | exact True.intro | intro _ | split)
theorem wf_psetBody (a0 : Ex) (s : State) (h1 : Memory.wf s.mem = true) :
    OutOk (psetBody a0 s) := by
  unfold psetBody
  repeat' (first | with_reducible assumption | with_reducible apply wf_psetOut | dsimp only | exact True.intro | with_reducible apply outOk_ok | with_reducible apply outOk_hold | intro _ | split)
theorem wf_execPset (a0 : Fields) (s : State) (h1 : Memory.wf s.mem = true) :
    NextOk (execPset a0 s) := by
  unfold execPset
  repeat' (first | with_reducible assumption | with_reducible apply wf_psetBody | with_reducible apply wf_runInstr | dsimp only | exact True.intro | with_reducible apply nextOk_next | intro _ | split)
theorem wf_cartOut (a0 : Ex) (s : State) (h1 : Memory.wf s.mem = true) :
    Memory.wf (cartOut a0 s).mem = true := by
  unfold cartOut
  repeat' (first | with_reducible assumption | with_reducible apply wf_clearRing | with_reducible apply wf_writeDst | with_reducible apply wf_optMap | dsimp only | exact True.intro | intro _ | split)
theorem wf_cartBody (a0 : Ex) (s : State) (h1 : Memory.wf s.mem = true) :
    OutOk (cartBody a0 s) := by
  unfold cartBody
  repeat' (first | with_reducible assumption | with_reducible apply wf_cartOut | dsimp only | exact True.intro | with_reducible apply outOk_ok | with_reducible apply outOk_hold | intro _ | split)
theorem wf_execCart (a0 : Fields) (s : State) (h1 : Memory.wf s.mem = true) :
    NextOk (execCart a0 s) := by
  unfold execCart
  repeat' (first | with_reducible assumption | with_reducible apply wf_cartBody | with_reducible apply wf_runInstr | dsimp only | exact True.intro | with_reducible apply nextOk_next | intro _ | split)

/-! Events. -/

theorem wf_loadDataReturn (a0 : Nat) (a1 : Word) (s : State) (h2 : Memory.wf s.mem = true) :
    Memory.wf (loadDataReturn a0 a1 s).mem = true := by
  unfold loadDataReturn
  repeat' (first | with_reducible assumption | with_reducible apply wf_deliver | with_reducible apply wf_wake | dsimp only | exact True.intro | intro _ | split)
theorem wf_execLoadDataReturn (a0 : Nat) (a1 : Word) (s : State) (h2 : Memory.wf s.mem = true) :
    NextOk (execLoadDataReturn a0 a1 s) := by
  unfold execLoadDataReturn
  repeat' (first | with_reducible assumption | with_reducible apply wf_loadDataReturn | dsimp only | exact True.intro | with_reducible apply nextOk_next | intro _ | split)
theorem wf_parkedAccessPerform (a0 : Nat) (s : State) (h1 : Memory.wf s.mem = true) :
    Memory.wf (parkedAccessPerform a0 s).mem = true := by
  unfold parkedAccessPerform
  repeat' (first | with_reducible assumption | with_reducible apply wf_spChanged | with_reducible apply wf_spLeave | with_reducible apply wf_wake | dsimp only | exact True.intro | intro _ | split)
theorem wf_execParkedAccessPerform (a0 : Nat) (s : State) (h1 : Memory.wf s.mem = true) :
    NextOk (execParkedAccessPerform a0 s) := by
  unfold execParkedAccessPerform
  repeat' (first | with_reducible assumption | with_reducible apply wf_parkedAccessPerform | dsimp only | exact True.intro | with_reducible apply nextOk_next | intro _ | split)
theorem wf_barrierRepeatCompletion (a0 : Nat) (a1 : Nat) (s : State) (h2 : Memory.wf s.mem = true) :
    Memory.wf (barrierRepeatCompletion a0 a1 s).mem = true := by
  unfold barrierRepeatCompletion
  repeat' (first | with_reducible assumption | with_reducible apply wf_wake | with_reducible apply wf_flushBar | dsimp only | exact True.intro | intro _ | split)
theorem wf_execBarrierRepeatCompletion (a0 : Nat) (a1 : Nat) (s : State) (h2 : Memory.wf s.mem = true) :
    NextOk (execBarrierRepeatCompletion a0 a1 s) := by
  unfold execBarrierRepeatCompletion
  repeat' (first | with_reducible assumption | with_reducible apply wf_barrierRepeatCompletion | dsimp only | exact True.intro | with_reducible apply nextOk_next | intro _ | split)
theorem wf_setCur (s : State) (a1 : Nat) (a2 : Nat) (a3 : Option Nat) (h0 : Memory.wf s.mem = true) :
    Memory.wf (State.setCur s a1 a2 a3).mem = true := by
  unfold State.setCur
  repeat' (first | with_reducible assumption | with_reducible apply wf_modWarp | dsimp only | exact True.intro | intro _ | split)
theorem wf_slotSwitch (a0 : Nat) (a1 : Nat) (s : State) (h2 : Memory.wf s.mem = true) :
    Memory.wf (slotSwitch a0 a1 s).mem = true := by
  unfold slotSwitch
  repeat' (first | with_reducible assumption | with_reducible apply wf_setCur | dsimp only | exact True.intro | intro _ | split)
theorem wf_execSlotSwitch (a0 : Nat) (a1 : Nat) (s : State) (h2 : Memory.wf s.mem = true) :
    NextOk (execSlotSwitch a0 a1 s) := by
  unfold execSlotSwitch
  repeat' (first | with_reducible assumption | with_reducible apply wf_slotSwitch | dsimp only | exact True.intro | with_reducible apply nextOk_next | intro _ | split)
theorem wf_perfCount (s : State) (a1 : Nat) (a2 : Nat) (h0 : Memory.wf s.mem = true) :
    Memory.wf (State.perfCount s a1 a2).mem = true := by
  unfold State.perfCount
  repeat' (first | with_reducible assumption | with_reducible apply wf_modCore | dsimp only | exact True.intro | intro _ | split)
theorem wf_forcedSwitch (a0 : Nat) (a1 : Nat) (s : State) (h2 : Memory.wf s.mem = true) :
    Memory.wf (forcedSwitch a0 a1 s).mem = true := by
  unfold forcedSwitch
  repeat' (first | with_reducible assumption | with_reducible apply wf_perfCount | with_reducible apply wf_setCur | dsimp only | exact True.intro | intro _ | split)
theorem wf_execForcedSwitch (a0 : Nat) (a1 : Nat) (s : State) (h2 : Memory.wf s.mem = true) :
    NextOk (execForcedSwitch a0 a1 s) := by
  unfold execForcedSwitch
  repeat' (first | with_reducible assumption | with_reducible apply wf_forcedSwitch | dsimp only | exact True.intro | with_reducible apply nextOk_next | intro _ | split)
theorem wf_siblingHandover (a0 : Nat) (a1 : Nat) (s : State) (h2 : Memory.wf s.mem = true) :
    Memory.wf (siblingHandover a0 a1 s).mem = true := by
  unfold siblingHandover
  repeat' (first | with_reducible assumption | with_reducible apply wf_setCur | dsimp only | exact True.intro | intro _ | split)
theorem wf_execSiblingHandover (a0 : Nat) (a1 : Nat) (s : State) (h2 : Memory.wf s.mem = true) :
    NextOk (execSiblingHandover a0 a1 s) := by
  unfold execSiblingHandover
  repeat' (first | with_reducible assumption | with_reducible apply wf_siblingHandover | dsimp only | exact True.intro | with_reducible apply nextOk_next | intro _ | split)
theorem wf_walkEnds (s : State) (a1 : Nat) (a2 : Byte) (a3 : Nat) (h0 : Memory.wf s.mem = true) :
    Memory.wf (State.walkEnds s a1 a2 a3).mem = true := by
  unfold State.walkEnds
  repeat' (first | with_reducible assumption | with_reducible apply wf_wake | dsimp only | exact True.intro | intro _ | split)
theorem wf_translationWalk (a0 : Nat) (a1 : Byte) (a2 : DWord) (s : State) (h3 : Memory.wf s.mem = true) :
    Memory.wf (translationWalk a0 a1 a2 s).mem = true := by
  unfold translationWalk
  repeat' (first | with_reducible assumption | with_reducible apply wf_walkEnds | with_reducible apply wf_tlbFill | with_reducible apply wf_walkReads | with_reducible apply wf_foldl | with_reducible apply wf_foldl2 | with_reducible apply wf_foldl1 | with_reducible apply wf_foldl22 | dsimp only | exact True.intro | intro _ | split)
theorem wf_execTranslationWalk (a0 : Nat) (a1 : Byte) (a2 : DWord) (s : State) (h3 : Memory.wf s.mem = true) :
    NextOk (execTranslationWalk a0 a1 a2 s) := by
  unfold execTranslationWalk
  repeat' (first | with_reducible assumption | with_reducible apply wf_translationWalk | dsimp only | exact True.intro | with_reducible apply nextOk_next | intro _ | split)
theorem wf_tlbInvalidation (a0 : Byte) (a1 : DWord) (a2 : DWord) (s : State) (h3 : Memory.wf s.mem = true) :
    Memory.wf (tlbInvalidation a0 a1 a2 s).mem = true := by
  unfold tlbInvalidation
  repeat' (first | with_reducible assumption | with_reducible apply wf_tlbDrop | with_reducible apply wf_wake | dsimp only | exact True.intro | intro _ | split)
theorem wf_execTlbInvalidation (a0 : Byte) (a1 : DWord) (a2 : DWord) (s : State) (h3 : Memory.wf s.mem = true) :
    NextOk (execTlbInvalidation a0 a1 a2 s) := by
  unfold execTlbInvalidation
  repeat' (first | with_reducible assumption | with_reducible apply wf_tlbInvalidation | dsimp only | exact True.intro | with_reducible apply nextOk_next | intro _ | split)
theorem wf_swapIn (s : State) (a1 : Nat) (a2 : Nat) (a3 : Nat) (h0 : Memory.wf s.mem = true) :
    Memory.wf (State.swapIn s a1 a2 a3).mem = true := by
  unfold State.swapIn
  repeat' (first | with_reducible assumption | dsimp only | exact True.intro | intro _ | split)
theorem wf_pageSwap (a0 : Nat) (a1 : Nat) (a2 : Swap) (s : State) (h3 : Memory.wf s.mem = true) :
    Memory.wf (pageSwap a0 a1 a2 s).mem = true := by
  unfold pageSwap
  repeat' (first | with_reducible assumption | with_reducible apply wf_swapIn | dsimp only | exact True.intro | intro _ | split)
theorem wf_execPageSwap (a0 : Nat) (a1 : Nat) (a2 : Swap) (s : State) (h3 : Memory.wf s.mem = true) :
    NextOk (execPageSwap a0 a1 a2 s) := by
  unfold execPageSwap
  repeat' (first | with_reducible assumption | with_reducible apply wf_pageSwap | dsimp only | exact True.intro | with_reducible apply nextOk_next | intro _ | split)
theorem wf_mscFill (s : State) (a1 : Nat) (a2 : Byte) (h0 : Memory.wf s.mem = true) :
    Memory.wf (State.mscFill s a1 a2).mem = true := by
  unfold State.mscFill
  repeat' (first | with_reducible assumption | with_reducible apply wf_mscTouch | with_reducible apply wf_foldl | with_reducible apply wf_foldl2 | with_reducible apply wf_foldl1 | with_reducible apply wf_foldl22 | dsimp only | exact True.intro | intro _ | split)
theorem wf_pftComplete (a0 : Nat) (s : State) (h1 : Memory.wf s.mem = true) :
    Memory.wf (pftComplete a0 s).mem = true := by
  unfold pftComplete
  repeat' (first | with_reducible assumption | with_reducible apply wf_mscFill | with_reducible apply wf_swapIn | with_reducible apply wf_pftArrive | with_reducible apply wf_wake | with_reducible apply wf_foldl | with_reducible apply wf_foldl2 | with_reducible apply wf_foldl1 | with_reducible apply wf_foldl22 | dsimp only | exact True.intro | intro _ | split)
theorem wf_execPftComplete (a0 : Nat) (s : State) (h1 : Memory.wf s.mem = true) :
    NextOk (execPftComplete a0 s) := by
  unfold execPftComplete
  repeat' (first | with_reducible assumption | with_reducible apply wf_pftComplete | dsimp only | exact True.intro | with_reducible apply nextOk_next | intro _ | split)
theorem wf_setEntry (s : State) (a1 : Byte) (a2 : Nat) (a3 : Nat) (h0 : Memory.wf s.mem = true) :
    Memory.wf (State.setEntry s a1 a2 a3).mem = true := by
  unfold State.setEntry
  repeat' (first | with_reducible assumption | with_reducible apply wf_engineWrite | dsimp only | exact True.intro | intro _ | split)
theorem wf_clearRange (s : State) (a n : Nat) (h0 : Memory.wf s.mem = true) : Memory.wf (State.clearRange s a n).mem = true := by
  unfold State.clearRange
  exact canon_filter _ _ _ h0
theorem wf_writeAll (es : List (Nat × Byte)) (a : Nat) (m : Sparse Byte) (h : Memory.wf m = true) :
    Memory.wf (es.foldl (fun m e => writeByte m (a + e.1) e.2) m) = true := by
  induction es generalizing m with
  | nil => exact h
  | cons e r ih => exact ih _ (wf_writeByte _ _ _ h)
theorem wf_fillPage (s : State) (c : Byte) (dpa n : Nat) (enc : Bool) (data : List (Nat × Byte)) (h0 : Memory.wf s.mem = true) :
    Memory.wf (State.fillPage s c dpa n enc data).mem = true := by
  unfold State.fillPage
  exact wf_writeAll _ _ _ (wf_clearRange _ _ _ h0)
theorem wf_migrateIn (s : State) (c : Byte) (va dpa : Nat) (data : List (Nat × Byte)) (h0 : Memory.wf s.mem = true) :
    ∀ r, State.migrateIn s c va dpa data = some r → Memory.wf r.mem = true := by
  intro r hr
  unfold State.migrateIn at hr
  split at hr
  · next a lv l _ _ =>
    dsimp only at hr
    split at hr
    · cases hr
    · cases hr
      exact wf_wake _ (wf_tlbDrop _ _ _ _ (wf_setEntry _ _ _ _ (wf_fillPage s c dpa (levelPage lv) l.enc data h0)))
  · cases hr
theorem wf_migrateOut (s : State) (a1 : Byte) (a2 : Nat) (h0 : Memory.wf s.mem = true) :
    Memory.wf (State.migrateOut s a1 a2).mem = true := by
  unfold State.migrateOut
  repeat' (first | with_reducible assumption | with_reducible apply wf_setEntry | with_reducible apply wf_tlbDrop | with_reducible apply wf_wake | with_reducible apply wf_foldl | with_reducible apply wf_foldl2 | with_reducible apply wf_foldl1 | with_reducible apply wf_foldl22 | dsimp only | exact True.intro | intro _ | split)
theorem wf_pageMigration (a0 : Byte) (a1 : DWord) (a2 : DWord) (a3 : Bool) (a4 : List (Nat × Byte)) (s : State) (h5 : Memory.wf s.mem = true) :
    Memory.wf (pageMigration a0 a1 a2 a3 a4 s).mem = true := by
  unfold pageMigration
  repeat' (first | with_reducible assumption | with_reducible apply wf_migrateOut | with_reducible refine wf_migrateIn _ _ _ _ _ ?_ | with_reducible refine wf_migrateIn _ _ _ _ _ ?_ _ (by assumption) | with_reducible apply wf_getD | dsimp only | exact True.intro | intro _ | split)
theorem wf_execPageMigration (a0 : Byte) (a1 : DWord) (a2 : DWord) (a3 : Bool) (a4 : List (Nat × Byte)) (s : State) (h5 : Memory.wf s.mem = true) :
    NextOk (execPageMigration a0 a1 a2 a3 a4 s) := by
  unfold execPageMigration
  repeat' (first | with_reducible assumption | with_reducible apply wf_pageMigration | dsimp only | exact True.intro | with_reducible apply nextOk_next | intro _ | split)
theorem wf_mapLeaf (s : State) (c : Byte) (p : PageIn) (h0 : Memory.wf s.mem = true) :
    ∀ r, State.mapLeaf s c p = some r → Memory.wf r.mem = true := by
  intro r hr
  unfold State.mapLeaf at hr
  split at hr
  · cases hr
  · dsimp only at hr
    split at hr
    · cases hr
    · cases hr; exact wf_setEntry _ _ _ _ (wf_fillPage _ _ _ _ _ _ h0)
theorem wf_mapIn (s : State) (c : Byte) (p : PageIn) (ts : List DWord) (h0 : Memory.wf s.mem = true) :
    ∀ r, State.mapIn s c p ts = some r → Memory.wf r.mem = true := by
  induction ts generalizing s with
  | nil => exact wf_mapLeaf s c p h0
  | cons t ts ih =>
    intro r hr
    unfold State.mapIn at hr
    split at hr
    · cases hr
    · split at hr
      · exact wf_mapLeaf s c p h0 r hr
      · split at hr
        · cases hr
        · exact ih _ (wf_setEntry _ _ _ _ (wf_clearRange _ _ _ h0)) r hr
theorem wf_record (c : Byte) (pages : List PageIn) (a : Serviced) (r : Cart) (h0 : Memory.wf a.s.mem = true) :
    Memory.wf (Serviced.record c pages a r).s.mem = true := by
  unfold Serviced.record
  dsimp only
  split
  · split
    · split
      · exact h0
      · split
        · next t ht =>
          obtain ⟨p, _, hp⟩ := Option.bind_eq_some_iff.mp ht
          exact wf_migrateIn _ _ _ _ _ h0 _ hp
        · exact h0
    · exact h0
  · split
    · split
      · exact h0
      · split
        · exact h0
        · split
          · next t n ht =>
            obtain ⟨p, _, hp⟩ := Option.bind_eq_some_iff.mp ht
            obtain ⟨u, hu, he⟩ := Option.map_eq_some_iff.mp hp
            cases he
            exact wf_mapIn _ _ _ _ h0 _ hu
          · exact h0
    · exact h0
theorem wf_records (c : Byte) (pages : List PageIn) (rs : List Cart) (a : Serviced) (h0 : Memory.wf a.s.mem = true) :
    Memory.wf (rs.foldl (Serviced.record c pages) a).s.mem = true := by
  induction rs generalizing a with
  | nil => exact h0
  | cons r rs ih => exact ih _ (wf_record c pages a r h0)
theorem wf_faultServiceDone (g w f : Nat) (answer : Option (List PageIn)) (s : State) (h0 : Memory.wf s.mem = true) :
    Memory.wf (faultServiceDone g w f answer s).mem = true := by
  unfold faultServiceDone
  split
  · exact h0
  · refine wf_wake _ (wf_clearRing _ _ _ _ (wf_modFibre _ _ _ _ _ ?_))
    split
    · exact h0
    · split
      · exact wf_records _ _ _ _ h0
      · exact h0
theorem wf_execFaultServiceDone (a0 : Nat) (a1 : Nat) (a2 : Nat) (a3 : Option (List PageIn)) (s : State) (h4 : Memory.wf s.mem = true) :
    NextOk (execFaultServiceDone a0 a1 a2 a3 s) := by
  unfold execFaultServiceDone
  repeat' (first | with_reducible assumption | with_reducible apply wf_faultServiceDone | dsimp only | exact True.intro | with_reducible apply nextOk_next | intro _ | split)
theorem wf_clearNonres (s : State) (a1 : Who) (h0 : Memory.wf s.mem = true) :
    Memory.wf (State.clearNonres s a1).mem = true := by
  unfold State.clearNonres
  repeat' (first | with_reducible assumption | with_reducible apply wf_modSeq | with_reducible apply wf_modAp | with_reducible apply wf_modFibre | dsimp only | exact True.intro | intro _ | split)
theorem wf_fetchNonresMigrate (who : Who) (ok : Bool) (dpa : DWord) (data : List (Nat × Byte)) (s : State)
    (h0 : Memory.wf s.mem = true) : Memory.wf (fetchNonresMigrate who ok dpa data s).mem = true := by
  unfold fetchNonresMigrate
  split
  · exact h0
  · have hc := wf_clearNonres s who h0
    dsimp only
    split
    · next t ht =>
      split at ht
      · exact wf_wake _ (wf_migrateIn _ _ _ _ _ hc _ ht)
      · cases ht
    · split
      · split
        · exact wf_freezePath _ _ _ hc
        · exact h0
      · exact wf_haltSeq _ _ _ hc
      · exact wf_stopAp _ _ _ hc
theorem wf_execFetchNonresMigrate (a0 : Who) (a1 : Bool) (a2 : DWord) (a3 : List (Nat × Byte)) (s : State) (h4 : Memory.wf s.mem = true) :
    NextOk (execFetchNonresMigrate a0 a1 a2 a3 s) := by
  unfold execFetchNonresMigrate
  repeat' (first | with_reducible assumption | with_reducible apply wf_fetchNonresMigrate | dsimp only | exact True.intro | with_reducible apply nextOk_next | intro _ | split)

/-! Lanes. -/

theorem wf_copyLane (a0 : Nat) (a1 : Ex) (s : State) (h2 : Memory.wf s.mem = true) :
    Memory.wf (copyLane a0 a1 s).mem = true := by
  unfold copyLane
  repeat' (first | with_reducible assumption | with_reducible apply wf_writeDst | dsimp only | exact True.intro | intro _ | split)
theorem wf_vtosOut (a0 : Ex) (s : State) (h1 : Memory.wf s.mem = true) :
    Memory.wf (vtosOut a0 s).mem = true := by
  unfold vtosOut
  repeat' (first | with_reducible assumption | with_reducible apply wf_copyLane | with_reducible apply wf_writeDst | dsimp only | exact True.intro | intro _ | split)
theorem wf_vtosBody (a0 : Ex) (s : State) (h1 : Memory.wf s.mem = true) :
    OutOk (vtosBody a0 s) := by
  unfold vtosBody
  repeat' (first | with_reducible assumption | with_reducible apply wf_vtosOut | dsimp only | exact True.intro | with_reducible apply outOk_ok | with_reducible apply outOk_hold | intro _ | split)
theorem wf_execVtos (a0 : Fields) (s : State) (h1 : Memory.wf s.mem = true) :
    NextOk (execVtos a0 s) := by
  unfold execVtos
  repeat' (first | with_reducible assumption | with_reducible apply wf_vtosBody | with_reducible apply wf_runInstr | dsimp only | exact True.intro | with_reducible apply nextOk_next | intro _ | split)
theorem wf_bcstBody (a0 : Ex) (s : State) (h1 : Memory.wf s.mem = true) :
    OutOk (bcstBody a0 s) := by
  unfold bcstBody
  repeat' (first | with_reducible assumption | with_reducible apply wf_copyLane | dsimp only | exact True.intro | with_reducible apply outOk_ok | with_reducible apply outOk_hold | intro _ | split)
theorem wf_execBcst (a0 : Fields) (s : State) (h1 : Memory.wf s.mem = true) :
    NextOk (execBcst a0 s) := by
  unfold execBcst
  repeat' (first | with_reducible assumption | with_reducible apply wf_bcstBody | with_reducible apply wf_runInstr | dsimp only | exact True.intro | with_reducible apply nextOk_next | intro _ | split)
theorem wf_viewOut (a0 : Ex) (s : State) (h1 : Memory.wf s.mem = true) :
    Memory.wf (viewOut a0 s).mem = true := by
  unfold viewOut
  repeat' (first | with_reducible assumption | with_reducible apply wf_countBad | with_reducible apply wf_modFibre | dsimp only | exact True.intro | intro _ | split)
theorem wf_viewBody (a0 : Ex) (s : State) (h1 : Memory.wf s.mem = true) :
    OutOk (viewBody a0 s) := by
  unfold viewBody
  repeat' (first | with_reducible assumption | with_reducible apply wf_viewOut | dsimp only | exact True.intro | with_reducible apply outOk_ok | with_reducible apply outOk_hold | intro _ | split)
theorem wf_execView (a0 : Fields) (s : State) (h1 : Memory.wf s.mem = true) :
    NextOk (execView a0 s) := by
  unfold execView
  repeat' (first | with_reducible assumption | with_reducible apply wf_viewBody | with_reducible apply wf_runInstr | dsimp only | exact True.intro | with_reducible apply nextOk_next | intro _ | split)
theorem wf_placeRead (s : State) (a1 : Ex) (a2 : Option Place) (a3 : Nat) (h0 : Memory.wf s.mem = true) :
    Memory.wf (State.placeRead s a1 a2 a3).2.mem = true := by
  unfold State.placeRead
  repeat' (first | with_reducible assumption | with_reducible apply wf_freeWord | dsimp only | exact True.intro | intro _ | (split <;> (try (rename_i hq; have hq1 := congrArg Prod.snd hq; dsimp only at hq1; subst hq1))))
theorem wf_chainOut (a0 : List (Nat × (Option Place ⊕ Val))) (a1 : Bool) (a2 : Ex) (s : State) (h3 : Memory.wf s.mem = true) :
    Memory.wf (chainOut a0 a1 a2 s).mem = true := by
  unfold chainOut
  repeat' (first | with_reducible assumption | with_reducible apply wf_placeRead | with_reducible apply wf_produce | with_reducible apply wf_makePoison | with_reducible apply wf_foldl | with_reducible apply wf_foldl2 | with_reducible apply wf_foldl1 | with_reducible apply wf_foldl22 | dsimp only | exact True.intro | intro _ | (split <;> (try (rename_i hq; have hq1 := congrArg Prod.snd hq; dsimp only at hq1; subst hq1))))
theorem wf_nbrBody (a0 : Ex) (s : State) (h1 : Memory.wf s.mem = true) :
    OutOk (nbrBody a0 s) := by
  unfold nbrBody
  repeat' (first | with_reducible assumption | with_reducible apply wf_chainOut | dsimp only | exact True.intro | with_reducible apply outOk_ok | with_reducible apply outOk_hold | intro _ | split)
theorem wf_execNbr (a0 : Fields) (s : State) (h1 : Memory.wf s.mem = true) :
    NextOk (execNbr a0 s) := by
  unfold execNbr
  repeat' (first | with_reducible assumption | with_reducible apply wf_nbrBody | with_reducible apply wf_runInstr | dsimp only | exact True.intro | with_reducible apply nextOk_next | intro _ | split)
theorem wf_cxsBody (a0 : Ex) (s : State) (h1 : Memory.wf s.mem = true) :
    OutOk (cxsBody a0 s) := by
  unfold cxsBody
  repeat' (first | with_reducible assumption | with_reducible apply wf_chainOut | dsimp only | exact True.intro | with_reducible apply outOk_ok | with_reducible apply outOk_hold | intro _ | split)
theorem wf_execCxs (a0 : Fields) (s : State) (h1 : Memory.wf s.mem = true) :
    NextOk (execCxs a0 s) := by
  unfold execCxs
  repeat' (first | with_reducible assumption | with_reducible apply wf_cxsBody | with_reducible apply wf_runInstr | dsimp only | exact True.intro | with_reducible apply nextOk_next | intro _ | split)
theorem wf_voteOut (a0 : Ex) (s : State) (h1 : Memory.wf s.mem = true) :
    Memory.wf (voteOut a0 s).mem = true := by
  unfold voteOut
  repeat' (first | with_reducible assumption | with_reducible apply wf_strand | with_reducible apply wf_writePreds | with_reducible apply wf_writeDst | dsimp only | exact True.intro | intro _ | split)
theorem wf_voteBody (a0 : Ex) (s : State) (h1 : Memory.wf s.mem = true) :
    OutOk (voteBody a0 s) := by
  unfold voteBody
  repeat' (first | with_reducible assumption | with_reducible apply wf_voteOut | dsimp only | exact True.intro | with_reducible apply outOk_ok | with_reducible apply outOk_hold | intro _ | split)
theorem wf_execVote (a0 : Fields) (s : State) (h1 : Memory.wf s.mem = true) :
    NextOk (execVote a0 s) := by
  unfold execVote
  repeat' (first | with_reducible assumption | with_reducible apply wf_voteBody | with_reducible apply wf_runInstr | dsimp only | exact True.intro | with_reducible apply nextOk_next | intro _ | split)
theorem wf_lredOut (a0 : Ex) (s : State) (h1 : Memory.wf s.mem = true) :
    Memory.wf (lredOut a0 s).mem = true := by
  unfold lredOut
  repeat' (first | with_reducible assumption | with_reducible apply wf_flagEx | with_reducible apply wf_writeDst | with_reducible apply wf_optMap | dsimp only | exact True.intro | intro _ | split)
theorem wf_lredBody (a0 : Ex) (s : State) (h1 : Memory.wf s.mem = true) :
    OutOk (lredBody a0 s) := by
  unfold lredBody
  repeat' (first | with_reducible assumption | with_reducible apply wf_lredOut | dsimp only | exact True.intro | with_reducible apply outOk_ok | with_reducible apply outOk_hold | intro _ | split)
theorem wf_execLred (a0 : Fields) (s : State) (h1 : Memory.wf s.mem = true) :
    NextOk (execLred a0 s) := by
  unfold execLred
  repeat' (first | with_reducible assumption | with_reducible apply wf_lredBody | with_reducible apply wf_runInstr | dsimp only | exact True.intro | with_reducible apply nextOk_next | intro _ | split)
theorem wf_lscanOut (a0 : Ex) (s : State) (h1 : Memory.wf s.mem = true) :
    Memory.wf (lscanOut a0 s).mem = true := by
  unfold lscanOut
  repeat' (first | with_reducible assumption | with_reducible apply wf_flagEx | with_reducible apply wf_writeDst | dsimp only | exact True.intro | intro _ | split)
theorem wf_lscanBody (a0 : Ex) (s : State) (h1 : Memory.wf s.mem = true) :
    OutOk (lscanBody a0 s) := by
  unfold lscanBody
  repeat' (first | with_reducible assumption | with_reducible apply wf_lscanOut | dsimp only | exact True.intro | with_reducible apply outOk_ok | with_reducible apply outOk_hold | intro _ | split)
theorem wf_execLscan (a0 : Fields) (s : State) (h1 : Memory.wf s.mem = true) :
    NextOk (execLscan a0 s) := by
  unfold execLscan
  repeat' (first | with_reducible assumption | with_reducible apply wf_lscanBody | with_reducible apply wf_runInstr | dsimp only | exact True.intro | with_reducible apply nextOk_next | intro _ | split)

/-! Sync. -/

theorem wf_bariOut (a0 : Ex) (s : State) (h1 : Memory.wf s.mem = true) :
    Memory.wf (bariOut a0 s).mem = true := by
  unfold bariOut
  repeat' (first | with_reducible assumption | with_reducible apply wf_irrev | with_reducible apply wf_barOp | with_reducible apply wf_countBad | dsimp only | exact True.intro | intro _ | split)
theorem wf_bariBody (a0 : Ex) (s : State) (h1 : Memory.wf s.mem = true) :
    OutOk (bariBody a0 s) := by
  unfold bariBody
  repeat' (first | with_reducible assumption | with_reducible apply wf_bariOut | dsimp only | exact True.intro | with_reducible apply outOk_ok | with_reducible apply outOk_hold | intro _ | split)
theorem wf_execBari (a0 : Fields) (s : State) (h1 : Memory.wf s.mem = true) :
    NextOk (execBari a0 s) := by
  unfold execBari
  repeat' (first | with_reducible assumption | with_reducible apply wf_bariBody | with_reducible apply wf_runInstr | dsimp only | exact True.intro | with_reducible apply nextOk_next | intro _ | split)
theorem wf_laterDests (s : State) (a1 : Ex) (h0 : Memory.wf s.mem = true) :
    Memory.wf (State.laterDests s a1).2.mem = true := by
  unfold State.laterDests
  repeat' (first | with_reducible assumption | with_reducible apply wf_writeDst | with_reducible apply wf_dropDest | with_reducible apply wf_foldl | with_reducible apply wf_foldl2 | with_reducible apply wf_foldl1 | with_reducible apply wf_foldl22 | dsimp only | exact True.intro | intro _ | split)
theorem wf_arriveOut (a0 : Bool) (a1 : Ex) (s : State) (h2 : Memory.wf s.mem = true) :
    Memory.wf (arriveOut a0 a1 s).mem = true := by
  unfold arriveOut
  repeat' (first | with_reducible assumption | with_reducible apply wf_laterDests | with_reducible apply wf_irrev | with_reducible apply wf_writeDst | with_reducible apply wf_barOp | dsimp only | exact True.intro | intro _ | (split <;> (try (rename_i hq; have hq1 := congrArg Prod.snd hq; dsimp only at hq1; subst hq1))))
theorem wf_arriveBody (a0 : Bool) (a1 : Ex) (s : State) (h2 : Memory.wf s.mem = true) :
    OutOk (arriveBody a0 a1 s) := by
  unfold arriveBody
  repeat' (first | with_reducible assumption | with_reducible apply wf_arriveOut | dsimp only | exact True.intro | with_reducible apply outOk_ok | with_reducible apply outOk_hold | intro _ | split)
theorem wf_baraBody (a0 : Ex) (s : State) (h1 : Memory.wf s.mem = true) :
    OutOk (baraBody a0 s) := by
  unfold baraBody
  repeat' (first | with_reducible assumption | with_reducible apply wf_arriveBody | dsimp only | exact True.intro | with_reducible apply outOk_ok | with_reducible apply outOk_hold | intro _ | split)
theorem wf_execBara (a0 : Fields) (s : State) (h1 : Memory.wf s.mem = true) :
    NextOk (execBara a0 s) := by
  unfold execBara
  repeat' (first | with_reducible assumption | with_reducible apply wf_baraBody | with_reducible apply wf_runInstr | dsimp only | exact True.intro | with_reducible apply nextOk_next | intro _ | split)
theorem wf_bardBody (a0 : Ex) (s : State) (h1 : Memory.wf s.mem = true) :
    OutOk (bardBody a0 s) := by
  unfold bardBody
  repeat' (first | with_reducible assumption | with_reducible apply wf_arriveBody | dsimp only | exact True.intro | with_reducible apply outOk_ok | with_reducible apply outOk_hold | intro _ | split)
theorem wf_execBard (a0 : Fields) (s : State) (h1 : Memory.wf s.mem = true) :
    NextOk (execBard a0 s) := by
  unfold execBard
  repeat' (first | with_reducible assumption | with_reducible apply wf_bardBody | with_reducible apply wf_runInstr | dsimp only | exact True.intro | with_reducible apply nextOk_next | intro _ | split)
theorem wf_barwOut (a0 : Ex) (s : State) (h1 : Memory.wf s.mem = true) :
    Memory.wf (barwOut a0 s).mem = true := by
  unfold barwOut
  repeat' (first | with_reducible assumption | with_reducible apply wf_strandVals | with_reducible apply wf_irrev | with_reducible apply wf_barOp | with_reducible apply wf_modLane | with_reducible apply wf_foldl | with_reducible apply wf_foldl2 | with_reducible apply wf_foldl1 | with_reducible apply wf_foldl22 | dsimp only | exact True.intro | intro _ | split)
theorem wf_barwBody (a0 : Ex) (s : State) (h1 : Memory.wf s.mem = true) :
    OutOk (barwBody a0 s) := by
  unfold barwBody
  repeat' (first | with_reducible assumption | with_reducible apply wf_barwOut | dsimp only | exact True.intro | with_reducible apply outOk_ok | with_reducible apply outOk_hold | intro _ | split)
theorem wf_execBarw (a0 : Fields) (s : State) (h1 : Memory.wf s.mem = true) :
    NextOk (execBarw a0 s) := by
  unfold execBarw
  repeat' (first | with_reducible assumption | with_reducible apply wf_barwBody | with_reducible apply wf_runInstr | dsimp only | exact True.intro | with_reducible apply nextOk_next | intro _ | split)
theorem wf_bartOut (a0 : Ex) (s : State) (h1 : Memory.wf s.mem = true) :
    Memory.wf (bartOut a0 s).mem = true := by
  unfold bartOut
  repeat' (first | with_reducible assumption | with_reducible apply wf_writePreds | dsimp only | exact True.intro | intro _ | split)
theorem wf_bartBody (a0 : Ex) (s : State) (h1 : Memory.wf s.mem = true) :
    OutOk (bartBody a0 s) := by
  unfold bartBody
  repeat' (first | with_reducible assumption | with_reducible apply wf_bartOut | dsimp only | exact True.intro | with_reducible apply outOk_ok | with_reducible apply outOk_hold | intro _ | split)
theorem wf_execBart (a0 : Fields) (s : State) (h1 : Memory.wf s.mem = true) :
    NextOk (execBart a0 s) := by
  unfold execBart
  repeat' (first | with_reducible assumption | with_reducible apply wf_bartBody | with_reducible apply wf_runInstr | dsimp only | exact True.intro | with_reducible apply nextOk_next | intro _ | split)
theorem wf_fbarOut (a0 : Ex) (s : State) (h1 : Memory.wf s.mem = true) :
    Memory.wf (fbarOut a0 s).mem = true := by
  unfold fbarOut
  repeat' (first | with_reducible assumption | with_reducible apply wf_modFibre | dsimp only | exact True.intro | intro _ | split)
theorem wf_fbarBody (a0 : Ex) (s : State) (h1 : Memory.wf s.mem = true) :
    OutOk (fbarBody a0 s) := by
  unfold fbarBody
  repeat' (first | with_reducible assumption | with_reducible apply wf_fbarOut | dsimp only | exact True.intro | with_reducible apply outOk_ok | with_reducible apply outOk_hold | intro _ | split)
theorem wf_execFbar (a0 : Fields) (s : State) (h1 : Memory.wf s.mem = true) :
    NextOk (execFbar a0 s) := by
  unfold execFbar
  repeat' (first | with_reducible assumption | with_reducible apply wf_fbarBody | with_reducible apply wf_runInstr | dsimp only | exact True.intro | with_reducible apply nextOk_next | intro _ | split)
theorem wf_festOut (a0 : Ex) (s : State) (h1 : Memory.wf s.mem = true) :
    Memory.wf (festOut a0 s).mem = true := by
  unfold festOut
  repeat' (first | with_reducible assumption | with_reducible apply wf_setFull | with_reducible apply wf_foldl | with_reducible apply wf_foldl2 | with_reducible apply wf_foldl1 | with_reducible apply wf_foldl22 | dsimp only | exact True.intro | intro _ | split)
theorem wf_festBody (a0 : Ex) (s : State) (h1 : Memory.wf s.mem = true) :
    OutOk (festBody a0 s) := by
  unfold festBody
  repeat' (first | with_reducible assumption | with_reducible apply wf_festOut | dsimp only | exact True.intro | with_reducible apply outOk_ok | with_reducible apply outOk_hold | intro _ | split)
theorem wf_execFest (a0 : Fields) (s : State) (h1 : Memory.wf s.mem = true) :
    NextOk (execFest a0 s) := by
  unfold execFest
  repeat' (first | with_reducible assumption | with_reducible apply wf_festBody | with_reducible apply wf_runInstr | dsimp only | exact True.intro | with_reducible apply nextOk_next | intro _ | split)
theorem wf_feqOut (a0 : Ex) (s : State) (h1 : Memory.wf s.mem = true) :
    Memory.wf (feqOut a0 s).mem = true := by
  unfold feqOut
  repeat' (first | with_reducible assumption | with_reducible apply wf_writePreds | dsimp only | exact True.intro | intro _ | split)
theorem wf_feqBody (a0 : Ex) (s : State) (h1 : Memory.wf s.mem = true) :
    OutOk (feqBody a0 s) := by
  unfold feqBody
  repeat' (first | with_reducible assumption | with_reducible apply wf_feqOut | dsimp only | exact True.intro | with_reducible apply outOk_ok | with_reducible apply outOk_hold | intro _ | split)
theorem wf_execFeq (a0 : Fields) (s : State) (h1 : Memory.wf s.mem = true) :
    NextOk (execFeq a0 s) := by
  unfold execFeq
  repeat' (first | with_reducible assumption | with_reducible apply wf_feqBody | with_reducible apply wf_runInstr | dsimp only | exact True.intro | with_reducible apply nextOk_next | intro _ | split)

/-! System. -/

theorem wf_rasLog (s : State) (a1 : Nat) (a2 : Nat) (a3 : Nat) (a4 : Nat) (a5 : Option Nat) (h0 : Memory.wf s.mem = true) :
    Memory.wf (State.rasLog s a1 a2 a3 a4 a5).mem = true := by
  unfold State.rasLog
  repeat' (first | with_reducible assumption | with_reducible apply wf_areaWrite | with_reducible apply wf_mgmtEvent | with_reducible apply wf_tick | with_reducible apply wf_fresh | dsimp only | exact True.intro | intro _ | (split <;> (try (rename_i hq; have hq1 := congrArg Prod.snd hq; dsimp only at hq1; subst hq1))))
theorem wf_corrected (s : State) (a1 : Nat) (a2 : Nat) (a3 : Nat) (h0 : Memory.wf s.mem = true) :
    Memory.wf (State.corrected s a1 a2 a3).mem = true := by
  unfold State.corrected
  repeat' (first | with_reducible assumption | with_reducible apply wf_rasLog | dsimp only | exact True.intro | intro _ | split)
theorem wf_rastail (a0 : Word) (s : State) (h1 : Memory.wf s.mem = true) :
    Memory.wf (rastail a0 s).mem = true := by
  unfold rastail
  repeat' (first | with_reducible assumption | dsimp only | exact True.intro | intro _ | split)
theorem wf_execRastail (a0 : Word) (s : State) (h1 : Memory.wf s.mem = true) :
    NextOk (execRastail a0 s) := by
  unfold execRastail
  repeat' (first | with_reducible assumption | with_reducible apply wf_rastail | dsimp only | exact True.intro | with_reducible apply nextOk_next | intro _ | split)
theorem wf_rasstat (a0 : Word) (s : State) (h1 : Memory.wf s.mem = true) :
    Memory.wf (rasstat a0 s).mem = true := by
  unfold rasstat
  repeat' (first | with_reducible assumption | dsimp only | exact True.intro | intro _ | split)
theorem wf_execRasstat (a0 : Word) (s : State) (h1 : Memory.wf s.mem = true) :
    NextOk (execRasstat a0 s) := by
  unfold execRasstat
  repeat' (first | with_reducible assumption | with_reducible apply wf_rasstat | dsimp only | exact True.intro | with_reducible apply nextOk_next | intro _ | split)
theorem wf_powerUp (a0 : Bool) (a1 : List Byte) (s : State) (h2 : Memory.wf s.mem = true) :
    Memory.wf (powerUp a0 a1 s).mem = true := by
  unfold powerUp
  repeat' (first | with_reducible assumption | with_reducible apply wf_fresh | dsimp only | exact True.intro | intro _ | (split <;> (try (rename_i hq; have hq1 := congrArg Prod.snd hq; dsimp only at hq1; subst hq1))))
theorem wf_execPowerUp (a0 : Bool) (a1 : List Byte) (s : State) (h2 : Memory.wf s.mem = true) :
    NextOk (execPowerUp a0 a1 s) := by
  unfold execPowerUp
  repeat' (first | with_reducible assumption | with_reducible apply wf_powerUp | dsimp only | exact True.intro | with_reducible apply nextOk_next | intro _ | split)
theorem wf_unitUp (s : State) (h0 : Memory.wf s.mem = true) :
    ∀ r, State.unitUp s = some r → Memory.wf r.mem = true := by
  unfold State.unitUp
  repeat' (first | with_reducible assumption | dsimp only | exact True.intro | split | (intro hq; injection hq with hq; subst hq) | (intro hq; cases hq; done) | intro _)
theorem wf_firmwareReflash (a0 : Bool) (s : State) (h1 : Memory.wf s.mem = true) :
    Memory.wf (firmwareReflash a0 s).mem = true := by
  unfold firmwareReflash
  repeat' (first | with_reducible assumption | dsimp only | exact True.intro | intro _ | split)
theorem wf_execFirmwareReflash (a0 : Bool) (s : State) (h1 : Memory.wf s.mem = true) :
    NextOk (execFirmwareReflash a0 s) := by
  unfold execFirmwareReflash
  repeat' (first | with_reducible assumption | with_reducible apply wf_firmwareReflash | dsimp only | exact True.intro | with_reducible apply nextOk_next | intro _ | split)
theorem wf_powerLoss (s : State) : Memory.wf (powerLoss s).mem = true := rfl
theorem wf_execPowerLoss (s : State) (_ : Memory.wf s.mem = true) : NextOk (execPowerLoss s) := wf_powerLoss s
theorem wf_mgmtCoreFail (a0 : Nat) (s : State) (h1 : Memory.wf s.mem = true) :
    Memory.wf (mgmtCoreFail a0 s).mem = true := by
  unfold mgmtCoreFail
  repeat' (first | with_reducible assumption | dsimp only | exact True.intro | intro _ | split)
theorem wf_execMgmtCoreFail (a0 : Nat) (s : State) (h1 : Memory.wf s.mem = true) :
    NextOk (execMgmtCoreFail a0 s) := by
  unfold execMgmtCoreFail
  repeat' (first | with_reducible assumption | with_reducible apply wf_mgmtCoreFail | dsimp only | exact True.intro | with_reducible apply nextOk_next | intro _ | split)
theorem wf_clockThrottle (a0 : Nat) (a1 : Bool) (s : State) (h2 : Memory.wf s.mem = true) :
    Memory.wf (clockThrottle a0 a1 s).mem = true := by
  unfold clockThrottle
  repeat' (first | with_reducible assumption | dsimp only | exact True.intro | intro _ | split)
theorem wf_execClockThrottle (a0 : Nat) (a1 : Bool) (s : State) (h2 : Memory.wf s.mem = true) :
    NextOk (execClockThrottle a0 a1 s) := by
  unfold execClockThrottle
  repeat' (first | with_reducible assumption | with_reducible apply wf_clockThrottle | dsimp only | exact True.intro | with_reducible apply nextOk_next | intro _ | split)
theorem wf_mailboxRequest (a0 : List Byte) (s : State) (h1 : Memory.wf s.mem = true) :
    Memory.wf (mailboxRequest a0 s).mem = true := by
  unfold mailboxRequest
  repeat' (first | with_reducible assumption | dsimp only | exact True.intro | intro _ | split)
theorem wf_execMailboxRequest (a0 : List Byte) (s : State) (h1 : Memory.wf s.mem = true) :
    NextOk (execMailboxRequest a0 s) := by
  unfold execMailboxRequest
  repeat' (first | with_reducible assumption | with_reducible apply wf_mailboxRequest | dsimp only | exact True.intro | with_reducible apply nextOk_next | intro _ | split)
theorem wf_mailTake (s : State) (h0 : Memory.wf s.mem = true) :
    ∀ r, State.mailTake s = some r → Memory.wf r.mem = true := by
  unfold State.mailTake
  repeat' (first | with_reducible assumption | dsimp only | exact True.intro | split | (intro hq; injection hq with hq; subst hq) | (intro hq; cases hq; done) | intro _)
theorem wf_mailAnswer (s : State) (h0 : Memory.wf s.mem = true) :
    ∀ r, State.mailAnswer s = some r → Memory.wf r.mem = true := by
  unfold State.mailAnswer
  repeat' (first | with_reducible assumption | with_reducible apply wf_fresh | dsimp only | exact True.intro | (split <;> (try (rename_i hq; have hq1 := congrArg Prod.snd hq; dsimp only at hq1; subst hq1))) | (intro hq; injection hq with hq; subst hq) | (intro hq; cases hq; done) | intro _)
theorem wf_mailGo (s : State) (h0 : Memory.wf s.mem = true) :
    ∀ r, State.mailGo s = some r → Memory.wf r.mem = true := by
  have h := wf_fresh s h0
  unfold State.mailGo
  split
  · exact wf_orElse _ _ (wf_mailTake _ h) (wf_mailAnswer _ h)
  · exact wf_orElse _ _ (wf_mailAnswer _ h) (wf_mailTake _ h)
theorem wf_eventRingConsume (a0 : Nat) (s : State) (h1 : Memory.wf s.mem = true) :
    Memory.wf (eventRingConsume a0 s).mem = true := by
  unfold eventRingConsume
  repeat' (first | with_reducible assumption | dsimp only | exact True.intro | intro _ | split)
theorem wf_execEventRingConsume (a0 : Nat) (s : State) (h1 : Memory.wf s.mem = true) :
    NextOk (execEventRingConsume a0 s) := by
  unfold execEventRingConsume
  repeat' (first | with_reducible assumption | with_reducible apply wf_eventRingConsume | dsimp only | exact True.intro | with_reducible apply nextOk_next | intro _ | split)
theorem wf_bringHome (s : State) (h0 : Memory.wf s.mem = true) :
    Memory.wf (State.bringHome s).mem = true := by
  unfold State.bringHome
  repeat' (first | with_reducible assumption | with_reducible apply wf_pullHome | with_reducible apply wf_foldl | with_reducible apply wf_foldl2 | with_reducible apply wf_foldl1 | with_reducible apply wf_foldl22 | dsimp only | exact True.intro | intro _ | split)
theorem wf_partitionCut (a0 : Nat) (a1 : Nat) (s : State) (h2 : Memory.wf s.mem = true) :
    Memory.wf (partitionCut a0 a1 s).mem = true := by
  unfold partitionCut
  repeat' (first | with_reducible assumption | with_reducible apply wf_bringHome | dsimp only | exact True.intro | intro _ | split)
theorem wf_execPartitionCut (a0 : Nat) (a1 : Nat) (s : State) (h2 : Memory.wf s.mem = true) :
    NextOk (execPartitionCut a0 a1 s) := by
  unfold execPartitionCut
  repeat' (first | with_reducible assumption | with_reducible apply wf_partitionCut | dsimp only | exact True.intro | with_reducible apply nextOk_next | intro _ | split)
theorem wf_partitionStart (s : State) (h0 : Memory.wf s.mem = true) :
    Memory.wf (partitionStart s).mem = true := by
  unfold partitionStart
  repeat' (first | with_reducible assumption | dsimp only | exact True.intro | intro _ | split)
theorem wf_execPartitionStart (s : State) (h0 : Memory.wf s.mem = true) :
    NextOk (execPartitionStart s) := by
  unfold execPartitionStart
  repeat' (first | with_reducible assumption | with_reducible apply wf_partitionStart | dsimp only | exact True.intro | with_reducible apply nextOk_next | intro _ | split)
theorem wf_coreUp (a0 : Nat) (s : State) (h1 : Memory.wf s.mem = true) :
    Memory.wf (coreUp a0 s).mem = true := by
  unfold coreUp
  repeat' (first | with_reducible assumption | with_reducible apply wf_refill | with_reducible apply wf_wake | with_reducible apply wf_modCore | dsimp only | exact True.intro | intro _ | (split <;> (try (rename_i hq; have hq1 := congrArg Prod.snd hq; dsimp only at hq1; subst hq1))))
theorem wf_execCoreUp (a0 : Nat) (s : State) (h1 : Memory.wf s.mem = true) :
    NextOk (execCoreUp a0 s) := by
  unfold execCoreUp
  repeat' (first | with_reducible assumption | with_reducible apply wf_coreUp | dsimp only | exact True.intro | with_reducible apply nextOk_next | intro _ | split)
theorem wf_contextBind (a0 : CtxCfg) (s : State) (h1 : Memory.wf s.mem = true) :
    Memory.wf (contextBind a0 s).mem = true := by
  unfold contextBind
  repeat' (first | with_reducible assumption | with_reducible apply wf_modCtx | with_reducible apply wf_grant | with_reducible apply wf_fresh | dsimp only | exact True.intro | intro _ | (split <;> (try (rename_i hq; have hq1 := congrArg Prod.snd hq; dsimp only at hq1; subst hq1))))
theorem wf_execContextBind (a0 : CtxCfg) (s : State) (h1 : Memory.wf s.mem = true) :
    NextOk (execContextBind a0 s) := by
  unfold execContextBind
  repeat' (first | with_reducible assumption | with_reducible apply wf_contextBind | dsimp only | exact True.intro | with_reducible apply nextOk_next | intro _ | split)
theorem wf_discard (s : State) (a1 : Nat) (h0 : Memory.wf s.mem = true) :
    Memory.wf (State.discard s a1).mem = true := by
  unfold State.discard
  repeat' (first | with_reducible assumption | with_reducible apply wf_leaveGroup | with_reducible apply wf_unfuseIdle | with_reducible apply wf_dropScore | with_reducible apply wf_foldl | with_reducible apply wf_foldl2 | with_reducible apply wf_foldl1 | with_reducible apply wf_foldl22 | dsimp only | exact True.intro | intro _ | split)
theorem wf_dropRequests (s : State) (a1 : Byte) (h0 : Memory.wf s.mem = true) :
    Memory.wf (State.dropRequests s a1).mem = true := by
  unfold State.dropRequests
  repeat' (first | with_reducible assumption | with_reducible apply wf_dropOwners | with_reducible apply wf_foldl | with_reducible apply wf_foldl2 | with_reducible apply wf_foldl1 | with_reducible apply wf_foldl22 | dsimp only | exact True.intro | intro _ | split)
theorem wf_cancelX (s : State) (a1 : XMsg) (h0 : Memory.wf s.mem = true) :
    Memory.wf (State.cancelX s a1).mem = true := by
  unfold State.cancelX
  repeat' (first | with_reducible assumption | with_reducible apply wf_xStatus | with_reducible apply wf_xCause | with_reducible apply wf_descStore | dsimp only | exact True.intro | intro _ | (split <;> (try (rename_i hq; have hq1 := congrArg Prod.snd hq; dsimp only at hq1; subst hq1))))
theorem wf_cancelPooled (s : State) (a1 : Cmd) (h0 : Memory.wf s.mem = true) :
    Memory.wf (State.cancelPooled s a1).mem = true := by
  unfold State.cancelPooled
  repeat' (first | with_reducible assumption | with_reducible apply wf_addCart | dsimp only | exact True.intro | intro _ | split)
theorem wf_tornLaunch (s : State) (a1 : Launch) (h0 : Memory.wf s.mem = true) :
    Memory.wf (State.tornLaunch s a1).mem = true := by
  unfold State.tornLaunch
  repeat' (first | with_reducible assumption | with_reducible apply wf_endWhole | with_reducible apply wf_enginePuts | with_reducible apply wf_foldl | with_reducible apply wf_foldl2 | with_reducible apply wf_foldl1 | with_reducible apply wf_foldl22 | dsimp only | exact True.intro | intro _ | split)
theorem wf_endWork (s : State) (a1 : Byte) (h0 : Memory.wf s.mem = true) :
    Memory.wf (State.endWork s a1).mem = true := by
  unfold State.endWork
  repeat' (first | with_reducible assumption | with_reducible apply wf_tornLaunch | with_reducible apply wf_cancelPooled | with_reducible apply wf_cancelX | with_reducible apply wf_modEngine | with_reducible apply wf_foldl | with_reducible apply wf_foldl2 | with_reducible apply wf_foldl1 | with_reducible apply wf_foldl22 | dsimp only | exact True.intro | intro _ | split)
theorem wf_tear (s : State) (a1 : Byte) (h0 : Memory.wf s.mem = true) :
    Memory.wf (State.tear s a1).mem = true := by
  unfold State.tear
  repeat' (first | with_reducible assumption | with_reducible apply wf_endWork | with_reducible apply wf_dropRequests | with_reducible apply wf_discard | with_reducible apply wf_modEngine | with_reducible apply wf_modCtx | with_reducible apply wf_wake | with_reducible apply wf_revoke | with_reducible apply wf_foldl | with_reducible apply wf_foldl2 | with_reducible apply wf_foldl1 | with_reducible apply wf_foldl22 | dsimp only | exact True.intro | intro _ | split)
theorem wf_tearAll (s : State) (h0 : Memory.wf s.mem = true) :
    Memory.wf (State.tearAll s).mem = true := by
  unfold State.tearAll
  repeat' (first | with_reducible assumption | with_reducible apply wf_tear | with_reducible apply wf_foldl | with_reducible apply wf_foldl2 | with_reducible apply wf_foldl1 | with_reducible apply wf_foldl22 | dsimp only | exact True.intro | intro _ | split)
theorem wf_teardown (a0 : Byte) (s : State) (h1 : Memory.wf s.mem = true) :
    Memory.wf (teardown a0 s).mem = true := by
  unfold teardown
  repeat' (first | with_reducible assumption | with_reducible apply wf_tear | dsimp only | exact True.intro | intro _ | split)
theorem wf_execTeardown (a0 : Byte) (s : State) (h1 : Memory.wf s.mem = true) :
    NextOk (execTeardown a0 s) := by
  unfold execTeardown
  repeat' (first | with_reducible assumption | with_reducible apply wf_teardown | dsimp only | exact True.intro | with_reducible apply nextOk_next | intro _ | split)
theorem wf_scrctlGo (s : State) (h0 : Memory.wf s.mem = true) :
    Memory.wf (scrctlGo s).mem = true := by
  unfold scrctlGo
  repeat' (first | with_reducible assumption | dsimp only | exact True.intro | intro _ | split)
theorem wf_execScrctlGo (s : State) (h0 : Memory.wf s.mem = true) :
    NextOk (execScrctlGo s) := by
  unfold execScrctlGo
  repeat' (first | with_reducible assumption | with_reducible apply wf_scrctlGo | dsimp only | exact True.intro | with_reducible apply nextOk_next | intro _ | split)
theorem wf_scrctlBlock (s : State) (h0 : Memory.wf s.mem = true) :
    Memory.wf (scrctlBlock s).mem = true := by
  unfold scrctlBlock
  repeat' (first | with_reducible assumption | dsimp only | exact True.intro | intro _ | split)
theorem wf_execScrctlBlock (s : State) (h0 : Memory.wf s.mem = true) :
    NextOk (execScrctlBlock s) := by
  unfold execScrctlBlock
  repeat' (first | with_reducible assumption | with_reducible apply wf_scrctlBlock | dsimp only | exact True.intro | with_reducible apply nextOk_next | intro _ | split)
theorem wf_scrstat (a0 : Word) (s : State) (h1 : Memory.wf s.mem = true) :
    Memory.wf (scrstat a0 s).mem = true := by
  unfold scrstat
  repeat' (first | with_reducible assumption | dsimp only | exact True.intro | intro _ | split)
theorem wf_execScrstat (a0 : Word) (s : State) (h1 : Memory.wf s.mem = true) :
    NextOk (execScrstat a0 s) := by
  unfold execScrstat
  repeat' (first | with_reducible assumption | with_reducible apply wf_scrstat | dsimp only | exact True.intro | with_reducible apply nextOk_next | intro _ | split)
theorem wf_scrubOne (s : State) (a1 : List Nat) (a2 : Nat × Nat) (h0 : Memory.wf s.mem = true) :
    Memory.wf (State.scrubOne s a1 a2).mem = true := by
  unfold State.scrubOne
  repeat' (first | with_reducible assumption | with_reducible apply wf_rasLog | with_reducible apply wf_clearRange | dsimp only | exact True.intro | intro _ | split)
theorem wf_forgetTorn (s : State) (h0 : Memory.wf s.mem = true) :
    Memory.wf (State.forgetTorn s).mem = true := by
  unfold State.forgetTorn
  repeat' (first | with_reducible assumption | with_reducible apply wf_tlbFilter | dsimp only | exact True.intro | intro _ | split)
theorem wf_scrubNext (s : State) (h0 : Memory.wf s.mem = true) :
    ∀ r, State.scrubNext s = some r → Memory.wf r.mem = true := by
  unfold State.scrubNext
  repeat' (first | with_reducible assumption | with_reducible apply wf_forgetTorn | with_reducible apply wf_scrubOne | with_reducible apply wf_fresh | dsimp only | exact True.intro | (split <;> (try (rename_i hq; have hq1 := congrArg Prod.snd hq; dsimp only at hq1; subst hq1))) | (intro hq; injection hq with hq; subst hq) | (intro hq; cases hq; done) | intro _)
theorem wf_scrubbed (s : State) (a1 : List Nat) (h0 : Memory.wf s.mem = true) :
    Memory.wf (State.scrubbed s a1).mem = true := by
  unfold State.scrubbed
  repeat' (first | with_reducible assumption | with_reducible apply wf_forgetTorn | with_reducible apply wf_scrubOne | with_reducible apply wf_refill | with_reducible apply wf_freeSlot | with_reducible apply wf_pressure | with_reducible apply wf_foldl | with_reducible apply wf_foldl2 | with_reducible apply wf_foldl1 | with_reducible apply wf_foldl22 | dsimp only | exact True.intro | intro _ | split)
theorem wf_scrubDone (a0 : List Nat) (s : State) (h1 : Memory.wf s.mem = true) :
    Memory.wf (scrubDone a0 s).mem = true := by
  unfold scrubDone
  repeat' (first | with_reducible assumption | with_reducible apply wf_scrubbed | with_reducible apply wf_wake | dsimp only | exact True.intro | intro _ | split)
theorem wf_execScrubDone (a0 : List Nat) (s : State) (h1 : Memory.wf s.mem = true) :
    NextOk (execScrubDone a0 s) := by
  unfold execScrubDone
  repeat' (first | with_reducible assumption | with_reducible apply wf_scrubDone | dsimp only | exact True.intro | with_reducible apply nextOk_next | intro _ | split)
theorem wf_partitionReset (s : State) (h0 : Memory.wf s.mem = true) :
    Memory.wf (partitionReset s).mem = true := by
  unfold partitionReset
  repeat' (first | with_reducible assumption | dsimp only | exact True.intro | intro _ | split)
theorem wf_execPartitionReset (s : State) (h0 : Memory.wf s.mem = true) :
    NextOk (execPartitionReset s) := by
  unfold execPartitionReset
  repeat' (first | with_reducible assumption | with_reducible apply wf_partitionReset | dsimp only | exact True.intro | with_reducible apply nextOk_next | intro _ | split)
theorem wf_lectlWrite (a0 : Word) (s : State) (h1 : Memory.wf s.mem = true) :
    Memory.wf (lectlWrite a0 s).mem = true := by
  unfold lectlWrite
  repeat' (first | with_reducible assumption | with_reducible apply wf_lectlPause | with_reducible apply wf_lectlEn | dsimp only | exact True.intro | intro _ | split)
theorem wf_scrctlWrite (a0 : Word) (s : State) (h1 : Memory.wf s.mem = true) :
    Memory.wf (scrctlWrite a0 s).mem = true := by
  unfold scrctlWrite
  repeat' (first | with_reducible assumption | with_reducible apply wf_scrctlBlock | with_reducible apply wf_scrctlGo | dsimp only | exact True.intro | intro _ | split)
theorem wf_registerWrite (a0 : RegPage) (a1 : Nat) (a2 : DWord) (s : State) (h3 : Memory.wf s.mem = true) :
    Memory.wf (registerWrite a0 a1 a2 s).mem = true := by
  unfold registerWrite
  repeat' (first | with_reducible assumption | with_reducible apply wf_scrctlWrite | with_reducible apply wf_lectlWrite | with_reducible apply wf_scrstat | with_reducible apply wf_rasstat | with_reducible apply wf_rastail | with_reducible apply wf_lestat | with_reducible apply wf_qnotify | with_reducible apply wf_modEngine | dsimp only | exact True.intro | intro _ | split)
theorem wf_execRegisterWrite (a0 : RegPage) (a1 : Nat) (a2 : DWord) (s : State) (h3 : Memory.wf s.mem = true) :
    NextOk (execRegisterWrite a0 a1 a2 s) := by
  unfold execRegisterWrite
  repeat' (first | with_reducible assumption | with_reducible apply wf_registerWrite | dsimp only | exact True.intro | with_reducible apply nextOk_next | intro _ | split)
theorem wf_saveAll (s : State) (h0 : Memory.wf s.mem = true) :
    Memory.wf (State.saveAll s).mem = true := by
  unfold State.saveAll
  repeat' (first | with_reducible assumption | with_reducible apply wf_requestPre | with_reducible apply wf_modGroup | with_reducible apply wf_foldl | with_reducible apply wf_foldl2 | with_reducible apply wf_foldl1 | with_reducible apply wf_foldl22 | dsimp only | exact True.intro | intro _ | split)
theorem wf_swapDie (s : State) (a1 : Nat) (h0 : Memory.wf s.mem = true) :
    Memory.wf (State.swapDie s a1).mem = true := by
  unfold State.swapDie
  repeat' (first | with_reducible assumption | with_reducible apply wf_rasLog | with_reducible apply wf_refill | with_reducible apply wf_wake | dsimp only | exact True.intro | intro _ | split)
theorem wf_dieReplace (a0 : Nat) (s : State) (h1 : Memory.wf s.mem = true) :
    Memory.wf (dieReplace a0 s).mem = true := by
  unfold dieReplace
  repeat' (first | with_reducible assumption | with_reducible apply wf_swapDie | with_reducible apply wf_saveAll | with_reducible apply wf_drainL1 | with_reducible apply wf_wake | with_reducible apply wf_foldl | with_reducible apply wf_foldl2 | with_reducible apply wf_foldl1 | with_reducible apply wf_foldl22 | dsimp only | exact True.intro | intro _ | split)
theorem wf_execDieReplace (a0 : Nat) (s : State) (h1 : Memory.wf s.mem = true) :
    NextOk (execDieReplace a0 s) := by
  unfold execDieReplace
  repeat' (first | with_reducible assumption | with_reducible apply wf_dieReplace | dsimp only | exact True.intro | with_reducible apply nextOk_next | intro _ | split)
theorem wf_freezeOut (s : State) (a1 : Nat) (a2 : Nat) (a3 : Nat) (a4 : Nat) (h0 : Memory.wf s.mem = true) :
    Memory.wf (State.freezeOut s a1 a2 a3 a4).mem = true := by
  unfold State.freezeOut
  repeat' (first | with_reducible assumption | with_reducible apply wf_freezePath | with_reducible apply wf_fresh | dsimp only | exact True.intro | intro _ | (split <;> (try (rename_i hq; have hq1 := congrArg Prod.snd hq; dsimp only at hq1; subst hq1))))
theorem wf_loseGroup (s : State) (a1 : Nat) (h0 : Memory.wf s.mem = true) :
    Memory.wf (State.loseGroup s a1).mem = true := by
  unfold State.loseGroup
  repeat' (first | with_reducible assumption | with_reducible apply wf_freezeOut | with_reducible apply wf_haltSeq | with_reducible apply wf_retireCmd | with_reducible apply wf_stopAp | with_reducible apply wf_failGroup | with_reducible apply wf_modGroup | with_reducible apply wf_foldl | with_reducible apply wf_foldl2 | with_reducible apply wf_foldl1 | with_reducible apply wf_foldl22 | dsimp only | exact True.intro | intro _ | split)
theorem wf_loseMsgs (s : State) (a1 : Nat → Bool) (h0 : Memory.wf s.mem = true) :
    Memory.wf (State.loseMsgs s a1).mem = true := by
  unfold State.loseMsgs
  repeat' (first | with_reducible assumption | with_reducible apply wf_homeData | with_reducible apply wf_foldl | with_reducible apply wf_foldl2 | with_reducible apply wf_foldl1 | with_reducible apply wf_foldl22 | dsimp only | exact True.intro | intro _ | split)
theorem wf_loseWaits (s : State) (a1 : Nat → Bool) (h0 : Memory.wf s.mem = true) :
    Memory.wf (State.loseWaits s a1).mem = true := by
  unfold State.loseWaits
  repeat' (first | with_reducible assumption | with_reducible apply wf_endHold | with_reducible apply wf_foldl | with_reducible apply wf_foldl2 | with_reducible apply wf_foldl1 | with_reducible apply wf_foldl22 | dsimp only | exact True.intro | intro _ | split)
theorem wf_loseDie (s : State) (a1 : Nat) (h0 : Memory.wf s.mem = true) :
    Memory.wf (State.loseDie s a1).mem = true := by
  unfold State.loseDie
  repeat' (first | with_reducible assumption | with_reducible apply wf_loseWaits | with_reducible apply wf_loseMsgs | with_reducible apply wf_loseGroup | with_reducible apply wf_saveAll | with_reducible apply wf_rasLog | with_reducible apply wf_dropOwners | with_reducible apply wf_wake | with_reducible apply wf_setHome | with_reducible apply wf_foldl | with_reducible apply wf_foldl2 | with_reducible apply wf_foldl1 | with_reducible apply wf_foldl22 | dsimp only | exact True.intro | intro _ | split)
theorem wf_dieLost (a0 : Nat) (s : State) (h1 : Memory.wf s.mem = true) :
    Memory.wf (dieLost a0 s).mem = true := by
  unfold dieLost
  repeat' (first | with_reducible assumption | with_reducible apply wf_loseDie | dsimp only | exact True.intro | intro _ | split)
theorem wf_execDieLost (a0 : Nat) (s : State) (h1 : Memory.wf s.mem = true) :
    NextOk (execDieLost a0 s) := by
  unfold execDieLost
  repeat' (first | with_reducible assumption | with_reducible apply wf_dieLost | dsimp only | exact True.intro | with_reducible apply nextOk_next | intro _ | split)
theorem wf_registryError (a0 : Nat) (a1 : Bool) (s : State) (h2 : Memory.wf s.mem = true) :
    Memory.wf (registryError a0 a1 s).mem = true := by
  unfold registryError
  repeat' (first | with_reducible assumption | with_reducible apply wf_rasLog | with_reducible apply wf_wake | with_reducible apply wf_startHold | with_reducible apply wf_send | dsimp only | exact True.intro | intro _ | split)
theorem wf_execRegistryError (a0 : Nat) (a1 : Bool) (s : State) (h2 : Memory.wf s.mem = true) :
    NextOk (execRegistryError a0 a1 s) := by
  unfold execRegistryError
  repeat' (first | with_reducible assumption | with_reducible apply wf_registryError | dsimp only | exact True.intro | with_reducible apply nextOk_next | intro _ | split)
theorem wf_claimTimeout (a0 : Nat) (s : State) (h1 : Memory.wf s.mem = true) :
    Memory.wf (claimTimeout a0 s).mem = true := by
  unfold claimTimeout
  repeat' (first | with_reducible assumption | with_reducible apply wf_loseDie | with_reducible apply wf_tearAll | with_reducible apply wf_dropOwners | dsimp only | exact True.intro | intro _ | (split <;> (try (rename_i hq; have hq1 := congrArg Prod.snd hq; dsimp only at hq1; subst hq1))))
theorem wf_execClaimTimeout (a0 : Nat) (s : State) (h1 : Memory.wf s.mem = true) :
    NextOk (execClaimTimeout a0 s) := by
  unfold execClaimTimeout
  repeat' (first | with_reducible assumption | with_reducible apply wf_claimTimeout | dsimp only | exact True.intro | with_reducible apply nextOk_next | intro _ | split)
theorem wf_poisonLine (s : State) (a1 : Nat) (h0 : Memory.wf s.mem = true) :
    Memory.wf (State.poisonLine s a1).mem = true := by
  unfold State.poisonLine
  repeat' (first | with_reducible assumption | with_reducible apply wf_setHome | with_reducible apply wf_foldl | with_reducible apply wf_foldl2 | with_reducible apply wf_foldl1 | with_reducible apply wf_foldl22 | dsimp only | exact True.intro | intro _ | split)
theorem wf_mscTagParity (a0 : Nat) (a1 : Bool) (a2 : Bool) (s : State) (h3 : Memory.wf s.mem = true) :
    Memory.wf (mscTagParity a0 a1 a2 s).mem = true := by
  unfold mscTagParity
  repeat' (first | with_reducible assumption | with_reducible apply wf_poisonLine | with_reducible apply wf_tearAll | with_reducible apply wf_rasLog | dsimp only | exact True.intro | intro _ | split)
theorem wf_execMscTagParity (a0 : Nat) (a1 : Bool) (a2 : Bool) (s : State) (h3 : Memory.wf s.mem = true) :
    NextOk (execMscTagParity a0 a1 a2 s) := by
  unfold execMscTagParity
  repeat' (first | with_reducible assumption | with_reducible apply wf_mscTagParity | dsimp only | exact True.intro | with_reducible apply nextOk_next | intro _ | split)
theorem wf_modMsg (s : State) (a1 : Nat) (a2 : Msg → Msg) (h0 : Memory.wf s.mem = true) :
    Memory.wf (State.modMsg s a1 a2).mem = true := by
  unfold State.modMsg
  repeat' (first | with_reducible assumption | dsimp only | exact True.intro | intro _ | split)
theorem wf_loseFlit (s : State) (a1 : Nat) (a2 : Nat) (a3 : Msg) (h0 : Memory.wf s.mem = true) :
    Memory.wf (State.loseFlit s a1 a2 a3).mem = true := by
  unfold State.loseFlit
  repeat' (first | with_reducible assumption | with_reducible apply wf_modMsg | with_reducible apply wf_loseDie | with_reducible apply wf_rasLog | dsimp only | exact True.intro | intro _ | split)
theorem wf_flitResendLimit (a0 : Nat) (a1 : Nat) (a2 : Bool) (s : State) (h3 : Memory.wf s.mem = true) :
    Memory.wf (flitResendLimit a0 a1 a2 s).mem = true := by
  unfold flitResendLimit
  repeat' (first | with_reducible assumption | with_reducible apply wf_loseFlit | with_reducible apply wf_rasLog | with_reducible apply wf_modCmd | dsimp only | exact True.intro | intro _ | split)
theorem wf_execFlitResendLimit (a0 : Nat) (a1 : Nat) (a2 : Bool) (s : State) (h3 : Memory.wf s.mem = true) :
    NextOk (execFlitResendLimit a0 a1 a2 s) := by
  unfold execFlitResendLimit
  repeat' (first | with_reducible assumption | with_reducible apply wf_flitResendLimit | dsimp only | exact True.intro | with_reducible apply nextOk_next | intro _ | split)
theorem wf_timingReplay (a0 : Nat) (a1 : Nat) (a2 : Bool) (s : State) (h3 : Memory.wf s.mem = true) :
    Memory.wf (timingReplay a0 a1 a2 s).mem = true := by
  unfold timingReplay
  repeat' (first | with_reducible assumption | with_reducible apply wf_perfCount | dsimp only | exact True.intro | intro _ | split)
theorem wf_execTimingReplay (a0 : Nat) (a1 : Nat) (a2 : Bool) (s : State) (h3 : Memory.wf s.mem = true) :
    NextOk (execTimingReplay a0 a1 a2 s) := by
  unfold execTimingReplay
  repeat' (first | with_reducible assumption | with_reducible apply wf_timingReplay | dsimp only | exact True.intro | with_reducible apply nextOk_next | intro _ | split)
theorem wf_memFlaw (s : State) (a1 : Nat) (a2 : Bool) (h0 : Memory.wf s.mem = true) :
    Memory.wf (State.memFlaw s a1 a2).mem = true := by
  unfold State.memFlaw
  repeat' (first | with_reducible assumption | with_reducible apply wf_rasLog | dsimp only | exact True.intro | intro _ | split)
theorem wf_l1Flaw (s : State) (a1 : Nat) (a2 : Nat) (h0 : Memory.wf s.mem = true) :
    Memory.wf (State.l1Flaw s a1 a2).mem = true := by
  unfold State.l1Flaw
  repeat' (first | with_reducible assumption | with_reducible apply wf_rasLog | with_reducible apply wf_setL1 | dsimp only | exact True.intro | intro _ | split)
theorem wf_spadFlaw (s : State) (a1 : Nat) (a2 : Nat) (h0 : Memory.wf s.mem = true) :
    Memory.wf (State.spadFlaw s a1 a2).mem = true := by
  unfold State.spadFlaw
  repeat' (first | with_reducible assumption | with_reducible apply wf_rasLog | with_reducible apply wf_setSp | dsimp only | exact True.intro | intro _ | split)
theorem wf_bstoreFlaw (s : State) (a1 : Nat) (a2 : Nat) (a3 : Nat) (h0 : Memory.wf s.mem = true) :
    Memory.wf (State.bstoreFlaw s a1 a2 a3).mem = true := by
  unfold State.bstoreFlaw
  repeat' (first | with_reducible assumption | with_reducible apply wf_rasLog | with_reducible apply wf_modSeq | with_reducible apply wf_fresh | dsimp only | exact True.intro | intro _ | (split <;> (try (rename_i hq; have hq1 := congrArg Prod.snd hq; dsimp only at hq1; subst hq1))))
theorem wf_parityError (a0 : Flaw) (s : State) (h1 : Memory.wf s.mem = true) :
    Memory.wf (parityError a0 s).mem = true := by
  unfold parityError
  repeat' (first | with_reducible assumption | with_reducible apply wf_bstoreFlaw | with_reducible apply wf_spadFlaw | with_reducible apply wf_l1Flaw | with_reducible apply wf_memFlaw | with_reducible apply wf_freezeOut | with_reducible apply wf_corrected | with_reducible apply wf_rasLog | with_reducible apply wf_haltSeq | dsimp only | exact True.intro | intro _ | split)
theorem wf_execParityError (a0 : Flaw) (s : State) (h1 : Memory.wf s.mem = true) :
    NextOk (execParityError a0 s) := by
  unfold execParityError
  repeat' (first | with_reducible assumption | with_reducible apply wf_parityError | dsimp only | exact True.intro | with_reducible apply nextOk_next | intro _ | split)
theorem wf_unmapRange (s : State) (a1 : Nat) (a2 : Nat) (h0 : Memory.wf s.mem = true) :
    ∀ r, State.unmapRange s a1 a2 = some r → Memory.wf r.mem = true := by
  unfold State.unmapRange
  repeat' (first | with_reducible assumption | with_reducible apply wf_setEntry | with_reducible apply wf_tlbDrop | with_reducible apply wf_foldl | with_reducible apply wf_foldl2 | with_reducible apply wf_foldl1 | with_reducible apply wf_foldl22 | dsimp only | exact True.intro | split | (intro hq; injection hq with hq; subst hq) | (intro hq; cases hq; done) | intro _)
theorem wf_loseLayer (s : State) (a1 : Nat) (a2 : Nat) (h0 : Memory.wf s.mem = true) :
    Memory.wf (State.loseLayer s a1 a2).mem = true := by
  unfold State.loseLayer
  repeat' (first | with_reducible assumption | with_reducible apply wf_rasLog | with_reducible apply wf_clearRange | with_reducible apply wf_tlbFilter | dsimp only | exact True.intro | intro _ | split)
theorem wf_layerMapOut (a0 : Nat) (a1 : Nat) (s : State) (h2 : Memory.wf s.mem = true) :
    Memory.wf (layerMapOut a0 a1 s).mem = true := by
  unfold layerMapOut
  repeat' (first | with_reducible assumption | with_reducible apply wf_loseLayer | with_reducible refine wf_unmapRange _ _ _ ?_ | with_reducible refine wf_unmapRange _ _ _ ?_ _ (by assumption) | with_reducible apply wf_mgmtReport | with_reducible apply wf_wake | with_reducible apply wf_getD | dsimp only | exact True.intro | intro _ | split)
theorem wf_execLayerMapOut (a0 : Nat) (a1 : Nat) (s : State) (h2 : Memory.wf s.mem = true) :
    NextOk (execLayerMapOut a0 a1 s) := by
  unfold execLayerMapOut
  repeat' (first | with_reducible assumption | with_reducible apply wf_layerMapOut | dsimp only | exact True.intro | with_reducible apply nextOk_next | intro _ | split)

end Sys2Proof.Machine
end

