-- ==== Sys2Proof/Laws/CanonStep.lean ====
section
/-! SUPPORT. Memory stays canonical (MemoryCanonical): the operations of every instruction, and of choosing what runs. -/

namespace Sys2Proof.Machine

/-! Dispatch. -/

theorem wf_exec (i : Instr) (s : State) (h : Memory.wf s.mem = true) : NextOk (exec i s) :=
  match i with
  | .nop f => wf_execNop f s h
  | .bra f => wf_execBra f s h
  | .bru f => wf_execBru f s h
  | .jmx f => wf_execJmx f s h
  | .call f => wf_execCall f s h
  | .ret f => wf_execRet f s h
  | .exit f => wf_execExit f s h
  | .fyld f => wf_execFyld f s h
  | .fstart f => wf_execFstart f s h
  | .loop f => wf_execLoop f s h
  | .ipf f => wf_execIpf f s h
  | .ipin f => wf_execIpin f s h
  | .iunp f => wf_execIunp f s h
  | .iadd f => wf_execIadd f s h
  | .isub f => wf_execIsub f s h
  | .imul f => wf_execImul f s h
  | .imulh f => wf_execImulh f s h
  | .imad f => wf_execImad f s h
  | .iadd3 f => wf_execIadd3 f s h
  | .idiv f => wf_execIdiv f s h
  | .irem f => wf_execIrem f s h
  | .imin f => wf_execImin f s h
  | .imax f => wf_execImax f s h
  | .iabs f => wf_execIabs f s h
  | .isadd f => wf_execIsadd f s h
  | .lea f => wf_execLea f s h
  | .idot4 f => wf_execIdot4 f s h
  | .iaddc f => wf_execIaddc f s h
  | .and f => wf_execAnd f s h
  | .or f => wf_execOr f s h
  | .xor f => wf_execXor f s h
  | .bitf f => wf_execBitf f s h
  | .shl f => wf_execShl f s h
  | .shr f => wf_execShr f s h
  | .sar f => wf_execSar f s h
  | .fsh f => wf_execFsh f s h
  | .bfx f => wf_execBfx f s h
  | .bfi f => wf_execBfi f s h
  | .popc f => wf_execPopc f s h
  | .clz f => wf_execClz f s h
  | .brev f => wf_execBrev f s h
  | .bytx f => wf_execBytx f s h
  | .icmp f => wf_execIcmp f s h
  | .fcmp f => wf_execFcmp f s h
  | .sel f => wf_execSel f s h
  | .plog f => wf_execPlog f s h
  | .pmov f => wf_execPmov f s h
  | .iset f => wf_execIset f s h
  | .fset f => wf_execFset f s h
  | .fcls f => wf_execFcls f s h
  | .mov f => wf_execMov f s h
  | .movi f => wf_execMovi f s h
  | .movs f => wf_execMovs f s h
  | .movw f => wf_execMovw f s h
  | .vtos f => wf_execVtos f s h
  | .view f => wf_execView f s h
  | .xvset f => wf_execXvset f s h
  | .fadd f => wf_execFadd f s h
  | .fmul f => wf_execFmul f s h
  | .ffma f => wf_execFfma f s h
  | .fmin f => wf_execFmin f s h
  | .fmax f => wf_execFmax f s h
  | .fdiv f => wf_execFdiv f s h
  | .fsqrt f => wf_execFsqrt f s h
  | .frcp f => wf_execFrcp f s h
  | .frsq f => wf_execFrsq f s h
  | .fex2 f => wf_execFex2 f s h
  | .flg2 f => wf_execFlg2 f s h
  | .frnd f => wf_execFrnd f s h
  | .fscl f => wf_execFscl f s h
  | .fdot2 f => wf_execFdot2 f s h
  | .fcvt f => wf_execFcvt f s h
  | .icvt f => wf_execIcvt f s h
  | .cvtq f => wf_execCvtq f s h
  | .dq f => wf_execDq f s h
  | .scq f => wf_execScq f s h
  | .sacc f => wf_execSacc f s h
  | .ttr f => wf_execTtr f s h
  | .nbr f => wf_execNbr f s h
  | .cxs f => wf_execCxs f s h
  | .vote f => wf_execVote f s h
  | .lred f => wf_execLred f s h
  | .lscan f => wf_execLscan f s h
  | .bcst f => wf_execBcst f s h
  | .ld f => wf_execLd f s h
  | .st f => wf_execSt f s h
  | .lds f => wf_execLds f s h
  | .sts f => wf_execSts f s h
  | .ldu f => wf_execLdu f s h
  | .stu f => wf_execStu f s h
  | .ldfe f => wf_execLdfe f s h
  | .stfe f => wf_execStfe f s h
  | .ldt f => wf_execLdt f s h
  | .stt f => wf_execStt f s h
  | .ldac f => wf_execLdac f s h
  | .stac f => wf_execStac f s h
  | .pft f => wf_execPft f s h
  | .pfc f => wf_execPfc f s h
  | .cctl f => wf_execCctl f s h
  | .atom f => wf_execAtom f s h
  | .acas f => wf_execAcas f s h
  | .atoms f => wf_execAtoms f s h
  | .red f => wf_execRed f s h
  | .acq f => wf_execAcq f s h
  | .rel f => wf_execRel f s h
  | .fence f => wf_execFence f s h
  | .bari f => wf_execBari f s h
  | .bara f => wf_execBara f s h
  | .barw f => wf_execBarw f s h
  | .bard f => wf_execBard f s h
  | .bart f => wf_execBart f s h
  | .fbar f => wf_execFbar f s h
  | .fest f => wf_execFest f s h
  | .feq f => wf_execFeq f s h
  | .waitc f => wf_execWaitc f s h
  | .sigc f => wf_execSigc f s h
  | .mma f => wf_execMma f s h
  | .mms f => wf_execMms f s h
  | .bld f => wf_execBld f s h
  | .acz f => wf_execAcz f s h
  | .sqw f => wf_execSqw f s h
  | .sqa f => wf_execSqa f s h
  | .sqlp f => wf_execSqlp f s h
  | .sqe f => wf_execSqe f s h
  | .mseq f => wf_execMseq f s h
  | .oprf f => wf_execOprf f s h
  | .mstq f => wf_execMstq f s h
  | .copy f => wf_execCopy f s h
  | .copyU f => wf_execCopyU f s h
  | .cchn f => wf_execCchn f s h
  | .apst f => wf_execApst f s h
  | .apstGo f => wf_execApstGo f s h
  | .apsp f => wf_execApsp f s h
  | .qmap f => wf_execQmap f s h
  | .ldq f => wf_execLdq f s h
  | .aend f => wf_execAend f s h
  | .ecmd f => wf_execEcmd f s h
  | .sbq f => wf_execSbq f s h
  | .xwr f => wf_execXwr f s h
  | .xrd f => wf_execXrd f s h
  | .xrdV f => wf_execXrdV f s h
  | .xsnd f => wf_execXsnd f s h
  | .xpstBuf f => wf_execXpstBuf f s h
  | .xpstNtf f => wf_execXpstNtf f s h
  | .xpstUnb f => wf_execXpstUnb f s h
  | .xcng f => wf_execXcng f s h
  | .xfen f => wf_execXfen f s h
  | .rgno f => wf_execRgno f s h
  | .cmt f => wf_execCmt f s h
  | .pchk f => wf_execPchk f s h
  | .pset f => wf_execPset f s h
  | .cart f => wf_execCart f s h
  | .sysc f => wf_execSysc f s h
  | .perf f => wf_execPerf f s h
  | .ifen f => wf_execIfen f s h
  | .pfx p => wf_execPfx p s h
  | .fetchNonresMigrate who ok dpa data => wf_execFetchNonresMigrate who ok dpa data s h
  | .loadDataReturn id lanes => wf_execLoadDataReturn id lanes s h
  | .parkedAccessPerform n => wf_execParkedAccessPerform n s h
  | .slotSwitch g w => wf_execSlotSwitch g w s h
  | .forcedSwitch g w => wf_execForcedSwitch g w s h
  | .siblingHandover g w => wf_execSiblingHandover g w s h
  | .qnotify v => wf_execQnotify v s h
  | .slotServe => wf_execSlotServe s h
  | .recordAccept slot => wf_execRecordAccept slot s h
  | .ageperExpiry => wf_execAgeperExpiry s h
  | .placementPass lsn => wf_execPlacementPass lsn s h
  | .groupRetire g => wf_execGroupRetire g s h
  | .launchEnd lsn => wf_execLaunchEnd lsn s h
  | .rebalExpiry => wf_execRebalExpiry s h
  | .lectlEn b => wf_execLectlEn b s h
  | .lectlPause b => wf_execLectlPause b s h
  | .registerWrite pg off v => wf_execRegisterWrite pg off v s h
  | .translationWalk core ctx va => wf_execTranslationWalk core ctx va s h
  | .tlbInvalidation ctx va len => wf_execTlbInvalidation ctx va len s h
  | .pageSwap slice group what => wf_execPageSwap slice group what s h
  | .pageMigration ctx va dpa toHost data => wf_execPageMigration ctx va dpa toHost data s h
  | .reg n => wf_execReg n s h
  | .rd n => wf_execRd n s h
  | .ucw n => wf_execUcw n s h
  | .ack n => wf_execAck n s h
  | .fwd n => wf_execFwd n s h
  | .rev n => wf_execRev n s h
  | .binv n => wf_execBinv n s h
  | .reva n => wf_execReva n s h
  | .revs n => wf_execRevs n s h
  | .data n => wf_execData n s h
  | .wb n => wf_execWb n s h
  | .noown n => wf_execNoown n s h
  | .claim n => wf_execClaim n s h
  | .registryError line tagLost => wf_execRegistryError line tagLost s h
  | .claimTimeout core => wf_execClaimTimeout core s h
  | .mscTagParity line ctxField dataOk => wf_execMscTagParity line ctxField dataOk s h
  | .flitResendLimit n boundary otherWay => wf_execFlitResendLimit n boundary otherWay s h
  | .pftComplete n => wf_execPftComplete n s h
  | .commandStart id => wf_execCommandStart id s h
  | .commandComplete id => wf_execCommandComplete id s h
  | .queueEntryFill id lanes => wf_execQueueEntryFill id lanes s h
  | .engineDispatch id => wf_execEngineDispatch id s h
  | .dispatchDeadline id => wf_execDispatchDeadline id s h
  | .matrixComplete g => wf_execMatrixComplete g s h
  | .tokenGrant die => wf_execTokenGrant die s h
  | .tokenArrive core => wf_execTokenArrive core s h
  | .tokenIdleReturn core => wf_execTokenIdleReturn core s h
  | .tokenHoldLimit core => wf_execTokenHoldLimit core s h
  | .faultServiceDone g w f answer => wf_execFaultServiceDone g w f answer s h
  | .timingReplay core unit second => wf_execTimingReplay core unit second s h
  | .parityError flaw => wf_execParityError flaw s h
  | .timeSliceExpiry ctx => wf_execTimeSliceExpiry ctx s h
  | .denufPreempt t => wf_execDenufPreempt t s h
  | .forcedSave g => wf_execForcedSave g s h
  | .pftCancel n => wf_execPftCancel n s h
  | .saveStart g => wf_execSaveStart g s h
  | .saveComplete g => wf_execSaveComplete g s h
  | .restoreStart g => wf_execRestoreStart g s h
  | .restoreComplete g => wf_execRestoreComplete g s h
  | .slotReclaim slot => wf_execSlotReclaim slot s h
  | .teardown ctx => wf_execTeardown ctx s h
  | .scrctlGo => wf_execScrctlGo s h
  | .scrctlBlock => wf_execScrctlBlock s h
  | .scrubDone badFrames => wf_execScrubDone badFrames s h
  | .partitionReset => wf_execPartitionReset s h
  | .partitionCut f n => wf_execPartitionCut f n s h
  | .dieReplace slice => wf_execDieReplace slice s h
  | .dieLost slice => wf_execDieLost slice s h
  | .layerMapOut slice layer => wf_execLayerMapOut slice layer s h
  | .packetArrive p => wf_execPacketArrive p s h
  | .packetResend id k => wf_execPacketResend id k s h
  | .messageTimeout id => wf_execMessageTimeout id s h
  | .nobufDeadline id => wf_execNobufDeadline id s h
  | .finalAck id st => wf_execFinalAck id st s h
  | .congestionUpdate ctx peer ws => wf_execCongestionUpdate ctx peer ws s h
  | .syscAnswer id status => wf_execSyscAnswer id status s h
  | .mailboxRequest req => wf_execMailboxRequest req s h
  | .rastail v => wf_execRastail v s h
  | .powerUp imageOk digest => wf_execPowerUp imageOk digest s h
  | .partitionStart => wf_execPartitionStart s h
  | .coreUp core => wf_execCoreUp core s h
  | .mgmtCoreFail n => wf_execMgmtCoreFail n s h
  | .clockThrottle die low => wf_execClockThrottle die low s h
  | .barrierRepeatCompletion g n => wf_execBarrierRepeatCompletion g n s h
  | .bldFinish g => wf_execBldFinish g s h
  | .ucwAcknowledge n => wf_execUcwAcknowledge n s h
  | .contextBind c => wf_execContextBind c s h
  | .powerLoss => wf_execPowerLoss s h
  | .firmwareReflash imageOk => wf_execFirmwareReflash imageOk s h
  | .lestat v => wf_execLestat v s h
  | .scrstat v => wf_execScrstat v s h
  | .rasstat v => wf_execRasstat v s h
  | .eventRingConsume n => wf_execEventRingConsume n s h

/-! Sched. -/

theorem wf_fetchMore (s : State) (c : Nat) (x : Byte) (va : DWord) (n : Nat) (h0 : Memory.wf s.mem = true) :
    Memory.wf (State.fetchMore s c x va n).2.mem = true := by
  induction n generalizing s va with
  | zero => exact h0
  | succ n ih =>
    have h1 := wf_fetchWord s c x va.toNat h0
    unfold State.fetchMore
    split
    · next w t ht =>
      rw [ht] at h1
      have h2 := ih t (va + 4) h1
      split
      · next ws u hu => rw [hu] at h2; exact h2
      · exact h2
    · next r t _ ht => rw [ht] at h1; exact h1
theorem wf_noWord (s : State) (h0 : Memory.wf s.mem = true) :
    Memory.wf (State.noWord s).2.mem = true := by
  unfold State.noWord
  repeat' (first | with_reducible assumption | with_reducible apply wf_fresh | dsimp only | exact True.intro | intro _ | split)
theorem wf_readRest (s : State) (a1 : Nat) (a2 : Byte) (a3 : DWord) (a4 : Word) (a5 : List Word → Option Instr) (h0 : Memory.wf s.mem = true) :
    Memory.wf (State.readRest s a1 a2 a3 a4 a5).2.mem = true := by
  unfold State.readRest
  repeat' (first | with_reducible assumption | with_reducible apply wf_fetchMore | dsimp only | exact True.intro | intro _ | (split <;> (try (rename_i hq; have hq1 := congrArg Prod.snd hq; dsimp only at hq1; subst hq1))))
theorem wf_readAt (s : State) (a1 : Nat) (a2 : Byte) (a3 : DWord) (a4 : List Word → Option Instr) (h0 : Memory.wf s.mem = true) :
    Memory.wf (State.readAt s a1 a2 a3 a4).2.mem = true := by
  unfold State.readAt
  repeat' (first | with_reducible assumption | with_reducible apply wf_readRest | with_reducible apply wf_noWord | with_reducible apply wf_fetchWord | dsimp only | exact True.intro | intro _ | (split <;> (try (rename_i hq; have hq1 := congrArg Prod.snd hq; dsimp only at hq1; subst hq1))))
theorem wf_readPfx (s : State) (a1 : Nat) (a2 : Byte) (a3 : DWord) (a4 : Word) (h0 : Memory.wf s.mem = true) :
    Memory.wf (State.readPfx s a1 a2 a3 a4).2.mem = true := by
  unfold State.readPfx
  repeat' (first | with_reducible assumption | with_reducible apply wf_readRest | with_reducible apply wf_noWord | with_reducible apply wf_fetchWord | dsimp only | exact True.intro | intro _ | (split <;> (try (rename_i hq; have hq1 := congrArg Prod.snd hq; dsimp only at hq1; subst hq1))))
theorem wf_readFibre (s : State) (a1 : Path) (h0 : Memory.wf s.mem = true) :
    Memory.wf (State.readFibre s a1).2.mem = true := by
  unfold State.readFibre
  repeat' (first | with_reducible assumption | with_reducible apply wf_readPfx | with_reducible apply wf_readAt | with_reducible apply wf_readRest | with_reducible apply wf_noWord | with_reducible apply wf_fetchWord | dsimp only | exact True.intro | intro _ | (split <;> (try (rename_i hq; have hq1 := congrArg Prod.snd hq; dsimp only at hq1; subst hq1))))
theorem wf_issueStep (s : State) (p : Path) (q : Option Path) (h0 : Memory.wf s.mem = true) : NextOk (State.issueStep s p q) := by
  have h1 := wf_readFibre s p h0
  unfold State.issueStep
  split
  · next i ws t ht =>
    rw [ht] at h1
    exact wf_exec i ({ t with turn := .issue (t.holdWords p ws) q } : State) h1
  · next va w t ht => rw [ht] at h1; exact wf_wake _ (wf_endCycle _ _ (wf_modFibre _ _ _ _ _ h1))
  · next c w t ht => rw [ht] at h1; exact wf_freezePath _ _ _ h1
theorem wf_streamStep (s : State) (g : Nat) (h0 : Memory.wf s.mem = true) : NextOk (State.streamStep s g) := by
  have h1 := wf_readAt s (s.groupAt g).core (s.groupAt g).ctx (s.groupAt g).seq.spc decodeStream h0
  unfold State.streamStep
  dsimp only
  split
  · next i w t ht => rw [ht] at h1; exact wf_exec i _ h1
  · next va w t ht => rw [ht] at h1; exact wf_modSeq _ _ _ h1
  · next c w t ht => rw [ht] at h1; exact wf_haltSeq _ _ _ h1
theorem wf_accessStep (s : State) (g n : Nat) (h0 : Memory.wf s.mem = true) : NextOk (State.accessStep s g n) := by
  have h1 := wf_readAt s (s.groupAt g).core (s.groupAt g).ctx (s.apAt g n).spc decodeAccess h0
  unfold State.accessStep
  dsimp only
  split
  · next i w t ht => rw [ht] at h1; exact wf_exec i _ h1
  · next va w t ht => rw [ht] at h1; exact wf_modAp _ _ _ _ h1
  · next c w t ht => rw [ht] at h1; exact wf_stopAp _ _ _ h1
theorem wf_noteWait (s t : State) (h0 : Memory.wf s.mem = true) : Memory.wf (State.noteWait s t).mem = true := h0
theorem wf_tryPath (s u : State) (p : Path) (h0 : Memory.wf s.mem = true) (hu : s.tryPath p = .waits u) : Memory.wf u.mem = true := by
  have h1 := wf_readFibre s p h0
  unfold State.tryPath at hu
  split at hu
  · next va w t ht => rw [ht] at h1; cases hu; exact wf_blockPath _ _ (wf_modFibre _ _ _ _ _ h1)
  · cases hu
  · cases hu
  · next i w t _ ht =>
    rw [ht] at h1
    have h2 := wf_exec i ({ t with turn := .issue (t.holdWords p w) none } : State) h1
    split at hu
    · next v hv =>
      rw [hv] at h2
      split at hu
      · cases hu; exact h2
      · cases hu
    · cases hu
theorem wf_noteWord (s : State) (p : Path) (x : Pfx) (h0 : Memory.wf s.mem = true) : Memory.wf (State.noteWord s p x).mem = true := by
  unfold State.noteWord
  split
  · exact wf_blockPath _ _ (wf_holdWalks _ _ h0)
  · exact h0
theorem wf_scanFibre (s : State) (g w f : Nat) (cur : Bool) (h0 : Memory.wf s.mem = true) :
    Memory.wf (State.scanFibre s g w f cur).s.mem = true := by
  unfold State.scanFibre
  split
  · exact h0
  · extract_lets x r
    have hr : Memory.wf r.s.mem = true := by
      refine wf_foldlC _ _ _ (fun b k hb => ?_) h0
      dsimp only
      split
      · next u hu => split
                     · exact wf_tryPath _ _ _ hb hu
                     · exact wf_noteWait _ _ hb
      · exact hb
      · split
        · exact hb
        · exact wf_noteWord _ _ _ hb
    split
    · exact hr
    · exact hr
theorem wf_issuePaths (s : State) (a1 : Path × Option Path) (h0 : Memory.wf s.mem = true) :
    Memory.wf (State.issuePaths s a1).mem = true := by
  unfold State.issuePaths
  repeat' (first | with_reducible assumption | with_reducible apply wf_freezePath | dsimp only | exact True.intro | intro _ | split)
theorem wf_countReady (s : State) (a1 : Nat) (a2 : Nat) (a3 : Option Nat) (h0 : Memory.wf s.mem = true) :
    Memory.wf (State.countReady s a1 a2 a3).mem = true := by
  unfold State.countReady
  repeat' (first | with_reducible assumption | with_reducible apply wf_modWarp | dsimp only | exact True.intro | intro _ | split)
theorem wf_issueSlot (s : State) (a1 : Nat) (a2 : Nat) (a3 : Nat) (a4 : Path × Option Path) (h0 : Memory.wf s.mem = true) :
    Memory.wf (State.issueSlot s a1 a2 a3 a4).mem = true := by
  unfold State.issueSlot
  repeat' (first | with_reducible assumption | with_reducible apply wf_issuePaths | with_reducible apply wf_modCore | with_reducible apply wf_modWarp | dsimp only | exact True.intro | intro _ | split)
theorem wf_lookSlot (s : State) (a1 : Nat) (a2 : Nat) (h0 : Memory.wf s.mem = true) :
    Memory.wf (State.lookSlot s a1 a2).mem = true := by
  unfold State.lookSlot
  repeat' (first | with_reducible assumption | with_reducible apply wf_scanFibre | with_reducible apply wf_wake | with_reducible apply wf_foldl | with_reducible apply wf_foldl2 | with_reducible apply wf_foldl1 | with_reducible apply wf_foldl22 | with_reducible apply wf_foldlC | dsimp only | exact True.intro | intro _ | split)
theorem wf_trySlot (s : State) (g w : Nat) (h0 : Memory.wf s.mem = true) : Memory.wf (State.trySlot s g w).1.mem = true := by
  have hr : Memory.wf ((List.range (s.warpAt g w).fibres.length).foldl (fun (acc : Scan) f =>
      let q := acc.s.scanFibre g w f ((s.warpAt g w).cur == some f)
      if (s.warpAt g w).cur == some f then q else { acc with s := q.s }) { s := s }).s.mem = true := by
    refine wf_foldlC _ _ _ (fun b f hb => ?_) h0
    dsimp only
    split
    · exact wf_scanFibre _ _ _ _ _ hb
    · exact wf_scanFibre _ _ _ _ _ hb
  unfold State.trySlot
  dsimp only at hr ⊢
  revert hr
  generalize List.foldl _ ({ s := s } : Scan) _ = r
  intro hr
  have hc := wf_countReady r.s g w (s.warpAt g w).cur hr
  generalize r.s.countReady g w (s.warpAt g w).cur = u at hc ⊢
  have ht := wf_slotSwitch g w u hc
  have hf := wf_forcedSwitch g w _ ht
  repeat' (first | with_reducible assumption | with_reducible apply wf_setCur | with_reducible apply wf_modWarp | with_reducible apply wf_siblingHandover | with_reducible apply wf_issueSlot | with_reducible apply wf_modCore | dsimp only | split)
theorem wf_trySched (s : State) (a1 : Nat) (a2 : Nat) (h0 : Memory.wf s.mem = true) :
    Memory.wf (State.trySched s a1 a2).1.mem = true := by
  unfold State.trySched
  repeat' (first | with_reducible assumption | with_reducible apply wf_trySlot | with_reducible apply wf_foldl | with_reducible apply wf_foldl2 | with_reducible apply wf_foldl1 | with_reducible apply wf_foldl22 | with_reducible apply wf_foldlC | with_reducible apply wf_optMap | dsimp only | exact True.intro | intro _ | split)
theorem wf_tryTurn (s : State) (t : Turn) (o : Host.Outcome State Fault Refusal) (h0 : Memory.wf s.mem = true) :
    Memory.wf (State.tryTurn s t o).1.mem = true := by
  unfold State.tryTurn
  split
  · split
    · exact h0
    · exact h0
  · exact h0
theorem wf_tryAgent (s : State) (a1 : Agent) (h0 : Memory.wf s.mem = true) :
    Memory.wf (State.tryAgent s a1).1.mem = true := by
  unfold State.tryAgent
  repeat' (first | with_reducible assumption | with_reducible apply wf_tryTurn | with_reducible apply wf_trySched | with_reducible apply wf_accessStep | with_reducible apply wf_streamStep | dsimp only | exact True.intro | intro _ | split)
theorem wf_chooseAgent (s : State) (h0 : Memory.wf s.mem = true) :
    Memory.wf (State.chooseAgent s).1.mem = true := by
  unfold State.chooseAgent
  repeat' (first | with_reducible assumption | with_reducible apply wf_tryAgent | with_reducible apply wf_wake | with_reducible apply wf_foldl | with_reducible apply wf_foldl2 | with_reducible apply wf_foldl1 | with_reducible apply wf_foldl22 | with_reducible apply wf_foldlC | dsimp only | exact True.intro | intro _ | split)
theorem wf_tryDue (s : State) (d : Due) (h0 : Memory.wf s.mem = true) :
    ∀ r, State.tryDue s d = some r → Memory.wf r.mem = true := by
  intro r hr
  cases d with
  | step i =>
    have h1 := wf_exec i s h0
    change (match exec i s with | .next t => if { t with blocked := s.blocked } = s then none else some t | _ => none) = some r at hr
    split at hr
    · next t ht =>
      rw [ht] at h1
      split at hr
      · cases hr
      · rw [← Option.some.inj hr]; exact h1
    · cases hr
  | array g =>
    change (if s.matrixTurn g then some (s.matrixGo g).wake else none) = some r at hr
    split at hr
    · rw [← Option.some.inj hr]; exact wf_wake _ (wf_matrixGo _ _ h0)
    · cases hr
  | command id => exact wf_cmdGo s id h0 r hr
  | ask id => exact wf_askLdq s id h0 r hr
  | place id => exact wf_placeGo s id h0 r hr
  | unit => exact wf_unitUp s h0 r hr
  | mail => exact wf_mailGo s h0 r hr
  | frame => exact wf_scrubNext s h0 r hr
  | ends g w f =>
    change (let t := (s.endStep g w f).flush g; if t = s then none else some t.wake) = some r at hr
    dsimp only at hr
    split at hr
    · cases hr
    · rw [← Option.some.inj hr]; exact wf_wake _ (wf_flush _ _ (wf_endStep _ _ _ _ h0))
theorem wf_chooseDue (s : State) (h0 : Memory.wf s.mem = true) :
    ∀ r, State.chooseDue s = some r → Memory.wf r.mem = true := by
  intro r hr
  obtain ⟨i, _, hi⟩ := List.exists_of_findSome?_eq_some hr
  exact wf_tryDue _ _ h0 _ hi
theorem wf_closeCycle (s : State) (a1 : Opp) (h0 : Memory.wf s.mem = true) :
    Memory.wf (State.closeCycle s a1).mem = true := by
  unfold State.closeCycle
  repeat' (first | with_reducible assumption | with_reducible apply wf_endCycle | dsimp only | exact True.intro | intro _ | split)
theorem wf_lookFor (s : State) (a1 : Instr) (h0 : Memory.wf s.mem = true) :
    Memory.wf (State.lookFor s a1).mem = true := by
  unfold State.lookFor
  repeat' (first | with_reducible assumption | with_reducible apply wf_lookSlot | dsimp only | exact True.intro | intro _ | split)
theorem wf_chooseStep (s : State) (h0 : Memory.wf s.mem = true) : NextOk (State.chooseStep s) := by
  unfold State.chooseStep
  split
  · exact wf_closeCycle _ _ h0
  · split
    · next i is _ => exact wf_exec _ _ (wf_lookFor ({ s with agenda := is } : State) i h0)
    · extract_lets u r
      have hu : Memory.wf u.mem = true := h0
      have hr := wf_chooseAgent u hu
      refine nextOk_next ?_
      split
      · split
        · exact hr
        · exact wf_getD _ _ (wf_chooseDue _ hr) hr
      · exact wf_getD _ _ (wf_chooseDue _ hu) hr

end Sys2Proof.Machine
end

