-- ==== Sys2Proof/Laws/Steady.lean ====
section
/-! SUPPORT. Operations that keep a path's fibre able to go on: they leave the late mark, the placed groups, the cycle's
barrier operations and every active lane as they are. An instruction whose effect is made of them completes. -/

namespace Sys2Proof.Machine

/-- `u` keeps what the end of an execution for a path of group `g` needs of `s`; where `m` is false it has asked for no walk either. -/
structure Steady (m : Bool) (g : Nat) (s u : State) : Prop where
  late : u.late = s.late
  walking : m = false → u.walking = s.walking
  placed : (s.group? g).isSome = true → (u.group? g).isSome = true
  quiet : (s.group? g).isSome = true → (u.groupAt g).barOps = (s.groupAt g).barOps
  lanes : (s.group? g).isSome = true → ∀ w f l, (s.laneAt g w f l).st = .active → (u.laneAt g w f l).st = .active

variable {m : Bool}

theorem Steady.refl (g : Nat) (s : State) : Steady m g s s := ⟨rfl, fun _ => rfl, id, fun _ => rfl, fun _ _ _ _ h => h⟩

theorem Steady.trans {g : Nat} {s t u : State} (h : Steady m g s t) (k : Steady m g t u) : Steady m g s u :=
  ⟨k.late.trans h.late, fun e => (k.walking e).trans (h.walking e), fun hp => k.placed (h.placed hp), fun hp => (k.quiet (h.placed hp)).trans (h.quiet hp),
   fun hp w f l ha => k.lanes (h.placed hp) w f l (h.lanes hp w f l ha)⟩

/-- A change outside the groups. -/
theorem steady_of_groups {g : Nat} {s u : State} (hl : u.late = s.late) (hw : m = false → u.walking = s.walking) (hg : u.groups = s.groups) (hs : u.saved = s.saved) :
    Steady m g s u := by
  have h1 : ∀ j, u.group? j = s.group? j := fun j => by simp [State.group?, hg]
  have h2 : ∀ j, u.groupAt j = s.groupAt j := fun j => by simp [State.groupAt, h1, hs]
  have h3 : ∀ w f l, u.laneAt g w f l = s.laneAt g w f l := fun w f l => by
    simp [State.laneAt, State.fibreAt, State.warpAt, h2]
  exact ⟨hl, hw, fun hp => by rw [h1]; exact hp, fun _ => by rw [h2], fun _ w f l h => by rw [h3]; exact h⟩

theorem steady_foldl {α : Type} {g : Nat} (k : State → α → State) (hk : ∀ s a, Steady m g s (k s a)) (ls : List α) (s : State) :
    Steady m g s (ls.foldl k s) := by
  induction ls generalizing s with
  | nil => exact Steady.refl g s
  | cons a r ih => exact (hk s a).trans (ih (k s a))

/-- The same for a fold that carries more than the state. -/
theorem steady_foldl_of {α β : Type} {g : Nat} (st : β → State) (k : β → α → β) (hk : ∀ b a, Steady m g (st b) (st (k b a)))
    (ls : List α) (b : β) : Steady m g (st b) (st (ls.foldl k b)) := by
  induction ls generalizing b with
  | nil => exact Steady.refl g _
  | cons a r ih => exact (hk b a).trans (ih (k b a))

theorem groupAt_modGroup_of_placed (s : State) (g j : Nat) (k : Group → Group) (hp : (s.group? g).isSome = true) :
    (s.modGroup j k).groupAt g = if g = j then k (s.groupAt g) else s.groupAt g := by
  obtain ⟨x, hx⟩ := Option.isSome_iff_exists.1 hp
  have h : (s.modGroup j k).group? g = if g = j then some (k x) else some x := by
    rw [group?_modGroup]
    split
    · next h => subst h; simp [hx]
    · exact hx
  split
  · next he => rw [if_pos he] at h; rw [groupAt_of_group? h, groupAt_of_group? hx]
  · next he => rw [if_neg he] at h; rw [groupAt_of_group? h, groupAt_of_group? hx]

/-- The lane of a warp. -/
def Warp.laneOf (x : Warp) (f l : Nat) : Lane := (x.fibres.getD f {}).lanes.getD l {}

theorem steady_modGroup (g : Nat) (s : State) (j : Nat) (k : Group → Group) (hb : ∀ x, (k x).barOps = x.barOps)
    (hl : ∀ x w f l, ((x.warps.getD w {}).laneOf f l).st = .active → (((k x).warps.getD w {}).laneOf f l).st = .active) :
    Steady m g s (s.modGroup j k) := by
  refine ⟨modGroup_late .., fun _ => modGroup_walking .., fun hp => by rw [placed_modGroup]; exact hp, fun hp => ?_, fun hp w f l ha => ?_⟩
  · rw [groupAt_modGroup_of_placed s g j k hp]; split
    · exact hb _
    · rfl
  · unfold State.laneAt State.fibreAt State.warpAt
    rw [groupAt_modGroup_of_placed s g j k hp]; split
    · exact hl _ w f l ha
    · exact ha

theorem getD_modAt_imp {α : Type} (P : α → Prop) (xs : List α) (i j : Nat) (k : α → α) (d : α) (hk : ∀ x, P x → P (k x))
    (h : P (xs.getD j d)) : P ((modAt xs i k).getD j d) := by
  by_cases hi : i < xs.length
  · rw [getD_modAt _ _ _ _ _ hi]; split
    · exact hk _ h
    · exact h
  · have : (modAt xs i k).getD j d = xs.getD j d := by
      by_cases hj : j = i
      · subst hj
        simp only [List.getD_eq_getElem?_getD]
        rw [List.getElem?_eq_none (by simpa using hi), List.getElem?_eq_none (by simpa using hi)]
      · exact getD_modAt_ne _ _ _ _ _ hj
    rw [this]; exact h

theorem steady_modWarp (g : Nat) (s : State) (j v : Nat) (k : Warp → Warp)
    (hl : ∀ x f l, (x.laneOf f l).st = .active → ((k x).laneOf f l).st = .active) : Steady m g s (s.modWarp j v k) :=
  steady_modGroup g s j _ (fun _ => rfl) (fun x w f l h =>
    getD_modAt_imp (fun y : Warp => (y.laneOf f l).st = .active) x.warps v w k {} (fun y hy => hl y f l hy) h)

theorem steady_modFibre (g : Nat) (s : State) (j v e : Nat) (k : Fibre → Fibre)
    (hl : ∀ x l, (x.lanes.getD l {}).st = .active → ((k x).lanes.getD l {}).st = .active) : Steady m g s (s.modFibre j v e k) :=
  steady_modWarp g s j v _ (fun x f l h =>
    getD_modAt_imp (fun y : Fibre => (y.lanes.getD l {}).st = .active) x.fibres e f k {} (fun y hy => hl y l hy) h)

/-- A change of a fibre that keeps its lanes. -/
theorem steady_modFibre_same (g : Nat) (s : State) (j v e : Nat) (k : Fibre → Fibre) (hl : ∀ x, (k x).lanes = x.lanes) :
    Steady m g s (s.modFibre j v e k) :=
  steady_modFibre g s j v e k (fun x l h => by rw [hl]; exact h)

theorem steady_modLane (g : Nat) (s : State) (j v e i : Nat) (k : Lane → Lane) (hk : ∀ x, (k x).st = x.st) :
    Steady m g s (s.modLane j v e i k) :=
  steady_modFibre g s j v e _ (fun x l h =>
    getD_modAt_imp (fun y : Lane => y.st = .active) x.lanes i l k {} (fun y hy => (hk y).trans hy) h)

/-! Named operations. -/

section
variable (g : Nat) (s : State)

theorem steady_setReg (j w o : Nat) (v : RegWord) : Steady m g s (s.setReg j w o v) :=
  steady_modWarp g s j w _ (fun _ _ _ h => h)
theorem steady_setUreg (j w f n : Nat) (v : RegWord) : Steady m g s (s.setUreg j w f n v) :=
  steady_modFibre_same g s j w f _ (fun _ => rfl)
theorem steady_setSp (j i : Nat) (v : SpadWord) : Steady m g s (s.setSp j i v) :=
  steady_modGroup g s j _ (fun _ => rfl) (fun _ _ _ _ h => h)
theorem steady_dropDest (j w f : Nat) (l : Option Nat) (d : Dest) : Steady m g s (s.dropDest j w f l d) := steady_of_groups rfl (fun _ => rfl) rfl rfl
theorem steady_writeVec (j w f l o : Nat) (v : RegWord) : Steady m g s (s.writeVec j w f l o v) :=
  (steady_dropDest g s ..).trans (steady_setReg g _ j w o v)
theorem steady_writeUni (j w f n : Nat) (v : RegWord) : Steady m g s (s.writeUni j w f n v) :=
  (steady_dropDest g s ..).trans (steady_setUreg g _ j w f n v)
theorem steady_setFull (d : Dest) (b : Bool) : Steady m g s (s.setFull d b) := by
  cases d with
  | none => exact Steady.refl g s
  | vec j w o => exact steady_setReg ..
  | uni j w f n => exact steady_setUreg ..
  | queue j h e l => exact Steady.refl g s
theorem steady_writeDest (d : Dest) (v : RegWord) : Steady m g s (s.writeDest d v) := by
  cases d with
  | none => exact Steady.refl g s
  | vec j w o => exact steady_setReg ..
  | uni j w f n => exact steady_setUreg ..
  | queue j h e l => exact Steady.refl g s
theorem steady_setFlags (j w f : Nat) (n : Word) : Steady m g s (s.setFlags j w f n) :=
  steady_modFibre_same g s j w f _ (fun _ => rfl)
theorem steady_flagEx (x : Ex) (n : Word) : Steady m g s (s.flagEx x n) := by
  unfold State.flagEx
  split
  · exact Steady.refl g s
  · exact steady_setFlags ..
theorem steady_launchCart (n k : Nat) (r : Cart) : Steady m g s (s.launchCart n k r) := steady_of_groups rfl (fun _ => rfl) rfl rfl
theorem ringPut_lanes (x : Fibre) (r : Cart) : (ringPut x r).lanes = x.lanes := by
  unfold ringPut
  dsimp only
  split
  · rfl
  · rfl
theorem steady_addCart (j w f : Nat) (r : Cart) : Steady m g s (s.addCart j w f r).2 := by
  unfold State.addCart
  dsimp only
  split
  · exact steady_launchCart ..
  · exact steady_modFibre_same g s j w f _ (fun x => ringPut_lanes x _)
theorem steady_makePoison (j w f : Nat) (fl : Byte) (pc : DWord) (made : List (Nat × Val)) :
    Steady m g s (s.makePoison j w f fl pc made).1 := by
  unfold State.makePoison
  refine steady_foldl_of (g := g) (fun b : State × Sparse Word => b.1) _ (fun b a => ?_) _ (s, [])
  exact steady_addCart g b.1 j w f _
theorem steady_failGroup (j : Nat) : Steady m g s (s.failGroup j) := by
  unfold State.failGroup
  dsimp only
  exact (steady_modGroup g s j (fun x => { x with failed := true }) (fun _ => rfl) (fun _ _ _ _ h => h)).trans
    (steady_of_groups rfl (fun _ => rfl) rfl rfl)
theorem steady_countBad (j w f : Nat) (fl : Byte) (pc : DWord) (bads : List (Nat × Val)) :
    Steady m g s (s.countBad j w f fl pc bads) := by
  unfold State.countBad
  refine steady_foldl _ (fun s c => ?_) _ s
  dsimp only
  refine Steady.trans ?_ (steady_addCart g _ j w f _)
  refine Steady.trans ?_ (steady_modFibre_same g _ j w f _ (fun _ => rfl))
  split
  · exact steady_failGroup g s j
  · exact Steady.refl g s
theorem steady_modAp (j n : Nat) (k : Ap → Ap) : Steady m g s (s.modAp j n k) :=
  steady_modGroup g s j _ (fun _ => rfl) (fun _ _ _ _ h => h)
theorem steady_putWord (x : Ex) (code : BitVec 8) (half lane : Nat) (v : RegWord) : Steady m g s (s.putWord x code half lane v) := by
  unfold State.putWord
  dsimp only
  split
  · exact steady_writeVec ..
  · split
    · split
      · exact steady_modAp ..
      · exact steady_writeUni ..
    · exact Steady.refl g s
theorem steady_putWords (x : Ex) (code : BitVec 8) (lane : Nat) (vs : List RegWord) : Steady m g s (s.putWords x code lane vs) := by
  unfold State.putWords
  dsimp only
  split
  · exact (steady_putWord ..).trans (steady_putWord ..)
  · exact steady_putWord ..
theorem steady_writeDst (x : Ex) (code : BitVec 8) (outs : List (Nat × List Val)) (made : List (Nat × Val)) :
    Steady m g s (s.writeDst x code outs made) := by
  have hm := fun a => steady_makePoison (m := m) g s x.p.g x.p.w x.p.f 0 x.p.pc a
  unfold State.writeDst
  dsimp only
  split
  · split
    · exact Steady.refl g s
    · exact (hm _).trans (steady_putWords ..)
  · exact (hm _).trans (steady_foldl _ (fun u (o : Nat × List Val) => steady_putWords g u x code o.1 _) outs _)
theorem steady_setPred (p : Path) (lane n : Nat) (v : Pred) : Steady m g s (s.setPred p lane n v) := by
  unfold State.setPred
  split
  · exact Steady.refl g s
  · exact steady_modLane g s _ _ _ _ _ (fun _ => rfl)
theorem steady_writePreds (x : Ex) (n : Nat) (outs : List (Nat × (Bool ⊕ Val))) (made : List (Nat × Val)) :
    Steady m g s (s.writePreds x n outs made) := by
  unfold State.writePreds
  dsimp only
  exact (steady_makePoison g s x.p.g x.p.w x.p.f 0 x.p.pc _).trans
    (steady_foldl _ (fun u (o : Nat × (Bool ⊕ Val)) => steady_setPred g u x.p o.1 n _) outs _)
theorem steady_popQueues (x : Ex) (codes : List (BitVec 8)) : Steady m g s (s.popQueues x codes) := by
  unfold State.popQueues
  refine steady_foldl _ (fun s c => ?_) _ s
  refine steady_modGroup g s _ _ (fun y => ?_) (fun y w f l h => ?_)
  · split <;> rfl
  · split
    · exact h
    · exact h
theorem steady_irrev (x : Ex) : Steady m g s (s.irrev x) := by
  unfold State.irrev
  split
  · exact steady_modFibre_same g s _ _ _ _ (fun _ => rfl)
  · exact Steady.refl g s
theorem steady_produce (x : Ex) (kind : ProdKind) (acq uc : Bool) (items : List Item) :
    Steady m g s (s.produce x kind acq uc items) := by
  unfold State.produce
  refine (steady_foldl _ (fun s i => ?_) items s).trans (steady_of_groups rfl (fun _ => rfl) rfl rfl)
  exact (steady_dropDest ..).trans (steady_setFull ..)
theorem steady_regOut (srcs : Ex → State → Nat → List (List Val)) (fn : Ex → List (List RegWord) → List RegWord × Word)
    (width : Nat) (x : Ex) : Steady m g s (regOut srcs fn width x s) := by
  unfold regOut
  exact ((steady_popQueues ..).trans (steady_writeDst ..)).trans (steady_flagEx ..)
theorem steady_predOut (srcs : Ex → State → Nat → List (List Val)) (fn : Ex → List (List RegWord) → Bool × Word) (x : Ex) :
    Steady m g s (predOut srcs fn x s) := by
  unfold predOut
  exact ((steady_popQueues ..).trans (steady_writePreds ..)).trans (steady_flagEx ..)

end

theorem walksOut_of {u v : State} (h : u.walking = v.walking) (g w f : Nat) (pc : DWord) : u.walksOut g w f pc = v.walksOut g w f pc := by
  unfold State.walksOut
  rw [h]

/-- At the start of an execution no walk of it is outstanding. -/
theorem start_unwalked (s : State) (p : Path) (q : Option Path) (op : Nat) (f : Fields) (h : Issuing s p q op f) :
    (s.start p f).walksOut p.g p.w p.f p.pc = false := (walksOut_of (start_walks s p f h.placed) _ _ _ _).trans h.walks

/-- An instruction whose effect is steady completes, once no walk of its accesses is outstanding. -/
theorem completes_of_steady (i : Instr) (op : Nat) (f : Fields) (body : Ex → State → Out) (p : Path) (q : Option Path) (s u : State)
    (js : List (Nat × DWord)) (hi : exec i s = runInstr op f body s) (h : Issuing s p q op f)
    (hb : body (s.exOf p op f) (s.start p f) = .ok u js) (hk : m = true → u.walksOut p.g p.w p.f p.pc = false) (hu : Steady m p.g (s.start p f) u) :
    Completes i s (s.exOf p op f) u js := by
  have hpp := start_placed s p f h.placed
  obtain ⟨l, hl⟩ := exists_active_start s p q op f h
  rw [Completes, hi]
  have hk' : u.walksOut p.g p.w p.f p.pc = false := by
    cases m with
    | true => exact hk rfl
    | false => exact (walksOut_of (hu.walking rfl) _ _ _ _).trans (start_unwalked s p q op f h)
  exact runInstr_completes op f body p q s u js h hb hk' (hu.late.trans ((start_late s p f h.placed).trans h.late)) (hu.placed hpp)
    ((hu.quiet hpp).trans (start_quiet s p q op f h)) ⟨l, hu.lanes hpp _ _ _ hl⟩

end Sys2Proof.Machine
end

