-- ==== Sys2Proof/Laws/SteadyWork.lean ====
section
/-! SUPPORT. What instructions leave keeps a path's fibre able to go on (Steady): one lemma for each operation that they are made of. -/

namespace Sys2Proof.Machine

variable {m : Bool}

theorem Steady.upd {g : Nat} {b s u : State} (h : Steady m g b s) (hl : u.late = s.late) (hw : m = false → u.walking = s.walking) (hg : u.groups = s.groups)
    (hs : u.saved = s.saved) : Steady m g b u := h.trans (steady_of_groups hl hw hg hs)

theorem st_modGroup_same {g : Nat} {b s : State} (h : Steady m g b s) (j : Nat) (k : Group → Group)
    (hb : ∀ x, (k x).barOps = x.barOps) (hw : ∀ x, (k x).warps = x.warps) : Steady m g b (s.modGroup j k) :=
  h.trans (steady_modGroup g s j k hb (fun x w f l ha => by rw [hw]; exact ha))

theorem st_modWarp_same {g : Nat} {b s : State} (h : Steady m g b s) (j w : Nat) (k : Warp → Warp)
    (hk : ∀ x, (k x).fibres = x.fibres) : Steady m g b (s.modWarp j w k) :=
  h.trans (steady_modWarp g s j w k (fun x f l ha => by unfold Warp.laneOf at *; rw [hk]; exact ha))

theorem st_modFibre_same {g : Nat} {b s : State} (h : Steady m g b s) (j w f : Nat) (k : Fibre → Fibre)
    (hk : ∀ x, (k x).lanes = x.lanes) : Steady m g b (s.modFibre j w f k) :=
  h.trans (steady_modFibre_same g s j w f k hk)

theorem st_modLane_same {g : Nat} {b s : State} (h : Steady m g b s) (j w f l : Nat) (k : Lane → Lane)
    (hk : ∀ x, (k x).st = x.st) : Steady m g b (s.modLane j w f l k) :=
  h.trans (steady_modLane g s j w f l k hk)

theorem st_foldl {g : Nat} {b : State} {α : Type} (k : State → α → State) (ls : List α) (s : State)
    (hk : ∀ s a, Steady m g b s → Steady m g b (k s a)) (h : Steady m g b s) : Steady m g b (ls.foldl k s) := by
  induction ls generalizing s with
  | nil => exact h
  | cons a r ih => exact ih _ (hk s a h)

theorem st_foldl2 {g : Nat} {b : State} {α β : Type} (k : β × State → α → β × State) (ls : List α) (c : β × State)
    (hk : ∀ c a, Steady m g b c.2 → Steady m g b (k c a).2) (h : Steady m g b c.2) : Steady m g b (ls.foldl k c).2 := by
  induction ls generalizing c with
  | nil => exact h
  | cons a r ih => exact ih _ (hk c a h)

theorem st_foldl1 {g : Nat} {b : State} {α β : Type} (k : State × β → α → State × β) (ls : List α) (c : State × β)
    (hk : ∀ c a, Steady m g b c.1 → Steady m g b (k c a).1) (h : Steady m g b c.1) : Steady m g b (ls.foldl k c).1 := by
  induction ls generalizing c with
  | nil => exact h
  | cons a r ih => exact ih _ (hk c a h)

theorem st_foldl22 {g : Nat} {b : State} {α β γ : Type} (k : β × γ × State → α → β × γ × State) (ls : List α) (c : β × γ × State)
    (hk : ∀ c a, Steady m g b c.2.2 → Steady m g b (k c a).2.2) (h : Steady m g b c.2.2) : Steady m g b (ls.foldl k c).2.2 := by
  induction ls generalizing c with
  | nil => exact h
  | cons a r ih => exact ih _ (hk c a h)

theorem st_foldlX {g : Nat} {b : State} {α : Type} (k : Xfer → α → Xfer) (ls : List α) (c : Xfer)
    (hk : ∀ c a, Steady m g b c.s → Steady m g b (k c a).s) (h : Steady m g b c.s) : Steady m g b (ls.foldl k c).s := by
  induction ls generalizing c with
  | nil => exact h
  | cons a r ih => exact ih _ (hk c a h)

theorem st_foldl2X {g : Nat} {b : State} {α β : Type} (k : β × Xfer → α → β × Xfer) (ls : List α) (c : β × Xfer)
    (hk : ∀ c a, Steady m g b c.2.s → Steady m g b (k c a).2.s) (h : Steady m g b c.2.s) : Steady m g b (ls.foldl k c).2.s := by
  induction ls generalizing c with
  | nil => exact h
  | cons a r ih => exact ih _ (hk c a h)

theorem st_optMap {g : Nat} {b : State} {α : Type} (o : Option α) (k : α → State) (s : State) (hk : ∀ a, Steady m g b (k a))
    (h : Steady m g b s) : Steady m g b ((o.map k).getD s) := by
  cases o with
  | none => exact h
  | some a => exact hk a

theorem st_getD {g : Nat} {b : State} (o : Option State) (d : State) (ho : ∀ t, o = some t → Steady m g b t) (hd : Steady m g b d) :
    Steady m g b (o.getD d) := by
  cases o with
  | none => exact hd
  | some t => exact ho t rfl


/-! Ops -/

theorem st_modCore {mm : Bool} {gg : Nat} {bb : State} (s : State) (a1 : Nat) (a2 : Core → Core) (h0 : Steady mm gg bb s) :
    Steady mm gg bb (State.modCore s a1 a2) := by
  unfold State.modCore
  repeat' (first | with_reducible assumption | dsimp only | intro _ | split | (apply Steady.upd; (case hl => (dsimp only; try exact rfl)); (case hw => (intro hm; first | exact rfl | cases hm)); (case hg => exact rfl); (case hs => exact rfl); first | with_reducible assumption | split))
theorem st_fresh {mm : Bool} {gg : Nat} {bb : State} (s : State) (h0 : Steady mm gg bb s) :
    Steady mm gg bb (State.fresh s).2 := by
  unfold State.fresh
  repeat' (first | with_reducible assumption | dsimp only | intro _ | split | (apply Steady.upd; (case hl => (dsimp only; try exact rfl)); (case hw => (intro hm; first | exact rfl | cases hm)); (case hg => exact rfl); (case hs => exact rfl); first | with_reducible assumption | split))
theorem st_newId {mm : Bool} {gg : Nat} {bb : State} (s : State) (h0 : Steady mm gg bb s) :
    Steady mm gg bb (State.newId s).2 := by
  unfold State.newId
  repeat' (first | with_reducible assumption | dsimp only | intro _ | split | (apply Steady.upd; (case hl => (dsimp only; try exact rfl)); (case hw => (intro hm; first | exact rfl | cases hm)); (case hg => exact rfl); (case hs => exact rfl); first | with_reducible assumption | split))
theorem st_noAllocLine {mm : Bool} {gg : Nat} {bb : State} (s : State) (a1 : Nat) (a2 : Nat) (h0 : Steady mm gg bb s) :
    Steady mm gg bb (State.noAllocLine s a1 a2) := by
  unfold State.noAllocLine
  repeat' (first | with_reducible assumption | dsimp only | intro _ | split | (apply Steady.upd; (case hl => (dsimp only; try exact rfl)); (case hw => (intro hm; first | exact rfl | cases hm)); (case hg => exact rfl); (case hs => exact rfl); first | with_reducible assumption | split))
theorem st_acquire {mm : Bool} {gg : Nat} {bb : State} (s : State) (a1 : Nat) (h0 : Steady mm gg bb s) :
    Steady mm gg bb (State.acquire s a1) := by
  unfold State.acquire
  repeat' (first | with_reducible assumption | with_reducible apply st_modCore | dsimp only | intro _ | split | (apply Steady.upd; (case hl => (dsimp only; try exact rfl)); (case hw => (intro hm; first | exact rfl | cases hm)); (case hg => exact rfl); (case hs => exact rfl); first | with_reducible assumption | with_reducible apply st_modCore | split))
theorem st_addFence {mm : Bool} {gg : Nat} {bb : State} (s : State) (a1 : Nat) (a2 : Nat) (a3 : Nat) (a4 : Bool) (a5 : Bool) (h0 : Steady mm gg bb s) :
    Steady mm gg bb (State.addFence s a1 a2 a3 a4 a5) := by
  unfold State.addFence
  repeat' (first | with_reducible assumption | with_reducible apply st_newId | (refine st_modFibre_same ?_ _ _ _ _ (fun _ => rfl)) | (refine st_modFibre_same ?_ _ _ _ _ (fun _ => by dsimp only; (repeat' split) <;> rfl)) | (refine st_modFibre_same ?_ _ _ _ _ (fun _ => ringPut_lanes ..)) | dsimp only | intro _ | (split <;> (try (rename_i hq; have hq1 := congrArg Prod.snd hq; dsimp only at hq1; subst hq1))) | (apply Steady.upd; (case hl => (dsimp only; try exact rfl)); (case hw => (intro hm; first | exact rfl | cases hm)); (case hg => exact rfl); (case hs => exact rfl); first | with_reducible assumption | with_reducible apply st_newId | (refine st_modFibre_same ?_ _ _ _ _ (fun _ => rfl)) | (refine st_modFibre_same ?_ _ _ _ _ (fun _ => by dsimp only; (repeat' split) <;> rfl)) | (refine st_modFibre_same ?_ _ _ _ _ (fun _ => ringPut_lanes ..)) | split))
theorem st_setReg {mm : Bool} {gg : Nat} {bb : State} (s : State) (a1 : Nat) (a2 : Nat) (a3 : Nat) (a4 : RegWord) (h0 : Steady mm gg bb s) :
    Steady mm gg bb (State.setReg s a1 a2 a3 a4) := by
  unfold State.setReg
  repeat' (first | with_reducible assumption | (refine st_modWarp_same ?_ _ _ _ (fun _ => rfl)) | dsimp only | intro _ | split | (apply Steady.upd; (case hl => (dsimp only; try exact rfl)); (case hw => (intro hm; first | exact rfl | cases hm)); (case hg => exact rfl); (case hs => exact rfl); first | with_reducible assumption | (refine st_modWarp_same ?_ _ _ _ (fun _ => rfl)) | split))
theorem st_setUreg {mm : Bool} {gg : Nat} {bb : State} (s : State) (a1 : Nat) (a2 : Nat) (a3 : Nat) (a4 : Nat) (a5 : RegWord) (h0 : Steady mm gg bb s) :
    Steady mm gg bb (State.setUreg s a1 a2 a3 a4 a5) := by
  unfold State.setUreg
  repeat' (first | with_reducible assumption | (refine st_modFibre_same ?_ _ _ _ _ (fun _ => rfl)) | (refine st_modFibre_same ?_ _ _ _ _ (fun _ => by dsimp only; (repeat' split) <;> rfl)) | (refine st_modFibre_same ?_ _ _ _ _ (fun _ => ringPut_lanes ..)) | dsimp only | intro _ | split | (apply Steady.upd; (case hl => (dsimp only; try exact rfl)); (case hw => (intro hm; first | exact rfl | cases hm)); (case hg => exact rfl); (case hs => exact rfl); first | with_reducible assumption | (refine st_modFibre_same ?_ _ _ _ _ (fun _ => rfl)) | (refine st_modFibre_same ?_ _ _ _ _ (fun _ => by dsimp only; (repeat' split) <;> rfl)) | (refine st_modFibre_same ?_ _ _ _ _ (fun _ => ringPut_lanes ..)) | split))
theorem st_dropDest {mm : Bool} {gg : Nat} {bb : State} (s : State) (a1 : Nat) (a2 : Nat) (a3 : Nat) (a4 : Option Nat) (a5 : Dest) (h0 : Steady mm gg bb s) :
    Steady mm gg bb (State.dropDest s a1 a2 a3 a4 a5) := by
  unfold State.dropDest
  repeat' (first | with_reducible assumption | dsimp only | intro _ | split | (apply Steady.upd; (case hl => (dsimp only; try exact rfl)); (case hw => (intro hm; first | exact rfl | cases hm)); (case hg => exact rfl); (case hs => exact rfl); first | with_reducible assumption | split))
theorem st_writeVec {mm : Bool} {gg : Nat} {bb : State} (s : State) (a1 : Nat) (a2 : Nat) (a3 : Nat) (a4 : Nat) (a5 : Nat) (a6 : RegWord) (h0 : Steady mm gg bb s) :
    Steady mm gg bb (State.writeVec s a1 a2 a3 a4 a5 a6) := by
  unfold State.writeVec
  repeat' (first | with_reducible assumption | with_reducible apply st_dropDest | with_reducible apply st_setReg | dsimp only | intro _ | split | (apply Steady.upd; (case hl => (dsimp only; try exact rfl)); (case hw => (intro hm; first | exact rfl | cases hm)); (case hg => exact rfl); (case hs => exact rfl); first | with_reducible assumption | with_reducible apply st_dropDest | with_reducible apply st_setReg | split))
theorem st_writeUni {mm : Bool} {gg : Nat} {bb : State} (s : State) (a1 : Nat) (a2 : Nat) (a3 : Nat) (a4 : Nat) (a5 : RegWord) (h0 : Steady mm gg bb s) :
    Steady mm gg bb (State.writeUni s a1 a2 a3 a4 a5) := by
  unfold State.writeUni
  repeat' (first | with_reducible assumption | with_reducible apply st_dropDest | with_reducible apply st_setUreg | dsimp only | intro _ | split | (apply Steady.upd; (case hl => (dsimp only; try exact rfl)); (case hw => (intro hm; first | exact rfl | cases hm)); (case hg => exact rfl); (case hs => exact rfl); first | with_reducible assumption | with_reducible apply st_dropDest | with_reducible apply st_setUreg | split))
theorem st_setFull {mm : Bool} {gg : Nat} {bb : State} (s : State) (a1 : Dest) (a2 : Bool) (h0 : Steady mm gg bb s) :
    Steady mm gg bb (State.setFull s a1 a2) := by
  unfold State.setFull
  repeat' (first | with_reducible assumption | with_reducible apply st_setUreg | with_reducible apply st_setReg | dsimp only | intro _ | split | (apply Steady.upd; (case hl => (dsimp only; try exact rfl)); (case hw => (intro hm; first | exact rfl | cases hm)); (case hg => exact rfl); (case hs => exact rfl); first | with_reducible assumption | with_reducible apply st_setUreg | with_reducible apply st_setReg | split))
theorem st_setFlags {mm : Bool} {gg : Nat} {bb : State} (s : State) (a1 : Nat) (a2 : Nat) (a3 : Nat) (a4 : Word) (h0 : Steady mm gg bb s) :
    Steady mm gg bb (State.setFlags s a1 a2 a3 a4) := by
  unfold State.setFlags
  repeat' (first | with_reducible assumption | (refine st_modFibre_same ?_ _ _ _ _ (fun _ => rfl)) | (refine st_modFibre_same ?_ _ _ _ _ (fun _ => by dsimp only; (repeat' split) <;> rfl)) | (refine st_modFibre_same ?_ _ _ _ _ (fun _ => ringPut_lanes ..)) | dsimp only | intro _ | split | (apply Steady.upd; (case hl => (dsimp only; try exact rfl)); (case hw => (intro hm; first | exact rfl | cases hm)); (case hg => exact rfl); (case hs => exact rfl); first | with_reducible assumption | (refine st_modFibre_same ?_ _ _ _ _ (fun _ => rfl)) | (refine st_modFibre_same ?_ _ _ _ _ (fun _ => by dsimp only; (repeat' split) <;> rfl)) | (refine st_modFibre_same ?_ _ _ _ _ (fun _ => ringPut_lanes ..)) | split))
theorem st_launchCart {mm : Bool} {gg : Nat} {bb : State} (s : State) (a1 : Nat) (a2 : Nat) (a3 : Cart) (h0 : Steady mm gg bb s) :
    Steady mm gg bb (State.launchCart s a1 a2 a3) := by
  unfold State.launchCart
  repeat' (first | with_reducible assumption | dsimp only | intro _ | split | (apply Steady.upd; (case hl => (dsimp only; try exact rfl)); (case hw => (intro hm; first | exact rfl | cases hm)); (case hg => exact rfl); (case hs => exact rfl); first | with_reducible assumption | split))
theorem st_addCart {mm : Bool} {gg : Nat} {bb : State} (s : State) (a1 : Nat) (a2 : Nat) (a3 : Nat) (a4 : Cart) (h0 : Steady mm gg bb s) :
    Steady mm gg bb (State.addCart s a1 a2 a3 a4).2 := by
  unfold State.addCart
  repeat' (first | with_reducible assumption | with_reducible apply st_launchCart | (refine st_modFibre_same ?_ _ _ _ _ (fun _ => rfl)) | (refine st_modFibre_same ?_ _ _ _ _ (fun _ => by dsimp only; (repeat' split) <;> rfl)) | (refine st_modFibre_same ?_ _ _ _ _ (fun _ => ringPut_lanes ..)) | dsimp only | intro _ | split | (apply Steady.upd; (case hl => (dsimp only; try exact rfl)); (case hw => (intro hm; first | exact rfl | cases hm)); (case hg => exact rfl); (case hs => exact rfl); first | with_reducible assumption | with_reducible apply st_launchCart | (refine st_modFibre_same ?_ _ _ _ _ (fun _ => rfl)) | (refine st_modFibre_same ?_ _ _ _ _ (fun _ => by dsimp only; (repeat' split) <;> rfl)) | (refine st_modFibre_same ?_ _ _ _ _ (fun _ => ringPut_lanes ..)) | split))
theorem st_makePoison {mm : Bool} {gg : Nat} {bb : State} (s : State) (a1 : Nat) (a2 : Nat) (a3 : Nat) (a4 : Byte) (a5 : DWord) (a6 : List (Nat × Val)) (h0 : Steady mm gg bb s) :
    Steady mm gg bb (State.makePoison s a1 a2 a3 a4 a5 a6).1 := by
  unfold State.makePoison
  repeat' (first | with_reducible assumption | with_reducible apply st_addCart | with_reducible apply st_foldl | with_reducible apply st_foldl2 | with_reducible apply st_foldl1 | with_reducible apply st_foldl22 | dsimp only | intro _ | (split <;> (try (rename_i hq; have hq1 := congrArg Prod.snd hq; dsimp only at hq1; subst hq1))) | (apply Steady.upd; (case hl => (dsimp only; try exact rfl)); (case hw => (intro hm; first | exact rfl | cases hm)); (case hg => exact rfl); (case hs => exact rfl); first | with_reducible assumption | with_reducible apply st_addCart | with_reducible apply st_foldl | with_reducible apply st_foldl2 | with_reducible apply st_foldl1 | with_reducible apply st_foldl22 | split))
theorem st_growCart {mm : Bool} {gg : Nat} {bb : State} (s : State) (a1 : Nat) (a2 : Nat) (a3 : Nat) (a4 : Nat) (a5 : Cart) (h0 : Steady mm gg bb s) :
    Steady mm gg bb (State.growCart s a1 a2 a3 a4 a5) := by
  unfold State.growCart
  repeat' (first | with_reducible assumption | (refine st_modFibre_same ?_ _ _ _ _ (fun _ => rfl)) | (refine st_modFibre_same ?_ _ _ _ _ (fun _ => by dsimp only; (repeat' split) <;> rfl)) | (refine st_modFibre_same ?_ _ _ _ _ (fun _ => ringPut_lanes ..)) | dsimp only | intro _ | split | (apply Steady.upd; (case hl => (dsimp only; try exact rfl)); (case hw => (intro hm; first | exact rfl | cases hm)); (case hg => exact rfl); (case hs => exact rfl); first | with_reducible assumption | (refine st_modFibre_same ?_ _ _ _ _ (fun _ => rfl)) | (refine st_modFibre_same ?_ _ _ _ _ (fun _ => by dsimp only; (repeat' split) <;> rfl)) | (refine st_modFibre_same ?_ _ _ _ _ (fun _ => ringPut_lanes ..)) | split))
theorem st_setTally {mm : Bool} {gg : Nat} {bb : State} (s : State) (a1 : Tally) (h0 : Steady mm gg bb s) :
    Steady mm gg bb (State.setTally s a1) := by
  unfold State.setTally
  repeat' (first | with_reducible assumption | dsimp only | intro _ | split | (apply Steady.upd; (case hl => (dsimp only; try exact rfl)); (case hw => (intro hm; first | exact rfl | cases hm)); (case hg => exact rfl); (case hs => exact rfl); first | with_reducible assumption | split))
theorem st_forgetTallies {mm : Bool} {gg : Nat} {bb : State} (s : State) (h0 : Steady mm gg bb s) :
    Steady mm gg bb (State.forgetTallies s) := by
  unfold State.forgetTallies
  repeat' (first | with_reducible assumption | dsimp only | intro _ | split | (apply Steady.upd; (case hl => (dsimp only; try exact rfl)); (case hw => (intro hm; first | exact rfl | cases hm)); (case hg => exact rfl); (case hs => exact rfl); first | with_reducible assumption | split))
theorem st_tallyGone {mm : Bool} {gg : Nat} {bb : State} (s : State) (a1 : Nat) (a2 : Nat) (a3 : Nat) (h0 : Steady mm gg bb s) :
    Steady mm gg bb (State.tallyGone s a1 a2 a3) := by
  unfold State.tallyGone
  repeat' (first | with_reducible assumption | dsimp only | intro _ | split | (apply Steady.upd; (case hl => (dsimp only; try exact rfl)); (case hw => (intro hm; first | exact rfl | cases hm)); (case hg => exact rfl); (case hs => exact rfl); first | with_reducible assumption | split))
theorem st_failGroup {mm : Bool} {gg : Nat} {bb : State} (s : State) (a1 : Nat) (h0 : Steady mm gg bb s) :
    Steady mm gg bb (State.failGroup s a1) := by
  unfold State.failGroup
  repeat' (first | with_reducible assumption | (refine st_modGroup_same ?_ _ _ (fun _ => rfl) (fun _ => rfl)) | (refine st_modGroup_same ?_ _ _ (fun _ => by dsimp only; (repeat' split) <;> rfl) (fun _ => by dsimp only; (repeat' split) <;> rfl)) | dsimp only | intro _ | split | (apply Steady.upd; (case hl => (dsimp only; try exact rfl)); (case hw => (intro hm; first | exact rfl | cases hm)); (case hg => exact rfl); (case hs => exact rfl); first | with_reducible assumption | (refine st_modGroup_same ?_ _ _ (fun _ => rfl) (fun _ => rfl)) | (refine st_modGroup_same ?_ _ _ (fun _ => by dsimp only; (repeat' split) <;> rfl) (fun _ => by dsimp only; (repeat' split) <;> rfl)) | split))
theorem st_countBad {mm : Bool} {gg : Nat} {bb : State} (s : State) (a1 : Nat) (a2 : Nat) (a3 : Nat) (a4 : Byte) (a5 : DWord) (a6 : List (Nat × Val)) (h0 : Steady mm gg bb s) :
    Steady mm gg bb (State.countBad s a1 a2 a3 a4 a5 a6) := by
  unfold State.countBad
  repeat' (first | with_reducible assumption | with_reducible apply st_failGroup | with_reducible apply st_addCart | (refine st_modFibre_same ?_ _ _ _ _ (fun _ => rfl)) | (refine st_modFibre_same ?_ _ _ _ _ (fun _ => by dsimp only; (repeat' split) <;> rfl)) | (refine st_modFibre_same ?_ _ _ _ _ (fun _ => ringPut_lanes ..)) | with_reducible apply st_foldl | with_reducible apply st_foldl2 | with_reducible apply st_foldl1 | with_reducible apply st_foldl22 | dsimp only | intro _ | split | (apply Steady.upd; (case hl => (dsimp only; try exact rfl)); (case hw => (intro hm; first | exact rfl | cases hm)); (case hg => exact rfl); (case hs => exact rfl); first | with_reducible assumption | with_reducible apply st_failGroup | with_reducible apply st_addCart | (refine st_modFibre_same ?_ _ _ _ _ (fun _ => rfl)) | (refine st_modFibre_same ?_ _ _ _ _ (fun _ => by dsimp only; (repeat' split) <;> rfl)) | (refine st_modFibre_same ?_ _ _ _ _ (fun _ => ringPut_lanes ..)) | with_reducible apply st_foldl | with_reducible apply st_foldl2 | with_reducible apply st_foldl1 | with_reducible apply st_foldl22 | split))
theorem st_countPart {mm : Bool} {gg : Nat} {bb : State} (s : State) (a1 : Nat) (a2 : Nat) (a3 : Nat) (a4 : Nat) (a5 : Byte) (a6 : DWord) (a7 : List (Nat × Val)) (h0 : Steady mm gg bb s) :
    Steady mm gg bb (State.countPart s a1 a2 a3 a4 a5 a6 a7) := by
  unfold State.countPart
  repeat' (first | with_reducible assumption | with_reducible apply st_countBad | with_reducible apply st_setTally | with_reducible apply st_growCart | with_reducible apply st_foldl | with_reducible apply st_foldl2 | with_reducible apply st_foldl1 | with_reducible apply st_foldl22 | dsimp only | intro _ | split | (apply Steady.upd; (case hl => (dsimp only; try exact rfl)); (case hw => (intro hm; first | exact rfl | cases hm)); (case hg => exact rfl); (case hs => exact rfl); first | with_reducible assumption | with_reducible apply st_countBad | with_reducible apply st_setTally | with_reducible apply st_growCart | with_reducible apply st_foldl | with_reducible apply st_foldl2 | with_reducible apply st_foldl1 | with_reducible apply st_foldl22 | split))
theorem st_modBar {mm : Bool} {gg : Nat} {bb : State} (s : State) (a1 : Nat) (a2 : Nat) (a3 : Barrier → Barrier) (h0 : Steady mm gg bb s) :
    Steady mm gg bb (State.modBar s a1 a2 a3) := by
  unfold State.modBar
  repeat' (first | with_reducible assumption | (refine st_modGroup_same ?_ _ _ (fun _ => rfl) (fun _ => rfl)) | (refine st_modGroup_same ?_ _ _ (fun _ => by dsimp only; (repeat' split) <;> rfl) (fun _ => by dsimp only; (repeat' split) <;> rfl)) | dsimp only | intro _ | split | (apply Steady.upd; (case hl => (dsimp only; try exact rfl)); (case hw => (intro hm; first | exact rfl | cases hm)); (case hg => exact rfl); (case hs => exact rfl); first | with_reducible assumption | (refine st_modGroup_same ?_ _ _ (fun _ => rfl) (fun _ => rfl)) | (refine st_modGroup_same ?_ _ _ (fun _ => by dsimp only; (repeat' split) <;> rfl) (fun _ => by dsimp only; (repeat' split) <;> rfl)) | split))
theorem st_writeDest {mm : Bool} {gg : Nat} {bb : State} (s : State) (a1 : Dest) (a2 : RegWord) (h0 : Steady mm gg bb s) :
    Steady mm gg bb (State.writeDest s a1 a2) := by
  unfold State.writeDest
  repeat' (first | with_reducible assumption | with_reducible apply st_setUreg | with_reducible apply st_setReg | dsimp only | intro _ | split | (apply Steady.upd; (case hl => (dsimp only; try exact rfl)); (case hw => (intro hm; first | exact rfl | cases hm)); (case hg => exact rfl); (case hs => exact rfl); first | with_reducible assumption | with_reducible apply st_setUreg | with_reducible apply st_setReg | split))
theorem st_countFrozen {mm : Bool} {gg : Nat} {bb : State} (s : State) (a1 : Nat) (a2 : Nat) (a3 : Nat) (a4 : Frozen) (h0 : Steady mm gg bb s) :
    Steady mm gg bb (State.countFrozen s a1 a2 a3 a4) := by
  unfold State.countFrozen
  repeat' (first | with_reducible assumption | dsimp only | intro _ | split | (apply Steady.upd; (case hl => (dsimp only; try exact rfl)); (case hw => (intro hm; first | exact rfl | cases hm)); (case hg => exact rfl); (case hs => exact rfl); first | with_reducible assumption | split))

/-! Mem -/

theorem st_setHome {mm : Bool} {gg : Nat} {bb : State} (s : State) (a1 : Nat) (a2 : MemWord) (h0 : Steady mm gg bb s) :
    Steady mm gg bb (State.setHome s a1 a2) := by
  unfold State.setHome
  repeat' (first | with_reducible assumption | dsimp only | intro _ | split | (apply Steady.upd; (case hl => (dsimp only; try exact rfl)); (case hw => (intro hm; first | exact rfl | cases hm)); (case hg => exact rfl); (case hs => exact rfl); first | with_reducible assumption | split))
theorem st_setL1 {mm : Bool} {gg : Nat} {bb : State} (s : State) (a1 : Nat) (a2 : Nat) (a3 : Option L1Word) (h0 : Steady mm gg bb s) :
    Steady mm gg bb (State.setL1 s a1 a2 a3) := by
  unfold State.setL1
  repeat' (first | with_reducible assumption | with_reducible apply st_modCore | dsimp only | intro _ | split | (apply Steady.upd; (case hl => (dsimp only; try exact rfl)); (case hw => (intro hm; first | exact rfl | cases hm)); (case hg => exact rfl); (case hs => exact rfl); first | with_reducible assumption | with_reducible apply st_modCore | split))
theorem st_heatUp {mm : Bool} {gg : Nat} {bb : State} (s : State) (a1 : Nat) (h0 : Steady mm gg bb s) :
    Steady mm gg bb (State.heatUp s a1) := by
  unfold State.heatUp
  repeat' (first | with_reducible assumption | dsimp only | intro _ | split | (apply Steady.upd; (case hl => (dsimp only; try exact rfl)); (case hw => (intro hm; first | exact rfl | cases hm)); (case hg => exact rfl); (case hs => exact rfl); first | with_reducible assumption | split))
theorem st_findErrors {mm : Bool} {gg : Nat} {bb : State} (s : State) (a1 : Nat) (h0 : Steady mm gg bb s) :
    Steady mm gg bb (State.findErrors s a1) := by
  unfold State.findErrors
  repeat' (first | with_reducible assumption | with_reducible apply st_foldl | with_reducible apply st_foldl2 | with_reducible apply st_foldl1 | with_reducible apply st_foldl22 | dsimp only | intro _ | split | (apply Steady.upd; (case hl => (dsimp only; try exact rfl)); (case hw => (intro hm; first | exact rfl | cases hm)); (case hg => exact rfl); (case hs => exact rfl); first | with_reducible assumption | with_reducible apply st_foldl | with_reducible apply st_foldl2 | with_reducible apply st_foldl1 | with_reducible apply st_foldl22 | split))
theorem st_mscRoom {mm : Bool} {gg : Nat} {bb : State} (s : State) (line : Nat) (h0 : Steady mm gg bb s) : Steady mm gg bb (State.mscRoom s line) := by
  unfold State.mscRoom
  extract_lets ls same
  clear_value ls same
  split
  · exact h0
  · split
    · exact h0
    · dsimp only
      refine Steady.upd ?_ (s := match sget s.fresh.2.msc (same.getD (Config.freeCount s.fresh.1 % same.length) 0) with
        | some (_, true) => s.fresh.2.findErrors (same.getD (Config.freeCount s.fresh.1 % same.length) 0)
        | _ => s.fresh.2) rfl (fun _ => rfl) rfl rfl
      · split
        · exact st_findErrors _ _ (st_fresh _ h0)
        · exact st_fresh _ h0
theorem st_mscTouch {mm : Bool} {gg : Nat} {bb : State} (s : State) (line : Nat) (ctx : Byte) (dirty : Bool) (h0 : Steady mm gg bb s) :
    Steady mm gg bb (State.mscTouch s line ctx dirty) := by
  unfold State.mscTouch
  split
  · split
    · exact h0.upd rfl (fun _ => rfl) rfl rfl
    · extract_lets u
      have hu : Steady mm gg bb u := by
        dsimp only [u]
        split
        · exact st_findErrors _ _ h0
        · exact h0
      exact hu.upd rfl (fun _ => rfl) rfl rfl
  · exact (st_mscRoom s line h0).upd rfl (fun _ => rfl) rfl rfl
theorem st_homeAccess {mm : Bool} {gg : Nat} {bb : State} (s : State) (a1 : Nat) (a2 : Byte) (a3 : Bool) (a4 : Bool) (h0 : Steady mm gg bb s) :
    Steady mm gg bb (State.homeAccess s a1 a2 a3 a4) := by
  unfold State.homeAccess
  repeat' (first | with_reducible assumption | with_reducible apply st_mscTouch | with_reducible apply st_heatUp | dsimp only | intro _ | split | (apply Steady.upd; (case hl => (dsimp only; try exact rfl)); (case hw => (intro hm; first | exact rfl | cases hm)); (case hg => exact rfl); (case hs => exact rfl); first | with_reducible assumption | with_reducible apply st_mscTouch | with_reducible apply st_heatUp | split))
theorem st_walkReads {mm : Bool} {gg : Nat} {bb : State} (s : State) (a1 : Byte) (a2 : Nat) (h0 : Steady mm gg bb s) :
    Steady mm gg bb (State.walkReads s a1 a2) := by
  unfold State.walkReads
  repeat' (first | with_reducible assumption | with_reducible apply st_homeAccess | with_reducible apply st_foldl | with_reducible apply st_foldl2 | with_reducible apply st_foldl1 | with_reducible apply st_foldl22 | dsimp only | intro _ | split | (apply Steady.upd; (case hl => (dsimp only; try exact rfl)); (case hw => (intro hm; first | exact rfl | cases hm)); (case hg => exact rfl); (case hs => exact rfl); first | with_reducible assumption | with_reducible apply st_homeAccess | with_reducible apply st_foldl | with_reducible apply st_foldl2 | with_reducible apply st_foldl1 | with_reducible apply st_foldl22 | split))
theorem st_tlbFill {mm : Bool} {gg : Nat} {bb : State} (s : State) (a1 : Nat) (a2 : Byte) (a3 : Nat) (a4 : Leaf) (h0 : Steady mm gg bb s) :
    Steady mm gg bb (State.tlbFill s a1 a2 a3 a4) := by
  unfold State.tlbFill
  repeat' (first | with_reducible assumption | with_reducible apply st_modCore | dsimp only | intro _ | split | (apply Steady.upd; (case hl => (dsimp only; try exact rfl)); (case hw => (intro hm; first | exact rfl | cases hm)); (case hg => exact rfl); (case hs => exact rfl); first | with_reducible assumption | with_reducible apply st_modCore | split))
theorem st_rekey {mm : Bool} {gg : Nat} {bb : State} (s : State) (a1 : Nat) (a2 : Nat) (h0 : Steady mm gg bb s) :
    Steady mm gg bb (State.rekey s a1 a2) := by
  unfold State.rekey
  repeat' (first | with_reducible assumption | with_reducible apply st_foldl | with_reducible apply st_foldl2 | with_reducible apply st_foldl1 | with_reducible apply st_foldl22 | with_reducible apply st_optMap | dsimp only | intro _ | split | (apply Steady.upd; (case hl => (dsimp only; try exact rfl)); (case hw => (intro hm; first | exact rfl | cases hm)); (case hg => exact rfl); (case hs => exact rfl); first | with_reducible assumption | with_reducible apply st_foldl | with_reducible apply st_foldl2 | with_reducible apply st_foldl1 | with_reducible apply st_foldl22 | with_reducible apply st_optMap | split))
theorem st_askWalk {gg : Nat} {bb : State} (s : State) (a1 : Nat) (a2 : Byte) (a3 : Nat) (a4 : Access) (h0 : Steady true gg bb s) :
    Steady true gg bb (State.askWalk s a1 a2 a3 a4) := by
  unfold State.askWalk
  repeat' (first | with_reducible assumption | dsimp only | intro _ | split | (apply Steady.upd; (case hl => (dsimp only; try exact rfl)); (case hw => (intro hm; first | exact rfl | cases hm)); (case hg => exact rfl); (case hs => exact rfl); first | with_reducible assumption | split))
theorem st_lookup {gg : Nat} {bb : State} (s : State) (a1 : Nat) (a2 : Byte) (a3 : Nat) (a4 : Access) (h0 : Steady true gg bb s) :
    Steady true gg bb (State.lookup s a1 a2 a3 a4).2.2 := by
  unfold State.lookup
  repeat' (first | with_reducible assumption | with_reducible apply st_askWalk | with_reducible apply st_tlbFill | with_reducible apply st_walkReads | with_reducible apply st_fresh | with_reducible apply st_optMap | dsimp only | intro _ | (split <;> (try (rename_i hq; have hq1 := congrArg Prod.snd hq; dsimp only at hq1; subst hq1))) | (apply Steady.upd; (case hl => (dsimp only; try exact rfl)); (case hw => (intro hm; first | exact rfl | cases hm)); (case hg => exact rfl); (case hs => exact rfl); first | with_reducible assumption | with_reducible apply st_askWalk | with_reducible apply st_tlbFill | with_reducible apply st_walkReads | with_reducible apply st_fresh | with_reducible apply st_optMap | split))
theorem st_translate {gg : Nat} {bb : State} (s : State) (core : Nat) (c : Byte) (va : Nat) (k : Access) (h0 : Steady true gg bb s) :
    Steady true gg bb (State.translate s core c va k).2 := by
  have h := st_lookup s core c va k h0
  unfold State.translate
  split
  · next hq => rw [hq] at h; dsimp only at h ⊢; split
               · exact h
               · exact st_rekey _ _ _ h
  · next hq => rw [hq] at h; exact h
theorem st_reach {gg : Nat} {bb : State} (s : State) (a1 : Nat) (a2 : Byte) (a3 : Nat) (a4 : Access) (h0 : Steady true gg bb s) :
    Steady true gg bb (State.reach s a1 a2 a3 a4).2 := by
  unfold State.reach
  repeat' (first | with_reducible assumption | with_reducible apply st_translate | dsimp only | intro _ | (split <;> (try (rename_i hq; have hq1 := congrArg Prod.snd hq; dsimp only at hq1; subst hq1))) | (apply Steady.upd; (case hl => (dsimp only; try exact rfl)); (case hw => (intro hm; first | exact rfl | cases hm)); (case hg => exact rfl); (case hs => exact rfl); first | with_reducible assumption | with_reducible apply st_translate | split))
theorem st_send {mm : Bool} {gg : Nat} {bb : State} (s : State) (a1 : MsgKind) (a2 : Nat) (a3 : Nat) (a4 : Word) (a5 : List (Nat × MemWord)) (a6 : optParam Byte 0) (a7 : optParam Nat 0) (a8 : optParam Bool false) (a9 : optParam (Option Nat) none) (a10 : optParam Bool false) (h0 : Steady mm gg bb s) :
    Steady mm gg bb (State.send s a1 a2 a3 a4 a5 a6 a7 a8 a9 a10) := by
  unfold State.send
  repeat' (first | with_reducible assumption | with_reducible apply st_newId | dsimp only | intro _ | (split <;> (try (rename_i hq; have hq1 := congrArg Prod.snd hq; dsimp only at hq1; subst hq1))) | (apply Steady.upd; (case hl => (dsimp only; try exact rfl)); (case hw => (intro hm; first | exact rfl | cases hm)); (case hg => exact rfl); (case hs => exact rfl); first | with_reducible assumption | with_reducible apply st_newId | split))
theorem st_chase {mm : Bool} {gg : Nat} {bb : State} (s : State) (a1 : Nat) (h0 : Steady mm gg bb s) :
    Steady mm gg bb (State.chase s a1) := by
  unfold State.chase
  repeat' (first | with_reducible assumption | with_reducible apply st_send | with_reducible apply st_foldl | with_reducible apply st_foldl2 | with_reducible apply st_foldl1 | with_reducible apply st_foldl22 | dsimp only | intro _ | split | (apply Steady.upd; (case hl => (dsimp only; try exact rfl)); (case hw => (intro hm; first | exact rfl | cases hm)); (case hg => exact rfl); (case hs => exact rfl); first | with_reducible assumption | with_reducible apply st_send | with_reducible apply st_foldl | with_reducible apply st_foldl2 | with_reducible apply st_foldl1 | with_reducible apply st_foldl22 | split))
theorem st_evict {mm : Bool} {gg : Nat} {bb : State} (s : State) (a1 : Nat) (a2 : Nat) (h0 : Steady mm gg bb s) :
    Steady mm gg bb (State.evict s a1 a2) := by
  unfold State.evict
  repeat' (first | with_reducible assumption | with_reducible apply st_chase | with_reducible apply st_send | with_reducible apply st_noAllocLine | with_reducible apply st_modCore | dsimp only | intro _ | split | (apply Steady.upd; (case hl => (dsimp only; try exact rfl)); (case hw => (intro hm; first | exact rfl | cases hm)); (case hg => exact rfl); (case hs => exact rfl); first | with_reducible assumption | with_reducible apply st_chase | with_reducible apply st_send | with_reducible apply st_noAllocLine | with_reducible apply st_modCore | split))
theorem st_makeRoom {mm : Bool} {gg : Nat} {bb : State} (s : State) (a1 : Nat) (a2 : Nat) (h0 : Steady mm gg bb s) :
    Steady mm gg bb (State.makeRoom s a1 a2) := by
  unfold State.makeRoom
  repeat' (first | with_reducible assumption | with_reducible apply st_evict | with_reducible apply st_fresh | dsimp only | intro _ | (split <;> (try (rename_i hq; have hq1 := congrArg Prod.snd hq; dsimp only at hq1; subst hq1))) | (apply Steady.upd; (case hl => (dsimp only; try exact rfl)); (case hw => (intro hm; first | exact rfl | cases hm)); (case hg => exact rfl); (case hs => exact rfl); first | with_reducible assumption | with_reducible apply st_evict | with_reducible apply st_fresh | split))
theorem st_ownLine {mm : Bool} {gg : Nat} {bb : State} (s : State) (a1 : Nat) (a2 : Byte) (a3 : Nat) (h0 : Steady mm gg bb s) :
    Steady mm gg bb (State.ownLine s a1 a2 a3) := by
  unfold State.ownLine
  repeat' (first | with_reducible assumption | with_reducible apply st_evict | dsimp only | intro _ | split | (apply Steady.upd; (case hl => (dsimp only; try exact rfl)); (case hw => (intro hm; first | exact rfl | cases hm)); (case hg => exact rfl); (case hs => exact rfl); first | with_reducible assumption | with_reducible apply st_evict | split))
theorem st_fixReads {mm : Bool} {gg : Nat} {bb : State} (s : State) (a1 : Nat) (a2 : Nat) (h0 : Steady mm gg bb s) :
    Steady mm gg bb (State.fixReads s a1 a2) := by
  unfold State.fixReads
  repeat' (first | with_reducible assumption | dsimp only | intro _ | split | (apply Steady.upd; (case hl => (dsimp only; try exact rfl)); (case hw => (intro hm; first | exact rfl | cases hm)); (case hg => exact rfl); (case hs => exact rfl); first | with_reducible assumption | split))
theorem st_storeWord {mm : Bool} {gg : Nat} {bb : State} (s : State) (a1 : Nat) (a2 : Byte) (a3 : Nat) (a4 : MemWord) (h0 : Steady mm gg bb s) :
    Steady mm gg bb (State.storeWord s a1 a2 a3 a4) := by
  unfold State.storeWord
  repeat' (first | with_reducible assumption | with_reducible apply st_fixReads | with_reducible apply st_ownLine | with_reducible apply st_makeRoom | with_reducible apply st_send | with_reducible apply st_setL1 | with_reducible apply st_noAllocLine | dsimp only | intro _ | split | (apply Steady.upd; (case hl => (dsimp only; try exact rfl)); (case hw => (intro hm; first | exact rfl | cases hm)); (case hg => exact rfl); (case hs => exact rfl); first | with_reducible assumption | with_reducible apply st_fixReads | with_reducible apply st_ownLine | with_reducible apply st_makeRoom | with_reducible apply st_send | with_reducible apply st_setL1 | with_reducible apply st_noAllocLine | split))
theorem st_startHold {mm : Bool} {gg : Nat} {bb : State} (s : State) (lines : List Nat) (why : HoldWhy) (cores : List Nat) (held : List Msg)
    (ask : Nat → Nat → State → State) (entered : Option Msg) (b : Nat) (wr : Option Nat)
    (ha : ∀ i c t, Steady mm gg bb t → Steady mm gg bb (ask i c t)) (h0 : Steady mm gg bb s) :
    Steady mm gg bb (State.startHold s lines why cores held ask entered b wr) := by
  unfold State.startHold
  exact st_foldl _ _ _ (fun s c h => ha _ _ _ h) (h0.upd rfl (fun _ => rfl) rfl rfl)
theorem st_setSp {mm : Bool} {gg : Nat} {bb : State} (s : State) (a1 : Nat) (a2 : Nat) (a3 : SpadWord) (h0 : Steady mm gg bb s) :
    Steady mm gg bb (State.setSp s a1 a2 a3) := by
  unfold State.setSp
  repeat' (first | with_reducible assumption | (refine st_modGroup_same ?_ _ _ (fun _ => rfl) (fun _ => rfl)) | (refine st_modGroup_same ?_ _ _ (fun _ => by dsimp only; (repeat' split) <;> rfl) (fun _ => by dsimp only; (repeat' split) <;> rfl)) | dsimp only | intro _ | split | (apply Steady.upd; (case hl => (dsimp only; try exact rfl)); (case hw => (intro hm; first | exact rfl | cases hm)); (case hg => exact rfl); (case hs => exact rfl); first | with_reducible assumption | (refine st_modGroup_same ?_ _ _ (fun _ => rfl) (fun _ => rfl)) | (refine st_modGroup_same ?_ _ _ (fun _ => by dsimp only; (repeat' split) <;> rfl) (fun _ => by dsimp only; (repeat' split) <;> rfl)) | split))

/-! Operands -/

theorem st_modAp {mm : Bool} {gg : Nat} {bb : State} (s : State) (a1 : Nat) (a2 : Nat) (a3 : Ap → Ap) (h0 : Steady mm gg bb s) :
    Steady mm gg bb (State.modAp s a1 a2 a3) := by
  unfold State.modAp
  repeat' (first | with_reducible assumption | (refine st_modGroup_same ?_ _ _ (fun _ => rfl) (fun _ => rfl)) | (refine st_modGroup_same ?_ _ _ (fun _ => by dsimp only; (repeat' split) <;> rfl) (fun _ => by dsimp only; (repeat' split) <;> rfl)) | dsimp only | intro _ | split | (apply Steady.upd; (case hl => (dsimp only; try exact rfl)); (case hw => (intro hm; first | exact rfl | cases hm)); (case hg => exact rfl); (case hs => exact rfl); first | with_reducible assumption | (refine st_modGroup_same ?_ _ _ (fun _ => rfl) (fun _ => rfl)) | (refine st_modGroup_same ?_ _ _ (fun _ => by dsimp only; (repeat' split) <;> rfl) (fun _ => by dsimp only; (repeat' split) <;> rfl)) | split))
theorem st_setPred {mm : Bool} {gg : Nat} {bb : State} (s : State) (a1 : Path) (a2 : Nat) (a3 : Nat) (a4 : Pred) (h0 : Steady mm gg bb s) :
    Steady mm gg bb (State.setPred s a1 a2 a3 a4) := by
  unfold State.setPred
  repeat' (first | with_reducible assumption | (refine st_modLane_same ?_ _ _ _ _ _ (fun _ => rfl)) | (refine st_modLane_same ?_ _ _ _ _ _ (fun _ => by dsimp only; (repeat' split) <;> rfl)) | dsimp only | intro _ | split | (apply Steady.upd; (case hl => (dsimp only; try exact rfl)); (case hw => (intro hm; first | exact rfl | cases hm)); (case hg => exact rfl); (case hs => exact rfl); first | with_reducible assumption | (refine st_modLane_same ?_ _ _ _ _ _ (fun _ => rfl)) | (refine st_modLane_same ?_ _ _ _ _ _ (fun _ => by dsimp only; (repeat' split) <;> rfl)) | split))
theorem st_putWord {mm : Bool} {gg : Nat} {bb : State} (s : State) (a1 : Ex) (a2 : BitVec 8) (a3 : Nat) (a4 : Nat) (a5 : RegWord) (h0 : Steady mm gg bb s) :
    Steady mm gg bb (State.putWord s a1 a2 a3 a4 a5) := by
  unfold State.putWord
  repeat' (first | with_reducible assumption | with_reducible apply st_modAp | with_reducible apply st_writeUni | with_reducible apply st_writeVec | dsimp only | intro _ | split | (apply Steady.upd; (case hl => (dsimp only; try exact rfl)); (case hw => (intro hm; first | exact rfl | cases hm)); (case hg => exact rfl); (case hs => exact rfl); first | with_reducible assumption | with_reducible apply st_modAp | with_reducible apply st_writeUni | with_reducible apply st_writeVec | split))
theorem st_putWords {mm : Bool} {gg : Nat} {bb : State} (s : State) (a1 : Ex) (a2 : BitVec 8) (a3 : Nat) (a4 : List RegWord) (h0 : Steady mm gg bb s) :
    Steady mm gg bb (State.putWords s a1 a2 a3 a4) := by
  unfold State.putWords
  repeat' (first | with_reducible assumption | with_reducible apply st_putWord | dsimp only | intro _ | split | (apply Steady.upd; (case hl => (dsimp only; try exact rfl)); (case hw => (intro hm; first | exact rfl | cases hm)); (case hg => exact rfl); (case hs => exact rfl); first | with_reducible assumption | with_reducible apply st_putWord | split))
theorem st_writeDst {mm : Bool} {gg : Nat} {bb : State} (s : State) (a1 : Ex) (a2 : BitVec 8) (a3 : List (Nat × List Val)) (a4 : List (Nat × Val)) (h0 : Steady mm gg bb s) :
    Steady mm gg bb (State.writeDst s a1 a2 a3 a4) := by
  unfold State.writeDst
  repeat' (first | with_reducible assumption | with_reducible apply st_putWords | with_reducible apply st_makePoison | with_reducible apply st_foldl | with_reducible apply st_foldl2 | with_reducible apply st_foldl1 | with_reducible apply st_foldl22 | dsimp only | intro _ | (split <;> (try (rename_i hq; have hq1 := congrArg Prod.snd hq; dsimp only at hq1; subst hq1))) | (apply Steady.upd; (case hl => (dsimp only; try exact rfl)); (case hw => (intro hm; first | exact rfl | cases hm)); (case hg => exact rfl); (case hs => exact rfl); first | with_reducible assumption | with_reducible apply st_putWords | with_reducible apply st_makePoison | with_reducible apply st_foldl | with_reducible apply st_foldl2 | with_reducible apply st_foldl1 | with_reducible apply st_foldl22 | split))
theorem st_writePreds {mm : Bool} {gg : Nat} {bb : State} (s : State) (a1 : Ex) (a2 : Nat) (a3 : List (Nat × (Bool ⊕ Val))) (a4 : List (Nat × Val)) (h0 : Steady mm gg bb s) :
    Steady mm gg bb (State.writePreds s a1 a2 a3 a4) := by
  unfold State.writePreds
  repeat' (first | with_reducible assumption | with_reducible apply st_setPred | with_reducible apply st_makePoison | with_reducible apply st_foldl | with_reducible apply st_foldl2 | with_reducible apply st_foldl1 | with_reducible apply st_foldl22 | dsimp only | intro _ | (split <;> (try (rename_i hq; have hq1 := congrArg Prod.snd hq; dsimp only at hq1; subst hq1))) | (apply Steady.upd; (case hl => (dsimp only; try exact rfl)); (case hw => (intro hm; first | exact rfl | cases hm)); (case hg => exact rfl); (case hs => exact rfl); first | with_reducible assumption | with_reducible apply st_setPred | with_reducible apply st_makePoison | with_reducible apply st_foldl | with_reducible apply st_foldl2 | with_reducible apply st_foldl1 | with_reducible apply st_foldl22 | split))
theorem st_freeWord {mm : Bool} {gg : Nat} {bb : State} (s : State) (h0 : Steady mm gg bb s) :
    Steady mm gg bb (State.freeWord s).2 := by
  unfold State.freeWord
  repeat' (first | with_reducible assumption | with_reducible apply st_fresh | dsimp only | intro _ | (split <;> (try (rename_i hq; have hq1 := congrArg Prod.snd hq; dsimp only at hq1; subst hq1))) | (apply Steady.upd; (case hl => (dsimp only; try exact rfl)); (case hw => (intro hm; first | exact rfl | cases hm)); (case hg => exact rfl); (case hs => exact rfl); first | with_reducible assumption | with_reducible apply st_fresh | split))
theorem st_produce {mm : Bool} {gg : Nat} {bb : State} (s : State) (a1 : Ex) (a2 : ProdKind) (a3 : Bool) (a4 : Bool) (a5 : List Item) (h0 : Steady mm gg bb s) :
    Steady mm gg bb (State.produce s a1 a2 a3 a4 a5) := by
  unfold State.produce
  repeat' (first | with_reducible assumption | with_reducible apply st_setFull | with_reducible apply st_dropDest | with_reducible apply st_newId | with_reducible apply st_foldl | with_reducible apply st_foldl2 | with_reducible apply st_foldl1 | with_reducible apply st_foldl22 | dsimp only | intro _ | (split <;> (try (rename_i hq; have hq1 := congrArg Prod.snd hq; dsimp only at hq1; subst hq1))) | (apply Steady.upd; (case hl => (dsimp only; try exact rfl)); (case hw => (intro hm; first | exact rfl | cases hm)); (case hg => exact rfl); (case hs => exact rfl); first | with_reducible assumption | with_reducible apply st_setFull | with_reducible apply st_dropDest | with_reducible apply st_newId | with_reducible apply st_foldl | with_reducible apply st_foldl2 | with_reducible apply st_foldl1 | with_reducible apply st_foldl22 | split))

/-! Region -/

theorem st_disown {mm : Bool} {gg : Nat} {bb : State} (s : State) (a1 : Nat) (h0 : Steady mm gg bb s) :
    Steady mm gg bb (State.disown s a1) := by
  unfold State.disown
  repeat' (first | with_reducible assumption | with_reducible apply st_chase | with_reducible apply st_setL1 | dsimp only | intro _ | split | (apply Steady.upd; (case hl => (dsimp only; try exact rfl)); (case hw => (intro hm; first | exact rfl | cases hm)); (case hg => exact rfl); (case hs => exact rfl); first | with_reducible assumption | with_reducible apply st_chase | with_reducible apply st_setL1 | split))
theorem st_lendWord {mm : Bool} {gg : Nat} {bb : State} (s : State) (a1 : Nat) (a2 : Nat) (a3 : MemWord) (h0 : Steady mm gg bb s) :
    Steady mm gg bb (State.lendWord s a1 a2 a3) := by
  unfold State.lendWord
  repeat' (first | with_reducible assumption | dsimp only | intro _ | split | (apply Steady.upd; (case hl => (dsimp only; try exact rfl)); (case hw => (intro hm; first | exact rfl | cases hm)); (case hg => exact rfl); (case hs => exact rfl); first | with_reducible assumption | split))
theorem st_overtake {mm : Bool} {gg : Nat} {bb : State} (s : State) (a1 : Nat) (h0 : Steady mm gg bb s) :
    Steady mm gg bb (State.overtake s a1) := by
  unfold State.overtake
  repeat' (first | with_reducible assumption | with_reducible apply st_lendWord | with_reducible apply st_foldl | with_reducible apply st_foldl2 | with_reducible apply st_foldl1 | with_reducible apply st_foldl22 | dsimp only | intro _ | split | (apply Steady.upd; (case hl => (dsimp only; try exact rfl)); (case hw => (intro hm; first | exact rfl | cases hm)); (case hg => exact rfl); (case hs => exact rfl); first | with_reducible assumption | with_reducible apply st_lendWord | with_reducible apply st_foldl | with_reducible apply st_foldl2 | with_reducible apply st_foldl1 | with_reducible apply st_foldl22 | split))
theorem st_takeOver {mm : Bool} {gg : Nat} {bb : State} (s : State) (b : Writer) (wa : Nat) (h0 : Steady mm gg bb s) : Steady mm gg bb (State.takeOver s b wa) := by
  unfold State.takeOver
  split
  · exact h0
  · split
    · exact st_disown _ _ h0
    · exact st_startHold _ _ _ _ _ _ _ _ _ (fun _ _ _ h => h.upd rfl (fun _ => rfl) rfl rfl) (h0.upd rfl (fun _ => rfl) rfl rfl)
theorem st_engineWrite {mm : Bool} {gg : Nat} {bb : State} (s : State) (a1 : Writer) (a2 : Nat) (a3 : MemWord) (a4 : Nat) (h0 : Steady mm gg bb s) :
    Steady mm gg bb (State.engineWrite s a1 a2 a3 a4) := by
  unfold State.engineWrite
  repeat' (first | with_reducible assumption | with_reducible apply st_takeOver | with_reducible apply st_overtake | with_reducible apply st_homeAccess | with_reducible apply st_setHome | dsimp only | intro _ | split | (apply Steady.upd; (case hl => (dsimp only; try exact rfl)); (case hw => (intro hm; first | exact rfl | cases hm)); (case hg => exact rfl); (case hs => exact rfl); first | with_reducible assumption | with_reducible apply st_takeOver | with_reducible apply st_overtake | with_reducible apply st_homeAccess | with_reducible apply st_setHome | split))
theorem st_coreWrite {mm : Bool} {gg : Nat} {bb : State} (s : State) (a1 : Nat) (a2 : Writer) (a3 : Nat) (a4 : MemWord) (a5 : Nat) (h0 : Steady mm gg bb s) :
    Steady mm gg bb (State.coreWrite s a1 a2 a3 a4 a5) := by
  unfold State.coreWrite
  repeat' (first | with_reducible assumption | with_reducible apply st_engineWrite | with_reducible apply st_fixReads | with_reducible apply st_setL1 | with_reducible apply st_noAllocLine | dsimp only | intro _ | split | (apply Steady.upd; (case hl => (dsimp only; try exact rfl)); (case hw => (intro hm; first | exact rfl | cases hm)); (case hg => exact rfl); (case hs => exact rfl); first | with_reducible assumption | with_reducible apply st_engineWrite | with_reducible apply st_fixReads | with_reducible apply st_setL1 | with_reducible apply st_noAllocLine | split))
theorem st_putBytes {mm : Bool} {gg : Nat} {bb : State} (s : State) (ctx : Byte) (a : Nat) (bs : List Byte) (h0 : Steady mm gg bb s) :
    Steady mm gg bb (State.putBytes s ctx a bs) := by
  induction s, a, bs using State.putBytes.induct (ctx := ctx) with
  | case1 => exact h0
  | case2 s a b0 b1 b2 b3 r ih => unfold State.putBytes; exact ih (st_engineWrite _ _ _ _ _ h0)
  | case3 s a bs h1 h2 =>
    unfold State.putBytes
    split
    · exact absurd rfl h1
    · exact absurd rfl (h2 _ _ _ _ _)
    · exact st_engineWrite _ _ _ _ _ h0
theorem st_addPend {mm : Bool} {gg : Nat} {bb : State} (s : State) (a1 : By) (a2 : Nat) (a3 : Byte) (a4 : Nat) (a5 : Nat) (a6 : Rmw) (a7 : Option Nat) (a8 : Bool) (h0 : Steady mm gg bb s) :
    Steady mm gg bb (State.addPend s a1 a2 a3 a4 a5 a6 a7 a8) := by
  unfold State.addPend
  repeat' (first | with_reducible assumption | with_reducible apply st_fixReads | with_reducible apply st_ownLine | with_reducible apply st_send | with_reducible apply st_newId | with_reducible apply st_foldl | with_reducible apply st_foldl2 | with_reducible apply st_foldl1 | with_reducible apply st_foldl22 | dsimp only | intro _ | (split <;> (try (rename_i hq; have hq1 := congrArg Prod.snd hq; dsimp only at hq1; subst hq1))) | (apply Steady.upd; (case hl => (dsimp only; try exact rfl)); (case hw => (intro hm; first | exact rfl | cases hm)); (case hg => exact rfl); (case hs => exact rfl); first | with_reducible assumption | with_reducible apply st_fixReads | with_reducible apply st_ownLine | with_reducible apply st_send | with_reducible apply st_newId | with_reducible apply st_foldl | with_reducible apply st_foldl2 | with_reducible apply st_foldl1 | with_reducible apply st_foldl22 | split))
theorem st_flatStore {mm : Bool} {gg : Nat} {bb : State} (s : State) (a1 : By) (a2 : Nat) (a3 : Byte) (a4 : Nat) (a5 : Bool) (a6 : Nat) (a7 : DWord) (h0 : Steady mm gg bb s) :
    Steady mm gg bb (State.flatStore s a1 a2 a3 a4 a5 a6 a7) := by
  unfold State.flatStore
  repeat' (first | with_reducible assumption | with_reducible apply st_addPend | with_reducible apply st_storeWord | with_reducible apply st_ownLine | with_reducible apply st_countPart | with_reducible apply st_foldl | with_reducible apply st_foldl2 | with_reducible apply st_foldl1 | with_reducible apply st_foldl22 | dsimp only | intro _ | split | (apply Steady.upd; (case hl => (dsimp only; try exact rfl)); (case hw => (intro hm; first | exact rfl | cases hm)); (case hg => exact rfl); (case hs => exact rfl); first | with_reducible assumption | with_reducible apply st_addPend | with_reducible apply st_storeWord | with_reducible apply st_ownLine | with_reducible apply st_countPart | with_reducible apply st_foldl | with_reducible apply st_foldl2 | with_reducible apply st_foldl1 | with_reducible apply st_foldl22 | split))
theorem st_spFound {mm : Bool} {gg : Nat} {bb : State} (s : State) (a1 : Nat) (a2 : Nat) (h0 : Steady mm gg bb s) :
    Steady mm gg bb (State.spFound s a1 a2) := by
  unfold State.spFound
  repeat' (first | with_reducible assumption | with_reducible apply st_setSp | with_reducible apply st_fresh | dsimp only | intro _ | (split <;> (try (rename_i hq; have hq1 := congrArg Prod.snd hq; dsimp only at hq1; subst hq1))) | (apply Steady.upd; (case hl => (dsimp only; try exact rfl)); (case hw => (intro hm; first | exact rfl | cases hm)); (case hg => exact rfl); (case hs => exact rfl); first | with_reducible assumption | with_reducible apply st_setSp | with_reducible apply st_fresh | split))
theorem st_spFoundRun {mm : Bool} {gg : Nat} {bb : State} (s : State) (a1 : Nat) (a2 : Nat) (a3 : Nat) (h0 : Steady mm gg bb s) :
    Steady mm gg bb (State.spFoundRun s a1 a2 a3) := by
  unfold State.spFoundRun
  repeat' (first | with_reducible assumption | with_reducible apply st_spFound | with_reducible apply st_foldl | with_reducible apply st_foldl2 | with_reducible apply st_foldl1 | with_reducible apply st_foldl22 | dsimp only | intro _ | split | (apply Steady.upd; (case hl => (dsimp only; try exact rfl)); (case hw => (intro hm; first | exact rfl | cases hm)); (case hg => exact rfl); (case hs => exact rfl); first | with_reducible assumption | with_reducible apply st_spFound | with_reducible apply st_foldl | with_reducible apply st_foldl2 | with_reducible apply st_foldl1 | with_reducible apply st_foldl22 | split))
theorem st_spadStore {mm : Bool} {gg : Nat} {bb : State} (s : State) (a1 : By) (a2 : Nat) (a3 : Nat) (a4 : Nat) (a5 : DWord) (h0 : Steady mm gg bb s) :
    Steady mm gg bb (State.spadStore s a1 a2 a3 a4 a5) := by
  unfold State.spadStore
  repeat' (first | with_reducible assumption | with_reducible apply st_spFound | with_reducible apply st_setSp | with_reducible apply st_countPart | with_reducible apply st_foldl | with_reducible apply st_foldl2 | with_reducible apply st_foldl1 | with_reducible apply st_foldl22 | dsimp only | intro _ | split | (apply Steady.upd; (case hl => (dsimp only; try exact rfl)); (case hw => (intro hm; first | exact rfl | cases hm)); (case hg => exact rfl); (case hs => exact rfl); first | with_reducible assumption | with_reducible apply st_spFound | with_reducible apply st_setSp | with_reducible apply st_countPart | with_reducible apply st_foldl | with_reducible apply st_foldl2 | with_reducible apply st_foldl1 | with_reducible apply st_foldl22 | split))
theorem st_tileStore {mm : Bool} {gg : Nat} {bb : State} (s : State) (a1 : Nat) (a2 : Writer) (a3 : List Nat) (a4 : List Nat) (a5 : List Word) (a6 : Nat) (a7 : List Word) (h0 : Steady mm gg bb s) :
    Steady mm gg bb (State.tileStore s a1 a2 a3 a4 a5 a6 a7) := by
  unfold State.tileStore
  repeat' (first | with_reducible assumption | with_reducible apply st_coreWrite | with_reducible apply st_foldl | with_reducible apply st_foldl2 | with_reducible apply st_foldl1 | with_reducible apply st_foldl22 | dsimp only | intro _ | split | (apply Steady.upd; (case hl => (dsimp only; try exact rfl)); (case hw => (intro hm; first | exact rfl | cases hm)); (case hg => exact rfl); (case hs => exact rfl); first | with_reducible assumption | with_reducible apply st_coreWrite | with_reducible apply st_foldl | with_reducible apply st_foldl2 | with_reducible apply st_foldl1 | with_reducible apply st_foldl22 | split))
theorem st_accStore {mm : Bool} {gg : Nat} {bb : State} (s : State) (a1 : Nat) (a2 : Writer) (a3 : List Nat) (a4 : List Nat) (a5 : List Word) (h0 : Steady mm gg bb s) :
    Steady mm gg bb (State.accStore s a1 a2 a3 a4 a5) := by
  unfold State.accStore
  repeat' (first | with_reducible assumption | with_reducible apply st_coreWrite | with_reducible apply st_foldl | with_reducible apply st_foldl2 | with_reducible apply st_foldl1 | with_reducible apply st_foldl22 | dsimp only | intro _ | split | (apply Steady.upd; (case hl => (dsimp only; try exact rfl)); (case hw => (intro hm; first | exact rfl | cases hm)); (case hg => exact rfl); (case hs => exact rfl); first | with_reducible assumption | with_reducible apply st_coreWrite | with_reducible apply st_foldl | with_reducible apply st_foldl2 | with_reducible apply st_foldl1 | with_reducible apply st_foldl22 | split))
theorem st_settleFences {mm : Bool} {gg : Nat} {bb : State} (s : State) (a1 : Nat) (a2 : Nat) (a3 : Nat) (h0 : Steady mm gg bb s) :
    Steady mm gg bb (State.settleFences s a1 a2 a3) := by
  unfold State.settleFences
  repeat' (first | with_reducible assumption | with_reducible apply st_acquire | (refine st_modFibre_same ?_ _ _ _ _ (fun _ => rfl)) | (refine st_modFibre_same ?_ _ _ _ _ (fun _ => by dsimp only; (repeat' split) <;> rfl)) | (refine st_modFibre_same ?_ _ _ _ _ (fun _ => ringPut_lanes ..)) | with_reducible apply st_foldl | with_reducible apply st_foldl2 | with_reducible apply st_foldl1 | with_reducible apply st_foldl22 | dsimp only | intro _ | split | (apply Steady.upd; (case hl => (dsimp only; try exact rfl)); (case hw => (intro hm; first | exact rfl | cases hm)); (case hg => exact rfl); (case hs => exact rfl); first | with_reducible assumption | with_reducible apply st_acquire | (refine st_modFibre_same ?_ _ _ _ _ (fun _ => rfl)) | (refine st_modFibre_same ?_ _ _ _ _ (fun _ => by dsimp only; (repeat' split) <;> rfl)) | (refine st_modFibre_same ?_ _ _ _ _ (fun _ => ringPut_lanes ..)) | with_reducible apply st_foldl | with_reducible apply st_foldl2 | with_reducible apply st_foldl1 | with_reducible apply st_foldl22 | split))
theorem st_releaseSts {mm : Bool} {gg : Nat} {bb : State} (s : State) (a1 : By) (a2 : Nat) (a3 : Nat) (a4 : Nat) (a5 : DWord) (h0 : Steady mm gg bb s) :
    Steady mm gg bb (State.releaseSts s a1 a2 a3 a4 a5) := by
  unfold State.releaseSts
  repeat' (first | with_reducible assumption | with_reducible apply st_spadStore | with_reducible apply st_newId | with_reducible apply st_modCore | with_reducible apply st_foldl | with_reducible apply st_foldl2 | with_reducible apply st_foldl1 | with_reducible apply st_foldl22 | dsimp only | intro _ | split | (apply Steady.upd; (case hl => (dsimp only; try exact rfl)); (case hw => (intro hm; first | exact rfl | cases hm)); (case hg => exact rfl); (case hs => exact rfl); first | with_reducible assumption | with_reducible apply st_spadStore | with_reducible apply st_newId | with_reducible apply st_modCore | with_reducible apply st_foldl | with_reducible apply st_foldl2 | with_reducible apply st_foldl1 | with_reducible apply st_foldl22 | split))
theorem st_releaseEntry {mm : Bool} {gg : Nat} {bb : State} (s : State) (a1 : Nat) (a2 : Nat) (a3 : Nat) (a4 : QEntry) (h0 : Steady mm gg bb s) :
    Steady mm gg bb (State.releaseEntry s a1 a2 a3 a4).1 := by
  unfold State.releaseEntry
  repeat' (first | with_reducible assumption | with_reducible apply st_releaseSts | with_reducible apply st_accStore | with_reducible apply st_tileStore | with_reducible apply st_flatStore | with_reducible apply st_foldl | with_reducible apply st_foldl2 | with_reducible apply st_foldl1 | with_reducible apply st_foldl22 | dsimp only | intro _ | split | (apply Steady.upd; (case hl => (dsimp only; try exact rfl)); (case hw => (intro hm; first | exact rfl | cases hm)); (case hg => exact rfl); (case hs => exact rfl); first | with_reducible assumption | with_reducible apply st_releaseSts | with_reducible apply st_accStore | with_reducible apply st_tileStore | with_reducible apply st_flatStore | with_reducible apply st_foldl | with_reducible apply st_foldl2 | with_reducible apply st_foldl1 | with_reducible apply st_foldl22 | split))
theorem st_dropRing {mm : Bool} {gg : Nat} {bb : State} (s : State) (a1 : Nat) (a2 : Nat) (a3 : Nat) (h0 : Steady mm gg bb s) :
    Steady mm gg bb (State.dropRing s a1 a2 a3) := by
  unfold State.dropRing
  repeat' (first | with_reducible assumption | with_reducible apply st_tallyGone | with_reducible apply st_launchCart | (refine st_modFibre_same ?_ _ _ _ _ (fun _ => rfl)) | (refine st_modFibre_same ?_ _ _ _ _ (fun _ => by dsimp only; (repeat' split) <;> rfl)) | (refine st_modFibre_same ?_ _ _ _ _ (fun _ => ringPut_lanes ..)) | with_reducible apply st_foldl | with_reducible apply st_foldl2 | with_reducible apply st_foldl1 | with_reducible apply st_foldl22 | dsimp only | intro _ | split | (apply Steady.upd; (case hl => (dsimp only; try exact rfl)); (case hw => (intro hm; first | exact rfl | cases hm)); (case hg => exact rfl); (case hs => exact rfl); first | with_reducible assumption | with_reducible apply st_tallyGone | with_reducible apply st_launchCart | (refine st_modFibre_same ?_ _ _ _ _ (fun _ => rfl)) | (refine st_modFibre_same ?_ _ _ _ _ (fun _ => by dsimp only; (repeat' split) <;> rfl)) | (refine st_modFibre_same ?_ _ _ _ _ (fun _ => ringPut_lanes ..)) | with_reducible apply st_foldl | with_reducible apply st_foldl2 | with_reducible apply st_foldl1 | with_reducible apply st_foldl22 | split))
theorem st_clearRing {mm : Bool} {gg : Nat} {bb : State} (s : State) (a1 : Nat) (a2 : Nat) (a3 : Nat) (h0 : Steady mm gg bb s) :
    Steady mm gg bb (State.clearRing s a1 a2 a3) := by
  unfold State.clearRing
  repeat' (first | with_reducible assumption | with_reducible apply st_dropRing | (refine st_modFibre_same ?_ _ _ _ _ (fun _ => rfl)) | (refine st_modFibre_same ?_ _ _ _ _ (fun _ => by dsimp only; (repeat' split) <;> rfl)) | (refine st_modFibre_same ?_ _ _ _ _ (fun _ => ringPut_lanes ..)) | dsimp only | intro _ | split | (apply Steady.upd; (case hl => (dsimp only; try exact rfl)); (case hw => (intro hm; first | exact rfl | cases hm)); (case hg => exact rfl); (case hs => exact rfl); first | with_reducible assumption | with_reducible apply st_dropRing | (refine st_modFibre_same ?_ _ _ _ _ (fun _ => rfl)) | (refine st_modFibre_same ?_ _ _ _ _ (fun _ => by dsimp only; (repeat' split) <;> rfl)) | (refine st_modFibre_same ?_ _ _ _ _ (fun _ => ringPut_lanes ..)) | split))
theorem st_failIfUnresolved {mm : Bool} {gg : Nat} {bb : State} (s : State) (a1 : Nat) (a2 : Nat) (a3 : Nat) (h0 : Steady mm gg bb s) :
    Steady mm gg bb (State.failIfUnresolved s a1 a2 a3) := by
  unfold State.failIfUnresolved
  repeat' (first | with_reducible assumption | with_reducible apply st_failGroup | dsimp only | intro _ | split | (apply Steady.upd; (case hl => (dsimp only; try exact rfl)); (case hw => (intro hm; first | exact rfl | cases hm)); (case hg => exact rfl); (case hs => exact rfl); first | with_reducible assumption | with_reducible apply st_failGroup | split))
theorem st_releaseList {mm : Bool} {gg : Nat} {bb : State} (s : State) (g w f : Nat) (q : List QEntry) (h0 : Steady mm gg bb s) :
    Steady mm gg bb (State.releaseList s g w f q) := by
  induction q generalizing s with
  | nil => exact h0
  | cons e r ih =>
    unfold State.releaseList
    dsimp only
    split
    · exact h0
    · exact ih _ (st_modFibre_same (st_countPart _ _ _ _ _ _ _ _ (st_releaseEntry _ _ _ _ _ h0)) _ _ _ _ (fun _ => rfl))
theorem st_releaseMore {mm : Bool} {gg : Nat} {bb : State} (s : State) (g w f : Nat) (pc : DWord) (h0 : Steady mm gg bb s) :
    Steady mm gg bb (State.releaseMore s g w f pc) := by
  unfold State.releaseMore
  exact st_releaseList _ _ _ _ _ (st_modFibre_same h0 _ _ _ _ (fun _ => rfl))

/-! Issue -/

theorem st_wake {mm : Bool} {gg : Nat} {bb : State} (s : State) (h0 : Steady mm gg bb s) :
    Steady mm gg bb (State.wake s) := by
  unfold State.wake
  repeat' (first | with_reducible assumption | dsimp only | intro _ | split | (apply Steady.upd; (case hl => (dsimp only; try exact rfl)); (case hw => (intro hm; first | exact rfl | cases hm)); (case hg => exact rfl); (case hs => exact rfl); first | with_reducible assumption | split))
theorem st_popQueues {mm : Bool} {gg : Nat} {bb : State} (s : State) (x : Ex) (codes : List (BitVec 8)) (h0 : Steady mm gg bb s) :
    Steady mm gg bb (State.popQueues s x codes) := h0.trans (steady_popQueues gg s x codes)
theorem st_flagEx {mm : Bool} {gg : Nat} {bb : State} (s : State) (a1 : Ex) (a2 : Word) (h0 : Steady mm gg bb s) :
    Steady mm gg bb (State.flagEx s a1 a2) := by
  unfold State.flagEx
  repeat' (first | with_reducible assumption | with_reducible apply st_setFlags | dsimp only | intro _ | split | (apply Steady.upd; (case hl => (dsimp only; try exact rfl)); (case hw => (intro hm; first | exact rfl | cases hm)); (case hg => exact rfl); (case hs => exact rfl); first | with_reducible assumption | with_reducible apply st_setFlags | split))
theorem st_regOut {mm : Bool} {gg : Nat} {bb : State} (a0 : Ex → State → Nat → List (List Val)) (a1 : Ex → List (List RegWord) → List RegWord × Word) (a2 : Nat) (a3 : Ex) (s : State) (h4 : Steady mm gg bb s) :
    Steady mm gg bb (regOut a0 a1 a2 a3 s) := by
  unfold regOut
  repeat' (first | with_reducible assumption | with_reducible apply st_flagEx | with_reducible apply st_popQueues | with_reducible apply st_writeDst | with_reducible apply st_foldl | with_reducible apply st_foldl2 | with_reducible apply st_foldl1 | with_reducible apply st_foldl22 | dsimp only | intro _ | split | (apply Steady.upd; (case hl => (dsimp only; try exact rfl)); (case hw => (intro hm; first | exact rfl | cases hm)); (case hg => exact rfl); (case hs => exact rfl); first | with_reducible assumption | with_reducible apply st_flagEx | with_reducible apply st_popQueues | with_reducible apply st_writeDst | with_reducible apply st_foldl | with_reducible apply st_foldl2 | with_reducible apply st_foldl1 | with_reducible apply st_foldl22 | split))
theorem st_predOut {mm : Bool} {gg : Nat} {bb : State} (a0 : Ex → State → Nat → List (List Val)) (a1 : Ex → List (List RegWord) → Bool × Word) (a2 : Ex) (s : State) (h3 : Steady mm gg bb s) :
    Steady mm gg bb (predOut a0 a1 a2 s) := by
  unfold predOut
  repeat' (first | with_reducible assumption | with_reducible apply st_flagEx | with_reducible apply st_popQueues | with_reducible apply st_writePreds | with_reducible apply st_foldl | with_reducible apply st_foldl2 | with_reducible apply st_foldl1 | with_reducible apply st_foldl22 | dsimp only | intro _ | split | (apply Steady.upd; (case hl => (dsimp only; try exact rfl)); (case hw => (intro hm; first | exact rfl | cases hm)); (case hg => exact rfl); (case hs => exact rfl); first | with_reducible assumption | with_reducible apply st_flagEx | with_reducible apply st_popQueues | with_reducible apply st_writePreds | with_reducible apply st_foldl | with_reducible apply st_foldl2 | with_reducible apply st_foldl1 | with_reducible apply st_foldl22 | split))

/-! Access -/

theorem st_flatLoc {gg : Nat} {bb : State} (s : State) (a1 : Ex) (a2 : Nat) (a3 : Nat) (a4 : Access) (a5 : Bool) (h0 : Steady true gg bb s) :
    Steady true gg bb (State.flatLoc s a1 a2 a3 a4 a5).2 := by
  unfold State.flatLoc
  repeat' (first | with_reducible assumption | with_reducible apply st_reach | with_reducible apply st_translate | dsimp only | intro _ | (split <;> (try (rename_i hq; have hq1 := congrArg Prod.snd hq; dsimp only at hq1; subst hq1))) | (apply Steady.upd; (case hl => (dsimp only; try exact rfl)); (case hw => (intro hm; first | exact rfl | cases hm)); (case hg => exact rfl); (case hs => exact rfl); first | with_reducible assumption | with_reducible apply st_reach | with_reducible apply st_translate | split))
theorem st_flatLocs {gg : Nat} {bb : State} (s : State) (a1 : Ex) (a2 : List Nat) (a3 : Nat) (a4 : Access) (a5 : Bool) (h0 : Steady true gg bb s) :
    Steady true gg bb (State.flatLocs s a1 a2 a3 a4 a5).2 := by
  unfold State.flatLocs
  repeat' (first | with_reducible assumption | with_reducible apply st_flatLoc | with_reducible apply st_foldl | with_reducible apply st_foldl2 | with_reducible apply st_foldl1 | with_reducible apply st_foldl22 | dsimp only | intro _ | (split <;> (try (rename_i hq; have hq1 := congrArg Prod.snd hq; dsimp only at hq1; subst hq1))) | (apply Steady.upd; (case hl => (dsimp only; try exact rfl)); (case hw => (intro hm; first | exact rfl | cases hm)); (case hg => exact rfl); (case hs => exact rfl); first | with_reducible assumption | with_reducible apply st_flatLoc | with_reducible apply st_foldl | with_reducible apply st_foldl2 | with_reducible apply st_foldl1 | with_reducible apply st_foldl22 | split))
theorem st_irrev {mm : Bool} {gg : Nat} {bb : State} (s : State) (a1 : Ex) (h0 : Steady mm gg bb s) :
    Steady mm gg bb (State.irrev s a1) := by
  unfold State.irrev
  repeat' (first | with_reducible assumption | (refine st_modFibre_same ?_ _ _ _ _ (fun _ => rfl)) | (refine st_modFibre_same ?_ _ _ _ _ (fun _ => by dsimp only; (repeat' split) <;> rfl)) | (refine st_modFibre_same ?_ _ _ _ _ (fun _ => ringPut_lanes ..)) | dsimp only | intro _ | split | (apply Steady.upd; (case hl => (dsimp only; try exact rfl)); (case hw => (intro hm; first | exact rfl | cases hm)); (case hg => exact rfl); (case hs => exact rfl); first | with_reducible assumption | (refine st_modFibre_same ?_ _ _ _ _ (fun _ => rfl)) | (refine st_modFibre_same ?_ _ _ _ _ (fun _ => by dsimp only; (repeat' split) <;> rfl)) | (refine st_modFibre_same ?_ _ _ _ _ (fun _ => ringPut_lanes ..)) | split))
theorem st_giveItem {mm : Bool} {gg : Nat} {bb : State} (s : State) (a1 : Nat) (a2 : Nat) (a3 : Nat) (a4 : Got) (h0 : Steady mm gg bb s) :
    Steady mm gg bb (State.giveItem s a1 a2 a3 a4) := by
  unfold State.giveItem
  repeat' (first | with_reducible assumption | dsimp only | intro _ | split | (apply Steady.upd; (case hl => (dsimp only; try exact rfl)); (case hw => (intro hm; first | exact rfl | cases hm)); (case hg => exact rfl); (case hs => exact rfl); first | with_reducible assumption | split))

/-! Control -/

theorem st_callOut {mm : Bool} {gg : Nat} {bb : State} (a0 : Ex) (s : State) (h1 : Steady mm gg bb s) :
    Steady mm gg bb (callOut a0 s) := by
  unfold callOut
  repeat' (first | with_reducible assumption | with_reducible apply st_writeDst | dsimp only | intro _ | split | (apply Steady.upd; (case hl => (dsimp only; try exact rfl)); (case hw => (intro hm; first | exact rfl | cases hm)); (case hg => exact rfl); (case hs => exact rfl); first | with_reducible assumption | with_reducible apply st_writeDst | split))
theorem st_fyldOut {mm : Bool} {gg : Nat} {bb : State} (a0 : Ex) (s : State) (h1 : Steady mm gg bb s) :
    Steady mm gg bb (fyldOut a0 s) := by
  unfold fyldOut
  repeat' (first | with_reducible assumption | (refine st_modWarp_same ?_ _ _ _ (fun _ => rfl)) | dsimp only | intro _ | split | (apply Steady.upd; (case hl => (dsimp only; try exact rfl)); (case hw => (intro hm; first | exact rfl | cases hm)); (case hg => exact rfl); (case hs => exact rfl); first | with_reducible assumption | (refine st_modWarp_same ?_ _ _ _ (fun _ => rfl)) | split))
theorem active_map (ls : List Lane) (k : Lane → Lane) (hk : ∀ x, x.st = .active → (k x).st = .active) (l : Nat)
    (h : (ls.getD l {}).st = .active) : ((ls.map k).getD l {}).st = .active := by
  simp only [List.getD_eq_getElem?_getD, List.getElem?_map] at *
  cases hl : ls[l]? with
  | none => rw [hl] at h; cases h
  | some x => rw [hl] at h; exact hk x h
theorem st_startFibre {mm : Bool} {gg : Nat} {bb : State} (s : State) (g w f : Nat) (h0 : Steady mm gg bb s) : Steady mm gg bb (State.startFibre s g w f) := by
  unfold State.startFibre
  dsimp only
  refine st_writeUni _ _ _ _ _ _ (st_writeUni _ _ _ _ _ _ (h0.trans (steady_modFibre gg s g w f _ (fun x l h => ?_))))
  exact active_map x.lanes _ (fun _ _ => rfl) l h
theorem st_fstartOut {mm : Bool} {gg : Nat} {bb : State} (a0 : Ex) (s : State) (h1 : Steady mm gg bb s) :
    Steady mm gg bb (fstartOut a0 s) := by
  unfold fstartOut
  repeat' (first | with_reducible assumption | with_reducible apply st_startFibre | with_reducible apply st_irrev | with_reducible apply st_writeDst | dsimp only | intro _ | split | (apply Steady.upd; (case hl => (dsimp only; try exact rfl)); (case hw => (intro hm; first | exact rfl | cases hm)); (case hg => exact rfl); (case hs => exact rfl); first | with_reducible assumption | with_reducible apply st_startFibre | with_reducible apply st_irrev | with_reducible apply st_writeDst | split))
theorem st_loopOut {mm : Bool} {gg : Nat} {bb : State} (a0 : Word) (a1 : Ex) (s : State) (h2 : Steady mm gg bb s) :
    Steady mm gg bb (loopOut a0 a1 s) := by
  unfold loopOut
  repeat' (first | with_reducible assumption | with_reducible apply st_writeDst | dsimp only | intro _ | split | (apply Steady.upd; (case hl => (dsimp only; try exact rfl)); (case hw => (intro hm; first | exact rfl | cases hm)); (case hg => exact rfl); (case hs => exact rfl); first | with_reducible assumption | with_reducible apply st_writeDst | split))

/-! Logic -/

theorem st_plogOut {mm : Bool} {gg : Nat} {bb : State} (a0 : Ex) (s : State) (h1 : Steady mm gg bb s) :
    Steady mm gg bb (plogOut a0 s) := by
  unfold plogOut
  repeat' (first | with_reducible assumption | with_reducible apply st_writePreds | dsimp only | intro _ | split | (apply Steady.upd; (case hl => (dsimp only; try exact rfl)); (case hw => (intro hm; first | exact rfl | cases hm)); (case hg => exact rfl); (case hs => exact rfl); first | with_reducible assumption | with_reducible apply st_writePreds | split))
theorem st_movOut {mm : Bool} {gg : Nat} {bb : State} (a0 : Ex) (s : State) (h1 : Steady mm gg bb s) :
    Steady mm gg bb (movOut a0 s) := by
  unfold movOut
  repeat' (first | with_reducible assumption | with_reducible apply st_popQueues | with_reducible apply st_writeDst | dsimp only | intro _ | split | (apply Steady.upd; (case hl => (dsimp only; try exact rfl)); (case hw => (intro hm; first | exact rfl | cases hm)); (case hg => exact rfl); (case hs => exact rfl); first | with_reducible assumption | with_reducible apply st_popQueues | with_reducible apply st_writeDst | split))
theorem st_moviOut {mm : Bool} {gg : Nat} {bb : State} (a0 : Ex) (s : State) (h1 : Steady mm gg bb s) :
    Steady mm gg bb (moviOut a0 s) := by
  unfold moviOut
  repeat' (first | with_reducible assumption | with_reducible apply st_writeDst | dsimp only | intro _ | split | (apply Steady.upd; (case hl => (dsimp only; try exact rfl)); (case hw => (intro hm; first | exact rfl | cases hm)); (case hg => exact rfl); (case hs => exact rfl); first | with_reducible assumption | with_reducible apply st_writeDst | split))
theorem st_tick {mm : Bool} {gg : Nat} {bb : State} (s : State) (h0 : Steady mm gg bb s) :
    Steady mm gg bb (State.tick s) := by
  unfold State.tick
  repeat' (first | with_reducible assumption | with_reducible apply st_fresh | dsimp only | intro _ | (split <;> (try (rename_i hq; have hq1 := congrArg Prod.snd hq; dsimp only at hq1; subst hq1))) | (apply Steady.upd; (case hl => (dsimp only; try exact rfl)); (case hw => (intro hm; first | exact rfl | cases hm)); (case hg => exact rfl); (case hs => exact rfl); first | with_reducible assumption | with_reducible apply st_fresh | split))
theorem st_movsOut {mm : Bool} {gg : Nat} {bb : State} (a0 : Ex) (s : State) (h1 : Steady mm gg bb s) :
    Steady mm gg bb (movsOut a0 s) := by
  unfold movsOut
  repeat' (first | with_reducible assumption | with_reducible apply st_tick | with_reducible apply st_writeDst | dsimp only | intro _ | split | (apply Steady.upd; (case hl => (dsimp only; try exact rfl)); (case hw => (intro hm; first | exact rfl | cases hm)); (case hg => exact rfl); (case hs => exact rfl); first | with_reducible assumption | with_reducible apply st_tick | with_reducible apply st_writeDst | split))
theorem st_movwOut {mm : Bool} {gg : Nat} {bb : State} (a0 : Ex) (s : State) (h1 : Steady mm gg bb s) :
    Steady mm gg bb (movwOut a0 s) := by
  unfold movwOut
  repeat' (first | with_reducible assumption | with_reducible apply st_popQueues | with_reducible apply st_countBad | (refine st_modFibre_same ?_ _ _ _ _ (fun _ => rfl)) | (refine st_modFibre_same ?_ _ _ _ _ (fun _ => by dsimp only; (repeat' split) <;> rfl)) | (refine st_modFibre_same ?_ _ _ _ _ (fun _ => ringPut_lanes ..)) | dsimp only | intro _ | (split <;> (try (rename_i hq; have hq1 := congrArg Prod.snd hq; dsimp only at hq1; subst hq1))) | (apply Steady.upd; (case hl => (dsimp only; try exact rfl)); (case hw => (intro hm; first | exact rfl | cases hm)); (case hg => exact rfl); (case hs => exact rfl); first | with_reducible assumption | with_reducible apply st_popQueues | with_reducible apply st_countBad | (refine st_modFibre_same ?_ _ _ _ _ (fun _ => rfl)) | (refine st_modFibre_same ?_ _ _ _ _ (fun _ => by dsimp only; (repeat' split) <;> rfl)) | (refine st_modFibre_same ?_ _ _ _ _ (fun _ => ringPut_lanes ..)) | split))

/-! Rmw -/

theorem st_rmwDone {mm : Bool} {gg : Nat} {bb : State} (s : State) (a1 : PendOp) (a2 : List MemWord) (a3 : Bool) (h0 : Steady mm gg bb s) :
    Steady mm gg bb (State.rmwDone s a1 a2 a3) := by
  unfold State.rmwDone
  repeat' (first | with_reducible assumption | with_reducible apply st_giveItem | with_reducible apply st_countPart | with_reducible apply st_foldl | with_reducible apply st_foldl2 | with_reducible apply st_foldl1 | with_reducible apply st_foldl22 | dsimp only | intro _ | split | (apply Steady.upd; (case hl => (dsimp only; try exact rfl)); (case hw => (intro hm; first | exact rfl | cases hm)); (case hg => exact rfl); (case hs => exact rfl); first | with_reducible assumption | with_reducible apply st_giveItem | with_reducible apply st_countPart | with_reducible apply st_foldl | with_reducible apply st_foldl2 | with_reducible apply st_foldl1 | with_reducible apply st_foldl22 | split))
theorem st_rmwL1 {mm : Bool} {gg : Nat} {bb : State} (s : State) (a1 : PendOp) (h0 : Steady mm gg bb s) :
    Steady mm gg bb (State.rmwL1 s a1) := by
  unfold State.rmwL1
  repeat' (first | with_reducible assumption | with_reducible apply st_rmwDone | with_reducible apply st_fixReads | with_reducible apply st_setL1 | with_reducible apply st_foldl | with_reducible apply st_foldl2 | with_reducible apply st_foldl1 | with_reducible apply st_foldl22 | dsimp only | intro _ | split | (apply Steady.upd; (case hl => (dsimp only; try exact rfl)); (case hw => (intro hm; first | exact rfl | cases hm)); (case hg => exact rfl); (case hs => exact rfl); first | with_reducible assumption | with_reducible apply st_rmwDone | with_reducible apply st_fixReads | with_reducible apply st_setL1 | with_reducible apply st_foldl | with_reducible apply st_foldl2 | with_reducible apply st_foldl1 | with_reducible apply st_foldl22 | split))
theorem st_runPend {mm : Bool} {gg : Nat} {bb : State} (s : State) (a1 : Nat) (h0 : Steady mm gg bb s) :
    Steady mm gg bb (State.runPend s a1) := by
  unfold State.runPend
  repeat' (first | with_reducible assumption | with_reducible apply st_rmwL1 | with_reducible apply st_foldl | with_reducible apply st_foldl2 | with_reducible apply st_foldl1 | with_reducible apply st_foldl22 | dsimp only | intro _ | split | (apply Steady.upd; (case hl => (dsimp only; try exact rfl)); (case hw => (intro hm; first | exact rfl | cases hm)); (case hg => exact rfl); (case hs => exact rfl); first | with_reducible assumption | with_reducible apply st_rmwL1 | with_reducible apply st_foldl | with_reducible apply st_foldl2 | with_reducible apply st_foldl1 | with_reducible apply st_foldl22 | split))
theorem st_atomic {mm : Bool} {gg : Nat} {bb : State} (s : State) (a1 : By) (a2 : Nat) (a3 : Byte) (a4 : Nat) (a5 : Nat) (a6 : Rmw) (a7 : Option Nat) (a8 : Bool) (h0 : Steady mm gg bb s) :
    Steady mm gg bb (State.atomic s a1 a2 a3 a4 a5 a6 a7 a8) := by
  unfold State.atomic
  repeat' (first | with_reducible assumption | with_reducible apply st_runPend | with_reducible apply st_addPend | dsimp only | intro _ | split | (apply Steady.upd; (case hl => (dsimp only; try exact rfl)); (case hw => (intro hm; first | exact rfl | cases hm)); (case hg => exact rfl); (case hs => exact rfl); first | with_reducible assumption | with_reducible apply st_runPend | with_reducible apply st_addPend | split))

/-! Scratch -/

theorem st_giveSp {mm : Bool} {gg : Nat} {bb : State} (s : State) (a1 : ParkedFe) (a2 : SpadWord) (h0 : Steady mm gg bb s) :
    Steady mm gg bb (State.giveSp s a1 a2) := by
  unfold State.giveSp
  repeat' (first | with_reducible assumption | with_reducible apply st_giveItem | with_reducible apply st_spFound | dsimp only | intro _ | split | (apply Steady.upd; (case hl => (dsimp only; try exact rfl)); (case hw => (intro hm; first | exact rfl | cases hm)); (case hg => exact rfl); (case hs => exact rfl); first | with_reducible assumption | with_reducible apply st_giveItem | with_reducible apply st_spFound | split))
theorem st_spPerform {mm : Bool} {gg : Nat} {bb : State} (s : State) (a1 : ParkedFe) (h0 : Steady mm gg bb s) :
    Steady mm gg bb (State.spPerform s a1).1 := by
  unfold State.spPerform
  repeat' (first | with_reducible assumption | with_reducible apply st_giveSp | with_reducible apply st_giveItem | with_reducible apply st_spadStore | with_reducible apply st_spFound | with_reducible apply st_setSp | dsimp only | intro _ | split | (apply Steady.upd; (case hl => (dsimp only; try exact rfl)); (case hw => (intro hm; first | exact rfl | cases hm)); (case hg => exact rfl); (case hs => exact rfl); first | with_reducible assumption | with_reducible apply st_giveSp | with_reducible apply st_giveItem | with_reducible apply st_spadStore | with_reducible apply st_spFound | with_reducible apply st_setSp | split))
theorem st_spLeave {mm : Bool} {gg : Nat} {bb : State} (s : State) (a1 : ParkedFe) (h0 : Steady mm gg bb s) :
    Steady mm gg bb (State.spLeave s a1) := by
  unfold State.spLeave
  repeat' (first | with_reducible assumption | with_reducible apply st_spPerform | with_reducible apply st_modCore | dsimp only | intro _ | split | (apply Steady.upd; (case hl => (dsimp only; try exact rfl)); (case hw => (intro hm; first | exact rfl | cases hm)); (case hg => exact rfl); (case hs => exact rfl); first | with_reducible assumption | with_reducible apply st_spPerform | with_reducible apply st_modCore | split))
theorem st_spPass {mm : Bool} {gg : Nat} {bb : State} (s : State) (a1 : Nat) (a2 : Nat) (a3 : Nat) (h0 : Steady mm gg bb s) :
    Steady mm gg bb (State.spPass s a1 a2 a3).1 := by
  unfold State.spPass
  repeat' (first | with_reducible assumption | with_reducible apply st_spLeave | with_reducible apply st_foldl | with_reducible apply st_foldl2 | with_reducible apply st_foldl1 | with_reducible apply st_foldl22 | dsimp only | intro _ | split | (apply Steady.upd; (case hl => (dsimp only; try exact rfl)); (case hw => (intro hm; first | exact rfl | cases hm)); (case hg => exact rfl); (case hs => exact rfl); first | with_reducible assumption | with_reducible apply st_spLeave | with_reducible apply st_foldl | with_reducible apply st_foldl2 | with_reducible apply st_foldl1 | with_reducible apply st_foldl22 | split))
theorem st_spWake {mm : Bool} {gg : Nat} {bb : State} (s : State) (c g i n : Nat) (h0 : Steady mm gg bb s) : Steady mm gg bb (State.spWake s c g i n) := by
  induction n generalizing s with
  | zero => exact h0
  | succ n ih =>
    unfold State.spWake
    dsimp only
    split
    · exact ih _ (st_spPass _ _ _ _ h0)
    · exact st_spPass _ _ _ _ h0
theorem st_spChanged {mm : Bool} {gg : Nat} {bb : State} (s : State) (a1 : Nat) (a2 : Nat) (h0 : Steady mm gg bb s) :
    Steady mm gg bb (State.spChanged s a1 a2) := by
  unfold State.spChanged
  repeat' (first | with_reducible assumption | with_reducible apply st_spWake | dsimp only | intro _ | split | (apply Steady.upd; (case hl => (dsimp only; try exact rfl)); (case hw => (intro hm; first | exact rfl | cases hm)); (case hg => exact rfl); (case hs => exact rfl); first | with_reducible assumption | with_reducible apply st_spWake | split))
theorem st_spArrive {mm : Bool} {gg : Nat} {bb : State} (s : State) (a1 : ParkedFe) (h0 : Steady mm gg bb s) :
    Steady mm gg bb (State.spArrive s a1) := by
  unfold State.spArrive
  repeat' (first | with_reducible assumption | with_reducible apply st_spChanged | with_reducible apply st_spPerform | with_reducible apply st_modCore | dsimp only | intro _ | split | (apply Steady.upd; (case hl => (dsimp only; try exact rfl)); (case hw => (intro hm; first | exact rfl | cases hm)); (case hg => exact rfl); (case hs => exact rfl); first | with_reducible assumption | with_reducible apply st_spChanged | with_reducible apply st_spPerform | with_reducible apply st_modCore | split))
theorem st_spAccess {mm : Bool} {gg : Nat} {bb : State} (s : State) (a1 : Ex) (a2 : Nat) (a3 : Nat) (a4 : Nat) (a5 : Word) (a6 : Nat) (a7 : Nat) (a8 : SpOp) (a9 : Option Nat) (a10 : Word) (h0 : Steady mm gg bb s) :
    Steady mm gg bb (State.spAccess s a1 a2 a3 a4 a5 a6 a7 a8 a9 a10) := by
  unfold State.spAccess
  repeat' (first | with_reducible assumption | with_reducible apply st_spArrive | with_reducible apply st_newId | dsimp only | intro _ | (split <;> (try (rename_i hq; have hq1 := congrArg Prod.snd hq; dsimp only at hq1; subst hq1))) | (apply Steady.upd; (case hl => (dsimp only; try exact rfl)); (case hw => (intro hm; first | exact rfl | cases hm)); (case hg => exact rfl); (case hs => exact rfl); first | with_reducible assumption | with_reducible apply st_spArrive | with_reducible apply st_newId | split))
theorem st_ldsOut {mm : Bool} {gg : Nat} {bb : State} (a0 : Ex) (s : State) (h1 : Steady mm gg bb s) :
    Steady mm gg bb (ldsOut a0 s) := by
  unfold ldsOut
  repeat' (first | with_reducible assumption | with_reducible apply st_spAccess | with_reducible apply st_popQueues | with_reducible apply st_produce | with_reducible apply st_foldl | with_reducible apply st_foldl2 | with_reducible apply st_foldl1 | with_reducible apply st_foldl22 | dsimp only | intro _ | split | (apply Steady.upd; (case hl => (dsimp only; try exact rfl)); (case hw => (intro hm; first | exact rfl | cases hm)); (case hg => exact rfl); (case hs => exact rfl); first | with_reducible assumption | with_reducible apply st_spAccess | with_reducible apply st_popQueues | with_reducible apply st_produce | with_reducible apply st_foldl | with_reducible apply st_foldl2 | with_reducible apply st_foldl1 | with_reducible apply st_foldl22 | split))
theorem st_holdStore {mm : Bool} {gg : Nat} {bb : State} (x : Ex) (s : State) (kind : QKind) (outs : List (Nat × Loc × Option Val × DWord)) (h0 : Steady mm gg bb s) :
    Steady mm gg bb (holdStore x s kind outs) := by
  unfold holdStore
  dsimp only
  refine st_modFibre_same ?_ _ _ _ _ (fun _ => rfl)
  exact st_newId _ (st_makePoison _ _ _ _ _ _ _ h0)
theorem st_stsOut {mm : Bool} {gg : Nat} {bb : State} (a0 : Ex) (s : State) (h1 : Steady mm gg bb s) :
    Steady mm gg bb (stsOut a0 s) := by
  unfold stsOut
  repeat' (first | with_reducible assumption | with_reducible apply st_holdStore | with_reducible apply st_spAccess | with_reducible apply st_popQueues | with_reducible apply st_countPart | with_reducible apply st_newId | with_reducible apply st_foldl | with_reducible apply st_foldl2 | with_reducible apply st_foldl1 | with_reducible apply st_foldl22 | dsimp only | intro _ | (split <;> (try (rename_i hq; have hq1 := congrArg Prod.snd hq; dsimp only at hq1; subst hq1))) | (apply Steady.upd; (case hl => (dsimp only; try exact rfl)); (case hw => (intro hm; first | exact rfl | cases hm)); (case hg => exact rfl); (case hs => exact rfl); first | with_reducible assumption | with_reducible apply st_holdStore | with_reducible apply st_spAccess | with_reducible apply st_popQueues | with_reducible apply st_countPart | with_reducible apply st_newId | with_reducible apply st_foldl | with_reducible apply st_foldl2 | with_reducible apply st_foldl1 | with_reducible apply st_foldl22 | split))
theorem st_ldfeOut {mm : Bool} {gg : Nat} {bb : State} (a0 : Ex) (s : State) (h1 : Steady mm gg bb s) :
    Steady mm gg bb (ldfeOut a0 s) := by
  unfold ldfeOut
  repeat' (first | with_reducible assumption | with_reducible apply st_spAccess | with_reducible apply st_irrev | with_reducible apply st_popQueues | with_reducible apply st_produce | with_reducible apply st_foldl | with_reducible apply st_foldl2 | with_reducible apply st_foldl1 | with_reducible apply st_foldl22 | dsimp only | intro _ | split | (apply Steady.upd; (case hl => (dsimp only; try exact rfl)); (case hw => (intro hm; first | exact rfl | cases hm)); (case hg => exact rfl); (case hs => exact rfl); first | with_reducible assumption | with_reducible apply st_spAccess | with_reducible apply st_irrev | with_reducible apply st_popQueues | with_reducible apply st_produce | with_reducible apply st_foldl | with_reducible apply st_foldl2 | with_reducible apply st_foldl1 | with_reducible apply st_foldl22 | split))
theorem st_stfeOut {mm : Bool} {gg : Nat} {bb : State} (a0 : Ex) (s : State) (h1 : Steady mm gg bb s) :
    Steady mm gg bb (stfeOut a0 s) := by
  unfold stfeOut
  repeat' (first | with_reducible assumption | with_reducible apply st_spAccess | with_reducible apply st_irrev | with_reducible apply st_popQueues | with_reducible apply st_countBad | with_reducible apply st_makePoison | with_reducible apply st_newId | (refine st_modFibre_same ?_ _ _ _ _ (fun _ => rfl)) | (refine st_modFibre_same ?_ _ _ _ _ (fun _ => by dsimp only; (repeat' split) <;> rfl)) | (refine st_modFibre_same ?_ _ _ _ _ (fun _ => ringPut_lanes ..)) | with_reducible apply st_foldl | with_reducible apply st_foldl2 | with_reducible apply st_foldl1 | with_reducible apply st_foldl22 | dsimp only | intro _ | (split <;> (try (rename_i hq; have hq1 := congrArg Prod.snd hq; dsimp only at hq1; subst hq1))) | (apply Steady.upd; (case hl => (dsimp only; try exact rfl)); (case hw => (intro hm; first | exact rfl | cases hm)); (case hg => exact rfl); (case hs => exact rfl); first | with_reducible assumption | with_reducible apply st_spAccess | with_reducible apply st_irrev | with_reducible apply st_popQueues | with_reducible apply st_countBad | with_reducible apply st_makePoison | with_reducible apply st_newId | (refine st_modFibre_same ?_ _ _ _ _ (fun _ => rfl)) | (refine st_modFibre_same ?_ _ _ _ _ (fun _ => by dsimp only; (repeat' split) <;> rfl)) | (refine st_modFibre_same ?_ _ _ _ _ (fun _ => ringPut_lanes ..)) | with_reducible apply st_foldl | with_reducible apply st_foldl2 | with_reducible apply st_foldl1 | with_reducible apply st_foldl22 | split))

/-! Memory -/

theorem st_askWords {mm : Bool} {gg : Nat} {bb : State} (s : State) (a1 : Nat) (a2 : Byte) (a3 : Option Nat) (a4 : Bool) (a5 : Bool) (a6 : List Nat) (h0 : Steady mm gg bb s) :
    Steady mm gg bb (State.askWords s a1 a2 a3 a4 a5 a6) := by
  unfold State.askWords
  repeat' (first | with_reducible assumption | with_reducible apply st_send | with_reducible apply st_foldl | with_reducible apply st_foldl2 | with_reducible apply st_foldl1 | with_reducible apply st_foldl22 | dsimp only | intro _ | split | (apply Steady.upd; (case hl => (dsimp only; try exact rfl)); (case hw => (intro hm; first | exact rfl | cases hm)); (case hg => exact rfl); (case hs => exact rfl); first | with_reducible assumption | with_reducible apply st_send | with_reducible apply st_foldl | with_reducible apply st_foldl2 | with_reducible apply st_foldl1 | with_reducible apply st_foldl22 | split))
theorem st_loadGo {mm : Bool} {gg : Nat} {bb : State} (s : State) (a1 : Nat) (a2 : Byte) (a3 : Nat) (a4 : Bool) (a5 : Nat) (a6 : List (Nat × Loc)) (h0 : Steady mm gg bb s) :
    Steady mm gg bb (State.loadGo s a1 a2 a3 a4 a5 a6) := by
  unfold State.loadGo
  repeat' (first | with_reducible assumption | with_reducible apply st_askWords | with_reducible apply st_giveItem | with_reducible apply st_ownLine | with_reducible apply st_foldl | with_reducible apply st_foldl2 | with_reducible apply st_foldl1 | with_reducible apply st_foldl22 | dsimp only | intro _ | split | (apply Steady.upd; (case hl => (dsimp only; try exact rfl)); (case hw => (intro hm; first | exact rfl | cases hm)); (case hg => exact rfl); (case hs => exact rfl); first | with_reducible assumption | with_reducible apply st_askWords | with_reducible apply st_giveItem | with_reducible apply st_ownLine | with_reducible apply st_foldl | with_reducible apply st_foldl2 | with_reducible apply st_foldl1 | with_reducible apply st_foldl22 | split))
theorem st_loadOut {gg : Nat} {bb : State} (a0 : Bool) (a1 : Ex) (s : State) (h2 : Steady true gg bb s) :
    Steady true gg bb (loadOut a0 a1 s) := by
  unfold loadOut
  repeat' (first | with_reducible assumption | with_reducible apply st_loadGo | with_reducible apply st_flatLocs | with_reducible apply st_popQueues | with_reducible apply st_produce | dsimp only | intro _ | split | (apply Steady.upd; (case hl => (dsimp only; try exact rfl)); (case hw => (intro hm; first | exact rfl | cases hm)); (case hg => exact rfl); (case hs => exact rfl); first | with_reducible assumption | with_reducible apply st_loadGo | with_reducible apply st_flatLocs | with_reducible apply st_popQueues | with_reducible apply st_produce | split))
theorem st_storeLocs {gg : Nat} {bb : State} (a0 : Bool) (a1 : Ex) (s : State) (h2 : Steady true gg bb s) :
    Steady true gg bb (storeLocs a0 a1 s).2 := by
  unfold storeLocs
  repeat' (first | with_reducible assumption | with_reducible apply st_flatLocs | dsimp only | intro _ | split | (apply Steady.upd; (case hl => (dsimp only; try exact rfl)); (case hw => (intro hm; first | exact rfl | cases hm)); (case hg => exact rfl); (case hs => exact rfl); first | with_reducible assumption | with_reducible apply st_flatLocs | split))
theorem st_storeOut {gg : Nat} {bb : State} (a0 : Bool) (a1 : Ex) (s : State) (h2 : Steady true gg bb s) :
    Steady true gg bb (storeOut a0 a1 s) := by
  unfold storeOut
  repeat' (first | with_reducible assumption | with_reducible apply st_storeLocs | with_reducible apply st_holdStore | with_reducible apply st_popQueues | with_reducible apply st_flatStore | with_reducible apply st_countPart | with_reducible apply st_newId | with_reducible apply st_foldl | with_reducible apply st_foldl2 | with_reducible apply st_foldl1 | with_reducible apply st_foldl22 | dsimp only | intro _ | (split <;> (try (rename_i hq; have hq1 := congrArg Prod.snd hq; dsimp only at hq1; subst hq1))) | (apply Steady.upd; (case hl => (dsimp only; try exact rfl)); (case hw => (intro hm; first | exact rfl | cases hm)); (case hg => exact rfl); (case hs => exact rfl); first | with_reducible assumption | with_reducible apply st_storeLocs | with_reducible apply st_holdStore | with_reducible apply st_popQueues | with_reducible apply st_flatStore | with_reducible apply st_countPart | with_reducible apply st_newId | with_reducible apply st_foldl | with_reducible apply st_foldl2 | with_reducible apply st_foldl1 | with_reducible apply st_foldl22 | split))
theorem st_lineLocs {gg : Nat} {bb : State} (s : State) (a1 : Ex) (h0 : Steady true gg bb s) :
    Steady true gg bb (State.lineLocs s a1).2 := by
  unfold State.lineLocs
  repeat' (first | with_reducible assumption | with_reducible apply st_reach | with_reducible apply st_foldl | with_reducible apply st_foldl2 | with_reducible apply st_foldl1 | with_reducible apply st_foldl22 | dsimp only | intro _ | (split <;> (try (rename_i hq; have hq1 := congrArg Prod.snd hq; dsimp only at hq1; subst hq1))) | (apply Steady.upd; (case hl => (dsimp only; try exact rfl)); (case hw => (intro hm; first | exact rfl | cases hm)); (case hg => exact rfl); (case hs => exact rfl); first | with_reducible assumption | with_reducible apply st_reach | with_reducible apply st_foldl | with_reducible apply st_foldl2 | with_reducible apply st_foldl1 | with_reducible apply st_foldl22 | split))
theorem st_pfcOut {gg : Nat} {bb : State} (a0 : Ex) (s : State) (h1 : Steady true gg bb s) :
    Steady true gg bb (pfcOut a0 s) := by
  unfold pfcOut
  repeat' (first | with_reducible assumption | with_reducible apply st_lineLocs | with_reducible apply st_askWords | with_reducible apply st_popQueues | with_reducible apply st_homeAccess | with_reducible apply st_foldl | with_reducible apply st_foldl2 | with_reducible apply st_foldl1 | with_reducible apply st_foldl22 | dsimp only | intro _ | split | (apply Steady.upd; (case hl => (dsimp only; try exact rfl)); (case hw => (intro hm; first | exact rfl | cases hm)); (case hg => exact rfl); (case hs => exact rfl); first | with_reducible assumption | with_reducible apply st_lineLocs | with_reducible apply st_askWords | with_reducible apply st_popQueues | with_reducible apply st_homeAccess | with_reducible apply st_foldl | with_reducible apply st_foldl2 | with_reducible apply st_foldl1 | with_reducible apply st_foldl22 | split))
theorem st_lineInv {mm : Bool} {gg : Nat} {bb : State} (s : State) (a1 : Nat) (a2 : Nat) (h0 : Steady mm gg bb s) :
    Steady mm gg bb (State.lineInv s a1 a2) := by
  unfold State.lineInv
  repeat' (first | with_reducible assumption | with_reducible apply st_noAllocLine | with_reducible apply st_modCore | dsimp only | intro _ | split | (apply Steady.upd; (case hl => (dsimp only; try exact rfl)); (case hw => (intro hm; first | exact rfl | cases hm)); (case hg => exact rfl); (case hs => exact rfl); first | with_reducible assumption | with_reducible apply st_noAllocLine | with_reducible apply st_modCore | split))
theorem st_lineWb {mm : Bool} {gg : Nat} {bb : State} (s : State) (a1 : Nat) (a2 : Nat) (a3 : Byte) (h0 : Steady mm gg bb s) :
    Steady mm gg bb (State.lineWb s a1 a2 a3) := by
  unfold State.lineWb
  repeat' (first | with_reducible assumption | with_reducible apply st_chase | with_reducible apply st_send | with_reducible apply st_setL1 | with_reducible apply st_foldl | with_reducible apply st_foldl2 | with_reducible apply st_foldl1 | with_reducible apply st_foldl22 | dsimp only | intro _ | split | (apply Steady.upd; (case hl => (dsimp only; try exact rfl)); (case hw => (intro hm; first | exact rfl | cases hm)); (case hg => exact rfl); (case hs => exact rfl); first | with_reducible assumption | with_reducible apply st_chase | with_reducible apply st_send | with_reducible apply st_setL1 | with_reducible apply st_foldl | with_reducible apply st_foldl2 | with_reducible apply st_foldl1 | with_reducible apply st_foldl22 | split))
theorem st_cctlOut {gg : Nat} {bb : State} (a0 : Ex) (s : State) (h1 : Steady true gg bb s) :
    Steady true gg bb (cctlOut a0 s) := by
  unfold cctlOut
  repeat' (first | with_reducible assumption | with_reducible apply st_lineWb | with_reducible apply st_lineInv | with_reducible apply st_lineLocs | with_reducible apply st_popQueues | with_reducible apply st_countBad | with_reducible apply st_foldl | with_reducible apply st_foldl2 | with_reducible apply st_foldl1 | with_reducible apply st_foldl22 | dsimp only | intro _ | split | (apply Steady.upd; (case hl => (dsimp only; try exact rfl)); (case hw => (intro hm; first | exact rfl | cases hm)); (case hg => exact rfl); (case hs => exact rfl); first | with_reducible assumption | with_reducible apply st_lineWb | with_reducible apply st_lineInv | with_reducible apply st_lineLocs | with_reducible apply st_popQueues | with_reducible apply st_countBad | with_reducible apply st_foldl | with_reducible apply st_foldl2 | with_reducible apply st_foldl1 | with_reducible apply st_foldl22 | split))
theorem st_pftFrames {gg : Nat} {bb : State} (s : State) (a1 : Ex) (a2 : Nat) (a3 : Nat) (h0 : Steady true gg bb s) :
    Steady true gg bb (State.pftFrames s a1 a2 a3).2 := by
  unfold State.pftFrames
  repeat' (first | with_reducible assumption | with_reducible apply st_reach | with_reducible apply st_foldl | with_reducible apply st_foldl2 | with_reducible apply st_foldl1 | with_reducible apply st_foldl22 | dsimp only | intro _ | (split <;> (try (rename_i hq; have hq1 := congrArg Prod.snd hq; dsimp only at hq1; subst hq1))) | (apply Steady.upd; (case hl => (dsimp only; try exact rfl)); (case hw => (intro hm; first | exact rfl | cases hm)); (case hg => exact rfl); (case hs => exact rfl); first | with_reducible assumption | with_reducible apply st_reach | with_reducible apply st_foldl | with_reducible apply st_foldl2 | with_reducible apply st_foldl1 | with_reducible apply st_foldl22 | split))
theorem st_pftOut {gg : Nat} {bb : State} (a0 : Ex) (s : State) (h1 : Steady true gg bb s) :
    Steady true gg bb (pftOut a0 s) := by
  unfold pftOut
  repeat' (first | with_reducible assumption | with_reducible apply st_pftFrames | with_reducible apply st_newId | dsimp only | intro _ | (split <;> (try (rename_i hq; have hq1 := congrArg Prod.snd hq; dsimp only at hq1; subst hq1))) | (apply Steady.upd; (case hl => (dsimp only; try exact rfl)); (case hw => (intro hm; first | exact rfl | cases hm)); (case hg => exact rfl); (case hs => exact rfl); first | with_reducible assumption | with_reducible apply st_pftFrames | with_reducible apply st_newId | split))

/-! Atomics -/

theorem st_atomGo {mm : Bool} {gg : Nat} {bb : State} (a0 : Ex) (s : State) (a2 : Bool) (a3 : Nat) (a4 : Bool) (a5 : Bool) (a6 : List AtomLane) (h1 : Steady mm gg bb s) :
    Steady mm gg bb (atomGo a0 s a2 a3 a4 a5 a6) := by
  unfold atomGo
  repeat' (first | with_reducible assumption | with_reducible apply st_spAccess | with_reducible apply st_atomic | with_reducible apply st_irrev | with_reducible apply st_popQueues | with_reducible apply st_produce | with_reducible apply st_foldl | with_reducible apply st_foldl2 | with_reducible apply st_foldl1 | with_reducible apply st_foldl22 | dsimp only | intro _ | split | (apply Steady.upd; (case hl => (dsimp only; try exact rfl)); (case hw => (intro hm; first | exact rfl | cases hm)); (case hg => exact rfl); (case hs => exact rfl); first | with_reducible assumption | with_reducible apply st_spAccess | with_reducible apply st_atomic | with_reducible apply st_irrev | with_reducible apply st_popQueues | with_reducible apply st_produce | with_reducible apply st_foldl | with_reducible apply st_foldl2 | with_reducible apply st_foldl1 | with_reducible apply st_foldl22 | split))
theorem st_atomLocs {gg : Nat} {bb : State} (a0 : Bool) (a1 : Ex) (s : State) (h2 : Steady true gg bb s) :
    Steady true gg bb (atomLocs a0 a1 s).2 := by
  unfold atomLocs
  repeat' (first | with_reducible assumption | with_reducible apply st_flatLocs | dsimp only | intro _ | (split <;> (try (rename_i hq; have hq1 := congrArg Prod.snd hq; dsimp only at hq1; subst hq1))) | (apply Steady.upd; (case hl => (dsimp only; try exact rfl)); (case hw => (intro hm; first | exact rfl | cases hm)); (case hg => exact rfl); (case hs => exact rfl); first | with_reducible assumption | with_reducible apply st_flatLocs | split))
theorem st_atomOut {gg : Nat} {bb : State} (a0 : Bool) (a1 : Bool) (a2 : Ex) (s : State) (h3 : Steady true gg bb s) :
    Steady true gg bb (atomOut a0 a1 a2 s) := by
  unfold atomOut
  repeat' (first | with_reducible assumption | with_reducible apply st_atomLocs | with_reducible apply st_atomGo | dsimp only | intro _ | split | (apply Steady.upd; (case hl => (dsimp only; try exact rfl)); (case hw => (intro hm; first | exact rfl | cases hm)); (case hg => exact rfl); (case hs => exact rfl); first | with_reducible assumption | with_reducible apply st_atomLocs | with_reducible apply st_atomGo | split))
theorem st_fenceOut {mm : Bool} {gg : Nat} {bb : State} (a0 : Bool) (a1 : Bool) (a2 : Ex) (s : State) (h3 : Steady mm gg bb s) :
    Steady mm gg bb (fenceOut a0 a1 a2 s) := by
  unfold fenceOut
  repeat' (first | with_reducible assumption | with_reducible apply st_settleFences | with_reducible apply st_addFence | dsimp only | intro _ | split | (apply Steady.upd; (case hl => (dsimp only; try exact rfl)); (case hw => (intro hm; first | exact rfl | cases hm)); (case hg => exact rfl); (case hs => exact rfl); first | with_reducible assumption | with_reducible apply st_settleFences | with_reducible apply st_addFence | split))
theorem st_onceWrite {mm : Bool} {gg : Nat} {bb : State} (s : State) (a1 : Ex) (a2 : List Val) (h0 : Steady mm gg bb s) :
    Steady mm gg bb (State.onceWrite s a1 a2) := by
  unfold State.onceWrite
  repeat' (first | with_reducible assumption | with_reducible apply st_writeDst | with_reducible apply st_countBad | dsimp only | intro _ | split | (apply Steady.upd; (case hl => (dsimp only; try exact rfl)); (case hw => (intro hm; first | exact rfl | cases hm)); (case hg => exact rfl); (case hs => exact rfl); first | with_reducible assumption | with_reducible apply st_writeDst | with_reducible apply st_countBad | split))
theorem st_waitcSees {gg : Nat} {bb : State} (a0 : Ex) (s : State) (h1 : Steady true gg bb s) :
    Steady true gg bb (waitcSees a0 s).2 := by
  unfold waitcSees
  repeat' (first | with_reducible assumption | with_reducible apply st_flatLoc | dsimp only | intro _ | (split <;> (try (rename_i hq; have hq1 := congrArg Prod.snd hq; dsimp only at hq1; subst hq1))) | (apply Steady.upd; (case hl => (dsimp only; try exact rfl)); (case hw => (intro hm; first | exact rfl | cases hm)); (case hg => exact rfl); (case hs => exact rfl); first | with_reducible assumption | with_reducible apply st_flatLoc | split))
theorem st_waitcOut {gg : Nat} {bb : State} (a0 : Ex) (s : State) (h1 : Steady true gg bb s) :
    Steady true gg bb (waitcOut a0 s) := by
  unfold waitcOut
  repeat' (first | with_reducible assumption | with_reducible apply st_waitcSees | with_reducible apply st_onceWrite | with_reducible apply st_addFence | dsimp only | intro _ | split | (apply Steady.upd; (case hl => (dsimp only; try exact rfl)); (case hw => (intro hm; first | exact rfl | cases hm)); (case hg => exact rfl); (case hs => exact rfl); first | with_reducible assumption | with_reducible apply st_waitcSees | with_reducible apply st_onceWrite | with_reducible apply st_addFence | split))
theorem st_sigcOut {gg : Nat} {bb : State} (a0 : Ex) (s : State) (h1 : Steady true gg bb s) :
    Steady true gg bb (sigcOut a0 s) := by
  unfold sigcOut
  repeat' (first | with_reducible assumption | with_reducible apply st_atomGo | with_reducible apply st_flatLocs | dsimp only | intro _ | split | (apply Steady.upd; (case hl => (dsimp only; try exact rfl)); (case hw => (intro hm; first | exact rfl | cases hm)); (case hg => exact rfl); (case hs => exact rfl); first | with_reducible assumption | with_reducible apply st_atomGo | with_reducible apply st_flatLocs | split))

/-! Code -/

theorem st_fetchPlace {gg : Nat} {bb : State} (s : State) (a1 : Nat) (a2 : Byte) (a3 : Nat) (h0 : Steady true gg bb s) :
    Steady true gg bb (State.fetchPlace s a1 a2 a3).2 := by
  unfold State.fetchPlace
  repeat' (first | with_reducible assumption | with_reducible apply st_translate | dsimp only | intro _ | (split <;> (try (rename_i hq; have hq1 := congrArg Prod.snd hq; dsimp only at hq1; subst hq1))) | (apply Steady.upd; (case hl => (dsimp only; try exact rfl)); (case hw => (intro hm; first | exact rfl | cases hm)); (case hg => exact rfl); (case hs => exact rfl); first | with_reducible assumption | with_reducible apply st_translate | split))
theorem st_fillLine {mm : Bool} {gg : Nat} {bb : State} (s : State) (a1 : Nat) (a2 : Byte) (a3 : Nat) (a4 : Nat) (a5 : Bool) (h0 : Steady mm gg bb s) :
    Steady mm gg bb (State.fillLine s a1 a2 a3 a4 a5) := by
  unfold State.fillLine
  repeat' (first | with_reducible assumption | with_reducible apply st_homeAccess | with_reducible apply st_modCore | with_reducible apply st_optMap | dsimp only | intro _ | split | (apply Steady.upd; (case hl => (dsimp only; try exact rfl)); (case hw => (intro hm; first | exact rfl | cases hm)); (case hg => exact rfl); (case hs => exact rfl); first | with_reducible assumption | with_reducible apply st_homeAccess | with_reducible apply st_modCore | with_reducible apply st_optMap | split))
theorem st_prefLine {gg : Nat} {bb : State} (s : State) (a1 : Nat) (a2 : Byte) (a3 : Nat) (h0 : Steady true gg bb s) :
    Steady true gg bb (State.prefLine s a1 a2 a3).1 := by
  unfold State.prefLine
  repeat' (first | with_reducible assumption | with_reducible apply st_fillLine | with_reducible apply st_fetchPlace | dsimp only | intro _ | (split <;> (try (rename_i hq; have hq1 := congrArg Prod.snd hq; dsimp only at hq1; subst hq1))) | (apply Steady.upd; (case hl => (dsimp only; try exact rfl)); (case hw => (intro hm; first | exact rfl | cases hm)); (case hg => exact rfl); (case hs => exact rfl); first | with_reducible assumption | with_reducible apply st_fillLine | with_reducible apply st_fetchPlace | split))
theorem st_ipfOut {gg : Nat} {bb : State} (a0 : Ex) (s : State) (h1 : Steady true gg bb s) :
    Steady true gg bb (ipfOut a0 s) := by
  unfold ipfOut
  repeat' (first | with_reducible assumption | with_reducible apply st_prefLine | with_reducible apply st_fetchPlace | with_reducible apply st_homeAccess | with_reducible apply st_foldl | with_reducible apply st_foldl2 | with_reducible apply st_foldl1 | with_reducible apply st_foldl22 | dsimp only | intro _ | (split <;> (try (rename_i hq; have hq1 := congrArg Prod.snd hq; dsimp only at hq1; subst hq1))) | (apply Steady.upd; (case hl => (dsimp only; try exact rfl)); (case hw => (intro hm; first | exact rfl | cases hm)); (case hg => exact rfl); (case hs => exact rfl); first | with_reducible assumption | with_reducible apply st_prefLine | with_reducible apply st_fetchPlace | with_reducible apply st_homeAccess | with_reducible apply st_foldl | with_reducible apply st_foldl2 | with_reducible apply st_foldl1 | with_reducible apply st_foldl22 | split))
theorem st_pinLine {mm : Bool} {gg : Nat} {bb : State} (s : State) (a1 : Nat) (a2 : Byte) (a3 : Nat) (h0 : Steady mm gg bb s) :
    Steady mm gg bb (State.pinLine s a1 a2 a3) := by
  unfold State.pinLine
  repeat' (first | with_reducible assumption | with_reducible apply st_modCore | dsimp only | intro _ | split | (apply Steady.upd; (case hl => (dsimp only; try exact rfl)); (case hw => (intro hm; first | exact rfl | cases hm)); (case hg => exact rfl); (case hs => exact rfl); first | with_reducible assumption | with_reducible apply st_modCore | split))
theorem st_unpinLine {mm : Bool} {gg : Nat} {bb : State} (s : State) (a1 : Nat) (a2 : Byte) (a3 : Nat) (h0 : Steady mm gg bb s) :
    Steady mm gg bb (State.unpinLine s a1 a2 a3) := by
  unfold State.unpinLine
  repeat' (first | with_reducible assumption | with_reducible apply st_modCore | dsimp only | intro _ | split | (apply Steady.upd; (case hl => (dsimp only; try exact rfl)); (case hw => (intro hm; first | exact rfl | cases hm)); (case hg => exact rfl); (case hs => exact rfl); first | with_reducible assumption | with_reducible apply st_modCore | split))
theorem st_ipinOut {gg : Nat} {bb : State} (a0 : Ex) (s : State) (h1 : Steady true gg bb s) :
    Steady true gg bb (ipinOut a0 s) := by
  unfold ipinOut
  repeat' (first | with_reducible assumption | with_reducible apply st_pinLine | with_reducible apply st_prefLine | with_reducible apply st_onceWrite | (refine st_modGroup_same ?_ _ _ (fun _ => rfl) (fun _ => rfl)) | (refine st_modGroup_same ?_ _ _ (fun _ => by dsimp only; (repeat' split) <;> rfl) (fun _ => by dsimp only; (repeat' split) <;> rfl)) | with_reducible apply st_foldl | with_reducible apply st_foldl2 | with_reducible apply st_foldl1 | with_reducible apply st_foldl22 | dsimp only | intro _ | split | (apply Steady.upd; (case hl => (dsimp only; try exact rfl)); (case hw => (intro hm; first | exact rfl | cases hm)); (case hg => exact rfl); (case hs => exact rfl); first | with_reducible assumption | with_reducible apply st_pinLine | with_reducible apply st_prefLine | with_reducible apply st_onceWrite | (refine st_modGroup_same ?_ _ _ (fun _ => rfl) (fun _ => rfl)) | (refine st_modGroup_same ?_ _ _ (fun _ => by dsimp only; (repeat' split) <;> rfl) (fun _ => by dsimp only; (repeat' split) <;> rfl)) | with_reducible apply st_foldl | with_reducible apply st_foldl2 | with_reducible apply st_foldl1 | with_reducible apply st_foldl22 | split))
theorem st_unpin {mm : Bool} {gg : Nat} {bb : State} (s : State) (a1 : Nat) (a2 : CodeRange) (h0 : Steady mm gg bb s) :
    Steady mm gg bb (State.unpin s a1 a2) := by
  unfold State.unpin
  repeat' (first | with_reducible assumption | with_reducible apply st_unpinLine | (refine st_modGroup_same ?_ _ _ (fun _ => rfl) (fun _ => rfl)) | (refine st_modGroup_same ?_ _ _ (fun _ => by dsimp only; (repeat' split) <;> rfl) (fun _ => by dsimp only; (repeat' split) <;> rfl)) | with_reducible apply st_foldl | with_reducible apply st_foldl2 | with_reducible apply st_foldl1 | with_reducible apply st_foldl22 | dsimp only | intro _ | split | (apply Steady.upd; (case hl => (dsimp only; try exact rfl)); (case hw => (intro hm; first | exact rfl | cases hm)); (case hg => exact rfl); (case hs => exact rfl); first | with_reducible assumption | with_reducible apply st_unpinLine | (refine st_modGroup_same ?_ _ _ (fun _ => rfl) (fun _ => rfl)) | (refine st_modGroup_same ?_ _ _ (fun _ => by dsimp only; (repeat' split) <;> rfl) (fun _ => by dsimp only; (repeat' split) <;> rfl)) | with_reducible apply st_foldl | with_reducible apply st_foldl2 | with_reducible apply st_foldl1 | with_reducible apply st_foldl22 | split))
theorem st_iunpOut {mm : Bool} {gg : Nat} {bb : State} (a0 : Ex) (s : State) (h1 : Steady mm gg bb s) :
    Steady mm gg bb (iunpOut a0 s) := by
  unfold iunpOut
  repeat' (first | with_reducible assumption | with_reducible apply st_unpin | dsimp only | intro _ | split | (apply Steady.upd; (case hl => (dsimp only; try exact rfl)); (case hw => (intro hm; first | exact rfl | cases hm)); (case hg => exact rfl); (case hs => exact rfl); first | with_reducible assumption | with_reducible apply st_unpin | split))
theorem st_refetch {gg : Nat} {bb : State} (s : State) (a1 : Nat) (a2 : Nat) (a3 : ILine) (h0 : Steady true gg bb s) :
    Steady true gg bb (State.refetch s a1 a2 a3) := by
  unfold State.refetch
  repeat' (first | with_reducible assumption | with_reducible apply st_fetchPlace | with_reducible apply st_homeAccess | with_reducible apply st_modCore | dsimp only | intro _ | (split <;> (try (rename_i hq; have hq1 := congrArg Prod.snd hq; dsimp only at hq1; subst hq1))) | (apply Steady.upd; (case hl => (dsimp only; try exact rfl)); (case hw => (intro hm; first | exact rfl | cases hm)); (case hg => exact rfl); (case hs => exact rfl); first | with_reducible assumption | with_reducible apply st_fetchPlace | with_reducible apply st_homeAccess | with_reducible apply st_modCore | split))
theorem st_codeFence {gg : Nat} {bb : State} (s : State) (a1 : Nat) (h0 : Steady true gg bb s) :
    Steady true gg bb (State.codeFence s a1) := by
  unfold State.codeFence
  repeat' (first | with_reducible assumption | with_reducible apply st_refetch | with_reducible apply st_modCore | with_reducible apply st_foldl | with_reducible apply st_foldl2 | with_reducible apply st_foldl1 | with_reducible apply st_foldl22 | dsimp only | intro _ | split | (apply Steady.upd; (case hl => (dsimp only; try exact rfl)); (case hw => (intro hm; first | exact rfl | cases hm)); (case hg => exact rfl); (case hs => exact rfl); first | with_reducible assumption | with_reducible apply st_refetch | with_reducible apply st_modCore | with_reducible apply st_foldl | with_reducible apply st_foldl2 | with_reducible apply st_foldl1 | with_reducible apply st_foldl22 | split))

/-! Tiles -/

theorem st_tileWrite {mm : Bool} {gg : Nat} {bb : State} (s : State) (a1 : Ex) (a2 : List TileOut) (h0 : Steady mm gg bb s) :
    Steady mm gg bb (State.tileWrite s a1 a2) := by
  unfold State.tileWrite
  repeat' (first | with_reducible assumption | with_reducible apply st_makePoison | with_reducible apply st_setFlags | with_reducible apply st_writeVec | with_reducible apply st_foldl | with_reducible apply st_foldl2 | with_reducible apply st_foldl1 | with_reducible apply st_foldl22 | dsimp only | intro _ | (split <;> (try (rename_i hq; have hq1 := congrArg Prod.snd hq; dsimp only at hq1; subst hq1))) | (apply Steady.upd; (case hl => (dsimp only; try exact rfl)); (case hw => (intro hm; first | exact rfl | cases hm)); (case hg => exact rfl); (case hs => exact rfl); first | with_reducible assumption | with_reducible apply st_makePoison | with_reducible apply st_setFlags | with_reducible apply st_writeVec | with_reducible apply st_foldl | with_reducible apply st_foldl2 | with_reducible apply st_foldl1 | with_reducible apply st_foldl22 | split))
theorem st_quantOut {mm : Bool} {gg : Nat} {bb : State} (a0 : Bool) (a1 : Ex) (s : State) (h2 : Steady mm gg bb s) :
    Steady mm gg bb (quantOut a0 a1 s) := by
  unfold quantOut
  repeat' (first | with_reducible assumption | with_reducible apply st_tileWrite | dsimp only | intro _ | split | (apply Steady.upd; (case hl => (dsimp only; try exact rfl)); (case hw => (intro hm; first | exact rfl | cases hm)); (case hg => exact rfl); (case hs => exact rfl); first | with_reducible assumption | with_reducible apply st_tileWrite | split))
theorem st_dqOut {mm : Bool} {gg : Nat} {bb : State} (a0 : Ex) (s : State) (h1 : Steady mm gg bb s) :
    Steady mm gg bb (dqOut a0 s) := by
  unfold dqOut
  repeat' (first | with_reducible assumption | with_reducible apply st_tileWrite | with_reducible apply st_foldl | with_reducible apply st_foldl2 | with_reducible apply st_foldl1 | with_reducible apply st_foldl22 | dsimp only | intro _ | split | (apply Steady.upd; (case hl => (dsimp only; try exact rfl)); (case hw => (intro hm; first | exact rfl | cases hm)); (case hg => exact rfl); (case hs => exact rfl); first | with_reducible assumption | with_reducible apply st_tileWrite | with_reducible apply st_foldl | with_reducible apply st_foldl2 | with_reducible apply st_foldl1 | with_reducible apply st_foldl22 | split))
theorem st_saccOut {mm : Bool} {gg : Nat} {bb : State} (a0 : Ex) (s : State) (h1 : Steady mm gg bb s) :
    Steady mm gg bb (saccOut a0 s) := by
  unfold saccOut
  repeat' (first | with_reducible assumption | with_reducible apply st_tileWrite | with_reducible apply st_foldl | with_reducible apply st_foldl2 | with_reducible apply st_foldl1 | with_reducible apply st_foldl22 | dsimp only | intro _ | split | (apply Steady.upd; (case hl => (dsimp only; try exact rfl)); (case hw => (intro hm; first | exact rfl | cases hm)); (case hg => exact rfl); (case hs => exact rfl); first | with_reducible assumption | with_reducible apply st_tileWrite | with_reducible apply st_foldl | with_reducible apply st_foldl2 | with_reducible apply st_foldl1 | with_reducible apply st_foldl22 | split))
theorem st_ttrOut {mm : Bool} {gg : Nat} {bb : State} (a0 : Ex) (s : State) (h1 : Steady mm gg bb s) :
    Steady mm gg bb (ttrOut a0 s) := by
  unfold ttrOut
  repeat' (first | with_reducible assumption | with_reducible apply st_tileWrite | dsimp only | intro _ | split | (apply Steady.upd; (case hl => (dsimp only; try exact rfl)); (case hw => (intro hm; first | exact rfl | cases hm)); (case hg => exact rfl); (case hs => exact rfl); first | with_reducible assumption | with_reducible apply st_tileWrite | split))
theorem st_xvsetOut {mm : Bool} {gg : Nat} {bb : State} (a0 : Ex) (s : State) (h1 : Steady mm gg bb s) :
    Steady mm gg bb (xvsetOut a0 s) := by
  unfold xvsetOut
  repeat' (first | with_reducible assumption | with_reducible apply st_irrev | with_reducible apply st_countBad | (refine st_modGroup_same ?_ _ _ (fun _ => rfl) (fun _ => rfl)) | (refine st_modGroup_same ?_ _ _ (fun _ => by dsimp only; (repeat' split) <;> rfl) (fun _ => by dsimp only; (repeat' split) <;> rfl)) | dsimp only | intro _ | split | (apply Steady.upd; (case hl => (dsimp only; try exact rfl)); (case hw => (intro hm; first | exact rfl | cases hm)); (case hg => exact rfl); (case hs => exact rfl); first | with_reducible assumption | with_reducible apply st_irrev | with_reducible apply st_countBad | (refine st_modGroup_same ?_ _ _ (fun _ => rfl) (fun _ => rfl)) | (refine st_modGroup_same ?_ _ _ (fun _ => by dsimp only; (repeat' split) <;> rfl) (fun _ => by dsimp only; (repeat' split) <;> rfl)) | split))
theorem st_tilePlace {gg : Nat} {bb : State} (s : State) (a1 : Nat) (a2 : Byte) (a3 : Access) (a4 : Bool) (a5 : DWord) (a6 : Nat) (a7 : Option DWord) (h0 : Steady true gg bb s) :
    Steady true gg bb (State.tilePlace s a1 a2 a3 a4 a5 a6 a7).2 := by
  unfold State.tilePlace
  repeat' (first | with_reducible assumption | with_reducible apply st_reach | with_reducible apply st_translate | with_reducible apply st_foldl | with_reducible apply st_foldl2 | with_reducible apply st_foldl1 | with_reducible apply st_foldl22 | with_reducible apply st_optMap | dsimp only | intro _ | (split <;> (try (rename_i hq; have hq1 := congrArg Prod.snd hq; dsimp only at hq1; subst hq1))) | (apply Steady.upd; (case hl => (dsimp only; try exact rfl)); (case hw => (intro hm; first | exact rfl | cases hm)); (case hg => exact rfl); (case hs => exact rfl); first | with_reducible assumption | with_reducible apply st_reach | with_reducible apply st_translate | with_reducible apply st_foldl | with_reducible apply st_foldl2 | with_reducible apply st_foldl1 | with_reducible apply st_foldl22 | with_reducible apply st_optMap | split))
theorem st_tileReads {mm : Bool} {gg : Nat} {bb : State} (s : State) (a1 : Byte) (a2 : TilePlace) (a3 : Bool) (h0 : Steady mm gg bb s) :
    Steady mm gg bb (State.tileReads s a1 a2 a3) := by
  unfold State.tileReads
  repeat' (first | with_reducible assumption | with_reducible apply st_homeAccess | with_reducible apply st_foldl | with_reducible apply st_foldl2 | with_reducible apply st_foldl1 | with_reducible apply st_foldl22 | dsimp only | intro _ | split | (apply Steady.upd; (case hl => (dsimp only; try exact rfl)); (case hw => (intro hm; first | exact rfl | cases hm)); (case hg => exact rfl); (case hs => exact rfl); first | with_reducible assumption | with_reducible apply st_homeAccess | with_reducible apply st_foldl | with_reducible apply st_foldl2 | with_reducible apply st_foldl1 | with_reducible apply st_foldl22 | split))
theorem st_tileLoadOut {gg : Nat} {bb : State} (a0 : Bool) (a1 : Ex) (s : State) (h2 : Steady true gg bb s) :
    Steady true gg bb (tileLoadOut a0 a1 s) := by
  unfold tileLoadOut
  repeat' (first | with_reducible assumption | with_reducible apply st_tileReads | with_reducible apply st_tilePlace | with_reducible apply st_produce | with_reducible apply st_makePoison | with_reducible apply st_foldl | with_reducible apply st_foldl2 | with_reducible apply st_foldl1 | with_reducible apply st_foldl22 | dsimp only | intro _ | (split <;> (try (rename_i hq; have hq1 := congrArg Prod.snd hq; dsimp only at hq1; subst hq1))) | (apply Steady.upd; (case hl => (dsimp only; try exact rfl)); (case hw => (intro hm; first | exact rfl | cases hm)); (case hg => exact rfl); (case hs => exact rfl); first | with_reducible assumption | with_reducible apply st_tileReads | with_reducible apply st_tilePlace | with_reducible apply st_produce | with_reducible apply st_makePoison | with_reducible apply st_foldl | with_reducible apply st_foldl2 | with_reducible apply st_foldl1 | with_reducible apply st_foldl22 | split))
theorem st_tileEntry {gg : Nat} {bb : State} (s : State) (a1 : Ex) (a2 : Bool) (a3 : Bool) (a4 : DWord × Option Val) (a5 : DWord × Option Val) (a6 : Nat) (h0 : Steady true gg bb s) :
    Steady true gg bb (State.tileEntry s a1 a2 a3 a4 a5 a6).2 := by
  unfold State.tileEntry
  repeat' (first | with_reducible assumption | with_reducible apply st_tilePlace | dsimp only | intro _ | split | (apply Steady.upd; (case hl => (dsimp only; try exact rfl)); (case hw => (intro hm; first | exact rfl | cases hm)); (case hg => exact rfl); (case hs => exact rfl); first | with_reducible assumption | with_reducible apply st_tilePlace | split))
theorem st_tileEntries {gg : Nat} {bb : State} (a0 : Bool) (a1 : Bool) (a2 : Ex) (s : State) (h3 : Steady true gg bb s) :
    Steady true gg bb (tileEntries a0 a1 a2 s).2 := by
  unfold tileEntries
  repeat' (first | with_reducible assumption | with_reducible apply st_tileEntry | with_reducible apply st_foldl | with_reducible apply st_foldl2 | with_reducible apply st_foldl1 | with_reducible apply st_foldl22 | dsimp only | intro _ | (split <;> (try (rename_i hq; have hq1 := congrArg Prod.snd hq; dsimp only at hq1; subst hq1))) | (apply Steady.upd; (case hl => (dsimp only; try exact rfl)); (case hw => (intro hm; first | exact rfl | cases hm)); (case hg => exact rfl); (case hs => exact rfl); first | with_reducible assumption | with_reducible apply st_tileEntry | with_reducible apply st_foldl | with_reducible apply st_foldl2 | with_reducible apply st_foldl1 | with_reducible apply st_foldl22 | split))
theorem st_tileStoreOut {gg : Nat} {bb : State} (a0 : Bool) (a1 : Ex) (s : State) (h2 : Steady true gg bb s) :
    Steady true gg bb (tileStoreOut a0 a1 s) := by
  unfold tileStoreOut
  repeat' (first | with_reducible assumption | with_reducible apply st_tileEntries | with_reducible apply st_accStore | with_reducible apply st_tileStore | with_reducible apply st_countBad | with_reducible apply st_makePoison | with_reducible apply st_newId | (refine st_modFibre_same ?_ _ _ _ _ (fun _ => rfl)) | (refine st_modFibre_same ?_ _ _ _ _ (fun _ => by dsimp only; (repeat' split) <;> rfl)) | (refine st_modFibre_same ?_ _ _ _ _ (fun _ => ringPut_lanes ..)) | with_reducible apply st_foldl | with_reducible apply st_foldl2 | with_reducible apply st_foldl1 | with_reducible apply st_foldl22 | dsimp only | intro _ | (split <;> (try (rename_i hq; have hq1 := congrArg Prod.snd hq; dsimp only at hq1; subst hq1))) | (apply Steady.upd; (case hl => (dsimp only; try exact rfl)); (case hw => (intro hm; first | exact rfl | cases hm)); (case hg => exact rfl); (case hs => exact rfl); first | with_reducible assumption | with_reducible apply st_tileEntries | with_reducible apply st_accStore | with_reducible apply st_tileStore | with_reducible apply st_countBad | with_reducible apply st_makePoison | with_reducible apply st_newId | (refine st_modFibre_same ?_ _ _ _ _ (fun _ => rfl)) | (refine st_modFibre_same ?_ _ _ _ _ (fun _ => by dsimp only; (repeat' split) <;> rfl)) | (refine st_modFibre_same ?_ _ _ _ _ (fun _ => ringPut_lanes ..)) | with_reducible apply st_foldl | with_reducible apply st_foldl2 | with_reducible apply st_foldl1 | with_reducible apply st_foldl22 | split))

/-! Command -/

theorem st_descFound {mm : Bool} {gg : Nat} {bb : State} (s : State) (a1 : Nat) (a2 : Word) (a3 : Nat) (h0 : Steady mm gg bb s) :
    Steady mm gg bb (State.descFound s a1 a2 a3) := by
  unfold State.descFound
  repeat' (first | with_reducible assumption | with_reducible apply st_spFoundRun | dsimp only | intro _ | split | (apply Steady.upd; (case hl => (dsimp only; try exact rfl)); (case hw => (intro hm; first | exact rfl | cases hm)); (case hg => exact rfl); (case hs => exact rfl); first | with_reducible assumption | with_reducible apply st_spFoundRun | split))
theorem st_takeScore {mm : Bool} {gg : Nat} {bb : State} (s : State) (a1 : Nat) (a2 : Nat) (a3 : Byte) (a4 : Bool) (a5 : List (Range × Bool)) (h0 : Steady mm gg bb s) :
    Steady mm gg bb (State.takeScore s a1 a2 a3 a4 a5) := by
  unfold State.takeScore
  repeat' (first | with_reducible assumption | with_reducible apply st_modCore | dsimp only | intro _ | split | (apply Steady.upd; (case hl => (dsimp only; try exact rfl)); (case hw => (intro hm; first | exact rfl | cases hm)); (case hg => exact rfl); (case hs => exact rfl); first | with_reducible assumption | with_reducible apply st_modCore | split))
theorem st_takeTag {mm : Bool} {gg : Nat} {bb : State} (s : State) (a1 : Nat) (h0 : Steady mm gg bb s) :
    Steady mm gg bb (State.takeTag s a1).2 := by
  unfold State.takeTag
  repeat' (first | with_reducible assumption | (refine st_modGroup_same ?_ _ _ (fun _ => rfl) (fun _ => rfl)) | (refine st_modGroup_same ?_ _ _ (fun _ => by dsimp only; (repeat' split) <;> rfl) (fun _ => by dsimp only; (repeat' split) <;> rfl)) | dsimp only | intro _ | split | (apply Steady.upd; (case hl => (dsimp only; try exact rfl)); (case hw => (intro hm; first | exact rfl | cases hm)); (case hg => exact rfl); (case hs => exact rfl); first | with_reducible assumption | (refine st_modGroup_same ?_ _ _ (fun _ => rfl) (fun _ => rfl)) | (refine st_modGroup_same ?_ _ _ (fun _ => by dsimp only; (repeat' split) <;> rfl) (fun _ => by dsimp only; (repeat' split) <;> rfl)) | split))
theorem st_acceptCmd {mm : Bool} {gg : Nat} {bb : State} (s : State) (a1 : Ex) (a2 : Nat) (a3 : List Byte) (a4 : Option Nat) (a5 : Bool) (a6 : Check) (a7 : List (Range × Bool)) (h0 : Steady mm gg bb s) :
    Steady mm gg bb (State.acceptCmd s a1 a2 a3 a4 a5 a6 a7).2 := by
  unfold State.acceptCmd
  repeat' (first | with_reducible assumption | with_reducible apply st_takeTag | with_reducible apply st_takeScore | with_reducible apply st_countBad | with_reducible apply st_newId | dsimp only | intro _ | (split <;> (try (rename_i hq; have hq1 := congrArg Prod.snd hq; dsimp only at hq1; subst hq1))) | (apply Steady.upd; (case hl => (dsimp only; try exact rfl)); (case hw => (intro hm; first | exact rfl | cases hm)); (case hg => exact rfl); (case hs => exact rfl); first | with_reducible assumption | with_reducible apply st_takeTag | with_reducible apply st_takeScore | with_reducible apply st_countBad | with_reducible apply st_newId | split))

/-! Matrix -/

theorem st_modSeq {mm : Bool} {gg : Nat} {bb : State} (s : State) (a1 : Nat) (a2 : Seq → Seq) (h0 : Steady mm gg bb s) :
    Steady mm gg bb (State.modSeq s a1 a2) := by
  unfold State.modSeq
  repeat' (first | with_reducible assumption | (refine st_modGroup_same ?_ _ _ (fun _ => rfl) (fun _ => rfl)) | (refine st_modGroup_same ?_ _ _ (fun _ => by dsimp only; (repeat' split) <;> rfl) (fun _ => by dsimp only; (repeat' split) <;> rfl)) | dsimp only | intro _ | split | (apply Steady.upd; (case hl => (dsimp only; try exact rfl)); (case hw => (intro hm; first | exact rfl | cases hm)); (case hg => exact rfl); (case hs => exact rfl); first | with_reducible assumption | (refine st_modGroup_same ?_ _ _ (fun _ => rfl) (fun _ => rfl)) | (refine st_modGroup_same ?_ _ _ (fun _ => by dsimp only; (repeat' split) <;> rfl) (fun _ => by dsimp only; (repeat' split) <;> rfl)) | split))
theorem st_bldFill {gg : Nat} {bb : State} (s : State) (a1 : Nat) (a2 : Seq) (a3 : List Byte) (a4 : Word) (h0 : Steady true gg bb s) :
    Steady true gg bb (State.bldFill s a1 a2 a3 a4).2 := by
  unfold State.bldFill
  repeat' (first | with_reducible assumption | with_reducible apply st_tileReads | with_reducible apply st_tilePlace | with_reducible apply st_makePoison | with_reducible apply st_foldl | with_reducible apply st_foldl2 | with_reducible apply st_foldl1 | with_reducible apply st_foldl22 | dsimp only | intro _ | (split <;> (try (rename_i hq; have hq1 := congrArg Prod.snd hq; dsimp only at hq1; subst hq1))) | (apply Steady.upd; (case hl => (dsimp only; try exact rfl)); (case hw => (intro hm; first | exact rfl | cases hm)); (case hg => exact rfl); (case hs => exact rfl); first | with_reducible assumption | with_reducible apply st_tileReads | with_reducible apply st_tilePlace | with_reducible apply st_makePoison | with_reducible apply st_foldl | with_reducible apply st_foldl2 | with_reducible apply st_foldl1 | with_reducible apply st_foldl22 | split))
theorem st_bldOut {gg : Nat} {bb : State} (s : State) (a1 : Nat) (a2 : SFields) (h0 : Steady true gg bb s) :
    Steady true gg bb (State.bldOut s a1 a2) := by
  unfold State.bldOut
  repeat' (first | with_reducible assumption | with_reducible apply st_bldFill | with_reducible apply st_modSeq | dsimp only | intro _ | split | (apply Steady.upd; (case hl => (dsimp only; try exact rfl)); (case hw => (intro hm; first | exact rfl | cases hm)); (case hg => exact rfl); (case hs => exact rfl); first | with_reducible assumption | with_reducible apply st_bldFill | with_reducible apply st_modSeq | split))
theorem st_sqlpOut {mm : Bool} {gg : Nat} {bb : State} (s : State) (a1 : Nat) (a2 : SFields) (h0 : Steady mm gg bb s) :
    Steady mm gg bb (State.sqlpOut s a1 a2) := by
  unfold State.sqlpOut
  repeat' (first | with_reducible assumption | with_reducible apply st_modSeq | dsimp only | intro _ | split | (apply Steady.upd; (case hl => (dsimp only; try exact rfl)); (case hw => (intro hm; first | exact rfl | cases hm)); (case hg => exact rfl); (case hs => exact rfl); first | with_reducible assumption | with_reducible apply st_modSeq | split))
theorem st_mseqOut {mm : Bool} {gg : Nat} {bb : State} (a0 : Ex) (s : State) (h1 : Steady mm gg bb s) :
    Steady mm gg bb (mseqOut a0 s) := by
  unfold mseqOut
  repeat' (first | with_reducible assumption | with_reducible apply st_modSeq | with_reducible apply st_onceWrite | with_reducible apply st_irrev | dsimp only | intro _ | (split <;> (try (rename_i hq; have hq1 := congrArg Prod.snd hq; dsimp only at hq1; subst hq1))) | (apply Steady.upd; (case hl => (dsimp only; try exact rfl)); (case hw => (intro hm; first | exact rfl | cases hm)); (case hg => exact rfl); (case hs => exact rfl); first | with_reducible assumption | with_reducible apply st_modSeq | with_reducible apply st_onceWrite | with_reducible apply st_irrev | split))
theorem st_oprfOut {mm : Bool} {gg : Nat} {bb : State} (a0 : Ex) (s : State) (h1 : Steady mm gg bb s) :
    Steady mm gg bb (oprfOut a0 s) := by
  unfold oprfOut
  repeat' (first | with_reducible assumption | (refine st_modFibre_same ?_ _ _ _ _ (fun _ => rfl)) | (refine st_modFibre_same ?_ _ _ _ _ (fun _ => by dsimp only; (repeat' split) <;> rfl)) | (refine st_modFibre_same ?_ _ _ _ _ (fun _ => ringPut_lanes ..)) | dsimp only | intro _ | split | (apply Steady.upd; (case hl => (dsimp only; try exact rfl)); (case hw => (intro hm; first | exact rfl | cases hm)); (case hg => exact rfl); (case hs => exact rfl); first | with_reducible assumption | (refine st_modFibre_same ?_ _ _ _ _ (fun _ => rfl)) | (refine st_modFibre_same ?_ _ _ _ _ (fun _ => by dsimp only; (repeat' split) <;> rfl)) | (refine st_modFibre_same ?_ _ _ _ _ (fun _ => ringPut_lanes ..)) | split))
theorem st_mstqOut {mm : Bool} {gg : Nat} {bb : State} (a0 : Ex) (s : State) (h1 : Steady mm gg bb s) :
    Steady mm gg bb (mstqOut a0 s) := by
  unfold mstqOut
  repeat' (first | with_reducible assumption | with_reducible apply st_modSeq | with_reducible apply st_onceWrite | with_reducible apply st_flagEx | dsimp only | intro _ | (split <;> (try (rename_i hq; have hq1 := congrArg Prod.snd hq; dsimp only at hq1; subst hq1))) | (apply Steady.upd; (case hl => (dsimp only; try exact rfl)); (case hw => (intro hm; first | exact rfl | cases hm)); (case hg => exact rfl); (case hs => exact rfl); first | with_reducible assumption | with_reducible apply st_modSeq | with_reducible apply st_onceWrite | with_reducible apply st_flagEx | split))

/-! Engines -/

theorem st_orderOut {mm : Bool} {gg : Nat} {bb : State} (a0 : Order) (a1 : Ex) (s : State) (h2 : Steady mm gg bb s) :
    Steady mm gg bb (orderOut a0 a1 s) := by
  unfold orderOut
  repeat' (first | with_reducible assumption | with_reducible apply st_acceptCmd | with_reducible apply st_onceWrite | with_reducible apply st_irrev | dsimp only | intro _ | split | (apply Steady.upd; (case hl => (dsimp only; try exact rfl)); (case hw => (intro hm; first | exact rfl | cases hm)); (case hg => exact rfl); (case hs => exact rfl); first | with_reducible assumption | with_reducible apply st_acceptCmd | with_reducible apply st_onceWrite | with_reducible apply st_irrev | split))
theorem st_descSeen {mm : Bool} {gg : Nat} {bb : State} (a0 : Ex) (a1 : Val) (a2 : Nat) (s : State) (h3 : Steady mm gg bb s) :
    Steady mm gg bb (descSeen a0 a1 a2 s) := by
  unfold descSeen
  repeat' (first | with_reducible assumption | with_reducible apply st_descFound | dsimp only | intro _ | split | (apply Steady.upd; (case hl => (dsimp only; try exact rfl)); (case hw => (intro hm; first | exact rfl | cases hm)); (case hg => exact rfl); (case hs => exact rfl); first | with_reducible assumption | with_reducible apply st_descFound | split))
theorem st_countOnce {mm : Bool} {gg : Nat} {bb : State} (s : State) (a1 : Ex) (a2 : Val) (h0 : Steady mm gg bb s) :
    Steady mm gg bb (State.countOnce s a1 a2) := by
  unfold State.countOnce
  repeat' (first | with_reducible assumption | with_reducible apply st_countBad | dsimp only | intro _ | split | (apply Steady.upd; (case hl => (dsimp only; try exact rfl)); (case hw => (intro hm; first | exact rfl | cases hm)); (case hg => exact rfl); (case hs => exact rfl); first | with_reducible assumption | with_reducible apply st_countBad | split))
theorem st_apstOut {mm : Bool} {gg : Nat} {bb : State} (a0 : Ex) (s : State) (h1 : Steady mm gg bb s) :
    Steady mm gg bb (apstOut a0 s) := by
  unfold apstOut
  repeat' (first | with_reducible assumption | with_reducible apply st_countOnce | with_reducible apply st_modAp | with_reducible apply st_makePoison | dsimp only | intro _ | (split <;> (try (rename_i hq; have hq1 := congrArg Prod.snd hq; dsimp only at hq1; subst hq1))) | (apply Steady.upd; (case hl => (dsimp only; try exact rfl)); (case hw => (intro hm; first | exact rfl | cases hm)); (case hg => exact rfl); (case hs => exact rfl); first | with_reducible assumption | with_reducible apply st_countOnce | with_reducible apply st_modAp | with_reducible apply st_makePoison | split))
theorem st_apstGoOut {mm : Bool} {gg : Nat} {bb : State} (a0 : Ex) (s : State) (h1 : Steady mm gg bb s) :
    Steady mm gg bb (apstGoOut a0 s) := by
  unfold apstGoOut
  repeat' (first | with_reducible assumption | with_reducible apply st_countOnce | with_reducible apply st_irrev | with_reducible apply st_modAp | dsimp only | intro _ | split | (apply Steady.upd; (case hl => (dsimp only; try exact rfl)); (case hw => (intro hm; first | exact rfl | cases hm)); (case hg => exact rfl); (case hs => exact rfl); first | with_reducible assumption | with_reducible apply st_countOnce | with_reducible apply st_irrev | with_reducible apply st_modAp | split))
theorem st_apspOut {mm : Bool} {gg : Nat} {bb : State} (a0 : Ex) (s : State) (h1 : Steady mm gg bb s) :
    Steady mm gg bb (apspOut a0 s) := by
  unfold apspOut
  repeat' (first | with_reducible assumption | with_reducible apply st_countOnce | with_reducible apply st_modAp | dsimp only | intro _ | split | (apply Steady.upd; (case hl => (dsimp only; try exact rfl)); (case hw => (intro hm; first | exact rfl | cases hm)); (case hg => exact rfl); (case hs => exact rfl); first | with_reducible assumption | with_reducible apply st_countOnce | with_reducible apply st_modAp | split))
theorem st_qmapOut {mm : Bool} {gg : Nat} {bb : State} (a0 : Ex) (s : State) (h1 : Steady mm gg bb s) :
    Steady mm gg bb (qmapOut a0 s) := by
  unfold qmapOut
  repeat' (first | with_reducible assumption | (refine st_modFibre_same ?_ _ _ _ _ (fun _ => rfl)) | (refine st_modFibre_same ?_ _ _ _ _ (fun _ => by dsimp only; (repeat' split) <;> rfl)) | (refine st_modFibre_same ?_ _ _ _ _ (fun _ => ringPut_lanes ..)) | dsimp only | intro _ | split | (apply Steady.upd; (case hl => (dsimp only; try exact rfl)); (case hw => (intro hm; first | exact rfl | cases hm)); (case hg => exact rfl); (case hs => exact rfl); first | with_reducible assumption | (refine st_modFibre_same ?_ _ _ _ _ (fun _ => rfl)) | (refine st_modFibre_same ?_ _ _ _ _ (fun _ => by dsimp only; (repeat' split) <;> rfl)) | (refine st_modFibre_same ?_ _ _ _ _ (fun _ => ringPut_lanes ..)) | split))

/-! Service -/

theorem st_mgmtReport {mm : Bool} {gg : Nat} {bb : State} (s : State) (a1 : List Nat) (h0 : Steady mm gg bb s) :
    Steady mm gg bb (State.mgmtReport s a1) := by
  unfold State.mgmtReport
  repeat' (first | with_reducible assumption | dsimp only | intro _ | split | (apply Steady.upd; (case hl => (dsimp only; try exact rfl)); (case hw => (intro hm; first | exact rfl | cases hm)); (case hg => exact rfl); (case hs => exact rfl); first | with_reducible assumption | split))
theorem st_mgmtEvent {mm : Bool} {gg : Nat} {bb : State} (s : State) (h0 : Steady mm gg bb s) :
    Steady mm gg bb (State.mgmtEvent s) := by
  unfold State.mgmtEvent
  repeat' (first | with_reducible assumption | with_reducible apply st_mgmtReport | dsimp only | intro _ | split | (apply Steady.upd; (case hl => (dsimp only; try exact rfl)); (case hw => (intro hm; first | exact rfl | cases hm)); (case hg => exact rfl); (case hs => exact rfl); first | with_reducible assumption | with_reducible apply st_mgmtReport | split))
theorem st_syscSeen {mm : Bool} {gg : Nat} {bb : State} (s : State) (a1 : Ex) (a2 : Val) (h0 : Steady mm gg bb s) :
    Steady mm gg bb (State.syscSeen s a1 a2) := by
  unfold State.syscSeen
  repeat' (first | with_reducible assumption | with_reducible apply st_descFound | dsimp only | intro _ | split | (apply Steady.upd; (case hl => (dsimp only; try exact rfl)); (case hw => (intro hm; first | exact rfl | cases hm)); (case hg => exact rfl); (case hs => exact rfl); first | with_reducible assumption | with_reducible apply st_descFound | split))
theorem st_syscOut {mm : Bool} {gg : Nat} {bb : State} (a0 : Sysc) (a1 : Word) (a2 : Ex) (s : State) (h3 : Steady mm gg bb s) :
    Steady mm gg bb (syscOut a0 a1 a2 s) := by
  unfold syscOut
  repeat' (first | with_reducible assumption | with_reducible apply st_onceWrite | with_reducible apply st_addFence | dsimp only | intro _ | split | (apply Steady.upd; (case hl => (dsimp only; try exact rfl)); (case hw => (intro hm; first | exact rfl | cases hm)); (case hg => exact rfl); (case hs => exact rfl); first | with_reducible assumption | with_reducible apply st_onceWrite | with_reducible apply st_addFence | split))
theorem st_tlbFilter {mm : Bool} {gg : Nat} {bb : State} (s : State) (a1 : TlbEntry → Bool) (h0 : Steady mm gg bb s) :
    Steady mm gg bb (State.tlbFilter s a1) := by
  unfold State.tlbFilter
  repeat' (first | with_reducible assumption | dsimp only | intro _ | split | (apply Steady.upd; (case hl => (dsimp only; try exact rfl)); (case hw => (intro hm; first | exact rfl | cases hm)); (case hg => exact rfl); (case hs => exact rfl); first | with_reducible assumption | split))
theorem st_tlbDrop {mm : Bool} {gg : Nat} {bb : State} (s : State) (a1 : Byte) (a2 : Nat) (a3 : Nat) (h0 : Steady mm gg bb s) :
    Steady mm gg bb (State.tlbDrop s a1 a2 a3) := by
  unfold State.tlbDrop
  repeat' (first | with_reducible assumption | with_reducible apply st_tlbFilter | dsimp only | intro _ | split | (apply Steady.upd; (case hl => (dsimp only; try exact rfl)); (case hw => (intro hm; first | exact rfl | cases hm)); (case hg => exact rfl); (case hs => exact rfl); first | with_reducible assumption | with_reducible apply st_tlbFilter | split))
theorem st_perfTick {mm : Bool} {gg : Nat} {bb : State} (s : State) (a1 : Nat) (a2 : Nat) (h0 : Steady mm gg bb s) :
    Steady mm gg bb (State.perfTick s a1 a2) := by
  unfold State.perfTick
  repeat' (first | with_reducible assumption | with_reducible apply st_tick | with_reducible apply st_fresh | with_reducible apply st_modCore | dsimp only | intro _ | (split <;> (try (rename_i hq; have hq1 := congrArg Prod.snd hq; dsimp only at hq1; subst hq1))) | (apply Steady.upd; (case hl => (dsimp only; try exact rfl)); (case hw => (intro hm; first | exact rfl | cases hm)); (case hg => exact rfl); (case hs => exact rfl); first | with_reducible assumption | with_reducible apply st_tick | with_reducible apply st_fresh | with_reducible apply st_modCore | split))
theorem st_perfOut {mm : Bool} {gg : Nat} {bb : State} (a0 : Ex) (s : State) (h1 : Steady mm gg bb s) :
    Steady mm gg bb (perfOut a0 s) := by
  unfold perfOut
  repeat' (first | with_reducible assumption | with_reducible apply st_perfTick | with_reducible apply st_writeDst | with_reducible apply st_foldl | with_reducible apply st_foldl2 | with_reducible apply st_foldl1 | with_reducible apply st_foldl22 | dsimp only | intro _ | (split <;> (try (rename_i hq; have hq1 := congrArg Prod.snd hq; dsimp only at hq1; subst hq1))) | (apply Steady.upd; (case hl => (dsimp only; try exact rfl)); (case hw => (intro hm; first | exact rfl | cases hm)); (case hg => exact rfl); (case hs => exact rfl); first | with_reducible assumption | with_reducible apply st_perfTick | with_reducible apply st_writeDst | with_reducible apply st_foldl | with_reducible apply st_foldl2 | with_reducible apply st_foldl1 | with_reducible apply st_foldl22 | split))

/-! Transport -/

theorem st_xSeen {mm : Bool} {gg : Nat} {bb : State} (a0 : Ex) (s : State) (h1 : Steady mm gg bb s) :
    Steady mm gg bb (xSeen a0 s) := by
  unfold xSeen
  repeat' (first | with_reducible assumption | with_reducible apply st_descSeen | dsimp only | intro _ | split | (apply Steady.upd; (case hl => (dsimp only; try exact rfl)); (case hw => (intro hm; first | exact rfl | cases hm)); (case hg => exact rfl); (case hs => exact rfl); first | with_reducible assumption | with_reducible apply st_descSeen | split))
theorem st_xcmdOut {mm : Bool} {gg : Nat} {bb : State} (a0 : Nat) (a1 : XKind) (a2 : Ex) (s : State) (h3 : Steady mm gg bb s) :
    Steady mm gg bb (xcmdOut a0 a1 a2 s) := by
  unfold xcmdOut
  repeat' (first | with_reducible assumption | with_reducible apply st_takeTag | with_reducible apply st_takeScore | with_reducible apply st_onceWrite | with_reducible apply st_irrev | with_reducible apply st_newId | dsimp only | intro _ | (split <;> (try (rename_i hq; have hq1 := congrArg Prod.snd hq; dsimp only at hq1; subst hq1))) | (apply Steady.upd; (case hl => (dsimp only; try exact rfl)); (case hw => (intro hm; first | exact rfl | cases hm)); (case hg => exact rfl); (case hs => exact rfl); first | with_reducible assumption | with_reducible apply st_takeTag | with_reducible apply st_takeScore | with_reducible apply st_onceWrite | with_reducible apply st_irrev | with_reducible apply st_newId | split))
theorem st_xrdVOut {mm : Bool} {gg : Nat} {bb : State} (a0 : Ex) (s : State) (h1 : Steady mm gg bb s) :
    Steady mm gg bb (xrdVOut a0 s) := by
  unfold xrdVOut
  repeat' (first | with_reducible assumption | with_reducible apply st_irrev | with_reducible apply st_produce | with_reducible apply st_makePoison | with_reducible apply st_newId | with_reducible apply st_foldl | with_reducible apply st_foldl2 | with_reducible apply st_foldl1 | with_reducible apply st_foldl22 | with_reducible apply st_foldlX | with_reducible apply st_foldl2X | dsimp only | intro _ | (split <;> (try (rename_i hq; have hq1 := congrArg Prod.snd hq; dsimp only at hq1; subst hq1))) | (apply Steady.upd; (case hl => (dsimp only; try exact rfl)); (case hw => (intro hm; first | exact rfl | cases hm)); (case hg => exact rfl); (case hs => exact rfl); first | with_reducible assumption | with_reducible apply st_irrev | with_reducible apply st_produce | with_reducible apply st_makePoison | with_reducible apply st_newId | with_reducible apply st_foldl | with_reducible apply st_foldl2 | with_reducible apply st_foldl1 | with_reducible apply st_foldl22 | with_reducible apply st_foldlX | with_reducible apply st_foldl2X | split))
theorem st_cngWord {mm : Bool} {gg : Nat} {bb : State} (s : State) (a1 : Byte) (a2 : Nat) (a3 : Nat) (h0 : Steady mm gg bb s) :
    Steady mm gg bb (State.cngWord s a1 a2 a3).2 := by
  unfold State.cngWord
  repeat' (first | with_reducible assumption | with_reducible apply st_freeWord | dsimp only | intro _ | (split <;> (try (rename_i hq; have hq1 := congrArg Prod.snd hq; dsimp only at hq1; subst hq1))) | (apply Steady.upd; (case hl => (dsimp only; try exact rfl)); (case hw => (intro hm; first | exact rfl | cases hm)); (case hg => exact rfl); (case hs => exact rfl); first | with_reducible assumption | with_reducible apply st_freeWord | split))
theorem st_cngVal {mm : Bool} {gg : Nat} {bb : State} (s : State) (a1 : Ex) (a2 : Nat) (h0 : Steady mm gg bb s) :
    Steady mm gg bb (State.cngVal s a1 a2).2 := by
  unfold State.cngVal
  repeat' (first | with_reducible assumption | with_reducible apply st_cngWord | dsimp only | intro _ | (split <;> (try (rename_i hq; have hq1 := congrArg Prod.snd hq; dsimp only at hq1; subst hq1))) | (apply Steady.upd; (case hl => (dsimp only; try exact rfl)); (case hw => (intro hm; first | exact rfl | cases hm)); (case hg => exact rfl); (case hs => exact rfl); first | with_reducible assumption | with_reducible apply st_cngWord | split))
theorem st_xcngOut {mm : Bool} {gg : Nat} {bb : State} (a0 : Ex) (s : State) (h1 : Steady mm gg bb s) :
    Steady mm gg bb (xcngOut a0 s) := by
  unfold xcngOut
  repeat' (first | with_reducible assumption | with_reducible apply st_cngVal | with_reducible apply st_irrev | with_reducible apply st_produce | with_reducible apply st_makePoison | with_reducible apply st_foldl | with_reducible apply st_foldl2 | with_reducible apply st_foldl1 | with_reducible apply st_foldl22 | with_reducible apply st_foldlX | with_reducible apply st_foldl2X | dsimp only | intro _ | (split <;> (try (rename_i hq; have hq1 := congrArg Prod.snd hq; dsimp only at hq1; subst hq1))) | (apply Steady.upd; (case hl => (dsimp only; try exact rfl)); (case hw => (intro hm; first | exact rfl | cases hm)); (case hg => exact rfl); (case hs => exact rfl); first | with_reducible assumption | with_reducible apply st_cngVal | with_reducible apply st_irrev | with_reducible apply st_produce | with_reducible apply st_makePoison | with_reducible apply st_foldl | with_reducible apply st_foldl2 | with_reducible apply st_foldl1 | with_reducible apply st_foldl22 | with_reducible apply st_foldlX | with_reducible apply st_foldl2X | split))
theorem st_xfenOut {mm : Bool} {gg : Nat} {bb : State} (a0 : Ex) (s : State) (h1 : Steady mm gg bb s) :
    Steady mm gg bb (xfenOut a0 s) := by
  unfold xfenOut
  repeat' (first | with_reducible assumption | with_reducible apply st_irrev | with_reducible apply st_addFence | (refine st_modFibre_same ?_ _ _ _ _ (fun _ => rfl)) | (refine st_modFibre_same ?_ _ _ _ _ (fun _ => by dsimp only; (repeat' split) <;> rfl)) | (refine st_modFibre_same ?_ _ _ _ _ (fun _ => ringPut_lanes ..)) | dsimp only | intro _ | split | (apply Steady.upd; (case hl => (dsimp only; try exact rfl)); (case hw => (intro hm; first | exact rfl | cases hm)); (case hg => exact rfl); (case hs => exact rfl); first | with_reducible assumption | with_reducible apply st_irrev | with_reducible apply st_addFence | (refine st_modFibre_same ?_ _ _ _ _ (fun _ => rfl)) | (refine st_modFibre_same ?_ _ _ _ _ (fun _ => by dsimp only; (repeat' split) <;> rfl)) | (refine st_modFibre_same ?_ _ _ _ _ (fun _ => ringPut_lanes ..)) | split))

/-! Preempt -/

theorem st_areaWrite {mm : Bool} {gg : Nat} {bb : State} (s : State) (a1 : Byte) (a2 : Nat) (a3 : List Byte) (h0 : Steady mm gg bb s) :
    Steady mm gg bb (State.areaWrite s a1 a2 a3) := by
  unfold State.areaWrite
  repeat' (first | with_reducible assumption | with_reducible apply st_putBytes | dsimp only | intro _ | split | (apply Steady.upd; (case hl => (dsimp only; try exact rfl)); (case hw => (intro hm; first | exact rfl | cases hm)); (case hg => exact rfl); (case hs => exact rfl); first | with_reducible assumption | with_reducible apply st_putBytes | split))

/-! Commit -/

theorem st_rgnoOut {mm : Bool} {gg : Nat} {bb : State} (a0 : Ex) (s : State) (h1 : Steady mm gg bb s) :
    Steady mm gg bb (rgnoOut a0 s) := by
  unfold rgnoOut
  repeat' (first | with_reducible assumption | (refine st_modFibre_same ?_ _ _ _ _ (fun _ => rfl)) | (refine st_modFibre_same ?_ _ _ _ _ (fun _ => by dsimp only; (repeat' split) <;> rfl)) | (refine st_modFibre_same ?_ _ _ _ _ (fun _ => ringPut_lanes ..)) | dsimp only | intro _ | split | (apply Steady.upd; (case hl => (dsimp only; try exact rfl)); (case hw => (intro hm; first | exact rfl | cases hm)); (case hg => exact rfl); (case hs => exact rfl); first | with_reducible assumption | (refine st_modFibre_same ?_ _ _ _ _ (fun _ => rfl)) | (refine st_modFibre_same ?_ _ _ _ _ (fun _ => by dsimp only; (repeat' split) <;> rfl)) | (refine st_modFibre_same ?_ _ _ _ _ (fun _ => ringPut_lanes ..)) | split))
theorem st_cmtRelease {mm : Bool} {gg : Nat} {bb : State} (a0 : Ex) (s : State) (h1 : Steady mm gg bb s) :
    Steady mm gg bb (cmtRelease a0 s) := by
  unfold cmtRelease
  repeat' (first | with_reducible assumption | with_reducible apply st_releaseMore | dsimp only | intro _ | split | (apply Steady.upd; (case hl => (dsimp only; try exact rfl)); (case hw => (intro hm; first | exact rfl | cases hm)); (case hg => exact rfl); (case hs => exact rfl); first | with_reducible assumption | with_reducible apply st_releaseMore | split))
theorem active_mapIdx (ls : List Lane) (k : Nat → Lane → Lane) (hk : ∀ i x, x.st = .active → (k i x).st = .active) (l : Nat)
    (h : (ls.getD l {}).st = .active) : ((ls.mapIdx k).getD l {}).st = .active := by
  simp only [List.getD_eq_getElem?_getD, List.getElem?_mapIdx] at *
  cases hl : ls[l]? with
  | none => rw [hl] at h; cases h
  | some x => rw [hl] at h; exact hk l x h
theorem st_cmtOut {mm : Bool} {gg : Nat} {bb : State} (x : Ex) (s : State) (h0 : Steady mm gg bb s) : Steady mm gg bb (cmtOut x s) := by
  have hl : ∀ (y : Fibre) (m : Word) (pc : DWord) (l : Nat), (y.lanes.getD l {}).st = .active →
      ((restartLanes y m pc).lanes.getD l {}).st = .active := by
    intro y m pc l h
    refine active_mapIdx y.lanes _ (fun i z hz => ?_) l h
    split
    · rfl
    · exact hz
  unfold cmtOut
  extract_lets t
  split
  · exact st_clearRing _ _ _ _ (st_modFibre_same (st_releaseMore _ _ _ _ _ h0) _ _ _ _ (fun _ => rfl))
  · split
    · exact h0.trans (steady_modFibre gg s _ _ _ _ (fun y l h => hl y _ _ l h))
    · exact st_clearRing _ _ _ _ (h0.trans (steady_modFibre gg s _ _ _ _ (fun y l h => hl (closeRegion y) _ _ l h)))
theorem st_cmtView {mm : Bool} {gg : Nat} {bb : State} (x : Ex) (s : State) (h0 : Steady mm gg bb s) : Steady mm gg bb (cmtView x s) := by
  unfold cmtView
  split
  · exact st_clearRing _ _ _ _ h0
  · exact h0
theorem st_pchkOut {mm : Bool} {gg : Nat} {bb : State} (a0 : Ex) (s : State) (h1 : Steady mm gg bb s) :
    Steady mm gg bb (pchkOut a0 s) := by
  unfold pchkOut
  repeat' (first | with_reducible assumption | with_reducible apply st_popQueues | with_reducible apply st_writePreds | with_reducible apply st_writeDst | with_reducible apply st_makePoison | dsimp only | intro _ | (split <;> (try (rename_i hq; have hq1 := congrArg Prod.snd hq; dsimp only at hq1; subst hq1))) | (apply Steady.upd; (case hl => (dsimp only; try exact rfl)); (case hw => (intro hm; first | exact rfl | cases hm)); (case hg => exact rfl); (case hs => exact rfl); first | with_reducible assumption | with_reducible apply st_popQueues | with_reducible apply st_writePreds | with_reducible apply st_writeDst | with_reducible apply st_makePoison | split))
theorem st_psetOut {mm : Bool} {gg : Nat} {bb : State} (a0 : Ex) (s : State) (h1 : Steady mm gg bb s) :
    Steady mm gg bb (psetOut a0 s) := by
  unfold psetOut
  repeat' (first | with_reducible assumption | with_reducible apply st_tileWrite | with_reducible apply st_writeDst | dsimp only | intro _ | split | (apply Steady.upd; (case hl => (dsimp only; try exact rfl)); (case hw => (intro hm; first | exact rfl | cases hm)); (case hg => exact rfl); (case hs => exact rfl); first | with_reducible assumption | with_reducible apply st_tileWrite | with_reducible apply st_writeDst | split))
theorem st_cartOut {mm : Bool} {gg : Nat} {bb : State} (a0 : Ex) (s : State) (h1 : Steady mm gg bb s) :
    Steady mm gg bb (cartOut a0 s) := by
  unfold cartOut
  repeat' (first | with_reducible assumption | with_reducible apply st_clearRing | with_reducible apply st_writeDst | with_reducible apply st_optMap | dsimp only | intro _ | split | (apply Steady.upd; (case hl => (dsimp only; try exact rfl)); (case hw => (intro hm; first | exact rfl | cases hm)); (case hg => exact rfl); (case hs => exact rfl); first | with_reducible assumption | with_reducible apply st_clearRing | with_reducible apply st_writeDst | with_reducible apply st_optMap | split))

/-! Events -/

theorem st_setEntry {mm : Bool} {gg : Nat} {bb : State} (s : State) (a1 : Byte) (a2 : Nat) (a3 : Nat) (h0 : Steady mm gg bb s) :
    Steady mm gg bb (State.setEntry s a1 a2 a3) := by
  unfold State.setEntry
  repeat' (first | with_reducible assumption | with_reducible apply st_engineWrite | dsimp only | intro _ | split | (apply Steady.upd; (case hl => (dsimp only; try exact rfl)); (case hw => (intro hm; first | exact rfl | cases hm)); (case hg => exact rfl); (case hs => exact rfl); first | with_reducible assumption | with_reducible apply st_engineWrite | split))
theorem st_clearRange {mm : Bool} {gg : Nat} {bb : State} (s : State) (a1 : Nat) (a2 : Nat) (h0 : Steady mm gg bb s) :
    Steady mm gg bb (State.clearRange s a1 a2) := by
  unfold State.clearRange
  repeat' (first | with_reducible assumption | dsimp only | intro _ | split | (apply Steady.upd; (case hl => (dsimp only; try exact rfl)); (case hw => (intro hm; first | exact rfl | cases hm)); (case hg => exact rfl); (case hs => exact rfl); first | with_reducible assumption | split))

/-! Lanes -/

theorem st_copyLane {mm : Bool} {gg : Nat} {bb : State} (a0 : Nat) (a1 : Ex) (s : State) (h2 : Steady mm gg bb s) :
    Steady mm gg bb (copyLane a0 a1 s) := by
  unfold copyLane
  repeat' (first | with_reducible assumption | with_reducible apply st_writeDst | dsimp only | intro _ | split | (apply Steady.upd; (case hl => (dsimp only; try exact rfl)); (case hw => (intro hm; first | exact rfl | cases hm)); (case hg => exact rfl); (case hs => exact rfl); first | with_reducible assumption | with_reducible apply st_writeDst | split))
theorem st_vtosOut {mm : Bool} {gg : Nat} {bb : State} (a0 : Ex) (s : State) (h1 : Steady mm gg bb s) :
    Steady mm gg bb (vtosOut a0 s) := by
  unfold vtosOut
  repeat' (first | with_reducible assumption | with_reducible apply st_copyLane | with_reducible apply st_writeDst | dsimp only | intro _ | split | (apply Steady.upd; (case hl => (dsimp only; try exact rfl)); (case hw => (intro hm; first | exact rfl | cases hm)); (case hg => exact rfl); (case hs => exact rfl); first | with_reducible assumption | with_reducible apply st_copyLane | with_reducible apply st_writeDst | split))
theorem st_viewOut {mm : Bool} {gg : Nat} {bb : State} (a0 : Ex) (s : State) (h1 : Steady mm gg bb s) :
    Steady mm gg bb (viewOut a0 s) := by
  unfold viewOut
  repeat' (first | with_reducible assumption | with_reducible apply st_countBad | (refine st_modFibre_same ?_ _ _ _ _ (fun _ => rfl)) | (refine st_modFibre_same ?_ _ _ _ _ (fun _ => by dsimp only; (repeat' split) <;> rfl)) | (refine st_modFibre_same ?_ _ _ _ _ (fun _ => ringPut_lanes ..)) | dsimp only | intro _ | split | (apply Steady.upd; (case hl => (dsimp only; try exact rfl)); (case hw => (intro hm; first | exact rfl | cases hm)); (case hg => exact rfl); (case hs => exact rfl); first | with_reducible assumption | with_reducible apply st_countBad | (refine st_modFibre_same ?_ _ _ _ _ (fun _ => rfl)) | (refine st_modFibre_same ?_ _ _ _ _ (fun _ => by dsimp only; (repeat' split) <;> rfl)) | (refine st_modFibre_same ?_ _ _ _ _ (fun _ => ringPut_lanes ..)) | split))
theorem st_placeRead {mm : Bool} {gg : Nat} {bb : State} (s : State) (a1 : Ex) (a2 : Option Place) (a3 : Nat) (h0 : Steady mm gg bb s) :
    Steady mm gg bb (State.placeRead s a1 a2 a3).2 := by
  unfold State.placeRead
  repeat' (first | with_reducible assumption | with_reducible apply st_freeWord | dsimp only | intro _ | (split <;> (try (rename_i hq; have hq1 := congrArg Prod.snd hq; dsimp only at hq1; subst hq1))) | (apply Steady.upd; (case hl => (dsimp only; try exact rfl)); (case hw => (intro hm; first | exact rfl | cases hm)); (case hg => exact rfl); (case hs => exact rfl); first | with_reducible assumption | with_reducible apply st_freeWord | split))
theorem st_chainOut {mm : Bool} {gg : Nat} {bb : State} (a0 : List (Nat × (Option Place ⊕ Val))) (a1 : Bool) (a2 : Ex) (s : State) (h3 : Steady mm gg bb s) :
    Steady mm gg bb (chainOut a0 a1 a2 s) := by
  unfold chainOut
  repeat' (first | with_reducible assumption | with_reducible apply st_placeRead | with_reducible apply st_produce | with_reducible apply st_makePoison | with_reducible apply st_foldl | with_reducible apply st_foldl2 | with_reducible apply st_foldl1 | with_reducible apply st_foldl22 | dsimp only | intro _ | (split <;> (try (rename_i hq; have hq1 := congrArg Prod.snd hq; dsimp only at hq1; subst hq1))) | (apply Steady.upd; (case hl => (dsimp only; try exact rfl)); (case hw => (intro hm; first | exact rfl | cases hm)); (case hg => exact rfl); (case hs => exact rfl); first | with_reducible assumption | with_reducible apply st_placeRead | with_reducible apply st_produce | with_reducible apply st_makePoison | with_reducible apply st_foldl | with_reducible apply st_foldl2 | with_reducible apply st_foldl1 | with_reducible apply st_foldl22 | split))
theorem st_lredOut {mm : Bool} {gg : Nat} {bb : State} (a0 : Ex) (s : State) (h1 : Steady mm gg bb s) :
    Steady mm gg bb (lredOut a0 s) := by
  unfold lredOut
  repeat' (first | with_reducible assumption | with_reducible apply st_flagEx | with_reducible apply st_writeDst | with_reducible apply st_optMap | dsimp only | intro _ | split | (apply Steady.upd; (case hl => (dsimp only; try exact rfl)); (case hw => (intro hm; first | exact rfl | cases hm)); (case hg => exact rfl); (case hs => exact rfl); first | with_reducible assumption | with_reducible apply st_flagEx | with_reducible apply st_writeDst | with_reducible apply st_optMap | split))
theorem st_lscanOut {mm : Bool} {gg : Nat} {bb : State} (a0 : Ex) (s : State) (h1 : Steady mm gg bb s) :
    Steady mm gg bb (lscanOut a0 s) := by
  unfold lscanOut
  repeat' (first | with_reducible assumption | with_reducible apply st_flagEx | with_reducible apply st_writeDst | dsimp only | intro _ | split | (apply Steady.upd; (case hl => (dsimp only; try exact rfl)); (case hw => (intro hm; first | exact rfl | cases hm)); (case hg => exact rfl); (case hs => exact rfl); first | with_reducible assumption | with_reducible apply st_flagEx | with_reducible apply st_writeDst | split))

/-! Sync -/

theorem st_laterDests {mm : Bool} {gg : Nat} {bb : State} (s : State) (a1 : Ex) (h0 : Steady mm gg bb s) :
    Steady mm gg bb (State.laterDests s a1).2 := by
  unfold State.laterDests
  repeat' (first | with_reducible assumption | with_reducible apply st_writeDst | with_reducible apply st_dropDest | with_reducible apply st_foldl | with_reducible apply st_foldl2 | with_reducible apply st_foldl1 | with_reducible apply st_foldl22 | dsimp only | intro _ | split | (apply Steady.upd; (case hl => (dsimp only; try exact rfl)); (case hw => (intro hm; first | exact rfl | cases hm)); (case hg => exact rfl); (case hs => exact rfl); first | with_reducible assumption | with_reducible apply st_writeDst | with_reducible apply st_dropDest | with_reducible apply st_foldl | with_reducible apply st_foldl2 | with_reducible apply st_foldl1 | with_reducible apply st_foldl22 | split))
theorem st_bartOut {mm : Bool} {gg : Nat} {bb : State} (a0 : Ex) (s : State) (h1 : Steady mm gg bb s) :
    Steady mm gg bb (bartOut a0 s) := by
  unfold bartOut
  repeat' (first | with_reducible assumption | with_reducible apply st_writePreds | dsimp only | intro _ | split | (apply Steady.upd; (case hl => (dsimp only; try exact rfl)); (case hw => (intro hm; first | exact rfl | cases hm)); (case hg => exact rfl); (case hs => exact rfl); first | with_reducible assumption | with_reducible apply st_writePreds | split))
theorem st_festOut {mm : Bool} {gg : Nat} {bb : State} (a0 : Ex) (s : State) (h1 : Steady mm gg bb s) :
    Steady mm gg bb (festOut a0 s) := by
  unfold festOut
  repeat' (first | with_reducible assumption | with_reducible apply st_setFull | with_reducible apply st_foldl | with_reducible apply st_foldl2 | with_reducible apply st_foldl1 | with_reducible apply st_foldl22 | dsimp only | intro _ | split | (apply Steady.upd; (case hl => (dsimp only; try exact rfl)); (case hw => (intro hm; first | exact rfl | cases hm)); (case hg => exact rfl); (case hs => exact rfl); first | with_reducible assumption | with_reducible apply st_setFull | with_reducible apply st_foldl | with_reducible apply st_foldl2 | with_reducible apply st_foldl1 | with_reducible apply st_foldl22 | split))
theorem st_feqOut {mm : Bool} {gg : Nat} {bb : State} (a0 : Ex) (s : State) (h1 : Steady mm gg bb s) :
    Steady mm gg bb (feqOut a0 s) := by
  unfold feqOut
  repeat' (first | with_reducible assumption | with_reducible apply st_writePreds | dsimp only | intro _ | split | (apply Steady.upd; (case hl => (dsimp only; try exact rfl)); (case hw => (intro hm; first | exact rfl | cases hm)); (case hg => exact rfl); (case hs => exact rfl); first | with_reducible assumption | with_reducible apply st_writePreds | split))

/-! System -/

theorem st_rasLog {mm : Bool} {gg : Nat} {bb : State} (s : State) (ty unit unum dpa : Nat) (d : Option Nat) (h0 : Steady mm gg bb s) :
    Steady mm gg bb (State.rasLog s ty unit unum dpa d) := by
  unfold State.rasLog
  extract_lets r
  split
  · exact st_mgmtEvent _ (h0.upd rfl (fun _ => rfl) rfl rfl)
  · dsimp only
    have hf : Steady mm gg bb s.tick.fresh.2 := st_fresh _ (st_tick _ h0)
    generalize hv : State.areaWrite _ _ _ _ = v
    have h1 : Steady mm gg bb v := hv ▸ st_areaWrite _ _ _ _ hf
    exact st_mgmtEvent _ (h1.upd rfl (fun _ => rfl) rfl rfl)
theorem st_unmapRange {mm : Bool} {gg : Nat} {bb : State} (s : State) (a1 : Nat) (a2 : Nat) (h0 : Steady mm gg bb s) :
    ∀ r, State.unmapRange s a1 a2 = some r → Steady mm gg bb r := by
  unfold State.unmapRange
  repeat' (first | with_reducible assumption | with_reducible apply st_setEntry | with_reducible apply st_tlbDrop | with_reducible apply st_foldl | with_reducible apply st_foldl2 | with_reducible apply st_foldl1 | with_reducible apply st_foldl22 | dsimp only | split | (intro hq; injection hq with hq; subst hq) | (intro hq; cases hq; done) | intro _ | (apply Steady.upd; (case hl => (dsimp only; try exact rfl)); (case hw => (intro hm; first | exact rfl | cases hm)); (case hg => exact rfl); (case hs => exact rfl); first | with_reducible assumption | with_reducible apply st_setEntry | with_reducible apply st_tlbDrop | with_reducible apply st_foldl | with_reducible apply st_foldl2 | with_reducible apply st_foldl1 | with_reducible apply st_foldl22 | split))
theorem st_loseLayer {mm : Bool} {gg : Nat} {bb : State} (s : State) (a1 : Nat) (a2 : Nat) (h0 : Steady mm gg bb s) :
    Steady mm gg bb (State.loseLayer s a1 a2) := by
  unfold State.loseLayer
  repeat' (first | with_reducible assumption | with_reducible apply st_rasLog | with_reducible apply st_clearRange | with_reducible apply st_tlbFilter | dsimp only | intro _ | split | (apply Steady.upd; (case hl => (dsimp only; try exact rfl)); (case hw => (intro hm; first | exact rfl | cases hm)); (case hg => exact rfl); (case hs => exact rfl); first | with_reducible assumption | with_reducible apply st_rasLog | with_reducible apply st_clearRange | with_reducible apply st_tlbFilter | split))
theorem st_layerMapOut {mm : Bool} {gg : Nat} {bb : State} (a0 : Nat) (a1 : Nat) (s : State) (h2 : Steady mm gg bb s) :
    Steady mm gg bb (layerMapOut a0 a1 s) := by
  unfold layerMapOut
  repeat' (first | with_reducible assumption | with_reducible apply st_loseLayer | with_reducible refine st_unmapRange _ _ _ ?_ | with_reducible refine st_unmapRange _ _ _ ?_ _ (by assumption) | with_reducible apply st_mgmtReport | with_reducible apply st_wake | with_reducible apply st_getD | dsimp only | intro _ | split | (apply Steady.upd; (case hl => (dsimp only; try exact rfl)); (case hw => (intro hm; first | exact rfl | cases hm)); (case hg => exact rfl); (case hs => exact rfl); first | with_reducible assumption | with_reducible apply st_loseLayer | with_reducible refine st_unmapRange _ _ _ ?_ | with_reducible refine st_unmapRange _ _ _ ?_ _ (by assumption) | with_reducible apply st_mgmtReport | with_reducible apply st_wake | with_reducible apply st_getD | split))

/-! Instructions that strand lanes on a poisoned predicate or target. -/

theorem strand_keeps (p : Path) (ls : List (Nat × Word)) (s : State) (hp : (s.group? p.g).isSome = true) :
    (s.strand p ls).late = s.late ∧ ((s.strand p ls).group? p.g).isSome = true ∧
    ((s.strand p ls).groupAt p.g).barOps = (s.groupAt p.g).barOps ∧ (s.strand p ls).walking = s.walking := by
  unfold State.strand
  induction ls generalizing s with
  | nil => exact ⟨rfl, hp, rfl, rfl⟩
  | cons e r ih =>
    have hq : ((s.modLane p.g p.w p.f e.1 (fun l => { l with st := .stranded e.2 })).group? p.g).isSome = true :=
      (placed_modGroup ..).trans hp
    obtain ⟨h1, h2, h3, h4⟩ := ih _ hq
    refine ⟨h1.trans (modGroup_late ..), h2, h3.trans ?_, h4.trans (modGroup_walking ..)⟩
    exact (congrArg Group.barOps (groupAt_modGroup_of_placed s p.g p.g _ hp)).trans (by rw [if_pos rfl])

/-- An instruction that strands lanes, and whose effect is steady but for that, completes where an active lane is left. -/
theorem completes_of_strand (i : Instr) (op : Nat) (f : Fields) (body : Ex → State → Out) (p : Path) (q : Option Path) (s t u : State)
    (js : List (Nat × DWord)) (ls : List (Nat × Word)) (l : Nat) (hi : exec i s = runInstr op f body s) (h : Issuing s p q op f)
    (hb : body (s.exOf p op f) (s.start p f) = .ok u js) (hk : m = true → u.walksOut p.g p.w p.f p.pc = false) (ht : Steady m p.g (s.start p f) t) (hu : Steady m p.g (t.strand p ls) u)
    (hl : ((s.start p f).laneAt p.g p.w p.f l).st = .active) (hn : ∀ e ∈ ls, e.1 ≠ l) : Completes i s (s.exOf p op f) u js := by
  have hpp := ht.placed (start_placed s p f h.placed)
  obtain ⟨h1, h2, h3, h4⟩ := strand_keeps p ls t hpp
  rw [Completes, hi]
  have hk' : u.walksOut p.g p.w p.f p.pc = false := by
    cases m with
    | true => exact hk rfl
    | false =>
      exact (walksOut_of ((hu.walking rfl).trans (h4.trans (ht.walking rfl))) _ _ _ _).trans (start_unwalked s p q op f h)
  refine runInstr_completes op f body p q s u js h hb hk' (hu.late.trans (h1.trans (ht.late.trans ((start_late s p f h.placed).trans h.late))))
    (hu.placed h2) ((hu.quiet h2).trans (h3.trans ((ht.quiet (start_placed s p f h.placed)).trans (start_quiet s p q op f h)))) ⟨l, ?_⟩
  refine hu.lanes h2 _ _ _ ?_
  exact active_strand p ls l t hpp (fun e he => (hn e he).symm) (ht.lanes (start_placed s p f h.placed) _ _ _ hl)

theorem steady_iaddcOut (g : Nat) (x : Ex) (s : State) :
    Steady m g ((s.popQueues { x with parts := s.goodPred x x.f.c.toNat } x.codes).strand x.p (s.badPreds x x.f.c.toNat)) (iaddcOut x s) := by
  unfold iaddcOut
  dsimp only
  split
  · exact st_writeDst _ _ _ _ _ (st_makePoison _ _ _ _ _ _ _ (Steady.refl ..))
  · exact st_writePreds _ _ _ _ _ (st_writeDst _ _ _ _ _ (st_makePoison _ _ _ _ _ _ _ (Steady.refl ..)))

theorem steady_voteOut (g : Nat) (x : Ex) (s : State) : Steady m g (s.strand x.p (s.badPreds x x.f.a.toNat)) (voteOut x s) := by
  unfold voteOut
  dsimp only
  split
  · exact st_writeDst _ _ _ _ _ (Steady.refl ..)
  · exact st_writePreds _ _ _ _ _ (Steady.refl ..)

end Sys2Proof.Machine
end

