-- ==== Sys2Proof/Tests/Slice0.lean ====
section
/-! SUPPORT. Tests: words of the spec's encodings, ill-formed terms, worked examples of the spec, and for each statement with
hypotheses a state and operands that meet them. -/

open Sys2Proof Sys2Proof.Machine Sys2Proof.Claims

namespace Sys2Proof.Tests

set_option Elab.async false

/-- A partition with one group of one fibre, whose 32 lanes stand at an instruction; and the same with its group changed. -/
def loaded : State := State.reset.withFetchWord 32 0x03E3E000
def having (k : Group → Group) : State := { loaded with groups := [(0, k loadGroup)] }

/-- The path that has the turn in it, and the same with lane 0 alone. -/
def thePath : Path := { g := 0, w := 0, f := 0, mask := 0xFFFFFFFF, pc := BitVec.ofNat 64 loadVa, word := 0x03E3E000 }
def oneLane (s : State) : State := { s with turn := .issue { thePath with mask := 1 } none }

/-- Whether an instruction of opcode `op` with fields `f` can issue for the path whose turn it is. -/
def issues (s : State) (op : Nat) (f : Fields) : Bool :=
  match s.turn with
  | .issue p _ => windowOk (s.pathFibre p) op (s.exOf p op f).k f && !(s.partsOf p f).isEmpty
    && !(s.settle p.g p.w p.f).fenceHolds p.g p.w p.f op && s.late == none && !s.walksOut p.g p.w p.f p.pc
    && (s.group? p.g).isSome && decide (p.w < (s.groupAt p.g).warps.length) && decide (p.f < (s.warpAt p.g p.w).fibres.length)
    && (lanesOf p.mask).all (fun l => (s.laneAt p.g p.w p.f l).st == .active) && (s.groupAt p.g).barOps == []
    && (s.fibreAt p.g p.w p.f).frozen == none
  | _ => false

/-- What `issues` says. -/
theorem issues_sound (s : State) (op : Nat) (f : Fields) (h : issues s op f = true) : ∃ p q, s.turn = .issue p q ∧ Issuing s p q op f := by
  unfold issues at h
  split at h
  · next p q ht =>
    simp only [Bool.and_eq_true, decide_eq_true_eq, beq_iff_eq, Bool.not_eq_true', List.isEmpty_eq_false_iff, List.all_eq_true] at h
    obtain ⟨⟨⟨⟨⟨⟨⟨⟨⟨⟨h1, h2⟩, h0⟩, h3⟩, hw⟩, h4⟩, h5⟩, h6⟩, h7⟩, h8⟩, h9⟩ := h
    exact ⟨p, q, ht, ht, h1, h2, h0, h3, hw, h4, h5, h6, h7, h8, h9⟩
  · cases h

/-- Whether an instruction meets the hypotheses of its completion. -/
def fxReady (e : Fx) (s : State) : Bool :=
  issues s e.op e.f && match s.turn with
  | .issue p _ => e.ready (s.exOf p e.op e.f) (s.start p e.f) &&
    (!e.walks || !(e.out (s.exOf p e.op e.f) (s.start p e.f)).walksOut p.g p.w p.f p.pc)
  | _ => false

/-- What `fxReady` says. -/
theorem fxReady_sound (e : Fx) (s : State) (h : fxReady e s = true) :
    ∃ p q, Issuing s p q e.op e.f ∧ e.ready (s.exOf p e.op e.f) (s.start p e.f) = true ∧ e.Walked s p := by
  unfold fxReady at h
  rw [Bool.and_eq_true] at h
  obtain ⟨p, q, ht, hi⟩ := issues_sound _ _ _ h.1
  have h2 := h.2
  rw [ht] at h2
  simp only [Bool.and_eq_true, Bool.or_eq_true, Bool.not_eq_true'] at h2
  exact ⟨p, q, hi, h2.1, fun hw => h2.2.resolve_left (by simp [hw])⟩

/-- Whether well-formed instructions of a table meet the hypotheses of their completion. -/
def tableReady (tbl : Instr → Option Fx) (s : State) (is : List Instr) : Bool :=
  is.all (fun i => i.wellFormed && match tbl i with
    | some e => fxReady e s
    | none => false)

/-! Witnesses: every instruction of each table can complete. -/

theorem witness_IntegerInstructionsComplete : tableReady (fun i => (integerAlu i).map Alu.fx) loaded (List.flatten [
  [Instr.iadd, Instr.isub, Instr.imul, Instr.imulh, Instr.idiv, Instr.irem, Instr.imin, Instr.imax, Instr.iabs, Instr.isadd, Instr.lea, Instr.iset].map (fun i => i { form := .s, d := 0, a := 0, b6 := 0 }),
  [.bfx { form := .m, d := 0, a := 0, b6 := 0 }, .imad { form := .m, d := 0, a := 0, b6 := 0 }, .iadd3 { form := .m, d := 0, a := 0, b6 := 0 }],
  [.idot4 { form := .m, d := 0, a := 0, b6 := 0, md := 4 }],
  [Instr.and, Instr.or, Instr.xor, Instr.shl, Instr.shr, Instr.sar, Instr.popc, Instr.clz, Instr.brev].map (fun i => i { form := .s, d := 0, a := 0, b6 := 0, md := 8 }),
  [Instr.bitf, Instr.fsh, Instr.bfi, Instr.bytx].map (fun i => i { form := .m, d := 0, a := 0, b6 := 0, md := 8 })]) = true := by decide +kernel

theorem witness_FloatInstructionsComplete : tableReady (fun i => (floatAlu i).map Alu.fx) loaded (List.flatten [
  [.fset { form := .m, d := 0, a := 0, b6 := 0, b := 0, c := 0, md := 10 }, .fcvt { form := .m, d := 0, a := 0, b6 := 0, b := 0, c := 0, md := 10 }],
  [Instr.fadd, Instr.fmul, Instr.fmin, Instr.fmax, Instr.fdiv, Instr.fsqrt, Instr.frcp, Instr.frsq, Instr.fex2, Instr.flg2, Instr.frnd, Instr.fscl].map (fun i => i { form := .s, d := 0, a := 0, b6 := 0, md := 10 }),
  [.ffma { form := .m, d := 0, a := 0, b6 := 0, md := 10 }],
  [.fdot2 { form := .m, d := 0, a := 0, b6 := 0, md := 11 }],
  [.icvt { form := .m, d := 0, a := 0, b6 := 0, b := 0, c := 0 }]]) = true := by decide +kernel

theorem witness_PredicateInstructionsComplete : tableReady predicateFx loaded (List.flatten [
  [.iaddc { form := .m, d := 0, a := 0, b6 := 0, b := 0, c := 0 }, .plog { form := .m, d := 0, a := 0, b6 := 0, b := 0, c := 0 }],
  [Instr.icmp, Instr.pmov, Instr.pchk].map (fun i => i { form := .s, d := 0, a := 0, b6 := 0 }),
  [.fcmp { form := .m, d := 0, a := 0, b6 := 0, b := 0, c := 0, md := 10 }],
  [.sel { form := .m, d := 0, a := 0, b6 := 0, b := 0, c := 0, md := 8 }],
  [.fcls { form := .m, d := 0, a := 0, b6 := 0, md := 10 }],
  [.vote { form := .s, d := 0, a := 0, b6 := 0, md := 8 }],
  [.feq { form := .m, d := 0, a := 0, b6 := 0, sub := 1 }]]) = true := by decide +kernel

theorem witness_MoveInstructionsComplete : tableReady moveFx loaded (List.flatten [
  [Instr.mov, Instr.movi, Instr.nbr, Instr.cxs, Instr.bcst].map (fun i => i { form := .s, d := 0, a := 0, b6 := 0, md := 8 }),
  [.movs { form := .s, d := 0, a := 0, b6 := 0 }],
  [.movw { form := .s, d := 0x0D, a := 0, b6 := 0 }],
  [.vtos { form := .s, d := 192, a := 0, b6 := 0, md := 8 }],
  [.view { form := .s, d := 0, a := 192, b6 := 0 }],
  [.lred { form := .s, d := 0, a := 0, b6 := 3, md := 8 }, .lscan { form := .s, d := 0, a := 0, b6 := 3, md := 8 }]]) = true := by decide +kernel

theorem witness_ControlInstructionsComplete : tableReady controlFx loaded (List.flatten [
  [.nop { form := .s, d := 248, a := 248, b6 := 0 }, .fyld { form := .s, d := 248, a := 248, b6 := 0 }],
  [.bra { form := .s, d := 0, a := 0, b6 := 0 }, .bru { form := .s, d := 0, a := 0, b6 := 0 }],
  [.jmx { form := .s, d := 248, a := 0, b6 := 0 }, .ret { form := .s, d := 248, a := 0, b6 := 0 }],
  [.call { form := .m, d := 0, a := 0, b6 := 0 }],
  [.fstart { form := .s, d := 192, a := 248, b6 := 0 }],
  [.loop { form := .s, d := 192, a := 0, b6 := 0 }]]) = true := by decide +kernel

theorem witness_MemoryInstructionsComplete : tableReady memoryFx (oneLane loaded) (List.flatten [
  [.ipf { form := .s, d := 248, a := 192, b6 := 0 }, .iunp { form := .s, d := 248, a := 192, b6 := 0 }],
  [Instr.ipin, Instr.waitc, Instr.sigc].map (fun i => i { form := .s, d := 192, a := 192, b6 := 0 })]) = true := by decide +kernel

theorem witness_MemoryInstructionsComplete_loads : tableReady memoryFx (oneLane loaded) (List.flatten [
  [Instr.ld, Instr.st, Instr.lds, Instr.sts, Instr.ldfe, Instr.stfe].map (fun i => i { form := .s, d := 0, a := 0, b6 := 0, md := 8 }),
  [.ldu { form := .s, d := 192, a := 192, b6 := 0, md := 8 }, .stu { form := .s, d := 192, a := 192, b6 := 0, md := 8 }],
  [.pft { form := .m, d := 248, a := 192, b6 := 0, b := 192, md := 8 }]]) = true := by decide +kernel

theorem witness_MemoryInstructionsComplete_more : tableReady memoryFx (oneLane loaded) (List.flatten [
  [.pfc { form := .s, d := 248, a := 0, b6 := 0, md := 8 }, .cctl { form := .s, d := 248, a := 0, b6 := 0, md := 8 }],
  [.atom { form := .m, d := 0, a := 0, b6 := 0, b := 0, c := 0 }, .atoms { form := .m, d := 0, a := 0, b6 := 0, b := 0, c := 0 }],
  [.acas { form := .m, d := 0, a := 0, b6 := 0, md := 8 }],
  [.red { form := .m, d := 248, a := 0, b6 := 0, b := 0, c := 0 }],
  [Instr.acq, Instr.rel, Instr.fence].map (fun i => i { form := .m, d := 248, a := 248, b6 := 0 }),
  [.ifen { form := .s, d := 248, a := 248, b6 := 0 }]]) = true := by decide +kernel

theorem witness_TileAndRegionInstructionsComplete : tableReady tileFx (oneLane loaded) (List.flatten [
  [.xvset { form := .s, d := 0, a := 0, b6 := 0 }, .perf { form := .s, d := 0, a := 0, b6 := 0 }],
  [Instr.cvtq, Instr.dq, Instr.scq].map (fun i => i { form := .m, d := 0, a := 0, b6 := 0, c := 0 }),
  [.sacc { form := .m, d := 0, a := 0, b6 := 0, b := 192, c := 192 }],
  [.ttr { form := .m, d := 0, a := 0, b6 := 0 }],
  [.ldt { form := .m, d := 0, a := 192, b6 := 0, b := 192, md := 8 }, .stt { form := .m, d := 0, a := 192, b6 := 0, b := 192, md := 8 }],
  [.ldac { form := .m, d := 0, a := 192, b6 := 0, md := 8 }],
  [.fest { form := .s, d := 0, a := 248, b6 := 0 }],
  [.rgno { form := .s, d := 248, a := 248, b6 := 0 }],
  [.cmt { form := .l, d := 0, a := 192, b6 := 1, b := 1 }],
  [.pset { form := .s, d := 0, a := 248, b6 := 3 }],
  [.cart { form := .s, d := 0, a := 192, b6 := 0 }]]) = true := by decide +kernel

theorem witness_EngineInstructionsComplete : tableReady engineFx (oneLane loaded) (List.flatten [
  [Instr.mseq, Instr.copy, Instr.apst, Instr.xwr, Instr.xrd, Instr.xsnd].map (fun i => i { form := .m, d := 192, a := 192, b6 := 0 }),
  [Instr.oprf, Instr.apsp, Instr.xfen].map (fun i => i { form := .m, d := 248, a := 248, b6 := 0 }),
  [.mstq { form := .m, d := 0, a := 248, b6 := 0 }, .qmap { form := .m, d := 0, a := 248, b6 := 0 }],
  [.copyU { form := .lx, d := 192, a := 192, b6 := 0, sub := 1, w2 := 0xF8 }],
  [.cchn { form := .m, d := 192, a := 192, b6 := 0, b := 192 }],
  [.apstGo { form := .m, d := 248, a := 192, b6 := 0, sub := 1 }],
  [.ecmd { form := .m, d := 192, a := 192, b6 := 1 }],
  [.sbq { form := .m, d := 0, a := 192, b6 := 0 }],
  [.xrdV { form := .m, d := 0, a := 0, b6 := 0, b := 192, sub := 1 }],
  [.xcng { form := .m, d := 0, a := 0, b6 := 0 }]]) = true := by decide +kernel

theorem witness_SynchronisationInstructionsComplete : tableReady syncFx 
    { loaded with sysc := [{ id := 1, g := 0, w := 0, f := 0, pc := 0x1000, lanes := List.range 32, block := [], answer := some 0 }] } (List.flatten [
  [.exit { form := .s, d := 248, a := 248, b6 := 0 }, .fbar { form := .s, d := 248, a := 248, b6 := 0 }],
  [.bari { form := .s, d := 248, a := 192, b6 := 0 }],
  [.bara { form := .s, d := 0, a := 248, b6 := 0 }, .bard { form := .s, d := 0, a := 248, b6 := 0 }],
  [.barw { form := .s, d := 248, a := 0, b6 := 0 }],
  [.bart { form := .s, d := 0, a := 0, b6 := 0 }],
  [.sysc { form := .s, d := 192, a := 192, b6 := 0 }],
  [.xpstBuf { form := .m, d := 192, a := 192, b6 := 0 }],
  [.xpstNtf { form := .m, d := 192, a := 192, b6 := 1 }],
  [.xpstUnb { form := .m, d := 192, a := 192, b6 := 2 }]]) = true := by decide +kernel


/-! Decoding: for every instruction a word built field by field from R74 and R75 (LEN in bits 1:0, OP in 9:2, D in 17:10, A in
25:18, B6 in 31:26; then B, C, PG = 7, SP, MOD and SUB) with the opcode of R89; then the words that the spec writes out. -/

def decodes (is : List (List Word × Instr)) : Bool := is.all (fun e => decodeAny e.1 == some e.2)

theorem test_decode_control : decodes [
    ([0x03E3E000], .nop { form := .s, d := 248, a := 248, b6 := 0 }),
    ([0x00101804], .bra { form := .s, d := 6, a := 4, b6 := 0 }),
    ([0x00101808], .bru { form := .s, d := 6, a := 4, b6 := 0 }),
    ([0x0013E00C], .jmx { form := .s, d := 248, a := 4, b6 := 0 }),
    ([0x00101811, 0x0007F8F8], .call { form := .m, d := 6, a := 4, b6 := 0 }),
    ([0x0013E014], .ret { form := .s, d := 248, a := 4, b6 := 0 }),
    ([0x03E3E01C], .fyld { form := .s, d := 248, a := 248, b6 := 0 }),
    ([0x03E31820], .fstart { form := .s, d := 198, a := 248, b6 := 0 }),
    ([0x00131824], .loop { form := .s, d := 198, a := 4, b6 := 0 }),
    ([0x0313E028], .ipf { form := .s, d := 248, a := 196, b6 := 0 }),
    ([0x0313182C], .ipin { form := .s, d := 198, a := 196, b6 := 0 }),
    ([0x0313E030], .iunp { form := .s, d := 248, a := 196, b6 := 0 }),
    ([0x03E3E018], .exit { form := .s, d := 248, a := 248, b6 := 0 })] = true := by decide +kernel

theorem test_decode_integer : decodes [
    ([0x00101840], .iadd { form := .s, d := 6, a := 4, b6 := 0 }),
    ([0x00101844], .isub { form := .s, d := 6, a := 4, b6 := 0 }),
    ([0x00101848], .imul { form := .s, d := 6, a := 4, b6 := 0 }),
    ([0x0010184C], .imulh { form := .s, d := 6, a := 4, b6 := 0 }),
    ([0x00101851, 0x0007F8F8], .imad { form := .m, d := 6, a := 4, b6 := 0 }),
    ([0x00101855, 0x0007F8F8], .iadd3 { form := .m, d := 6, a := 4, b6 := 0 }),
    ([0x00101858], .idiv { form := .s, d := 6, a := 4, b6 := 0 }),
    ([0x0010185C], .irem { form := .s, d := 6, a := 4, b6 := 0 }),
    ([0x00101860], .imin { form := .s, d := 6, a := 4, b6 := 0 }),
    ([0x00101864], .imax { form := .s, d := 6, a := 4, b6 := 0 }),
    ([0x00101868], .iabs { form := .s, d := 6, a := 4, b6 := 0 }),
    ([0x0010186C], .isadd { form := .s, d := 6, a := 4, b6 := 0 }),
    ([0x00101870], .lea { form := .s, d := 6, a := 4, b6 := 0 }),
    ([0x00101875, 0x0207F8F8], .idot4 { form := .m, d := 6, a := 4, b6 := 0, md := 4 }),
    ([0x00101879, 0x00070102], .iaddc { form := .m, d := 6, a := 4, b6 := 0, b := 2, c := 1 })] = true := by decide +kernel

theorem test_decode_logic : decodes [
    ([0x00101880], .and { form := .s, d := 6, a := 4, b6 := 0, md := 8 }),
    ([0x00101884], .or { form := .s, d := 6, a := 4, b6 := 0, md := 8 }),
    ([0x00101888], .xor { form := .s, d := 6, a := 4, b6 := 0, md := 8 }),
    ([0x0010188D, 0x0407F8F8], .bitf { form := .m, d := 6, a := 4, b6 := 0, md := 8 }),
    ([0x00101890], .shl { form := .s, d := 6, a := 4, b6 := 0, md := 8 }),
    ([0x00101894], .shr { form := .s, d := 6, a := 4, b6 := 0, md := 8 }),
    ([0x00101898], .sar { form := .s, d := 6, a := 4, b6 := 0, md := 8 }),
    ([0x0010189D, 0x0407F8F8], .fsh { form := .m, d := 6, a := 4, b6 := 0, md := 8 }),
    ([0x001018A1, 0x0007F8F8], .bfx { form := .m, d := 6, a := 4, b6 := 0 }),
    ([0x001018A5, 0x0407F8F8], .bfi { form := .m, d := 6, a := 4, b6 := 0, md := 8 }),
    ([0x001018A8], .popc { form := .s, d := 6, a := 4, b6 := 0, md := 8 }),
    ([0x001018AC], .clz { form := .s, d := 6, a := 4, b6 := 0, md := 8 }),
    ([0x001018B0], .brev { form := .s, d := 6, a := 4, b6 := 0, md := 8 }),
    ([0x001018B5, 0x0407F8F8], .bytx { form := .m, d := 6, a := 4, b6 := 0, md := 8 })] = true := by decide +kernel

theorem test_decode_compare : decodes [
    ([0x001018D4], .iset { form := .s, d := 6, a := 4, b6 := 0 }),
    ([0x001018D9, 0x05070802], .fset { form := .m, d := 6, a := 4, b6 := 0, b := 2, c := 8, md := 10 }),
    ([0x001018C0], .icmp { form := .s, d := 6, a := 4, b6 := 0 }),
    ([0x001018C5, 0x05070802], .fcmp { form := .m, d := 6, a := 4, b6 := 0, b := 2, c := 8, md := 10 }),
    ([0x001018C9, 0x04070102], .sel { form := .m, d := 6, a := 4, b6 := 0, b := 2, c := 1, md := 8 }),
    ([0x000804CD, 0x00070503], .plog { form := .m, d := 1, a := 2, b6 := 0, b := 3, c := 5 }),
    ([0x001018D0], .pmov { form := .s, d := 6, a := 4, b6 := 0 }),
    ([0x001018DD, 0x0507F8F8], .fcls { form := .m, d := 6, a := 4, b6 := 0, md := 10 })] = true := by decide +kernel

theorem test_decode_moves : decodes [
    ([0x00101900], .mov { form := .s, d := 6, a := 4, b6 := 0, md := 8 }),
    ([0x00101904], .movi { form := .s, d := 6, a := 4, b6 := 0, md := 8 }),
    ([0x00101908], .movs { form := .s, d := 6, a := 4, b6 := 0 }),
    ([0x00131910], .vtos { form := .s, d := 198, a := 4, b6 := 0, md := 8 }),
    ([0x03100914], .view { form := .s, d := 2, a := 196, b6 := 0 }),
    ([0x00101918], .xvset { form := .s, d := 6, a := 4, b6 := 0 }),
    ([0x0010350C], .movw { form := .s, d := 13, a := 4, b6 := 0 })] = true := by decide +kernel

theorem test_decode_float : decodes [
    ([0x00101940], .fadd { form := .s, d := 6, a := 4, b6 := 0, md := 10 }),
    ([0x00101944], .fmul { form := .s, d := 6, a := 4, b6 := 0, md := 10 }),
    ([0x00101949, 0x0507F8F8], .ffma { form := .m, d := 6, a := 4, b6 := 0, md := 10 }),
    ([0x0010194C], .fmin { form := .s, d := 6, a := 4, b6 := 0, md := 10 }),
    ([0x00101950], .fmax { form := .s, d := 6, a := 4, b6 := 0, md := 10 }),
    ([0x00101954], .fdiv { form := .s, d := 6, a := 4, b6 := 0, md := 10 }),
    ([0x00101958], .fsqrt { form := .s, d := 6, a := 4, b6 := 0, md := 10 }),
    ([0x0010195C], .frcp { form := .s, d := 6, a := 4, b6 := 0, md := 10 }),
    ([0x00101960], .frsq { form := .s, d := 6, a := 4, b6 := 0, md := 10 }),
    ([0x00101964], .fex2 { form := .s, d := 6, a := 4, b6 := 0, md := 10 }),
    ([0x00101968], .flg2 { form := .s, d := 6, a := 4, b6 := 0, md := 10 }),
    ([0x0010196C], .frnd { form := .s, d := 6, a := 4, b6 := 0, md := 10 }),
    ([0x00101970], .fscl { form := .s, d := 6, a := 4, b6 := 0, md := 10 }),
    ([0x00101975, 0x0587F8F8], .fdot2 { form := .m, d := 6, a := 4, b6 := 0, md := 11 }),
    ([0x00241579, 0x0787020A], .fcvt { form := .m, d := 5, a := 9, b6 := 0, b := 10, c := 2, md := 15 }),
    ([0x0010197D, 0x0007000A], .icvt { form := .m, d := 6, a := 4, b6 := 0, b := 10, c := 0 })] = true := by decide +kernel

theorem test_decode_tiles : decodes [
    ([0x0010198D, 0x0007C8C2], .sacc { form := .m, d := 6, a := 4, b6 := 0, b := 194, c := 200 }),
    ([0x00101991, 0x0007F8F8], .ttr { form := .m, d := 6, a := 4, b6 := 0 }),
    ([0x04101981, 0x000702F8], .cvtq { form := .m, d := 6, a := 4, b6 := 1, c := 2 }),
    ([0x04101985, 0x000702F8], .dq { form := .m, d := 6, a := 4, b6 := 1, c := 2 }),
    ([0x04101989, 0x000702F8], .scq { form := .m, d := 6, a := 4, b6 := 1, c := 2 })] = true := by decide +kernel

theorem test_decode_lanes : decodes [
    ([0x001019C8], .vote { form := .s, d := 6, a := 4, b6 := 0, md := 8 }),
    ([0x001019C0], .nbr { form := .s, d := 6, a := 4, b6 := 0, md := 8 }),
    ([0x001019C4], .cxs { form := .s, d := 6, a := 4, b6 := 0, md := 8 }),
    ([0x0C1019CC], .lred { form := .s, d := 6, a := 4, b6 := 3, md := 8 }),
    ([0x0C1019D0], .lscan { form := .s, d := 6, a := 4, b6 := 3, md := 8 }),
    ([0x001019D4], .bcst { form := .s, d := 6, a := 4, b6 := 0, md := 8 })] = true := by decide +kernel

theorem test_decode_memory : decodes [
    ([0x00101A00], .ld { form := .s, d := 6, a := 4, b6 := 0, md := 8 }),
    ([0x00101A04], .st { form := .s, d := 6, a := 4, b6 := 0, md := 8 }),
    ([0x00101A08], .lds { form := .s, d := 6, a := 4, b6 := 0, md := 8 }),
    ([0x00101A0C], .sts { form := .s, d := 6, a := 4, b6 := 0, md := 8 }),
    ([0x03131A10], .ldu { form := .s, d := 198, a := 196, b6 := 0, md := 8 }),
    ([0x03131A14], .stu { form := .s, d := 198, a := 196, b6 := 0, md := 8 }),
    ([0x00101A18], .ldfe { form := .s, d := 6, a := 4, b6 := 0, md := 8 }),
    ([0x00101A1C], .stfe { form := .s, d := 6, a := 4, b6 := 0, md := 8 }),
    ([0x0313E231, 0x0407F8C2], .pft { form := .m, d := 248, a := 196, b6 := 0, b := 194, md := 8 }),
    ([0x0013E234], .pfc { form := .s, d := 248, a := 4, b6 := 0, md := 8 }),
    ([0x0013E238], .cctl { form := .s, d := 248, a := 4, b6 := 0, md := 8 }),
    ([0x03101A21, 0x0407F8C2], .ldt { form := .m, d := 6, a := 196, b6 := 0, b := 194, md := 8 }),
    ([0x03101A25, 0x0407F8C2], .stt { form := .m, d := 6, a := 196, b6 := 0, b := 194, md := 8 }),
    ([0x03101A29, 0x0407F8F8], .ldac { form := .m, d := 6, a := 196, b6 := 0, md := 8 }),
    ([0x03101A2D, 0x0407F8F8], .stac { form := .m, d := 6, a := 196, b6 := 0, md := 8 })] = true := by decide +kernel

theorem test_decode_atomics : decodes [
    ([0x00101A41, 0x00070102], .atom { form := .m, d := 6, a := 4, b6 := 0, b := 2, c := 1 }),
    ([0x00101A45, 0x0407F8F8], .acas { form := .m, d := 6, a := 4, b6 := 0, md := 8 }),
    ([0x00101A49, 0x00070102], .atoms { form := .m, d := 6, a := 4, b6 := 0, b := 2, c := 1 }),
    ([0x0013E24D, 0x00070102], .red { form := .m, d := 248, a := 4, b6 := 0, b := 2, c := 1 }),
    ([0x03E3E251, 0x0007F8F8], .acq { form := .m, d := 248, a := 248, b6 := 0 }),
    ([0x03E3E255, 0x0007F8F8], .rel { form := .m, d := 248, a := 248, b6 := 0 }),
    ([0x03E3E259, 0x0007F8F8], .fence { form := .m, d := 248, a := 248, b6 := 0 })] = true := by decide +kernel

theorem test_decode_barriers : decodes [
    ([0x00101A9D, 0x1007F8F8], .feq { form := .m, d := 6, a := 4, b6 := 0, sub := 1 }),
    ([0x03131AA0], .waitc { form := .s, d := 198, a := 196, b6 := 0 }),
    ([0x03131AA4], .sigc { form := .s, d := 198, a := 196, b6 := 0 }),
    ([0x03E01A98], .fest { form := .s, d := 6, a := 248, b6 := 0 }),
    ([0x0313E280], .bari { form := .s, d := 248, a := 196, b6 := 0 }),
    ([0x03E01A84], .bara { form := .s, d := 6, a := 248, b6 := 0 }),
    ([0x0013E288], .barw { form := .s, d := 248, a := 4, b6 := 0 }),
    ([0x03E01A8C], .bard { form := .s, d := 6, a := 248, b6 := 0 }),
    ([0x00101A90], .bart { form := .s, d := 6, a := 4, b6 := 0 }),
    ([0x03E3E294], .fbar { form := .s, d := 248, a := 248, b6 := 0 })] = true := by decide +kernel

theorem test_decode_sequencer : decodes [
    ([0x03131AF1, 0x0007F8F8], .mseq { form := .m, d := 198, a := 196, b6 := 0 }),
    ([0x03E3E2F5, 0x0007F8F8], .oprf { form := .m, d := 248, a := 248, b6 := 0 }),
    ([0x03E01AF9, 0x0007F8F8], .mstq { form := .m, d := 6, a := 248, b6 := 0 })] = true := by decide +kernel

theorem test_decode_copy : decodes [
    ([0x03131B01, 0x0007F8F8], .copy { form := .m, d := 198, a := 196, b6 := 0 }),
    ([0x03131B05, 0x0007F8C2], .cchn { form := .m, d := 198, a := 196, b6 := 0, b := 194 }),
    ([0x03131B09, 0x0007F8F8], .apst { form := .m, d := 198, a := 196, b6 := 0 }),
    ([0x0313E309, 0x1007F8F8], .apstGo { form := .m, d := 248, a := 196, b6 := 0, sub := 1 }),
    ([0x03E3E30D, 0x0007F8F8], .apsp { form := .m, d := 248, a := 248, b6 := 0 }),
    ([0x03E01B11, 0x0007F8F8], .qmap { form := .m, d := 6, a := 248, b6 := 0 }),
    ([0x07131B1D, 0x0007F8F8], .ecmd { form := .m, d := 198, a := 196, b6 := 1 }),
    ([0x03101B21, 0x0007F8F8], .sbq { form := .m, d := 6, a := 196, b6 := 0 }),
    ([0x03131B03, 0x1007F8F8, 0x000000F8, 0x00000000, 0x00000000], .copyU { form := .lx, d := 198, a := 196, b6 := 0, sub := 1, w2 := 248 }),
    ([0x03100B15, 0x0007F8C6], .ldq { form := .m, d := 2, a := 196, b6 := 0, b := 198 }),
    ([0x03E3E318], .aend { form := .s, d := 248, a := 248, b6 := 0 })] = true := by decide +kernel

theorem test_decode_transport : decodes [
    ([0x03131B41, 0x0007F8F8], .xwr { form := .m, d := 198, a := 196, b6 := 0 }),
    ([0x03131B45, 0x0007F8F8], .xrd { form := .m, d := 198, a := 196, b6 := 0 }),
    ([0x00101B45, 0x1007F8C2], .xrdV { form := .m, d := 6, a := 4, b6 := 0, b := 194, sub := 1 }),
    ([0x03131B49, 0x0007F8F8], .xsnd { form := .m, d := 198, a := 196, b6 := 0 }),
    ([0x00101B51, 0x0007F8F8], .xcng { form := .m, d := 6, a := 4, b6 := 0 }),
    ([0x03E3E355, 0x0007F8F8], .xfen { form := .m, d := 248, a := 248, b6 := 0 }),
    ([0x03131B4D, 0x0007F8F8], .xpstBuf { form := .m, d := 198, a := 196, b6 := 0 }),
    ([0x07131B4D, 0x0007F8F8], .xpstNtf { form := .m, d := 198, a := 196, b6 := 1 }),
    ([0x0B131B4D, 0x0007F8F8], .xpstUnb { form := .m, d := 198, a := 196, b6 := 2 })] = true := by decide +kernel

theorem test_decode_regions : decodes [
    ([0x00101B88], .pchk { form := .s, d := 6, a := 4, b6 := 0 }),
    ([0x03E3E39C], .ifen { form := .s, d := 248, a := 248, b6 := 0 }),
    ([0x03E3E380], .rgno { form := .s, d := 248, a := 248, b6 := 0 }),
    ([0x07101B86, 0x0007F801, 0x00000000], .cmt { form := .l, d := 6, a := 196, b6 := 1, b := 1 }),
    ([0x0FE01B8C], .pset { form := .s, d := 6, a := 248, b6 := 3 }),
    ([0x03101B90], .cart { form := .s, d := 6, a := 196, b6 := 0 }),
    ([0x00101B98], .perf { form := .s, d := 6, a := 4, b6 := 0 }),
    ([0x03131B94], .sysc { form := .s, d := 198, a := 196, b6 := 0 })] = true := by decide +kernel

/-- R74, R355, R356: the matrix stream; `MMA.e2m1x.e4m3 a0, t0, b0, 1, 2, 1` as the spec writes it. -/
theorem test_decode_stream : decodes [
    ([0x000002C1, 0x07B40008], .mma { form := .m, d := 0, a := 0, b6 := 0, w1 := 0x07B40008 }),
    ([0x07E006C6, 0x07B40008, 0x00000100], .mms { form := .l, d := 1, a := 0xF8, b6 := 1, w1 := 0x07B40008, w2 := 0x100 }),
    ([0x0BE3E2CA, 0, 0x00000080], .bld { form := .l, d := 0xF8, a := 0xF8, b6 := 2, w2 := 0x80 }),
    ([0x0FE00ECC], .acz { form := .s, d := 3, a := 0xF8, b6 := 3 }), ([0x17E3E2D0], .sqw { form := .s, d := 0xF8, a := 0xF8, b6 := 5 }),
    ([0x1BE3E2D4], .sqa { form := .s, d := 0xF8, a := 0xF8, b6 := 6 }),
    ([0xFFFC06DA, 0, 3], .sqlp { form := .l, d := 1, a := 0xFF, b6 := 0x3F, w2 := 3 }),
    ([0x03E3E2DC], .sqe { form := .s, d := 0xF8, a := 0xF8, b6 := 0 })] = true := by decide +kernel

/-- The spec's worked encodings (R92, R98, R188, R280, R276, R371, R474, R480, R489, R493 and the ends of chapters 3 and 6). -/
theorem test_decode_spec_words : decodes [
    ([0x002C2949, 0x151A0CC3], .ffma { form := .m, d := 0x0A, a := 0x0B, b6 := 0, b := 0xC3, c := 0x0C, pg := 2, pn := true, sp := 1, md := 10, sub := 1 }),
    ([0x00761BC0], .pfx { sw := false, rep := 3, std := true, sta := true, stb := false, ppg := 7, ppn := false, psp := 0 }),
    ([0x00A05142, 0x0507F8FF, 0x3FC00000], .fadd { form := .l, d := 0x14, a := 0x28, b6 := 0, b := 0xFF, md := 10, w2 := 0x3FC00000 }),
    ([0x00040D41, 0xA587F802], .fadd { form := .m, d := 3, a := 1, b6 := 0, b := 2, md := 11, sub := 10 }),
    ([0x00200CC5, 0x05070AC2], .fcmp { form := .m, d := 3, a := 8, b6 := 0, b := 0xC2, c := 0x0A, md := 10 }),
    ([0x00241579, 0x0787020A], .fcvt { form := .m, d := 5, a := 9, b6 := 0, b := 0x0A, c := 2, md := 15 }),
    ([0x03E3E255, 0x0007F8F8], .rel { form := .m, d := 0xF8, a := 0xF8, b6 := 0 }),
    ([0x03E3E251, 0x0007F8F8], .acq { form := .m, d := 0xF8, a := 0xF8, b6 := 0 }),
    ([0x03E3E39C], .ifen { form := .s, d := 0xF8, a := 0xF8, b6 := 0 }),
    ([0x07201221, 0x1407F8CA], .ldt { form := .m, d := 4, a := 0xC8, b6 := 1, b := 0xCA, md := 8, sub := 1 }),
    ([0x03100B15, 0x0007F8C6], .ldq { form := .m, d := 2, a := 0xC4, b6 := 0, b := 0xC6 }),
    ([0x03E3E318], .aend { form := .s, d := 0xF8, a := 0xF8, b6 := 0 }),
    ([0x03230F41, 0x0007F8F8], .xwr { form := .m, d := 0xC3, a := 0xC8, b6 := 0 }),
    ([0x03230F94], .sysc { form := .s, d := 0xC3, a := 0xC8, b6 := 0 }),
    ([0x03271398], .perf { form := .s, d := 0xC4, a := 0xC9, b6 := 0 })] = true := by decide +kernel

/-- R79, R86, R92: two sequences that are not instructions; and the word of zeros. -/
theorem test_decode_refuses : decodeAny [0x00A05141, 0x0507F8FF] = none ∧ decodeAny [0] = none ∧
    (decodePfx 0x00761BC0).bind (fun p => decodeUnder p 0 [0x00A05142, 0x0502F8FF, 0x3FC00000]) = none := by decide +kernel

/-! WellFormed: a term that each check refuses, beside one that it accepts. -/

def refused (is : List Instr) : Bool := is.all (fun i => !i.wellFormed)

/-- Forms, types, SUB bits, .x2 without 16 bits, and what an instruction narrows further (R84, R91). -/
theorem test_illformed_shape : refused [
    .imad { form := .s, d := 0, a := 0, b6 := 0 }, .fadd { form := .lx, d := 0, a := 0, b6 := 0, md := 10, w2 := 0xF8 },
    .iadd { form := .m, d := 0, a := 0, b6 := 0, md := 8 }, .iadd { form := .m, d := 0, a := 0, b6 := 0, sub := 4 },
    .iadd { form := .m, d := 0, a := 0, b6 := 0, sub := 8 }, .movw { form := .s, d := 0x0C, a := 0, b6 := 0 },
    .pset { form := .s, d := 0, a := 0xF8, b6 := 2 }, .cmt { form := .l, d := 0xBF, a := 0xF8, b6 := 2, b := 0 }] = true := by decide +kernel

/-- Operand codes (R11, R76, R79, R81, R92): a reserved code, a literal in M form, an odd pair, a vector where a uniform must
stand, a queue as a destination, a predicate above p7, an unused field. -/
theorem test_illformed_codes : refused [
    .iadd { form := .s, d := 0, a := 0xFA, b6 := 0 }, .iadd { form := .m, d := 0, a := 0xFF, b6 := 0 },
    .iadd { form := .m, d := 1, a := 0, b6 := 0, md := 6 }, .iadd { form := .m, d := 0, a := 1, b6 := 0, md := 6 },
    .bru { form := .m, d := 0, a := 0, b6 := 0, b := 0 }, .iadd { form := .s, d := 0xF0, a := 0, b6 := 0 },
    .icmp { form := .s, d := 8, a := 0, b6 := 0 }, .nop { form := .s, d := 0, a := 0xF8, b6 := 0 },
    .iadd { form := .m, d := 0, a := 0, b6 := 0, c := 0 }] = true := by decide +kernel

/-- B6 (R77), word 2 and the literal (R79, R80), branch offsets (R78), what an S form implies (R76), guards (R97). -/
theorem test_illformed_words : refused [
    .nop { form := .s, d := 0xF8, a := 0xF8, b6 := 1 }, .iadd { form := .m, d := 0, a := 0, b6 := 1, b := 0 },
    .cxs { form := .s, d := 0, a := 0, b6 := 4, md := 8 }, .ld { form := .l, d := 0, a := 0, b6 := 1, md := 8 },
    .iadd { form := .m, d := 0, a := 0, b6 := 0, w2 := 1 }, .iadd { form := .l, d := 0, a := 0, b6 := 0, w2 := 1 },
    .iadd { form := .lx, d := 0, a := 0xFF, b6 := 0, w2 := 0 }, .bra { form := .l, d := 0, a := 0, b6 := 0, w2 := 2 },
    .bra { form := .l, d := 1, a := 0, b6 := 0 }, .iadd { form := .s, d := 0, a := 0, b6 := 0, pg := 0 },
    .iadd { form := .s, d := 0, a := 0, b6 := 0, md := 1 }, .bru { form := .m, d := 0, a := 0, b6 := 0, pg := 2 }] = true := by decide +kernel

/-- Rows that share an opcode (R343, R473), access programs (R371, R372) and streams (R355, R356). -/
theorem test_illformed_rows : refused [
    .copy { form := .lx, d := 0xC0, a := 0xC0, b6 := 0, sub := 1, w2 := 0xF8 }, .xpstNtf { form := .m, d := 0xC0, a := 0xC0, b6 := 0 },
    .ldq { form := .m, d := 8, a := 0xC0, b6 := 0 }, .ldq { form := .m, d := 0, a := 0, b6 := 0 }, .ldq { form := .m, d := 0, a := 0xC0, b6 := 0, pg := 0 },
    .mma { form := .m, d := 0x40, a := 0, b6 := 0, w1 := 0x07B40008 }, .mma { form := .m, d := 0, a := 0, b6 := 0, w1 := 0x27B40008 },
    .mma { form := .m, d := 0, a := 0, b6 := 0, w1 := 0x07B40208 }, .mms { form := .l, d := 0, a := 0xF8, b6 := 0, w1 := 0x05340008 },
    .bld { form := .l, d := 0xF8, a := 0xF8, b6 := 0, w1 := 1 }, .sqw { form := .s, d := 0xF8, a := 0xF8, b6 := 32 },
    .sqlp { form := .l, d := 0, a := 0, b6 := 0, w2 := 0 }, .sqe { form := .s, d := 0xF8, a := 0xF8, b6 := 1 }] = true ∧
    accessLegal 0x10 { form := .s, d := 0, a := 0xC0, b6 := 0 } = false ∧ legal 0x0D { form := .s, d := 0xF8, a := 0xF8, b6 := 0 } = false := by
  decide +kernel

/-- The word before an instruction (R85 to R88): a reserved bit; a repeat before RGNO; a step past v191; a guard in word 1. -/
theorem test_illformed_prefix :
    let p : Pfx := { sw := false, rep := 1, std := true, sta := false, stb := false, ppg := 7, ppn := false, psp := 0 }
    let f : Fields := { form := .m, d := 190, a := 0, b6 := 0 }
    decodePfx 0x087003C0 = none ∧ pfxLegal p 0x10 f = true ∧ pfxLegal p 0x10 { f with d := 191 } = false ∧
    pfxLegal p 0x10 { f with pg := 2 } = false ∧ pfxLegal { p with std := false } 0xE0 { form := .s, d := 0xF8, a := 0xF8, b6 := 0 } = false := by
  decide +kernel

/-! Witnesses: each event of the tables can happen in the state beside it. -/

/-- Whether each event happens in the state beside it. -/
def eventsHappen (tbl : Instr → Option Ev) (is : List (Instr × State)) : Bool :=
  is.all (fun e => ((tbl e.1).bind (fun v => v e.2)).isSome)

/-- States with a changed warp, fibre, core or launch engine. -/
def warped (k : Warp → Warp) : State := having (fun g => { g with warps := g.warps.map k })
def fibred (k : Fibre → Fibre) : State := warped (fun w => { w with fibres := w.fibres.map k })
def cored (c : Core) : State := { loaded with cores := [(0, c)] }
def engined (e : Engine) : State := { loaded with engine := e }
/-- STAC in an open region, where its store is held. -/
theorem witness_TileAndRegionInstructionsComplete_stac : tableReady tileFx (oneLane (fibred (fun x => { x with fstat := 0x40 })))
    [.stac { form := .m, d := 0, a := 192, b6 := 0, md := 8 }] = true := by decide +kernel

/-- A fibre whose lanes all stand in one state. -/
def laned (st : LaneState) (x : Fibre) : Fibre := { x with lanes := x.lanes.map (fun l => { l with st := st }) }
/-- Two fibres in the slot: the first with its lanes in a state, the second active. -/
def twoFibres (st : LaneState) : State := warped (fun w => { w with fibres := w.fibres.flatMap (fun x => [laned st x, { x with readyFor := 40 }]) })
/-- Words of device memory at a virtual address of the loaded page. -/
def placed (va : Nat) (bs : List Byte) (s : State) : State := { s with mem := writeBytes s.mem (2 ^ 30 + va) bs }

theorem witness_IssueEventsHappen : eventsHappen issueEvent [
    (.loadDataReturn 1 1, { loaded with prods := [{ id := 1, kind := .load, g := 0, w := 0, f := 0, core := 0, pc := 0
                                                    items := [{ dst := .vec 0 0 0, lane := 0, got := some (.mem { val := 7 }) }] }] }),
    (.parkedAccessPerform 1, cored { up := true, parked := [{ id := 1, g := 0, off := 0, op := .read true false, ig := 0, w := 0, f := 0, lane := 0 }] }),
    (.slotSwitch 0 0, warped (fun w => { w with cur := none })),
    (.forcedSwitch 0 0, twoFibres .exited),
    (.siblingHandover 0 0, twoFibres .active),
    (.barrierRepeatCompletion 0 0, having (fun g => { g with bars := [{ exp := 1, cnt := 1 }] })),
    (.ucwAcknowledge 1, { loaded with pend := [{ id := 1, core := 0, ctx := 0, g := 0, w := 0, f := 0, lane := 0, pc := 0, va := 0, dpa := 0
                                                 words := 1, rmw := .bytes 15 0, prod := none, uc := true, done := true }] })
  ] = true := by decide +kernel

theorem witness_PlacementEventsHappen : eventsHappen placeEvent [
    (.translationWalk 0 0 0x1000, loaded), (.tlbInvalidation 0 0x1000 4096, loaded), (.pageSwap 0 0 (.member 1), { loaded with heat := [(1, 5)] }), (.pageSwap 0 0 (.pin true), loaded),
    (.pageSwap 0 0 (.rewrite 2), { loaded with atlas := [(0, 3)] }),
    (.pageMigration 0 0 0 true [], loaded),
    (.pageMigration 0 0 0x40000000 false [(0, 7)], loadLine (2 ^ 16) (entryWords (2 ^ 30 + 13 + 16)) loaded),
    (.fetchNonresMigrate (.fibre 0 0 0) false 0 [], fibred (fun x => { x with nonres := some (0x1000, 0x1000, 0) })),
    (.pftComplete 1, { loaded with pfts := [{ id := 1, g := 0, core := 0, bar := none, frames := [(2 ^ 30, false)] }] }),
    (.pftCancel 1, { having (fun g => { g with pre := .requested }) with
      pfts := [{ id := 1, g := 0, core := 0, bar := some 0, frames := [] }] })
  ] = true := by decide +kernel

/-- A message in flight for line 5 of the loaded page. -/
def sent (k : MsgKind) : State := { loaded with msgs := [{ id := 1, cls := .request, kind := k, core := 0, line := 2 ^ 23 + 5, mask := 1 }] }

theorem witness_RegistryEventsHappen : eventsHappen registryEvent [
    (.reg 1, sent (.reg false)), (.rd 1, sent .rd), (.ucw 1, sent (.ucw 0)), (.ack 1, sent (.ack false)), (.fwd 1, sent (.fwd 0)),
    (.rev 1, sent (.rev false)), (.binv 1, sent .binv), (.reva 1, sent .reva), (.revs 1, sent (.revs [2 ^ 23 + 5])), (.data 1, sent .data),
    (.wb 1, sent .wb), (.noown 1, sent (.noown none)), (.claim 1, sent .claim),
    (.registryError (2 ^ 23 + 5) false, { loaded with owners := [(32 * (2 ^ 23 + 5), 0)] }),
    (.claimTimeout 0, { loaded with holds := [{ id := 1, lines := [2 ^ 23 + 5], why := .claimLine, waitCores := [0], held := [] }] }),
    (.mscTagParity (2 ^ 23 + 5) false true, { loaded with msc := [(2 ^ 23 + 5, (0, false))] }),
    (.flitResendLimit 1 0 false, sent .data)
  ] = true := by decide +kernel

/-- A queue descriptor: its priority, one record written; and a launch of one group. -/
def aQueue (prio : Byte) : List Byte := [0, 0, 0, 0, 0, 0, 0, 0, 0, prio, 1, 0, 0, 0, 0, 0, 1] ++ List.replicate 47 0
def aLaunch : Launch := { lsn := 1, queue := 0, slot := 0, ctx := 0, prio := 0, record := {}, stages := [{ record := {} }] }

theorem witness_LaunchEventsHappen : eventsHappen launchEvent [
    (.qnotify 0, loaded), (.slotServe, engined { lectl := 1 }),
    (.placementPass 1, engined { launches := [aLaunch] }),
    (.groupRetire 0, having (fun g => { g with seq := {}, warps := g.warps.map (fun w => { w with fibres := w.fibres.map (laned .exited) }) })),
    (.launchEnd 1, engined { launches := [{ aLaunch with reason := 1 }] }), (.rebalExpiry, loaded), (.lectlEn true, loaded),
    (.lectlPause true, loaded), (.lestat 0, loaded)
  ] = true := by decide +kernel

/-- A page table of one page; a table of queues, of which queue 1 has priority 3 and a record; a pending bitmap at the page's
end, so that one word of it is read: queue 1 is pending. A slot holds queue 100,000, which stands outside the page. -/
def twoQueues : State :=
  { ctxs := [loadCtx State.reset], slices := 1, tables := loaded.tables
    mem := [(0, 3), (2, 1), (0x10000, 13), (0x10003, 0x40), (0x7FFF8049, 3), (0x7FFF804A, 1), (0x7FFF8050, 1), (0x7FFFFFC0, 2)]
    engine := { lectl := 1, qtbase := 0x3FFF8000, qtcnt := 2, pnbase := 0x3FFFFFC0
                slots := [(0, { queue := 100000, raised := true, waited := 0 }), (1, { queue := 1, raised := true, waited := 0 })] } }

theorem witness_AgeperExpiry : eventsHappen launchEvent [(.ageperExpiry, twoQueues)] = true := by decide +kernel

theorem witness_SlotReclaim : eventsHappen launchEvent [(.slotReclaim 0, twoQueues)] = true := by decide +kernel

theorem witness_RecordAccept : eventsHappen launchEvent [(.recordAccept 1, { twoQueues with
    engine := { twoQueues.engine with chosen := some 1 } })] = true := by decide +kernel

/-- A command of a class, and its state of progress. -/
def aCmd (cls : Nat) : Cmd := { id := 1, g := 0, w := 0, f := 0, core := 0, pc := 0, tag := 1, cls := cls, desc := [], pred := none, strict := false }
def sequenced (k : Seq → Seq) : State := having (fun g => { g with seq := k g.seq })

theorem witness_EngineEventsHappen : eventsHappen engineEvent [
    (.commandStart 1, { loaded with cmds := [aCmd 1] }), (.commandStart 1, { loaded with cmds := [aCmd 0] }),
    (.commandComplete 1, { loaded with cmds := [{ aCmd 1 with started := true }] }),
    (.queueEntryFill 1 1, { loaded with prods := [{ id := 1, kind := .copy, g := 0, w := 0, f := 0, core := 0, pc := 0
                                                    items := [{ dst := .queue 0 0 0 0, lane := 0, got := some (.reg {}) }] }] }),
    (.engineDispatch 1, { loaded with cmds := [{ aCmd 1 with dispatched := true }], pool := [1] }),
    (.dispatchDeadline 1, { loaded with cmds := [{ aCmd 1 with dispatched := true }] }),
    (.matrixComplete 0, sequenced (fun q => { q with ops := [{ id := 1, w := 0, spc := 0, acz := true, accs := [] }] })),
    (.bldFinish 0, sequenced (fun q => { q with slots := [{ busy := true }] })), (.tokenGrant 0, { loaded with tokens := [(0, 0)] }),
    (.tokenArrive 0, cored { up := true, tokenAsked := true }), (.tokenIdleReturn 0, loaded),
    (.tokenHoldLimit 0, cored { up := true, tokenHeld := true }),
    (.faultServiceDone 0 0 0 (some []), fibred (fun x => { x with park := some { lanes := 1, pc := 0x1000, rel := false, target := 0x1004 } }))
  ] = true := by decide +kernel

/-- A save area in the context, and a saved group. -/
def areaCtx : Ctx := { loadCtx State.reset with cfg := { (loadCtx State.reset).cfg with saveArea := some (BitVec.ofNat 64 (2 ^ 31), 2 ^ 24) } }
def savedGroup : Saved := { g := 1, lsn := 0, core := 0, ctx := 0, addr := 2 ^ 31, size := 0, group := { loadGroup with pre := .saved }
                            cmds := [], parked := [], queued := [], done := true }

theorem witness_PreemptionEventsHappen : eventsHappen preemptEvent [
    (.timeSliceExpiry 1, engined { launches := [{ aLaunch with record := { w := 0 } }] }), (.denufPreempt (.ctx 0), loaded),
    (.denufPreempt (.launch 0), loaded),
    (.forcedSave 0, having (fun g => { g with pre := .requested, warps := g.warps.map (fun w => { w with fibres := w.fibres.map (fun x =>
      { x with quar := [{ kind := .st, ty := 8, pc := 0 }] }) }) })),
    (.saveStart 0, { having (fun g => { g with pre := .forced }) with ctxs := [areaCtx] }),
    (.saveComplete 0, { loaded with groups := [(0, { loadGroup with pre := .saving }), (1, { loadGroup with pre := .saving })] }),
    (.restoreStart 1, { loaded with saved := [savedGroup] }), (.restoreComplete 0, having (fun g => { g with pre := .restoring }))
  ] = true := by decide +kernel

/-- A message of one word to the device itself, or to a peer, in a context with both. -/
def aMsg (op : Nat) (peer : Byte) : XMsg :=
  { id := 1, op := op, g := 0, w := 0, f := 0, core := 0, ctx := 0, pc := 0, started := true
    desc := [peer] ++ List.replicate 23 0 ++ [4] ++ List.replicate 103 0 }
def peered (op : Nat) (peer : Byte) : State :=
  let c := loadCtx State.reset
  { loaded with xmsgs := [aMsg op peer], ctxs := [{ c with cfg := { c.cfg with peers :=
    [{ valid := true, addr := 0, job := 0, self := true }, { valid := true, addr := 1, job := 0, self := false }] } }] }
def aPacket (k : PacketKind) (fromPeer : Bool) : Packet :=
  { msg := 1, job := 0, kind := k, idx := 0, count := 1, msgLen := 4, words := [(7, false)], rne := false, rslot := 0, fromPeer := fromPeer }

theorem witness_TransportEventsHappen : eventsHappen transportEvent [
    (.packetArrive (aPacket (.write 0 0) true), loaded), (.packetArrive (aPacket .readReply true), peered 0xD1 1),
    (.packetArrive (aPacket (.write 0 0) false), peered 0xD0 0), (.packetResend 1 0, peered 0xD0 1), (.messageTimeout 1, peered 0xD0 1),
    (.nobufDeadline 1, peered 0xD2 1), (.finalAck 1 0, peered 0xD0 1), (.congestionUpdate 0 1 [], peered 0xD0 1),
    (.syscAnswer 1 0, { loaded with sysc := [{ id := 1, g := 0, w := 0, f := 0, pc := 0, lanes := [0], block := List.replicate 64 0 }] })
  ] = true := by decide +kernel

theorem witness_ErrorEventsHappen : eventsHappen errorEvent [
    (.timingReplay 0 0 true, loaded), (.parityError (.control (.fibre 0 0 0)), loaded), (.parityError (.control (.seq 0)), loaded),
    (.parityError (.control (.ap 0 0)), loaded), (.parityError (.spad 0 3), loaded), (.parityError (.mem 5 true), loaded), (.parityError (.mem 5 false), loaded),
    (.parityError (.corrected 0 1 0), loaded),
    (.parityError (.l1 0 5), { loaded with cores := [(0, { l1 := [(5, { st := .valid, ctx := 0, word := {} })] })] }), (.parityError (.atlas 0 7), loaded),
    (.parityError (.bstore 0 0 0), having (fun g => { g with seq := { g.seq with slots := [{ tiles := [([], none)] }] } }))
  ] = true := by decide +kernel

def scrubbing : State := { loaded with scrub := { ctl := 3 } }
def aContext : CtxCfg := { (loadCtx State.reset).cfg with num := 1 }

theorem witness_SystemEventsHappen : eventsHappen systemEvent [
    (.teardown 0, loaded), (.scrctlGo, loaded), (.scrctlBlock, loaded), (.scrstat 0, loaded), (.scrubDone [], scrubbing),
    (.partitionReset, scrubbing), (.partitionCut 0 2, { State.reset with boot := .running }),
    (.dieReplace 0, loaded), (.dieReplace 0, { loaded with groups := [] }), (.dieLost 0, loaded), (.layerMapOut 0 1, loaded), (.mailboxRequest [1], loaded), (.eventRingConsume 1, loaded),
    (.rastail 0, loaded), (.rasstat 0, loaded), (.powerUp true [], State.reset), (.firmwareReflash true, { State.reset with boot := .failed }),
    (.powerLoss, loaded), (.partitionStart, { loaded with started := false }), (.coreUp 0, cored {}), (.mgmtCoreFail 0, loaded),
    (.clockThrottle 0 true, loaded), (.contextBind aContext, loaded)
  ] = true := by decide +kernel

/-! Witnesses: sequencers, access processors, and the word before an instruction. -/

/-- Whether a stream instruction meets the hypotheses of its completion, and whether it halts its sequencer. -/
def streamGoes (s : State) (is : List Instr) : Bool :=
  is.all (fun i => i.wellFormed && match streamSx i with
    | some e => s.turn == .stream 0 && e.halt 0 s == none && e.ready 0 s
    | none => false)
def streamHalts (s : State) (is : List Instr) : Bool :=
  is.all (fun i => i.wellFormed && match streamSx i with
    | some e => s.turn == .stream 0 && (e.halt 0 s).isSome && (s.group? 0).isSome
    | none => false)

/-- The sequencer has the turn; a BLD descriptor of one e4m3 tile stands at the scratchpad's start; barrier 1 has moved on. -/
def streaming : State := { having (fun g => { g with
  spad := [(4, { val := 1 }), (5, { val := 13 })], bars := g.bars.set 1 { phase := 1 } }) with turn := .stream 0 }

theorem witness_StreamInstructionsComplete : streamGoes streaming [
    .mma { form := .m, d := 0, a := 0, b6 := 0, w1 := 0x07B40000 },
    .mms { form := .l, d := 0, a := 0xF8, b6 := 0, w1 := 0x07B40000 },
    .bld { form := .l, d := 0xF8, a := 0xF8, b6 := 0 }, .acz { form := .s, d := 0, a := 0xF8, b6 := 0 },
    .sqw { form := .s, d := 0xF8, a := 0xF8, b6 := 1 }, .sqa { form := .s, d := 0xF8, a := 0xF8, b6 := 1 },
    .sqlp { form := .l, d := 0, a := 0, b6 := 0, w2 := 2 }, .sqe { form := .s, d := 0xF8, a := 0xF8, b6 := 0 }] = true := by
  decide +kernel

/-- ACZ of one accumulator more than there are (R359), and SQW of a barrier that the group lacks (R323), halt the sequencer. -/
theorem witness_StreamHaltFailsGroup : streamHalts { having (fun g => { g with bars := [] }) with turn := .stream 0 } [
    .acz { form := .s, d := 0x3F, a := 0xF8, b6 := 1 }, .sqw { form := .s, d := 0xF8, a := 0xF8, b6 := 0 }] = true := by decide +kernel

/-- The access processor has the turn, and its owner's registers hold 0. -/
def accessing : State := { loaded with turn := .access 0 0 }

theorem witness_AccessInstructionsComplete :
    (accessing.turn == .access 0 0 && !accessing.walksOut 0 (accessing.apAt 0 0).ownerW 4 (accessing.apAt 0 0).spc && (accessing.group? 0).isSome &&
     (accessing.groupAt 0).aps.any (fun a => a.1 == 0) &&
     (apEx accessing 0 0 0x1E { form := .m, d := 0xC0, a := 0xC0, b6 := 0, b := 0xC0, c := 7 } |> fun x => accessing.ready x { c := false }) &&
     ldqReady 0 0 (apEx accessing 0 0 0xC5 { form := .m, d := 0, a := 0xC0, b6 := 0 }) accessing &&
     (apEx accessing 0 0 0x02 { form := .s, d := 0, a := 0, b6 := 0 } |> fun x => bruReady x accessing && (bruVal x accessing).isLeft) &&
     (apEx accessing 0 0 0x09 { form := .s, d := 0xC0, a := 0, b6 := 0 } |> fun x =>
       accessing.posReady x x.k.d x.f.d false && (tested (accessing.readCode x x.f.d 0 x.low)).isLeft) &&
     (integerAlu (.iadd { form := .s, d := 0xC0, a := 0xC0, b6 := 1 })).any (fun a => accessing.ready (apEx accessing 0 0 a.op a.f) {})) = true := by
  decide +kernel

theorem witness_PrefixWordIsRead :
    loaded.turn = .issue thePath none ∧ (loaded.group? thePath.g).isSome = true ∧ thePath.w < (loaded.groupAt thePath.g).warps.length ∧
    thePath.f < (loaded.warpAt thePath.g thePath.w).fibres.length := by decide +kernel

/-! Witnesses: results and frames. -/

/-- Whether a register-to-register instruction meets the hypotheses about its sources: all are full and unpoisoned. -/
def aluReads (i : Instr) (s : State) : Option (Alu × Bool) :=
  ((integerAlu i).orElse (fun _ => floatAlu i)).map (fun a => (a, match s.turn with
    | .issue p _ =>
      let x := s.exOf p a.op a.f
      issues s a.op a.f && (s.start p a.f).ready x {} && x.parts.all (fun l => (a.srcs x (s.start p a.f) l).flatten.all (fun v => match v with
        | .ok w => !w.poison
        | .new _ _ _ => false))
    | _ => false))
def vectorGoes (s : State) (is : List Instr) : Bool :=
  is.all (fun i => i.wellFormed && match aluReads i s with
    | some (a, b) => b && decide (a.f.d.toNat < 0xC0)
    | none => false)

/-- Registers of lane 0 in the low words; the guard p0 is poisoned in lane 0, true in lane 1 and false in lane 2. -/
def filled (vs : List (Nat × RegWord)) : State := warped (fun w => { w with regs := vs })
def guardP0 (i : Nat) : Pred := if i = 0 then { val := false, bad := some 0x40 } else { val := decide (i = 1) }
def guarded : State := fibred (fun x => { x with lanes := x.lanes.mapIdx (fun i l => { l with preds := l.preds.set 0 (guardP0 i) }) })

theorem witness_PoisonedGuardStrands : (issues guarded 0x10 { form := .m, d := 0, a := 0, b6 := 0, pg := 0 } &&
    (guarded.predAt thePath 0 0).bad == some 0x40 && (guarded.predAt thePath 1 0) == { val := true } &&
    (guarded.predAt thePath 2 0) == { val := false }) = true := by decide +kernel

/-- A fence that can complete stands beside one that cannot, behind a load that has no data; and the array writes v0 with an
earlier value. -/
def fenced : State := { fibred (fun x => { x with fences := [{ id := 1, rel := true, acq := true }, { id := 9, rel := false, acq := true }] }) with
  prods := [{ id := 3, kind := .load, g := 0, w := 0, f := 0, core := 0, pc := 0, items := [{ dst := .vec 0 0 99, lane := 0 }] }] }
def drifting : State := having (fun g => { g with seq := { g.seq with
  ops := [{ id := 1, w := 0, spc := 0, acz := false, accs := [0], outs := [{ hist := [[{}], [{ val := 7 }]] }] }] } })

theorem witness_StartSettles : (issues fenced 0x10 { form := .m, d := 0, a := 0, b6 := 0 } &&
    (fenced.fibreAt 0 0 0).fences.map (fenced.fenceDone 0 0 0) == [true, false] && (drifting.regAt 0 0 0).full) = true := by decide +kernel

/-- No fence holds NOP. -/
theorem fences_pass_nop (s : State) (g w f : Nat) : s.fenceHolds g w f 0x00 = false := by
  simp [State.fenceHolds, relHolds, acqHolds]

theorem witness_StartSettles_array : Issuing drifting thePath none 0x00 { form := .s, d := 0xF8, a := 0xF8, b6 := 0 } :=
  { turn := by decide +kernel, window := by decide +kernel, parts := by decide +kernel, free := fences_pass_nop .., late := by decide +kernel
    walks := by decide +kernel, placed := by decide +kernel, warp := by decide +kernel, fibre := by decide +kernel, active := by decide +kernel
    quiet := by decide +kernel, going := by decide +kernel }

theorem witness_VectorResultAndFrame : vectorGoes loaded [.iadd { form := .s, d := 0, a := 1, b6 := 1 },
    .imul { form := .m, d := 2, a := 4, b6 := 0, b := 6, md := 6 }, .fadd { form := .m, d := 0, a := 1, b6 := 0, b := 2, md := 10 }] = true := by
  decide +kernel

/-- A uniform destination with every live lane in the path (a whole write), with one of them poisoned, and with lane 0 alone. -/
theorem witness_UniformResultAndFrame :
    let i : Instr := .iadd { form := .s, d := 0xC0, a := 0, b6 := 1 }
    let go := fun (s : State) (b : Bool) => match aluReads i s, s.turn with
      | some (a, _), .issue p _ => issues s a.op a.f && (s.start p a.f).ready (s.exOf p a.op a.f) {} &&
        (s.fibreAt p.g p.w p.f).ring.length == 16 && (s.exOf p a.op a.f).whole (s.start p a.f) == b
      | _, _ => false
    (go loaded true && go (filled [(1, { val := 0x40, poison := true })]) true && go (oneLane loaded) false) = true := by decide +kernel

theorem witness_PredicateResultAndFrame : ([Instr.icmp { form := .s, d := 0, a := 0, b6 := 1 }, .icmp { form := .s, d := 7, a := 0, b6 := 1 },
    .pmov { form := .s, d := 0, a := 0, b6 := 0 }].all (fun i => i.wellFormed && match testOp i with
      | some a => [loaded, filled [(0, { val := 0x40, poison := true })]].all (fun s => issues s a.op a.f &&
          (s.start thePath a.f).ready (s.exOf thePath a.op a.f) {})
      | none => false)) = true := by decide +kernel

/-- Fields of an M-form instruction over v2:v3 := v4:v5, v6:v7, v8:v9. -/
def over3 (md : BitVec 5) (sub : BitVec 4) : Fields := { form := .m, d := 2, a := 4, b6 := 0, b := 6, c := 8, md := md, sub := sub }
def over2 (md : BitVec 5) (sub : BitVec 4) : Fields := { over3 md sub with c := 0xF8 }

theorem witness_WordResults : vectorGoes loaded (List.flatten [[(0 : BitVec 5), 1].flatMap (fun m => [.iadd (over2 m 0), .isub (over2 m 0), .imul (over2 m 0),
    .imad (over3 m 0), .iadd3 (over3 m 0)]), [.imin (over2 0 0), .imax (over2 0 0), .shl (over2 8 0), .shr (over2 8 0), .sar (over2 8 0)],
    [(0 : BitVec 4), 1].flatMap (fun u => [.and (over2 8 u), .or (over2 8 u), .xor (over2 8 u)])]) = true := by decide +kernel

/-- The narrow types, pairs and halves; shifts of pairs and halves, with and without .wrap. -/
theorem witness_WordResults_types : vectorGoes loaded (List.flatten [
    [((4 : BitVec 5), (0 : BitVec 4)), (7, 0), (2, 8), (3, 8)].flatMap (fun t => [.iadd (over2 t.1 t.2), .isub (over2 t.1 t.2), .imul (over2 t.1 t.2),
      .imad (over3 t.1 t.2), .iadd3 (over3 t.1 t.2), .imin (over2 t.1 t.2), .imax (over2 t.1 t.2)]),
    [((8 : BitVec 5), (1 : BitVec 4)), (9, 0), (9, 1), (3, 8), (3, 9)].flatMap (fun t => [.shl (over2 t.1 t.2), .shr (over2 t.1 t.2)]),
    [.sar (over2 9 1), .sar (over2 2 8), .sar (over2 2 9)]]) = true := by decide +kernel

theorem witness_PairResults : vectorGoes loaded (List.flatten [[(6 : BitVec 5), 7].flatMap (fun m => [.iadd (over2 m 0), .isub (over2 m 0), .imul (over2 m 0)]),
    [(0 : BitVec 4), 1].flatMap (fun u => [.and (over2 9 u), .or (over2 9 u), .xor (over2 9 u)])]) = true := by decide +kernel

theorem witness_DivisionResults : vectorGoes loaded (List.flatten [([0, 1, 2, 3, 4, 5, 6, 7] : List (BitVec 5)).flatMap (fun m => [.idiv (over2 m 0), .irem (over2 m 0)]),
    [.idiv (over2 2 8), .irem (over2 3 8)]]) = true := by decide +kernel

theorem witness_DotProductOfBytes : vectorGoes loaded [.idot4 (over3 4 0), .idot4 (over3 5 0), .idot4 (over3 4 1)] = true := by decide +kernel

/-- A quiet NaN in v4 and a signalling one in v6, in lane 0. -/
def nans : State := oneLane (filled [(128, { val := 0x7FC00000 }), (192, { val := 0x7F800001 })])

theorem witness_NanOperands : (vectorGoes nans [.fadd (over2 10 0), .fmul (over2 10 0), .ffma (over3 10 0), .fdiv (over2 10 0),
    .fsqrt { over2 10 0 with b := 0xF8 }, .frcp { over2 10 0 with b := 0xF8 }, .frsq { over2 10 0 with b := 0xF8 }, .fex2 { over2 10 0 with b := 0xF8 },
    .flg2 { over2 10 0 with b := 0xF8 }] && isNaN32 (nans.regAt 0 0 128).val && isSNaN32 (nans.regAt 0 0 192).val) = true := by decide +kernel

theorem witness_ResiduesOfWords :
    (integerAlu (.iadd (over2 0 0))).isSome = true ∧ ({ res := 15 } : RegWord).res = 15 ∧ ({ res := 15 } : RegWord).poison = false := by decide +kernel

/-- No word of a machine after reset carries code 15, and what an IADDC and a load give are words. -/
theorem witness_ResiduesOfWords_kept : No15 State.reset ∧ firstBad [Val.ok (mkWord 1), .ok (mkWord 2)] = none ∧
    (addCarry false [[.ok (mkWord 1)], [.ok (mkWord 2)]]).1 = .ok (mkWord 3) ∧
    ({ dst := .none, lane := 0, got := some (.mem {}) } : Item).value = .ok (mkWord 0) :=
  ⟨fun g w => ⟨fun o => by rw [show State.reset.regAt g w o = {} from rfl]; decide,
    fun f n => by rw [show State.reset.uregAt g w f n = {} from rfl]; decide⟩, by decide +kernel, by decide +kernel, by decide +kernel⟩

theorem witness_NopChangesOnlyPc : issues loaded 0x00 { form := .s, d := 0xF8, a := 0xF8, b6 := 0 } = true := by decide +kernel

theorem witness_RecordsFillTheRing :
    ({} : Fibre).ring = List.replicate 16 {} ∧ ridxOf ({} : Fibre).fstat = 0 ∧
    ∀ r ∈ List.replicate 17 ({ cause := 2 } : Cart), r.cause ≠ 0 ∧ r.cause ≠ BitVec.ofNat 8 cOVERFLOW := by decide +kernel

theorem witness_FreezeStopsTheFibre : (loaded.group? thePath.g).isSome = true ∧ thePath.w < (loaded.groupAt thePath.g).warps.length ∧
    thePath.f < (loaded.warpAt thePath.g thePath.w).fibres.length ∧ (loaded.groupAt thePath.g).barOps = [] := by decide +kernel

/-- s0 holds a word, poisoned or not; a pair of v0:v1 holds a misaligned target in every lane. -/
def uniform0 (w : RegWord) : State := fibred (fun x => { x with uregs := [(0, w)] })
def targets : State := filled ((List.range 32).map (fun l => (l, { val := 2, res := 2 })))

theorem witness_ControlErrorsFreeze :
    let bad := uniform0 { val := 0x20, poison := true }
    let bru : Fields := { form := .m, d := 0, a := 0, b6 := 0, b := 0xC0 }
    let jmx : Fields := { form := .s, d := 0xF8, a := 0, b6 := 0 }
    (issues bad 0x02 bru && bruReady (bad.exOf thePath 0x02 bru) (bad.start thePath bru) &&
      (bad.start thePath bru).readCode (bad.exOf thePath 0x02 bru) 0xC0 0 0 == .ok { val := 0x20, poison := true } &&
      issues bad 0x09 { form := .s, d := 0xC0, a := 0, b6 := 0 } &&
      [0x03, 0x05].all (fun op => issues targets op jmx && (targets.start thePath jmx).ready (targets.exOf thePath op jmx) { b := false, c := false } &&
        (jumpTargets (targets.exOf thePath op jmx) (targets.start thePath jmx)).any (fun r => r.2.extractLsb' 0 2 != 0)) &&
      windowOk (((fibred (fun x => { x with win := 0x30000 }))).pathFibre thePath) 0x10
        (loaded.exOf thePath 0x10 { form := .s, d := 48, a := 0, b6 := 0 }).k { form := .s, d := 48, a := 0, b6 := 0 } == false) = true := by
  decide +kernel

theorem witness_BranchOnUniform :
    let f : Fields := { form := .m, d := 0, a := 0, b6 := 0, b := 0xC0 }
    let good := uniform0 { val := 1, res := 1 }
    ((Instr.bru f).wellFormed && issues loaded 0x02 { form := .s, d := 0, a := 0, b6 := 0 } && issues good 0x02 f &&
      bruReady (good.exOf thePath 0x02 f) (good.start thePath f) &&
      (good.start thePath f).readCode (good.exOf thePath 0x02 f) 0xC0 0 0 == .ok { val := 1, res := 1 } &&
      accessing.turn == .access 0 0 && !accessing.walksOut 0 (accessing.apAt 0 0).ownerW 4 (accessing.apAt 0 0).spc && bruReady (apEx accessing 0 0 0x02 f) accessing &&
      accessing.readCode (apEx accessing 0 0 0x02 f) 0xC0 0 0 == .ok {}) = true := by decide +kernel

theorem witness_RegionsFlatten : let s := fibred (fun x => { x with fstat := 0xFFFFFFFF })
    (issues s 0xE0 { form := .s, d := 0xF8, a := 0xF8, b6 := 0 } && (s.fibreAt 0 0 0).inRegion) = true := by decide +kernel

theorem witness_FstartStartsTheFibre :
    let s := warped (fun w => { w with fibres := w.fibres.flatMap (fun x => [x, laned .exited x]) })
    let f : Fields := { form := .s, d := 0, a := 0xF8, b6 := 0, sub := 1 }
    (issues s 0x08 f && (s.start thePath f).coreRelease (s.exOf thePath 0x08 f) true && fstartCan (s.exOf thePath 0x08 f) (s.start thePath f)) = true := by
  decide +kernel

theorem witness_BarrierCompletes : let s := having (fun g => { g with bars := [{ exp := 2, cnt := 3, drop := 1 }] })
    (s.group? 0).isSome = true ∧ 0 < (s.groupAt 0).bars.length ∧ (s.barAt 0 0).exp ≠ 0 ∧ (s.barAt 0 0).exp ≤ (s.barAt 0 0).cnt ∧
    (s.barAt 0 0).cnt ≤ 65535 := by decide +kernel

theorem witness_ScratchpadStoreFrame : let s := oneLane loaded; let f : Fields := { form := .s, d := 0, a := 0, b6 := 0, md := 8 }
    let p := { thePath with mask := 1 }
    (issues s 0x83 f && stsReady (s.exOf p 0x83 f) (s.start p f) && !(s.fibreAt 0 0 0).inRegion &&
      !((s.start p f).spLocs (s.exOf p 0x83 f) [0] 4).isEmpty) = true := by decide +kernel

theorem witness_StoreFrame : let s := oneLane loaded; let f : Fields := { form := .s, d := 0, a := 0, b6 := 0, md := 8 }
    let p := { thePath with mask := 1 }
    (issues s 0x81 f && storeReady false (s.exOf p 0x81 f) (s.start p f) && !(s.fibreAt 0 0 0).inRegion &&
      !(storeLocs false (s.exOf p 0x81 f) (s.start p f)).1.isEmpty &&
      !(storeOut false (s.exOf p 0x81 f) (s.start p f)).walksOut p.g p.w p.f p.pc && s.lineKeys.isEmpty &&
      [true, false].all (fun enc => s.keyFor ((s.exOf p 0x81 f).ctx s) enc == 0)) = true := by decide +kernel

/-- The next state of an outcome. -/
def nextOf (o : Host.Outcome State Fault Refusal) : Option State :=
  match o with
  | .next t => some t
  | _ => none

theorem witness_RegistersReadBack : (List.flatten [[0, 8, 16, 24, 32, 40, 48, 56, 64, 72, 80, 256, 257, 768].map (fun o => (RegPage.launch, o)),
    [0, 8, 16, 24, 32, 40].map (fun o => (RegPage.scrub, o)), [0, 8, 16, 24, 32, 40, 48, 56].map (fun o => (RegPage.ras, o)), [(.notify, 0)]]).all (fun e =>
    (nextOf (exec (.registerWrite e.1 e.2 0x2000) loaded)).isSome) = true := by decide +kernel

theorem witness_RegistrationMakesOwner : ((sent (.reg false)).takeMsg 1).any (fun r => r.1.kind == .reg false &&
    (r.2.holds.find? (fun h => h.lines.contains r.1.line)) == none) = true := by decide +kernel

/-- Of the lines of a slice some seventeen stand in one set of its registry, whatever the function that chooses a line's set. -/
theorem crowded_set : ∃ (a : Nat) (ls : List Nat), 16 ≤ ls.length ∧ a ∉ ls ∧ ls.Nodup ∧ (∀ b ∈ a :: ls, lineSlice b = 0 ∧ sameSet a b = true) := by
  have h := Finset.exists_lt_card_fiber_of_mul_lt_card_of_maps_to (s := Finset.range 2097153) (t := Finset.range 131072) (n := 16)
    (f := fun l => Config.registrySet l % 131072) (fun l _ => Finset.mem_range.2 (Nat.mod_lt _ (by decide))) (by simp)
  obtain ⟨y, -, hy⟩ := h
  rw [← Finset.length_toList] at hy
  have hn := Finset.nodup_toList {x ∈ Finset.range 2097153 | Config.registrySet x % 131072 = y}
  have hm : ∀ b ∈ Finset.toList {x ∈ Finset.range 2097153 | Config.registrySet x % 131072 = y},
      lineSlice b = 0 ∧ Config.registrySet b % 131072 = y := by
    intro b hb
    rw [Finset.mem_toList, Finset.mem_filter, Finset.mem_range] at hb
    exact ⟨by unfold lineSlice dpaSlice; omega, hb.2⟩
  generalize Finset.toList {x ∈ Finset.range 2097153 | Config.registrySet x % 131072 = y} = ls at hy hn hm
  match ls, hy, hn, hm with
  | a :: ls, hy, hn, hm =>
    refine ⟨a, ls, by simpa using hy, (List.nodup_cons.1 hn).1, (List.nodup_cons.1 hn).2, fun b hb => ⟨(hm b hb).1, ?_⟩⟩
    simp [sameSet, lineHub, (hm b hb).1, (hm b hb).2, (hm a (List.mem_cons_self ..)).1, (hm a (List.mem_cons_self ..)).2]

/-- A list without repeats has none to erase. -/
theorem eraseDups_of_nodup (ls : List Nat) (h : ls.Nodup) : ls.eraseDups = ls := by
  induction ls with
  | nil => rfl
  | cons a r ih =>
    rw [List.eraseDups_cons, List.filter_eq_self.2, ih (List.nodup_cons.1 h).2]
    intro b hb
    have : b ≠ a := fun e => (List.nodup_cons.1 h).1 (e ▸ hb)
    simp [this]

/-- A registration of a line whose set is full. -/
theorem witness_RegistrationMakesOwner_full : ∃ (s t : State) (m : Msg), s.takeMsg 1 = some (m, t) ∧ m.kind = .reg false ∧
    t.holds.find? (fun h => h.lines.contains m.line) = none ∧ s.fullSet m.line ≠ [] := by
  obtain ⟨a, ls, hl, ha, hn, hb⟩ := crowded_set
  let m : Msg := { id := 1, cls := .request, kind := .reg false, core := 0, line := a, mask := 1 }
  refine ⟨{ State.reset with owners := ls.map (fun l => (32 * l, 0)), msgs := [m] }, { State.reset with owners := ls.map (fun l => (32 * l, 0)) },
    m, by simp [State.takeMsg, m]; rfl, rfl, rfl, ?_⟩
  have h1 : ((ls.map (fun l => (32 * l, 0))).map (fun e : Nat × Nat => e.1 / 32)).filter (fun l => lineHub l == lineHub a) = ls := by
    rw [List.map_map, List.map_congr_left (g := id) (fun l _ => by simp), List.map_id]
    exact List.filter_eq_self.2 (fun l hl => by simp [lineHub, (hb l (List.mem_cons_of_mem _ hl)).1, (hb a (List.mem_cons_self ..)).1])
  have h2 : ls.filter (sameSet a) = ls := List.filter_eq_self.2 (fun l hl => (hb l (List.mem_cons_of_mem _ hl)).2)
  have hne : ls ≠ [] := by intro e; rw [e] at hl; simp at hl
  simp only [State.fullSet, State.registered, h1, m, eraseDups_of_nodup ls hn, h2]
  simpa [ha, Nat.not_lt.2 hl] using hne

theorem witness_SyscSendsRequest : let f : Fields := { form := .s, d := 0xC0, a := 0xC0, b6 := 0 }
    let x := loaded.exOf thePath 0xE5 f; let s := loaded.start thePath f
    (issues loaded 0xE5 f && s.ready x { b := false, c := false } && s.syscOf x == none &&
      ((s.syscSeen x (s.readCode x f.a 0 x.low)).syscBlock x (s.readCode x f.a 0 x.low)).isLeft &&
      s.relReady 0 0 0 && decide (s.sysc.length < 256)) = true := by decide +kernel

/-- v0 is empty in lane 0, so that IADD waits; a queue's head stands for lane 0. -/
theorem witness_SourcesAreRead :
    let empty := filled [(0, { full := false })]
    let queue := having (fun g => { g with queues := [(0, { entries := [(0, [{ val := 7, res := 7 }])] })] })
    let f : Fields := { form := .s, d := 1, a := 0, b6 := 1 }
    let x := queue.exOf thePath 0x10 f
    (issues empty 0x10 f && !(empty.start thePath f).ready (empty.exOf thePath 0x10 f) {} && loaded.lateUnit x == none && queue.lateUnit x == none &&
      ((x.group queue).aps.find? (fun e => e.1 == (x.fibre queue).qmap.getD 0 0 / 8)).isSome &&
      (sget (x.group queue).queues ((x.fibre queue).qmap.getD 0 0)).any (fun q => !q.entries.isEmpty)) = true := by decide +kernel

theorem witness_AczClearsAccumulators :
    let o : MatrixOp := { id := 1, w := 0, spc := 0, acz := true, accs := [0x2000] }
    let s := sequenced (fun q => { q with ops := [o] })
    (s.group? 0).isSome = true ∧ (s.groupAt 0).seq.ops = [o] ∧ o.acz = true ∧ o.outs = [] ∧ o.w < (s.groupAt 0).warps.length := by decide +kernel

/-- A word that has come back for lane 0, and one in the poison line state for lane 1. -/
theorem witness_LoadDataFillsRegisters :
    let p : Prod := { id := 1, kind := .load, g := 0, w := 0, f := 0, core := 0, pc := 0
                      items := [{ dst := .vec 0 0 0, lane := 0, got := some (.mem { val := 7 }) },
                                { dst := .vec 0 0 1, lane := 1, got := some (.mem { bad := true }) }] }
    let s := { loaded with prods := [p] }
    s.prods.find? (fun p => p.id == 1) = some p ∧ p.kind ≠ .copy ∧ (p.items.map (·.dst)).Nodup ∧ (s.group? p.g).isSome = true ∧
    0 < (s.groupAt p.g).warps.length ∧ s.mayDeliver p 3 = true := by decide +kernel

/-- An LDU.acq with a failed lane: it may be delivered alone, and not behind an earlier load. -/
theorem witness_LoadDataFillsRegisters_acquire :
    let p : Prod := { id := 2, kind := .load, g := 0, w := 0, f := 0, core := 0, pc := 0, acq := true
                      items := [{ dst := .uni 0 0 0 1, lane := 0, got := some (.fail cPAGE 0 0) }] }
    let q : Prod := { p with id := 1, acq := false, items := [{ dst := .vec 0 0 0, lane := 0 }] }
    let s := { loaded with prods := [p] }
    s.prods.find? (fun p => p.id == 2) = some p ∧ s.mayDeliver p 1 = true ∧ ({ loaded with prods := [q, p] } : State).mayDeliver p 1 = false ∧
    (∀ i ∈ p.items, i.got.isSome = true) ∧ s.mayDeliver p 0xFFFFFFFF = true ∧ 0 < (s.warpAt 0 0).fibres.length := by decide +kernel

/-- An LDQ's word for lane 0 of an entry. -/
theorem witness_LoadDataFillsRegisters_queue :
    let p : Prod := { id := 1, kind := .copy, g := 0, w := 0, f := 0, core := 0, pc := 0
                      items := [{ dst := .queue 0 0 5 0, lane := 0, got := some (.mem { val := 7 }) }] }
    let s := { having (fun g => { g with queues := [(0, { entries := [(5, List.replicate 32 {})] })] }) with prods := [p] }
    s.prods.find? (fun p => p.id == 1 && p.kind == .copy) = some p ∧ s.askAll 1 32 = s ∧ (p.items.map (·.dst)).Nodup ∧
    (s.group? p.g).isSome = true ∧ p.items.all (fun i => !i.unasked) = true := by decide +kernel

theorem witness_WindowIsTested :
    let f : Fields := { form := .s, d := 48, a := 0, b6 := 0 }
    let s := fibred (fun x => { x with win := 0x30000 })
    (fibreInstr (.iadd f) == some (0x10, f) && s.turn == .issue thePath none &&
      (namedRegs 0x10 (s.exOf thePath 0x10 f).k f).any (fun r => decide (2048 * 3 < (regBytes (s.pathFibre thePath) r).1 + (regBytes (s.pathFibre thePath) r).2)) &&
      issues loaded 0x10 f) = true := by decide +kernel

/-! Witnesses: decoding and stepping. -/

theorem witness_EncodeThenDecode : let i : Instr := .iadd { form := .m, d := 0, a := 1, b6 := 0, b := 2 }
    (i.wellFormed && !(encode i).isEmpty) = true := by decide +kernel

theorem witness_DecodeThenEncode : [0x03E3E000#32].length = wordsOf 0x03E3E000 ∧ (decodeAny [0x03E3E000]).isSome = true := by decide +kernel

/-- Whether a word is fetched from an address with nothing changed. -/
def fetched (s : State) (va : Nat) (w : Word) : Bool :=
  (match (s.fetchWord 0 0 va).1 with
    | .word v => v == w
    | _ => false) && (s.fetchWord 0 0 va).2 == s

/-- NOP, and a word that is no instruction, stand where the path fetches. -/
theorem witness_StepRunsDecoded :
    (fetched loaded 0x1000 0x03E3E000 && wordsOf 0x03E3E000 == 1 && isPfxWord 0x03E3E000 == false && (decodeFibre [0x03E3E000]).isSome &&
     thePath.rep == none && fetched (State.reset.withFetchWord 32 0) 0x1000 0 && (decodeFibre [0]).isNone) = true := by decide +kernel

/-- A word before an IADD stands there, with the IADD behind it: the word is read, and then the IADD, or its kept words. -/
theorem witness_StepRunsDecoded_prefix :
    let s := State.reset.loadWords [0x00700BC0, 0xF4101840]
    (fetched s 0x1000 0x00700BC0 && fetched s 0x1004 0xF4101840 && isPfxWord 0x00700BC0 && !isPfxWord 0xF4101840 &&
     (decodePfx 0x00700BC0).any (fun x => (decodeUnder x 0 [0xF4101840]).isSome && (decodeUnder x 1 [0xF4101840]).isSome)) = true := by
  decide +kernel

/-- SQE and AEND stand where their agents fetch. -/
theorem witness_StepRunsDecoded_agents :
    let sqe := State.reset.withFetchWord 32 0x03E3E2DC
    let aend := State.reset.withFetchWord 32 0x03E3E318
    (sqe.turn == .stream 0 && fetched sqe 0x1000 0x03E3E2DC && (sqe.groupAt 0).seq.spc == 0x1000 && (decodeStream [0x03E3E2DC]).isSome &&
     aend.turn == .access 0 0 && fetched aend 0x1000 0x03E3E318 && (aend.apAt 0 0).spc == 0x1000 && (decodeAccess [0x03E3E318]).isSome) = true := by
  decide +kernel

theorem witness_StepsGoOn : ({ State.reset with agenda := [.powerUp true []] } : State).agenda.all isEvent = true := by decide +kernel

theorem witness_MemoryStaysCanonical : Memory.wf State.reset.mem = true ∧ (nextOf (step State.reset)).isSome = true ∧
    Memory.wf loaded.mem = true ∧ (nextOf (step loaded)).isSome = true := by decide +kernel

/-- p0 is false in every lane of the loaded fibre. -/
theorem witness_GuardedOffDoesNothing : let f : Fields := { form := .m, d := 0, a := 0, b6 := 0, pg := 0 }
    (fibreInstr (.iadd f) == some (0x10, f) && windowOk (loaded.pathFibre thePath) 0x10 (loaded.exOf thePath 0x10 f).k f &&
      loaded.partsOf thePath f == [] && (loaded.predAt thePath 0 0).bad == none && loaded.late == none &&
      (lanesOf thePath.mask).all (fun l => (loaded.laneAt 0 0 0 l).st == .active) && (loaded.groupAt 0).barOps == [] &&
      (loaded.fibreAt 0 0 0).frozen == none) = true := by decide +kernel

/-! The spec's worked examples. -/

/-- The state after an instruction in lane 0, with words of v1 and v2 given. -/
def afterLane0 (i : Instr) (v1 v2 : Word) : Option State := nextOf (exec i (oneLane (filled [(32, mkWord v1), (64, mkWord v2)])))
def result (v1 v2 : Word) (sub : BitVec 4) : Option (Word × Word) :=
  (afterLane0 (.fadd { form := .m, d := 3, a := 1, b6 := 0, b := 2, md := 11, sub := sub }) v1 v2).map (fun t =>
    ((t.regAt 0 0 96).val, (t.fibreAt 0 0 0).fstat))

/-- The first example of chapter 6, FADD.f16.x2, in its four variants: v3 and FSTAT (NX is bit 4, OF bit 2). -/
theorem test_fadd_example : result 0x7BFF3C00 0x3C000001 8 = some (0x7BFF3C00, fNX) ∧ result 0x7BFF3C00 0x3C000001 9 = some (0x7BFF3C00, fNX) ∧
    result 0x7BFF3C00 0x3C000001 10 = some (0x7C003C01, fOF ||| fNX) ∧ result 0x7BFF3C00 0x3C000001 12 = some (0x7BFF3C00, fNX) := by decide +kernel

/-- The second example: FCMP.ltu and FCMP.lt of 0.5, 2.0 and a quiet NaN with 1.0. -/
def compared (c : BitVec 8) (v : Word) : Option (Bool × Word) :=
  (afterLane0 (.fcmp { form := .m, d := 3, a := 1, b6 := 0, b := 2, c := c, md := 10 }) v 0x3F800000).map (fun t =>
    (((t.laneAt 0 0 0 0).preds.getD 3 {}).val, (t.fibreAt 0 0 0).fstat))
theorem test_fcmp_example : compared 0x0A 0x3F000000 = some (true, 0) ∧ compared 0x0A 0x40000000 = some (false, 0) ∧
    compared 0x0A 0x7FC00000 = some (true, 0) ∧ compared 0x02 0x7FC00000 = some (false, fNV) := by decide +kernel

/-- R22: `IADD.z32 v3, v1, v2` of 0x10 and 0xFFFFFFFF gives 0xF with the residue 0. -/
theorem test_residue_example : (afterLane0 (.iadd { form := .m, d := 3, a := 1, b6 := 0, b := 2, md := 1 }) 0x10 0xFFFFFFFF).map (fun t => t.regAt 0 0 96) =
    some { val := 0xF, res := 0 } := by decide +kernel

/-- The worked element of chapter 15: a row of A, a column of B, their records, and 100.25 before. -/
def tileOf (els : List (Nat × Nat)) (e8 mr mc : Nat) : List Word :=
  (List.range 64).map (fun i => els.foldl (fun (w : Word) (e : Nat × Nat) => if e.1 / 4 = i then w ||| BitVec.ofNat 32 (e.2 * 256 ^ (e.1 % 4)) else w) 0) ++
    [BitVec.ofNat 32 (e8 + 256 * mr), BitVec.ofNat 32 (256 * mc), 0, 0]
def element (e8a e8b : Nat) : List (Option Nat) × Word :=
  kStep false (decodeTile 2 0 (tileOf [(0, 0x40), (2, 0xBC)] e8a 2 1)) (decodeTile 3 0 (tileOf [(3, 0x42), (19, 0x7C), (35, 0x44)] e8b 0x30 0x40))
    [none, none, none, some 0x42C88000]
theorem test_matrix_example : (element 120 130).1.getD 3 none = some 0x42A48000 ∧ (element 254 254).1.getD 3 none = some 0xFF7FFFFF := by decide +kernel

/-- R404, R26: a lane's JMX to a misaligned target freezes the fibre: no PC moves, and FSTAT keeps its flags. -/
theorem test_freeze_keeps : (nextOf (exec (.jmx { form := .s, d := 0xF8, a := 0, b6 := 0 }) targets)).any (fun t =>
    (t.fibreAt 0 0 0).frozen == some { cause := 7, pc := 0x1000, word := 0x03E3E000 } && (t.laneAt 0 0 0 5).pc == 0x1000 && (t.groupAt 0).failed) = true := by
  decide +kernel

/-- Memory at its edges: the last byte that HBM of slice 0 has, and a byte written twice and then with zero, which leaves no entry. -/
theorem test_memory : readByte (writeByte [] 5 7) 5 = 7 ∧ readByte (writeByte [] 5 7) 6 = 0 ∧ writeByte (writeByte [] 5 7) 5 0 = [] ∧
    writeByte (writeByte [] 5 7) 3 1 = [(3, 1), (5, 7)] := by decide +kernel

/-- The step after reset changes nothing that a program sees; POWER_UP and then CONTEXT_BIND come from outside. -/
theorem test_power_up : (nextOf (exec (.powerUp true [1]) State.reset)).any (fun t => t.boot == .starting 1 && t.log == [[1]]) = true ∧
    (nextOf (exec (.powerUp false []) State.reset)).any (fun t => t.boot == .failed) = true := by decide +kernel

end Sys2Proof.Tests
end

section
open Sys2Proof Sys2Proof.Machine Sys2Proof.Claims
namespace Sys2Proof.Machine

/-- The body of a register-to-register instruction: it waits until its sources are ready, and then leaves `regOut`. -/
def aluBody (a : Alu) (x : Ex) (s : State) : Out :=
  if !s.ready x {} then .wait else .ok (regOut a.srcs (a.fn s) (a.width x) x s) []

/-- The instructions of the two tables that write a register from registers. -/
def isAlu (i : Instr) (a : Alu) : Prop := integerAlu i = some a ∨ floatAlu i = some a

theorem exec_alu {i : Instr} {a : Alu} (h : isAlu i a) (s : State) : exec i s = runInstr a.op a.f (aluBody a) s := by
  obtain h | h := h
  · unfold integerAlu at h
    split at h <;> cases h <;> rfl
  · unfold floatAlu at h
    split at h <;> cases h <;> rfl

theorem aluBody_ready {a : Alu} {x : Ex} {s : State} (h : s.ready x {} = true) :
    aluBody a x s = .ok (regOut a.srcs (a.fn s) (a.width x) x s) [] := by
  simp [aluBody, h]

/-- A register-to-register instruction whose sources are ready completes: it leaves what `regOut` says, and its lanes move on. -/
theorem alu_completes {i : Instr} {a : Alu} (hi : isAlu i a) {s : State} {p : Path} {q : Option Path} (h : Issuing s p q a.op a.f)
    (hr : (s.start p a.f).ready (s.exOf p a.op a.f) {} = true) :
    Completes i s (s.exOf p a.op a.f)
      (regOut a.srcs (a.fn (s.start p a.f)) (a.width (s.exOf p a.op a.f)) (s.exOf p a.op a.f) (s.start p a.f)) [] :=
  completes_of_steady (m := false) i a.op a.f (aluBody a) p q s _ [] (exec_alu hi s) h (aluBody_ready hr) (by simp)
    (steady_regOut ..)

/-- Settles O1: the effect of every integer or logic instruction is `regOut`, which keeps the path able to go on. -/
theorem integerInstructionsComplete : Obligations.IntegerInstructionsComplete := by
  intro i a hi s p q h hr _
  exact alu_completes (.inl hi) h hr

end Sys2Proof.Machine
end

section
open Sys2Proof Sys2Proof.Machine Sys2Proof.Claims
namespace Sys2Proof.Machine

/-- NOP, and the path of lane 0 that has the turn in `farEarly`. -/
def nopFields : Fields := { form := .s, d := 0xF8, a := 0xF8, b6 := 0 }
def nopPath : Path := { g := 0, w := 0, f := 0, mask := 1, pc := BitVec.ofNat 64 loadVa }

/-- A matrix instruction whose last k-step has been written and which counts word 300 among those of its tile that were full before, though
an output tile has 256 words; word 300 of the warp holds the tile's value with another residue. -/
def farEarly : State :=
  { turn := .issue nopPath none
    groups := [(0, { loadGroup with
      warps := loadGroup.warps.map (fun w => { w with regs := [(300, { res := 3 })] })
      seq := { loadGroup.seq with ops := [{ id := 1, w := 0, spc := 0, accs := [0], pos := 1, outs := [{ hist := [[]], early := [300] }] }] } })] }

theorem farEarly_issuing : Issuing farEarly nopPath none 0x00 nopFields :=
  { turn := rfl, window := by decide +kernel, parts := by decide +kernel, free := by decide +kernel, late := rfl
    walks := by decide +kernel, placed := rfl, warp := by decide +kernel, fibre := by decide +kernel, active := by decide +kernel
    quiet := rfl, going := rfl }

/-- With one value to show, a drifting word shows it, whatever the free value. -/
theorem driftWord_one (rs : Sparse RegWord) (k n : Nat) (u v : RegWord) (h : sgetD rs n {} = v) (hf : v.full = true)
    (hv : u.val = v.val) (hb : u.poison = v.poison) :
    driftWord rs k n [u] = ssetD rs n { u with full := true } {} := by
  unfold driftWord
  rw [h]
  simp [hf, hv, hb, Nat.mod_one]

/-- What the start of the execution does to the registers: the one output tile drifts, at word 300 alone. -/
theorem farEarly_settle : farEarly.settle 0 0 0 = farEarly.driftRun 0 0 0 [[]] [300] := rfl

/-- The start of the execution changes word 300. -/
theorem farEarly_drifts : (farEarly.start nopPath nopFields).regAt 0 0 300 ≠ farEarly.regAt 0 0 300 := by
  have hstart : (farEarly.start nopPath nopFields).regAt 0 0 300 = (farEarly.settle 0 0 0).regAt 0 0 300 :=
    (prep_agree _ nopPath nopFields rfl).1.regAt 0 0 300
  have hword : (farEarly.driftRun 0 0 0 [[]] [300]).regAt 0 0 300
      = sgetD (driftWord [(300, { res := 3 })] (farEarly.freeN + 300) (0 + 300) [{}]) 300 {} := rfl
  rw [hstart, farEarly_settle, hword, driftWord_one _ _ _ {} { res := 3 } rfl rfl rfl rfl]
  decide

/-- Word 300 lies outside the 256 words of every tile that the array is writing. -/
theorem farEarly_outside : ∀ m ∈ (farEarly.groupAt 0).seq.ops, ∀ k, k < m.outs.length → m.accs.getD k 0 + 256 ≤ 300 := by
  decide +kernel

/-- Refutes O10: `early` of an output tile may name a word past the tile's 256, as in `farEarly`, and such a word drifts too. -/
theorem not_startSettles : ¬ Obligations.StartSettles := by
  intro h
  obtain ⟨_, _, _, _, _, _, _, _, hreg, _⟩ := h farEarly nopPath none 0x00 nopFields farEarly_issuing
  obtain ⟨_, _, _, _, m, hm, _, k, hk, _, hlt⟩ := hreg 0 0 300 farEarly_drifts
  exact absurd hlt (Nat.not_lt.2 (farEarly_outside m hm k hk))

end Sys2Proof.Machine
end

section
open Sys2Proof Sys2Proof.Machine Sys2Proof.Claims
namespace Sys2Proof.Machine

/-! A fibre of a placed group, and reads of it after a named update. -/

/-- The fibre `f` of warp `w` of group `g` stands in a placed group. -/
structure Here (s : State) (g w f : Nat) : Prop where
  placed : (s.group? g).isSome = true
  warp : w < (s.groupAt g).warps.length
  fibre : f < (s.warpAt g w).fibres.length

theorem Issuing.here {s : State} {p : Path} {q : Option Path} {op : Nat} {f : Fields} (h : Issuing s p q op f) : Here s p.g p.w p.f :=
  ⟨h.placed, h.warp, h.fibre⟩

theorem Here.of_warps {s u : State} {g w f : Nat} (h : Here s g w f) (hp : (u.group? g).isSome = true)
    (hl : (u.groupAt g).warps.map (fun v => v.fibres.length) = (s.groupAt g).warps.map (fun v => v.fibres.length)) : Here u g w f := by
  have hw := congrArg List.length hl
  have hf := congrArg (fun ls => ls.getD w 0) hl
  simp only [List.length_map] at hw
  have e : ∀ t : State, ((t.groupAt g).warps.map (fun v => v.fibres.length)).getD w 0 = (t.warpAt g w).fibres.length :=
    fun t => getD_map_of (t.groupAt g).warps w (fun v => v.fibres.length) {}
  rw [e, e] at hf
  exact ⟨hp, hw ▸ h.warp, hf ▸ h.fibre⟩

theorem Here.modGroup {s : State} {g w f : Nat} (h : Here s g w f) (j : Nat) (k : Group → Group)
    (hk : ∀ x, (k x).warps.map (fun v => v.fibres.length) = x.warps.map (fun v => v.fibres.length)) : Here (s.modGroup j k) g w f := by
  refine h.of_warps ((placed_modGroup ..).trans h.placed) ?_
  rw [groupAt_modGroup_of_placed s g j k h.placed]
  split
  · exact hk _
  · rfl

theorem Here.modWarp {s : State} {g w f : Nat} (h : Here s g w f) (j v : Nat) (k : Warp → Warp)
    (hk : ∀ x, (k x).fibres.length = x.fibres.length) : Here (s.modWarp j v k) g w f :=
  h.modGroup j _ (fun _ => map_modAt _ _ _ _ hk)

theorem Here.modFibre {s : State} {g w f : Nat} (h : Here s g w f) (j v e : Nat) (k : Fibre → Fibre) : Here (s.modFibre j v e k) g w f :=
  h.modWarp j v _ (fun _ => length_modAt ..)

theorem Here.modLane {s : State} {g w f : Nat} (h : Here s g w f) (j v e l : Nat) (k : Lane → Lane) : Here (s.modLane j v e l k) g w f :=
  h.modFibre j v e _

theorem Here.agree {s u : State} {g w f : Nat} (h : Here s g w f) (a : Agree u s) : Here u g w f := by
  refine h.of_warps ((a.placed g).trans h.placed) ?_
  exact same_of_blank Group.blank (a.groupAt g) (fun x => x.warps.map (fun v => v.fibres.length))
    (fun x => by simp [Group.blank, Warp.blank, Function.comp_def])

/-- The fibre as a change of it leaves it. -/
theorem Here.fibreAt_modFibre {s : State} {g w f : Nat} (h : Here s g w f) (k : Fibre → Fibre) (j v e : Nat) :
    (s.modFibre g w f k).fibreAt j v e = if j = g ∧ v = w ∧ e = f then k (s.fibreAt g w f) else s.fibreAt j v e :=
  Machine.fibreAt_modFibre s g w f j v e k h.placed h.warp h.fibre

/-- A lane of the fibre as a change of one of its lanes leaves it. -/
theorem Here.laneAt_modLane {s : State} {g w f : Nat} (h : Here s g w f) (k : Lane → Lane) (l i : Nat)
    (hl : l < (s.fibreAt g w f).lanes.length) :
    (s.modLane g w f l k).laneAt g w f i = if i = l then k (s.laneAt g w f l) else s.laneAt g w f i := by
  unfold State.modLane State.laneAt
  rw [h.fibreAt_modFibre, if_pos ⟨rfl, rfl, rfl⟩]
  dsimp only
  rw [getD_modAt _ _ _ _ _ hl]
  split
  · next he => rw [he]
  · rfl

/-- A change of one lane leaves the others. -/
theorem laneAt_modLane_ne {s : State} {g w f : Nat} (h : Here s g w f) (k : Lane → Lane) (l i : Nat) (hi : i ≠ l) :
    (s.modLane g w f l k).laneAt g w f i = s.laneAt g w f i := by
  unfold State.modLane State.laneAt
  rw [h.fibreAt_modFibre, if_pos ⟨rfl, rfl, rfl⟩]
  exact getD_modAt_ne _ _ _ _ _ hi

theorem Here.lanes_modLane {s : State} {g w f : Nat} (h : Here s g w f) (k : Lane → Lane) (l : Nat) :
    ((s.modLane g w f l k).fibreAt g w f).lanes.length = (s.fibreAt g w f).lanes.length := by
  unfold State.modLane
  rw [h.fibreAt_modFibre, if_pos ⟨rfl, rfl, rfl⟩]
  exact length_modAt ..

theorem Here.strand {s : State} {p : Path} (h : Here s p.g p.w p.f) (ls : List (Nat × Word)) : Here (s.strand p ls) p.g p.w p.f :=
  h.agree (strand_agree p ls s h.placed).1

/-- A lane that is stranded, one word for it among those stranded, is stranded on that word. -/
theorem strand_stranded {p : Path} {l : Nat} {w : Word} (ls : List (Nat × Word)) (s : State) (h : Here s p.g p.w p.f)
    (hl : l < (s.fibreAt p.g p.w p.f).lanes.length) (hu : ∀ e ∈ ls, e.1 = l → e.2 = w)
    (hs : (s.laneAt p.g p.w p.f l).st = .stranded w ∨ (l, w) ∈ ls) : ((s.strand p ls).laneAt p.g p.w p.f l).st = .stranded w := by
  induction ls generalizing s with
  | nil => exact hs.resolve_right (by simp)
  | cons e r ih =>
    obtain ⟨i, v⟩ := e
    refine ih _ (h.modLane ..) (by rw [h.lanes_modLane]; exact hl) (fun e' he => hu e' (List.mem_cons_of_mem _ he)) ?_
    dsimp only
    by_cases hi : i = l
    · left
      rw [hi, h.laneAt_modLane _ l l hl, if_pos rfl]
      exact congrArg LaneState.stranded (hu (i, v) (List.mem_cons_self ..) hi)
    · rw [laneAt_modLane_ne h _ _ _ (Ne.symm hi)]
      refine hs.imp_right (fun hm => (List.mem_cons.1 hm).resolve_left (fun he => hi ?_))
      cases he; rfl

end Sys2Proof.Machine
end

section
open Sys2Proof Sys2Proof.Machine Sys2Proof.Claims
namespace Sys2Proof.Machine

/-! Guards (R13, R392). -/

/-- An array that writes no register of a warp lets none of its words drift. -/
theorem drift_idle (s : State) (g w : Nat) (h : ∀ o ∈ (s.groupAt g).seq.ops, o.w = w → o.outs = []) : s.drift g w = s := by
  unfold State.drift
  refine List.foldlRecOn (motive := fun u => u = s) _ _ rfl (fun u hu o ho => ?_)
  obtain ⟨hmem, hw⟩ := List.mem_filter.1 ho
  rw [h o hmem (by simpa using hw), hu]
  rfl

theorem settleFences_nil (s : State) (g w f : Nat) (h : (s.fibreAt g w f).fences = []) : s.settleFences g w f = s := by
  simp [State.settleFences, h]

/-- With no fence outstanding and an idle array, an execution finds the state as it stands but for lanes' states. -/
theorem start_agree (s : State) (p : Path) (f : Fields) (hp : (s.group? p.g).isSome = true)
    (hf : (s.fibreAt p.g p.w p.f).fences = []) (ho : ∀ o ∈ (s.groupAt p.g).seq.ops, o.w = p.w → o.outs = []) :
    Agree (s.start p f) s := by
  have hs : s.settle p.g p.w p.f = s := by
    rw [State.settle, settleFences_nil _ _ _ _ hf, drift_idle _ _ _ ho]
  rw [State.start, hs]
  exact (prep_agree s p f hp).1

theorem guardOf_bad {s : State} {p : Path} {f : Fields} {l : Nat} {w : Word} (h : (s.predAt p l f.pg.toNat).bad = some w) :
    s.guardOf p f l = .bad w := by
  simp [State.guardOf, h]

theorem guardOf_good {s : State} {p : Path} {f : Fields} {l : Nat} (h : (s.predAt p l f.pg.toNat).bad = none) :
    s.guardOf p f l = if (s.predAt p l f.pg.toNat).val != f.pn then .yes else .no := by
  simp [State.guardOf, h]

theorem mem_partsOf {s : State} {p : Path} {f : Fields} {l : Nat} :
    l ∈ s.partsOf p f ↔ l ∈ lanesOf p.mask ∧ s.guardOf p f l = .yes := by
  simp [State.partsOf, List.mem_filter]

theorem mem_guardBad {s : State} {p : Path} {f : Fields} {e : Nat × Word} :
    e ∈ s.guardBad p f ↔ e.1 ∈ lanesOf p.mask ∧ s.guardOf p f e.1 = .bad e.2 := by
  obtain ⟨l, w⟩ := e
  simp only [State.guardBad, List.mem_filterMap]
  constructor
  · rintro ⟨l', hl', h⟩
    split at h
    · next w' hw' => cases h; exact ⟨hl', hw'⟩
    · cases h
  · rintro ⟨hl, hg⟩
    exact ⟨l, hl, by rw [hg]⟩

/-- The lanes of the path once those with a poisoned guard have been stranded (R13, R392). -/
theorem prep_lane_bad {s : State} {p : Path} {f : Fields} {l : Nat} {w : Word} (h : Here s p.g p.w p.f) (hl : l ∈ lanesOf p.mask)
    (hin : l < (s.fibreAt p.g p.w p.f).lanes.length) (hb : s.guardOf p f l = .bad w) :
    ((s.prep p f).laneAt p.g p.w p.f l).st = .stranded w := by
  have hm : (l, w) ∈ s.guardBad p f := mem_guardBad.2 ⟨hl, hb⟩
  have hu : ∀ e ∈ s.guardBad p f, e.1 = l → e.2 = w := by
    intro e he hel
    have hg := (mem_guardBad.1 he).2
    rw [hel, hb] at hg
    cases hg; rfl
  unfold State.prep
  split
  · exact strand_stranded _ s h hin hu (.inr hm)
  · refine strand_stranded _ _ (h.modFibre ..) ?_ hu (.inr hm)
    rw [h.fibreAt_modFibre, if_pos ⟨rfl, rfl, rfl⟩]
    exact hin

theorem prep_lane_good {s : State} {p : Path} {f : Fields} {l : Nat} (hp : (s.group? p.g).isSome = true)
    (ha : (s.laneAt p.g p.w p.f l).st = .active) (hg : ∀ w, s.guardOf p f l ≠ .bad w) :
    ((s.prep p f).laneAt p.g p.w p.f l).st = .active := by
  have hne : ∀ e ∈ s.guardBad p f, l ≠ e.1 := fun e he hel => hg e.2 (hel ▸ (mem_guardBad.1 he).2)
  unfold State.prep
  split
  · exact active_strand p _ l s hp hne ha
  · refine active_strand p _ l _ ((placed_modFibre ..).trans hp) hne ?_
    exact (laneOn_modFibre s p.g p.w p.f l _ _ (fun y => { y with raised := 0 }) hp (fun x a b _ => ⟨a, b⟩) ⟨ha, rfl⟩).1

/-- What settles keeps the fibre. -/
theorem Settles.here {s u : State} {g w f : Nat} (k : Settles g s u) (h : Here s g w f) : Here u g w f := by
  refine h.of_warps (k.placed h.placed) ?_
  have hl := congrArg (fun ls : List BarOp × List (List (List Lane)) => ls.2.map List.length) (k.kept h.placed)
  simpa [Group.kept, Function.comp_def] using hl

/-- The start of an execution strands a lane whose guard is poisoned. -/
theorem start_lane_bad {s : State} {p : Path} {f : Fields} {l : Nat} {w : Word} (h : Here s p.g p.w p.f)
    (hl : l ∈ lanesOf p.mask) (ha : (s.laneAt p.g p.w p.f l).st = .active) (hb : s.guardOf p f l = .bad w) :
    ((s.start p f).laneAt p.g p.w p.f l).st = .stranded w := by
  have hs := settles_settle s p.g p.w p.f h.placed
  refine prep_lane_bad (hs.here h) hl ?_ ((hs.guardOf h.placed f l).trans hb)
  exact (exists_of_active _ p.g p.w p.f l (by rw [hs.laneAt h.placed]; exact ha)).2.2

/-- The start of an execution leaves a lane whose guard is not poisoned active. -/
theorem start_lane_good {s : State} {p : Path} {f : Fields} {l : Nat} (hp : (s.group? p.g).isSome = true)
    (ha : (s.laneAt p.g p.w p.f l).st = .active) (hg : (s.predAt p l f.pg.toNat).bad = none) :
    ((s.start p f).laneAt p.g p.w p.f l).st = .active := by
  have hs := settles_settle s p.g p.w p.f hp
  refine prep_lane_good (hs.placed hp) (by rw [hs.laneAt hp]; exact ha) (fun w => ?_)
  rw [hs.guardOf hp, guardOf_good hg]
  split <;> simp

/-- Settles O9: what settles is idle under the statement's conditions, and the start strands exactly the lanes with a poisoned guard. -/
theorem poisonedGuardStrands : Obligations.PoisonedGuardStrands := by
  intro s p q op f h
  refine ⟨start_agree s p f h.placed, fun l hl => ⟨fun w hb => ⟨?_, ?_⟩, fun hg => ⟨?_, ?_⟩⟩⟩
  · exact start_lane_bad h.here hl (h.active l hl) (guardOf_bad hb)
  · simp [mem_partsOf, guardOf_bad hb]
  · exact start_lane_good h.placed (h.active l hl) hg
  · simp [mem_partsOf, hl, guardOf_good hg]

end Sys2Proof.Machine
end

section
open Sys2Proof Sys2Proof.Machine Sys2Proof.Claims
namespace Sys2Proof.Machine

/-! Every instruction of a fibre is run for its path by `runInstr` (R30). -/

/-- An instruction is run for its path, with its opcode and fields, by some body. -/
def RunsAs (i : Instr) (op : Nat) (f : Fields) : Prop := ∃ body, ∀ s, exec i s = runInstr op f body s

theorem predicateFx_runs {i : Instr} {e : Fx} (h : predicateFx i = some e) : RunsAs i e.op e.f := by
  unfold predicateFx at h
  split at h <;> cases h <;> exact ⟨_, fun _ => rfl⟩
theorem moveFx_runs {i : Instr} {e : Fx} (h : moveFx i = some e) : RunsAs i e.op e.f := by
  unfold moveFx at h
  split at h <;> cases h <;> exact ⟨_, fun _ => rfl⟩
theorem controlFx_runs {i : Instr} {e : Fx} (h : controlFx i = some e) : RunsAs i e.op e.f := by
  unfold controlFx at h
  split at h <;> cases h <;> exact ⟨_, fun _ => rfl⟩
theorem memoryFx_runs {i : Instr} {e : Fx} (h : memoryFx i = some e) : RunsAs i e.op e.f := by
  unfold memoryFx at h
  split at h <;> cases h <;> exact ⟨_, fun _ => rfl⟩
theorem tileFx_runs {i : Instr} {e : Fx} (h : tileFx i = some e) : RunsAs i e.op e.f := by
  unfold tileFx at h
  split at h <;> cases h <;> exact ⟨_, fun _ => rfl⟩
theorem engineFx_runs {i : Instr} {e : Fx} (h : engineFx i = some e) : RunsAs i e.op e.f := by
  unfold engineFx at h
  split at h <;> cases h <;> exact ⟨_, fun _ => rfl⟩
theorem syncFx_runs {i : Instr} {e : Fx} (h : syncFx i = some e) : RunsAs i e.op e.f := by
  unfold syncFx at h
  split at h <;> cases h <;> exact ⟨_, fun _ => rfl⟩
theorem alu_runs {i : Instr} {a : Alu} (h : isAlu i a) : RunsAs i a.fx.op a.fx.f := ⟨_, exec_alu h⟩

/-- An instruction of a fibre is run for its path with the opcode and fields that its table gives. -/
theorem fibreInstr_runs {i : Instr} {op : Nat} {f : Fields} (h : fibreInstr i = some (op, f)) : RunsAs i op f := by
  unfold fibreInstr at h
  obtain ⟨e, he, heq⟩ := Option.map_eq_some_iff.1 h
  obtain ⟨o, ho, hoe⟩ := List.exists_of_findSome?_eq_some he
  cases heq
  simp only [List.mem_cons, List.not_mem_nil, or_false] at ho
  replace hoe : o = some e := hoe
  subst hoe
  obtain ho | ho | ho | ho | ho | ho | ho | ho | ho := ho
  · obtain ⟨a, ha, hae⟩ := Option.map_eq_some_iff.1 ho.symm
    exact hae ▸ alu_runs (.inl ha)
  · obtain ⟨a, ha, hae⟩ := Option.map_eq_some_iff.1 ho.symm
    exact hae ▸ alu_runs (.inr ha)
  · exact predicateFx_runs ho.symm
  · exact moveFx_runs ho.symm
  · exact controlFx_runs ho.symm
  · exact memoryFx_runs ho.symm
  · exact tileFx_runs ho.symm
  · exact engineFx_runs ho.symm
  · exact syncFx_runs ho.symm

/-- An instruction that no lane takes part in only moves its lanes on (R191). -/
theorem runInstr_guardedOff {op : Nat} {f : Fields} {body : Ex → State → Out} {s : State} {p : Path} {q : Option Path}
    (ht : s.turn = .issue p q) (hw : windowOk (s.pathFibre p) op (s.exOf p op f).k f = true) (hp : s.partsOf p f = [])
    (hf : (s.settle p.g p.w p.f).fenceHolds p.g p.w p.f op = false) :
    runInstr op f body s = .next ((s.start p f).retire (s.settle p.g p.w p.f) p q (s.exOf p op f).next []) := by
  have hx : (s.exOf p op f).parts = [] := hp
  simp [runInstr, ht, runPath, hw, hf, hx, State.start]

/-- Settles O60: such an instruction retires the state that its start leaves, and retiring changes no more than the lanes' places. -/
theorem guardedOffDoesNothing : Obligations.GuardedOffDoesNothing := by
  intro i op f hi s p q ht hw hp hg _ hpl hwl hfl ha hq _ hfen
  obtain ⟨body, hrun⟩ := fibreInstr_runs hi
  obtain ⟨l, hl, hlb⟩ := hg
  have hs := settles_settle s p.g p.w p.f hpl
  have hquiet : ((s.start p f).groupAt p.g).barOps = [] :=
    ((prep_agree _ p f (hs.placed hpl)).1.barOps p.g).trans ((hs.barOps hpl).trans hq)
  obtain ⟨hagree, hlanes⟩ := retire_ok (s.exOf p op f) (s.start p f) (s.settle p.g p.w p.f) q [] (start_placed s p f hpl) hquiet
    (atEnd_of_active _ l (start_lane_good hpl (ha l hl) hlb))
  exact ⟨_, (hrun s).trans (runInstr_guardedOff ht hw hp hfen), hagree,
    fun l hl hb => hlanes l hl (start_lane_good hpl (ha l hl) hb)⟩

end Sys2Proof.Machine
end

section
open Sys2Proof Sys2Proof.Machine Sys2Proof.Claims
namespace Sys2Proof.Machine

/-! The word before an instruction (R28, R85). -/

/-- A lane of the fibre as a change of all its lanes leaves it, where the change leaves no lane that is not there. -/
theorem Here.laneAt_mapIdx {s : State} {g w f : Nat} (h : Here s g w f) (k : Nat → Lane → Lane) (l : Nat) :
    (s.modFibre g w f (fun x => { x with lanes := x.lanes.mapIdx k })).laneAt g w f l =
      if l < (s.fibreAt g w f).lanes.length then k l (s.laneAt g w f l) else s.laneAt g w f l := by
  unfold State.laneAt
  rw [h.fibreAt_modFibre, if_pos ⟨rfl, rfl, rfl⟩]
  split
  · next hl => exact getD_mapIdx _ _ _ hl
  · next hl => simp [List.getD_eq_getElem?_getD, Nat.le_of_not_lt hl]

/-- Settles O18: reading the word changes the repeat of the path's lanes, and what their executions share, and nothing else. -/
theorem prefixWordIsRead : Obligations.PrefixWordIsRead := by
  intro s p q w ht hp hw hf
  have h : Here s p.g p.w p.f := ⟨hp, hw, hf⟩
  refine ⟨pfxRead w p q s, by simp [exec, execPfx, ht], ?_, rfl, fun l => ?_⟩
  · refine Agree.trans (t := s.modFibre p.g p.w p.f _) rfl (modFibre_agree s p.g p.w p.f _ hp (fun x => ?_))
    simp only [Fibre.blank]
    congr 1
    exact mapIdx_blank _ _ (fun i y => by split <;> rfl)
  · have hlane := h.laneAt_mapIdx (fun i l => if p.mask.getLsbD i then { l with rep := some (w, 0), inst := {} } else l) l
    change (pfxRead w p q s).laneAt p.g p.w p.f l = _ at hlane
    rw [hlane]
    by_cases hl : l < (s.fibreAt p.g p.w p.f).lanes.length <;> by_cases hm : p.mask.getLsbD l = true <;> simp [hl, hm]

/-! Fetching and decoding (R28, R92, R93, R320). -/

theorem wordsOf_pos (w : Word) : 0 < wordsOf w := by
  unfold wordsOf
  cases Form.ofWord w <;> decide

/-- Words are fetched one after another, the state unchanged. -/
def FetchedWords (s : State) (core : Nat) (ctx : Byte) (va : DWord) (ws : List Word) : Prop :=
  ∀ k, k < ws.length → s.fetchWord core ctx (va + BitVec.ofNat 64 (4 * k)).toNat = (.word (ws.getD k 0), s)

theorem FetchedWords.head {s : State} {core : Nat} {ctx : Byte} {va : DWord} {w : Word} {r : List Word}
    (h : FetchedWords s core ctx va (w :: r)) : s.fetchWord core ctx va.toNat = (.word w, s) := by
  simpa using h 0 (by simp)

theorem FetchedWords.tail {s : State} {core : Nat} {ctx : Byte} {va : DWord} {w : Word} {r : List Word}
    (h : FetchedWords s core ctx va (w :: r)) : FetchedWords s core ctx (va + 4) r := by
  intro k hk
  have hva : va + BitVec.ofNat 64 (4 * (k + 1)) = va + 4 + BitVec.ofNat 64 (4 * k) := by
    rw [Nat.mul_add, BitVec.ofNat_add, BitVec.add_comm (BitVec.ofNat 64 (4 * k)), ← BitVec.add_assoc]
    rfl
  have := h (k + 1) (by simpa using hk)
  rwa [hva] at this

/-- Words that are fetched from where they stand are read whole. -/
theorem FetchedWords.more {s : State} {core : Nat} {ctx : Byte} {ws : List Word} {va : DWord} (h : FetchedWords s core ctx va ws) :
    s.fetchMore core ctx va ws.length = (.inl ws, s) := by
  induction ws generalizing va with
  | nil => rfl
  | cons w r ih =>
    rw [List.length_cons, State.fetchMore, h.head]
    dsimp only
    rw [ih h.tail]

/-- The rest of a fetched instruction is read behind its first word, and decoded. -/
theorem readRest_fetched {s : State} {core : Nat} {ctx : Byte} {va : DWord} {w : Word} {r : List Word}
    (h : Claims.Fetched s core ctx va (w :: r)) (dec : List Word → Option Instr) :
    s.readRest core ctx va w dec = ((match dec (w :: r) with
      | some i => Read.instr i (w :: r)
      | none => .fail cILLEGAL w), s) := by
  obtain ⟨hlen, hword⟩ := h
  have hr : r.length = wordsOf w - 1 := by
    have : r.length + 1 = wordsOf w := hlen
    omega
  unfold State.readRest
  rw [← hr, (FetchedWords.tail hword).more]
  dsimp only
  cases dec (w :: r) <;> rfl

/-- An instruction that is fetched whole is read and decoded. -/
theorem readAt_fetched {s : State} {core : Nat} {ctx : Byte} {va : DWord} {ws : List Word} {dec : List Word → Option Instr} {i : Instr}
    (h : Claims.Fetched s core ctx va ws) (hd : dec ws = some i) : s.readAt core ctx va dec = (.instr i ws, s) := by
  cases ws with
  | nil => exact absurd h.1 (Nat.ne_of_lt (wordsOf_pos _))
  | cons w r =>
    unfold State.readAt
    rw [FetchedWords.head h.2]
    dsimp only
    rw [readRest_fetched h, hd]

/-- What a path reads whose instruction stands behind no word of its own. -/
theorem readFibre_plain {s : State} {p : Path} {ws : List Word} (hr : p.rep = none) (hw : isPfxWord (ws.headD 0) = false)
    (h : Claims.Fetched s (s.groupAt p.g).core (s.groupAt p.g).ctx p.pc ws) :
    s.readFibre p = ((match decodeFibre ws with
      | some i => Read.instr i ws
      | none => .fail cILLEGAL (ws.headD 0)), s) := by
  cases ws with
  | nil => exact absurd h.1 (Nat.ne_of_lt (wordsOf_pos _))
  | cons w r =>
    replace hw : isPfxWord w = false := hw
    unfold State.readFibre
    dsimp only
    rw [hr]
    dsimp only
    rw [FetchedWords.head h.2]
    dsimp only
    rw [hw]
    exact readRest_fetched h decodeFibre

/-- What a path reads at a word before an instruction. -/
theorem readFibre_word {s : State} {p : Path} {w v : Word} {x : Pfx} (hr : p.rep = none) (hw : isPfxWord w = true)
    (hv : isPfxWord v = false) (hx : decodePfx w = some x)
    (h0 : s.fetchWord (s.groupAt p.g).core (s.groupAt p.g).ctx p.pc.toNat = (.word w, s))
    (h1 : s.fetchWord (s.groupAt p.g).core (s.groupAt p.g).ctx (p.pc + 4).toNat = (.word v, s)) :
    s.readFibre p = (.instr (.pfx x) [w], s) := by
  have hform : (Form.ofWord w != .s) = false := by
    unfold decodePfx at hx
    split at hx
    · next h => simp only [Bool.and_eq_true, beq_iff_eq] at h; simp [h.1.2]
    · cases hx
  simp only [State.readFibre, hr, h0, hw, if_true, State.readPfx, hform, h1, hv, hx]
  rfl

/-- What a path reads before the first execution of a repeated instruction. -/
theorem readFibre_first {s : State} {p : Path} {x : Pfx} {k : Nat} {ws : List Word} {i : Instr} (hr : p.rep = some (x, k))
    (hk : k = 0 ∨ p.inst.words = [])
    (h : Claims.Fetched s (s.groupAt p.g).core (s.groupAt p.g).ctx (p.pc + 4) ws) (hd : decodeUnder x k ws = some i) :
    s.readFibre p = (.instr i ws, s) := by
  have hheld : p.held.words.isEmpty = true := by
    unfold Path.held
    rw [hr]
    obtain rfl | hw := hk
    · rfl
    · dsimp only; split
      · rfl
      · simp [hw]
  unfold State.readFibre
  simp only [hr, hheld, if_true]
  exact readAt_fetched h hd

/-- What a path reads before a later execution of a repeated instruction: the words that it has kept. -/
theorem readFibre_again {s : State} {p : Path} {x : Pfx} {k : Nat} {i : Instr} (hr : p.rep = some (x, k)) (hk : k ≠ 0)
    (hw : p.inst.words ≠ []) (hd : decodeUnder x k p.inst.words = some i) :
    s.readFibre p = (.instr i p.inst.words, s) := by
  have hheld : p.held = p.inst := by simp [Path.held, hr, hk]
  simp [State.readFibre, hr, hheld, hw, readHeld, hd]

/-- A path whose instruction is read issues it. -/
theorem step_issue {s : State} {p : Path} {q : Option Path} {i : Instr} {ws : List Word} (ht : s.turn = .issue p q)
    (h : s.readFibre p = (.instr i ws, s)) : step s = exec i { s with turn := .issue (s.holdWords p ws) q } := by
  simp only [step, ht, State.issueStep, h]

/-- Settles O51: each kind of agent reads what stands at its PC, and performs it. -/
theorem stepRunsDecoded : Obligations.StepRunsDecoded := by
  refine ⟨fun s p q ws ht hr hw hf => ⟨fun i hi => ?_, fun hn => ?_⟩, fun s p q w v x ht hr hw hv hx h0 h1 => ?_,
    fun s p q ws i x k ht hr hk hf hd => ?_, fun s p q i x k ht hr hk hw hd => ?_, fun s g ws i ht hf hd => ?_,
    fun s g n ws i ht hf hd => ?_⟩
  · rw [step_issue ht (by rw [readFibre_plain hr hw hf, hi]), State.holdWords, hr]
  · simp only [step, ht, State.issueStep, readFibre_plain hr hw hf, hn]
  · rw [step_issue ht (readFibre_word hr hw hv hx h0 h1), State.holdWords, hr]
    rfl
  · rw [step_issue ht (readFibre_first hr hk hf hd), State.holdWords, hr]
    cases k <;> rfl
  · rw [step_issue ht (readFibre_again hr hk hw hd), State.holdWords, hr]
    cases k with
    | zero => exact absurd rfl hk
    | succ k => rfl
  · simp only [step, ht, State.streamStep, readAt_fetched hf hd]
    rw [← ht]
  · simp only [step, ht, State.accessStep, readAt_fetched hf hd]
    rw [← ht]

end Sys2Proof.Machine
end

section
open Sys2Proof Sys2Proof.Machine Sys2Proof.Claims
namespace Sys2Proof.Machine

/-- A load whose one item has been given an empty register word. -/
def emptyWordLoad : Prod :=
  { id := 1, kind := .load, g := 0, w := 0, f := 0, core := 0, pc := 0
    items := [{ dst := .vec 0 0 0, lane := 0, got := some (.reg { full := false }) }] }

/-- The loaded state with that load outstanding. -/
def emptyWordReturns : State := { groups := [(0, loadGroup)], prods := [emptyWordLoad] }

theorem emptyWordReturns_delivers : emptyWordReturns.mayDeliver emptyWordLoad 1 = true := by decide +kernel

/-- The return of the load leaves its register word empty. -/
theorem emptyWordReturns_leaves : ((loadDataReturn 1 1 emptyWordReturns).regAt 0 0 0).full = false := by decide +kernel

/-- Refutes O58: the word that an item was given at issue is written as it stands, its full tag too, so an item that holds an empty word,
as in `emptyWordReturns`, leaves its register empty. -/
theorem not_loadDataFillsRegisters : ¬ Obligations.LoadDataFillsRegisters := by
  intro h
  obtain ⟨hdata, _⟩ := h
  obtain ⟨t, ht, _, _, hfill⟩ := hdata emptyWordReturns 1 1 emptyWordLoad rfl (by decide) (by decide) rfl
  obtain ⟨hwords, _⟩ := hfill emptyWordReturns_delivers
  obtain ⟨hvec, _⟩ := hwords _ (List.mem_singleton.2 rfl) rfl
  obtain ⟨hfull, _⟩ := hvec 0 0 rfl (by decide)
  obtain rfl : loadDataReturn 1 1 emptyWordReturns = t := Host.Outcome.next.inj ht
  exact absurd (emptyWordReturns_leaves.symm.trans hfull) (by decide)

end Sys2Proof.Machine
end

section
open Sys2Proof Sys2Proof.Machine Sys2Proof.Claims
namespace Sys2Proof.Machine

/-! Steps of translation and of the placement of pages. -/

@[simp] theorem given_eq_some {b : Bool} {s t : State} : given b s = some t ↔ b = true ∧ s = t := by
  cases b <;> simp [given]

/-- An event happens where the step's function gives what it leaves. -/
theorem happens_of_run {i : Instr} {e : Ev} {r : State → State} (hexec : ∀ s, exec i s = .next (r s))
    (h : ∀ s t, e s = some t → r s = t) : e.Happens i :=
  fun s t ht => by rw [hexec, h s t ht]

theorem tlbInvalidation_ready {ctx : Byte} {va len : DWord} {s : State} (h : s.invalReady ctx va.toNat len.toNat = true) :
    tlbInvalidation ctx va len s = (s.tlbDrop ctx va.toNat len.toNat).wake := if_pos h

/-- A group that is not pinned and whose entry is good takes another member into the fast location. -/
theorem swapIn_moves {s : State} {k g m : Nat} (hk : k < 12) (hg : g < 98304) (hm : m < 3)
    (hpin : s.pinned.contains (groupKey k g) = false) (hatlas : sgetD s.atlas (groupKey k g) 0 ≠ 3) :
    s.swapIn k g m = { s with atlas := ssetD s.atlas (groupKey k g) m 0 } := by
  unfold State.swapIn
  have hbad : (sgetD s.atlas (groupKey k g) 0 == 3) = false := beq_false_of_ne hatlas
  simp only [hpin, hbad, Bool.or_false, Bool.or_eq_true, decide_eq_true_eq]
  rw [if_neg (by omega)]

/-- What a step of the page placement in a hub does where it can. -/
theorem pageSwap_happens (k g : Nat) (what : Swap) (e : Ev) (he : placeEvent (.pageSwap k g what) = some e) :
    e.Happens (.pageSwap k g what) := by
  obtain rfl := Option.some.inj he
  refine happens_of_run (r := pageSwap k g what) (fun _ => rfl) (fun s t ht => ?_)
  cases what with
  | member m =>
    simp only [given_eq_some, Bool.and_eq_true, decide_eq_true_eq, Bool.not_eq_true', bne_iff_ne] at ht
    obtain ⟨⟨⟨⟨⟨⟨hk, hg⟩, hm⟩, hpin⟩, hatlas⟩, hheat⟩, rfl⟩ := ht
    exact (if_pos hheat).trans (swapIn_moves hk hg hm hpin hatlas)
  | pin on =>
    simp only [given_eq_some, Bool.and_eq_true, decide_eq_true_eq] at ht
    obtain ⟨⟨hk, hg⟩, rfl⟩ := ht
    unfold pageSwap
    simp only [Bool.or_eq_true, decide_eq_true_eq]
    rw [if_neg (by omega)]
  | rewrite h =>
    obtain ⟨hgood, rfl⟩ := given_eq_some.1 ht
    exact if_pos hgood

/-- A page leaves for the host where its leaf is found and nothing waits for its translation. -/
theorem migrateOut_leaf {s : State} {c : Byte} {va place lv : Nat} {l : Leaf} (hp : s.leafPlace c va = some (place, lv))
    (hw : s.walk c va = .leaf l) (hn : l.nr = false) (hi : s.invalReady c (va / levelPage lv * levelPage lv) (levelPage lv) = true) :
    s.migrateOut c va = (({ s.setEntry c place (natOfBytes (s.coherentBytes place 8).1 + 16) with
      pinned := (groupsOf l.dpa (levelPage lv)).foldl (fun p k => p.erase k)
        (s.setEntry c place (natOfBytes (s.coherentBytes place 8).1 + 16)).pinned } : State).tlbDrop c
          (va / levelPage lv * levelPage lv) (levelPage lv)).wake := by
  unfold State.migrateOut
  rw [hp, hw]
  simp [hn, hi]

theorem pageMigration_happens (ctx : Byte) (va dpa : DWord) (toHost : Bool) (data : List (Nat × Byte)) (e : Ev)
    (he : placeEvent (.pageMigration ctx va dpa toHost data) = some e) : e.Happens (.pageMigration ctx va dpa toHost data) := by
  obtain rfl := Option.some.inj he
  refine happens_of_run (r := pageMigration ctx va dpa toHost data) (fun _ => rfl) (fun s t ht => ?_)
  cases toHost with
  | false =>
    replace ht : s.migrateIn ctx va.toNat dpa.toNat data = some t := ht
    simp [pageMigration, ht]
  | true =>
    simp only [if_true] at ht
    split at ht
    · next place lv l hp hw =>
      simp only [given_eq_some, Bool.and_eq_true, Bool.not_eq_true'] at ht
      obtain ⟨⟨hn, hi⟩, rfl⟩ := ht
      exact migrateOut_leaf hp hw hn hi
    · cases ht

/-- The page of a waiting fetch comes, or its agent stops. -/
theorem fetchNonresMigrate_happens (who : Who) (ok : Bool) (dpa : DWord) (data : List (Nat × Byte)) :
    (pageEvent who ok dpa data).Happens (.fetchNonresMigrate who ok dpa data) := by
  refine happens_of_run (r := fetchNonresMigrate who ok dpa data) (fun _ => rfl) (fun s t ht => ?_)
  obtain ⟨va, hva, ht⟩ := Option.bind_eq_some_iff.1 ht
  unfold fetchNonresMigrate
  rw [hva]
  dsimp only at ht ⊢
  generalize (if ok then (s.clearNonres who).migrateIn (s.groupAt (groupOfWho who)).ctx va.toNat dpa.toNat data else none) = r at ht ⊢
  cases r with
  | some u => exact Option.some.inj ht
  | none =>
    cases who with
    | fibre g w f =>
      obtain ⟨n, hn, rfl⟩ := Option.map_eq_some_iff.1 ht
      simp only [hn]
    | seq g => exact Option.some.inj ht
    | ap g n => exact Option.some.inj ht

theorem pftComplete_happens (n : Nat) (e : Ev) (he : placeEvent (.pftComplete n) = some e) : e.Happens (.pftComplete n) := by
  obtain rfl := Option.some.inj he
  refine happens_of_run (r := pftComplete n) (fun _ => rfl) (fun s t ht => ?_)
  obtain ⟨p, hp, rfl⟩ := Option.map_eq_some_iff.1 ht
  unfold pftComplete
  rw [hp]

theorem pftCancel_happens (n : Nat) (e : Ev) (he : placeEvent (.pftCancel n) = some e) : e.Happens (.pftCancel n) := by
  obtain rfl := Option.some.inj he
  refine happens_of_run (r := pftCancel n) (fun _ => rfl) (fun s t ht => ?_)
  obtain ⟨p, hp, ht⟩ := Option.bind_eq_some_iff.1 ht
  obtain ⟨hmay, rfl⟩ := given_eq_some.1 ht
  obtain ⟨hbar, hpre⟩ := Bool.and_eq_true_iff.1 hmay
  have hstays : (p.bar.isNone || (s.groupAt p.g).pre == .none) = false := by
    rw [Bool.or_eq_false_iff]
    exact ⟨by simpa using hbar, by simpa using hpre⟩
  unfold pftCancel
  rw [hp]
  dsimp only
  rw [hstays]
  rfl

/-- Settles O20, one lemma for each step. -/
theorem placementEventsHappen : Obligations.PlacementEventsHappen := by
  intro i e he
  cases i with
  | translationWalk core ctx va =>
    obtain rfl := Option.some.inj he
    refine happens_of_run (r := translationWalk core ctx va) (fun _ => rfl) (fun s t ht => ?_)
    obtain ⟨hva, rfl⟩ := given_eq_some.1 ht
    exact if_neg (Nat.not_le.2 (of_decide_eq_true hva))
  | tlbInvalidation ctx va len =>
    obtain rfl := Option.some.inj he
    refine happens_of_run (r := tlbInvalidation ctx va len) (fun _ => rfl) (fun s t ht => ?_)
    obtain ⟨hready, rfl⟩ := given_eq_some.1 ht
    exact tlbInvalidation_ready hready
  | pageSwap k g what => exact pageSwap_happens k g what e he
  | pageMigration ctx va dpa toHost data => exact pageMigration_happens ctx va dpa toHost data e he
  | fetchNonresMigrate who ok dpa data =>
    obtain rfl := Option.some.inj he
    exact fetchNonresMigrate_happens who ok dpa data
  | pftComplete n => exact pftComplete_happens n e he
  | pftCancel n => exact pftCancel_happens n e he
  | _ => cases he

end Sys2Proof.Machine
end

section
open Sys2Proof Sys2Proof.Machine Sys2Proof.Claims
namespace Sys2Proof.Machine

/-! Sources (R24, R206). -/

/-- The hardware queue that q`n` is mapped to. -/
def State.queueOf (s : State) (x : Ex) (n : Nat) : Nat := (x.fibre s).qmap.getD n n

/-- Reading a queue gives Poison(EMPTY) where its access processor exists, and the lane's word at its head is empty or is still to come. -/
theorem queueRead_empty_iff {s : State} {x : Ex} {n l : Nat} :
    (∃ a v, s.queueRead x n l = .new cEMPTY a v) ↔
      ∃ a, (x.group s).aps.find? (fun e => e.1 == s.queueOf x n / 8) = some a ∧
        ((sgetD (x.group s).queues (s.queueOf x n) {}).entries = [] ∧ a.2.st ≠ .ended ∧ a.2.st ≠ .stopped ∨
         ∃ e es, (sgetD (x.group s).queues (s.queueOf x n) {}).entries = e :: es ∧ (e.2.getD l {}).full = false) := by
  unfold State.queueRead State.queueOf
  dsimp only
  cases (x.group s).aps.find? (fun e => e.1 == (x.fibre s).qmap.getD n n / 8) with
  | none => simp [cQUEUE, cEMPTY]
  | some a =>
    cases (sgetD (x.group s).queues ((x.fibre s).qmap.getD n n) {}).entries with
    | nil => cases hst : a.2.st <;> simp [hst, cQUEUE, cEMPTY]
    | cons e es => cases hw : (e.2.getD l {}).full <;> simp_all

theorem codeFull_false_iff {s : State} {x : Ex} {code : BitVec 8} {h l : Nat} :
    s.codeFull x code h l = false ↔ emptyWord s x code h l := by
  have hqueue : (match s.queueRead x (code.toNat - 0xF0) l with
      | .new c _ _ => c != cEMPTY
      | .ok _ => true) = false ↔ ∃ a v, s.queueRead x (code.toNat - 0xF0) l = .new cEMPTY a v := by
    cases s.queueRead x (code.toNat - 0xF0) l <;> simp
  unfold State.codeFull emptyWord
  dsimp only
  split
  · next hreg => simp [hreg]
  · next hreg =>
    split
    · next hq =>
      refine hqueue.trans ?_
      rw [queueRead_empty_iff]
      simp [hreg, hq, Nat.le_of_not_lt hreg, State.queueOf]
    · next hq => simp [hreg, hq]

/-- A source position is not ready where it is read under the block policy and, in some participant, one of its words is empty. -/
theorem posReady_false_iff {s : State} {x : Ex} {c : Cls} {code : BitVec 8} {probe : Bool} :
    s.posReady x c code probe = false ↔ Cls.isRegs c = true ∧ probe = false ∧
      ∃ l ∈ x.parts, ∃ h, (h = 0 ∨ (h = 1 ∧ Cls.isPair c = true)) ∧ emptyWord s x code h l := by
  simp only [State.posReady, Bool.or_eq_false_iff, Bool.not_eq_false', List.all_eq_false, Bool.and_eq_true, not_and_or,
    Bool.not_eq_true, Bool.or_eq_true, Bool.not_eq_true', not_or, Bool.not_eq_false, codeFull_false_iff]
  constructor
  · rintro ⟨⟨hp, hc⟩, l, hl, h | ⟨hpair, h⟩⟩
    · exact ⟨hc, hp, l, hl, 0, .inl rfl, h⟩
    · exact ⟨hc, hp, l, hl, 1, .inr ⟨rfl, hpair⟩, h⟩
  · rintro ⟨hc, hp, l, hl, h, rfl | ⟨rfl, hpair⟩, he⟩
    · exact ⟨⟨hp, hc⟩, l, hl, .inl he⟩
    · exact ⟨⟨hp, hc⟩, l, hl, .inr ⟨hpair, he⟩⟩

/-- The sources of an execution are not ready where one of the positions that it reads is not. -/
theorem ready_false_iff {s : State} {x : Ex} {r : Reads} :
    s.ready x r = false ↔ ∃ e ∈ [(r.a, x.k.a, x.f.a, 0), (r.b, x.k.b, x.f.b, 1), (r.c, x.k.c, x.f.c, 2), (r.d, x.k.d, x.f.d, 2)],
      e.1 = true ∧ s.posReady x e.2.1 e.2.2.1 (x.f.sp.getLsbD e.2.2.2) = false := by
  simp only [State.ready, Bool.and_eq_false_iff, Bool.or_eq_false_iff, Bool.not_eq_false', List.mem_cons, List.not_mem_nil,
    or_false, exists_eq_or_imp, exists_eq_left, or_assoc]

/-- What a read gives outside a cycle flagged late. -/
theorem readCode_timely {s : State} {x : Ex} (hlate : s.lateUnit x = none) (code : BitVec 8) (half lane : Nat) :
    s.readCode x code half lane =
    if code.toNat < 0xF0 then (if (s.codeWord x code half lane).full then .ok (s.codeWord x code half lane)
      else .new cEMPTY 0 (BitVec.ofNat 32 code.toNat))
    else if code.toNat < 0xF8 then s.queueRead x (code.toNat - 0xF0) lane
    else if code.toNat = 0xF9 then .ok (mkWord (BitVec.ofNat 32 lane))
    else if code.toNat = 0xFF then .ok (mkWord (litWord x.f half))
    else .ok (mkWord 0) := by
  simp only [State.readCode, hlate, ite_self]

/-- The head of a queue that has an entry. -/
theorem queueRead_head {s : State} {x : Ex} {n l : Nat} {a : Nat × Ap} {q : HwQueue} {id : Nat} {head : List RegWord}
    (ha : (x.group s).aps.find? (fun e => e.1 == s.queueOf x n / 8) = some a) (hq : sget (x.group s).queues (s.queueOf x n) = some q)
    (he : q.entries = (id, head) :: q.entries.tail) :
    s.queueRead x n l = if (head.getD l {}).full then .ok (head.getD l {}) else .new cEMPTY 0 (BitVec.ofNat 32 (0xF0 + n)) := by
  have hd : sgetD (x.group s).queues (s.queueOf x n) {} = q := by rw [sgetD, hq]; rfl
  unfold State.queueOf at ha hd
  unfold State.queueRead
  dsimp only
  rw [ha]
  dsimp only
  rw [hd, he]

/-- An instruction whose sources are not ready waits, with nothing changed. -/
theorem alu_waits {i : Instr} {a : Alu} (hi : isAlu i a) {s : State} {p : Path} {q : Option Path} (h : Issuing s p q a.op a.f)
    (hr : (s.start p a.f).ready (s.exOf p a.op a.f) {} = false) : exec i s = .next ((s.settle p.g p.w p.f).blockPath p) := by
  have hbody : aluBody a (s.exOf p a.op a.f) ((s.settle p.g p.w p.f).prep p a.f) = .wait := by
    unfold State.start at hr
    simp [aluBody, hr]
  have hparts : (s.exOf p a.op a.f).parts.isEmpty = false := List.isEmpty_eq_false_iff.2 h.parts
  rw [exec_alu hi]
  simp [runInstr, h.turn, runPath, h.window, h.free, hparts, hbody]

theorem blockPath_agree (s : State) (p : Path) : Agree (s.blockPath p) s := rfl

/-- Settles O56: a word that blocks is one that `codeFull` says is empty, and what a read gives goes by its code. -/
theorem sourcesAreRead : Obligations.SourcesAreRead := by
  refine ⟨fun s x r => ?_, fun s x code half lane hlate => ⟨?_, ?_, ?_, ?_, ?_⟩, fun v => ⟨rfl, rfl, rfl, rfl⟩,
    fun i a hi s p q h hr => ⟨alu_waits hi h hr, blockPath_agree _ _⟩⟩
  · simp only [ready_false_iff, posReady_false_iff]
  · rintro rfl
    exact readCode_timely hlate ..
  · rintro rfl
    exact readCode_timely hlate ..
  · rintro rfl
    exact readCode_timely hlate ..
  · intro hreg
    rw [readCode_timely hlate, if_pos hreg]
  · intro n a q id head hcode hn _ ha hq he
    rw [readCode_timely hlate, if_neg (by omega), if_pos (by omega), show code.toNat - 0xF0 = n by omega, queueRead_head ha hq he, hcode]

end Sys2Proof.Machine
end

section
open Sys2Proof Sys2Proof.Machine Sys2Proof.Claims
namespace Sys2Proof.Machine

/-! A change of a group, wherever the group is: placed, saved, or nowhere. -/

/-- Each group is as it was, or as the change leaves it. -/
theorem groupAt_modGroup_or (s : State) (g j : Nat) (k : Group → Group) :
    (s.modGroup g k).groupAt j = s.groupAt j ∨ j = g ∧ (s.modGroup g k).groupAt j = k (s.groupAt j) := by
  cases hg : s.group? g with
  | some x =>
    rw [groupAt_modGroup s g j k (by simp [hg])]
    by_cases hj : j = g
    · subst hj; exact .inr ⟨rfl, if_pos rfl⟩
    · exact .inl (if_neg hj)
  | none =>
    have hfind : ((s.saved.map (fun v => if v.g == g then { v with group := k v.group } else v)).find? (fun v => v.g == j)) =
        (s.saved.find? (fun v => v.g == j)).map (fun v => if v.g == g then { v with group := k v.group } else v) := by
      rw [List.find?_map]
      congr 2
      funext v
      dsimp only [Function.comp_apply]
      split <;> rfl
    have hstate : s.modGroup g k = { s with saved := s.saved.map (fun v => if v.g == g then { v with group := k v.group } else v) } := by
      unfold State.modGroup
      rw [hg]
    rw [hstate]
    unfold State.groupAt
    change (match s.group? j with | some x => x | none => _) = _ ∨ j = g ∧ (match s.group? j with | some x => x | none => _) = _
    cases hj : s.group? j with
    | some x => exact .inl rfl
    | none =>
      dsimp only
      rw [hfind]
      cases hv : s.saved.find? (fun v => v.g == j) with
      | none => exact .inl rfl
      | some v =>
        have hvj : v.g = j := by simpa using List.find?_some hv
        by_cases hvg : v.g = g
        · exact .inr ⟨hvj.symm.trans hvg, by simp [hvg]⟩
        · exact .inl (by simp [hvg])

/-- What a change of a group keeps of every group, it keeps. -/
theorem keeps_modGroup {β : Type} (b : Group → β) (k : Group → Group) (hk : ∀ x, b (k x) = b x) (s : State) (g j : Nat) :
    b ((s.modGroup g k).groupAt j) = b (s.groupAt j) := by
  obtain h | ⟨-, h⟩ := groupAt_modGroup_or s g j k
  · rw [h]
  · rw [h, hk]

/-- A change outside the groups. -/
theorem groupAt_of_groups {s t : State} (hg : t.groups = s.groups) (hs : t.saved = s.saved) (j : Nat) : t.groupAt j = s.groupAt j := by
  simp only [State.groupAt, State.group?, hg, hs]

/-- What a change of an entry of a list keeps of every entry, it keeps. -/
theorem getD_modAt_keeps {α β : Type} (b : α → β) (k : α → α) (hk : ∀ x, b (k x) = b x) (xs : List α) (i j : Nat) (d : α) :
    b ((modAt xs i k).getD j d) = b (xs.getD j d) := by
  rw [← getD_map_of _ j b, map_modAt _ _ _ _ hk, getD_map_of]

/-- A change of a fibre changes no register of a warp. -/
theorem regAt_modFibre (s : State) (g w f : Nat) (k : Fibre → Fibre) (j v o : Nat) : (s.modFibre g w f k).regAt j v o = s.regAt j v o :=
  keeps_modGroup (fun x => sgetD (x.warps.getD v {}).regs o {}) _
    (fun _ => getD_modAt_keeps (fun y : Warp => sgetD y.regs o {}) _ (fun _ => by rfl) _ _ _ _) s g j

end Sys2Proof.Machine
end

section
open Sys2Proof Sys2Proof.Machine Sys2Proof.Claims
namespace Sys2Proof.Machine

/-! A freeze (R26, R182, R183). -/

/-- What the end of a freeze leaves of a lane, a fibre and a warp: registers, predicates, PCs, FSTAT, what a freeze records and what the
quarantine holds. -/
def Lane.outlasts (l : Lane) : Lane := { ({} : Lane) with preds := l.preds, pc := l.pc }
def Fibre.outlasts (y : Fibre) : Fibre :=
  { ({} : Fibre) with uregs := y.uregs, fstat := y.fstat, frozen := y.frozen, quar := y.quar, lanes := y.lanes.map Lane.outlasts }
def Warp.outlasts (w : Warp) : Warp := { ({} : Warp) with regs := w.regs, fibres := w.fibres.map Fibre.outlasts }

/-- Whether an operation of the cycle is the departure of members. -/
def BarOp.isLeave : BarOp → Bool
  | .leave _ => true
  | _ => false

/-- A group as a freeze may leave it: what outlasts a freeze is kept, a failed group stays failed, and nothing but departures is brought to
its barriers. -/
structure Group.Outlasts (x y : Group) : Prop where
  warps : y.warps.map Warp.outlasts = x.warps.map Warp.outlasts
  failed : x.failed = true → y.failed = true
  leaves : x.barOps.all BarOp.isLeave = true → y.barOps.all BarOp.isLeave = true

theorem Group.Outlasts.refl (x : Group) : x.Outlasts x := ⟨rfl, id, id⟩
theorem Group.Outlasts.trans {x y z : Group} (h : x.Outlasts y) (k : y.Outlasts z) : x.Outlasts z :=
  ⟨k.warps.trans h.warps, k.failed ∘ h.failed, k.leaves ∘ h.leaves⟩

/-- The same of every group, and of memory. -/
structure Outlasts (s t : State) : Prop where
  mem : t.mem = s.mem
  groups : ∀ j, (s.groupAt j).Outlasts (t.groupAt j)

theorem Outlasts.trans {s t u : State} (h : Outlasts s t) (k : Outlasts t u) : Outlasts s u :=
  ⟨k.mem.trans h.mem, fun j => (h.groups j).trans (k.groups j)⟩

/-- A change outside memory and the groups. -/
theorem outlasts_of_groups {s t : State} (hm : t.mem = s.mem) (hg : t.groups = s.groups) (hs : t.saved = s.saved) : Outlasts s t :=
  ⟨hm, fun j => by rw [groupAt_of_groups hg hs]; exact .refl _⟩

theorem Outlasts.refl (s : State) : Outlasts s s := outlasts_of_groups rfl rfl rfl

theorem outlasts_modGroup (s : State) (g : Nat) (k : Group → Group) (hk : ∀ x : Group, x.Outlasts (k x)) : Outlasts s (s.modGroup g k) := by
  refine ⟨modGroup_mem .., fun j => ?_⟩
  obtain h | ⟨-, h⟩ := groupAt_modGroup_or s g j k
  · rw [h]; exact .refl _
  · rw [h]; exact hk _

theorem outlasts_modWarp (s : State) (g w : Nat) (k : Warp → Warp) (hk : ∀ x, (k x).outlasts = x.outlasts) : Outlasts s (s.modWarp g w k) :=
  outlasts_modGroup s g _ (fun _ => ⟨map_modAt _ _ _ _ hk, id, id⟩)

theorem outlasts_modFibre (s : State) (g w f : Nat) (k : Fibre → Fibre) (hk : ∀ x, (k x).outlasts = x.outlasts) :
    Outlasts s (s.modFibre g w f k) :=
  outlasts_modWarp s g w _ (fun x => by simp only [Warp.outlasts, map_modAt _ _ _ _ hk])

theorem outlasts_foldl {α : Type} (k : State → α → State) (hk : ∀ s a, Outlasts s (k s a)) (ls : List α) (s : State) :
    Outlasts s (ls.foldl k s) :=
  List.foldlRecOn ls k (.refl s) (fun t ht a _ => ht.trans (hk t a))

/-- A change of lanes' states. -/
theorem outlasts_mapLanes (y : Fibre) (k : Lane → Lane) (hk : ∀ l, (k l).outlasts = l.outlasts) : (mapLanes y k).outlasts = y.outlasts := by
  simp [mapLanes, Fibre.outlasts, Function.comp_def, hk]

theorem outlasts_mapFibres (w : Warp) (k : Nat → Fibre → Fibre) (hk : ∀ i y, (k i y).outlasts = y.outlasts) :
    (mapFibres w k).outlasts = w.outlasts := by
  have : (w.fibres.mapIdx k).map Fibre.outlasts = w.fibres.map Fibre.outlasts := by apply List.ext_getElem <;> simp [hk]
  simp only [mapFibres, Warp.outlasts, this]

/-! The parts of a freeze. -/

theorem outlasts_countFrozen (s : State) (g w f : Nat) (z : Frozen) : Outlasts s (s.countFrozen g w f z) := outlasts_of_groups rfl rfl rfl
theorem outlasts_launchCart (s : State) (n k : Nat) (r : Cart) : Outlasts s (s.launchCart n k r) := outlasts_of_groups rfl rfl rfl
theorem outlasts_tallyGone (s : State) (g w f : Nat) : Outlasts s (s.tallyGone g w f) := outlasts_of_groups rfl rfl rfl
theorem outlasts_newId (s : State) : Outlasts s s.newId.2 := outlasts_of_groups rfl rfl rfl
theorem outlasts_modBar (s : State) (g n : Nat) (k : Barrier → Barrier) : Outlasts s (s.modBar g n k) :=
  outlasts_modGroup s g _ (fun _ => ⟨rfl, id, id⟩)

theorem outlasts_failGroup (s : State) (g : Nat) : Outlasts s (s.failGroup g) :=
  (outlasts_modGroup s g (fun x => { x with failed := true }) (fun _ => ⟨rfl, fun _ => rfl, id⟩)).trans (outlasts_of_groups rfl rfl rfl)

theorem outlasts_leave (s : State) (g : Nat) (ms : List Member) : Outlasts s (s.leave g ms) := by
  unfold State.leave
  split
  · exact .refl s
  · exact outlasts_modGroup s g _ (fun x => ⟨rfl, id, fun h => by simpa [BarOp.isLeave] using h⟩)

theorem outlasts_fbarDone (y : Fibre) : (fbarDone y).outlasts = y.outlasts := by
  unfold fbarDone
  dsimp only
  split
  · exact outlasts_mapLanes _ _ (fun l => by split <;> rfl)
  · rfl

theorem outlasts_settleFbar (s : State) (g w : Nat) : Outlasts s (s.settleFbar g w) := by
  refine outlasts_modWarp s g w _ (fun x => ?_)
  have hdone : (mapFibres x (fun _ y => fbarDone y)).outlasts = x.outlasts := outlasts_mapFibres _ _ (fun _ y => outlasts_fbarDone y)
  dsimp only
  split
  · refine (outlasts_mapFibres _ _ (fun _ y => ?_)).trans hdone
    split
    · rfl
    · exact outlasts_mapLanes _ _ (fun l => by split <;> rfl)
  · exact hdone

theorem outlasts_settleAps (s : State) (g : Nat) : Outlasts s (s.modGroup g Group.settleAps) := by
  refine outlasts_modGroup s g _ (fun x => ?_)
  unfold Group.settleAps
  split
  · exact ⟨rfl, id, id⟩
  · exact .refl x

/-- What a freeze records in the fibre, and what it discards there. -/
def Fibre.record (z : Frozen) (x : Fibre) : Fibre := { x with frozen := some z, quar := [], releasing := none, park := none, nonres := none }

/-- Once the freeze stands in the fibre, the rest of it fails the group and leaves what outlasts a freeze. -/
theorem freeze_rest (s : State) (g w f c : Nat) (pc : DWord) (word : Word) (hp : (s.group? g).isSome = true) :
    Outlasts (s.modFibre g w f (Fibre.record { cause := BitVec.ofNat 8 c, pc := pc, word := word })) (s.freeze g w f c pc word) ∧
      ((s.freeze g w f c pc word).groupAt g).failed = true := by
  have hrest : ∀ (u : State) (z : Frozen), Outlasts u (((u.countFrozen g w f z).settleFbar g w).modGroup g Group.settleAps) := fun u z =>
    (outlasts_countFrozen u g w f z).trans ((outlasts_settleFbar _ g w).trans (outlasts_settleAps _ g))
  have hfail : ∀ u : State, (u.group? g).isSome = true → ((u.failGroup g).groupAt g).failed = true := fun u hu =>
    congrArg Group.failed ((groupAt_modGroup u g g _ hu).trans (if_pos rfl))
  have hleave : ∀ (u : State) (ms : List Member), (u.group? g).isSome = true → ((u.leave g ms).group? g).isSome = true := fun u ms hu => by
    unfold State.leave State.barOp
    split
    · exact hu
    · exact (placed_modGroup ..).trans hu
  have hparked : ∀ (u : State) cores prods, Outlasts u { u with cores := cores, prods := prods } := fun _ _ _ =>
    outlasts_of_groups rfl rfl rfl
  unfold State.freeze
  refine ⟨Outlasts.trans (Outlasts.trans ((outlasts_leave _ g _).trans (hparked _ _ _)) (outlasts_failGroup _ g)) (hrest _ _), ?_⟩
  exact ((hrest _ _).groups g).failed (hfail _ (hleave _ _ ((placed_modFibre ..).trans hp)))

theorem outlasts_failIfUnresolved (s : State) (g w f : Nat) : Outlasts s (s.failIfUnresolved g w f) := by
  unfold State.failIfUnresolved
  dsimp only
  split
  · exact outlasts_failGroup s g
  · exact .refl s

theorem outlasts_dropRing (s : State) (g w f : Nat) : Outlasts s (s.dropRing g w f) := by
  have hcarts : ∀ (gr : Group) (rs : List Cart), Outlasts s (rs.foldl (fun s r => s.launchCart gr.lsn gr.stage r) s) := fun gr rs =>
    outlasts_foldl _ (fun u r => outlasts_launchCart u gr.lsn gr.stage r) rs s
  have hring : ∀ u : State, Outlasts u ((u.tallyGone g w f).modFibre g w f (fun x => { x with ring := List.replicate 16 {} })) := fun u =>
    (outlasts_tallyGone u g w f).trans (outlasts_modFibre _ g w f (fun x => { x with ring := List.replicate 16 {} }) (fun _ => rfl))
  exact (hcarts _ _).trans (hring _)

theorem outlasts_release (s : State) (g n : Nat) : Outlasts s (s.release g n) := by
  unfold State.release
  dsimp only
  split
  · exact .refl s
  · refine (outlasts_newId s).trans (outlasts_modGroup _ g _ (fun x => ⟨?_, id, id⟩))
    rw [List.map_map]
    refine List.map_congr_left (fun w _ => outlasts_mapFibres w _ (fun _ y => ?_))
    split
    · exact outlasts_mapLanes _ _ (fun l => by split <;> rfl)
    · rfl

/-- An object that only departures concern is updated, and its waiters released. -/
theorem outlasts_flushBar (s : State) (g n : Nat) (ops : List BarOp) (ho : ops.all BarOp.isLeave = true) :
    Outlasts s (s.flushBar g n ops) := by
  unfold State.flushBar
  refine Outlasts.trans ?_ (outlasts_release _ g n)
  refine List.foldlRecOn ops _ (outlasts_modBar s g n _) (fun t ht o hm => ht.trans ?_)
  cases o with
  | leave ms => exact .refl t
  | _ => exact absurd (List.all_eq_true.1 ho _ hm) (by simp [BarOp.isLeave])

theorem outlasts_flush (s : State) (g : Nat) (ho : (s.groupAt g).barOps.all BarOp.isLeave = true) : Outlasts s (s.flush g) := by
  unfold State.flush
  dsimp only
  split
  · exact .refl s
  · have hclear := outlasts_modGroup s g (fun x => { x with barOps := [] }) (fun _ => ⟨rfl, id, fun _ => rfl⟩)
    refine hclear.trans (outlasts_foldl _ (fun t n => ?_) _ _)
    split
    · exact outlasts_flushBar t g n _ ho
    · exact .refl t

theorem outlasts_endCycle (s : State) (p : Path) (ho : (s.groupAt p.g).barOps.all BarOp.isLeave = true) : Outlasts s (s.endCycle p) := by
  have hend : ∀ (u : State) late, Outlasts s u → Outlasts s ({ ((u.flush p.g).settleFbar p.g p.w).forgetTallies with
      perfRead := [], late := late } : State) := fun u late hu => by
    obtain ⟨ts, hts⟩ := forgetTallies_eq ((u.flush p.g).settleFbar p.g p.w)
    rw [hts]
    exact hu.trans ((outlasts_flush u p.g ((hu.groups p.g).leaves ho)).trans
      ((outlasts_settleFbar _ p.g p.w).trans (outlasts_of_groups rfl rfl rfl)))
  unfold State.endCycle
  cases s.opp with
  | none => exact hend s _ (.refl s)
  | some o =>
    refine hend _ _ ((outlasts_modFibre s p.g p.w p.f _ (fun x => ?_)).trans (outlasts_of_groups rfl rfl rfl))
    have : (x.lanes.mapIdx (ageLane o.issued)).map Lane.outlasts = x.lanes.map Lane.outlasts := by
      have hage : ∀ i l, (ageLane o.issued i l).outlasts = l.outlasts := fun i l => by unfold ageLane; split <;> rfl
      apply List.ext_getElem <;> simp [hage]
    simp only [Fibre.outlasts, this]

/-- Once the freeze stands in the fibre, what else is done for the path leaves what outlasts a freeze, with the group failed. -/
theorem freezePath_rest (s : State) (p : Path) (c : Nat) (hp : (s.group? p.g).isSome = true) (hq : (s.groupAt p.g).barOps = []) :
    Outlasts (s.modFibre p.g p.w p.f (Fibre.record { cause := BitVec.ofNat 8 c, pc := p.pc, word := p.word })) (s.freezePath p c) ∧
      ((s.freezePath p c).groupAt p.g).failed = true := by
  obtain ⟨hrest, hfailed⟩ := freeze_rest s p.g p.w p.f c p.pc p.word hp
  have hring : Outlasts (s.freeze p.g p.w p.f c p.pc p.word)
      (((s.freeze p.g p.w p.f c p.pc p.word).failIfUnresolved p.g p.w p.f).dropRing p.g p.w p.f) :=
    (outlasts_failIfUnresolved _ _ _ _).trans (outlasts_dropRing _ _ _ _)
  have hops : ((s.modFibre p.g p.w p.f (Fibre.record { cause := BitVec.ofNat 8 c, pc := p.pc, word := p.word })).groupAt p.g).barOps = [] :=
    (barOps_modFibre s p.g p.w p.f p.g _ hp).trans hq
  have hcycle := outlasts_endCycle _ p (((hrest.trans hring).groups p.g).leaves (by rw [hops]; rfl))
  have hwake : ∀ u : State, Outlasts u { u.wake with turn := .choose } := fun _ => outlasts_of_groups rfl rfl rfl
  have hall : Outlasts (s.freeze p.g p.w p.f c p.pc p.word) (s.freezePath p c) := hring.trans (hcycle.trans (hwake _))
  exact ⟨hrest.trans hall, (hall.groups p.g).failed hfailed⟩

/-! What outlasts a freeze, as it is read. -/

section
variable {s t : State} (h : Outlasts s t)
include h

theorem Outlasts.warpAt (g w : Nat) : (t.warpAt g w).outlasts = (s.warpAt g w).outlasts := by
  have := congrArg (fun ws => ws.getD w ({} : Warp).outlasts) (h.groups g).warps
  simp only [getD_map_of] at this
  exact this

theorem Outlasts.fibreAt (g w f : Nat) : (t.fibreAt g w f).outlasts = (s.fibreAt g w f).outlasts := by
  have := congrArg (fun x => x.fibres.getD f ({} : Fibre).outlasts) (h.warpAt g w)
  simp only [Warp.outlasts, getD_map_of] at this
  exact this

theorem Outlasts.laneAt (g w f l : Nat) : (t.laneAt g w f l).outlasts = (s.laneAt g w f l).outlasts := by
  have := congrArg (fun x => x.lanes.getD l ({} : Lane).outlasts) (h.fibreAt g w f)
  simp only [Fibre.outlasts, getD_map_of] at this
  exact this

theorem Outlasts.regAt (g w o : Nat) : t.regAt g w o = s.regAt g w o :=
  same_of_blank Warp.outlasts (h.warpAt g w) (fun x => sgetD x.regs o {}) (fun _ => rfl)

theorem Outlasts.uregAt (g w f n : Nat) : t.uregAt g w f n = s.uregAt g w f n :=
  same_of_blank Fibre.outlasts (h.fibreAt g w f) (fun x => sgetD x.uregs n {}) (fun _ => rfl)

end

/-- Settles O37: `Outlasts` holds from the fibre's record on. -/
theorem freezeStopsTheFibre : Obligations.FreezeStopsTheFibre := by
  intro s p c hp hw hf hq
  dsimp only
  obtain ⟨hall, hfailed⟩ := freezePath_rest s p c hp hq
  have hfibre := hall.fibreAt p.g p.w p.f
  rw [Here.fibreAt_modFibre ⟨hp, hw, hf⟩, if_pos ⟨rfl, rfl, rfl⟩] at hfibre
  have hkept : ∀ {β : Type} (b : Fibre → β), (∀ y, b y.outlasts = b y) →
      b ((s.freezePath p c).fibreAt p.g p.w p.f) = b ((s.fibreAt p.g p.w p.f).record { cause := BitVec.ofNat 8 c, pc := p.pc, word := p.word }) :=
    fun b hb => same_of_blank Fibre.outlasts hfibre b hb
  have hlane : ∀ g w f l, ((s.freezePath p c).laneAt g w f l).outlasts = (s.laneAt g w f l).outlasts := fun g w f l =>
    (hall.laneAt g w f l).trans (fibreAt_modFibre_keeps (fun y => (y.lanes.getD l {}).outlasts) s p.g p.w p.f g w f _ hp (fun _ => rfl))
  have hfrozen := hkept Fibre.frozen (fun _ => rfl)
  have hopen : (s.freezePath p c).fibreOpen p.g p.w p.f = false := by
    unfold State.fibreOpen
    dsimp only
    rw [hfrozen]
    rfl
  exact ⟨hfrozen, hkept Fibre.quar (fun _ => rfl), hkept Fibre.fstat (fun _ => rfl), hfailed, hopen,
    fun g w o => (hall.regAt g w o).trans (regAt_modFibre s p.g p.w p.f _ g w o),
    fun g w f n => (hall.uregAt g w f n).trans
      (fibreAt_modFibre_keeps (fun y => sgetD y.uregs n {}) s p.g p.w p.f g w f _ hp (fun _ => rfl)),
    fun g w f l => same_of_blank Lane.outlasts (hlane g w f l) Lane.preds (fun _ => rfl),
    hall.mem.trans (modFibre_mem ..),
    fun l => same_of_blank Lane.outlasts (hlane p.g p.w p.f l) Lane.pc (fun _ => rfl)⟩

end Sys2Proof.Machine
end

section
open Sys2Proof Sys2Proof.Machine Sys2Proof.Claims
namespace Sys2Proof.Machine

/-! What the functions of register-to-register instructions give. -/

/-- The words of a result, with residues that are regenerated, or predicted (R21). -/
inductive Generated : List RegWord → Prop
  | fresh (wide : Bool) (v : Nat) : Generated (freshWords wide v)
  | predicted (wide : Bool) (v : Nat) (p : Int) : Generated (predictedWords wide v p)

/-- A result has a word. -/
theorem generated_ne_nil {ws : List RegWord} (h : Generated ws) : ws ≠ [] := by
  cases h with
  | fresh wide v => cases wide <;> simp [freshWords]
  | predicted wide v p => cases wide <;> simp [predictedWords]

/-- One of two results with regenerated residues. -/
theorem freshWords_ite_generated {p : Prop} [Decidable p] (wide wide' : Bool) (v v' : Nat) (m m' : Word) :
    Generated (if p then (freshWords wide v, m) else (freshWords wide' v', m')).1 := by
  split
  · exact .fresh wide v
  · exact .fresh wide' v'

theorem intPred_generated (f : Nat → Bool → List Int → Int) (p : List Int → Int) (x : Ex) (vs : List (List RegWord)) :
    Generated (intPred f p x vs).1 := .predicted _ _ _
theorem intRegen_generated (f : Nat → Bool → List Int → Int) (x : Ex) (vs : List (List RegWord)) : Generated (intRegen f x vs).1 := .fresh _ _
theorem imulWords_generated (x : Ex) (vs : List (List RegWord)) : Generated (imulWords x vs).1 := by
  unfold imulWords
  split
  · exact intRegen_generated _ _ _
  · exact intPred_generated _ _ _ _
theorem mad64_generated (x : Ex) (vs : List (List RegWord)) : Generated (mad64 x vs).1 := by
  dsimp only [mad64]
  exact .predicted _ _ _
theorem imadWords_generated (x : Ex) (vs : List (List RegWord)) : Generated (imadWords x vs).1 := by
  unfold imadWords
  split
  · exact mad64_generated x vs
  · split
    · exact intRegen_generated _ _ _
    · exact intPred_generated _ _ _ _
theorem leaWords_generated (x : Ex) (vs : List (List RegWord)) : Generated (leaWords x vs).1 := by
  dsimp only [leaWords]
  exact .predicted _ _ _
theorem dot4Words_generated (x : Ex) (vs : List (List RegWord)) : Generated (dot4Words x vs).1 := by
  dsimp only [dot4Words]
  exact .fresh _ _
theorem fshWords_generated (x : Ex) (vs : List (List RegWord)) : Generated (fshWords x vs).1 := by
  dsimp only [fshWords]
  exact .fresh _ _
theorem bfxWords_generated (x : Ex) (vs : List (List RegWord)) : Generated (bfxWords x vs).1 := by
  dsimp only [bfxWords]
  exact .fresh _ _
theorem bfiWords_generated (x : Ex) (vs : List (List RegWord)) : Generated (bfiWords x vs).1 := by
  dsimp only [bfiWords]
  exact .fresh _ _
theorem bytxWords_generated (x : Ex) (vs : List (List RegWord)) : Generated (bytxWords x vs).1 := by
  dsimp only [bytxWords]
  exact .fresh _ _
theorem bitCount_generated (f : Nat → Nat → Nat) (x : Ex) (vs : List (List RegWord)) : Generated (bitCount f x vs).1 := by
  dsimp only [bitCount]
  exact .fresh _ _
theorem shiftWords_generated (k : Shift) (x : Ex) (vs : List (List RegWord)) : Generated (shiftWords k x vs).1 := by
  unfold shiftWords
  dsimp only
  split <;> exact .fresh _ _
theorem floatWords_generated (k : Ex → List FVal → Nat × Word) (x : Ex) (vs : List (List RegWord)) : Generated (floatWords k x vs).1 :=
  freshWords_ite_generated _ _ _ _ _ _
theorem fsclWords_generated (x : Ex) (vs : List (List RegWord)) : Generated (fsclWords x vs).1 := freshWords_ite_generated _ _ _ _ _ _
theorem fdot2Words_generated (x : Ex) (vs : List (List RegWord)) : Generated (fdot2Words x vs).1 := by
  dsimp only [fdot2Words]
  exact .fresh _ _
theorem fcvtWords_generated (xv : Word) (x : Ex) (vs : List (List RegWord)) : Generated (fcvtWords xv x vs).1 :=
  freshWords_ite_generated _ _ _ _ _ _
theorem icvtWords_generated (xv : Word) (x : Ex) (vs : List (List RegWord)) : Generated (icvtWords xv x vs).1 :=
  freshWords_ite_generated _ _ _ _ _ _

/-- What an integer or logic instruction computes is generated. -/
theorem integerAlu_generated {i : Instr} {a : Alu} (h : integerAlu i = some a) (s : State) (x : Ex) (vs : List (List RegWord)) :
    Generated (a.fn s x vs).1 := by
  unfold integerAlu at h
  split at h
  case h_1 => cases h; exact intPred_generated _ _ _ _
  case h_2 => cases h; exact intPred_generated _ _ _ _
  case h_3 => cases h; exact imulWords_generated _ _
  case h_5 => cases h; exact imadWords_generated _ _
  case h_6 => cases h; exact intPred_generated _ _ _ _
  case h_12 => cases h; exact intPred_generated _ _ _ _
  case h_13 => cases h; exact leaWords_generated _ _
  case h_14 => cases h; exact dot4Words_generated _ _
  case h_19 => cases h; exact shiftWords_generated _ _ _
  case h_20 => cases h; exact shiftWords_generated _ _ _
  case h_21 => cases h; exact shiftWords_generated _ _ _
  case h_22 => cases h; exact fshWords_generated _ _
  case h_23 => cases h; exact bfxWords_generated _ _
  case h_24 => cases h; exact bfiWords_generated x vs
  case h_25 => cases h; exact bitCount_generated _ _ _
  case h_26 => cases h; exact bitCount_generated _ _ _
  case h_28 => cases h; exact bytxWords_generated x vs
  case h_30 => cases h
  all_goals (cases h; exact .fresh _ _)

/-- What a floating-point instruction or a conversion computes is generated. -/
theorem floatAlu_generated {i : Instr} {a : Alu} (h : floatAlu i = some a) (s : State) (x : Ex) (vs : List (List RegWord)) :
    Generated (a.fn s x vs).1 := by
  unfold floatAlu at h
  split at h
  case h_14 => cases h; exact fsclWords_generated _ _
  case h_15 => cases h; exact fdot2Words_generated _ _
  case h_16 => cases h; exact fcvtWords_generated _ _ _
  case h_17 => cases h; exact icvtWords_generated _ _ _
  case h_18 => cases h
  all_goals (cases h; exact floatWords_generated _ x vs)

theorem alu_generated {i : Instr} {a : Alu} (h : isAlu i a) (s : State) (x : Ex) (vs : List (List RegWord)) :
    Generated (a.fn s x vs).1 := by
  obtain h | h := h
  · exact integerAlu_generated h s x vs
  · exact floatAlu_generated h s x vs

end Sys2Proof.Machine
end

section
open Sys2Proof Sys2Proof.Machine Sys2Proof.Claims
namespace Sys2Proof.Machine

/-! Residues of words (R20, R21). -/

theorem ofNat_mod15_ne (n : Nat) : BitVec.ofNat 4 (n % 15) ≠ 15 := by
  intro h
  have := congrArg BitVec.toNat h
  simp only [BitVec.toNat_ofNat, show (15 : BitVec 4).toNat = 15 from rfl] at this
  omega

theorem ofInt_mod15_ne (p : Int) : BitVec.ofNat 4 (p % 15).toNat ≠ 15 := by
  have h : (p % 15).toNat = (p % 15).toNat % 15 := by omega
  rw [h]
  exact ofNat_mod15_ne _

theorem residue_toNat (v : Word) : (residue v).toNat = v.toNat % 15 := by
  simp only [residue, BitVec.toNat_ofNat]
  omega

theorem residue_ne (v : Word) : residue v ≠ 15 := ofNat_mod15_ne _
theorem mkWord_res_ne (v : Word) : (mkWord v).res ≠ 15 := residue_ne v
theorem badWord_res_ne (v : Word) : (badWord v).res ≠ 15 := residue_ne v

/-- No word of a list carries the code 15. -/
def NoFifteen (ws : List RegWord) : Prop := ∀ w ∈ ws, w.res ≠ 15

theorem freshWords_ne (wide : Bool) (v : Nat) : NoFifteen (freshWords wide v) := by
  intro w hw
  cases wide with
  | false => obtain rfl := List.mem_singleton.1 hw; exact mkWord_res_ne _
  | true =>
    obtain rfl | hw := List.mem_cons.1 hw
    · exact mkWord_res_ne _
    · obtain rfl := List.mem_singleton.1 hw; exact mkWord_res_ne _

theorem predictedWords_ne (wide : Bool) (v : Nat) (p : Int) : NoFifteen (predictedWords wide v p) := by
  intro w hw
  cases wide with
  | false => obtain rfl := List.mem_singleton.1 hw; exact ofInt_mod15_ne _
  | true =>
    obtain rfl | hw := List.mem_cons.1 hw
    · exact ofInt_mod15_ne _
    · obtain rfl := List.mem_singleton.1 hw; exact mkWord_res_ne _

theorem generated_ne {ws : List RegWord} (h : Generated ws) : NoFifteen ws := by
  cases h with
  | fresh wide v => exact freshWords_ne wide v
  | predicted wide v p => exact predictedWords_ne wide v p

theorem addCarry_ne {c : Bool} {vs : List (List Val)} {w : RegWord} (hgood : firstBad vs.flatten = none) (h : (addCarry c vs).1 = .ok w) :
    w.res ≠ 15 := by
  simp only [addCarry, hgood] at h
  cases h
  exact ofInt_mod15_ne _

theorem item_ne {i : Item} {m : MemWord} {w : RegWord} (hm : i.got = some (.mem m)) (h : i.value = .ok w) : w.res ≠ 15 := by
  simp only [Item.value, hm] at h
  split at h
  · cases h
  · cases h; exact mkWord_res_ne _

theorem stepTile_ne (o : MatrixOp) (kk t : Nat) (r : TileRun) : NoFifteen (o.stepTile kk t r).2.1 := by
  unfold MatrixOp.stepTile
  dsimp only
  split
  · intro w hw
    rw [List.eq_of_mem_replicate hw]
    exact badWord_res_ne _
  · intro w hw
    obtain ⟨v, _, rfl⟩ := List.mem_map.1 hw
    exact mkWord_res_ne _
  · intro w hw
    cases hw

/-- A word with the code 15 fails the check of its residue. -/
theorem checkWord_fifteen {w : RegWord} (a : DWord) (hr : w.res = 15) (hp : w.poison = false) :
    ∃ d, checkWord (.ok w) a = .new cRESIDUE a d := by
  have : (w.res == residue w.val) = false := by
    rw [hr]
    exact beq_false_of_ne (residue_ne w.val).symm
  simp [checkWord, hp, this]

/-! Writes keep the code 15 out of registers. -/

/-- No register of a warp, or uniform register of a fibre, carries the code. -/
def Fibre.No15 (y : Fibre) : Prop := ∀ n, (sgetD y.uregs n {}).res ≠ 15
def Warp.No15 (x : Warp) : Prop := (∀ o, (sgetD x.regs o {}).res ≠ 15) ∧ ∀ f, (x.fibres.getD f {}).No15
def Group.No15 (x : Group) : Prop := ∀ w, (x.warps.getD w {}).No15

theorem no15_iff {s : State} : No15 s ↔ ∀ g, (s.groupAt g).No15 := Iff.rfl

section
variable {s : State} (h : No15 s)
include h

theorem no15_of_groups {t : State} (hg : t.groups = s.groups) (hs : t.saved = s.saved) : No15 t := by
  rw [no15_iff]
  intro g
  rw [groupAt_of_groups hg hs]
  exact h g

theorem no15_modGroup (g : Nat) (k : Group → Group) (hk : ∀ x : Group, x.No15 → (k x).No15) : No15 (s.modGroup g k) := by
  rw [no15_iff]
  intro j
  obtain e | ⟨-, e⟩ := groupAt_modGroup_or s g j k
  · rw [e]; exact h j
  · rw [e]; exact hk _ (h j)

theorem no15_modWarp (g w : Nat) (k : Warp → Warp) (hk : ∀ x : Warp, x.No15 → (k x).No15) : No15 (s.modWarp g w k) :=
  no15_modGroup h g _ (fun x hx v => getD_modAt_imp Warp.No15 x.warps w v k {} hk (hx v))

theorem no15_modFibre (g w f : Nat) (k : Fibre → Fibre) (hk : ∀ y : Fibre, y.No15 → (k y).No15) : No15 (s.modFibre g w f k) :=
  no15_modWarp h g w _ (fun x hx => ⟨hx.1, fun e => getD_modAt_imp Fibre.No15 x.fibres f e k {} hk (hx.2 e)⟩)

theorem no15_setReg (g w o : Nat) {v : RegWord} (hv : v.res ≠ 15) : No15 (s.setReg g w o v) := by
  refine no15_modWarp h g w _ (fun x hx => ⟨fun i => ?_, hx.2⟩)
  dsimp only
  rw [sgetD_ssetD]
  split
  · exact hv
  · exact hx.1 i

theorem no15_setUreg (g w f n : Nat) {v : RegWord} (hv : v.res ≠ 15) : No15 (s.setUreg g w f n v) := by
  refine no15_modFibre h g w f _ (fun y hy i => ?_)
  dsimp only
  rw [sgetD_ssetD]
  split
  · exact hv
  · exact hy i

theorem no15_writeVec (g w f l o : Nat) {v : RegWord} (hv : v.res ≠ 15) : No15 (s.writeVec g w f l o v) :=
  no15_setReg (s := s.dropDest g w f (some l) (.vec g w o)) (no15_of_groups h rfl rfl) g w o hv

theorem no15_writeUni (g w f n : Nat) {v : RegWord} (hv : v.res ≠ 15) : No15 (s.writeUni g w f n v) :=
  no15_setUreg (s := s.dropDest g w f none (.uni g w f n)) (no15_of_groups h rfl rfl) g w f n hv

theorem no15_writeDest (d : Dest) {v : RegWord} (hv : v.res ≠ 15) : No15 (s.writeDest d v) := by
  cases d with
  | vec g w o => exact no15_setReg h g w o hv
  | uni g w f n => exact no15_setUreg h g w f n hv
  | none => exact h
  | queue g q e l => exact h

theorem no15_putWord (x : Ex) (code : BitVec 8) (half lane : Nat) {v : RegWord} (hv : v.res ≠ 15) : No15 (s.putWord x code half lane v) := by
  unfold State.putWord
  dsimp only
  split
  · exact no15_writeVec h _ _ _ _ _ hv
  · split
    · split
      · exact no15_modGroup h _ _ (fun _ hx => hx)
      · exact no15_writeUni h _ _ _ _ hv
    · exact h

theorem no15_putWords (x : Ex) (code : BitVec 8) (lane : Nat) {vs : List RegWord} (hv : NoFifteen vs) : No15 (s.putWords x code lane vs) := by
  have hword : ∀ i, (vs.getD i {}).res ≠ 15 := fun i => by
    rw [List.getD_eq_getElem?_getD]
    cases e : vs[i]? with
    | none => decide
    | some w => exact hv w (List.mem_of_getElem? e)
  unfold State.putWords
  dsimp only
  split
  · exact no15_putWord (no15_putWord h x code 0 lane (hword 0)) x code 1 lane (hword 1)
  · exact no15_putWord h x code 0 lane (hword 0)

theorem no15_addCart (g w f : Nat) (r : Cart) : No15 (s.addCart g w f r).2 := by
  unfold State.addCart
  dsimp only
  split
  · exact no15_of_groups h rfl rfl
  · refine no15_modFibre h g w f _ (fun y hy => ?_)
    unfold ringPut
    dsimp only
    split <;> exact hy

theorem no15_growCart (g w f i : Nat) (r : Cart) : No15 (s.growCart g w f i r) := no15_modFibre h g w f _ (fun _ hy => hy)

theorem no15_failGroup (g : Nat) : No15 (s.failGroup g) :=
  no15_of_groups (s := s.modGroup g (fun x => { x with failed := true })) (no15_modGroup h g _ (fun _ hx => hx)) rfl rfl

theorem no15_makePoison (g w f : Nat) (fl : Byte) (pc : DWord) (made : List (Nat × Val)) : No15 (s.makePoison g w f fl pc made).1 :=
  List.foldlRecOn (motive := fun acc : State × Sparse Word => No15 acc.1) _ _ h (fun _ hacc _ _ => no15_addCart hacc g w f _)

theorem no15_foldl {α : Type} (k : State → α → State) (ls : List α) (hk : ∀ t, No15 t → ∀ a ∈ ls, No15 (k t a)) : No15 (ls.foldl k s) :=
  List.foldlRecOn ls k h hk

theorem no15_poisonOnce (e g w f : Nat) (fl : Byte) (pc : DWord) (made : List (Nat × Val)) : No15 (s.poisonOnce e g w f fl pc made).1 := by
  unfold State.poisonOnce
  dsimp only
  split
  · exact h
  · refine no15_of_groups (no15_makePoison (no15_foldl h _ _ (fun t ht c _ => ?_)) g w f fl pc _) rfl rfl
    split
    · exact ht
    · exact no15_growCart ht g w f _ _

theorem no15_countBad (g w f : Nat) (fl : Byte) (pc : DWord) (bads : List (Nat × Val)) : No15 (s.countBad g w f fl pc bads) := by
  refine no15_foldl h _ _ (fun t ht c _ => no15_addCart ?_ g w f _)
  refine no15_modFibre ?_ g w f _ (fun _ hy => by exact hy)
  split
  · exact no15_failGroup ht g
  · exact ht

theorem no15_countPart (e g w f : Nat) (fl : Byte) (pc : DWord) (bads : List (Nat × Val)) : No15 (s.countPart e g w f fl pc bads) := by
  refine no15_foldl h _ _ (fun t ht c _ => ?_)
  dsimp only
  split
  · split
    · exact ht
    · exact no15_growCart ht g w f _ _
  · exact no15_of_groups (no15_countBad ht g w f fl pc _) rfl rfl

end

/-- The word of a value that is new poison, or a word without the code. -/
theorem val_word_ne {v : Val} (tbl : Sparse Word) (h : ∀ w, v = .ok w → w.res ≠ 15) : (v.word tbl).res ≠ 15 := by
  cases v with
  | ok w => exact h w rfl
  | new c a d => exact badWord_res_ne _

theorem vals_words_ne {vs : List Val} (tbl : Sparse Word) (h : ∀ w, .ok w ∈ vs → w.res ≠ 15) : NoFifteen (vs.map (fun v => v.word tbl)) := by
  intro w hw
  obtain ⟨v, hv, rfl⟩ := List.mem_map.1 hw
  exact val_word_ne tbl (fun w hw => h w (hw ▸ hv))

/-- A uniform destination receives the words of one lane, or new poison. -/
theorem uniformOut_ok {whole : Bool} {live : Word} {outs : List (Nat × List Val)} {r : Nat × List Val} {w : RegWord}
    (h : uniformOut whole live outs = some r) (hw : .ok w ∈ r.2) : ∃ o ∈ outs, .ok w ∈ o.2 := by
  unfold uniformOut at h
  split at h
  · cases h
  · next l vs rest =>
    split at h
    · obtain rfl := Option.some.inj h
      split at hw
      · next o ho => exact ⟨o, List.mem_of_find?_eq_some ho, hw⟩
      · exact ⟨(l, vs), List.mem_cons_self .., hw⟩
    · obtain rfl := Option.some.inj h
      simp at hw

theorem no15_writeDst {s : State} (x : Ex) (code : BitVec 8) {outs : List (Nat × List Val)} (made : List (Nat × Val))
    (ho : ∀ o ∈ outs, ∀ w, .ok w ∈ o.2 → w.res ≠ 15) (h : No15 s) : No15 (s.writeDst x code outs made) := by
  unfold State.writeDst
  dsimp only
  split
  · split
    · exact h
    · next l vs hu =>
      refine no15_putWords (no15_makePoison h _ _ _ _ _ _) x code l (vals_words_ne _ (fun w hw => ?_))
      obtain ⟨o, hmem, hok⟩ := uniformOut_ok hu hw
      exact ho o hmem w hok
  · exact no15_foldl (no15_makePoison h _ _ _ _ _ _) _ _ (fun t ht o hmem => no15_putWords ht x code o.1 (vals_words_ne _ (ho o hmem)))

theorem no15_tileWrite {s : State} (x : Ex) {outs : List TileOut} (ho : ∀ o ∈ outs, ∀ k w, o.res = .inr (k, .ok w) → w.res ≠ 15) (h : No15 s) :
    No15 (s.tileWrite x outs) := by
  refine no15_modFibre (no15_foldl (no15_makePoison h _ _ _ _ _ _) _ _ (fun t ht o hmem => ?_)) _ _ _ _ (fun _ hy => hy)
  split
  · exact no15_foldl ht _ _ (fun u hu e _ => no15_writeVec hu _ _ _ _ _ (mkWord_res_ne _))
  · next v hv =>
    exact no15_foldl ht _ _ (fun u hu e _ => no15_writeVec hu _ _ _ _ _ (val_word_ne _ (fun w hw => ho o hmem v.1 w (by rw [hv, ← hw]))))

/-- What an item delivers is a word that it was given, or one with a regenerated residue. -/
theorem item_value_ne {i : Item} (hi : ∀ r, i.got = some (.reg r) → r.res ≠ 15) {w : RegWord} (h : i.value = .ok w) : w.res ≠ 15 := by
  cases hg : i.got with
  | none =>
    simp only [Item.value, hg] at h
    cases h; decide
  | some v =>
    cases v with
    | reg r =>
      simp only [Item.value, hg] at h
      exact Val.ok.inj h ▸ hi r hg
    | mem m => exact item_ne hg h
    | fail c a d =>
      simp only [Item.value, hg] at h
      cases h

theorem no15_writeItems {s : State} (e g w f : Nat) (fl : Byte) (pc : DWord) {items : List Item}
    (hi : ∀ i ∈ items, ∀ r, i.got = some (.reg r) → r.res ≠ 15) (h : No15 s) : No15 (s.writeItems e g w f fl pc items) := by
  unfold State.writeItems
  dsimp only
  refine no15_countPart (no15_foldl (no15_poisonOnce h _ _ _ _ _ _ _) _ _ (fun t ht i hmem => no15_writeDest ht i.dst ?_)) _ _ _ _ _ _ _
  exact val_word_ne _ (fun w hw => item_value_ne (hi i (List.mem_filter.1 hmem).1) hw)

/-- Settles O34: every producer regenerates or predicts its residues modulo 15, and every write keeps `No15`. -/
theorem residuesOfWords : Obligations.ResiduesOfWords := by
  refine ⟨residue_toNat, fun hi lo => by omega, fun v => ⟨mkWord_res_ne v, badWord_res_ne v⟩, freshWords_ne, fun i a hi s x srcs => generated_ne (alu_generated hi s x srcs),
    fun c vs w hgood h => addCarry_ne hgood h, fun i m w hm h => item_ne hm h, fun s x code outs made ho h => no15_writeDst x code made ho h,
    fun s x outs ho h => no15_tileWrite x ho h, fun s e g w f fl pc items hi h => no15_writeItems e g w f fl pc hi h, stepTile_ne,
    fun w a hr hp => checkWord_fifteen a hr hp⟩

end Sys2Proof.Machine
end

section
open Sys2Proof Sys2Proof.Machine Sys2Proof.Claims
namespace Sys2Proof.Machine

/-! What operations on a fibre's registers and flags leave of the warps: a warp less the parts that they change is as it was. -/

/-- A warp less something of each fibre, and less its registers. -/
def Warp.less (b : Fibre → Fibre) (x : Warp) : Warp := { x with fibres := x.fibres.map b }
def Warp.lessRegs (x : Warp) : Warp := { x with regs := [] }

/-- Of every group, being placed and the warps less `b` are as they were. -/
structure Keeps (b : Warp → Warp) (s t : State) : Prop where
  placed : ∀ j, (t.group? j).isSome = (s.group? j).isSome
  warps : ∀ j, (t.groupAt j).warps.map b = (s.groupAt j).warps.map b

section
variable {b : Warp → Warp} {s t u : State}

theorem Keeps.trans (h : Keeps b s t) (k : Keeps b t u) : Keeps b s u :=
  ⟨fun j => (k.placed j).trans (h.placed j), fun j => (k.warps j).trans (h.warps j)⟩

/-- A change outside the groups. -/
theorem keeps_of_groups (hg : t.groups = s.groups) (hs : t.saved = s.saved) : Keeps b s t :=
  ⟨fun j => by simp [State.group?, hg], fun j => by rw [groupAt_of_groups hg hs]⟩

theorem Keeps.refl (s : State) : Keeps b s s := ⟨fun _ => rfl, fun _ => rfl⟩

theorem Keeps.modGroup (h : Keeps b s t) (g : Nat) (k : Group → Group) (hk : ∀ x, (k x).warps.map b = x.warps.map b) :
    Keeps b s (t.modGroup g k) :=
  h.trans ⟨fun _ => placed_modGroup .., fun j => keeps_modGroup (fun x => x.warps.map b) k hk t g j⟩

theorem Keeps.modWarp (h : Keeps b s t) (g w : Nat) (k : Warp → Warp) (hk : ∀ x, b (k x) = b x) : Keeps b s (t.modWarp g w k) :=
  h.modGroup g _ (fun _ => map_modAt _ _ _ _ hk)

theorem Keeps.foldl {α : Type} (h : Keeps b s t) (k : State → α → State) (ls : List α) (hk : ∀ v, Keeps b s v → ∀ a ∈ ls, Keeps b s (k v a)) :
    Keeps b s (ls.foldl k t) := List.foldlRecOn ls k h hk

theorem Keeps.warpAt (h : Keeps b s t) (g w : Nat) : b (t.warpAt g w) = b (s.warpAt g w) := by
  have := congrArg (fun ws => ws.getD w (b {})) (h.warps g)
  simp only [getD_map_of] at this
  exact this

/-- Registers are kept where `b` keeps them. -/
theorem Keeps.regAt (h : Keeps b s t) (hb : ∀ x, (b x).regs = x.regs) (g w o : Nat) : t.regAt g w o = s.regAt g w o :=
  same_of_blank b (h.warpAt g w) (fun x => sgetD x.regs o {}) (fun x => by rw [hb])

/-- What `b` leaves of each fibre is kept. -/
theorem Keeps.fibreAt (h : Keeps b s t) {c : Fibre → Fibre} (hc : ∀ x, (b x).fibres = x.fibres.map c) (g w f : Nat) :
    c (t.fibreAt g w f) = c (s.fibreAt g w f) := by
  have := congrArg (fun x => x.fibres.getD f (c {})) (h.warpAt g w)
  simp only [hc, getD_map_of] at this
  exact this

/-- The fibre stands where it stood. -/
theorem Keeps.here (h : Keeps b s t) {c : Fibre → Fibre} (hc : ∀ x, (b x).fibres = x.fibres.map c) {g w f : Nat} (k : Here s g w f) :
    Here t g w f := by
  refine k.of_warps ((h.placed g).trans k.placed) ?_
  have := congrArg (fun ws => ws.map (fun x => x.fibres.length)) (h.warps g)
  simpa [hc, Function.comp_def] using this

end

/-- A change of a fibre that its blank does not see. -/
theorem Keeps.modFibre {c : Fibre → Fibre} {s t : State} (h : Keeps (Warp.less c) s t) (g w f : Nat) (k : Fibre → Fibre)
    (hk : ∀ y, c (k y) = c y) : Keeps (Warp.less c) s (t.modFibre g w f k) :=
  h.modWarp g w _ (fun x => by simp only [Warp.less, map_modAt _ _ _ _ hk])

theorem less_fibres {c : Fibre → Fibre} (x : Warp) : (Warp.less c x).fibres = x.fibres.map c := rfl
theorem lessRegs_fibres (x : Warp) : (Warp.lessRegs x).fibres = x.fibres.map id := (List.map_id _).symm

/-! The start of an execution. -/

/-- A fibre less its fences, its flags of the cycle and its lanes' places: what the start of an execution keeps. -/
def Fibre.begun (y : Fibre) : Fibre := { y with fences := [], raised := 0, lanes := y.lanes.map Lane.blank }
def Warp.begun (x : Warp) : Warp := Warp.less Fibre.begun x.lessRegs

theorem begun_fibres (x : Warp) : (Warp.begun x).fibres = x.fibres.map Fibre.begun := rfl

theorem Keeps.modFibre_begun {s t : State} (h : Keeps Warp.begun s t) (g w f : Nat) (k : Fibre → Fibre) (hk : ∀ y, (k y).begun = y.begun) :
    Keeps Warp.begun s (t.modFibre g w f k) :=
  h.modWarp g w _ (fun x => by simp only [Warp.begun, Warp.less, Warp.lessRegs, map_modAt _ _ _ _ hk])

theorem settle_begun (s : State) (g w f : Nat) : Keeps Warp.begun s (s.settle g w f) := by
  have hfences : Keeps Warp.begun s (s.settleFences g w f) := by
    refine (Keeps.refl s).foldl _ _ (fun t ht e _ => ?_)
    split
    · exact ht
    · have hdone : Keeps Warp.begun s (t.modFibre g w f (fun y => { y with fences := y.fences.filter (fun k => k != e) })) :=
        ht.modFibre_begun g w f _ (fun _ => rfl)
      dsimp only
      split
      · exact hdone.trans (keeps_of_groups rfl rfl)
      · exact hdone
  have hrun : ∀ (t : State) n hist is, Keeps Warp.begun s t → Keeps Warp.begun s (t.driftRun g w n hist is) := fun t n hist is ht =>
    (ht.trans (keeps_of_groups (t := { t with freeN := t.freeN + 256 }) rfl rfl)).modWarp g w _ (fun _ => rfl)
  exact hfences.foldl _ _ (fun t ht o _ => ht.foldl _ _ (fun u hu e _ => hrun u _ _ _ hu))

theorem prep_begun (s : State) (p : Path) (f : Fields) : Keeps Warp.begun s (s.prep p f) := by
  have hstrand : ∀ (t : State) ls, Keeps Warp.begun s t → Keeps Warp.begun s (t.strand p ls) := fun t ls ht =>
    ht.foldl _ _ (fun u hu e _ => hu.modFibre_begun p.g p.w p.f _ (fun y => by
      simp only [Fibre.begun]
      rw [map_modAt _ _ _ Lane.blank (fun _ => by rfl)]))
  unfold State.prep
  refine hstrand _ _ ?_
  split
  · exact .refl s
  · exact (Keeps.refl s).modFibre_begun p.g p.w p.f _ (fun _ => rfl)

/-- The start of an execution keeps each fibre less its fences, its flags of the cycle and its lanes' places. -/
theorem start_begun (s : State) (p : Path) (f : Fields) : Keeps Warp.begun s (s.start p f) :=
  (settle_begun s p.g p.w p.f).trans (prep_begun _ p f)

section
variable (s : State) (p : Path) (f : Fields)

theorem start_fibre {β : Type} (r : Fibre → β) (hr : ∀ y : Fibre, r y.begun = r y) (g w e : Nat) :
    r ((s.start p f).fibreAt g w e) = r (s.fibreAt g w e) :=
  same_of_blank Fibre.begun ((start_begun s p f).fibreAt begun_fibres g w e) r hr

theorem start_uregAt (g w e n : Nat) : (s.start p f).uregAt g w e n = s.uregAt g w e n :=
  start_fibre s p f (fun y => sgetD y.uregs n {}) (fun _ => rfl) g w e

theorem start_preds (g w e l : Nat) : ((s.start p f).laneAt g w e l).preds = (s.laneAt g w e l).preds :=
  start_fibre s p f (fun y => (y.lanes.getD l {}).preds)
    (fun y => by have h := congrArg Lane.preds (getD_map_of y.lanes l Lane.blank {}); exact h) g w e

theorem start_fstat (g w e : Nat) : ((s.start p f).fibreAt g w e).fstat = (s.fibreAt g w e).fstat :=
  start_fibre s p f Fibre.fstat (fun _ => rfl) g w e

theorem start_here {g w e : Nat} (h : Here s g w e) : Here (s.start p f) g w e := (start_begun s p f).here begun_fibres h

end

end Sys2Proof.Machine
end

section
open Sys2Proof Sys2Proof.Machine Sys2Proof.Claims
namespace Sys2Proof.Machine

/-! What the parts of an effect on registers, predicates and flags leave alone. -/

theorem memorySame_refl (s : State) : MemorySame s s := ⟨rfl, rfl, rfl, rfl, rfl, fun _ _ => rfl⟩

theorem memorySame_trans {s t u : State} (h : MemorySame s t) (k : MemorySame t u) : MemorySame s u := by
  obtain ⟨hm, hb, ho, hc, hg, hs⟩ := h
  obtain ⟨km, kb, ko, kc, kg, ks⟩ := k
  exact ⟨km.trans hm, kb.trans hb, ko.trans ho, kc.trans hc, kg.trans hg, fun g i => (ks g i).trans (hs g i)⟩

theorem memorySame_agree {t u : State} (h : Agree t u) : MemorySame u t :=
  ⟨h.mem, h.bad, h.owners, h.cores, h.msgs, h.spAt⟩

theorem memorySame_modGroup (s : State) (g : Nat) (k : Group → Group) (hk : ∀ x, (k x).spad = x.spad) : MemorySame s (s.modGroup g k) :=
  ⟨modGroup_mem .., modGroup_bad .., modGroup_owners .., modGroup_cores .., modGroup_msgs ..,
    fun j i => congrArg (fun m : Sparse SpadWord => sgetD m i {}) (keeps_modGroup Group.spad k hk s g j)⟩

/-- Nothing changes of memory, nor of the warps less `b`, nor of the issue opportunity. -/
structure Spares (b : Warp → Warp) (s t : State) : Prop extends Keeps b s t where
  memory : MemorySame s t
  opp : t.opp = s.opp

section
variable {b : Warp → Warp} {s t u : State}

theorem Spares.refl (s : State) : Spares b s s := ⟨.refl s, memorySame_refl s, rfl⟩

theorem Spares.trans (h : Spares b s t) (k : Spares b t u) : Spares b s u :=
  ⟨h.toKeeps.trans k.toKeeps, memorySame_trans h.memory k.memory, k.opp.trans h.opp⟩

theorem Spares.modGroup (h : Spares b s t) (g : Nat) (k : Group → Group) (hk : ∀ x, (k x).warps.map b = x.warps.map b)
    (hs : ∀ x, (k x).spad = x.spad) : Spares b s (t.modGroup g k) :=
  ⟨h.toKeeps.modGroup g k hk, memorySame_trans h.memory (memorySame_modGroup t g k hs), (modGroup_opp ..).trans h.opp⟩

theorem Spares.modWarp (h : Spares b s t) (g w : Nat) (k : Warp → Warp) (hk : ∀ x, b (k x) = b x) : Spares b s (t.modWarp g w k) :=
  h.modGroup g _ (fun _ => map_modAt _ _ _ _ hk) (fun _ => rfl)

theorem Spares.modFibre {c : Fibre → Fibre} (h : Spares (Warp.less c) s t) (g w f : Nat) (k : Fibre → Fibre) (hk : ∀ y, c (k y) = c y) :
    Spares (Warp.less c) s (t.modFibre g w f k) :=
  h.modWarp g w _ (fun x => by simp only [Warp.less, map_modAt _ _ _ _ hk])

theorem Spares.foldl {α : Type} (h : Spares b s t) (k : State → α → State) (ls : List α) (hk : ∀ v, Spares b s v → ∀ a ∈ ls, Spares b s (k v a)) :
    Spares b s (ls.foldl k t) := List.foldlRecOn ls k h hk

/-- The producers and the engine lie outside all of it. -/
theorem Spares.outside (h : Spares b s t) (ps : List Prod) (e : Engine) : Spares b s { t with prods := ps, engine := e } :=
  h.trans ⟨keeps_of_groups rfl rfl, memorySame_refl t, rfl⟩

theorem spares_popQueues (s : State) (x : Ex) (cs : List (BitVec 8)) : Spares b s (s.popQueues x cs) := by
  refine (Spares.refl s).foldl _ _ (fun v hv c _ => hv.modGroup _ _ (fun y => ?_) (fun y => ?_)) <;> split <;> rfl

end

/-- Parts of a fibre that an effect may change: its uniform registers; its flags; its records with their index; its predicates. -/
def Fibre.lessUregs (y : Fibre) : Fibre := { y with uregs := [] }
def Fibre.lessFlags (y : Fibre) : Fibre := { y with fstat := 0, raised := 0 }
def Fibre.lessRecords (y : Fibre) : Fibre := { y with fstat := 0, ring := [] }
def Lane.lessPreds (l : Lane) : Lane := { l with preds := [] }
def Fibre.lessPreds (y : Fibre) : Fibre := { y with lanes := y.lanes.map Lane.lessPreds }

theorem spares_setFlags (s : State) (g w f : Nat) (m : Word) : Spares (Warp.less Fibre.lessFlags) s (s.setFlags g w f m) :=
  (Spares.refl s).modFibre g w f _ (fun _ => rfl)

theorem spares_setPred (s : State) (p : Path) (l n : Nat) (v : Pred) : Spares (Warp.less Fibre.lessPreds) s (s.setPred p l n v) := by
  unfold State.setPred
  split
  · exact .refl s
  · refine (Spares.refl s).modFibre p.g p.w p.f _ (fun y => ?_)
    simp only [Fibre.lessPreds]
    rw [map_modAt _ _ _ Lane.lessPreds (fun _ => by rfl)]

theorem spares_addCart (s : State) (g w f : Nat) (r : Cart) : Spares (Warp.less Fibre.lessRecords) s (s.addCart g w f r).2 := by
  unfold State.addCart
  dsimp only
  split
  · exact (Spares.refl s).outside _ _
  · refine (Spares.refl s).modFibre g w f _ (fun y => ?_)
    unfold ringPut
    dsimp only
    split <;> rfl

theorem spares_writeVec (s : State) (g w f l o : Nat) (v : RegWord) : Spares Warp.lessRegs s (s.writeVec g w f l o v) :=
  ((Spares.refl s).outside _ s.engine).modWarp g w _ (fun _ => rfl)

theorem spares_writeUni (s : State) (g w f n : Nat) (v : RegWord) : Spares (Warp.less Fibre.lessUregs) s (s.writeUni g w f n v) :=
  ((Spares.refl s).outside _ s.engine).modFibre g w f _ (fun _ => rfl)

/-! Records of nothing. -/

/-- Words that are all found, none new, make no record. -/
theorem causesOf_ok {made : List (Nat × Val)} (h : ∀ e ∈ made, ∃ w, e.2 = .ok w) : causesOf made = [] := by
  refine List.foldlRecOn (motive := fun cs => cs = []) made _ rfl (fun cs hcs e he => ?_)
  obtain ⟨w, hw⟩ := h e he
  rw [hw, hcs]

theorem makePoison_ok (s : State) (g w f : Nat) (fl : Byte) (pc : DWord) {made : List (Nat × Val)} (h : ∀ e ∈ made, ∃ w, e.2 = .ok w) :
    s.makePoison g w f fl pc made = (s, []) := by
  simp [State.makePoison, causesOf_ok h]

theorem madeOf_ok {reads : List (Nat × List Val)} (h : ∀ r ∈ reads, ∀ v ∈ r.2, ∃ w, v = .ok w) : madeOf reads = [] := by
  unfold madeOf
  simp only [List.flatMap_eq_nil_iff, List.filterMap_eq_nil_iff]
  intro r hr v hv
  obtain ⟨w, rfl⟩ := h r hr v hv
  rfl

/-- The first poisoned word of some that are found is one of them. -/
theorem firstBad_mem {vs : List Val} {v : Val} (h : firstBad vs = some v) : v ∈ vs ∧ v.isBad = true :=
  ⟨List.mem_of_find?_eq_some h, List.find?_some h⟩

/-! A state that agrees with one whose flags have been set. -/

section
variable {v t : State} {p : Path} {m : Word} (h : Agree t (v.setFlags p.g p.w p.f m))
include h

theorem flagged_fibre {β : Type} (r : Fibre → β) (hb : ∀ y, r y.blank = r y) (hr : ∀ y, r y.lessFlags = r y) (g w f : Nat) :
    r (t.fibreAt g w f) = r (v.fibreAt g w f) :=
  (same_of_blank Fibre.blank (h.fibreAt g w f) r hb).trans
    (same_of_blank Fibre.lessFlags ((spares_setFlags v p.g p.w p.f m).fibreAt less_fibres g w f) r hr)

theorem flagged_regAt (g w o : Nat) : t.regAt g w o = v.regAt g w o := (h.regAt g w o).trans (regAt_modFibre ..)

theorem flagged_uregAt (g w f n : Nat) : t.uregAt g w f n = v.uregAt g w f n :=
  flagged_fibre h (fun y => sgetD y.uregs n {}) (fun _ => rfl) (fun _ => rfl) g w f

theorem flagged_preds (g w f l : Nat) : (t.laneAt g w f l).preds = (v.laneAt g w f l).preds :=
  flagged_fibre h (fun y => (y.lanes.getD l {}).preds)
    (fun y => by have e := congrArg Lane.preds (getD_map_of y.lanes l Lane.blank {}); exact e) (fun _ => rfl) g w f

theorem flagged_memory : MemorySame v t := memorySame_trans (spares_setFlags v p.g p.w p.f m).memory (memorySame_agree h)

/-- The fibre's FSTAT has received the flags, and no other fibre's has changed. -/
theorem flagged_flags {s : State} (hv : Here v p.g p.w p.f) (hs : ∀ g w f, (v.fibreAt g w f).fstat = (s.fibreAt g w f).fstat) : FlagsSet s t p m := by
  have hset : ∀ g w f, (t.fibreAt g w f).fstat =
      if g = p.g ∧ w = p.w ∧ f = p.f then (s.fibreAt p.g p.w p.f).fstat ||| m else (s.fibreAt g w f).fstat := fun g w f => by
    rw [h.fstat, State.setFlags, hv.fibreAt_modFibre, ← hs, ← hs]
    split <;> rfl
  refine ⟨(hset _ _ _).trans (if_pos ⟨rfl, rfl, rfl⟩), fun g w f hne => (hset g w f).trans (if_neg (fun ⟨hg, hw, hf⟩ => hne ?_))⟩
  rw [hg, hw, hf]

end

/-- The lanes that take part are lanes of the path, each once. -/
theorem partsOf_lanes {s : State} {p : Path} {f : Fields} : (∀ l ∈ s.partsOf p f, l < 32) ∧ (s.partsOf p f).Nodup := by
  unfold State.partsOf lanesOf
  refine ⟨fun l hl => ?_, (List.nodup_range.filter _).filter _⟩
  exact List.mem_range.1 (List.mem_filter.1 (List.mem_filter.1 hl).1).1

end Sys2Proof.Machine
end

section
open Sys2Proof Sys2Proof.Machine Sys2Proof.Claims
namespace Sys2Proof.Machine

/-! What a register-to-register instruction gives in a lane whose sources are all found. -/

section
variable {a : Alu} {s : State} {x : Ex} {l : Nat} (h : a.settled s x l)
include h

/-- The values of its result are all words. -/
theorem resultOf_ok {v : Val} (hv : v ∈ (resultOf (a.fn s x) (a.width x) (a.srcs x s l)).1) : ∃ w, v = .ok w := by
  unfold resultOf at hv
  cases hb : firstBad (a.srcs x s l).flatten with
  | some u =>
    rw [hb] at hv
    rw [List.eq_of_mem_replicate hv]
    exact h u (firstBad_mem hb).1
  | none =>
    rw [hb] at hv
    obtain ⟨w, _, rfl⟩ := List.mem_map.1 hv
    exact ⟨w, rfl⟩

/-- They are the words of its result, whatever poison is made. -/
theorem result_words (tbl : Sparse Word) :
    (resultOf (a.fn s x) (a.width x) (a.srcs x s l)).1.map (fun v => v.word tbl) = a.result s x l := by
  have hall : ∀ vs : List Val, (∀ v ∈ vs, ∃ w, v = .ok w) → vs.map (fun v => v.word tbl) = wordsOfVals vs := by
    intro vs hvs
    induction vs with
    | nil => rfl
    | cons v r ih =>
      obtain ⟨w, rfl⟩ := hvs v (List.mem_cons_self ..)
      rw [List.map_cons, ih (fun u hu => hvs u (List.mem_cons_of_mem _ hu))]
      rfl
  exact hall _ (fun v hv => resultOf_ok h hv)

end

/-- What an instruction of a fibre, whose sources are all found, leaves: its queues popped, its words written, its flags set. -/
theorem regOut_settled {a : Alu} {s : State} {x : Ex} (hap : x.ap = none) (hset : ∀ l ∈ x.parts, a.settled s x l) :
    regOut a.srcs (a.fn s) (a.width x) x s =
      ((s.popQueues x x.codes).writeDst x x.f.d (x.parts.map (fun l => (l, (resultOf (a.fn s x) (a.width x) (a.srcs x s l)).1))) []).setFlags
        x.p.g x.p.w x.p.f (x.parts.foldl (fun m l => m ||| a.flags s x l) 0) := by
  have hmade : madeOf (x.parts.map (fun l => (l, (a.srcs x s l).flatten))) = [] := madeOf_ok (fun r hr v hv => by
    obtain ⟨l, hl, rfl⟩ := List.mem_map.1 hr
    exact hset l hl v hv)
  unfold regOut State.flagEx
  simp only [List.map_map, Function.comp_def, hap, hmade, List.foldl_map, Option.isSome_none, Bool.false_eq_true, if_false]
  rfl

/-! Words of vector registers. -/

section
variable (x : Ex)

theorem fibre_vvec {b : Warp → Warp} {c : Fibre → Fibre} {s t : State} (h : Spares b s t) (hc : ∀ y, (b y).fibres = y.fibres.map c)
    (hv : ∀ y, (c y).vvec = y.vvec) : (x.fibre t).vvec = (x.fibre s).vvec := by
  have hnow : (t.fibreAt x.p.g x.p.w x.p.f).vvec = (s.fibreAt x.p.g x.p.w x.p.f).vvec :=
    same_of_blank c (h.fibreAt hc x.p.g x.p.w x.p.f) Fibre.vvec hv
  unfold Ex.fibre State.pathFibre
  rw [h.opp]
  dsimp only
  cases s.opp with
  | none => exact hnow
  | some o =>
    dsimp only
    split
    · rfl
    · exact hnow

/-- The place of a lane's word is the same where the fibre's view is. -/
theorem vecPlace_spares {s t : State} (h : Spares Warp.lessRegs s t) (l i : Nat) : vecPlace t x l i = vecPlace s x l i := by
  unfold vecPlace vecOff
  rw [fibre_vvec x h lessRegs_fibres (fun _ => rfl)]

/-- Words of different lanes, or of different registers, have different places. -/
theorem vecPlace_inj {s : State} {l m i j : Nat} (hl : l < 32) (hm : m < 32) (h : vecPlace s x l i = vecPlace s x m j) : l = m ∧ i = j := by
  unfold vecPlace vecOff at h
  omega

variable {s : State} (hs : Here s x.p.g x.p.w x.p.f) (hd : x.f.d.toNat < 0xC0)
include hd

theorem putWord_vec (half l : Nat) (v : RegWord) :
    s.putWord x x.f.d half l v = s.writeVec x.p.g x.p.w x.p.f l (vecPlace s x l half) { v with full := true } := if_pos hd

theorem spares_putWords_vec (l : Nat) (ws : List RegWord) : Spares Warp.lessRegs s (s.putWords x x.f.d l ws) := by
  have hword : ∀ t half v, Spares Warp.lessRegs t (t.putWord x x.f.d half l v) := fun t half v => by
    rw [putWord_vec x hd]
    exact spares_writeVec ..
  unfold State.putWords
  dsimp only
  split
  · exact (hword _ _ _).trans (hword _ _ _)
  · exact hword _ _ _

include hs

theorem regAt_putWord_vec (half l : Nat) (v : RegWord) (g w o : Nat) :
    (s.putWord x x.f.d half l v).regAt g w o =
      if g = x.p.g ∧ w = x.p.w ∧ o = vecPlace s x l half then { v with full := true } else s.regAt g w o := by
  have hdrop : ∀ d, Spares Warp.lessRegs s (s.dropDest x.p.g x.p.w x.p.f (some l) d) := fun d => (Spares.refl s).outside _ s.engine
  obtain ⟨hp, hw, _⟩ := (hdrop (.vec x.p.g x.p.w (vecPlace s x l half))).here lessRegs_fibres hs
  rw [putWord_vec x hd]
  exact regAt_setReg _ x.p.g x.p.w (vecPlace s x l half) g w o _ hp hw

/-- A lane's words stand where they are written, and nowhere else. -/
theorem regAt_putWords_vec {l : Nat} (hl : l < 32) (ws : List RegWord) :
    (∀ i, wrote ws i → (s.putWords x x.f.d l ws).regAt x.p.g x.p.w (vecPlace s x l i) = { ws.getD i {} with full := true }) ∧
    (∀ g w o, (∀ i, wrote ws i → (g, w, o) ≠ (x.p.g, x.p.w, vecPlace s x l i)) → (s.putWords x x.f.d l ws).regAt g w o = s.regAt g w o) := by
  have hfirst := regAt_putWord_vec x hs hd 0 l (ws.getD 0 {})
  have hspare : Spares Warp.lessRegs s (s.putWord x x.f.d 0 l (ws.getD 0 {})) := by
    rw [putWord_vec x hd]
    exact spares_writeVec ..
  have hsecond := regAt_putWord_vec x (hspare.here lessRegs_fibres hs) hd 1 l (ws.getD 1 {})
  rw [vecPlace_spares x hspare] at hsecond
  have hne : vecPlace s x l 0 ≠ vecPlace s x l 1 := fun h => absurd (vecPlace_inj x hl hl h).2 (by decide)
  unfold State.putWords
  dsimp only
  by_cases h2 : ws.length > 1
  · rw [if_pos h2]
    refine ⟨fun i hi => ?_, fun g w o ho => ?_⟩
    · obtain rfl | ⟨rfl, _⟩ := hi
      · rw [hsecond, if_neg (fun h => hne h.2.2), hfirst, if_pos ⟨rfl, rfl, rfl⟩]
      · rw [hsecond, if_pos ⟨rfl, rfl, rfl⟩]
    · rw [hsecond, if_neg (fun ⟨a, b, c⟩ => ho 1 (.inr ⟨rfl, h2⟩) (by rw [a, b, c])), hfirst,
        if_neg (fun ⟨a, b, c⟩ => ho 0 (.inl rfl) (by rw [a, b, c]))]
  · rw [if_neg h2]
    refine ⟨fun i hi => ?_, fun g w o ho => ?_⟩
    · obtain rfl | ⟨rfl, hlt⟩ := hi
      · rw [hfirst, if_pos ⟨rfl, rfl, rfl⟩]
      · exact absurd hlt h2
    · rw [hfirst, if_neg (fun ⟨a, b, c⟩ => ho 0 (.inl rfl) (by rw [a, b, c]))]

end

section
variable (x : Ex) (R : Nat → List RegWord) (hd : x.f.d.toNat < 0xC0)
include hd

theorem spares_putAll_vec (ls : List Nat) (s : State) : Spares Warp.lessRegs s (ls.foldl (fun s l => s.putWords x x.f.d l (R l)) s) :=
  (Spares.refl s).foldl _ ls (fun _ hv l _ => hv.trans (spares_putWords_vec x hd l (R l)))

/-- The words of all lanes stand where they are written, and nowhere else. -/
theorem regAt_putAll_vec (ls : List Nat) (s : State) (hs : Here s x.p.g x.p.w x.p.f) (h32 : ∀ l ∈ ls, l < 32) (hnd : ls.Nodup) :
    let t := ls.foldl (fun s l => s.putWords x x.f.d l (R l)) s
    (∀ l ∈ ls, ∀ i, wrote (R l) i → t.regAt x.p.g x.p.w (vecPlace s x l i) = { (R l).getD i {} with full := true }) ∧
    (∀ g w o, (∀ l ∈ ls, ∀ i, wrote (R l) i → (g, w, o) ≠ (x.p.g, x.p.w, vecPlace s x l i)) → t.regAt g w o = s.regAt g w o) := by
  induction ls generalizing s with
  | nil => exact ⟨fun l hl => by simp at hl, fun _ _ _ _ => rfl⟩
  | cons a r ih =>
    have ha : a < 32 := h32 a (List.mem_cons_self ..)
    obtain ⟨har, hr⟩ := List.nodup_cons.1 hnd
    have hspare := spares_putWords_vec x (s := s) hd a (R a)
    obtain ⟨hhit, hmiss⟩ := regAt_putWords_vec x hs hd ha (R a)
    obtain ⟨ihhit, ihmiss⟩ := ih _ (hspare.here lessRegs_fibres hs) (fun l hl => h32 l (List.mem_cons_of_mem _ hl)) hr
    simp only [vecPlace_spares x hspare] at ihhit ihmiss
    refine ⟨fun l hl i hi => ?_, fun g w o ho => ?_⟩
    · obtain rfl | hl := List.mem_cons.1 hl
      · rw [List.foldl_cons, ihmiss _ _ _ (fun m hm j hj he => ?_), hhit i hi]
        injection he with _ he
        injection he with _ he
        exact har ((vecPlace_inj x ha (h32 m (List.mem_cons_of_mem _ hm)) he).1 ▸ hm)
      · exact ihhit l hl i hi
    · rw [List.foldl_cons, ihmiss _ _ _ (fun m hm => ho m (List.mem_cons_of_mem _ hm)), hmiss _ _ _ (ho a (List.mem_cons_self ..))]

end

/-- A vector destination of found words receives each lane's result. -/
theorem writeDst_vec {a : Alu} {s : State} {x : Ex} (hd : x.f.d.toNat < 0xC0) (hset : ∀ l ∈ x.parts, a.settled s x l) (v : State) :
    v.writeDst x x.f.d (x.parts.map (fun l => (l, (resultOf (a.fn s x) (a.width x) (a.srcs x s l)).1))) [] =
      x.parts.foldl (fun t l => t.putWords x x.f.d l (a.result s x l)) v := by
  have hflat : ∀ e ∈ (x.parts.map (fun l => (l, (resultOf (a.fn s x) (a.width x) (a.srcs x s l)).1))).flatMap
      (fun o => o.2.map (fun u => (o.1, u))), ∃ w, e.2 = Val.ok w := by
    intro e he
    obtain ⟨o, ho, he⟩ := List.mem_flatMap.1 he
    obtain ⟨l, hl, rfl⟩ := List.mem_map.1 ho
    obtain ⟨u, hu, rfl⟩ := List.mem_map.1 he
    exact resultOf_ok (hset l hl) hu
  unfold State.writeDst
  dsimp only
  rw [if_neg (by omega), List.nil_append, makePoison_ok _ _ _ _ _ _ hflat]
  dsimp only
  rw [List.foldl_map]
  refine List.foldl_ext _ _ _ (fun t l hl => ?_)
  rw [result_words (hset l hl)]

/-- What a settled instruction with a vector destination does, step by step: its queues are popped, its lanes' words written, its flags set. -/
theorem vec_effect {a : Alu} {s : State} {x : Ex} (hap : x.ap = none) (hd : x.f.d.toNat < 0xC0) (hs : Here s x.p.g x.p.w x.p.f)
    (hset : ∀ l ∈ x.parts, a.settled s x l) (h32 : ∀ l ∈ x.parts, l < 32) (hnd : x.parts.Nodup) :
    ∃ v, regOut a.srcs (a.fn s) (a.width x) x s = v.setFlags x.p.g x.p.w x.p.f (x.parts.foldl (fun m l => m ||| a.flags s x l) 0) ∧
      Spares Warp.lessRegs s v ∧
      (∀ l ∈ x.parts, ∀ i, wrote (a.result s x l) i →
        v.regAt x.p.g x.p.w (vecPlace s x l i) = { (a.result s x l).getD i {} with full := true }) ∧
      (∀ g w o, (∀ l ∈ x.parts, ∀ i, wrote (a.result s x l) i → (g, w, o) ≠ (x.p.g, x.p.w, vecPlace s x l i)) → v.regAt g w o = s.regAt g w o) := by
  have hpop : Spares Warp.lessRegs s (s.popQueues x x.codes) := spares_popQueues s x _
  have hpopRegs : Spares id s (s.popQueues x x.codes) := spares_popQueues s x _
  have hput := regAt_putAll_vec x (a.result s x) hd x.parts _ (hpop.here lessRegs_fibres hs) h32 hnd
  dsimp only at hput
  simp only [vecPlace_spares x hpop] at hput
  obtain ⟨hhit, hmiss⟩ := hput
  refine ⟨_, (regOut_settled hap hset).trans (by rw [writeDst_vec hd hset]), hpop.trans (spares_putAll_vec x _ hd _ _), hhit, fun g w o ho => ?_⟩
  exact (hmiss g w o ho).trans (hpopRegs.regAt (fun _ => rfl) g w o)

/-- Settles O11: the effect writes the lanes' places and then sets the flags; each part spares the rest. -/
theorem vectorResultAndFrame : Obligations.VectorResultAndFrame := by
  intro i a hi s p q hiss
  dsimp only
  intro hr hd hset
  have hs := start_here s p a.f hiss.here
  obtain ⟨t, ht, hagree, _⟩ := alu_completes hi hiss hr
  obtain ⟨h32, hnd⟩ := partsOf_lanes (s := s) (p := p) (f := a.f)
  obtain ⟨v, hv, hspare, hhit, hmiss⟩ := vec_effect (a := a) (s := s.start p a.f) (x := s.exOf p a.op a.f) rfl hd hs hset h32 hnd
  rw [hv] at hagree
  have hfib : ∀ g w f, v.fibreAt g w f = (s.start p a.f).fibreAt g w f := fun g w f => hspare.fibreAt lessRegs_fibres g w f
  refine ⟨t, ht, fun l hl i hw => (flagged_regAt hagree _ _ _).trans (hhit l hl i hw),
    fun g w o ho => (flagged_regAt hagree g w o).trans (hmiss g w o ho), fun g w f n => ?_, fun g w f l => ?_,
    memorySame_trans hspare.memory (flagged_memory hagree), flagged_flags hagree (hspare.here lessRegs_fibres hs) (fun g w f => ?_)⟩
  · rw [flagged_uregAt hagree, State.uregAt, hfib]
    exact start_uregAt s p a.f g w f n
  · rw [flagged_preds hagree, State.laneAt, hfib]
    exact start_preds s p a.f g w f l
  · rw [hfib]
    exact start_fstat s p a.f g w f

end Sys2Proof.Machine
end

section
open Sys2Proof Sys2Proof.Machine Sys2Proof.Claims
namespace Sys2Proof.Machine

/-! Instructions that test their sources and write a predicate. -/

/-- The body of such an instruction: it waits until its sources are ready, and then leaves `predOut`. -/
def testBody (a : TestOp) (x : Ex) (s : State) : Out := predOp a.srcs a.fn x s

theorem exec_testOp {i : Instr} {a : TestOp} (h : testOp i = some a) (s : State) : exec i s = runInstr a.op a.f (testBody a) s := by
  unfold testOp at h
  split at h <;> cases h <;> rfl

/-- A test whose sources are ready completes: it leaves what `predOut` says, and its lanes move on. -/
theorem test_completes {i : Instr} {a : TestOp} (hi : testOp i = some a) {s : State} {p : Path} {q : Option Path} (h : Issuing s p q a.op a.f)
    (hr : (s.start p a.f).ready (s.exOf p a.op a.f) {} = true) :
    Completes i s (s.exOf p a.op a.f) (predOut a.srcs a.fn (s.exOf p a.op a.f) (s.start p a.f)) [] :=
  completes_of_steady (m := false) i a.op a.f (testBody a) p q s _ [] (exec_testOp hi s) h (by simp [testBody, predOp, hr]) (by simp)
    (steady_predOut ..)

/-- No source of a lane has been newly poisoned by reading it. -/
def testSettled (a : TestOp) (s : State) (x : Ex) (l : Nat) : Prop := ∀ v ∈ (a.srcs x s l).flatten, ∃ w, v = .ok w

/-- The predicate that a value, or a word that is found poisoned, gives. -/
def foundPred : Bool ⊕ Val → Pred
  | .inl b => predOf b
  | .inr v => badPred (v.word []).val

theorem testOf_flags (a : TestOp) (s : State) (x : Ex) (l : Nat) : (testOf (a.fn x) (a.srcs x s l)).2 = a.flags s x l := by
  unfold testOf TestOp.flags
  cases firstBad (a.srcs x s l).flatten <;> rfl

section
variable {a : TestOp} {s : State} {x : Ex} {l : Nat} (h : testSettled a s x l)
include h

theorem testOf_ok {v : Val} (hv : (testOf (a.fn x) (a.srcs x s l)).1 = .inr v) : ∃ w, v = .ok w := by
  unfold testOf at hv
  cases hb : firstBad (a.srcs x s l).flatten with
  | some u =>
    rw [hb] at hv
    obtain rfl : u = v := Sum.inr.inj hv
    exact h u (firstBad_mem hb).1
  | none =>
    rw [hb] at hv
    cases hv

/-- The predicate that the lane receives. -/
theorem testOf_result : foundPred (testOf (a.fn x) (a.srcs x s l)).1 = a.result s x l := by
  unfold testOf TestOp.result
  cases hb : firstBad (a.srcs x s l).flatten with
  | some u =>
    obtain ⟨w, rfl⟩ := h u (firstBad_mem hb).1
    rfl
  | none => rfl

end

/-- Predicates that are found, none new poison, are written as they are. -/
theorem writePreds_found (s : State) (x : Ex) (n : Nat) {outs : List (Nat × (Bool ⊕ Val))} (h : ∀ o ∈ outs, ∀ v, o.2 = .inr v → ∃ w, v = .ok w) :
    s.writePreds x n outs [] = outs.foldl (fun t o => t.setPred x.p o.1 n (foundPred o.2)) s := by
  unfold State.writePreds
  dsimp only
  rw [makePoison_ok]
  · rfl
  · intro e he
    obtain ⟨o, ho, he⟩ := List.mem_filterMap.1 he
    cases hv : o.2 with
    | inl b => simp [hv] at he
    | inr v =>
      simp only [hv, Option.some.injEq] at he
      subst he
      exact h o ho v hv

/-- What a test of a fibre, whose sources are all found, leaves: its queues popped, its predicates written, its flags set. -/
theorem predOut_settled {a : TestOp} {s : State} {x : Ex} (hap : x.ap = none) (hset : ∀ l ∈ x.parts, testSettled a s x l) :
    predOut a.srcs a.fn x s =
      (x.parts.foldl (fun t l => t.setPred x.p l x.f.d.toNat (a.result s x l)) (s.popQueues x x.codes)).setFlags
        x.p.g x.p.w x.p.f (x.parts.foldl (fun m l => m ||| a.flags s x l) 0) := by
  have hmade : madeOf (x.parts.map (fun l => (l, (a.srcs x s l).flatten))) = [] := madeOf_ok (fun r hr v hv => by
    obtain ⟨l, hl, rfl⟩ := List.mem_map.1 hr
    exact hset l hl v hv)
  have hwrite : ∀ v : State, v.writePreds x x.f.d.toNat (x.parts.map (fun l => (l, (testOf (a.fn x) (a.srcs x s l)).1))) [] =
      x.parts.foldl (fun t l => t.setPred x.p l x.f.d.toNat (a.result s x l)) v := fun v => by
    rw [writePreds_found, List.foldl_map]
    · exact List.foldl_ext _ _ _ (fun t l hl => by rw [testOf_result (hset l hl)])
    · intro o ho u hu
      obtain ⟨l, hl, rfl⟩ := List.mem_map.1 ho
      exact testOf_ok (hset l hl) hu
  unfold predOut State.flagEx
  simp only [List.map_map, Function.comp_def, hap, hmade, List.foldl_map, Option.isSome_none, Bool.false_eq_true, if_false, hwrite, testOf_flags]

/-! Predicates of lanes. -/

theorem spares_setPreds (s : State) (p : Path) (n : Nat) (R : Nat → Pred) (ls : List Nat) :
    Spares (Warp.less Fibre.lessPreds) s (ls.foldl (fun t l => t.setPred p l n (R l)) s) :=
  (Spares.refl s).foldl _ ls (fun _ hv _ _ => hv.trans (spares_setPred ..))

/-- A predicate that is set in a lane that is there is set there alone. -/
theorem preds_setPred {s : State} {p : Path} {l n : Nat} {v : Pred} (h : Here s p.g p.w p.f) (hl : l < (s.fibreAt p.g p.w p.f).lanes.length)
    (hn : n ≠ 7) (g w f i : Nat) : ((s.setPred p l n v).laneAt g w f i).preds =
      if (g = p.g ∧ w = p.w ∧ f = p.f) ∧ i = l then (s.laneAt p.g p.w p.f l).preds.set n v else (s.laneAt g w f i).preds := by
  rw [State.setPred, if_neg hn]
  by_cases hf : g = p.g ∧ w = p.w ∧ f = p.f
  · obtain ⟨rfl, rfl, rfl⟩ := hf
    rw [h.laneAt_modLane _ l i hl]
    by_cases hi : i = l
    · rw [if_pos hi, if_pos ⟨⟨rfl, rfl, rfl⟩, hi⟩]
    · rw [if_neg hi, if_neg (fun hh => hi hh.2)]
  · rw [if_neg (fun hh => hf hh.1), State.laneAt, State.modLane, h.fibreAt_modFibre, if_neg hf]
    rfl

/-- Predicates that are set in some lanes, each once, are set there alone. -/
theorem preds_setPreds {p : Path} {n : Nat} (R : Nat → Pred) (hn : n ≠ 7) (ls : List Nat) (s : State) (h : Here s p.g p.w p.f)
    (hl : ∀ l ∈ ls, l < (s.fibreAt p.g p.w p.f).lanes.length) (hnd : ls.Nodup) (g w f i : Nat) :
    ((ls.foldl (fun t l => t.setPred p l n (R l)) s).laneAt g w f i).preds =
      if (g = p.g ∧ w = p.w ∧ f = p.f) ∧ i ∈ ls then (s.laneAt g w f i).preds.set n (R i) else (s.laneAt g w f i).preds := by
  induction ls generalizing s with
  | nil => simp
  | cons a r ih =>
    obtain ⟨har, hr⟩ := List.nodup_cons.1 hnd
    have hspare := spares_setPred s p a n (R a)
    have hlen : ((s.setPred p a n (R a)).fibreAt p.g p.w p.f).lanes.length = (s.fibreAt p.g p.w p.f).lanes.length :=
      same_of_blank Fibre.lessPreds (hspare.fibreAt less_fibres p.g p.w p.f) (fun y => y.lanes.length) (fun y => List.length_map _)
    rw [List.foldl_cons, ih _ (hspare.here less_fibres h) (fun l hm => by rw [hlen]; exact hl l (List.mem_cons_of_mem _ hm)) hr,
      preds_setPred h (hl a (List.mem_cons_self ..)) hn]
    by_cases hf : g = p.g ∧ w = p.w ∧ f = p.f
    · by_cases hi : i = a
      · subst hi
        obtain ⟨rfl, rfl, rfl⟩ := hf
        simp [har]
      · simp [hf, hi]
    · simp [hf]

/-- What a settled test does, step by step: its queues are popped, its lanes' predicates set, p7 never, and then its flags. -/
theorem test_effect {a : TestOp} {s : State} {x : Ex} (hap : x.ap = none) (hs : Here s x.p.g x.p.w x.p.f) (hset : ∀ l ∈ x.parts, testSettled a s x l)
    (hl : ∀ l ∈ x.parts, l < (s.fibreAt x.p.g x.p.w x.p.f).lanes.length) (hnd : x.parts.Nodup) :
    ∃ v, predOut a.srcs a.fn x s = v.setFlags x.p.g x.p.w x.p.f (x.parts.foldl (fun m l => m ||| a.flags s x l) 0) ∧
      Spares (Warp.less Fibre.lessPreds) s v ∧
      ∀ g w f i, (v.laneAt g w f i).preds = if x.f.d.toNat ≠ 7 ∧ (g = x.p.g ∧ w = x.p.w ∧ f = x.p.f) ∧ i ∈ x.parts
        then (s.laneAt g w f i).preds.set x.f.d.toNat (a.result s x i) else (s.laneAt g w f i).preds := by
  have hpop : Spares id s (s.popQueues x x.codes) := spares_popQueues s x _
  have hid : ∀ y : Warp, (id y).fibres = y.fibres.map id := fun y => (List.map_id _).symm
  have hfib : ∀ g w f, (s.popQueues x x.codes).fibreAt g w f = s.fibreAt g w f := hpop.fibreAt hid
  refine ⟨_, predOut_settled hap hset, (spares_popQueues s x _).trans (spares_setPreds _ x.p _ _ _), fun g w f i => ?_⟩
  by_cases h7 : x.f.d.toNat = 7
  · have hnone : ∀ (l : Nat) (u : State) (v : Pred), u.setPred x.p l x.f.d.toNat v = u := fun l u v => if_pos h7
    rw [if_neg (fun h => h.1 h7)]
    simp only [hnone, List.foldl_fixed, State.laneAt, hfib]
  · rw [preds_setPreds _ h7 _ _ (hpop.here hid hs) (fun l hm => by rw [hfib]; exact hl l hm) hnd]
    simp only [State.laneAt, hfib, ne_eq, h7, not_false_iff, true_and]

/-- Settles O13: the effect sets the lanes' predicates and then the flags; each part spares the rest. -/
theorem predicateResultAndFrame : Obligations.PredicateResultAndFrame := by
  intro i a hi s p q hiss
  dsimp only
  intro hr hset
  have hs := start_here s p a.f hiss.here
  obtain ⟨t, ht, hagree, _⟩ := test_completes hi hiss hr
  have hlen : ∀ l ∈ s.partsOf p a.f, l < ((s.start p a.f).fibreAt p.g p.w p.f).lanes.length := fun l hl =>
    (exists_of_active _ _ _ _ _ (active_start s p q a.op a.f hiss l hl)).2.2
  obtain ⟨v, hv, hspare, hpreds⟩ := test_effect (x := s.exOf p a.op a.f) rfl hs hset hlen partsOf_lanes.2
  rw [hv] at hagree
  have hall : ∀ g w f l, (t.laneAt g w f l).preds = if a.f.d.toNat ≠ 7 ∧ (g = p.g ∧ w = p.w ∧ f = p.f) ∧ l ∈ s.partsOf p a.f
      then (s.laneAt g w f l).preds.set a.f.d.toNat (a.result (s.start p a.f) (s.exOf p a.op a.f) l) else (s.laneAt g w f l).preds :=
    fun g w f l => by
      rw [flagged_preds hagree, ← start_preds s p a.f]
      exact hpreds g w f l
  have hfib : ∀ {β : Type} (r : Fibre → β), (∀ y, r y.lessPreds = r y) → ∀ g w f, r (v.fibreAt g w f) = r ((s.start p a.f).fibreAt g w f) :=
    fun r hr g w f => same_of_blank Fibre.lessPreds (hspare.fibreAt less_fibres g w f) r hr
  refine ⟨t, ht, fun l hl => ?_, fun g w f l hout => ?_,
    flagged_flags hagree (hspare.here less_fibres hs) (fun g w f => (hfib Fibre.fstat (fun _ => rfl) g w f).trans (start_fstat s p a.f g w f)),
    fun g w o => (flagged_regAt hagree g w o).trans (hspare.regAt (fun _ => rfl) g w o), fun g w f n => ?_,
    memorySame_trans hspare.memory (flagged_memory hagree)⟩
  · rw [hall]
    by_cases h7 : a.f.d.toNat = 7
    · simp [h7]
    · rw [if_neg h7, if_pos ⟨h7, ⟨rfl, rfl, rfl⟩, hl⟩]
  · have hno : ¬(a.f.d.toNat ≠ 7 ∧ (g = p.g ∧ w = p.w ∧ f = p.f) ∧ l ∈ s.partsOf p a.f) := by
      rintro ⟨_, ⟨rfl, rfl, rfl⟩, hl⟩
      exact hout.elim (fun hne => hne rfl) (fun hne => hne hl)
    rw [hall, if_neg hno]
  · exact (flagged_uregAt hagree g w f n).trans
      ((hfib (fun y => sgetD y.uregs n {}) (fun _ => rfl) g w f).trans (start_uregAt s p a.f g w f n))

end Sys2Proof.Machine
end

section
open Sys2Proof Sys2Proof.Machine Sys2Proof.Claims
namespace Sys2Proof.Machine

/-! Words of uniform registers. -/

section
variable (x : Ex) (hap : x.ap = none) {s : State} (hs : Here s x.p.g x.p.w x.p.f) (hd : 0xC0 ≤ x.f.d.toNat) (hd' : x.f.d.toNat < 0xF0)
include hap hd hd'

theorem putWord_uni (half l : Nat) (v : RegWord) :
    s.putWord x x.f.d half l v = s.writeUni x.p.g x.p.w x.p.f (x.f.d.toNat + half - 0xC0) { v with full := true } := by
  simp only [State.putWord, hap]
  rw [if_neg (by omega), if_pos hd']

theorem spares_putWord_uni (half l : Nat) (v : RegWord) : Spares (Warp.less Fibre.lessUregs) s (s.putWord x x.f.d half l v) := by
  rw [putWord_uni x hap hd hd']
  exact spares_writeUni ..

theorem spares_putWords_uni (l : Nat) (ws : List RegWord) : Spares (Warp.less Fibre.lessUregs) s (s.putWords x x.f.d l ws) := by
  unfold State.putWords
  dsimp only
  split
  · exact (spares_putWord_uni x hap hd hd' _ _ _).trans (spares_putWord_uni x hap hd hd' _ _ _)
  · exact spares_putWord_uni x hap hd hd' _ _ _

include hs

theorem uregAt_putWord_uni (half l : Nat) (v : RegWord) (g w f n : Nat) :
    (s.putWord x x.f.d half l v).uregAt g w f n =
      if g = x.p.g ∧ w = x.p.w ∧ f = x.p.f ∧ n = x.f.d.toNat + half - 0xC0 then { v with full := true } else s.uregAt g w f n := by
  have hdrop : ∀ d, Spares (Warp.less Fibre.lessUregs) s (s.dropDest x.p.g x.p.w x.p.f none d) := fun d => (Spares.refl s).outside _ s.engine
  obtain ⟨hp, hw, hf⟩ := (hdrop (.uni x.p.g x.p.w x.p.f (x.f.d.toNat + half - 0xC0))).here less_fibres hs
  rw [putWord_uni x hap hd hd']
  exact uregAt_setUreg _ x.p.g x.p.w x.p.f (x.f.d.toNat + half - 0xC0) g w f n _ hp hw hf

/-- The words stand in the register, or the pair, and nowhere else. -/
theorem uregAt_putWords_uni (l : Nat) (ws : List RegWord) :
    (∀ i, wrote ws i → (s.putWords x x.f.d l ws).uregAt x.p.g x.p.w x.p.f (x.f.d.toNat - 0xC0 + i) = { ws.getD i {} with full := true }) ∧
    (∀ g w f n, (g, w, f) ≠ (x.p.g, x.p.w, x.p.f) ∨ (n ≠ x.f.d.toNat - 0xC0 ∧ n ≠ x.f.d.toNat - 0xC0 + 1) →
      (s.putWords x x.f.d l ws).uregAt g w f n = s.uregAt g w f n) := by
  have hfirst := uregAt_putWord_uni x hap hs hd hd' 0 l (ws.getD 0 {})
  have hsecond := uregAt_putWord_uni x hap ((spares_putWord_uni x hap hd hd' 0 l (ws.getD 0 {})).here less_fibres hs) hd hd' 1 l (ws.getD 1 {})
  have hmiss : ∀ (half g w f n : Nat), half < 2 → (g, w, f) ≠ (x.p.g, x.p.w, x.p.f) ∨ (n ≠ x.f.d.toNat - 0xC0 ∧ n ≠ x.f.d.toNat - 0xC0 + 1) →
      ¬(g = x.p.g ∧ w = x.p.w ∧ f = x.p.f ∧ n = x.f.d.toNat + half - 0xC0) := by
    rintro half g w f n hh (hne | hne) ⟨rfl, rfl, rfl, hn⟩
    · exact hne rfl
    · omega
  unfold State.putWords
  dsimp only
  by_cases h2 : ws.length > 1
  · rw [if_pos h2]
    refine ⟨fun i hi => ?_, fun g w f n ho => ?_⟩
    · obtain rfl | ⟨rfl, _⟩ := hi
      · rw [hsecond, if_neg (fun h => by omega), hfirst, if_pos ⟨rfl, rfl, rfl, by omega⟩]
      · rw [hsecond, if_pos ⟨rfl, rfl, rfl, by omega⟩]
    · rw [hsecond, if_neg (hmiss 1 g w f n (by decide) ho), hfirst, if_neg (hmiss 0 g w f n (by decide) ho)]
  · rw [if_neg h2]
    refine ⟨fun i hi => ?_, fun g w f n ho => ?_⟩
    · obtain rfl | ⟨rfl, hlt⟩ := hi
      · rw [hfirst, if_pos ⟨rfl, rfl, rfl, by omega⟩]
      · exact absurd hlt h2
    · rw [hfirst, if_neg (hmiss 0 g w f n (by decide) ho)]

end

/-! Which words a uniform destination receives (R175). -/

/-- What the lanes that take part give. -/
def aluOuts (a : Alu) (s : State) (x : Ex) : List (Nat × List Val) :=
  x.parts.map (fun l => (l, (resultOf (a.fn s x) (a.width x) (a.srcs x s l)).1))

/-- A whole write takes the words of the lowest lane with a poisoned one, or else of the lowest lane. -/
theorem uniformOut_whole (live : Word) {outs : List (Nat × List Val)} (h : outs ≠ []) :
    uniformOut true live outs = some ((outs.find? (fun o => o.2.any Val.isBad)).getD (outs.headD (0, []))) := by
  cases outs with
  | nil => exact absurd rfl h
  | cons o r =>
    unfold uniformOut
    simp only [if_true]
    cases (o :: r).find? (fun o => o.2.any Val.isBad) <;> rfl

/-- A partial write takes MIXED for each of the lowest lane's words. -/
theorem uniformOut_partial (live : Word) {outs : List (Nat × List Val)} (h : outs ≠ []) :
    uniformOut false live outs = some ((outs.headD (0, [])).1, (outs.headD (0, [])).2.map (fun _ => .new cMIXED 0 live)) := by
  cases outs with
  | nil => exact absurd rfl h
  | cons o r => rfl

/-- New poison of one cause makes that cause's record. -/
theorem causesOf_replicate (l c : Nat) (a : DWord) (d : Word) {vs : List Val} (h : vs ≠ []) :
    causesOf ((vs.map (fun _ => Val.new c a d)).map (fun v => (l, v))) = [c] := by
  have hsame : ∀ us : List Val, ((us.map (fun _ => Val.new c a d)).map (fun v => (l, v))).foldl (fun cs e => match e.2 with
      | .new c _ _ => if cs.contains c then cs else cs ++ [c]
      | .ok _ => cs) [c] = [c] := by
    intro us
    induction us with
    | nil => rfl
    | cons u r ih => simpa using ih
  cases vs with
  | nil => exact absurd rfl h
  | cons v r => exact hsame r

theorem makePoison_one (s : State) (g w f : Nat) (fl : Byte) (pc : DWord) {made : List (Nat × Val)} {c : Nat} (h : causesOf made = [c]) (hc : c ≠ cECC) :
    s.makePoison g w f fl pc made =
      ((s.addCart g w f (cartFor c fl pc made)).2, sput [] c (poisonVal (s.addCart g w f (cartFor c fl pc made)).1 c pc)) := by
  simp [State.makePoison, h, hc]

section
variable {a : Alu} {s : State} {x : Ex}

theorem outs_ne_nil (h : x.parts ≠ []) : aluOuts a s x ≠ [] := by simpa [aluOuts] using h

/-- A lane's result has a poisoned word where one of its values is poisoned. -/
theorem result_any {l : Nat} (h : a.settled s x l) :
    (resultOf (a.fn s x) (a.width x) (a.srcs x s l)).1.any Val.isBad = (a.result s x l).any (fun w => w.poison) := by
  rw [← result_words h [], List.any_map]
  have hsame := List.map_congr_left (f := Val.isBad) (g := (fun w : RegWord => w.poison) ∘ fun v => v.word []) (fun v hv => by
    obtain ⟨w, rfl⟩ := resultOf_ok h hv
    rfl)
  simpa only [List.any_map, Function.id_comp] using congrArg (fun bs => bs.any id) hsame

theorem result_length {l : Nat} (h : a.settled s x l) :
    (a.result s x l).length = (resultOf (a.fn s x) (a.width x) (a.srcs x s l)).1.length := by
  rw [← result_words h [], List.length_map]

/-- The lane whose words a whole write takes. -/
def aluGiver (a : Alu) (s : State) (x : Ex) : Nat :=
  (x.parts.find? (fun l => (a.result s x l).any (fun w => w.poison))).getD (x.parts.headD 0)

/-- Where no lane's result is poisoned, the giver is the lowest lane; otherwise it is the lowest with a poisoned one. -/
theorem giver_good (h : ∀ l ∈ x.parts, (a.result s x l).all (fun w => !w.poison) = true) : aluGiver a s x = x.parts.headD 0 := by
  unfold aluGiver
  rw [List.find?_eq_none.2 (fun l hl => ?_)]
  · rfl
  · rw [List.any_eq_true]
    rintro ⟨w, hw, hp⟩
    have := List.all_eq_true.1 (h l hl) w hw
    simp [hp] at this

theorem giver_poisoned {k : Nat} (h : x.parts.find? (fun l => (a.result s x l).any (fun w => w.poison)) = some k) : aluGiver a s x = k := by
  unfold aluGiver
  rw [h]
  rfl

theorem giver_mem (hne : x.parts ≠ []) : aluGiver a s x ∈ x.parts := by
  unfold aluGiver
  cases hf : x.parts.find? (fun l => (a.result s x l).any (fun w => w.poison)) with
  | some l => exact List.mem_of_find?_eq_some hf
  | none => cases hx : x.parts with
    | nil => exact absurd hx hne
    | cons l r => exact List.mem_cons_self ..

/-- Among what the lanes give, a whole write takes what the giver gives. -/
theorem outs_giver (hset : ∀ l ∈ x.parts, a.settled s x l) (hne : x.parts ≠ []) :
    ((aluOuts a s x).find? (fun o => o.2.any Val.isBad)).getD ((aluOuts a s x).headD (0, [])) =
      (aluGiver a s x, (resultOf (a.fn s x) (a.width x) (a.srcs x s (aluGiver a s x))).1) := by
  have hfind : x.parts.find? ((fun o : Nat × List Val => o.2.any Val.isBad) ∘ fun l => (l, (resultOf (a.fn s x) (a.width x) (a.srcs x s l)).1)) =
      x.parts.find? (fun l => (a.result s x l).any (fun w => w.poison)) :=
    List.find?_congr (fun l hl => result_any (hset l hl))
  unfold aluOuts aluGiver
  rw [List.find?_map, hfind]
  cases hx : x.parts with
  | nil => exact absurd hx hne
  | cons l r => cases (l :: r).find? (fun l => (a.result s x l).any (fun w => w.poison)) <;> rfl

variable (hd : 0xC0 ≤ x.f.d.toNat) (hd' : x.f.d.toNat < 0xF0) (hset : ∀ l ∈ x.parts, a.settled s x l) (hne : x.parts ≠ []) (hap : x.ap = none)
include hd hd' hset hne hap

theorem writeDst_whole (v : State) (hw : x.whole v = true) :
    v.writeDst x x.f.d (aluOuts a s x) [] = v.putWords x x.f.d (aluGiver a s x) (a.result s x (aluGiver a s x)) := by
  have hok : ∀ l ∈ x.parts, ∀ u ∈ (resultOf (a.fn s x) (a.width x) (a.srcs x s l)).1, ∃ w, u = .ok w := fun l hl u hu => resultOf_ok (hset l hl) hu
  unfold State.writeDst
  simp only [hap, hw, Option.isSome_none, Bool.or_true, if_true, uniformOut_whole _ (outs_ne_nil hne), outs_giver hset hne]
  rw [if_pos ⟨hd, hd'⟩, makePoison_ok]
  · dsimp only
    rw [result_words (hset _ (giver_mem hne))]
  · intro e he
    simp only [List.nil_append] at he
    obtain he | he := List.mem_append.1 (List.mem_filter.1 he).1
    · obtain ⟨o, ho, he⟩ := List.mem_flatMap.1 he
      obtain ⟨l, hl, rfl⟩ := List.mem_map.1 ho
      obtain ⟨u, hu, rfl⟩ := List.mem_map.1 he
      exact hok l hl u hu
    · obtain ⟨u, hu, rfl⟩ := List.mem_map.1 he
      exact hok _ (giver_mem hne) u hu

/-- A partial write makes the record of MIXED, and writes its poison word. -/
theorem writeDst_partial (v : State) (hw : x.whole v = false) (hres : a.result s x (x.parts.headD 0) ≠ []) :
    ∃ r : Cart, r.cause = BitVec.ofNat 8 cMIXED ∧
      v.writeDst x x.f.d (aluOuts a s x) [] = ((v.addCart x.p.g x.p.w x.p.f r).2).putWords x x.f.d (x.parts.headD 0)
        ((a.result s x (x.parts.headD 0)).map (fun _ => badWord (poisonVal (v.addCart x.p.g x.p.w x.p.f r).1 cMIXED x.p.pc))) := by
  have hhead : x.parts.headD 0 ∈ x.parts := by
    cases hx : x.parts with
    | nil => exact absurd hx hne
    | cons l r => exact List.mem_cons_self ..
  have houts : (aluOuts a s x).headD (0, []) =
      (x.parts.headD 0, (resultOf (a.fn s x) (a.width x) (a.srcs x s (x.parts.headD 0))).1) := by
    unfold aluOuts
    cases hx : x.parts with
    | nil => exact absurd hx hne
    | cons l r => rfl
  have hvals : (resultOf (a.fn s x) (a.width x) (a.srcs x s (x.parts.headD 0))).1 ≠ [] := fun h => hres (by
    rw [← result_words (hset _ hhead) [], h]
    rfl)
  have hcause := causesOf_replicate (x.parts.headD 0) cMIXED 0 (liveMask (x.fibre v)) hvals
  refine ⟨cartFor cMIXED 0 x.p.pc (((resultOf (a.fn s x) (a.width x) (a.srcs x s (x.parts.headD 0))).1.map
    (fun _ => .new cMIXED 0 (liveMask (x.fibre v)))).map (fun u => (x.parts.headD 0, u))), rfl, ?_⟩
  unfold State.writeDst
  simp only [hap, hw, Option.isSome_none, Bool.or_false, Bool.false_eq_true, if_false, uniformOut_partial _ (outs_ne_nil hne), houts]
  rw [if_pos ⟨hd, hd'⟩, List.nil_append, makePoison_one _ _ _ _ _ _ hcause (by decide)]
  simp only [List.map_const', List.map_replicate, Val.word, sgetD_sput, if_true, result_length (hset _ hhead)]

end

/-- A record written for a fibre that has not ended stands at the ring index that its poison words carry. -/
theorem addCart_going {s : State} {g w f : Nat} (r : Cart) (h : (s.fibreAt g w f).ended = false) :
    s.addCart g w f r = (nextRing (s.fibreAt g w f), s.modFibre g w f (fun y => ringPut y (s.placeCart g w f r))) := by
  simp [State.addCart, h]

theorem ringPut_at {y : Fibre} (r : Cart) (hr : y.ring.length = 16) (hi : ridxOf y.fstat < 15) :
    (ringPut y r).ring.getD (ridxOf y.fstat) {} = r := by
  unfold ringPut
  simp only [hi, decide_true, Bool.true_or, if_true]
  rw [List.getD_eq_getElem?_getD, List.getElem?_set_self (by omega)]
  rfl

/-- The ring of a fibre that has not ended holds a new record at its index. -/
theorem ring_addCart {s : State} {g w f : Nat} (r : Cart) (hs : Here s g w f) (h : (s.fibreAt g w f).ended = false)
    (hr : (s.fibreAt g w f).ring.length = 16) (hi : ridxOf (s.fibreAt g w f).fstat < 15) :
    ((((s.addCart g w f r).2).fibreAt g w f).ring.getD (ridxOf (s.fibreAt g w f).fstat) {}).cause = r.cause := by
  rw [addCart_going r h]
  dsimp only
  rw [hs.fibreAt_modFibre, if_pos ⟨rfl, rfl, rfl⟩, ringPut_at _ hr hi]
  rfl

/-- One word, as often as the result has words. -/
theorem wrote_const {ws : List RegWord} (b : RegWord) (hne : ws ≠ []) {i : Nat} (h : wrote ws i) :
    wrote (ws.map (fun _ => b)) i ∧ (ws.map (fun _ => b)).getD i {} = b := by
  have hpos : 0 < ws.length := List.length_pos_iff.2 hne
  have hlt : i < ws.length := by
    obtain rfl | ⟨rfl, h1⟩ := h
    · exact hpos
    · exact h1
  refine ⟨by simpa [wrote] using h, ?_⟩
  simp [List.getD_eq_getElem?_getD, hlt]

/-- A fibre less its uniform registers, its records and their index. -/
def Fibre.lessUni (y : Fibre) : Fibre := { y with uregs := [], fstat := 0, ring := [] }

/-- What is spared of more is spared of less. -/
theorem Spares.less_of {c d : Fibre → Fibre} {s t : State} (h : Spares (Warp.less d) s t) (hc : ∀ y, c (d y) = c y) : Spares (Warp.less c) s t := by
  refine ⟨⟨h.placed, fun j => ?_⟩, h.memory, h.opp⟩
  have hless : ∀ x, Warp.less c (Warp.less d x) = Warp.less c x := fun x => by simp [Warp.less, Function.comp_def, hc]
  have := congrArg (fun ws => ws.map (Warp.less c)) (h.warps j)
  simpa only [List.map_map, Function.comp_def, hless] using this

/-- Queues that are popped leave the fibre as the path finds it. -/
theorem fibre_popQueues (s : State) (x : Ex) (cs : List (BitVec 8)) :
    (∀ g w f, (s.popQueues x cs).fibreAt g w f = s.fibreAt g w f) ∧ x.fibre (s.popQueues x cs) = x.fibre s := by
  have hpop : Spares id s (s.popQueues x cs) := spares_popQueues s x cs
  have hfib : ∀ g w f, (s.popQueues x cs).fibreAt g w f = s.fibreAt g w f := hpop.fibreAt (c := id) (fun y => (List.map_id _).symm)
  refine ⟨hfib, ?_⟩
  unfold Ex.fibre State.pathFibre
  rw [hpop.opp, hfib]

/-- What a settled instruction with a uniform destination does, step by step: its queues are popped, MIXED recorded where the write is
partial, its words written, its flags set. -/
theorem uni_effect {a : Alu} {s : State} {x : Ex} (hap : x.ap = none) (hs : Here s x.p.g x.p.w x.p.f) (hd : 0xC0 ≤ x.f.d.toNat)
    (hd' : x.f.d.toNat < 0xF0) (hset : ∀ l ∈ x.parts, a.settled s x l) (hne : x.parts ≠ []) (hres : ∀ l ∈ x.parts, a.result s x l ≠ [])
    (hend : (s.fibreAt x.p.g x.p.w x.p.f).ended = false) (hring : (s.fibreAt x.p.g x.p.w x.p.f).ring.length = 16) :
    ∃ v, regOut a.srcs (a.fn s) (a.width x) x s = v.setFlags x.p.g x.p.w x.p.f (x.parts.foldl (fun m l => m ||| a.flags s x l) 0) ∧
      Spares (Warp.less Fibre.lessUni) s v ∧
      (x.whole s = true → ∀ i, wrote (a.result s x (aluGiver a s x)) i →
        v.uregAt x.p.g x.p.w x.p.f (x.f.d.toNat - 0xC0 + i) = { (a.result s x (aluGiver a s x)).getD i {} with full := true }) ∧
      (x.whole s = false → ∀ i, wrote (a.result s x (x.parts.headD 0)) i → v.uregAt x.p.g x.p.w x.p.f (x.f.d.toNat - 0xC0 + i) =
        { badWord (poisonVal (ridxOf (s.fibreAt x.p.g x.p.w x.p.f).fstat) cMIXED x.p.pc) with full := true }) ∧
      (x.whole s = false → ridxOf (s.fibreAt x.p.g x.p.w x.p.f).fstat < 15 →
        ((v.fibreAt x.p.g x.p.w x.p.f).ring.getD (ridxOf (s.fibreAt x.p.g x.p.w x.p.f).fstat) {}).cause = 9) ∧
      (∀ g w f n, (g, w, f) ≠ (x.p.g, x.p.w, x.p.f) ∨ (n ≠ x.f.d.toNat - 0xC0 ∧ n ≠ x.f.d.toNat - 0xC0 + 1) → v.uregAt g w f n = s.uregAt g w f n) := by
  obtain ⟨hfib, hview⟩ := fibre_popQueues s x x.codes
  have hpop : Spares (Warp.less Fibre.lessUni) s (s.popQueues x x.codes) := spares_popQueues s x _
  have hpopHere := hpop.here less_fibres hs
  have hpopU : ∀ g w f n, (s.popQueues x x.codes).uregAt g w f n = s.uregAt g w f n := fun g w f n => by rw [State.uregAt, hfib, State.uregAt]
  have hwhole : x.whole (s.popQueues x x.codes) = x.whole s := by rw [Ex.whole, hview, Ex.whole]
  have hhead : x.parts.headD 0 ∈ x.parts := by
    cases hx : x.parts with
    | nil => exact absurd hx hne
    | cons l r => exact List.mem_cons_self ..
  refine ⟨(s.popQueues x x.codes).writeDst x x.f.d (aluOuts a s x) [], regOut_settled hap hset, ?_⟩
  cases hw : x.whole s with
  | true =>
    rw [writeDst_whole hd hd' hset hne hap _ (hwhole.trans hw)]
    obtain ⟨hhit, hmiss⟩ := uregAt_putWords_uni x hap hpopHere hd hd' (aluGiver a s x) (a.result s x (aluGiver a s x))
    exact ⟨hpop.trans ((spares_putWords_uni x hap hd hd' _ _).less_of (fun _ => rfl)), fun _ => hhit, fun h => Bool.noConfusion h, fun h => Bool.noConfusion h,
      fun g w f n ho => (hmiss g w f n ho).trans (hpopU g w f n)⟩
  | false =>
    obtain ⟨r, hr, hdst⟩ := writeDst_partial hd hd' hset hne hap _ (hwhole.trans hw) (hres _ hhead)
    have hcart := spares_addCart (s.popQueues x x.codes) x.p.g x.p.w x.p.f r
    have hput := spares_putWords_uni x hap (s := ((s.popQueues x x.codes).addCart x.p.g x.p.w x.p.f r).2) hd hd' (x.parts.headD 0)
      ((a.result s x (x.parts.headD 0)).map (fun _ => badWord (poisonVal ((s.popQueues x x.codes).addCart x.p.g x.p.w x.p.f r).1 cMIXED x.p.pc)))
    have hring : ridxOf (s.fibreAt x.p.g x.p.w x.p.f).fstat < 15 →
        ((((s.popQueues x x.codes).addCart x.p.g x.p.w x.p.f r).2.fibreAt x.p.g x.p.w x.p.f).ring.getD (ridxOf (s.fibreAt x.p.g x.p.w x.p.f).fstat) {}).cause = r.cause := by
      have := ring_addCart r hpopHere
      rw [hfib] at this
      exact this hend hring
    have hidx : ((s.popQueues x x.codes).addCart x.p.g x.p.w x.p.f r).1 = ridxOf (s.fibreAt x.p.g x.p.w x.p.f).fstat := by
      rw [addCart_going r (by rw [hfib]; exact hend), hfib]
      rfl
    obtain ⟨hhit, hmiss⟩ := uregAt_putWords_uni x hap (hcart.here less_fibres hpopHere) hd hd' (x.parts.headD 0)
      ((a.result s x (x.parts.headD 0)).map (fun _ => badWord (poisonVal ((s.popQueues x x.codes).addCart x.p.g x.p.w x.p.f r).1 cMIXED x.p.pc)))
    rw [hdst]
    refine ⟨hpop.trans ((hcart.less_of (fun _ => rfl)).trans (hput.less_of (fun _ => rfl))), fun h => Bool.noConfusion h, fun _ i hi => ?_, fun _ hlt => ?_,
      fun g w f n ho => (hmiss g w f n ho).trans ?_⟩
    · obtain ⟨hwrote, hword⟩ := wrote_const (badWord (poisonVal ((s.popQueues x x.codes).addCart x.p.g x.p.w x.p.f r).1 cMIXED x.p.pc)) (hres _ hhead) hi
      rw [hhit i hwrote, hword, hidx]
    · have hkept := same_of_blank Fibre.lessUregs (hput.fibreAt less_fibres x.p.g x.p.w x.p.f) Fibre.ring (fun _ => rfl)
      rw [hkept, hring hlt, hr]
      rfl
    · exact (same_of_blank Fibre.lessRecords (hcart.fibreAt less_fibres g w f) (fun y => sgetD y.uregs n {}) (fun _ => rfl)).trans (hpopU g w f n)

/-- A fibre with an active lane, and not frozen, has not ended. -/
theorem ended_of_active {y : Fibre} {l : Nat} (hl : l < 32) (ha : (y.lanes.getD l {}).st = .active) (hf : y.frozen = none) : y.ended = false := by
  have hmem : l ∈ lanesWhere y (fun l => l.st.live && !l.st.isStranded) :=
    List.mem_filter.2 ⟨List.mem_range.2 hl, by dsimp only; rw [ha]; rfl⟩
  unfold Fibre.ended
  rw [hf]
  exact List.isEmpty_eq_false_iff.2 (List.ne_nil_of_mem hmem)

/-- No result is empty where the sources are found: it is FirstPoison, or what a function generates. -/
theorem result_ne_nil {i : Instr} {a : Alu} (hi : isAlu i a) {s : State} {x : Ex} {l : Nat} (h : a.settled s x l) (hw : 0 < a.width x) :
    a.result s x l ≠ [] := by
  intro hnil
  have hlen := result_length h
  rw [hnil] at hlen
  unfold resultOf at hlen
  cases hb : firstBad (a.srcs x s l).flatten with
  | some v =>
    rw [hb] at hlen
    simp only [List.length_nil, List.length_replicate] at hlen
    omega
  | none =>
    rw [hb] at hlen
    have := generated_ne_nil (alu_generated hi s x ((a.srcs x s l).map wordsOfVals))
    simp only [List.length_nil, List.length_map] at hlen
    exact this (List.length_eq_zero_iff.1 hlen.symm)

theorem width_pos {i : Instr} {a : Alu} (hi : isAlu i a) (x : Ex) : 0 < a.width x := by
  have hout : 0 < Ex.outWords x := by unfold Ex.outWords; split <;> decide
  obtain h | h := hi
  · unfold integerAlu at h
    split at h <;> cases h <;> simp [hout]
  · unfold floatAlu at h
    split at h <;> cases h <;> simp [hout]

/-- Settles O12: the effect writes the register, or the pair, after MIXED where the write is partial, and then the flags; each part spares
the rest. -/
theorem uniformResultAndFrame : Obligations.UniformResultAndFrame := by
  intro i a hi s p q hiss
  dsimp only
  intro hr hd hd' hring hset
  have hs := start_here s p a.f hiss.here
  obtain ⟨t, ht, hagree, _⟩ := alu_completes hi hiss hr
  obtain ⟨l, hl⟩ := List.exists_mem_of_ne_nil _ hiss.parts
  have hend : ((s.start p a.f).fibreAt p.g p.w p.f).ended = false := by
    refine ended_of_active (partsOf_lanes.1 l hl) (active_start s p q a.op a.f hiss l hl) ?_
    rw [start_fibre s p a.f Fibre.frozen (fun _ => rfl)]
    exact hiss.going
  have hring' : ((s.start p a.f).fibreAt p.g p.w p.f).ring.length = 16 := by
    rw [start_fibre s p a.f Fibre.ring (fun _ => rfl)]
    exact hring
  obtain ⟨v, hv, hspare, hwhole, hmixed, hrecord, hmiss⟩ := uni_effect (a := a) (s := s.start p a.f) (x := s.exOf p a.op a.f) rfl hs hd hd' hset
    hiss.parts (fun l hl => result_ne_nil hi (hset l hl) (width_pos hi _)) hend hring'
  rw [hv] at hagree
  rw [start_fstat s p a.f] at hmixed hrecord
  refine ⟨t, ht, fun h hw => ⟨fun hall hgood => ?_, fun hall k hk => ?_, fun hpart => ?_⟩, fun hpart hlt => ?_, fun g w f n ho => ?_,
    fun g w o => ?_, fun g w f l => ?_, memorySame_trans hspare.memory (flagged_memory hagree)⟩
  · rw [flagged_uregAt hagree]
    rw [← giver_good hgood] at hw ⊢
    exact hwhole hall h hw
  · rw [flagged_uregAt hagree, ← giver_poisoned hk]
    have hfirst := hwhole hall 0 (.inl rfl)
    rw [Nat.add_zero] at hfirst
    exact hfirst
  · rw [flagged_uregAt hagree]
    exact hmixed hpart h hw
  · rw [flagged_fibre hagree Fibre.ring (fun _ => rfl) (fun _ => rfl)]
    exact hrecord hpart hlt
  · rw [flagged_uregAt hagree, hmiss g w f n ho]
    exact start_uregAt s p a.f g w f n
  · exact (flagged_regAt hagree g w o).trans (hspare.regAt (fun _ => rfl) g w o)
  · rw [flagged_preds hagree]
    exact (same_of_blank Fibre.lessUni (hspare.fibreAt less_fibres g w f) (fun y => (y.lanes.getD l {}).preds) (fun _ => rfl)).trans
      (start_preds s p a.f g w f l)

end Sys2Proof.Machine
end

section
open Sys2Proof Sys2Proof.Machine Sys2Proof.Claims
namespace Sys2Proof.Machine

/-! Values of instructions of two sources that give a pair. -/

/-- An operand has one word or two. -/
theorem operand_length (s : State) (x : Ex) (c : Cls) (code : BitVec 8) (l : Nat) : (s.operand x c code l).length ≤ 2 := by
  unfold State.operand
  split <;> simp

theorem srcB_length (s : State) (x : Ex) (l : Nat) : (s.srcB x l).length ≤ 2 := by
  unfold State.srcB b6Imm
  split
  · dsimp only
    split
    · simp
    · split <;> simp
  · exact operand_length ..

theorem wordsOfVals_length (vs : List Val) : (wordsOfVals vs).length ≤ vs.length := List.length_filterMap_le ..

theorem wordsOfVals_ok (ws : List RegWord) : wordsOfVals (ws.map Val.ok) = ws := by
  simp [wordsOfVals, List.filterMap_map]

/-- Two unpoisoned words that hold a number of 64 bits, with any residues, and no flag. -/
def IsPair (o : List RegWord × Word) (v : DWord) : Prop :=
  ∃ r₀ r₁, o = ([{ val := v.extractLsb' 0 32, res := r₀ }, { val := v.extractLsb' 32 32, res := r₁ }], 0)

/-- An instruction whose function gives a pair for every two sources of at most two words gives that pair. -/
theorem gives_two {i : Instr} {a : Alu} (hi : integerAlu i = some a) (h2 : a.srcs = srcs2) {out : List (List Word) → DWord}
    (hfn : ∀ s x, x.f = a.f → ∀ u v : List RegWord, u.length ≤ 2 → v.length ≤ 2 →
      IsPair (a.fn s x [u, v]) (out [u.map (fun w => w.val), v.map (fun w => w.val)])) : IntGives i (two out) := by
  refine ⟨a, hi, fun s p q hiss => ?_⟩
  dsimp only
  intro hr hd hgood
  have hpair : ∀ l ∈ (s.exOf p a.op a.f).parts, IsPair (a.result (s.start p a.f) (s.exOf p a.op a.f) l, a.flags (s.start p a.f) (s.exOf p a.op a.f) l)
      (out ((a.srcs (s.exOf p a.op a.f) (s.start p a.f) l).map (fun vs => (wordsOfVals vs).map (fun w => w.val)))) := fun l hl => by
    have hnone : firstBad (a.srcs (s.exOf p a.op a.f) (s.start p a.f) l).flatten = none := by
      cases hb : firstBad (a.srcs (s.exOf p a.op a.f) (s.start p a.f) l).flatten with
      | none => rfl
      | some v =>
        obtain ⟨hmem, hbad⟩ := firstBad_mem hb
        obtain ⟨w, rfl, hw⟩ := hgood l hl v hmem
        exact absurd hbad (by simp [Val.isBad, hw])
    unfold Alu.result Alu.flags resultOf
    rw [hnone]
    dsimp only
    rw [wordsOfVals_ok, h2]
    exact hfn _ _ rfl _ _ ((wordsOfVals_length _).trans (operand_length ..)) ((wordsOfVals_length _).trans (srcB_length ..))
  obtain ⟨t, ht, hhit, _, _, _, _, hflags⟩ := vectorResultAndFrame i a (.inl hi) s p q hiss hr hd (fun l hl v hv => by
    obtain ⟨w, hw, _⟩ := hgood l hl v hv
    exact ⟨w, hw⟩)
  refine ⟨t, ht, fun l hl _ h hlt => ?_, fun _ => ?_⟩
  · obtain ⟨r₀, r₁, ho⟩ := hpair l hl
    injection ho with hres _
    change h < 2 at hlt
    obtain rfl | rfl : h = 0 ∨ h = 1 := by omega
    · rw [hhit l hl 0 (.inl rfl), hres]
      exact ⟨rfl, rfl, rfl⟩
    · rw [hhit l hl 1 (.inr ⟨rfl, by rw [hres]; exact Nat.lt_succ_self 1⟩), hres]
      exact ⟨rfl, rfl, rfl⟩
  · refine hflags.1.trans (congrArg _ (List.foldl_ext _ _ _ fun m l hl => ?_))
    obtain ⟨r₀, r₁, ho⟩ := hpair l hl
    injection ho with _ hfl
    rw [hfl]
    rfl

/-! Numbers of 64 bits. -/

/-- The number that at most two words hold is their pair. -/
theorem natOfWords_pair {ws : List RegWord} (h : ws.length ≤ 2) (r : List (List Word)) :
    BitVec.ofNat 64 (natOfWords ws) = pair (ws.map (fun w => w.val) :: r) 0 := by
  match ws, h with
  | [], _ =>
    simp [natOfWords, pair, word]
  | [w], _ =>
    have hw := w.val.isLt
    apply BitVec.eq_of_toNat_eq
    simp only [natOfWords, pair, word, BitVec.toNat_ofNat, BitVec.toNat_append, List.map_cons, List.map_nil, List.getD_cons_zero,
      List.getD_cons_succ, List.getD_nil]
    rw [show BitVec.toNat (0 : Word) = 0 from rfl, ← Nat.shiftLeft_add_eq_or_of_lt hw, Nat.shiftLeft_eq]
    omega
  | [w, y], _ =>
    have hw := w.val.isLt
    have hy := y.val.isLt
    apply BitVec.eq_of_toNat_eq
    simp only [natOfWords, pair, word, BitVec.toNat_ofNat, BitVec.toNat_append, List.map_cons, List.getD_cons_zero, List.getD_cons_succ]
    rw [← Nat.shiftLeft_add_eq_or_of_lt hw, Nat.shiftLeft_eq]
    omega

theorem ofNat_low (v : DWord) : BitVec.ofNat 32 v.toNat = v.extractLsb' 0 32 := rfl

theorem ofNat_high (v : DWord) : BitVec.ofNat 32 (v.toNat / 2 ^ 32) = v.extractLsb' 32 32 := by
  unfold BitVec.extractLsb'
  rw [Nat.shiftRight_eq_div_pow]

theorem freshWords_isPair (v : DWord) : IsPair (freshWords true v.toNat, 0) v := by
  unfold freshWords
  rw [if_pos rfl, ofNat_low, ofNat_high]
  exact ⟨_, _, rfl⟩

theorem predictedWords_isPair (v : DWord) (p : Int) : IsPair (predictedWords true v.toNat p, 0) v := by
  unfold predictedWords
  rw [if_pos rfl, ofNat_low, ofNat_high]
  exact ⟨_, _, rfl⟩

/-- The exact integer of 64 bits, signed or not, is their number modulo 2^64. -/
theorem ofInt_exact (sg : Bool) (n : Nat) : BitVec.ofInt 64 (exact 64 sg n) = BitVec.ofNat 64 n := by
  apply BitVec.eq_of_toNat_eq
  unfold exact
  rw [BitVec.toNat_ofInt, BitVec.toNat_ofNat]
  dsimp only
  split <;> omega

/-- An operation of 64 bits gives its exact result modulo 2^64. -/
theorem evalInt_wide {md : Nat} (hmd : tyBits md = 64) (f : Nat → Bool → List Int → Int) (srcs : List (List RegWord)) :
    evalInt md false f srcs = (BitVec.ofInt 64 (f 64 (tySigned md) (srcs.map (fun ws => exact 64 (tySigned md) (natOfWords ws))))).toNat := by
  have hred : ∀ r : Int, reduce 64 (tySigned md) 64 r = (BitVec.ofInt 64 r).toNat := fun r => by
    have hex := congrArg BitVec.toNat (ofInt_exact (tySigned md) (r % 2 ^ 64).toNat)
    rw [BitVec.toNat_ofInt, BitVec.toNat_ofNat] at hex
    rw [BitVec.toNat_ofInt]
    unfold reduce
    omega
  unfold evalInt
  dsimp only
  rw [hmd, if_neg Bool.false_ne_true, if_pos rfl, hred]

/-! Instructions on pairs. -/

/-- An operation of 64 bits on integers is one on pairs. -/
def OnPairs (f : List Int → Int) (op : DWord → DWord → DWord) : Prop :=
  ∀ a b : Int, BitVec.ofInt 64 (f [a, b]) = op (BitVec.ofInt 64 a) (BitVec.ofInt 64 b)

theorem onPairs_intSum : OnPairs intSum (· + ·) := fun _ _ => BitVec.ofInt_add ..
theorem onPairs_intDiff : OnPairs intDiff (· - ·) := fun a b => by
  change BitVec.ofInt 64 (a - b) = _
  rw [Int.sub_eq_add_neg, BitVec.ofInt_add, BitVec.ofInt_neg]
  exact (BitVec.sub_eq_add_neg ..).symm
theorem onPairs_intProd : OnPairs intProd (· * ·) := fun _ _ => BitVec.ofInt_mul ..

section
variable {x : Ex} {u v : List RegWord} (hu : u.length ≤ 2) (hv : v.length ≤ 2)
include hu hv

theorem intPred_isPair (hw : x.wide = true) (hb : tyBits x.ty = 64) (h2 : x.x2 = false) {f : List Int → Int}
    {op : DWord → DWord → DWord} (hop : OnPairs f op) :
    IsPair (intPred (fun _ _ => f) f x [u, v])
      (op (pair [u.map (fun w => w.val), v.map (fun w => w.val)] 0) (pair [u.map (fun w => w.val), v.map (fun w => w.val)] 1)) := by
  unfold intPred
  rw [hw, h2, evalInt_wide hb]
  simp only [List.map_cons, List.map_nil]
  rw [hop, ofInt_exact, ofInt_exact, natOfWords_pair hu [v.map (fun w => w.val)], natOfWords_pair hv []]
  exact predictedWords_isPair ..

theorem bitOp_isPair (hw : x.wide = true) (op : DWord → DWord → DWord) :
    IsPair (bitOp op x [u, v]) (op (pair [u.map (fun w => w.val), v.map (fun w => w.val)] 0)
      (if x.f.sub.getLsbD 0 then ~~~pair [u.map (fun w => w.val), v.map (fun w => w.val)] 1 else pair [u.map (fun w => w.val), v.map (fun w => w.val)] 1)) := by
  unfold bitOp
  simp only [List.getD_cons_zero, List.getD_cons_succ]
  rw [hw, natOfWords_pair hu [v.map (fun w => w.val)], natOfWords_pair hv []]
  exact freshWords_isPair _

end

theorem imulWords_of_not_x2 {x : Ex} (h : x.x2 = false) : imulWords x = intPred (fun _ _ => intProd) intProd x := by
  unfold imulWords
  rw [h]
  exact if_neg Bool.false_ne_true

/-- Arithmetic of 64 bits, predicted, gives its operation on pairs. -/
theorem gives_intPred {i : Instr} {a : Alu} (hi : integerAlu i = some a) (h2 : a.srcs = srcs2) (hsub : a.f.sub = 0) (hmd : a.f.md = 6 ∨ a.f.md = 7)
    {g : List Int → Int} (hfn : ∀ s x, x.x2 = false → a.fn s x = intPred (fun _ _ => g) g x) {op : DWord → DWord → DWord} (hop : OnPairs g op) :
    IntGives i (two fun ws => op (pair ws 0) (pair ws 1)) :=
  gives_two hi h2 fun s x hx u v hu hv => by
    have hx2 : x.x2 = false := by
      unfold Ex.x2
      rw [hx, hsub]
      rfl
    have hw : x.wide = true ∧ tyBits x.ty = 64 := by
      unfold Ex.wide Ex.ty
      rw [hx]
      rcases hmd with h | h <;> rw [h] <;> exact ⟨rfl, rfl⟩
    rw [hfn s x hx2]
    exact intPred_isPair hu hv hw.1 hw.2 hx2 hop

/-- Logic of 64 bits gives its operation on pairs, the second complemented under .nb. -/
theorem gives_bitOp {i : Instr} {f : Fields} {a : Alu} (hi : integerAlu i = some a) (h2 : a.srcs = srcs2) (hf : a.f = f) (hsub : f.sub = 0 ∨ f.sub = 1) (hmd : f.md = 9)
    {op : DWord → DWord → DWord} (hfn : ∀ s, a.fn s = bitOp op) :
    IntGives i (two fun ws => op (pair ws 0) (if f.sub = 1 then ~~~pair ws 1 else pair ws 1)) :=
  gives_two hi h2 fun s x hx u v hu hv => by
    have hw : x.wide = true := by
      unfold Ex.wide
      rw [hx, hf, hmd]
      rfl
    have hnb : (x.f.sub.getLsbD 0 = true) = (f.sub = 1) := by
      rw [hx, hf]
      rcases hsub with h | h <;> rw [h] <;> decide
    have hp := bitOp_isPair hu hv hw op
    simp only [hnb] at hp
    rw [hfn]
    exact hp

/-- Settles O31: each function evaluates exactly modulo 2^64, and its two words are the pair's halves. -/
theorem pairResults : Obligations.PairResults := by
  unfold Obligations.PairResults
  refine fun f => ⟨fun hsub hmd => ⟨?_, ?_, ?_⟩, fun hmd hsub => ⟨?_, ?_, ?_⟩⟩
  · exact gives_intPred rfl rfl hsub hmd (fun _ _ _ => rfl) onPairs_intSum
  · exact gives_intPred rfl rfl hsub hmd (fun _ _ _ => rfl) onPairs_intDiff
  · exact gives_intPred rfl rfl hsub hmd (fun _ x hx => imulWords_of_not_x2 hx) onPairs_intProd
  · exact (gives_bitOp (i := .and f) (f := f) (op := (· &&& ·)) rfl rfl rfl hsub hmd fun _ => rfl :)
  · exact (gives_bitOp (i := .or f) (f := f) (op := (· ||| ·)) rfl rfl rfl hsub hmd fun _ => rfl :)
  · exact (gives_bitOp (i := .xor f) (f := f) (op := (· ^^^ ·)) rfl rfl rfl hsub hmd fun _ => rfl :)

end Sys2Proof.Machine
end

section
open Sys2Proof Sys2Proof.Machine Sys2Proof.Claims
namespace Sys2Proof

/-! The words of an instruction and their fields (R73 to R76, R85): what is laid down in a word is read back, and a word is made of its fields. -/

theorem ofBool_getLsbD (w : Word) (i : Nat) : BitVec.ofBool (w.getLsbD i) = w.extractLsb' i 1 := by
  apply BitVec.eq_of_getLsbD_eq
  intro j hj
  simp [Nat.lt_one_iff.1 hj]

/-- A bit of a word as a field of one bit. -/
theorem getLsbD_eq_extract (w : Word) (i : Nat) : w.getLsbD i = (w.extractLsb' i 1).getLsbD 0 := by
  rw [← ofBool_getLsbD, BitVec.getLsbD_ofBool]
  simp

/-- LEN is bits 1:0 (R73). -/
theorem len_ofWord (w : Word) : (Form.ofWord w).len = w.extractLsb' 0 2 := by
  have hbits : w.extractLsb' 0 2 = BitVec.ofBool (w.getLsbD 1) ++ BitVec.ofBool (w.getLsbD 0) := by
    rw [ofBool_getLsbD, ofBool_getLsbD]
    exact (BitVec.extractLsb'_append_extractLsb'_eq_extractLsb' (start₁ := 0) (len₁ := 1) (len₂ := 1) rfl).symm
  rw [hbits, Form.ofWord]
  cases w.getLsbD 1 <;> cases w.getLsbD 0 <;> rfl

theorem Form.len_injective {a b : Form} (h : a.len = b.len) : a = b := by
  cases a <;> cases b <;> simp_all [Form.len]

section
variable (op : Nat) (form : Form) (d a : BitVec 8) (b6 : BitVec 6)

/-- Word 0 with its width as the sum of its fields' widths, which is what the library's lemmas about appended words ask for. -/
theorem word0_extract (s n : Nat) : (word0 op form d a b6).extractLsb' s n =
    (b6 ++ a ++ d ++ BitVec.ofNat 8 op ++ form.len : BitVec (6 + 8 + 8 + 8 + 2)).extractLsb' s n := rfl

@[simp] theorem ofWord_word0 : Form.ofWord (word0 op form d a b6) = form := by
  apply Form.len_injective
  rw [len_ofWord, word0_extract, BitVec.extractLsb'_append_eq_right]

theorem opOf_word0 (h : op < 256) : opOf (word0 op form d a b6) = op := by
  simp (disch := decide) only [opOf, word0_extract, BitVec.extractLsb'_append_eq_of_le, BitVec.extractLsb'_append_eq_right, Nat.reduceSub,
    BitVec.toNat_ofNat]
  exact Nat.mod_eq_of_lt h

@[simp] theorem d_word0 : (word0 op form d a b6).extractLsb' 10 8 = d := by
  simp (disch := decide) only [word0_extract, BitVec.extractLsb'_append_eq_of_le, BitVec.extractLsb'_append_eq_right, Nat.reduceSub]
@[simp] theorem a_word0 : (word0 op form d a b6).extractLsb' 18 8 = a := by
  simp (disch := decide) only [word0_extract, BitVec.extractLsb'_append_eq_of_le, BitVec.extractLsb'_append_eq_right, Nat.reduceSub]
@[simp] theorem b6_word0 : (word0 op form d a b6).extractLsb' 26 6 = b6 := by
  simp (disch := decide) only [word0_extract, BitVec.extractLsb'_append_eq_of_le, Nat.reduceSub, BitVec.extractLsb'_eq_self]

end

theorem word0_of (w : Word) : word0 (opOf w) (Form.ofWord w) (w.extractLsb' 10 8) (w.extractLsb' 18 8) (w.extractLsb' 26 6) = w := by
  unfold word0 opOf
  rw [len_ofWord w, BitVec.ofNat_toNat, BitVec.setWidth_eq]
  simp (disch := decide) only [BitVec.extractLsb'_append_extractLsb'_eq_extractLsb']
  exact BitVec.extractLsb'_eq_self

theorem withWord1_word1 (f g : Fields) : withWord1 g (word1 f) =
    { g with sub := f.sub, md := f.md, sp := f.sp, pn := f.pn, pg := f.pg, c := f.c, b := f.b } := by
  have field (s n : Nat) : (word1 f).extractLsb' s n =
    (f.sub ++ f.md ++ f.sp ++ BitVec.ofBool f.pn ++ f.pg ++ f.c ++ f.b : BitVec (4 + 5 + 3 + 1 + 3 + 8 + 8)).extractLsb' s n := rfl
  simp (disch := decide) only [withWord1, getLsbD_eq_extract, field, BitVec.extractLsb'_append_eq_of_le, BitVec.extractLsb'_append_eq_right,
    Nat.reduceSub, BitVec.extractLsb'_eq_self, BitVec.getLsbD_ofBool]
  simp

theorem word1_withWord1 (f : Fields) (w : Word) : word1 (withWord1 f w) = w := by
  unfold word1 withWord1
  simp (disch := decide) only [ofBool_getLsbD, BitVec.extractLsb'_append_extractLsb'_eq_extractLsb']
  exact BitVec.extractLsb'_eq_self

theorem isPfxWord_iff (w : Word) : isPfxWord w = true ↔ opOf w = 0xF0 :=
  beq_iff_eq.trans ⟨fun h => congrArg BitVec.toNat h, fun h => BitVec.eq_of_toNat_eq h⟩

/-! The word before an instruction (R85). -/

theorem decodePfx_encodePfx (p : Pfx) : isPfxWord (encodePfx p) = true ∧ decodePfx (encodePfx p) = some p := by
  have field (s n : Nat) : (encodePfx p).extractLsb' s n =
    (0#5 ++ p.psp ++ BitVec.ofBool p.ppn ++ p.ppg ++ BitVec.ofBool p.stb ++ BitVec.ofBool p.sta ++ BitVec.ofBool p.std
      ++ p.rep ++ BitVec.ofBool p.sw ++ 0xF0#8 ++ 0#2 : BitVec (5 + 3 + 1 + 3 + 1 + 1 + 1 + 6 + 1 + 8 + 2)).extractLsb' s n := rfl
  have hop : isPfxWord (encodePfx p) = true := by
    simp (disch := decide) only [isPfxWord, field, BitVec.extractLsb'_append_eq_of_le, BitVec.extractLsb'_append_eq_right, Nat.reduceSub,
      beq_self_eq_true]
  have hform : Form.ofWord (encodePfx p) = .s := Form.len_injective (by
    rw [len_ofWord, field, BitVec.extractLsb'_append_eq_right]; rfl)
  refine ⟨hop, ?_⟩
  simp (disch := decide) only [decodePfx, hop, hform, getLsbD_eq_extract, field, BitVec.extractLsb'_append_eq_of_le,
    BitVec.extractLsb'_append_eq_right, BitVec.extractLsb'_eq_self, Nat.reduceSub, beq_self_eq_true, Bool.and_self, if_true]
  simp

theorem encodePfx_of_decodePfx {w : Word} {p : Pfx} (h : decodePfx w = some p) : encodePfx p = w ∧ Form.ofWord w = .s := by
  obtain ⟨hw, hp⟩ := Option.ite_none_right_eq_some.1 h
  simp only [Bool.and_eq_true, beq_iff_eq] at hw
  obtain ⟨⟨hop, hform⟩, hzero⟩ := hw
  have hlen : 0#2 = w.extractLsb' 0 2 := by rw [← len_ofWord, hform]; rfl
  refine ⟨?_, hform⟩
  cases hp
  unfold encodePfx
  rw [← hzero, hlen, ← eq_of_beq hop]
  simp (disch := decide) only [ofBool_getLsbD, BitVec.extractLsb'_append_extractLsb'_eq_extractLsb']
  exact BitVec.extractLsb'_eq_self

end Sys2Proof
end

section
open Sys2Proof Sys2Proof.Machine Sys2Proof.Claims
namespace Sys2Proof

/-! Opcodes and instructions (R89, R90): the two tables, from opcodes to instructions and back, are each other's inverse. -/

theorem ofFields_of_fields? {i : Instr} {op : Nat} {f : Fields} (h : i.fields? = some (op, f)) (hr : i.rowOk = true) :
    Instr.ofFields op f = some i := by
  cases i <;> cases h
  case copy => exact if_neg (by simpa [Instr.rowOk] using hr)
  case copyU => exact if_pos hr
  case apst => exact if_neg (by simpa [Instr.rowOk] using hr)
  case apstGo => exact if_pos hr
  case xrd => exact if_neg (by simpa [Instr.rowOk] using hr)
  case xrdV => exact if_pos hr
  case xpstBuf => exact if_pos hr
  case xpstNtf => simp [Instr.ofFields, eq_of_beq hr]
  case xpstUnb => simp [Instr.ofFields, eq_of_beq hr]
  all_goals rfl

theorem fields?_of_ofFields {i : Instr} {op : Nat} {f : Fields} (h : Instr.ofFields op f = some i) :
    i.fields? = some (op, f) ∧ i.rowOk = true := by
  unfold Instr.ofFields at h
  repeat' split at h
  all_goals cases h <;> exact ⟨rfl, by simp_all [Instr.rowOk]⟩

theorem ofSFields_iff {i : Instr} {op : Nat} {f : SFields} : Instr.ofSFields op f = some i ↔ i.sfields? = some (op, f) := by
  constructor
  · intro h
    unfold Instr.ofSFields at h
    split at h <;> cases h <;> rfl
  · intro h
    cases i <;> cases h <;> rfl

/-- An instruction with fields of a fibre's or an access program's has an opcode of one of their sets (R90). -/
theorem fields?_opcode {i : Instr} {op : Nat} {f : Fields} (h : i.fields? = some (op, f)) :
    op < 0xF0 ∧ streamOp op = false := by
  cases i <;> cases h <;> decide

theorem sfields?_opcode {i : Instr} {op : Nat} {f : SFields} (h : i.sfields? = some (op, f)) :
    op < 0xF0 ∧ streamOp op = true ∧ i.fields? = none := by
  cases i <;> cases h <;> exact ⟨by decide, rfl, rfl⟩

theorem encode_of_fields? {i : Instr} {op : Nat} {f : Fields} (h : i.fields? = some (op, f)) : encode i = encodeFields op f := by
  unfold encode
  split
  · cases h
  · rw [h]

theorem encode_of_sfields? {i : Instr} {op : Nat} {f : SFields} (h : i.sfields? = some (op, f)) : encode i = encodeSFields op f := by
  obtain ⟨_, _, hn⟩ := sfields?_opcode h
  unfold encode
  split
  · cases h
  · rw [h, hn]

/-- What is neither a word before an instruction nor has fields has no words. -/
theorem encode_of_none {i : Instr} (h : i.fields? = none) (hs : i.sfields? = none) (hp : ∀ p, i ≠ .pfx p) : encode i = [] := by
  unfold encode
  split
  · next p => exact absurd rfl (hp p)
  · rw [h, hs]

/-- Whether the fields are legal in the set of their opcode (R90). -/
def legalHere (op : Nat) (f : Fields) : Bool := if op == 0xC5 || op == 0xC6 then accessLegal op f else legal op f

/-- Well-formedness of an instruction with fields is legality in the set of its opcode. -/
theorem wellFormed_of_fields? {i : Instr} {op : Nat} {f : Fields} (h : i.fields? = some (op, f)) :
    i.wellFormed = (i.rowOk && legalHere op f) := by
  unfold Instr.wellFormed
  rw [h]
  rfl

theorem wellFormed_of_sfields? {i : Instr} {op : Nat} {f : SFields} (h : i.sfields? = some (op, f)) : i.wellFormed = streamLegal op f := by
  obtain ⟨_, _, hn⟩ := sfields?_opcode h
  unfold Instr.wellFormed
  rw [h, hn]

/-! What legal fields hold where the form lacks a word (R76, R79, R80). -/

/-- The fields are ones that an instruction's words can carry. -/
def Fields.Carried (op : Nat) (f : Fields) : Prop :=
  match f.form with
  | .s => f = { form := .s, d := f.d, a := f.a, b6 := f.b6, md := sDefaultMd op }
  | .m => f.w2 = 0 ∧ f.lit = 0
  | .l => f.lit = 0
  | .lx => True

theorem OpSpec.ok_carried {k : OpSpec} {op : Nat} {f : Fields} (h : k.ok op f = true) : f.Carried op := by
  obtain ⟨form, d, a, b6, b, c, pg, pn, sp, md, sub, w2, lit⟩ := f
  simp only [OpSpec.ok, Bool.and_eq_true] at h
  obtain ⟨⟨⟨-, hwords⟩, hs⟩, -⟩ := h
  cases form
  case s => simp_all [OpSpec.wordsOk, sFormOk, Fields.Carried]
  case m => simpa [OpSpec.wordsOk, Fields.Carried] using hwords
  case l => simp_all [OpSpec.wordsOk, Fields.Carried]
  case lx => trivial

theorem legal_carried {op : Nat} {f : Fields} (h : legal op f = true) : f.Carried op := by
  unfold legal at h
  split at h
  · exact OpSpec.ok_carried h
  · cases h

theorem accessLegal_carried {op : Nat} {f : Fields} (h : accessLegal op f = true) : f.Carried op := by
  simp only [accessLegal, Bool.and_eq_true] at h
  obtain ⟨-, h⟩ := h
  split at h
  · simp only [Bool.and_eq_true] at h
    exact OpSpec.ok_carried h.1.1
  · simp only [Bool.and_eq_true] at h
    exact legal_carried h.1

theorem legalHere_carried {op : Nat} {f : Fields} (h : legalHere op f = true) : f.Carried op := by
  unfold legalHere at h
  split at h
  · exact accessLegal_carried h
  · exact legal_carried h

/-! Words and fields, whole (R73 to R80, R355). -/

theorem encodeFields_cons (op : Nat) (f : Fields) : ∃ r, encodeFields op f = word0 op f.form f.d f.a f.b6 :: r := by
  unfold encodeFields
  cases f.form <;> exact ⟨_, rfl⟩

/-- The fields of word 0 (R74). -/
def firstFields (w : Word) : Fields :=
  { form := Form.ofWord w, d := w.extractLsb' 10 8, a := w.extractLsb' 18 8, b6 := w.extractLsb' 26 6 }

theorem fieldsOf_s {w : Word} (h : Form.ofWord w = .s) : fieldsOf [w] = some { firstFields w with md := sDefaultMd (opOf w) } := by
  unfold fieldsOf firstFields
  simp only [h]
theorem fieldsOf_m {w : Word} (w1 : Word) (h : Form.ofWord w = .m) : fieldsOf [w, w1] = some (withWord1 (firstFields w) w1) := by
  unfold fieldsOf firstFields
  simp only [h]
theorem fieldsOf_l {w : Word} (w1 w2 : Word) (h : Form.ofWord w = .l) :
    fieldsOf [w, w1, w2] = some { withWord1 (firstFields w) w1 with w2 := w2 } := by
  unfold fieldsOf firstFields
  simp only [h]
theorem fieldsOf_lx {w : Word} (w1 w2 w3 w4 : Word) (h : Form.ofWord w = .lx) :
    fieldsOf [w, w1, w2, w3, w4] = some { withWord1 (firstFields w) w1 with w2 := w2, lit := w4 ++ w3 } := by
  unfold fieldsOf firstFields
  simp only [h]

/-- Fields are those of one of the four forms. -/
theorem fieldsOf_cases {w : Word} {r : List Word} {f : Fields} (h : fieldsOf (w :: r) = some f) :
    (Form.ofWord w = .s ∧ r = [] ∧ f = { firstFields w with md := sDefaultMd (opOf w) }) ∨
    (Form.ofWord w = .m ∧ ∃ w1, r = [w1] ∧ f = withWord1 (firstFields w) w1) ∨
    (Form.ofWord w = .l ∧ ∃ w1 w2, r = [w1, w2] ∧ f = { withWord1 (firstFields w) w1 with w2 := w2 }) ∨
    (Form.ofWord w = .lx ∧ ∃ w1 w2 w3 w4, r = [w1, w2, w3, w4] ∧ f = { withWord1 (firstFields w) w1 with w2 := w2, lit := w4 ++ w3 }) := by
  unfold fieldsOf at h
  dsimp only at h
  split at h
  · next hf => exact .inl ⟨hf, rfl, (Option.some.inj h).symm⟩
  · next w1 hf => exact .inr (.inl ⟨hf, w1, rfl, (Option.some.inj h).symm⟩)
  · next w1 w2 hf => exact .inr (.inr (.inl ⟨hf, w1, w2, rfl, (Option.some.inj h).symm⟩))
  · next w1 w2 w3 w4 hf => exact .inr (.inr (.inr ⟨hf, w1, w2, w3, w4, rfl, (Option.some.inj h).symm⟩))
  · cases h

@[simp] theorem firstFields_word0 (op : Nat) (form : Form) (d a : BitVec 8) (b6 : BitVec 6) :
    firstFields (word0 op form d a b6) = { form := form, d := d, a := a, b6 := b6 } := by
  simp [firstFields]

theorem fieldsOf_encodeFields {op : Nat} {f : Fields} (hop : op < 256) (h : f.Carried op) : fieldsOf (encodeFields op f) = some f := by
  obtain ⟨form, d, a, b6, b, c, pg, pn, sp, md, sub, w2, lit⟩ := f
  cases form
  case s =>
    refine (fieldsOf_s (ofWord_word0 ..)).trans ?_
    rw [firstFields_word0, opOf_word0 _ _ _ _ _ hop]
    exact congrArg some h.symm
  case m =>
    obtain ⟨rfl, rfl⟩ := h
    refine (fieldsOf_m _ (ofWord_word0 ..)).trans ?_
    rw [firstFields_word0, withWord1_word1]
  case l =>
    replace h : lit = 0 := h
    subst h
    refine (fieldsOf_l _ _ (ofWord_word0 ..)).trans ?_
    rw [firstFields_word0, withWord1_word1]
  case lx =>
    refine (fieldsOf_lx _ _ _ _ (ofWord_word0 ..)).trans ?_
    rw [firstFields_word0, withWord1_word1, BitVec.extractLsb'_append_extractLsb']

theorem encodeFields_fieldsOf {w : Word} {r : List Word} {f : Fields} (h : fieldsOf (w :: r) = some f) : encodeFields (opOf w) f = w :: r := by
  have h0 := word0_of w
  obtain ⟨hf, rfl, rfl⟩ | ⟨hf, w1, rfl, rfl⟩ | ⟨hf, w1, w2, rfl, rfl⟩ | ⟨hf, w1, w2, w3, w4, rfl, rfl⟩ := fieldsOf_cases h
  all_goals
    unfold encodeFields
    rw [hf] at h0
  · simp only [firstFields, hf, h0]
  · have h1 := word1_withWord1 (firstFields w) w1
    simp only [withWord1, firstFields, hf] at h1 ⊢
    rw [h0, h1]
  · have h1 : word1 { withWord1 (firstFields w) w1 with w2 := w2 } = w1 := word1_withWord1 (firstFields w) w1
    simp only [withWord1, firstFields, hf] at h1 ⊢
    rw [h0, h1]
  · have h1 : word1 { withWord1 (firstFields w) w1 with w2 := w2, lit := w4 ++ w3 } = w1 := word1_withWord1 (firstFields w) w1
    have h3 : (w4 ++ w3 : BitVec 64).extractLsb' 0 32 = w3 := BitVec.extractLsb'_append_eq_right
    have h4 : (w4 ++ w3 : BitVec 64).extractLsb' 32 32 = w4 := BitVec.extractLsb'_append_eq_left
    simp only [withWord1, firstFields, hf, h3, h4] at h1 ⊢
    rw [h0, h1]

/-! The same of a stream instruction (R355, R356). -/

/-- Word 0 of a stream instruction (R355). -/
def firstSFields (w : Word) : SFields :=
  { form := Form.ofWord w, d := w.extractLsb' 10 8, a := w.extractLsb' 18 8, b6 := w.extractLsb' 26 6 }

theorem sfieldsOf_s {w : Word} (h : Form.ofWord w = .s) : sfieldsOf [w] = some (firstSFields w) := by
  unfold sfieldsOf firstSFields
  simp only [h]
theorem sfieldsOf_m {w : Word} (w1 : Word) (h : Form.ofWord w = .m) : sfieldsOf [w, w1] = some { firstSFields w with w1 := w1 } := by
  unfold sfieldsOf firstSFields
  simp only [h]
theorem sfieldsOf_l {w : Word} (w1 w2 : Word) (h : Form.ofWord w = .l) :
    sfieldsOf [w, w1, w2] = some { firstSFields w with w1 := w1, w2 := w2 } := by
  unfold sfieldsOf firstSFields
  simp only [h]

/-- The fields are those of one of the three forms. -/
theorem sfieldsOf_cases {w : Word} {r : List Word} {f : SFields} (h : sfieldsOf (w :: r) = some f) :
    (Form.ofWord w = .s ∧ r = [] ∧ f = firstSFields w) ∨
    (Form.ofWord w = .m ∧ ∃ w1, r = [w1] ∧ f = { firstSFields w with w1 := w1 }) ∨
    (Form.ofWord w = .l ∧ ∃ w1 w2, r = [w1, w2] ∧ f = { firstSFields w with w1 := w1, w2 := w2 }) := by
  unfold sfieldsOf at h
  dsimp only at h
  split at h
  · next hf => exact .inl ⟨hf, rfl, (Option.some.inj h).symm⟩
  · next w1 hf => exact .inr (.inl ⟨hf, w1, rfl, (Option.some.inj h).symm⟩)
  · next w1 w2 hf => exact .inr (.inr ⟨hf, w1, w2, rfl, (Option.some.inj h).symm⟩)
  · cases h

@[simp] theorem firstSFields_word0 (op : Nat) (form : Form) (d a : BitVec 8) (b6 : BitVec 6) :
    firstSFields (word0 op form d a b6) = { form := form, d := d, a := a, b6 := b6 } := by
  simp [firstSFields]

/-- The fields are ones that a stream instruction's words can carry. -/
def SFields.Carried (f : SFields) : Prop :=
  match f.form with
  | .s => f.w1 = 0 ∧ f.w2 = 0
  | .m => f.w2 = 0
  | .l => True
  | .lx => False

theorem streamLegal_carried {op : Nat} {f : SFields} (h : streamLegal op f = true) : f.Carried := by
  obtain ⟨form, d, a, b6, w1, w2⟩ := f
  unfold streamLegal at h
  split at h
  all_goals cases form <;> simp_all [SFields.Carried]

theorem encodeSFields_cons (op : Nat) (f : SFields) : ∃ r, encodeSFields op f = word0 op f.form f.d f.a f.b6 :: r := by
  unfold encodeSFields
  cases f.form <;> exact ⟨_, rfl⟩

theorem sfieldsOf_encodeSFields {op : Nat} {f : SFields} (h : f.Carried) : sfieldsOf (encodeSFields op f) = some f := by
  obtain ⟨form, d, a, b6, w1, w2⟩ := f
  cases form
  case s =>
    obtain ⟨rfl, rfl⟩ := h
    exact (sfieldsOf_s (ofWord_word0 ..)).trans (congrArg some (firstSFields_word0 ..))
  case m =>
    replace h : w2 = 0 := h
    subst h
    refine (sfieldsOf_m _ (ofWord_word0 ..)).trans ?_
    rw [firstSFields_word0]
  case l =>
    refine (sfieldsOf_l _ _ (ofWord_word0 ..)).trans ?_
    rw [firstSFields_word0]
  case lx => exact h.elim

theorem encodeSFields_sfieldsOf {w : Word} {r : List Word} {f : SFields} (h : sfieldsOf (w :: r) = some f) : encodeSFields (opOf w) f = w :: r := by
  have h0 := word0_of w
  obtain ⟨hf, rfl, rfl⟩ | ⟨hf, w1, rfl, rfl⟩ | ⟨hf, w1, w2, rfl, rfl⟩ := sfieldsOf_cases h
  all_goals
    rw [hf] at h0
    simp only [encodeSFields, firstSFields, hf, h0]

end Sys2Proof
end

section
open Sys2Proof Sys2Proof.Machine Sys2Proof.Claims
namespace Sys2Proof

/-! The decoder (R90, R92 to R94). -/

/-- A fibre instruction is named by its first word's opcode, with legal fields. -/
theorem decodeFibre_some {ws : List Word} {i : Instr} (h : decodeFibre ws = some i) :
    ∃ f, fieldsOf ws = some f ∧ legal (opOf (ws.headD 0)) f = true ∧ i.fields? = some (opOf (ws.headD 0), f) ∧ i.rowOk = true := by
  unfold decodeFibre at h
  split at h
  · next hf =>
    obtain ⟨hl, hi⟩ := Option.ite_none_right_eq_some.1 h
    exact ⟨_, hf, (Bool.and_eq_true_iff.1 hl).2, fields?_of_ofFields hi⟩
  · cases h

theorem decodeAccess_some {ws : List Word} {i : Instr} (h : decodeAccess ws = some i) :
    ∃ f, fieldsOf ws = some f ∧ accessLegal (opOf (ws.headD 0)) f = true ∧ i.fields? = some (opOf (ws.headD 0), f) ∧ i.rowOk = true := by
  unfold decodeAccess at h
  split at h
  · next hf =>
    obtain ⟨hl, hi⟩ := Option.ite_none_right_eq_some.1 h
    exact ⟨_, hf, hl, fields?_of_ofFields hi⟩
  · cases h

theorem decodeStream_some {ws : List Word} {i : Instr} (h : decodeStream ws = some i) :
    ∃ f, sfieldsOf ws = some f ∧ streamLegal (opOf (ws.headD 0)) f = true ∧ i.sfields? = some (opOf (ws.headD 0), f) := by
  unfold decodeStream at h
  split at h
  · next hf =>
    obtain ⟨hl, hi⟩ := Option.ite_none_right_eq_some.1 h
    exact ⟨_, hf, hl, ofSFields_iff.1 hi⟩
  · cases h

/-- What decodes is a word before an instruction (R85), or a legal instruction of the set its opcode belongs to. -/
theorem decodeAny_cases {w : Word} {r : List Word} {i : Instr} (h : decodeAny (w :: r) = some i) :
    (∃ p, decodePfx w = some p ∧ i = .pfx p) ∨
    (∃ f, sfieldsOf (w :: r) = some f ∧ streamLegal (opOf w) f = true ∧ i.sfields? = some (opOf w, f)) ∨
    (∃ f, fieldsOf (w :: r) = some f ∧ legalHere (opOf w) f = true ∧ i.fields? = some (opOf w, f) ∧ i.rowOk = true) := by
  unfold decodeAny at h
  dsimp only at h
  split at h
  · obtain ⟨p, hp, hi⟩ := Option.map_eq_some_iff.1 h
    exact .inl ⟨p, hp, hi.symm⟩
  split at h
  · exact .inr (.inl (decodeStream_some h))
  split at h
  · next hop =>
    obtain ⟨f, hf, hl, hi⟩ := decodeAccess_some h
    exact .inr (.inr ⟨f, hf, (if_pos hop).trans hl, hi⟩)
  · next hop =>
    obtain ⟨f, hf, hl, hi⟩ := decodeFibre_some h
    exact .inr (.inr ⟨f, hf, (if_neg hop).trans hl, hi⟩)

theorem decodeAny_fields {w : Word} {r : List Word} {f : Fields} (hp : opOf w < 0xF0) (hs : streamOp (opOf w) = false)
    (hf : fieldsOf (w :: r) = some f) (hl : legalHere (opOf w) f = true) : decodeAny (w :: r) = Instr.ofFields (opOf w) f := by
  have hpfx : isPfxWord w = false := Bool.eq_false_iff.2 fun h => absurd ((isPfxWord_iff w).1 h) (Nat.ne_of_lt hp)
  unfold decodeAny
  simp only [hpfx, hs]
  unfold legalHere at hl
  split at hl
  · next hop => simp [hop, decodeAccess, hf, hl]
  · next hop =>
    have hfib : fibreOp (opOf w) = true := by
      have hset : opOf w ≠ 0xC5 ∧ opOf w ≠ 0xC6 := by simpa using hop
      simp only [streamOp, Bool.and_eq_false_iff, decide_eq_false_iff_not] at hs
      simp [fibreOp, hset]
      omega
    simp [hop, decodeFibre, hf, hl, hfib]

theorem decodeAny_sfields {w : Word} {r : List Word} {f : SFields} (hs : streamOp (opOf w) = true)
    (hf : sfieldsOf (w :: r) = some f) (hl : streamLegal (opOf w) f = true) : decodeAny (w :: r) = Instr.ofSFields (opOf w) f := by
  have hpfx : isPfxWord w = false := by
    rw [Bool.eq_false_iff, ne_eq, isPfxWord_iff]
    intro h
    rw [h] at hs
    exact absurd hs (by decide)
  simp [decodeAny, hpfx, hs, decodeStream, hf, hl]

theorem decodeAny_pfx {w : Word} {p : Pfx} (hw : isPfxWord w = true) (hp : decodePfx w = some p) : decodeAny [w] = some (.pfx p) := by
  simp [decodeAny, hw, hp]

/-- What has fields decodes from its words. -/
theorem decodeAny_encode_fields {i : Instr} {op : Nat} {f : Fields} (h : i.fields? = some (op, f)) (hw : i.wellFormed = true) :
    decodeAny (encode i) = some i := by
  rw [wellFormed_of_fields? h, Bool.and_eq_true] at hw
  obtain ⟨hrow, hlegal⟩ := hw
  obtain ⟨hop, hstream⟩ := fields?_opcode h
  have hop' : op < 256 := hop.trans (by decide)
  have hf := fieldsOf_encodeFields hop' (legalHere_carried hlegal)
  obtain ⟨r, hr⟩ := encodeFields_cons op f
  rw [hr] at hf
  rw [encode_of_fields? h, hr]
  have hw0 := opOf_word0 op f.form f.d f.a f.b6 hop'
  rw [decodeAny_fields (by rwa [hw0]) (by rwa [hw0]) hf (by rwa [hw0]), hw0]
  exact ofFields_of_fields? h hrow

/-- A stream instruction decodes from its words. -/
theorem decodeAny_encode_sfields {i : Instr} {op : Nat} {f : SFields} (h : i.sfields? = some (op, f)) (hw : i.wellFormed = true) :
    decodeAny (encode i) = some i := by
  rw [wellFormed_of_sfields? h] at hw
  obtain ⟨hop, hstream, -⟩ := sfields?_opcode h
  have hf := sfieldsOf_encodeSFields (op := op) (streamLegal_carried hw)
  obtain ⟨r, hr⟩ := encodeSFields_cons op f
  rw [hr] at hf
  rw [encode_of_sfields? h, hr]
  have hw0 := opOf_word0 op f.form f.d f.a f.b6 (hop.trans (by decide))
  rw [decodeAny_sfields (by rwa [hw0]) hf (by rwa [hw0]), hw0]
  exact ofSFields_iff.2 h

/-- Settles O49: a word before an instruction, an instruction with fields and a stream instruction each read back what was laid down; a step of another
agent has no words. -/
theorem encodeThenDecode : Obligations.EncodeThenDecode := by
  intro i hw he
  cases hf : i.fields? with
  | some e => exact decodeAny_encode_fields hf hw
  | none =>
    cases hs : i.sfields? with
    | some e => exact decodeAny_encode_sfields hs hw
    | none =>
      by_cases hp : ∃ p, i = .pfx p
      · obtain ⟨p, rfl⟩ := hp
        obtain ⟨hop, hdec⟩ := decodePfx_encodePfx p
        exact decodeAny_pfx hop hdec
      · exact absurd (encode_of_none hf hs fun p h => hp ⟨p, h⟩) he

/-- Settles O50: whatever the set, the fields that were read are legal, and laid down again they give the words. -/
theorem decodeThenEncode : Obligations.DecodeThenEncode := by
  intro ws i hlen hdec
  cases ws with
  | nil => cases hdec
  | cons w r =>
    obtain ⟨p, hp, rfl⟩ | ⟨f, hf, hl, hi⟩ | ⟨f, hf, hl, hi, hrow⟩ := decodeAny_cases hdec
    · obtain ⟨henc, hform⟩ := encodePfx_of_decodePfx hp
      have hr : r = [] := by
        rw [List.headD_cons, wordsOf, hform] at hlen
        exact List.length_eq_zero_iff.1 (Nat.succ.inj hlen)
      subst hr
      exact ⟨rfl, congrArg (fun v => [v]) henc⟩
    · exact ⟨(wellFormed_of_sfields? hi).trans hl, (encode_of_sfields? hi).trans (encodeSFields_sfieldsOf hf)⟩
    · exact ⟨(wellFormed_of_fields? hi).trans (Bool.and_eq_true_iff.2 ⟨hrow, hl⟩), (encode_of_fields? hi).trans (encodeFields_fieldsOf hf)⟩

/-- Settles O48: each word list is decoded, and gives the instruction that the spec says. -/
theorem wordsDecode : Obligations.WordsDecode := by
  unfold Obligations.WordsDecode
  decide

end Sys2Proof
end

section
open Sys2Proof Sys2Proof.Machine Sys2Proof.Claims
namespace Sys2Proof.Machine

/-! A sequencer's halt (R93, R320), and what the barriers of its cycle leave of it. -/

/-- What a halt records in a group: the sequencer's state and SQSTAT, and that the group is failed. -/
structure Verdict where
  st : SeqState
  stat : Word
  failed : Bool

def Group.verdict (x : Group) : Verdict := { st := x.seq.st, stat := x.seq.stat, failed := x.failed }

/-- Memory, and what halts have recorded in every group, are as they were. -/
structure SameVerdicts (s t : State) : Prop where
  mem : t.mem = s.mem
  groups : ∀ j, (t.groupAt j).verdict = (s.groupAt j).verdict

theorem SameVerdicts.trans {s t u : State} (h : SameVerdicts s t) (k : SameVerdicts t u) : SameVerdicts s u :=
  ⟨k.mem.trans h.mem, fun j => (k.groups j).trans (h.groups j)⟩

theorem verdicts_of_groups {s t : State} (hm : t.mem = s.mem) (hg : t.groups = s.groups) (hs : t.saved = s.saved) : SameVerdicts s t :=
  ⟨hm, fun j => by rw [groupAt_of_groups hg hs]⟩

theorem SameVerdicts.refl (s : State) : SameVerdicts s s := verdicts_of_groups rfl rfl rfl

theorem verdicts_modGroup (s : State) (g : Nat) (k : Group → Group) (hk : ∀ x, (k x).verdict = x.verdict) : SameVerdicts s (s.modGroup g k) :=
  ⟨modGroup_mem .., keeps_modGroup Group.verdict k hk s g⟩

theorem verdicts_foldl {α : Type} (k : State → α → State) (hk : ∀ s a, SameVerdicts s (k s a)) (ls : List α) (s : State) :
    SameVerdicts s (ls.foldl k s) :=
  List.foldlRecOn ls k (.refl s) (fun t ht a _ => ht.trans (hk t a))

theorem verdicts_writeDest (s : State) (d : Dest) (v : RegWord) : SameVerdicts s (s.writeDest d v) := by
  cases d with
  | vec g w off => exact verdicts_modGroup s g _ fun _ => rfl
  | uni g w f n => exact verdicts_modGroup s g _ fun _ => rfl
  | none => exact .refl s
  | queue => exact .refl s

theorem verdicts_release (s : State) (g n : Nat) : SameVerdicts s (s.release g n) := by
  unfold State.release
  dsimp only
  split
  · exact .refl s
  · exact SameVerdicts.trans (t := s.newId.2) (verdicts_of_groups rfl rfl rfl) (verdicts_modGroup _ g _ fun _ => rfl)

theorem verdicts_flushBar (s : State) (g n : Nat) (ops : List BarOp) : SameVerdicts s (s.flushBar g n ops) := by
  unfold State.flushBar
  refine SameVerdicts.trans ?_ (verdicts_release _ g n)
  refine (verdicts_modGroup s g (fun x => { x with bars := modAt x.bars n _ }) fun _ => rfl).trans (verdicts_foldl _ (fun t o => ?_) ops _)
  cases o with
  | set => exact .refl t
  | leave => exact .refl t
  | arrive m ms count drop dests waits =>
    dsimp only
    split
    · exact .refl t
    · refine (verdicts_foldl _ (fun t d => verdicts_writeDest t d _) dests t).trans (verdicts_foldl _ (fun t e => ?_) waits _)
      exact verdicts_modGroup t g _ fun _ => rfl
  | seqArrive m =>
    dsimp only
    split
    · exact .refl t
    · exact verdicts_modGroup t g _ fun _ => rfl

theorem verdicts_flush (s : State) (g : Nat) : SameVerdicts s (s.flush g) := by
  unfold State.flush
  dsimp only
  split
  · exact .refl s
  · refine (verdicts_modGroup s g (fun x => { x with barOps := [] }) fun _ => rfl).trans (verdicts_foldl _ (fun t n => ?_) _ _)
    split
    · exact verdicts_flushBar t g n _
    · exact .refl t

/-- A stopped sequencer gives up its slots and its barriers, and nothing that a halt records. -/
theorem verdicts_seqStop (s : State) (g : Nat) : SameVerdicts s (s.seqStop g) :=
  ((verdicts_modGroup s g (fun x => { x with seq := { x.seq with granted := false, cnt := 0, slots := [] } }) fun _ => rfl).trans
    (verdicts_modGroup _ g (fun x => { x with barOps := x.barOps ++ [.leave [.seq]] }) fun _ => rfl)).trans (verdicts_flush _ g)

/-- SQSTAT with a cause in bits 15:8 (R319). -/
def haltStat (stat : Word) (c : Nat) : Word := (stat &&& 0xFFFF00FF) ||| (BitVec.ofNat 32 c <<< 8)

theorem haltStat_cause (stat : Word) (c : Nat) : (haltStat stat c).toNat / 256 % 256 = c % 256 := by
  have hbits : (haltStat stat c).extractLsb' 8 8 = BitVec.ofNat 8 c := by
    have hshift : (BitVec.ofNat 32 c <<< 8).extractLsb' 8 8 = BitVec.ofNat 8 c := by
      apply BitVec.eq_of_toNat_eq
      simp only [BitVec.extractLsb'_toNat, BitVec.toNat_shiftLeft, BitVec.toNat_ofNat, Nat.shiftRight_eq_div_pow, Nat.shiftLeft_eq]
      omega
    rw [haltStat, BitVec.extractLsb'_or, BitVec.extractLsb'_and, hshift]
    simp
  have h := congrArg BitVec.toNat hbits
  rwa [BitVec.extractLsb'_toNat, Nat.shiftRight_eq_div_pow, BitVec.toNat_ofNat] at h

/-- The sequencer, halted with a cause. -/
def Seq.haltedFor (c : Nat) (q : Seq) : Seq := { q with st := .halted, stat := haltStat q.stat c }

theorem haltSeq_eq (s : State) (g c : Nat) : s.haltSeq g c = (((s.modSeq g (Seq.haltedFor c)).failGroup g).seqStop g).wake := rfl

theorem groupAt_failGroup (s : State) (g : Nat) (hp : (s.group? g).isSome = true) :
    (s.failGroup g).groupAt g = { s.groupAt g with failed := true } :=
  (groupAt_of_groups rfl rfl g).trans ((groupAt_modGroup s g g _ hp).trans (if_pos rfl))

theorem groupAt_modSeq (s : State) (g : Nat) (k : Seq → Seq) (hp : (s.group? g).isSome = true) :
    (s.modSeq g k).groupAt g = { s.groupAt g with seq := k (s.groupAt g).seq } :=
  (groupAt_modGroup s g g _ hp).trans (if_pos rfl)

/-- The halt of a placed group's sequencer is recorded in SQSTAT and in the group, and changes no memory. -/
theorem haltSeq_verdict (s : State) (g c : Nat) (hp : (s.group? g).isSome = true) :
    ((s.haltSeq g c).groupAt g).verdict = { st := .halted, stat := haltStat (s.groupAt g).seq.stat c, failed := true } ∧ (s.haltSeq g c).mem = s.mem := by
  rw [haltSeq_eq]
  obtain ⟨hmem, hgroups⟩ := verdicts_seqStop ((s.modSeq g (Seq.haltedFor c)).failGroup g) g
  refine ⟨(hgroups g).trans ?_, hmem.trans ((modGroup_mem ..).trans (modGroup_mem ..))⟩
  have hq : ((s.modSeq g (Seq.haltedFor c)).group? g).isSome = true := (placed_modGroup ..).trans hp
  rw [groupAt_failGroup _ g hq, groupAt_modSeq s g _ hp]
  rfl

theorem runStream_halts {words : Nat} {f : SFields} {body : Nat → SFields → State → SOut} {s : State} {g c : Nat} (ht : s.turn = .stream g)
    (hb : body g f s = .halt c) : runStream words f body s = .next ({ s with turn := .choose }.haltSeq g c) := by
  simp [runStream, ht, hb]

/-- An instruction that is run for a sequencer by a body that halts where its table says so. -/
theorem halts_of_body {i : Instr} {e : Sx} {words : Nat} {f : SFields} {body : Nat → SFields → State → SOut}
    (hexec : ∀ s, exec i s = runStream words f body s) (hbody : ∀ g s c, e.halt g s = some c → body g f s = .halt c) : e.Halts i := by
  intro s g c ht hc
  have hrun := (hexec s).trans (runStream_halts ht (hbody g s c hc))
  refine ⟨hrun, fun hp => ⟨_, hrun, ?_⟩⟩
  obtain ⟨hv, hmem⟩ := haltSeq_verdict { s with turn := .choose } g c hp
  simp only [Group.verdict, Verdict.mk.injEq] at hv
  obtain ⟨hst, hstat, hfailed⟩ := hv
  exact ⟨hst, hfailed, hstat ▸ haltStat_cause _ c, hmem⟩

/-- Settles O16: each body halts with the cause that its table gives, and the halt is recorded whatever the cycle's barriers do. -/
theorem streamHaltFailsGroup : Obligations.StreamHaltFailsGroup := by
  intro i e h
  cases i <;> cases h
  case mma f => exact halts_of_body (body := mmaBody) (fun _ => rfl) fun g s c (hc : matrixHalt false _ f = some c) => by simp [mmaBody, matrixBody, hc]
  case mms f => exact halts_of_body (body := mmsBody) (fun _ => rfl) fun g s c (hc : matrixHalt true _ f = some c) => by simp [mmsBody, matrixBody, hc]
  case bld f => exact halts_of_body (body := bldBody) (fun _ => rfl) fun g s c (hc : s.bldHalt g f = some c) => by simp [bldBody, hc]
  case acz f => exact halts_of_body (body := aczBody) (fun _ => rfl) fun g s c (hc : aczHalt _ f = some c) => by simp [aczBody, hc]
  case sqw f =>
    refine halts_of_body (body := sqwBody) (fun _ => rfl) fun g s c hc => ?_
    dsimp only at hc
    unfold sqwBody
    split at hc
    · next hbar =>
      cases hc
      exact if_pos hbar
    · next hbar =>
      obtain ⟨hlost, hcause⟩ := Option.ite_none_right_eq_some.1 hc
      obtain ⟨hgo, hlost⟩ := Bool.and_eq_true_iff.1 hlost
      cases hcause
      rw [if_neg hbar, if_neg (by simpa using hgo), if_pos hlost]
  case sqa f => exact halts_of_body (body := sqaBody) (fun _ => rfl) fun g s c hc => nomatch hc
  case sqlp f => exact halts_of_body (body := sqlpBody) (fun _ => rfl) fun g s c hc => nomatch hc
  case sqe f => exact halts_of_body (body := sqeBody) (f := f) (fun _ => rfl) fun g s c hc => nomatch hc

end Sys2Proof.Machine
end

section
open Sys2Proof Sys2Proof.Machine Sys2Proof.Claims
namespace Sys2Proof.Machine

/-! Access processors (R90, R314, R315, R371). -/

/-- An access processor that still runs goes to a PC. -/
def Ap.goTo (pc : DWord) (a : Ap) : Ap := if a.st == .running then { a with spc := pc } else a

theorem Ap.goTo_ended {pc : DWord} {a : Ap} (h : a.st = .ended) : a.goTo pc = a := by
  unfold Ap.goTo
  rw [h]
  rfl

/-- What an access processor's execution leaves once its effect stands: the walks it waited for are used, and the processor, if it still runs,
stands at its jump or past the instruction. -/
def apRetire (s : State) (g n : Nat) (x : Ex) (u : State) (jumps : List (Nat × DWord)) : State :=
  { ((u.walksUsed g (s.apAt g n).ownerW (4 + n) (s.apAt g n).spc).modAp g n (Ap.goTo ((jumps.head?.map (·.2)).getD x.next))).wake with
    turn := .choose }

theorem runAccess_ok {op : Nat} {f : Fields} {body : Ex → State → Out} {s u : State} {g n : Nat} {jumps : List (Nat × DWord)}
    (hb : body (apEx s g n op f) s = .ok u jumps) (hu : u.walksOut g (s.apAt g n).ownerW (4 + n) (s.apAt g n).spc = false) :
    runAccess op f body g n s = apRetire s g n (apEx s g n op f) u jumps := by
  unfold runAccess
  dsimp only
  split
  · next heq => cases hb.symm.trans heq
  · next heq => cases hb.symm.trans heq
  · next heq => cases hb.symm.trans heq
  · next t js heq =>
    cases hb.symm.trans heq
    have hgo : ¬ u.walksOut g (apPath (s.apAt g n) g).w (4 + n) (apPath (s.apAt g n) g).pc = true := by
      rw [Bool.not_eq_true]
      exact hu
    rw [if_neg hgo]
    cases jumps <;> rfl

/-- An instruction whose body takes effect, and whose effect asks for no walk, is performed by an access processor. -/
theorem runInstr_access {op : Nat} {f : Fields} {body : Ex → State → Out} {s u : State} {g n : Nat} {jumps : List (Nat × DWord)}
    (ht : s.turn = .access g n) (hb : body (apEx s g n op f) s = .ok u jumps) (hu : u.walking = s.walking)
    (hw : s.walksOut g (s.apAt g n).ownerW (4 + n) (s.apAt g n).spc = false) :
    runInstr op f body s = .next (apRetire s g n (apEx s g n op f) u jumps) := by
  unfold runInstr
  rw [ht]
  exact congrArg _ (runAccess_ok hb ((walksOut_of hu ..).trans hw))

/-- An instruction completes for an access processor where its body takes effect as stated, with no walk. -/
theorem apEnds_of_body {i : Instr} {op : Nat} {f : Fields} {ready : Nat → Nat → Ex → State → Bool} {out : Nat → Nat → Ex → State → State}
    {jumps : Ex → State → List (Nat × DWord)} {body : Ex → State → Out} (hexec : ∀ s, exec i s = runInstr op f body s)
    (hbody : ∀ g n x s, x.ap = some (g, n) → ready g n x s = true → body x s = .ok (out g n x s) (jumps x s))
    (hwalk : ∀ g n x s, (out g n x s).walking = s.walking) : ApEnds i op f ready out jumps :=
  fun s g n ht hr hw => (hexec s).trans (runInstr_access ht (hbody g n _ s rfl hr) (hwalk g n _ s) hw)

theorem steady_walking {g : Nat} {s u : State} (h : Steady false g s u) : u.walking = s.walking := h.walking rfl

theorem strand_walking (p : Path) (ls : List (Nat × Word)) (s : State) : (s.strand p ls).walking = s.walking :=
  List.foldlRecOn (motive := fun t : State => t.walking = s.walking) ls _ rfl fun _ ht _ _ => (modLane_walking ..).trans ht

theorem iaddcOut_walking (x : Ex) (s : State) : (iaddcOut x s).walking = s.walking :=
  (steady_walking (steady_iaddcOut 0 x s)).trans ((strand_walking ..).trans (steady_walking (steady_popQueues 0 s _ _)))

theorem ldqOut_steady (m : Bool) (j g n : Nat) (x : Ex) (s : State) : Steady m j s (ldqOut g n x s) := by
  unfold ldqOut
  dsimp only
  refine Steady.trans ?_ (steady_produce ..)
  exact st_modGroup_same (steady_of_groups (s := s) (u := s.newId.2) rfl (fun _ => rfl) rfl rfl) g _ (fun _ => by rfl) (fun _ => by rfl)

/-! The queue that LDQ fills, and the processor that AEND ends. -/

/-- What an access processor's retirement keeps of a group. -/
theorem apRetire_keeps {β : Type} (b : Group → β) (hb : ∀ (x : Group) aps, b { x with aps := aps } = b x) (s : State) (g n : Nat) (x : Ex) (u : State)
    (jumps : List (Nat × DWord)) (j : Nat) : b ((apRetire s g n x u jumps).groupAt j) = b (u.groupAt j) :=
  (congrArg b (groupAt_of_groups rfl rfl j)).trans
    ((keeps_modGroup b _ (fun y => hb y _) _ g j).trans (congrArg b (groupAt_of_groups rfl rfl j)))

/-- What a producer with no register among its destinations keeps. -/
theorem produce_queues (s : State) (x : Ex) (kind : ProdKind) (acq uc : Bool) (items : List Item) (j : Nat)
    (h : ∀ i ∈ items, ∃ g h e l, i.dst = .queue g h e l) : (s.produce x kind acq uc items).groupAt j = s.groupAt j := by
  refine (groupAt_of_groups rfl rfl j).trans ?_
  refine List.foldlRecOn (motive := fun t : State => t.groupAt j = s.groupAt j) items _ rfl fun t ht i hi => ?_
  obtain ⟨g, h, e, l, hd⟩ := h i hi
  rw [hd]
  exact (groupAt_of_groups rfl rfl j).trans ht

theorem ldqOut_entries (g n : Nat) (x : Ex) (s : State) (hp : (s.group? g).isSome = true) :
    (sgetD ((ldqOut g n x s).groupAt g).queues (ldqQueue x n) {}).entries.length =
      (sgetD (s.groupAt g).queues (ldqQueue x n) {}).entries.length + 1 := by
  unfold ldqOut
  dsimp only
  rw [produce_queues _ _ _ _ _ _ _ (fun i hi => by
    obtain ⟨l, -, rfl⟩ := List.mem_map.1 hi
    exact ⟨_, _, _, _, rfl⟩)]
  rw [groupAt_modGroup s.newId.2 g g _ hp, if_pos rfl]
  simp

theorem find?_map_same {α : Type} (xs : List (Nat × α)) (n : Nat) (k : α → α) :
    ((xs.map fun a => if a.1 == n then (a.1, k a.2) else a).find? fun a => a.1 == n) = (xs.find? fun a => a.1 == n).map fun a => (a.1, k a.2) := by
  have hkey : ((fun a : Nat × α => a.1 == n) ∘ fun a => if a.1 == n then (a.1, k a.2) else a) = fun a => a.1 == n := by
    funext a
    dsimp only [Function.comp_apply]
    split <;> rfl
  rw [List.find?_map, hkey]
  cases h : xs.find? fun a => a.1 == n with
  | none => rfl
  | some a => exact congrArg some (if_pos (List.find?_some h))

/-- An access processor is as it was, or as the change leaves it. -/
theorem apAt_modAp_or (s : State) (g n : Nat) (k : Ap → Ap) : (s.modAp g n k).apAt g n = s.apAt g n ∨ (s.modAp g n k).apAt g n = k (s.apAt g n) := by
  unfold State.apAt State.modAp
  obtain h | ⟨-, h⟩ := groupAt_modGroup_or s g g fun x => { x with aps := x.aps.map fun a => if a.1 == n then (a.1, k a.2) else a }
  · exact .inl (by rw [h])
  · rw [h]
    dsimp only
    rw [find?_map_same]
    cases (s.groupAt g).aps.find? fun a => a.1 == n with
    | none => exact .inl rfl
    | some a => exact .inr rfl

/-- A change of an access processor that the placed group has. -/
theorem apAt_modAp (s : State) (g n : Nat) (k : Ap → Ap) (hp : (s.group? g).isSome = true) (ha : (s.groupAt g).aps.any (fun a => a.1 == n) = true) :
    (s.modAp g n k).apAt g n = k (s.apAt g n) := by
  obtain ⟨a, ha⟩ := Option.isSome_iff_exists.1 (List.find?_isSome.2 (List.any_eq_true.1 ha))
  unfold State.apAt State.modAp
  rw [groupAt_modGroup s g g _ hp, if_pos rfl]
  dsimp only
  rw [find?_map_same, ha]
  rfl

/-- An access processor that has ended stays so while its execution retires. -/
theorem apRetire_ended (s : State) (g n : Nat) (x : Ex) (u : State) (jumps : List (Nat × DWord)) (h : (u.apAt g n).st = .ended) :
    ((apRetire s g n x u jumps).apAt g n).st = .ended := by
  have hsame {t v : State} (hg : t.groups = v.groups) (hs : t.saved = v.saved) : t.apAt g n = v.apAt g n := by
    unfold State.apAt
    rw [groupAt_of_groups hg hs]
  have hu : ((u.walksUsed g (s.apAt g n).ownerW (4 + n) (s.apAt g n).spc).apAt g n).st = .ended := h
  refine (congrArg Ap.st (hsame rfl rfl)).trans ?_
  obtain hk | hk := apAt_modAp_or (u.walksUsed g (s.apAt g n).ownerW (4 + n) (s.apAt g n).spc) g n (Ap.goTo ((jumps.head?.map (·.2)).getD x.next))
  · exact (congrArg Ap.st hk).trans hu
  · exact (congrArg Ap.st (hk.trans (Ap.goTo_ended hu))).trans hu

/-! What the bodies do once they can. -/

theorem ldqBody_ready {g n : Nat} {x : Ex} {s : State} (hx : x.ap = some (g, n)) (h : ldqReady g n x s = true) :
    ldqBody x s = .ok (ldqOut g n x s) [] := by
  simp [ldqBody, hx, h]

theorem aendBody_ap {g n : Nat} {x : Ex} (hx : x.ap = some (g, n)) (s : State) :
    aendBody x s = .ok (s.modAp g n fun a => { a with st := .ended }) [] := by
  simp [aendBody, hx]

theorem iaddcBody_ready {x : Ex} {s : State} (h : s.ready x { c := false } = true) : iaddcBody x s = .ok (iaddcOut x s) [] := by
  simp [iaddcBody, h]

/-- A tested word that is no poison's cause is its value. -/
theorem eq_inl_valOr {v : Word ⊕ Nat} (h : v.isLeft = true) : v = .inl (valOr v) := by
  cases v with
  | inl w => rfl
  | inr c => cases h

theorem bruBody_ready {x : Ex} {s : State} (h : bruReady x s = true) (hv : (bruVal x s).isLeft = true) :
    bruBody x s = .ok s (bruJumps x (valOr (bruVal x s))) := by
  unfold bruBody
  rw [h, eq_inl_valOr hv]
  rfl

theorem loopBody_ready {x : Ex} {s : State} (h : s.posReady x x.k.d x.f.d false = true) (hv : (tested (s.readCode x x.f.d 0 x.low)).isLeft = true) :
    loopBody x s = .ok (loopOut (valOr (tested (s.readCode x x.f.d 0 x.low))) x s) (loopJumps x (valOr (tested (s.readCode x x.f.d 0 x.low)))) := by
  unfold loopBody
  rw [h, eq_inl_valOr hv]
  rfl

/-- Settles O17: each body takes effect as its table says, none of the effects asks for a walk, and retirement keeps queues and a processor's end. -/
theorem accessInstructionsComplete : Obligations.AccessInstructionsComplete := by
  unfold Obligations.AccessInstructionsComplete
  refine ⟨fun f => ?ldq, fun s g n f ht => ?entry, fun f => ?aend, fun s g n f ht hw hp ha => ?ended, fun f => ?nop, fun i a hi _ => ?alu,
    fun f => ?iaddc, fun f => ?bru, fun f => ?loop⟩
  case ldq =>
    exact apEnds_of_body (fun _ => rfl) (fun g n x s hx hr => ldqBody_ready hx hr) fun g n x s => steady_walking (ldqOut_steady false 0 g n x s)
  case entry =>
    intro x hr hw hp
    refine ⟨_, runInstr_access ht (ldqBody_ready rfl hr) (steady_walking (ldqOut_steady false 0 g n x s)) hw, ?_⟩
    exact (apRetire_keeps (fun y => (sgetD y.queues (ldqQueue x n) {}).entries.length) (fun _ _ => rfl) s g n x _ [] g).trans (ldqOut_entries g n x s hp)
  case aend =>
    exact apEnds_of_body (fun _ => rfl) (fun g n x s hx _ => aendBody_ap hx s) fun g n x s => modGroup_walking ..
  case ended =>
    refine ⟨_, runInstr_access ht (aendBody_ap rfl s) (modGroup_walking ..) hw, apRetire_ended _ _ _ _ _ _ ?_⟩
    rw [apAt_modAp s g n _ hp ha]
  case nop => exact apEnds_of_body (body := nopBody) (fun _ => rfl) (fun _ _ _ _ _ _ => rfl) fun _ _ _ _ => rfl
  case alu =>
    exact apEnds_of_body (exec_alu (.inl hi)) (fun g n x s _ hr => aluBody_ready hr) fun g n x s => steady_walking (steady_regOut 0 ..)
  case iaddc => exact apEnds_of_body (fun _ => rfl) (fun g n x s _ hr => iaddcBody_ready hr) fun g n x s => iaddcOut_walking x s
  case bru =>
    refine apEnds_of_body (body := bruBody) (fun _ => rfl) (fun g n x s _ hr => ?_) fun _ _ _ _ => rfl
    obtain ⟨hr, hv⟩ := Bool.and_eq_true_iff.1 hr
    exact bruBody_ready hr hv
  case loop =>
    refine apEnds_of_body (body := loopBody) (fun _ => rfl) (fun g n x s _ hr => ?_) fun g n x s => steady_walking (st_loopOut (gg := 0) _ _ _ (.refl ..))
    obtain ⟨hr, hv⟩ := Bool.and_eq_true_iff.1 hr
    exact loopBody_ready hr hv

end Sys2Proof.Machine
end

section
open Sys2Proof Sys2Proof.Machine Sys2Proof.Claims
namespace Sys2Proof.Machine

/-! Steps go on (R92, R182): no instruction that an agent fetches, and no event, is a fault or a refusal. -/

/-- The machine goes on. -/
def GoesOn (o : Host.Outcome State Fault Refusal) : Prop := ∃ t, o = .next t

/-- An instruction of a fibre or an access program is run by `runInstr`, with its own opcode and fields. -/
theorem fields?_runs {i : Instr} {op : Nat} {f : Fields} (h : i.fields? = some (op, f)) : RunsAs i op f := by
  cases i <;> cases h <;> exact ⟨_, fun _ => rfl⟩

/-- A stream instruction is run by `runStream`. -/
theorem sfields?_runs {i : Instr} {op : Nat} {f : SFields} (h : i.sfields? = some (op, f)) :
    ∃ words body, ∀ s, exec i s = runStream words f body s := by
  cases i <;> cases h
  case mma => exact ⟨2, mmaBody, fun _ => rfl⟩
  case mms => exact ⟨3, mmsBody, fun _ => rfl⟩
  case bld => exact ⟨3, bldBody, fun _ => rfl⟩
  case acz => exact ⟨1, aczBody, fun _ => rfl⟩
  case sqw => exact ⟨1, sqwBody, fun _ => rfl⟩
  case sqa => exact ⟨1, sqaBody, fun _ => rfl⟩
  case sqlp => exact ⟨3, sqlpBody, fun _ => rfl⟩
  case sqe => exact ⟨1, sqeBody, fun _ => rfl⟩

/-- A step of another agent has a next state wherever it takes place. -/
theorem event_goesOn {i : Instr} (h : isEvent i = true) (s : State) : GoesOn (exec i s) := by
  cases i <;> cases h <;> exact ⟨_, rfl⟩

theorem runInstr_issue_goesOn {op : Nat} {f : Fields} {body : Ex → State → Out} {s : State} {p : Path} {q : Option Path} (h : s.turn = .issue p q) :
    GoesOn (runInstr op f body s) := by
  unfold runInstr
  rw [h]
  exact ⟨_, rfl⟩

theorem runInstr_access_goesOn {op : Nat} {f : Fields} {body : Ex → State → Out} {s : State} {g n : Nat} (h : s.turn = .access g n) :
    GoesOn (runInstr op f body s) := by
  unfold runInstr
  rw [h]
  exact ⟨_, rfl⟩

theorem runStream_goesOn {words : Nat} {f : SFields} {body : Nat → SFields → State → SOut} {s : State} {g : Nat} (h : s.turn = .stream g) :
    GoesOn (runStream words f body s) := by
  unfold runStream
  rw [h]
  dsimp only
  cases body g f s <;> exact ⟨_, rfl⟩

theorem pfx_goesOn {w : Pfx} {s : State} {p : Path} {q : Option Path} (h : s.turn = .issue p q) : GoesOn (exec (.pfx w) s) := by
  show GoesOn (execPfx w s)
  unfold execPfx
  rw [h]
  exact ⟨_, rfl⟩

/-! What is fetched and decoded. -/

/-- The instruction that a fetch gives, if it gives one, is of a kind. -/
def Read.Gives (P : Instr → Prop) (r : Read) : Prop :=
  match r with
  | .instr i _ => P i
  | _ => True

section
variable {P : Instr → Prop} {s : State} {core : Nat} {ctx : Byte} {va : DWord}

theorem readRest_gives {w : Word} {dec : List Word → Option Instr} (hdec : ∀ ws i, dec ws = some i → P i) :
    (s.readRest core ctx va w dec).1.Gives P := by
  unfold State.readRest
  split
  · split
    · next hi => exact hdec _ _ hi
    · trivial
  · trivial
  · trivial

theorem readAt_gives {dec : List Word → Option Instr} (hdec : ∀ ws i, dec ws = some i → P i) : (s.readAt core ctx va dec).1.Gives P := by
  unfold State.readAt
  split
  · exact readRest_gives hdec
  · trivial
  · trivial

theorem readPfx_gives {w : Word} (hpfx : ∀ p, P (.pfx p)) : (s.readPfx core ctx va w).1.Gives P := by
  unfold State.readPfx
  split
  · trivial
  split
  · split
    · trivial
    split
    · exact hpfx _
    · exact readRest_gives fun _ _ h => nomatch h
  · trivial
  · trivial

theorem readHeld_gives {x : Pfx} {k : Nat} {ws : List Word} (hdec : ∀ ws i, decodeUnder x k ws = some i → P i) : (readHeld x k ws).Gives P := by
  unfold readHeld
  split
  · next hi => exact hdec _ _ hi
  · trivial

theorem readFibre_gives {p : Path} (hpfx : ∀ p, P (.pfx p)) (hfibre : ∀ ws i, decodeFibre ws = some i → P i)
    (hunder : ∀ x k ws i, decodeUnder x k ws = some i → P i) : (s.readFibre p).1.Gives P := by
  unfold State.readFibre
  dsimp only
  split
  · split
    · exact readAt_gives (hunder _ _)
    · exact readHeld_gives (hunder _ _)
  · split
    · split
      · exact readPfx_gives hpfx
      · exact readRest_gives hfibre
    · trivial
    · trivial

end

/-- The instruction after a word before it has fields too: those of its words, stepped. -/
theorem decodeUnder_fields {x : Pfx} {k : Nat} {ws : List Word} {i : Instr} (h : decodeUnder x k ws = some i) : ∃ e, i.fields? = some e := by
  unfold decodeUnder at h
  split at h
  · exact ⟨_, (fields?_of_ofFields (Option.ite_none_right_eq_some.1 h).2).1⟩
  · cases h

/-! Steps. -/

/-- A fetched instruction goes on once it has its agent's turn; a fetch that fails, or waits, goes on by itself. -/
theorem issueStep_goesOn (s : State) (p : Path) (q : Option Path) : GoesOn (s.issueStep p q) := by
  have hread : (s.readFibre p).1.Gives fun i => (∃ e, i.fields? = some e) ∨ ∃ x, i = .pfx x :=
    readFibre_gives (fun x => .inr ⟨x, rfl⟩) (fun _ _ h => .inl (let ⟨_, _, _, hi, _⟩ := decodeFibre_some h; ⟨_, hi⟩)) (fun _ _ _ _ h => .inl (decodeUnder_fields h))
  unfold State.issueStep
  split
  · next i ws t heq =>
    rw [heq] at hread
    obtain ⟨⟨op, f⟩, hi⟩ | ⟨x, rfl⟩ := hread
    · obtain ⟨body, hrun⟩ := fields?_runs hi
      rw [hrun]
      exact runInstr_issue_goesOn rfl
    · exact pfx_goesOn rfl
  · exact ⟨_, rfl⟩
  · exact ⟨_, rfl⟩

theorem streamStep_goesOn (s : State) (g : Nat) : GoesOn (s.streamStep g) := by
  have hread : (s.readAt (s.groupAt g).core (s.groupAt g).ctx (s.groupAt g).seq.spc decodeStream).1.Gives fun i => ∃ e, i.sfields? = some e :=
    readAt_gives fun _ _ h => let ⟨_, _, _, hi⟩ := decodeStream_some h; ⟨_, hi⟩
  unfold State.streamStep
  dsimp only
  split
  · next i ws t heq =>
    rw [heq] at hread
    obtain ⟨⟨op, f⟩, hi⟩ := hread
    obtain ⟨words, body, hrun⟩ := sfields?_runs hi
    rw [hrun]
    exact runStream_goesOn rfl
  · exact ⟨_, rfl⟩
  · exact ⟨_, rfl⟩

theorem accessStep_goesOn (s : State) (g n : Nat) : GoesOn (s.accessStep g n) := by
  have hread : (s.readAt (s.groupAt g).core (s.groupAt g).ctx (s.apAt g n).spc decodeAccess).1.Gives fun i => ∃ e, i.fields? = some e :=
    readAt_gives fun _ _ h => let ⟨_, _, _, hi, _⟩ := decodeAccess_some h; ⟨_, hi⟩
  unfold State.accessStep
  dsimp only
  split
  · next i ws t heq =>
    rw [heq] at hread
    obtain ⟨⟨op, f⟩, hi⟩ := hread
    obtain ⟨body, hrun⟩ := fields?_runs hi
    rw [hrun]
    exact runInstr_access_goesOn rfl
  · exact ⟨_, rfl⟩
  · exact ⟨_, rfl⟩

theorem chooseStep_goesOn (s : State) (h : ∀ i ∈ s.agenda, isEvent i = true) : GoesOn s.chooseStep := by
  unfold State.chooseStep
  split
  · exact ⟨_, rfl⟩
  split
  · next i is hagenda => exact event_goesOn (h i (hagenda ▸ List.mem_cons_self)) _
  · exact ⟨_, rfl⟩

/-- Settles O52: whoever has the turn, what it fetches is an instruction of its own set, which its turn lets run; and a call from outside is an event. -/
theorem stepsGoOn : Obligations.StepsGoOn := by
  intro s h
  show GoesOn (step s)
  unfold step
  split
  · exact chooseStep_goesOn s h
  · exact issueStep_goesOn s _ _
  · exact streamStep_goesOn s _
  · exact accessStep_goesOn s _ _

end Sys2Proof.Machine
end

section
open Sys2Proof Sys2Proof.Machine Sys2Proof.Claims
namespace Sys2Proof.Machine

/-! A fibre's instruction completes where its effect is steady (R28, R172). -/

/-- A row whose body takes effect once it can issue, and whose effect is steady, completes. -/
theorem ends_of_steady {i : Instr} {e : Fx} {body : Ex → State → Out} (hexec : ∀ s, exec i s = runInstr e.op e.f body s)
    (hbody : ∀ x s, e.ready x s = true → body x s = .ok (e.out x s) (e.jumps x s)) (hout : ∀ g x s, Steady e.walks g s (e.out x s)) : e.Ends i :=
  fun s p q h hr hw => completes_of_steady i e.op e.f body p q s _ _ (hexec s) h (hbody _ _ hr) hw (hout ..)

/-- What an instruction does that only waits until it can issue. -/
def waitBody (e : Fx) (x : Ex) (s : State) : Out := if !e.ready x s then .wait else .ok (e.out x s) (e.jumps x s)

theorem waitBody_ready {e : Fx} {x : Ex} {s : State} (h : e.ready x s = true) : waitBody e x s = .ok (e.out x s) (e.jumps x s) := by
  simp [waitBody, h]

/-- The same for an instruction that only waits until it can issue. -/
theorem ends_when_ready {i : Instr} {e : Fx} (hexec : ∀ s, exec i s = runInstr e.op e.f (waitBody e) s) (hout : ∀ g x s, Steady e.walks g s (e.out x s)) :
    e.Ends i :=
  ends_of_steady hexec (fun _ _ => waitBody_ready) hout

/-- A row that strands lanes on what it reads, and whose effect is steady but for that, completes where a participant is not stranded. -/
theorem ends_of_strand {i : Instr} {e : Fx} {body : Ex → State → Out} (hexec : ∀ s, exec i s = runInstr e.op e.f body s)
    (hbody : ∀ x s, e.ready x s = true → body x s = .ok (e.out x s) (e.jumps x s))
    (hout : ∀ g x s, x.f = e.f → e.ready x s = true → ∃ t ls, Steady false g s t ∧ Steady false g (t.strand x.p ls) (e.out x s) ∧
      ∃ l ∈ x.parts, ∀ b ∈ ls, b.1 ≠ l) : e.Ends i := by
  intro s p q h hr hw
  obtain ⟨t, ls, ht, hu, l, hl, hne⟩ := hout p.g (s.exOf p e.op e.f) (s.start p e.f) rfl hr
  exact completes_of_strand (m := false) i e.op e.f body p q s t _ _ ls l (hexec s) h (hbody _ _ hr) (by simp) ht hu
    (active_start s p q e.op e.f h l hl) hne

/-! Lanes whose predicate is poisoned, and the others (R107, R115, R195). -/

theorem mem_goodPred {s : State} {x : Ex} {n l : Nat} : l ∈ s.goodPred x n ↔ l ∈ x.parts ∧ (s.predAt x.p l n).bad = none := by
  simp [State.goodPred, List.mem_filter]

theorem badPreds_bad {s : State} {x : Ex} {n : Nat} {b : Nat × Word} (h : b ∈ s.badPreds x n) : (s.predAt x.p b.1 n).bad = some b.2 := by
  obtain ⟨l, -, hl⟩ := List.mem_filterMap.1 h
  obtain ⟨w, hw, rfl⟩ := Option.map_eq_some_iff.1 hl
  exact hw

/-- Where some participant's predicate is unpoisoned, it is not among the lanes that strand. -/
theorem exists_unstranded {s : State} {x : Ex} {n : Nat} (h : (s.goodPred x n).isEmpty = false) :
    ∃ l ∈ x.parts, ∀ b ∈ s.badPreds x n, b.1 ≠ l := by
  obtain ⟨l, hl⟩ := List.exists_mem_of_ne_nil _ (List.isEmpty_eq_false_iff.1 h)
  obtain ⟨hp, hgood⟩ := mem_goodPred.1 hl
  refine ⟨l, hp, fun b hb he => ?_⟩
  have hbad := badPreds_bad hb
  rw [he, hgood] at hbad
  cases hbad

theorem iaddc_ends (f : Fields) (e : Fx) (he : predicateFx (.iaddc f) = some e) : e.Ends (.iaddc f) := by
  cases he
  refine ends_of_strand (body := iaddcBody) (fun _ => rfl) (fun x s h => ?_) fun g x s _ h => ?_
  · exact iaddcBody_ready (Bool.and_eq_true_iff.1 h).1
  · exact ⟨_, _, steady_popQueues .., steady_iaddcOut .., exists_unstranded (by simpa using (Bool.and_eq_true_iff.1 h).2)⟩

theorem sel_ends (f : Fields) (e : Fx) (he : predicateFx (.sel f) = some e) : e.Ends (.sel f) := by
  cases he
  refine ends_of_strand (body := selBody) (fun _ => rfl) (fun x s h => ?_) fun g x s _ h => ?_
  · simp [selBody, (Bool.and_eq_true_iff.1 h).1]
  · exact ⟨_, _, steady_popQueues .., steady_writeDst .., exists_unstranded (by simpa using (Bool.and_eq_true_iff.1 h).2)⟩

theorem vote_ends (f : Fields) (e : Fx) (he : predicateFx (.vote f) = some e) : e.Ends (.vote f) := by
  cases he
  refine ends_of_strand (body := voteBody) (fun _ => rfl) (fun _ _ _ => rfl) fun g x s _ h => ?_
  exact ⟨_, _, Steady.refl .., steady_voteOut .., exists_unstranded (by simpa using h)⟩

/-- Settles O3: the effect of each is steady, but for the lanes that IADDC, SEL and VOTE strand, which leave a participant. -/
theorem predicateInstructionsComplete : Obligations.PredicateInstructionsComplete := by
  intro i e h
  have hrow := h
  unfold predicateFx at h
  split at h
  · exact iaddc_ends _ e hrow
  · cases h; exact ends_when_ready (fun _ => rfl) fun _ _ _ => st_predOut _ _ _ _ (Steady.refl ..)
  · cases h; exact ends_when_ready (fun _ => rfl) fun _ _ _ => st_predOut _ _ _ _ (Steady.refl ..)
  · exact sel_ends _ e hrow
  · cases h; exact ends_when_ready (fun _ => rfl) fun _ _ _ => st_plogOut _ _ (Steady.refl ..)
  · cases h; exact ends_when_ready (fun _ => rfl) fun _ _ _ => st_predOut _ _ _ _ (Steady.refl ..)
  · cases h; exact ends_when_ready (fun _ => rfl) fun _ _ _ => st_predOut _ _ _ _ (Steady.refl ..)
  · exact vote_ends _ e hrow
  · cases h; exact ends_when_ready (fun _ => rfl) fun _ _ _ => st_feqOut _ _ (Steady.refl ..)
  · cases h; exact ends_when_ready (fun _ => rfl) fun _ _ _ => st_pchkOut _ _ (Steady.refl ..)
  · cases h

/-- Settles O4: the effect of every move and of every instruction across lanes is steady. -/
theorem moveInstructionsComplete : Obligations.MoveInstructionsComplete := by
  intro i e h
  unfold moveFx at h
  split at h <;> cases h
  · exact ends_when_ready (fun _ => rfl) fun _ _ _ => st_movOut _ _ (Steady.refl ..)
  · exact ends_when_ready (fun _ => rfl) fun _ _ _ => st_moviOut _ _ (Steady.refl ..)
  · exact ends_when_ready (fun _ => rfl) fun _ _ _ => st_movsOut _ _ (Steady.refl ..)
  · exact ends_when_ready (fun _ => rfl) fun _ _ _ => st_movwOut _ _ (Steady.refl ..)
  · exact ends_when_ready (fun _ => rfl) fun _ _ _ => st_vtosOut _ _ (Steady.refl ..)
  · exact ends_when_ready (fun _ => rfl) fun _ _ _ => st_viewOut _ _ (Steady.refl ..)
  · exact ends_when_ready (fun _ => rfl) fun _ _ _ => st_chainOut _ _ _ _ (Steady.refl ..)
  · exact ends_when_ready (fun _ => rfl) fun _ _ _ => st_chainOut _ _ _ _ (Steady.refl ..)
  · exact ends_when_ready (fun _ => rfl) fun _ _ _ => st_lredOut _ _ (Steady.refl ..)
  · exact ends_when_ready (fun _ => rfl) fun _ _ _ => st_lscanOut _ _ (Steady.refl ..)
  · exact ends_when_ready (fun _ => rfl) fun _ _ _ => st_copyLane _ _ _ (Steady.refl ..)

/-! Jumps to targets in registers (R99). -/

theorem jumpBody_ready {x : Ex} {s : State} (h : s.ready x { b := false, c := false } = true) (hf : (jumpFail x s).isNone = true) :
    jumpBody x s = .ok (jumpOut x s) (jumpTargets x s) := by
  simp [jumpBody, h, Option.isNone_iff_eq_none.1 hf]

theorem mem_jumpReads {x : Ex} {s : State} {r : Nat × List Val} (h : r ∈ jumpReads x s) :
    r.1 ∈ x.parts ∧ r.2 = (s.srcA x r.1).map fun v => checkWord v (pairVal (s.srcA x r.1)) := by
  obtain ⟨l, hl, rfl⟩ := List.mem_map.1 h
  exact ⟨hl, rfl⟩

/-- Where some participant has a target, that participant does not strand. -/
theorem jump_unstranded {x : Ex} {s : State} (h : (jumpTargets x s).isEmpty = false) (tbl : Val → Word) :
    ∃ l ∈ x.parts, ∀ b ∈ ((jumpReads x s).filterMap fun r => (firstBad r.2).map fun v => (r.1, v)).map fun e => (e.1, tbl e.2), b.1 ≠ l := by
  obtain ⟨j, hj⟩ := List.exists_mem_of_ne_nil _ (List.isEmpty_eq_false_iff.1 h)
  obtain ⟨r, hr, -⟩ := List.mem_map.1 hj
  obtain ⟨hr, hgood⟩ := List.mem_filter.1 hr
  refine ⟨r.1, (mem_jumpReads hr).1, fun b hb he => ?_⟩
  obtain ⟨e, hmem, rfl⟩ := List.mem_map.1 hb
  obtain ⟨r', hr', hv⟩ := List.mem_filterMap.1 hmem
  obtain ⟨v, hbad, rfl⟩ := Option.map_eq_some_iff.1 hv
  have hsame : r'.2 = r.2 := by
    rw [(mem_jumpReads hr').2, (mem_jumpReads hr).2]
    exact congrArg (fun l => (s.srcA x l).map fun v => checkWord v (pairVal (s.srcA x l))) he
  rw [hsame, Option.isNone_iff_eq_none.1 hgood] at hbad
  cases hbad

/-- JMX and RET complete where some lane has a target, and none is misaligned or too high. -/
theorem jump_ends {i : Instr} {op : Nat} {f : Fields} (hexec : ∀ s, exec i s = runInstr op f jumpBody s) :
    Fx.Ends { op := op, f := f, out := jumpOut, jumps := jumpTargets
              ready := fun x s => s.ready x { b := false, c := false } && (jumpFail x s).isNone && !(jumpTargets x s).isEmpty } i := by
  refine ends_of_strand (body := jumpBody) hexec (fun x s h => ?_) fun g x s _ h => ?_
  · simp only [Bool.and_eq_true] at h
    exact jumpBody_ready h.1.1 h.1.2
  · simp only [Bool.and_eq_true, Bool.not_eq_true'] at h
    exact ⟨_, _, steady_makePoison .., Steady.refl .., jump_unstranded h.2 fun v => (v.word _).val⟩

/-- Settles O5: the effect of each is steady, but for the lanes that JMX and RET strand, which leave a participant. -/
theorem controlInstructionsComplete : Obligations.ControlInstructionsComplete := by
  intro i e h
  unfold controlFx at h
  split at h <;> cases h
  · exact ends_when_ready (fun _ => rfl) fun _ _ _ => Steady.refl ..
  · exact ends_when_ready (fun _ => rfl) fun _ _ _ => Steady.refl ..
  · refine ends_of_steady (body := bruBody) (fun _ => rfl) (fun x s h => ?_) fun _ _ _ => Steady.refl ..
    obtain ⟨hr, hv⟩ := Bool.and_eq_true_iff.1 h
    exact bruBody_ready hr hv
  · exact jump_ends fun _ => rfl
  · exact ends_when_ready (fun _ => rfl) fun _ _ _ => st_callOut _ _ (Steady.refl ..)
  · exact jump_ends fun _ => rfl
  · exact ends_when_ready (fun _ => rfl) fun _ _ _ => st_fyldOut _ _ (Steady.refl ..)
  · exact ends_when_ready (fun _ => rfl) fun _ _ _ => st_fstartOut _ _ (Steady.refl ..)
  · refine ends_of_steady (body := loopBody) (fun _ => rfl) (fun x s h => ?_) fun _ _ _ => st_loopOut _ _ _ (Steady.refl ..)
    obtain ⟨hr, hv⟩ := Bool.and_eq_true_iff.1 h
    exact loopBody_ready hr hv

/-! Stores held in an open region, whose quarantine has room (R394). -/

/-- A store that waits, and freezes where its region's quarantine is full, takes effect where neither is so. -/
theorem store_ends {i : Instr} {op : Nat} {f : Fields} {walks : Bool} {ready full : Ex → State → Bool} {out : Ex → State → State}
    (hexec : ∀ s, exec i s = runInstr op f (fun x s => if !ready x s then .wait else if full x s then .freeze cOVERFLOW else .ok (out x s) []) s)
    (hout : ∀ g x s, Steady walks g s (out x s)) :
    Fx.Ends { op := op, f := f, walks := walks, ready := fun x s => ready x s && !full x s, out := out } i := by
  refine ends_of_steady hexec (fun x s h => ?_) hout
  obtain ⟨hr, hq⟩ := Bool.and_eq_true_iff.1 h
  rw [Bool.not_eq_true'] at hq
  simp [hr, hq]

/-- Settles O6: the effect of every memory instruction is steady, though it may ask for walks, which the statement takes to have ended. -/
theorem memoryInstructionsComplete : Obligations.MemoryInstructionsComplete := by
  intro i e h
  unfold memoryFx at h
  split at h <;> cases h
  · exact ends_when_ready (fun _ => rfl) fun _ _ _ => st_ipfOut _ _ (Steady.refl ..)
  · exact ends_when_ready (fun _ => rfl) fun _ _ _ => st_ipinOut _ _ (Steady.refl ..)
  · exact ends_when_ready (fun _ => rfl) fun _ _ _ => st_iunpOut _ _ (Steady.refl ..)
  · exact ends_when_ready (fun _ => rfl) fun _ _ _ => st_loadOut _ _ _ (Steady.refl ..)
  · exact store_ends (fun _ => rfl) fun _ _ _ => st_storeOut _ _ _ (Steady.refl ..)
  · exact ends_when_ready (fun _ => rfl) fun _ _ _ => st_ldsOut _ _ (Steady.refl ..)
  · exact store_ends (fun _ => rfl) fun _ _ _ => st_stsOut _ _ (Steady.refl ..)
  · exact ends_when_ready (fun _ => rfl) fun _ _ _ => st_loadOut _ _ _ (Steady.refl ..)
  · exact store_ends (fun _ => rfl) fun _ _ _ => st_storeOut _ _ _ (Steady.refl ..)
  · exact ends_when_ready (fun _ => rfl) fun _ _ _ => st_ldfeOut _ _ (Steady.refl ..)
  · exact store_ends (full := fun x s => !(stfeBads x s).isEmpty && quarFull x s) (fun _ => rfl) fun _ _ _ => st_stfeOut _ _ (Steady.refl ..)
  · exact ends_when_ready (fun _ => rfl) fun _ _ _ => st_pftOut _ _ (Steady.refl ..)
  · exact ends_when_ready (fun _ => rfl) fun _ _ _ => st_pfcOut _ _ (Steady.refl ..)
  · exact ends_when_ready (fun _ => rfl) fun _ _ _ => st_cctlOut _ _ (Steady.refl ..)
  · exact ends_when_ready (fun _ => rfl) fun _ _ _ => st_atomOut _ _ _ _ (Steady.refl ..)
  · exact ends_when_ready (fun _ => rfl) fun _ _ _ => st_atomOut _ _ _ _ (Steady.refl ..)
  · exact ends_when_ready (fun _ => rfl) fun _ _ _ => st_atomOut _ _ _ _ (Steady.refl ..)
  · exact ends_when_ready (fun _ => rfl) fun _ _ _ => st_atomOut _ _ _ _ (Steady.refl ..)
  · exact ends_when_ready (fun _ => rfl) fun _ _ _ => st_fenceOut _ _ _ _ (Steady.refl ..)
  · exact ends_when_ready (fun _ => rfl) fun _ _ _ => st_fenceOut _ _ _ _ (Steady.refl ..)
  · exact ends_when_ready (fun _ => rfl) fun _ _ _ => st_fenceOut _ _ _ _ (Steady.refl ..)
  · exact ends_when_ready (fun _ => rfl) fun _ _ _ => st_waitcOut _ _ (Steady.refl ..)
  · exact ends_when_ready (fun _ => rfl) fun _ _ _ => st_sigcOut _ _ (Steady.refl ..)
  · exact ends_when_ready (fun _ => rfl) fun _ _ _ => st_codeFence _ _ (Steady.refl ..)

end Sys2Proof.Machine
end

section
open Sys2Proof Sys2Proof.Machine Sys2Proof.Claims
namespace Sys2Proof.Machine

/-! Steps of the slots, of accesses that come back and of barriers (R123, R178, R201, R263, R280). -/

theorem loadDataReturn_happens (id : Nat) (lanes : Word) (e : Ev) (he : issueEvent (.loadDataReturn id lanes) = some e) :
    e.Happens (.loadDataReturn id lanes) := by
  obtain rfl := Option.some.inj he
  refine happens_of_run (r := loadDataReturn id lanes) (fun _ => rfl) fun s t ht => ?_
  obtain ⟨p, hp, ht⟩ := Option.bind_eq_some_iff.1 ht
  obtain ⟨hkind, rfl⟩ := given_eq_some.1 ht
  unfold loadDataReturn
  rw [hp]
  exact if_neg (by simpa using hkind)

theorem parkedAccessPerform_happens (n : Nat) (e : Ev) (he : issueEvent (.parkedAccessPerform n) = some e) : e.Happens (.parkedAccessPerform n) := by
  obtain rfl := Option.some.inj he
  refine happens_of_run (r := parkedAccessPerform n) (fun _ => rfl) fun s t ht => ?_
  obtain ⟨p, hp, ht⟩ := Option.bind_eq_some_iff.1 ht
  obtain ⟨hcan, rfl⟩ := given_eq_some.1 ht
  unfold parkedAccessPerform
  rw [hp]
  dsimp only
  rw [hcan, if_neg (by decide)]
  split <;> rfl

/-- A slot without a current fibre takes the first that may be ready; one whose fibre has gone or waits passes to the next (R178). -/
theorem slotSwitch_happens (g w : Nat) (e : Ev) (he : issueEvent (.slotSwitch g w) = some e) : e.Happens (.slotSwitch g w) := by
  obtain rfl := Option.some.inj he
  refine happens_of_run (r := slotSwitch g w) (fun _ => rfl) fun s t ht => ?_
  unfold slotSwitch
  cases hcur : (s.warpAt g w).cur with
  | none =>
    rw [hcur] at ht
    obtain ⟨k, hk, rfl⟩ := Option.map_eq_some_iff.1 ht
    dsimp only
    rw [hk]
  | some f =>
    rw [hcur] at ht
    dsimp only at ht ⊢
    split at ht
    · cases ht
    · next hready =>
      rw [if_neg hready]
      split at ht
      · next hgone => rw [if_pos hgone]; exact Option.some.inj ht
      · next hgone =>
        rw [if_neg hgone]
        split at ht
        · next hwaits =>
          obtain ⟨k, hk, rfl⟩ := Option.map_eq_some_iff.1 ht
          rw [hwaits, if_neg (by decide), hk]
        · cases ht

theorem forcedSwitch_happens (g w : Nat) (e : Ev) (he : issueEvent (.forcedSwitch g w) = some e) : e.Happens (.forcedSwitch g w) := by
  obtain rfl := Option.some.inj he
  refine happens_of_run (r := forcedSwitch g w) (fun _ => rfl) fun s t ht => ?_
  obtain ⟨f, hcur, ht⟩ := Option.bind_eq_some_iff.1 ht
  obtain ⟨k, hnext, ht⟩ := Option.bind_eq_some_iff.1 ht
  obtain ⟨hready, rfl⟩ := given_eq_some.1 ht
  unfold forcedSwitch
  rw [hcur]
  dsimp only
  rw [if_neg (by simpa using hready), hnext]

theorem siblingHandover_happens (g w : Nat) (e : Ev) (he : issueEvent (.siblingHandover g w) = some e) : e.Happens (.siblingHandover g w) := by
  obtain rfl := Option.some.inj he
  refine happens_of_run (r := siblingHandover g w) (fun _ => rfl) fun s t ht => ?_
  obtain ⟨f, hcur, ht⟩ := Option.bind_eq_some_iff.1 ht
  obtain ⟨k, hlong, rfl⟩ := Option.map_eq_some_iff.1 ht
  unfold siblingHandover
  rw [hcur]
  dsimp only
  rw [hlong]

theorem barrierRepeatCompletion_happens (g n : Nat) (e : Ev) (he : issueEvent (.barrierRepeatCompletion g n) = some e) :
    e.Happens (.barrierRepeatCompletion g n) := by
  obtain rfl := Option.some.inj he
  refine happens_of_run (r := barrierRepeatCompletion g n) (fun _ => rfl) fun s t ht => ?_
  obtain ⟨hdue, rfl⟩ := given_eq_some.1 ht
  exact if_pos hdue

theorem ucwAcknowledge_happens (n : Nat) (e : Ev) (he : issueEvent (.ucwAcknowledge n) = some e) : e.Happens (.ucwAcknowledge n) := by
  obtain rfl := Option.some.inj he
  refine happens_of_run (r := ucwAcknowledge n) (fun _ => rfl) fun s t ht => ?_
  obtain ⟨hdone, rfl⟩ := given_eq_some.1 ht
  exact if_pos hdone

/-- Settles O19, one lemma for each step. -/
theorem issueEventsHappen : Obligations.IssueEventsHappen := by
  intro i e he
  cases i with
  | loadDataReturn id lanes => exact loadDataReturn_happens id lanes e he
  | parkedAccessPerform n => exact parkedAccessPerform_happens n e he
  | slotSwitch g w => exact slotSwitch_happens g w e he
  | forcedSwitch g w => exact forcedSwitch_happens g w e he
  | siblingHandover g w => exact siblingHandover_happens g w e he
  | barrierRepeatCompletion g n => exact barrierRepeatCompletion_happens g n e he
  | ucwAcknowledge n => exact ucwAcknowledge_happens n e he
  | _ => cases he

end Sys2Proof.Machine
end

section
open Sys2Proof Sys2Proof.Machine Sys2Proof.Claims
namespace Sys2Proof.Machine

/-! Errors of control flow and of the window (R26, R99 to R101, R168). -/

/-- A path that can issue freezes where its instruction's body does. -/
theorem runInstr_freezes {op : Nat} {f : Fields} {body : Ex → State → Out} {s : State} {p : Path} {q : Option Path} {c : Nat} (h : Issuing s p q op f)
    (hb : body (s.exOf p op f) (s.start p f) = .freeze c) : runInstr op f body s = .next ((s.settle p.g p.w p.f).freezePath p c) := by
  have hparts : (s.exOf p op f).parts.isEmpty = false := List.isEmpty_eq_false_iff.2 h.parts
  have hw := h.window
  have hfree := h.free
  unfold State.start at hb
  simp [runInstr, h.turn, runPath, hw, hfree, hparts, hb]

/-- An instruction that names a register outside the window freezes its fibre, whatever it does. -/
theorem runInstr_windowed {op : Nat} {f : Fields} {body : Ex → State → Out} {s : State} {p : Path} {q : Option Path} (ht : s.turn = .issue p q)
    (hw : windowOk (s.pathFibre p) op (s.exOf p op f).k f = false) : runInstr op f body s = .next (s.freezePath p cILLEGAL) := by
  simp [runInstr, ht, runPath, hw]

theorem tested_poison {w : RegWord} (h : w.poison = true) : tested (.ok w) = .inr (causeOf w.val) := by simp [tested, h]
theorem tested_good {w : RegWord} (h : w.poison = false) : tested (.ok w) = .inl w.val := by simp [tested, h]

/-- A BRU with a source tests the word it reads. -/
theorem bruVal_source {x : Ex} {s : State} (hb : x.f.b ≠ 0xF8) : bruVal x s = tested (s.readCode x x.f.b 0 x.low) :=
  if_neg (by simpa using hb)

theorem bruBody_poison {x : Ex} {s : State} {w : RegWord} (hb : x.f.b ≠ 0xF8) (hr : bruReady x s = true)
    (hc : s.readCode x x.f.b 0 x.low = .ok w) (hw : w.poison = true) : bruBody x s = .freeze (causeOf w.val) := by
  simp [bruBody, hr, bruVal_source hb, hc, tested_poison hw]

theorem loopBody_poison {x : Ex} {s : State} {w : RegWord} (hr : s.posReady x x.k.d x.f.d false = true)
    (hc : s.readCode x x.f.d 0 x.low = .ok w) (hw : w.poison = true) : loopBody x s = .freeze (causeOf w.val) := by
  simp [loopBody, hr, hc, tested_poison hw]

/-- A misaligned target comes first among what JMX and RET find (log 16). -/
theorem jumpBody_misaligned {x : Ex} {s : State} (hr : s.ready x { b := false, c := false } = true)
    (ht : ∃ r ∈ jumpTargets x s, r.2.extractLsb' 0 2 ≠ 0) : jumpBody x s = .freeze cMISALIGN := by
  have hfail : jumpFail x s = some cMISALIGN := if_pos (List.any_eq_true.2 (by simpa using ht))
  simp [jumpBody, hr, hfail]

/-- Settles O38: the bodies freeze on what the statement names, and the window is tested before any body. -/
theorem controlErrorsFreeze : Obligations.ControlErrorsFreeze := by
  refine ⟨fun s p q f w h hb => ?bru, fun s p q f w h => ?loop, fun s p q f h => ?jmx, fun s p q f h => ?ret, fun i a hi s p q ht hw => ?window⟩
  case bru => exact fun hr hc hw => runInstr_freezes (body := bruBody) h (bruBody_poison hb hr hc hw)
  case loop => exact fun hr hc hw => runInstr_freezes (body := loopBody) h (loopBody_poison hr hc hw)
  case jmx => exact fun hr ht => runInstr_freezes (body := jumpBody) h (jumpBody_misaligned hr ht)
  case ret => exact fun hr ht => runInstr_freezes (body := jumpBody) h (jumpBody_misaligned hr ht)
  case window => exact (exec_alu hi s).trans (runInstr_windowed ht hw)

/-! BRU (R100). -/

/-- A legal BRU names no source, or a uniform register. -/
theorem bru_source_uniform {f : Fields} (h : (Instr.bru f).wellFormed = true) : f.b = 0xF8 ∨ (0xC0 ≤ f.b.toNat ∧ f.b.toNat < 0xF0) := by
  rw [wellFormed_of_fields? (op := 0x02) (f := f) rfl] at h
  have hlegal : legal 0x02 f = true := (Bool.and_eq_true_iff.1 h).2
  simp only [legal, opSpec, OpSpec.ok, Bool.and_eq_true] at hlegal
  obtain ⟨⟨⟨⟨⟨⟨-, hb⟩, -⟩, -⟩, -⟩, -⟩, -⟩ := hlegal
  unfold Cls.ok Cls.uniZ at hb
  dsimp only at hb
  by_cases h8 : f.b.toNat = 0xF8
  · exact .inl (BitVec.eq_of_toNat_eq h8)
  · right
    split at hb <;> simp_all <;> omega

/-- Where participants go that are sent to one target. -/
theorem nextPc_allTo {x : Ex} {t : DWord} {l : Nat} (h : l ∈ x.parts) : nextPc x (allTo x t) l = pcOf t := by
  have hfind : (allTo x t).find? (fun j => j.1 == l) = some (l, t) := by
    unfold allTo
    rw [List.find?_map]
    have hfound : (x.parts.find? ((fun j : Nat × DWord => j.1 == l) ∘ fun l => (l, t))).isSome = true := List.find?_isSome.2 ⟨l, h, by simp⟩
    obtain ⟨m, hm⟩ := Option.isSome_iff_exists.1 hfound
    have hml : m = l := by simpa using List.find?_some hm
    rw [hm, hml]
    rfl
  unfold nextPc
  rw [hfind]

theorem nextPc_bruJumps {x : Ex} {v : Word} {l : Nat} (h : l ∈ x.parts) :
    nextPc x (bruJumps x v) l = if (v != 0) != x.f.sub.getLsbD 0 then pcOf (branchTarget x) else nextPc x [] l := by
  unfold bruJumps
  split
  · exact nextPc_allTo h
  · rfl

/-- A BRU that tests `v` completes, and moves each participant to its target or on. -/
theorem bru_goes {s : State} {p : Path} {q : Option Path} {f : Fields} {v : Word} (h : Issuing s p q 0x02 f)
    (hr : bruReady (s.exOf p 0x02 f) (s.start p f) = true) (hv : bruVal (s.exOf p 0x02 f) (s.start p f) = .inl v) :
    ∃ t, exec (.bru f) s = .next t ∧ Agree t (s.start p f) ∧ ∀ l ∈ (s.exOf p 0x02 f).parts, (t.laneAt p.g p.w p.f l).pc =
      if (v != 0) != f.sub.getLsbD 0 then pcOf (branchTarget (s.exOf p 0x02 f)) else nextPc (s.exOf p 0x02 f) [] l := by
  obtain ⟨t, ht, hagree, hlanes⟩ := controlInstructionsComplete (.bru f) _ rfl s p q h (by simp [hr, hv]) (fun hw => nomatch hw)
  refine ⟨t, ht, hagree, fun l hl => ?_⟩
  refine (hlanes l (mem_partsOf.1 hl).1 (active_start s p q 0x02 f h l hl)).2.trans ?_
  dsimp only
  rw [hv]
  exact nextPc_bruJumps hl

/-- Where an access processor's BRU sends it. -/
theorem apJump_bruJumps (s : State) (g n : Nat) (f : Fields) (v : Word) :
    ((bruJumps (apEx s g n 0x02 f) v).head?.map (·.2)).getD (apEx s g n 0x02 f).next =
      if (v != 0) != f.sub.getLsbD 0 then branchTarget (apEx s g n 0x02 f) else (apEx s g n 0x02 f).next := by
  unfold bruJumps
  split
  · next h => exact (if_pos h).symm
  · next h => exact (if_neg h).symm

/-- An access processor's BRU that tests `v` moves it to the target or on. -/
theorem bru_goes_access {s : State} {g n : Nat} {f : Fields} {v : Word} (ht : s.turn = .access g n)
    (hw : s.walksOut g (s.apAt g n).ownerW (4 + n) (s.apAt g n).spc = false) (hr : bruReady (apEx s g n 0x02 f) s = true)
    (hv : bruVal (apEx s g n 0x02 f) s = .inl v) :
    exec (.bru f) s = .next { ((s.walksUsed g (s.apAt g n).ownerW (4 + n) (s.apAt g n).spc).modAp g n (fun a => if a.st == .running then
      { a with spc := if (v != 0) != f.sub.getLsbD 0 then branchTarget (apEx s g n 0x02 f) else (apEx s g n 0x02 f).next } else a)).wake with turn := .choose } := by
  have hb : bruBody (apEx s g n 0x02 f) s = .ok s (bruJumps (apEx s g n 0x02 f) v) := by simp [bruBody, hr, hv]
  refine (runInstr_access (body := bruBody) ht hb rfl hw).trans ?_
  unfold apRetire
  rw [apJump_bruJumps]
  rfl

/-- An access processor stops where its instruction's body freezes. -/
theorem runInstr_access_stops {op : Nat} {f : Fields} {body : Ex → State → Out} {s : State} {g n c : Nat} (ht : s.turn = .access g n)
    (hb : body (apEx s g n op f) s = .freeze c) : runInstr op f body s = .next { s.stopAp g n with turn := .choose } := by
  unfold runInstr
  rw [ht]
  dsimp only
  unfold runAccess
  dsimp only
  split
  · next heq => cases hb.symm.trans heq
  · next heq => cases hb.symm.trans heq
  · rfl
  · next heq => cases hb.symm.trans heq

/-- A BRU with no source is ready, and tests what sends it to its target. -/
theorem bruVal_none {x : Ex} {s : State} (hb : x.f.b = 0xF8) : bruReady x s = true ∧
    bruVal x s = .inl (if x.f.sub.getLsbD 0 then 0 else 1) := by
  simp [bruReady, bruVal, hb]

theorem bru_none_taken (b : Bool) : (((if b then 0 else 1 : Word) != 0) != b) = true := by
  cases b <;> decide

/-- Settles O39: what a BRU tests is `bruVal`, and its jumps are all its participants' or none's. -/
theorem branchOnUniform : Obligations.BranchOnUniform := by
  refine ⟨fun f => bru_source_uniform, fun s p q f h => ⟨fun hb => ?_, fun hb hr w hc => ⟨fun hw => ?_, fun hw => ?_⟩⟩,
    fun s g n f ht hout => ⟨fun hb => ?_, fun hb hr w hc => ⟨fun hw => ?_, fun hw => ?_⟩⟩⟩
  · obtain ⟨hr, hv⟩ := bruVal_none (x := s.exOf p 0x02 f) (s := s.start p f) hb
    have hgo := bru_goes h hr hv
    rwa [show (s.exOf p 0x02 f).f = f from rfl, bru_none_taken] at hgo
  · exact bru_goes h hr ((bruVal_source hb).trans (by rw [show (s.exOf p 0x02 f).f = f from rfl, hc, tested_good hw]))
  · exact runInstr_freezes (body := bruBody) h (bruBody_poison hb hr hc hw)
  · obtain ⟨hr, hv⟩ := bruVal_none (x := apEx s g n 0x02 f) (s := s) hb
    have hgo := bru_goes_access ht hout hr hv
    rwa [show (apEx s g n 0x02 f).f = f from rfl, bru_none_taken] at hgo
  · exact bru_goes_access ht hout hr ((bruVal_source hb).trans ((congrArg tested hc).trans (tested_good hw)))
  · exact runInstr_access_stops (body := bruBody) ht (bruBody_poison hb hr hc hw)

end Sys2Proof.Machine
end

section
open Sys2Proof Sys2Proof.Machine Sys2Proof.Claims
namespace Sys2Proof.Machine

/-! An execution that takes effect ends in one way (R28, R201, R203). -/

/-- A path whose instruction takes effect ends its execution, where the effect leaves the cycle in time and no walk outstanding. -/
theorem runInstr_retires {op : Nat} {f : Fields} {body : Ex → State → Out} {s u : State} {p : Path} {q : Option Path} {js : List (Nat × DWord)}
    (h : Issuing s p q op f) (hb : body (s.exOf p op f) (s.start p f) = .ok u js) (hl : u.late = none)
    (hk : u.walksOut p.g p.w p.f p.pc = false) :
    runInstr op f body s = .next ((u.noted (s.exOf p op f)).retire (s.settle p.g p.w p.f) p q (s.exOf p op f).next js) := by
  have hlate : (u.noted (s.exOf p op f)).lateUnit (s.exOf p op f) = none := by
    unfold State.lateUnit
    split
    · rfl
    · rw [noted_late, hl]
  have hparts : (s.exOf p op f).parts.isEmpty = false := List.isEmpty_eq_false_iff.2 h.parts
  have hw := h.window
  have hfree := h.free
  unfold State.start at hb
  unfold State.noted at hlate
  simp only [runInstr, h.turn, runPath, hw, hfree, hb, hparts, State.lateMarks, hk]
  dsimp only [State.exOf] at hlate ⊢
  rw [hlate]
  rfl

/-- A change that neither makes the cycle late nor asks for a walk. -/
def Calm (s u : State) : Prop := u.late = s.late ∧ u.walking = s.walking

theorem Calm.refl (s : State) : Calm s s := ⟨rfl, rfl⟩

theorem Calm.trans {s t u : State} (h : Calm s t) (k : Calm t u) : Calm s u := ⟨k.1.trans h.1, k.2.trans h.2⟩

theorem Steady.calm {g : Nat} {s u : State} (h : Steady false g s u) : Calm s u := ⟨h.late, h.walking rfl⟩

theorem calm_modFibre (s : State) (g w f : Nat) (k : Fibre → Fibre) : Calm s (s.modFibre g w f k) := ⟨modFibre_late .., modFibre_walking ..⟩
theorem calm_modLane (s : State) (g w f l : Nat) (k : Lane → Lane) : Calm s (s.modLane g w f l k) := ⟨modLane_late .., modLane_walking ..⟩
theorem calm_barOp (s : State) (g : Nat) (o : BarOp) : Calm s (s.barOp g o) := ⟨barOp_late .., barOp_walking ..⟩

theorem calm_leave (s : State) (g : Nat) (ms : List Member) : Calm s (s.leave g ms) := by
  unfold State.leave
  split
  · exact Calm.refl s
  · exact calm_barOp ..

theorem calm_foldl {α : Type} {k : State → α → State} (hk : ∀ s a, Calm s (k s a)) (ls : List α) (s : State) : Calm s (ls.foldl k s) :=
  List.foldlRecOn (motive := Calm s) ls k (Calm.refl s) fun _ h a _ => h.trans (hk _ a)

theorem calm_strand (s : State) (p : Path) (ls : List (Nat × Word)) : Calm s (s.strand p ls) := calm_foldl (fun _ _ => calm_modLane ..) ls s

theorem calm_strandVals (s : State) (x : Ex) (made bads : List (Nat × Val)) : Calm s (s.strandVals x made bads) :=
  (steady_makePoison (m := false) (g := 0) ..).calm.trans (calm_strand ..)

theorem calm_irrev (s : State) (x : Ex) : Calm s (s.irrev x) := (steady_irrev (m := false) 0 s x).calm

/-- An instruction whose body takes effect once it can issue, and whose effect is calm, ends its execution. -/
theorem retires_of_calm {i : Instr} {e : Fx} {body : Ex → State → Out} (hexec : ∀ s, exec i s = runInstr e.op e.f body s)
    (hbody : ∀ x s, e.ready x s = true → body x s = .ok (e.out x s) (e.jumps x s)) (hout : ∀ x s, Calm s (e.out x s)) : e.Retires i := by
  intro s p q h hr
  obtain ⟨hlate, hwalks⟩ := hout (s.exOf p e.op e.f) (s.start p e.f)
  refine (hexec s).trans (runInstr_retires h (hbody _ _ hr) (hlate.trans ((start_late s p e.f h.placed).trans h.late)) ?_)
  exact (walksOut_of hwalks ..).trans (start_unwalked s p q e.op e.f h)

/-- The same for an instruction that only waits until it can issue. -/
theorem retires_when_ready {i : Instr} {e : Fx} (hexec : ∀ s, exec i s = runInstr e.op e.f (waitBody e) s) (hout : ∀ x s, Calm s (e.out x s)) :
    e.Retires i :=
  retires_of_calm hexec (fun _ _ => waitBody_ready) hout

/-! Exits, barriers, service calls and postings (R102, R200 to R203, R477, R490). -/

theorem calm_exitOut (x : Ex) (s : State) : Calm s (exitOut x s) := (calm_modFibre ..).trans (calm_leave ..)

theorem calm_bariOut (x : Ex) (s : State) : Calm s (bariOut x s) := by
  have hbad : ∀ v, Calm (s.irrev x) ((s.irrev x).countBad x.p.g x.p.w x.p.f 0 x.p.pc [(wholeUnit, v)]) :=
    fun _ => (steady_countBad (m := false) (g := 0) ..).calm
  refine (calm_irrev s x).trans ?_
  unfold bariOut
  dsimp only
  split
  · exact hbad _
  · split
    · split
      · exact hbad _
      · exact calm_barOp ..
    · exact hbad _

theorem calm_arriveOut (drop : Bool) (x : Ex) (s : State) : Calm s (arriveOut drop x s) := by
  refine (calm_irrev s x).trans ?_
  unfold arriveOut
  dsimp only
  split
  · exact (steady_writeDst (m := false) (g := 0) ..).calm
  · exact (st_laterDests (mm := false) (gg := 0) _ x (Steady.refl ..)).calm.trans (calm_barOp ..)

theorem calm_barwOut (x : Ex) (s : State) : Calm s (barwOut x s) := by
  unfold barwOut
  dsimp only
  by_cases harr : x.f.sub.getLsbD 0
  · rw [if_pos harr]
    refine (calm_irrev s x).trans ?_
    split
    · exact calm_strandVals ..
    · rw [if_pos harr]
      exact calm_barOp ..
  · rw [if_neg harr]
    split
    · exact calm_strandVals ..
    · rw [if_neg harr]
      refine (calm_foldl (fun t r => ?_) _ _).trans ((calm_strandVals ..).trans (calm_barOp ..))
      split
      · split
        · exact Calm.refl t
        · exact calm_modLane ..
      · exact Calm.refl t

theorem calm_syscOut (r : Sysc) (st : Word) (x : Ex) (s : State) : Calm s (syscOut r st x s) :=
  (st_syscOut (mm := false) (gg := 0) r st x s (Steady.refl ..)).calm

theorem calm_onceWrite (s : State) (x : Ex) (vs : List Val) : Calm s (s.onceWrite x vs) :=
  (st_onceWrite (mm := false) (gg := 0) s x vs (Steady.refl ..)).calm

theorem calm_xSeen (x : Ex) (s : State) : Calm s (xSeen x s) := (st_xSeen (mm := false) (gg := 0) x s (Steady.refl ..)).calm

theorem calm_takeScore (s : State) (core id : Nat) (c : Byte) (hard : Bool) (rs : List (Range × Bool)) : Calm s (s.takeScore core id c hard rs) :=
  (st_takeScore (mm := false) (gg := 0) s core id c hard rs (Steady.refl ..)).calm

/-- SYSC ends where it has its answer. -/
theorem sysc_retires (f : Fields) (e : Fx) (he : syncFx (.sysc f) = some e) : e.Retires (.sysc f) := by
  cases he
  refine retires_of_calm (body := syscBody) (fun _ => rfl) (fun x s h => ?_) fun x s => ?_
  · obtain ⟨hready, hanswer⟩ := Bool.and_eq_true_iff.1 h
    obtain ⟨st, hst⟩ := Option.isSome_iff_exists.1 hanswer
    obtain ⟨r, hr, hst⟩ := Option.bind_eq_some_iff.1 hst
    simp [syscBody, hready, hr, hst]
  · dsimp only
    split
    · exact calm_syscOut ..
    · exact Calm.refl s

/-- XPST ends where its descriptor passes its checks and its posting is possible, if posting is calm. -/
theorem xpst_retires {i : Instr} {k : XKind} {post : Ex → State → Word → List Byte → Option (Bool × State)} {f : Fields}
    (hexec : ∀ s, exec i s = runInstr 0xD3 f (xpstBody k post) s)
    (hpost : ∀ x s a d r, post x s a d = some r → Calm s r.2) : (postFx k post f).Retires i := by
  refine retires_of_calm (body := xpstBody k post) hexec (fun x s h => ?_) fun x s => ?_
  · obtain ⟨hready, hgo⟩ := Bool.and_eq_true_iff.1 h
    obtain ⟨r, hr⟩ := Option.isSome_iff_exists.1 hgo
    dsimp only at hr
    split at hr
    · next d hd =>
      split at hr
      · next hcheck => simp [xpstBody, postFx, hready, hd, Option.isNone_iff_eq_none.1 hcheck, hr]
      · cases hr
    · cases hr
  · dsimp only [postFx]
    split
    · next r hr =>
      split at hr
      · split at hr
        · exact (calm_xSeen x s).trans ((calm_irrev ..).trans ((hpost _ _ _ _ _ hr).trans (calm_onceWrite ..)))
        · cases hr
      · cases hr
    · exact Calm.refl s

theorem calm_postBuf (x : Ex) (s : State) (a : Word) (d : List Byte) (r : Bool × State) (h : postBuf x s a d = some r) : Calm s r.2 := by
  unfold postBuf at h
  dsimp only at h
  split at h
  · cases h; exact Calm.refl s
  · split at h
    · cases h
    · cases h; exact calm_takeScore ..

theorem calm_postNtf (x : Ex) (s : State) (a : Word) (d : List Byte) (r : Bool × State) (h : postNtf x s a d = some r) : Calm s r.2 := by
  unfold postNtf at h
  split at h <;> cases h <;> exact Calm.refl s

theorem calm_postUnb (x : Ex) (s : State) (a : Word) (d : List Byte) (r : Bool × State) (h : postUnb x s a d = some r) : Calm s r.2 := by
  unfold postUnb at h
  split at h
  · split at h <;> cases h <;> exact Calm.refl s
  · cases h; exact Calm.refl s

/-- Settles O14: each effect is calm, so that each execution ends in the one way there is. -/
theorem synchronisationInstructionsComplete : Obligations.SynchronisationInstructionsComplete := by
  intro i e h
  have hrow := h
  unfold syncFx at h
  split at h <;> cases h
  case h_8 => exact sysc_retires _ _ hrow
  · exact retires_when_ready (fun _ => rfl) calm_exitOut
  · exact retires_when_ready (fun _ => rfl) calm_bariOut
  · exact retires_when_ready (fun _ => rfl) (calm_arriveOut false)
  · exact retires_when_ready (fun _ => rfl) calm_barwOut
  · exact retires_when_ready (fun _ => rfl) (calm_arriveOut true)
  · exact retires_when_ready (fun _ => rfl) fun x s => (st_bartOut (mm := false) (gg := 0) x s (Steady.refl ..)).calm
  · exact retires_when_ready (fun _ => rfl) fun _ _ => calm_modFibre ..
  · exact xpst_retires (fun _ => rfl) calm_postBuf
  · exact xpst_retires (fun _ => rfl) calm_postNtf
  · exact xpst_retires (fun _ => rfl) calm_postUnb

end Sys2Proof.Machine
end

section
open Sys2Proof Sys2Proof.Machine Sys2Proof.Claims
namespace Sys2Proof.Machine

/-! How often a lane repeats its instruction (R28), and what the end of an execution leaves of that. -/

/-- The repeats that a fibre's lanes, and a warp's, stand in. -/
def Fibre.reps (y : Fibre) : List (Option (Pfx × Nat)) := y.lanes.map Lane.rep
def Warp.reps (x : Warp) : List (List (Option (Pfx × Nat))) := x.fibres.map Fibre.reps

theorem laneAt_rep {s t : State} {g w : Nat} (h : (s.warpAt g w).reps = (t.warpAt g w).reps) (f l : Nat) :
    (s.laneAt g w f l).rep = (t.laneAt g w f l).rep := by
  have hread : ∀ u : State, (u.laneAt g w f l).rep = ((u.warpAt g w).reps.getD f ({} : Fibre).reps).getD l ({} : Lane).rep := fun u => by
    rw [Warp.reps, getD_map_of, Fibre.reps, getD_map_of]
    rfl
  rw [hread, hread, h]

theorem reps_modWarp (s : State) (g w j v : Nat) {k : Warp → Warp} (hp : (s.group? g).isSome = true) (hk : ∀ x, (k x).reps = x.reps) :
    ((s.modWarp g w k).warpAt j v).reps = (s.warpAt j v).reps :=
  groupAt_modGroup_keeps (fun x => (x.warps.getD v {}).reps) s g j _ hp fun _ => getD_modAt_keeps Warp.reps k hk ..

theorem reps_modFibre (s : State) (g w f j v : Nat) {k : Fibre → Fibre} (hp : (s.group? g).isSome = true) (hk : ∀ y, (k y).reps = y.reps) :
    ((s.modFibre g w f k).warpAt j v).reps = (s.warpAt j v).reps :=
  reps_modWarp s g w j v hp fun _ => map_modAt _ _ _ _ hk

theorem mapLanes_reps (y : Fibre) {k : Lane → Lane} (hk : ∀ l, (k l).rep = l.rep) : (mapLanes y k).reps = y.reps := by
  simp [mapLanes, Fibre.reps, Function.comp_def, hk]

theorem mapFibres_reps (x : Warp) {k : Nat → Fibre → Fibre} (hk : ∀ i y, (k i y).reps = y.reps) : (mapFibres x k).reps = x.reps :=
  List.ext_getElem (by simp [mapFibres, Warp.reps]) fun _ _ _ => by simp [mapFibres, Warp.reps, hk]

/-- A lane that a fibre barrier lets go on keeps its repeat. -/
theorem mapLanes_release_reps (y : Fibre) (st : LaneState) : (mapLanes y fun l => if l.st == st then { l with st := .active } else l).reps = y.reps :=
  mapLanes_reps y fun l => by split <;> rfl

theorem fbarDone_reps (y : Fibre) : (fbarDone y).reps = y.reps := by
  unfold fbarDone
  dsimp only
  split
  · exact mapLanes_release_reps ..
  · rfl

theorem settleFbar_reps (s : State) (g w j v : Nat) (hp : (s.group? g).isSome = true) :
    ((s.settleFbar g w).warpAt j v).reps = (s.warpAt j v).reps := by
  refine reps_modWarp s g w j v hp fun x => ?_
  have hdone : (mapFibres x fun _ y => fbarDone y).reps = x.reps := mapFibres_reps x fun _ y => fbarDone_reps y
  dsimp only
  split
  · refine (mapFibres_reps _ fun _ y => ?_).trans hdone
    split
    · rfl
    · exact mapLanes_release_reps ..
  · exact hdone

theorem mapIdx_ageLane_reps (y : Fibre) (m : Word) : ({ y with lanes := y.lanes.mapIdx (ageLane m) } : Fibre).reps = y.reps :=
  List.ext_getElem (by simp [Fibre.reps]) fun _ _ _ => by
    simp only [Fibre.reps, List.getElem_map, List.getElem_mapIdx, ageLane]
    split <;> rfl

/-- The end of a cycle in which nothing waits at a barrier ages lanes and releases them, and no more. -/
theorem endCycle_reps (s : State) (p : Path) (hp : (s.group? p.g).isSome = true) (hq : (s.groupAt p.g).barOps = []) :
    ((s.endCycle p).warpAt p.g p.w).reps = (s.warpAt p.g p.w).reps := by
  have hrest : ∀ u : State, (u.group? p.g).isSome = true → (u.groupAt p.g).barOps = [] → ∀ late,
      (({ ((u.flush p.g).settleFbar p.g p.w).forgetTallies with perfRead := [], late := late } : State).warpAt p.g p.w).reps =
        (u.warpAt p.g p.w).reps := by
    intro u hu hb late
    rw [flush_quiet u p.g hb]
    obtain ⟨ts, h⟩ := forgetTallies_eq (u.settleFbar p.g p.w)
    rw [h]
    exact settleFbar_reps u p.g p.w p.g p.w hu
  unfold State.endCycle
  cases s.opp with
  | none => exact hrest s hp hq _
  | some o =>
    have hage := reps_modFibre s p.g p.w p.f p.g p.w hp fun y => mapIdx_ageLane_reps y o.issued
    dsimp only
    refine (hrest _ ?_ ?_ _).trans hage
    · exact (placed_modFibre s p.g p.w p.f p.g fun y => { y with lanes := y.lanes.mapIdx (ageLane o.issued) }).trans hp
    · exact (barOps_modFibre s p.g p.w p.f p.g _ hp).trans hq

/-- The repeat that a path's lane stands in after an execution that goes on in order. -/
def Path.nextRep (p : Path) : Option (Pfx × Nat) := p.rep.bind fun r => if r.2 < r.1.rep.toNat then some (r.1, r.2 + 1) else none

theorem moveLane_rep (p : Path) (n : DWord) {l : Lane} (h : l.st = .active) : (moveLane p n none l).rep = p.nextRep := by
  unfold moveLane Path.nextRep
  rw [h]
  cases p.rep with
  | none => rfl
  | some r =>
    simp only [Option.bind_some]
    split <;> rfl

/-- Moving the path's lanes moves each. -/
theorem laneAt_advance {s : State} {p : Path} (n : DWord) {l : Nat} (hp : (s.group? p.g).isSome = true) (hl : l ∈ lanesOf p.mask)
    (ha : (s.laneAt p.g p.w p.f l).st = .active) :
    (s.advance p n []).laneAt p.g p.w p.f l = moveLane p n none (s.laneAt p.g p.w p.f l) := by
  obtain ⟨hw, hf, hlane⟩ := exists_of_active s p.g p.w p.f l ha
  have hmask : p.mask.getLsbD l = true := (List.mem_filter.1 hl).2
  unfold State.advance State.laneAt
  rw [fibreAt_modFibre s p.g p.w p.f p.g p.w p.f _ hp hw hf, if_pos ⟨rfl, rfl, rfl⟩]
  refine (getD_mapIdx _ _ _ hlane).trans ?_
  rw [if_pos hmask]
  rfl

/-- An execution that goes on in order leaves each active lane of its path in the next repeat. -/
theorem retire_rep (x : Ex) (u b : State) (q : Option Path) {l : Nat} (hp : (u.group? x.p.g).isSome = true) (hq : (u.groupAt x.p.g).barOps = [])
    (hl : l ∈ lanesOf x.p.mask) (ha : (u.laneAt x.p.g x.p.w x.p.f l).st = .active) :
    ((u.retire b x.p q x.next []).laneAt x.p.g x.p.w x.p.f l).rep = x.p.nextRep := by
  have hmoved := laneAt_advance x.next hp hl ha
  have hrep : ((u.advance x.p x.next []).laneAt x.p.g x.p.w x.p.f l).rep = x.p.nextRep := by rw [hmoved, moveLane_rep _ _ ha]
  have hpv : ((u.advance x.p x.next []).group? x.p.g).isSome = true := (placed_advance ..).trans hp
  have hqv : ((u.advance x.p x.next []).groupAt x.p.g).barOps = [] := (barOps_modFibre _ _ _ _ _ _ hp).trans hq
  have hend : ((u.advance x.p x.next []).fibreAt x.p.g x.p.w x.p.f).atEnd = false :=
    atEnd_of_active _ l ((congrArg Lane.st hmoved).trans ((moveLane_st ..).trans ha))
  unfold State.retire
  dsimp only
  generalize u.advance x.p x.next [] = v at hrep hpv hqv hend
  have hnote : ((v.modFibre x.p.g x.p.w x.p.f (noteFibre x.p)).warpAt x.p.g x.p.w).reps = (v.warpAt x.p.g x.p.w).reps :=
    reps_modFibre v _ _ _ _ _ hpv fun _ => rfl
  have hendw : ((v.modFibre x.p.g x.p.w x.p.f (noteFibre x.p)).fibreAt x.p.g x.p.w x.p.f).atEnd = false :=
    (fibreAt_modFibre_keeps Fibre.atEnd v _ _ _ _ _ _ (noteFibre x.p) hpv fun _ => rfl).trans hend
  have hpw : ((v.modFibre x.p.g x.p.w x.p.f (noteFibre x.p)).group? x.p.g).isSome = true := (placed_modFibre ..).trans hpv
  have hqw : ((v.modFibre x.p.g x.p.w x.p.f (noteFibre x.p)).groupAt x.p.g).barOps = [] := (barOps_modFibre _ _ _ _ _ _ hpv).trans hqv
  generalize v.modFibre x.p.g x.p.w x.p.f (noteFibre x.p) = w at hnote hendw hpw hqw
  rw [show (w.noteIssue b x.p).endCheck x.p.g x.p.w x.p.f = w.noteIssue b x.p from endCheck_going _ _ _ _ hendw]
  refine Eq.trans ?_ hrep
  cases q with
  | some q => exact laneAt_rep hnote ..
  | none => exact laneAt_rep ((endCycle_reps (w.noteIssue b x.p).wake x.p hpw hqw).trans hnote) ..

/-! NOP (R98). -/

/-- A NOP that issues ends its execution, its effect being none. -/
theorem nop_retires {s : State} {p : Path} {q : Option Path} {f : Fields} (h : Issuing s p q 0x00 f) :
    exec (.nop f) s = .next (((s.start p f).noted (s.exOf p 0x00 f)).retire (s.settle p.g p.w p.f) p q (s.exOf p 0x00 f).next []) :=
  retires_of_calm (e := { op := 0x00, f := f, out := fun _ s => s }) (body := nopBody) (fun _ => rfl) (fun _ _ _ => rfl)
    (fun _ => Calm.refl) s p q h rfl

/-- Settles O35: a NOP only retires, and retiring moves lanes and counts their repeats. -/
theorem nopChangesOnlyPc : Obligations.NopChangesOnlyPc := by
  refine ⟨⟨{ form := .s, d := 0xF8, a := 0xF8, b6 := 0 }, by decide⟩, by decide, fun s p q f h => ⟨_, nop_retires h, ?_⟩⟩
  have hp := start_placed s p f h.placed
  have hq := start_quiet s p q 0x00 f h
  obtain ⟨k, hk⟩ := exists_active_start s p q 0x00 f h
  have hlane := fun l ha => noted_lane (s.start p f) (s.exOf p 0x00 f) hp l _ ⟨ha, rfl⟩
  have hend := atEnd_of_active (((s.start p f).noted (s.exOf p 0x00 f)).fibreAt p.g p.w p.f) k (hlane k hk).1
  have hpn := noted_placed (s.start p f) (s.exOf p 0x00 f) p.g hp
  have hqn := noted_quiet (s.start p f) (s.exOf p 0x00 f) hp hq
  obtain ⟨hagree, hmoved⟩ := retire_ok (s.exOf p 0x00 f) _ (s.settle p.g p.w p.f) q [] hpn hqn hend
  replace hagree := hagree.trans (noted_agree (s.start p f) (s.exOf p 0x00 f) hp)
  refine ⟨hagree, fun l hl hgood => ?_⟩
  have ha := start_lane_good h.placed (h.active l hl) hgood
  obtain ⟨hst, hpc⟩ := hmoved l hl (hlane l ha).1
  exact ⟨(hagree.preds ..).trans (start_preds ..), hst, hpc, retire_rep (s.exOf p 0x00 f) _ _ q hpn hqn hl (hlane l ha).1⟩

end Sys2Proof.Machine
end

section
open Sys2Proof Sys2Proof.Machine Sys2Proof.Claims
namespace Sys2Proof.Machine

/-! Values that an integer instruction gives, whatever its width. -/

/-- Words and flags that an instruction computes show what is said of them: those values, none poisoned, those flags. -/
structure Shows (o : List RegWord × Word) (r : List Word × Word) : Prop where
  vals : o.1.map RegWord.val = r.1
  good : ∀ w ∈ o.1, w.poison = false
  short : o.1.length ≤ 2
  flags : o.2 = r.2

/-- The operands that an instruction may name. -/
def aluSpec (a : Alu) : OpSpec := (opSpec a.op a.f).getD { forms := [] }

/-- An instruction gives what its function shows of every sources' words that it can find. -/
theorem gives_of_shows {i : Instr} {a : Alu} (hi : integerAlu i = some a) {out : List (List Word) → List Word × Word}
    (hfn : ∀ s x l, x.f = a.f → x.k = aluSpec a →
      Shows (a.fn s x ((a.srcs x s l).map wordsOfVals)) (out ((a.srcs x s l).map fun vs => (wordsOfVals vs).map RegWord.val))) : IntGives i out := by
  refine ⟨a, hi, fun s p q hiss => ?_⟩
  dsimp only
  intro hr hd hgood
  have hshows : ∀ l ∈ (s.exOf p a.op a.f).parts, Shows (a.result (s.start p a.f) (s.exOf p a.op a.f) l, a.flags (s.start p a.f) (s.exOf p a.op a.f) l)
      (out ((a.srcs (s.exOf p a.op a.f) (s.start p a.f) l).map fun vs => (wordsOfVals vs).map RegWord.val)) := fun l hl => by
    have hnone : firstBad (a.srcs (s.exOf p a.op a.f) (s.start p a.f) l).flatten = none := by
      refine List.find?_eq_none.2 fun v hv => ?_
      obtain ⟨w, rfl, hw⟩ := hgood l hl v hv
      simp [Val.isBad, hw]
    unfold Alu.result Alu.flags resultOf
    rw [hnone]
    dsimp only
    rw [wordsOfVals_ok]
    exact hfn _ _ l rfl rfl
  obtain ⟨t, ht, hhit, -, -, -, -, hflags⟩ := vectorResultAndFrame i a (.inl hi) s p q hiss hr hd fun l hl v hv => by
    obtain ⟨w, hw, -⟩ := hgood l hl v hv
    exact ⟨w, hw⟩
  refine ⟨t, ht, fun l hl _ h hlt => ?_, fun _ => hflags.1.trans (congrArg _ (List.foldl_ext _ _ _ fun m l hl => ?_))⟩
  · obtain ⟨hvals, hpoison, hshort, -⟩ := hshows l hl
    have hin : h < (a.result (s.start p a.f) (s.exOf p a.op a.f) l).length := by rwa [← hvals, List.length_map] at hlt
    rw [hhit l hl h (show h = 0 ∨ _ by dsimp only at hshort; omega), ← hvals]
    refine ⟨?_, ?_, rfl⟩
    · simp [List.getD_eq_getElem?_getD, hin]
    · simpa [List.getD_eq_getElem?_getD, hin] using hpoison _ (List.getElem_mem hin)
  · rw [← (hshows l hl).flags]

theorem Shows.freshWords {wide : Bool} {v : Nat} {m : Word} {r : List Word × Word} (hv : (freshWords wide v).map RegWord.val = r.1) (hm : m = r.2) :
    Shows (freshWords wide v, m) r where
  vals := hv
  good := by cases wide <;> simp [Machine.freshWords, mkWord]
  short := by cases wide <;> simp [Machine.freshWords]
  flags := hm

/-- A predicted residue changes no value. -/
theorem predictedWords_val (wide : Bool) (v : Nat) (p : Int) : (predictedWords wide v p).map RegWord.val = (freshWords wide v).map RegWord.val := by
  cases wide <;> rfl

theorem Shows.predictedWords {wide : Bool} {v : Nat} {p : Int} {r : List Word × Word} (h : Shows (Machine.freshWords wide v, 0) r) :
    Shows (predictedWords wide v p, 0) r where
  vals := (predictedWords_val wide v p).trans h.vals
  good := by cases wide <;> simp [Machine.predictedWords, mkWord]
  short := by cases wide <;> simp [Machine.predictedWords]
  flags := h.flags

/-! How many words a source has. -/

/-- A source has one word, or a pair's two, at most. -/
def Fits (pair : Bool) (ws : List RegWord) : Prop := ws.length ≤ if pair then 2 else 1

theorem fits_operand (s : State) (x : Ex) (c : Cls) (code : BitVec 8) (l : Nat) : Fits (Cls.isPair c) (wordsOfVals (s.operand x c code l)) := by
  refine (wordsOfVals_length _).trans ?_
  unfold State.operand
  split <;> simp

theorem fits_srcB (s : State) (x : Ex) (l : Nat) : Fits (Cls.isPair x.k.b) (wordsOfVals (s.srcB x l)) := by
  unfold State.srcB
  split
  · refine (wordsOfVals_length _).trans ?_
    unfold b6Imm
    dsimp only
    split
    · simp
    · split <;> simp
  · exact fits_operand ..

theorem isPair_srcW (w : Bool) : Cls.isPair (.srcW w) = w := by cases w <;> rfl

theorem Fits.le_two {pair : Bool} {ws : List RegWord} (h : Fits pair ws) : ws.length ≤ 2 := by
  cases pair
  · exact Nat.le_succ_of_le h
  · exact h

/-- One word holds its own number. -/
theorem natOfWords_one {ws : List RegWord} (h : Fits false ws) : natOfWords ws = ((ws.map RegWord.val).getD 0 0).toNat := by
  match ws, h with
  | [], _ => rfl
  | [w], _ => simp [natOfWords]

/-! Exact integers (R95). -/

/-- The integer that bits hold, signed or not. -/
def intOf (sg : Bool) {n : Nat} (b : BitVec n) : Int := if sg then b.toInt else b.toNat

theorem exact_eq_intOf {n : Nat} (hn : 0 < n) (sg : Bool) (u : Nat) : exact n sg u = intOf sg (BitVec.ofNat n u) := by
  obtain ⟨k, rfl⟩ : ∃ k, n = k + 1 := ⟨n - 1, by omega⟩
  cases sg
  · simp [exact, intOf]
  · simp only [exact, intOf, BitVec.toInt_eq_toNat_cond, BitVec.toNat_ofNat, Nat.add_sub_cancel, Bool.true_and, decide_eq_true_eq, if_true]
    have := Nat.pow_succ (n := 2) (m := k)
    split <;> split <;> first | rfl | omega

theorem ofInt_intOf (sg : Bool) {n : Nat} (b : BitVec n) : BitVec.ofInt n (intOf sg b) = b := by
  cases sg
  · exact (BitVec.ofInt_natCast ..).trans ((BitVec.ofNat_toNat n b).trans (BitVec.setWidth_eq b))
  · exact BitVec.ofInt_toInt

theorem ofNat_emod (n : Nat) (v : Int) : BitVec.ofNat n (v % 2 ^ n).toNat = BitVec.ofInt n v := by
  apply BitVec.eq_of_toNat_eq
  rw [BitVec.toNat_ofNat, BitVec.toNat_ofInt]
  push_cast
  have hpos : (0 : Int) < 2 ^ n := by positivity
  have hlt := Int.emod_lt_of_pos v hpos
  have hge := Int.emod_nonneg v hpos.ne'
  rw [Nat.mod_eq_of_lt]
  zify
  omega

theorem reduce_eq {n out : Nat} (hn : 0 < n) (sg : Bool) (v : Int) : reduce n sg out v = (BitVec.ofInt out (intOf sg (BitVec.ofInt n v))).toNat := by
  rw [reduce, exact_eq_intOf hn, ofNat_emod, BitVec.toNat_ofInt]
  push_cast
  rfl

theorem extract_ofInt {m n : Nat} (h : n ≤ m) (v : Int) : (BitVec.ofInt m v).extractLsb' 0 n = BitVec.ofInt n v := by
  apply BitVec.eq_of_toNat_eq
  rw [BitVec.extractLsb'_toNat, Nat.shiftRight_zero, BitVec.toNat_ofInt, BitVec.toNat_ofInt]
  have hdvd : (2 ^ n : Int) ∣ 2 ^ m := pow_dvd_pow 2 h
  have hpos : (0 : Int) < 2 ^ m := by positivity
  have hposn : (0 : Int) < 2 ^ n := by positivity
  push_cast
  zify
  rw [Int.toNat_of_nonneg (Int.emod_nonneg v hpos.ne'), Int.toNat_of_nonneg (Int.emod_nonneg v hposn.ne'), Int.emod_emod_of_dvd v hdvd]

/-- The words that hold an integer under a type depend on its bits of the type alone. -/
theorem typedWords_eq (md : Nat) (v : Int) : typedWords md v =
    (let w : DWord := BitVec.ofInt 64 (intOf (tySigned md) (BitVec.ofInt (tyBits md) v))
     if tyBits md = 64 then [w.extractLsb' 0 32, w.extractLsb' 32 32] else [w.extractLsb' 0 32]) := by
  unfold typedWords intOf
  cases tySigned md
  · simp only [Bool.false_eq_true, if_false, BitVec.ofInt_natCast, BitVec.ofNat_toNat]
  · rfl

theorem typedWords_congr {md : Nat} {u v : Int} (h : BitVec.ofInt (tyBits md) u = BitVec.ofInt (tyBits md) v) : typedWords md u = typedWords md v := by
  rw [typedWords_eq, typedWords_eq, h]

theorem tyBits_pos (md : Nat) : 0 < tyBits md := by
  unfold tyBits
  split <;> decide

/-- The wide types are those of 64 bits; the others fit a word. -/
theorem wideCode_iff {md : Nat} (h : md < 8) : wideCode md = decide (tyBits md = 64) ∧ (tyBits md ≠ 64 → tyBits md ≤ 32) := by
  revert md
  decide

/-- The words of a result reduced to its type are those that hold it. -/
theorem freshWords_reduce {md : Nat} (h : md < 8) (v : Int) :
    (freshWords (wideCode md) (reduce (tyBits md) (tySigned md) (if tyBits md = 64 then 64 else 32) v)).map RegWord.val = typedWords md v := by
  rw [typedWords_eq, reduce_eq (tyBits_pos md), (wideCode_iff h).1, freshWords]
  generalize intOf (tySigned md) (BitVec.ofInt (tyBits md) v) = r
  by_cases h64 : tyBits md = 64
  · rw [if_pos h64, if_pos h64, if_pos (decide_eq_true h64), ofNat_low, ofNat_high]
    rfl
  · rw [if_neg h64, if_neg h64, if_neg (by simpa using h64), extract_ofInt (by decide), BitVec.ofNat_toNat, BitVec.setWidth_eq]
    rfl

/-- Two halves of a word, made one. -/
theorem ofNat_halves (a b : BitVec 16) : BitVec.ofNat 32 (a.toNat + 2 ^ 16 * b.toNat) = b ++ a := by
  apply BitVec.eq_of_toNat_eq
  rw [BitVec.toNat_ofNat, BitVec.toNat_append, ← Nat.shiftLeft_add_eq_or_of_lt a.isLt, Nat.shiftLeft_eq]
  have := a.isLt
  have := b.isLt
  omega

/-! Sources as exact integers. -/

theorem natOfWords_lt {ws : List RegWord} (h : ws.length ≤ 2) : natOfWords ws < 2 ^ 64 := by
  match ws, h with
  | [], _ => decide
  | [w], _ =>
    have := w.val.isLt
    simp only [natOfWords]
    omega
  | [w, y], _ =>
    have := w.val.isLt
    have := y.val.isLt
    simp only [natOfWords]
    omega

/-- The number that a source's words hold under a type: a pair's under a wide one, else a word's. -/
theorem natOfWords_typed {md : Nat} (h : md < 8) {ws : List RegWord} (hw : Fits (wideCode md) ws) {vs : List (List Word)} {j : Nat}
    (hvs : vs.getD j [] = ws.map RegWord.val) : natOfWords ws = if md = 6 ∨ md = 7 then (pair vs j).toNat else (word vs j).toNat := by
  have hwide : wideCode md = decide (md = 6 ∨ md = 7) := by
    clear hw hvs
    revert md
    decide
  by_cases h67 : md = 6 ∨ md = 7
  · have hpair : pair vs j = pair (ws.map RegWord.val :: []) 0 := by
      unfold pair word
      rw [hvs]
      rfl
    rw [if_pos h67, hpair, ← natOfWords_pair hw.le_two [], BitVec.toNat_ofNat, Nat.mod_eq_of_lt (natOfWords_lt hw.le_two)]
  · rw [hwide, decide_eq_false h67] at hw
    rw [if_neg h67, natOfWords_one hw, word, hvs]

/-- The exact integer of a source, or of a half of it. -/
theorem exact_typed {md : Nat} (h : md < 8) {ws : List RegWord} (hw : Fits (wideCode md) ws) {vs : List (List Word)} {j : Nat}
    (hvs : vs.getD j [] = ws.map RegWord.val) (x2 : Bool) (k : Nat) :
    exact (if x2 then 16 else tyBits md) (tySigned md) (natOfWords ws / 2 ^ (16 * k)) = typed md x2 k vs j := by
  have hpos : 0 < if x2 then 16 else tyBits md := by
    split
    · decide
    · exact tyBits_pos md
  rw [exact_eq_intOf hpos, natOfWords_typed h hw hvs]
  unfold typed intOf
  dsimp only

end Sys2Proof.Machine
end

section
open Sys2Proof Sys2Proof.Machine Sys2Proof.Claims
namespace Sys2Proof.Machine

/-! Integer arithmetic under every type (R95, R103, R104). -/

/-- An operation's arguments are its sources' exact integers. -/
theorem arg_typed {md : Nat} (h : md < 8) {srcs : List (List RegWord)} (hfit : ∀ ws ∈ srcs, Fits (wideCode md) ws) (x2 : Bool) (k : Nat) :
    arg (srcs.map fun ws => exact (if x2 then 16 else tyBits md) (tySigned md) (natOfWords ws / 2 ^ (16 * k))) =
      typed md x2 k (srcs.map (List.map RegWord.val)) := by
  funext j
  have hzero : exact (if x2 then 16 else tyBits md) (tySigned md) (natOfWords [] / 2 ^ (16 * k)) = 0 := by
    simp [natOfWords, exact]
  have hget : Fits (wideCode md) (srcs.getD j []) := by
    by_cases hj : j < srcs.length
    · rw [List.getD_eq_getElem?_getD, List.getElem?_eq_getElem hj]
      exact hfit _ (List.getElem_mem hj)
    · rw [List.getD_eq_getElem?_getD, List.getElem?_eq_none (by omega)]
      exact Nat.zero_le _
  unfold arg
  rw [← hzero, getD_map_of srcs j fun ws => exact (if x2 then 16 else tyBits md) (tySigned md) (natOfWords ws / 2 ^ (16 * k))]
  exact exact_typed h hget (getD_map_of srcs j (List.map RegWord.val) []) x2 k

/-- A type that an integer instruction may have: any of the eight, .x2 with those of 16 bits alone (R95, R103). -/
def IntType (f : Fields) : Prop := f.md.toNat < 8 ∧ (f.sub = 0 ∨ (f.sub = 8 ∧ (f.md = 2 ∨ f.md = 3)))

theorem IntType.narrow {f : Fields} (h : IntType f) (hx : f.sub.getLsbD 3 = true) : wideCode f.md.toNat = false := by
  obtain ⟨-, hsub | ⟨-, hmd | hmd⟩⟩ := h
  · rw [hsub] at hx
    cases hx
  · rw [hmd]
    rfl
  · rw [hmd]
    rfl

theorem IntType.acc {f : Fields} (h : IntType f) : f.sub.getLsbD 0 = false := by
  obtain ⟨-, hsub | ⟨hsub, -⟩⟩ := h <;> rw [hsub] <;> rfl

/-- Evaluating a function of the sources' exact integers gives its words, or its halves. -/
theorem evalInt_byType {f : Fields} (h : IntType f) {srcs : List (List RegWord)} (hfit : ∀ ws ∈ srcs, Fits (wideCode f.md.toNat) ws)
    {g : Nat → Bool → List Int → Int} {fn : (Nat → Int) → Int} (hg : ∀ n sg vs, g n sg vs = fn (arg vs)) :
    (freshWords (wideCode f.md.toNat) (evalInt f.md.toNat (f.sub.getLsbD 3) g srcs)).map RegWord.val =
      (byType f fn (srcs.map (List.map RegWord.val))).1 := by
  unfold evalInt byType
  dsimp only
  cases hx : f.sub.getLsbD 3 with
  | true =>
    have hhalf := arg_typed h.1 hfit true
    simp only [if_true] at hhalf
    simp only [if_true, h.narrow hx, hg, hhalf, reduce_eq (show 0 < 16 by decide), ofInt_intOf, freshWords, Bool.false_eq_true, if_false, ofNat_halves]
    rfl
  | false =>
    have hwhole := arg_typed h.1 hfit false 0
    simp only [Bool.false_eq_true, if_false, Nat.mul_zero, pow_zero, Nat.div_one] at hwhole
    simp only [Bool.false_eq_true, if_false, hg, hwhole]
    exact freshWords_reduce h.1 _

/-- A function of the sources' words that evaluates one of their exact integers, its residue predicted or made anew. -/
def Computes (fn : (Nat → Int) → Int) (x : Ex) (o : List (List RegWord) → List RegWord × Word) : Prop :=
  ∃ g, (∀ n sg vs, g n sg vs = fn (arg vs)) ∧ (o = intRegen g x ∨ ∃ p, o = intPred g p x)

theorem Computes.shows {f : Fields} (h : IntType f) {x : Ex} (hx : x.f = f) {srcs : List (List RegWord)}
    (hfit : ∀ ws ∈ srcs, Fits (wideCode f.md.toNat) ws) {fn : (Nat → Int) → Int} {o : List (List RegWord) → List RegWord × Word}
    (ho : Computes fn x o) : Shows (o srcs) (byType f fn (srcs.map (List.map RegWord.val))) := by
  obtain ⟨g, hg, rfl | ⟨p, rfl⟩⟩ := ho
  · unfold intRegen Ex.wide Ex.ty Ex.x2
    rw [hx]
    exact .freshWords (evalInt_byType h hfit hg) rfl
  · unfold intPred Ex.wide Ex.ty Ex.x2
    rw [hx]
    exact .predictedWords (.freshWords (evalInt_byType h hfit hg) rfl)

theorem fits_srcs2 {x : Ex} {w : Bool} (hA : x.k.a = .srcW w) (hB : x.k.b = .srcW w) (s : State) (l : Nat) :
    ∀ ws ∈ (srcs2 x s l).map wordsOfVals, Fits w ws := by
  have ha := fits_operand s x x.k.a x.f.a l
  have hb := fits_srcB s x l
  rw [hA, isPair_srcW] at ha
  rw [hB, isPair_srcW] at hb
  simpa [srcs2, State.srcA, hA] using ⟨ha, hb⟩

theorem fits_srcs3 {x : Ex} {w : Bool} (hA : x.k.a = .srcW w) (hB : x.k.b = .srcW w) (hC : x.k.c = .srcW w) (s : State) (l : Nat) :
    ∀ ws ∈ (srcs3 x s l).map wordsOfVals, Fits w ws := by
  have hc := fits_operand s x x.k.c x.f.c l
  rw [hC, isPair_srcW] at hc
  have hab := fits_srcs2 hA hB s l
  simp only [srcs2, srcs3, List.map_cons, List.map_nil, List.forall_mem_cons] at hab ⊢
  exact ⟨hab.1, hab.2.1, by simpa [State.srcC, hC] using hc, hab.2.2⟩

/-- The same from what the instruction's operands may be. -/
theorem fits_spec2 {x : Ex} {k : OpSpec} {w : Bool} (hk : x.k = k) (hA : k.a = .srcW w) (hB : k.b = .srcW w) (s : State) (l : Nat) :
    ∀ ws ∈ (srcs2 x s l).map wordsOfVals, Fits w ws := by
  subst hk
  exact fits_srcs2 hA hB s l

theorem fits_spec3 {x : Ex} {k : OpSpec} {w : Bool} (hk : x.k = k) (hA : k.a = .srcW w) (hB : k.b = .srcW w) (hC : k.c = .srcW w) (s : State) (l : Nat) :
    ∀ ws ∈ (srcs3 x s l).map wordsOfVals, Fits w ws := by
  subst hk
  exact fits_srcs3 hA hB hC s l

/-- An instruction of two sources under a type, or of three, that evaluates a function of their exact integers gives its words. -/
theorem gives_byType {i : Instr} {a : Alu} (hi : integerAlu i = some a) (h : IntType a.f) {fn : (Nat → Int) → Int}
    (hfit : ∀ s x l, x.k = aluSpec a → ∀ ws ∈ (a.srcs x s l).map wordsOfVals, Fits (wideCode a.f.md.toNat) ws)
    (ho : ∀ s x, x.f = a.f → Computes fn x (a.fn s x)) : IntGives i (byType a.f fn) :=
  gives_of_shows hi fun s x l hx hk => by
    have hshows := (ho s x hx).shows h hx (hfit s x l hk)
    rwa [List.map_map] at hshows

theorem computes_intPred {x : Ex} {fn : (Nat → Int) → Int} {g : List Int → Int} (hg : ∀ vs, g vs = fn (arg vs)) :
    Computes fn x (intPred (fun _ _ => g) g x) := ⟨_, fun _ _ => hg, .inr ⟨_, rfl⟩⟩

theorem computes_intRegen {x : Ex} {fn : (Nat → Int) → Int} {g : List Int → Int} (hg : ∀ vs, g vs = fn (arg vs)) :
    Computes fn x (intRegen (fun _ _ => g) x) := ⟨_, fun _ _ => hg, .inl rfl⟩

section
variable {f : Fields} (h : IntType f)
include h

theorem iadd_gives : IntGives (.iadd f) (byType f fun a => a 0 + a 1) :=
  gives_byType (i := .iadd f) rfl h (fun s _ l hk => fits_spec2 hk rfl rfl s l) fun _ _ _ => computes_intPred fun _ => rfl

theorem isub_gives : IntGives (.isub f) (byType f fun a => a 0 - a 1) :=
  gives_byType (i := .isub f) rfl h (fun s _ l hk => fits_spec2 hk rfl rfl s l) fun _ _ _ => computes_intPred fun _ => rfl

theorem imul_gives : IntGives (.imul f) (byType f fun a => a 0 * a 1) :=
  gives_byType (i := .imul f) rfl h (fun s _ l hk => fits_spec2 hk rfl rfl s l) fun _ x _ => by
    change Computes _ _ (imulWords x)
    unfold imulWords
    split
    · exact computes_intRegen fun _ => rfl
    · exact computes_intPred fun _ => rfl

theorem imad_gives : IntGives (.imad f) (byType f fun a => a 0 * a 1 + a 2) :=
  gives_byType (i := .imad f) rfl h
    (fun s _ l hk => fits_spec3 hk rfl rfl (if_neg (by rw [h.acc]; decide)) s l) fun _ x hx => by
    have hacc : x.f.sub.getLsbD 0 = false := hx ▸ h.acc
    change Computes _ _ (imadWords x)
    have hwords : imadWords x = if x.x2 then intRegen (fun _ _ => intMad) x else intPred (fun _ _ => intMad) intMad x := by
      funext srcs
      unfold imadWords
      rw [hacc]
      rfl
    rw [hwords]
    split
    · exact computes_intRegen fun _ => rfl
    · exact computes_intPred fun _ => rfl

theorem iadd3_gives : IntGives (.iadd3 f) (byType f fun a => a 0 + a 1 + a 2) :=
  gives_byType (i := .iadd3 f) rfl h (fun s _ l hk => fits_spec3 hk rfl rfl rfl s l)
    fun _ _ _ => computes_intPred fun _ => rfl

theorem imin_gives : IntGives (.imin f) (byType f fun a => if a 0 < a 1 then a 0 else a 1) :=
  gives_byType (i := .imin f) rfl h (fun s _ l hk => fits_spec2 hk rfl rfl s l)
    fun _ _ _ => computes_intRegen fun vs => by
      show min (arg vs 0) (arg vs 1) = _
      split <;> omega

theorem imax_gives : IntGives (.imax f) (byType f fun a => if a 0 < a 1 then a 1 else a 0) :=
  gives_byType (i := .imax f) rfl h (fun s _ l hk => fits_spec2 hk rfl rfl s l)
    fun _ _ _ => computes_intRegen fun vs => by
      show max (arg vs 0) (arg vs 1) = _
      split <;> omega

end

/-! On whole words, in words (R103). -/

theorem typedWords_word {md : Nat} (h : md = 0 ∨ md = 1) (v : Int) : typedWords md v = [BitVec.ofInt 32 v] := by
  have hbits : tyBits md = 32 := by obtain rfl | rfl := h <;> rfl
  have hfold : typedWords md v = [BitVec.ofInt 32 (intOf (tySigned md) (BitVec.ofInt 32 v))] := by
    rw [typedWords_eq, hbits]
    exact congrArg (fun w => [w]) (extract_ofInt (by decide) _)
  rw [hfold, ofInt_intOf]

theorem typed_word {md : Nat} (h : md = 0 ∨ md = 1) (ws : List (List Word)) (j : Nat) : typed md false 0 ws j = intOf (tySigned md) (word ws j) := by
  have hword : BitVec.ofNat 32 ((word ws j).toNat / 2 ^ (16 * 0)) = word ws j := by
    rw [Nat.mul_zero, pow_zero, Nat.div_one, BitVec.ofNat_toNat, BitVec.setWidth_eq]
  obtain rfl | rfl := h
  · exact congrArg BitVec.toInt hword
  · exact congrArg (fun w : Word => (w.toNat : Int)) hword

theorem ofInt_typed {md : Nat} (h : md = 0 ∨ md = 1) (ws : List (List Word)) (j : Nat) : BitVec.ofInt 32 (typed md false 0 ws j) = word ws j := by
  rw [typed_word h, ofInt_intOf]

/-- A function of exact integers on whole words, where it is one of words. -/
theorem byType_word {f : Fields} (hsub : f.sub = 0) (hmd : f.md = 0 ∨ f.md = 1) {fn : (Nat → Int) → Int} {v : List (List Word) → Word}
    (hv : ∀ ws, BitVec.ofInt 32 (fn (typed f.md.toNat false 0 ws)) = v ws) : byType f fn = one v := by
  have hmd' : f.md.toNat = 0 ∨ f.md.toNat = 1 := by obtain h | h := hmd <;> simp [h]
  have hx : f.sub.getLsbD 3 = false := by rw [hsub]; rfl
  funext ws
  unfold byType one
  simp only [hx, Bool.false_eq_true, if_false, typedWords_word hmd', hv]

theorem ofInt_sub (n : Nat) (a b : Int) : BitVec.ofInt n (a - b) = BitVec.ofInt n a - BitVec.ofInt n b := by
  rw [Int.sub_eq_add_neg, BitVec.ofInt_add, BitVec.ofInt_neg, BitVec.sub_eq_add_neg]

theorem typed_lt_iff (ws : List (List Word)) : typed 0 false 0 ws 0 < typed 0 false 0 ws 1 ↔ (word ws 0).slt (word ws 1) = true := by
  rw [typed_word (.inl rfl), typed_word (.inl rfl)]
  exact BitVec.slt_iff_toInt_lt.symm

/-! Bitwise functions (R108). -/

/-- Bitwise functions of a word, the second source complemented under .nb. -/
theorem gives_bits {i : Instr} {a : Alu} (hi : integerAlu i = some a) (h2 : a.srcs = srcs2) (hmd : a.f.md = 8) (hsub : a.f.sub = 0 ∨ a.f.sub = 1)
    (hA : (aluSpec a).a = .srcW (wideCode a.f.md.toNat)) (hB : (aluSpec a).b = .srcW (wideCode a.f.md.toNat))
    {wideOp : DWord → DWord → DWord} {op : Word → Word → Word} (hfn : ∀ s, a.fn s = bitOp wideOp)
    (hop : ∀ u v, (wideOp u v).setWidth 32 = op (u.setWidth 32) (v.setWidth 32)) :
    IntGives i (one fun ws => op (word ws 0) (if a.f.sub = 1 then ~~~word ws 1 else word ws 1)) :=
  gives_of_shows hi fun s x l hx hspec => by
    have hfit := fits_spec2 hspec hA hB s l
    have hnarrow : wideCode a.f.md.toNat = false := by rw [hmd]; rfl
    rw [hnarrow] at hfit
    have hnb : (x.f.sub.getLsbD 0 = true) = (a.f.sub = 1) := by
      rw [hx]
      obtain h | h := hsub <;> rw [h] <;> decide
    have hwide : x.wide = false := by rw [Ex.wide, hx, hnarrow]
    simp only [srcs2, List.map_cons, List.map_nil, List.forall_mem_cons] at hfit
    rw [hfn, h2]
    unfold bitOp
    rw [hwide]
    refine .freshWords ?_ rfl
    simp only [srcs2, List.map_cons, List.map_nil, List.getD_cons_zero, List.getD_cons_succ, hnb, natOfWords_one hfit.1, natOfWords_one hfit.2.1]
    simp only [Machine.freshWords, Bool.false_eq_true, if_false, List.map_cons, List.map_nil, mkWord, one, word, List.getD_cons_zero,
      List.getD_cons_succ, BitVec.ofNat_toNat, hop]
    congr 2
    · simp
    · split
      · rw [BitVec.setWidth_not (by decide)]
        simp
      · simp

/-! Shifts (R109). -/

/-- A kind of shift, on bits of any width, is a function of bits. -/
def ShiftIs (k : Shift) (sh : {n : Nat} → BitVec n → Nat → BitVec n) : Prop :=
  ∀ (n : Nat) (v : BitVec n) (wrap : Bool) (c : Nat), 0 < n → shiftBy k wrap n v.toNat c = (sh v (if wrap then c % n else c)).toNat

theorem shiftIs_left : ShiftIs .left fun v c => v <<< c := by
  intro n v wrap c _
  have hmin : v.toNat * 2 ^ min c n % 2 ^ n = v.toNat * 2 ^ c % 2 ^ n := by
    obtain h | h := Nat.le_total c n
    · rw [Nat.min_eq_left h]
    · rw [Nat.min_eq_right h, Nat.mul_mod_left, Nat.mod_eq_zero_of_dvd (Dvd.dvd.mul_left (pow_dvd_pow 2 h) _)]
  dsimp only
  rw [BitVec.toNat_shiftLeft, Nat.shiftLeft_eq]
  cases wrap
  · exact hmin
  · rfl

theorem shiftIs_right : ShiftIs .right fun v c => v >>> c := by
  intro n v wrap c _
  have hmin : v.toNat / 2 ^ min c n = v.toNat / 2 ^ c := by
    obtain h | h := Nat.le_total c n
    · rw [Nat.min_eq_left h]
    · rw [Nat.min_eq_right h, Nat.div_eq_of_lt v.isLt, Nat.div_eq_of_lt (Nat.lt_of_lt_of_le v.isLt (Nat.pow_le_pow_right (by decide) h))]
  dsimp only
  rw [BitVec.toNat_ushiftRight, Nat.shiftRight_eq_div_pow]
  cases wrap
  · exact hmin
  · rfl

/-- Floor division of a number smaller than its divisor leaves its sign. -/
theorem ediv_small {x m : Int} (hlo : -m ≤ x) (hhi : x < m) : x / m = if x < 0 then -1 else 0 := by
  split
  · have h1 : x / m < 0 := Int.ediv_lt_of_lt_mul (by omega) (by omega)
    have h2 : -1 ≤ x / m := Int.le_ediv_of_mul_le (by omega) (by omega)
    omega
  · exact Int.ediv_eq_zero_of_lt (by omega) hhi

theorem shiftIs_arith : ShiftIs .arith fun v c => v.sshiftRight c := by
  intro n v wrap c hn
  have hmin : v.toInt / 2 ^ min c n = v.toInt / 2 ^ c := by
    obtain h | h := Nat.le_total c n
    · rw [Nat.min_eq_left h]
    · have hpow : (2 : Int) ^ n ≤ 2 ^ c := pow_le_pow_right₀ (by decide) h
      have hlo := BitVec.le_two_mul_toInt (x := v)
      have hhi := BitVec.two_mul_toInt_lt (x := v)
      have hpos : (0 : Int) < 2 ^ n := by positivity
      rw [Nat.min_eq_right h, ediv_small (by omega) (by omega), ediv_small (by omega) (by omega)]
  have hexact : exact n true v.toNat = v.toInt := by
    rw [exact_eq_intOf hn, BitVec.ofNat_toNat, BitVec.setWidth_eq]
    rfl
  dsimp only [shiftBy, BitVec.sshiftRight]
  rw [BitVec.toNat_ofInt, Int.shiftRight_eq_div_pow, hexact]
  cases wrap
  · push_cast
    exact congrArg (fun r : Int => (r % 2 ^ n).toNat) hmin
  · push_cast
    rfl

/-- A half of a word, as a number. -/
theorem toNat_low (w : Word) : w.toNat % 2 ^ 16 = (w.extractLsb' (16 * 0) 16).toNat := by simp
theorem toNat_high (w : Word) : w.toNat / 2 ^ 16 = (w.extractLsb' (16 * 1) 16).toNat := by
  have := w.isLt
  rw [BitVec.extractLsb'_toNat, Nat.shiftRight_eq_div_pow]
  omega

/-- A shift's words, by halves under .x2, on a pair or on a word. -/
theorem shiftWords_shows {k : Shift} {sh : {n : Nat} → BitVec n → Nat → BitVec n} (hsh : ShiftIs k sh) {x : Ex} {u v : List RegWord}
    (hu : Fits x.wide u) (hv : Fits false v) (hx : x.x2 = true → x.wide = false) (hw : x.wide = decide (x.f.md = 9)) :
    Shows (shiftWords k x [u, v]) (shifted x.f sh [u.map RegWord.val, v.map RegWord.val]) := by
  have hcount : natOfWords v = (word [u.map RegWord.val, v.map RegWord.val] 1).toNat := natOfWords_one hv
  unfold shiftWords shifted
  simp only [List.getD_cons_zero, List.getD_cons_succ, hcount]
  cases hx2 : x.x2 with
  | true =>
    have hvalue : natOfWords u = (word [u.map RegWord.val, v.map RegWord.val] 0).toNat := natOfWords_one (hx hx2 ▸ hu)
    rw [show x.f.sub.getLsbD 3 = true from hx2, if_pos rfl, if_pos rfl]
    refine .freshWords ?_ rfl
    rw [hvalue, toNat_low, toNat_low, toNat_high, toNat_high, hsh _ _ _ _ (by decide), hsh _ _ _ _ (by decide)]
    exact congrArg (fun w => [w]) (ofNat_halves ..)
  | false =>
    rw [show x.f.sub.getLsbD 3 = false from hx2, if_neg Bool.false_ne_true, if_neg Bool.false_ne_true]
    by_cases h9 : x.f.md = 9
    · have hwide : x.wide = true := hw.trans (decide_eq_true h9)
      rw [hwide] at hu
      have hvalue : natOfWords u = (pair [u.map RegWord.val, v.map RegWord.val] 0).toNat := by
        rw [← natOfWords_pair hu.le_two, BitVec.toNat_ofNat, Nat.mod_eq_of_lt (natOfWords_lt hu.le_two)]
      refine .freshWords ?_ rfl
      rw [hwide, Ex.bits, hwide, if_pos rfl, hvalue, hsh _ _ _ _ (by decide), if_pos h9, freshWords, if_pos rfl, ofNat_low, ofNat_high]
      rfl
    · have hwide : x.wide = false := hw.trans (decide_eq_false h9)
      rw [hwide] at hu
      have hvalue : natOfWords u = (word [u.map RegWord.val, v.map RegWord.val] 0).toNat := natOfWords_one hu
      refine .freshWords ?_ rfl
      rw [hwide, Ex.bits, hwide, hvalue]
      simp only [Bool.false_eq_true, if_false, h9, freshWords, hsh 32 _ _ _ (by decide), BitVec.ofNat_toNat, BitVec.setWidth_eq]
      rfl

/-- A type and modifiers that a shift may have: words and pairs, and halves under .x2 (R109). -/
def ShiftType (f : Fields) : Prop :=
  ((f.md = 8 ∨ f.md = 9) ∧ (f.sub = 0 ∨ f.sub = 1)) ∨ ((f.md = 2 ∨ f.md = 3) ∧ (f.sub = 8 ∨ f.sub = 9))

theorem ShiftType.wide {f : Fields} (h : ShiftType f) : wideCode f.md.toNat = decide (f.md = 9) := by
  obtain ⟨hmd | hmd, -⟩ | ⟨hmd | hmd, -⟩ := h <;> rw [hmd] <;> rfl

theorem ShiftType.narrow {f : Fields} (h : ShiftType f) (hx : f.sub.getLsbD 3 = true) : wideCode f.md.toNat = false := by
  obtain ⟨-, hsub | hsub⟩ | ⟨hmd | hmd, -⟩ := h
  · rw [hsub] at hx
    cases hx
  · rw [hsub] at hx
    cases hx
  · rw [hmd]
    rfl
  · rw [hmd]
    rfl

theorem gives_shift {i : Instr} {a : Alu} (hi : integerAlu i = some a) (h2 : a.srcs = srcs2) (h : ShiftType a.f)
    (hA : (aluSpec a).a = .srcW (wideCode a.f.md.toNat)) (hB : (aluSpec a).b = .src)
    {k : Shift} {sh : {n : Nat} → BitVec n → Nat → BitVec n} (hfn : ∀ s, a.fn s = shiftWords k) (hsh : ShiftIs k sh) :
    IntGives i (shifted a.f sh) :=
  gives_of_shows hi fun s x l hx hspec => by
    have hpair : Cls.isPair x.k.a = x.wide := by rw [hspec, hA, isPair_srcW, Ex.wide, hx]
    have hone : Cls.isPair x.k.b = false := by rw [hspec, hB]; rfl
    rw [← hx] at h
    rw [hfn, h2, ← hx]
    exact shiftWords_shows hsh (hpair ▸ fits_operand s x x.k.a x.f.a l) (hone ▸ fits_srcB s x l) h.narrow h.wide

/-- An instruction that gives the words of a function under a type gives a function of words, where that is what it does to whole words. -/
theorem gives_word {i : Instr} {f : Fields} {fn : (Nat → Int) → Int} (hi : IntGives i (byType f fn)) (hsub : f.sub = 0) (hmd : f.md = 0 ∨ f.md = 1)
    {v : List (List Word) → Word} (hv : ∀ ws, BitVec.ofInt 32 (fn (typed f.md.toNat false 0 ws)) = v ws) : IntGives i (one v) :=
  byType_word hsub hmd hv ▸ hi

/-- A choice between two words by their signs. -/
theorem ofInt_choose (ws : List (List Word)) (j k : Nat) :
    BitVec.ofInt 32 (if typed 0 false 0 ws 0 < typed 0 false 0 ws 1 then typed 0 false 0 ws j else typed 0 false 0 ws k) =
      if (word ws 0).slt (word ws 1) then word ws j else word ws k := by
  simp only [typed_lt_iff]
  rw [apply_ite (BitVec.ofInt 32), ofInt_typed (.inl rfl), ofInt_typed (.inl rfl)]

/-- Settles O30: the values of each function of exact integers, of bits and of shifts. -/
theorem wordResults : Obligations.WordResults := by
  refine fun f => ⟨fun hsub hmd => ?words, fun hsub hmd => ?minmax, fun hmd hsub => ?bits, fun hmd hsub => ?typed, fun hmd hsub => ?shifts,
    fun hmd hsub => ?halves, fun hmd hsub => ?arith⟩
  case words =>
    have h : IntType f := ⟨by obtain h | h := hmd <;> rw [h] <;> decide, .inl hsub⟩
    have hmd' : f.md.toNat = 0 ∨ f.md.toNat = 1 := by obtain h | h := hmd <;> simp [h]
    refine ⟨?_, ?_, ?_, ?_, ?_⟩
    · exact gives_word (iadd_gives h) hsub hmd fun ws => by rw [BitVec.ofInt_add, ofInt_typed hmd', ofInt_typed hmd']
    · exact gives_word (isub_gives h) hsub hmd fun ws => by rw [ofInt_sub, ofInt_typed hmd', ofInt_typed hmd']
    · exact gives_word (imul_gives h) hsub hmd fun ws => by rw [BitVec.ofInt_mul, ofInt_typed hmd', ofInt_typed hmd']
    · exact gives_word (imad_gives h) hsub hmd fun ws => by rw [BitVec.ofInt_add, BitVec.ofInt_mul, ofInt_typed hmd', ofInt_typed hmd', ofInt_typed hmd']
    · exact gives_word (iadd3_gives h) hsub hmd fun ws => by rw [BitVec.ofInt_add, BitVec.ofInt_add, ofInt_typed hmd', ofInt_typed hmd', ofInt_typed hmd']
  case minmax =>
    have h : IntType f := ⟨by rw [hmd]; decide, .inl hsub⟩
    refine ⟨?_, ?_⟩
    · exact gives_word (imin_gives h) hsub (.inl hmd) fun ws => by rw [hmd]; exact ofInt_choose ..
    · exact gives_word (imax_gives h) hsub (.inl hmd) fun ws => by rw [hmd]; exact ofInt_choose ..
  case bits =>
    refine ⟨?_, ?_, ?_⟩
    · exact gives_bits (i := .and f) rfl rfl hmd hsub rfl rfl (fun _ => rfl) fun _ _ => BitVec.setWidth_and
    · exact gives_bits (i := .or f) rfl rfl hmd hsub rfl rfl (fun _ => rfl) fun _ _ => BitVec.setWidth_or
    · exact gives_bits (i := .xor f) rfl rfl hmd hsub rfl rfl (fun _ => rfl) fun _ _ => BitVec.setWidth_xor
  case typed =>
    have h : IntType f := ⟨hmd, hsub⟩
    exact ⟨iadd_gives h, isub_gives h, imul_gives h, imad_gives h, iadd3_gives h, imin_gives h, imax_gives h⟩
  case shifts =>
    have h : ShiftType f := .inl ⟨hmd, hsub⟩
    refine ⟨?_, ?_, ?_⟩
    · exact gives_shift (i := .shl f) rfl rfl h rfl rfl (fun _ => rfl) shiftIs_left
    · exact gives_shift (i := .shr f) rfl rfl h rfl rfl (fun _ => rfl) shiftIs_right
    · exact gives_shift (i := .sar f) rfl rfl h rfl rfl (fun _ => rfl) shiftIs_arith
  case halves =>
    have h : ShiftType f := .inr ⟨.inr hmd, hsub⟩
    refine ⟨?_, ?_⟩
    · exact gives_shift (i := .shl f) rfl rfl h rfl rfl (fun _ => rfl) shiftIs_left
    · exact gives_shift (i := .shr f) rfl rfl h rfl rfl (fun _ => rfl) shiftIs_right
  case arith =>
    exact gives_shift (i := .sar f) rfl rfl (.inr ⟨.inl hmd, hsub⟩) rfl rfl (fun _ => rfl) shiftIs_arith

end Sys2Proof.Machine
end

section
open Sys2Proof Sys2Proof.Machine Sys2Proof.Claims
namespace Sys2Proof.Machine

/-! Division (R104). -/

/-- The quotient, or the remainder, of exact integers as the machine takes it: all ones and the dividend where the divisor is zero. -/
def divFn (rem : Bool) (x y : Int) : Int := if y = 0 then if rem then x else -1 else if rem then x.tmod y else x.tdiv y

/-- The column of the division table that an instruction gives. -/
def divPick (rem : Bool) (r : Int × Int × Bool) : Int := if rem then r.2.1 else r.1

theorem divRow_flag (n : Nat) (sg : Bool) (x y : Int) : (divRow n sg x y).2.2 = decide (y = 0) := by
  unfold divRow
  split
  · next h => exact (decide_eq_true h).symm
  · next h => split <;> exact (decide_eq_false h).symm

theorem ofInt_pow_sub (n : Nat) (v : Int) : BitVec.ofInt n (2 ^ n + v) = BitVec.ofInt n v := by
  apply BitVec.eq_of_toNat_eq
  rw [BitVec.toNat_ofInt, BitVec.toNat_ofInt]
  push_cast
  rw [Int.add_emod_left]

/-- The machine's quotient and remainder are those of the table, in the bits of the type. -/
theorem ofInt_divFn {n : Nat} (hn : 0 < n) (rem sg : Bool) (x y : Int) :
    BitVec.ofInt n (divFn rem x y) = BitVec.ofInt n (divPick rem (divRow n sg x y)) := by
  unfold divFn divRow
  by_cases hy : y = 0
  · rw [if_pos hy, if_pos hy]
    cases rem
    · cases sg
      · exact (ofInt_pow_sub n (-1)).symm
      · rfl
    · rfl
  · rw [if_neg hy, if_neg hy]
    by_cases hmost : sg = true ∧ x = -(2 ^ (n - 1)) ∧ y = -1
    · rw [if_pos hmost]
      obtain ⟨-, rfl, rfl⟩ := hmost
      cases rem
      · have hpow : (2 : Int) ^ n = 2 ^ (n - 1) + 2 ^ (n - 1) := by
          obtain ⟨k, rfl⟩ : ∃ k, n = k + 1 := ⟨n - 1, by omega⟩
          rw [Nat.add_sub_cancel, pow_succ]
          omega
        have hquot : (-(2 : Int) ^ (n - 1)).tdiv (-1) = 2 ^ n + -2 ^ (n - 1) := by
          rw [Int.tdiv_neg, Int.tdiv_one, hpow]
          omega
        change BitVec.ofInt n ((-(2 : Int) ^ (n - 1)).tdiv (-1)) = BitVec.ofInt n (-2 ^ (n - 1))
        rw [hquot, ofInt_pow_sub]
      · change BitVec.ofInt n ((-(2 : Int) ^ (n - 1)).tmod (-1)) = BitVec.ofInt n 0
        rw [Int.tmod_neg, Int.tmod_one]
    · rw [if_neg hmost]
      cases rem
      · rfl
      · exact congrArg (BitVec.ofInt n) (Int.tmod_def x y)

theorem IntType.halves {f : Fields} (h : IntType f) : (f.sub == 8) = f.sub.getLsbD 3 := by
  obtain ⟨-, hsub | ⟨hsub, -⟩⟩ := h <;> rw [hsub] <;> rfl

/-- The words of a division are those of its row, or of the rows of its halves. -/
theorem byType_div {f : Fields} (h : IntType f) (rem : Bool) (ws : List (List Word)) :
    (byType f (fun a => divFn rem (a 0) (a 1)) ws).1 = (divOut rem f.md.toNat (f.sub == 8) ws).1 := by
  unfold byType divOut
  rw [h.halves]
  cases f.sub.getLsbD 3
  · exact typedWords_congr (ofInt_divFn (tyBits_pos _) rem _ _ _)
  · simp only [if_true, ofInt_divFn (show 0 < 16 by decide) rem (tySigned f.md.toNat)]
    rfl

theorem exact_eq_zero {n : Nat} (sg : Bool) (u : Nat) : exact n sg u = 0 ↔ u % 2 ^ n = 0 := by
  have hlt : u % 2 ^ n < 2 ^ n := Nat.mod_lt _ (by positivity)
  have hpow : (2 : Int) ^ n = ((2 ^ n : Nat) : Int) := by push_cast; rfl
  unfold exact
  dsimp only
  rw [hpow]
  generalize u % 2 ^ n = r at hlt ⊢
  generalize 2 ^ n = m at hlt ⊢
  split
  · next hneg =>
    have hpos : 0 < 2 ^ (n - 1) := by positivity
    have hle := of_decide_eq_true (Bool.and_eq_true_iff.1 hneg).2
    omega
  · omega

/-- DZ is set where a divisor is zero, and in no other case. -/
theorem divFlag_eq {f : Fields} (h : IntType f) {x : Ex} (hx : x.f = f) (rem : Bool) {u v : List RegWord} (hv : Fits (wideCode f.md.toNat) v) :
    divFlag x [u, v] = (divOut rem f.md.toNat (f.sub == 8) [u.map RegWord.val, v.map RegWord.val]).2 := by
  have hexact := exact_typed h.1 hv (vs := [u.map RegWord.val, v.map RegWord.val]) (j := 1) rfl
  have hwhole := hexact false 0
  have hlow := hexact true 0
  have hhigh := hexact true 1
  simp only [if_true, Bool.false_eq_true, if_false, Nat.mul_zero, Nat.mul_one, pow_zero, Nat.div_one] at hwhole hlow hhigh
  unfold divFlag divOut Ex.x2 Ex.ty
  rw [hx, h.halves]
  cases hx2 : f.sub.getLsbD 3
  · simp only [Bool.false_eq_true, if_false, divRow_flag, ← hwhole, exact_eq_zero, List.getD_cons_zero, List.getD_cons_succ, beq_iff_eq, decide_eq_true_eq]
  · have hlt : natOfWords v < 2 ^ 32 := by
      rw [natOfWords_one (h.narrow hx2 ▸ hv)]
      exact BitVec.isLt _
    have hhalf : natOfWords v / 2 ^ 16 % 2 ^ 16 = natOfWords v / 2 ^ 16 := Nat.mod_eq_of_lt (by omega)
    simp only [if_true, divRow_flag, ← hlow, ← hhigh, exact_eq_zero, hhalf, List.getD_cons_zero, List.getD_cons_succ, Bool.or_eq_true, beq_iff_eq,
      decide_eq_true_eq]

/-- A division gives its rows of the table. -/
theorem gives_div {i : Instr} {a : Alu} (hi : integerAlu i = some a) (h2 : a.srcs = srcs2) (h : IntType a.f)
    (hA : (aluSpec a).a = .srcW (wideCode a.f.md.toNat)) (hB : (aluSpec a).b = .srcW (wideCode a.f.md.toNat))
    {g : List Int → Int} (hfn : ∀ s, a.fn s = divWith g) {rem : Bool} (hg : ∀ vs, g vs = divFn rem (arg vs 0) (arg vs 1)) :
    IntGives i (divOut rem a.f.md.toNat (a.f.sub == 8)) :=
  gives_of_shows hi fun s x l hx hspec => by
    have hfit := fits_spec2 hspec hA hB s l
    have hshows := (computes_intRegen (x := x) (fn := fun a => divFn rem (a 0) (a 1)) hg).shows h hx hfit
    rw [hfn, h2]
    refine ⟨?_, hshows.good, hshows.short, divFlag_eq h hx rem ?_⟩
    · have hvals := hshows.vals.trans (byType_div h rem _)
      rwa [List.map_map] at hvals
    · exact hfit _ (by simp [srcs2])

/-- Settles O32: the function of exact integers agrees with the table in the bits of the type. -/
theorem divisionResults : Obligations.DivisionResults := by
  refine fun f hmd hsub => ⟨?_, ?_⟩
  · exact gives_div (i := .idiv f) rfl rfl ⟨hmd, hsub⟩ rfl rfl (fun _ => rfl) fun vs => by simp [divInt, divFn]
  · exact gives_div (i := .irem f) rfl rfl ⟨hmd, hsub⟩ rfl rfl (fun _ => rfl) fun vs => by simp [remInt, divFn]

/-! IDOT4 (R106). -/

/-- A byte of a word, extended. -/
theorem ofInt_exact_byte (sg : Bool) (w : Word) (k : Nat) : BitVec.ofInt 32 (exact 8 sg (w.toNat / 2 ^ (8 * k))) =
    if sg then (w.extractLsb' (8 * k) 8).signExtend 32 else (w.extractLsb' (8 * k) 8).setWidth 32 := by
  rw [exact_eq_intOf (by decide), ← Nat.shiftRight_eq_div_pow]
  change BitVec.ofInt 32 (intOf sg (w.extractLsb' (8 * k) 8)) = _
  cases sg
  · exact (BitVec.ofInt_natCast ..).trans (BitVec.ofNat_toNat ..)
  · rfl

theorem dot4Words_shows {x : Ex} {u v w : List RegWord} (hu : Fits false u) (hv : Fits false v) (hw : Fits false w) {sa sb : Bool}
    (ha : (x.ty == 4) = sa) (hb : (sa && !x.f.sub.getLsbD 0) = sb) : Shows (dot4Words x [u, v, w])
      (one (fun ws => dotSum sa sb (word ws 0) (word ws 1) (word ws 2)) [u.map RegWord.val, v.map RegWord.val, w.map RegWord.val]) := by
  unfold dot4Words
  rw [ha]
  dsimp only
  rw [hb]
  refine .freshWords ?_ rfl
  simp only [List.getD_cons_zero, List.getD_cons_succ, natOfWords_one hu, natOfWords_one hv, natOfWords_one hw, freshWords, Bool.false_eq_true, if_false,
    List.map_cons, List.map_nil, mkWord, ofNat_emod, one, word, dotSum, show List.range 4 = [0, 1, 2, 3] from rfl, List.foldl_cons, List.foldl_nil,
    BitVec.ofInt_add, BitVec.ofInt_mul, ofInt_exact_byte, BitVec.ofInt_natCast, BitVec.ofNat_toNat, BitVec.setWidth_eq]

theorem gives_dot4 {f : Fields} {sa sb : Bool} (ha : (f.md.toNat == 4) = sa) (hb : (sa && !f.sub.getLsbD 0) = sb) :
    IntGives (.idot4 f) (one fun ws => dotSum sa sb (word ws 0) (word ws 1) (word ws 2)) :=
  gives_of_shows (i := .idot4 f) rfl fun s x l hx hspec => by
    have hfit := fits_spec3 (w := false) hspec rfl rfl rfl s l
    simp only [srcs3, List.map_cons, List.map_nil, List.forall_mem_cons] at hfit
    obtain ⟨hu, hv, hw, -⟩ := hfit
    exact dot4Words_shows hu hv hw (by rw [Ex.ty, hx, ha]) (by rw [hx, hb])

/-- Settles O33: each product of bytes is exact, and their sum is taken in words. -/
theorem dotProductOfBytes : Obligations.DotProductOfBytes := by
  refine fun f => ⟨fun hmd hsub => ?_, fun hmd hsub => ?_, fun hmd hsub => ?_⟩ <;> exact gives_dot4 (by rw [hmd]; rfl) (by rw [hsub]; rfl)

end Sys2Proof.Machine
end

section
open Sys2Proof Sys2Proof.Machine Sys2Proof.Claims
namespace Sys2Proof.Machine

/-! ST at a core whose fused position leads on to another (R247, R248, R250). -/

/-- `ST [v0:v1], v0` under .b32, the path of lane 0 that issues it, and the address that lane 0 holds. -/
def storeFields : Fields := { form := .s, d := 0, a := 0, b6 := 0, md := 8 }
def storePath : Path := { g := 0, w := 0, f := 0, mask := 1, pc := BitVec.ofNat 64 loadVa }
def storeAddress : Word := 0x2000

/-- The word of device memory after the one that the store addresses, in the same line. -/
def nextWord : Nat := (2 ^ 30 + 0x2000) / 4 + 1

/-- Core 0 is fused with core 1 before it, and core 1 with core 2, whose L1 holds the next word of the line for another context. -/
def chainedCores : State :=
  let s := State.reset.withFetchWord 32 0x03E3E000
  { s with
    turn := .issue storePath none
    groups := [(0, { loadGroup with warps := loadGroup.warps.map fun w => { w with regs := [(0, mkWord storeAddress)] } })]
    cores := [(0, { s.coreAt 0 with fusedWith := [1] }), (1, { fusedWith := [2] }), (2, { l1 := [(nextWord, { st := .valid, word := {}, ctx := 1 })] })] }

theorem chainedCores_issuing : Issuing chainedCores storePath none 0x81 storeFields :=
  { turn := rfl, window := by decide +kernel, parts := by decide +kernel, free := by decide +kernel, late := by decide +kernel
    walks := by decide +kernel, placed := by decide +kernel, warp := by decide +kernel, fibre := by decide +kernel, active := by decide +kernel
    quiet := by decide +kernel, going := by decide +kernel }

theorem chainedCores_ready :
    storeReady false (chainedCores.exOf storePath 0x81 storeFields) (chainedCores.start storePath storeFields) = true := by decide +kernel

theorem chainedCores_walked : (storeOut false (chainedCores.exOf storePath 0x81 storeFields) (chainedCores.start storePath storeFields)).walksOut
    storePath.g storePath.w storePath.f storePath.pc = false := by decide +kernel

/-- Where in device memory an access falls. -/
def memoryPlace : Loc → Option Nat
  | .mem _ dpa _ => some dpa
  | _ => none

/-- The store addresses one word, and not the next. -/
theorem chainedCores_places : (storeLocs false (chainedCores.exOf storePath 0x81 storeFields) (chainedCores.start storePath storeFields)).1.map
    (fun e => memoryPlace e.2) = [some (2 ^ 30 + 0x2000)] := by decide +kernel

theorem chainedCores_address {l : Nat} {va : DWord} {dpa : Nat} {uc : Bool}
    (h : (l, Loc.mem va dpa uc) ∈ (storeLocs false (chainedCores.exOf storePath 0x81 storeFields) (chainedCores.start storePath storeFields)).1) :
    dpa = 2 ^ 30 + 0x2000 := by
  have hplace := List.mem_map_of_mem (f := fun e : Nat × Loc => memoryPlace e.2) h
  rw [chainedCores_places] at hplace
  exact Option.some.inj (List.mem_singleton.1 hplace)

/-- Core 1 uses the L1 of core 2, and core 0 that of core 1. -/
theorem chainedCores_agents : chainedCores.agent 1 = 2 ∧
    chainedCores.agent ((chainedCores.exOf storePath 0x81 storeFields).core chainedCores) = 1 := by decide +kernel

theorem chainedCores_holds : (chainedCores.start storePath storeFields).l1At 1 nextWord ≠ none := by decide +kernel

/-- The store makes core 2's L1 give up the line, since it stands there for another context. -/
theorem chainedCores_evicts : (storeOut false (chainedCores.exOf storePath 0x81 storeFields) (chainedCores.start storePath storeFields)).l1At 1 nextWord =
    none := by decide +kernel

theorem Agree.l1At {s t : State} (h : Agree s t) (c wa : Nat) : s.l1At c wa = t.l1At c wa := by
  simp only [State.l1At, State.agent, State.coreAt, h.cores]

/-- An ST that can issue leaves what its effect leaves, but for its lanes' places. -/
theorem st_agree {s : State} {p : Path} {q : Option Path} {f : Fields} (h : Issuing s p q 0x81 f)
    (hr : storeReady false (s.exOf p 0x81 f) (s.start p f) = true) (hq : quarFull (s.exOf p 0x81 f) (s.start p f) = false)
    (hw : (storeOut false (s.exOf p 0x81 f) (s.start p f)).walksOut p.g p.w p.f p.pc = false) :
    ∃ t, exec (.st f) s = .next t ∧ Agree t (storeOut false (s.exOf p 0x81 f) (s.start p f)) := by
  obtain ⟨t, ht, hagree, -⟩ := memoryInstructionsComplete (.st f) _ rfl s p q h (by simp [hr, hq]) fun _ => hw
  exact ⟨t, ht, hagree⟩

theorem chainedCores_room : quarFull (chainedCores.exOf storePath 0x81 storeFields) (chainedCores.start storePath storeFields) = false := by
  decide +kernel

/-- Refutes O44: a core's L1 is that of the first member of its fused position, and a store that already acts for that member looks up the
member's own first member again. Where that is a third core, as in `chainedCores`, the line that goes was in the third core's L1, and the first
core's accesses use the second's. -/
theorem not_storeFrame : ¬ Obligations.StoreFrame := by
  intro h
  obtain ⟨t, ht, -, -, -, -, hl1, -⟩ := h chainedCores storePath none storeFields chainedCores_issuing chainedCores_ready (by decide +kernel) chainedCores_walked
  obtain ⟨u, hu, hagree⟩ := st_agree chainedCores_issuing chainedCores_ready chainedCores_room chainedCores_walked
  obtain rfl : u = t := Host.Outcome.next.inj (hu.symm.trans ht)
  have hgone : u.l1At 1 nextWord = none := (hagree.l1At 1 nextWord).trans chainedCores_evicts
  obtain hsame | ⟨hagent, -⟩ := hl1 1 nextWord fun l va dpa uc k hmem hk => by
    have hk : k < 1 := hk
    rw [chainedCores_address hmem]
    unfold nextWord
    omega
  · exact chainedCores_holds (hsame.symm.trans hgone)
  · obtain ⟨h1, h0⟩ := chainedCores_agents
    exact absurd (h1.symm.trans (hagent.trans h0)) (by decide)

end Sys2Proof.Machine
end

section
open Sys2Proof Sys2Proof.Machine Sys2Proof.Claims
namespace Sys2Proof.Machine

/-! NaN operands of single precision (R131, R146, R147). -/

/-- An instruction gives what its function shows, of the sources' words that meet a condition: `gives_of_shows` for every
register-to-register instruction, and for some of its operands alone. -/
theorem givesWhere_of_shows {i : Instr} {a : Alu} (hi : isAlu i a) {cond : List (List Word) → Bool}
    {out : List (List Word) → List Word × Word}
    (hfn : ∀ s x l, x.f = a.f → x.k = aluSpec a → cond ((a.srcs x s l).map fun vs => (wordsOfVals vs).map RegWord.val) = true →
      Shows (a.fn s x ((a.srcs x s l).map wordsOfVals)) (out ((a.srcs x s l).map fun vs => (wordsOfVals vs).map RegWord.val))) :
    a.GivesWhere i cond out := by
  intro s p q hiss
  dsimp only
  intro hr hd hgood
  have hshows : ∀ l ∈ (s.exOf p a.op a.f).parts,
      cond ((a.srcs (s.exOf p a.op a.f) (s.start p a.f) l).map fun vs => (wordsOfVals vs).map RegWord.val) = true →
      Shows (a.result (s.start p a.f) (s.exOf p a.op a.f) l, a.flags (s.start p a.f) (s.exOf p a.op a.f) l)
        (out ((a.srcs (s.exOf p a.op a.f) (s.start p a.f) l).map fun vs => (wordsOfVals vs).map RegWord.val)) := fun l hl hcond => by
    have hnone : firstBad (a.srcs (s.exOf p a.op a.f) (s.start p a.f) l).flatten = none :=
      List.find?_eq_none.2 fun v hv => by
        obtain ⟨w, rfl, hw⟩ := hgood l hl v hv
        simp [Val.isBad, hw]
    simp only [Alu.result, Alu.flags, resultOf, hnone, wordsOfVals_ok]
    exact hfn _ _ l rfl rfl hcond
  have hset : ∀ l ∈ (s.exOf p a.op a.f).parts, a.settled (s.start p a.f) (s.exOf p a.op a.f) l := fun l hl v hv => by
    obtain ⟨w, hw, -⟩ := hgood l hl v hv
    exact ⟨w, hw⟩
  obtain ⟨t, ht, hhit, -, -, -, -, hflags, -⟩ := vectorResultAndFrame i a hi s p q hiss hr hd hset
  refine ⟨t, ht, fun l hl hcond h hlt => ?_, fun hall => hflags.trans (congrArg _ (List.foldl_ext _ _ _ fun m l hl => ?_))⟩
  · obtain ⟨hvals, hpoison, hshort, -⟩ := hshows l hl hcond
    have hin : h < (a.result (s.start p a.f) (s.exOf p a.op a.f) l).length := by rwa [← hvals, List.length_map] at hlt
    have hwrote : wrote (a.result (s.start p a.f) (s.exOf p a.op a.f) l) h := by
      dsimp only at hshort
      unfold wrote
      omega
    rw [hhit l hl h hwrote, ← hvals]
    have hmem := hpoison _ (List.getElem_mem hin)
    simpa [List.getD_eq_getElem?_getD, hin] using hmem
  · rw [← (hshows l hl (hall l hl)).flags]

/-! Codes of single precision, by their magnitude (R128). -/

theorem toNat_magnitude (w : Word) : (w &&& 0x7FFFFFFF).toNat = w.toNat % 2 ^ 31 := by
  rw [BitVec.toNat_and]
  exact Nat.and_two_pow_sub_one_eq_mod w.toNat 31

/-- A code with its exponent, its fraction and their widths written out. -/
theorem decode_eq (v : Nat) : fmtF32.decode false v =
    if v / 2 ^ 23 % 2 ^ 8 + 1 = 2 ^ 8 then
      if v % 2 ^ 23 = 0 then .inf (v / 2 ^ 31 % 2 == 1) else .nan (decide (v % 2 ^ 23 < 2 ^ 22))
    else if v / 2 ^ 23 % 2 ^ 8 = 0 then .fin (v / 2 ^ 31 % 2 == 1) (v % 2 ^ 23) (-149)
    else .fin (v / 2 ^ 31 % 2 == 1) (2 ^ 23 + v % 2 ^ 23) (((v / 2 ^ 23 % 2 ^ 8 : Nat) : Int) - 127 - 23) := rfl

/-- A magnitude above infinity's is a NaN, signalling where the quiet bit is clear. -/
theorem decode_nan {v : Nat} (h : 0x7F800000 < v % 2 ^ 31) : fmtF32.decode false v = .nan (decide (v % 2 ^ 31 < 0x7FC00000)) := by
  rw [decode_eq, if_pos (by omega), if_neg (by omega), FVal.nan.injEq, decide_eq_decide]
  omega

theorem decode_inf {v : Nat} (h : v % 2 ^ 31 = 0x7F800000) : ∃ neg, fmtF32.decode false v = .inf neg := by
  rw [decode_eq, if_pos (by omega), if_pos (by omega)]
  exact ⟨_, rfl⟩

/-- A magnitude below infinity's is finite, and zero alone is a zero. -/
theorem decode_finite {v : Nat} (h : v % 2 ^ 31 < 0x7F800000) :
    ∃ neg m e, fmtF32.decode false v = .fin neg m e ∧ (m = 0 ↔ v % 2 ^ 31 = 0) := by
  rw [decode_eq, if_neg (by omega)]
  split <;> exact ⟨_, _, _, rfl, by omega⟩

theorem isNaN32_eq (w : Word) : isNaN32 w = decide (0x7F800000 < w.toNat % 2 ^ 31) := by
  rw [isNaN32, BitVec.ult, toNat_magnitude]
  rfl

theorem isSNaN32_eq (w : Word) : isSNaN32 w = (decide (0x7F800000 < w.toNat % 2 ^ 31) && decide (w.toNat % 2 ^ 31 < 0x7FC00000)) := by
  rw [isSNaN32, isNaN32_eq, BitVec.getLsbD, Nat.testBit_eq_decide_div_mod_eq, Bool.eq_iff_iff]
  simp only [Bool.and_eq_true, Bool.not_eq_true', decide_eq_true_eq, decide_eq_false_iff_not]
  omega

theorem magnitude_beq (w c : Word) : (w &&& 0x7FFFFFFF == c) = decide (w.toNat % 2 ^ 31 = c.toNat) := by
  rw [Bool.eq_iff_iff, beq_iff_eq, decide_eq_true_eq, ← BitVec.toNat_inj, toNat_magnitude]

/-- What a decoded word is: the tests of the statement on the word agree with those on its value. -/
theorem decode_class (w : Word) : let v := fmtF32.decode false w.toNat
    v.isNan = isNaN32 w ∧ v.isSnan = isSNaN32 w ∧ v.isZero = (w &&& 0x7FFFFFFF == 0) ∧ v.isInf = (w &&& 0x7FFFFFFF == 0x7F800000) := by
  have hnan := decode_nan (v := w.toNat)
  have hinf := decode_inf (v := w.toNat)
  have hfinite := decode_finite (v := w.toNat)
  rw [isNaN32_eq, isSNaN32_eq, magnitude_beq, magnitude_beq]
  generalize w.toNat % 2 ^ 31 = n at hnan hinf hfinite ⊢
  obtain hlt | rfl | hgt := Nat.lt_trichotomy n 0x7F800000
  · obtain ⟨neg, m, e, hv, hm⟩ := hfinite hlt
    have hzero : (m == 0) = decide (n = 0) := by rw [Bool.eq_iff_iff, beq_iff_eq, decide_eq_true_eq, hm]
    rw [hv]
    simp [FVal.isNan, FVal.isSnan, FVal.isZero, FVal.isInf, hzero, hlt.ne, hlt.le]
  · obtain ⟨neg, hv⟩ := hinf rfl
    rw [hv]
    exact ⟨rfl, rfl, rfl, rfl⟩
  · rw [hnan hgt]
    simp [FVal.isNan, FVal.isSnan, FVal.isZero, FVal.isInf, hgt, hgt.ne', Nat.ne_of_gt (Nat.zero_lt_of_lt hgt)]

/-! Sources of single precision. -/

/-- The value of a source's word. -/
def single (ws : List RegWord) : FVal := fmtF32.decode false (natOfWords ws)

/-- The word that a source of one word holds, 0 where it has none. -/
theorem single_eq {ws : List RegWord} (h : Fits false ws) : single ws = fmtF32.decode false ((ws.map RegWord.val).getD 0 0).toNat := by
  rw [single, natOfWords_one h]

theorem zeroInf_single {u v : List RegWord} (hu : Fits false u) (hv : Fits false v) :
    zeroInf (single u) (single v) = zeroByInf32 ((u.map RegWord.val).getD 0 0) ((v.map RegWord.val).getD 0 0) := by
  obtain ⟨-, -, huz, hui⟩ := decode_class ((u.map RegWord.val).getD 0 0)
  obtain ⟨-, -, hvz, hvi⟩ := decode_class ((v.map RegWord.val).getD 0 0)
  rw [zeroInf, single_eq hu, single_eq hv, huz, hui, hvz, hvi, zeroByInf32, Bool.and_comm (_ == 0x7F800000)]

/-- Some source's value passes a test where some source's word does; a missing word reads as 0. -/
theorem any_single {t : FVal → Bool} {p : Word → Bool} (ht : ∀ w : Word, t (fmtF32.decode false w.toNat) = p w) (h0 : p 0 = false)
    {srcs : List (List RegWord)} (hfit : ∀ ws ∈ srcs, Fits false ws) :
    (srcs.map single).any t = (srcs.map (List.map RegWord.val)).any (fun v => v.any p) := by
  induction srcs with
  | nil => rfl
  | cons u r ih =>
    obtain ⟨hu, hr⟩ := List.forall_mem_cons.1 hfit
    have hhead : t (single u) = (u.map RegWord.val).any p := by
      rw [single_eq hu, ht]
      match u, hu with
      | [], _ => exact h0
      | [w], _ => simp
    simp only [List.map_cons, List.any_cons, hhead, ih hr]

theorem any_isNan {srcs : List (List RegWord)} (hfit : ∀ ws ∈ srcs, Fits false ws) :
    (srcs.map single).any FVal.isNan = (srcs.map (List.map RegWord.val)).any (fun v => v.any isNaN32) :=
  any_single (fun w => (decode_class w).1) rfl hfit

theorem any_isSnan {srcs : List (List RegWord)} (hfit : ∀ ws ∈ srcs, Fits false ws) :
    (srcs.map single).any FVal.isSnan = (srcs.map (List.map RegWord.val)).any (fun v => v.any isSNaN32) :=
  any_single (fun w => (decode_class w).2.1) rfl hfit

section
variable {x : Ex} (hmd : x.f.md = 10) (hsub : x.f.sub = 0)
include hmd

theorem fmt_single : x.fmt = fmtF32 := by
  rw [Ex.fmt, Ex.ty, hmd]
  rfl

include hsub

/-- Without .ftz, nothing is flushed (R130). -/
theorem elemIn_single {ws : List RegWord} (h : Fits false ws) : elemIn x (natOfWords ws) 0 = single ws := by
  have hftz : x.ftz = false := by
    rw [Ex.ftz, hsub]
    rfl
  have hbits : elemBits x (natOfWords ws) 0 = natOfWords ws := by
    rw [elemBits, Ex.ty, hmd, natOfWords_one h]
    exact Nat.mod_eq_of_lt (BitVec.isLt _)
  rw [elemIn, hbits, hftz, fmt_single hmd, ← single]
  unfold Fmt.flush
  cases single ws <;> rfl

/-- An instruction of single precision works on its sources' values. -/
theorem floatWords_single (k : Ex → List FVal → Nat × Word) {srcs : List (List RegWord)} (hfit : ∀ ws ∈ srcs, Fits false ws) :
    floatWords k x srcs = (freshWords false (k x (srcs.map single)).1, (k x (srcs.map single)).2) := by
  have hx2 : x.x2 = false := by
    rw [Ex.x2, hsub]
    rfl
  have hel : srcs.map (fun ws => elemIn x (natOfWords ws) 0) = srcs.map single :=
    List.map_congr_left fun ws hws => elemIn_single hmd hsub (hfit ws hws)
  unfold floatWords
  dsimp only
  rw [hx2, hel]
  rfl

end

/-- A NaN among the operands gives the canonical NaN, whatever the operation, and NV alone where one is signalling. -/
theorem arith_nan {x : Ex} (hmd : x.f.md = 10) (op : Rm → List FVal → Exact) {srcs : List (List RegWord)} (hfit : ∀ ws ∈ srcs, Fits false ws)
    (hnan : (srcs.map (List.map RegWord.val)).any (fun v => v.any isNaN32) = true) :
    arith op x (srcs.map single) =
      (0x7FC00000, if (srcs.map (List.map RegWord.val)).any (fun v => v.any isSNaN32) then fNV else 0) := by
  rw [arith, any_isNan hfit, hnan, any_isSnan hfit, fmt_single hmd]
  rfl

theorem orFlags (b c : Bool) : ((if b then fNV else 0) ||| (if c then fNV else 0)) = if b || c then fNV else 0 := by
  cases b <;> cases c <;> rfl

/-- FFMA sets NV for a zero times an infinity even where a quiet NaN is added (R147). -/
theorem ffma_nan {x : Ex} (hmd : x.f.md = 10) {u v w : List RegWord} (hfit : ∀ ws ∈ [u, v, w], Fits false ws)
    (hnan : ([u, v, w].map (List.map RegWord.val)).any (fun v => v.any isNaN32) = true) :
    ffma x ([u, v, w].map single) = (0x7FC00000, if ([u, v, w].map (List.map RegWord.val)).any (fun v => v.any isSNaN32) ||
      zeroByInf32 (word ([u, v, w].map (List.map RegWord.val)) 0) (word ([u, v, w].map (List.map RegWord.val)) 1) then fNV else 0) := by
  have hzero : zeroInf (fArg ([u, v, w].map single) 0) (fArg ([u, v, w].map single) 1) =
      zeroByInf32 (word ([u, v, w].map (List.map RegWord.val)) 0) (word ([u, v, w].map (List.map RegWord.val)) 1) :=
    zeroInf_single (hfit u (by simp)) (hfit v (by simp))
  rw [ffma, arith_nan hmd _ hfit hnan, hzero, orFlags]

/-! Instructions. -/

/-- What the statement says of one instruction of a NaN among its operands. -/
def GivesNaN (f : Fields) (i : Instr) : Prop :=
  ∃ a, floatAlu i = some a ∧ a.GivesWhere i (fun ws => ws.any (fun v => v.any isNaN32))
    (fun ws => ([0x7FC00000], if ws.any (fun v => v.any isSNaN32) || (i == .ffma f && zeroByInf32 (word ws 0) (word ws 1)) then fNV else 0))

theorem fits_spec1 {x : Ex} {k : OpSpec} {w : Bool} (hk : x.k = k) (hA : k.a = .srcW w) (s : State) (l : Nat) :
    ∀ ws ∈ (srcs1 x s l).map wordsOfVals, Fits w ws := by
  have ha := fits_operand s x x.k.a x.f.a l
  rw [hk, hA, isPair_srcW] at ha
  simpa [srcs1, State.srcA, hk, hA] using ha

section
variable {f : Fields} (hmd : f.md = 10) (hsub : f.sub = 0)
include hmd hsub

/-- An instruction other than FFMA that tests its operands for NaNs first. -/
theorem givesNaN_arith {i : Instr} {a : Alu} (hi : floatAlu i = some a) (hf : a.f = f) (hne : i ≠ .ffma f) {op : Rm → List FVal → Exact}
    (hfn : ∀ s, a.fn s = floatWords (arith op))
    (hfit : ∀ s x l, x.k = aluSpec a → ∀ ws ∈ (a.srcs x s l).map wordsOfVals, Fits false ws) : GivesNaN f i := by
  refine ⟨a, hi, givesWhere_of_shows (.inr hi) fun s x l hx hk hnan => ?_⟩
  subst hf
  rw [← hx] at hmd hsub
  have hfits := hfit s x l hk
  simp only [← Function.comp_def, ← List.map_map] at hnan ⊢
  rw [hfn, floatWords_single hmd hsub _ hfits, arith_nan hmd op hfits hnan]
  exact .freshWords rfl (by simp [hne])

theorem ffma_givesNaN : GivesNaN f (.ffma f) := by
  refine ⟨_, rfl, givesWhere_of_shows (.inr rfl) fun s x l (hx : x.f = f) hk hnan => ?_⟩
  rw [← hx] at hmd hsub
  have hfits := fits_spec3 (w := false) hk rfl rfl rfl s l
  simp only [← Function.comp_def, ← List.map_map] at hnan ⊢
  rw [floatWords_single hmd hsub _ hfits]
  obtain ⟨u, v, w, hsrcs⟩ : ∃ u v w, (srcs3 x s l).map wordsOfVals = [u, v, w] := ⟨_, _, _, rfl⟩
  rw [hsrcs] at hfits hnan ⊢
  rw [ffma_nan hmd hfits hnan]
  exact .freshWords rfl (by rw [beq_self_eq_true, Bool.true_and])

end

/-- Settles O47: each instruction tests its operands for NaNs before its operation, and FFMA adds its own test of a zero times an infinity. -/
theorem nanOperands : Obligations.NanOperands := by
  unfold Obligations.NanOperands
  intro f hmd hsub
  change ∀ i ∈ _, GivesNaN f i
  simp only [List.forall_mem_cons]
  refine ⟨?_, ?_, ffma_givesNaN hmd hsub, ?_, ?_, ?_, ?_, ?_, ?_, by simp⟩
  · exact givesNaN_arith hmd hsub rfl rfl nofun (fun _ => rfl) fun s _ l hk => fits_spec2 hk rfl rfl s l
  · exact givesNaN_arith hmd hsub rfl rfl nofun (fun _ => rfl) fun s _ l hk => fits_spec2 hk rfl rfl s l
  · exact givesNaN_arith hmd hsub rfl rfl nofun (fun _ => rfl) fun s _ l hk => fits_spec2 hk rfl rfl s l
  · exact givesNaN_arith hmd hsub rfl rfl nofun (fun _ => rfl) fun s _ l hk => fits_spec1 hk rfl s l
  · exact givesNaN_arith hmd hsub rfl rfl nofun (fun _ => rfl) fun s _ l hk => fits_spec1 hk rfl s l
  · exact givesNaN_arith hmd hsub rfl rfl nofun (fun _ => rfl) fun s _ l hk => fits_spec1 hk rfl s l
  · exact givesNaN_arith hmd hsub rfl rfl nofun (fun _ => rfl) fun s _ l hk => fits_spec1 hk rfl s l
  · exact givesNaN_arith hmd hsub rfl rfl nofun (fun _ => rfl) fun s _ l hk => fits_spec1 hk rfl s l

end Sys2Proof.Machine
end

section
open Sys2Proof Sys2Proof.Machine Sys2Proof.Claims
namespace Sys2Proof.Machine

/-- Settles O2: a floating-point instruction or conversion does what every register-to-register instruction does, so its effect is
`regOut` too, whichever its function of the sources; `floatAlu`'s rows differ only in that function, the sources and the width. -/
theorem floatInstructionsComplete : Obligations.FloatInstructionsComplete := by
  intro i a hi s p q h hr _
  exact alu_completes (.inr hi) h hr

end Sys2Proof.Machine
end

section
open Sys2Proof Sys2Proof.Machine Sys2Proof.Claims
namespace Sys2Proof.Machine

/-! The window in bytes (R166 to R168): the model places registers by words, the spec by bytes. -/

/-- Some bytes lie in the fibre's window (R166). -/
def BytesIn (y : Fibre) (b : Nat × Nat) : Prop :=
  2048 * (y.win.toNat % 512) ≤ b.1 ∧ b.1 + b.2 ≤ 2048 * (y.win.toNat % 512) + 2048 * (y.win.toNat / 65536 % 512)

/-- The footprint of a tile (R167). -/
theorem four_mul_tileWords (v : Word) :
    4 * tileWords v = if v.toNat / 65536 % 8 ≤ 1 then 144 else if v.toNat / 65536 % 8 ≤ 3 then 272 else 528 := by
  unfold tileWords fmtPayload tileFmt
  split
  · rfl
  · split <;> rfl

/-- A range of tiles, of accumulators or of vector registers takes the bytes of its words. -/
theorem regBytes_eq_words (y : Fibre) (r : Nat × Nat × Nat) : regBytes y r = (4 * (rangeWords y r).1, 4 * (rangeWords y r).2) := by
  obtain ⟨kind, first, count⟩ := r
  match kind with
  | 0 => simp only [regBytes, rangeWords, tileOff, ← four_mul_tileWords, Nat.mul_add, ← Nat.mul_assoc]
  | 1 => simp only [regBytes, rangeWords, accOff, Nat.mul_add, ← Nat.mul_assoc]
  | _ + 2 => simp only [regBytes, rangeWords, vecOff, Nat.mul_add, ← Nat.mul_assoc]

/-- The window's test of a range is the spec's test of its bytes. -/
theorem rangeIn_iff_bytesIn (y : Fibre) (r : Nat × Nat × Nat) : rangeIn y r = true ↔ BytesIn y (regBytes y r) := by
  simp only [rangeIn, inWindow, BytesIn, regBytes_eq_words, Bool.and_eq_true, decide_eq_true_eq]
  omega

/-- An operand code is tested exactly where it names vector registers. -/
theorem codeIn_iff (y : Fibre) (c : Cls) (code : BitVec 8) : codeIn y c code = true ↔ ∀ r, opRange c code = some r → rangeIn y r = true :=
  Option.all_eq_true _ _

/-- The registers that an instruction names are those of its four operand codes, and its ranges. -/
theorem mem_namedRegs {op : Nat} {k : OpSpec} {f : Fields} {r : Nat × Nat × Nat} :
    r ∈ namedRegs op k f ↔ opRange k.d f.d = some r ∨ opRange k.a f.a = some r ∨ opRange k.b f.b = some r ∨ opRange k.c f.c = some r ∨
      r ∈ namedRanges op f := by
  simp only [namedRegs, opRange, List.mem_append, List.mem_filterMap, List.mem_cons, List.not_mem_nil, or_false, exists_eq_or_imp,
    exists_eq_left, or_assoc]

/-- The window is tested of the registers that the instruction names, and of no others. -/
theorem windowOk_iff (y : Fibre) (op : Nat) (k : OpSpec) (f : Fields) :
    windowOk y op k f = true ↔ ∀ r ∈ namedRegs op k f, BytesIn y (regBytes y r) := by
  simp only [windowOk, Bool.and_eq_true, codeIn_iff, List.all_eq_true, ← rangeIn_iff_bytesIn, mem_namedRegs, or_imp, forall_and, and_assoc]

/-- Bytes that start below the window or end above it do not lie in it. -/
theorem not_bytesIn {y : Fibre} {b : Nat × Nat} (h : b.1 < 2048 * (y.win.toNat % 512) ∨
    2048 * (y.win.toNat % 512) + 2048 * (y.win.toNat / 65536 % 512) < b.1 + b.2) : ¬ BytesIn y b :=
  fun ⟨hlo, hhi⟩ => h.elim (Nat.not_lt.2 hlo) (Nat.not_lt.2 hhi)

/-- In the window of 6 KiB at the start of the allocation, with v0 at its first byte, v47 is the last register (R168). -/
theorem rangeIn_sixKiB {y : Fibre} (hv : y.vvec = 0) (hw : y.win = 0x30000) (n : Nat) : rangeIn y (2, n, 1) = true ↔ n < 48 := by
  have hreg : regBytes y (2, n, 1) = (128 * n, 128) := by simp [regBytes, hv]
  have hwin : BytesIn y (128 * n, 128) ↔ 128 * n + 128 ≤ 6144 := by simp [BytesIn, hw]
  rw [rangeIn_iff_bytesIn, hreg, hwin]
  omega

/-- Settles O59: `runPath` tests the window before it reads the guard, and its test in words is the test in bytes. A of NBR and CXS is among
the registers it tests (log 140). -/
theorem windowIsTested : Obligations.WindowIsTested := by
  refine ⟨fun i op f hi s p q ht => ?freezes, fun s p q op f h => ?within, fun y op k f h => ?passes, fun y n hv hw => rangeIn_sixKiB hv hw n⟩
  case freezes =>
    rintro y ⟨r, hr, hout⟩
    obtain ⟨body, hrun⟩ := fibreInstr_runs hi
    have hw : windowOk y op (s.exOf p op f).k f = false :=
      Bool.eq_false_iff.2 fun hok => not_bytesIn hout ((windowOk_iff y op _ f).1 hok r hr)
    exact (hrun s).trans (runInstr_windowed ht hw)
  case within => exact (windowOk_iff _ op _ f).1 h.window
  case passes => exact (windowOk_iff y op k f).2 h

end Sys2Proof.Machine
end

section
open Sys2Proof Sys2Proof.Machine Sys2Proof.Claims
namespace Sys2Proof.Machine

/-! Tiles, accumulators, tags, regions and poison (R204, R344 to R354, R398 to R417, R492). -/

/-- CMT completes where it can go on and no held store keeps it waiting. What it leaves is of the fibre as it finds it: records that path one
of the cycle has parked have gone (R412). -/
theorem cmt_ends (f : Fields) (e : Fx) (he : tileFx (.cmt f) = some e) : e.Ends (.cmt f) := by
  cases he
  refine ends_of_steady (body := cmtBody) (fun _ => rfl) (fun x s h => ?_) fun g x s => st_cmtOut x _ (st_cmtView x s (Steady.refl ..))
  obtain ⟨hready, hwaits⟩ := Bool.and_eq_true_iff.1 h
  rw [Bool.not_eq_true'] at hwaits
  simp [cmtBody, hready, hwaits]

/-- Settles O7: the effect of each is steady. STT and STAC go on where the quarantine has room, CMT where no held store keeps it waiting. -/
theorem tileAndRegionInstructionsComplete : Obligations.TileAndRegionInstructionsComplete := by
  intro i e h
  have hrow := h
  unfold tileFx at h
  split at h <;> cases h
  case h_13 => exact cmt_ends _ _ hrow
  · exact ends_when_ready (fun _ => rfl) fun _ _ _ => st_xvsetOut _ _ (Steady.refl ..)
  · exact ends_when_ready (fun _ => rfl) fun _ _ _ => st_quantOut _ _ _ (Steady.refl ..)
  · exact ends_when_ready (fun _ => rfl) fun _ _ _ => st_dqOut _ _ (Steady.refl ..)
  · exact ends_when_ready (fun _ => rfl) fun _ _ _ => st_quantOut _ _ _ (Steady.refl ..)
  · exact ends_when_ready (fun _ => rfl) fun _ _ _ => st_saccOut _ _ (Steady.refl ..)
  · exact ends_when_ready (fun _ => rfl) fun _ _ _ => st_ttrOut _ _ (Steady.refl ..)
  · exact ends_when_ready (fun _ => rfl) fun _ _ _ => st_tileLoadOut _ _ _ (Steady.refl ..)
  · exact store_ends (fun _ => rfl) fun _ _ _ => st_tileStoreOut _ _ _ (Steady.refl ..)
  · exact ends_when_ready (fun _ => rfl) fun _ _ _ => st_tileLoadOut _ _ _ (Steady.refl ..)
  · exact store_ends (fun _ => rfl) fun _ _ _ => st_tileStoreOut _ _ _ (Steady.refl ..)
  · exact ends_when_ready (fun _ => rfl) fun _ _ _ => st_festOut _ _ (Steady.refl ..)
  · exact ends_when_ready (fun _ => rfl) fun _ _ _ => st_rgnoOut _ _ (Steady.refl ..)
  · exact ends_when_ready (fun _ => rfl) fun _ _ _ => st_psetOut _ _ (Steady.refl ..)
  · exact ends_when_ready (fun _ => rfl) fun _ _ _ => st_cartOut _ _ (Steady.refl ..)
  · exact ends_when_ready (fun _ => rfl) fun _ _ _ => st_perfOut _ _ (Steady.refl ..)

end Sys2Proof.Machine
end

section
open Sys2Proof Sys2Proof.Machine Sys2Proof.Claims
namespace Sys2Proof.Machine

/-! The completion of a barrier (R201, step 3). -/

/-- A barrier object whose phase has completed. -/
def Barrier.completed (b : Barrier) : Barrier :=
  { b with cnt := b.cnt - b.exp, exp := b.exp - b.drop, drop := 0, phase := b.phase + 1, arr := [] }

/-- With no arrival in the cycle, an object that has its arrivals completes. That DROP stops at 65,535 (log 25) makes no difference: EXP is at
most CNT, so that more would leave nothing of it either way. -/
theorem Barrier.update_due {b : Barrier} (he : b.exp ≠ 0) (hd : b.exp ≤ b.cnt) (hc : b.cnt ≤ 65535) : b.update 0 0 = b.completed := by
  have hcnt : min (b.cnt + 0) 65535 = b.cnt := by omega
  have hexp : b.exp - min (b.drop + 0) 65535 = b.exp - b.drop := by omega
  simp only [Barrier.update, hcnt, hexp]
  rw [if_pos ⟨he, hd⟩]
  rfl

/-- The state whose barrier `n` has completed, its waiters not yet released. -/
def State.complete (s : State) (g n : Nat) : State := s.modBar g n fun _ => (s.barAt g n).completed

/-- The step on a barrier that has its arrivals: the object completes, and its waiters are released. -/
theorem exec_barrierRepeatCompletion_due {s : State} {g n : Nat} (he : (s.barAt g n).exp ≠ 0) (hd : (s.barAt g n).exp ≤ (s.barAt g n).cnt)
    (hc : (s.barAt g n).cnt ≤ 65535) : exec (.barrierRepeatCompletion g n) s = .next ((s.complete g n).release g n).wake := by
  have hdue : barrierRepeatCompletion g n s = (s.flushBar g n []).wake := if_pos (by simp [he, hd])
  have hflush : s.flushBar g n [] = (s.modBar g n fun _ => (s.barAt g n).update 0 0).release g n := rfl
  rw [State.complete, ← Barrier.update_due he hd hc, ← hflush, ← hdue]
  rfl

theorem barAt_complete {s : State} {g n : Nat} (hp : (s.group? g).isSome = true) (hn : n < (s.groupAt g).bars.length) (m : Nat) :
    (s.complete g n).barAt g m = if m = n then (s.barAt g n).completed else s.barAt g m := by
  unfold State.complete State.modBar
  rw [State.barAt, groupAt_modGroup s g g _ hp, if_pos rfl]
  exact getD_modAt _ _ _ _ _ hn

theorem laneAt_complete (s : State) (g n j w f l : Nat) : (s.complete g n).laneAt j w f l = s.laneAt j w f l :=
  keeps_modGroup (fun x => ((x.warps.getD w {}).fibres.getD f {}).lanes.getD l {}) _ (fun _ => by rfl) s g j

/-! The release of a barrier's waiters (R201, step 4). -/

/-- Whether a lane waits at barrier `n` with another token than `ph`. -/
def LaneState.freed (n : Nat) (ph : BitVec 16) : LaneState → Bool
  | .waiting (.bar m tok) => m == n && tok != ph
  | _ => false

theorem LaneState.freed_waiting {n : Nat} {ph tok : BitVec 16} (h : tok ≠ ph) : (LaneState.waiting (.bar n tok)).freed n ph = true := by
  simp [LaneState.freed, h]

/-- Whether some lane of a fibre, or of a warp, does. -/
def Fibre.frees (n : Nat) (ph : BitVec 16) (y : Fibre) : Bool := y.lanes.any fun l => l.st.freed n ph
def Warp.frees (n : Nat) (ph : BitVec 16) (x : Warp) : Bool := x.fibres.any (Fibre.frees n ph)

/-- A fibre, and a warp, with these lanes active; a fibre that has any notes an acquire, of number `i`. -/
def Fibre.release (i n : Nat) (ph : BitVec 16) (y : Fibre) : Fibre :=
  if y.frees n ph then
    mapLanes { y with fences := y.fences ++ [{ id := i, rel := false, acq := true, after := y.after }] }
      (fun l => if l.st.freed n ph then { l with st := .active } else l)
  else y
def Warp.release (i n : Nat) (ph : BitVec 16) (x : Warp) : Warp := mapFibres x fun _ => Fibre.release i n ph

/-- A release does nothing where no lane of the group waits for an earlier phase; otherwise it is `Warp.release` of each of its warps. -/
theorem release_eq (s : State) (g n : Nat) :
    s.release g n = if !(s.groupAt g).warps.any (Warp.frees n (s.barAt g n).phase) then s else
      s.newId.2.modGroup g fun x => { x with warps := x.warps.map (Warp.release s.idN n (s.barAt g n).phase) } := rfl

theorem barAt_release (s : State) (g n j m : Nat) : (s.release g n).barAt j m = s.barAt j m := by
  rw [release_eq]
  split
  · rfl
  · exact keeps_modGroup (fun x => x.bars.getD m {}) _ (fun _ => by rfl) s.newId.2 g j

/-- What an entry of a list has and the default has not, some member has. -/
theorem any_of_getD {α : Type} {p : α → Bool} {xs : List α} {i : Nat} {d : α} (hd : p d = false) (h : p (xs.getD i d) = true) :
    xs.any p = true := by
  rw [List.getD_eq_getElem?_getD] at h
  cases hx : xs[i]? with
  | none => rw [hx, Option.getD_none, hd] at h; cases h
  | some x => rw [hx] at h; exact List.any_eq_true.2 ⟨x, List.mem_of_getElem? hx, h⟩

theorem getD_mapIdx_of {α β : Type} (xs : List α) (i : Nat) (k : Nat → α → β) (d : α) : (xs.mapIdx k).getD i (k i d) = k i (xs.getD i d) := by
  simp only [List.getD_eq_getElem?_getD, List.getElem?_mapIdx]
  cases xs[i]? <;> rfl

/-- A fibre's release makes active each of its lanes that waits for an earlier phase. -/
theorem Fibre.release_active {i n l : Nat} {ph : BitVec 16} {y : Fibre} (h : (y.lanes.getD l {}).st.freed n ph = true) :
    ((y.release i n ph).lanes.getD l {}).st = .active := by
  have hfrees : y.frees n ph = true := any_of_getD (p := fun l : Lane => l.st.freed n ph) rfl h
  have hlane : (y.release i n ph).lanes.getD l {} =
      if (y.lanes.getD l {}).st.freed n ph then { y.lanes.getD l {} with st := .active } else y.lanes.getD l {} := by
    rw [Fibre.release, if_pos hfrees]
    exact getD_map_of y.lanes l (fun l => if l.st.freed n ph then { l with st := .active } else l) {}
  rw [hlane, if_pos h]

/-- A fibre of the group as a release leaves it that frees some lane of the group. -/
theorem fibreAt_release {s : State} {g n : Nat} (hp : (s.group? g).isSome = true)
    (hany : (s.groupAt g).warps.any (Warp.frees n (s.barAt g n).phase) = true) (w f : Nat) :
    (s.release g n).fibreAt g w f = (s.fibreAt g w f).release s.idN n (s.barAt g n).phase := by
  have hwarp : (s.release g n).warpAt g w = (s.warpAt g w).release s.idN n (s.barAt g n).phase := by
    rw [release_eq, if_neg (by simp [hany]), State.warpAt, groupAt_modGroup s.newId.2 g g _ hp, if_pos rfl]
    exact getD_map_of (s.groupAt g).warps w (Warp.release s.idN n (s.barAt g n).phase) {}
  rw [State.fibreAt, hwarp]
  exact getD_mapIdx_of (s.warpAt g w).fibres f (fun _ => Fibre.release s.idN n (s.barAt g n).phase) {}

/-- A release makes active each lane of the group that waits for an earlier phase. -/
theorem release_active {s : State} {g n w f l : Nat} (hp : (s.group? g).isSome = true)
    (h : (s.laneAt g w f l).st.freed n (s.barAt g n).phase = true) : ((s.release g n).laneAt g w f l).st = .active := by
  have hfibre : (s.fibreAt g w f).frees n (s.barAt g n).phase = true := any_of_getD (p := fun l : Lane => l.st.freed n (s.barAt g n).phase) rfl h
  have hwarp : (s.warpAt g w).frees n (s.barAt g n).phase = true := any_of_getD rfl hfibre
  rw [State.laneAt, fibreAt_release hp (any_of_getD rfl hwarp)]
  exact Fibre.release_active h

/-- Settles O42: the step is one completion of the object and the release of its waiters, and both keep memory and every register, as they do
at a freeze. -/
theorem barrierCompletes : Obligations.BarrierCompletes := by
  intro s g n hp hn he hd hc
  refine ⟨_, exec_barrierRepeatCompletion_due he hd hc, ?_⟩
  have hbar : ∀ m, ((s.complete g n).release g n).wake.barAt g m = if m = n then (s.barAt g n).completed else s.barAt g m :=
    fun m => (barAt_release (s.complete g n) g n g m).trans (barAt_complete hp hn m)
  have hkept : Outlasts s ((s.complete g n).release g n).wake :=
    (outlasts_modBar ..).trans ((outlasts_release ..).trans (outlasts_of_groups rfl rfl rfl))
  rw [(hbar n).trans (if_pos rfl)]
  refine ⟨rfl, rfl, rfl, rfl, rfl, ?released, fun m hm => (hbar m).trans (if_neg hm), hkept.mem, hkept.regAt, hkept.uregAt⟩
  intro w f l tok hst htok
  have hfreed : ((s.complete g n).laneAt g w f l).st.freed n ((s.complete g n).barAt g n).phase = true := by
    rw [laneAt_complete, hst, barAt_complete hp hn, if_pos rfl]
    exact LaneState.freed_waiting htok
  exact release_active ((placed_modGroup ..).trans hp) hfreed

end Sys2Proof.Machine
end

section
open Sys2Proof Sys2Proof.Machine Sys2Proof.Claims
namespace Sys2Proof.Machine

/-! Writes of registers (R229 to R231, R437, R494). -/

theorem exec_registerWrite (pg : RegPage) (off : Nat) (v : DWord) (s : State) :
    exec (.registerWrite pg off v) s = .next (registerWrite pg off v s) := rfl

/-- The reserved bits of QNOTIFY are zero where the number is below 4,096 (R231). -/
theorem qnotify_eq (v : Word) (s : State) : qnotify v s =
    if v.toNat < 4096 then s.notifyQueue v.toNat else s.modEngine fun e => { e with lestat := e.lestat ||| lsQERR } := by
  unfold qnotify
  by_cases h : v.toNat < 4096
  · rw [if_pos h, if_neg (by omega)]
  · rw [if_neg h, if_pos (by omega)]

/-- SCRCTL sets GO and BLOCK and clears neither; GO starts the count anew (R437). -/
theorem scrctlWrite_eq (v : Word) (s : State) : scrctlWrite v s =
    { s with scrub := { s.scrub with ctl := s.scrub.ctl ||| (v &&& 3), prog := if v.getLsbD 0 then 0 else s.scrub.prog } } := by
  have hbits : v &&& 3 = (if v.getLsbD 1 then 2 else 0) ||| (if v.getLsbD 0 then 1 else 0) := calc
    v &&& 3 = v &&& BitVec.twoPow 32 1 ||| v &&& BitVec.twoPow 32 0 := by rw [← BitVec.and_or_distrib_left]; rfl
    _ = _ := by rw [BitVec.and_twoPow, BitVec.and_twoPow]; rfl
  rw [hbits]
  unfold scrctlWrite scrctlGo scrctlBlock
  cases v.getLsbD 0 <;> cases v.getLsbD 1 <;> simp [BitVec.or_assoc]

theorem registerWrite_scrctl (v : DWord) (s : State) : registerWrite .scrub 0x000 v s =
    { s with scrub := { s.scrub with
        ctl := s.scrub.ctl ||| (v.setWidth 32 &&& 3)
        prog := if (v.setWidth 32 : Word).getLsbD 0 then 0 else s.scrub.prog } } :=
  scrctlWrite_eq _ s

theorem rasCntOk_iff (v : Word) : rasCntOk v = true ↔ ∃ k, k < 13 ∧ v.toNat = 16 * 2 ^ k := by
  simp [rasCntOk]

/-- LECTL's EN and PAUSE are written one after the other (R230, R438). -/
theorem lectlWrite_eq (v : Word) (s : State) : lectlWrite v s =
    ((if v.getLsbD 0 && s.scrub.ctl.getLsbD 1 then s else (s.modEngine fun e =>
        { e with lectl := if v.getLsbD 0 then e.lectl ||| 1 else e.lectl &&& ~~~1 }).settleAges).modEngine fun e =>
      { e with lectl := if v.getLsbD 1 then e.lectl ||| 2 else e.lectl &&& ~~~2 }).settleAges := rfl

/-- Settles O25: each write is the model's own, but for LECTL, QNOTIFY, SCRCTL and RASCNT, whose equations are above. -/
theorem registerWritesTakeEffect : Obligations.RegisterWritesTakeEffect := by
  intro s v
  dsimp only
  simp only [exec_registerWrite, Host.Outcome.next.injEq]
  refine ⟨lectlWrite_eq _ s, rfl, rfl, rfl, rfl, rfl, rfl, rfl, qnotify_eq _ s, scrctlWrite_eq _ s, rfl, rfl, rfl, rfl, ?rascnt, rfl, rfl⟩
  simp only [← rasCntOk_iff]
  rfl

end Sys2Proof.Machine
end

section
open Sys2Proof Sys2Proof.Machine Sys2Proof.Claims
namespace Sys2Proof.Machine

/-! Fields of words. -/

/-- A field of a word, bit by bit. -/
theorem extractLsb'_eq {m n lo : Nat} {y : BitVec m} {b : BitVec n} (h : ∀ i, i < n → y.getLsbD (lo + i) = b.getLsbD i) :
    y.extractLsb' lo n = b :=
  BitVec.eq_of_getLsbD_eq fun i hi => by rw [BitVec.getLsbD_extractLsb', h i hi, decide_eq_true hi, Bool.true_and]

theorem getLsbD_shown (y : Word) {i : Nat} (hi : i < 32) : (y.setWidth 64).getLsbD i = y.getLsbD i := by
  have hwide : i < 64 := by omega
  rw [BitVec.getLsbD_setWidth, decide_eq_true hwide, Bool.true_and]

/-- Bits that are cleared in a register's word are cleared in what its page shows, and no other. -/
theorem setWidth_clear (y m : Word) : (y &&& ~~~m).setWidth 64 = y.setWidth 64 &&& ~~~(m.setWidth 64) := by
  refine BitVec.eq_of_getLsbD_eq fun i hi => ?_
  by_cases h : i < 32
  · simp [hi, h]
  · simp [h, BitVec.getLsbD_of_ge y i (by omega)]

/-- A word with bit `j` as given. -/
def putBit (y : Word) (j : Nat) (b : Bool) : Word := if b then y ||| BitVec.twoPow 32 j else y &&& ~~~BitVec.twoPow 32 j

theorem getLsbD_putBit (y : Word) {j : Nat} (hj : j < 32) (b : Bool) (k : Nat) :
    (putBit y j b).getLsbD k = if k = j then b else y.getLsbD k := by
  by_cases h : k = j
  · subst h
    cases b <;> simp [putBit, hj]
  · cases b
    · by_cases hk : k < 32
      · simp [putBit, h, hk]
      · simp [putBit, h, BitVec.getLsbD_of_ge y k (by omega)]
    · simp [putBit, h, Ne.symm h]

/-! Reads of registers (R5, R229, R437, R494). -/

theorem readRegister_ite (c : Prop) [Decidable c] (s t : State) (pg : RegPage) (off : Nat) :
    (if c then s else t).readRegister pg off = if c then s.readRegister pg off else t.readRegister pg off :=
  apply_ite (fun u : State => u.readRegister pg off) c s t

/-- A register that EN locks shows what it showed while EN is 1, and otherwise what has been written (R230). -/
theorem readRegister_locked {s : State} {off : Nat} {v d : DWord} {f : Engine → Engine}
    (hw : registerWrite .launch off v s = if s.engine.lectl.getLsbD 0 then s else s.modEngine f)
    (hr : (s.modEngine f).readRegister .launch off = d) :
    (registerWrite .launch off v s).readRegister .launch off = if s.engine.lectl.getLsbD 0 then s.readRegister .launch off else d := by
  rw [hw, readRegister_ite, hr]

/-- What is read at an offset that holds no register (R5). -/
theorem readRegister_unlisted (s : State) (pg : RegPage) (off : Nat)
    (h : off % 8 ≠ 0 ∨ 0x300 ≤ off ∨ (pg = .launch ∧ 0x048 < off ∧ off < 0x100) ∨ (pg = .scrub ∧ 0x020 < off) ∨
      (pg = .ras ∧ 0x030 < off)) :
    s.readRegister pg off = 0 := by
  unfold State.readRegister
  dsimp only
  split
  case h_11 =>
    simp only [reduceCtorEq, true_and, false_and, or_false] at h
    refine if_neg ?_
    simp only [Bool.and_eq_true, decide_eq_true_eq]
    omega
  case h_12 | h_18 | h_26 => rfl
  all_goals exact absurd h (by decide)

/-- The offsets of the 64 slot words stand above those of the launch page's registers (R230). -/
theorem readRegister_slot (s : State) {k : Nat} (hk : k < 64) : s.readRegister .launch (0x100 + 8 * k) = (s.slotWord k).setWidth 64 := by
  obtain ⟨hlast, haligned, hindex⟩ : 0x100 + 8 * k < 0x300 ∧ (0x100 + 8 * k) % 8 = 0 ∧ (0x100 + 8 * k - 0x100) / 8 = k := by omega
  unfold State.readRegister
  dsimp only
  split
  case h_11 =>
    rw [hindex]
    exact if_pos (by simp [hlast, haligned])
  any_goals contradiction
  all_goals omega

theorem registerWrite_readOnly {off : Nat} (h : off = 0x020 ∨ off = 0x028 ∨ 0x100 ≤ off) (v : DWord) (s : State) :
    registerWrite .launch off v s = s := by
  unfold registerWrite
  dsimp only
  split
  case h_18 => rfl
  all_goals contradiction

/-! LECTL and RASSTAT (R230, R438, R494). -/

theorem lectl_lectlWrite (v : Word) (s : State) : (lectlWrite v s).engine.lectl =
    putBit (if v.getLsbD 0 && s.scrub.ctl.getLsbD 1 then s.engine.lectl else putBit s.engine.lectl 0 (v.getLsbD 0)) 1 (v.getLsbD 1) := by
  rw [lectlWrite_eq]
  split <;> rfl

/-- LECTL as its page shows it after a write: EN is not set while BLOCK is 1 (R230, R438). -/
theorem lectlWrite_shown (w : Word) (s : State) : let r : DWord := (lectlWrite w s).engine.lectl.setWidth 64
    r.getLsbD 0 = (if w.getLsbD 0 && s.scrub.ctl.getLsbD 1 then s.engine.lectl.getLsbD 0 else w.getLsbD 0) ∧ r.getLsbD 1 = w.getLsbD 1 ∧
    ∀ k, 2 ≤ k → r.getLsbD k = (s.engine.lectl.setWidth 64 : DWord).getLsbD k := by
  have hpause : ∀ k, (lectlWrite w s).engine.lectl.getLsbD k = if k = 1 then w.getLsbD 1 else
      if w.getLsbD 0 && s.scrub.ctl.getLsbD 1 then s.engine.lectl.getLsbD k else (putBit s.engine.lectl 0 (w.getLsbD 0)).getLsbD k := by
    intro k
    rw [lectl_lectlWrite, getLsbD_putBit _ (by decide), apply_ite (BitVec.getLsbD · k)]
  have hen := getLsbD_putBit s.engine.lectl (j := 0) (by decide) (w.getLsbD 0)
  simp only [BitVec.getLsbD_setWidth, hpause, hen]
  refine ⟨rfl, rfl, fun k hk => ?_⟩
  obtain ⟨hk1, hk0⟩ : k ≠ 1 ∧ k ≠ 0 := by omega
  rw [if_neg hk1, if_neg hk0, ite_self]

theorem and_rasOVF_ne_zero (w : Word) : (w &&& rasOVF != 0) = w.getLsbD 31 := by
  have h : w &&& rasOVF = if w.getLsbD 31 then BitVec.twoPow 32 31 else 0 := BitVec.and_twoPow w 31
  rw [h]
  cases w.getLsbD 31 <;> rfl

/-- RASSTAT after a write: bits 31 and 30 are OVF and UE, bits 15 to 0 are LOST (R494). -/
theorem getLsbD_rasstat (w : Word) (s : State) {k : Nat} (hk : k < 32) : (rasstat w s).ras.stat.getLsbD k =
    (s.ras.stat.getLsbD k && !(w.getLsbD k && decide (30 ≤ k)) && !(w.getLsbD 31 && decide (k < 16))) := by
  have hones : (rasOVF ||| rasUE).getLsbD k = decide (30 ≤ k) := by decide +revert
  have hhigh : (0xFFFF0000 : Word).getLsbD k = !decide (k < 16) := by decide +revert
  unfold rasstat
  dsimp only
  rw [and_rasOVF_ne_zero]
  have hclear : (s.ras.stat &&& ~~~(w &&& (rasOVF ||| rasUE))).getLsbD k = (s.ras.stat.getLsbD k && !(w.getLsbD k && decide (30 ≤ k))) := by
    simp only [BitVec.getLsbD_and, BitVec.getLsbD_not, hones, hk, decide_true, Bool.true_and]
  cases w.getLsbD 31 with
  | false => simpa using hclear
  | true => simp only [if_true, BitVec.getLsbD_and, hclear, hhigh, Bool.true_and]

/-- RASSTAT as its page shows it after a write (R494). -/
theorem rasstat_shown (w : Word) (s : State) : let r : DWord := (rasstat w s).ras.stat.setWidth 64; let o : DWord := s.ras.stat.setWidth 64
    r.getLsbD 31 = (o.getLsbD 31 && !w.getLsbD 31) ∧ r.getLsbD 30 = (o.getLsbD 30 && !w.getLsbD 30) ∧
    r.extractLsb' 16 14 = o.extractLsb' 16 14 ∧ r.extractLsb' 0 16 = if w.getLsbD 31 then 0 else o.extractLsb' 0 16 := by
  have hbit : ∀ i, i < 32 → ((rasstat w s).ras.stat.setWidth 64).getLsbD i = (((s.ras.stat.setWidth 64 : DWord).getLsbD i &&
      !(w.getLsbD i && decide (30 ≤ i))) && !(w.getLsbD 31 && decide (i < 16))) := by
    intro i hi
    rw [getLsbD_shown _ hi, getLsbD_shown _ hi, getLsbD_rasstat w s hi]
  refine ⟨?ovf, ?ue, extractLsb'_eq ?reserved, extractLsb'_eq ?lost⟩
  case ovf => rw [hbit 31 (by decide)]; simp
  case ue => rw [hbit 30 (by decide)]; simp
  case reserved =>
    intro i hi
    have hmid : ¬ 30 ≤ 16 + i ∧ ¬ 16 + i < 16 := by omega
    rw [hbit _ (by omega), BitVec.getLsbD_extractLsb']
    simp [hmid, hi]
  case lost =>
    intro i hi
    obtain ⟨hflags, hlow⟩ : ¬ 30 ≤ 0 + i ∧ 0 + i < 16 := by omega
    rw [hbit _ (by omega), decide_eq_false hflags, decide_eq_true hlow, Bool.and_false, Bool.not_false, Bool.and_true, Bool.and_true]
    cases w.getLsbD 31 with
    | false => simp [BitVec.getLsbD_extractLsb', hi, -BitVec.getLsbD_eq_getElem]
    | true => simp

/-! Slot words (R230). -/

/-- The priority stands above the twelve bits of the queue's number (R230). -/
theorem testBit_slotFields (p q i : Nat) :
    (4096 * p + q % 4096).testBit i = if i < 12 then q.testBit i else p.testBit (i - 12) := by
  rw [show 4096 = 2 ^ 12 from rfl, Nat.testBit_two_pow_mul_add p (Nat.mod_lt q (by decide)) i, Nat.testBit_mod_two_pow]
  split
  · next h => simp [h]
  · rfl

theorem slotPriority_lt (s : State) (k : Nat) (x : Slot) : ((s.slotDesc k x).map (s.effective k)).getD 0 < 4 := by
  cases s.slotDesc k x with
  | none => exact Nat.succ_pos 3
  | some d =>
    dsimp only [Option.map_some, Option.getD_some]
    unfold State.effective
    split
    · omega
    · decide

/-- A slot word's bits: queue, priority, and the three flags. -/
theorem getLsbD_slotWord {s : State} {k : Nat} {x : Slot} (hx : sget s.engine.slots k = some x) {i : Nat} (hi : i < 32) :
    (s.slotWord k).getLsbD i = (decide (i = 31) || decide (i = 30) && s.queueBusy x.queue || decide (i = 29) && x.raised ||
      if i < 12 then x.queue.testBit i else (((s.slotDesc k x).map (s.effective k)).getD 0).testBit (i - 12)) := by
  have hflag : ∀ (b : Bool) (j : Nat), j < 32 → (if b then BitVec.twoPow 32 j else 0).getLsbD i = (decide (i = j) && b) := by
    intro b j hj
    cases b <;> simp [hj, eq_comm]
  have hword : s.slotWord k = (if true then BitVec.twoPow 32 31 else 0) ||| (if s.queueBusy x.queue then BitVec.twoPow 32 30 else 0)
      ||| (if x.raised then BitVec.twoPow 32 29 else 0)
      ||| BitVec.ofNat 32 (4096 * ((s.slotDesc k x).map (s.effective k)).getD 0 + x.queue % 4096) := by
    unfold State.slotWord
    rw [hx]
    rfl
  rw [hword, BitVec.getLsbD_or, BitVec.getLsbD_or, BitVec.getLsbD_or, hflag, hflag, hflag, BitVec.getLsbD_ofNat,
    testBit_slotFields]
  · simp [hi]
  all_goals decide

/-- The flags and fields of the word of a bound slot, as its page shows them (R230). -/
theorem slotWord_bound {s : State} {k : Nat} {x : Slot} (hx : sget s.engine.slots k = some x) : let r : DWord := (s.slotWord k).setWidth 64
    r.getLsbD 31 = true ∧ r.getLsbD 30 = s.queueBusy x.queue ∧ r.getLsbD 29 = x.raised ∧ r.extractLsb' 14 15 = 0 ∧
    r.extractLsb' 12 2 = BitVec.ofNat 2 (((s.slotDesc k x).map (s.effective k)).getD 0) ∧
    r.extractLsb' 0 12 = BitVec.ofNat 12 x.queue ∧ r.extractLsb' 32 32 = 0 := by
  have hbit := fun (i : Nat) (hi : i < 32) => (getLsbD_shown (s.slotWord k) hi).trans (getLsbD_slotWord hx hi)
  have hprio : ∀ i, 14 ≤ i → (((s.slotDesc k x).map (s.effective k)).getD 0).testBit (i - 12) = false := fun i hi =>
    Nat.testBit_lt_two_pow ((slotPriority_lt s k x).trans_le (Nat.pow_le_pow_right Nat.two_pos (show 2 ≤ i - 12 by omega)))
  refine ⟨?valid, ?busy, ?raised, extractLsb'_eq ?zeros, extractLsb'_eq ?prio, extractLsb'_eq ?queue, extractLsb'_eq ?upper⟩
  case valid => rw [hbit 31 (by decide)]; simp
  case busy => rw [hbit 30 (by decide)]; simp [hprio 30]
  case raised => rw [hbit 29 (by decide)]; simp [hprio 29]
  case zeros =>
    intro i hi
    rw [hbit _ (by omega), hprio _ (by omega)]
    simp
    omega
  case prio =>
    intro i hi
    rw [hbit _ (by omega)]
    have hflags : ¬ 12 + i = 31 ∧ ¬ 12 + i = 30 ∧ ¬ 12 + i = 29 := by omega
    simp [hflags, BitVec.getLsbD_ofNat, hi, -BitVec.getLsbD_eq_getElem]
  case queue =>
    intro i hi
    rw [hbit _ (by omega)]
    have hflags : ¬ i = 31 ∧ ¬ i = 30 ∧ ¬ i = 29 := by omega
    simp [hflags, BitVec.getLsbD_ofNat, hi, -BitVec.getLsbD_eq_getElem]
  case upper => simp

/-! The pages. -/

/-- Settles O26, page by page: what is shown of a register is what the write has left in its field. -/
theorem registersReadBack : Obligations.RegistersReadBack := by
  intro s t pg off v h
  obtain rfl : registerWrite pg off v s = t := Host.Outcome.next.inj h
  clear h
  dsimp only
  refine ⟨?qtbase, ?qtcnt, ?pnbase, ?lectx, ?periods, ?lectl, ?lestat, ?readOnly, ?slots, ?scrub, ?ras, readRegister_unlisted _ pg off, rfl⟩
  case qtbase | qtcnt | pnbase | lectx =>
    rintro rfl rfl
    exact readRegister_locked rfl rfl
  case periods => rintro rfl (rfl | rfl) <;> rfl
  case lectl =>
    rintro rfl rfl
    exact lectlWrite_shown _ s
  case lestat =>
    rintro rfl rfl
    exact setWidth_clear s.engine.lestat _
  case readOnly =>
    rintro rfl hoff
    rw [registerWrite_readOnly hoff]
  case slots =>
    intro k hk
    rw [readRegister_slot s hk]
    cases hx : sget s.engine.slots k with
    | none => simp [State.slotWord, hx]
    | some x => exact slotWord_bound hx
  case scrub =>
    rintro rfl
    refine ⟨?ctl, ?list, ?total, ?readOnly, ?prog, ?stat⟩
    case ctl =>
      rintro rfl
      rw [registerWrite_scrctl]
      exact BitVec.setWidth_or
    case list | total =>
      rintro rfl
      exact readRegister_ite ..
    case readOnly =>
      rintro rfl
      rfl
    case prog =>
      rintro rfl
      rw [registerWrite_scrctl]
      exact apply_ite (BitVec.setWidth 64) ..
    case stat =>
      rintro rfl
      exact setWidth_clear s.scrub.stat _
  case ras =>
    rintro rfl
    refine ⟨?base, ?cnt, ?readOnly, ?tail, ?stat⟩
    case base =>
      rintro rfl
      rfl
    case cnt =>
      rintro rfl
      simp only [← rasCntOk_iff]
      exact readRegister_ite ..
    case readOnly => rintro (rfl | rfl | rfl) <;> rfl
    case tail =>
      rintro rfl
      exact apply_ite (BitVec.setWidth 64) ..
    case stat =>
      rintro rfl
      exact rasstat_shown _ s

end Sys2Proof.Machine
end

section
open Sys2Proof Sys2Proof.Machine Sys2Proof.Claims
namespace Sys2Proof.Machine

/-! Steps of the launch engine (R215 to R224, R226 to R230, R432). -/

theorem recordAccept_happens (k : Nat) (e : Ev) (he : launchEvent (.recordAccept k) = some e) : e.Happens (.recordAccept k) := by
  obtain rfl := Option.some.inj he
  refine happens_of_run (r := recordAccept k) (fun _ => rfl) fun s t ht => ?_
  dsimp only at ht
  split at ht
  · next hchosen =>
    obtain ⟨d, hd, ht⟩ := Option.bind_eq_some_iff.1 ht
    obtain ⟨x, hx, rfl⟩ := Option.map_eq_some_iff.1 ht
    unfold recordAccept
    rw [if_neg (not_not.2 hchosen)]
    dsimp only
    rw [hd, hx]
    dsimp only
    split <;> rfl
  · cases ht

theorem older_bound {s : State} {k : Nat} {x : Slot} (hx : sget s.engine.slots k = some x) :
    s.older k = s.slotPut k { x with waited := x.waited + 1 } := by
  unfold State.older
  rw [hx]

theorem ageperExpiry_happens (e : Ev) (he : launchEvent .ageperExpiry = some e) : e.Happens .ageperExpiry := by
  obtain rfl := Option.some.inj he
  refine happens_of_run (r := ageperExpiry) (fun _ => rfl) fun s t ht => ?_
  dsimp only at ht
  split at ht
  · cases ht
  · next hper =>
    unfold ageperExpiry
    rw [if_neg hper]
    dsimp only
    unfold State.waiting
    generalize s.settleAges = u at ht ⊢
    split at ht
    · cases ht
    · next k hk =>
      obtain ⟨x, hx, rfl⟩ := Option.map_eq_some_iff.1 ht
      rw [hk]
      exact older_bound hx
    · next k j ks hk =>
      obtain ⟨x, hx, rfl⟩ := Option.map_eq_some_iff.1 ht
      rw [hk]
      exact older_bound hx

theorem placementPass_happens (lsn : Nat) (e : Ev) (he : launchEvent (.placementPass lsn) = some e) : e.Happens (.placementPass lsn) := by
  obtain rfl := Option.some.inj he
  refine happens_of_run (r := placementPass lsn) (fun _ => rfl) fun s t ht => ?_
  obtain ⟨l, hl, ht⟩ := Option.bind_eq_some_iff.1 ht
  simp only [given_eq_some, Bool.and_eq_true, decide_eq_true_eq] at ht
  obtain ⟨⟨⟨hreason, hopen⟩, hplaces⟩, rfl⟩ := ht
  unfold placementPass
  rw [hl]
  dsimp only
  rw [if_neg (by simpa [hreason, or_iff_not_imp_left] using hopen)]
  cases hpass : (s.pass l).2 with
  | true => rfl
  | false =>
    have hlater : l.positions.any (s.placeLater l) = false := by simpa [hpass] using hplaces
    rw [hlater]
    rfl

theorem groupRetire_happens (g : Nat) (e : Ev) (he : launchEvent (.groupRetire g) = some e) : e.Happens (.groupRetire g) := by
  obtain rfl := Option.some.inj he
  refine happens_of_run (r := groupRetire g) (fun _ => rfl) fun s t ht => ?_
  obtain ⟨hmay, rfl⟩ := given_eq_some.1 ht
  unfold groupRetire
  rw [if_neg (by simp [hmay])]
  exact apply_ite State.wake ..

theorem launchEnd_happens (lsn : Nat) (e : Ev) (he : launchEvent (.launchEnd lsn) = some e) : e.Happens (.launchEnd lsn) := by
  obtain rfl := Option.some.inj he
  refine happens_of_run (r := launchEnd lsn) (fun _ => rfl) fun s t ht => ?_
  obtain ⟨l, hl, ht⟩ := Option.bind_eq_some_iff.1 ht
  unfold launchEnd
  rw [hl]
  dsimp only
  split at ht
  · next hreason =>
    rw [if_pos hreason]
    exact Option.some.inj ht
  · next hreason =>
    obtain ⟨k, hk, ht⟩ := Option.bind_eq_some_iff.1 ht
    obtain ⟨hquiet, rfl⟩ := given_eq_some.1 ht
    rw [if_neg hreason, hk]
    exact if_neg (by simpa using hquiet)

theorem slotReclaim_happens (slot : Nat) (e : Ev) (he : launchEvent (.slotReclaim slot) = some e) : e.Happens (.slotReclaim slot) := by
  obtain rfl := Option.some.inj he
  refine happens_of_run (r := slotReclaim slot) (fun _ => rfl) fun s t ht => ?_
  dsimp only at ht
  split at ht
  · next x q p hx hp =>
    obtain ⟨hmay, rfl⟩ := given_eq_some.1 ht
    unfold slotReclaim
    rw [hx, hp]
    dsimp only
    rw [if_neg (by simpa [or_iff_not_imp_left, and_assoc] using hmay)]
    split
    · rfl
    · split <;> rfl
  · cases ht

/-- Settles O22, one lemma for each step that has a condition. -/
theorem launchEventsHappen : Obligations.LaunchEventsHappen := by
  intro i e he
  cases i with
  | qnotify v =>
    obtain rfl := Option.some.inj he
    exact happens_of_run (r := qnotify v) (fun _ => rfl) fun s t ht => (qnotify_eq v s).trans (Option.some.inj ht)
  | slotServe =>
    obtain rfl := Option.some.inj he
    refine happens_of_run (r := slotServe) (fun _ => rfl) fun s t ht => ?_
    obtain ⟨hmay, rfl⟩ := given_eq_some.1 ht
    exact if_neg (by simp [hmay])
  | recordAccept k => exact recordAccept_happens k e he
  | ageperExpiry => exact ageperExpiry_happens e he
  | placementPass lsn => exact placementPass_happens lsn e he
  | groupRetire g => exact groupRetire_happens g e he
  | launchEnd lsn => exact launchEnd_happens lsn e he
  | rebalExpiry =>
    obtain rfl := Option.some.inj he
    refine happens_of_run (r := rebalExpiry) (fun _ => rfl) fun s t ht => ?_
    obtain ⟨hper, rfl⟩ := given_eq_some.1 ht
    exact if_neg (of_decide_eq_true hper)
  | lectlEn b =>
    obtain rfl := Option.some.inj he
    refine happens_of_run (r := lectlEn b) (fun _ => rfl) fun s t ht => ?_
    obtain ⟨hfree, rfl⟩ := given_eq_some.1 ht
    exact if_neg (by simpa [Bool.not_eq_true', or_iff_not_imp_left] using hfree)
  | lectlPause b =>
    obtain rfl := Option.some.inj he
    exact happens_of_run (r := lectlPause b) (fun _ => rfl) fun s t ht => Option.some.inj ht
  | lestat v =>
    obtain rfl := Option.some.inj he
    exact happens_of_run (r := lestat v) (fun _ => rfl) fun s t ht => Option.some.inj ht
  | slotReclaim slot => exact slotReclaim_happens slot e he
  | _ => cases he

end Sys2Proof.Machine
end

section
open Sys2Proof Sys2Proof.Machine Sys2Proof.Claims
namespace Sys2Proof.Machine

/-- Settles O55: reset is the state of the fields' defaults, and no byte of its memory is listed. -/
theorem resetState : Obligations.ResetState :=
  ⟨rfl, rfl, rfl, rfl, rfl, rfl, rfl, rfl, rfl, rfl, rfl, rfl, rfl, rfl, rfl, rfl, rfl, rfl, rfl, rfl, rfl, rfl, rfl, rfl, rfl, rfl, fun _ => rfl⟩

end Sys2Proof.Machine
end

section
open Sys2Proof Sys2Proof.Machine Sys2Proof.Claims
namespace Sys2Proof.Machine

/-- Every step, whichever agent has the turn, leaves canonical memory where it finds it. -/
theorem wf_step (s : State) (h : Memory.wf s.mem = true) : NextOk (step s) := by
  unfold step
  cases s.turn with
  | choose => exact wf_chooseStep s h
  | issue p q => exact wf_issueStep s p q h
  | stream g => exact wf_streamStep s g h
  | access g n => exact wf_accessStep s g n h

/-- Settles O54, by the agent whose turn it is. -/
theorem memoryStaysCanonical : Obligations.MemoryStaysCanonical := by
  intro s t hs hstep
  have hnext : NextOk (.next t) := hstep ▸ wf_step s hs
  exact hnext

/-- Settles O53: no byte is listed after reset. -/
theorem memoryCanonicalAtReset : Obligations.MemoryCanonicalAtReset := rfl

end Sys2Proof.Machine
end

section
open Sys2Proof Sys2Proof.Machine Sys2Proof.Claims
namespace Sys2Proof.Machine

/-! A registration at its home (R249 to R251, R448, R451). -/

/-- What each step of a fold leaves as it was, the fold does. -/
theorem foldl_keeps {α β : Type} (p : State → β) {k : State → α → State} (hk : ∀ s a, p (k s a) = p s) (ls : List α) (s : State) :
    p (ls.foldl k s) = p s := by
  induction ls generalizing s with
  | nil => rfl
  | cons a ls ih => exact (ih _).trans (hk s a)

/-- The homes hold the same: device memory, and the owners of its words. -/
structure HomesSame (s t : State) : Prop where
  mem : t.mem = s.mem
  owners : t.owners = s.owners

theorem HomesSame.fullSet {s t : State} (h : HomesSame s t) (line : Nat) : t.fullSet line = s.fullSet line := by
  unfold State.fullSet State.registered
  rw [h.owners]

theorem HomesSame.ownerOf {s t : State} (h : HomesSame s t) (wa : Nat) : t.ownerOf wa = s.ownerOf wa := by
  unfold State.ownerOf
  rw [h.owners]

section
variable {s : State} {lines : List Nat} {why : HoldWhy} {cores : List Nat} {held : List Msg} {ask : Nat → Nat → State → State}
  {entered : Option Msg}

theorem startHold_homesSame {b : State} (hb : HomesSame b s) (hask : ∀ i c u, HomesSame u (ask i c u)) :
    HomesSame b (s.startHold lines why cores held ask entered) :=
  ⟨(foldl_keeps State.mem (fun u c => (hask s.idN c u).mem) cores _).trans hb.mem,
    (foldl_keeps State.owners (fun u c => (hask s.idN c u).owners) cores _).trans hb.owners⟩

/-- A transaction that starts stands among the transactions, with its lines and what it holds. -/
theorem exists_hold_startHold {P : Hold → Prop} (hask : ∀ i c u, (ask i c u).holds = u.holds)
    (hP : ∀ h : Hold, h.lines = lines → h.held = held → P h) : ∃ h ∈ (s.startHold lines why cores held ask entered).holds, P h := by
  have hholds : (s.startHold lines why cores held ask entered).holds = s.holds ++ [_] :=
    foldl_keeps State.holds (fun u c => hask s.idN c u) cores _
  rw [hholds]
  exact ⟨_, List.mem_append_right _ (List.mem_singleton_self _), hP _ rfl rfl⟩

end

theorem ownerOf_setOwners (s : State) (c : Nat) (was : List Nat) (wa : Nat) :
    (s.setOwners c was).ownerOf wa = if wa ∈ was then some c else s.ownerOf wa := by
  unfold State.setOwners State.ownerOf
  dsimp only
  generalize s.owners = o
  induction was generalizing o with
  | nil => simp
  | cons w was ih =>
    rw [List.foldl_cons, ih, sget_sput]
    by_cases hmem : wa ∈ was
    · simp [hmem]
    · simp [hmem]

/-- Taking a message changes nothing at the homes. -/
theorem takeMsg_homesSame {s t : State} {n : Nat} {m : Msg} (h : s.takeMsg n = some (m, t)) : HomesSame s t := by
  unfold State.takeMsg at h
  split at h
  · cases h
  · split at h
    · cases h
    · cases h
      exact ⟨rfl, rfl⟩

/-- A registration of a line on which the home has no transaction is served. -/
theorem exec_reg_served {s t : State} {n : Nat} {m : Msg} (htake : s.takeMsg n = some (m, t)) (hkind : m.kind = .reg false)
    (hfree : t.holds.find? (fun h => h.lines.contains m.line) = none) : exec (.reg n) s = .next (t.serveReg false m).wake := by
  have harrive : t.homeArrive m = t.serveReg false m := by
    unfold State.homeArrive
    rw [hfree, hkind]
  have hreg : reg n s = (t.serveReg false m).wake := by
    unfold reg State.msgArrive
    rw [htake, ← harrive]
    simp [hkind, isReg]
  exact congrArg Host.Outcome.next hreg

theorem serveReg_of_full {s : State} {m : Msg} (h : s.fullSet m.line ≠ []) :
    s.serveReg false m = s.evictFor (s.fullSet m.line) m := by
  simp [State.serveReg, h]

/-- A registration with room in its set enters its owner, whether or not it revokes others. -/
theorem serveReg_homesSame {s : State} {m : Msg} (h : s.fullSet m.line = []) :
    HomesSame (s.setOwners m.core (lineWas m.line m.mask)) (s.serveReg false m) := by
  unfold State.serveReg
  simp only [h, List.isEmpty_nil, Bool.false_and, Bool.not_true, Bool.false_eq_true, if_false]
  split
  · exact ⟨rfl, rfl⟩
  · exact startHold_homesSame ⟨rfl, rfl⟩ fun _ _ _ => ⟨rfl, rfl⟩

/-- A registration that waits for an entry changes neither memory nor owners. -/
theorem evictFor_homesSame (s : State) (full : List Nat) (m : Msg) : HomesSame s (s.evictFor full m) := by
  unfold State.evictFor
  dsimp only
  split
  · exact ⟨rfl, rfl⟩
  · exact startHold_homesSame ⟨rfl, rfl⟩ fun _ _ _ => ⟨rfl, rfl⟩

theorem getD_mod_length_mem {α : Type} {ls : List α} (h : ls ≠ []) (n : Nat) (d : α) : ls.getD (n % ls.length) d ∈ ls := by
  have hlt : n % ls.length < ls.length := Nat.mod_lt _ (List.length_pos_of_ne_nil h)
  rw [List.getD_eq_getElem _ _ hlt]
  exact List.getElem_mem hlt

/-- A message that is to wait behind another line is held by a transaction of that line, which takes on the message's own. -/
theorem exists_hold_behind {hs : List Hold} {l : Nat} (hl : hs.any (fun h => h.lines.contains l) = true) (m : Msg) :
    ∃ h ∈ hs.map (fun h => if some h.id == (hs.find? (fun h => h.lines.contains l)).map (fun h => h.id) then
        { h with lines := h.lines ++ [m.line], held := h.held ++ [m] } else h), m.line ∈ h.lines ∧ m ∈ h.held := by
  obtain ⟨h, hfind⟩ := Option.isSome_iff_exists.1 (List.find?_isSome.2 (List.any_eq_true.1 hl))
  refine ⟨{ h with lines := h.lines ++ [m.line], held := h.held ++ [m] },
    List.mem_map.2 ⟨h, List.mem_of_find?_eq_some hfind, ?_⟩, by simp, by simp⟩
  rw [hfind]
  exact if_pos (beq_self_eq_true _)

/-- A registration whose line's set is full is held, under its own line: by the transaction that makes room, or by
one that holds a line of the set. -/
theorem exists_hold_evictFor (s : State) {full : List Nat} (m : Msg) (hfull : full ≠ []) :
    ∃ h ∈ (s.evictFor full m).holds, m.line ∈ h.lines ∧ m ∈ h.held := by
  unfold State.evictFor
  dsimp only
  split
  · next hall =>
    have hnot := List.filter_eq_nil_iff.1 hall _ (getD_mod_length_mem hfull (Config.freeCount s.freeN) 0)
    exact exists_hold_behind (eq_true_of_ne_false fun h => hnot (congrArg not h)) m
  · exact exists_hold_startHold (fun _ _ _ => rfl) fun h hlines hheld => by simp [hlines, hheld]

/-- Settles O45: with room in its set a registration enters its owner; else it is held and no owner changes. -/
theorem registrationMakesOwner : Obligations.RegistrationMakesOwner := by
  intro s t n m htake hkind hfree
  refine ⟨_, exec_reg_served htake hkind hfree, ?_⟩
  have hsame := takeMsg_homesSame htake
  by_cases hfull : t.fullSet m.line = []
  · have hserve := serveReg_homesSame hfull
    refine ⟨hserve.mem.trans hsame.mem, fun _ wa => ?_, fun h => absurd (hsame.fullSet _ ▸ hfull) h⟩
    calc (t.serveReg false m).ownerOf wa
      _ = if wa ∈ lineWas m.line m.mask then some m.core else t.ownerOf wa := (hserve.ownerOf wa).trans (ownerOf_setOwners ..)
      _ = _ := by rw [hsame.ownerOf]
  · rw [serveReg_of_full hfull]
    have hevict := evictFor_homesSame t (t.fullSet m.line) m
    exact ⟨hevict.mem.trans hsame.mem, fun h => absurd (hsame.fullSet _ ▸ h) hfull,
      fun _ => ⟨hevict.owners.trans hsame.owners, exists_hold_evictFor t m hfull⟩⟩

end Sys2Proof.Machine
end

section
open Sys2Proof Sys2Proof.Machine Sys2Proof.Claims
namespace Sys2Proof.Machine

/-! Steps of the ownership registry (R247, R250 to R252, R448 to R455). -/

/-- A message of the kind that a step is for is taken and does there what the step's table says. -/
theorem msgEvent_happens {i : Instr} {n : Nat} {is : MsgKind → Bool} {act : Msg → State → State}
    (hexec : ∀ s, exec i s = .next (s.msgArrive n is act)) : (msgEvent n is act).Happens i := by
  refine happens_of_run hexec fun s t ht => ?_
  obtain ⟨⟨m, u⟩, htake, ht⟩ := Option.bind_eq_some_iff.1 ht
  obtain ⟨hkind, rfl⟩ := given_eq_some.1 ht
  unfold State.msgArrive
  rw [htake]
  exact if_pos hkind

theorem registryError_happens (line : Nat) (tagLost : Bool) (e : Ev) (he : registryEvent (.registryError line tagLost) = some e) :
    e.Happens (.registryError line tagLost) := by
  obtain rfl := Option.some.inj he
  refine happens_of_run (r := registryError line tagLost) (fun _ => rfl) fun s t ht => ?_
  obtain ⟨hmay, rfl⟩ := given_eq_some.1 ht
  obtain ⟨hline, hfree⟩ := Bool.and_eq_true_iff.1 hmay
  unfold registryError
  rw [hline, Bool.not_eq_eq_eq_not.1 hfree]
  exact apply_ite State.wake ..

theorem claimTimeout_happens (core : Nat) (e : Ev) (he : registryEvent (.claimTimeout core) = some e) : e.Happens (.claimTimeout core) := by
  obtain rfl := Option.some.inj he
  refine happens_of_run (r := claimTimeout core) (fun _ => rfl) fun s t ht => ?_
  obtain ⟨h, hfind, rfl⟩ := Option.map_eq_some_iff.1 ht
  unfold claimTimeout
  rw [hfind] <;> rfl

theorem mscTagParity_happens (line : Nat) (ctxField dataOk : Bool) (e : Ev)
    (he : registryEvent (.mscTagParity line ctxField dataOk) = some e) : e.Happens (.mscTagParity line ctxField dataOk) := by
  obtain rfl := Option.some.inj he
  refine happens_of_run (r := mscTagParity line ctxField dataOk) (fun _ => rfl) fun s t ht => ?_
  obtain ⟨entry, hentry, rfl⟩ := Option.map_eq_some_iff.1 ht
  unfold mscTagParity
  rw [hentry]

/-- A message whose flit the links cannot deliver becomes what its kind makes of it. -/
theorem loseFlit_eq (s : State) (n boundary : Nat) (m : Msg) :
    s.loseFlit n boundary m = flitLost n boundary m.kind (s.rasLog 4 4 boundary (128 * m.line) (some boundary)) := by
  unfold State.loseFlit flitLost
  generalize s.rasLog 4 4 boundary (128 * m.line) (some boundary) = u
  cases m.kind with
  | data | ucw | wb | claim | noown => rfl
  | _ =>
    dsimp only
    cases u.linkSlice boundary <;> rfl

theorem flitResendLimit_happens (n boundary : Nat) (otherWay : Bool) (e : Ev)
    (he : registryEvent (.flitResendLimit n boundary otherWay) = some e) : e.Happens (.flitResendLimit n boundary otherWay) := by
  obtain rfl := Option.some.inj he
  refine happens_of_run (r := flitResendLimit n boundary otherWay) (fun _ => rfl) fun s t ht => ?_
  unfold flitResendLimit
  cases hmsg : s.msgs.find? (fun m => m.id == n) with
  | some m =>
    simp only [hmsg] at ht ⊢
    obtain ⟨hroute, rfl⟩ := given_eq_some.1 ht
    rw [if_pos hroute, loseFlit_eq]
  | none =>
    simp only [hmsg] at ht ⊢
    split at ht
    · cases ht
    · next hjoins =>
      rw [if_neg hjoins]
      split at ht
      · next hcmd =>
        rw [if_pos hcmd]
        exact Option.some.inj ht
      · next hcmd =>
        obtain ⟨hplacing, rfl⟩ := given_eq_some.1 ht
        rw [if_neg hcmd, if_pos hplacing]

/-- Settles O21: the messages by `msgEvent_happens`, and one lemma for each error that the registry finds. -/
theorem registryEventsHappen : Obligations.RegistryEventsHappen := by
  intro i e he
  cases i with
  | reg n | rd n | ucw n | ack n | fwd n | rev n | binv n | reva n | revs n | data n | wb n | noown n | claim n =>
    obtain rfl := Option.some.inj he
    exact msgEvent_happens fun _ => rfl
  | registryError line tagLost => exact registryError_happens line tagLost e he
  | claimTimeout core => exact claimTimeout_happens core e he
  | mscTagParity line ctxField dataOk => exact mscTagParity_happens line ctxField dataOk e he
  | flitResendLimit n boundary otherWay => exact flitResendLimit_happens n boundary otherWay e he
  | _ => cases he

end Sys2Proof.Machine
end

section
open Sys2Proof Sys2Proof.Machine Sys2Proof.Claims
namespace Sys2Proof.Machine

/-! What is counted of a store's failures (R235, R397) leaves memory, registers and predicates alone: it goes to the fibre's records and its
count of unresolved ones. -/

section
variable {b : Warp → Warp}

theorem spares_setTally (s : State) (r : Tally) : Spares b s (s.setTally r) :=
  ⟨keeps_of_groups rfl rfl, memorySame_refl s, rfl⟩

theorem spares_failGroup (s : State) (g : Nat) : Spares b s (s.failGroup g) :=
  ((Spares.refl s).modGroup g (fun x => { x with failed := true }) (fun _ => rfl) (fun _ => rfl)).outside _ _

end

theorem spares_growCart (s : State) (g w f i : Nat) (r : Cart) : Spares (Warp.less Fibre.lessRecords) s (s.growCart g w f i r) :=
  (Spares.refl s).modFibre g w f _ (fun _ => rfl)

theorem spares_countBad (s : State) (g w f : Nat) (fl : Byte) (pc : DWord) (bads : List (Nat × Val)) :
    Spares (Warp.less Fibre.lessRecords) s (s.countBad g w f fl pc bads) := by
  refine (Spares.refl s).foldl _ _ (fun t ht c _ => ?_)
  dsimp only
  refine Spares.trans ?_ (spares_addCart ..)
  split
  · exact (ht.trans (spares_failGroup t g)).modFibre g w f _ (fun _ => rfl)
  · exact ht.modFibre g w f _ (fun _ => rfl)

theorem spares_countPart (s : State) (e g w f : Nat) (fl : Byte) (pc : DWord) (bads : List (Nat × Val)) :
    Spares (Warp.less Fibre.lessRecords) s (s.countPart e g w f fl pc bads) := by
  refine (Spares.refl s).foldl _ _ (fun t ht c _ => ?_)
  dsimp only
  split
  · split
    · exact ht
    · exact ht.trans (spares_growCart ..)
  · exact ht.trans ((spares_countBad ..).trans (spares_setTally ..))

/-! Device memory and the scratchpads. -/

/-- Device memory and its poison are as they were, and so is each scratchpad word outside `hit`, a set of groups' words. -/
structure Stores (hit : Nat → Nat → Prop) (s t : State) : Prop where
  mem : t.mem = s.mem
  bad : t.bad = s.bad
  words : ∀ g i, ¬ hit g i → t.spAt g i = s.spAt g i

section
variable {hit : Nat → Nat → Prop} {s t u : State}

theorem Stores.refl (s : State) : Stores hit s s := ⟨rfl, rfl, fun _ _ _ => rfl⟩

theorem Stores.trans (h : Stores hit s t) (k : Stores hit t u) : Stores hit s u :=
  ⟨k.mem.trans h.mem, k.bad.trans h.bad, fun g i hi => (k.words g i hi).trans (h.words g i hi)⟩

theorem Stores.foldl {α : Type} (h : Stores hit s t) (k : State → α → State) (ls : List α) (hk : ∀ v, ∀ a ∈ ls, Stores hit v (k v a)) :
    Stores hit s (ls.foldl k t) := List.foldlRecOn ls k h (fun v hv a ha => hv.trans (hk v a ha))

/-- A change outside memory and the groups. -/
theorem stores_of_groups (hm : t.mem = s.mem) (hb : t.bad = s.bad) (hg : t.groups = s.groups) (hs : t.saved = s.saved) : Stores hit s t :=
  ⟨hm, hb, fun g i _ => congrArg (fun x : Group => sgetD x.spad i {}) (groupAt_of_groups hg hs g)⟩

theorem stores_of_memory (h : MemorySame s t) : Stores hit s t := by
  obtain ⟨hm, hb, -, -, -, hs⟩ := h
  exact ⟨hm, hb, fun g i _ => hs g i⟩

theorem stores_modGroup (s : State) (g : Nat) (k : Group → Group) (hk : ∀ x, (k x).spad = x.spad) : Stores hit s (s.modGroup g k) :=
  stores_of_memory (memorySame_modGroup s g k hk)

theorem stores_modWarp (s : State) (g w : Nat) (k : Warp → Warp) : Stores hit s (s.modWarp g w k) :=
  stores_modGroup s g _ (fun _ => rfl)

theorem stores_modFibre (s : State) (g w f : Nat) (k : Fibre → Fibre) : Stores hit s (s.modFibre g w f k) :=
  stores_modWarp s g w _

/-- A write of a scratchpad word of `hit`. -/
theorem stores_setSp (s : State) {g i : Nat} (v : SpadWord) (h : hit g i) : Stores hit s (s.setSp g i v) := by
  refine ⟨modGroup_mem .., modGroup_bad .., fun j n hn => ?_⟩
  obtain hsame | ⟨rfl, hnew⟩ := groupAt_modGroup_or s g j (fun x => { x with spad := ssetD x.spad i v {} })
  · exact congrArg (fun x : Group => sgetD x.spad n {}) hsame
  · have hne : n ≠ i := fun he => hn (he ▸ h)
    refine (congrArg (fun x : Group => sgetD x.spad n {}) hnew).trans ?_
    simp [State.spAt, hne]

end

/-- The start of an execution changes neither device memory nor a scratchpad: an acquire that completes drops words of an L1. -/
theorem stores_start (hit : Nat → Nat → Prop) (s : State) (p : Path) (f : Fields) : Stores hit s (s.start p f) := by
  have hacquire : ∀ (t : State) c, Stores hit t (t.acquire c) := fun _ _ => stores_of_groups rfl rfl rfl rfl
  have hfences : Stores hit s (s.settleFences p.g p.w p.f) := by
    refine (Stores.refl s).foldl _ _ (fun t e _ => ?_)
    split
    · exact .refl t
    · dsimp only
      split
      · exact (stores_modFibre ..).trans (hacquire ..)
      · exact stores_modFibre ..
  have hrun : ∀ (t : State) n hist is, Stores hit t (t.driftRun p.g p.w n hist is) := fun t n hist is =>
    (stores_of_groups (s := t) (t := { t with freeN := t.freeN + 256 }) rfl rfl rfl rfl).trans (stores_modWarp ..)
  have hsettle : Stores hit s (s.settle p.g p.w p.f) :=
    hfences.foldl _ _ (fun t o _ => (Stores.refl t).foldl _ _ (fun u e _ => hrun u ..))
  have hprep : ∀ t : State, Stores hit t (t.prep p f) := fun t => by
    unfold State.prep
    refine Stores.foldl ?_ _ _ (fun u e _ => stores_modFibre ..)
    split
    · exact .refl t
    · exact stores_modFibre ..
  exact hsettle.trans (hprep _)

/-! What stores to the scratchpad leave alone (R235, R259). -/

/-- Nothing changes but the scratchpad words of `hit` and fibres' records: neither device memory, nor what else the warps hold. -/
structure SpadFrame (hit : Nat → Nat → Prop) (s t : State) : Prop extends Keeps (Warp.less Fibre.lessRecords) s t, Stores hit s t

section
variable {hit : Nat → Nat → Prop} {s t u : State}

theorem SpadFrame.refl (s : State) : SpadFrame hit s s := ⟨.refl s, .refl s⟩

theorem SpadFrame.trans (h : SpadFrame hit s t) (k : SpadFrame hit t u) : SpadFrame hit s u :=
  ⟨h.toKeeps.trans k.toKeeps, h.toStores.trans k.toStores⟩

theorem SpadFrame.foldl {α : Type} (h : SpadFrame hit s t) (k : State → α → State) (ls : List α)
    (hk : ∀ v, ∀ a ∈ ls, SpadFrame hit v (k v a)) : SpadFrame hit s (ls.foldl k t) :=
  List.foldlRecOn ls k h (fun v hv a ha => hv.trans (hk v a ha))

theorem spadFrame_of_spares (h : Spares (Warp.less Fibre.lessRecords) s t) : SpadFrame hit s t :=
  ⟨h.toKeeps, stores_of_memory h.memory⟩

theorem spadFrame_of_groups (hm : t.mem = s.mem) (hb : t.bad = s.bad) (hg : t.groups = s.groups) (hs : t.saved = s.saved) :
    SpadFrame hit s t := ⟨keeps_of_groups hg hs, stores_of_groups hm hb hg hs⟩

theorem spadFrame_newId (s : State) : SpadFrame hit s s.newId.2 := spadFrame_of_groups rfl rfl rfl rfl

theorem spadFrame_setSp (s : State) {g i : Nat} (v : SpadWord) (h : hit g i) : SpadFrame hit s (s.setSp g i v) :=
  ⟨(Keeps.refl s).modGroup g _ (fun _ => rfl), stores_setSp s v h⟩

theorem spadFrame_spFound (s : State) {g i : Nat} (h : hit g i) : SpadFrame hit s (s.spFound g i) := by
  unfold State.spFound
  dsimp only
  split
  · exact .refl s
  · exact (spadFrame_of_groups (s := s) (t := s.fresh.2) rfl rfl rfl rfl).trans (spadFrame_setSp _ _ h)

/-- A store of `n` bytes reaches one word, or each whole word of the `n`. -/
theorem spadFrame_spadStore (s : State) (b : By) {g off n : Nat} (data : DWord) (h : ∀ k < max 1 (n / 4), hit g (off / 4 + k)) :
    SpadFrame hit s (s.spadStore b g off n data) := by
  have hfirst : hit g (off / 4) := h 0 (by omega)
  unfold State.spadStore
  split
  · dsimp only
    split
    · exact (spadFrame_spFound s hfirst).trans (spadFrame_of_spares (spares_countPart ..))
    · exact spadFrame_setSp s _ hfirst
  · refine (SpadFrame.refl s).foldl _ _ (fun t k hk => spadFrame_setSp t _ (h k ?_))
    exact lt_of_lt_of_le (List.mem_range.1 hk) (le_max_right ..)

/-- A store that arrives at its word is performed, or it waits behind its lane's parked accesses; it wakes none, since it changes no tag. -/
theorem spadFrame_spArrive_store (s : State) (q : ParkedFe) {n : Nat} (hop : q.op = .store n)
    (h : ∀ k < max 1 (n / 4), hit q.g (q.off / 4 + k)) : SpadFrame hit s (s.spArrive q) := by
  have hperform : s.spPerform q = (s.spadStore { g := q.ig, w := q.w, f := q.f, lane := q.lane, pc := q.pc
                                                 va := q.addr.setWidth 64, exec := q.exec } q.g q.off n (q.data.setWidth 64), false) := by
    unfold State.spPerform
    rw [hop]
  unfold State.spArrive
  dsimp only
  split
  · exact spadFrame_of_groups rfl rfl rfl rfl
  · rw [hperform]
    exact spadFrame_spadStore s _ _ h

theorem spadFrame_spAccess_store (s : State) (x : Ex) (e l half : Nat) (a : Word) {g off n : Nat} (prod : Option Nat) (data : Word)
    (h : ∀ k < max 1 (n / 4), hit g (off / 4 + k)) : SpadFrame hit s (s.spAccess x e l half a g off (.store n) prod data) :=
  (spadFrame_newId s).trans (spadFrame_spArrive_store _ _ rfl h)

end

/-! STS outside a region (R259). -/

/-- The scratchpad words that accesses of `n` bytes to some places address. -/
def Addressed (locs : List (Nat × Loc)) (n g i : Nat) : Prop :=
  ∃ l a off h, (l, Loc.sp a g off) ∈ locs ∧ h < max 1 (n / 4) ∧ i = (off + 4 * h) / 4

/-- Path two sees the FSTAT of its fibre as it stands (R173, R190). -/
theorem fibre_inRegion (s : State) (x : Ex) : (x.fibre s).inRegion = (s.fibreAt x.p.g x.p.w x.p.f).inRegion := by
  unfold Ex.fibre State.pathFibre
  cases s.opp with
  | none => rfl
  | some o => dsimp only; split <;> rfl

theorem inRegion_popQueues (s : State) (x : Ex) (cs : List (BitVec 8)) : (x.fibre (s.popQueues x cs)).inRegion = (x.fibre s).inRegion := by
  have hpop : Spares Warp.lessRegs s (s.popQueues x cs) := spares_popQueues s x cs
  rw [fibre_inRegion, fibre_inRegion]
  exact congrArg Fibre.inRegion (hpop.fibreAt lessRegs_fibres x.p.g x.p.w x.p.f)

/-- What a store does in a lane stands at the lane's place. -/
theorem mem_of_storeOuts {x : Ex} {s : State} {locs : List (Nat × Loc)} {o : Nat × Loc × Option Val × DWord} (h : o ∈ storeOuts x s locs) :
    (o.1, o.2.1) ∈ locs := by
  obtain ⟨e, he, rfl⟩ := List.mem_map.1 h
  exact he

/-- Outside a region, STS stores to the words that its participants address, and counts the lanes that fail. -/
theorem spadFrame_stsOut (x : Ex) (s : State) (hr : (x.fibre s).inRegion = false) :
    SpadFrame (Addressed (s.spLocs x x.parts (tySize x.f.md)) (tySize x.f.md)) s (stsOut x s) := by
  have hopen : ¬ (x.fibre (s.popQueues x x.codes)).inRegion = true := by simp [inRegion_popQueues, hr]
  have hcounted : ∀ (t : State) bads, SpadFrame (Addressed (s.spLocs x x.parts (tySize x.f.md)) (tySize x.f.md)) t
      (t.newId.2.countPart t.idN x.p.g x.p.w x.p.f 0 x.p.pc bads) := fun t bads =>
    (spadFrame_newId t).trans (spadFrame_of_spares (spares_countPart ..))
  unfold stsOut
  dsimp only
  rw [if_neg hopen]
  refine ((spadFrame_of_spares (spares_popQueues s x _)).trans (hcounted ..)).foldl _ _ (fun t o ho => ?_)
  obtain ⟨l, loc, why, data⟩ := o
  have hplace := mem_of_storeOuts ho
  dsimp only at hplace ⊢
  split
  · next a g off =>
    split
    · refine spadFrame_spAccess_store _ _ _ _ _ _ _ _ (fun k hk => ⟨l, a, off, k, hplace, hk, ?_⟩)
      omega
    · refine (SpadFrame.refl t).foldl _ _ (fun u h hh => spadFrame_spAccess_store _ _ _ _ _ _ _ _ (fun k hk => ?_))
      refine ⟨l, a, off, h, hplace, lt_of_lt_of_le (List.mem_range.1 hh) (le_max_right ..), ?_⟩
      omega
  · exact .refl t

/-- An STS that can issue outside a region leaves what its effect leaves, but for its lanes' places. -/
theorem sts_agree {s : State} {p : Path} {q : Option Path} {f : Fields} (h : Issuing s p q 0x83 f)
    (hr : stsReady (s.exOf p 0x83 f) (s.start p f) = true) (hout : ((s.exOf p 0x83 f).fibre (s.start p f)).inRegion = false) :
    ∃ t, exec (.sts f) s = .next t ∧ Agree t (stsOut (s.exOf p 0x83 f) (s.start p f)) := by
  have hroom : quarFull (s.exOf p 0x83 f) (s.start p f) = false := by simp [quarFull, hout]
  obtain ⟨t, ht, hagree, -⟩ := memoryInstructionsComplete (.sts f) _ rfl s p q h (by simp [hr, hroom]) nofun
  exact ⟨t, ht, hagree⟩

/-- Settles O43: the effect stores to the addressed words and counts what fails, and the start of the execution spares all that is stated. -/
theorem scratchpadStoreFrame : Obligations.ScratchpadStoreFrame := by
  intro s p q f hiss
  dsimp only
  intro hready hregion
  have hout : ((s.exOf p 0x83 f).fibre (s.start p f)).inRegion = false := by
    rw [fibre_inRegion, Fibre.inRegion, start_fstat]
    exact hregion
  obtain ⟨t, ht, hagree⟩ := sts_agree hiss hready hout
  have hframe := spadFrame_stsOut _ _ hout
  have hstart := stores_start (fun _ _ => False) s p f
  have hfibre := hframe.fibreAt less_fibres
  refine ⟨t, ht, fun g i hi => ?words, hagree.mem.trans (hframe.mem.trans hstart.mem), hagree.bad.trans (hframe.bad.trans hstart.bad),
    fun g w o => (hagree.regAt g w o).trans (hframe.regAt (fun _ => rfl) g w o), fun g w e n => ?uregs, fun g w e l => ?preds⟩
  case words =>
    have hmiss : ¬ Addressed _ _ g i := fun ⟨l, a, off, h, hmem, hh, he⟩ => hi l a off h hmem hh he
    exact (hagree.spAt g i).trans ((hframe.words g i hmiss).trans (hstart.words g i not_false))
  case uregs =>
    have hkept := same_of_blank Fibre.lessRecords (hfibre g w e) (fun y => sgetD y.uregs n {}) (fun _ => rfl)
    exact (hagree.uregAt g w e n).trans (hkept.trans (start_uregAt s p f g w e n))
  case preds =>
    have hkept := same_of_blank Fibre.lessRecords (hfibre g w e) (fun y => (y.lanes.getD l {}).preds) (fun _ => rfl)
    exact (hagree.preds g w e l).trans (hkept.trans (start_preds s p f g w e l))

end Sys2Proof.Machine
end

section
open Sys2Proof Sys2Proof.Machine Sys2Proof.Claims
namespace Sys2Proof.Machine

/-! Steps of copy units, engines, the matrix unit and the page service (R309 to R321, R341, R399, R400, R412). -/

theorem commandStart_happens (id : Nat) (e : Ev) (he : engineEvent (.commandStart id) = some e) : e.Happens (.commandStart id) := by
  obtain rfl := Option.some.inj he
  refine happens_of_run (r := fun s => if (s.xmsg? id).isSome then transportStart id s else commandStart id s) (fun _ => rfl)
    fun s t ht => ?_
  obtain ⟨c, hc, ht⟩ := Option.bind_eq_some_iff.1 ht
  cases hx : s.xmsg? id with
  | none =>
    rw [hx] at ht
    obtain ⟨hdue, rfl⟩ := given_eq_some.1 ht
    rw [if_neg (by decide)]
    unfold commandStart
    rw [hc]
    exact if_neg (by simpa [and_assoc] using hdue)
  | some m =>
    rw [hx] at ht
    dsimp only at ht
    rw [if_pos (by rfl)]
    unfold transportStart
    rw [hc, hx]
    dsimp only
    split at ht
    · cases ht
    · next hwaits =>
      rw [if_neg hwaits]
      cases hbad : m.bad with
      | some b =>
        rw [hbad] at ht
        obtain ⟨hcan, rfl⟩ := given_eq_some.1 ht
        exact if_neg (by simpa using hcan)
      | none =>
        rw [hbad] at ht
        obtain ⟨hturn, rfl⟩ := given_eq_some.1 ht
        exact if_neg (by simpa using hturn)

/-- A command that has written all its words acts and retires where its action can be performed and nothing that it revokes is still to
be told; else the step leaves its transfer as far as it goes. -/
theorem commandComplete_happens (id : Nat) (e : Ev) (he : engineEvent (.commandComplete id) = some e) : e.Happens (.commandComplete id) := by
  obtain rfl := Option.some.inj he
  refine happens_of_run (r := commandComplete id) (fun _ => rfl) fun s t ht => ?_
  obtain ⟨c, hc, ht⟩ := Option.bind_eq_some_iff.1 ht
  unfold commandComplete
  rw [hc]
  dsimp only at ht ⊢
  split at ht
  · cases ht
  · next hbegun =>
    rw [if_neg (by simpa using hbegun)]
    cases hwhole : (s.finishCmd id).2 with
    | false =>
      rw [if_pos hwhole] at ht
      exact Option.some.inj ht
    | true =>
      rw [if_neg (by simp [hwhole])] at ht
      obtain ⟨d, hd, rfl⟩ := Option.map_eq_some_iff.1 ht
      rw [if_pos rfl, hd]
      dsimp only
      split
      · next hheld => exact (if_neg (by simpa [or_iff_not_imp_left] using hheld)).symm
      · next hfree => exact (if_pos (by simpa using hfree)).symm

theorem queueEntryFill_happens (id : Nat) (lanes : Word) (e : Ev) (he : engineEvent (.queueEntryFill id lanes) = some e) :
    e.Happens (.queueEntryFill id lanes) := by
  obtain rfl := Option.some.inj he
  refine happens_of_run (r := queueEntryFill id lanes) (fun _ => rfl) fun s t ht => ?_
  obtain ⟨p, hp, ht⟩ := Option.map_eq_some_iff.1 ht
  unfold queueEntryFill
  dsimp only
  rw [hp]
  exact ht

theorem engineDispatch_happens (id : Nat) (e : Ev) (he : engineEvent (.engineDispatch id) = some e) : e.Happens (.engineDispatch id) := by
  obtain rfl := Option.some.inj he
  refine happens_of_run (r := engineDispatch id) (fun _ => rfl) fun s t ht => ?_
  obtain ⟨c, hc, ht⟩ := Option.bind_eq_some_iff.1 ht
  obtain ⟨k, hk, ht⟩ := Option.bind_eq_some_iff.1 ht
  obtain ⟨hwaits, rfl⟩ := given_eq_some.1 ht
  unfold engineDispatch
  rw [hc]
  dsimp only
  rw [if_neg (by simpa [and_assoc] using hwaits), hk]

theorem dispatchDeadline_happens (id : Nat) (e : Ev) (he : engineEvent (.dispatchDeadline id) = some e) : e.Happens (.dispatchDeadline id) := by
  obtain rfl := Option.some.inj he
  refine happens_of_run (r := dispatchDeadline id) (fun _ => rfl) fun s t ht => ?_
  obtain ⟨c, hc, ht⟩ := Option.bind_eq_some_iff.1 ht
  obtain ⟨hwaits, rfl⟩ := given_eq_some.1 ht
  unfold dispatchDeadline
  rw [hc]
  exact if_pos hwaits

/-- The oldest BLD under way frees its slot, and a sequencer without one is as it was. -/
theorem bldFinish_eq (g : Nat) (s : State) : bldFinish g s = (s.modSeq g fun q => { q with
    slots := ((q.slots.findIdx? (fun b => b.busy)).map (fun i => modAt q.slots i (fun b => { b with busy := false }))).getD q.slots }).wake := by
  unfold bldFinish
  congr 2
  funext q
  cases q.slots.findIdx? (fun b => b.busy) <;> rfl

theorem tokenGrant_happens (die : Nat) (e : Ev) (he : engineEvent (.tokenGrant die) = some e) : e.Happens (.tokenGrant die) := by
  obtain rfl := Option.some.inj he
  refine happens_of_run (r := tokenGrant die) (fun _ => rfl) fun s t ht => ?_
  obtain ⟨a, ha, ht⟩ := Option.bind_eq_some_iff.1 ht
  obtain ⟨hroom, rfl⟩ := given_eq_some.1 ht
  unfold tokenGrant
  rw [ha]
  exact if_pos (of_decide_eq_true hroom)

theorem faultServiceDone_happens (g w f : Nat) (answer : Option (List PageIn)) (e : Ev)
    (he : engineEvent (.faultServiceDone g w f answer) = some e) : e.Happens (.faultServiceDone g w f answer) := by
  obtain rfl := Option.some.inj he
  refine happens_of_run (r := faultServiceDone g w f answer) (fun _ => rfl) fun s t ht => ?_
  obtain ⟨k, hk, ht⟩ := Option.map_eq_some_iff.1 ht
  unfold faultServiceDone
  rw [hk]
  cases answer <;> exact ht

/-- Settles O23, one lemma for each step that looks up a command, an LDQ, a request or a parked fibre. -/
theorem engineEventsHappen : Obligations.EngineEventsHappen := by
  intro i e he
  cases i with
  | commandStart id => exact commandStart_happens id e he
  | commandComplete id => exact commandComplete_happens id e he
  | queueEntryFill id lanes => exact queueEntryFill_happens id lanes e he
  | engineDispatch id => exact engineDispatch_happens id e he
  | dispatchDeadline id => exact dispatchDeadline_happens id e he
  | matrixComplete g =>
    obtain rfl := Option.some.inj he
    refine happens_of_run (r := matrixComplete g) (fun _ => rfl) fun s t ht => ?_
    obtain ⟨hwork, rfl⟩ := given_eq_some.1 ht
    exact if_neg (by simpa using hwork)
  | bldFinish g =>
    obtain rfl := Option.some.inj he
    exact happens_of_run (r := bldFinish g) (fun _ => rfl) fun s t ht => (bldFinish_eq g s).trans (given_eq_some.1 ht).2
  | tokenGrant die => exact tokenGrant_happens die e he
  | tokenArrive core =>
    obtain rfl := Option.some.inj he
    refine happens_of_run (r := tokenArrive core) (fun _ => rfl) fun s t ht => ?_
    obtain ⟨harrives, rfl⟩ := given_eq_some.1 ht
    exact if_pos harrives
  | tokenIdleReturn core =>
    obtain rfl := Option.some.inj he
    refine happens_of_run (r := tokenIdleReturn core) (fun _ => rfl) fun s t ht => ?_
    obtain ⟨hidle, rfl⟩ := given_eq_some.1 ht
    exact if_neg (by simpa using hidle)
  | tokenHoldLimit core =>
    obtain rfl := Option.some.inj he
    refine happens_of_run (r := tokenHoldLimit core) (fun _ => rfl) fun s t ht => ?_
    obtain ⟨hheld, rfl⟩ := given_eq_some.1 ht
    exact if_neg (by simpa using hheld)
  | faultServiceDone g w f answer => exact faultServiceDone_happens g w f answer e he
  | _ => cases he

end Sys2Proof.Machine
end

section
open Sys2Proof Sys2Proof.Machine Sys2Proof.Claims
namespace Sys2Proof.Machine

/-! ACZ in the array (R321, R359). -/

/-- What ACZ leaves in the register word at an offset: +0, unpoisoned, with its residue, full unless a later operation still writes it. -/
structure Zeroed (later : Nat → Bool) (off : Nat) (r : RegWord) : Prop where
  val : r.val = 0
  poison : r.poison = false
  res : r.res = 0
  full : later off = false → r.full = true

/-- Nothing changes of the warps and of memory but the words of warp `w` of group `g` that `hit` names, each of which is then zeroed. -/
structure Clears (later : Nat → Bool) (g w : Nat) (hit : Nat → Prop) (s t : State) : Prop extends Keeps Warp.lessRegs s t where
  mem : t.mem = s.mem
  zeroed : ∀ i, hit i → Zeroed later i (t.regAt g w i)
  others : ∀ j v i, ¬ (j = g ∧ v = w ∧ hit i) → t.regAt j v i = s.regAt j v i

/-- The words of the accumulator that starts at word `a`, and those of several. -/
def InAcc (a i : Nat) : Prop := a ≤ i ∧ i < a + 256
def InAccs (as : List Nat) (i : Nat) : Prop := ∃ a ∈ as, InAcc a i

theorem inAccs_take_one {as : List Nat} {n : Nat} (h : n < as.length) (i : Nat) : InAccs ((as.drop n).take 1) i ↔ InAcc as[n] i := by
  rw [List.drop_eq_getElem_cons h, List.take_succ_cons, List.take_zero]
  simp only [InAccs, List.mem_singleton, exists_eq_left]

theorem inAccs_drop {as : List Nat} {n : Nat} (h : n < as.length) (i : Nat) :
    InAccs (as.drop n) i ↔ InAcc as[n] i ∨ InAccs (as.drop (n + 1)) i := by
  rw [List.drop_eq_getElem_cons h]
  simp only [InAccs, List.mem_cons, or_and_right, exists_or, exists_eq_left]

section
variable {later : Nat → Bool} {g w : Nat} {hit hit' : Nat → Prop} {s t u : State}

theorem Clears.trans (h : Clears later g w hit s t) (k : Clears later g w hit' t u) : Clears later g w (fun i => hit i ∨ hit' i) s u where
  toKeeps := h.toKeeps.trans k.toKeeps
  mem := k.mem.trans h.mem
  zeroed i hi := by
    by_cases hk : hit' i
    · exact k.zeroed i hk
    · rw [k.others g w i (fun ⟨_, _, hi'⟩ => hk hi')]
      exact h.zeroed i (hi.resolve_right hk)
  others j v i hi :=
    (k.others j v i fun ⟨hj, hv, hk⟩ => hi ⟨hj, hv, .inr hk⟩).trans (h.others j v i fun ⟨hj, hv, hh⟩ => hi ⟨hj, hv, .inl hh⟩)

/-- The same words, named in another way. -/
theorem Clears.congr (h : Clears later g w hit s t) (heq : ∀ i, hit i ↔ hit' i) : Clears later g w hit' s t :=
  (funext fun i => propext (heq i) : hit = hit') ▸ h

/-- A change that keeps whole warps clears no word. -/
theorem clears_of_keeps (h : Keeps id s t) (hm : t.mem = s.mem) : Clears later g w (fun _ => False) s t where
  placed := h.placed
  warps j := by
    have hwarps := h.warps j
    rw [List.map_id, List.map_id] at hwarps
    rw [hwarps]
  mem := hm
  zeroed _ hi := hi.elim
  others j v i _ := h.regAt (fun _ => rfl) j v i

theorem Clears.keeps (h : Clears later g w hit s t) (k : Keeps id t u) (hm : u.mem = t.mem) : Clears later g w hit s u :=
  (h.trans (clears_of_keeps k hm)).congr fun _ => iff_of_eq (or_false _)

theorem Clears.warps_length (h : Clears later g w hit s t) (j : Nat) : (t.groupAt j).warps.length = (s.groupAt j).warps.length := by
  simpa using congrArg List.length (h.warps j)

theorem Clears.uregs (h : Clears later g w hit s t) : UregsSame s t := fun j v f n =>
  congrArg (fun y : Fibre => sgetD y.uregs n {}) (h.fibreAt (c := id) lessRegs_fibres j v f)

theorem Clears.preds (h : Clears later g w hit s t) : PredsSame s t := fun j v f l =>
  congrArg (fun y : Fibre => (y.lanes.getD l {}).preds) (h.fibreAt (c := id) lessRegs_fibres j v f)

end

/-- The array writes +0 into a word. -/
theorem clears_setReg (rest : List MatrixOp) (s : State) (g w off : Nat) (hp : (s.group? g).isSome = true)
    (hw : w < (s.groupAt g).warps.length) :
    Clears (writesAcc rest w) g w (fun i => off = i) s (s.setReg g w off
      { mkWord 0 with full := (s.regAt g w off).full || (true && !writesAcc rest w off) }) where
  toKeeps := (Keeps.refl s).modWarp g w _ (fun _ => rfl)
  mem := setReg_mem ..
  zeroed i hi := by
    subst hi
    rw [regAt_setReg _ _ _ _ _ _ _ _ hp hw, if_pos ⟨rfl, rfl, rfl⟩]
    exact ⟨rfl, rfl, rfl, fun hlast => by simp [hlast]⟩
  others j v i hi := (regAt_setReg _ _ _ _ _ _ _ _ hp hw).trans (if_neg fun ⟨hj, hv, ho⟩ => hi ⟨hj, hv, ho.symm⟩)

/-- The array writes a list of words, all +0, each at its offset. -/
theorem clears_words (rest : List MatrixOp) (g w : Nat) (es : List (Nat × RegWord)) (hes : ∀ e ∈ es, e.2 = mkWord 0) (s : State)
    (hp : (s.group? g).isSome = true) (hw : w < (s.groupAt g).warps.length) :
    Clears (writesAcc rest w) g w (fun i => ∃ e ∈ es, e.1 = i) s (es.foldl (fun s e =>
      s.setReg g w e.1 { e.2 with full := (s.regAt g w e.1).full || (true && !writesAcc rest w e.1) }) s) := by
  induction es generalizing s with
  | nil => exact (clears_of_keeps (.refl s) rfl).congr (by simp)
  | cons e es ih =>
    have hone := clears_setReg rest s g w e.1 hp hw
    rw [← hes e List.mem_cons_self] at hone
    have hmore := ih (fun e' he' => hes e' (List.mem_cons_of_mem _ he')) _ ((hone.placed g).trans hp) (by rw [hone.warps_length]; exact hw)
    exact (hone.trans hmore).congr (by simp)

/-- The array writes +0 into an accumulator. -/
theorem clears_putTile (rest : List MatrixOp) (s : State) (g w base : Nat) (hp : (s.group? g).isSome = true)
    (hw : w < (s.groupAt g).warps.length) :
    Clears (writesAcc rest w) g w (InAcc base) s (s.putTile g w base true rest (List.replicate 256 (mkWord 0))) := by
  refine (clears_words rest g w _ (fun e he => ?_) s hp hw).congr fun i => ⟨?_, fun ⟨hlow, hhigh⟩ => ?_⟩
  · obtain ⟨j, hj, rfl⟩ := List.mem_mapIdx.1 he
    exact List.getElem_replicate ..
  · rintro ⟨e, he, rfl⟩
    obtain ⟨j, hj, rfl⟩ := List.mem_mapIdx.1 he
    rw [List.length_replicate] at hj
    exact ⟨Nat.le_add_right .., Nat.add_lt_add_left hj _⟩
  · exact ⟨(base + (i - base), mkWord 0),
      List.mem_mapIdx.2 ⟨i - base, by rw [List.length_replicate]; omega, by rw [List.getElem_replicate]⟩, Nat.add_sub_cancel' hlow⟩

/-! One turn of the array at ACZ: one accumulator. -/

/-- What ACZ writes in its next turn, what of it is then left, what later operations have learnt, and what is in flight after the turn. -/
def MatrixOp.zeros (o : MatrixOp) : List RegWord := if o.pos < o.accs.length then List.replicate 256 (mkWord 0) else []
def MatrixOp.moved (o : MatrixOp) : MatrixOp := { o with pos := o.pos + 1, read := true }
def MatrixOp.taught (o : MatrixOp) (rest : List MatrixOp) : List MatrixOp := rest.map fun m => m.learn o.w (o.accs.getD o.pos 0) o.zeros
def MatrixOp.flight (o : MatrixOp) (rest : List MatrixOp) : List MatrixOp :=
  if o.accs.length ≤ o.pos + 1 then o.taught rest else o.moved :: o.taught rest

theorem length_taught (o : MatrixOp) (rest : List MatrixOp) : (o.taught rest).length = rest.length := List.length_map ..

theorem learn_writes (m : MatrixOp) (w base : Nat) (ws : List RegWord) : (m.learn w base ws).w = m.w ∧ (m.learn w base ws).accs = m.accs := by
  unfold MatrixOp.learn
  split <;> exact ⟨rfl, rfl⟩

/-- What a later operation learns does not change where it writes. -/
theorem writesAcc_taught (o : MatrixOp) (rest : List MatrixOp) (w : Nat) : writesAcc (o.taught rest) w = writesAcc rest w := by
  funext off
  unfold writesAcc MatrixOp.taught
  rw [List.any_map]
  congr 1
  funext m
  obtain ⟨hw, haccs⟩ := learn_writes m o.w (o.accs.getD o.pos 0) o.zeros
  dsimp only [Function.comp_apply]
  rw [hw, haccs]

theorem matrixUnit_acz (s : State) (g : Nat) {o : MatrixOp} (rest : List MatrixOp) (hacz : o.acz = true) :
    s.matrixUnit g o rest =
      (let t := s.putTile g o.w (o.accs.getD o.pos 0) true rest o.zeros
       if o.accs.length ≤ o.pos + 1 then t.undriftOp g o.moved else t).modSeq g
        (fun q => { q with ops := o.flight rest, stat := q.stat ||| 0 }) := by
  unfold State.matrixUnit MatrixOp.flight MatrixOp.taught MatrixOp.moved MatrixOp.zeros MatrixOp.total
  simp only [hacz, if_true, Bool.true_or]

/-- An operation with no run of its own under way leaves every word of its warp as it stands. -/
theorem keeps_undriftOp (s : State) (g : Nat) {o : MatrixOp} (houts : o.outs = []) : Keeps id s (s.undriftOp g o) := by
  unfold State.undriftOp
  rw [houts]
  exact (Keeps.refl s).modWarp g o.w _ fun _ => rfl

theorem undriftOp_mem (s : State) (g : Nat) (o : MatrixOp) : (s.undriftOp g o).mem = s.mem := modWarp_mem ..

theorem keeps_tokenBack (s : State) (core : Nat) : Keeps id s (s.tokenBack core) ∧ (s.tokenBack core).mem = s.mem ∧
    ∀ g, (s.tokenBack core).groupAt g = s.groupAt g := by
  unfold State.tokenBack
  split
  · exact ⟨keeps_of_groups rfl rfl, rfl, fun _ => groupAt_of_groups rfl rfl _⟩
  · exact ⟨.refl s, rfl, fun _ => rfl⟩

/-- ACZ's next accumulator, if one is left, is zeroed. -/
theorem clears_zeros (rest : List MatrixOp) (s : State) (g : Nat) (o : MatrixOp) (hp : (s.group? g).isSome = true)
    (hw : o.w < (s.groupAt g).warps.length) :
    Clears (writesAcc rest o.w) g o.w (InAccs ((o.accs.drop o.pos).take 1)) s
      (s.putTile g o.w (o.accs.getD o.pos 0) true rest o.zeros) := by
  unfold MatrixOp.zeros
  split
  · next hleft =>
    refine (clears_putTile rest s g o.w _ hp hw).congr fun i => ?_
    rw [List.getD_eq_getElem _ _ hleft, inAccs_take_one hleft]
  · next hnone =>
    refine (clears_of_keeps (.refl s) rfl).congr fun i => ?_
    simp [InAccs, List.drop_of_length_le (Nat.le_of_not_lt hnone)]

theorem matrixTurn_acz {s : State} {g : Nat} {o : MatrixOp} {rest : List MatrixOp} (hops : (s.groupAt g).seq.ops = o :: rest)
    (hacz : o.acz = true) : s.matrixTurn g = true := by
  simp [State.matrixTurn, hops, hacz]

theorem matrixGo_acz {s : State} {g : Nat} {o : MatrixOp} {rest : List MatrixOp} (hops : (s.groupAt g).seq.ops = o :: rest)
    (hacz : o.acz = true) : s.matrixGo g = (s.matrixUnit g o rest).tokenBack (s.groupAt g).core := by
  unfold State.matrixGo
  rw [matrixTurn_acz hops hacz, hops]
  simp [hacz]

/-- A turn of the array at ACZ. -/
theorem clears_matrixGo {s : State} {g : Nat} {o : MatrixOp} {rest : List MatrixOp} (hp : (s.group? g).isSome = true)
    (hops : (s.groupAt g).seq.ops = o :: rest) (hacz : o.acz = true) (houts : o.outs = []) (hw : o.w < (s.groupAt g).warps.length) :
    Clears (writesAcc rest o.w) g o.w (InAccs ((o.accs.drop o.pos).take 1)) s (s.matrixGo g) ∧
      ((s.matrixGo g).groupAt g).seq.ops = o.flight rest := by
  obtain ⟨hkeeps, hmem, hgroup⟩ := keeps_tokenBack (s.matrixUnit g o rest) (s.groupAt g).core
  have hput := clears_zeros rest s g o hp hw
  rw [matrixGo_acz hops hacz, hgroup]
  suffices hunit : Clears (writesAcc rest o.w) g o.w (InAccs ((o.accs.drop o.pos).take 1)) s (s.matrixUnit g o rest) ∧
      ((s.matrixUnit g o rest).groupAt g).seq.ops = o.flight rest from ⟨hunit.1.keeps hkeeps hmem, hunit.2⟩
  rw [matrixUnit_acz s g rest hacz]
  have hmid : Clears (writesAcc rest o.w) g o.w (InAccs ((o.accs.drop o.pos).take 1)) s
      (if o.accs.length ≤ o.pos + 1 then (s.putTile g o.w (o.accs.getD o.pos 0) true rest o.zeros).undriftOp g o.moved
        else s.putTile g o.w (o.accs.getD o.pos 0) true rest o.zeros) := by
    split
    · exact hput.keeps (keeps_undriftOp _ g (o := o.moved) houts) (undriftOp_mem ..)
    · exact hput
  exact ⟨hmid.keeps ((Keeps.refl _).modGroup g _ fun _ => rfl) (modGroup_mem ..),
    congrArg (fun x : Group => x.seq.ops) (groupAt_modSeq _ g _ ((hmid.placed g).trans hp))⟩

/-! The array until ACZ has completed. -/

theorem matrixRun_done {s : State} {g k : Nat} (n : Nat) (h : (s.groupAt g).seq.ops.length < k) : s.matrixRun g k n = s := by
  cases n with
  | zero => rfl
  | succ n => exact if_pos h

theorem matrixRun_acz {s : State} {g : Nat} {o : MatrixOp} {rest : List MatrixOp} (n : Nat) (hops : (s.groupAt g).seq.ops = o :: rest)
    (hacz : o.acz = true) : s.matrixRun g (rest.length + 1) (n + 1) = (s.matrixGo g).matrixRun g (rest.length + 1) n := by
  rw [State.matrixRun, hops, if_neg (by simp), matrixTurn_acz hops hacz, if_pos rfl]

/-- ACZ's last turn ends its run. -/
theorem clears_lastTurn (g n : Nat) {s : State} {o : MatrixOp} {rest : List MatrixOp} (hp : (s.group? g).isSome = true)
    (hops : (s.groupAt g).seq.ops = o :: rest) (hacz : o.acz = true) (houts : o.outs = []) (hw : o.w < (s.groupAt g).warps.length)
    (hlast : o.accs.length ≤ o.pos + 1) :
    Clears (writesAcc rest o.w) g o.w (InAccs (o.accs.drop o.pos)) s (s.matrixRun g (rest.length + 1) (n + 1)) ∧
      ((s.matrixRun g (rest.length + 1) (n + 1)).groupAt g).seq.ops.length = rest.length := by
  obtain ⟨hgo, hflight⟩ := clears_matrixGo hp hops hacz houts hw
  rw [List.take_of_length_le (by rw [List.length_drop]; omega)] at hgo
  rw [MatrixOp.flight, if_pos hlast] at hflight
  have hlen : ((s.matrixGo g).groupAt g).seq.ops.length = rest.length := (congrArg List.length hflight).trans (length_taught ..)
  rw [matrixRun_acz n hops hacz, matrixRun_done n (hlen ▸ Nat.lt_succ_self _)]
  exact ⟨hgo, hlen⟩

/-- The array runs an ACZ to its end where its turns suffice for the accumulators that are left. -/
theorem clears_matrixRun (g n : Nat) {s : State} {o : MatrixOp} {rest : List MatrixOp} (hp : (s.group? g).isSome = true)
    (hops : (s.groupAt g).seq.ops = o :: rest) (hacz : o.acz = true) (houts : o.outs = []) (hw : o.w < (s.groupAt g).warps.length)
    (hn : o.accs.length - o.pos ≤ n) :
    Clears (writesAcc rest o.w) g o.w (InAccs (o.accs.drop o.pos)) s (s.matrixRun g (rest.length + 1) (n + 1)) ∧
      ((s.matrixRun g (rest.length + 1) (n + 1)).groupAt g).seq.ops.length = rest.length := by
  induction n generalizing s o rest with
  | zero => exact clears_lastTurn g 0 hp hops hacz houts hw (by omega)
  | succ n ih =>
    by_cases hlast : o.accs.length ≤ o.pos + 1
    · exact clears_lastTurn g (n + 1) hp hops hacz houts hw hlast
    · obtain ⟨hgo, hflight⟩ := clears_matrixGo hp hops hacz houts hw
      rw [MatrixOp.flight, if_neg hlast] at hflight
      have hleft : o.moved.accs.length - o.moved.pos ≤ n := by
        change o.accs.length - (o.pos + 1) ≤ n
        omega
      obtain ⟨hrun, hlen⟩ := ih (o := o.moved) ((hgo.placed g).trans hp) hflight hacz houts (by rw [hgo.warps_length]; exact hw) hleft
      rw [writesAcc_taught] at hrun
      rw [length_taught] at hrun hlen
      rw [matrixRun_acz _ hops hacz]
      refine ⟨(hgo.trans hrun).congr fun i => ?_, hlen⟩
      have hmore : o.pos < o.accs.length := by omega
      rw [inAccs_take_one hmore, inAccs_drop hmore]
      rfl

theorem mem_of_sget {α : Type} {m : Sparse α} {k : Nat} {v : α} (h : sget m k = some v) : (k, v) ∈ m := by
  induction m with
  | nil => cases h
  | cons e m ih =>
    obtain ⟨j, u⟩ := e
    rw [sget_cons] at h
    split at h
    · next hkey =>
      cases h
      exact hkey ▸ List.mem_cons_self
    · exact List.mem_cons_of_mem _ (ih h)

/-- The turns that MATRIX_COMPLETE allows suffice for the oldest operation of a placed group. -/
theorem left_le_matrixLeft {s : State} {g : Nat} {o : MatrixOp} {rest : List MatrixOp} (hp : (s.group? g).isSome = true)
    (hops : (s.groupAt g).seq.ops = o :: rest) : o.total - o.pos ≤ s.matrixLeft (s.groupAt g).core := by
  obtain ⟨x, hx⟩ := Option.isSome_iff_exists.1 hp
  have hat : s.groupAt g = x := by
    unfold State.groupAt
    rw [hx]
  rw [hat] at hops ⊢
  rw [State.matrixLeft, ← List.sum_eq_foldl]
  refine List.le_sum_of_mem (List.mem_flatMap.2 ⟨(g, x), List.mem_filter.2 ⟨mem_of_sget hx, beq_self_eq_true _⟩, ?_⟩)
  exact List.mem_map.2 ⟨o, hops ▸ List.mem_cons_self, rfl⟩

theorem matrixComplete_cons {s : State} {g : Nat} {o : MatrixOp} {rest : List MatrixOp} (hops : (s.groupAt g).seq.ops = o :: rest) :
    matrixComplete g s = (s.matrixRun g (rest.length + 1) (s.matrixLeft (s.groupAt g).core + 1)).wake := by
  simp [matrixComplete, hops]

/-- Settles O57: the array takes a turn for each accumulator that is left, which zeroes that accumulator and changes no other word. -/
theorem aczClearsAccumulators : Obligations.AczClearsAccumulators := by
  intro s g o rest hp hops hacz houts hw
  have htotal : o.total = o.accs.length := if_pos hacz
  obtain ⟨hrun, hlen⟩ := clears_matrixRun g _ hp hops hacz houts hw (htotal ▸ left_le_matrixLeft hp hops)
  have hall := hrun.keeps (u := (s.matrixRun g (rest.length + 1) (s.matrixLeft (s.groupAt g).core + 1)).wake) (keeps_of_groups rfl rfl) rfl
  refine ⟨_, congrArg Host.Outcome.next (matrixComplete_cons hops), fun a ha i hi => ?_, fun j w i hout => ?_,
    hlen, hall.uregs, hall.preds, hall.mem⟩
  · obtain ⟨hval, hpoison, hres, hfull⟩ := hall.zeroed (a + i) ⟨a, ha, by unfold InAcc; omega⟩
    refine ⟨hval, hpoison, hres, fun hfree => hfull ?_⟩
    simp only [writesAcc, List.any_eq_false, Bool.and_eq_true, beq_iff_eq, List.any_eq_true, decide_eq_true_eq]
    rintro m hm ⟨hwarp, b, hb, hwithin⟩
    have := hfree m hm hwarp b hb
    omega
  · refine hall.others j w i ?_
    rintro ⟨rfl, rfl, a, ha, hlow, hhigh⟩
    rcases hout a (List.mem_of_mem_drop ha) with h | h | h
    · exact h rfl
    · omega
    · omega

end Sys2Proof.Machine
end

section
open Sys2Proof Sys2Proof.Machine Sys2Proof.Claims
namespace Sys2Proof.Machine

/-! Stream instructions are performed (R320 to R324, R355 to R359). -/

/-- A row whose body takes effect, where it neither halts nor waits, is performed. -/
theorem performs_of_body {i : Instr} {e : Sx} {f : SFields} {body : Nat → SFields → State → SOut}
    (hexec : ∀ s, exec i s = runStream e.words f body s)
    (hbody : ∀ g s, e.halt g s = none → e.ready g s = true → body g f s = .ok (e.out g s) (e.jump g s)) : e.Ends i := by
  intro s g ht hhalt hready
  rw [hexec]
  simp [runStream, ht, hbody g s hhalt hready]

theorem matrixBody_goes {mms : Bool} {g : Nat} {f : SFields} {s : State} (hhalt : matrixHalt mms (s.groupAt g).seq f = none)
    (hready : (!matrixWait (s.groupAt g).seq f) = true) : matrixBody mms g f s = .ok (s.issueMatrix g (s.matrixOp mms g f)) none := by
  rw [Bool.not_eq_true'] at hready
  simp [matrixBody, hhalt, hready]

/-- SQW goes on once the phase has moved past the sequencer's token. -/
theorem sqwBody_goes {g : Nat} {f : SFields} {s : State} (hbar : ¬ (s.groupAt g).bars.length ≤ sBar f) (hgo : s.sqwGo g f = true) :
    sqwBody g f s = .ok s none := by
  rw [sqwBody, if_neg hbar, if_pos hgo]

/-- Settles O15: each body takes effect as its table says where the halt is none and nothing is waited for. -/
theorem streamInstructionsComplete : Obligations.StreamInstructionsComplete := by
  intro i e h
  cases i <;> cases h
  case mma f => exact performs_of_body (body := mmaBody) (fun _ => rfl) fun g s => matrixBody_goes (mms := false)
  case mms f => exact performs_of_body (body := mmsBody) (fun _ => rfl) fun g s => matrixBody_goes (mms := true)
  case bld f =>
    refine performs_of_body (body := bldBody) (fun _ => rfl) fun g s (hhalt : s.bldHalt g f = none) hready => ?_
    rw [Bool.not_eq_true'] at hready
    simp [bldBody, hhalt, hready]
  case acz f =>
    refine performs_of_body (body := aczBody) (fun _ => rfl) fun g s (hhalt : aczHalt _ f = none) hready => ?_
    have hroom : ¬ 2 ≤ (s.groupAt g).seq.ops.length := Nat.not_le.2 (of_decide_eq_true hready)
    simp [aczBody, hhalt, hroom]
  case sqw f =>
    refine performs_of_body (body := sqwBody) (fun _ => rfl) fun g s hhalt hgo => sqwBody_goes (fun hbar => ?_) hgo
    exact nomatch (if_pos hbar).symm.trans hhalt
  case sqa f =>
    refine performs_of_body (body := sqaBody) (fun _ => rfl) fun g s _ hready => ?_
    rw [Bool.not_eq_true'] at hready
    simp [sqaBody, hready]
  case sqlp f => exact performs_of_body (body := sqlpBody) (fun _ => rfl) fun _ _ _ _ => rfl
  case sqe f => exact performs_of_body (body := sqeBody) (f := f) (fun _ => rfl) fun _ _ _ _ => rfl

end Sys2Proof.Machine
end

section
open Sys2Proof Sys2Proof.Machine Sys2Proof.Claims
namespace Sys2Proof.Machine

/-! Instructions that hand work to sequencers, engines and access processors (R360 to R370, R474 to R480). -/

/-- An order taken from what the read of its descriptor leaves completes where that read is steady. -/
theorem order_ends {i : Instr} {op : Nat} {f : Fields} {ready : Ex → State → Bool} {seen : Ex → State → State} {order : Ex → State → Order}
    (hexec : ∀ s, exec i s = runInstr op f (fun x s => if !ready x s then .wait else orderBody (order x (seen x s)) x (seen x s)) s)
    (hseen : ∀ g x s, Steady false g s (seen x s)) : (orderFx op f ready seen order).Ends i := by
  refine ends_of_steady hexec (fun x s h => ?_) fun g x s => st_orderOut _ _ _ (hseen g x s)
  obtain ⟨hready, haccepted⟩ := Bool.and_eq_true_iff.1 h
  simp [orderBody, hready, haccepted, orderFx]

/-- A transport command completes. -/
theorem xcmd_ends {i : Instr} {op : Nat} {k : XKind} {f : Fields} (hexec : ∀ s, exec i s = runInstr op f (xcmdBody op k) s) :
    (xcmdFx op k f).Ends i := by
  refine ends_of_steady hexec (fun x s h => ?_) fun _ _ _ => st_xcmdOut _ _ _ _ (st_xSeen _ _ (Steady.refl ..))
  have hready : xcmdReady k x (xSeen x s) = true := h
  simp [xcmdBody, hready, xcmdFx]

/-- OPRF completes where its group's sequencer does not run, or the matrix instructions it waits for are done. -/
theorem oprf_ends (f : Fields) (e : Fx) (he : engineFx (.oprf f) = some e) : e.Ends (.oprf f) := by
  cases he
  refine ends_of_steady (body := oprfBody) (fun _ => rfl) (fun x s h => ?_) fun _ _ _ => st_oprfOut _ _ (Steady.refl ..)
  unfold oprfBody
  rcases Bool.or_eq_true_iff.1 h with hidle | hdone
  · exact if_pos hidle
  · rw [Bool.not_eq_true'] at hdone
    simp [hdone]

/-- The read of CCHN's descriptor is steady, whether or not its tag is poisoned. -/
theorem cchnSeen_steady (g : Nat) (x : Ex) (s : State) :
    Steady false g s (if (addrBad [s.readCode x x.f.a 0 x.low] 0).isSome then s
      else descSeen x (s.readCode x x.f.b 0 x.low) (if x.f.b6.toNat % 4 = 0 then 256 else 128) s) := by
  split
  · exact Steady.refl ..
  · exact st_descSeen _ _ _ _ (Steady.refl ..)

/-- Settles O8: the effect of each is steady, and its command is accepted from what the read of its descriptor leaves. -/
theorem engineInstructionsComplete : Obligations.EngineInstructionsComplete := by
  intro i e h
  have hrow := h
  unfold engineFx at h
  split at h
  · cases h; exact ends_when_ready (fun _ => rfl) fun _ _ _ => st_mseqOut _ _ (Steady.refl ..)
  · exact oprf_ends _ e hrow
  · cases h; exact ends_when_ready (fun _ => rfl) fun _ _ _ => st_mstqOut _ _ (Steady.refl ..)
  · cases h; exact order_ends (fun _ => rfl) fun _ _ _ => st_descSeen _ _ _ _ (Steady.refl ..)
  · cases h; exact order_ends (fun _ => rfl) fun _ _ _ => Steady.refl ..
  · cases h; exact order_ends (fun _ => rfl) cchnSeen_steady
  · cases h; exact ends_when_ready (fun _ => rfl) fun _ _ _ => st_apstOut _ _ (Steady.refl ..)
  · cases h; exact ends_when_ready (fun _ => rfl) fun _ _ _ => st_apstGoOut _ _ (Steady.refl ..)
  · cases h; exact ends_when_ready (fun _ => rfl) fun _ _ _ => st_apspOut _ _ (Steady.refl ..)
  · cases h; exact ends_when_ready (fun _ => rfl) fun _ _ _ => st_qmapOut _ _ (Steady.refl ..)
  · cases h; exact order_ends (fun _ => rfl) fun _ _ _ => st_descSeen _ _ _ _ (Steady.refl ..)
  · cases h; exact ends_when_ready (fun _ => rfl) fun _ _ _ => st_onceWrite _ _ _ (Steady.refl ..)
  · cases h; exact xcmd_ends fun _ => rfl
  · cases h; exact xcmd_ends fun _ => rfl
  · cases h; exact ends_when_ready (fun _ => rfl) fun _ _ _ => st_xrdVOut _ _ (Steady.refl ..)
  · cases h; exact xcmd_ends fun _ => rfl
  · cases h; exact ends_when_ready (fun _ => rfl) fun _ _ _ => st_xcngOut _ _ (Steady.refl ..)
  · cases h; exact ends_when_ready (fun _ => rfl) fun _ _ _ => st_xfenOut _ _ (Steady.refl ..)
  · cases h

end Sys2Proof.Machine
end

section
open Sys2Proof Sys2Proof.Machine Sys2Proof.Claims
namespace Sys2Proof.Machine

/-! The ring of cartouche records (R390). -/

/-- RIDX is bits 19:16 of FSTAT. -/
theorem ridxOf_eq (v : Word) : ridxOf v = (v.extractLsb' 16 4).toNat := by
  rw [BitVec.extractLsb'_toNat, Nat.shiftRight_eq_div_pow]
  rfl

theorem ridxOf_withRidx (v : Word) {n : Nat} (hn : n < 16) : ridxOf (withRidx v n) = n := by
  have hshift : (BitVec.ofNat 32 (n % 16) <<< 16).extractLsb' 16 4 = BitVec.ofNat 4 n := by
    apply BitVec.eq_of_toNat_eq
    simp only [BitVec.extractLsb'_toNat, BitVec.toNat_shiftLeft, BitVec.toNat_ofNat, Nat.shiftRight_eq_div_pow, Nat.shiftLeft_eq]
    omega
  have hbits : (withRidx v n).extractLsb' 16 4 = BitVec.ofNat 4 n := by
    rw [withRidx, BitVec.extractLsb'_or, BitVec.extractLsb'_and, hshift]
    simp
  rw [ridxOf_eq, hbits, BitVec.toNat_ofNat]
  exact Nat.mod_eq_of_lt hn

/-- An OVERFLOW record for those of `rs` that the ring does not keep. -/
structure Overflows (rs : List Cart) (c : Cart) : Prop where
  cause : c.cause = BitVec.ofNat 8 cOVERFLOW
  unit : c.unit = 0xFF
  detail : c.detail.toNat = min (rs.length - 15) 0xFFFFFFFF

/-- A ring since its clearing, once the records `rs` have been written. -/
structure RingHolds (rs : List Cart) (y : Fibre) : Prop where
  length : y.ring.length = 16
  index : ridxOf y.fstat = min rs.length 15
  first : ∀ i, i < 15 → y.ring.getD i {} = rs.getD i {}
  top : rs.length ≤ 16 → y.ring.getD 15 {} = rs.getD 15 {}
  beyond : 16 < rs.length → Overflows rs (y.ring.getD 15 {})
  flags : 15 < rs.length → (y.ring.getD 15 {}).flags = (rs.drop 15).foldl (fun m r => m ||| r.flags) 0

/-- Every record of `rs` has a cause, and none is an OVERFLOW record. -/
def OwnCauses (rs : List Cart) : Prop := ∀ r ∈ rs, r.cause ≠ 0 ∧ r.cause ≠ BitVec.ofNat 8 cOVERFLOW

theorem ringHolds_cleared {x : Fibre} (hring : x.ring = List.replicate 16 {}) (hindex : ridxOf x.fstat = 0) : RingHolds [] x where
  length := by rw [hring]; rfl
  index := hindex
  first i hi := by
    rw [hring, List.getD_replicate _ (by omega)]
    rfl
  top _ := by rw [hring]; rfl
  beyond h := nomatch h
  flags h := nomatch h

theorem getD_append_one (rs : List Cart) (r : Cart) (i : Nat) : (rs ++ [r]).getD i {} = if i = rs.length then r else rs.getD i {} := by
  rcases Nat.lt_trichotomy i rs.length with h | h | h
  · rw [List.getD_append _ _ _ _ h, if_neg (Nat.ne_of_lt h)]
  · rw [if_pos h, List.getD_append_right _ _ _ _ (Nat.le_of_eq h.symm), h, Nat.sub_self]
    rfl
  · rw [if_neg (Nat.ne_of_gt h), List.getD_eq_default _ _ (by simpa using h), List.getD_eq_default _ _ (Nat.le_of_lt h)]

theorem getD_set (ring : List Cart) (r : Cart) (n i : Nat) (hn : n < ring.length) :
    (ring.set n r).getD i {} = if i = n then r else ring.getD i {} := by
  rw [List.getD_eq_getElem?_getD, List.getElem?_set, List.getD_eq_getElem?_getD]
  split
  · next h => simp [← h]
  · next h => rw [if_neg (Ne.symm h)]

section
variable {rs : List Cart} {y : Fibre} {r : Cart}

/-- One of the first sixteen records goes to its own entry. -/
theorem ringPut_room (h : RingHolds rs y) (hroom : rs.length < 16) :
    ringPut y r = { y with ring := y.ring.set rs.length r, fstat := withRidx y.fstat (min (rs.length + 1) 15) } := by
  have hindex : ridxOf y.fstat = rs.length := h.index.trans (by omega)
  have hfree : (decide (rs.length < 15) || (y.ring.getD 15 {}).cause == 0) = true := by
    rcases Nat.lt_or_ge rs.length 15 with hlow | hlast
    · simp [hlow]
    · rw [h.top (by omega), List.getD_eq_default _ _ (by omega)]
      simp
  unfold ringPut
  dsimp only
  rw [hindex]
  exact if_pos hfree

theorem RingHolds.put_room (h : RingHolds rs y) (hroom : rs.length < 16) : RingHolds (rs ++ [r]) (ringPut y r) := by
  have hsame : ∀ i, y.ring.getD i {} = rs.getD i {} → (y.ring.set rs.length r).getD i {} = (rs ++ [r]).getD i {} := fun i hi => by
    rw [getD_set _ _ _ _ (h.length ▸ hroom), getD_append_one, hi]
  have htop := hsame 15 (h.top (Nat.le_of_lt hroom))
  rw [ringPut_room h hroom]
  refine ⟨by simpa using h.length, ?_, fun i hi => hsame i (h.first i hi), fun _ => htop, fun hover => ?_, fun hlast => ?_⟩
  · rw [ridxOf_withRidx _ (by omega), List.length_append, List.length_singleton]
  · rw [List.length_append, List.length_singleton] at hover
    omega
  · have hlen : rs.length = 15 := by
      rw [List.length_append, List.length_singleton] at hlast
      omega
    rw [htop, getD_append_one, if_pos hlen.symm, List.drop_append_of_le_length (Nat.le_of_eq hlen.symm), List.drop_of_length_le (Nat.le_of_eq hlen)]
    simp

/-- The OVERFLOW record that a later record leaves in entry 15, which held `top`. -/
def overflowOf (top r : Cart) : Cart :=
  { cause := BitVec.ofNat 8 cOVERFLOW, flags := top.flags ||| r.flags, unit := 0xFF
    slot := r.slot, fibre := r.fibre, cx := r.cx, cy := r.cy, pc := 0, addr := 0, lanes := 0
    detail := BitVec.ofNat 32 (min (if top.cause == BitVec.ofNat 8 cOVERFLOW then top.detail.toNat + 1 else 2) 0xFFFFFFFF) }

/-- Once the ring is full, entry 15 has a cause. -/
theorem RingHolds.top_cause (h : RingHolds rs y) (hc : OwnCauses rs) (hfull : 16 ≤ rs.length) : (y.ring.getD 15 {}).cause ≠ 0 := by
  rcases Nat.eq_or_lt_of_le hfull with hlen | hover
  · rw [h.top (Nat.le_of_eq hlen.symm), List.getD_eq_getElem _ _ (by omega)]
    exact (hc _ (List.getElem_mem _)).1
  · rw [(h.beyond hover).cause]
    decide

theorem ringPut_full (h : RingHolds rs y) (hc : OwnCauses rs) (hfull : 16 ≤ rs.length) :
    ringPut y r = { y with ring := y.ring.set 15 (overflowOf (y.ring.getD 15 {}) r) } := by
  have hindex : ridxOf y.fstat = 15 := h.index.trans (by omega)
  have htop := h.top_cause hc hfull
  unfold ringPut
  dsimp only
  rw [hindex]
  exact if_neg (by simpa using htop)

/-- The records not kept, as entry 15 counts them. -/
theorem overflowOf_detail (h : RingHolds rs y) (hc : OwnCauses rs) (hfull : 16 ≤ rs.length) :
    (overflowOf (y.ring.getD 15 {}) r).detail.toNat = min (rs.length + 1 - 15) 0xFFFFFFFF := by
  have hcount : min (if (y.ring.getD 15 {}).cause == BitVec.ofNat 8 cOVERFLOW then (y.ring.getD 15 {}).detail.toNat + 1 else 2) 0xFFFFFFFF =
      min (rs.length + 1 - 15) 0xFFFFFFFF := by
    rcases Nat.eq_or_lt_of_le hfull with hlen | hover
    · have hown : (y.ring.getD 15 {}).cause ≠ BitVec.ofNat 8 cOVERFLOW := by
        rw [h.top (Nat.le_of_eq hlen.symm), List.getD_eq_getElem _ _ (by omega)]
        exact (hc _ (List.getElem_mem _)).2
      rw [if_neg (by simpa using hown), ← hlen]
    · obtain ⟨hcause, -, hdetail⟩ := h.beyond hover
      rw [hcause, hdetail, if_pos (beq_self_eq_true _)]
      omega
  have hfits : min (rs.length + 1 - 15) 0xFFFFFFFF < 2 ^ 32 := by omega
  exact (congrArg (fun n => (BitVec.ofNat 32 n).toNat) hcount).trans (Nat.mod_eq_of_lt hfits)

theorem RingHolds.put_full (h : RingHolds rs y) (hc : OwnCauses rs) (hfull : 16 ≤ rs.length) : RingHolds (rs ++ [r]) (ringPut y r) := by
  have hlen : (rs ++ [r]).length = rs.length + 1 := by simp
  have hget := getD_set y.ring (overflowOf (y.ring.getD 15 {}) r) 15
  have htop := (hget 15 (by rw [h.length]; decide)).trans (if_pos rfl)
  rw [ringPut_full h hc hfull]
  refine ⟨by simpa using h.length, ?_, fun i hi => ?_, fun hroom => ?_, fun _ => ?_, fun _ => ?_⟩
  · rw [hlen]
    exact h.index.trans (by omega)
  · rw [getD_append_one, if_neg (by omega), ← h.first i hi]
    exact (hget i (by rw [h.length]; decide)).trans (if_neg (by omega))
  · omega
  · rw [htop]
    exact ⟨rfl, rfl, hlen ▸ overflowOf_detail h hc hfull⟩
  · rw [htop, List.drop_append_of_le_length (by omega), List.foldl_append, ← h.flags (by omega)]
    rfl

end

/-- The records of a ring from its clearing on. -/
theorem ringHolds_foldl {x : Fibre} (hx : RingHolds [] x) (rs : List Cart) (hc : OwnCauses rs) : RingHolds rs (rs.foldl ringPut x) := by
  induction rs using List.reverseRecOn with
  | nil => exact hx
  | append_singleton rs r ih =>
    have hrs : OwnCauses rs := fun c hmem => hc c (List.mem_append_left _ hmem)
    rw [List.foldl_append]
    rcases Nat.lt_or_ge rs.length 16 with hroom | hfull
    · exact (ih hrs).put_room hroom
    · exact (ih hrs).put_full hrs hfull

/-- Settles O36: what a ring holds, record by record from its clearing on. -/
theorem recordsFillTheRing : Obligations.RecordsFillTheRing := by
  intro x rs hring hindex hc
  have h : RingHolds rs (rs.foldl ringPut x) := ringHolds_foldl (ringHolds_cleared hring hindex) rs hc
  refine ⟨h.index, h.index, h.first, fun hlen => h.top (Nat.le_of_eq hlen), fun hover => ?_⟩
  obtain ⟨hcause, hunit, hdetail⟩ := h.beyond hover
  exact ⟨hcause, hunit, hdetail, h.flags (by omega)⟩

end Sys2Proof.Machine
end

section
open Sys2Proof Sys2Proof.Machine Sys2Proof.Claims
namespace Sys2Proof.Machine

/-! RGNO in an open region (R410). -/

theorem rgnoOut_inRegion {x : Ex} {s : State} (h : (s.fibreAt x.p.g x.p.w x.p.f).inRegion = true) : rgnoOut x s = s := by
  unfold rgnoOut
  exact if_pos h

/-- The start of an execution keeps its fibre's region open. -/
theorem start_inRegion (s : State) (p : Path) (f : Fields) (g w e : Nat) :
    ((s.start p f).fibreAt g w e).inRegion = (s.fibreAt g w e).inRegion :=
  congrArg (fun v : Word => v.getLsbD 6) (start_fstat s p f g w e)

/-- Settles O40: RGNO completes with what `rgnoOut` leaves, which in an open region is what it found. -/
theorem regionsFlatten : Obligations.RegionsFlatten := by
  intro s p q f h hopen
  have hends : Completes (.rgno f) s (s.exOf p 0xE0 f) (rgnoOut (s.exOf p 0xE0 f) (s.start p f)) [] :=
    tileAndRegionInstructionsComplete (.rgno f) _ rfl s p q h rfl nofun
  have hopen' : ((s.start p f).fibreAt p.g p.w p.f).inRegion = true := ((start_inRegion s p f p.g p.w p.f).trans hopen)
  rw [rgnoOut_inRegion (x := s.exOf p 0xE0 f) hopen'] at hends
  obtain ⟨t, hexec, hagree, hlanes⟩ := hends
  exact ⟨t, hexec, hagree, fun l hl hgood => hlanes l hl (start_lane_good h.placed (h.active l hl) hgood)⟩

end Sys2Proof.Machine
end

section
open Sys2Proof Sys2Proof.Machine Sys2Proof.Claims
namespace Sys2Proof.Machine

/-! A request to Denuf (R489, R490). -/

/-- The requests that stand, and the number that the next one gets, are the same. -/
structure AsksSame (s t : State) : Prop where
  sysc : t.sysc = s.sysc
  idN : t.idN = s.idN

theorem AsksSame.refl (s : State) : AsksSame s s := ⟨rfl, rfl⟩

theorem AsksSame.trans {s t u : State} (h : AsksSame s t) (k : AsksSame t u) : AsksSame s u :=
  ⟨k.sysc.trans h.sysc, k.idN.trans h.idN⟩

theorem asks_modFibre (s : State) (g w f : Nat) (k : Fibre → Fibre) : AsksSame s (s.modFibre g w f k) :=
  ⟨modFibre_sysc .., modFibre_idN ..⟩

theorem asks_modWarp (s : State) (g w : Nat) (k : Warp → Warp) : AsksSame s (s.modWarp g w k) :=
  ⟨modWarp_sysc .., modWarp_idN ..⟩

theorem asks_foldl {α : Type} {k : State → α → State} (hk : ∀ s a, AsksSame s (k s a)) (ls : List α) (s : State) :
    AsksSame s (ls.foldl k s) :=
  ⟨foldl_keeps State.sysc (fun s a => (hk s a).sysc) ls s, foldl_keeps State.idN (fun s a => (hk s a).idN) ls s⟩

theorem asks_settleFences (s : State) (g w f : Nat) : AsksSame s (s.settleFences g w f) := by
  refine asks_foldl (fun t e => ?_) ..
  split
  · exact .refl t
  · dsimp only
    split
    · exact (asks_modFibre ..).trans ⟨rfl, rfl⟩
    · exact asks_modFibre ..

theorem asks_driftRun (s : State) (g w n : Nat) (hist : List (List RegWord)) (is : List Nat) : AsksSame s (s.driftRun g w n hist is) :=
  (⟨rfl, rfl⟩ : AsksSame s { s with freeN := s.freeN + 256 }).trans (asks_modWarp ..)

/-- What settles before an execution asks nothing of Denuf. -/
theorem asks_settle (s : State) (g w f : Nat) : AsksSame s (s.settle g w f) :=
  (asks_settleFences s g w f).trans (asks_foldl (fun t _ => asks_foldl (fun u _ => asks_driftRun u ..) _ t) ..)

theorem asks_irrev (s : State) (x : Ex) : AsksSame s (s.irrev x) := by
  unfold State.irrev
  split
  · exact asks_modFibre ..
  · exact .refl s

/-- A request is appended, under the next number. -/
theorem syscSend_sysc (x : Ex) (bs : List Byte) (s : State) :
    (syscSend x bs s).sysc =
      s.sysc ++ [{ id := s.idN, g := x.p.g, w := x.p.w, f := x.p.f, pc := x.p.pc, lanes := x.parts, block := bs }] := by
  obtain ⟨hsysc, hid⟩ := asks_irrev s x
  rw [← hsysc, ← hid]
  rfl

/-- SYSC's body sends where no request of its path stands, its block can be read, and a request has room. -/
theorem syscBody_sends {x : Ex} {s : State} {bs : List Byte} (hready : s.ready x { b := false, c := false } = true)
    (hnone : s.syscOf x = none) (hblock : (s.syscSeen x (s.readCode x x.f.a 0 x.low)).syscBlock x (s.readCode x x.f.a 0 x.low) = .inl bs)
    (hrel : s.relReady x.p.g x.p.w x.p.f = true) (hroom : s.sysc.length < 256) : syscBody x s = .hold (syscSend x bs) := by
  simp [syscBody, hready, hnone, hblock, hrel, hroom]

/-- An instruction whose body holds its path back with a change makes that change to what the path's settling leaves, and its path is blocked. -/
theorem runInstr_hold {op : Nat} {f : Fields} {body : Ex → State → Out} {k : State → State} {s : State} {p : Path} {q : Option Path}
    (h : Issuing s p q op f) (hbody : body (s.exOf p op f) (s.start p f) = .hold k) :
    runInstr op f body s = .next ((k (s.settle p.g p.w p.f)).blockPath p) := by
  have hparts : (s.exOf p op f).parts.isEmpty = false := List.isEmpty_eq_false_iff.2 h.parts
  unfold State.start at hbody
  simp [runInstr, h.turn, runPath, h.window, h.free, hparts, hbody]

/-- Settles O46: the request joins those that stand, which settling leaves as they were, and the path is blocked. -/
theorem syscSendsRequest : Obligations.SyscSendsRequest := by
  intro s p q f bs h x s' v hready hnone hblock hrel hroom
  have hbody : syscBody x s' = .hold (syscSend x bs) := syscBody_sends hready hnone hblock hrel hroom
  refine ⟨_, runInstr_hold (body := syscBody) h hbody, rfl, ?_⟩
  obtain ⟨hsysc, hid⟩ := asks_settle s p.g p.w p.f
  exact (syscSend_sysc x bs _).trans (by rw [hsysc, hid]; rfl)

end Sys2Proof.Machine
end

section
open Sys2Proof Sys2Proof.Machine Sys2Proof.Claims
namespace Sys2Proof.Machine

/-! Steps of pre-emption, save and restore (R419 to R431). -/

theorem saveStart_happens (g : Nat) (e : Ev) (he : preemptEvent (.saveStart g) = some e) : e.Happens (.saveStart g) := by
  obtain rfl := Option.some.inj he
  refine happens_of_run (r := saveStart g) (fun _ => rfl) fun s t ht => ?_
  obtain ⟨hmay, rfl⟩ := given_eq_some.1 ht
  exact if_neg (by simpa [or_iff_not_imp_left, and_assoc, Option.isSome_iff_ne_none] using hmay)

theorem saveComplete_happens (g : Nat) (e : Ev) (he : preemptEvent (.saveComplete g) = some e) : e.Happens (.saveComplete g) := by
  obtain rfl := Option.some.inj he
  refine happens_of_run (r := saveComplete g) (fun _ => rfl) fun s t ht => ?_
  obtain ⟨hmay, rfl⟩ := given_eq_some.1 ht
  unfold saveComplete
  rw [if_neg (by simpa [or_iff_not_imp_left, and_assoc, Option.isSome_iff_ne_none] using hmay)]
  generalize s.modGroup g (fun x => { x with pre := .saved }) = u
  cases hall : (u.setOf g).all (fun m => (u.groupAt m).pre == .saved) <;> simp [hall]

theorem restoreStart_happens (g : Nat) (e : Ev) (he : preemptEvent (.restoreStart g) = some e) : e.Happens (.restoreStart g) := by
  obtain rfl := Option.some.inj he
  refine happens_of_run (r := restoreStart g) (fun _ => rfl) fun s t ht => ?_
  obtain ⟨v, hv, rfl⟩ := Option.map_eq_some_iff.1 ht
  unfold restoreStart
  rw [hv]

theorem restoreComplete_happens (g : Nat) (e : Ev) (he : preemptEvent (.restoreComplete g) = some e) : e.Happens (.restoreComplete g) := by
  obtain rfl := Option.some.inj he
  refine happens_of_run (r := restoreComplete g) (fun _ => rfl) fun s t ht => ?_
  obtain ⟨hmay, rfl⟩ := given_eq_some.1 ht
  exact if_neg (by simpa [or_iff_not_imp_left, Option.isSome_iff_ne_none] using hmay)

/-- Settles O24, one lemma for each step of saving and restoring. -/
theorem preemptionEventsHappen : Obligations.PreemptionEventsHappen := by
  intro i e he
  cases i with
  | timeSliceExpiry ctx =>
    obtain rfl := Option.some.inj he
    refine happens_of_run (r := timeSliceExpiry ctx) (fun _ => rfl) fun s t ht => ?_
    obtain ⟨hwaits, rfl⟩ := given_eq_some.1 ht
    exact if_neg (by simp [hwaits])
  | denufPreempt who =>
    cases who with
    | ctx c =>
      obtain rfl := Option.some.inj he
      exact happens_of_run (r := denufPreempt (.ctx c)) (fun _ => rfl) fun s t ht => Option.some.inj ht
    | launch n =>
      obtain rfl := Option.some.inj he
      exact happens_of_run (r := denufPreempt (.launch n)) (fun _ => rfl) fun s t ht => Option.some.inj ht
  | forcedSave g =>
    obtain rfl := Option.some.inj he
    refine happens_of_run (r := forcedSave g) (fun _ => rfl) fun s t ht => ?_
    obtain ⟨hlate, rfl⟩ := given_eq_some.1 ht
    exact if_pos hlate
  | saveStart g => exact saveStart_happens g e he
  | saveComplete g => exact saveComplete_happens g e he
  | restoreStart g => exact restoreStart_happens g e he
  | restoreComplete g => exact restoreComplete_happens g e he
  | _ => cases he

end Sys2Proof.Machine
end

section
open Sys2Proof Sys2Proof.Machine Sys2Proof.Claims
namespace Sys2Proof.Machine

/-! Timing and parity errors (R405, R406, R495, R496). -/

theorem timingReplay_happens (core unit : Nat) (second : Bool) (e : Ev) (he : errorEvent (.timingReplay core unit second) = some e) :
    e.Happens (.timingReplay core unit second) := by
  obtain rfl := Option.some.inj he
  refine happens_of_run (r := timingReplay core unit second) (fun _ => rfl) fun s t ht => ?_
  obtain ⟨hthere, rfl⟩ := given_eq_some.1 ht
  unfold timingReplay
  rw [if_neg (by simpa using hthere)]
  cases second <;> rfl

theorem spadFlaw_happens (g i : Nat) (e : Ev) (he : errorEvent (.parityError (.spad g i)) = some e) :
    e.Happens (.parityError (.spad g i)) := by
  obtain rfl := Option.some.inj he
  refine happens_of_run (r := fun s => s.spadFlaw g i) (fun _ => rfl) fun s t ht => ?_
  obtain ⟨hclean, rfl⟩ := given_eq_some.1 ht
  exact if_neg (by simpa using hclean)

theorem memFlaw_happens (wa : Nat) (found : Bool) (e : Ev) (he : errorEvent (.parityError (.mem wa found)) = some e) :
    e.Happens (.parityError (.mem wa found)) := by
  obtain rfl := Option.some.inj he
  refine happens_of_run (r := fun s => s.memFlaw wa found) (fun _ => rfl) fun s t ht => ?_
  obtain ⟨hplace, rfl⟩ := given_eq_some.1 ht
  exact if_neg (by simp [hplace])

theorem l1Flaw_happens (c wa : Nat) (e : Ev) (he : errorEvent (.parityError (.l1 c wa)) = some e) :
    e.Happens (.parityError (.l1 c wa)) := by
  obtain rfl := Option.some.inj he
  refine happens_of_run (r := fun s => s.l1Flaw c wa) (fun _ => rfl) fun s t ht => ?_
  obtain ⟨word, hword, rfl⟩ := Option.map_eq_some_iff.1 ht
  unfold State.l1Flaw
  rw [hword]

theorem atlasFlaw_happens (k g : Nat) (e : Ev) (he : errorEvent (.parityError (.atlas k g)) = some e) :
    e.Happens (.parityError (.atlas k g)) := by
  obtain rfl := Option.some.inj he
  refine happens_of_run (r := parityError (.atlas k g)) (fun _ => rfl) fun s t ht => ?_
  obtain ⟨hentry, rfl⟩ := given_eq_some.1 ht
  exact if_neg (by simpa using hentry)

/-- Only a tile that is not yet poisoned is poisoned by the error. -/
theorem bstoreFlaw_happens (g k i : Nat) (e : Ev) (he : errorEvent (.parityError (.bstore g k i)) = some e) :
    e.Happens (.parityError (.bstore g k i)) := by
  obtain rfl := Option.some.inj he
  refine happens_of_run (r := fun s => s.bstoreFlaw g k i) (fun _ => rfl) fun s t ht => ?_
  obtain ⟨⟨words, bad⟩, htile, ht⟩ := Option.bind_eq_some_iff.1 ht
  obtain ⟨hclean, rfl⟩ := given_eq_some.1 ht
  obtain rfl := Option.isNone_iff_eq_none.1 hclean
  unfold State.bstoreFlaw
  dsimp only
  rw [htile]
  rfl

theorem corrected_happens (unit unum dpa : Nat) (e : Ev) (he : errorEvent (.parityError (.corrected unit unum dpa)) = some e) :
    e.Happens (.parityError (.corrected unit unum dpa)) := by
  obtain rfl := Option.some.inj he
  refine happens_of_run (r := parityError (.corrected unit unum dpa)) (fun _ => rfl) fun s t ht => ?_
  obtain ⟨hstarted, rfl⟩ := given_eq_some.1 ht
  exact if_pos hstarted

/-- What an error in the control state of an agent does: a fibre freezes, a running sequencer halts. -/
theorem controlFlaw_happens (who : Who) (e : Ev) (he : errorEvent (.parityError (.control who)) = some e) :
    e.Happens (.parityError (.control who)) := by
  cases who with
  | fibre g w f =>
    obtain rfl := Option.some.inj he
    exact happens_of_run (r := parityError (.control (.fibre g w f))) (fun _ => rfl) fun s t ht => Option.some.inj ht
  | seq g =>
    obtain rfl := Option.some.inj he
    refine happens_of_run (r := parityError (.control (.seq g))) (fun _ => rfl) fun s t ht => ?_
    obtain ⟨hrunning, rfl⟩ := given_eq_some.1 ht
    exact if_pos hrunning
  | ap g n =>
    obtain rfl := Option.some.inj he
    exact happens_of_run (r := parityError (.control (.ap g n))) (fun _ => rfl) fun s t ht => Option.some.inj ht

/-- Settles O28, one lemma for each place where an error can be. -/
theorem errorEventsHappen : Obligations.ErrorEventsHappen := by
  intro i e he
  cases i with
  | timingReplay core unit second => exact timingReplay_happens core unit second e he
  | parityError flaw =>
    cases flaw with
    | control who => exact controlFlaw_happens who e he
    | spad g i => exact spadFlaw_happens g i e he
    | mem wa found => exact memFlaw_happens wa found e he
    | l1 c wa => exact l1Flaw_happens c wa e he
    | atlas k g => exact atlasFlaw_happens k g e he
    | bstore g k i => exact bstoreFlaw_happens g k i e he
    | corrected unit unum dpa => exact corrected_happens unit unum dpa e he
  | _ => cases he

end Sys2Proof.Machine
end

section
open Sys2Proof Sys2Proof.Machine Sys2Proof.Claims
namespace Sys2Proof.Machine

/-! Steps of transport, and answers to service calls (R465, R468 to R479, R489, R490). -/

/-- A packet of the device's own message goes to its own receiver. -/
theorem arrive_own {s v : State} {p : Packet}
    (h : ((s.xmsg? p.msg).bind fun m => if m.op = 0xD0 ∨ m.op = 0xD2 then (s.ownPacket m p.idx).map s.arrive else none) = some v) :
    ∃ m a, s.xmsg? p.msg = some m ∧ (m.op = 0xD0 ∨ m.op = 0xD2) ∧ s.ownPacket m p.idx = some a ∧ s.arrive a = v := by
  obtain ⟨m, hm, h⟩ := Option.bind_eq_some_iff.1 h
  obtain ⟨hop, h⟩ := Option.ite_none_right_eq_some.1 h
  obtain ⟨a, ha, h⟩ := Option.map_eq_some_iff.1 h
  exact ⟨m, a, hm, hop, ha, h⟩

theorem packetArrive_happens (p : Packet) (e : Ev) (he : transportEvent (.packetArrive p) = some e) : e.Happens (.packetArrive p) := by
  obtain rfl := Option.some.inj he
  refine happens_of_run (r := packetArrive p) (fun _ => rfl) fun s t ht => ?_
  unfold packetArrive
  split at ht
  · obtain ⟨m, hm, ht⟩ := Option.bind_eq_some_iff.1 ht
    obtain ⟨hop, rfl⟩ := given_eq_some.1 ht
    rw [hm]
    exact if_pos hop
  · split at ht
    · next hpeer => exact (if_pos hpeer).trans (Option.some.inj ht)
    · next hpeer =>
      obtain ⟨m, a, hm, hop, ha, rfl⟩ := arrive_own ht
      rw [if_neg hpeer, hm]
      simp [hop, ha]

theorem packetResend_happens (id i : Nat) (e : Ev) (he : transportEvent (.packetResend id i) = some e) : e.Happens (.packetResend id i) := by
  obtain rfl := Option.some.inj he
  refine happens_of_run (r := packetResend id i) (fun _ => rfl) fun s t ht => ?_
  obtain ⟨m, hm, ht⟩ := Option.bind_eq_some_iff.1 ht
  obtain ⟨hopen, rfl⟩ := given_eq_some.1 ht
  unfold packetResend
  rw [hm]
  exact if_neg (by simpa [or_iff_not_imp_left, and_assoc] using hopen)

theorem messageTimeout_happens (id : Nat) (e : Ev) (he : transportEvent (.messageTimeout id) = some e) : e.Happens (.messageTimeout id) := by
  obtain rfl := Option.some.inj he
  refine happens_of_run (r := messageTimeout id) (fun _ => rfl) fun s t ht => ?_
  obtain ⟨m, hm, ht⟩ := Option.bind_eq_some_iff.1 ht
  obtain ⟨hstarted, rfl⟩ := given_eq_some.1 ht
  unfold messageTimeout
  rw [hm]
  exact if_pos hstarted

theorem nobufDeadline_happens (id : Nat) (e : Ev) (he : transportEvent (.nobufDeadline id) = some e) : e.Happens (.nobufDeadline id) := by
  obtain rfl := Option.some.inj he
  refine happens_of_run (r := nobufDeadline id) (fun _ => rfl) fun s t ht => ?_
  obtain ⟨m, hm, ht⟩ := Option.bind_eq_some_iff.1 ht
  obtain ⟨hwaits, rfl⟩ := given_eq_some.1 ht
  unfold nobufDeadline
  rw [hm]
  exact if_pos hwaits

/-- A message to this device itself ends with the status of its receiver, once that has acted. -/
theorem finalAck_happens (id st : Nat) (e : Ev) (he : transportEvent (.finalAck id st) = some e) : e.Happens (.finalAck id st) := by
  obtain rfl := Option.some.inj he
  refine happens_of_run (r := finalAck id st) (fun _ => rfl) fun s t ht => ?_
  obtain ⟨m, hm, ht⟩ := Option.bind_eq_some_iff.1 ht
  unfold finalAck
  rw [hm]
  simp only [Bool.and_eq_true, Bool.or_eq_true, decide_eq_true_eq]
  split at ht
  · cases ht
  · next hstarted =>
    rw [if_neg hstarted]
    split at ht
    · next hread => rw [if_pos hread]; exact Option.some.inj ht
    · next hread =>
      rw [if_neg hread]
      split at ht
      · next hself =>
        rw [if_pos hself]
        obtain ⟨r, hr, ht⟩ := Option.bind_eq_some_iff.1 ht
        obtain ⟨hacted, rfl⟩ := given_eq_some.1 ht
        rw [hr]
        exact if_pos hacted
      · next hself =>
        rw [if_neg hself]
        split at ht
        · next hop =>
          rw [if_pos hop]
          split at ht
          · next hst => rw [if_pos hst]; exact Option.some.inj ht
          · cases ht
        · next hop =>
          rw [if_neg hop]
          split at ht
          · next hst => rw [if_pos (by simpa [or_assoc] using hst)]; exact Option.some.inj ht
          · cases ht

theorem congestionUpdate_happens (ctx : Byte) (peer : Nat) (ws : List Word) (e : Ev)
    (he : transportEvent (.congestionUpdate ctx peer ws) = some e) : e.Happens (.congestionUpdate ctx peer ws) := by
  obtain rfl := Option.some.inj he
  refine happens_of_run (r := congestionUpdate ctx peer ws) (fun _ => rfl) fun s t ht => ?_
  obtain ⟨x, hx, ht⟩ := Option.bind_eq_some_iff.1 ht
  obtain ⟨hpeer, rfl⟩ := given_eq_some.1 ht
  unfold congestionUpdate
  rw [hx]
  dsimp only
  rw [if_neg (by simpa [Option.isSome_iff_ne_none] using hpeer)]
  cases x.cfg.table <;> rfl

theorem syscAnswer_happens (id : Nat) (status : Word) (e : Ev) (he : transportEvent (.syscAnswer id status) = some e) :
    e.Happens (.syscAnswer id status) := by
  obtain rfl := Option.some.inj he
  refine happens_of_run (r := syscAnswer id status) (fun _ => rfl) fun s t ht => ?_
  obtain ⟨r, hr, ht⟩ := Option.bind_eq_some_iff.1 ht
  obtain ⟨hmay, rfl⟩ := given_eq_some.1 ht
  obtain ⟨hopen, hready⟩ := Bool.and_eq_true_iff.1 hmay
  unfold syscAnswer
  rw [hr]
  dsimp only
  rw [if_neg (by simpa using hopen), if_neg (by simpa [imp_iff_not_or] using hready)]

/-- Settles O27, one lemma for each step. -/
theorem transportEventsHappen : Obligations.TransportEventsHappen := by
  intro i e he
  cases i with
  | packetArrive p => exact packetArrive_happens p e he
  | packetResend id i => exact packetResend_happens id i e he
  | messageTimeout id => exact messageTimeout_happens id e he
  | nobufDeadline id => exact nobufDeadline_happens id e he
  | finalAck id st => exact finalAck_happens id st e he
  | congestionUpdate ctx peer ws => exact congestionUpdate_happens ctx peer ws e he
  | syscAnswer id status => exact syscAnswer_happens id status e he
  | _ => cases he

end Sys2Proof.Machine
end

section
open Sys2Proof Sys2Proof.Machine Sys2Proof.Claims
namespace Sys2Proof.Machine

/-! Steps of contexts, partitions, dies, the RAS ring and the board (R434 to R438, R445, R446, R456 to R459, R484 to R488, R493 to R496). -/

theorem partitionCut_happens (f n : Nat) (e : Ev) (he : systemEvent (.partitionCut f n) = some e) : e.Happens (.partitionCut f n) := by
  obtain rfl := Option.some.inj he
  refine happens_of_run (r := partitionCut f n) (fun _ => rfl) fun s t ht => ?_
  obtain ⟨hfree, rfl⟩ := given_eq_some.1 ht
  exact if_neg (by simpa [or_iff_not_imp_left, and_assoc] using hfree)

theorem partitionReset_happens (e : Ev) (he : systemEvent .partitionReset = some e) : e.Happens .partitionReset := by
  obtain rfl := Option.some.inj he
  refine happens_of_run (r := partitionReset) (fun _ => rfl) fun s t ht => ?_
  obtain ⟨hgo, rfl⟩ := given_eq_some.1 ht
  exact if_neg (by simp [hgo])

theorem partitionStart_happens (e : Ev) (he : systemEvent .partitionStart = some e) : e.Happens .partitionStart := by
  obtain rfl := Option.some.inj he
  refine happens_of_run (r := partitionStart) (fun _ => rfl) fun s t ht => ?_
  obtain ⟨hmay, rfl⟩ := given_eq_some.1 ht
  exact if_neg (by simpa [or_iff_not_imp_left, and_assoc] using hmay)

theorem dieReplace_happens (slice : Nat) (e : Ev) (he : systemEvent (.dieReplace slice) = some e) : e.Happens (.dieReplace slice) := by
  obtain rfl := Option.some.inj he
  refine happens_of_run (r := dieReplace slice) (fun _ => rfl) fun s t ht => ?_
  unfold dieReplace
  dsimp only at ht
  split at ht
  · cases ht
  · next hhere =>
    rw [if_neg (by simpa [or_assoc] using hhere)]
    split at ht
    · next hplaced =>
      obtain ⟨hnew, rfl⟩ := given_eq_some.1 ht
      rw [if_pos hplaced, if_neg (by simpa using hnew)]
    · next hplaced =>
      rw [if_neg hplaced, ← Option.some.inj ht]
      dsimp only
      cases (s.allCores.filter fun c => s.sliceOf c == slice).all s.l1Quiet <;> rfl

theorem layerMapOut_happens (slice layer : Nat) (e : Ev) (he : systemEvent (.layerMapOut slice layer) = some e) :
    e.Happens (.layerMapOut slice layer) := by
  obtain rfl := Option.some.inj he
  refine happens_of_run (r := layerMapOut slice layer) (fun _ => rfl) fun s t ht => ?_
  obtain ⟨hmay, rfl⟩ := given_eq_some.1 ht
  unfold layerMapOut
  dsimp only
  rw [if_neg (by simpa [or_iff_not_imp_left, and_assoc] using hmay)]
  cases s.removing.contains (slice, layer) with
  | false => rfl
  | true => cases s.unmapRange (slice * 2 ^ 40 + 2048 * layer * 2 ^ 21) (2048 * 2 ^ 21) <;> rfl

theorem mailboxRequest_happens (req : List Byte) (e : Ev) (he : systemEvent (.mailboxRequest req) = some e) :
    e.Happens (.mailboxRequest req) := by
  obtain rfl := Option.some.inj he
  refine happens_of_run (r := mailboxRequest req) (fun _ => rfl) fun s t ht => ?_
  obtain ⟨hroom, rfl⟩ := given_eq_some.1 ht
  exact if_neg (by simpa using hroom)

theorem powerUp_happens (ok : Bool) (digest : List Byte) (e : Ev) (he : systemEvent (.powerUp ok digest) = some e) :
    e.Happens (.powerUp ok digest) := by
  obtain rfl := Option.some.inj he
  refine happens_of_run (r := powerUp ok digest) (fun _ => rfl) fun s t ht => ?_
  obtain ⟨hoff, rfl⟩ := given_eq_some.1 ht
  unfold powerUp
  rw [if_neg (by simpa using hoff)]
  rfl

theorem firmwareReflash_happens (ok : Bool) (e : Ev) (he : systemEvent (.firmwareReflash ok) = some e) : e.Happens (.firmwareReflash ok) := by
  obtain rfl := Option.some.inj he
  refine happens_of_run (r := firmwareReflash ok) (fun _ => rfl) fun s t ht => ?_
  obtain ⟨hfailed, rfl⟩ := given_eq_some.1 ht
  exact if_pos (by simpa using hfailed)

/-- Cores come up in row-major order. -/
theorem coreUp_happens (core : Nat) (e : Ev) (he : systemEvent (.coreUp core) = some e) : e.Happens (.coreUp core) := by
  obtain rfl := Option.some.inj he
  refine happens_of_run (r := coreUp core) (fun _ => rfl) fun s t ht => ?_
  obtain ⟨hmay, rfl⟩ := given_eq_some.1 ht
  obtain ⟨hdown, hbefore⟩ := Bool.and_eq_true_iff.1 hmay
  unfold coreUp
  rw [if_neg (by simpa [or_iff_not_imp_left, and_assoc] using hdown), if_neg (by simp [hbefore])]

theorem mgmtCoreFail_happens (n : Nat) (e : Ev) (he : systemEvent (.mgmtCoreFail n) = some e) : e.Happens (.mgmtCoreFail n) := by
  obtain rfl := Option.some.inj he
  refine happens_of_run (r := mgmtCoreFail n) (fun _ => rfl) fun s t ht => ?_
  obtain ⟨r, hr, rfl⟩ := Option.map_eq_some_iff.1 ht
  unfold mgmtCoreFail
  rw [hr]
  dsimp only
  cases (s.mgmt.set n .failed).findIdx? (fun r => r == .spare) <;> rfl

theorem clockThrottle_happens (die : Nat) (low : Bool) (e : Ev) (he : systemEvent (.clockThrottle die low) = some e) :
    e.Happens (.clockThrottle die low) := by
  obtain rfl := Option.some.inj he
  refine happens_of_run (r := clockThrottle die low) (fun _ => rfl) fun s t ht => ?_
  obtain ⟨hdie, rfl⟩ := given_eq_some.1 ht
  exact if_neg (by simpa using hdie)

/-- Binding a bound context changes what Denuf may change of it; a new one is granted its memory, and a free key where it is protected. -/
theorem contextBind_happens (c : CtxCfg) (e : Ev) (he : systemEvent (.contextBind c) = some e) : e.Happens (.contextBind c) := by
  obtain rfl := Option.some.inj he
  refine happens_of_run (r := contextBind c) (fun _ => rfl) fun s t ht => ?_
  obtain ⟨hmay, rfl⟩ := given_eq_some.1 ht
  obtain ⟨hup, hopen⟩ := Bool.and_eq_true_iff.1 hmay
  unfold contextBind
  rw [if_neg (by simpa [or_iff_not_imp_left] using hup)]
  cases hbound : (s.ctx? c.num).isSome with
  | true => rfl
  | false =>
    have hclear : s.scrub.ctl.getLsbD 1 = false := by simpa [hbound] using hopen
    rw [hclear]
    rfl

/-- Settles O29, one lemma for each step that has a condition or a choice. -/
theorem systemEventsHappen : Obligations.SystemEventsHappen := by
  intro i e he
  cases i with
  | teardown ctx =>
    obtain rfl := Option.some.inj he
    exact happens_of_run (r := teardown ctx) (fun _ => rfl) fun s t ht => Option.some.inj ht
  | scrctlGo =>
    obtain rfl := Option.some.inj he
    exact happens_of_run (r := scrctlGo) (fun _ => rfl) fun s t ht => Option.some.inj ht
  | scrctlBlock =>
    obtain rfl := Option.some.inj he
    exact happens_of_run (r := scrctlBlock) (fun _ => rfl) fun s t ht => Option.some.inj ht
  | scrstat v =>
    obtain rfl := Option.some.inj he
    exact happens_of_run (r := scrstat v) (fun _ => rfl) fun s t ht => Option.some.inj ht
  | scrubDone bad =>
    obtain rfl := Option.some.inj he
    refine happens_of_run (r := scrubDone bad) (fun _ => rfl) fun s t ht => ?_
    obtain ⟨hgo, rfl⟩ := given_eq_some.1 ht
    exact if_pos hgo
  | partitionReset => exact partitionReset_happens e he
  | partitionCut f n => exact partitionCut_happens f n e he
  | dieReplace slice => exact dieReplace_happens slice e he
  | dieLost slice =>
    obtain rfl := Option.some.inj he
    exact happens_of_run (r := dieLost slice) (fun _ => rfl) fun s t ht => Option.some.inj ht
  | layerMapOut slice layer => exact layerMapOut_happens slice layer e he
  | mailboxRequest req => exact mailboxRequest_happens req e he
  | eventRingConsume n =>
    obtain rfl := Option.some.inj he
    exact happens_of_run (r := eventRingConsume n) (fun _ => rfl) fun s t ht => Option.some.inj ht
  | rastail v =>
    obtain rfl := Option.some.inj he
    exact happens_of_run (r := rastail v) (fun _ => rfl) fun s t ht => Option.some.inj ht
  | rasstat v =>
    obtain rfl := Option.some.inj he
    exact happens_of_run (r := rasstat v) (fun _ => rfl) fun s t ht => Option.some.inj ht
  | powerUp ok digest => exact powerUp_happens ok digest e he
  | firmwareReflash ok => exact firmwareReflash_happens ok e he
  | powerLoss =>
    obtain rfl := Option.some.inj he
    exact happens_of_run (r := powerLoss) (fun _ => rfl) fun s t ht => Option.some.inj ht
  | partitionStart => exact partitionStart_happens e he
  | coreUp core => exact coreUp_happens core e he
  | mgmtCoreFail n => exact mgmtCoreFail_happens n e he
  | clockThrottle die low => exact clockThrottle_happens die low e he
  | contextBind c => exact contextBind_happens c e he
  | _ => cases he

end Sys2Proof.Machine
end
